-- ==== Sys2Proof/Word.lean ====
section
/-!
DEFINITION. The word types: bytes, 32-bit words and 64-bit words.
-/

namespace Sys2Proof

abbrev Byte := BitVec 8
abbrev Word := BitVec 32
abbrev Long := BitVec 64

end Sys2Proof
end

