-- ==== Sys2Proof/Syntax.lean ====
section
/-!
DEFINITION. The commands of the P96: one constructor for each row of spec/opcode_table.json, with its operands. The P96 is a
block: these are the host's commands, the words its control cores and kettles run, and the events that its own engines,
timers, links, pins and controllers produce.

Operands. `fn` is a PCIe function, 0 the PF and n the VF of partition n - 1 (R427); `ring` one of its ring pairs; `p` a
partition; `b` a bay; `t` a logical tile; `st` a stack (its kettle); `port` a Lanoip port. A host command carries no
operands of its own: its 64-byte descriptor is fetched from the submission ring (R431). A tile word and a kettle
instruction are fetched from the program at the program counter (R160, R246).
-/

namespace Sys2Proof

/-- A Lanoip message, whole (R315): the flit header's addressing, the fields of *Collective message header*, the fields
whose byte layout spec/ does not give (`args`), and the payload after the header, its CRC-64 included where R315 gives one. -/
structure Msg where
  src : Nat
  dst : Nat
  vc : Nat
  ty : Nat
  nak : Bool
  epoch : Nat
  comm : Nat
  op : Nat
  opNo : Nat
  seg : Nat
  rank : Nat
  step : Nat
  args : List Nat
  data : List Byte
  deriving DecidableEq, Repr

/-- The commands. -/
inductive Instr where
  /-- NOP (R438): Host command that does nothing and completes with OK and a result of 0. -/
  | nop (fn ring : Nat)
  /-- RESERVED_OPCODE (R528): A fetched descriptor with an opcode the P96 does not define completes with BAD_OPCODE. -/
  | reservedOpcode (fn ring : Nat)
  /-- PROG_LOAD (R439): Copies command words from host memory into the program stores of the named tiles, and can set the DECODE and DRAFT entry indices. -/
  | progLoad (fn ring : Nat)
  /-- LEARN_STEP (R440): Launches one learn step on the LEARN and AUXILIARY tiles of a partition in LEARN phase. -/
  | learnStep (fn ring : Nat)
  /-- WEIGHT_LOAD (R442): Copies weights from the host into a region; CLOSE closes the capo barrier first, and INSTALL reloads residents, sets the version and lifts the barrier. -/
  | weightLoad (fn ring : Nat)
  /-- FILL (R441): Writes a repeated 8-byte pattern over an HBM or LPDDR5X range of the partition's bays. -/
  | fill (fn ring : Nat)
  /-- IMAGE_STAGE (R65): Reads and checks a Druco image, writes the load report, takes its digest and gives an accepted image a handle. -/
  | imageStage (fn ring : Nat)
  /-- IMAGE_APPLY (R75): Applies a staged image to a partition or to the whole device, makes EPOCH current and sets PHASE. -/
  | imageApply (fn ring : Nat)
  /-- IMAGE_RELEASE (R67): Forgets a staged image handle unless an open turn names it. -/
  | imageRelease (fn ring : Nat)
  /-- LOADER_APPLY_START (R71): The loader starts the next queued apply, turn step 3 or 8 or sparge once the one before it has finished. -/
  | loaderApplyStart
  /-- DRAIN_WINDOW_END (R448): At the end of a disable's drain window, commands still running are stopped with ABORTED_DISABLE and any sparge or apply proceeds. -/
  | drainWindowEnd (p : Nat)
  /-- SEQ_SUBMIT (R368): Checks sequence descriptors in list order and queues each legal one for admission on a bay. -/
  | seqSubmit (fn ring : Nat)
  /-- SEQ_CANCEL (R390): Cancels a live or queued sequence at the next boundary, or at once when no step runs. -/
  | seqCancel (fn ring : Nat)
  /-- KV_EDIT (R411): Queues a RESERVE or RELEASE edit of a sequence's page table, applied at the boundary or at once when no step runs. -/
  | kvEdit (fn ring : Nat)
  /-- TURN_BEGIN (R17): Starts a synchronous turn from rollout into learn phase through steps 1 to 4. -/
  | turnBegin (fn ring : Nat)
  /-- TURN_COMMIT (R25): Ends the learn phase of a turn through the copy sweep, park, staging, install, audit and lift of steps 6 to 9. -/
  | turnCommit (fn ring : Nat)
  /-- TURN_ABANDON (R29): Abandons an open turn at the end of the step in progress and returns the partition to rollout when it can. -/
  | turnAbandon (fn ring : Nat)
  /-- COMM_REJOIN (R352): Applies a staged learn image, makes EPOCH current and fences the new communicator with ROLLBACK_STEP. -/
  | commRejoin (fn ring : Nat)
  /-- BATCH_PUT (R356): Appends a batch record to a local or remote learner's batch pool. -/
  | batchPut (fn ring : Nat)
  /-- POLICY_SWAP (R395): Installs a new policy version by live refresh on a rollout device. -/
  | policySwap (fn ring : Nat)
  /-- POLICY_PUBLISH (R394): Sweeps, fences and broadcasts an owner's rollout copy, and waits for the audit of a new version. -/
  | policyPublish (fn ring : Nat)
  /-- MOVE (R218): Host command that runs one move descriptor on the chip move engine. -/
  | move (fn ring : Nat)
  /-- STATE_MOVE (R228): Parks or unparks the owned optimiser state outside a turn. -/
  | stateMove (fn ring : Nat)
  /-- CKPT_WRITE (R232): Writes the partition's optimiser state as a new own checkpoint generation and streams it to the buddy holder. -/
  | ckptWrite (fn ring : Nat)
  /-- CKPT_LOAD (R234): Loads a checkpoint generation from the own or buddy copy into the optimiser regions. -/
  | ckptLoad (fn ring : Nat)
  /-- FLASH_WRITE (R236): Writes data into the namespace beyond the checkpoint slots. -/
  | flashWrite (fn ring : Nat)
  /-- FLASH_TRIM (R236): Trims a namespace range beyond the checkpoint slots. -/
  | flashTrim (fn ring : Nat)
  /-- KETTLE_RESUME (R268): Continues an interrupted kettle run from block COMMITTED on the named stacks. -/
  | kettleResume (fn ring : Nat)
  /-- KETTLE_ABANDON (R269): Sets JSTATE to IDLE on the named stacks and leaves the shard mixed. -/
  | kettleAbandon (fn ring : Nat)
  /-- ATTEST_REPORT (R475): Writes a signed attestation report of a partition view or the device view. -/
  | attestReport (fn ring : Nat)
  /-- SPARGE (R455): Host command that disables a partition and then scrubs it. -/
  | sparge (fn ring : Nat)
  /-- FW_UPDATE (R474): Verifies a firmware image from host memory and programs it into the SPI NOR. -/
  | fwUpdate (fn ring : Nat)
  /-- LC_ADVANCE (R467): Advances the life-cycle state under a signed authorisation block. -/
  | lcAdvance (fn ring : Nat)
  /-- AUTH_CHALLENGE (R468): Issues a fresh 32-byte challenge that replaces the previous one. -/
  | authChallenge (fn ring : Nat)
  /-- DEBUG_UNLOCK (R470): Unlocks a debug state under a signed authorisation block until the next warm reset. -/
  | debugUnlock (fn ring : Nat)
  /-- NS_CLEAR (R477): Trims the partition's whole flash namespace, checkpoint slots included. -/
  | nsClear (fn ring : Nat)
  /-- REPLAY_RUN (R501): Re-runs a replay capture on a partition and compares its outputs with the recorded ones. -/
  | replayRun (fn ring : Nat)
  /-- FAULT_RELEASE (R492): Releases a HELD or contained scope. -/
  | faultRelease (fn ring : Nat)
  /-- FAULT_INJECT (R503): Raises a fault source on an instance as though it had been detected. -/
  | faultInject (fn ring : Nat)
  /-- CTL_NOP (R165): Control word that does nothing. -/
  | ctlNop (t : Nat)
  /-- CTL_LI (R165): Loads a 64-bit immediate into a scalar register. -/
  | ctlLi (t : Nat)
  /-- CTL_ALU (R165): Performs a scalar ALU operation. -/
  | ctlAlu (t : Nat)
  /-- CTL_BR (R174): Conditional, direct or indirect branch with an optional link. -/
  | ctlBr (t : Nat)
  /-- CTL_LOOP (R172): Runs a loop body in COUNT or STRIP mode. -/
  | ctlLoop (t : Nat)
  /-- CTL_MOD (R175): Adds register values into fields of the next word fetched. -/
  | ctlMod (t : Nat)
  /-- CTL_VXFER (R165): Moves one element between a vector register and a scalar register. -/
  | ctlVxfer (t : Nat)
  /-- CTL_RDCR (R166): Reads a control register into a scalar register. -/
  | ctlRdcr (t : Nat)
  /-- CTL_WRCR (R166): Clears NUM_FLAGS bits through control register 1. -/
  | ctlWrcr (t : Nat)
  /-- CTL_END (R159): Ends the tile program once every dispatched word has completed. -/
  | ctlEnd (t : Nat)
  /-- MXM_LOADW (R112): Loads a stationary block into SHADOW. -/
  | mxmLoadw (t : Nat)
  /-- MXM_MUL (R116): Streams rows against FRONT, after an optional swap, into the accumulator. -/
  | mxmMul (t : Nat)
  /-- MXM_DRAIN (R126): Converts and writes an accumulator tile to scratchpad, with optional sum of squares and thinning. -/
  | mxmDrain (t : Nat)
  /-- MXM_GROUP (R134): Runs grouped expert products over a group table on the four sub-arrays. -/
  | mxmGroup (t : Nat)
  /-- MXM_FENCE (R125): Completes when every earlier MXM instruction of the tile has completed. -/
  | mxmFence (t : Nat)
  /-- VEC_SETVL (R142): Sets VL and REMAIN from a requested count. -/
  | vecSetvl (t : Nat)
  /-- VEC_ADD (R146): Element-wise addition. -/
  | vecAdd (t : Nat)
  /-- VEC_MUL (R146): Element-wise multiplication. -/
  | vecMul (t : Nat)
  /-- VEC_FMA (R146): Element-wise fused multiply-add. -/
  | vecFma (t : Nat)
  /-- VEC_MIN (R147): Element-wise minimumNumber. -/
  | vecMin (t : Nat)
  /-- VEC_MAX (R147): Element-wise maximumNumber. -/
  | vecMax (t : Nat)
  /-- VEC_CMP (R148): Element-wise comparison into a mask register. -/
  | vecCmp (t : Nat)
  /-- VEC_SEL (R146): Element-wise selection under a mask. -/
  | vecSel (t : Nat)
  /-- VEC_EST (R150): Correctly rounded 12-bit estimate of EXP2, LOG2, RCP or RSQ. -/
  | vecEst (t : Nat)
  /-- VEC_RSUM (R149): Sums elements over the fixed tree into element 0. -/
  | vecRsum (t : Nat)
  /-- VEC_RMAX (R149): Takes the maximum of elements over the fixed tree into element 0. -/
  | vecRmax (t : Nat)
  /-- VEC_LD (R151): Loads VL elements from scratchpad as exact values. -/
  | vecLd (t : Nat)
  /-- VEC_ST (R151): Stores VL elements to scratchpad with conversion. -/
  | vecSt (t : Nat)
  /-- MOV_DESC (R217): Starts the move described at DESC on the tile's move engine. -/
  | movDesc (t : Nat)
  /-- MOV_STEEP (R224): Raises the steep-list cursor and releases the entries whose GATE it reaches. -/
  | movSteep (t : Nat)
  /-- MOV_COPY (R178): Copies words to another tile, optionally signalling its counter on landing. -/
  | movCopy (t : Nat)
  /-- BNK_ADD (R193): Bank-side addition into a destination range. -/
  | bnkAdd (t : Nat)
  /-- BNK_MAX (R193): Bank-side maximum into a destination range. -/
  | bnkMax (t : Nat)
  /-- BNK_SADD (R193): Bank-side scaled addition into a destination range. -/
  | bnkSadd (t : Nat)
  /-- BNK_WIDEN (R195): Bank-side widening of a narrow or scaled range. -/
  | bnkWiden (t : Nat)
  /-- BNK_CONVERT (R196): Bank-side conversion with capture of block maxima. -/
  | bnkConvert (t : Nat)
  /-- BNK_RMAXCAP (R196): Captures block maxima into a scale record without writing a destination. -/
  | bnkRmaxcap (t : Nat)
  /-- XCH_COUNTS (R343): Counts routes, exchanges counts, runs the fit check and writes the group tables. -/
  | xchCounts (t : Nat)
  /-- XCH_DISPATCH (R345): Sends token rows to their experts' receive rows. -/
  | xchDispatch (t : Nat)
  /-- XCH_COMBINE (R345): Returns expert output rows to the issuing tile. -/
  | xchCombine (t : Nat)
  /-- XCH_BDISPATCH (R345): Sends output gradients to the expert tiles. -/
  | xchBdispatch (t : Nat)
  /-- XCH_BCOMBINE (R345): Returns input gradients to the issuing tile. -/
  | xchBcombine (t : Nat)
  /-- XCH_COLL_REDUCE_SCATTER (R275): Starts a gradient reduction to the owners. -/
  | xchCollReduceScatter (t : Nat)
  /-- XCH_COLL_ALL_GATHER (R326): Starts an all-gather of owners' shards down their trees. -/
  | xchCollAllGather (t : Nat)
  /-- XCH_COLL_ALL_TO_ALL (R326): Starts an all-to-all exchange of blocks. -/
  | xchCollAllToAll (t : Nat)
  /-- XCH_COLL_BROADCAST (R326): Starts a broadcast from ROOT down its tree. -/
  | xchCollBroadcast (t : Nat)
  /-- XCH_COLL_SCALAR_ALLREDUCE (R295): Starts a scalar all-reduce, or the step norm when NORM is set. -/
  | xchCollScalarAllreduce (t : Nat)
  /-- XCH_COLL_BARRIER (R326): Starts a barrier over the communicator. -/
  | xchCollBarrier (t : Nat)
  /-- ATT_WALK (R414): Gathers latent rows of positions from the frets into scratchpad. -/
  | attWalk (t : Nat)
  /-- ATT_APPEND (R414): Writes latent rows into the sequence's frets. -/
  | attAppend (t : Nat)
  /-- ATT_INFO (R414): Reads the slot's length into a scalar register. -/
  | attInfo (t : Nat)
  /-- SYN_WAIT (R171): Holds dispatch until an event counter reaches N, optionally consuming it. -/
  | synWait (t : Nat)
  /-- SYN_SIGNAL (R178): Adds N to a counter of this tile, another tile or a kettle. -/
  | synSignal (t : Nat)
  /-- SYN_FENCE (R171): Holds dispatch until earlier words of the marked classes have completed. -/
  | synFence (t : Nat)
  /-- WORD_COMPLETE (R163): A dispatched word completes, and its SIG increment takes effect. -/
  | wordComplete (t id : Nat)
  /-- SYNC_TIMEOUT (R180): A SYN.WAIT that exceeds the effective wait limit fails and stops the step. -/
  | syncTimeout (t : Nat)
  /-- STEP_END (R158): A learn step ends once every tile and kettle program it started has finished. -/
  | stepEnd (p : Nat)
  /-- KETTLE_NOP (R243): Kettle instruction that does nothing. -/
  | kettleNop (st : Nat)
  /-- KETTLE_LD (R243): Loads an element of a stream into a kettle register. -/
  | kettleLd (st : Nat)
  /-- KETTLE_ST (R259): Stores a register to a stream with conversion and capture. -/
  | kettleSt (st : Nat)
  /-- KETTLE_ADD (R243): Kettle addition. -/
  | kettleAdd (st : Nat)
  /-- KETTLE_MUL (R243): Kettle multiplication. -/
  | kettleMul (st : Nat)
  /-- KETTLE_FMA (R243): Kettle fused multiply-add. -/
  | kettleFma (st : Nat)
  /-- KETTLE_MIN (R243): Kettle minimumNumber. -/
  | kettleMin (st : Nat)
  /-- KETTLE_MAX (R243): Kettle maximumNumber. -/
  | kettleMax (st : Nat)
  /-- KETTLE_CMP (R243): Kettle comparison to +1.0 or +0. -/
  | kettleCmp (st : Nat)
  /-- KETTLE_SEL (R243): Kettle selection on a value. -/
  | kettleSel (st : Nat)
  /-- KETTLE_SELV (R258): Kettle selection on whether the element's expert was visited. -/
  | kettleSelv (st : Nat)
  /-- KETTLE_EST (R243): Kettle estimate under R150. -/
  | kettleEst (st : Nat)
  /-- KETTLE_DIV (R245): Correctly rounded kettle division. -/
  | kettleDiv (st : Nat)
  /-- KETTLE_SQRT (R245): Correctly rounded kettle square root. -/
  | kettleSqrt (st : Nat)
  /-- KETTLE_RUN_START (R247): A kettle run starts once its START_EV and norm waits are met, and then reads its slot state and opens its journal. -/
  | kettleRunStart (st : Nat)
  /-- KETTLE_BLOCK_COMMIT (R263): A block's writes have landed, so COMMITTED advances; the last final block closes the run and signals DONE_EV. -/
  | kettleBlockCommit (st : Nat)
  /-- KETTLE_WAIT_TIMEOUT (R249): A kettle start or norm wait exceeds the wait limit, and the run ends having written nothing. -/
  | kettleWaitTimeout (st : Nat)
  /-- MOVE_LANDED (R221): A move's last destination byte is written, and the move completes. -/
  | moveLanded (id : Nat)
  /-- STEEP_ENTRY_LANDED (R225): A steep-list entry lands and signals its counter, with its budget checked. -/
  | steepEntryLanded (t entry : Nat)
  /-- PATROL_SCRUB (R201): The patrol scrubber reads the next word of a bank every 256 idle cycles. -/
  | patrolScrub (t bank : Nat)
  /-- BANK_ROW_REPAIR (R202): At a step boundary, a failing scratchpad bank row is copied to a spare row. -/
  | bankRowRepair (t bank row : Nat)
  /-- HBM_ROW_REPAIR (R211): At a step boundary, a failing HBM row receives hard repair. -/
  | hbmRowRepair (st row : Nat)
  /-- LPDDR_ROW_REPAIR (R213): At a step boundary, a faulty LPDDR5X row receives post-package repair. -/
  | lpddrRowRepair (b row : Nat)
  /-- ACC_LINE_REPAIR (R496): At a step boundary, a failing accumulator line is replaced by a spare. -/
  | accLineRepair (t line : Nat)
  /-- SPARE_TAKEOVER (R36): At a step boundary, the bay's spare slot takes over a retired tile's logical number and state. -/
  | spareTakeover (t : Nat)
  /-- TILE_UNMAPPED (R37): A retired tile with no spare left leaves its logical number unmapped. -/
  | tileUnmapped (t : Nat)
  /-- BAY_RETIRED (R497): A bay is retired at a step boundary, and a partition whose image names it is stopped DEGRADED. -/
  | bayRetired (b : Nat)
  /-- BUDDY_STREAM (R233): A buddy holder takes a checkpoint stream message and programs it into its BUDDY slot. -/
  | buddyStream (p : Nat) (m : Msg)
  /-- BUDDY_STREAM_TIMEOUT (R235): A holder that receives no stream flit for WAIT_LIMIT abandons the buddy write. -/
  | buddyStreamTimeout (p : Nat)
  /-- BUDDY_CONFIRM_TIMEOUT (R233): A writer with no buddy trailer confirmation within WAIT_LIMIT completes BUDDY_MISSING. -/
  | buddyConfirmTimeout (p : Nat)
  /-- GRANT (R277): A sender takes an owner's grant for a segment and sends that segment. -/
  | grant (p : Nat) (m : Msg)
  /-- SEG_ACK (R277): A sender takes an owner's acknowledgement of a checked segment. -/
  | segAck (p : Nat) (m : Msg)
  /-- REDUCTION_SEGMENT (R292): An owner takes a reduction segment whole, checks it and adds it in rank order. -/
  | reductionSegment (p : Nat) (m : Msg)
  /-- OWNER_WAIT_TIMEOUT (R297): The owner's timer on the lowest awaited rank reaches WAIT_LIMIT, and the owner declares that rank failed. -/
  | ownerWaitTimeout (p comm opNo seg : Nat)
  /-- SENDER_GRANT_TIMEOUT (R298): A sender's grant timer reaches 2 × WAIT_LIMIT, and the sender declares the owner failed. -/
  | senderGrantTimeout (p comm opNo owner : Nat)
  /-- ORPHAN_TIMEOUT (R281): An orphan reduction closes once WAIT_LIMIT has passed since its step failed. -/
  | orphanTimeout (p comm opNo : Nat)
  /-- NOTICE (R299): A failure notice is received, so the step stops and the communicator's reductions are discarded. -/
  | notice (p : Nat) (m : Msg)
  /-- RESEND_REQUEST (R350): A sender takes a request to resend a corrupt gather, broadcast or exchange message. -/
  | resendRequest (p : Nat) (m : Msg)
  /-- ALL_GATHER_MESSAGE (R326): An all-gather message is taken whole, placed with widening and forwarded down the tree. -/
  | allGatherMessage (p : Nat) (m : Msg)
  /-- ALL_TO_ALL_MESSAGE (R326): An all-to-all block is taken whole and placed. -/
  | allToAllMessage (p : Nat) (m : Msg)
  /-- BROADCAST_MESSAGE (R326): A broadcast message is taken whole, copied and forwarded down the tree. -/
  | broadcastMessage (p : Nat) (m : Msg)
  /-- SCALAR_VALUE_MESSAGE (R326): A scalar all-reduce value travels up, is folded at rank 0, or delivers its result on the way down. -/
  | scalarValueMessage (p : Nat) (m : Msg)
  /-- BARRIER_MESSAGE (R326): A barrier arrival or release message is taken. -/
  | barrierMessage (p : Nat) (m : Msg)
  /-- BARRIER_UP_TIMEOUT (R327): Rank 0 has not heard from every rank within WAIT_LIMIT and declares the lowest silent rank failed. -/
  | barrierUpTimeout (p comm opNo : Nat)
  /-- RELEASE_WAIT_TIMEOUT (R327): An arrived rank with no release within 2 × WAIT_LIMIT declares rank 0 failed. -/
  | releaseWaitTimeout (p comm opNo : Nat)
  /-- GATHER_RECEIVE_TIMEOUT (R349): A gather or broadcast receiver with no valid message after d × WAIT_LIMIT declares its tree parent failed. -/
  | gatherReceiveTimeout (p comm opNo : Nat)
  /-- EXCHANGE_COUNT_MESSAGE (R343): An exchange count message is taken and its RECV counts are written. -/
  | exchangeCountMessage (p : Nat) (m : Msg)
  /-- EXCHANGE_ROWS_MESSAGE (R346): An exchange payload message is taken whole and its rows are placed. -/
  | exchangeRowsMessage (p : Nat) (m : Msg)
  /-- EXCHANGE_RECEIVE_TIMEOUT (R349): An exchange receiver still missing a source's message after WAIT_LIMIT declares the lowest silent source failed. -/
  | exchangeReceiveTimeout (p comm opNo : Nat)
  /-- FENCE_ARRIVAL (R328): Rank 0 takes a turn, refresh or rejoin fence arrival and compares it with its own. -/
  | fenceArrival (p : Nat) (m : Msg)
  /-- FENCE_RELEASE (R328): A fence release with its verdict is taken, and the turn or rejoin proceeds or fails. -/
  | fenceRelease (p : Nat) (m : Msg)
  /-- BATCH_RECORD_MESSAGE (R356): A learner takes a remote batch record and appends it or answers POOL_FULL. -/
  | batchRecordMessage (p : Nat) (m : Msg)
  /-- BATCH_ANSWER_MESSAGE (R356): A BATCH_PUT sender takes the receiver's outcome and completes. -/
  | batchAnswerMessage (p : Nat) (m : Msg)
  /-- BATCH_ANSWER_TIMEOUT (R356): A BATCH_PUT sender without an answer within WAIT_LIMIT completes PEER_FAILED. -/
  | batchAnswerTimeout (p : Nat)
  /-- CLOSE_VALUE_MESSAGE (R392): A lockstep bay takes a member's highest launched EPOCH_STEP for a close agreement. -/
  | closeValueMessage (p : Nat) (m : Msg)
  /-- SEQUENCE_GROUP_MESSAGE (R393): A non-home rank applies the home's tokens, lengths and ends for sequence-layout sequences. -/
  | sequenceGroupMessage (p : Nat) (m : Msg)
  /-- REPLAY_RECORD_MESSAGE (R498): A RECEIVE partition appends remote replay records to its LOCAL region. -/
  | replayRecordMessage (p : Nat) (m : Msg)
  /-- MGMT_MESSAGE (R313): A system-controller message is taken on the management channel. -/
  | mgmtMessage (p : Nat) (m : Msg)
  /-- FLIT_RECEIVE (R316): A flit is checked, acknowledged or NAKed, credited, then delivered or forwarded by route. -/
  | flitReceive (port : Nat) (flit : BitVec 2048)
  /-- LANE_FAILED (R308): A lane loses lock or exceeds its FEC error count, and is swapped to the spare or re-striped. -/
  | laneFailed (port lane : Nat)
  /-- RESTRIPE_COMPLETE (R309): The port resumes at reduced width from the first unacknowledged flit. -/
  | restripeComplete (port : Nat)
  /-- PARTNER_TRAINING (R311): An end that detects its partner's training patterns starts a new training attempt. -/
  | partnerTraining (port : Nat)
  /-- LINK_UP (R311): Training completes, link parameters and credits are exchanged, and STATE reads UP. -/
  | linkUp (port partnerId partnerPort : Nat) (credits : List Nat)
  /-- LINK_TRAIN_FAIL (R311): A training attempt has not reached UP within 100 ms. -/
  | linkTrainFail (port : Nat)
  /-- LINK_TRAIN_RETRY (R311): A new training attempt starts 1 s after a failed one. -/
  | linkTrainRetry (port : Nat)
  /-- CREDIT_STALL (R319): A VC has waited without credit longer than LINK_STALL_LIMIT. -/
  | creditStall (port vc : Nat)
  /-- LINK_DOWN (R324): A port goes down and fails over or discards its replay buffer. -/
  | linkDown (port : Nat)
  /-- RETRAIN (R330): Writing RETRAIN trains the port again without losing flits. -/
  | retrain (port : Nat)
  /-- ROLLOUT_STEP_BOUNDARY (R370): At the end of a rollout step the sequencer samples, verifies, stops, cancels, writes records, edits, closes and admits. -/
  | rolloutStepBoundary (b : Nat)
  /-- ROLLOUT_STEP_LAUNCH (R371): The sequencer chooses work, writes the length table and launches once there is room for the record. -/
  | rolloutStepLaunch (b : Nat)
  /-- DOORBELL_WRITE (R431): A doorbell write makes slots up to the new index fetchable, or is ignored as invalid. -/
  | doorbellWrite (fn ring value : Nat)
  /-- RING_ENABLE (R430): Setting a ring's ENABLE resets its head, tail and phase and starts fetching or posting. -/
  | ringEnable (fn ring : Nat) (cq : Bool)
  /-- CQ_HEAD_WRITE (R435): Advancing CQ_HEAD frees completion slots, posts held records and can clear the pending count. -/
  | cqHeadWrite (fn ring value : Nat)
  /-- COALESCE_TIMEOUT (R437): COAL_US has passed since the first pending record, so the ring's vector is raised. -/
  | coalesceTimeout (fn ring : Nat)
  /-- QUIESCE_WRITE (R449): Writing QUIESCE quiesces a partition with a drain, or resumes its fetching. -/
  | quiesceWrite (p value : Nat)
  /-- HOLD_WRITE (R489): Writing 0 to HOLD releases FAULT_N once the pulse has ended. -/
  | holdWrite (value : Nat)
  /-- FC_ACK (R487): Acknowledges one fault record and stops its grace timer. -/
  | fcAck (seq : Nat)
  /-- FC_ACK_ALL (R487): Acknowledges every fault record. -/
  | fcAckAll (value : Nat)
  /-- NUM_FLAGS_CLEAR (R106): A W1C write clears sticky numeric flags of a tile. -/
  | numFlagsClear (t value : Nat)
  /-- KV_CTRL_WRITE (R405): Sets KV_LAYERS and KV_ROPE on every bay of the partition, or is ignored. -/
  | kvCtrlWrite (fn b value : Nat)
  /-- SEQ_AREA_WRITE (R374): Sets the sequencer step area, or is ignored when illegal. -/
  | seqAreaWrite (fn b area size : Nat)
  /-- FLASH_NS_WRITE (R239): Sets a partition's namespace and slot size, or leaves all three unchanged. -/
  | flashNsWrite (p base size slot : Nat)
  /-- RECOVERY_CHUNK (R473): The boot ROM takes one 512 KiB chunk of a recovery image. -/
  | recoveryChunk (k : Nat) (data : List Byte)
  /-- RECOVERY_GO (R473): The boot ROM verifies the recovery image, programs the SPI NOR and resets. -/
  | recoveryGo
  /-- REPLAY_ARM (R498): Arms replay capture to start at the next IMAGE_APPLY with SPARGE set. -/
  | replayArm (p : Nat)
  /-- REPLAY_DISARM (R498): Clearing ARM ends capture with an END record at the next command acceptance. -/
  | replayDisarm (p : Nat)
  /-- REGISTER_WRITE (R8): A write to a register field that has no row of its own, acting per its access code. -/
  | registerWrite (fn addr value : Nat)
  /-- VF_ENABLE (R427): Setting VF Enable brings up VF 1 to VF min(NumVFs, 12). -/
  | vfEnable (numVfs : Nat)
  /-- VF_DISABLE (R449): A VF function level reset or cleared VF Enable disables the VF with a drain window and an optional sparge. -/
  | vfDisable (vf : Nat)
  /-- WARM_RESET (R428): A PF FLR, hot reset, link down or PERST_N resets the module, with firmware restores and pending sparges. -/
  | warmReset (external : Bool)
  /-- MODULE_POWER_ON (R521): The input crosses 45 V and the module powers up, zeroing volatile state. -/
  | modulePowerOn (straps : Nat)
  /-- POWER_DOWN (R522): The input falls below 38 V, or rises above 60.5 V, and the module turns off. -/
  | powerDown (centivolts : Nat)
  /-- SUPPLY_SAG (R515): The input falls below 43 V or a rail sags, so flash, SPI NOR and fuse writes stop. -/
  | supplySag (centivolts : Nat)
  /-- SAG_END (R515): The input rises above 44 V with every rail in window, and SAG clears. -/
  | sagEnd (centivolts : Nat)
  /-- SUPPLY_UNDER (R516): The input falls below 40 V, and the device enters the safe state. -/
  | supplyUnder (centivolts : Nat)
  /-- POWER_CAP_ADJUST (R511): On each 100 µs or 1 ms tick, DUTY moves against the 10 ms mean of input power. -/
  | powerCapAdjust (meanWatts : Nat) (slow : Bool)
  /-- POWER_PEAK_LIMIT (R512): The 100 µs mean exceeds 4,000 W or 100 A, and DUTY falls to 8 at once. -/
  | powerPeakLimit (watts centiamps : Nat)
  /-- THERMAL_THROTTLE (R514): A junction or HBM stack at 95 °C lowers DUTY, until it cools to 93 °C. -/
  | thermalThrottle (stack : Option Nat) (celsius : Nat)
  /-- LIMIT_105 (R514): A junction at 105 °C sets DUTY to 1, until it cools to 100 °C. -/
  | limit105 (celsius : Nat)
  /-- THERMAL_TRIP (R514): A junction at 115 °C or a stack at 105 °C asserts THERMTRIP_N. -/
  | thermalTrip (stack : Option Nat) (celsius : Nat)
  /-- HBM_REFRESH_DOUBLE (R514): A stack at 85 °C doubles its refresh rate, until it cools to 83 °C. -/
  | hbmRefreshDouble (stack celsius : Nat)
  /-- TEMPERATURE_RECOVERED (R514): A reading falls back below its end threshold, and its action ends. -/
  | temperatureRecovered (stack : Option Nat) (celsius : Nat)
  /-- LEAK (R519): LEAK_N is low beyond its glitch filter, and LEAK is raised. -/
  | leak
  /-- TAMPER (R463): A tamper source trips, the vault is wiped and TAMPER is raised. -/
  | tamper (cause : Nat)
  /-- PLL_UNLOCK (R49): A PLL loses lock after reset. -/
  | pllUnlock (pll : Nat)
  /-- COLLECTOR_PARITY (R494): A parity error in the collector puts the device into the safe state directly. -/
  | collectorParity
  /-- IDLE_ENTRY (R508): After IDLE_DELAY of inactivity, the device enters the deepest allowed power state. -/
  | idleEntry
  /-- IDLE_WAKE (R509): A doorbell, register access, SPDM message or link wake ends the idle state. -/
  | idleWake
  /-- GRACE_EXPIRY (R486): An unacknowledged record's grace timer expires, and the record escalates one level. -/
  | graceExpiry (seq : Nat)
  /-- QUIET_EXPIRY (R490): The quiet period expires and the scope leaves its fault state, or becomes HELD. -/
  | quietExpiry (scope : Nat)
  /-- FAULT_PULSE_END (R489): The FAULT_N minimum pulse ends, and the pin follows HOLD. -/
  | faultPulseEnd
  /-- GET_VERSION (R476): SPDM GET_VERSION request on a DOE mailbox. -/
  | getVersion (fn : Nat) (req : List Byte)
  /-- GET_CAPABILITIES (R476): SPDM GET_CAPABILITIES request. -/
  | getCapabilities (fn : Nat) (req : List Byte)
  /-- NEGOTIATE_ALGORITHMS (R476): SPDM NEGOTIATE_ALGORITHMS request. -/
  | negotiateAlgorithms (fn : Nat) (req : List Byte)
  /-- GET_DIGESTS (R476): SPDM GET_DIGESTS request. -/
  | getDigests (fn : Nat) (req : List Byte)
  /-- GET_CERTIFICATE (R476): SPDM GET_CERTIFICATE request for slot 0. -/
  | getCertificate (fn : Nat) (req : List Byte)
  /-- CHALLENGE (R476): SPDM CHALLENGE request, signed with the identity key. -/
  | challenge (fn : Nat) (req : List Byte)
  /-- GET_MEASUREMENTS (R476): SPDM GET_MEASUREMENTS request for the function's view. -/
  | getMeasurements (fn : Nat) (req : List Byte)
  /-- KEY_EXCHANGE (R443): SPDM KEY_EXCHANGE on a VF mailbox, refused while the partition has a command in flight. -/
  | keyExchange (fn : Nat) (req : List Byte)
  /-- FINISH (R443): SPDM FINISH completes the session and puts the partition in confidential mode. -/
  | finish (fn : Nat) (req : List Byte)
  /-- KEY_UPDATE (R443): SPDM KEY_UPDATE changes the session keys while the counters continue. -/
  | keyUpdate (fn : Nat) (req : List Byte)
  /-- END_SESSION (R443): SPDM END_SESSION ends confidential mode and disables the VF. -/
  | endSession (fn : Nat) (req : List Byte)
  /-- MCTP_CONTROL_MESSAGE (R450): An MCTP control message from the BMC. -/
  | mctpControlMessage (req : List Byte)
  /-- PLDM_BASE_REQUEST (R450): A PLDM base request from the BMC. -/
  | pldmBaseRequest (req : List Byte)
  /-- PLDM_PLATFORM_REQUEST (R450): A PLDM platform monitoring request, such as a sensor read. -/
  | pldmPlatformRequest (req : List Byte)
  /-- PLDM_FRU_REQUEST (R450): A PLDM FRU data request. -/
  | pldmFruRequest (req : List Byte)
  /-- SENSOR_UPDATE (R450): A sensor's update period passes; a threshold crossing sends a PlatformEventMessage. -/
  | sensorUpdate (sensor value : Nat)
  /-- LEAK_CLEARED (R490): LEAK_N returns high, so LEAK stops counting as raised and the quiet period can run. -/
  | leakCleared
  /-- SUPPLY_UNDER_END (R490): The input rises back above the safe-state threshold, so SUPPLY_UNDER stops counting as raised. -/
  | supplyUnderEnd (centivolts : Nat)
  /-- PLL_LOCK_REGAINED (R490): A PLL that had lost lock locks again, so PLL_UNLOCK stops counting as raised. -/
  | pllLockRegained (pll : Nat)
  /-- BUDDY_TRAILER_CONFIRM (R233): A checkpoint writer takes the buddy holder's confirmation that its trailer is committed, and completes CKPT_WRITE with OK. -/
  | buddyTrailerConfirm (p : Nat) (m : Msg)
  /-- REMOTE_LOAD_REQUEST (R234): A buddy holder, or the failed rank's own flash, takes a request for a checkpoint generation or segment and streams it to the loading device. -/
  | remoteLoadRequest (p : Nat) (m : Msg)
  /-- REMOTE_LOAD_TIMEOUT (R234): The holder of a second copy does not answer within WAIT_LIMIT, and the load completes with BOTH_COPIES_BAD. -/
  | remoteLoadTimeout (p : Nat)
  /-- REPLICA_FETCH_REQUEST (R359): An owner takes a request to send a mismatched segment again from its HBM copy and returns it without staging. -/
  | replicaFetchRequest (p : Nat) (m : Msg)
  /-- CLOSE_AGREEMENT_TIMEOUT (R392): A lockstep bay has not received a close value from some member within WAIT_LIMIT of LOCK_COMM and declares it failed. -/
  | closeAgreementTimeout (b : Nat)
  /-- PERST_N_RELEASE (R521): The host releases PERST_N, the boot ROM checks the firmware, trains memories, restores state and STAGE reaches RUNNING. -/
  | perstNRelease
  /-- FLASH_PROGRAM_DONE (R232): A flash program, erase or trim operation finishes, so the next checkpoint or flash-write stage proceeds and the command can complete. -/
  | flashProgramDone (p : Nat)
  deriving DecidableEq, Repr

end Sys2Proof
end

