-- ==== Sys2Proof/Decode.lean ====
section
/-!
DEFINITION. The decoder that the host asks for. No row of spec/opcode_table.json gives bits: the P96 takes commands, and its
descriptors, words and messages are fields of the commands' own operands (log entry 12).
-/

namespace Sys2Proof

/-- The command that a word spells by the table's bits: none, since no row gives bits. -/
def decodeTableWord (_nbits _w : Nat) : Option Instr := none

end Sys2Proof
end

