-- ==== Sys2Proof/Config.lean ====
section
/-!
DEFINITION. What spec/ leaves to one module or leaves open: free values, and the keys and ciphers whose secrets the spec
does not give. None of these has a body, so no proof can see a value.
-/

namespace Sys2Proof

/-- The n-th free value (log entry 4). A user takes as many low bits as it needs. -/
opaque Config.freeNat : Nat → Nat

/-- A value that spec/ leaves open and that R4 and R5 make the same in every run: a function of what it is the value of (`kind`) and of
the operands it depends on (log entry 4). -/
opaque Config.freeAt (kind : Nat) (operands : List Nat) : Nat

/-- AES-256-GCM seal under key `key` of a partition: ciphertext and 16-byte tag (R443 to R445; log entry 7). -/
opaque Config.gcmSeal (key : Nat) (iv aad plain : List Byte) : List Byte × List Byte

/-- AES-256-GCM open: the plaintext, or none where the tag fails (R446; log entry 7). -/
opaque Config.gcmOpen (key : Nat) (iv aad cipher tag : List Byte) : Option (List Byte)

/-- ECDSA P-256 with SHA-256: the signature verifies under the public key (R468, R469; log entry 7). -/
opaque Config.ecdsaVerify (key msg sig : List Byte) : Bool

/-- ECDSA P-256 signature by a key of the vault: 0 the identity key, 1 the attestation key (R475; log entry 7). -/
opaque Config.ecdsaSign (key : Nat) (msg : List Byte) : List Byte

/-- Public keys and certificates fused at delivery, by number (R466, R472, R475; log entry 7). -/
opaque Config.fused : Nat → List Byte

/-- A response of the SPDM responder whose bytes DSP0274 gives and spec/ does not: by request code and request (R476; log entry 8). -/
opaque Config.spdmBody (code : Nat) (req : List Byte) (view : List Byte) : List Byte

/-- A response of the management endpoint whose bytes the PLDM and MCTP standards give and spec/ does not (R450; log entry 8). -/
opaque Config.mgmtBody (kind : Nat) (req : List Byte) (view : List Nat) : List Byte

/-- The tiles, as a mask of logical numbers, that combine their partials of a tensor before a reduction leaves the device: the image
assigns them (R46), by no field that spec/ gives (log entry 36). -/
opaque Config.reduceTiles (tensor : Nat) : Nat

/-- Whether those tiles drain FP32-pairs, and not FP32 (R282; log entry 36). -/
opaque Config.reducePair (tensor : Nat) : Bool

/-- Byte offset, in a device's ROLLOUT_COPY regions laid end to end, of segment `entry` of rank `owner` of a communicator: spec/ does
not say where an owner's segments lie in another rank's copy (R359; log entry 41). -/
opaque Config.segPlace (comm owner entry : Nat) : Nat

/-- The scratchpad residents of a tile as (device address, scratchpad byte offset, bytes): spec/ says that the rollout image names them,
but no field of *Druco field catalogue* does (R17, R395, R442; log entry 42). -/
opaque Config.residents (part tile : Nat) : List (Nat × Nat × Nat)

/-- Post-package repair remains for a row of stack (kind 0) or LPDDR5X pair (kind 1) `unit`, after the rows `done` have been repaired:
how many repairs a pseudo-channel or a package has, and which rows share one, the implementation fixes (R211, R213; log entry 47). -/
opaque Config.repairLeft (kind unit row : Nat) (done : List Nat) : Bool

/-- The row of its stack that holds an HBM address: how a stack places its addresses is the implementation's (R211; log entry 47). -/
opaque Config.hbmRow (address : Nat) : Nat

end Sys2Proof
end

