-- ==== Sys2Proof/Machine/Bits.lean ====
section
/-!
DEFINITION. Byte order, bit fields and rounding of counts. All multi-byte data is little-endian and bit 0 is the least
significant bit (R7); digests, keys and signatures are byte strings, most significant byte first where they spell numbers.
-/

namespace Sys2Proof.Machine

/-- The n low bytes of v, least significant first (R7). -/
def leBytes : Nat → Nat → List Byte
  | 0, _ => []
  | n + 1, v => BitVec.ofNat 8 v :: leBytes n (v / 256)

/-- The number that a little-endian byte string spells (R7). -/
def leNat : List Byte → Nat
  | [] => 0
  | b :: bs => b.toNat + 256 * leNat bs

/-- The number that a big-endian byte string spells. -/
def beNat (bs : List Byte) : Nat := bs.foldl (fun a b => 256 * a + b.toNat) 0

/-- The n low bytes of v, most significant first. -/
def beBytes (n v : Nat) : List Byte := (leBytes n v).reverse

/-- Bits hi..lo of v, as a number. -/
def bitsOf (v hi lo : Nat) : Nat := (v / 2 ^ lo) % 2 ^ (hi + 1 - lo)

/-- Bit i of v. -/
def bitOf (v i : Nat) : Bool := (v / 2 ^ i) % 2 == 1

/-- v with bits lo + w - 1 .. lo replaced by x. -/
def putBits (v lo w x : Nat) : Nat :=
  v - ((v / 2 ^ lo) % 2 ^ w) * 2 ^ lo + (x % 2 ^ w) * 2 ^ lo

/-- v rounded up to a multiple of n. -/
def roundUp (v n : Nat) : Nat := if n = 0 then v else (v + n - 1) / n * n

/-- v divided by n, rounded up. -/
def ceilDiv (v n : Nat) : Nat := if n = 0 then 0 else (v + n - 1) / n

/-- v clamped into lo..hi. -/
def clampNat (lo hi v : Nat) : Nat := if v < lo then lo else if hi < v then hi else v

/-- Two's complement reading of the w low bits of v. -/
def toSigned (w v : Nat) : Int :=
  if v % 2 ^ w < 2 ^ (w - 1) then ((v % 2 ^ w : Nat) : Int) else ((v % 2 ^ w : Nat) : Int) - 2 ^ w

/-- Two's complement bits of an integer in w bits. -/
def ofSigned (w : Nat) (v : Int) : Nat := (v % (2 ^ w : Int)).toNat

/-- A number as a bit, 0 or 1. -/
def bitNat (b : Bool) : Nat := if b then 1 else 0

/-- Bytes hi..lo of a little-endian byte string, as a number. -/
def leField (bs : List Byte) (hi lo : Nat) : Nat := leNat ((bs.drop lo).take (hi + 1 - lo))

/-- The positions below n at which v has a 1, ascending. -/
def bitList (n v : Nat) : List Nat := (List.range n).filter (fun i => bitOf v i)

end Sys2Proof.Machine
end

