-- ==== Sys2Proof/Machine/Tab.lean ====
section
/-!
DEFINITION. Sparse tables and memories as plain data: a list of (key, value) pairs in one canonical form, keys strictly
rising and no entry equal to what an unlisted key reads as. A memory is such a table of bytes (in the form of Host.Cell);
an unlisted byte reads as 0: R155, R204 and R215 give that value for the stores they name, and log entry 3 says it of
the others.
-/

namespace Sys2Proof.Machine

/-- A sparse table: strictly rising keys, no entry equal to the default. -/
abbrev Tab (α : Type) := List (Nat × α)

/-- A memory: addresses and bytes, in the form of a table whose default is the zero byte. -/
abbrev Mem := Tab (BitVec 8)

/-- Read key k; d where it is not listed. -/
def Tab.get {α : Type} (d : α) : Tab α → Nat → α
  | [], _ => d
  | (k', v) :: m, k => if k = k' then v else Tab.get d m k

/-- Put v at key k, in the place that keeps the keys rising. -/
def Tab.insert {α : Type} : Tab α → Nat → α → Tab α
  | [], k, v => [(k, v)]
  | (k', v') :: m, k, v =>
    if k < k' then (k, v) :: (k', v') :: m
    else if k = k' then (k, v) :: m
    else (k', v') :: Tab.insert m k v

/-- Remove every entry whose key satisfies p: those keys then read as the default. -/
def Tab.drop {α : Type} (m : Tab α) (p : Nat → Bool) : Tab α := m.filter (fun e => !p e.1)

/-- Write v at key k, keeping the canonical form: writing the default removes the entry. -/
def Tab.set {α : Type} [DecidableEq α] (d : α) (m : Tab α) (k : Nat) (v : α) : Tab α :=
  if v = d then Tab.drop m (fun k' => k' == k) else Tab.insert m k v

/-- Every key of the table is above b. -/
def Tab.above {α : Type} (b : Nat) (m : Tab α) : Bool := m.all (fun e => decide (b < e.1))

/-- The canonical form. -/
def Tab.wf {α : Type} [DecidableEq α] (d : α) : Tab α → Bool
  | [] => true
  | (k, v) :: m => decide (v ≠ d) && Tab.above k m && Tab.wf d m

/-- Remove the entries with keys lo to hi - 1. -/
def Tab.clear {α : Type} (m : Tab α) (lo hi : Nat) : Tab α := Tab.drop m (fun k => decide (lo ≤ k) && decide (k < hi))

/-- The canonical form of a memory. -/
abbrev Memory.wf (m : Mem) : Prop := Tab.wf (0 : BitVec 8) m = true

/-- Read one byte. -/
abbrev Mem.byte (m : Mem) (a : Nat) : BitVec 8 := Tab.get 0 m a

/-- Write one byte. -/
abbrev Mem.put (m : Mem) (a : Nat) (v : BitVec 8) : Mem := Tab.set 0 m a v

/-- Read n bytes from address a. -/
def Mem.read (m : Mem) (a : Nat) : Nat → List (BitVec 8)
  | 0 => []
  | n + 1 => Mem.byte m a :: Mem.read m (a + 1) n

/-- Write a byte string from address a, lowest address first. -/
def Mem.write (m : Mem) (a : Nat) : List (BitVec 8) → Mem
  | [] => m
  | b :: bs => Mem.write (Mem.put m a b) (a + 1) bs

/-- Read an n-byte little-endian number (R7). -/
def Mem.readNat (m : Mem) (a n : Nat) : Nat := leNat (Mem.read m a n)

/-- Write an n-byte little-endian number (R7). -/
def Mem.writeNat (m : Mem) (a n v : Nat) : Mem := Mem.write m a (leBytes n v)

/-- Zero n bytes from a. -/
def Mem.zero (m : Mem) (a n : Nat) : Mem := Tab.clear m a (a + n)

end Sys2Proof.Machine
end

