-- ==== Sys2Proof/Machine/Fields.lean ====
section
/-!
DEFINITION. Every register field that the register tables of spec/ give the P96 and that the machine stores, one
constructor each (a register of 64 bits that the tables show as a LO and HI pair is one field). `Fld.width`, `Fld.reset`
and `keptFields` are the Bits, Reset and "kept"/RWS marks of those tables (R8). Fields that only show other state are
views, computed in Machine/RegMap.lean. Access codes stand in Machine/RegMap.lean.
-/

namespace Sys2Proof.Machine

/-- The stored register fields, named block first, in the order of the spec's files. -/
inductive Fld where
  -- spec/01_the_turn.md, block turn
  | turnLayoutEpoch
  | turnStep
  | turnPhase
  | turnPolicyVersion
  | turnTurnId
  | turnLastStatus
  -- spec/02_regions_bays_tiles.md, block bay
  | bayRetired
  | bayDegraded
  | baySpareUsed
  | baySlot
  -- spec/02_regions_bays_tiles.md, block clk
  | clkSscMgmt
  | clkSscFabric
  | clkSscEngine
  | clkSscActive
  | clkLockMgmt
  | clkLockTx
  | clkLockFabric
  | clkLockEngine
  -- spec/03_druco_images.md, block ldr
  | ldrBusy
  | ldrPart
  | ldrReason
  | ldrDigest
  -- spec/04_numerics.md, block num
  | numGradInv
  | numGradOf
  | numBank
  | numVector
  | numMatrix
  -- spec/04_numerics.md, block kfl
  | kflFlags
  -- spec/05_matrix_engine.md, block mxm
  | mxmBusy
  | mxmRows
  | mxmStallLoad
  | mxmStallDep
  | mxmStallInput
  | mxmStallDrain
  -- spec/06_vector_engine.md, block vec
  | vecBusy
  | vecVl
  | vecIssued
  | vecStallDep
  | vecStallPort
  -- spec/07_tile_programs.md, block tp
  | tpState
  | tpPc
  | tpReason
  | tpFaultPc
  | tpWaitLimit
  | tpDispatched
  | tpStallWait
  | tpStallQueue
  -- spec/07_tile_programs.md, block ev
  | ev
  -- spec/08_scratchpad.md, block sp
  | spSpareMin
  | spWorstBank
  | spCorrected
  | spColValid
  | spColP1Req
  | spColP0Req
  | spColWord
  | spCollisions
  | spStallIdle
  | spBankside
  -- spec/09_memory_tiers.md, block steep
  | steepCursor
  | steepNext
  | steepStall
  | steepOverruns
  | steepLastOver
  -- spec/09_memory_tiers.md, block flash
  | flashReadOnly
  | flashSpareLeft
  | flashEraseMax
  | flashNsBase
  | flashNsSize
  | flashCkptSlot
  | flashCkptState
  | flashOwnBValid
  | flashOwnAValid
  | flashProgress
  -- spec/10_kettle.md, block ket
  | ketSpareLanes
  | ketSlot
  | ketState
  | ketJbad
  | ketKind
  | ketJslot
  | ketJstate
  | ketJstep
  | ketCommitted
  | ketBlockCount
  | ketJdigest
  | ketNormH
  | ketNormL
  | ketOverflow
  | ketNormStep
  | ketGscale
  | ketRuns
  | ketStall
  | ketKE
  | ketSlotSkipped
  | ketSlotE
  | ketSlotClean
  -- spec/11_reduction.md, block lau
  | lauOvf
  | lauTiles
  | lauStall
  -- spec/11_reduction.md, block red
  | redStale
  | redResends
  | redEarly
  | redWaitMax
  | redDeclValid
  | redDeclRole
  | redDeclComm
  | redDeclRank
  | redAborted
  -- spec/12_lanoip.md, block link
  | linkState
  | linkWidth
  | linkSpareUsed
  | linkLanesFailed
  | linkPartnerId
  | linkPartnerPort
  | linkRetrain
  | linkFailoverEn
  | linkFailoverPort
  | linkStallLimit
  | linkFecCorrected
  | linkFecUncorrectable
  | linkCrcErrors
  | linkReplays
  | linkRouteDrops
  | linkTxFlits
  | linkRxFlits
  | linkStallUs
  -- spec/12_lanoip.md, block linkb
  | linkbLocalDrops
  -- spec/13_training_layouts.md, block exch
  | exchNeed
  | exchCap
  | exchRows
  | exchResends
  -- spec/13_training_layouts.md, block comm
  | commAdmitted
  | commDropped
  | commFull
  | commSpill
  | commDiverge
  -- spec/14_rollout_engine.md, block seq
  | seqBarrier
  | seqSwapOpen
  | seqFlipSet
  | seqState
  | seqLockComm
  | seqKeepLog
  | seqLockstep
  | seqStep
  | seqEpochStep
  | seqOutBase
  | seqOutSize
  | seqOutHead
  | seqOutTail
  | seqArea
  | seqAreaSize
  | seqTokens
  | seqPasses
  | seqDrafted
  | seqAccepted
  | seqFretWaits
  | seqPreempted
  | seqHoldUs
  -- spec/15_attention_and_cache.md, block kv
  | kvRope
  | kvLayers
  | kvWalkRows
  | kvAppendRows
  | kvTableMisses
  | kvFaultValid
  | kvFaultTile
  | kvFaultReason
  | kvFaultSlot
  -- spec/16_host_interface.md, block host
  | hostSerial
  | hostDrainWindow
  -- spec/16_host_interface.md, block part
  | partSpargeOnDisable
  | partQuiesce
  | partConfActive
  | partAbortedDisable
  | partAborted
  | partTagFails
  -- spec/16_host_interface.md, block ring
  | sqBase
  | sqEnable
  | sqCq
  | sqLog2Size
  | sqHead
  | cqBase
  | cqEnable
  | cqIrqEn
  | cqVector
  | cqLog2Size
  | cqTail
  | cqHead
  | cqCoalUs
  | cqCoalCount
  -- spec/17_partitions_and_security.md, block sec
  | secLcState
  | secDebugState
  | secKeysValid
  | secCustomerKey
  | secFailReason
  | secStage
  | secCause
  | secFwSvn
  | secRecoveryLen
  | secGo
  | secChunk
  | secError
  | secChunkDone
  | spargePending
  | spargeFailed
  | spargeRunning
  | spargeLastNs
  | spargeCount
  -- spec/17_partitions_and_security.md, block conf
  | confKeyUpdates
  -- spec/18_faults_replay_spares.md, block fc
  | fcSafe
  | fcHeld
  | fcSelfFault
  | fcDegraded
  | fcLogHead
  | fcLost
  | fcSeq
  | fcAll
  | fcGraceNotify
  | fcGraceContain
  | fcGraceSafe
  | fcQuiet
  | fcWindow
  | fcLimit
  | fcAsserted
  | fcHold
  | fcPulse
  | fcCount
  | fcSlot
  | fcPartContained
  | fcPartHeld
  | fcPartRecoveries
  | fcFixed
  | fcSeverity
  -- spec/18_faults_replay_spares.md, block rpl
  | rplArm
  | rplState
  | rplTarget
  | rplHostDigest
  | rplLinkDigest
  | rplStall
  | rplDestDevice
  | rplBase
  | rplSize
  | rplHead
  | rplTail
  | rplRecords
  | rplLost
  -- spec/19_module_power_cooling.md, block pwr
  | pwrState
  | pwrThrottle
  | pwrCapping
  | pwrSag
  | pwrLeak
  | pwrDuty
  | pwrTjMax
  | pwrLtr
  | pwrIdleDelay
  | pwrLinkStandbyEn
  | pwrCap
  | pwrPower
  | pwrVoltage
  | pwrCurrent
  | pwrLimit105
  | pwrSagEnd
  | pwrSagStart
  | pwrThrottleStart
  | pwrCapStart
  | pwrStateChange
  | pwrThrottleUs
  | pwrCapUs
  | pwrSagCount
  deriving DecidableEq, Repr

/-- Width in bits, from the Bits column. Every other field is 32 bits wide. -/
def Fld.width : Fld → Nat
  | .turnLayoutEpoch => 16
  | .turnStep => 4
  | .turnPhase => 4
  | .turnLastStatus => 16
  | .bayRetired => 1
  | .bayDegraded => 1
  | .baySpareUsed => 1
  | .baySlot => 4
  | .clkSscMgmt => 1
  | .clkSscFabric => 1
  | .clkSscEngine => 1
  | .clkSscActive => 3
  | .clkLockMgmt => 1
  | .clkLockTx => 1
  | .clkLockFabric => 1
  | .clkLockEngine => 1
  | .ldrBusy => 1
  | .ldrPart => 4
  | .ldrReason => 16
  | .numGradInv => 1
  | .numGradOf => 1
  | .numBank => 4
  | .numVector => 4
  | .numMatrix => 4
  | .kflFlags => 4
  | .mxmBusy => 4
  | .vecBusy => 1
  | .vecVl => 11
  | .tpState => 2
  | .tpPc => 14
  | .tpReason => 8
  | .tpFaultPc => 14
  | .spSpareMin => 5
  | .spWorstBank => 6
  | .spColValid => 1
  | .spColP1Req => 4
  | .spColP0Req => 4
  | .spColWord => 20
  | .steepCursor => 16
  | .steepNext => 13
  | .steepLastOver => 16
  | .flashReadOnly => 1
  | .flashSpareLeft => 8
  | .flashNsBase => 16
  | .flashNsSize => 16
  | .flashCkptSlot => 16
  | .flashCkptState => 4
  | .flashOwnBValid => 1
  | .flashOwnAValid => 1
  | .flashProgress => 24
  | .ketSpareLanes => 5
  | .ketSlot => 5
  | .ketState => 3
  | .ketJbad => 1
  | .ketKind => 1
  | .ketJslot => 5
  | .ketJstate => 2
  | .ketJstep => 64
  | .ketJdigest => 64
  | .ketOverflow => 1
  | .ketNormStep => 16
  | .ketSlotSkipped => 1
  | .ketSlotE => 5
  | .lauOvf => 64
  | .redDeclValid => 1
  | .redDeclRole => 1
  | .redDeclComm => 6
  | .redDeclRank => 12
  | .redAborted => 64
  | .linkState => 4
  | .linkWidth => 3
  | .linkSpareUsed => 1
  | .linkLanesFailed => 5
  | .linkPartnerId => 12
  | .linkPartnerPort => 5
  | .linkRetrain => 1
  | .linkFailoverEn => 1
  | .linkFailoverPort => 5
  | .seqBarrier => 1
  | .seqSwapOpen => 1
  | .seqFlipSet => 1
  | .seqState => 3
  | .seqLockComm => 6
  | .seqKeepLog => 1
  | .seqLockstep => 1
  | .seqStep => 64
  | .seqOutBase => 64
  | .seqArea => 64
  | .kvRope => 3
  | .kvLayers => 9
  | .kvFaultValid => 1
  | .kvFaultTile => 7
  | .kvFaultReason => 4
  | .kvFaultSlot => 13
  | .hostSerial => 64
  | .partSpargeOnDisable => 1
  | .partQuiesce => 1
  | .partConfActive => 1
  | .partAbortedDisable => 16
  | .partAborted => 16
  | .sqBase => 64
  | .sqEnable => 1
  | .sqCq => 4
  | .sqLog2Size => 5
  | .cqBase => 64
  | .cqEnable => 1
  | .cqIrqEn => 1
  | .cqVector => 9
  | .cqLog2Size => 5
  | .cqCoalUs => 16
  | .cqCoalCount => 16
  | .secLcState => 3
  | .secDebugState => 2
  | .secKeysValid => 1
  | .secCustomerKey => 1
  | .secFailReason => 8
  | .secStage => 2
  | .secCause => 5
  | .secGo => 1
  | .secChunk => 16
  | .secError => 1
  | .secChunkDone => 16
  | .spargePending => 1
  | .spargeFailed => 1
  | .spargeRunning => 1
  | .spargeLastNs => 16
  | .fcSafe => 1
  | .fcHeld => 1
  | .fcSelfFault => 1
  | .fcDegraded => 1
  | .fcAll => 1
  | .fcWindow => 16
  | .fcLimit => 4
  | .fcAsserted => 1
  | .fcHold => 1
  | .fcPulse => 10
  | .fcCount => 4
  | .fcSlot => 8
  | .fcPartContained => 1
  | .fcPartHeld => 1
  | .fcPartRecoveries => 4
  | .fcFixed => 1
  | .fcSeverity => 2
  | .rplArm => 1
  | .rplState => 3
  | .rplTarget => 2
  | .rplHostDigest => 1
  | .rplLinkDigest => 1
  | .rplStall => 1
  | .rplDestDevice => 12
  | .rplBase => 64
  | .pwrState => 3
  | .pwrThrottle => 1
  | .pwrCapping => 1
  | .pwrSag => 1
  | .pwrLeak => 1
  | .pwrDuty => 5
  | .pwrTjMax => 8
  | .pwrIdleDelay => 16
  | .pwrLinkStandbyEn => 1
  | .pwrCap => 12
  | .pwrPower => 16
  | .pwrVoltage => 16
  | .pwrCurrent => 16
  | .pwrLimit105 => 1
  | .pwrSagEnd => 1
  | .pwrSagStart => 1
  | .pwrThrottleStart => 1
  | .pwrCapStart => 1
  | .pwrStateChange => 1
  | _ => 32

/-- Default severity of fault source n: *Fault sources* and *Lanoip fault sources* (R480, R329); 0 where reserved. -/
def defaultSeverity (n : Nat) : Nat :=
  if n ∈ [6, 11, 12, 13, 14, 17, 18, 33, 34, 35, 37, 38, 39, 40, 41, 42, 43, 44, 45, 46, 47, 48, 64, 68, 69, 70, 71, 96, 97, 99, 102, 103, 129, 130, 133, 136] then 1 else
  if n ∈ [32, 65, 66, 67, 105] then 2 else
  if n ∈ [0, 1, 2, 3, 4, 7, 8] then 3 else
  0

/-- Reset value of instance i of a field, from the Reset column; fused and firmware-set fields at the values of log entry 2. -/
def Fld.reset (f : Fld) (i : Nat) : Nat :=
  match f with
  | .baySlot => i % 8
  | .clkSscMgmt => 1
  | .clkSscFabric => 1
  | .clkSscEngine => 1
  | .clkSscActive => 7
  | .ldrPart => 15
  | .tpWaitLimit => 1000000
  | .spSpareMin => 16
  | .flashSpareLeft => 100
  | .ketSpareLanes => 16
  | .linkStallLimit => 100000
  | .seqBarrier => 1
  | .hostDrainWindow => 10000
  | .partSpargeOnDisable => 1
  | .sqLog2Size => 6
  | .cqLog2Size => 6
  | .cqCoalCount => 1
  | .secLcState => 1
  | .secChunkDone => 65535
  | .fcGraceNotify => 1000000
  | .fcGraceContain => 10000000
  | .fcGraceSafe => 60000000
  | .fcQuiet => 1000000
  | .fcWindow => 3600
  | .fcLimit => 3
  | .fcPulse => 10
  | .fcSlot => 255
  | .fcFixed => if i = 0 then 1 else 0
  | .fcSeverity => defaultSeverity i
  | .pwrDuty => 16
  | .pwrIdleDelay => 100
  | .pwrCap => 3800
  | _ => 0

/-- Fields that a warm reset keeps: those marked "kept", of access RWS, restored by the system firmware (R8, R38, R239), held in flash or
fuses, or kept by a rule of their own (R15, R155, R274, R488, R492). -/
def keptFields : List Fld :=
  [.turnLayoutEpoch, .turnPolicyVersion, .bayRetired, .bayDegraded, .baySpareUsed, .baySlot, .clkSscMgmt, .clkSscFabric,
   .clkSscEngine, .vecVl, .spSpareMin, .spWorstBank, .flashReadOnly, .flashSpareLeft, .flashEraseMax, .flashNsBase,
   .flashNsSize, .flashCkptSlot, .flashOwnBValid, .flashOwnAValid, .ketSpareLanes, .ketJbad, .ketKind, .ketJslot, .ketJstate,
   .ketJstep, .ketCommitted, .ketBlockCount, .ketJdigest, .ketGscale, .commDiverge, .hostSerial, .secLcState, .secCustomerKey,
   .secCause, .secFwSvn, .spargePending, .fcHeld, .fcDegraded, .fcLogHead, .fcLost, .fcCount, .fcSlot, .fcPartHeld,
   .fcPartRecoveries]

/-- The key of instance i of a field in the register table of the state. -/
def Fld.key (f : Fld) (i : Nat) : Nat := i * 512 + f.ctorIdx

end Sys2Proof.Machine
end

