-- ==== Sys2Proof/Machine/State.lean ====
section
/-!
DEFINITION. The state of the P96 as plain data: the register fields of the spec's register tables (`regs`), the memories,
the tiles, kettles, partitions, bays, rings, links and chip-level blocks, and the queue of waiting commands.
-/

namespace Sys2Proof.Machine

/-- Why the machine stops with a fault. No meaning raises one of its own accord: a fault of the P96 is recorded by its
fault collector and the machine goes on (R479). -/
inductive Fault where
  /-- Raised by no meaning; it stands for a stop that spec/ would call stuck. Safe. -/
  | stuck
  deriving DecidableEq, Repr

/-- Why the model refuses a command. -/
inductive Refusal where
  /-- Raised by an arm of exec whose command has no meaning yet. Safe. -/
  | notModelled (mnemonic : String)
  deriving DecidableEq, Repr

/-! ### Tiles -/

/-- One level of the loop stack (R172). `start` is the first word of the body and `stop` the word after its last. -/
structure Loop where
  start : Nat
  stop : Nat
  idxReg : Nat
  iter : Nat
  count : Nat
  strip : Bool
  remain0 : Nat
  deriving DecidableEq, Repr

/-- One field addition that CTL.MOD holds for the next word (R175). -/
structure ModAdd where
  pos : Nat
  width : Nat
  add : Nat
  deriving DecidableEq, Repr

/-- A word dispatched to an engine and not yet complete (R161, R163). -/
structure Flight where
  id : Nat
  /-- Its word index. -/
  pc : Nat
  cls : Nat
  op : Nat
  sig : Option Nat
  /-- It writes memory (R178). -/
  writes : Bool
  /-- Its engine has taken it (R161). -/
  started : Bool
  /-- Its engine has done its work, so that WORD_COMPLETE may complete it. -/
  done : Bool
  /-- The word as dispatched, after CTL.MOD. -/
  word : BitVec 128
  /-- The move (MOV, ATT) or collective (XCH) that carries it; for a SYN.SIGNAL held by RELEASE, what it adds. -/
  ref : Nat
  /-- Scratchpad ranges that it has written, as (requester, byte offset, length), until it completes (R190, R192). -/
  wrote : List (Nat × Nat × Nat)
  deriving DecidableEq, Repr

/-- A logical tile: what its registers do not show. -/
structure Tile where
  /-- Scalar registers S1 to S31 (R165). -/
  sregs : Tab Long
  /-- Vector registers: element i of V[v] at key 1024 v + i (R141). -/
  vregs : Tab Word
  /-- Mask registers: bit i of M[m] at key 1024 m + i (R141). -/
  masks : Tab Bool
  /-- REMAIN (R142). -/
  remain : Nat
  /-- Program store, 16,384 words (R155). -/
  prog : Tab (BitVec 128)
  /-- Program words that fail their ECC (R155). -/
  progBad : Tab Bool
  /-- Loop stack, innermost first (R172). -/
  loops : List Loop
  /-- Additions that apply to the next word fetched (R175). -/
  mods : List ModAdd
  /-- The word before was a CTL.MOD, whatever it added (R175). -/
  modding : Bool
  /-- Words in flight, oldest first. -/
  flight : List Flight
  /-- What the word being dispatched has written so far, as `Flight.wrote`. -/
  wrote : List (Nat × Nat × Nat)
  nextId : Nat
  /-- The tile was launched by the running step and has not ended (R156). -/
  live : Bool
  /-- Launched by a rollout step of its bay, and not by a learn step. -/
  rollout : Bool
  stepNo : Nat
  seed : Nat
  /-- END has been dispatched: dispatch has stopped and waits for the words before it (R159). -/
  ending : Bool
  /-- CODE of an END with FAIL. -/
  failCode : Option Nat
  /-- Which physical buffer of each sub-array is FRONT: key q, default buffer 0 (R112). -/
  front : Tab Bool
  /-- Format + 1 of the block in buffer 2 q + i; 0 for none (R125). -/
  bufFmt : Tab Nat
  /-- Depth of that block. -/
  bufDepth : Tab Nat
  /-- Cycle counter, CR 8 (R166). R4 does not cover it. -/
  cycles : Nat
  /-- Spare rows used per bank (R202). -/
  rowSpares : Tab Nat
  /-- Spare accumulator lines used (R496). -/
  lineSpares : Nat
  /-- Errors of bank row 768 × bank + row and of accumulator lines since module power-on; from 4 on, as after an uncorrectable error, the row
  or line is due for repair (R202, R496). -/
  rowErrs : Tab Nat
  /-- Format in which this launch has drained each tensor, plus 1 (R282). -/
  drained : Tab Nat
  lineErrs : Tab Nat
  /-- The next pass of the sub-array has a column whose residue does not match (R138). -/
  residue : Tab Bool
  /-- Next index the patrol scrubber reads, per bank (R201). -/
  scrubPos : Tab Nat
  /-- Divergence count of the install tile (R361). -/
  diverge : Nat
  /-- The tile is to be retired at the next step boundary (R36). -/
  retire : Bool
  /-- Steep-list entries issued, landed and signalled (R224, R225). -/
  steepIssued : Nat
  steepLanded : Tab Bool
  steepSignalled : Tab Bool
  /-- Page-table entries the walker has cached, key 2^16 slot + fret (R417). -/
  walkCache : Tab Bool
  deriving DecidableEq, Repr

/-! ### Kettles -/

/-- An entry of the undo record (R263): the old bytes of a block, as (stack offset, bytes) pairs. -/
structure Undo where
  slot : Nat
  step : Nat
  block : Nat
  old : List (Nat × List Byte)
  /-- Old bytes of the kettle's own slot state and step counters, by their key in `Kettle.own`. -/
  ownOld : List (Nat × List Byte)
  bad : Bool
  deriving DecidableEq, Repr

/-- A kettle: what its registers do not show. -/
structure Kettle where
  /-- K registers: K[k] of lane l at key 2048 k + l (R240). -/
  kregs : Tab Word
  /-- Runs still to come in this step or sweep: slots in ascending order (R246). -/
  todo : List Nat
  /-- Why it runs: 0 not, 1 learn step, 2 sweep, 3 KETTLE_RESUME. -/
  why : Nat
  /-- The norm record of this step has been taken (stage 2 of R247). -/
  normTaken : Bool
  /-- Group being run, and the next instruction of it (R246). -/
  group : Nat
  pc : Nat
  /-- Block being computed, and whether its undo entry is held (R263). -/
  block : Nat
  seed : Nat
  stepNo : Nat
  /-- The parameter block read at stage 4, offset to byte (R247). -/
  params : Tab (BitVec 8)
  undo : List Undo
  /-- Block maxima captured so far, key 2^40 stream + block (R99). -/
  caps : Tab Word
  /-- Saturations per stored stream: as the journal keeps them at key `stream` (R264), of block k in flight at key
  16 (k + 1) + `stream`. -/
  sats : Tab Nat
  /-- Slot state and step counters of slots whose program binds no STEPCNT: byte x of slot n at key 2^40 n + x. -/
  own : Mem
  /-- A run of the step, sweep or resume in progress has failed on this stack. -/
  failed : Bool
  /-- Lane whose next result fails its residue code, and the mismatches of each lane (R273). -/
  badLane : Option Nat
  laneErrs : Tab Nat
  /-- As of the last commit: the partial CRCs over the data and the scales of the open fingerprint segment, and the CRCs of the finished
  ones (R260, R264). -/
  crcData : Nat
  crcScale : Nat
  prints : List Nat
  deriving DecidableEq, Repr

/-! ### Image configuration -/

structure Region where
  idx : Nat
  kind : Nat
  use : Nat
  base : Nat
  size : Nat
  deriving DecidableEq, Repr

structure Comm where
  id : Nat
  count : Nat
  myRank : Nat
  ranks : List Nat
  spares : List Nat
  buddy : Nat
  wait : Nat
  stale : Nat
  shape : Nat
  fanout : Nat
  segment : Nat
  deriving DecidableEq, Repr

structure Stage where
  idx : Nat
  budget : Nat
  spill : Nat
  deriving DecidableEq, Repr

structure KSlot where
  slot : Nat
  prog : List Byte
  zeroVisit : Nat
  growth : Nat
  initExp : Nat
  deriving DecidableEq, Repr

structure SeqCfg where
  maxSeq : Nat
  budget : Nat
  chunk : Nat
  depthMax : Nat
  topK : Nat
  maxCtx : Nat
  swapMode : Nat
  deriving DecidableEq, Repr

structure Tensor where
  id : Nat
  store : Nat
  arrive : Nat
  scaling : Nat
  rounding : Nat
  thin : Nat
  rowLen : Nat
  deriving DecidableEq, Repr

/-- The applied values of an image for one partition (R56, R74). -/
structure Cfg where
  bays : Nat
  deviceId : Nat
  /-- DEVICE_ID was given (R56). -/
  hasDev : Bool
  roles : Tab Nat
  modes : Tab Nat
  /-- Pool sizes in 64 KiB units, key 6 t + n (R59). -/
  pools : Tab Nat
  regions : List Region
  ports : Tab Nat
  /-- Route entry d, default 0xFF (R56). -/
  routes : Tab Nat
  /-- Credits of virtual channel v of port q, key 8 q + v, default 16 (R56). -/
  credits : Tab Nat
  comms : List Comm
  stages : List Stage
  kslots : List KSlot
  seqs : List (Nat × SeqCfg)
  steeps : List (Nat × List Byte)
  tensors : List Tensor
  deriving DecidableEq, Repr

/-- A staged image (R65): where it lies, its digest, and the values it applies. -/
structure Staged where
  handle : Nat
  addr : Nat
  len : Nat
  digest : List Byte
  /-- The load report's records, which enter ACTIVE_DIGEST (R77). -/
  report : List Byte
  isPart : Bool
  baySet : Nat
  tileReq : Nat
  /-- BAY_MASK of each partition a whole-device image defines. -/
  masks : List (Nat × Nat)
  cfg : Cfg
  deriving DecidableEq, Repr

/-! ### Commands in flight -/

/-- An accepted command that has not completed (R432). -/
structure Cmd where
  id : Nat
  fn : Nat
  ring : Nat
  slot : Nat
  part : Nat
  desc : BitVec 512
  /-- Its ring counter, where its ring is sealed (R445). -/
  ctr : Nat
  started : Bool
  /-- Progress of a command of several stages; its meaning is the command's own. -/
  stage : Nat
  /-- RSEQ of its COMMAND record, and whether a replay run accepted it (R499, R501). -/
  rseq : Nat
  replayed : Bool
  deriving DecidableEq, Repr

/-- A move in flight (R221). `owner` 0 to 95 a tile's move engine, 96 the chip move engine, 97 the engines
of the bays and of the flash controller. -/
structure Move where
  id : Nat
  owner : Nat
  /-- What it serves: 0 a MOV.DESC word, 1 a steep-list entry, 2 a MOVE command, 3 a WEIGHT_LOAD command, 4 MOV.COPY, 5 ATT.WALK, 6 ATT.APPEND, 7 park, 8 unpark, 9 a stream of a checkpoint, 10 unused, 11 an install, 12 a steep-list entry of an earlier launch, 13 the old copy
  parked, 14 the old copy restored. -/
  why : Nat
  ref : Nat
  /-- The move descriptor (R217), or for a plain copy its source, destination and length. -/
  desc : BitVec 512
  src : Nat
  dst : Nat
  len : Nat
  deriving DecidableEq, Repr

/-- An entry of the loader's queue (R71): what waits or runs. `kind` 0 IMAGE_APPLY, 1 turn step 3, 2 turn step 8, 3 COMM_REJOIN, 4 sparge, 5 REPLAY_RUN, 6 reapply of the old image. -/
structure Job where
  kind : Nat
  cmd : Nat
  part : Nat
  handle : Nat
  epoch : Nat
  sparge : Bool
  enterLearn : Bool
  running : Bool
  deriving DecidableEq, Repr

/-! ### Partitions -/

/-- An open turn (R17). -/
structure Turn where
  turnId : Nat
  comm : Nat
  keepOld : Bool
  learnEpoch : Nat
  learnImage : Nat
  oldEpoch : Nat
  oldCfg : Cfg
  oldDigest : List Byte
  /-- The version the turn began under. -/
  version : Nat
  rolloutEpoch : Nat
  rolloutImage : Nat
  newVersion : Nat
  abandonOpen : Bool
  /-- Commands that drive it: TURN_BEGIN, TURN_COMMIT, TURN_ABANDON (0 none). -/
  begin_ : Nat
  commit : Nat
  abandon : Nat
  /-- The old rollout copy has been kept at step 4. -/
  kept : Bool
  /-- Devices that have been declared failed: its fences go on without them (R32, R351). -/
  gone : List Nat
  /-- Progress within the step or the abandon (Machine/Turn.lean). -/
  stage : Nat
  deriving DecidableEq, Repr

/-- A fence in progress on the control channel (R328). `kind` 0 turn, 1 refresh, 2 rejoin. -/
structure Fence where
  kind : Nat
  comm : Nat
  cmd : Nat
  /-- What the arrival carries: turn fence TURN_ID, step, epoch, version; refresh NEW_VERSION; rejoin EPOCH, ROLLBACK_STEP, digest. -/
  key : List Nat
  /-- Arrivals that rank 0 holds. -/
  seen : List (Nat × List Nat)
  /-- The verdict, once it has been given (R328): 0 for OK, or a status. -/
  verdict : Option Nat
  deriving DecidableEq, Repr

/-- The running learn step of a partition (R156, R158). -/
structure LearnStep where
  cmd : Nat
  stepNo : Nat
  seed : Nat
  /-- Status of a step that has been stopped; 0 while it runs. -/
  status : Nat
  detail : Nat
  /-- Collectives issued in this step: (comm, 2^16 × operation + OP_NO). -/
  reds : List (Nat × Nat)
  /-- E of KETTLE_SLOT at the first drain of the step, key 32 × bay + slot (R109, R285). -/
  exps : Tab (Option Nat)
  deriving DecidableEq, Repr

/-- A collective or exchange in progress on a bay (R325, R341), or an orphan reduction (R281). A key of a segment is
2^24 × owner rank + segment number. -/
structure Coll where
  id : Nat
  bay : Nat
  /-- The words that wait for it: (tile, word). The step norm joins one of each LEARN tile (R295). -/
  words : List (Nat × Nat)
  comm : Nat
  /-- COLL_OP, or 16 + XCH OP for an exchange. -/
  op : Nat
  opNo : Nat
  fmt : Nat
  stepNo : Nat
  orphan : Bool
  norm : Bool
  desc : BitVec 512
  /-- Shard map (FIRST, owner), for REDUCE_SCATTER and ALL_GATHER. -/
  map : List (Nat × Nat)
  /-- Segments to send and not acknowledged: (key, rank, payload). -/
  toSend : List (Nat × Nat × List Byte)
  /-- Grants received: (key, rank), and segments sent under them. -/
  grants : List (Nat × Nat)
  sent : List (Nat × Nat)
  /-- What must still arrive: (key, source rank). -/
  expect : List (Nat × Nat)
  /-- Grants given and not yet answered: (key, source rank). -/
  granted : List (Nat × Nat)
  /-- Contributions that have arrived: (key, source rank, payload). -/
  held : List (Nat × Nat × List Byte)
  /-- Resend counts, key 4096 key + rank. -/
  tries : Tab Nat
  /-- Sums of squares of finished segments: (key, h, l) (R294). -/
  ssq : List (Nat × Word × Word)
  /-- Values held: (rank, value words); in a reduction (key, next rank and running sums). -/
  vals : List (Nat × List Nat)
  /-- Progress of an operation of several stages; its meaning is the operation's own. -/
  phase : Nat
  deriving DecidableEq, Repr

/-- An exchange whose COUNTS has completed (R341 to R344): its step, descriptor, this rank's route list and the counts received,
source by source. -/
structure Exch where
  comm : Nat
  opNo : Nat
  stepNo : Nat
  desc : BitVec 512
  routes : List Nat
  recv : List Nat
  /-- The bay whose rollout step holds it; none in a learn step (R372). -/
  home : Option Nat
  deriving DecidableEq, Repr

/-- A live refresh in progress (R394, R395). -/
structure Refresh where
  cmd : Nat
  comm : Nat
  version : Nat
  publish : Bool
  recompute : Bool
  /-- Its progress; its meaning is Turn.lean's. -/
  stage : Nat
  deriving DecidableEq, Repr

/-- A segment of a rollout copy on its way into this device (R359). -/
structure Seg where
  owner : Nat
  entry : Nat
  /-- Bytes, and those of its data plane. -/
  len : Nat
  dlen : Nat
  /-- Staged bytes fail their CRC-64 (R213) against the one computed as they were written. -/
  stageCrcs : List Nat
  /-- CRC-64 as installed, and the owner's fingerprint. -/
  crc : Option Nat
  fp : Option Nat
  /-- Fetches made after a mismatch. -/
  fetches : Nat
  deriving DecidableEq, Repr

/-- An install of a rollout copy: turn step 7 and 8, or a refresh (R359, R360). -/
structure Install where
  comm : Nat
  version : Nat
  /-- The copy is staged in LPDDR5X before it is installed (step 7). -/
  staged : Bool
  /-- Numbers of segments that the ranks have announced: (rank, segments). -/
  counts : List (Nat × Nat)
  segs : List Seg
  /-- 0 receiving, 1 received, 2 installing, 3 auditing, 4 audited. -/
  phase : Nat
  /-- The audit's sum. -/
  sum : Nat
  /-- Resends asked for, key 2^20 owner + message number (R350). -/
  tries : Tab Nat
  deriving DecidableEq, Repr

/-- A checkpoint or flash command in progress (R232 to R236). -/
structure Flash where
  /-- 0 CKPT_WRITE, 1 CKPT_LOAD, 2 FLASH_WRITE, 3 FLASH_TRIM, 4 NS_CLEAR. -/
  kind : Nat
  cmd : Nat
  stage : Nat
  /-- First byte, in user space, of the slot or of the range. -/
  slot : Nat
  step : Nat
  comm : Nat
  /-- Rank whose generation it is. -/
  rank : Nat
  /-- Region data of a generation, or the bytes of a FLASH_WRITE. -/
  data : List Byte
  /-- Segments of a load that have still to come; of a trim, its length. -/
  missing : List Nat
  /-- The buddy holder has confirmed its trailer. -/
  buddyOk : Bool
  /-- A CKPT_WRITE that reads the park area, by the phase at its start (R232). -/
  parked : Bool
  deriving DecidableEq, Repr

/-- A buddy write that this device holds (R233). -/
structure Buddy where
  src : Nat
  comm : Nat
  rank : Nat
  step : Nat
  slot : Nat
  data : List Byte
  /-- The stream is taken and discarded (R515). -/
  discard : Bool
  /-- The whole stream has arrived; the trailer waits for the flash. -/
  whole : Bool
  /-- Layout epoch and policy version of the writer, for the trailer (R230). -/
  epoch : Nat
  version : Nat
  deriving DecidableEq, Repr

/-- An entry of the batch pool's ring (R355). -/
structure PoolEntry where
  off : Nat
  len : Nat
  admitted : Nat
  waiting : Bool
  comm : Nat
  src : Nat
  deriving DecidableEq, Repr

/-- A drain window in progress (R448). `why` 0 an apply, 1 a VF disable, 2 a quiesce, 3 SPARGE, 4 REPLAY_RUN, 5 a port disable. -/
structure Drain where
  why : Nat
  cmd : Nat
  deriving DecidableEq, Repr

/-- A replay run (R501). -/
structure Replay where
  cmd : Nat
  image : Nat
  /-- The image has been applied, and the records are being consumed. -/
  live : Bool
  /-- Records still to consume, in order: (TYPE, FLAGS, RSEQ, payload). -/
  rows : List (Nat × Nat × Nat × List Byte)
  /-- OUTPUT records still to compare: (RSEQ, digest). -/
  outs : List (Nat × List Byte)
  /-- Host reads: (RSEQ, RSEQ of the command, address, FLAGS, data), and flash reads: (RSEQ, offset, digest). -/
  data : List (Nat × Nat × Nat × Nat × List Byte)
  flash : List (Nat × Nat × List Byte)
  /-- Greatest POLICY_VERSION before the run and in it. -/
  version : Nat
  /-- Status and RSEQ of the first failure; 0 for none. -/
  verdict : Nat × Nat
  deriving DecidableEq, Repr

/-- Confidential session of a partition (R443, R445). -/
structure Session where
  /-- 0 none, 1 after KEY_EXCHANGE, 2 confidential. -/
  stage : Nat
  keyId : Nat
  updates : Nat
  sqCount : Tab Nat
  cqCount : Tab Nat
  batchCount : Tab Nat
  deriving DecidableEq, Repr

/-- A partition: what its registers do not show. -/
structure Part where
  defined : Bool
  cfg : Cfg
  epochs : List Nat
  decodeEntry : Nat
  draftEntry : Nat
  turn : Option Turn
  fence : Option Fence
  step : Option LearnStep
  colls : List Coll
  nextColl : Nat
  /-- Collective messages that arrived before the word they belong to has started here. -/
  early : List Msg
  /-- Early messages that have been forwarded down their tree already (R326). -/
  relayed : List Msg
  /-- Exchanges whose COUNTS has completed in the running step. -/
  exchanges : List Exch
  refresh : Option Refresh
  install : Option Install
  flash : Option Flash
  buddy : Option Buddy
  pool : List PoolEntry
  poolTail : Nat
  /-- The BATCH_PUT commands that wait for a remote answer. -/
  putWait : List Nat
  /-- CKPT_LOAD of this step must complete before learn steps run (R353). -/
  rollback : Option Nat
  degraded : Bool
  /-- Drain windows that run, oldest first. -/
  drain : List Drain
  session : Session
  /-- Epoch of the learn image last applied (R230). -/
  learnEpoch : Nat
  /-- Devices declared failed: (comm, DEVICE_ID); COMM_REJOIN alone readmits one (R351). -/
  failed : List (Nat × Nat)
  /-- CRC-64 of each parked region segment, key the segment's device address (R213). -/
  parkCrc : Tab Nat
  /-- Local delivery is stopped, by a sparge or by containment (R459, R483). -/
  deaf : Bool
  /-- RSEQ of the last replay record (R499), records lost since the last one written, and records held under STALL (R500). -/
  rseq : Nat
  replayGap : Nat
  replayHeld : List (Nat × Nat × List Byte)
  replayRun : Option Replay
  deriving DecidableEq, Repr

/-! ### Bays -/

/-- A queued or live sequence (R366, R367). -/
structure Seq where
  id : Nat
  flags : Nat
  depthReq : Nat
  topK : Nat
  promptLen : Nat
  maxNew : Nat
  temp : Word
  topP : Word
  seed : Nat
  buf : Nat
  stops : List Nat
  comm : Nat
  /-- The submitting command's function, ring and ring counter, by which a host buffer is reached (R445). -/
  fn : Nat
  ring : Nat
  ctr : Nat
  /-- RSEQ of that command's record (R499). -/
  rseq : Nat
  slot : Nat
  len : Nat
  /-- Positions that await prefill: fed so far, and the length to feed. -/
  fed : Nat
  target : Nat
  depth : Nat
  zero : Nat
  full : Nat
  off : Bool
  made : Nat
  /-- Highest position fed, plus 1. -/
  high : Nat
  oldLimit : Nat
  mixed : Bool
  reservedTo : Nat
  /-- Frames given: (fret, frame). -/
  frames : List (Nat × Nat)
  order : Nat
  /-- Tokens that the home has told this rank: (position, token) (R393). -/
  told : List (Nat × Nat)
  deriving DecidableEq, Repr

/-- An entry of the length table of the step in progress (R373). -/
structure LenEntry where
  slot : Nat
  kind : Nat
  depth : Nat
  pos0 : Nat
  count : Nat
  tokenIdx : Nat
  drawIdx : Nat
  mainSlot : Nat
  draftSlot : Nat
  deriving DecidableEq, Repr

/-- A bay: its sequencer and engines, beyond its registers. -/
structure Bay where
  queue : List Seq
  live : List Seq
  entries : List LenEntry
  stepping : Bool
  /-- Status of the rollout step in progress when it has been stopped; 0 while it runs. -/
  stepFailed : Bool
  /-- Admission numbers of the sequences that waited for a fret in the step last launched (R369, R387). -/
  waited : List Nat
  /-- The slot after the one last given decode work, 0 before any (R370). -/
  nextSlot : Nat
  admitted : Nat
  /-- A close of the barrier is due, it pauses the sequences for a turn (R389), and the members' highest steps held (R392). -/
  closing : Bool
  pausing : Bool
  closeVals : List (Nat × Nat)
  cancels : List (Nat × Nat)
  edits : List (Nat × Nat × Nat × Nat)
  /-- Bytes written above ACT_BUDGET (R336). -/
  spilled : Nat
  logTail : Nat
  /-- Sequences whose home has still to send this step's outcome (R393). -/
  groupWait : List Nat
  /-- Collectives issued in the rollout step in progress: (comm, 2^16 × operation + OP_NO) (R372). -/
  reds : List (Nat × Nat)
  deriving DecidableEq, Repr

/-! ### Rings and interrupts -/

/-- A ring pair: what its registers do not show (R431, R435, R437). -/
structure Ring where
  /-- Index of the doorbell: slots from SQ_HEAD up to it may be fetched. -/
  tail : Nat
  phase : Bool
  seq : Nat
  /-- Records held for want of room: NO_IRQ, and the record without its PHASE and SEQ. -/
  held : List (Bool × List Byte)
  pending : Nat
  deriving DecidableEq, Repr

/-! ### Lanoip -/

/-- A port: what its registers do not show (R307 to R319). -/
structure Port where
  /-- Flits sent and not acknowledged, oldest first, each with the times it was sent and its origin (R316). An origin is the port that a flit
  arrived on, 24 + b where an engine of bay b sent it, or 255 for the port itself. -/
  replay : List (BitVec 2048 × Nat × Nat)
  /-- How many of the last of them have still to be sent again, and whether they need fresh credits, after training (R311, R316). -/
  resend : Nat
  fresh : Bool
  /-- Flits waiting for a slot, a credit or the link, each with its origin (R318). -/
  queue : List (BitVec 2048 × Nat)
  txSeq : Nat
  rxSeq : Nat
  /-- The receiver drops flits until the replay; a NAK, or an ACK, has still to be sent. -/
  naking : Bool
  nakDue : Bool
  ackDue : Bool
  /-- Credits held per virtual channel, credits owed to the partner, those withheld from it (R315), and those this end advertised when it
  trained (R311). -/
  credit : Tab Nat
  owed : Tab Nat
  withheld : Tab Nat
  offered : Tab Nat
  restriping : Bool
  /-- A failed attempt waits for its pause to end (R311). -/
  pausing : Bool
  lastVc : Nat
  highRun : Nat
  deriving DecidableEq, Repr

/-- Errors that the memories hold and no access has met yet, and the counts that repair goes by. -/
structure Errors where
  /-- Codewords with an error that a read corrects, by device address and by `acc` key (R138, R200, R211). -/
  weak : Tab Bool
  accWeak : Tab Bool
  /-- Bytes of stationary buffers whose parity fails, key as `stat` (R138). -/
  stat : Tab Bool
  /-- Keys of the vault that fail their ECC: session keys of partition p at p, the identity key at 12 (R207). -/
  vault : Tab Bool
  /-- Errors of HBM row r of stack st since module power-on, key 2^32 st + r, as `Tile.rowErrs` counts (R211). -/
  hbmRows : Tab Nat
  /-- HBM data lanes that have failed, as 64 st + lane; the next warm reset replaces them (R211). -/
  hbmLanes : List Nat
  deriving DecidableEq, Repr

/-- A message being reassembled, by (port's partition, SRC, VC) (R315). -/
structure Reasm where
  part : Nat
  src : Nat
  vc : Nat
  ty : Nat
  epoch : Nat
  got : Mem
  len : Nat
  deriving DecidableEq, Repr

/-! ### The fault collector -/

/-- A fault record (R488). -/
structure LogRec where
  seq : Nat
  source : Nat
  severity : Nat
  orig : Nat
  acked : Bool
  escalated : Bool
  kind : Nat
  part : Nat
  inst : Nat
  repeats : Nat
  info : Nat
  time : Nat
  deriving DecidableEq, Repr

/-- A grace timer that runs (R486), on a record in the log or on one that was not logged. -/
structure Grace where
  seq : Nat
  level : Nat
  scope : Nat
  source : Nat
  kind : Nat
  inst : Nat
  deriving DecidableEq, Repr

/-- A fault that is detected and not yet at the collector (R479): source, instance kind, instance, INFO. -/
structure Raise where
  source : Nat
  kind : Nat
  inst : Nat
  info : Nat
  deriving DecidableEq, Repr

/-- The fault collector: what its registers do not show. -/
structure Collector where
  log : Tab LogRec
  nextSeq : Nat
  timers : List Grace
  /-- The minimum pulse of FAULT_N runs, and a write of 0 to HOLD waits for its end (R489). -/
  pulse : Bool
  release : Bool
  /-- Quiet periods that run: scopes 0 to 11, 12 the device (R490). -/
  quiet : List Nat
  /-- Sources whose condition lasts: (source, instance) (R490). -/
  lasting : List (Nat × Nat)
  /-- The safe state was entered through TAMPER, or through the collector's own parity (R491). -/
  byTamper : Bool
  byParity : Bool
  deriving DecidableEq, Repr

/-! ### Security, power and management -/

/-- The security controller and the boot ROM (R463 to R478). -/
structure Security where
  /-- Secrets of the vault that are present: identity key, key set, session keys by partition. -/
  identity : Bool
  wiped : Bool
  /-- Digests in the customer key banks, with their valid bits. -/
  bank0 : Option (List Byte)
  bank1 : Option (List Byte)
  challenge : Option (List Byte)
  challenges : Nat
  /-- SPI NOR contents, and the header of the running image. -/
  nor : Mem
  norLen : Nat
  running : List Byte
  /-- A recovery image is being staged; a whole device reset is due. -/
  recovering : Bool
  /-- SPDM state of each mailbox: 0 none, 1 version, 2 capabilities, 3 algorithms (R476). -/
  spdm : Tab Nat
  deriving DecidableEq, Repr

/-- The power manager and the management domain (R507 to R523, R450). -/
structure Power where
  powered : Bool
  perst : Bool
  straps : Nat
  /-- A temperature rule lowers DUTY: junction 95, junction 105, stacks at 95 (bit mask); stacks whose refresh is doubled. -/
  hot95 : Bool
  hot105 : Bool
  stackHot : Nat
  refresh2 : Nat
  /-- THERMTRIP_N is low (R514). -/
  tripped : Bool
  /-- ALERT_N is low; PWRGOOD is released. -/
  alert : Bool
  pwrgood : Bool
  /-- The host has enabled L1.2 in the link's ASPM control, a PCIe register (R507). -/
  aspmL12 : Bool
  /-- The free values (log entry 4) that are the rate and the width the link has trained to; none before boot. -/
  link : Option Nat
  /-- Sensor readings by PLDM sensor ID. -/
  sensors : Tab Nat
  eid : Nat
  deriving DecidableEq, Repr

/-! ### The state -/

structure State where
  /-- Commands that wait, first in, first out. -/
  pending : List Instr
  /-- Register fields, key Fld.key; a field not listed reads as Fld.reset. -/
  regs : Tab (Option Nat)
  /-- Device memory by device address: HBM, LPDDR5X, flash user space at its window address, scratchpad (*Device address map*). -/
  dev : Mem
  /-- Host memory. -/
  host : Mem
  /-- Accumulator stores: byte x of tile t at 2^20 t + x (R118). -/
  acc : Mem
  /-- Stationary buffers: byte x of buffer i of sub-array q of tile t at 2^19 t + 2^17 q + 2^16 i + x (R112). -/
  stat : Mem
  /-- Codewords that fail every read: key the device address of the codeword for scratchpad and HBM (R525). -/
  bad : Tab Bool
  /-- The same of accumulator codewords, key as `acc`. -/
  accBad : Tab Bool
  /-- LPDDR5X bytes whose transfer fails, by device address (R213). -/
  lpBad : Tab Bool
  err : Errors
  tiles : Tab (Option Tile)
  kettles : Tab (Option Kettle)
  parts : Tab (Option Part)
  bays : Tab (Option Bay)
  rings : Tab (Option Ring)
  ports : Tab (Option Port)
  reasm : List Reasm
  cmds : List Cmd
  nextCmd : Nat
  moves : List Move
  nextMove : Nat
  images : List Staged
  nextHandle : Nat
  loader : List Job
  /-- The module's sparing log, newest first: kind, unit and part (Machine/Repair.lean; R38). -/
  sparing : List (Nat × Nat × Nat)
  /-- Faults that the collector has still to take: those the collector and the replay writer detect themselves. -/
  due : List Raise
  /-- Times of exits from a fault state, newest first, by scope (R492). -/
  exits : List (Nat × Nat)
  fc : Collector
  sec : Security
  pwr : Power
  /-- NumVFs and the VFs that are up (R427). -/
  numVfs : Nat
  vfUp : Nat
  /-- MSI-X tables: mask bit cleared, pending bit, address and data, key 2^12 function + vector (R437). -/
  msixOn : Tab Bool
  msixPend : Tab Bool
  msixAddr : Tab Nat
  msixData : Tab Nat
  /-- MSI-X messages sent: (function, vector), newest first. -/
  irqs : List (Nat × Nat)
  /-- Lanoip messages sent by the partitions' engines, newest first. -/
  tx : List Msg
  /-- Flits that have left on the cables: (port, flit), newest first (R312). -/
  wire : List (Nat × BitVec 2048)
  /-- Messages delivered whole to a partition and not yet taken by an engine (R315, R320). -/
  inbox : List (Nat × Msg)
  /-- Register writes that engines have sent to a partition's view of its VF BAR0, oldest first: function, offset and value (R51). -/
  regWrites : List (Nat × Nat × Nat)
  /-- Messages to the BMC and DOE responses, newest first. -/
  mgmt : List (Nat × List Byte)
  /-- Ticks of the management domain since module power-on, and those at the last reset: the domain's cycle counter is their difference
  (R49, R488). -/
  time : Nat
  clock0 : Nat
  /-- The model's own counter of free values drawn (log entry 4). -/
  free : Nat
  deriving DecidableEq, Repr

/-! ### Reset -/

def Tile.reset : Tile :=
  { sregs := [], vregs := [], masks := [], remain := 0, prog := [], progBad := [], loops := [], mods := [], modding := false, flight := [], wrote := [],
    nextId := 0, live := false, rollout := false, stepNo := 0, seed := 0, ending := false, failCode := none, front := [],
    bufFmt := [], bufDepth := [], cycles := 0, rowSpares := [], lineSpares := 0, rowErrs := [], drained := [], lineErrs := [],
    residue := [],
    scrubPos := [], diverge := 0, retire := false, steepIssued := 0, steepLanded := [], steepSignalled := [], walkCache := [] }

def Kettle.reset : Kettle :=
  { kregs := [], todo := [], why := 0, normTaken := false, group := 0, pc := 0, block := 0, seed := 0, stepNo := 0,
    params := [], undo := [], caps := [], sats := [], own := [], failed := false, badLane := none, laneErrs := [],
    crcData := 0, crcScale := 0, prints := [] }

def Cfg.empty : Cfg :=
  { bays := 0, deviceId := 0, hasDev := false, roles := [], modes := [], pools := [], regions := [], ports := [], routes := [],
    credits := [], comms := [], stages := [], kslots := [], seqs := [], steeps := [], tensors := [] }

def Session.none : Session :=
  { stage := 0, keyId := 0, updates := 0, sqCount := [], cqCount := [], batchCount := [] }

def Part.reset : Part :=
  { defined := false, cfg := Cfg.empty, epochs := [], decodeEntry := 0, draftEntry := 0, turn := none, fence := none,
    step := none, colls := [], nextColl := 1, early := [], relayed := [], exchanges := [], refresh := none, install := none, flash := none, buddy := none, pool := [],
    poolTail := 0, putWait := [], rollback := none, degraded := false, drain := [], session := Session.none, learnEpoch := 0, failed := [],
    parkCrc := [], deaf := false, rseq := 0, replayGap := 0, replayHeld := [], replayRun := none }

def Bay.reset : Bay :=
  { queue := [], live := [], entries := [], stepping := false, stepFailed := false, waited := [], nextSlot := 0,
    admitted := 0, closing := false, pausing := false, closeVals := [], cancels := [], edits := [], spilled := 0, logTail := 0, groupWait := [], reds := [] }

def Ring.reset : Ring := { tail := 0, phase := true, seq := 0, held := [], pending := 0 }

def Port.reset : Port :=
  { replay := [], resend := 0, fresh := false, queue := [], txSeq := 0, rxSeq := 0, naking := false, nakDue := false, ackDue := false,
    credit := [], owed := [], withheld := [], offered := [], restriping := false, pausing := false, lastVc := 0, highRun := 0 }

def Errors.none : Errors := { weak := [], accWeak := [], stat := [], vault := [], hbmRows := [], hbmLanes := [] }

def Collector.reset : Collector :=
  { log := [], nextSeq := 1, timers := [], pulse := false, release := false, quiet := [], lasting := [], byTamper := false,
    byParity := false }

def Security.reset : Security :=
  { identity := false, wiped := false, bank0 := none, bank1 := none, challenge := none, challenges := 0, nor := [], norLen := 0,
    running := [], recovering := false, spdm := [] }

def Power.reset : Power :=
  { powered := true, perst := true, straps := 0, hot95 := false, hot105 := false, stackHot := 0, refresh2 := 0,
    tripped := false, alert := false, pwrgood := true, aspmL12 := false, link := none, sensors := [], eid := 0 }

/-- The module right after power-on, PERST_N still low: every register field at its reset value, every store zero, no image
applied (R8, R155, R204, R521). Values that spec/ does not state are named in log entries 2 and 3. -/
def State.reset : State :=
  { pending := [], regs := [], dev := [], host := [], acc := [], stat := [], bad := [], accBad := [], lpBad := [], err := Errors.none, tiles := [],
    kettles := [], parts := [], bays := [], rings := [], ports := [], reasm := [], cmds := [], nextCmd := 1, moves := [],
    nextMove := 1, images := [], nextHandle := 1, loader := [], sparing := [],
    due := [], exits := [], fc := Collector.reset, sec := Security.reset, pwr := Power.reset, numVfs := 0, vfUp := 0, msixOn := [],
    msixPend := [], msixAddr := [], msixData := [], irqs := [], tx := [], wire := [], inbox := [], regWrites := [], mgmt := [], time := 0, clock0 := 0, free := 0 }

end Sys2Proof.Machine
end

