-- ==== Sys2Proof/Machine/Codes.lean ====
section
/-!
DEFINITION. The completion statuses, fault sources, phases and illegal-command reasons of spec/, under the spec's names.
-/

namespace Sys2Proof.Machine

/-! ### Completion statuses (R27, R237, and the status tables of the chapters that own the commands) -/

abbrev Status.ok : Nat := 0x0000
abbrev Status.abandoned : Nat := 0x0001
abbrev Status.clamped : Nat := 0x0002
abbrev Status.aborted : Nat := 0x0003
abbrev Status.abortedDisable : Nat := 0x0004
abbrev Status.badAddress : Nat := 0x0005
abbrev Status.badOpcode : Nat := 0x0006
abbrev Status.programFailed : Nat := 0x0007
abbrev Status.tileFault : Nat := 0x0008
abbrev Status.tagFailed : Nat := 0x0009
abbrev Status.dataError : Nat := 0x000A
abbrev Status.busy : Nat := 0x0010
abbrev Status.badState : Nat := 0x0011
abbrev Status.badVersion : Nat := 0x0012
abbrev Status.badEpoch : Nat := 0x0013
abbrev Status.badOperand : Nat := 0x0014
abbrev Status.imageRejected : Nat := 0x0015
abbrev Status.noRoom : Nat := 0x0016
abbrev Status.tooLate : Nat := 0x0017
abbrev Status.noOldCopy : Nat := 0x0018
abbrev Status.peerFailed : Nat := 0x0019
abbrev Status.auditFailed : Nat := 0x001A
abbrev Status.noHandle : Nat := 0x0020
abbrev Status.handleInUse : Nat := 0x0021
abbrev Status.ckptNone : Nat := 0x0030
abbrev Status.bothCopiesBad : Nat := 0x0031
abbrev Status.buddyMissing : Nat := 0x0032
abbrev Status.noSpace : Nat := 0x0033
abbrev Status.readOnly : Nat := 0x0034
abbrev Status.journalOpen : Nat := 0x0038
abbrev Status.journalMismatch : Nat := 0x0039
abbrev Status.kettleInterrupted : Nat := 0x003A
abbrev Status.noJournal : Nat := 0x003B
abbrev Status.journalBad : Nat := 0x003C
abbrev Status.declaredFailed : Nat := 0x0040
abbrev Status.rejoinMismatch : Nat := 0x0041
abbrev Status.exchangeOverflow : Nat := 0x0043
abbrev Status.poolFull : Nat := 0x0044
abbrev Status.alreadyComplete : Nat := 0x0048
abbrev Status.unknownSeq : Nat := 0x0049
abbrev Status.duplicateSeq : Nat := 0x004A
abbrev Status.queueFull : Nat := 0x004B
abbrev Status.swapPending : Nat := 0x004C
abbrev Status.noFlipRoom : Nat := 0x004D
abbrev Status.editQueueFull : Nat := 0x004E
abbrev Status.noFrames : Nat := 0x004F
abbrev Status.spargePending : Nat := 0x0050
abbrev Status.spargeFailed : Nat := 0x0051
abbrev Status.authFailed : Nat := 0x0052
abbrev Status.badTransition : Nat := 0x0053
abbrev Status.keysWiped : Nat := 0x0054
abbrev Status.fwInvalid : Nat := 0x0055
abbrev Status.powerSag : Nat := 0x0056
abbrev Status.rollback : Nat := 0x0057
abbrev Status.contained : Nat := 0x0060
abbrev Status.degraded : Nat := 0x0061
abbrev Status.safeState : Nat := 0x0062
abbrev Status.replayDiverged : Nat := 0x0063
abbrev Status.replayIncomplete : Nat := 0x0064
abbrev Status.notHeld : Nat := 0x0065

/-! ### Fault sources (R480, R329) -/

abbrev Source.collectorParity : Nat := 0x0000
abbrev Source.pllUnlock : Nat := 0x0001
abbrev Source.tamper : Nat := 0x0002
abbrev Source.leak : Nat := 0x0003
abbrev Source.thermalTrip : Nat := 0x0004
abbrev Source.thermalThrottle : Nat := 0x0005
abbrev Source.supplySag : Nat := 0x0006
abbrev Source.supplyUnder : Nat := 0x0007
abbrev Source.vaultUncorrectable : Nat := 0x0008
abbrev Source.authFailed : Nat := 0x0009
abbrev Source.doorbellInvalid : Nat := 0x000A
abbrev Source.gcmTagFailed : Nat := 0x000B
abbrev Source.hostPoisoned : Nat := 0x000C
abbrev Source.flashReadOnly : Nat := 0x000D
abbrev Source.recoveryLimit : Nat := 0x000E
abbrev Source.replayOverrun : Nat := 0x000F
abbrev Source.spareTakeover : Nat := 0x0010
abbrev Source.tileUnmapped : Nat := 0x0011
abbrev Source.bayRetired : Nat := 0x0012
abbrev Source.partitionViolation : Nat := 0x0020
abbrev Source.addrUnmapped : Nat := 0x0021
abbrev Source.illegalCommand : Nat := 0x0022
abbrev Source.progUncorrectable : Nat := 0x0023
abbrev Source.eventResidue : Nat := 0x0024
abbrev Source.eventOverflow : Nat := 0x0025
abbrev Source.syncTimeout : Nat := 0x0026
abbrev Source.accUncorrectable : Nat := 0x0027
abbrev Source.shadowParity : Nat := 0x0028
abbrev Source.mxmResidue : Nat := 0x0029
abbrev Source.scratchUncorrectable : Nat := 0x002A
abbrev Source.scratchSparesExhausted : Nat := 0x002B
abbrev Source.bankWriteCollision : Nat := 0x002C
abbrev Source.poolViolation : Nat := 0x002D
abbrev Source.pageTableWrite : Nat := 0x002E
abbrev Source.attRange : Nat := 0x002F
abbrev Source.accSparesExhausted : Nat := 0x0030
abbrev Source.rowRepaired : Nat := 0x0031
abbrev Source.hbmUncorrectable : Nat := 0x0040
abbrev Source.stackLost : Nat := 0x0041
abbrev Source.lpddrDataError : Nat := 0x0042
abbrev Source.lpddrSparesExhausted : Nat := 0x0043
abbrev Source.kettleWaitTimeout : Nat := 0x0044
abbrev Source.kettleStepStale : Nat := 0x0045
abbrev Source.kettleResidue : Nat := 0x0046
abbrev Source.kettleUndoUncorrectable : Nat := 0x0047
abbrev Source.kettleLaneSpared : Nat := 0x0048
abbrev Source.reductionDuplicate : Nat := 0x0060
abbrev Source.rankDeclaredFailed : Nat := 0x0061
abbrev Source.reductionAbandoned : Nat := 0x0062
abbrev Source.exchangeOverflow : Nat := 0x0063
abbrev Source.batchPoolFull : Nat := 0x0064
abbrev Source.batchStale : Nat := 0x0065
abbrev Source.replicaMismatch : Nat := 0x0066
abbrev Source.sampleInput : Nat := 0x0067
abbrev Source.fretPreempt : Nat := 0x0068
abbrev Source.spargeFailed : Nat := 0x0069
abbrev Source.laneFailed : Nat := 0x0080
abbrev Source.linkDegraded : Nat := 0x0081
abbrev Source.linkDown : Nat := 0x0082
abbrev Source.linkTrainFail : Nat := 0x0083
abbrev Source.linkReplayLimit : Nat := 0x0084
abbrev Source.linkProtocol : Nat := 0x0085
abbrev Source.routeDrop : Nat := 0x0086
abbrev Source.hopLimit : Nat := 0x0087
abbrev Source.creditStall : Nat := 0x0088

/-- Source numbers that *Fault sources* names; every other number is reserved (R480). -/
def sourceNamed (n : Nat) : Bool :=
  decide (n ≤ 0x12) || (decide (0x20 ≤ n) && decide (n ≤ 0x31)) || (decide (0x40 ≤ n) && decide (n ≤ 0x48)) ||
    (decide (0x60 ≤ n) && decide (n ≤ 0x69)) || (decide (0x80 ≤ n) && decide (n ≤ 0x88))

/-! ### Severities and instance kinds (R482, R488) -/

abbrev Severity.log : Nat := 0
abbrev Severity.notify : Nat := 1
abbrev Severity.contain : Nat := 2
abbrev Severity.safe : Nat := 3

abbrev Kind.chip : Nat := 0
abbrev Kind.tile : Nat := 1
abbrev Kind.bay : Nat := 2
abbrev Kind.port : Nat := 3
abbrev Kind.stack : Nat := 4

/-! ### Phases (*Turn registers*) -/

abbrev Phase.unconfigured : Nat := 0
abbrev Phase.rollout : Nat := 1
abbrev Phase.turnIn : Nat := 2
abbrev Phase.learn : Nat := 3
abbrev Phase.turnOut : Nat := 4
abbrev Phase.abandoning : Nat := 5
abbrev Phase.halted : Nat := 6

/-! ### Tile states (*Tile program registers*) and illegal command reasons (R183) -/

abbrev TpState.idle : Nat := 0
abbrev TpState.running : Nat := 1
abbrev TpState.waiting : Nat := 2
abbrev TpState.stopped : Nat := 3

abbrev Reason.badClass : Nat := 0x01
abbrev Reason.badOp : Nat := 0x02
abbrev Reason.badFormat : Nat := 0x03
abbrev Reason.reservedSet : Nat := 0x04
abbrev Reason.fieldRange : Nat := 0x05
abbrev Reason.mode : Nat := 0x06
abbrev Reason.accRange : Nat := 0x07
abbrev Reason.pcRange : Nat := 0x08
abbrev Reason.branchScope : Nat := 0x09
abbrev Reason.loopDepth : Nat := 0x0A
abbrev Reason.stripStall : Nat := 0x0B
abbrev Reason.modTarget : Nat := 0x0C
abbrev Reason.table : Nat := 0x0D
abbrev Reason.descriptor : Nat := 0x0E
abbrev Reason.cursor : Nat := 0x0F

/-! ### Tile roles (field 0x02.0x01) -/

abbrev Role.idle : Nat := 0

end Sys2Proof.Machine
end

