-- ==== Sys2Proof/Machine/Digest.lean ====
section
/-!
DEFINITION. The check codes and digests that the spec names: CRC-32C (R52), CRC-32 (R312), CRC-64 of ECMA-182 (R230) and
SHA-256 in the byte order of FIPS 180-4 (R469).
-/

namespace Sys2Proof.Machine

/-- One bit of a reflected CRC with reversed polynomial `poly`. -/
def crcBit (poly c : Nat) : Nat := if c % 2 = 1 then Nat.xor (c / 2) poly else c / 2

/-- n bits of a reflected CRC. -/
def crcBits (poly : Nat) : Nat → Nat → Nat
  | 0, c => c
  | n + 1, c => crcBits poly n (crcBit poly c)

/-- A reflected CRC register after the bytes. -/
def crcRun (poly : Nat) (bs : List Byte) (c : Nat) : Nat :=
  bs.foldl (fun c b => crcBits poly 8 (Nat.xor c b.toNat)) c

/-- CRC-32C (R52). -/
def crc32c (bs : List Byte) : Nat := Nat.xor (crcRun 0x82F63B78 bs 0xFFFFFFFF) 0xFFFFFFFF

/-- CRC-32 of a flit (R312). -/
def crc32 (bs : List Byte) : Nat := Nat.xor (crcRun 0xEDB88320 bs 0xFFFFFFFF) 0xFFFFFFFF

/-- n bits of the CRC-64 register, most significant bit first (R230). -/
def crc64Bits : Nat → Nat → Nat
  | 0, c => c
  | n + 1, c =>
    crc64Bits n (if 2 ^ 63 ≤ c then Nat.xor (c * 2 % 2 ^ 64) 0x42F0E1EBA9EA3693 else c * 2)

/-- CRC-64, ECMA-182 polynomial, initial value 0, no reflection, no final exclusive-or (R230). -/
def crc64From (c : Nat) (bs : List Byte) : Nat :=
  bs.foldl (fun c b => crc64Bits 8 (Nat.xor c (b.toNat * 2 ^ 56))) c

def crc64 (bs : List Byte) : Nat := crc64From 0 bs

/-! ### SHA-256: its constants from their definition, and its compression -/

/-- The largest r below 2^n + r₀ whose k-th power is at most x, bit by bit from r₀. -/
def shaRoot (k x : Nat) : Nat → Nat → Nat
  | 0, r => r
  | n + 1, r => shaRoot k x n (if (r + 2 ^ n) ^ k ≤ x then r + 2 ^ n else r)

/-- The first 32 bits of the fraction of the k-th root of p. -/
def shaFraction (k p : Nat) : Nat := shaRoot k (p * 2 ^ (32 * k)) 36 0 % 2 ^ 32

/-- The 64 primes below 312. -/
def shaPrimes : List Nat := (List.range 312).filter (fun n => decide (2 ≤ n) && (List.range n).all (fun d => decide (d < 2) || n % d != 0))

def rotr32 (n x : Nat) : Nat := (x / 2 ^ n + x % 2 ^ n * 2 ^ (32 - n)) % 2 ^ 32

def xor3 (a b c : Nat) : Nat := Nat.xor a (Nat.xor b c)

/-- Three rotations, and two rotations with a shift, of a word. -/
def shaTurn (i j k x : Nat) : Nat := xor3 (rotr32 i x) (rotr32 j x) (rotr32 k x)
def shaSlide (i j k x : Nat) : Nat := xor3 (rotr32 i x) (rotr32 j x) (x / 2 ^ k)

/-- The message schedule, newest word first. -/
def shaSchedule : Nat → List Nat → List Nat
  | 0, w => w
  | n + 1, w => shaSchedule n (([w.getD 15 0, shaSlide 7 18 3 (w.getD 14 0), w.getD 6 0, shaSlide 17 19 10 (w.getD 1 0)].sum % 2 ^ 32) :: w)

/-- The working words of a block, a the first of them. -/
structure ShaWork where
  a : Nat
  b : Nat
  c : Nat
  d : Nat
  e : Nat
  f : Nat
  g : Nat
  h : Nat

def ShaWork.ofList (l : List Nat) : ShaWork :=
  ⟨l.getD 0 0, l.getD 1 0, l.getD 2 0, l.getD 3 0, l.getD 4 0, l.getD 5 0, l.getD 6 0, l.getD 7 0⟩

def ShaWork.toList (x : ShaWork) : List Nat := [x.a, x.b, x.c, x.d, x.e, x.f, x.g, x.h]

/-- One round with a round constant and a schedule word, given as their sum. -/
def ShaWork.round (x : ShaWork) (kw : Nat) : ShaWork :=
  let choose := Nat.xor x.g (Nat.land x.e (Nat.xor x.f x.g))
  let major := Nat.xor (Nat.land x.a (Nat.xor x.b x.c)) (Nat.land x.b x.c)
  let up := x.h + kw + choose + shaTurn 6 11 25 x.e
  { x with a := (up + major + shaTurn 2 13 22 x.a) % 2 ^ 32, b := x.a, c := x.b, d := x.c, e := (x.d + up) % 2 ^ 32, f := x.e, g := x.f, h := x.g }

/-- Big-endian 32-bit words of a byte string. -/
def beWords : Nat → List Byte → List Nat
  | 0, _ => []
  | n + 1, bs => beNat (bs.take 4) :: beWords n (bs.drop 4)

/-- One 64-byte block. -/
def shaBlock (h : List Nat) (blk : List Byte) : List Nat :=
  let words := (shaSchedule 48 (beWords 16 blk).reverse).reverse
  let sums := List.zipWith (fun p w => shaFraction 3 p + w) shaPrimes words
  List.zipWith (fun x y => (x + y) % 2 ^ 32) h (sums.foldl ShaWork.round (ShaWork.ofList h)).toList

def shaBlocks : Nat → List Byte → List Nat → List Nat
  | 0, _, h => h
  | n + 1, bs, h => shaBlocks n (bs.drop 64) (shaBlock h (bs.take 64))

/-- SHA-256, 32 bytes. -/
def sha256 (bs : List Byte) : List Byte :=
  let n := bs.length
  let pad := (119 - n % 64) % 64
  let msg := bs ++ [0x80#8] ++ List.replicate pad 0#8 ++ beBytes 8 (8 * n)
  ((shaBlocks (msg.length / 64) msg ((shaPrimes.take 8).map (shaFraction 2))).map (beBytes 4)).flatten

end Sys2Proof.Machine
end

