-- ==== Sys2Proof/Machine/Num.lean ====
section
/-!
DEFINITION. Arithmetic of spec/04_numerics.md: exact values, one rounding to a format, the IEEE 754-2019 operations the
engines use, conversions with their flags and saturations, scale choice, Philox and the fixed combining tree. Flag masks are
IX 1, UF 2, OF 4 and INV 8 (R105).
-/

namespace Sys2Proof.Machine

/-- An exact operand: a NaN (signalling or quiet), an infinity, or ± m × 2^e with a signed zero at m = 0. -/
inductive Val where
  | nan (sig : Bool)
  | inf (neg : Bool)
  | fin (neg : Bool) (m : Nat) (e : Int)
  deriving DecidableEq, Repr

/-- A binary floating-point layout (*Floating-point layouts*). -/
structure FFmt where
  expBits : Nat
  fracBits : Nat
  deriving DecidableEq, Repr

def FFmt.fp32 : FFmt := ⟨8, 23⟩
def FFmt.bf16 : FFmt := ⟨8, 7⟩
def FFmt.fp16 : FFmt := ⟨5, 10⟩
def FFmt.fp64 : FFmt := ⟨11, 52⟩

def FFmt.bias (f : FFmt) : Nat := 2 ^ (f.expBits - 1) - 1

/-- Exponent of the smallest subnormal. -/
def FFmt.qmin (f : FFmt) : Int := 1 - (f.bias : Int) - (f.fracBits : Int)

/-- Encoding of +∞. -/
def FFmt.infBits (f : FFmt) : Nat := (2 ^ f.expBits - 1) * 2 ^ f.fracBits

def FFmt.signBit (f : FFmt) : Nat := 2 ^ (f.expBits + f.fracBits)

/-- The canonical NaN (R79). -/
def FFmt.nanBits (f : FFmt) : Nat := f.infBits + 2 ^ (f.fracBits - 1)

def flIX : Nat := 1
def flUF : Nat := 2
def flOF : Nat := 4
def flINV : Nat := 8

/-- The value of an encoding (R79). -/
def FFmt.decode (f : FFmt) (bits : Nat) : Val :=
  let neg := bitOf bits (f.expBits + f.fracBits)
  let ex := (bits / 2 ^ f.fracBits) % 2 ^ f.expBits
  let fr := bits % 2 ^ f.fracBits
  if ex = 2 ^ f.expBits - 1 then
    if fr = 0 then .inf neg else .nan (!bitOf fr (f.fracBits - 1))
  else if ex = 0 then .fin neg fr f.qmin
  else .fin neg (2 ^ f.fracBits + fr) (f.qmin + (ex - 1 : Nat))

/-- Exponent E with 2^E ≤ num/den × 2^e < 2^(E+1); num and den are not 0. -/
def floorLog (num den : Nat) (e : Int) : Int :=
  let l : Int := (num.log2 : Int) - (den.log2 : Int)
  let ge : Bool := if 0 ≤ l then decide (den * 2 ^ l.toNat ≤ num) else decide (den ≤ num * 2 ^ (-l).toNat)
  (if ge then l else l - 1) + e

/-- num/den × 2^e in units of 2^q: quotient, remainder and divisor. -/
def scaleTo (num den : Nat) (e q : Int) : Nat × Nat × Nat :=
  let (a, b) : Nat × Nat :=
    if 0 ≤ e - q then (num * 2 ^ (e - q).toNat, den) else (num, den * 2 ^ (q - e).toNat)
  (a / b, a % b, b)

/-- Round a quotient to nearest even: the integer, and whether it is inexact. -/
def roundNE (n r b : Nat) : Nat × Bool :=
  (if b < 2 * r || (b == 2 * r && n % 2 == 1) then n + 1 else n, r != 0)

/-- num/den × 2^e to p significant bits with quantum at least 2^qmin, to nearest even: (n, q, inexact). -/
def roundTo (p : Nat) (qmin : Int) (num den : Nat) (e : Int) : Nat × Int × Bool :=
  let q := max (floorLog num den e - (p : Int) + 1) qmin
  let (n, r, b) := scaleTo num den e q
  let (n', ix) := roundNE n r b
  (n', q, ix)

/-- The value is tiny after rounding to p bits with an unbounded exponent: below 2^emin (R105, UF). -/
def tinyAfter (p : Nat) (emin : Int) (num den : Nat) (e : Int) : Bool :=
  let ee := floorLog num den e
  if emin ≤ ee then false
  else if ee = emin - 1 then
    let (n, r, b) := scaleTo num den e (ee - (p : Int) + 1)
    (roundNE n r b).1 < 2 ^ p
  else true

/-- A rounded result: encoding and flags. -/
structure Rnd where
  bits : Nat
  fl : Nat
  deriving DecidableEq, Repr

/-- ± num/den × 2^e rounded once to nearest even to a layout, with IX, UF and OF (R79, R94, R105). -/
def FFmt.round (f : FFmt) (neg : Bool) (num den : Nat) (e : Int) : Rnd :=
  let sg := if neg then f.signBit else 0
  if num = 0 then ⟨sg, 0⟩ else
  let (n, q, ix) := roundTo (f.fracBits + 1) f.qmin num den e
  let enc := (q - f.qmin).toNat * 2 ^ f.fracBits + n
  if f.infBits ≤ enc then ⟨sg + f.infBits, flOF + flIX⟩
  else
    ⟨sg + enc, if ix then flIX + (if tinyAfter (f.fracBits + 1) (f.qmin + f.fracBits) num den e then flUF else 0) else 0⟩

/-- An exact value rounded once to a layout; a NaN gives the canonical NaN, and INV when it signals (R79, R105). -/
def FFmt.ofVal (f : FFmt) : Val → Rnd
  | .nan sig => ⟨f.nanBits, if sig then flINV else 0⟩
  | .inf neg => ⟨(if neg then f.signBit else 0) + f.infBits, 0⟩
  | .fin neg m e => f.round neg m 1 e

/-! ### Exact operations -/

def Val.isNan : Val → Bool
  | .nan _ => true
  | _ => false

def Val.isSig : Val → Bool
  | .nan s => s
  | _ => false

def Val.negate : Val → Val
  | .nan s => .nan s
  | .inf n => .inf (!n)
  | .fin n m e => .fin (!n) m e

def Val.abs : Val → Val
  | .nan s => .nan s
  | .inf _ => .inf false
  | .fin _ m e => .fin false m e

def Val.ofInt (v : Int) : Val := .fin (decide (v < 0)) v.natAbs 0

def Val.isFin : Val → Bool
  | .fin _ _ _ => true
  | _ => false

def Val.isZero : Val → Bool
  | .fin _ 0 _ => true
  | _ => false

/-- INV of an operation with a signalling operand. -/
def sigFlag (vs : List Val) : Nat := if vs.any Val.isSig then flINV else 0

/-- Signed integer of ± m × 2^e in units of 2^q, where q ≤ e. -/
def Val.units (neg : Bool) (m : Nat) (e q : Int) : Int :=
  (if neg then -1 else 1) * ((m * 2 ^ (e - q).toNat : Nat) : Int)

/-- Exact a + b and INV (R79). -/
def Val.add (a b : Val) : Val × Nat :=
  match a, b with
  | .nan _, _ => (.nan false, sigFlag [a, b])
  | _, .nan _ => (.nan false, sigFlag [a, b])
  | .inf x, .inf y => if x = y then (.inf x, 0) else (.nan false, flINV)
  | .inf x, _ => (.inf x, 0)
  | _, .inf y => (.inf y, 0)
  | .fin x m e, .fin y n d =>
    let q := min e d
    let v := Val.units x m e q + Val.units y n d q
    if v = 0 then (.fin (x && y) 0 0, 0) else (.fin (decide (v < 0)) v.natAbs q, 0)

/-- Exact a × b and INV (R79). -/
def Val.mul (a b : Val) : Val × Nat :=
  match a, b with
  | .nan _, _ => (.nan false, sigFlag [a, b])
  | _, .nan _ => (.nan false, sigFlag [a, b])
  | .inf x, .inf y => (.inf (x != y), 0)
  | .inf x, .fin y m _ => if m = 0 then (.nan false, flINV) else (.inf (x != y), 0)
  | .fin x m _, .inf y => if m = 0 then (.nan false, flINV) else (.inf (x != y), 0)
  | .fin x m e, .fin y n d => (.fin (x != y) (m * n) (e + d), 0)

/-- Exact a × b + c and INV; 0 × ∞ raises INV whatever c is (R105; log entry 5). -/
def Val.fma (a b c : Val) : Val × Nat :=
  let (p, f1) := Val.mul a b
  let (r, f2) := Val.add p c
  (r, f1 ||| f2)

/-- An operation in a layout: the exact result rounded once (R145). -/
def FFmt.add (f : FFmt) (a b : Val) : Rnd :=
  let (v, fl) := Val.add a b
  let r := f.ofVal v
  ⟨r.bits, r.fl ||| fl⟩

def FFmt.mul (f : FFmt) (a b : Val) : Rnd :=
  let (v, fl) := Val.mul a b
  let r := f.ofVal v
  ⟨r.bits, r.fl ||| fl⟩

def FFmt.fma (f : FFmt) (a b c : Val) : Rnd :=
  let (v, fl) := Val.fma a b c
  let r := f.ofVal v
  ⟨r.bits, r.fl ||| fl⟩

/-- a / b rounded once; a zero divisor raises no flag (R245). -/
def FFmt.div (f : FFmt) (a b : Val) : Rnd :=
  match a, b with
  | .nan _, _ => ⟨f.nanBits, sigFlag [a, b]⟩
  | _, .nan _ => ⟨f.nanBits, sigFlag [a, b]⟩
  | .inf _, .inf _ => ⟨f.nanBits, flINV⟩
  | .inf x, .fin y _ _ => f.ofVal (.inf (x != y))
  | .fin x _ _, .inf y => f.ofVal (.fin (x != y) 0 0)
  | .fin x m e, .fin y n d =>
    if n = 0 then (if m = 0 then ⟨f.nanBits, flINV⟩ else f.ofVal (.inf (x != y)))
    else f.round (x != y) m n (e - d)

/-- Extra precision of roots and of the series below: enough that the one sticky bit decides every rounding. -/
def rootBits : Nat := 130

/-- Square root rounded once (R245). -/
def FFmt.sqrt (f : FFmt) (a : Val) : Rnd :=
  match a with
  | .nan s => ⟨f.nanBits, if s then flINV else 0⟩
  | .inf neg => if neg then ⟨f.nanBits, flINV⟩ else f.ofVal a
  | .fin neg m e =>
    if m = 0 then f.ofVal a
    else if neg then ⟨f.nanBits, flINV⟩
    else
      let m1 := if e % 2 = 0 then m else 2 * m
      let e1 := if e % 2 = 0 then e else e - 1
      let big := m1 * 2 ^ (2 * rootBits)
      let r := Nat.sqrt big
      f.round false (2 * r + (if r * r = big then 0 else 1)) 1 (e1 / 2 - rootBits - 1)

/-- Order of two values that are not NaN: a < b, with -0 = +0. -/
def Val.lt (a b : Val) : Bool :=
  match a, b with
  | .nan _, _ => false
  | _, .nan _ => false
  | .inf x, .inf y => x && !y
  | .inf x, _ => x
  | _, .inf y => !y
  | .fin x m e, .fin y n d => let q := min e d; decide (Val.units x m e q < Val.units y n d q)

def Val.eq (a b : Val) : Bool := !a.isNan && !b.isNan && !Val.lt a b && !Val.lt b a

def Val.isNeg : Val → Bool
  | .nan _ => false
  | .inf n => n
  | .fin n _ _ => n

/-- a is the smaller under minimumNumber, -0 below +0 (R147). -/
def Val.below (a b : Val) : Bool :=
  Val.lt a b || (Val.eq a b && a.isNeg && !b.isNeg)

/-- minimumNumber and maximumNumber of encodings in a layout, with INV for a signalling operand (R147). -/
def FFmt.minMax (f : FFmt) (wantMax : Bool) (a b : Val) : Rnd :=
  let fl := sigFlag [a, b]
  match a.isNan, b.isNan with
  | true, true => ⟨f.nanBits, fl⟩
  | true, false => let r := f.ofVal b; ⟨r.bits, r.fl ||| fl⟩
  | false, true => let r := f.ofVal a; ⟨r.bits, r.fl ||| fl⟩
  | false, false =>
    let r := f.ofVal (if Val.below a b == wantMax then b else a)
    ⟨r.bits, r.fl ||| fl⟩

/-- PRED 0 to 7: EQ, NE, LT, LE, GT, GE, UN, ORD (R148). -/
def Val.pred (p : Nat) (a b : Val) : Bool :=
  let un := a.isNan || b.isNan
  match p with
  | 0 => Val.eq a b
  | 1 => !Val.eq a b
  | 2 => Val.lt a b
  | 3 => !un && !Val.lt b a
  | 4 => Val.lt b a
  | 5 => !un && !Val.lt a b
  | 6 => un
  | _ => !un

/-- maximumNumber of two values, for captured maxima (R99). -/
def Val.maxNum (a b : Val) : Val :=
  if a.isNan then b else if b.isNan then a else if Val.below a b then b else a

/-! ### FP32 shorthands -/

def f32 (b : Nat) : Val := FFmt.fp32.decode b
def f32add (a b : Nat) : Rnd := FFmt.fp32.add (f32 a) (f32 b)
def f32mul (a b : Nat) : Rnd := FFmt.fp32.mul (f32 a) (f32 b)
def f32fma (a b c : Nat) : Rnd := FFmt.fp32.fma (f32 a) (f32 b) (f32 c)
/-- a with its sign flipped, a NaN's too (R146). -/
def f32neg (a : Nat) : Nat := if bitOf a 31 then a - 2 ^ 31 else a + 2 ^ 31
def f32sub (a b : Nat) : Rnd := f32add a (f32neg b)
def f32nan : Nat := FFmt.fp32.nanBits
def f32one : Nat := 0x3F800000
def f32isNan (a : Nat) : Bool := (f32 a).isNan
def f32isInf (a : Nat) : Bool := match f32 a with | .inf _ => true | _ => false
def f32isFinite (a : Nat) : Bool := match f32 a with | .fin _ _ _ => true | _ => false

/-! ### Integers -/

/-- Clamp to w-bit two's complement: the value and whether it was clamped. -/
def satInt (w : Nat) (v : Int) : Int × Bool :=
  if v < -(2 ^ (w - 1) : Int) then (-(2 ^ (w - 1) : Int), true)
  else if (2 ^ (w - 1) : Int) - 1 < v then ((2 ^ (w - 1) : Int) - 1, true)
  else (v, false)

/-- Saturating INT32 addition; OF when it saturates (R86). -/
def i32add (a b : Nat) : Rnd :=
  let (v, sat) := satInt 32 (toSigned 32 a + toSigned 32 b)
  ⟨ofSigned 32 v, if sat then flOF else 0⟩

/-- Nearest even integer to ± num/den × 2^e, and whether it is inexact. -/
def roundInt (neg : Bool) (num den : Nat) (e : Int) : Int × Bool :=
  let (n, r, b) := scaleTo num den e 0
  let (n', ix) := roundNE n r b
  ((if neg then -1 else 1) * (n' : Int), ix)

/-! ### Pairs (R82, R88, R90) -/

/-- One pair update: (h, l, flags). An infinite sum gives (t, +0) and OF beside the flags of the sum; a NaN gives the canonical NaN pair
(R88). -/
def pairAdd (h l p : Nat) : Nat × Nat × Nat :=
  let t := f32add h p
  if f32isNan t.bits then (f32nan, 0, t.fl)
  else if f32isInf t.bits then (t.bits, 0, t.fl ||| flOF)
  else
    let bv := f32sub t.bits h
    let tb := f32sub t.bits bv.bits
    let e1 := f32sub h tb.bits
    let e2 := f32sub p bv.bits
    let err := f32add e1.bits e2.bits
    let l2 := f32add l err.bits
    (t.bits, l2.bits, l2.fl)

/-- The exact value h + l of a pair. -/
def pairVal (h l : Nat) : Val × Nat := Val.add (f32 h) (f32 l)

/-- The pair normalised: h = fl(h + l), l the rest (R82). -/
def pairOfVal (v : Val) : Nat × Nat × Nat :=
  match v with
  | .fin _ _ _ =>
    let h := FFmt.fp32.ofVal v
    match f32 h.bits with
    | .fin hn hm he =>
      let l := FFmt.fp32.ofVal (Val.add v (Val.negate (.fin hn hm he))).1
      (h.bits, l.bits, l.fl)
    | _ => (h.bits, 0, h.fl)
  | .inf _ => ((FFmt.fp32.ofVal v).bits, 0, 0)
  | .nan s => (f32nan, 0, if s then flINV else 0)

/-! ### Formats (R78) -/

/-- Bits of one stored element of a format code. -/
def fmtBits (f : Nat) : Nat :=
  match f with
  | 0 => 32
  | 1 => 16
  | 2 => 16
  | 3 => 8
  | 4 => 4
  | 5 => 8
  | 6 => 4
  | 7 => 32
  | _ => 64

def fmtScaled (f : Nat) : Bool := f == 5 || f == 6

def fmtFloat (f : Nat) : Bool := f == 0 || f == 1 || f == 2

/-- Layout of a floating format code. -/
def fmtLayout (f : Nat) : FFmt := if f = 1 then .bf16 else if f = 2 then .fp16 else .fp32

/-- Bytes of n elements in the data plane (R80, R81). -/
def fmtBytes (f n : Nat) : Nat := (n * fmtBits f + 7) / 8

/-- Value of one stored element; a scaled element is q × s as multiplication defines it, with its flags (R81). -/
def decodeElem (f code scale : Nat) : Val × Nat :=
  match f with
  | 0 => (FFmt.fp32.decode code, 0)
  | 1 => (FFmt.bf16.decode code, 0)
  | 2 => (FFmt.fp16.decode code, 0)
  | 3 => (Val.ofInt (toSigned 8 code), 0)
  | 4 => (Val.ofInt (toSigned 4 code), 0)
  | 5 => Val.mul (Val.ofInt (toSigned 8 code)) (FFmt.bf16.decode scale)
  | 6 => Val.mul (Val.ofInt (toSigned 4 code)) (FFmt.bf16.decode scale)
  | 7 => (Val.ofInt (toSigned 32 code), 0)
  | _ => pairVal (code % 2 ^ 32) (code / 2 ^ 32)

/-- A converted element: its encoding, flags and whether it counts as a saturation (R94). -/
structure Conv where
  code : Nat
  fl : Nat
  sat : Bool
  deriving DecidableEq, Repr

/-- Largest q that a conversion writes into a scaled format (R94). -/
def scaledQ (f : Nat) : Nat := if f = 6 then 7 else 127

/-- Conversion to an integer range: R94, the integer rows. -/
def convInt (w : Nat) (lo hi : Int) (v : Val) (den : Nat) (ds : Int) : Conv :=
  match v with
  | .nan _ => ⟨0, flINV, false⟩
  | .inf neg => ⟨ofSigned w (if neg then lo else hi), flOF, true⟩
  | .fin neg m e =>
    let (n, ix) := roundInt neg m den (e - ds)
    if n < lo then ⟨ofSigned w lo, flOF, true⟩
    else if hi < n then ⟨ofSigned w hi, flOF, true⟩
    else ⟨ofSigned w n, if ix then flIX else 0, false⟩

/-- Conversion to a floating layout with nearest even, or stochastic rounding with word w (R94, R95). -/
def convFloat (f : FFmt) (v : Val) (w : Option Nat) : Conv :=
  let r := f.ofVal v
  match v, w with
  | .fin neg m e, some word =>
    if m = 0 || r.bits % f.signBit == f.infBits then ⟨r.bits, r.fl, decide (r.bits % f.signBit = f.infBits)⟩
    else
      let q := max (floorLog m 1 e - (f.fracBits : Int)) f.qmin
      let (n, rem, b) := scaleTo m 1 e q
      if rem = 0 then ⟨r.bits, r.fl, false⟩
      else
        let up := decide (word < rem * 2 ^ 32 / b)
        let lowEnc := (q - f.qmin).toNat * 2 ^ f.fracBits + n
        let enc := if up && decide (lowEnc + 1 < f.infBits) then lowEnc + 1 else lowEnc
        let tiny := decide (enc < 2 ^ f.fracBits)
        ⟨(if neg then f.signBit else 0) + enc, flIX + (if tiny then flUF else 0), false⟩
  | .fin _ _ _, none => ⟨r.bits, r.fl, decide (r.bits % f.signBit = f.infBits)⟩
  | _, _ => ⟨r.bits, r.fl, false⟩

/-- Conversion of one exact value to format f (*Conversion outcomes*). `scale` is the block scale of a scaled destination. -/
def convElem (f : Nat) (v : Val) (scale : Nat) (w : Option Nat) : Conv :=
  match f with
  | 0 => convFloat .fp32 v none
  | 1 => convFloat .bf16 v w
  | 2 => convFloat .fp16 v w
  | 3 => convInt 8 (-128) 127 v 1 0
  | 4 => convInt 4 (-8) 7 v 1 0
  | 5 => match FFmt.bf16.decode scale with
    | .fin _ sm se => convInt 8 (-127) 127 v sm se
    | _ => ⟨0, 0, false⟩
  | 6 => match FFmt.bf16.decode scale with
    | .fin _ sm se => convInt 4 (-7) 7 v sm se
    | _ => ⟨0, 0, false⟩
  | 7 => convInt 32 (-(2 ^ 31)) (2 ^ 31 - 1) v 1 0
  | _ =>
    let (h, l, fl) := pairOfVal v
    ⟨h + l * 2 ^ 32, fl, v.isFin && f32isInf h⟩

/-- BF16 scale for a recorded maximum: the smallest positive BF16 at least min(a, M) / Q (R100). -/
def scaleFor (f maxBits : Nat) : Nat :=
  let big := FFmt.bf16.infBits - 1
  let go (m : Nat) (e : Int) : Nat :=
    if m = 0 then 1 else
    let qn := scaledQ f
    let q := max (floorLog m qn e - 7) FFmt.bf16.qmin
    let (n, r, _) := scaleTo m qn e q
    let enc := (q - FFmt.bf16.qmin).toNat * 2 ^ 7 + n + (if r = 0 then 0 else 1)
    if enc = 0 then 1 else enc
  match f32 maxBits with
  | .nan _ => 1
  | .inf neg => if neg then 1 else
    match FFmt.bf16.decode big with
    | .fin _ m e => go m e
    | _ => 1
  | .fin neg m e =>
    if neg then 1
    else match FFmt.bf16.decode big with
      | .fin _ bm be => if Val.lt (.fin false bm be) (.fin false m e) then go bm be else go m e
      | _ => 1

/-- Legal widenings on arrival (R84). -/
def widenLegal (src dst : Nat) : Bool :=
  (src, dst) ∈ [(4, 3), (4, 1), (3, 1), (6, 5), (6, 1), (5, 1)]

/-- One element widened: its new code and flags (*Widening arithmetic*). -/
def widenElem (src dst code scale : Nat) : Nat × Nat :=
  if dst = 1 then
    let (v, f1) := decodeElem src code scale
    let r := FFmt.bf16.ofVal v
    (r.bits, r.fl ||| f1)
  else (ofSigned 8 (toSigned 4 code), 0)

/-! ### Philox (R96, R377) -/

/-- One round of Philox-4×32 with multipliers of the published function. -/
def philoxRound (c : Nat × Nat × Nat × Nat) (k0 k1 : Nat) : Nat × Nat × Nat × Nat :=
  let (c0, c1, c2, c3) := c
  let p0 := 0xD2511F53 * c0
  let p1 := 0xCD9E8D57 * c2
  (Nat.xor (Nat.xor (p1 / 2 ^ 32) c1) k0, p1 % 2 ^ 32, Nat.xor (Nat.xor (p0 / 2 ^ 32) c3) k1, p0 % 2 ^ 32)

/-- n rounds with the Weyl key schedule. -/
def philoxRounds : Nat → Nat × Nat × Nat × Nat → Nat → Nat → Nat × Nat × Nat × Nat
  | 0, c, _, _ => c
  | n + 1, c, k0, k1 =>
    philoxRounds n (philoxRound c k0 k1) ((k0 + 0x9E3779B9) % 2 ^ 32) ((k1 + 0xBB67AE85) % 2 ^ 32)

/-- Philox-4×32-10. -/
def philox (k0 k1 c0 c1 c2 c3 : Nat) : List Nat :=
  let (a, b, c, d) := philoxRounds 10 (c0 % 2 ^ 32, c1 % 2 ^ 32, c2 % 2 ^ 32, c3 % 2 ^ 32) (k0 % 2 ^ 32) (k1 % 2 ^ 32)
  [a, b, c, d]

/-- The word w for element i of a tensor (R96). -/
def roundWord (seed tensor step i : Nat) : Nat :=
  (philox seed (seed / 2 ^ 32) (i / 4) (i / 4 / 2 ^ 32) tensor step).getD (i % 4) 0

/-! ### The fixed tree (R45) -/

/-- One level: pairs combined, the odd last entry passed on. -/
def treeLevel {α : Type} (f : α → α → α) : List α → List α
  | a :: b :: rest => f a b :: treeLevel f rest
  | l => l

/-- Levels until one entry remains; fuel is the number of levels. -/
def treeLevels {α : Type} (f : α → α → α) : Nat → List α → List α
  | 0, l => l
  | n + 1, l => treeLevels f n (treeLevel f l)

/-- The list combined by the tree of R45; d for the empty list. -/
def treeFold {α : Type} (f : α → α → α) (d : α) (l : List α) : α :=
  ((treeLevels f (l.length.log2 + 1) l).headD d)

/-! ### Estimates, exponential and logarithm -/

/-- Fractional bits of the fixed-point series. Every result is irrational unless it is taken exactly, and no operand of the
spec's formats comes within this precision of a rounding boundary (log entry 6). -/
def fxBits : Nat := 320

/-- 2 × Σ t^(2k+1) / (2k+1) for t = num/den ≤ 1/3: ln((1+t)/(1-t)). -/
def atanhLoop : Nat → Nat → Nat → Nat → Nat → Nat → Nat
  | 0, _, _, _, _, acc => acc
  | n + 1, k, pow, num, den, acc =>
    atanhLoop n (k + 1) (pow * num * num / (den * den)) num den (acc + 2 * pow / (2 * k + 1))

/-- ln(num/den) in fixed point, for 1 ≤ num/den < 2. -/
def fxLn1 (num den : Nat) : Nat :=
  atanhLoop 110 0 ((num - den) * 2 ^ fxBits / (num + den)) (num - den) (num + den) 0

def fxLn2 : Nat := fxLn1 2 1

/-- Σ r^n / n! of a fixed-point r in [0, 1). -/
def expLoop : Nat → Nat → Nat → Nat → Nat → Nat
  | 0, _, _, _, acc => acc
  | n + 1, k, term, r, acc => expLoop n (k + 1) (term * r / 2 ^ fxBits / (k + 1)) r (acc + term)

def fxExp (r : Nat) : Nat := expLoop 90 0 (2 ^ fxBits) r 0

/-- The fixed point floor of ± m × 2^e. -/
def fxOf (neg : Bool) (m : Nat) (e : Int) : Int :=
  let (n, r, _) := scaleTo m 1 e (-(fxBits : Int))
  if neg then -(n : Int) - (if r = 0 then 0 else 1) else (n : Int)

/-- A positive E12 member or FP value from num × 2^e by p bits (sticky bit appended by the caller). -/
def e12Round (neg : Bool) (num den : Nat) (e : Int) : Rnd :=
  let sg := if neg then 2 ^ 31 else 0
  if num = 0 then ⟨sg, 0⟩ else
  let big := Val.lt (.fin false (0xFFF * den) 116) (.fin false num e)
  if big then ⟨sg + FFmt.fp32.infBits, flOF + flIX⟩ else
  let (n, q, ix) := roundTo 12 (-149) num den e
  let r := FFmt.fp32.round neg n 1 q
  ⟨r.bits, if ix then flIX + (if tinyAfter 12 (-126) num den e then flUF else 0) else 0⟩

/-- EXP2 of ± m × 2^e (R150). -/
def estExp2 (neg : Bool) (m : Nat) (e : Int) : Rnd :=
  if m = 0 then ⟨f32one, 0⟩
  else if 9 ≤ floorLog m 1 e then (if neg then ⟨0, flUF + flIX⟩ else ⟨FFmt.fp32.infBits, flOF + flIX⟩)
  else
    let x := fxOf neg m e
    let n := x / (2 ^ fxBits : Int)
    let fr := (x % (2 ^ fxBits : Int)).toNat
    let (_, rem, _) := scaleTo m 1 e 0
    if rem = 0 then e12Round false 1 1 n
    else e12Round false (2 * fxExp (fr * fxLn2 / 2 ^ fxBits) + 1) 1 (n - fxBits - 1)

/-- log2 of m × 2^e in fixed point, signed, for m not 0. -/
def fxLog2 (m : Nat) (e : Int) : Int :=
  ((m.log2 : Int) + e) * 2 ^ fxBits + ((fxLn1 m (2 ^ m.log2) * 2 ^ fxBits / fxLn2 : Nat) : Int)

/-- LOG2 of m × 2^e (R150). -/
def estLog2 (m : Nat) (e : Int) : Rnd :=
  if m = 2 ^ m.log2 then
    let v : Int := (m.log2 : Int) + e
    e12Round (decide (v < 0)) v.natAbs 1 0
  else
    let v := fxLog2 m e
    e12Round (decide (v < 0)) (2 * v.natAbs + 1) 1 (-(fxBits : Int) - 1)

/-- 1 / sqrt of m × 2^e (R150). -/
def estRsq (m : Nat) (e : Int) : Rnd :=
  let m1 := if e % 2 = 0 then m else 2 * m
  let e1 := if e % 2 = 0 then e else e - 1
  let k := rootBits + m1.log2
  let s := Nat.sqrt (2 ^ (2 * k) / m1)
  e12Round false (2 * s + (if s * s * m1 = 2 ^ (2 * k) then 0 else 1)) 1 (-(e1 / 2) - k - 1)

/-- The estimate unit: FUNC 0 EXP2, 1 LOG2, 2 RCP, 3 RSQ (R150, *Estimate special cases*). -/
def estimate (func : Nat) (a : Val) : Rnd :=
  match a with
  | .nan s => ⟨f32nan, if s then flINV else 0⟩
  | .inf neg =>
    match func with
    | 0 => if neg then ⟨0, 0⟩ else ⟨FFmt.fp32.infBits, 0⟩
    | 1 => if neg then ⟨f32nan, flINV⟩ else ⟨FFmt.fp32.infBits, 0⟩
    | 2 => ⟨if neg then 2 ^ 31 else 0, 0⟩
    | _ => if neg then ⟨f32nan, flINV⟩ else ⟨0, 0⟩
  | .fin neg m e =>
    match func with
    | 0 => estExp2 neg m e
    | 1 =>
      if m = 0 then ⟨2 ^ 31 + FFmt.fp32.infBits, 0⟩
      else if neg then ⟨f32nan, flINV⟩ else estLog2 m e
    | 2 =>
      if m = 0 then ⟨(if neg then 2 ^ 31 else 0) + FFmt.fp32.infBits, 0⟩
      else e12Round neg 1 m (-e)
    | _ =>
      if m = 0 then ⟨(if neg then 2 ^ 31 else 0) + FFmt.fp32.infBits, 0⟩
      else if neg then ⟨f32nan, flINV⟩ else estRsq m e

/-- Binary64 exp of a finite value, correctly rounded (R378). -/
def exp64 (neg : Bool) (m : Nat) (e : Int) : Nat :=
  if m = 0 then (FFmt.fp64.round false 1 1 0).bits
  else if 12 ≤ floorLog m 1 e then (if neg then 0 else FFmt.fp64.infBits)
  else
    let x := fxOf neg m e
    let n := x / (fxLn2 : Int)
    let r := (x % (fxLn2 : Int)).toNat
    (FFmt.fp64.round false (2 * fxExp r + 1) 1 (n - fxBits - 1)).bits

/-- Binary64 ln of m × 2^e, correctly rounded, with its sign; ln 1 is +0 (R379). -/
def ln64 (m : Nat) (e : Int) : Nat :=
  if m = 2 ^ m.log2 && (m.log2 : Int) + e == 0 then 0
  else
    let v : Int := ((m.log2 : Int) + e) * (fxLn2 : Int) + ((fxLn1 m (2 ^ m.log2) : Nat) : Int)
    (FFmt.fp64.round (decide (v < 0)) (2 * v.natAbs + 1) 1 (-(fxBits : Int) - 1)).bits

end Sys2Proof.Machine
end

