-- ==== Sys2Proof/Machine/Flits.lean ====
section
/-!
DEFINITION. Lanoip flits (R312 to R315): their fields, their link fields, the messages they carry, and what a port does by itself with
those it sends: arbitration, credits, retransmission and IDLE (R313, R316 to R318).
-/

namespace Sys2Proof.Machine

/-! ### Flits (R312, R313) -/

/-- Bytes hi..lo of a flit. -/
def fField (f : BitVec 2048) (hi lo : Nat) : Nat := bitsOf f.toNat (8 * hi + 7) (8 * lo)

def flitDst (f : BitVec 2048) : Nat := fField f 1 0 % 4096
def flitHops (f : BitVec 2048) : Nat := fField f 1 0 / 4096
def flitSrc (f : BitVec 2048) : Nat := fField f 3 2 % 4096
def flitVc (f : BitVec 2048) : Nat := fField f 3 2 / 4096 % 8
def flitTy (f : BitVec 2048) : Nat := fField f 4 4
def flitFlags (f : BitVec 2048) : Nat := fField f 5 5
def flitEpoch (f : BitVec 2048) : Nat := fField f 7 6
def flitLen (f : BitVec 2048) : Nat := fField f 8 8
def flitSeq (f : BitVec 2048) : Nat := fField f 9 9
def flitAck (f : BitVec 2048) : Nat := fField f 10 10
def flitCredit (f : BitVec 2048) : Nat := fField f 11 11
def flitOff (f : BitVec 2048) : Nat := fField f 15 12
def flitPayload (f : BitVec 2048) : List Byte := (leBytes 236 (f.toNat / 2 ^ 128)).take (flitLen f)

/-- The CRC-32 over bytes 251:0 matches bytes 255:252. -/
def flitCrcOk (f : BitVec 2048) : Bool := crc32 (leBytes 252 f.toNat) == fField f 255 252

/-- The virtual channels of a TYPE (*Flit types*). -/
def vcOfType (ty vc : Nat) : Bool :=
  match ty with
  | 0 => vc == 0
  | 1 => decide (vc ≤ 4) || vc == 7
  | 2 | 3 => vc == 4
  | 4 | 5 => vc == 5
  | 6 | 7 => vc == 6
  | 8 => vc == 3
  | _ => false

/-- TYPE, reserved bits, LEN and VC obey R312 and R313; otherwise LINK_PROTOCOL (R315). -/
def flitLegal (f : BitVec 2048) : Bool :=
  decide (flitTy f ≤ 8) && !bitOf (fField f 3 2) 15 && decide (flitFlags f < 8) &&
    (if flitTy f = 0 then flitLen f == 0 else decide (1 ≤ flitLen f) && decide (flitLen f ≤ 236)) && vcOfType (flitTy f) (flitVc f)

/-- A flit with its link fields and CRC written for its next link. -/
def stampFlit (f : BitVec 2048) (hops lseq ack credit : Nat) : BitVec 2048 :=
  let bs := leBytes 2 (flitDst f + 4096 * hops) ++ leBytes 7 (fField f 8 2) ++ leBytes 1 lseq ++ leBytes 1 ack ++ leBytes 1 credit ++
    leBytes 240 (f.toNat / 2 ^ 96)
  BitVec.ofNat 2048 (leNat bs + crc32 bs * 2 ^ 2016)

/-! ### Messages as flits (R314, R315; log entry 129) -/

/-- EPOCH is checked on this traffic (R314). -/
def checkedTraffic (ty vc : Nat) : Bool := (decide (1 ≤ ty) && decide (ty ≤ 3) && [0, 1, 2, 4].contains vc) || ty == 4

/-- EPOCH is checked on this flit. -/
def flitChecked (f : BitVec 2048) : Bool := checkedTraffic (flitTy f) (flitVc f)

/-- Bytes of one field of a message beyond its header: a fence carries a digest in one. -/
def argBytes (ty : Nat) : Nat := if ty = 5 then 32 else 8

/-- A data message of VC 0, 1 or 2 that names one rank besides its sender. -/
def msgBrief (m : Msg) : Bool := m.ty == 1 && decide (m.vc ≤ 2) && m.args.length == 1 && !m.nak

/-- Bytes of a message: the header of *Collective message header*, then its other fields, then its data. A brief message carries the rank it
names, plus 1, in bits 31:12 of RANK. -/
def msgWire (m : Msg) : List Byte :=
  leBytes 1 m.comm ++ leBytes 1 m.op ++ leBytes 2 m.opNo ++ leBytes 4 m.seg ++
    leBytes 4 (m.rank % 4096 + if msgBrief m then 4096 * (1 + m.args.headD 0) else 0) ++ leBytes 4 m.step ++
    (if msgBrief m then [] else leBytes 1 (if m.nak then 1 else 0) ++ leBytes 2 m.args.length ++ m.args.flatMap (leBytes (argBytes m.ty))) ++ m.data

/-- The message of reassembled bytes; none where they hold no whole header. -/
def msgOfWire (src dst vc ty epoch : Nat) (bs : List Byte) : Option Msg :=
  let who := leField bs 11 8
  let brief := decide (4096 ≤ who)
  let n := if brief then 0 else leField bs 18 17
  let w := argBytes ty
  let head := if brief then 16 else 19 + w * n
  if bs.length < head then none
  else
    some { src := src, dst := dst, vc := vc, ty := ty, nak := !brief && leField bs 16 16 == 1, epoch := epoch, comm := leField bs 0 0,
           op := leField bs 1 1, opNo := leField bs 3 2, seg := leField bs 7 4, rank := who % 4096, step := leField bs 15 12,
           args := if brief then [who / 4096 - 1] else (List.range n).map (fun i => leField bs (18 + w * (i + 1)) (19 + w * i)),
           data := bs.drop head }

/-- A flit without its link fields and CRC, payload bytes beyond LEN zero (R312). -/
def formFlit (dst src vc ty flags epoch off : Nat) (payload : List Byte) : BitVec 2048 :=
  BitVec.ofNat 2048 (leNat (leBytes 2 dst ++ leBytes 2 (src + 4096 * vc) ++ leBytes 1 ty ++ leBytes 1 flags ++ leBytes 2 epoch ++
    leBytes 1 payload.length ++ leBytes 3 0 ++ leBytes 4 off ++ payload))

/-- The flits of a message, FIRST to LAST, HOPS 0 (R312, R315, R320). -/
def msgFlits (m : Msg) : List (BitVec 2048) :=
  let bs := msgWire m
  let n := (bs.length + 235) / 236
  (List.range n).map (fun i =>
    formFlit (m.dst % 4096) (m.src % 4096) m.vc m.ty ((if i = 0 then 1 else 0) + if i + 1 = n then 2 else 0) m.epoch (236 * i)
      ((bs.drop (236 * i)).take 236))

/-! ### A port's sender (R313, R316 to R318) -/

/-- A virtual channel has a flit that waits with a credit. -/
def Port.ready (x : Port) (vc : Nat) : Bool := x.queue.any (fun e => flitVc e.1 == vc) && decide (1 ≤ Tab.get 0 x.credit vc)

/-- The virtual channel that R318 grants next. -/
def Port.grant (x : Port) : Option Nat :=
  let high := [5, 6, 4].find? x.ready
  let lows := [0, 1, 2, 3, 7]
  let low := ((lows.filter (fun v => decide (x.lastVc < v))) ++ (lows.filter (fun v => decide (v ≤ x.lastVc)))).find? x.ready
  match high, low with
  | some h, none => some h
  | some h, some l => if x.highRun < 4 then some h else some l
  | none, l => l

/-- Remove the first flit of a virtual channel. -/
def takeVc (vc : Nat) : List (BitVec 2048 × Nat) → List (BitVec 2048 × Nat)
  | [] => []
  | e :: rest => if flitVc e.1 = vc then rest else e :: takeVc vc rest

/-- The virtual channel whose credits the next flit returns, and how many. -/
def Port.owing (x : Port) : Nat × Nat :=
  let vc := ((List.range 8).find? (fun v => decide (1 ≤ Tab.get 0 x.owed v))).getD 0
  (vc, min 31 (Tab.get 0 x.owed vc))

/-- A flit that leaves now: LSEQ, ACK, the NAK flag and the credits it returns are written (R312, R316, R317). -/
def Port.stamp (x : Port) (f : BitVec 2048) (lseq : Nat) : BitVec 2048 :=
  let f := (f &&& ~~~BitVec.ofNat 2048 (2 ^ 42)) ||| (if x.nakDue then BitVec.ofNat 2048 (2 ^ 42) else 0#2048)
  stampFlit f (flitHops f) lseq ((x.rxSeq + 255) % 256) (x.owing.1 + 8 * x.owing.2)

/-- What that flit has told the partner is owed no longer. -/
def Port.told (x : Port) : Port :=
  { x with nakDue := false, ackDue := false, owed := Tab.set 0 x.owed x.owing.1 (Tab.get 0 x.owed x.owing.1 - x.owing.2) }

/-- Spend a credit. -/
def Port.spend (x : Port) (vc : Nat) : Port := { x with credit := Tab.set 0 x.credit vc (Tab.get 0 x.credit vc - 1) }

/-- The first flit that has still to be sent again, with its place in the replay buffer. -/
def Port.again (x : Port) : Option (Nat × BitVec 2048) :=
  if x.resend = 0 then none else (x.replay[x.replay.length - x.resend]?).map (fun e => (x.replay.length - x.resend, e.1))

/-- Send a flit of the replay buffer again: its LSEQ stands. -/
def Port.sendAgain (x : Port) (i : Nat) (f : BitVec 2048) : Port :=
  let y := (if x.fresh then x.spend (flitVc f) else x).told
  { y with resend := x.resend - 1, fresh := x.fresh && decide (1 < x.resend),
           replay := x.replay.zipIdx.map (fun e => if e.2 = i then (e.1.1, e.1.2.1 + 1, e.1.2.2) else e.1) }

/-- Send the next flit of a virtual channel: it takes its LSEQ and stays in the replay buffer. -/
def Port.sendOne (x : Port) (vc : Nat) (e : BitVec 2048 × Nat) (g : BitVec 2048) : Port :=
  let isHigh := [5, 6, 4].contains vc
  { (x.spend vc).told with
    queue := takeVc vc x.queue, replay := x.replay ++ [(g, 1, e.2)], txSeq := (x.txSeq + 1) % 256,
    lastVc := if isHigh then x.lastVc else vc, highRun := if isHigh then x.highRun + 1 else 0 }

/-- What leaves next: the port after it, the flit, and whether it is sent again; an IDLE flit only where it tells the partner something
(log entry 130). Fewer than 128 flits stay unacknowledged. -/
def Port.next (x : Port) : Option (Port × BitVec 2048 × Bool) :=
  let idle : Option (Port × BitVec 2048 × Bool) :=
    if x.nakDue || x.ackDue || x.owing.2 != 0 then some (x.told, x.stamp 0 x.txSeq, false) else none
  match x.again with
  | some (i, f) => if x.fresh && Tab.get 0 x.credit (flitVc f) == 0 then idle else some (x.sendAgain i f, x.stamp f (flitSeq f), true)
  | none =>
    if 128 ≤ x.replay.length then idle
    else
      match x.grant.bind (fun vc => (x.queue.find? (fun e => flitVc e.1 == vc)).map (fun e => (vc, e))) with
      | some (vc, e) => some (x.sendOne vc e (x.stamp e.1 x.txSeq), x.stamp e.1 x.txSeq, false)
      | none => idle

/-- Flits after the acknowledged one. -/
def afterAck (ack : Nat) (r : List (BitVec 2048 × Nat × Nat)) : List (BitVec 2048 × Nat × Nat) :=
  if r.any (fun e => flitSeq e.1 == ack) then (r.dropWhile (fun e => flitSeq e.1 != ack)).drop 1 else r

end Sys2Proof.Machine
end

