-- ==== Sys2Proof/Machine/Ops.lean ====
section
/-!
DEFINITION. The named operations over registers and memories: register fields, the components of the state, the device
address map with its checks (R44, R50, R51, R215), and reads and writes of device, host and accumulator memory with the
failing codewords of R525.
-/

namespace Sys2Proof.Machine

/-! ### Lists in order -/

/-- Put a into a list that is in the order `before`, ahead of what it need not follow. -/
def insertBy {α : Type} (before : α → α → Bool) (a : α) : List α → List α
  | [] => [a]
  | b :: rest => if before a b then a :: b :: rest else b :: insertBy before a rest

/-- A list in the order `before`; entries that it does not tell apart stay as they stood. -/
def orderedBy {α : Type} (before : α → α → Bool) (xs : List α) : List α := xs.foldr (insertBy before) []

/-! ### Register fields (R8) -/

/-- The value of instance i of a field. -/
def State.fget (s : State) (f : Fld) (i : Nat) : Nat :=
  (Tab.get none s.regs (Fld.key f i)).getD (Fld.reset f i)

/-- Store a value, cut to the field's width. -/
def State.fset (s : State) (f : Fld) (i v : Nat) : State :=
  { s with
    regs := Tab.set none s.regs (Fld.key f i) (if v % 2 ^ f.width = Fld.reset f i then none else some (v % 2 ^ f.width)) }

/-- Add to a counter field, which wraps at its width. -/
def State.finc (s : State) (f : Fld) (i n : Nat) : State := s.fset f i (s.fget f i + n)

/-- Add to a counter field that stops at its largest value. -/
def State.fsat (s : State) (f : Fld) (i n : Nat) : State := s.fset f i (min (s.fget f i + n) (2 ^ f.width - 1))

/-- Set bits of a sticky field. -/
def State.fset1s (s : State) (f : Fld) (i mask : Nat) : State := s.fset f i (Nat.lor (s.fget f i) mask)

/-! ### Components -/

def State.tile (s : State) (t : Nat) : Tile := (Tab.get none s.tiles t).getD Tile.reset
def State.setTile (s : State) (t : Nat) (x : Tile) : State :=
  { s with tiles := Tab.set none s.tiles t (if x = Tile.reset then none else some x) }
def State.modTile (s : State) (t : Nat) (f : Tile → Tile) : State := s.setTile t (f (s.tile t))

def State.kettle (s : State) (k : Nat) : Kettle := (Tab.get none s.kettles k).getD Kettle.reset
def State.setKettle (s : State) (k : Nat) (x : Kettle) : State :=
  { s with kettles := Tab.set none s.kettles k (if x = Kettle.reset then none else some x) }
def State.modKettle (s : State) (k : Nat) (f : Kettle → Kettle) : State := s.setKettle k (f (s.kettle k))

def State.part (s : State) (p : Nat) : Part := (Tab.get none s.parts p).getD Part.reset
def State.setPart (s : State) (p : Nat) (x : Part) : State :=
  { s with parts := Tab.set none s.parts p (if x = Part.reset then none else some x) }
def State.modPart (s : State) (p : Nat) (f : Part → Part) : State := s.setPart p (f (s.part p))

def State.bay (s : State) (b : Nat) : Bay := (Tab.get none s.bays b).getD Bay.reset
def State.setBay (s : State) (b : Nat) (x : Bay) : State :=
  { s with bays := Tab.set none s.bays b (if x = Bay.reset then none else some x) }
def State.modBay (s : State) (b : Nat) (f : Bay → Bay) : State := s.setBay b (f (s.bay b))

/-- Index of ring pair `ring` of function `fn`: 8 pairs a function (the PF has 8, a VF the first 4). -/
def ringIdx (fn ring : Nat) : Nat := fn * 8 + ring

def State.ring (s : State) (r : Nat) : Ring := (Tab.get none s.rings r).getD Ring.reset
def State.setRing (s : State) (r : Nat) (x : Ring) : State :=
  { s with rings := Tab.set none s.rings r (if x = Ring.reset then none else some x) }
def State.modRing (s : State) (r : Nat) (f : Ring → Ring) : State := s.setRing r (f (s.ring r))

def State.port (s : State) (q : Nat) : Port := (Tab.get none s.ports q).getD Port.reset
def State.setPort (s : State) (q : Nat) (x : Port) : State :=
  { s with ports := Tab.set none s.ports q (if x = Port.reset then none else some x) }
def State.modPort (s : State) (q : Nat) (f : Port → Port) : State := s.setPort q (f (s.port q))

/-- Scalar register of a tile; S0 reads as 0 (R165). -/
def Tile.sreg (t : Tile) (r : Nat) : Nat := if r = 0 then 0 else (Tab.get 0#64 t.sregs r).toNat

/-- Write a scalar register; a write to S0 is ignored (R165). -/
def Tile.setSreg (t : Tile) (r v : Nat) : Tile :=
  if r = 0 then t else { t with sregs := Tab.set 0#64 t.sregs r (BitVec.ofNat 64 v) }

/-- Element i of V[v]. -/
def Tile.velem (t : Tile) (v i : Nat) : Nat := (Tab.get 0#32 t.vregs (1024 * v + i)).toNat

def Tile.setVelem (t : Tile) (v i x : Nat) : Tile :=
  { t with vregs := Tab.set 0#32 t.vregs (1024 * v + i) (BitVec.ofNat 32 x) }

def Tile.maskBit (t : Tile) (m i : Nat) : Bool := Tab.get false t.masks (1024 * m + i)

def Tile.setMaskBit (t : Tile) (m i : Nat) (x : Bool) : Tile :=
  { t with masks := Tab.set false t.masks (1024 * m + i) x }

/-- The next free value of the model, and the state with the counter advanced (log entry 4). -/
def State.free1 (s : State) : Nat × State := (Config.freeNat s.free, { s with free := s.free + 1 })

/-! ### Partitions, bays and tiles (R34 to R37, R56) -/

/-- The partition that holds bay b. -/
def State.partOfBay (s : State) (b : Nat) : Option Nat :=
  (List.range 12).find? (fun p => (s.part p).defined && bitOf (s.part p).cfg.bays b)

/-- Bays of partition p, ascending. -/
def State.baysOf (s : State) (p : Nat) : List Nat :=
  if (s.part p).defined then bitList 12 (s.part p).cfg.bays else []

/-- Partition p holds bay b. -/
def State.holds (s : State) (p b : Nat) : Bool := (s.part p).defined && decide (b < 12) && bitOf (s.part p).cfg.bays b

/-- Logical tile t is mapped (TILE_MAP does not read 0xF). -/
def State.mapped (s : State) (t : Nat) : Bool := decide (t < 96) && s.fget .baySlot t != 15

/-- Mapped logical tiles of partition p, ascending. -/
def State.tilesOf (s : State) (p : Nat) : List Nat :=
  (List.range 96).filter (fun t => s.holds p (t / 8) && s.mapped t)

/-- The role the applied image gives tile t. -/
def State.role (s : State) (p t : Nat) : Nat := Tab.get 0 (s.part p).cfg.roles t

/-- The partition of tile t. -/
def State.partOfTile (s : State) (t : Nat) : Option Nat := s.partOfBay (t / 8)

/-- Applied pool n of tile t in bytes: base and size; pools lie contiguously from offset 0 (R59). -/
def Cfg.pool (c : Cfg) (t n : Nat) : Nat × Nat :=
  (((List.range n).foldl (fun a i => a + Tab.get 0 c.pools (6 * t + i)) 0) * 65536, Tab.get 0 c.pools (6 * t + n) * 65536)

/-- Bytes [o, o + len) of tile t's scratchpad lie in pool n (R199). -/
def Cfg.inPool (c : Cfg) (t n o len : Nat) : Bool :=
  decide ((c.pool t n).1 ≤ o) && decide (o + len ≤ (c.pool t n).1 + (c.pool t n).2)

/-- Communicator `id` of a configuration. -/
def Cfg.comm (c : Cfg) (id : Nat) : Option Comm := c.comms.find? (fun k => k.id == id)

/-- Tensor `id` of a configuration, at the defaults of R56 where the image does not name it. -/
def Cfg.tensor (c : Cfg) (id : Nat) : Tensor :=
  (c.tensors.find? (fun k => k.id == id)).getD
    { id := id, store := 1, arrive := 1, scaling := 0, rounding := 0, thin := 0, rowLen := 0 }

/-- The sequencer fields of bay b, at the defaults of R56 where the image does not give them. -/
def Cfg.seq (c : Cfg) (b : Nat) : SeqCfg :=
  ((c.seqs.find? (fun k => k.1 == b)).map Prod.snd).getD
    { maxSeq := 8192, budget := 8192, chunk := 2048, depthMax := 8, topK := 1024, maxCtx := 1048576, swapMode := 0 }

/-- Regions of a use, ascending by index. -/
def Cfg.regionsOf (c : Cfg) (kind use : Nat) : List Region :=
  c.regions.filter (fun r => r.kind == kind && r.use == use)

/-- A step area that R374 allows: aligned, large enough, and in a GENERAL region of the bay's own stack. -/
def Cfg.areaOk (c : Cfg) (b a size : Nat) : Bool :=
  a % 2 ^ 21 == 0 && decide (256 ≤ size) &&
    (c.regionsOf 0 10).any (fun r => r.base / 2 ^ 37 == b && decide (r.base ≤ a) && decide (a + size * 2 ^ 20 ≤ r.base + r.size))

/-! ### Device addresses (*Device address map*) -/

inductive Space where
  | hbm (st off : Nat)
  | lp (b off : Nat)
  | flash (x : Nat)
  | scratch (t off : Nat)
  | reg (off : Nat)
  | hole
  deriving DecidableEq, Repr

def hbmBase (st : Nat) : Nat := st * 2 ^ 37
def lpBase (b : Nat) : Nat := 0x1000_0000_0000 + b * 0x30_0000_0000
def flashBase : Nat := 0x1_0000_0000_0000
def scratchBase (t : Nat) : Nat := 0x2_0000_0000_0000 + t * 2 ^ 26
/-- Populated bytes of a tile's scratchpad (R186). -/
def scratchBytes : Nat := 0x300_0000

/-- Decode of a device address. -/
def spaceOf (a : Nat) : Space :=
  if a < 12 * 2 ^ 37 then .hbm (a / 2 ^ 37) (a % 2 ^ 37)
  else if lpBase 0 ≤ a ∧ a < lpBase 12 then .lp ((a - lpBase 0) / 0x30_0000_0000) ((a - lpBase 0) % 0x30_0000_0000)
  else if flashBase ≤ a ∧ a < flashBase + 2 ^ 45 then .flash (a - flashBase)
  else if scratchBase 0 ≤ a ∧ a < scratchBase 96 then
    .scratch ((a - scratchBase 0) / 2 ^ 26) ((a - scratchBase 0) % 2 ^ 26)
  else if 0x3_0000_0000_0000 ≤ a ∧ a < 0x3_0000_1C00_0000 then .reg (a - 0x3_0000_0000_0000)
  else .hole

/-- First byte and length in bytes of partition p's flash namespace, in user space (R215, R239). -/
def State.nsRange (s : State) (p : Nat) : Nat × Nat :=
  (s.fget .flashNsBase p * 2 ^ 30, s.fget .flashNsSize p * 2 ^ 30)

/-- Every bay of lo..hi is partition p's. -/
def State.holdsAll (s : State) (p lo hi : Nat) : Bool :=
  (List.range (hi + 1 - lo)).all (fun i => s.holds p (lo + i))

/-- The fault source of an access by partition p to [a, a + len), or none where it is allowed (R44, R50, R51, R215). An unmapped tile or an
unpopulated stride in another partition's bay is ADDR_UNMAPPED (log entry 90, DESIGN CHOICE). -/
def State.accessFault (s : State) (p a len : Nat) (write : Bool) : Option Nat :=
  if len = 0 then none else
  match spaceOf a, spaceOf (a + len - 1) with
  | .hbm x _, .hbm y _ => if s.holdsAll p x y then none else some Source.partitionViolation
  | .lp x _, .lp y _ => if s.holdsAll p x y then none else some Source.partitionViolation
  | .flash x, .flash y =>
    if write then some Source.addrUnmapped
    else if (s.nsRange p).1 ≤ x ∧ y < (s.nsRange p).1 + (s.nsRange p).2 then none else some Source.partitionViolation
  | .scratch x _, .scratch y o =>
    if x ≠ y ∨ scratchBytes ≤ o ∨ s.mapped x = false then some Source.addrUnmapped
    else if s.holds p (x / 8) then none else some Source.partitionViolation
  | .reg x, .reg y =>
    if 0x1000_0000 + p * 0x100_0000 ≤ x ∧ y < 0x1000_0000 + (p + 1) * 0x100_0000 then none
    else some Source.partitionViolation
  | _, _ => some Source.addrUnmapped

/-! ### Device memory and its failing codewords (R525) -/

/-- Bytes of an ECC codeword at address a: 16 in scratchpad, 32 in HBM, 1 (none) elsewhere. -/
def codeword (a : Nat) : Nat :=
  match spaceOf a with
  | .scratch _ _ => 16
  | .hbm _ _ => 32
  | _ => 1

/-- Some codeword that [a, a + len) touches fails every read. -/
def State.badRange (s : State) (a len : Nat) : Bool :=
  s.bad.any (fun e => e.2 && decide (e.1 < a + len) && decide (a < e.1 + codeword e.1)) ||
    s.lpBad.any (fun e => e.2 && decide (a ≤ e.1) && decide (e.1 < a + len))

/-- Some failing codeword is covered by [a, a + len) only in part, so that a write there fails. -/
def State.badEdge (s : State) (a len : Nat) : Bool :=
  s.bad.any (fun e => e.2 && decide (e.1 < a + len) && decide (a < e.1 + codeword e.1) &&
    !(decide (a ≤ e.1) && decide (e.1 + codeword e.1 ≤ a + len)))

/-- The first failing codeword that [a, a + len) touches. -/
def State.failingAt (s : State) (a len : Nat) : Nat :=
  ((s.bad.find? (fun e => e.2 && decide (e.1 < a + len) && decide (a < e.1 + codeword e.1))).map Prod.fst).getD a

/-- Read device memory. -/
def State.devRead (s : State) (a len : Nat) : List Byte := Mem.read s.dev a len

/-- Write device memory: codewords covered whole become valid; a write that covers part of a failing codeword writes nothing. -/
def State.devWrite (s : State) (a : Nat) (bs : List Byte) : State :=
  if s.badEdge a bs.length then s
  else { s with dev := Mem.write s.dev a bs, bad := Tab.clear s.bad a (a + bs.length),
                lpBad := Tab.clear s.lpBad a (a + bs.length),
                err := { s.err with weak := Tab.clear s.err.weak a (a + bs.length) } }

/-- Zero device memory with valid check bits. -/
def State.devZero (s : State) (a len : Nat) : State :=
  { s with dev := Mem.zero s.dev a len, bad := Tab.clear s.bad a (a + len), lpBad := Tab.clear s.lpBad a (a + len),
           err := { s.err with weak := Tab.clear s.err.weak a (a + len) } }

/-- The fault source of a failing read at a (R200, R211, R213). -/
def badSource (a : Nat) : Nat :=
  match spaceOf a with
  | .scratch _ _ => Source.scratchUncorrectable
  | .lp _ _ => Source.lpddrDataError
  | _ => Source.hbmUncorrectable

/-- The instance that owns an address: kind and number (R481). -/
def instOf (a : Nat) : Nat × Nat :=
  match spaceOf a with
  | .hbm st _ => (Kind.stack, st)
  | .lp b _ => (Kind.bay, b)
  | .scratch t _ => (Kind.tile, t)
  | _ => (Kind.chip, 0)

/-- Byte address of word offset w of tile t. -/
def wordAddr (t w : Nat) : Nat := scratchBase t + 64 * w

/-- Read n bytes of tile t's scratchpad at byte offset o. -/
def State.spRead (s : State) (t o n : Nat) : List Byte := s.devRead (scratchBase t + o) n

/-- Write bytes of tile t's scratchpad at byte offset o. -/
def State.spWrite (s : State) (t o : Nat) (bs : List Byte) : State := s.devWrite (scratchBase t + o) bs

/-- A little-endian number in tile t's scratchpad. -/
def State.spNat (s : State) (t o n : Nat) : Nat := leNat (s.spRead t o n)

/-! ### Host memory -/

def State.hostRead (s : State) (a len : Nat) : List Byte := Mem.read s.host a len
def State.hostWrite (s : State) (a : Nat) (bs : List Byte) : State := { s with host := Mem.write s.host a bs }

/-! ### Elements of a stored tensor (R80, R81) -/

/-- Element i of a data plane of format f at byte address a. -/
def State.elem (s : State) (f a i : Nat) : Nat :=
  if fmtBits f = 4 then
    let b := (Mem.byte s.dev (a + i / 2)).toNat
    if i % 2 = 0 then b % 16 else b / 16
  else Mem.readNat s.dev (a + i * (fmtBits f / 8)) (fmtBits f / 8)

/-- Pack element encodings of format f into bytes; a last odd nibble leaves the upper half as `rest` has it. -/
def packElems (f : Nat) (rest : Nat) : List Nat → List Byte
  | [] => []
  | [x] => if fmtBits f = 4 then [BitVec.ofNat 8 (x % 16 + rest / 16 * 16)] else leBytes (fmtBits f / 8) x
  | x :: y :: more =>
    if fmtBits f = 4 then BitVec.ofNat 8 (x % 16 + y % 16 * 16) :: packElems f rest more
    else leBytes (fmtBits f / 8) x ++ packElems f rest (y :: more)

/-- Element encodings of a byte string. -/
def unpackElems (f : Nat) (bs : List Byte) (n : Nat) : List Nat :=
  (List.range n).map (fun i =>
    if fmtBits f = 4 then
      let b := (bs.getD (i / 2) 0).toNat
      if i % 2 = 0 then b % 16 else b / 16
    else leNat ((bs.drop (i * (fmtBits f / 8))).take (fmtBits f / 8)))

/-! ### Messages -/

/-- A message of nothing: the base from which the senders build theirs. -/
def Msg.empty : Msg :=
  { src := 0, dst := 0, vc := 0, ty := 0, nak := false, epoch := 0, comm := 0, op := 0, opNo := 0, seg := 0, rank := 0,
    step := 0, args := [], data := [] }

/-- The output port that serves a route entry naming port q: q itself, or its FAILOVER_PORT while it is down (R320, R324). -/
def State.outPort (s : State) (p q : Nat) : Option Nat :=
  let on (q : Nat) : Bool := decide (q < 24) && s.holds p (q / 2) && Tab.get 0 (s.part p).cfg.ports q == 1
  if !on q then none
  else if s.fget .linkState q != 3 then some q
  else
    let f := s.fget .linkFailoverPort q
    if s.fget .linkFailoverEn q == 1 && on f && s.fget .linkState f != 3 then some f else none

/-- The route of a flit of partition p to device d: its output port, or none where it is dropped (R320). -/
def State.route (s : State) (p d : Nat) : Option Nat := s.outPort p (Tab.get 0xFF (s.part p).cfg.routes d)

/-- The device is in its safe state (R493). -/
def State.safe (s : State) : Bool := s.fget .fcSafe 0 == 1

/-- The Lanoip ports are in standby (R507, R510). -/
def State.standby (s : State) : Bool := s.fget .pwrState 0 == 4

/-- Send what a port has to send while it is UP and not re-striping; the safe state holds every transmitter idle, and a port in standby
grants no credit (R309, R316 to R318, R493, R510). -/
def State.pump : Nat → State → Nat → State
  | 0, s, _ => s
  | n + 1, s, q =>
    if s.safe ∨ s.standby ∨ s.fget .linkState q ≠ 2 ∨ (s.port q).restriping then s
    else
      match (s.port q).next with
      | none => s
      | some (x, g, again) =>
        let s := s.setPort q x
        let s := if flitTy g = 0 then s else s.finc .linkTxFlits q 1
        let s := if again then s.finc .linkReplays q 1 else s
        State.pump n { s with wire := (q, g) :: s.wire } q

/-- Put flits at the end of a port's queue, and send (R318). -/
def State.queueOn (s : State) (q : Nat) (fs : List (BitVec 2048 × Nat)) : State :=
  State.pump 512 (s.modPort q (fun x => { x with queue := x.queue ++ fs })) q

/-- Flits of bay b's own engines are dropped at routing: counted, and ROUTE_DROP is due (R320). -/
def State.localDrop (s : State) (b n dst : Nat) : State :=
  { (s.finc .linkbLocalDrops b n) with due := s.due ++ [{ source := Source.routeDrop, kind := Kind.bay, inst := b, info := dst }] }

/-- An engine of bay b of partition p sends a message: it carries the partition's DEVICE_ID, and its layout epoch where that is checked
(R12, R314). Its flits are delivered locally, queued on the output port of its route, or dropped (R320). A replay run sends nothing
(R501). -/
def State.sendFrom (s : State) (p b : Nat) (m : Msg) : State :=
  if (s.part p).replayRun.any Replay.live then s
  else
    let epoch := if checkedTraffic m.ty m.vc then s.fget .turnLayoutEpoch p else 0
    let m := { m with src := (s.part p).cfg.deviceId, epoch := epoch }
    if m.dst = (s.part p).cfg.deviceId then { s with tx := m :: s.tx, inbox := s.inbox ++ [(p, m)] }
    else
      match s.route p m.dst with
      | some o => State.queueOn { s with tx := m :: s.tx } o ((msgFlits m).map (fun f => (f, 24 + b)))
      | none => s.localDrop b (msgFlits m).length m.dst

/-- The system controller or an engine of no one bay sends a message, from the partition's lowest bay (log entry 131); RANK is the sender's (R332). -/
def State.send (s : State) (p : Nat) (m : Msg) : State :=
  s.sendFrom p ((s.baysOf p).headD 0) { m with rank := (((s.part p).cfg.comm m.comm).map Comm.myRank).getD 0 }

end Sys2Proof.Machine
end

