-- ==== Sys2Proof/Machine/Rings.lean ====
section
/-!
DEFINITION. Rings, completions, MSI-X, replay capture and the checks every fetched command passes (spec/16_host_interface.md,
and R498 to R500, R528 of spec/18_faults_replay_spares.md and spec/16_host_interface.md).
-/

namespace Sys2Proof.Machine

/-- Bytes hi..lo of a descriptor, as a number. -/
def dField (d : BitVec 512) (hi lo : Nat) : Nat := bitsOf d.toNat (8 * hi + 7) (8 * lo)

/-- Byte hi..lo of a descriptor are all zero. -/
def dZero (d : BitVec 512) (hi lo : Nat) : Bool := dField d hi lo == 0

/-! ### Interrupts (R437) -/

/-- Ring pairs of a function (R430). -/
def ringCount (fn : Nat) : Nat := if fn = 0 then 8 else 4

/-- MSI-X entries of a function (R437). -/
def vectorCount (fn : Nat) : Nat := if fn = 0 then 512 else 128

def vecKey (fn v : Nat) : Nat := fn * 4096 + v

/-- Raise a vector: a masked vector's pending bit stays set and no message is sent (R437). -/
def State.interrupt (s : State) (fn v : Nat) : State :=
  if Tab.get false s.msixOn (vecKey fn v) then { s with irqs := (fn, v) :: s.irqs }
  else { s with msixPend := Tab.set false s.msixPend (vecKey fn v) true }

/-- A power event: its PWR_EVENT bit, and PF vector 510 where the bit was 0 (R523). -/
def State.powerEvent (s : State) (f : Fld) : State := if s.fget f 0 = 1 then s else (s.fset f 0 1).interrupt 0 510

/-- STATE of PWR_STATUS changes, with its event (R523). -/
def State.powerTo (s : State) (st : Nat) : State :=
  if s.fget .pwrState 0 = st then s else (s.fset .pwrState 0 st).powerEvent .pwrStateChange

/-- An event of R509 ends an idle state. -/
def State.wake (s : State) : State :=
  let st := s.fget .pwrState 0
  if 1 ≤ st ∧ st ≤ 4 then s.powerTo 0 else s

/-- The function answers on the link: the PF, or a VF that is up (R427). -/
def State.fnUp (s : State) (fn : Nat) : Bool := fn == 0 || (decide (fn ≤ 12) && bitOf s.vfUp fn)

/-! ### Confidential mode (R443 to R446) -/

/-- Partition p is in confidential mode. -/
def State.confidential (s : State) (p : Nat) : Bool := (s.part p).session.stage == 2

/-- The function's traffic is sealed: a VF whose partition is in confidential mode. -/
def State.sealed (s : State) (fn : Nat) : Bool := fn != 0 && s.confidential (fn - 1)

/-- Data keys of partition p's session: 0 host to device, 1 device to host. -/
def State.dataKey (s : State) (p dir : Nat) : Nat := 2 * (s.part p).session.keyId + dir

/-- *IV construction*. -/
def gcmIv (unit idx ctr seg : Nat) : List Byte := leBytes 1 unit ++ leBytes 1 idx ++ leBytes 6 ctr ++ leBytes 4 seg

/-- Largest ring counter (R445). -/
def ctrMax : Nat := 2 ^ 48 - 1

/-! ### Replay capture (R498 to R500) -/

/-- Where partition p's capture writes: device memory (LOCAL, RECEIVE) or host memory, its base and its size. -/
def State.replayRing (s : State) (p : Nat) : Option (Bool × Nat × Nat) :=
  if s.fget .rplTarget p = 1 then some (true, s.fget .rplBase p, s.fget .rplSize p)
  else ((s.part p).cfg.regionsOf 1 8).head?.map (fun r => (false, r.base, r.size))

/-- One replay record: header, payload and padding (R499). -/
def replayBytes (type flags rseq : Nat) (payload : List Byte) : List Byte :=
  let n := roundUp (16 + payload.length) 64 - 16 - payload.length
  leBytes 1 type ++ leBytes 1 flags ++ leBytes 2 0 ++ leBytes 4 payload.length ++ leBytes 8 rseq ++ payload ++
    List.replicate n 0

/-- Write a record at HEAD, after a PAD record where it does not fit before the end of the ring; none where there is no room. -/
def State.replayPut (s : State) (p type flags : Nat) (payload : List Byte) : Option State :=
  match s.replayRing p with
  | none => none
  | some (inHost, base, size) =>
    let units := size / 64
    let need := roundUp (16 + payload.length) 64 / 64
    let head := s.fget .rplHead p
    let tail := s.fget .rplTail p
    let used := (head + units - tail) % units
    let pad := if head + need ≤ units then 0 else units - head
    if units = 0 ∨ units ≤ used + pad + need then none
    else
      let rseq := (s.part p).rseq + 1
      let put (s : State) (a : Nat) (bs : List Byte) : State := if inHost then s.hostWrite a bs else s.devWrite a bs
      let s := if pad = 0 then s else put s (base + 64 * head) (replayBytes 0 0 rseq [])
      let at_ := if pad = 0 then head else 0
      let rseq := if pad = 0 then rseq else rseq + 1
      let s := put s (base + 64 * at_) (replayBytes type flags rseq payload)
      let s := s.modPart p (fun x => { x with rseq := rseq })
      some ((s.finc .rplRecords p 1).fset .rplHead p ((at_ + need) % units))

/-- The partition's lowest-numbered bay, which owns what the partition itself detects. -/
def State.lowBay (s : State) (p : Nat) : Nat := (s.baysOf p).headD 0

/-- Add one record to the capture of partition p, under STALL and the GAP rule (R500). -/
def State.capture (s : State) (p type flags : Nat) (payload : List Byte) : State :=
  if s.fget .rplState p ≠ 2 then s
  else if s.fget .rplTarget p = 2 then
    let rseq := (s.part p).rseq + 1
    let m : Msg :=
      { Msg.empty with dst := s.fget .rplDestDevice p, vc := 7, ty := 1, data := replayBytes type flags rseq payload }
    ((s.modPart p (fun x => { x with rseq := rseq })).finc .rplRecords p 1).send p m
  else
    let gap := (s.part p).replayGap
    let s1 := if gap = 0 then some s else
      (s.replayPut p 10 0 (leBytes 8 gap)).map (fun s => s.modPart p (fun x => { x with replayGap := 0 }))
    match s1.bind (fun s => s.replayPut p type flags payload) with
    | some s' => if (s.part p).replayHeld = [] then s' else
      s.modPart p (fun x => { x with replayHeld := x.replayHeld ++ [(type, flags, payload)] })
    | none =>
      if s.fget .rplStall p = 1 then
        s.modPart p (fun x => { x with replayHeld := x.replayHeld ++ [(type, flags, payload)] })
      else
        let s := s.modPart p (fun x => { x with replayGap := x.replayGap + 1 })
        { (s.finc .rplLost p 1) with
          due := s.due ++ [{ source := Source.replayOverrun, kind := Kind.bay, inst := s.lowBay p, info := 0 }] }

/-- Capture ends with an END record (R498, R499). -/
def State.endCapture (s : State) (p : Nat) : State :=
  (s.capture p 12 0 (leBytes 8 (s.fget .rplRecords p))).fset .rplState p 3

/-- POLICY_VERSION of a partition, with its VERSION record (R14, R498): old and new values, and the learn step or step boundary
number at the change. Versions only grow: a smaller one is not taken. -/
def State.setVersion (s : State) (p v : Nat) : State :=
  let old := s.fget .turnPolicyVersion p
  if v ≤ old then s
  else
    let n := match (s.part p).step with
      | some st => st.stepNo
      | none => s.fget .seqStep (s.lowBay p)
    let e := s.fget .turnLayoutEpoch p
    let top (r : Replay) : Replay := { r with version := max r.version v }
    ((s.capture p 7 0 (leBytes 4 old ++ leBytes 4 v ++ leBytes 2 e ++ leBytes 2 e ++ leBytes 4 0 ++ leBytes 8 n)).fset .turnPolicyVersion p
      v).modPart p (fun x => { x with replayRun := x.replayRun.map top })

/-- LAYOUT_EPOCH of a partition, with its VERSION record. -/
def State.setEpoch (s : State) (p e : Nat) : State :=
  let old := s.fget .turnLayoutEpoch p
  if old = e then s
  else
    let v := s.fget .turnPolicyVersion p
    let n := s.fget .seqStep (s.lowBay p)
    (s.capture p 7 0 (leBytes 4 v ++ leBytes 4 v ++ leBytes 2 old ++ leBytes 2 e ++ leBytes 4 0 ++ leBytes 8 n)).fset .turnLayoutEpoch p e

/-- Records held under STALL are written as room appears (R500). -/
def State.replayFlush (s : State) (p : Nat) : Nat → State
  | 0 => s
  | n + 1 =>
    match (s.part p).replayHeld with
    | [] => s
    | (type, flags, payload) :: rest =>
      match s.replayPut p type flags payload with
      | none => s
      | some s' => State.replayFlush (s'.modPart p (fun x => { x with replayHeld := rest })) p n

/-! ### Posting records (R435 to R437) -/

/-- Entries of a completion ring. -/
def State.cqSize (s : State) (r : Nat) : Nat := 2 ^ s.fget .cqLog2Size r

/-- Another record can be written to completion ring r of the function. -/
def State.cqRoom (s : State) (r : Nat) : Bool :=
  s.fget .cqEnable r == 1 && (s.fget .cqTail r + 1) % s.cqSize r != s.fget .cqHead r

/-- Count a posted record as pending and raise the vector at COAL_COUNT (R437). -/
def State.countPending (s : State) (fn ring : Nat) : State :=
  let r := ringIdx fn ring
  let n := (s.ring r).pending + 1
  if max 1 (s.fget .cqCoalCount r) ≤ n then
    (s.modRing r (fun x => { x with pending := 0 })).interrupt fn (s.fget .cqVector r)
  else s.modRing r (fun x => { x with pending := n })

/-- Write one record at CQ_TAIL: `body` is bytes 27:0 with the PHASE bit clear (R435, R444). -/
def State.writeRecord (s : State) (fn ring : Nat) (noIrq : Bool) (body : List Byte) : State :=
  let r := ringIdx fn ring
  let x := s.ring r
  let tail := s.fget .cqTail r
  let seq := (x.seq + 1) % 2 ^ 32
  let plain := body.take 3 ++ leBytes 1 (bitNat x.phase) ++ body.drop 4 ++ leBytes 4 seq
  let p := fn - 1
  let ctr := Tab.get 0 (s.part p).session.cqCount ring + 1
  let s :=
    if s.sealed fn then
      let a := s.fget .cqBase r + 64 * tail
      let (c, tag) := Config.gcmSeal (s.dataKey p 1) (gcmIv 0x11 ring ctr 0) (leBytes 8 a) plain
      (s.hostWrite a (c.take 32 ++ tag.take 16 ++ List.replicate 15 0 ++ leBytes 1 (bitNat x.phase))).modPart p
        (fun q => { q with session := { q.session with cqCount := Tab.set 0 q.session.cqCount ring ctr } })
    else s.hostWrite (s.fget .cqBase r + 32 * tail) plain
  let tail' := (tail + 1) % s.cqSize r
  let s := (s.fset .cqTail r tail').modRing r (fun y => { y with seq := seq, phase := if tail' = 0 then !y.phase else y.phase })
  if !noIrq && s.fget .cqIrqEn r == 1 then s.countPending fn ring else s

/-- The counter of a sealed completion ring is at its end: the ring stops until a new session begins (R445). -/
def State.cqSpent (s : State) (fn ring : Nat) : Bool :=
  s.sealed fn && decide (ctrMax ≤ Tab.get 0 (s.part (fn - 1)).session.cqCount ring)

/-- Post a record, or hold it where its ring is full, disabled, or stopped by its counter (R435, R445); a VF that is not up,
or that is being disabled, gets no record (R449). -/
def State.post (s : State) (fn ring : Nat) (noIrq : Bool) (body : List Byte) : State :=
  let r := ringIdx fn ring
  if !s.fnUp fn || (fn != 0 && (s.part (fn - 1)).drain.any (fun d => d.why == 1)) then s
  else if (s.ring r).held.isEmpty && s.cqRoom r && !s.cqSpent fn ring then
    s.writeRecord fn ring noIrq body
  else s.modRing r (fun x => { x with held := x.held ++ [(noIrq, body)] })

/-- Post held records in order while there is room. -/
def State.postHeld (s : State) (fn ring : Nat) : Nat → State
  | 0 => s
  | n + 1 =>
    let r := ringIdx fn ring
    match (s.ring r).held with
    | [] => s
    | (noIrq, body) :: rest =>
      if s.cqRoom r && !s.cqSpent fn ring then
        State.postHeld ((s.modRing r (fun x => { x with held := rest })).writeRecord fn ring noIrq body) fn ring n
      else s

/-- Bytes 27:0 of a COMMAND record. -/
def commandRecord (status part ring slot user result detail : Nat) : List Byte :=
  leBytes 2 status ++ leBytes 1 0 ++ leBytes 1 0 ++ leBytes 1 part ++ leBytes 1 ring ++ leBytes 2 slot ++ leBytes 8 user ++
    leBytes 8 result ++ leBytes 4 detail

/-- DETAIL for a fault source on a logical tile, or with no tile. -/
def detailOf (source : Nat) (tile : Option Nat) : Nat :=
  match tile with
  | some t => source % 2 ^ 16 + (t % 2 ^ 7) * 2 ^ 16 + 2 ^ 23
  | none => source % 2 ^ 16

/-- A replay run consumes its records (R501). -/
def State.replays (s : State) (p : Nat) : Bool := (s.part p).replayRun.any Replay.live

/-- The first failure of a replay run counts (R502). -/
def State.replayFails (s : State) (p status rseq : Nat) : State :=
  s.modPart p (fun x => { x with replayRun := x.replayRun.map (fun r => if r.verdict.1 = 0 then { r with verdict := (status, rseq) } else r) })

/-- Compare an output of a replay run with the next OUTPUT record (R501, R502). -/
def State.replayOutput (s : State) (p : Nat) (digest : List Byte) : State :=
  match (s.part p).replayRun with
  | none => s
  | some r =>
    match r.outs with
    | [] => s.replayFails p Status.replayIncomplete ((r.rows.getLast?.map (fun x => x.2.2.1)).getD 0)
    | (n, d) :: rest =>
      let s := s.modPart p (fun x => { x with replayRun := some { r with outs := rest } })
      if d = digest then s else s.replayFails p Status.replayDiverged n

/-- The OUTPUT record of the captured partition, or its comparison in a replay run (R498, R501). -/
def State.captureOutput (s : State) (part : Nat) (body : List Byte) : State :=
  if part < 12 then
    if s.replays part then s.replayOutput part (sha256 body) else s.capture part 9 1 (sha256 body)
  else s

/-- Complete a descriptor fetched from (fn, ring): post its record to the ring that CQ names. LAST_STATUS follows the turn commands. -/
def State.reply (s : State) (fn ring slot : Nat) (d : BitVec 512) (part status result detail : Nat) : State :=
  let body := commandRecord status part ring slot (dField d 15 8) result detail
  let s := if 0x60 ≤ dField d 0 0 ∧ dField d 0 0 ≤ 0x62 ∧ part < 12 then s.fset .turnLastStatus part status else s
  let s := s.post fn (s.fget .sqCq (ringIdx fn ring)) (bitOf (dField d 1 1) 0) body
  if part < 12 ∧ s.replays part then s else s.captureOutput part body

/-- Complete an accepted command: it leaves the list of commands in flight and its record is posted (R432, R435); the record of a
command that a replay run accepted is compared, and discarded (R501). -/
def State.complete (s : State) (c : Cmd) (status result detail : Nat) : State :=
  let s := { s with cmds := s.cmds.filter (fun x => x.id != c.id) }
  if c.replayed then s.captureOutput c.part (commandRecord status c.part c.ring c.slot (c.desc.toNat / 2 ^ 64 % 2 ^ 64) result detail)
  else s.reply c.fn c.ring c.slot c.desc c.part status result detail

/-- The accepted command of an id. -/
def State.cmd (s : State) (id : Nat) : Option Cmd := s.cmds.find? (fun c => c.id == id)

/-- Complete the command of an id, where it is still in flight. -/
def State.finish (s : State) (id status result detail : Nat) : State :=
  match s.cmd id with
  | some c => s.complete c status result detail
  | none => s

def State.modCmd (s : State) (id : Nat) (f : Cmd → Cmd) : State :=
  { s with cmds := s.cmds.map (fun c => if c.id == id then f c else c) }

/-- OPCODE of an accepted command. -/
def Cmd.op (c : Cmd) : Nat := dField c.desc 0 0

/-- Bytes hi..lo of an accepted command's descriptor. -/
def Cmd.arg (c : Cmd) (hi lo : Nat) : Nat := dField c.desc hi lo

/-! ### Fetching (R431, R434, R435, R448, R459, R483, R500, R527) -/

/-- A drain window of the partition's commands runs; a port's does not stop its rings. -/
def Part.draining (x : Part) : Bool := x.drain.any (fun d => d.why != 5)

/-- No rule stops the fetching of a VF's rings. -/
def State.vfFetch (s : State) (fn : Nat) : Bool :=
  let p := fn - 1
  s.fnUp fn && s.fget .partQuiesce p == 0 && s.fget .fcPartContained p == 0 && s.fget .spargeRunning p == 0 &&
    !(s.part p).draining && s.fget .rplState p != 5 && (s.part p).replayHeld.isEmpty

/-- Descriptors accepted from function fn and not complete (R434). -/
def State.accepted (s : State) (fn : Nat) : Nat := (s.cmds.filter (fun c => c.fn == fn)).length

/-- The GCM engine cannot have the keys of fn's session: they fail their ECC in the vault (R206, R207). -/
def State.keyFails (s : State) (fn : Nat) : Bool := s.sealed fn && Tab.get false s.err.vault (fn - 1)

/-- A slot of submission ring (fn, ring) waits to be fetched. -/
def State.ringWaits (s : State) (fn ring : Nat) : Bool :=
  let r := ringIdx fn ring
  s.fget .secStage 0 == 3 && decide (fn ≤ 12) && decide (ring < ringCount fn) && s.fget .sqEnable r == 1 &&
    s.fget .sqHead r != (s.ring r).tail && decide (s.accepted fn < (if fn = 0 then 1024 else 256)) &&
    decide ((s.ring (ringIdx fn (s.fget .sqCq r))).held.length ≤ 256) && (fn == 0 || s.vfFetch fn) &&
    !(s.sealed fn && decide (ctrMax ≤ Tab.get 0 (s.part (fn - 1)).session.sqCount ring))

/-- A slot of submission ring (fn, ring) can be fetched. -/
def State.fetchable (s : State) (fn ring : Nat) : Bool := s.ringWaits fn ring && !s.keyFails fn

/-- The descriptor in slot SQ_HEAD; none where a sealed descriptor fails its tag (R444 to R446). -/
def State.slotDesc (s : State) (fn ring : Nat) : Option (BitVec 512) :=
  let r := ringIdx fn ring
  let h := s.fget .sqHead r
  if s.sealed fn then
    let a := s.fget .sqBase r + 128 * h
    let bs := s.hostRead a 128
    let ctr := Tab.get 0 (s.part (fn - 1)).session.sqCount ring + 1
    (Config.gcmOpen (s.dataKey (fn - 1) 0) (gcmIv 0x01 ring ctr 0) (leBytes 8 a) (bs.take 64) ((bs.drop 64).take 16)).map
      (fun bs => BitVec.ofNat 512 (leNat bs))
  else some (BitVec.ofNat 512 (leNat (s.hostRead (s.fget .sqBase r + 64 * h) 64)))

/-- SQ_HEAD moves past the fetched slot; a sealed ring's counter is consumed. -/
def State.popSlot (s : State) (fn ring : Nat) : State :=
  let r := ringIdx fn ring
  let s := s.fset .sqHead r ((s.fget .sqHead r + 1) % 2 ^ s.fget .sqLog2Size r)
  if s.sealed fn then
    s.modPart (fn - 1) (fun q => { q with session := { q.session with
      sqCount := Tab.set 0 q.session.sqCount ring (Tab.get 0 q.session.sqCount ring + 1) } })
  else s

/-! ### The checks of R528 -/

/-- Opcodes the P96 defines (*Command opcodes* and the command tables of the chapters that own them). -/
def opDefined (op : Nat) : Bool :=
  op == 0 || (decide (0x10 ≤ op) && decide (op ≤ 0x13)) || (decide (0x40 ≤ op) && decide (op ≤ 0x42)) ||
    (decide (0x50 ≤ op) && decide (op ≤ 0x52)) || (decide (0x60 ≤ op) && decide (op ≤ 0x62)) ||
    (decide (0x66 ≤ op) && decide (op ≤ 0x69)) || (decide (0x70 ≤ op) && decide (op ≤ 0x75)) || op == 0x78 || op == 0x79 ||
    (decide (0x80 ≤ op) && decide (op ≤ 0x86)) || (decide (0x90 ≤ op) && decide (op ≤ 0x92))

/-- Commands of R483 and R527 that a contained or quiesced partition still takes from the PF. -/
def mgmtOp (op : Nat) : Bool := op == 0x81 || op == 0x41 || op == 0x13 || op == 0x80

/-- What a command row fixes for the common checks. `part` is the partition operand, or 0xFF for a command that names none. -/
structure Spec where
  op : Nat
  /-- The function may submit it (step 5). -/
  fnOk : Bool
  part : Nat
  /-- Step 6: reserved bits and bytes, PART and handles. -/
  operands : Bool
  /-- The command is one that a pending sparge lets through (R461). -/
  spargeOk : Bool

/-- Steps 7 and 8 of R528 for partition p: containment, PF refusals, pending sparge. 0 where nothing refuses. -/
def State.partRefusal (s : State) (fn : Nat) (k : Spec) : Nat :=
  if 12 ≤ k.part then 0
  else if s.fget .fcPartContained k.part = 1 && !((mgmtOp k.op || k.op == 0x91) && fn == 0) then Status.contained
  else if fn = 0 && s.fget .partQuiesce k.part == 1 && !mgmtOp k.op then Status.aborted
  else if fn = 0 && s.fget .rplState k.part == 5 && k.op != 0x81 && k.op != 0x91 then Status.badState
  else if s.fget .spargePending k.part = 1 && !k.spargeOk then Status.spargePending
  else 0

/-- Steps 2 to 8 of R528: the status that refuses a fetched descriptor, or 0. -/
def State.refusal (s : State) (fn : Nat) (d : BitVec 512) (k : Spec) : Nat :=
  if s.safe && k.op != 0 && k.op != 0x91 then Status.safeState
  else if !opDefined k.op then Status.badOpcode
  else if dField d 1 1 / 4 ≠ 0 || !dZero d 7 2 then Status.badOperand
  else if !k.fnOk || (k.op != 0 && fn != 0 && !(s.part (fn - 1)).defined) then Status.badState
  else if !k.operands then Status.badOperand
  else s.partRefusal fn k

/-- A PF command whose COMMAND record finds no room waits at the head of its ring while STALL is set (R527). -/
def State.stalled (s : State) (k : Spec) : Bool :=
  decide (k.part < 12) && s.fget .rplState k.part == 2 && !(s.part k.part).replayHeld.isEmpty

/-- An accepted command may start: it is not ORDERED, or every earlier command of its ring has completed (R431). -/
def State.mayStart (s : State) (c : Cmd) : Bool :=
  !bitOf (c.arg 1 1) 1 || !s.cmds.any (fun x => x.fn == c.fn && x.ring == c.ring && x.replayed == c.replayed && decide (x.id < c.id))

/-- Accept a fetched command: it joins the list of commands in flight, and the capture records it (R432, R498). -/
def State.accept (s : State) (fn ring slot : Nat) (d : BitVec 512) (part : Nat) : Cmd × State :=
  let c : Cmd := { id := s.nextCmd, fn := fn, ring := ring, slot := slot, part := part, desc := d,
                   ctr := if s.sealed fn then Tab.get 0 (s.part (fn - 1)).session.sqCount ring else 0, started := false, stage := 0, rseq := 0, replayed := false }
  let s :=
    if 12 ≤ part then s
    else if s.fget .rplState part = 2 ∧ s.fget .rplArm part = 0 then s.endCapture part
    else s.capture part 2 0 (leBytes 1 fn ++ leBytes 1 ring ++ leBytes 64 d.toNat)
  let c := { c with rseq := (s.part part).rseq }
  (c, { s with cmds := s.cmds ++ [c], nextCmd := s.nextCmd + 1 })

/-- Raise GCM_TAG_FAILED and count it (R446). -/
def State.tagFailed (s : State) (p : Nat) : State :=
  { (s.fsat .partTagFails p 1) with
    due := s.due ++ [{ source := Source.gcmTagFailed, kind := Kind.bay, inst := s.lowBay p, info := 0 }] }

/-- Fetch the next descriptor of a ring for the row of opcode `op`, make the checks of R528, and either complete it with the
status of the first check it fails or accept it and start it. `later` is step 9, `start` what starting the command does.
A ring with nothing to fetch, or whose next descriptor is another row's, is left as it is (log entry 9). -/
def State.hostRow (s : State) (fn ring op : Nat) (spec : State → BitVec 512 → Spec) (later : State → BitVec 512 → Nat)
    (start : State → Cmd → State) : State :=
  if !s.fetchable fn ring then s
  else
    let slot := s.fget .sqHead (ringIdx fn ring)
    match s.slotDesc fn ring with
    | none =>
      let p := fn - 1
      ((s.popSlot fn ring).tagFailed p).reply fn ring slot 0 p Status.tagFailed 0 0
    | some d =>
      let k := spec s d
      if dField d 0 0 ≠ op ∨ s.stalled k then s
      else
        let s := s.popSlot fn ring
        let bad := s.refusal fn d k
        let part := if k.part < 12 then k.part else 0xFF
        if bad ≠ 0 then s.reply fn ring slot d part bad 0 0
        else
          let status := later s d
          if status ≠ 0 then s.reply fn ring slot d part status 0 0
          else
            let (c, s) := s.accept fn ring slot d part
            if s.mayStart c then start (s.modCmd c.id (fun c => { c with started := true })) { c with started := true } else s

/-- PART is a defined partition, or one of 0 to 11 where only the number is checked. -/
def State.partDefined (s : State) (p : Nat) : Bool := decide (p < 12) && (s.part p).defined

/-- The PF, or the VF of partition p. -/
def pfOrVf (fn p : Nat) : Bool := fn == 0 || fn == p + 1

end Sys2Proof.Machine
end

