-- ==== Sys2Proof/Machine/Frets.lean ====
section
/-!
DEFINITION. Fret frames and page tables (R402 to R413): the pool, allocation, and the tables the sequencer keeps in HBM.
-/

namespace Sys2Proof.Machine

/-- FRETS regions of bay b, ascending by index (R403). -/
def Cfg.fretRegions (c : Cfg) (b : Nat) : List Region :=
  (c.regionsOf 0 6).filter (fun r => r.base / 2 ^ 37 == b)

/-- Entries of one page table (R404). -/
def Cfg.tableEntries (c : Cfg) (b : Nat) : Nat := ceilDiv (c.seq b).maxCtx 256

/-- Size of bay b's page-table area (R404). -/
def Cfg.ptSize (c : Cfg) (b : Nat) : Nat :=
  roundUp (64 * (c.seq b).maxSeq + 4 * (c.seq b).maxSeq * c.tableEntries b) (2 ^ 21)

/-- Base of bay b's page-table area (R404); none without a FRETS region. -/
def Cfg.ptBase (c : Cfg) (b : Nat) : Option Nat := (c.fretRegions b).head?.map Region.base

/-- KV_LAYERS of a partition, the same on every bay of it (R425). -/
def State.kvLayers (s : State) (p : Nat) : Nat := s.fget .kvLayers (s.lowBay p)

/-- Bytes of one frame (R403). -/
def State.frameBytes (s : State) (p : Nat) : Nat := s.kvLayers p * 294912

/-- R405: the bay can take in a sequence. -/
def State.kvReady (s : State) (p b : Nat) : Bool :=
  let c := (s.part p).cfg
  s.kvLayers p != 0 &&
    (match (c.fretRegions b).head? with
      | some r => decide (c.ptSize b + s.frameBytes p ≤ r.size)
      | none => false)

/-- The sequencer of bay b is held: its image leaves it without a legal step area or page-table area (R374, R405). A held sequencer
admits and launches nothing (log entry 49). -/
def State.seqHeld (s : State) (p b : Nat) : Bool :=
  !s.kvReady p b || !(s.part p).cfg.areaOk b (s.fget .seqArea b) (s.fget .seqAreaSize b)

/-- Between steps STATE of SEQ_STATUS reads IDLE, or HELD where the bay is held (R374, R405). -/
def State.seqRest (s : State) (b : Nat) : State :=
  s.fset .seqState b (if (s.partOfBay b).any (fun p => s.seqHeld p b) then 2 else 0)

/-- The runs of frames of a partition: (bay, first byte, frames), bays ascending and regions ascending (R404). -/
def State.frameRuns (s : State) (p : Nat) : List (Nat × Nat × Nat) :=
  let c := (s.part p).cfg
  let f := s.frameBytes p
  (s.baysOf p).flatMap (fun b =>
    (c.fretRegions b).zipIdx.map (fun (r, i) =>
      let a := if i = 0 then c.ptSize b else 0
      (b, r.base + a, if f = 0 ∨ r.size < a then 0 else (r.size - a) / f)))

/-- KV_FRAMES of a partition. -/
def State.frameCount (s : State) (p : Nat) : Nat := (s.frameRuns p).foldl (fun n r => n + r.2.2) 0

/-- The bay and first byte of frame n in a list of runs. -/
def frameIn (f : Nat) : List (Nat × Nat × Nat) → Nat → Option (Nat × Nat)
  | [], _ => none
  | (b, base, k) :: rest, n => if n < k then some (b, base + n * f) else frameIn f rest (n - k)

/-- The bay and device address of frame n of partition p. -/
def State.frameAt (s : State) (p n : Nat) : Option (Nat × Nat) := frameIn (s.frameBytes p) (s.frameRuns p) n

/-- Frames that sequences of partition p hold. -/
def State.framesUsed (s : State) (p : Nat) : List Nat :=
  (s.baysOf p).flatMap (fun b => (s.bay b).live.flatMap (fun q => q.frames.map Prod.snd))

/-- KV_FREE of a partition. -/
def State.framesFree (s : State) (p : Nat) : Nat := s.frameCount p - (s.framesUsed p).length

/-- First frame number and count of each bay's frames. -/
def bayFrames : List (Nat × Nat × Nat) → Nat → List (Nat × Nat × Nat)
  | [], _ => []
  | (b, _, k) :: rest, n => (b, n, k) :: bayFrames rest (n + k)

/-- The lowest-numbered free frame for bay b: its own stack first, then the other bays ascending (R406). -/
def State.freeFrame (s : State) (p b : Nat) (taken : List Nat) : Option Nat :=
  let runs := bayFrames (s.frameRuns p) 0
  let used := s.framesUsed p ++ taken
  let pick (rs : List (Nat × Nat × Nat)) : Option Nat :=
    rs.findSome? (fun r => (List.range r.2.2).findSome? (fun i => if used.contains (r.2.1 + i) then none else some (r.2.1 + i)))
  match pick (runs.filter (fun r => r.1 == b)) with
  | some n => some n
  | none => pick (runs.filter (fun r => r.1 != b))

/-- Frames for a list of frets, in order, or none when one cannot be given. -/
def State.takeFrames (s : State) (p b : Nat) : List Nat → List Nat → List (Nat × Nat) → Option (List (Nat × Nat))
  | [], _, acc => some acc.reverse
  | fret :: rest, taken, acc =>
    match s.freeFrame p b taken with
    | none => none
    | some n => State.takeFrames s p b rest (n :: taken) ((fret, n) :: acc)

/-- RANK_COUNT and MY_RANK of a sequence's communicator; (1, 0) for a sequence held by one bay (R422). -/
def State.seqRanks (s : State) (p : Nat) (q : Seq) : Nat × Nat :=
  if q.comm = 0xFF then (1, 0) else
  match (s.part p).cfg.comm q.comm with
  | some k => (k.count, k.myRank)
  | none => (1, 0)

/-- This rank holds fret f of the sequence (R422). -/
def State.holdsFret (s : State) (p : Nat) (q : Seq) (f : Nat) : Bool :=
  f % (s.seqRanks p q).1 == (s.seqRanks p q).2

/-- Write a sequence's page table: header and entries (R407, R422). -/
def State.writeTable (s : State) (p b : Nat) (q : Seq) : State :=
  let c := (s.part p).cfg
  match c.ptBase b with
  | none => s
  | some base =>
    let n := c.tableEntries b
    let hdr := leBytes 4 q.id ++ leBytes 4 q.len ++ leBytes 4 q.frames.length ++ leBytes 4 q.reservedTo ++
      leBytes 1 (bitNat q.mixed) ++ leBytes 3 0 ++ leBytes 4 q.oldLimit ++ List.replicate 40 0
    let eb := base + 64 * (c.seq b).maxSeq + 4 * q.slot * n
    let entries := (List.range n).flatMap (fun f =>
      if s.holdsFret p q f then
        match q.frames.find? (fun e => e.1 == f) with
        | some e => leBytes 4 (2 ^ 28 + e.2 % 2 ^ 24)
        | none => leBytes 4 0
      else leBytes 4 (2 * 2 ^ 28))
    (s.devWrite (base + 64 * q.slot) hdr).devWrite eb entries

/-- [a, a + len) touches a page-table area of partition p (R409). -/
def State.touchesTable (s : State) (p a len : Nat) : Bool :=
  (s.baysOf p).any (fun b =>
    match (s.part p).cfg.ptBase b with
    | none => false
    | some base => decide (a < base + (s.part p).cfg.ptSize b) && decide (base < a + len))

end Sys2Proof.Machine
end

