-- ==== Sys2Proof/Machine/Batch.lean ====
section
/-!
DEFINITION. Batch records and the end of sequences (R382 to R390, R436).
-/

namespace Sys2Proof.Machine

/-- One batch record entry, with its slot for the order of R382. -/
structure BEntry where
  slot : Nat
  seqId : Nat
  token : Nat
  logp : Nat
  flags : Nat
  deriving DecidableEq, Repr

def endStop : Nat := 1
def endMaxNew : Nat := 2
def endMaxContext : Nat := 3
def endCancelled : Nat := 4
def endPausedTurn : Nat := 5
def endNoFret : Nat := 6
def endStepFailed : Nat := 7

/-- FLAGS bits 1 and 11:8 of an entry that ends its sequence. -/
def lastFlags (reason : Nat) : Nat := 2 + reason * 256

/-- A marker entry: no token, the sequence ends here (R382). -/
def markerEntry (q : Seq) (reason : Nat) : BEntry :=
  { slot := q.slot, seqId := q.id, token := 0xFFFFFFFF, logp := 0, flags := lastFlags reason + 8 }

/-- A batch record: header and entries (R382). -/
def State.batchBytes (s : State) (p b : Nat) (failed : Bool) (es : List BEntry) : List Byte :=
  leBytes 2 1 ++ leBytes 2 (s.part p).cfg.deviceId ++ leBytes 1 b ++ leBytes 1 p ++ leBytes 1 (bitNat failed) ++ leBytes 1 0 ++
    leBytes 8 (s.fget .seqStep b) ++ leBytes 4 (s.fget .turnPolicyVersion p) ++ leBytes 4 es.length ++
    leBytes 4 (s.fget .seqEpochStep b) ++ leBytes 4 0 ++
    es.flatMap (fun e => leBytes 4 e.seqId ++ leBytes 4 e.token ++ leBytes 4 e.logp ++ leBytes 4 e.flags)

/-- Bytes a record takes in the output ring: a multiple of 64, and 64 more when it is sealed (R383, R444). -/
def State.outBytes (s : State) (p n : Nat) : Nat := roundUp n 64 + (if s.confidential p then 64 else 0)

/-- Free bytes of bay b's output ring, one 64-byte unit kept free so that a full ring and an empty one differ (log entry 10). -/
def State.outRoom (s : State) (b : Nat) : Nat :=
  let size := s.fget .seqOutSize b
  let used := (s.fget .seqOutHead b + size - s.fget .seqOutTail b) % (max size 1)
  size - used - 64

/-- Bytes of the record log of bay b's step area (R374, R384). -/
def State.logSize (s : State) (b : Nat) : Nat := s.fget .seqAreaSize b * 2 ^ 20 - 160 * 2 ^ 20

/-- Write one record of a bay to its output ring and its log, and post its BATCH completion (R383, R384, R436, R444); a replay run
only compares it (R501). -/
def State.putRecord (s : State) (p b : Nat) (rec : List Byte) : State :=
  let size := s.fget .seqOutSize b
  let base := s.fget .seqOutBase b
  let head := s.fget .seqOutHead b
  let need := s.outBytes p rec.length
  let quiet := s.replays p
  let s := if head + need ≤ size ∨ quiet then s else s.hostWrite (base + head) (List.replicate 32 0)
  let off := if head + need ≤ size then head else 0
  let padded := rec ++ List.replicate (roundUp rec.length 64 - rec.length) 0
  let s :=
    if quiet then s
    else if s.confidential p then
      let ctr := Tab.get 0 (s.part p).session.batchCount b + 1
      let (c, tag) := Config.gcmSeal (s.dataKey p 1) (gcmIv 0x13 b ctr 0) (leBytes 8 (base + off)) padded
      (s.hostWrite (base + off) (c.take padded.length ++ tag.take 16 ++ leBytes 8 ctr ++ List.replicate 40 0)).modPart p
        (fun q => { q with session := { q.session with batchCount := Tab.set 0 q.session.batchCount b ctr } })
    else s.hostWrite (base + off) padded
  let s := if quiet then s else s.fset .seqOutHead b ((off + need) % (max size 1))
  let s :=
    if s.fget .seqKeepLog b = 1 ∧ (s.bay b).logTail + padded.length ≤ s.logSize b then
      (s.devWrite (s.fget .seqArea b + 160 * 2 ^ 20 + (s.bay b).logTail) padded).modBay b
        (fun x => { x with logTail := x.logTail + padded.length })
    else s
  let body := leBytes 2 0 ++ leBytes 1 1 ++ leBytes 1 0 ++ leBytes 1 p ++ leBytes 1 b ++ leBytes 2 0 ++ leBytes 8 off ++
    leBytes 4 rec.length ++ leBytes 4 0 ++ leBytes 4 0
  let s := if quiet then s else if s.fnUp (p + 1) then s.post (p + 1) 0 false body else s.post 0 7 false body
  s.captureOutput p rec

/-- A bay writes a batch record when there is an entry to write (R382). -/
def State.batchRecord (s : State) (p b : Nat) (failed : Bool) (es : List BEntry) : State :=
  if es = [] then s else s.putRecord p b (s.batchBytes p b failed es)

/-- Remove sequences from a bay: their slots and frames are free from then on (R386), and the entries of their page tables, kept
current, hold no frame (R407). -/
def State.dropSeqs (s : State) (b : Nat) (gone : Seq → Bool) : State :=
  let s := match s.partOfBay b with
    | none => s
    | some p => ((s.bay b).live.filter gone).foldl (fun s (q : Seq) => s.writeTable p b { q with frames := [] }) s
  s.modBay b (fun x => { x with live := x.live.filter (fun q => !gone q), queue := x.queue.filter (fun q => !gone q) })

/-- Sequences of a bay in the order of R382: live by slot, then queued in queue order. -/
def Bay.seqs (x : Bay) : List Seq := orderedBy (fun a b => decide (a.slot ≤ b.slot)) x.live ++ x.queue

/-- This device is the sequence's home, or the sequence is held by one bay (R393). -/
def State.isHome (s : State) (p : Nat) (q : Seq) : Bool := q.comm == 0xFF || (s.seqRanks p q).2 == 0

/-- End every live and queued sequence of a bay with one marker record, which only their home writes (R389, R393, R483). -/
def State.endAllSeqs (s : State) (p b reason : Nat) (failed : Bool) : State :=
  let es := ((s.bay b).seqs.filter (fun q => s.isHome p q)).map (fun q => markerEntry q reason)
  (s.batchRecord p b failed es).dropSeqs b (fun _ => true)

end Sys2Proof.Machine
end

