-- ==== Sys2Proof/Machine/Stop.lean ====
section
/-!
DEFINITION. Stopping work: a failed step (R184, R388), a stopped kettle run (R266), discarded reductions (R281, R301), and
the stop of everything a partition has in flight (R448, R483, R493).
-/

namespace Sys2Proof.Machine

/-- A fault detected below the collector, which the collector takes next. -/
def State.detect (s : State) (source kind inst info : Nat) : State :=
  { s with due := s.due ++ [{ source := source, kind := kind, inst := inst, info := info }] }

/-- A tile stops dispatch: STATE STOPPED, with the reason and the word index (R184). -/
def State.stopTile (s : State) (t reason pc : Nat) : State :=
  (((s.fset .tpState t TpState.stopped).fset .tpReason t reason).fset .tpFaultPc t pc).modTile t (fun x => { x with live := false })

/-- Live tiles of the partition's learn step. -/
def State.learnTiles (s : State) (p : Nat) : List Nat :=
  (s.tilesOf p).filter (fun t => (s.tile t).live && !(s.tile t).rollout)

/-- Live tiles of bay b's rollout step. -/
def State.rolloutTiles (s : State) (b : Nat) : List Nat :=
  (List.range 8).filterMap (fun j => if (s.tile (8 * b + j)).live && (s.tile (8 * b + j)).rollout then some (8 * b + j) else none)

/-- A word of the bay's rollout step is still in an engine: it runs to completion or to its own fault (R184). -/
def State.rolloutWords (s : State) (b : Nat) : Bool :=
  (List.range 8).any (fun j => (s.tile (8 * b + j)).rollout && !(s.tile (8 * b + j)).flight.isEmpty)

/-- Stop tiles that another tile's stop reaches: REASON 0, FAULT_PC the next word (R184). -/
def State.stopTiles (s : State) (ts : List Nat) : State := ts.foldl (fun s t => s.stopTile t 0 (s.fget .tpPc t)) s

/-- Sub-arrays that a word in flight keeps busy, as BUSY shows them (*Matrix engine registers*). -/
def Flight.arrays (f : Flight) (split : Bool) : Nat :=
  if f.cls ≠ 1 ∨ f.op = 4 then 0 else if !split then 1 else if f.op = 3 then 15 else 2 ^ bitsOf f.word.toNat 21 20

/-- BUSY of the matrix and vector engines from the words in flight. -/
def State.showBusy (s : State) (t : Nat) : State :=
  let x := s.tile t
  let split := (s.partOfTile t).any (fun p => Tab.get 0 (s.part p).cfg.modes t == 1)
  (s.fset .vecBusy t (bitNat (x.flight.any (fun f => f.cls == 2)))).fset .mxmBusy t
    (x.flight.foldl (fun m f => m ||| f.arrays split) 0)

/-- Drop the words of a tile that satisfy p: they fail and never signal (R163). -/
def State.failWords (s : State) (t : Nat) (p : Flight → Bool) : State :=
  (s.modTile t (fun x => { x with flight := x.flight.filter (fun w => !p w) })).showBusy t

/-- Drop the words that wait for a collective: they fail and never signal. -/
def State.failColl (s : State) (c : Coll) : State := c.words.foldl (fun s w => s.failWords w.1 (fun f => f.id == w.2)) s

/-- Open gradient reductions of a learn step become orphans: they send nothing more, and their words fail. One that expects no
segment closes at once (R281). -/
def State.orphan (s : State) (p : Nat) : State :=
  let reds := (s.part p).colls.filter (fun c => c.op == 0 && !c.orphan)
  let s := reds.foldl (fun s c => s.failColl c) s
  s.modPart p (fun x => { x with colls := x.colls.filterMap (fun c =>
    if c.op != 0 then some c
    else if c.expect.isEmpty then none
    else some { c with orphan := true, words := [], toSend := [], granted := [], held := [] }) })

/-- Kettles that wait at stage 1 or 2 of a failed step stop with nothing written, and no later slot starts (log entry 11). -/
def State.dropKettleWaits (s : State) (p : Nat) : State :=
  (s.baysOf p).foldl (fun s b =>
    let st := s.fget .ketState b
    if (s.kettle b).why ≠ 1 then s
    else if st = 3 ∨ st = 4 then s.modKettle b (fun k => { k with todo := k.todo.take 1 })
    else (s.modKettle b (fun k => { k with todo := [], why := 0 })).fset .ketState b 0) s

/-- A learn step fails: dispatch stops on its tiles, and STEP_END completes it with this status (R184). The first failure counts. -/
def State.failLearn (s : State) (p status detail : Nat) : State :=
  match (s.part p).step with
  | none => s
  | some st =>
    if st.status ≠ 0 then s
    else
      let s := s.stopTiles (s.learnTiles p)
      let s := s.modPart p (fun x => { x with step := some { st with status := status, detail := detail } })
      (s.orphan p).dropKettleWaits p

/-- A rollout step fails: dispatch stops on its tiles, and the boundary ends its sequences (R184, R388). -/
def State.failRollout (s : State) (b : Nat) : State :=
  (s.stopTiles (s.rolloutTiles b)).modBay b (fun x => { x with stepFailed := x.stepping })

/-- The step that tile t belongs to fails. -/
def State.failStepOf (s : State) (t status detail : Nat) : State :=
  if (s.tile t).rollout then s.failRollout (t / 8)
  else match s.partOfTile t with
    | some p => s.failLearn p status detail
    | none => s

/-! ### Kettle runs -/

/-- Write the old values of an undo entry back, through the stack's addresses. -/
def State.restoreEntry (s : State) (st : Nat) (u : Undo) : State :=
  (u.old.foldl (fun s e => s.devWrite (hbmBase st + e.1) e.2) s).modKettle st (fun k =>
    { k with own := u.ownOld.foldl (fun m e => Mem.write m e.1 e.2) k.own })

/-- Stop a kettle run: old values return from every undo entry, and JSTATE reads INTERRUPTED; a bad entry sets JBAD (R266). -/
def State.stopKettle (s : State) (st : Nat) : State :=
  let k := s.kettle st
  let s := k.undo.foldl (fun s u =>
    if u.bad then (s.fset .ketJbad st 1).detect Source.kettleUndoUncorrectable Kind.stack st 0 else s.restoreEntry st u) s
  let s := if s.fget .ketJstate st = 1 then s.fset .ketJstate st 2 else s
  (s.fset .ketState st 0).modKettle st (fun k => { k with
    undo := [], todo := [], failed := k.failed || k.why != 0, why := 0, group := 0, pc := 0, kregs := [],
    sats := Tab.drop k.sats (fun i => decide (16 ≤ i)) })

def State.stopKettles (s : State) (p : Nat) : State := (s.baysOf p).foldl (fun s b => s.stopKettle b) s

/-! ### Reductions -/

/-- Discard one reduction: RED_ABORTED_STEP and REDUCTION_ABANDONED on its bay (R301). -/
def State.discardRed (s : State) (c : Coll) : State :=
  (s.fset .redAborted c.bay c.stepNo).detect Source.reductionAbandoned Kind.bay c.bay 0

/-- Discard the open collectives of a partition that satisfy q; their words end and never signal (R299, R301). -/
def State.dropColls (s : State) (p : Nat) (q : Coll → Bool) (abandon : Bool) : State :=
  let gone := (s.part p).colls.filter q
  let s := gone.foldl (fun s c =>
    let s := s.failColl c
    if abandon && c.op == 0 then s.discardRed c else s) s
  s.modPart p (fun x => { x with colls := x.colls.filter (fun c => !q c) })

/-! ### Everything of a partition -/

/-- A move belongs to partition p: a tile of p issued it, or a command of p. -/
def State.moveOf (s : State) (p : Nat) (m : Move) : Bool :=
  if m.owner < 96 then s.holds p (m.owner / 8) else s.cmds.any (fun c => c.id == m.ref && c.part == p)

/-- A refresh ends with its install and its fence. -/
def State.dropRefresh (s : State) (p : Nat) : State :=
  if (s.part p).refresh.isNone then s
  else (s.baysOf p).foldl (fun s b => s.fset .seqSwapOpen b 0) (s.modPart p (fun x => { x with refresh := none, install := none, fence := none }))

/-- Stop the learn step, the kettle runs, the moves and the collectives of a partition at once (R448, R483). -/
def State.haltWork (s : State) (p : Nat) : State :=
  let s := s.stopTiles (s.learnTiles p)
  let s := (s.tilesOf p).foldl (fun s t => if (s.tile t).rollout then s else s.failWords t (fun _ => true)) s
  let s := s.dropColls p (fun _ => true) true
  let s := s.stopKettles p
  let s := { s with moves := s.moves.filter (fun m => !s.moveOf p m) }
  let s := s.fset .flashCkptState p 0
  (s.dropRefresh p).modPart p (fun x => { x with
    step := none, exchanges := [], flash := none, install := none, fence := none, putWait := [] })

/-- A replay run ends where its partition's work is stopped. -/
def State.dropReplay (s : State) (p : Nat) : State :=
  if (s.part p).replayRun.isNone then s
  else (s.modPart p (fun x => { x with replayRun := none })).fset .rplState p 3

/-- Complete every accepted command of a partition that satisfies q: those not started with `waiting`, the others with `running`. -/
def State.endCmds (s : State) (p : Nat) (q : Cmd → Bool) (waiting running : Nat) : State :=
  let cs := s.cmds.filter (fun c => c.part == p && q c)
  let s := (cs.filter (fun c => !c.started)).foldl (fun s c => s.complete c waiting 0 0) s
  (cs.filter (fun c => c.started)).foldl (fun s c => s.complete c running 0 0) s

/-- Close an open turn of a partition with PHASE HALTED (R32, R483). -/
def State.haltTurn (s : State) (p : Nat) : State :=
  if (s.part p).turn.isNone then s
  else (((s.fset .turnPhase p Phase.halted).fset .turnStep p 0).modPart p (fun x => { x with turn := none, fence := none }))

/-- Remove a partition's entries from the loader's queue. -/
def State.dropJobs (s : State) (p : Nat) : State := { s with loader := s.loader.filter (fun j => j.part != p) }

/-- A bay sets STATE of SEQ_STATUS from what it does: STEPPING, CLOSING, HELD or IDLE. -/
def State.seqIdle (s : State) (b : Nat) : State :=
  (s.seqRest b).modBay b (fun x => { x with stepping := false, stepFailed := false, entries := [] })

/-- A learn step that a fault has failed already completes with the status that the fault's rule names (R479). -/
def State.nameFailed (s : State) (p : Nat) : State :=
  match (s.part p).step with
  | some st => if st.status = 0 then s else s.finish st.cmd st.status 0 st.detail
  | none => s

/-- Containment of one partition (R483). -/
def State.containPart (s : State) (p : Nat) : State :=
  if s.fget .fcPartContained p = 1 ∨ (s.part p).defined = false then s
  else
    let s := (s.fset .fcPartContained p 1).nameFailed p
    let s := (s.haltWork p).dropReplay p
    let s := s.endCmds p (fun _ => true) Status.aborted Status.contained
    let s := (s.haltTurn p).dropJobs p
    (s.baysOf p).foldl (fun s b =>
      let s := s.stopTiles (s.rolloutTiles b)
      let s := (List.range 8).foldl (fun s j => s.failWords (8 * b + j) (fun _ => true)) s
      let failed := (s.bay b).stepping
      (s.endAllSeqs p b endStepFailed failed).seqIdle b) (s.modPart p (fun x => { x with deaf := true, drain := [] }))

/-- Flash programming stops: a buddy write that the device holds is abandoned, and its stream is taken and discarded (R493, R515). -/
def State.dropBuddies (s : State) : State :=
  (List.range 12).foldl (fun s p =>
    if (s.part p).buddy.isNone then s
    else s.modPart p (fun x => { x with buddy := (x.buddy.filter (fun b => !b.whole)).map (fun b : Buddy => { b with discard := true }) })) s

/-- Entry into the safe state: every engine stops, and every accepted command completes with SAFE_STATE (R493). -/
def State.enterSafe (s : State) : State :=
  if s.safe then s
  else
    let s := ((s.fset .fcSafe 0 1).powerTo 5).dropBuddies
    let s := (List.range 12).foldl (fun s p =>
      if (s.part p).defined then
        let s := (((s.nameFailed p).haltWork p).dropReplay p).endCmds p (fun _ => true) Status.safeState Status.safeState
        let s := (s.haltTurn p).dropJobs p
        (s.baysOf p).foldl (fun s b =>
          let s := s.stopTiles (s.rolloutTiles b)
          ((List.range 8).foldl (fun s j => s.failWords (8 * b + j) (fun _ => true)) s).seqIdle b) s
      else s) s
    let s := s.cmds.foldl (fun s c => s.complete c Status.safeState 0 0) s
    { s with moves := [], loader := [] }

end Sys2Proof.Machine
end

