-- ==== Sys2Proof/Machine/Collector.lean ====
section
/-!
DEFINITION. The fault collector (R479 to R494): raising a source, the actions of its severity, the log, grace timers, FAULT_N
and escalation.
-/

namespace Sys2Proof.Machine

/-- The bay an instance lies in (R481). -/
def instBay (kind inst : Nat) : Option Nat :=
  if kind = Kind.tile then some (inst / 8)
  else if kind = Kind.bay then some inst
  else if kind = Kind.port then some (inst / 2)
  else if kind = Kind.stack then some inst
  else none

/-- The owning partition of a raise, 0xFF for none (R481). -/
def State.ownerOf (s : State) (kind inst : Nat) : Nat :=
  ((instBay kind inst).bind s.partOfBay).getD 0xFF

/-- SEVERITY in force for a source. -/
def State.severity (s : State) (source : Nat) : Nat := s.fget .fcSeverity source

/-- 32 bytes of a log record (*Log record*). -/
def LogRec.bytes (r : LogRec) : List Byte :=
  leBytes 4 r.seq ++ leBytes 2 r.source ++
    leBytes 1 (r.severity % 4 + r.orig % 4 * 4 + bitNat r.acked * 16 + bitNat r.escalated * 32) ++ leBytes 1 r.kind ++
    leBytes 1 r.part ++ leBytes 1 r.inst ++ leBytes 2 r.repeats ++ leBytes 4 0 ++ leBytes 8 r.info ++ leBytes 8 r.time

/-- A slot never written (R488). -/
def LogRec.empty : LogRec :=
  { seq := 0, source := 0, severity := 0, orig := 0, acked := false, escalated := false, kind := 0, part := 0, inst := 0,
    repeats := 0, info := 0, time := 0 }

def Collector.slot (c : Collector) (i : Nat) : LogRec := Tab.get LogRec.empty c.log i

/-- The record holds an unacknowledged NOTIFY, CONTAIN or SAFE. -/
def LogRec.isOpen (r : LogRec) : Bool := r.seq != 0 && !r.acked && decide (1 ≤ r.severity)

/-- The slot of the lowest-SEQ record that is acknowledged or of severity LOG (R488, case 2). -/
def Collector.oldest (c : Collector) : Option Nat :=
  (orderedBy (fun a b => decide ((c.slot a).seq ≤ (c.slot b).seq))
    ((List.range 256).filter (fun i => (c.slot i).seq != 0 && !(c.slot i).isOpen))).head?

/-- The slot for a new record: the one after FC_LOG_SLOT, else case 2, else none (R488). -/
def State.logSlot (s : State) : Option Nat :=
  let next := (s.fget .fcSlot 0 + 1) % 256
  if (s.fc.slot next).isOpen then s.fc.oldest else some next

/-- The log slot of an unacknowledged record of this source and instance (R485). -/
def State.openRecord (s : State) (source kind inst : Nat) : Option Nat :=
  (List.range 256).find? (fun i =>
    let r := s.fc.slot i
    r.seq != 0 && !r.acked && r.source == source && r.kind == kind && r.inst == inst)

def State.setSlot (s : State) (i : Nat) (r : LogRec) : State :=
  { s with fc := { s.fc with log := Tab.set LogRec.empty s.fc.log i r } }

/-- Write a new record, or count it as lost (R488). -/
def State.logNew (s : State) (r : LogRec) : State :=
  let s := { s with fc := { s.fc with nextSeq := s.fc.nextSeq + 1 } }
  match s.logSlot with
  | none => s.finc .fcLost 0 1
  | some i =>
    let s := ((s.setSlot i r).fset .fcLogHead 0 r.seq).fset .fcSlot 0 i
    if r.part < 12 then s.capture r.part 11 0 r.bytes else s

/-- FAULT_N goes low for at least the pulse, and HOLD is set (R489). -/
def State.assertFault (s : State) : State :=
  let s := (s.fset .fcAsserted 0 1).fset .fcHold 0 1
  { s with fc := { s.fc with pulse := true, release := false } }

/-- The quiet period of a scope starts or starts again (R490). Scope 12 is the device. -/
def State.startQuiet (s : State) (scope : Nat) : State :=
  { s with fc := { s.fc with quiet := s.fc.quiet.filter (· != scope) ++ [scope] } }

/-- The actions of a severity beyond the log record (R482): vector 511, FAULT_N, containment, the safe state. -/
def State.act (s : State) (sev part : Nat) : State :=
  let s := if 1 ≤ sev then s.interrupt 0 511 else s
  let s := if 2 ≤ sev then s.assertFault else s
  if sev = Severity.contain then
    if part < 12 then (s.containPart part).startQuiet part
    else (List.range 12).foldl (fun s p => if (s.part p).defined then (s.containPart p).startQuiet p else s) s
  else if sev = Severity.safe then (s.enterSafe).startQuiet 12
  else s

/-- The grace value of a level, 0 for no escalation (R486). -/
def State.grace (s : State) (sev : Nat) : Nat :=
  if sev = Severity.notify then s.fget .fcGraceNotify 0
  else if sev = Severity.contain then s.fget .fcGraceContain 0
  else if sev = Severity.safe then s.fget .fcGraceSafe 0
  else 0

/-- Start the grace timer of a record at a level (R486). -/
def State.startGrace (s : State) (seq sev part source kind inst : Nat) : State :=
  if s.grace sev = 0 then s
  else
    { s with fc := { s.fc with timers := s.fc.timers ++
      [{ seq := seq, level := sev, scope := if part < 12 then part else 12, source := source, kind := kind, inst := inst }] } }

/-- The collector takes one raise (R479, R482, R485, R488). -/
def State.take (s : State) (r : Raise) : State :=
  if !sourceNamed r.source then s
  else
    let sev := s.severity r.source
    let part := s.ownerOf r.kind r.inst
    match s.openRecord r.source r.kind r.inst with
    | some i =>
      let x := s.fc.slot i
      (s.setSlot i { x with repeats := min (x.repeats + 1) 65535 }).act sev part
    | none =>
      let seq := s.fc.nextSeq
      let s := s.logNew
        { seq := seq, source := r.source, severity := sev, orig := sev, acked := false, escalated := false, kind := r.kind,
          part := part, inst := r.inst, repeats := 0, info := r.info, time := s.time - s.clock0 }
      (s.startGrace seq sev part r.source r.kind r.inst).act sev part

/-- A codeword that has yielded an uncorrectable error leaves its row, or its accumulator line, due for repair (R202, R211, R496). -/
def State.rowYields (s : State) (source info : Nat) : State :=
  if (source = Source.scratchUncorrectable ∨ source = Source.hbmUncorrectable) ∧ Tab.get false s.bad info then
    match spaceOf info with
    | .scratch t o => s.modTile t (fun x => { x with rowErrs := Tab.set 0 x.rowErrs (768 * (o / 64 % 64) + o / 65536) 4 })
    | .hbm st _ => { s with err := { s.err with hbmRows := Tab.set 0 s.err.hbmRows (2 ^ 32 * st + Config.hbmRow info) 4 } }
    | _ => s
  else if source = Source.accUncorrectable ∧ Tab.get false s.accBad info then
    s.modTile (info / 2 ^ 20) (fun x => { x with lineErrs := Tab.set 0 x.lineErrs (info % 2 ^ 20 / 256) 4 })
  else s

/-- Take every detected fault; the fuel bounds faults that the actions themselves detect. -/
def State.settleN : Nat → State → State
  | 0, s => s
  | n + 1, s =>
    match s.due with
    | [] => s
    | r :: rest => State.settleN n ((State.rowYields { s with due := rest } r.source r.info).take r)

/-- Take the detected faults (R479). -/
def State.settle (s : State) : State := State.settleN 64 s

/-- Raise a fault source on an instance. -/
def State.raise (s : State) (source kind inst info : Nat) : State := (s.detect source kind inst info).settle

/-- A tile stops on a fault: its step fails with TILE_FAULT, and the source is raised for the tile (R183, R184). -/
def State.tileFault (s : State) (t source reason info : Nat) : State :=
  let s := s.stopTile t reason (s.fget .tpPc t)
  let s := s.failStepOf t Status.tileFault (detailOf source (some t))
  s.raise source Kind.tile t info

/-- An illegal command word: no effect, the reason and the word index in TP_FAULT, ILLEGAL_COMMAND (R183). -/
def State.illegal (s : State) (t reason : Nat) : State := s.tileFault t Source.illegalCommand reason reason

/-- An access fault or failing read names its source on the instance that owns the address (R44, R50, R481). -/
def State.raiseAt (s : State) (source a : Nat) : State :=
  let (k, i) := instOf a
  s.raise source k i a

/-- A key of the vault fails its ECC where it is read: session keys of partition k, or 12 the identity key (R207). -/
def State.vaultFails (s : State) (k : Nat) : State := s.raise Source.vaultUncorrectable Kind.chip 0 k

/-- A host command's row: what it detects reaches the collector at its end. A ring in confidential mode is fetched under its session's
keys, which the vault holds (R206, R207). -/
def State.hostCmd (s : State) (fn ring op : Nat) (spec : State → BitVec 512 → Spec) (later : State → BitVec 512 → Nat)
    (start : State → Cmd → State) : State :=
  if s.keyFails fn && s.ringWaits fn ring then s.vaultFails (fn - 1)
  else (s.hostRow fn ring op spec later start).settle

/-! ### Acknowledgement, escalation and exits -/

/-- Acknowledge one record: its timer stops (R487). -/
def State.ackSlot (s : State) (i : Nat) : State :=
  let r := s.fc.slot i
  let s := s.setSlot i { r with acked := true }
  { s with fc := { s.fc with timers := s.fc.timers.filter (fun g => g.seq != r.seq) } }

/-- The log slot that holds a record number. -/
def State.slotOf (s : State) (seq : Nat) : Option Nat :=
  if seq = 0 then none else (List.range 256).find? (fun i => (s.fc.slot i).seq == seq)

/-- Exits of a scope within WINDOW, kept as the last 16 times (R492). -/
def State.exitsOf (s : State) (scope : Nat) : List Nat :=
  (s.exits.filter (fun e => e.1 == scope)).map Prod.snd

/-- Management-domain cycles of WINDOW seconds at 400 MHz. -/
def State.windowCycles (s : State) : Nat := s.fget .fcWindow 0 * 400000000

def State.recentExits (s : State) (scope : Nat) : Nat :=
  ((s.exitsOf scope).filter (fun t => decide (s.time < t + s.windowCycles))).length

/-- Record an exit: the last 16 of each scope are kept, and the exit counters show those within the window (R492). -/
def State.recordExit (s : State) (scope : Nat) : State :=
  let mine : List (Nat × Nat) := ((scope, s.time) :: s.exits.filter (fun e => e.1 == scope)).take 16
  let s := { s with exits := mine ++ s.exits.filter (fun e : Nat × Nat => e.1 != scope) }
  if scope < 12 then s.fset .fcPartRecoveries scope (min 15 (s.recentExits scope))
  else s.fset .fcCount 0 (min 15 (s.recentExits scope))

/-- The scope becomes HELD (R486, R492). -/
def State.hold (s : State) (scope : Nat) : State :=
  if scope < 12 then s.fset .fcPartHeld scope 1 else s.fset .fcHeld 0 1

def State.isHeld (s : State) (scope : Nat) : Bool :=
  if scope < 12 then s.fget .fcPartHeld scope == 1 else s.fget .fcHeld 0 == 1

/-- A contained partition is fetched again; PHASE keeps its value (R490). -/
def State.leaveContained (s : State) (p : Nat) : State :=
  let s := s.fset .fcPartContained p 0
  { s with fc := { s.fc with quiet := s.fc.quiet.filter (· != p) } }.modPart p (fun x => { x with deaf := false })

end Sys2Proof.Machine
end

