-- ==== Sys2Proof/Machine/Operands.lean ====
section
/-!
DEFINITION. Operand forms of command words: the header and the class fields (R164 to R171), the registers that carry a drain's
context and a group's weights (R168), addresses in scratchpad with their failures (R50, R200, R525), and scale records (R97).
-/

namespace Sys2Proof.Machine

/-- A word with the named fields (high bit, low bit) cleared has no bit left: every unused bit is zero (R164). -/
def onlyUses (w : Nat) (fields : List (Nat × Nat)) : Bool :=
  fields.foldl (fun w f => putBits w f.2 (f.1 + 1 - f.2) 0) w == 0

def wCls (w : Nat) : Nat := bitsOf w 3 0
def wOp (w : Nat) : Nat := bitsOf w 7 4
def wFmt (w : Nat) : Nat := bitsOf w 11 8
def wSig (w : Nat) : Bool := bitOf w 12
def wSigEv (w : Nat) : Nat := bitsOf w 18 13
def wFence (w : Nat) : Bool := bitOf w 19

/-- The header fields that a word may use: SIG_EV only with SIG, and no SIG in CTL and SYN (R164). -/
def headerUses (w : Nat) : List (Nat × Nat) :=
  if wCls w = 0 ∨ wCls w = 5 then [(11, 0), (19, 19)]
  else if wSig w then [(19, 0)] else [(12, 0), (19, 19)]

/-- Operations of each class that the tables of R165 to R171 name. -/
def opNamed (cls op : Nat) : Bool :=
  match cls with
  | 0 => decide (op ≤ 9)
  | 1 => decide (op ≤ 4)
  | 2 => decide (op ≤ 12)
  | 3 => decide (op ≤ 2)
  | 4 => decide (op ≤ 5)
  | 5 => decide (op ≤ 2)
  | 6 => decide (op ≤ 4) || op == 8
  | 7 => decide (op ≤ 2)
  | _ => false

/-! ### What an engine makes of a word -/

/-- The outcome of a word's work: a new state, an illegal encoding with its reason (R183), or a fault with its source, the
instance it names and its INFO, on which the tile stops (R184). -/
inductive Eff where
  | ok (s : State)
  | bad (reason : Nat)
  | fail (source kind inst info : Nat)
  deriving DecidableEq

/-- Go on with the state of a step that succeeded. -/
def Eff.andThen (e : Eff) (f : State → Eff) : Eff :=
  match e with
  | .ok s => f s
  | .bad r => .bad r
  | .fail a b c d => .fail a b c d

/-- Words of the populated scratchpad (R186). -/
def spWords : Nat := 786432

/-- The failure of a scratchpad access of tile t to n bytes at byte offset o, when it has one: outside the populated words
(R50), a read that touches a failing codeword, or a write that covers one in part (R200, R525). INFO names the failing address. -/
def State.spFault (s : State) (t o n : Nat) (write : Bool) : Option Eff :=
  if n = 0 then none
  else if scratchBytes < o + n then some (.fail Source.addrUnmapped Kind.tile t (scratchBase t + o))
  else if write && s.badEdge (scratchBase t + o) n || !write && s.badRange (scratchBase t + o) n then
    some (.fail Source.scratchUncorrectable Kind.tile t (s.failingAt (scratchBase t + o) n))
  else none

/-- The first failure of a list of accesses (byte offset, bytes, write). -/
def State.spFaults (s : State) (t : Nat) : List (Nat × Nat × Bool) → Option Eff
  | [] => none
  | (o, n, write) :: rest =>
    match s.spFault t o n write with
    | some e => some e
    | none => s.spFaults t rest

/-- The illegal encoding that the first failing check names: each check is (it holds, reason otherwise). -/
def firstBad : List (Bool × Nat) → Option Nat
  | [] => none
  | (ok, r) :: rest => if ok then firstBad rest else some r

/-! ### Two writes of one word (R190 to R192) -/

/-- Requesters of a bank (*Bank requesters*), and the class of words whose queue orders each. -/
abbrev Req.stream : Nat := 0
abbrev Req.drain : Nat := 1
abbrev Req.shadow : Nat := 2
abbrev Req.vector : Nat := 3
abbrev Req.control : Nat := 4
abbrev Req.dma : Nat := 5
abbrev Req.link : Nat := 6
abbrev Req.kettle : Nat := 7

def reqClass (req : Nat) : Nat :=
  match req with
  | 0 | 1 | 2 => 1
  | 3 => 2
  | 4 => 4
  | 5 => 3
  | 6 => 6
  | _ => 9

/-- Word offsets that two byte ranges share. -/
def sharedWords (a m b n : Nat) : List Nat :=
  if m = 0 ∨ n = 0 then []
  else
    let lo := max (a / 64) (b / 64)
    let hi := min ((a + m - 1) / 64) ((b + n - 1) / 64)
    (List.range (hi + 1 - lo)).map (fun i => lo + i)

/-- Words of tile t that a write by `req` shares with words in flight of other queues, which no rule orders before or after it: (word
offset, requester of the other write) (R162, R190). -/
def Tile.meets (x : Tile) (req : Nat) (writes : List (Nat × Nat)) : List (Nat × Nat) :=
  (x.flight.filter (fun f => f.cls != reqClass req)).flatMap (fun f => f.wrote.flatMap (fun w =>
    writes.flatMap (fun r => (sharedWords w.2.1 w.2.2 r.1 r.2).map (fun o => (o, w.1)))))

/-- One collision: counted, recorded where no other stands, and raised (R191). -/
def State.collided (s : State) (t word p0 p1 : Nat) : State :=
  let s := s.finc .spCollisions t 1
  let s :=
    if s.fget .spColValid t = 1 then s
    else (((s.fset .spColWord t word).fset .spColP0Req t p0).fset .spColP1Req t p1).fset .spColValid t 1
  s.raise Source.bankWriteCollision Kind.tile t word

/-- What `was` held at a word of tile t comes back: the later write of it has been lost. -/
def State.putBack (s was : State) (t word : Nat) : State := s.spWrite t (64 * word) (was.spRead t (64 * word) 64)

/-- Writes of tile t that meet those of words in flight: for each shared word a free value says whether the new write lands last, or both
come in one cycle and the requester later in *Bank requesters* is discarded, or the old write lands last, as a write-back does
(R190 to R192; log entry 135). -/
def State.meeting (new was : State) (t req : Nat) (writes : List (Nat × Nat)) : State :=
  ((was.tile t).meets req writes).foldl (fun s h =>
    let (v, s) := s.free1
    if v % 3 = 0 then s
    else if v % 3 = 2 then s.putBack was t h.1
    else
      let s := if h.2 < req then s.putBack was t h.1 else s
      s.collided t h.1 (min req h.2) (max req h.2)) new

/-! ### Errors that reads correct (R138, R200, R211) -/

/-- Codewords with a correctable error that a read of [a, a + n) touches. -/
def State.weakIn (s : State) (a n : Nat) : List Nat :=
  (s.err.weak.filter (fun e => e.2 && decide (e.1 < a + n) && decide (a < e.1 + codeword e.1))).map Prod.fst

/-- Add n errors to the row of a codeword, or leave it due for repair: tile rows by bank and row, HBM rows by the stack's own numbering (R202,
R211). -/
def State.rowError (s : State) (a n : Nat) : State :=
  match spaceOf a with
  | .scratch t o =>
    let key := 768 * (o / 64 % 64) + o / 65536
    s.modTile t (fun x => { x with rowErrs := Tab.set 0 x.rowErrs key (Tab.get 0 x.rowErrs key + n) })
  | .hbm st _ =>
    let key := 2 ^ 32 * st + Config.hbmRow a
    { s with err := { s.err with hbmRows := Tab.set 0 s.err.hbmRows key (Tab.get 0 s.err.hbmRows key + n) } }
  | _ => s

/-- Reads have corrected these codewords: each is written back corrected, counted in SP_CORRECTED where it lies in scratchpad, and counted for
its row (R200, R202, R211). -/
def State.mend (s : State) (cs : List Nat) : State :=
  cs.foldl (fun s a =>
    let s := { s with err := { s.err with weak := Tab.set false s.err.weak a false } }.rowError a 1
    match spaceOf a with
    | .scratch t _ => s.finc .spCorrected t 1
    | _ => s) s

/-- What a word of requester `req` leaves beside its own effect, `new` after `was`: its writes meet those of words in flight, its reads correct
what they can, and the word's writes are noted (R161, R190 to R192, R200). -/
def State.wordLands (new was : State) (t req : Nat) (accesses : List (Nat × Nat × Bool)) : State :=
  let writes := (accesses.filter (fun a => a.2.2)).map (fun a => (a.1, a.2.1))
  let weak := (accesses.filter (fun a => !a.2.2)).flatMap (fun a => was.weakIn (scratchBase t + a.1) a.2.1)
  ((new.meeting was t req writes).mend weak).modTile t (fun x => { x with wrote := x.wrote ++ writes.map (fun w => (req, w)) })

/-- Run `k` where every check holds and every access of requester `req` can be made. -/
def State.guard (s : State) (t req : Nat) (checks : List (Bool × Nat)) (accesses : List (Nat × Nat × Bool)) (k : Unit → Eff) : Eff :=
  match firstBad checks with
  | some r => .bad r
  | none =>
    match s.spFaults t accesses with
    | some e => e
    | none => (k ()).andThen (fun s' => .ok (s'.wordLands s t req accesses))

/-! ### Drain context and weight registers (R168) -/

structure DrainCtx where
  tensor : Nat
  record : Nat
  ssqAddr : Nat
  row0 : Nat
  col0 : Nat
  zeroOk : Bool

def Tile.drainCtx (x : Tile) (r : Nat) : DrainCtx :=
  let a := x.sreg r
  let b := x.sreg (r + 1)
  { tensor := bitsOf a 15 0, record := bitsOf a 35 16, ssqAddr := bitsOf a 58 36, row0 := bitsOf b 31 0, col0 := bitsOf b 63 32,
    zeroOk := bitsOf a 63 59 == 0 }

structure WeightCtx where
  base : Nat
  scale : Nat
  stride : Nat
  rows : Nat
  zeroOk : Bool

def Tile.weightCtx (x : Tile) (r : Nat) : WeightCtx :=
  let a := x.sreg r
  let b := x.sreg (r + 1)
  { base := bitsOf a 19 0, scale := bitsOf a 39 20, stride := bitsOf a 55 40, rows := bitsOf b 15 0,
    zeroOk := bitsOf a 63 56 == 0 && bitsOf b 63 16 == 0 }

/-- The rounding seed and step word of tile t (R96, R157). -/
def State.stepWord (s : State) (t : Nat) : Nat :=
  if (s.tile t).rollout then s.fget .seqEpochStep (t / 8) else (s.tile t).stepNo % 2 ^ 32

/-- The applied configuration of the partition of tile t. -/
def State.cfgOf (s : State) (t : Nat) : Cfg :=
  match s.partOfTile t with
  | some p => (s.part p).cfg
  | none => Cfg.empty

/-! ### Scale records in scratchpad or HBM (R97 to R103) -/

/-- Elements of one block of a record for a destination format (R97). -/
def recBlock (dst : Nat) : Nat := if fmtScaled dst then 64 else 4096

/-- Block of a record that holds element i of a tensor: the 64-element blocks of R81 start afresh with each row. -/
def recIndex (dst rowLen i : Nat) : Nat :=
  if fmtScaled dst then i / rowLen * ceilDiv rowLen 64 + i % rowLen / 64 else i / 4096

/-- An element c of a run that begins at index i: its index, and the block of its run of 64 columns (log entry 134). -/
def runElem (dst rowLen i c : Nat) : Nat × Nat :=
  (i + c, recIndex dst rowLen (if fmtScaled dst then i + c / 64 * 64 else i + c))

/-- Byte ranges of a record at `rec` that a conversion of n elements from index i touches: header and entries. -/
def recRanges (rec dst rowLen i n : Nat) : List (Nat × Nat × Bool) :=
  let a := (runElem dst rowLen i 0).2
  let b := (runElem dst rowLen i (n - 1)).2
  [(rec, 32, false), (rec + 32 + 4 * a, 4 * (b + 1 - a), false)]

/-- A record at byte address a is VALID. -/
def State.recValid (s : State) (a : Nat) : Bool := bitOf ((Mem.byte s.dev (a + 6)).toNat) 0

/-- Entry k of a record, FP32 bits. -/
def State.recEntry (s : State) (a k : Nat) : Nat := Mem.readNat s.dev (a + 32 + 4 * k) 4

/-- One source element of a conversion: its index in the tensor (R96), its block of the record (R97), its exact value. -/
abbrev SrcElem := Nat × Nat × Val

/-- Magnitude of a value as captured: FP32 bits of |x|, +0 for a NaN (R99). -/
def capBits (v : Val) : Nat := if v.isNan then 0 else (FFmt.fp32.ofVal v.abs).bits % 2 ^ 31

/-- Maxima of the blocks that the elements cover, as (block, FP32 bits) in order of first use (R99). -/
def blockMaxima (es : List SrcElem) : Tab Nat :=
  es.foldl (fun m e =>
    let old := (m.find? (fun x => x.1 == e.2.1)).map Prod.snd
    Tab.insert m e.2.1 (max (old.getD 0) (capBits e.2.2))) []

/-- Write captured maxima into the entries of a record and set VALID (R99). -/
def State.recCapture (s : State) (a : Nat) (maxima : Tab Nat) : State :=
  let s := maxima.foldl (fun s e => s.devWrite (a + 32 + 4 * e.1) (leBytes 4 e.2)) s
  let fl := (Mem.byte s.dev (a + 6)).toNat
  s.devWrite (a + 6) (leBytes 1 (putBits fl 0 1 1))

/-- The end of a conversion: SAT_COUNT, CONVERSIONS and LAST_IMMEDIATE in one update (R99). -/
def State.recClose (s : State) (a sats : Nat) (immediate : Bool) : State :=
  let fl := (Mem.byte s.dev (a + 6)).toNat
  let s := s.devWrite (a + 6) (leBytes 1 (putBits fl 1 1 (bitNat immediate)))
  let s := s.devWrite (a + 8) (leBytes 8 (min (Mem.readNat s.dev (a + 8) 8 + sats) (2 ^ 64 - 1)))
  s.devWrite (a + 16) (leBytes 8 (Mem.readNat s.dev (a + 16) 8 + 1))

/-- What a conversion produces: encodings in source order, the scale of each element's block, flags and saturations. -/
structure Converted where
  codes : List Nat
  scales : List Nat
  fl : Nat
  sats : Nat
  maxima : Tab Nat
  immediate : Bool

/-- Convert elements to format `dst` with a tensor's scaling and rounding (R94 to R103): delayed scales come from the record's
entries as they stand, immediate ones (SCALING 1, or a record not VALID) from the block's own maximum. -/
def State.convert (s : State) (rec dst seed step : Nat) (tn : Tensor) (es : List SrcElem) : Converted :=
  let maxima := blockMaxima es
  let imm := fmtScaled dst && (tn.scaling == 1 || !s.recValid rec)
  let scale (k : Nat) : Nat :=
    if fmtScaled dst then
      if imm then scaleFor dst (((maxima.find? (fun x => x.1 == k)).map Prod.snd).getD 0)
      else scaleFor dst (s.recEntry rec k)
    else 0
  let one (e : SrcElem) : Conv × Nat :=
    let sc := scale e.2.1
    let w := if tn.rounding = 1 && (dst == 1 || dst == 2) then some (roundWord seed tn.id step e.1) else none
    (convElem dst e.2.2 sc w, sc)
  let cs := es.map one
  { codes := cs.map (fun c => c.1.code), scales := cs.map Prod.snd, fl := cs.foldl (fun f c => f ||| c.1.fl) 0,
    sats := (cs.filter (fun c => c.1.sat)).length, maxima := maxima, immediate := imm }

/-- Scales of each run of 64 elements of a list of per-element scales, as the entries of a scale plane (R81). -/
def planeScales : Nat → List Nat → List Nat
  | 0, _ => []
  | _ + 1, [] => []
  | n + 1, sc => sc.headD 0 :: planeScales n (sc.drop 64)

end Sys2Proof.Machine
end

