-- ==== Sys2Proof/Machine/Flags.lean ====
section
/-!
DEFINITION. The sticky numeric flags (R105, R106, R108, R154, R197): raising them, reading NUM_FLAGS and clearing its bits.
-/

namespace Sys2Proof.Machine

/-- Raise flags of the matrix engine of tile t. -/
def State.flagMatrix (s : State) (t fl : Nat) : State := if fl = 0 then s else s.fset1s .numMatrix t fl

/-- Raise flags of the vector engine of tile t. -/
def State.flagVector (s : State) (t fl : Nat) : State := if fl = 0 then s else s.fset1s .numVector t fl

/-- Raise flags of the bank-side units of tile t. -/
def State.flagBank (s : State) (t fl : Nat) : State := if fl = 0 then s else s.fset1s .numBank t fl

/-- A gradient operation raises GRAD_OF and GRAD_INV whenever it raises OF or INV (R108). -/
def State.flagGrad (s : State) (t fl : Nat) (grad : Bool) : State :=
  if grad then
    let s := if bitOf fl 2 then s.fset1s .numGradOf t 1 else s
    if bitOf fl 3 then s.fset1s .numGradInv t 1 else s
  else s

/-- Raise flags of the kettle of a stack (R105). -/
def State.flagKettle (s : State) (st fl : Nat) : State := if fl = 0 then s else s.fset1s .kflFlags st fl

/-- NUM_FLAGS, bits 13:0 (*Numeric flag registers*). -/
def State.numFlags (s : State) (t : Nat) : Nat :=
  s.fget .numMatrix t + 16 * s.fget .numVector t + 256 * s.fget .numBank t + 4096 * s.fget .numGradOf t + 8192 * s.fget .numGradInv t

/-- Bits of v that clear bits of a field of width w at bit lo. -/
def State.clearBits (s : State) (f : Fld) (i lo w v : Nat) : State :=
  s.fset f i (Nat.land (s.fget f i) (Nat.xor (bitsOf v (lo + w - 1) lo) (2 ^ w - 1)))

/-- Clear the NUM_FLAGS bits that v has set (R106). -/
def State.clearNumFlags (s : State) (t v : Nat) : State :=
  ((((s.clearBits .numMatrix t 0 4 v).clearBits .numVector t 4 4 v).clearBits .numBank t 8 4 v).clearBits .numGradOf t 12 1 v).clearBits
    .numGradInv t 13 1 v

end Sys2Proof.Machine
end

