-- ==== Sys2Proof/Machine/Tiles.lean ====
section
/-!
DEFINITION. The control core of a tile: launch, fetch and checks of a word, dispatch into the queues, loops, event counters,
and the end of a program (R155 to R164, R172 to R185).
-/

namespace Sys2Proof.Machine

/-! ### Event counters (R176 to R179) -/

/-- Add n to counter ev of tile t; it stops at its largest value, with EVENT_OVERFLOW (R176). -/
def State.signalTile (s : State) (t ev n : Nat) : State :=
  let v := s.fget .ev (64 * t + ev) + n
  if v < 2 ^ 32 then s.fset .ev (64 * t + ev) v
  else (s.fset .ev (64 * t + ev) (2 ^ 32 - 1)).raise Source.eventOverflow Kind.tile t ev

/-- Add n to counter ev of the kettle of stack st (R179). -/
def State.signalKettle (s : State) (st ev n : Nat) : State := s.fsat .ketKE (16 * st + ev) n

/-- Send a SYN.SIGNAL: target kind 0 this tile, 1 a logical tile, 2 a kettle (R171). -/
def State.sendSignal (s : State) (t target index ev n : Nat) : State :=
  if target = 0 then s.signalTile t ev n
  else if target = 1 then s.signalTile index ev n
  else s.signalKettle index ev n

/-- What a signal held by RELEASE adds, packed into Flight.ref. -/
def packSignal (target index ev n : Nat) : Nat := target + 4 * (index + 128 * (ev + 64 * n))

/-- Send a packed signal. -/
def State.sendPacked (s : State) (t ref : Nat) : State :=
  s.sendSignal t (ref % 4) (ref / 4 % 128) (ref / 512 % 64) (ref / 32768)

/-! ### Launch and end (R156 to R159) -/

/-- Launch tile t: the state that R156 sets, and VL 0 (R142). -/
def State.launchTile (s : State) (t entry stepNo seed arg : Nat) (rollout : Bool) : State :=
  let x := s.tile t
  let x := (((x.setSreg 1 stepNo).setSreg 2 seed).setSreg 3 arg).setSreg 4 t
  let s := s.setTile t { x with loops := [], mods := [], modding := false, flight := [], wrote := [], live := true, rollout := rollout, stepNo := stepNo,
                                seed := seed, ending := false, failCode := none, steepIssued := 0, steepLanded := [], steepSignalled := [],
                                walkCache := [], drained := [] }
  let s := (List.range 64).foldl (fun s i => s.fset .ev (64 * t + i) 0) s
  ((((s.fset .tpPc t entry).fset .tpState t TpState.running).fset .steepCursor t 0).fset .steepNext t 0).fset .vecVl t 0

/-- A counter of tile t is not zero. -/
def State.evResidue (s : State) (t : Nat) : Bool := (List.range 64).any (fun i => s.fget .ev (64 * t + i) != 0)

/-- The program of a tile that has dispatched END ends once no word is in flight (R159). -/
def State.endProgram (s : State) (t : Nat) : State :=
  let x := s.tile t
  if !(x.live && x.ending && x.flight.isEmpty) then s
  else
    let s := (s.setTile t { x with live := false, ending := false }).fset .tpState t TpState.idle
    let s := match x.failCode with
      | none => s
      | some code =>
        if x.rollout then s.modBay (t / 8) (fun b => { b with stepFailed := true })
        else match s.partOfTile t with
          | none => s
          | some p => s.modPart p (fun q => { q with step := q.step.map (fun st : LearnStep =>
              if st.status = 0 ∧ st.detail = 0 then { st with detail := detailOf code (some t) } else st) })
    if s.evResidue t then s.raise Source.eventResidue Kind.tile t 0 else s

/-! ### Fetch (R160, R164, R175) -/

/-- The word at index pc of a tile's program store. -/
def Tile.word (x : Tile) (pc : Nat) : Nat := (Tab.get 0#128 x.prog pc).toNat

/-- Words of a class that wait in its queue (R160). -/
def Tile.waiting (x : Tile) (cls : Nat) : Nat := (x.flight.filter (fun f => f.cls == cls && !f.started)).length

/-- Add the MOD triples into a word, each modulo its field (R175). -/
def applyMods (w : Nat) (ms : List ModAdd) : Nat :=
  ms.foldl (fun w m => putBits w m.pos m.width (bitsOf w (m.pos + m.width - 1) m.pos + m.add)) w

/-- The tile's control core can dispatch a word. -/
def State.dispatching (s : State) (t : Nat) : Bool :=
  s.mapped t && (s.tile t).live && !(s.tile t).ending &&
    (s.fget .tpState t == TpState.running || s.fget .tpState t == TpState.waiting)

/-- A tile stops on a fault that names an instance of its own: its step fails with TILE_FAULT (R184). -/
def State.tileStop (s : State) (t source kind inst info : Nat) : State :=
  let s := s.stopTile t 0 (s.fget .tpPc t)
  let s := s.failStepOf t Status.tileFault (detailOf source (some t))
  s.raise source kind inst info

/-- Fetch and check the next word of tile t for the row of (class, op), and run it. A tile that cannot dispatch, whose next
word is another row's, or whose FENCE bit or full queue holds the word, is left as it is (R160; log entry 9). The checks are made in the order of
*Illegal command reasons* (log entry 13). -/
def State.tileRow (s : State) (t cls op : Nat) (fmtOk : Nat → Bool) (uses : Nat → List (Nat × Nat))
    (run : State → Nat → State) : State :=
  if !s.dispatching t then s
  else
    let x := s.tile t
    let pc := s.fget .tpPc t
    if Tab.get false x.progBad pc then s.tileFault t Source.progUncorrectable 0 pc
    else
      let w := applyMods (x.word pc) x.mods
      if decide (wCls w < 8) && opNamed (wCls w) (wOp w) && (wCls w != cls || wOp w != op) then s
      else if wFence w && !x.flight.isEmpty then s
      else if 8 ≤ wCls w then s.illegal t Reason.badClass
      else if !opNamed (wCls w) (wOp w) then s.illegal t Reason.badOp
      else if !fmtOk (wFmt w) then s.illegal t Reason.badFormat
      else if !onlyUses w (headerUses w ++ uses w) then s.illegal t Reason.reservedSet
      else if x.modding && wCls w == 0 then s.illegal t Reason.modTarget
      else if cls != 0 && cls != 5 && decide (16 ≤ x.waiting cls) then s
      else run s w

/-- The operation uses no format. -/
def fmtNone (f : Nat) : Bool := f == 0

/-! ### Loops (R172, R173) -/

/-- Ends of iterations when the next word would be `next`: none is a STRIP iteration that left REMAIN unchanged. -/
def closeLoops : Nat → Tile → Nat → Option (Tile × Nat)
  | 0, x, next => some (x, next)
  | n + 1, x, next =>
    match x.loops with
    | [] => some (x, next)
    | l :: rest =>
      if l.stop ≠ next then some (x, next)
      else if l.strip && x.remain == l.remain0 then none
      else if (if l.strip then decide (0 < x.remain) else decide (l.iter + 1 < l.count)) then
        some (({ x with loops := { l with iter := l.iter + 1, remain0 := x.remain } :: rest }).setSreg l.idxReg (l.iter + 1), l.start)
      else closeLoops n { x with loops := rest } next

/-- Count a dispatched word and go to index pc; past the last word of the store the program stops with PC_RANGE (log entry 14). -/
def State.goto (s : State) (t pc : Nat) : State :=
  let s := ((s.fset .tpPc t pc).fset .tpState t TpState.running).finc .tpDispatched t 1
  if 16384 ≤ pc then s.illegal t Reason.pcRange else s

/-- Go on to the word at `next` in program order, ending the iterations whose bodies end there. -/
def State.advance (s : State) (t next : Nat) : State :=
  match closeLoops 5 { s.tile t with mods := [], modding := false } next with
  | none => ((s.modTile t (fun x => { x with mods := [], modding := false })).illegal t Reason.stripStall).finc .tpDispatched t 1
  | some (x, pc) => (s.setTile t x).goto t pc

/-- Go on to the next word. -/
def State.nextWord (s : State) (t : Nat) : State := s.advance t (s.fget .tpPc t + 1)

/-! ### Queues (R160, R161, R163) -/

/-- Put a word into its class's queue, as an engine word in flight, and go on. -/
def State.enqueue (s : State) (t w : Nat) (writes started done : Bool) (ref : Nat) : State :=
  let x := s.tile t
  let f : Flight :=
    { id := x.nextId, pc := s.fget .tpPc t, cls := wCls w, op := wOp w, sig := if wSig w then some (wSigEv w) else none,
      writes := writes, started := started, done := done, word := BitVec.ofNat 128 w, ref := ref, wrote := x.wrote }
  ((s.setTile t { x with flight := x.flight ++ [f], nextId := x.nextId + 1, wrote := [] }).showBusy t).nextWord t

/-- A dispatched word faults in its engine: the tile stops, the word counts as dispatched and PC has passed it; a residue mismatch has been
met (R138, R184, R185). -/
def State.engineFault (s : State) (t source kind inst info : Nat) : State :=
  let s := if source = Source.mxmResidue then s.modTile t (fun x => { x with residue := Tab.set false x.residue info false }) else s
  let pc := s.fget .tpPc t
  ((s.tileStop t source kind inst info).finc .tpDispatched t 1).fset .tpPc t (pc + 1)

/-- The row of a word whose engine does its work at once: its outcome decides between completion in flight, an illegal encoding
and a fault. -/
def State.engineRow (s : State) (t cls op : Nat) (fmtOk : Nat → Bool) (uses : Nat → List (Nat × Nat)) (writes : Bool)
    (work : State → Nat → Eff) : State :=
  s.tileRow t cls op fmtOk uses (fun s w =>
    match work s w with
    | .ok s' => s'.enqueue t w writes true true 0
    | .bad r => s.illegal t r
    | .fail source kind inst info => (if cls = 2 then s.finc .vecIssued t 1 else s).engineFault t source kind inst info)

/-- Signals held by RELEASE leave once no earlier word that writes memory is in flight (R178). -/
def State.releaseN : Nat → State → Nat → State
  | 0, s, _ => s
  | n + 1, s, t =>
    let x := s.tile t
    let ready := x.flight.find? (fun f => f.cls == 5 && !x.flight.any (fun g => g.writes && decide (g.id < f.id)))
    match ready with
    | none => s
    | some f => State.releaseN n ((s.setTile t { x with flight := x.flight.filter (fun g => g.id != f.id) }).sendPacked t f.ref) t

/-- A word of tile t completes: it leaves the tile, its SIG takes effect, held signals leave, and the program may end (R163). -/
def State.completeWord (s : State) (t : Nat) (f : Flight) : State :=
  let s := (s.modTile t (fun x => { x with flight := x.flight.filter (fun g => g.id != f.id) })).showBusy t
  let s := match f.sig with
    | some ev => s.signalTile t ev 1
    | none => s
  (State.releaseN 16 s t).endProgram t

/-- An MXM.FENCE waits for every earlier MXM word (R125). -/
def Tile.fenceHeld (x : Tile) (f : Flight) : Bool :=
  f.cls == 1 && f.op == 4 && x.flight.any (fun g => g.cls == 1 && decide (g.id < f.id))

/-- WORD_COMPLETE (R163): the word of that id, whose engine has done its work, completes; a held signal leaves where no word holds it any
more. -/
def execWordComplete (t id : Nat) (s : State) : Host.Outcome State Fault Refusal :=
  .next (match (s.tile t).flight.find? (fun f => f.id == id) with
    | some f => if f.done && !(s.tile t).fenceHeld f then s.completeWord t f else if f.cls = 5 then State.releaseN 16 s t else s
    | none => s)

/-- SYNC_TIMEOUT (R180): a SYN.WAIT that holds dispatch fails, and the tile stops with REASON 0. -/
def execSyncTimeout (t : Nat) (s : State) : Host.Outcome State Fault Refusal :=
  .next (if s.dispatching t && s.fget .tpState t == TpState.waiting then s.tileFault t Source.syncTimeout 0 0 else s)

end Sys2Proof.Machine
end

