-- ==== Sys2Proof/Machine/Control.lean ====
section
/-!
DEFINITION. The CTL and SYN words, which the control core runs itself (R165, R166, R171 to R175, R178, R180).
-/

namespace Sys2Proof.Machine

/-! ### CTL -/

/-- CTL.NOP (R165). -/
def execCtlNop (t : Nat) (s : State) : Host.Outcome State Fault Refusal :=
  .next (s.tileRow t 0 0 fmtNone (fun _ => []) (fun s _ => s.nextWord t))

/-- CTL.LI (R165): S[D] = IMM. -/
def execCtlLi (t : Nat) (s : State) : Host.Outcome State Fault Refusal :=
  .next (s.tileRow t 0 1 fmtNone (fun _ => [(24, 20), (127, 64)]) (fun s w =>
    (s.modTile t (fun x => x.setSreg (bitsOf w 24 20) (bitsOf w 127 64))).nextWord t))

/-- ALU operations on 64-bit values (R165). -/
def aluOp (op a b : Nat) : Nat :=
  let m := 2 ^ 64
  let sh := b % 64
  match op with
  | 0 => (a + b) % m
  | 1 => (a + m - b % m) % m
  | 2 => a * b % m
  | 3 => Nat.land a b
  | 4 => Nat.lor a b
  | 5 => Nat.xor a b
  | 6 => a * 2 ^ sh % m
  | 7 => a / 2 ^ sh
  | 8 => ofSigned 64 (toSigned 64 a / 2 ^ sh)
  | 9 => min a b
  | 10 => max a b
  | 11 => if a < b then 1 else 0
  | _ => if toSigned 64 a < toSigned 64 b then 1 else 0

/-- CTL.ALU (R165). -/
def execCtlAlu (t : Nat) (s : State) : Host.Outcome State Fault Refusal :=
  .next (s.tileRow t 0 2 fmtNone
    (fun w => if bitOf w 39 then [(29, 20), (39, 35), (95, 64)] else [(39, 20)])
    (fun s w =>
      let x := s.tile t
      let op := bitsOf w 38 35
      if 12 < op then s.illegal t Reason.fieldRange
      else
        let b := if bitOf w 39 then ofSigned 64 (toSigned 32 (bitsOf w 95 64)) else x.sreg (bitsOf w 34 30)
        (s.modTile t (fun x => x.setSreg (bitsOf w 24 20) (aluOp op (x.sreg (bitsOf w 29 25)) b))).nextWord t))

/-- Branch conditions (R165). -/
def brCond (c a b : Nat) : Bool :=
  match c with
  | 0 => true
  | 1 => a == b
  | 2 => a != b
  | 3 => decide (toSigned 64 a < toSigned 64 b)
  | 4 => decide (toSigned 64 b ≤ toSigned 64 a)
  | 5 => decide (a < b)
  | _ => decide (b ≤ a)

/-- Word index k lies in the body of some LOOP word of the program. -/
def Tile.inSomeBody (x : Tile) (k : Nat) : Bool :=
  x.prog.any (fun e =>
    let w := e.2.toNat
    wCls w == 0 && wOp w == 4 && decide (e.1 < k) && decide (k ≤ e.1 + bitsOf w 44 32))

/-- A branch at pc to `target` keeps R174. -/
def Tile.branchOk (x : Tile) (pc target : Nat) : Bool :=
  match x.loops with
  | [] => !x.inSomeBody target
  | l :: _ => decide (l.start ≤ target) && decide (target < l.stop) && (pc + 1 != l.stop || target == l.start)

/-- Fields of BR in use: TARGET only where the branch is direct, A and B only where the condition compares them or the branch is indirect
(R164, R165). -/
def brUses (w : Nat) : List (Nat × Nat) :=
  (24, 20) :: (39, 35) :: ((if bitOf w 39 then [] else [(77, 64)]) ++
    (if bitsOf w 38 35 = 0 then (if bitOf w 39 then [(29, 25)] else []) else [(34, 25)]))

/-- CTL.BR (R165, R174). A taken branch stays within the current iteration, so it ends none. -/
def execCtlBr (t : Nat) (s : State) : Host.Outcome State Fault Refusal :=
  .next (s.tileRow t 0 3 fmtNone brUses (fun s w =>
    let x := s.tile t
    let pc := s.fget .tpPc t
    let a := x.sreg (bitsOf w 29 25)
    let c := bitsOf w 38 35
    let indirect := bitOf w 39
    let target := if indirect then a % 16384 else bitsOf w 77 64
    if 6 < c ∨ (indirect ∧ c ≠ 0) then s.illegal t Reason.fieldRange
    else if !x.branchOk pc target then s.illegal t Reason.branchScope
    else if brCond c a (x.sreg (bitsOf w 34 30)) then
      (s.setTile t ({ x with mods := [], modding := false }.setSreg (bitsOf w 24 20) (pc + 1))).goto t target
    else s.nextWord t))

/-- CTL.LOOP (R172, R173). -/
def execCtlLoop (t : Nat) (s : State) : Host.Outcome State Fault Refusal :=
  .next (s.tileRow t 0 4 fmtNone
    (fun w => if bitOf w 30 then [(24, 20), (31, 30), (44, 32), (95, 64)] else [(31, 20), (44, 32)])
    (fun s w =>
      let x := s.tile t
      let pc := s.fget .tpPc t
      let body := bitsOf w 44 32
      let stop := pc + 1 + body
      let count := if bitOf w 30 then bitsOf w 95 64 else x.sreg (bitsOf w 29 25)
      let strip := bitOf w 31
      if body = 0 ∨ 4096 < body then s.illegal t Reason.fieldRange
      else if 16384 < stop then s.illegal t Reason.pcRange
      else if 4 ≤ x.loops.length || x.loops.any (fun l => decide (l.stop < stop)) then s.illegal t Reason.loopDepth
      else
        let x := if strip then { x with remain := count } else x
        if count = 0 then (s.setTile t x).advance t stop
        else
          let l : Loop := { start := pc + 1, stop := stop, idxReg := bitsOf w 24 20, iter := 0, count := count, strip := strip,
                            remain0 := count }
          (s.setTile t ({ x with loops := l :: x.loops, mods := [], modding := false }.setSreg (bitsOf w 24 20) 0)).goto t (pc + 1)))

/-- The used triples of a MOD word: register, position and width (R165, R175). -/
def modTriples (w : Nat) : List (Nat × Nat × Nat) :=
  ([20, 37, 54].map (fun b => (bitsOf w (b + 4) b, bitsOf w (b + 11) (b + 5), bitsOf w (b + 16) (b + 12) + 1))).filter
    (fun r => r.1 != 0)

/-- The triples lie within bits 127:20 and do not overlap (R175). -/
def triplesOk : List (Nat × Nat × Nat) → Bool
  | [] => true
  | (_, p, n) :: rest =>
    decide (20 ≤ p) && decide (p + n ≤ 128) && rest.all (fun r => decide (p + n ≤ r.2.1) || decide (r.2.1 + r.2.2 ≤ p)) &&
      triplesOk rest

/-- Fields of the triples in use; an unused triple is zero (R164). -/
def modUses (w : Nat) : List (Nat × Nat) :=
  [20, 37, 54].filterMap (fun b => if bitsOf w (b + 4) b = 0 then none else some (b + 16, b))

/-- CTL.MOD (R175). -/
def execCtlMod (t : Nat) (s : State) : Host.Outcome State Fault Refusal :=
  .next (s.tileRow t 0 5 fmtNone modUses (fun s w =>
    if !triplesOk (modTriples w) then s.illegal t Reason.modTarget
    else
      let x := s.tile t
      let ms : List ModAdd := (modTriples w).map (fun r => { pos := r.2.1, width := r.2.2, add := x.sreg r.1 })
      let s := s.nextWord t
      if (s.tile t).live then s.modTile t (fun x => { x with mods := ms, modding := true }) else s))

/-- CTL.VXFER (R165). -/
def execCtlVxfer (t : Nat) (s : State) : Host.Outcome State Fault Refusal :=
  .next (s.tileRow t 0 6 fmtNone
    (fun w => if bitOf w 30 then [(44, 25)] else [(24, 20), (44, 30)])
    (fun s w =>
      let v := bitsOf w 34 31
      let i := bitsOf w 44 35
      (s.modTile t (fun x =>
        if bitOf w 30 then x.setVelem v i (x.sreg (bitsOf w 29 25)) else x.setSreg (bitsOf w 24 20) (x.velem v i))).nextWord t))

/-- Control registers (R166). CR 8 is a free-running counter that R4 does not cover: a free value (log entry 15). -/
def State.ctlReg (s : State) (t cr : Nat) : Nat :=
  let p := (s.partOfTile t).getD 0
  match cr with
  | 0 => (s.tile t).remain
  | 1 => s.numFlags t
  | 2 => t
  | 3 => p
  | 4 => (s.tile t).stepNo
  | 5 => s.fget .turnPolicyVersion p
  | 6 => s.fget .turnLayoutEpoch p
  | 7 => (s.tile t).seed
  | 8 => (s.tile t).cycles
  | _ => s.fget .steepCursor t

/-- Before CR 8 is read, the cycle counter takes a free value (log entry 15). -/
def State.tickCycles (s : State) (t cr : Nat) : State :=
  if cr = 8 then s.free1.2.modTile t (fun x => { x with cycles := s.free1.1 % 2 ^ 64 }) else s

/-- CTL.RDCR (R166). -/
def execCtlRdcr (t : Nat) (s : State) : Host.Outcome State Fault Refusal :=
  .next (s.tileRow t 0 7 fmtNone (fun _ => [(24, 20), (39, 32)]) (fun s w =>
    let cr := bitsOf w 39 32
    if 9 < cr then s.illegal t Reason.fieldRange
    else
      let s := s.tickCycles t cr
      (s.modTile t (fun x => x.setSreg (bitsOf w 24 20) (s.ctlReg t cr))).nextWord t))

/-- CTL.WRCR (R166): bits set in S[A] clear the matching bits of NUM_FLAGS. -/
def execCtlWrcr (t : Nat) (s : State) : Host.Outcome State Fault Refusal :=
  .next (s.tileRow t 0 8 fmtNone (fun _ => [(29, 25), (39, 32)]) (fun s w =>
    if bitsOf w 39 32 ≠ 1 then s.illegal t Reason.fieldRange
    else (s.clearNumFlags t ((s.tile t).sreg (bitsOf w 29 25))).nextWord t))

/-- CTL.END (R159): dispatch stops, and the program ends once every word before it has completed. -/
def execCtlEnd (t : Nat) (s : State) : Host.Outcome State Fault Refusal :=
  .next (s.tileRow t 0 9 fmtNone (fun w => if bitOf w 20 then [(20, 20), (47, 32)] else [(20, 20)]) (fun s w =>
    let s := s.finc .tpDispatched t 1
    (s.modTile t (fun x => { x with ending := true, mods := [], modding := false,
                                    failCode := if bitOf w 20 then some (bitsOf w 47 32) else none })).endProgram t))

/-! ### SYN -/

/-- N of a SYN word (R171). -/
def synCount (x : Tile) (w : Nat) : Nat := if bitOf w 45 then x.sreg (bitsOf w 44 40) % 2 ^ 32 else bitsOf w 95 64

/-- The fields of N in use. -/
def synUses (w : Nat) : List (Nat × Nat) := if bitOf w 45 then [(45, 40)] else [(45, 45), (95, 64)]

/-! ### The steep list (R222) -/

structure SteepE where
  gate : Nat
  ev : Nat
  sig : Bool
  budget : Nat
  desc : BitVec 512

/-- The steep list of tile t as the applied image gives it. -/
def State.steepList (s : State) (t : Nat) : List Byte :=
  (((s.cfgOf t).steeps.find? (fun x => x.1 == t)).map Prod.snd).getD []

def steepCount (bs : List Byte) : Nat := leField bs 3 0

def steepEntry (bs : List Byte) (i : Nat) : SteepE :=
  let e := (bs.drop (16 + 80 * i)).take 80
  { gate := leField e 1 0, ev := leField e 2 2 % 64, sig := bitOf (leField e 3 3) 0, budget := leField e 7 4,
    desc := BitVec.ofNat 512 (leNat (e.drop 16)) }

/-- Cycles, a free number, in which SYN.WAIT on counter ev holds dispatch; they are steep stalls where a SIG entry of the list names the
counter (R181, R226; log entry 133). -/
def State.waits (s : State) (t ev : Nat) : State :=
  let (n, s) := s.free1
  let s := s.finc .tpStallWait t n
  let bs := s.steepList t
  if (List.range (steepCount bs)).any (fun i => (steepEntry bs i).sig && (steepEntry bs i).ev == ev) then s.finc .steepStall t n else s

/-- SYN.WAIT (R171): dispatch is held until EV[EV] is at least N; CONSUME subtracts N. -/
def execSynWait (t : Nat) (s : State) : Host.Outcome State Fault Refusal :=
  .next (s.tileRow t 5 0 fmtNone (fun w => (26, 20) :: synUses w) (fun s w =>
    let n := synCount (s.tile t) w
    let i := 64 * t + bitsOf w 25 20
    if s.fget .ev i < n then (s.waits t (bitsOf w 25 20)).fset .tpState t TpState.waiting
    else (if bitOf w 26 then s.fset .ev i (s.fget .ev i - n) else s).nextWord t))

/-- SYN.SIGNAL (R171, R178, R179). -/
def execSynSignal (t : Nat) (s : State) : Host.Outcome State Fault Refusal :=
  .next (s.tileRow t 5 1 fmtNone
    (fun w => (25, 20) :: (31, 28) :: (39, 39) :: ((if bitsOf w 31 28 = 0 then [] else [(38, 32)]) ++ synUses w))
    (fun s w =>
      let x := s.tile t
      let target := bitsOf w 31 28
      let index := bitsOf w 38 32
      let ev := bitsOf w 25 20
      let n := synCount x w
      let p := (s.partOfTile t).getD 12
      if 2 < target ∨ (target = 2 ∧ 15 < ev) then s.illegal t Reason.fieldRange
      else if target = 1 && !s.mapped index then s.tileStop t Source.addrUnmapped Kind.tile t index
      else if target = 1 && !s.holds p (index / 8) || target = 2 && !s.holds p index then
        s.tileStop t Source.partitionViolation Kind.tile t index
      else if bitOf w 39 && x.flight.any (fun f => f.writes) then
        s.enqueue t w false true false (packSignal target index ev n)
      else (s.sendSignal t target index ev n).nextWord t))

/-- SYN.FENCE (R171): dispatch is held until every earlier word of each marked class has completed. -/
def execSynFence (t : Nat) (s : State) : Host.Outcome State Fault Refusal :=
  .next (s.tileRow t 5 2 fmtNone (fun _ => [(39, 33)]) (fun s w =>
    if (s.tile t).flight.any (fun f => bitOf w (32 + f.cls)) then s else s.nextWord t))

end Sys2Proof.Machine
end

