-- ==== Sys2Proof/Machine/Vector.lean ====
section
/-!
DEFINITION. The vector engine and the VEC words (R141 to R154, R169).
-/

namespace Sys2Proof.Machine

def wVd (w : Nat) : Nat := bitsOf w 23 20
def wVa (w : Nat) : Nat := bitsOf w 27 24
def wVb (w : Nat) : Nat := bitsOf w 31 28
def wVc (w : Nat) : Nat := bitsOf w 35 32

/-- Register bits of an encoding in an operation format: the exact FP32 value, or the INT32 bits (R145). -/
def regBits (fmt code : Nat) : Nat :=
  if fmt = 0 ∨ fmt = 7 then code else (FFmt.fp32.ofVal ((fmtLayout fmt).decode code)).bits

/-- Operation formats of the element-wise operations (*Vector operations*). -/
def fmtArith (f : Nat) : Bool := f == 0 || f == 1 || f == 2
def fmtArithInt (f : Nat) : Bool := fmtArith f || f == 7
def fmtAny (f : Nat) : Bool := decide (f ≤ 8)

/-- Operand element i of a register: element 0 under BCAST, its sign flipped under NEG (R146). -/
def Tile.operand (x : Tile) (v i : Nat) (neg bcast : Bool) : Nat :=
  let a := x.velem v (if bcast then 0 else i)
  if neg then f32neg a else a

/-- Write the first elements of VD from a list. -/
def Tile.setElems (x : Tile) (v : Nat) : Nat → List Nat → Tile
  | _, [] => x
  | i, a :: as => Tile.setElems (x.setVelem v i a) v (i + 1) as

/-- Write the first bits of a mask from a list. -/
def Tile.setMask (x : Tile) (m : Nat) : Nat → List Bool → Tile
  | _, [] => x
  | i, a :: as => Tile.setMask (x.setMaskBit m i a) m (i + 1) as

/-- Signed comparison of INT32 bits. -/
def i32lt (a b : Nat) : Bool := decide (toSigned 32 a < toSigned 32 b)

/-- One element of ADD, MUL, FMA, MIN and MAX: register bits and flags (R145, R147). -/
def vecElem (op fmt a b c : Nat) : Rnd :=
  let f := fmtLayout fmt
  let x := f32 a
  let y := f32 b
  let out (r : Rnd) : Rnd := ⟨regBits fmt r.bits, r.fl⟩
  if fmt = 7 then
    match op with
    | 1 => i32add a b
    | 4 => ⟨if i32lt b a then b else a, 0⟩
    | _ => ⟨if i32lt a b then b else a, 0⟩
  else
    match op with
    | 1 => out (f.add x y)
    | 2 => out (f.mul x y)
    | 3 => out (f.fma x y (f32 c))
    | 4 => out (f.minMax false x y)
    | _ => out (f.minMax true x y)

/-- Raise flags of the vector engine and count the instruction (R154). -/
def State.vecDone (s : State) (t fl : Nat) : State := (s.flagVector t fl).finc .vecIssued t 1

/-- Fields of the two-operand operations, and of FMA with its third operand (R169). -/
def vecUses2 (_ : Nat) : List (Nat × Nat) := [(31, 20), (42, 41), (44, 44)]
def vecUses3 (_ : Nat) : List (Nat × Nat) := [(35, 20), (45, 41)]

/-- NEG never goes with FMT 7 (R169, reason MODE). -/
def negOk (w : Nat) : Bool := wFmt w != 7 || bitsOf w 43 41 == 0

/-- Element-wise operations ADD, MUL, FMA, MIN and MAX on elements below VL (R143, R146). -/
def State.vecArith (s : State) (t w : Nat) : Eff :=
  if !negOk w then .bad Reason.mode
  else
    let x := s.tile t
    let vl := s.fget .vecVl t
    let rs := (List.range vl).map (fun i =>
      vecElem (wOp w) (wFmt w) (x.operand (wVa w) i (bitOf w 41) false) (x.operand (wVb w) i (bitOf w 42) (bitOf w 44))
        (x.operand (wVc w) i (bitOf w 43) (bitOf w 45)))
    .ok ((s.setTile t (x.setElems (wVd w) 0 (rs.map (fun r => r.bits)))).vecDone t (rs.foldl (fun f r => f ||| r.fl) 0))

/-- VEC.SETVL (R142): VL = min(n, 1024) and REMAIN the rest of the 32-bit count n. -/
def execVecSetvl (t : Nat) (s : State) : Host.Outcome State Fault Refusal :=
  .next (s.engineRow t 2 0 fmtNone
    (fun w => (49, 48) :: (if bitsOf w 49 48 = 0 then [(127, 96)] else if bitsOf w 49 48 = 1 then [(54, 50)] else []))
    false (fun s w =>
      let x := s.tile t
      let src := bitsOf w 49 48
      if src = 3 then .bad Reason.fieldRange
      else
        let n := (if src = 0 then bitsOf w 127 96 else if src = 1 then x.sreg (bitsOf w 54 50) else x.remain) % 2 ^ 32
        .ok (((s.setTile t { x with remain := n - min n 1024 }).fset .vecVl t (min n 1024)).vecDone t 0)))

/-- VEC.ADD (R146). -/
def execVecAdd (t : Nat) (s : State) : Host.Outcome State Fault Refusal :=
  .next (s.engineRow t 2 1 fmtArithInt vecUses2 false (fun s w => s.vecArith t w))

/-- VEC.MUL (R146). -/
def execVecMul (t : Nat) (s : State) : Host.Outcome State Fault Refusal :=
  .next (s.engineRow t 2 2 fmtArith vecUses2 false (fun s w => s.vecArith t w))

/-- VEC.FMA (R146). -/
def execVecFma (t : Nat) (s : State) : Host.Outcome State Fault Refusal :=
  .next (s.engineRow t 2 3 fmtArith vecUses3 false (fun s w => s.vecArith t w))

/-- VEC.MIN (R147). -/
def execVecMin (t : Nat) (s : State) : Host.Outcome State Fault Refusal :=
  .next (s.engineRow t 2 4 fmtArithInt vecUses2 false (fun s w => s.vecArith t w))

/-- VEC.MAX (R147). -/
def execVecMax (t : Nat) (s : State) : Host.Outcome State Fault Refusal :=
  .next (s.engineRow t 2 5 fmtArithInt vecUses2 false (fun s w => s.vecArith t w))

/-- One comparison: the mask bit and the flags (R148). -/
def vecCmp (fmt pred a b : Nat) : Bool × Nat :=
  if fmt = 7 then (Val.pred pred (Val.ofInt (toSigned 32 a)) (Val.ofInt (toSigned 32 b)), 0)
  else (Val.pred pred (f32 a) (f32 b), sigFlag [f32 a, f32 b])

/-- VEC.CMP (R148). -/
def execVecCmp (t : Nat) (s : State) : Host.Outcome State Fault Refusal :=
  .next (s.engineRow t 2 6 fmtArithInt (fun w => (40, 36) :: vecUses2 w) false (fun s w =>
    if !negOk w then .bad Reason.mode
    else
      let x := s.tile t
      let rs := (List.range (s.fget .vecVl t)).map (fun i =>
        vecCmp (wFmt w) (bitsOf w 40 38) (x.operand (wVa w) i (bitOf w 41) false) (x.operand (wVb w) i (bitOf w 42) (bitOf w 44)))
      .ok ((s.setTile t (x.setMask (bitsOf w 37 36) 0 (rs.map Prod.fst))).vecDone t (rs.foldl (fun f r => f ||| r.2) 0))))

/-- VEC.SEL (R146, R148): bits are copied, and no flag is raised. -/
def execVecSel (t : Nat) (s : State) : Host.Outcome State Fault Refusal :=
  .next (s.engineRow t 2 7 fmtAny (fun _ => [(31, 20), (37, 36), (44, 44)]) false (fun s w =>
    let x := s.tile t
    let rs := (List.range (s.fget .vecVl t)).map (fun i =>
      if x.maskBit (bitsOf w 37 36) i then x.velem (wVa w) i else x.operand (wVb w) i false (bitOf w 44))
    .ok ((s.setTile t (x.setElems (wVd w) 0 rs)).vecDone t 0)))

/-- VEC.EST (R150). -/
def execVecEst (t : Nat) (s : State) : Host.Outcome State Fault Refusal :=
  .next (s.engineRow t 2 8 fmtNone (fun _ => [(27, 20), (40, 38)]) false (fun s w =>
    let x := s.tile t
    if 3 < bitsOf w 40 38 then .bad Reason.fieldRange
    else
      let rs := (List.range (s.fget .vecVl t)).map (fun i => estimate (bitsOf w 40 38) (f32 (x.velem (wVa w) i)))
      .ok ((s.setTile t (x.setElems (wVd w) 0 (rs.map (fun r => r.bits)))).vecDone t (rs.foldl (fun f r => f ||| r.fl) 0))))

/-- Fold elements below VL over the tree of R45 with an operation of FMT, into element 0 of VD (R149); a NaN is the canonical
one, also of one element (R79). -/
def State.vecReduce (s : State) (t w op : Nat) : Eff :=
  let x := s.tile t
  let vl := s.fget .vecVl t
  if vl = 0 then .ok (s.vecDone t 0)
  else
    let r := treeFold (fun a b : Rnd => let c := vecElem op (wFmt w) a.bits b.bits 0; ⟨c.bits, c.fl ||| a.fl ||| b.fl⟩) ⟨0, 0⟩
      ((List.range vl).map (fun i => ⟨x.velem (wVa w) i, 0⟩))
    let bits := if wFmt w != 7 && f32isNan r.bits then f32nan else r.bits
    .ok ((s.setTile t (x.setVelem (wVd w) 0 bits)).vecDone t r.fl)

/-- VEC.RSUM (R149). -/
def execVecRsum (t : Nat) (s : State) : Host.Outcome State Fault Refusal :=
  .next (s.engineRow t 2 9 fmtArithInt (fun _ => [(27, 20)]) false (fun s w => s.vecReduce t w 1))

/-- VEC.RMAX (R149). -/
def execVecRmax (t : Nat) (s : State) : Host.Outcome State Fault Refusal :=
  .next (s.engineRow t 2 10 fmtArithInt (fun _ => [(27, 20)]) false (fun s w => s.vecReduce t w 5))

/-- Register bits of one loaded element: exact values, NaNs with sign and payload, INT32 as bits (R151). -/
def loadBits (fmt code scale : Nat) : Rnd :=
  match fmt with
  | 0 => ⟨code, 0⟩
  | 7 => ⟨code, 0⟩
  | 1 => ⟨code * 65536, 0⟩
  | 2 =>
    match FFmt.fp16.decode code with
    | .nan _ => ⟨bitsOf code 15 15 * 2 ^ 31 + FFmt.fp32.infBits + bitsOf code 9 0 * 2 ^ 13, 0⟩
    | v => ⟨(FFmt.fp32.ofVal v).bits, 0⟩
  | _ =>
    let (v, fl) := decodeElem fmt code scale
    let r := FFmt.fp32.ofVal v
    ⟨r.bits, r.fl ||| fl⟩

/-- VEC.LD (R151). -/
def execVecLd (t : Nat) (s : State) : Host.Outcome State Fault Refusal :=
  .next (s.engineRow t 2 11 (fun f => decide (f ≤ 7))
    (fun w => (23, 20) :: (83, 64) :: (if fmtScaled (wFmt w) then [(103, 84)] else [])) false (fun s w =>
      let x := s.tile t
      let f := wFmt w
      let vl := s.fget .vecVl t
      let a := bitsOf w 83 64
      let sc := bitsOf w 103 84
      s.guard t Req.vector [] [(64 * a, fmtBytes f vl, false), (64 * sc, if fmtScaled f then 2 * ceilDiv vl 64 else 0, false)] (fun _ =>
        let rs := (List.range vl).map (fun i =>
          loadBits f (s.elem f (wordAddr t a) i) (if fmtScaled f then s.spNat t (64 * sc + 2 * (i / 64)) 2 else 0))
        .ok ((s.setTile t (x.setElems (wVd w) 0 (rs.map (fun r => r.bits)))).vecDone t (rs.foldl (fun f r => f ||| r.fl) 0)))))

/-- VEC.ST (R151): elements are FP32 values, converted under R94 with round to nearest even (log entry 16). -/
def execVecSt (t : Nat) (s : State) : Host.Outcome State Fault Refusal :=
  .next (s.engineRow t 2 12 fmtArithInt (fun _ => [(27, 24), (83, 64)]) true (fun s w =>
    let x := s.tile t
    let f := wFmt w
    let vl := s.fget .vecVl t
    let a := bitsOf w 83 64
    s.guard t Req.vector [] [(64 * a, fmtBytes f vl, true)] (fun _ =>
      let cs := (List.range vl).map (fun i => convElem f (f32 (x.velem (wVa w) i)) 0 none)
      .ok ((s.spWrite t (64 * a) (packElems f 0 (cs.map (fun c => c.code)))).vecDone t (cs.foldl (fun f c => f ||| c.fl) 0)))))

end Sys2Proof.Machine
end

