-- ==== Sys2Proof/Machine/Bank.lean ====
section
/-!
DEFINITION. The bank-side units and the BNK words (R192 to R197).
-/

namespace Sys2Proof.Machine

def bTreg (w : Nat) : Nat := bitsOf w 25 21
def bDstFmt (w : Nat) : Nat := bitsOf w 29 26
def bDst (w : Nat) : Nat := bitsOf w 51 32
def bSrc (w : Nat) : Nat := bitsOf w 83 64
def bCount (w : Nat) : Nat := bitsOf w 127 96
def bGrad (w : Nat) : Bool := bitOf w 20

/-- Every field of *Engine word fields* for BNK. -/
def bnkUses (_ : Nat) : List (Nat × Nat) := [(29, 20), (51, 32), (83, 64), (127, 96)]

/-- Format pairs of ADD, MAX and SADD (*Bank-side operations*). -/
def bankPair (op src dst : Nat) : Bool :=
  (fmtArith src && dst == 0) || (op == 0 && src == 0 && dst == 8) || (op != 2 && src == 7 && dst == 7)

/-- Two byte ranges share no byte. -/
def disjoint (a m b n : Nat) : Bool := decide (a + m ≤ b) || decide (b + n ≤ a)

/-- COUNT's range and its multiple of 64 for scaled formats (R194). -/
def countOk (w : Nat) : Bool :=
  decide (1 ≤ bCount w) && decide (bCount w ≤ 16777215) &&
    (!(fmtScaled (wFmt w) || fmtScaled (bDstFmt w)) || bCount w % 64 == 0)

/-- Source and destination ranges are disjoint, or identical where `same` allows it (R194). -/
def rangesOk (w : Nat) (same : Bool) : Bool :=
  let m := fmtBytes (wFmt w) (bCount w)
  let n := fmtBytes (bDstFmt w) (bCount w)
  disjoint (64 * bSrc w) m (64 * bDst w) n || (same && bSrc w == bDst w && m == n)

/-- TREG names a register pair (R195). -/
def tregOk (w : Nat) : Bool := decide (1 ≤ bTreg w) && decide (bTreg w ≤ 30)

/-- Write `codes` to the destination, raise flags and count the words written back (R197, R208). -/
def State.bankPut (s : State) (t w : Nat) (codes : List Nat) (fl : Nat) : State :=
  let n := fmtBytes (bDstFmt w) (bCount w)
  let last := (Mem.byte s.dev (wordAddr t (bDst w) + n - 1)).toNat
  let s := s.spWrite t (64 * bDst w) (packElems (bDstFmt w) last codes)
  ((s.flagBank t fl).flagGrad t fl (bGrad w)).finc .spBankside t (ceilDiv n 64)

/-- Element i of the source and of the destination, as encodings. -/
def State.bankSrc (s : State) (t w i : Nat) : Nat := s.elem (wFmt w) (wordAddr t (bSrc w)) i
def State.bankDst (s : State) (t w i : Nat) : Nat := s.elem (bDstFmt w) (wordAddr t (bDst w)) i

/-- One element of ADD, MAX and SADD: new destination encoding and flags. -/
def bankElem (op src dst scale d c : Nat) : Nat × Nat :=
  let v := (decodeElem src c 0).1
  if dst = 8 then
    let (h, l, fl) := pairAdd (d % 2 ^ 32) (d / 2 ^ 32) c
    let (v, f2) := pairVal h l
    let (h, l, f3) := pairOfVal v
    (h + l * 2 ^ 32, fl ||| f2 ||| f3)
  else if dst = 7 then
    if op = 0 then let r := i32add d c; (r.bits, r.fl)
    else (if i32lt d c then c else d, 0)
  else
    let r := match op with
      | 0 => FFmt.fp32.add (f32 d) v
      | 1 => FFmt.fp32.minMax true (f32 d) v
      | _ => FFmt.fp32.fma (f32 scale) v (f32 d)
    (r.bits, r.fl)

/-- ADD, MAX and SADD over their range, in ascending order (R193, R197). -/
def State.bankArith (s : State) (t w op : Nat) : Eff :=
  let n := bCount w
  s.guard t Req.control
    [(bankPair op (wFmt w) (bDstFmt w), Reason.badFormat), (countOk w, Reason.fieldRange),
     (if op = 2 then tregOk w else bTreg w == 0, Reason.fieldRange), (rangesOk w true, Reason.fieldRange)]
    [(64 * bSrc w, fmtBytes (wFmt w) n, false), (64 * bDst w, fmtBytes (bDstFmt w) n, false), (64 * bDst w, fmtBytes (bDstFmt w) n, true)]
    (fun _ =>
      let scale := (s.tile t).sreg (bTreg w) % 2 ^ 32
      let rs := (List.range n).map (fun i => bankElem op (wFmt w) (bDstFmt w) scale (s.bankDst t w i) (s.bankSrc t w i))
      .ok (s.bankPut t w (rs.map Prod.fst) (rs.foldl (fun f r => f ||| r.2) 0)))

/-- BNK.ADD (R193). -/
def execBnkAdd (t : Nat) (s : State) : Host.Outcome State Fault Refusal :=
  .next (s.engineRow t 4 0 fmtArithInt bnkUses true (fun s w => s.bankArith t w 0))

/-- BNK.MAX (R193). -/
def execBnkMax (t : Nat) (s : State) : Host.Outcome State Fault Refusal :=
  .next (s.engineRow t 4 1 fmtArithInt bnkUses true (fun s w => s.bankArith t w 1))

/-- BNK.SADD (R193). -/
def execBnkSadd (t : Nat) (s : State) : Host.Outcome State Fault Refusal :=
  .next (s.engineRow t 4 2 fmtArith bnkUses true (fun s w => s.bankArith t w 2))

/-- BNK.WIDEN (R84, R193, R195). -/
def execBnkWiden (t : Nat) (s : State) : Host.Outcome State Fault Refusal :=
  .next (s.engineRow t 4 3 (fun f => decide (3 ≤ f) && decide (f ≤ 6)) bnkUses true (fun s w =>
    let n := bCount w
    let src := wFmt w
    let dst := bDstFmt w
    let ctx := (s.tile t).sreg (bTreg w)
    let sp := bitsOf ctx 19 0
    let dp := bitsOf ctx 39 20
    let blocks := if fmtScaled src then 2 * (n / 64) else 0
    let planes := if fmtScaled dst then 2 * (n / 64) else 0
    s.guard t Req.control
      [(widenLegal src dst, Reason.badFormat), (countOk w, Reason.fieldRange),
       (if fmtScaled src then tregOk w && bitsOf ctx 63 40 == 0 else bTreg w == 0, Reason.fieldRange),
       (rangesOk w false, Reason.fieldRange)]
      [(64 * bSrc w, fmtBytes src n, false), (64 * sp, blocks, false), (64 * bDst w, fmtBytes dst n, true), (64 * dp, planes, true)]
      (fun _ =>
        let rs := (List.range n).map (fun i =>
          widenElem src dst (s.bankSrc t w i) (if fmtScaled src then s.spNat t (64 * sp + 2 * (i / 64)) 2 else 0))
        let scales := s.spRead t (64 * sp) planes
        .ok (((s.bankPut t w (rs.map Prod.fst) (rs.foldl (fun f r => f ||| r.2) 0)).spWrite t (64 * dp) scales).finc .spBankside t
          (ceilDiv planes 64)))))

/-- Source elements of CONVERT and RMAXCAP for a tensor of row length `rowLen`, with their indices and blocks (R97, R196). -/
def State.bankElems (s : State) (t w rowLen base : Nat) : List SrcElem :=
  (List.range (bCount w)).map (fun i =>
    let e := runElem (bDstFmt w) rowLen base i
    (e.1, e.2, (decodeElem (wFmt w) (s.bankSrc t w i) 0).1))

/-- The flags that decoding the source raises (R105). -/
def State.bankDecodes (s : State) (t w : Nat) : Nat :=
  (List.range (bCount w)).foldl (fun f i => f ||| (decodeElem (wFmt w) (s.bankSrc t w i) 0).2) 0

/-- Source formats of CONVERT and RMAXCAP. -/
def fmtConvSrc (f : Nat) : Bool := f == 0 || f == 1 || f == 2 || f == 7 || f == 8

/-- BNK.CONVERT (R94 to R103, R196). -/
def execBnkConvert (t : Nat) (s : State) : Host.Outcome State Fault Refusal :=
  .next (s.engineRow t 4 4 fmtConvSrc bnkUses true (fun s w =>
    let n := bCount w
    let dst := bDstFmt w
    let ctx := (s.tile t).drainCtx (bTreg w)
    let tn := (s.cfgOf t).tensor ctx.tensor
    let base := ctx.row0 * tn.rowLen + ctx.col0
    let data := fmtBytes dst n
    let plane := bDst w + ceilDiv data 64
    s.guard t Req.control
      [(decide (dst ≤ 8) && dst != 7, Reason.badFormat), (countOk w, Reason.fieldRange), (tregOk w, Reason.fieldRange),
       (ctx.zeroOk, Reason.fieldRange), (rangesOk w false, Reason.fieldRange), (tn.rowLen != 0, Reason.fieldRange)]
      ([(64 * bSrc w, fmtBytes (wFmt w) n, false), (64 * bDst w, data, true), (64 * plane, if fmtScaled dst then 2 * (n / 64) else 0, true)] ++
        recRanges (64 * ctx.record) dst tn.rowLen base n)
      (fun _ =>
        let a := wordAddr t ctx.record
        let c := s.convert a dst (s.tile t).seed (s.stepWord t) tn (s.bankElems t w tn.rowLen base)
        let s := s.bankPut t w c.codes (c.fl ||| s.bankDecodes t w)
        let s :=
          if fmtScaled dst then
            (s.spWrite t (64 * plane) ((planeScales (n / 64) c.scales).flatMap (leBytes 2))).finc .spBankside t (ceilDiv (2 * (n / 64)) 64)
          else s
        .ok ((s.recCapture a c.maxima).recClose a c.sats c.immediate))))

/-- BNK.RMAXCAP (R196): captures block maxima and sets VALID; nothing else is written. -/
def execBnkRmaxcap (t : Nat) (s : State) : Host.Outcome State Fault Refusal :=
  .next (s.engineRow t 4 5 fmtConvSrc bnkUses true (fun s w =>
    let n := bCount w
    let dst := bDstFmt w
    let ctx := (s.tile t).drainCtx (bTreg w)
    let tn := (s.cfgOf t).tensor ctx.tensor
    let base := ctx.row0 * tn.rowLen + ctx.col0
    s.guard t Req.control
      [(decide (dst ≤ 8), Reason.badFormat), (countOk w, Reason.fieldRange), (tregOk w, Reason.fieldRange),
       (ctx.zeroOk, Reason.fieldRange), (bDst w == 0, Reason.fieldRange), (tn.rowLen != 0, Reason.fieldRange)]
      ((64 * bSrc w, fmtBytes (wFmt w) n, false) :: recRanges (64 * ctx.record) dst tn.rowLen base n)
      (fun _ => .ok ((s.recCapture (wordAddr t ctx.record) (blockMaxima (s.bankElems t w tn.rowLen base))).flagBank t (s.bankDecodes t w)))))

end Sys2Proof.Machine
end

