-- ==== Sys2Proof/Machine/Lauter.lean ====
section
/-!
DEFINITION. The lauter: thinning of a drained tile into sparse records and residue (R129, R283 to R291).
-/

namespace Sys2Proof.Machine

/-- k of the THIN field (R286). -/
def thinK (thin : Nat) : Nat := if thin = 1 then 256 else if thin = 2 then 64 else 16

/-- Words of a sparse record of k pairs (R287). -/
def recordWords (k : Nat) : Nat := ceilDiv (16 + 4 * k) 64

/-- A lauter context as read when the drain starts (*Lauter context*). -/
structure LautCtx where
  resBase : Nat
  outBase : Nat
  slot : Nat
  flags : Nat
  lastStep : Nat
  sent : Nat
  ok : Bool

def State.lautCtx (s : State) (t w : Nat) : LautCtx :=
  let bs := s.spRead t (64 * w) 64
  { resBase := leField bs 3 0, outBase := leField bs 7 4, slot := leField bs 8 8, flags := leField bs 9 9,
    lastStep := leField bs 23 16, sent := leField bs 31 24,
    ok := leField bs 15 10 == 0 && leField bs 63 32 == 0 && decide (leField bs 8 8 < 32) && decide (leField bs 9 9 < 2) }

/-- The stored residue is used (R285). -/
def State.residueUsed (s : State) (t : Nat) (c : LautCtx) (n : Nat) : Bool :=
  bitOf c.flags 0 && decide (c.lastStep ≤ n) && decide (n ≤ c.lastStep + 63) &&
    (c.lastStep == n || !bitOf (s.fget .lauOvf t) (c.lastStep % 64))

/-- 2^e as a value. -/
def powTwo (e : Int) : Val := .fin false 1 e

/-- Scale FP32 bits by 2^e, rounded once. -/
def f32scale (a : Nat) (e : Int) : Rnd := FFmt.fp32.mul (f32 a) (powTwo e)

/-- Entry i comes before entry j in the order of R286. -/
def lautBefore (a b : Nat × Nat) : Bool :=
  decide (b.1 % 2 ^ 31 < a.1 % 2 ^ 31) || (a.1 % 2 ^ 31 == b.1 % 2 ^ 31 && decide (a.2 ≤ b.2))

/-- Indices of the k entries sent, ascending (R286). -/
def lautSent (k : Nat) (as : List Nat) : List Nat :=
  orderedBy (fun a b => decide (a ≤ b)) (((orderedBy lautBefore as.zipIdx).take k).map Prod.snd)

/-- Thin one lauter tile: the sent pairs (index, v), the new residue and the flags (R285 to R288). -/
def lautTile (k vfmt : Nat) (e : Int) (xs rs : List Nat) : List (Nat × Nat) × List Nat × Nat :=
  let sums := (xs.zip rs).map (fun p =>
    let sc := f32scale p.2 e
    let a := f32add p.1 sc.bits
    (a.bits, sc.fl ||| a.fl))
  let as := sums.map Prod.fst
  let sent := lautSent k as
  let pairs := sent.map (fun i => (i, (fmtLayout vfmt).ofVal (f32 (as.getD i 0))))
  let rest := as.zipIdx.map (fun p =>
    match pairs.find? (fun q => q.1 == p.2) with
    | some (_, v) =>
      match (fmtLayout vfmt).decode v.bits with
      | .fin neg m d =>
        let d := FFmt.fp32.add (f32 p.1) (Val.negate (.fin neg m d))
        let r := f32scale d.bits (-e)
        (r.bits, d.fl ||| r.fl)
      | _ => (0, 0)
    | none => let r := f32scale p.1 (-e); (r.bits, r.fl))
  (pairs.map (fun p => (p.1, p.2.bits)), rest.map Prod.fst,
   sums.foldl (fun f x => f ||| x.2) 0 ||| pairs.foldl (fun f x => f ||| x.2.fl) 0 ||| rest.foldl (fun f x => f ||| x.2) 0)

/-- Bytes of a sparse record (R287). -/
def sparseBytes (tensor k shape vfmt ltile : Nat) (pairs : List (Nat × Nat)) : List Byte :=
  let body := leBytes 2 tensor ++ leBytes 2 k ++ leBytes 1 shape ++ leBytes 1 vfmt ++ leBytes 2 0 ++ leBytes 4 ltile ++
    leBytes 4 0 ++ pairs.flatMap (fun p => leBytes 2 p.1 ++ leBytes 2 p.2)
  body ++ List.replicate (64 * recordWords k - body.length) 0

/-- Lauter tile number of the tile whose first element is (r, c) (R284). -/
def lautNumber (split : Bool) (rowLen r c : Nat) : Nat :=
  if split then r / 64 * (rowLen / 64) + c / 64 else r / 32 * (rowLen / 128) + c / 128

/-- E of a slot in force for the running learn step, as it stood at the slot's first drain of the step (R109, R285). -/
def State.stepExp (s : State) (t slot : Nat) : Int × State :=
  let key := 32 * (t / 8) + slot
  let now := s.fget .ketSlotE key
  match s.partOfTile t with
  | none => ((now : Int), s)
  | some p =>
    match ((s.part p).step.map LearnStep.exps).bind (fun m => Tab.get none m key) with
    | some e => ((e : Int), s)
    | none =>
      ((now : Int), s.modPart p (fun x => { x with step := x.step.map (fun st => { st with exps := Tab.set none st.exps key (some now) }) }))

/-- Thin the lauter tiles of a drain in order. `xs` are the drained FP32 values in drain order. -/
def State.thinTiles (s : State) (t : Nat) (split : Bool) (tn : Tensor) (c : LautCtx) (use : Bool) (row0 col0 : Nat) (e : Int)
    (grad : Bool) : List Nat → Nat → Nat → State
  | _, _, 0 => s
  | xs, j, n + 1 =>
    let k := thinK tn.thin
    let res := c.resBase + 256 * j
    let rs := if use then (List.range 4096).map (fun i => s.spNat t (64 * res + 4 * i) 4) else List.replicate 4096 0
    let (pairs, rest, fl) := lautTile k tn.store e (xs.take 4096) rs
    let number := lautNumber split tn.rowLen (row0 + (if split then 64 else 32) * j) col0
    let s := s.spWrite t (64 * (c.outBase + j * recordWords k)) (sparseBytes tn.id k (bitNat split) tn.store number pairs)
    let s := s.spWrite t (64 * res) (rest.flatMap (leBytes 4))
    let s := ((s.flagMatrix t fl).flagGrad t fl grad).finc .lauTiles t 1
    State.thinTiles s t split tn c use row0 col0 e grad (xs.drop 4096) (j + 1) n

/-- A thinned drain (R129, R284 to R288): `dest` is the context's word offset and `xs` the drained values. -/
def State.thinDrain (s : State) (t : Nat) (split : Bool) (tn : Tensor) (dest row0 col0 : Nat) (grad : Bool) (xs : List Nat) :
    Eff :=
  let c := s.lautCtx t dest
  let n := (s.tile t).stepNo
  let count := xs.length / 4096
  let cfg := s.cfgOf t
  let use := s.residueUsed t c n
  let rw := recordWords (thinK tn.thin)
  if !c.ok then .bad Reason.descriptor
  else if !(cfg.inPool t 3 (64 * c.resBase) (16384 * count) && cfg.inPool t 5 (64 * c.outBase) (64 * rw * count)) then
    .fail Source.poolViolation Kind.tile t (64 * dest)
  else
    match s.spFaults t [(64 * c.resBase, if use then 16384 * count else 0, false)] with
    | some e => e
    | none =>
      let (e, s) := s.stepExp t c.slot
      let s := s.thinTiles t split tn c use row0 col0 e grad xs 0 count
      let s := s.spWrite t (64 * dest + 9) (leBytes 1 1)
      let s := s.spWrite t (64 * dest + 16) (leBytes 8 n)
      .ok (s.spWrite t (64 * dest + 24) (leBytes 8 (min (c.sent + count * thinK tn.thin) (2 ^ 64 - 1))))

end Sys2Proof.Machine
end

