-- ==== Sys2Proof/Machine/Matrix.lean ====
section
/-!
DEFINITION. The matrix engine and the MXM words (R83 to R92, R110 to R139, R167, R168).
-/

namespace Sys2Proof.Machine

/-! ### Array modes and sizes (R111, R118, R122, R123) -/

inductive Mode where
  | full | split | m40
  deriving DecidableEq, Repr

def State.mode (s : State) (t : Nat) : Mode :=
  match Tab.get 0 (s.cfgOf t).modes t with
  | 1 => .split
  | 2 => .m40
  | _ => .full

def Mode.isSplit : Mode → Bool
  | .split => true
  | _ => false

/-- Output columns. -/
def Mode.cols (m : Mode) : Nat := if m.isSplit then 64 else 128

/-- Contraction depth of a full block (*Cell work per operand format*). -/
def Mode.depth (m : Mode) (fmt : Nat) : Nat :=
  m.cols * (if fmt = 3 ∨ fmt = 5 then 2 else if fmt = 4 ∨ fmt = 6 then 4 else 1)

/-- Units of an output row (*Accumulator row sizes*). -/
def Mode.units (m : Mode) (acc : Nat) : Nat := (if m.isSplit then 1 else 2) * (if acc = 8 then 2 else 1)

/-- Bytes of one accumulator element. -/
def accBytes (acc : Nat) : Nat := if acc = 8 then 8 else 4

/-- Operand formats (R83). -/
def fmtOperand (f : Nat) : Bool := decide (f ≤ 6)

/-! ### Stationary buffers (R112, R113) -/

/-- Base of buffer i of sub-array q of tile t in the stationary store. -/
def statBase (t q i : Nat) : Nat := 2 ^ 19 * t + 2 ^ 17 * q + 2 ^ 16 * i

/-- Offset of a buffer's scales, which follow its 32 KiB of narrow elements. -/
def statScales : Nat := 32768

/-- Element i of a packed sequence of format f at byte address a of a memory. -/
def Mem.elem (m : Mem) (f a i : Nat) : Nat :=
  if fmtBits f = 4 then
    let b := (Mem.byte m (a + i / 2)).toNat
    if i % 2 = 0 then b % 16 else b / 16
  else Mem.readNat m (a + i * (fmtBits f / 8)) (fmtBits f / 8)

/-- FRONT of sub-array q is this physical buffer. -/
def Tile.frontIdx (x : Tile) (q : Nat) : Nat := bitNat (Tab.get false x.front q)

/-- Write one column of a block, elements packed from byte address a. -/
def Mem.putColumn (m : Mem) (f a : Nat) (codes : List Nat) : Mem :=
  let n := fmtBytes f codes.length
  Mem.write m a (packElems f (Mem.byte m (a + n - 1)).toNat codes)

/-- Load a stationary block (R112, R113): column n at byte offset n K (element bits) / 8, cells beyond the block's depth keep
their contents (log entry 17). -/
def State.loadBlock (s : State) (t q i fmt depth src scaleSrc : Nat) : State :=
  let m := s.mode t
  let full := m.depth fmt
  let base := statBase t q i
  let stat := (List.range m.cols).foldl (fun st n =>
    let codes := (List.range depth).map (fun k => s.elem fmt (wordAddr t src) (n * depth + k))
    let st := Mem.putColumn st fmt (base + n * full * fmtBits fmt / 8) codes
    if fmtScaled fmt then
      Mem.write st (base + statScales + 2 * (n * (full / 64))) (s.spRead t (64 * scaleSrc + 2 * (n * depth / 64)) (2 * (depth / 64)))
    else st) s.stat
  let parity := (List.range m.cols).foldl (fun b n =>
    let b := Tab.clear b (base + n * full * fmtBits fmt / 8) (base + n * full * fmtBits fmt / 8 + fmtBytes fmt depth)
    if fmtScaled fmt then
      Tab.clear b (base + statScales + 2 * (n * (full / 64))) (base + statScales + 2 * (n * (full / 64)) + 2 * (depth / 64))
    else b) s.err.stat
  { s with stat := stat, err := { s.err with stat := parity } }

/-- A byte of the stationary block that a pass over depth k and n columns reads fails its parity (R138). -/
def State.parityBad (s : State) (t q i fmt k n : Nat) : Bool :=
  let full := (s.mode t).depth fmt
  let base := statBase t q i
  let in_ (x a len : Nat) : Bool := decide (a ≤ x) && decide (x < a + len)
  s.err.stat.any (fun e => e.2 && (List.range n).any (fun c =>
    in_ e.1 (base + c * full * fmtBits fmt / 8) (fmtBytes fmt k) ||
      fmtScaled fmt && in_ e.1 (base + statScales + 2 * (c * (full / 64))) (2 * (k / 64))))

/-- MXM.LOADW (R112 to R115, R125). -/
def execMxmLoadw (t : Nat) (s : State) : Host.Outcome State Fault Refusal :=
  .next (s.engineRow t 1 0 fmtOperand (fun w => (51, 20) :: (if fmtScaled (wFmt w) then [(83, 64)] else [])) false (fun s w =>
    let m := s.mode t
    let fmt := wFmt w
    let q := bitsOf w 21 20
    let depth := bitsOf w 31 22
    let src := bitsOf w 51 32
    let sc := bitsOf w 83 64
    let x := s.tile t
    let i := 1 - x.frontIdx q
    s.guard t Req.shadow
      [(m.isSplit || q == 0, Reason.mode), (decide (1 ≤ depth) && decide (depth ≤ m.depth fmt), Reason.fieldRange),
       (!fmtScaled fmt || depth % 64 == 0, Reason.fieldRange)]
      [(64 * src, fmtBytes fmt (m.cols * depth), false), (64 * sc, if fmtScaled fmt then 2 * (m.cols * depth / 64) else 0, false)]
      (fun _ =>
        .ok ((s.loadBlock t q i fmt depth src sc).modTile t (fun x =>
          { x with bufFmt := Tab.set 0 x.bufFmt (2 * q + i) (fmt + 1), bufDepth := Tab.set 0 x.bufDepth (2 * q + i) depth })))))

/-! ### Accumulation (R85 to R92) -/

/-- A running accumulator value: FP32 or INT32 bits in h, a pair in (h, l), and the flags raised so far. -/
structure AccV where
  h : Nat
  l : Nat
  fl : Nat
  deriving DecidableEq, Repr

/-- Add one exact contribution with its flags to an accumulator (R85, R86, R88). -/
def AccV.add (acc : Nat) (a : AccV) (p : Val) (pf : Nat) : AccV :=
  if acc = 8 then
    let c := FFmt.fp32.ofVal p
    let (h, l, fl) := pairAdd a.h a.l c.bits
    ⟨h, l, a.fl ||| pf ||| c.fl ||| fl⟩
  else
    let (v, f1) := Val.add (f32 a.h) p
    let r := FFmt.fp32.ofVal v
    ⟨r.bits, 0, a.fl ||| pf ||| f1 ||| r.fl⟩

/-- Add one integer product to an INT32 accumulator, saturating (R86). -/
def AccV.addInt (a : AccV) (p : Int) : AccV :=
  let r := i32add a.h (ofSigned 32 p)
  ⟨r.bits, 0, a.fl ||| r.fl⟩

/-- The integer of an INT8, INT4, S-INT8 or S-INT4 code. -/
def codeInt (fmt code : Nat) : Int := if fmtBits fmt = 8 then toSigned 8 code else toSigned 4 code

/-- hi and lo of an FP32 operand, with the flags of the roundings (R91, R105). -/
def splitHi (code : Nat) : Val × Nat :=
  let r := FFmt.bf16.ofVal (f32 code)
  (FFmt.bf16.decode r.bits, r.fl)
def splitLo (code : Nat) : Val × Nat :=
  let hi := splitHi code
  let d := Val.add (f32 code) (Val.negate hi.1)
  let r := FFmt.bf16.ofVal d.1
  (FFmt.bf16.decode r.bits, hi.2 ||| d.2 ||| r.fl)

/-- Parts of the streaming and the stationary operand in each pass (*Pass order*). -/
def passParts (passes : Nat) : List ((Nat → Val × Nat) × (Nat → Val × Nat)) :=
  if passes = 1 then [(splitHi, splitHi)]
  else if passes = 2 then [(splitHi, splitLo), (splitHi, splitHi)]
  else [(splitLo, splitHi), (splitHi, splitLo), (splitHi, splitHi)]

/-- Products of element pairs added one by one in ascending k. -/
def dotPlain (acc : Nat) (f g : Nat → Val × Nat) (a0 : AccV) (ps : List (Nat × Nat)) : AccV :=
  ps.foldl (fun a p => let (v, fl) := Val.mul (f p.1).1 (g p.2).1; a.add acc v (fl ||| (f p.1).2 ||| (g p.2).2)) a0

/-- Scaled products: exact block sums, one contribution a block (R87). -/
def dotScaled (acc fmt : Nat) (sa sb : Nat → Nat) : Nat → Nat → AccV → List (Nat × Nat) → AccV
  | 0, _, a, _ => a
  | n + 1, j, a, ps =>
    if ps.isEmpty then a
    else
      let sum : Int := (ps.take 64).foldl (fun z p => z + codeInt fmt p.1 * codeInt fmt p.2) 0
      let s1 := FFmt.fp32.mul (FFmt.bf16.decode (sa j)) (FFmt.bf16.decode (sb j))
      let c := FFmt.fp32.mul (f32 s1.bits) (Val.ofInt sum)
      dotScaled acc fmt sa sb n (j + 1) (a.add acc (f32 c.bits) (s1.fl ||| c.fl)) (ps.drop 64)

/-- The strict loop (R92). -/
def dotStrict (a0 : AccV) (ps : List (Nat × Nat)) : AccV :=
  ps.foldl (fun a p =>
    let m := f32mul p.1 p.2
    let r := f32add a.h m.bits
    ⟨r.bits, 0, a.fl ||| m.fl ||| r.fl⟩) a0

/-- One output element: the contributions of pairs (streaming, stationary) in ascending k (R110, R111, R117). -/
def mxmDot (fmt acc passes : Nat) (sa sb : Nat → Nat) (a0 : AccV) (ps : List (Nat × Nat)) : AccV :=
  if fmtScaled fmt then dotScaled acc fmt sa sb (ps.length / 64 + 1) 0 a0 ps
  else if fmt = 0 then
    if passes = 15 then dotStrict a0 ps
    else (passParts passes).foldl (fun a fg => dotPlain acc fg.1 fg.2 a ps) a0
  else if acc = 7 then ps.foldl (fun a p => a.addInt (codeInt fmt p.1 * codeInt fmt p.2)) a0
  else
    let dec (c : Nat) : Val × Nat := decodeElem fmt c 0
    dotPlain acc dec dec a0 ps

/-! ### The accumulator store (R118 to R123) -/

/-- Byte address of row r of a tile that starts at unit u: in the store, or in device memory under M40_COMPAT. -/
def State.accAddr (s : State) (t u acc r : Nat) : Nat :=
  match s.mode t with
  | .m40 => scratchBase t + ((s.cfgOf t).pool t 4).1 + 512 * (u + r)
  | m => 2 ^ 20 * t + 256 * (u + r * m.units acc)

/-- The memory that holds accumulator rows of tile t. -/
def State.accMem (s : State) (t : Nat) : Mem := match s.mode t with | .m40 => s.dev | _ => s.acc

/-- Check of an accumulator tile (R118, R119, R123): the reason that forbids it. -/
def State.accTileBad (s : State) (t q u acc rows : Nat) : Option Nat :=
  match s.mode t with
  | .m40 => if 512 * (u + rows) ≤ ((s.cfgOf t).pool t 4).2 then none else some Reason.accRange
  | m =>
    if u % m.units acc ≠ 0 then some Reason.mode
    else
      let lo := if m.isSplit then 1024 * q else 0
      let hi := if m.isSplit then lo + 1024 else 4096
      if lo ≤ u ∧ u + rows * m.units acc ≤ hi then none else some Reason.accRange

/-- Element n of a row at address a. -/
def accAt (m : Mem) (acc a n : Nat) : AccV :=
  ⟨Mem.readNat m (a + accBytes acc * n) 4, if acc = 8 then Mem.readNat m (a + 8 * n + 4) 4 else 0, 0⟩

/-- Bytes of a run of accumulator elements. -/
def accEnc (acc : Nat) (vs : List AccV) : List Byte :=
  vs.flatMap (fun v => if acc = 8 then leBytes 4 v.h ++ leBytes 4 v.l else leBytes 4 v.h)

/-- A read of [a, a + n) of the accumulator touches a failing codeword, or a write covers one in part (R138, R525). -/
def State.accBadAt (s : State) (t a n : Nat) (write : Bool) : Bool :=
  match s.mode t with
  | .m40 => if write then s.badEdge a n else s.badRange a n
  | _ => s.accBad.any (fun e => e.2 && decide (e.1 < a + n) && decide (a < e.1 + 16) &&
      !(write && decide (a ≤ e.1) && decide (e.1 + 16 ≤ a + n)))

/-- Write accumulator bytes. -/
def State.accPut (s : State) (t a : Nat) (bs : List Byte) : State :=
  match s.mode t with
  | .m40 => s.devWrite a bs
  | _ => { s with acc := Mem.write s.acc a bs, accBad := Tab.clear s.accBad a (a + bs.length),
                  err := { s.err with accWeak := Tab.clear s.err.accWeak a (a + bs.length) } }

/-- The fault of an access to one of the accumulator rows at `rows`: INFO names the failing address. -/
def State.accFail (s : State) (t n : Nat) (rows : List Nat) : Eff :=
  match s.mode t with
  | .m40 =>
    .fail Source.scratchUncorrectable Kind.tile t (s.failingAt ((rows.find? (fun a => s.badRange a n)).getD 0) n)
  | _ =>
    let hit (e : Nat × Bool) : Bool := e.2 && rows.any (fun a => decide (e.1 < a + n) && decide (a < e.1 + 16))
    .fail Source.accUncorrectable Kind.tile t (((s.accBad.find? hit).map Prod.fst).getD 0)

/-- Reads of n bytes at each of `rows` correct the accumulator codewords that they can, and count them for their lines (R138, R496). -/
def State.accMend (s : State) (was : State) (t n : Nat) (rows : List Nat) : State :=
  match s.mode t with
  | .m40 => s.mend (rows.flatMap (fun a => was.weakIn a n))
  | _ =>
    let weak := (was.err.accWeak.filter (fun e =>
      e.2 && rows.any (fun a => decide (e.1 < a + n) && decide (a < e.1 + 16)))).map Prod.fst
    weak.foldl (fun s a =>
      let k := a % 2 ^ 20 / 256
      { s with err := { s.err with accWeak := Tab.set false s.err.accWeak a false } }.modTile t (fun x =>
        { x with lineErrs := Tab.set 0 x.lineErrs k (Tab.get 0 x.lineErrs k + 1) })) s

/-! ### MXM.MUL -/

/-- Fields of MUL; SCALE_SRC only for scaled formats. -/
def mulUses (w : Nat) : List (Nat × Nat) := (63, 20) :: (127, 84) :: (if fmtScaled (wFmt w) then [(83, 64)] else [])

/-- Legal PASSES of a format: one pass, 1 to 3, or 15 strict (*MXM operations and their fields*). -/
def passesOk (fmt passes : Nat) : Bool :=
  if fmt = 0 then passes == 1 || passes == 2 || passes == 3 || passes == 15 else passes == 0

/-- Accumulator formats and their combinations (R118, R123). -/
def accFmtOk (m : Mode) (fmt acc passes : Nat) : Bool :=
  (acc != 7 || fmt == 3 || fmt == 4) && (acc != 8 || passes != 15) &&
    (m != .m40 || (acc != 8 && passes != 15))

/-- Scale of block j of streaming row r: R81 gives block k of a tensor the scale at byte 2k, and row r starts at block
r × ROW_STRIDE × 64 / (block bytes) (log entry 18). -/
def State.rowScale (s : State) (t sc fmt stride r j : Nat) : Nat :=
  s.spNat t (64 * sc + 2 * (r * stride * (if fmt = 6 then 2 else 1) + j)) 2

/-- One row of a MUL: the first n output elements of row r. -/
def State.mulRow (s : State) (t q fmt acc passes : Nat) (add : Bool) (src stride sc k n u r : Nat) : List AccV :=
  let m := s.mode t
  let i := (s.tile t).frontIdx q
  let base := statBase t q i
  let full := m.depth fmt
  let a := s.accAddr t u acc r
  let row := (List.range k).map (fun j => s.elem fmt (wordAddr t src + 64 * r * stride) j)
  (List.range n).map (fun c =>
    let a0 : AccV := if add then accAt (s.accMem t) acc a c else ⟨0, 0, 0⟩
    let col := (List.range k).map (fun j => Mem.elem s.stat fmt base (c * full + j))
    mxmDot fmt acc passes (fun j => s.rowScale t sc fmt stride r j)
      (fun j => Mem.readNat s.stat (base + statScales + 2 * (c * (full / 64) + j)) 2) a0 (row.zip col))

/-- The rows of a MUL, one after another: the state and the flags. -/
def State.mulRows (s : State) (t q fmt acc passes : Nat) (add : Bool) (src stride sc k n u : Nat) : Nat → Nat → Nat → State × Nat
  | 0, _, fl => (s, fl)
  | m + 1, r, fl =>
    let vs := s.mulRow t q fmt acc passes add src stride sc k n u r
    let s := s.accPut t (s.accAddr t u acc r) (accEnc acc vs)
    State.mulRows s t q fmt acc passes add src stride sc k n u m (r + 1) (vs.foldl (fun f v => f ||| v.fl) fl)

/-- MXM.MUL (R116, R117, R125). -/
def execMxmMul (t : Nat) (s : State) : Host.Outcome State Fault Refusal :=
  .next (s.engineRow t 1 1 fmtOperand mulUses (s.mode t == .m40) (fun s w =>
    let mo := s.mode t
    let fmt := wFmt w
    let q := bitsOf w 21 20
    let acc := bitsOf w 27 24
    let passes := bitsOf w 31 28
    let src := bitsOf w 51 32
    let u := bitsOf w 63 52
    let sc := bitsOf w 83 64
    let stride := bitsOf w 99 84
    let rows := bitsOf w 110 100 + 1
    let k := bitsOf w 120 111
    let n := bitsOf w 127 121 + 1
    let add := bitOf w 23
    let x := s.tile t
    let x := if bitOf w 22 then { x with front := Tab.set false x.front q (!Tab.get false x.front q) } else x
    let bad := s.accTileBad t q u acc rows
    let rowB := fmtBytes fmt k
    let accLen := accBytes acc * n
    let accRows := (List.range rows).map (fun r => s.accAddr t u acc r)
    let streamed := (List.range rows).flatMap (fun r =>
      [(64 * src + 64 * r * stride, rowB, false),
       (64 * sc + 2 * (r * stride * (if fmt = 6 then 2 else 1)), if fmtScaled fmt then 2 * (k / 64) else 0, false)])
    let spilled := if mo == .m40 then accRows.map (fun a => (a - scratchBase t, accLen, true)) else []
    s.guard t Req.stream
      [(acc == 0 || acc == 7 || acc == 8, Reason.fieldRange), (passesOk fmt passes, Reason.fieldRange),
       (decide (1 ≤ stride), Reason.fieldRange), (!mo.isSplit || decide (rows ≤ 1024), Reason.fieldRange),
       (decide (k ≤ mo.depth fmt) && (!fmtScaled fmt || k % 64 == 0), Reason.fieldRange),
       (decide (n ≤ mo.cols), Reason.fieldRange),
       (Tab.get 0 x.bufFmt (2 * q + x.frontIdx q) == fmt + 1, Reason.badFormat), (mo.isSplit || q == 0, Reason.mode),
       (accFmtOk mo fmt acc passes, Reason.mode), (bad.isNone, bad.getD 0)]
      (streamed ++ spilled)
      (fun _ =>
        if s.parityBad t q (x.frontIdx q) fmt k n then .fail Source.shadowParity Kind.tile t q
        else if Tab.get false x.residue q then .fail Source.mxmResidue Kind.tile t q
        else if accRows.any (fun a => s.accBadAt t a accLen (!add)) then s.accFail t accLen accRows
        else
          let (s', fl) := (s.setTile t x).mulRows t q fmt acc passes add src stride sc k n u rows 0 0
          let s' := if add then s'.accMend s t accLen accRows else s'
          let p := if fmt = 0 ∧ passes ≠ 15 then passes else 1
          .ok ((s'.flagMatrix t fl).finc .mxmRows t (p * rows)))))

/-! ### Drains (R126 to R129) -/

/-- Values of a drained element: exact for conversion, and FP32 for the sum of squares and the lauter. -/
def accVal (acc : Nat) (v : AccV) : Val × Nat :=
  if acc = 8 then pairVal v.h v.l else if acc = 7 then (Val.ofInt (toSigned 32 v.h), 0) else (f32 v.h, 0)

def accF32 (acc : Nat) (v : AccV) : Rnd :=
  if acc = 0 then ⟨v.h, 0⟩ else
  let (x, fl) := accVal acc v
  let r := FFmt.fp32.ofVal x
  ⟨r.bits, r.fl ||| fl⟩

/-- Sum of squares over values in order, from a pair (R127, R128): (h, l, flags). -/
def sumSquares (acc : Nat) (h l : Nat) (vs : List AccV) : Nat × Nat × Nat :=
  vs.foldl (fun z v =>
    let r := accF32 acc v
    let p := f32mul r.bits r.bits
    let (h, l, fl) := pairAdd z.1 z.2.1 p.bits
    let odd := if f32isNan r.bits then flINV else if f32isInf r.bits then flOF else 0
    (h, l, z.2.2 ||| r.fl ||| p.fl ||| fl ||| odd)) (h, l, 0)

/-- The pair normalised, as 8 bytes (R82). -/
def pairBytes (h l : Nat) : List Byte × Nat :=
  let (v, f1) := pairVal h l
  let (a, b, f2) := pairOfVal v
  (leBytes 4 a ++ leBytes 4 b, f1 ||| f2)

/-- DEST_FMT and PAIR_OUT fit the accumulator format (R126; log entry 19). -/
def drainFmtOk (acc dst : Nat) (pairOut : Bool) : Bool :=
  decide (dst ≤ 8) && (acc != 7 || dst == 0 || (decide (3 ≤ dst) && decide (dst ≤ 7))) && (!pairOut || dst == 8)

/-- Bytes of the data of one destination row: a row of a scaled format is padded to whole blocks (R81). -/
def rowBytes (dst n : Nat) : Nat := fmtBytes dst (if fmtScaled dst then roundUp n 64 else n)

/-- Words of one destination row. -/
def rowWords (dst n : Nat) : Nat := ceilDiv (rowBytes dst n) 64

/-- A row that a drain writes: its row number in the tensor, its destination word, the byte offset of its scales, its elements. -/
structure DrainRow where
  row : Nat
  word : Nat
  scales : Nat
  vals : List AccV
  /-- It enters the sum of squares: not so the +0 of an entry of no tokens (R136). -/
  counted : Bool

/-- Accesses of the rows that a drain writes: data, scales, and the entries of the record at byte offset `rec` (R50, R126, R525). -/
def drainAccesses (dst n rowLen col0 rec : Nat) (rows : List DrainRow) : List (Nat × Nat × Bool) :=
  rows.flatMap (fun r =>
    (64 * r.word, rowBytes dst n, true) :: (r.scales, if fmtScaled dst then 2 * ceilDiv n 64 else 0, true) ::
      recRanges rec dst rowLen (r.row * rowLen + col0) n)

/-- Byte offset of the scales of row r: the plane begins after the data rows, and R81 places its entries (log entry 18). -/
def rowScales (dst dest stride m n r : Nat) : Nat :=
  64 * (dest + (m - 1) * stride + rowWords dst n) + 2 * (r * stride * (if dst = 6 then 2 else 1))

/-- Write the converted rows to their places, a scaled row padded with zeros to whole blocks (R81). -/
def State.putRows (s : State) (t dst : Nat) : List (DrainRow × List Nat × List Nat) → State
  | [] => s
  | (r, codes, scales) :: rest =>
    let last := (Mem.byte s.dev (wordAddr t r.word + fmtBytes dst codes.length - 1)).toNat
    let n := ceilDiv codes.length 64
    let pad := if fmtScaled dst then List.replicate (64 * n - codes.length) 0 else []
    let s := s.spWrite t (64 * r.word) (packElems dst last (codes ++ pad))
    let s := if fmtScaled dst then s.spWrite t r.scales ((planeScales n scales).flatMap (leBytes 2)) else s
    State.putRows s t dst rest

/-- Cut a flat list into rows of n. -/
def cutRows {α : Type} (n : Nat) : Nat → List α → List (List α)
  | 0, _ => []
  | k + 1, l => l.take n :: cutRows n k (l.drop n)

/-- The drain of a list of rows of n elements each (R126 to R128): conversion, capture, the sum of squares and the flags. -/
def State.drainRows (s : State) (t acc dst n : Nat) (ctx : DrainCtx) (tn : Tensor) (ssq : Nat) (grad : Bool)
    (rows : List DrainRow) : State :=
  let a := wordAddr t ctx.record
  let es : List SrcElem := rows.flatMap (fun r =>
    r.vals.zipIdx.map (fun v =>
      let e := runElem dst tn.rowLen (r.row * tn.rowLen + ctx.col0) v.2
      (e.1, e.2, (accVal acc v.1).1)))
  let c := s.convert a dst (s.tile t).seed (s.stepWord t) tn es
  let outs := rows.zip ((cutRows n rows.length c.codes).zip (cutRows n rows.length c.scales))
  let pairFl := rows.foldl (fun f r => r.vals.foldl (fun f v => f ||| (accVal acc v).2) f) 0
  let s := s.putRows t dst outs
  let s := (s.recCapture a c.maxima).recClose a c.sats c.immediate
  let fl := c.fl ||| pairFl
  if ssq = 0 then (s.flagMatrix t fl).flagGrad t fl grad
  else
    let at_ := 8 * ctx.ssqAddr
    let (h, l, f2) := sumSquares acc (if ssq = 2 then s.spNat t at_ 4 else 0) (if ssq = 2 then s.spNat t (at_ + 4) 4 else 0)
      ((rows.filter DrainRow.counted).flatMap DrainRow.vals)
    let (bs, f3) := pairBytes h l
    let fl := fl ||| f2 ||| f3
    ((s.spWrite t at_ bs).flagMatrix t fl).flagGrad t fl grad

/-- Fields of DRAIN; PAIR_OUT only for a pair tile. -/
def drainUses (w : Nat) : List (Nat × Nat) := (21, 20) :: (29, 23) :: (102, 32) :: (if bitsOf w 27 24 = 8 then [(22, 22)] else [])

/-- MXM.DRAIN (R126 to R129, R284, R529). -/
def execMxmDrain (t : Nat) (s : State) : Host.Outcome State Fault Refusal :=
  .next (s.engineRow t 1 2 fmtAny drainUses true (fun s w =>
    let mo := s.mode t
    let dst := wFmt w
    let q := bitsOf w 21 20
    let pairOut := bitOf w 22
    let grad := bitOf w 23
    let acc := bitsOf w 27 24
    let ssq := bitsOf w 29 28
    let dest := bitsOf w 51 32
    let u := bitsOf w 63 52
    let stride := bitsOf w 79 64
    let m := bitsOf w 90 80 + 1
    let n := bitsOf w 97 91 + 1
    let tctx := bitsOf w 102 98
    let ctx := (s.tile t).drainCtx tctx
    let tn := (s.cfgOf t).tensor ctx.tensor
    let bad := s.accTileBad t q u acc m
    let height := if mo.isSplit then 64 else 32
    let thin := tn.thin != 0
    let thinOk := stride == 0 && ctx.row0 % height == 0 && ctx.col0 % mo.cols == 0 && tn.rowLen % mo.cols == 0 &&
      m % height == 0 && n == mo.cols && (tn.store == 1 || tn.store == 2) && (s.cfgOf t).inPool t 3 (64 * dest) 64
    let accLen := accBytes acc * n
    let accRows := (List.range m).map (fun r => s.accAddr t u acc r)
    let rows : List DrainRow := (List.range m).map (fun r =>
      { row := ctx.row0 + r, word := dest + r * stride, scales := rowScales dst dest stride m n r, counted := true,
        vals := (List.range n).map (fun c => accAt (s.accMem t) acc (s.accAddr t u acc r) c) })
    s.guard t Req.drain
      [(drainFmtOk acc dst pairOut, Reason.badFormat), (acc == 0 || acc == 7 || acc == 8, Reason.fieldRange),
       (decide (ssq ≤ 2) && (acc != 7 || ssq == 0), Reason.fieldRange),
       (decide (1 ≤ tctx) && decide (tctx ≤ 30) && ctx.zeroOk, Reason.fieldRange), (tn.rowLen != 0, Reason.fieldRange),
       (!mo.isSplit || (decide (m ≤ 1024) && decide (n ≤ 64)), Reason.fieldRange), (!thin || thinOk, Reason.fieldRange),
       (mo.isSplit || q == 0, Reason.mode), (mo != .m40 || acc != 8, Reason.mode), (bad.isNone, bad.getD 0)]
      ((if thin then [(64 * dest, 64, false)] else drainAccesses dst n tn.rowLen ctx.col0 (64 * ctx.record) rows) ++
        [(8 * ctx.ssqAddr, if ssq = 0 then 0 else 8, false)])
      (fun _ =>
        if accRows.any (fun a => s.accBadAt t a accLen false) then s.accFail t accLen accRows
        else (
          if thin then
            let xs := rows.flatMap (fun r => r.vals.map (fun v => accF32 acc v))
            let fl := xs.foldl (fun f x => f ||| x.fl) 0
            (s.thinDrain t mo.isSplit tn dest ctx.row0 ctx.col0 grad (xs.map (fun x => x.bits))).andThen (fun s =>
              if ssq = 0 then .ok ((s.flagMatrix t fl).flagGrad t fl grad)
              else
                let at_ := 8 * ctx.ssqAddr
                let (h, l, f2) := sumSquares acc (if ssq = 2 then s.spNat t at_ 4 else 0)
                  (if ssq = 2 then s.spNat t (at_ + 4) 4 else 0) (rows.flatMap DrainRow.vals)
                let (bs, f3) := pairBytes h l
                let fl := fl ||| f2 ||| f3
                .ok (((s.spWrite t at_ bs).flagMatrix t fl).flagGrad t fl grad))
          else .ok (s.drainRows t acc dst n ctx tn ssq grad rows)).andThen (fun s' =>
            .ok ((s'.accMend s t accLen accRows).modTile t (fun x =>
              { x with drained := Tab.set 0 x.drained ctx.tensor (if pairOut then 9 else dst + 1) }))))))

/-! ### Grouped expert products (R132 to R137) -/

/-- A group table entry (*Group table entry*). -/
structure GEntry where
  expert : Nat
  count : Nat
  row : Nat
  out : Nat
  ok : Bool

def State.groupEntry (s : State) (t table i : Nat) : GEntry :=
  let bs := s.spRead t (64 * table + 16 * i) 16
  let row := leField bs 11 8
  let out := leField bs 15 12
  { expert := leField bs 1 0, count := leField bs 7 4, row := row, out := out,
    ok := leField bs 3 2 == 0 && decide (leField bs 1 0 < 4096) && decide (leField bs 7 4 ≤ 1048576) && row % 64 == 0 &&
      out % 64 == 0 }

/-- What the word of a GROUP says. -/
structure GroupArgs where
  fmt : Nat
  acc : Nat
  dst : Nat
  w : WeightCtx
  /-- K of a forward product, or the feature block FB of a weight gradient. -/
  k : Nat
  rowStride : Nat
  outStride : Nat

/-- Elements of a forward output row (R134). The scales of a scaled streaming row are values that spec/ leaves open (log entry 20). -/
def State.fwdRow (s : State) (t : Nat) (g : GroupArgs) (e : GEntry) (r : Nat) : List AccV :=
  let depth := Mode.depth .split g.fmt
  let wb := wordAddr t (g.w.base + e.expert * g.w.stride)
  let sb := 64 * (g.w.scale + e.expert * g.w.stride)
  let per := depth / 64
  let row := (List.range g.k).map (fun i => s.elem g.fmt (scratchBase t + e.row + 64 * r * g.rowStride) i)
  (List.range 64).map (fun c =>
    let col := (List.range g.k).map (fun i => s.elem g.fmt (wb + 8192 * (i / depth)) (c * depth + i % depth))
    mxmDot g.fmt g.acc 0 (fun j => Config.freeAt 20 ((e.row + 64 * r * g.rowStride) :: j :: row) % 65536)
      (fun j => s.spNat t (sb + 8192 * (j / per) + 2 * (c * per + j % per)) 2) ⟨0, 0, 0⟩ (row.zip col))

/-- Elements of row n of a weight gradient (R137). -/
def State.gradRow (s : State) (t : Nat) (g : GroupArgs) (e : GEntry) (n : Nat) : List AccV :=
  let base := scratchBase t
  let dy := (List.range e.count).map (fun i => s.elem g.fmt (base + e.out + 64 * i * g.outStride) n)
  (List.range 64).map (fun c =>
    let x := (List.range e.count).map (fun i => s.elem g.fmt (base + e.row + 64 * i * g.rowStride) (64 * g.k + c))
    mxmDot g.fmt g.acc 0 (fun _ => 0) (fun _ => 0) ⟨0, 0, 0⟩ (dy.zip x))

/-- Words of an output row of a weight gradient (R137). -/
def gradWords (dst : Nat) : Nat := if dst = 0 then 4 else if dst = 8 then 8 else 2

/-- The output rows of a forward product, entry by entry in table order. -/
def State.fwdRows (s : State) (t : Nat) (g : GroupArgs) (row0 : Nat) : List GEntry → Nat → List DrainRow
  | [], _ => []
  | e :: es, n =>
    (List.range e.count).map (fun r =>
      ({ row := row0 + n + r, word := e.out / 64 + r * g.outStride,
         scales := rowScales g.dst (e.out / 64) g.outStride e.count 64 r, counted := true,
         vals := s.fwdRow t g e r } : DrainRow)) ++ State.fwdRows s t g row0 es (n + e.count)

/-- The output rows of a weight gradient, entry by entry; an entry of no tokens gives +0 (R136). -/
def State.gradRows (s : State) (t : Nat) (g : GroupArgs) (row0 : Nat) : List GEntry → Nat → List DrainRow
  | [], _ => []
  | e :: es, n =>
    (List.range g.w.rows).map (fun r =>
      ({ row := row0 + n + r, word := g.w.base + e.expert * g.w.stride + r * gradWords g.dst, scales := 0,
         counted := e.count != 0, vals := s.gradRow t g e r } : DrainRow)) ++ State.gradRows s t g row0 es (n + g.w.rows)

/-- Replace n bytes from `base` by values that spec/ leaves open, of `kind` and `operands`. -/
def Mem.freeRange (m : Mem) (base n kind : Nat) (operands : List Nat) : Mem :=
  m.filter (fun e => decide (e.1 < base)) ++
    (List.range n).filterMap (fun i =>
      let b := BitVec.ofNat 8 (Config.freeAt kind (i :: operands))
      if b = 0 then none else some (base + i, b)) ++
    m.filter (fun e => decide (base + n ≤ e.1))

/-- Chunks of a GROUP: of at most 256 rows each, or of as many output features (R134, R136, R137). -/
def groupChunks (wgrad : Bool) (features : Nat) (es : List GEntry) : Nat :=
  es.foldl (fun m e => m + (if wgrad then (if e.count = 0 then 0 else ceilDiv features 256) else ceilDiv e.count 256)) 0

/-- A GROUP leaves the accumulators and the stationary buffers of the sub-arrays that ran a chunk, the lowest-numbered, at values that spec/
leaves open: they follow from the word and from what it computed (R135; log entry 21). -/
def State.groupLeaves (s : State) (t fmt chunks : Nat) (operands : List Nat) : State :=
  (List.range (min 4 chunks)).foldl (fun s q =>
    let a := 2 ^ 20 * t + 2 ^ 18 * q
    let b := statBase t q 0
    let s := { s with acc := Mem.freeRange s.acc a (2 ^ 18) (64 + q) operands, stat := Mem.freeRange s.stat b (2 ^ 17) (68 + q) operands,
                      accBad := Tab.clear s.accBad a (a + 2 ^ 18),
                      err := { s.err with accWeak := Tab.clear s.err.accWeak a (a + 2 ^ 18), stat := Tab.clear s.err.stat b (b + 2 ^ 17) } }
    s.modTile t (fun x =>
      { x with bufFmt := Tab.set 0 (Tab.set 0 x.bufFmt (2 * q) (fmt + 1)) (2 * q + 1) (fmt + 1),
               bufDepth := Tab.set 0 (Tab.set 0 x.bufDepth (2 * q) (Mode.depth .split fmt)) (2 * q + 1) (Mode.depth .split fmt) })) s

/-- Fields of GROUP; PAIR_OUT only for pairs. -/
def groupUses (w : Nat) : List (Nat × Nat) := (31, 23) :: (119, 32) :: (if bitsOf w 27 24 = 8 then [(22, 22)] else [])

/-- MXM.GROUP (R132 to R137). The order of the work list and the sub-arrays change only timing (R135); the word is one
conversion (log entry 22). -/
def execMxmGroup (t : Nat) (s : State) : Host.Outcome State Fault Refusal :=
  .next (s.engineRow t 1 3 (fun f => decide (1 ≤ f) && decide (f ≤ 6)) groupUses true (fun s w =>
    let x := s.tile t
    let fmt := wFmt w
    let acc := bitsOf w 27 24
    let ssq := bitsOf w 29 28
    let wgrad := bitOf w 30
    let table := bitsOf w 51 32
    let n := bitsOf w 63 52 + 1
    let dst := bitsOf w 67 64
    let tctx := bitsOf w 72 68
    let wreg := bitsOf w 77 73
    let kf := bitsOf w 87 78
    let ctx := x.drainCtx tctx
    let tn := (s.cfgOf t).tensor ctx.tensor
    let wc := x.weightCtx wreg
    let depth := Mode.depth .split fmt
    let g : GroupArgs :=
      { fmt := fmt, acc := acc, dst := dst, w := wc, k := if wgrad then kf else 64 * kf, rowStride := bitsOf w 103 88,
        outStride := bitsOf w 119 104 }
    let es := (List.range n).map (fun i => s.groupEntry t table i)
    let weights := 8192 * (g.k / depth)
    let entryOk (e : GEntry) : Bool :=
      e.ok && (if wgrad then decide (64 * (wc.base + e.expert * wc.stride + wc.rows * gradWords dst) ≤ scratchBytes)
        else (s.cfgOf t).inPool t 0 (64 * (wc.base + e.expert * wc.stride)) weights)
    let gradOk := (fmt == 1 || fmt == 2) && (dst == 0 || dst == 1 || dst == 2 || dst == 8)
    s.guard t Req.drain
      [(drainFmtOk acc dst (bitOf w 22) && (!wgrad || gradOk), Reason.badFormat),
       (acc == 0 || acc == 7 || acc == 8, Reason.fieldRange), (decide (ssq ≤ 2) && (acc != 7 || ssq == 0), Reason.fieldRange),
       (decide (1 ≤ tctx) && decide (tctx ≤ 30) && ctx.zeroOk, Reason.fieldRange),
       (decide (1 ≤ wreg) && decide (wreg ≤ 30) && wc.zeroOk, Reason.fieldRange), (tn.rowLen != 0, Reason.fieldRange),
       (tn.thin == 0, Reason.fieldRange), (decide (1 ≤ g.rowStride), Reason.fieldRange),
       (if wgrad then decide (1 ≤ wc.rows) && wc.scale == 0 && decide (wc.rows * gradWords dst ≤ wc.stride) &&
          decide (2 * (kf + 1) ≤ g.rowStride) else decide (1 ≤ kf) && g.k % depth == 0, Reason.fieldRange),
       (s.mode t == .split, Reason.mode), (accFmtOk .split fmt acc 0, Reason.mode)]
      [(64 * table, 16 * n, false)]
      (fun _ =>
        if !es.all entryOk then .bad Reason.table
        else
          let rows := if wgrad then s.gradRows t g ctx.row0 es 0 else s.fwdRows t g ctx.row0 es 0
          let xOff := if wgrad then fmtBytes fmt (64 * kf) else 0
          let xBytes := if wgrad then fmtBytes fmt 64 else fmtBytes fmt g.k
          let reads : List (Nat × Nat × Bool) := es.flatMap (fun e => (List.range e.count).flatMap (fun r =>
            (e.row + 64 * r * g.rowStride + xOff, xBytes, false) ::
              (if wgrad then [(e.out + 64 * r * g.outStride, fmtBytes fmt wc.rows, false)] else [])))
          let weightReads : List (Nat × Nat × Bool) := if wgrad then [] else
            (es.filter (fun e => e.count != 0)).flatMap (fun e =>
              (64 * (wc.base + e.expert * wc.stride), weights, false) ::
                (if fmtScaled fmt then
                  (List.range (g.k / depth)).map (fun j => (64 * (wc.scale + e.expert * wc.stride) + 8192 * j, 128 * (depth / 64), false))
                else []))
          let chunks := groupChunks wgrad wc.rows es
          let armed := (List.range (min 4 chunks)).find? (fun q => Tab.get false x.residue q)
          if rows.isEmpty then .ok s
          else
            s.guard t Req.drain []
              ((8 * ctx.ssqAddr, if ssq = 0 then 0 else 8, false) :: reads ++ weightReads ++
                drainAccesses dst 64 tn.rowLen ctx.col0 (64 * ctx.record) rows)
              (fun _ =>
                if armed.isSome then .fail Source.mxmResidue Kind.tile t (armed.getD 0) else
                let fl := rows.foldl (fun f r => r.vals.foldl (fun f v => f ||| v.fl) f) 0
                let total := es.foldl (fun m e => m + e.count) 0
                let s := (s.drainRows t acc dst 64 ctx tn ssq (bitOf w 23) rows).flagMatrix t fl
                let streamed := if wgrad then (es.foldl (fun m e => m + ceilDiv e.count 64) 0) * wc.rows else total * (g.k / depth)
                let s := s.finc .mxmRows t streamed
                .ok (s.groupLeaves t fmt chunks (w :: rows.flatMap (fun r => r.vals.map AccV.h)))))))

/-- MXM.FENCE (R125): completes once every earlier MXM word has completed. -/
def execMxmFence (t : Nat) (s : State) : Host.Outcome State Fault Refusal :=
  .next (s.engineRow t 1 4 fmtNone (fun _ => []) false (fun s _ => .ok s))

end Sys2Proof.Machine
end

