-- ==== Sys2Proof/Machine/RegMap.lean ====
section
/-!
DEFINITION. The register map (R8, R401, R427 to R430 and the register tables of every chapter): where each stored field stands in PF
BAR0 and VF BAR0, its access code, and what a read of an offset returns.
-/

namespace Sys2Proof.Machine

/-! ### Access codes (R8) -/

inductive Access where
  | ro
  | rw
  | w1c
  | wo
  deriving DecidableEq, Repr

/-- One field of a register table: `count` registers from byte `off`, `stride` bytes apart, bits hi..lo of each. The instance of the
field is mul × (block instance) + add + index. A register of 64 bits is two rows; `half` 1 holds its upper word. -/
structure RegRow where
  off : Nat
  stride : Nat
  count : Nat
  hi : Nat
  lo : Nat
  acc : Access
  fld : Fld
  mul : Nat
  add : Nat
  upper : Bool
  deriving DecidableEq, Repr

/-- A field of one register. -/
def one (off hi lo : Nat) (acc : Access) (fld : Fld) : RegRow :=
  { off := off, stride := 4, count := 1, hi := hi, lo := lo, acc := acc, fld := fld, mul := 1, add := 0, upper := false }

/-- A field of an array of registers. -/
def many (off stride count hi lo : Nat) (acc : Access) (fld : Fld) : RegRow :=
  { off := off, stride := stride, count := count, hi := hi, lo := lo, acc := acc, fld := fld, mul := count, add := 0, upper := false }

/-- Word k of a field of 64 bits. -/
def half (off k : Nat) (acc : Access) (fld : Fld) : RegRow :=
  { off := off, stride := 4, count := 1, hi := 31, lo := 0, acc := acc, fld := fld, mul := 1, add := 0, upper := k == 1 }

/-- SLOT_j of TILE_MAP. -/
def slotRow (off hi lo j : Nat) : RegRow :=
  { off := off, stride := 4, count := 1, hi := hi, lo := lo, acc := .ro, fld := .baySlot, mul := 8, add := j, upper := false }

/-! ### Blocks -/

inductive Blk where
  | turn | bay | clk | ldr | num | kfl | mxm | vec | tp | ev | sp | steep | flash | ket | lau | red | link | linkb | exch | comm | seq
  | kv | host | part | ring | sec | conf | fc | rpl | pwr
  deriving DecidableEq, Repr

/-- The stored fields of a block (the register tables of spec/, in the order of its files). -/
def Blk.rows : Blk → List RegRow
  | .turn => [
      one 0 31 16 .ro .turnLayoutEpoch, one 0 11 8 .ro .turnStep, one 0 3 0 .ro .turnPhase, one 4 31 0 .ro .turnPolicyVersion,
      one 8 31 0 .ro .turnTurnId, one 12 15 0 .ro .turnLastStatus]
  | .bay => [
      one 0 6 6 .ro .bayRetired, one 0 5 5 .ro .bayDegraded, one 0 4 4 .ro .baySpareUsed, slotRow 4 31 28 7, slotRow 4 27 24 6,
      slotRow 4 23 20 5, slotRow 4 19 16 4, slotRow 4 15 12 3, slotRow 4 11 8 2, slotRow 4 7 4 1, slotRow 4 3 0 0]
  | .clk => [
      one 0 2 2 .rw .clkSscMgmt, one 0 1 1 .rw .clkSscFabric, one 0 0 0 .rw .clkSscEngine, one 4 6 4 .ro .clkSscActive,
      one 4 3 3 .ro .clkLockMgmt, one 4 2 2 .ro .clkLockTx, one 4 1 1 .ro .clkLockFabric, one 4 0 0 .ro .clkLockEngine]
  | .ldr => [
      one 0 0 0 .ro .ldrBusy, one 8 23 20 .ro .ldrPart, one 8 15 0 .ro .ldrReason, many 256 4 96 31 0 .ro .ldrDigest]
  | .num => [
      one 0 13 13 .w1c .numGradInv, one 0 12 12 .w1c .numGradOf, one 0 11 8 .w1c .numBank, one 0 7 4 .w1c .numVector,
      one 0 3 0 .w1c .numMatrix]
  | .kfl => [
      one 0 3 0 .w1c .kflFlags]
  | .mxm => [
      one 0 3 0 .ro .mxmBusy, one 4 31 0 .ro .mxmRows, one 8 31 0 .ro .mxmStallLoad, one 12 31 0 .ro .mxmStallDep,
      one 16 31 0 .ro .mxmStallInput, one 20 31 0 .ro .mxmStallDrain]
  | .vec => [
      one 0 11 11 .ro .vecBusy, one 0 10 0 .ro .vecVl, one 4 31 0 .ro .vecIssued, one 8 31 0 .ro .vecStallDep,
      one 12 31 0 .ro .vecStallPort]
  | .tp => [
      one 0 31 30 .ro .tpState, one 0 13 0 .ro .tpPc, one 4 23 16 .ro .tpReason, one 4 13 0 .ro .tpFaultPc,
      one 8 31 0 .rw .tpWaitLimit, one 12 31 0 .ro .tpDispatched, one 16 31 0 .ro .tpStallWait, one 20 31 0 .ro .tpStallQueue]
  | .ev => [
      many 0 4 64 31 0 .ro .ev]
  | .sp => [
      one 0 20 16 .ro .spSpareMin, one 0 5 0 .ro .spWorstBank, one 4 31 0 .ro .spCorrected, one 8 31 31 .w1c .spColValid,
      one 8 27 24 .ro .spColP1Req, one 8 23 20 .ro .spColP0Req, one 8 19 0 .ro .spColWord, one 12 31 0 .ro .spCollisions,
      one 16 31 0 .ro .spStallIdle, one 20 31 0 .ro .spBankside]
  | .steep => [
      one 0 31 16 .ro .steepCursor, one 0 12 0 .ro .steepNext, one 4 31 0 .ro .steepStall, one 8 31 0 .ro .steepOverruns,
      one 12 31 16 .ro .steepLastOver]
  | .flash => [
      one 0 8 8 .ro .flashReadOnly, one 0 7 0 .ro .flashSpareLeft, one 4 31 0 .ro .flashEraseMax,
      many 256 16 12 15 0 .rw .flashNsBase, many 260 16 12 15 0 .rw .flashNsSize, many 264 16 12 15 0 .rw .flashCkptSlot,
      many 268 16 12 31 28 .ro .flashCkptState, many 268 16 12 25 25 .ro .flashOwnBValid,
      many 268 16 12 24 24 .ro .flashOwnAValid, many 268 16 12 23 0 .ro .flashProgress]
  | .ket => [
      one 0 20 16 .ro .ketSpareLanes, one 0 12 8 .ro .ketSlot, one 0 2 0 .ro .ketState, one 4 14 14 .ro .ketJbad,
      one 4 13 13 .ro .ketKind, one 4 12 8 .ro .ketJslot, one 4 1 0 .ro .ketJstate, half 8 0 .ro .ketJstep,
      half 12 1 .ro .ketJstep, one 16 31 0 .ro .ketCommitted, one 20 31 0 .ro .ketBlockCount, half 24 0 .ro .ketJdigest,
      half 28 1 .ro .ketJdigest, one 32 31 0 .ro .ketNormH, one 36 31 0 .ro .ketNormL, one 40 16 16 .ro .ketOverflow,
      one 40 15 0 .ro .ketNormStep, one 44 31 0 .ro .ketGscale, one 48 31 0 .ro .ketRuns, one 52 31 0 .ro .ketStall,
      many 64 4 16 31 0 .ro .ketKE, many 256 8 32 8 8 .ro .ketSlotSkipped, many 256 8 32 4 0 .ro .ketSlotE,
      many 260 8 32 31 0 .ro .ketSlotClean]
  | .lau => [
      half 0 0 .ro .lauOvf, half 4 1 .ro .lauOvf, one 8 31 0 .ro .lauTiles, one 12 31 0 .ro .lauStall]
  | .red => [
      one 4 31 0 .ro .redStale, one 8 31 0 .ro .redResends, one 12 31 0 .ro .redEarly, one 16 31 0 .ro .redWaitMax,
      one 20 31 31 .w1c .redDeclValid, one 20 30 30 .ro .redDeclRole, one 20 29 24 .ro .redDeclComm,
      one 20 11 0 .ro .redDeclRank, half 24 0 .ro .redAborted, half 28 1 .ro .redAborted]
  | .link => [
      one 0 31 28 .ro .linkState, one 0 27 25 .ro .linkWidth, one 0 24 24 .ro .linkSpareUsed, one 0 23 19 .ro .linkLanesFailed,
      one 0 11 0 .ro .linkPartnerId, one 4 4 0 .ro .linkPartnerPort, one 8 31 31 .wo .linkRetrain,
      one 8 5 5 .rw .linkFailoverEn, one 8 4 0 .rw .linkFailoverPort, one 12 31 0 .rw .linkStallLimit,
      one 16 31 0 .ro .linkFecCorrected, one 20 31 0 .ro .linkFecUncorrectable, one 24 31 0 .ro .linkCrcErrors,
      one 28 31 0 .ro .linkReplays, one 32 31 0 .ro .linkRouteDrops, one 36 31 0 .ro .linkTxFlits,
      one 40 31 0 .ro .linkRxFlits, one 44 31 0 .ro .linkStallUs]
  | .linkb => [
      one 0 31 0 .ro .linkbLocalDrops]
  | .exch => [
      one 4 31 0 .ro .exchNeed, one 8 31 0 .ro .exchCap, one 12 31 0 .ro .exchRows, one 16 31 0 .ro .exchResends]
  | .comm => [
      one 1028 31 0 .ro .commAdmitted, one 1032 31 0 .ro .commDropped, one 1036 31 0 .ro .commFull,
      one 1040 31 0 .ro .commSpill, one 1044 31 0 .ro .commDiverge]
  | .seq => [
      one 0 31 31 .ro .seqBarrier, one 0 30 30 .ro .seqSwapOpen, one 0 29 29 .ro .seqFlipSet, one 0 26 24 .ro .seqState,
      one 4 13 8 .rw .seqLockComm, one 4 1 1 .rw .seqKeepLog, one 4 0 0 .rw .seqLockstep, half 8 0 .ro .seqStep,
      half 12 1 .ro .seqStep, one 16 31 0 .ro .seqEpochStep, half 24 0 .rw .seqOutBase, half 28 1 .rw .seqOutBase,
      one 32 31 0 .rw .seqOutSize, one 36 31 0 .ro .seqOutHead, one 40 31 0 .rw .seqOutTail, half 48 0 .rw .seqArea,
      half 52 1 .rw .seqArea, one 56 31 0 .rw .seqAreaSize, one 64 31 0 .ro .seqTokens, one 68 31 0 .ro .seqPasses,
      one 72 31 0 .ro .seqDrafted, one 76 31 0 .ro .seqAccepted, one 80 31 0 .ro .seqFretWaits, one 84 31 0 .ro .seqPreempted,
      one 88 31 0 .ro .seqHoldUs]
  | .kv => [
      one 0 11 9 .rw .kvRope, one 0 8 0 .rw .kvLayers, one 28 31 0 .ro .kvWalkRows, one 32 31 0 .ro .kvAppendRows,
      one 36 31 0 .ro .kvTableMisses, one 40 31 31 .w1c .kvFaultValid, one 40 30 24 .ro .kvFaultTile,
      one 40 23 20 .ro .kvFaultReason, one 40 12 0 .ro .kvFaultSlot]
  | .host => [
      half 4 0 .ro .hostSerial, half 8 1 .ro .hostSerial, one 16 31 0 .rw .hostDrainWindow]
  | .part => [
      one 0 2 2 .rw .partSpargeOnDisable, one 0 1 1 .rw .partQuiesce, one 0 0 0 .ro .partConfActive,
      one 4 31 16 .ro .partAbortedDisable, one 4 15 0 .ro .partAborted, one 8 31 0 .ro .partTagFails]
  | .ring => [
      half 0 0 .rw .sqBase, half 4 1 .rw .sqBase, one 8 31 31 .rw .sqEnable, one 8 11 8 .rw .sqCq, one 8 4 0 .rw .sqLog2Size,
      one 12 31 0 .ro .sqHead, half 16 0 .rw .cqBase, half 20 1 .rw .cqBase, one 24 31 31 .rw .cqEnable,
      one 24 30 30 .rw .cqIrqEn, one 24 24 16 .rw .cqVector, one 24 4 0 .rw .cqLog2Size, one 28 31 0 .ro .cqTail,
      one 32 31 0 .rw .cqHead, one 36 31 16 .rw .cqCoalUs, one 36 15 0 .rw .cqCoalCount]
  | .sec => [
      one 0 31 29 .ro .secLcState, one 0 28 27 .ro .secDebugState, one 0 26 26 .ro .secKeysValid,
      one 0 25 25 .ro .secCustomerKey, one 4 15 8 .ro .secFailReason, one 4 1 0 .ro .secStage, one 8 4 0 .ro .secCause,
      one 12 31 0 .ro .secFwSvn, one 16 31 0 .rw .secRecoveryLen, one 20 31 31 .wo .secGo, one 20 15 0 .wo .secChunk,
      one 24 31 31 .ro .secError, one 24 15 0 .ro .secChunkDone, many 256 8 12 31 31 .ro .spargePending,
      many 256 8 12 30 30 .ro .spargeFailed, many 256 8 12 29 29 .ro .spargeRunning, many 256 8 12 15 0 .ro .spargeLastNs,
      many 260 8 12 31 0 .ro .spargeCount]
  | .conf => [
      one 4 31 0 .ro .confKeyUpdates]
  | .fc => [
      one 0 31 31 .ro .fcSafe, one 0 30 30 .ro .fcHeld, one 0 29 29 .ro .fcSelfFault, one 0 28 28 .ro .fcDegraded,
      one 4 31 0 .ro .fcLogHead, one 8 31 0 .ro .fcLost, one 12 31 0 .wo .fcSeq, one 16 0 0 .wo .fcAll,
      one 20 31 0 .rw .fcGraceNotify, one 24 31 0 .rw .fcGraceContain, one 28 31 0 .rw .fcGraceSafe, one 32 31 0 .rw .fcQuiet,
      one 36 31 16 .rw .fcWindow, one 36 3 0 .rw .fcLimit, one 40 31 31 .ro .fcAsserted, one 40 16 16 .rw .fcHold,
      one 40 9 0 .rw .fcPulse, one 44 3 0 .ro .fcCount, one 48 7 0 .ro .fcSlot, many 128 4 12 31 31 .ro .fcPartContained,
      many 128 4 12 30 30 .ro .fcPartHeld, many 128 4 12 3 0 .ro .fcPartRecoveries, one 256 7 7 .ro .fcFixed,
      many 256 4 200 1 0 .rw .fcSeverity]
  | .rpl => [
      one 0 31 31 .rw .rplArm, one 0 30 28 .ro .rplState, one 0 25 24 .rw .rplTarget, one 0 23 23 .rw .rplHostDigest,
      one 0 22 22 .rw .rplLinkDigest, one 0 21 21 .rw .rplStall, one 0 11 0 .rw .rplDestDevice, half 4 0 .rw .rplBase,
      half 8 1 .rw .rplBase, one 12 31 0 .rw .rplSize, one 16 31 0 .ro .rplHead, one 20 31 0 .rw .rplTail,
      one 24 31 0 .ro .rplRecords, one 28 31 0 .ro .rplLost]
  | .pwr => [
      one 0 31 29 .ro .pwrState, one 0 28 28 .ro .pwrThrottle, one 0 27 27 .ro .pwrCapping, one 0 26 26 .ro .pwrSag,
      one 0 25 25 .ro .pwrLeak, one 0 24 20 .ro .pwrDuty, one 0 15 8 .ro .pwrTjMax, one 4 31 0 .rw .pwrLtr,
      one 8 31 16 .rw .pwrIdleDelay, one 8 0 0 .rw .pwrLinkStandbyEn, one 12 11 0 .rw .pwrCap, one 16 31 16 .ro .pwrPower,
      one 16 15 0 .ro .pwrVoltage, one 20 15 0 .ro .pwrCurrent, one 24 5 5 .w1c .pwrLimit105, one 24 4 4 .w1c .pwrSagEnd,
      one 24 3 3 .w1c .pwrSagStart, one 24 2 2 .w1c .pwrThrottleStart, one 24 1 1 .w1c .pwrCapStart,
      one 24 0 0 .w1c .pwrStateChange, one 28 31 0 .ro .pwrThrottleUs, one 32 31 0 .ro .pwrCapUs, one 36 31 0 .ro .pwrSagCount]

/-- The row's index where it holds the register at offset o of its block. -/
def RegRow.index (r : RegRow) (o : Nat) : Option Nat :=
  if r.off ≤ o ∧ (o - r.off) % r.stride = 0 ∧ (o - r.off) / r.stride < r.count then some ((o - r.off) / r.stride) else none

/-- Rows of the register at offset o, with the instances of their fields. -/
def Blk.rowsAt (k : Blk) (i o : Nat) : List (RegRow × Nat) :=
  k.rows.filterMap (fun r => (r.index o).map (fun n => (r, r.mul * i + r.add + n)))

/-! ### Where the blocks stand -/

/-- Blocks of PF BAR0: block, base, distance of its instances, their number, and bytes of one. -/
def pfBlocks : List (Blk × Nat × Nat × Nat × Nat) :=
  [(.host, 0, 0, 1, 0x20), (.bay, 0x100, 8, 12, 8), (.clk, 0x200, 0, 1, 8), (.part, 0x400, 0x10, 12, 0x10), (.turn, 0x800, 0x20, 12, 0x20),
   (.num, 0x1000, 0x10, 96, 0x10), (.kfl, 0x1800, 0x10, 12, 0x10), (.mxm, 0x2000, 0x20, 96, 0x20), (.vec, 0x3000, 0x10, 96, 0x10),
   (.tp, 0x4000, 0x20, 96, 0x20), (.ev, 0x6000, 0x100, 96, 0x100), (.sp, 0xC000, 0x40, 96, 0x40), (.steep, 0xE000, 0x10, 96, 0x10),
   (.lau, 0xF000, 0x10, 96, 0x10), (.ring, 0x1_0000, 0x40, 8, 0x40), (.fc, 0x10_0000, 0, 1, 0x3000), (.pwr, 0x20_0000, 0, 1, 0x40),
   (.sec, 0x30_0000, 0, 1, 0x200), (.ldr, 0x40_0000, 0, 1, 0x400), (.flash, 0x50_0000, 0, 1, 0x200), (.rpl, 0x60_0000, 0x40, 12, 0x40)]

/-- Blocks of a bay's part of PF BAR0, from its base. -/
def bayBlocks : List (Blk × Nat × Nat × Nat × Nat) :=
  [(.seq, 0, 0, 1, 0x60), (.exch, 0x1_0000, 0, 1, 0x20), (.comm, 0x2_0000, 0, 1, 0x800), (.red, 0x2_0800, 0, 1, 0x20), (.ket, 0x3_0000, 0, 1, 0x200),
   (.link, 0x4_0000, 0x40, 2, 0x40), (.linkb, 0x4_0080, 0, 1, 0x40), (.kv, 0x5_0000, 0, 1, 0x40)]

/-- The block, instance and offset of an address among blocks. -/
def findBlk : List (Blk × Nat × Nat × Nat × Nat) → Nat → Option (Blk × Nat × Nat)
  | [], _ => none
  | (k, base, dist, n, len) :: rest, a =>
    let i := if dist = 0 then 0 else (a - base) / dist
    if base ≤ a ∧ i < n ∧ a - base - i * dist < len then some (k, i, a - base - i * dist) else findBlk rest a

/-- Instance number of a block of bay b. -/
def bayInst (k : Blk) (b i : Nat) : Nat := if k = Blk.link then 2 * b + i else b

/-- The block that holds an offset of PF BAR0. -/
def pfBlk (a : Nat) : Option (Blk × Nat × Nat) :=
  if 0x100_0000 ≤ a ∧ a < 0x100_0000 + 12 * 0x10_0000 then
    (findBlk bayBlocks (a % 0x10_0000)).map (fun x => (x.1, bayInst x.1 ((a - 0x100_0000) / 0x10_0000) x.2.1, x.2.2))
  else findBlk pfBlocks a

/-- The block that holds an offset of the BAR0 of partition p's VF (*VF BAR0 layout*, R429). VF_STATUS at VF BAR0 0x00_0000, of which no
table gives a field, reads as zero and ignores writes (log entry 96, DESIGN CHOICE). -/
def State.vfBlk (s : State) (p a : Nat) : Option (Blk × Nat × Nat) :=
  if 0x800 ≤ a ∧ a < 0x820 then some (.turn, p, a - 0x800)
  else if 0x1000 ≤ a ∧ a < 0x1100 then some (.ring, ringIdx (p + 1) ((a - 0x1000) / 0x40), (a - 0x1000) % 0x40)
  else if 0x3000 ≤ a ∧ a < 0x3008 then some (.conf, p, a - 0x3000)
  else if 0x10_0000 ≤ a then
    ((s.baysOf p)[a / 0x10_0000 - 1]?).bind (fun b => (findBlk bayBlocks (a % 0x10_0000)).bind (fun x =>
      if x.1 = Blk.seq ∨ x.1 = Blk.kv then some (x.1, b, x.2.2) else none))
  else none

/-- The block of an offset of function fn's BAR0. -/
def State.blkAt (s : State) (fn a : Nat) : Option (Blk × Nat × Nat) := if fn = 0 then pfBlk a else s.vfBlk (fn - 1) a

/-! ### What answers (R107, R401, R473, R493 and the register sections) -/

/-- The instance of a block exists: its tile is mapped, and its bay is not retired. -/
def State.blkLive (s : State) (k : Blk) (i : Nat) : Bool :=
  match k with
  | .num | .mxm | .vec | .tp | .ev | .sp | .steep | .lau => s.mapped i
  | .kfl | .red | .linkb | .exch | .comm | .seq | .kv | .ket => s.fget .bayRetired i == 0
  | .link => s.fget .bayRetired (i / 2) == 0
  | _ => true

/-- The block answers: in RECOVERY only the security block, in the safe state identity, collector, power manager and security block. -/
def State.blkOpen (s : State) (fn : Nat) (k : Blk) : Bool :=
  if s.fget .secStage 0 = 2 then fn == 0 && k == Blk.sec
  else s.fget .secStage 0 == 3 && s.fnUp fn && (!s.safe || (fn == 0 && [Blk.host, Blk.fc, Blk.pwr, Blk.sec].contains k))

/-! ### What delivery fuses (log entry 7) -/

abbrev Fused.firmwareKey : Nat := 0
abbrev Fused.skovariKey : Nat := 1
abbrev Fused.identityKey : Nat := 2
abbrev Fused.bootRom : Nat := 3
abbrev Fused.version : Nat := 4
/-- The firmware image that the SPI NOR holds at delivery. -/
abbrev Fused.firmware : Nat := 5
/-- Digest of the customer key that a P96-M4L-C is delivered with (R524). -/
abbrev Fused.customerDigest : Nat := 6

/-- ACTIVE_TILES of a bay. -/
def State.activeTiles (s : State) (b : Nat) : Nat := ((List.range 8).filter (fun j => s.mapped (8 * b + j))).length

/-! ### Reads -/

/-- A row's bits of the register, in place; a write-only field reads as zero. -/
def State.rowBits (s : State) (r : RegRow) (i : Nat) : Nat :=
  if r.acc = Access.wo then 0
  else
    let v := s.fget r.fld i
    ((if r.upper then v / 2 ^ 32 else v) % 2 ^ (r.hi + 1 - r.lo)) * 2 ^ r.lo

/-- Reductions open on bay b, orphans included (R303). -/
def State.openReds (s : State) (b : Nat) : Nat :=
  match s.partOfBay b with
  | none => 0
  | some p => ((s.part p).colls.filter (fun c => c.bay == b && c.op == 0)).length

/-- XCH words in progress on bay b (R365). -/
def State.xchOpen (s : State) (b : Nat) : Nat :=
  ((List.range 8).flatMap (fun j => (s.tile (8 * b + j)).flight.filter (fun f => f.cls == 6 && f.started))).length

/-- COMM_STATUS and COMM_SPARES of communicator c, for bay b's partition. -/
def State.commBits (s : State) (b o : Nat) : Nat :=
  match s.partOfBay b with
  | none => 0
  | some p =>
    if o = 0x400 then ((s.part p).pool.filter PoolEntry.waiting).length
    else if 0x400 ≤ o then 0
    else
      match (s.part p).cfg.comm (o / 16) with
      | none => 0
      | some k =>
        if o % 16 = 0 then 2 ^ 31 + k.count * 2 ^ 12 + k.myRank
        else if o % 16 = 4 then k.spares.length * 2 ^ 12 + k.buddy
        else 0

/-- KV_FRAMES, KV_FREE, KV_PT_BASE, KV_PT_SIZE and KV_EDITS of bay b. -/
def State.kvBits (s : State) (b o : Nat) : Nat :=
  match s.partOfBay b with
  | none => 0
  | some p =>
    let c := (s.part p).cfg
    let base := (c.ptBase b).getD 0
    if o = 4 then s.frameCount p
    else if o = 8 then s.framesFree p
    else if o = 0xC then base % 2 ^ 32
    else if o = 0x10 then base / 2 ^ 32
    else if o = 0x14 then (if (c.ptBase b).isSome then c.ptSize b / 2 ^ 20 else 0)
    else if o = 0x18 then (s.bay b).edits.length
    else 0

/-- Words of the fault log (R488). -/
def State.logBits (s : State) (o : Nat) : Nat :=
  if o < 0x1000 then 0 else leField (s.fc.slot ((o - 0x1000) / 32)).bytes (o % 32 + 3) (o % 32)

/-- Host block: DEVICE, and after boot FW_VERSION and the link's rate and width, free values (log entry 4). -/
def State.hostBits (s : State) (o : Nat) : Nat :=
  if o = 0 then 0x0060_1000
  else if o = 12 then (if s.fget .secStage 0 = 3 then leNat ((Config.fused Fused.version).take 4) else 0)
  else if o = 20 then s.pwr.link.elim 0 (fun n => Config.freeNat n % 16 * 16 + Config.freeNat (n + 1) % 16)
  else 0

/-- Bits of a register that show other state, in place. -/
def State.viewBits (s : State) (k : Blk) (i o : Nat) : Nat :=
  match k with
  | .bay => if o = 0 then s.activeTiles i else 0
  | .ldr =>
    if o = 0 then s.images.length * 2 ^ 8 + 2 * bitNat (s.loader.any (fun j => !j.running))
    else if o = 4 then 0x10_0201 else 0
  | .mxm => if o = 0 then ((s.partOfTile i).elim 0 (fun p => Tab.get 0 (s.part p).cfg.modes i)) * 2 ^ 4 else 0
  | .tp => if o = 0 then (s.tile i).loops.length * 2 ^ 14 else 0
  | .sp =>
    if 0x20 ≤ o ∧ o < 0x38 then
      (s.partOfTile i).elim 0 (fun p =>
        let r := (s.part p).cfg.pool i ((o - 0x20) / 4)
        r.2 / 65536 * 2 ^ 16 + r.1 / 65536)
    else 0
  | .red =>
    if o = 0 then min 255 (s.openReds i) * 2 ^ 16 + (s.partOfBay i).elim 0 (fun p => s.fget .turnLayoutEpoch p) else 0
  | .exch => if o = 0 then s.xchOpen i else 0
  | .comm => s.commBits i o
  | .seq => if o = 0 then (s.bay i).live.length else if o = 0x14 then (s.bay i).queue.length else 0
  | .kv => s.kvBits i o
  | .host => s.hostBits o
  | .part => if o = 0xC then (s.cmds.filter (fun c => c.part == i)).length else 0
  | .conf => if o = 0 then bitNat (s.confidential i) else 0
  | .fc =>
    if o = 0 then ((List.range 12).map (fun p => s.fget .fcPartContained p * 2 ^ p)).sum
    else s.logBits o
  | _ => 0

/-- One word of the MSI-X table of a function: address, data and vector control (R437). -/
def State.msixWord (s : State) (fn o : Nat) : Nat :=
  let v := vecKey fn (o / 16)
  if o % 16 = 0 then Tab.get 0 s.msixAddr v % 2 ^ 32
  else if o % 16 = 4 then Tab.get 0 s.msixAddr v / 2 ^ 32
  else if o % 16 = 8 then Tab.get 0 s.msixData v
  else bitNat (!Tab.get false s.msixOn v)

/-- One word of its pending-bit array. -/
def State.pbaWord (s : State) (fn o : Nat) : Nat :=
  ((List.range 32).map (fun i => bitNat (Tab.get false s.msixPend (vecKey fn (8 * o + i))) * 2 ^ i)).sum

/-- Base of the MSI-X table and of the pending-bit array in a function's BAR0. -/
def msixBase (fn : Nat) : Nat := if fn = 0 then 0x70_0000 else 0x4000
def pbaBase (fn : Nat) : Nat := if fn = 0 then 0x70_2000 else 0x6000

/-- The function's MSI-X table and pending bits answer. -/
def State.msixOpen (s : State) (fn : Nat) : Bool := s.fget .secStage 0 == 3 && s.fnUp fn && !s.safe

/-- A read of the 32-bit register at offset a of function fn's BAR0: a reserved offset, and one that does not answer, reads as zero. -/
def State.readReg (s : State) (fn a : Nat) : Nat :=
  if msixBase fn ≤ a ∧ a < msixBase fn + 16 * vectorCount fn then if s.msixOpen fn then s.msixWord fn (a - msixBase fn) else 0
  else if pbaBase fn ≤ a ∧ a < pbaBase fn + vectorCount fn / 8 then if s.msixOpen fn then s.pbaWord fn (a - pbaBase fn) else 0
  else
    match s.blkAt fn a with
    | none => 0
    | some (k, i, o) =>
      if s.blkOpen fn k && s.blkLive k i then
        ((k.rowsAt i o).map (fun x => s.rowBits x.1 x.2)).sum + s.viewBits k i o
      else 0

end Sys2Proof.Machine
end

