-- ==== Sys2Proof/Machine/Transfers.lean ====
section
/-!
DEFINITION. Transfers of data by the engines of a partition: the activation stash (R335, R336), the checks every range passes
(R44, R50, R200, R211, R213, R215, R409, R525), and host operands in the clear and sealed (R444 to R446).
-/

namespace Sys2Proof.Machine

/-! ### Message kinds (*Flit types*, *Virtual channels*). The `op` of messages other than collectives is the model's own number
(log entry 32). -/

abbrev Ty.data : Nat := 1
abbrev Ty.grant : Nat := 2
abbrev Ty.segAck : Nat := 3
abbrev Ty.notice : Nat := 4
abbrev Ty.fence : Nat := 5
abbrev Ty.mgmt : Nat := 6
abbrev Ty.stream : Nat := 8

abbrev Vc.reduction : Nat := 0
abbrev Vc.gather : Nat := 1
abbrev Vc.exchange : Nat := 2
abbrev Vc.broadcast : Nat := 3
abbrev Vc.scalar : Nat := 4
abbrev Vc.control : Nat := 5
abbrev Vc.management : Nat := 6
abbrev Vc.replay : Nat := 7

/-- A batch record (R356); the resend request of VC 3 is COLL_OP 7 (R350). -/
abbrev MsgOp.batch : Nat := 6

abbrev MsgOp.group : Nat := 32
abbrev MsgOp.closeValue : Nat := 33
abbrev MsgOp.batchAnswer : Nat := 35
abbrev MsgOp.buddy : Nat := 36
abbrev MsgOp.buddyConfirm : Nat := 37
abbrev MsgOp.loadRequest : Nat := 38
abbrev MsgOp.loadData : Nat := 39
abbrev MsgOp.fetch : Nat := 40
abbrev MsgOp.fetchData : Nat := 41
abbrev MsgOp.exCounts : Nat := 42
abbrev MsgOp.exRows : Nat := 43
abbrev MsgOp.resend : Nat := 44
abbrev MsgOp.arrival : Nat := 45
abbrev MsgOp.release : Nat := 46
abbrev MsgOp.audit : Nat := 47

/-! ### The stash (R335, R336) -/

/-- Position of a region among its bay's regions of the same kind and use. -/
def Cfg.ordinal (c : Cfg) (r : Region) (bay : Region → Nat) : Nat :=
  ((c.regionsOf r.kind r.use).filter (fun x => bay x == bay r && decide (x.idx < r.idx))).length

/-- Bay of an LPDDR5X region and of an HBM region. -/
def lpBay (r : Region) : Nat := (r.base - lpBase 0) / 0x30_0000_0000
def hbmBay (r : Region) : Nat := r.base / 2 ^ 37

/-- The HBM home of the LPDDR5X region `r` (R335). -/
def Cfg.home (c : Cfg) (r : Region) : Option Region :=
  ((c.regionsOf 0 3).filter (fun x => hbmBay x == lpBay r))[c.ordinal r lpBay]?

/-- Stash windows: (first byte, first byte above the budget, end, home base). -/
def Cfg.stash (c : Cfg) : List (Nat × Nat × Nat × Nat) :=
  c.stages.filterMap (fun st =>
    match c.regions.find? (fun r => r.idx == st.spill) with
    | none => none
    | some r => (c.home r).map (fun h => (r.base, r.base + min st.budget r.size, r.base + r.size, h.base)))

/-- The device bytes that serve [a, a + len), in order, as (address, length) pieces (R336). -/
def servePieces : List (Nat × Nat × Nat × Nat) → Nat → Nat → List (Nat × Nat)
  | [], a, len => if len = 0 then [] else [(a, len)]
  | (lo, mid, _, home) :: rest, a, len =>
    if a + len ≤ lo ∨ mid ≤ a then servePieces rest a len
    else
      let first := lo - a
      let from_ := max a lo
      let inside := min (a + len) mid - from_
      servePieces rest a first ++ [(home + (from_ - lo), inside)] ++ servePieces rest (from_ + inside) (a + len - (from_ + inside))

/-- Bytes of [a, a + len) that lie above a stage's budget. -/
def spillBytes (ws : List (Nat × Nat × Nat × Nat)) (a len : Nat) : Nat :=
  ws.foldl (fun n w => n + (min (a + len) w.2.2.1 - max a w.2.1)) 0

/-- ROLLOUT_COPY regions of bay b, ascending by index. -/
def Cfg.copyRegions (c : Cfg) (b : Nat) : List Region := (c.regionsOf 0 0).filter (fun r => hbmBay r == b)

/-- Sets A and B of bay b's ROLLOUT_COPY regions (R396). -/
def Cfg.copySets (c : Cfg) (b : Nat) : List Region × List Region :=
  let rs := c.copyRegions b
  (rs.take (rs.length / 2), rs.drop (rs.length / 2))

/-- Set-A addresses that a bay serves from set B while B is live (R396), in the form of `Cfg.stash`. -/
def State.flipped (s : State) (p : Nat) : List (Nat × Nat × Nat × Nat) :=
  (s.baysOf p).flatMap (fun b =>
    if s.fget .seqFlipSet b = 1 then
      let (as_, bs) := (s.part p).cfg.copySets b
      (as_.zip bs).map (fun x => (x.1.base, x.1.base + x.1.size, x.1.base + x.1.size, x.2.base))
    else [])

/-- The pieces that serve a write and a read of a range of partition p. -/
def State.pieces (s : State) (p a len : Nat) (write : Bool) : List (Nat × Nat) :=
  servePieces ((s.part p).cfg.stash ++ (if write then [] else s.flipped p)) a len

/-- Base of partition p's view of its VF BAR0 in the register space (R50, R51). -/
def viewBase (p : Nat) : Nat := 0x1000_0000 + p * 0x100_0000

/-- Read the registers of the view: each byte is a byte of the register that holds it (R51). -/
def State.viewRead (s : State) (p x len : Nat) : List Byte :=
  (List.range len).map (fun i =>
    let o := x + i - viewBase p
    BitVec.ofNat 8 (s.readReg (p + 1) (o / 4 * 4) / 2 ^ (8 * (o % 4))))

/-- Write the registers of the view: whole registers, one after another, which the chip ring takes there by the next tick (R51; log
entry 136). -/
def State.viewWrite (s : State) (p x : Nat) (bs : List Byte) : State :=
  let first := ceilDiv (x - viewBase p) 4 * 4
  let skip := first - (x - viewBase p)
  { s with regWrites := s.regWrites ++ (List.range ((bs.length - skip) / 4)).map (fun i =>
      (p + 1, first + 4 * i, leNat ((bs.drop (skip + 4 * i)).take 4))) }

/-- Read a range of partition p's address space. -/
def State.partRead (s : State) (p a len : Nat) : List Byte :=
  (s.pieces p a len false).flatMap (fun x =>
    match spaceOf x.1 with
    | .reg o => s.viewRead p o x.2
    | _ => s.devRead x.1 x.2)

/-- Write the pieces one after another. -/
def State.writePieces (s : State) (p : Nat) : List (Nat × Nat) → List Byte → State
  | [], _ => s
  | (a, n) :: rest, bs =>
    let s :=
      match spaceOf a with
      | .reg o => s.viewWrite p o (bs.take n)
      | _ => s.devWrite a (bs.take n)
    State.writePieces s p rest (bs.drop n)

/-- Count bytes written above a budget: STASH_SPILL shows MiB, the same on every bay of the partition (R336,
R365). -/
def State.countSpill (s : State) (p a len : Nat) : State :=
  let n := spillBytes (s.part p).cfg.stash a len
  if n = 0 then s
  else
    let total := (s.bay (s.lowBay p)).spilled + n
    (s.baysOf p).foldl (fun s b => s.fset .commSpill b (total / 2 ^ 20)) (s.modBay (s.lowBay p) (fun x => { x with spilled := total }))

/-- Write a range of partition p's memory. -/
def State.partWrite (s : State) (p a : Nat) (bs : List Byte) : State :=
  (s.writePieces p (s.pieces p a bs.length true) bs).countSpill p a bs.length

/-! ### Checks of a range -/

/-- The address rules of a range: its fault source, or none (R44, R50, R215, R409). -/
def State.addrFault (s : State) (p a len : Nat) (write : Bool) : Option Nat :=
  match s.accessFault p a len write with
  | some src => some src
  | none => if write && s.touchesTable p a len then some Source.pageTableWrite else none

/-- The fault source of a transfer over a range, with the address it names: the address rules, then a failing codeword that a
read touches or a write covers in part (R200, R211, R213, R525). -/
def State.spanFault (s : State) (p a len : Nat) (write : Bool) : Option (Nat × Nat) :=
  match s.addrFault p a len write with
  | some src => some (src, a)
  | none =>
    ((s.pieces p a len write).find? (fun x => if write then s.badEdge x.1 x.2 else s.badRange x.1 x.2)).map
      (fun x => (badSource x.1, s.failingAt x.1 x.2))

/-- The first fault over a list of (address, length) ranges. -/
def State.spansFault (s : State) (p : Nat) (write : Bool) : List (Nat × Nat) → Option (Nat × Nat)
  | [] => none
  | (a, n) :: rest =>
    match s.spanFault p a n write with
    | some f => some f
    | none => State.spansFault s p write rest

/-- The first address fault over a list of ranges. -/
def State.addrsFault (s : State) (p : Nat) (write : Bool) : List (Nat × Nat) → Option (Nat × Nat)
  | [] => none
  | (a, n) :: rest =>
    match s.addrFault p a n write with
    | some f => some (f, a)
    | none => State.addrsFault s p write rest

/-- The flash window takes a range: only moves read it (R216). -/
def inFlash (a : Nat) : Bool :=
  match spaceOf a with
  | .flash _ => true
  | _ => false

/-- The fault of a read by anything but a move (R50, R216). -/
def State.dataFault (s : State) (p a len : Nat) : Option (Nat × Nat) :=
  if len ≠ 0 ∧ inFlash a then some (Source.addrUnmapped, a) else s.spanFault p a len false

/-- The first of a list of ranges. -/
def State.dataFaults (s : State) (p : Nat) : List (Nat × Nat) → Option (Nat × Nat)
  | [] => none
  | (a, n) :: rest =>
    match s.dataFault p a n with
    | some f => some f
    | none => State.dataFaults s p rest

/-- The failing read of data, as against a rule about addresses. -/
def isDataError (source : Nat) : Bool :=
  source == Source.hbmUncorrectable || source == Source.lpddrDataError || source == Source.scratchUncorrectable

/-- A transfer's failure: data errors name the instance that owns the address, the others the issuer (R481). -/
def failAt (who : Nat × Nat) (f : Nat × Nat) : Eff :=
  if isDataError f.1 then .fail f.1 (instOf f.2).1 (instOf f.2).2 f.2 else .fail f.1 who.1 who.2 f.2

/-- The status of a host command that a transfer failed: DATA_ERROR for data, TAG_FAILED for a sealed operand, else BAD_ADDRESS
(R44, R50, R446, R495). -/
def transferStatus (source : Nat) : Nat :=
  if isDataError source then Status.dataError
  else if source = Source.gcmTagFailed then Status.tagFailed else Status.badAddress

/-! ### Host operands (R444 to R446) -/

/-- Open n sealed segments from segment j of a host operand: the plaintext of those before the first that fails, and whether
none failed. -/
def State.openSegments (s : State) (c : Cmd) (a : Nat) : Nat → Nat → List Byte × Bool
  | 0, _ => ([], true)
  | n + 1, j =>
    let at_ := a + 4160 * j
    match Config.gcmOpen (s.dataKey (c.fn - 1) 0) (gcmIv 0x02 c.ring c.ctr j) (leBytes 8 at_) (s.hostRead at_ 4096)
        (s.hostRead (at_ + 4096) 16) with
    | none => ([], false)
    | some bs =>
      let (more, ok) := State.openSegments s c a n (j + 1)
      (bs.take 4096 ++ more, ok)

/-- Read a host operand of a command: its plaintext, and whether all of it opened. -/
def State.hostGet (s : State) (c : Cmd) (a len : Nat) : List Byte × Bool :=
  if s.sealed c.fn then
    let (bs, ok) := s.openSegments c a (ceilDiv len 4096) 0
    (bs.take len, ok)
  else (s.hostRead a len, true)

/-- HOST_DATA: a host read of a command, with the RSEQ of its COMMAND record (R498, R499). -/
def State.captureHost (s : State) (p rseq a : Nat) (bs : List Byte) : State :=
  if 12 ≤ p then s
  else
    let digest := s.fget .rplHostDigest p == 1
    s.capture p 3 (bitNat digest) (leBytes 8 rseq ++ leBytes 8 a ++ (if digest then sha256 bs else bs))

/-- The recorded host read of a replayed command: its data, where the record holds it, and the state with a digest compared. -/
def State.replayHost (s : State) (p rseq a : Nat) (now : List Byte) : List Byte × State :=
  match (s.part p).replayRun with
  | none => (now, s)
  | some r =>
    match r.data.find? (fun x => x.2.1 == rseq && x.2.2.1 == a) with
    | none => (now, s.replayFails p Status.replayIncomplete rseq)
    | some (n, _, _, flags, bs) =>
      if bitOf flags 0 then (now, if bs = sha256 now then s else s.replayFails p Status.replayDiverged n) else (bs, s)

/-- A command reads a host operand: its plaintext, whether all of it opened, and the state with the read captured, or replayed. -/
def State.hostTake (s : State) (c : Cmd) (a len : Nat) : List Byte × Bool × State :=
  if c.replayed then
    let (bs, s) := s.replayHost c.part c.rseq a (s.hostRead a len)
    (bs.take len, true, s)
  else
    let (bs, ok) := s.hostGet c a len
    (bs, ok, if ok then s.captureHost c.part c.rseq a bs else s)

/-- The same of bytes [off, off + len) of a host operand, which lie in one segment of it. -/
def State.hostPart (s : State) (c : Cmd) (a off len : Nat) : List Byte × Bool × State :=
  if c.replayed then
    let (bs, s) := s.replayHost c.part c.rseq (a + off) (s.hostRead (a + off) len)
    (bs.take len, true, s)
  else
    let (bs, ok) :=
      if s.sealed c.fn then
        let (bs, ok) := s.openSegments c a 1 (off / 4096)
        ((bs.drop (off % 4096)).take len, ok)
      else (s.hostRead (a + off) len, true)
    (bs, ok, if ok then s.captureHost c.part c.rseq (a + off) bs else s)

/-- A read of flash user space at namespace offset `off`: a FLASH_READ record for each 2 MiB, or its comparison (R498, R501). -/
def State.flashReads (s : State) (p off : Nat) (bs : List Byte) : State :=
  (List.range (ceilDiv bs.length (2 ^ 21))).foldl (fun s i =>
    let o := off + 2 ^ 21 * i
    let h := sha256 ((bs.drop (2 ^ 21 * i)).take (2 ^ 21))
    match (s.part p).replayRun with
    | some r =>
      match r.flash.find? (fun x => x.2.1 == o) with
      | some x => if x.2.2 = h then s else s.replayFails p Status.replayDiverged x.1
      | none => s
    | none => s.capture p 5 1 (leBytes 8 o ++ h)) s

/-- Seal a host operand segment by segment. -/
def State.sealSegments (s : State) (c : Cmd) (a : Nat) : Nat → Nat → List Byte → State
  | 0, _, _ => s
  | n + 1, j, bs =>
    let at_ := a + 4160 * j
    let plain := bs.take 4096 ++ List.replicate (4096 - min 4096 bs.length) 0
    let (x, tag) := Config.gcmSeal (s.dataKey (c.fn - 1) 1) (gcmIv 0x12 c.ring c.ctr j) (leBytes 8 at_) plain
    State.sealSegments (s.hostWrite at_ (x.take 4096 ++ tag.take 16 ++ List.replicate 48 0)) c a n (j + 1) (bs.drop 4096)

/-- Write a host operand of a command; a replay run discards it (R501). -/
def State.hostPut (s : State) (c : Cmd) (a : Nat) (bs : List Byte) : State :=
  if c.replayed then s
  else if s.sealed c.fn then s.sealSegments c a (ceilDiv bs.length 4096) 0 bs else s.hostWrite a bs

/-- A segment of a command failed its tag: TAG_FAILS and GCM_TAG_FAILED (R446). -/
def State.segmentFailed (s : State) (c : Cmd) : State := (s.tagFailed c.part).settle

/-! ### Messages as they are heard -/

/-- The message is a fence of a rejoin, in which a device that has been declared failed takes part again (R351, R352). -/
def rejoins (m : Msg) : Bool := m.ty == Ty.fence && m.args.getD 1 9 == 2

/-- The sender has been declared failed in the message's communicator (R351). -/
def State.outcast (s : State) (p : Nat) (m : Msg) : Bool :=
  m.ty != Ty.mgmt && m.vc != Vc.replay && !rejoins m && (s.part p).failed.contains (m.comm, m.src)

/-- Partition p takes a message of these kinds: it is defined, the message names its DEVICE_ID, delivery to it has not been
stopped, by a sparge, by containment, or under STALL of the capture, and the sender still takes part (R351, R459, R483, R493, R500). -/
def State.hears (s : State) (p : Nat) (m : Msg) (vc ty : Nat) : Bool :=
  (s.part p).defined && decide (p < 12) && m.dst == (s.part p).cfg.deviceId && !(s.part p).deaf && !s.safe && m.vc == vc && m.ty == ty &&
    (s.part p).replayHeld.isEmpty && !s.outcast p m

/-- The message is checked for its epoch and carries another one (R12, R302, R314). -/
def State.stale (s : State) (p : Nat) (m : Msg) : Bool := checkedTraffic m.ty m.vc && m.epoch != s.fget .turnLayoutEpoch p

/-- A stale message is dropped, and its flits are counted (R302). -/
def State.dropStale (s : State) (p : Nat) (m : Msg) : State := s.finc .redStale (s.lowBay p) (msgFlits m).length

/-- Bytes of a message in a LINK_MSG record: the fields of its header, SRC, VC, its other fields, and its payload or digest (R498;
log entry 43). -/
def msgBytes (m : Msg) (digest : Bool) : List Byte :=
  leBytes 1 m.comm ++ leBytes 1 m.op ++ leBytes 2 m.opNo ++ leBytes 4 m.seg ++ leBytes 4 m.rank ++ leBytes 4 m.step ++ leBytes 2 m.src ++
    leBytes 1 m.vc ++ leBytes 1 m.ty ++ leBytes 1 (bitNat m.nak) ++ leBytes 1 0 ++ leBytes 2 m.epoch ++ leBytes 4 m.args.length ++
    leBytes 4 m.data.length ++ m.args.flatMap (leBytes (argBytes m.ty)) ++ (if digest then sha256 m.data else m.data)

/-- The message of a LINK_MSG record. -/
def msgOf (dst : Nat) (bs : List Byte) : Msg :=
  let n := leField bs 27 24
  let w := argBytes (leField bs 19 19)
  { src := leField bs 17 16, dst := dst, vc := leField bs 18 18, ty := leField bs 19 19, nak := leField bs 20 20 == 1, epoch := leField bs 23 22,
    comm := leField bs 0 0, op := leField bs 1 1, opNo := leField bs 3 2, seg := leField bs 7 4, rank := leField bs 11 8,
    step := leField bs 15 12, args := (List.range n).map (fun i => leField bs (31 + w * (i + 1)) (32 + w * i)), data := bs.drop (32 + w * n) }

/-- A message delivered locally enters the capture (R498). -/
def State.captureMsg (s : State) (p : Nat) (m : Msg) : State :=
  let digest := s.fget .rplLinkDigest p == 1
  s.capture p 4 (bitNat digest) (msgBytes m digest)

/-- A message row: what the partition does with a message that it hears; a stale one is dropped. -/
def State.onMsg (s : State) (p : Nat) (m : Msg) (vc ty : Nat) (ok : Bool) (k : State → State) : State :=
  if !s.hears p m vc ty then s
  else if s.stale p m then s.dropStale p m
  else if ok then (k (s.captureMsg p m)).settle else s

end Sys2Proof.Machine
end

