-- ==== Sys2Proof/Machine/Moves.lean ====
section
/-!
DEFINITION. Moves (R217 to R221): the descriptor and its legality, what a landed move writes, the MOV words, and the steep list
(R222 to R227).
-/

namespace Sys2Proof.Machine

/-! ### The move descriptor (R217) -/

structure MoveD where
  st : Nat
  dt : Nat
  transform : Nat
  capture : Bool
  blockN : Bool
  sf : Nat
  df : Nat
  tensor : Nat
  src : Nat
  dst : Nat
  rows : Nat
  cols : Nat
  sstride : Nat
  dstride : Nat
  sscale : Nat
  dscale : Nat
  record : Nat
  row0 : Nat
  col0 : Nat
  zeroOk : Bool
  deriving DecidableEq, Repr

def moveD (d : BitVec 512) : MoveD :=
  let mode := dField d 1 1
  { st := dField d 0 0 % 16, dt := dField d 0 0 / 16, transform := mode % 4, capture := bitOf mode 2, blockN := bitOf mode 3,
    sf := dField d 2 2 % 16, df := dField d 2 2 / 16, tensor := dField d 5 4, src := dField d 15 8, dst := dField d 23 16,
    rows := dField d 27 24, cols := dField d 31 28, sstride := dField d 35 32, dstride := dField d 39 36,
    sscale := dField d 47 40, dscale := dField d 51 48, record := dField d 55 52, row0 := dField d 59 56,
    col0 := dField d 63 60, zeroOk := mode / 16 == 0 && dZero d 3 3 && dZero d 7 6 }

/-- An address lies in the space that a tier names. -/
def inTier (tier a : Nat) : Bool :=
  match tier, spaceOf a with
  | 0, .scratch _ _ => true
  | 1, .hbm _ _ => true
  | 2, .lp _ _ => true
  | 3, .flash _ => true
  | 4, _ => true
  | _, _ => false

/-- The move converts under R94, beyond copying and widening. -/
def MoveD.converts (m : MoveD) : Bool := m.df != m.sf && !widenLegal m.sf m.df

/-- Elements of one destination row (R218). -/
def MoveD.rowLen (m : MoveD) : Nat := if m.transform = 1 then m.rows else m.cols

/-- A format holds a row of n elements: even for 4 bits, whole blocks when scaled. -/
def rowFits (f n : Nat) : Bool := (fmtBits f != 4 || n % 2 == 0) && (!fmtScaled f || n % 64 == 0)

/-- Formats that R94 converts from. -/
def fmtSource (f : Nat) : Bool := f == 0 || f == 1 || f == 2 || f == 7 || f == 8

/-- A legal descriptor (R218). `host` says that the host driver issues it. -/
def MoveD.legal (c : Cfg) (host : Bool) (m : MoveD) : Bool :=
  m.zeroOk && decide (m.st ≤ 4) && decide (m.dt ≤ 4) && m.dt != 3 && m.transform != 3 && decide (m.sf ≤ 8) && decide (m.df ≤ 8) &&
    inTier m.st m.src && inTier m.dt m.dst && (host || (m.st != 4 && m.dt != 4)) &&
    (m.dt == 0 || (m.transform == 0 && m.df == m.sf && !m.capture)) &&
    (m.df == m.sf || widenLegal m.sf m.df || fmtSource m.sf) &&
    decide (1 ≤ m.rows) && decide (m.rows ≤ 2 ^ 24) && decide (1 ≤ m.cols) && decide (m.cols ≤ 2 ^ 20) &&
    rowFits m.sf m.cols && rowFits m.df m.rowLen &&
    (m.transform != 1 || ((!fmtScaled m.sf || m.df == 1) && (!fmtScaled m.df || fmtSource m.sf))) &&
    decide (fmtBytes m.sf m.cols ≤ m.sstride) && (m.transform == 2 || decide (fmtBytes m.df m.rowLen ≤ m.dstride)) &&
    (m.dt != 0 || (m.sstride % 64 == 0 && (m.transform == 2 || m.dstride % 64 == 0))) &&
    (!(m.converts || m.capture) || (c.tensor m.tensor).rowLen != 0)

/-! ### The stationary layout (R113, R219) -/

/-- Columns and depth of a block. -/
def MoveD.blockCols (m : MoveD) : Nat := if m.blockN then 64 else 128
def MoveD.blockDepth (m : MoveD) : Nat := if m.blockN then Mode.split.depth m.df else Mode.full.depth m.df

/-- Column blocks and contraction blocks. -/
def MoveD.colBlocks (m : MoveD) : Nat := ceilDiv m.cols m.blockCols
def MoveD.depthBlocks (m : MoveD) : Nat := ceilDiv m.rows m.blockDepth

/-- Places of all blocks, in the order in which they lie from DST: (row, column), which may pass the source's end. -/
def MoveD.statPlaces (m : MoveD) : List (Nat × Nat) :=
  (List.range m.colBlocks).flatMap (fun cb => (List.range m.depthBlocks).flatMap (fun kb =>
    (List.range m.blockCols).flatMap (fun n => (List.range m.blockDepth).map (fun k =>
      (kb * m.blockDepth + k, cb * m.blockCols + n)))))

/-! ### The ranges of a move -/

def MoveD.srcRows (m : MoveD) : List (Nat × Nat) :=
  (List.range m.rows).map (fun r => (m.src + r * m.sstride, fmtBytes m.sf m.cols))

def MoveD.dstRows (m : MoveD) : List (Nat × Nat) :=
  match m.transform with
  | 0 => (List.range m.rows).map (fun r => (m.dst + r * m.dstride, fmtBytes m.df m.cols))
  | 1 => (List.range m.cols).map (fun c => (m.dst + c * m.dstride, fmtBytes m.df m.rows))
  | _ => [(m.dst, fmtBytes m.df (m.colBlocks * m.depthBlocks * m.blockCols * m.blockDepth))]

/-- The destination tile. -/
def MoveD.tile (m : MoveD) : Nat := (m.dst - scratchBase 0) / 2 ^ 26

/-- The source's scale plane travels (R220). -/
def MoveD.srcScaled (m : MoveD) : Bool := fmtScaled m.sf && m.dt == 0
def MoveD.dstScaled (m : MoveD) : Bool := fmtScaled m.df && m.dt == 0

/-- Bytes of the destination's scale plane. -/
def MoveD.planeBytes (m : MoveD) : Nat :=
  if m.transform = 2 then 2 * (m.colBlocks * m.depthBlocks * m.blockCols * (m.blockDepth / 64)) else 2 * (m.rows * m.cols / 64)

/-- Byte address of the scale plane and of the record in the destination tile. -/
def MoveD.planeAddr (m : MoveD) : Nat := wordAddr m.tile m.dscale
def MoveD.recAddr (m : MoveD) : Nat := wordAddr m.tile m.record

/-- A move uses a scale record. -/
def MoveD.usesRec (m : MoveD) : Bool := m.converts || m.capture

/-- The index of element (r, c), which picks its block of the record and its rounding word (R96, R97, R220). -/
def MoveD.index (m : MoveD) (rowLen r c : Nat) : Nat := (m.row0 + r) * rowLen + m.col0 + c

/-- Element (r, c) in a conversion: its index, and its block of the record. Where a scaled destination's blocks run along contraction rows,
across the tensor's own rows, the 64 elements of a destination block take the block of the first of them (log entry 23). -/
def MoveD.place (m : MoveD) (rowLen r c : Nat) : Nat × Nat :=
  if fmtScaled m.df && m.transform != 0 then
    (m.index rowLen r c, recIndex m.df rowLen (m.index rowLen (r / 64 * 64) c))
  else runElem m.df rowLen (m.index rowLen r 0) c

/-- The parts of the record that the move reads and writes: its header, and the entries of its blocks. -/
def MoveD.recRanges (m : MoveD) (rowLen : Nat) : List (Nat × Nat) :=
  let a := (m.place rowLen 0 0).2
  let b := (m.place rowLen (m.rows - 1) (m.cols - 1)).2
  if m.usesRec then [(m.recAddr, 32), (m.recAddr + 32 + 4 * a, 4 * (b + 1 - a))] else []

/-- Every range that the move reads, and every range that it writes, outside host memory. -/
def MoveD.reads (m : MoveD) (rowLen : Nat) : List (Nat × Nat) :=
  (if m.st = 4 then [] else m.srcRows) ++ (if m.srcScaled then [(m.sscale, 2 * (m.rows * m.cols / 64))] else []) ++
    m.recRanges rowLen

def MoveD.dstRanges (m : MoveD) : List (Nat × Nat) :=
  (if m.dt = 4 then [] else m.dstRows) ++ (if m.dstScaled then [(m.planeAddr, m.planeBytes)] else [])

def MoveD.writes (m : MoveD) (rowLen : Nat) : List (Nat × Nat) := m.dstRanges ++ m.recRanges rowLen

/-! ### What a move writes -/

/-- The rows of a source, as bytes, and whether a sealed operand opened. -/
def State.moveSource (s : State) (p : Nat) (cmd : Option Cmd) (m : MoveD) : List (List Byte) × Bool :=
  let n := fmtBytes m.sf m.cols
  match m.st, cmd with
  | 4, some c =>
    let (bs, ok, _) := s.hostTake c m.src ((m.rows - 1) * m.sstride + n)
    ((List.range m.rows).map (fun r => (bs.drop (r * m.sstride)).take n), ok)
  | _, _ => (m.srcRows.map (fun x => s.partRead p x.1 x.2), true)

/-- Byte i of the free bytes between sealed rows, the same in every run that places these rows there (R4, log entry 24). -/
def gapByte (a i : Nat) (rows : List (List Byte)) : Byte :=
  BitVec.ofNat 8 (Config.freeAt 31 (a :: i :: rows.flatten.map BitVec.toNat))

/-- Rows placed in host memory: in the clear each row at its stride; sealed, one operand from DST to the end of the last row,
whose bytes between rows are free values (log entry 24). -/
def State.hostRows (s : State) (c : Cmd) (a stride : Nat) (rows : List (List Byte)) : State :=
  if s.sealed c.fn then
    let n := (rows.headD []).length
    let all := rows.zipIdx.flatMap (fun r => r.1 ++ (List.range (stride - n)).map (fun i => gapByte a (r.2 * stride + n + i) rows))
    s.hostPut c a (all.take ((rows.length - 1) * stride + n))
  else rows.zipIdx.foldl (fun s r => s.hostWrite (a + r.2 * stride) r.1) s

/-- Write rows of bytes to device ranges. -/
def State.putRanges (s : State) (p : Nat) : List ((Nat × Nat) × List Byte) → State
  | [] => s
  | ((a, _), bs) :: rest => State.putRanges (s.partWrite p a bs) p rest

/-- An element on its way: source encoding and scale, and what the destination takes. -/
structure MoveElem where
  code : Nat
  scale : Nat

/-- Destination rows of encodings, and the scale of each 64-element block in plane order. Places beyond the source are zero
(R219). Scales of a stationary destination whose elements keep a scaled source's encodings are free values: the source's blocks
run across the destination's (log entry 25). -/
def MoveD.layout (m : MoveD) (out : List MoveElem) : List (List Nat) × List Nat :=
  let at_ (r c : Nat) : MoveElem :=
    if r < m.rows ∧ c < m.cols then out.getD (r * m.cols + c) ⟨0, 0⟩ else ⟨0, 0⟩
  match m.transform with
  | 0 =>
    let rows := (List.range m.rows).map (fun r => (List.range m.cols).map (fun c => at_ r c))
    (rows.map (fun r => r.map MoveElem.code),
      rows.flatMap (fun r => (List.range (m.cols / 64)).map (fun j => (r.getD (64 * j) ⟨0, 0⟩).scale)))
  | 1 =>
    let rows := (List.range m.cols).map (fun c => (List.range m.rows).map (fun r => at_ r c))
    (rows.map (fun r => r.map MoveElem.code),
      rows.flatMap (fun r => (List.range (m.rows / 64)).map (fun j => (r.getD (64 * j) ⟨0, 0⟩).scale)))
  | _ =>
    let es := m.statPlaces.map (fun x => at_ x.1 x.2)
    ([es.map MoveElem.code],
      (List.range (es.length / 64)).map (fun j =>
        if fmtScaled m.sf then Config.freeAt 30 (j :: ((es.drop (64 * j)).take 64).map MoveElem.scale) % 2 ^ 16
        else (es.getD (64 * j) ⟨0, 0⟩).scale))

/-- Read, transform and write a move whose ranges have passed their checks; none where a sealed operand fails. -/
def State.moveData (s : State) (p : Nat) (cmd : Option Cmd) (seed step : Nat) (m : MoveD) : Option State :=
  let (rows, ok) := s.moveSource p cmd m
  if !ok then none
  else if m.df == m.sf && m.transform == 0 && !m.capture && !m.dstScaled then
    some (match m.dt, cmd with
      | 4, some c => s.hostRows c m.dst m.dstride rows
      | _, _ => s.putRanges p (m.dstRows.zip rows))
  else
    let tn := (s.part p).cfg.tensor m.tensor
    let codes := rows.flatMap (fun r => unpackElems m.sf r m.cols)
    let plane := if m.srcScaled then s.partRead p m.sscale (2 * (m.rows * m.cols / 64)) else []
    let src : List MoveElem := codes.zipIdx.map (fun x => ⟨x.1, leNat ((plane.drop (2 * (x.2 / 64))).take 2)⟩)
    let dec := src.map (fun x => decodeElem m.sf x.code x.scale)
    let vals : List SrcElem := dec.zipIdx.map (fun x =>
      let at_ := m.place tn.rowLen (x.2 / m.cols) (x.2 % m.cols)
      (at_.1, at_.2, x.1.1))
    let conv := s.convert m.recAddr m.df seed step tn vals
    let wide := src.map (fun x => widenElem m.sf m.df x.code x.scale)
    let (out, fl) : List MoveElem × Nat :=
      if m.converts then ((conv.codes.zip conv.scales).map (fun x => ⟨x.1, x.2⟩), conv.fl)
      else if m.df = m.sf then (src, 0)
      else ((wide.zip src).map (fun x => ⟨x.1.1, x.2.scale⟩), wide.foldl (fun f x => f ||| x.2) 0)
    let fl := if m.usesRec then dec.foldl (fun f x => f ||| x.2) fl else fl
    let (data, scales) := m.layout out
    let s := s.putRanges p (m.dstRows.zip (data.map (fun r => packElems m.df 0 r)))
    let s := if m.dstScaled then s.partWrite p m.planeAddr (scales.flatMap (leBytes 2)) else s
    let s := if m.usesRec then s.recCapture m.recAddr (blockMaxima vals) else s
    let s := if m.converts then s.recClose m.recAddr conv.sats conv.immediate else s
    let words := if m.df = m.sf then 0 else ceilDiv (m.dstRows.foldl (fun n r => n + r.2) 0) 64
    some ((s.flagBank m.tile fl).finc .spBankside m.tile words)

/-- What a transfer wrote meets what words in flight wrote there (R190, R191). -/
def State.landed (new was : State) (req : Nat) (ranges : List (Nat × Nat)) : State :=
  ranges.foldl (fun s r =>
    match spaceOf r.1 with
    | .scratch t o => s.meeting was t req [(o, r.2)]
    | _ => s) new

/-- Codewords with a correctable error that reads of these ranges touch. -/
def State.weakOf (s : State) (p : Nat) (ranges : List (Nat × Nat)) : List Nat :=
  ranges.flatMap (fun r => (s.pieces p r.1 r.2 false).flatMap (fun x => s.weakIn x.1 x.2))

/-- A write of a range by requester `req` (R190). -/
def State.partPut (s : State) (req p a : Nat) (bs : List Byte) : State := (s.partWrite p a bs).landed s req [(a, bs.length)]

/-- Run a move for partition p: every range is checked before any byte is read or written (R44, R50), and no failing move writes. -/
def State.moveRun (s : State) (p : Nat) (who : Nat × Nat) (cmd : Option Cmd) (seed step : Nat) (m : MoveD) : Eff :=
  let rowLen := ((s.part p).cfg.tensor m.tensor).rowLen
  match s.spansFault p false (m.reads rowLen) with
  | some f => failAt who f
  | none =>
    match s.spansFault p true (m.writes rowLen) with
    | some f => failAt who f
    | none =>
      match s.moveData p cmd seed step m with
      | some s' => .ok ((s'.landed s Req.dma (m.writes rowLen)).mend (s.weakOf p (m.reads rowLen)))
      | none => .fail Source.gcmTagFailed Kind.bay (s.lowBay p) m.src

/-- The address rules of a move, checked before its first request (R44). -/
def State.moveAddrs (s : State) (p : Nat) (m : MoveD) : Option (Nat × Nat) :=
  let rowLen := ((s.part p).cfg.tensor m.tensor).rowLen
  match s.addrsFault p false (m.reads rowLen) with
  | some f => some f
  | none => s.addrsFault p true (m.writes rowLen)

/-! ### Moves in flight (R161, R221) -/

/-- Moves of a move engine that are in flight: a tile's, or the chip move engine's (96). -/
def State.movesOf (s : State) (owner : Nat) : List Move := s.moves.filter (fun m => m.owner == owner)

/-- Put a move in flight. -/
def State.addMove (s : State) (owner why ref : Nat) (desc : BitVec 512) (src dst len : Nat) : State :=
  { s with moves := s.moves ++ [{ id := s.nextMove, owner := owner, why := why, ref := ref, desc := desc, src := src, dst := dst,
                                  len := len }], nextMove := s.nextMove + 1 }

def State.dropMove (s : State) (id : Nat) : State := { s with moves := s.moves.filter (fun m => m.id != id) }

/-- ROW_LEN of the tensor that a tile's move names. -/
def State.moveRowLen (s : State) (m : Move) : Nat := ((s.cfgOf m.owner).tensor (moveD m.desc).tensor).rowLen

/-- Ranges that a tile's move in flight reads and writes: a plain copy, or a descriptor. -/
def State.moveReads (s : State) (m : Move) : List (Nat × Nat) :=
  if m.why = 4 then [(m.src, m.len)] else (moveD m.desc).reads (s.moveRowLen m)
def State.moveWrites (s : State) (m : Move) : List (Nat × Nat) :=
  if m.why = 4 then [(m.dst, m.len)] else (moveD m.desc).writes (s.moveRowLen m)

/-- The fabric port that serves an address (R42, R43): a stack's, a bay's LPDDR5X, flash, a tile's, or the chip's. -/
def portOf (a : Nat) : Nat :=
  match spaceOf a with
  | .hbm st _ => st
  | .lp b _ => 100 + b
  | .flash _ => 200
  | .scratch t _ => 300 + t
  | _ => 201

/-- The host's port. -/
abbrev hostPort : Nat := 202

/-- Source and destination port of a move in flight, where it has one of each. -/
def Move.ports (m : Move) : Option (Nat × Nat) :=
  let d := moveD m.desc
  match m.why with
  | 0 | 1 | 2 | 12 => some (if d.st = 4 then hostPort else portOf d.src, if d.dt = 4 then hostPort else portOf d.dst)
  | 3 => some (hostPort, portOf m.dst)
  | 4 | 7 | 8 | 13 | 14 => some (portOf m.src, portOf m.dst)
  | _ => none

/-- A word of the MOV class has put this move in flight. -/
def Move.ofWord (m : Move) : Bool := m.why == 0 || m.why == 4

/-- Two lists of ranges share a byte. -/
def rangesMeet (xs ys : List (Nat × Nat)) : Bool :=
  xs.any (fun x => ys.any (fun y => decide (x.1 < y.1 + y.2) && decide (y.1 < x.1 + x.2)))

/-- The move must wait for an earlier one that has not landed: one with the same source and destination port (R43); a MOV move of the same
tile that touches what this one touches, where one of the two writes there (R161); or, where it is an ATT word's, an earlier one of
its tile (R416; log entry 28). -/
def State.moveHeld (s : State) (m : Move) : Bool :=
  s.moves.any (fun e => decide (e.id < m.id) && (m.ports.isSome && e.ports == m.ports ||
    e.owner == m.owner && decide (e.owner < 96) &&
      (e.ofWord && m.ofWord &&
          (rangesMeet (s.moveWrites e) (s.moveWrites m) || rangesMeet (s.moveWrites e) (s.moveReads m) ||
            rangesMeet (s.moveReads e) (s.moveWrites m)) ||
        (e.why == 5 || e.why == 6) && (m.why == 5 || m.why == 6))))

/-! ### Words that fail after dispatch (R170, R184) -/

/-- A word in flight fails: it leaves the tile without a signal, its tile stops and its step fails. -/
def State.wordFails (s : State) (t : Nat) (f : Flight) (reason source kind inst info : Nat) : State :=
  let s := State.releaseN 16 (s.failWords t (fun g => g.id == f.id)) t
  let s := if (s.tile t).live then s.stopTile t reason f.pc else s
  (s.failStepOf t Status.tileFault (detailOf source (some t))).raise source kind inst info

/-- What becomes of a word in flight whose work answers `e`: `k` where it went well. -/
def State.wordEff (s : State) (t : Nat) (f : Flight) (e : Eff) (k : State → State) : State :=
  match e with
  | .ok s' => k s'
  | .bad r => s.wordFails t f r Source.illegalCommand Kind.tile t r
  | .fail source kind inst info => s.wordFails t f 0 source kind inst info

/-- Change a word in flight. -/
def State.modFlight (s : State) (t id : Nat) (g : Flight → Flight) : State :=
  s.modTile t (fun x => { x with flight := x.flight.map (fun f => if f.id == id then g f else f) })

/-! ### The steep list (R222 to R226) -/

/-- Issue released entries in list order while the move engine has room (R221, R224). An address rule that an entry breaks is met before its
first request (R44). -/
def State.issueSteep : Nat → State → Nat → State
  | 0, s, _ => s
  | n + 1, s, t =>
    let bs := s.steepList t
    let i := (s.tile t).steepIssued
    let e := steepEntry bs i
    if steepCount bs ≤ i ∨ s.fget .steepCursor t < e.gate ∨ 8 ≤ (s.movesOf t).length then s
    else
      let m := moveD e.desc
      match s.moveAddrs ((s.partOfTile t).getD 0) m with
      | some f => s.tileStop t f.1 Kind.tile t f.2
      | none =>
        State.issueSteep n (((s.addMove t 1 i e.desc m.src m.dst 0).modTile t (fun x => { x with steepIssued := i + 1 })).fset
          .steepNext t (i + 1)) t

/-- Entries that are due to signal: landed, with SIG, and every earlier entry of the same GATE landed (R225). -/
def State.steepDue (s : State) (t gate : Nat) : List Nat :=
  let bs := s.steepList t
  let x := s.tile t
  let mine := (List.range (steepCount bs)).filter (fun i => (steepEntry bs i).gate == gate)
  mine.filter (fun i => (steepEntry bs i).sig && !Tab.get false x.steepSignalled i &&
    (mine.filter (fun j => decide (j ≤ i))).all (fun j => Tab.get false x.steepLanded j))

/-- An entry signals: SIG_EV, and the comparison of its elapsed cycles, a free value, with BUDGET (R225, R226; log entry 26). -/
def State.steepSignal (s : State) (t i : Nat) : State :=
  let e := steepEntry (s.steepList t) i
  let (cycles, s) := s.free1
  let s := s.modTile t (fun x => { x with steepSignalled := Tab.set false x.steepSignalled i true })
  let s := if e.budget < cycles then (s.finc .steepOverruns t 1).fset .steepLastOver t e.gate else s
  s.signalTile t e.ev 1

/-! ### Starting MOV words (R161, R170, R221, R224) -/

def cDtile (w : Nat) : Nat := bitsOf w 90 84
def cRsig (w : Nat) : Bool := bitOf w 91
/-- REV is printed as 97:92 and COUNT as 127:96; COUNT takes the bits that both claim (log entry 27). -/
def cRev (w : Nat) : Nat := bitsOf w 95 92
def cCount (w : Nat) : Nat := bitsOf w 127 96

/-- Start one MOV word that waits in the queue. -/
def State.startMov (s : State) (t : Nat) (f : Flight) : State :=
  let w := f.word.toNat
  let p := (s.partOfTile t).getD 0
  if f.op = 1 then
    let cursor := bitsOf w 47 32
    if cursor < s.fget .steepCursor t then s.wordEff t f (.bad Reason.cursor) id
    else State.issueSteep 8 ((s.fset .steepCursor t cursor).modFlight t f.id (fun f => { f with started := true, done := true })) t
  else if f.op = 0 then
    let at_ := bitsOf w 51 32
    match s.spFault t (64 * at_) 64 false with
    | some e => s.wordEff t f e id
    | none =>
      let d := BitVec.ofNat 512 (s.spNat t (64 * at_) 64)
      let m := moveD d
      if !m.legal (s.part p).cfg false then s.wordEff t f (.bad Reason.descriptor) id
      else
        match s.moveAddrs p m with
        | some x => s.wordEff t f (failAt (Kind.tile, t) x) id
        | none =>
          ((s.mend (s.weakIn (scratchBase t + 64 * at_) 64)).modFlight t f.id
            (fun f => { f with started := true, ref := s.nextMove })).addMove t 0 f.id d m.src m.dst 0
  else
    let src := wordAddr t (bitsOf w 51 32)
    let dst := wordAddr (cDtile w) (bitsOf w 83 64)
    let n := 64 * cCount w
    match s.addrsFault p false [(src, n)], s.addrsFault p true [(dst, n)] with
    | some x, _ => s.wordEff t f (failAt (Kind.tile, t) x) id
    | none, some x => s.wordEff t f (failAt (Kind.tile, t) x) id
    | none, none => (s.modFlight t f.id (fun f => { f with started := true, ref := s.nextMove })).addMove t 4 f.id 0 src dst n

/-- The word's descriptor waits for a move of an earlier word of its queue that writes there (R161). -/
def State.descHeld (s : State) (t : Nat) (f : Flight) : Bool :=
  f.op == 0 && (s.movesOf t).any (fun m => m.ofWord && rangesMeet (s.moveWrites m) [(wordAddr t (bitsOf f.word.toNat 51 32), 64)])

/-- Start waiting MOV words in dispatch order while the engine has room for a move (R161, R221). -/
def State.startMovs : Nat → State → Nat → State
  | 0, s, _ => s
  | n + 1, s, t =>
    match (s.tile t).flight.find? (fun f => f.cls == 3 && !f.started) with
    | none => s
    | some f =>
      if s.descHeld t f || f.op != 1 && decide (8 ≤ (s.movesOf t).length) then s else State.startMovs n (s.startMov t f) t

/-- The move engine of tile t takes what waits for it. -/
def State.moveEngine (s : State) (t : Nat) : State := State.issueSteep 8 (State.startMovs 16 s t) t

/-- Dispatch a MOV word into its queue. -/
def State.movWord (s : State) (t w : Nat) (writes : Bool) : State := (s.enqueue t w writes false false 0).moveEngine t

/-- MOV.DESC (R217 to R221). -/
def execMovDesc (t : Nat) (s : State) : Host.Outcome State Fault Refusal :=
  .next (s.tileRow t 3 0 fmtNone (fun _ => [(51, 32)]) (fun s w => s.movWord t w true))

/-- MOV.STEEP (R224). -/
def execMovSteep (t : Nat) (s : State) : Host.Outcome State Fault Refusal :=
  .next (s.tileRow t 3 1 fmtNone (fun _ => [(47, 32)]) (fun s w => s.movWord t w false))

/-- MOV.COPY (R170, R178). -/
def execMovCopy (t : Nat) (s : State) : Host.Outcome State Fault Refusal :=
  .next (s.tileRow t 3 2 fmtNone
    (fun w => [(51, 32), (83, 64), (91, 84), (127, 96)] ++ (if cRsig w then [(95, 92)] else []))
    (fun s w => if cCount w = 0 ∨ spWords < cCount w then s.illegal t Reason.fieldRange else s.movWord t w true))

/-! ### Landing -/

/-- The flash rows that a move reads enter the capture (R498). -/
def State.moveFlash (s : State) (p : Nat) (d : MoveD) : State :=
  ((if d.st = 3 then d.srcRows else []) ++
      (if d.srcScaled && portOf d.sscale == 200 then [(d.sscale, 2 * (d.rows * d.cols / 64))] else [])).foldl
    (fun s x => s.flashReads p (x.1 - flashBase - (s.nsRange p).1) (s.devRead x.1 x.2)) s

/-- A tile's move or copy, read and written at once. -/
def State.landTile (s : State) (m : Move) : Eff :=
  let t := m.owner
  let p := (s.partOfTile t).getD 0
  if m.why = 4 then
    match s.spansFault p false [(m.src, m.len)], s.spansFault p true [(m.dst, m.len)] with
    | some x, _ => failAt (Kind.tile, t) x
    | none, some x => failAt (Kind.tile, t) x
    | none, none => .ok ((s.partPut Req.dma p m.dst (s.partRead p m.src m.len)).mend (s.weakOf p [(m.src, m.len)]))
  else (s.moveFlash p (moveD m.desc)).moveRun p (Kind.tile, t) none (s.tile t).seed (s.stepWord t) (moveD m.desc)

/-- A MOV word's move lands (R163, R178, R221). -/
def State.landMov (s : State) (m : Move) : State :=
  let t := m.owner
  let s := s.dropMove m.id
  let s :=
    match (s.tile t).flight.find? (fun f => f.cls == 3 && f.id == m.ref && f.started), s.landTile m with
    | some f, e =>
      s.wordEff t f e (fun s =>
        let s := if m.why = 4 ∧ cRsig f.word.toNat then s.signalTile (cDtile f.word.toNat) (cRev f.word.toNat) 1 else s
        s.completeWord t f)
    | none, .ok s' => s'
    | none, _ => s
  s.moveEngine t

/-- A steep-list entry of an earlier launch lands: its bytes, and no signal; where it fails, its fault (R44, R50, R224). -/
def State.landOld (s : State) (m : Move) : State :=
  let s := s.dropMove m.id
  (match s.landTile m with
    | .ok s' => s'
    | .bad r => s.tileStop m.owner Source.illegalCommand Kind.tile m.owner r
    | .fail source kind inst info => s.tileStop m.owner source kind inst info).moveEngine m.owner

/-- Launch a tile and its steep list: moves that an earlier launch's list still has in flight no longer signal, and entries of
GATE 0 issue (R156, R224). -/
def State.startTile (s : State) (t entry stepNo seed arg : Nat) (rollout : Bool) : State :=
  let s := { s with moves := s.moves.map (fun m : Move => if m.owner == t && m.why == 1 then { m with why := 12 } else m) }
  State.issueSteep 8 (s.launchTile t entry stepNo seed arg rollout) t

end Sys2Proof.Machine
end

