-- ==== Sys2Proof/Machine/Attention.lean ====
section
/-!
DEFINITION. The page walker and the ATT words (R402, R403, R414 to R417).
-/

namespace Sys2Proof.Machine

/-! ### Fields (*Engine word fields*, ATT) -/

def aLayer (w : Nat) : Nat := bitsOf w 27 20
def aPlace (w : Nat) : Nat := bitsOf w 51 32
def aCount (w : Nat) : Nat := bitsOf w 79 64 + 1

/-- Words of a latent row (R402). -/
def rowWordsKv : Nat := 18

/-- Failure reasons of KV_FAULT. -/
abbrev AttReason.notLive : Nat := 1
abbrev AttReason.layer : Nat := 2
abbrev AttReason.outOfRange : Nat := 3
abbrev AttReason.remote : Nat := 4
abbrev AttReason.noFrame : Nat := 5

/-! ### Tables as the walker reads them (R407, R417) -/

/-- Device address of a page-table entry of bay b. -/
def State.entryAddr (s : State) (p b slot fret : Nat) : Nat :=
  let c := (s.part p).cfg
  (c.ptBase b).getD 0 + 64 * (c.seq b).maxSeq + 4 * slot * c.tableEntries b + 4 * fret

/-- A page-table entry. -/
def State.tableEntry (s : State) (p b slot fret : Nat) : Nat := Mem.readNat s.dev (s.entryAddr p b slot fret) 4

/-- Device address of the row of a position in a layer; 0 where its frame lies nowhere. -/
def State.rowAddr (s : State) (p b slot layer pos : Nat) : Nat :=
  match s.frameAt p (bitsOf (s.tableEntry p b slot (pos / 256)) 23 0) with
  | some (_, base) => base + layer * 294912 + pos % 256 * 1152
  | none => 0

/-- The length-table entry of a slot in the step that bay b runs. -/
def State.fedEntry (s : State) (b slot : Nat) : Option LenEntry := (s.bay b).entries.find? (fun e => e.slot == slot)

/-- The first reason of R415 that fails a WALK or an APPEND of `count` positions from `pos`. -/
def State.attReason (s : State) (p b slot layer pos count : Nat) (append : Bool) : Option Nat :=
  match s.fedEntry b slot with
  | none => some AttReason.notLive
  | some e =>
    if s.kvLayers p ≤ layer then some AttReason.layer
    else if e.pos0 + e.count < pos + count ∨ (append ∧ pos < e.pos0) then some AttReason.outOfRange
    else
      (List.range count).findSome? (fun i =>
        let kind := bitsOf (s.tableEntry p b slot ((pos + i) / 256)) 29 28
        if kind = 2 then some AttReason.remote else if kind = 0 then some AttReason.noFrame else none)

/-- Frets that positions pos to pos + count - 1 lie in. -/
def fretsOf (pos count : Nat) : List Nat := (List.range ((pos + count - 1) / 256 + 1 - pos / 256)).map (fun i => pos / 256 + i)

/-- Entries that a tile's walker can keep: one u32 each, up to the size of its KV_FRETS pool (R417). -/
def State.cacheRoom (s : State) (t : Nat) : Nat := ((s.cfgOf t).pool t 1).2 / 4

/-- The walker reads the entries of these frets: each one it holds no copy of counts as a miss, and is kept while there is room. -/
def State.walkEntries (s : State) (t slot : Nat) (frets : List Nat) : State :=
  frets.foldl (fun s f =>
    let key := 65536 * slot + f
    if Tab.get false (s.tile t).walkCache key then s
    else
      let s := s.finc .kvTableMisses (t / 8) 1
      if (s.tile t).walkCache.length < s.cacheRoom t then
        s.modTile t (fun x => { x with walkCache := Tab.set false x.walkCache key true })
      else s) s

/-- Record an ATT_RANGE failure in KV_FAULT, which keeps the first (R415). -/
def State.attFault (s : State) (t slot reason : Nat) : State :=
  let b := t / 8
  if s.fget .kvFaultValid b = 1 then s
  else (((s.fset .kvFaultValid b 1).fset .kvFaultTile b t).fset .kvFaultReason b reason).fset .kvFaultSlot b slot

/-! ### Starting and landing (R414 to R416) -/

/-- Slot and position that a queued ATT word holds from its dispatch. -/
def attRef (slot pos : Nat) : Nat := slot + 2 ^ 64 * (pos % 2 ^ 32)
def attSlot (ref : Nat) : Nat := ref % 2 ^ 64
def attPos (ref : Nat) : Nat := ref / 2 ^ 64

/-- (scratchpad word, frame row address) of each position of a WALK or APPEND. -/
def State.attRows (s : State) (t : Nat) (f : Flight) : List (Nat × Nat) :=
  let w := f.word.toNat
  let p := (s.partOfTile t).getD 0
  (List.range (aCount w)).map (fun i =>
    (wordAddr t (aPlace w + rowWordsKv * i), s.rowAddr p (t / 8) (attSlot f.ref) (aLayer w) (attPos f.ref + i)))

/-- Start one ATT word: INFO reads the slot's length, which is free for a slot with no live sequence (log entry 29); WALK and
APPEND make every check and become a move. -/
def State.startAtt (s : State) (t : Nat) (f : Flight) : State :=
  let w := f.word.toNat
  let b := t / 8
  let p := (s.partOfTile t).getD 0
  let slot := attSlot f.ref
  if f.op = 2 then
    let v := match (s.bay b).live.find? (fun q => q.slot == slot) with
      | some q => q.len
      | none => Config.freeAt 43 [b, slot] % 2 ^ 64
    (s.modTile t (fun x => x.setSreg (bitsOf w 56 52 + 1) v)).modFlight t f.id (fun f => { f with started := true, done := true })
  else
    match s.attReason p b slot (aLayer w) (attPos f.ref) (aCount w) (f.op == 1) with
    | some r => (s.attFault t slot r).wordFails t f 0 Source.attRange Kind.tile t r
    | none =>
      let frets := fretsOf (attPos f.ref) (aCount w)
      match s.spFault t (64 * aPlace w) (64 * rowWordsKv * aCount w) (f.op == 0),
          s.spansFault p false (frets.map (fun x => (s.entryAddr p b slot x, 4))) with
      | some e, _ => s.wordEff t f e id
      | none, some x => s.wordEff t f (failAt (Kind.tile, t) x) id
      | none, none =>
        ((s.walkEntries t slot frets).modFlight t f.id (fun f => { f with started := true })).addMove t (5 + f.op) f.id 0
          (wordAddr t (aPlace w)) 0 (64 * rowWordsKv * aCount w)

/-- Start waiting ATT words in dispatch order while the tile's move engine has room (R161, R221, R416). -/
def State.startAtts : Nat → State → Nat → State
  | 0, s, _ => s
  | n + 1, s, t =>
    match (s.tile t).flight.find? (fun f => f.cls == 7 && !f.started) with
    | none => s
    | some f => if f.op != 2 && decide (8 ≤ (s.movesOf t).length) then s else State.startAtts n (s.startAtt t f) t

/-- A WALK or an APPEND lands: its rows are copied whole (R402, R414). -/
def State.landAtt (s : State) (m : Move) : State :=
  let t := m.owner
  let p := (s.partOfTile t).getD 0
  let s := s.dropMove m.id
  let s :=
    match (s.tile t).flight.find? (fun f => f.cls == 7 && f.id == m.ref && f.started) with
    | none => s
    | some f =>
      let rows : List (Nat × Nat) := s.attRows t f
      let walk := m.why == 5
      let from_ : List (Nat × Nat) := rows.map (fun r : Nat × Nat => if walk then (r.2, 1152) else (r.1, 1152))
      let into : List (Nat × Nat) := rows.map (fun r : Nat × Nat => if walk then (r.1, 1152) else (r.2, 1152))
      match s.spansFault p false from_, s.spansFault p true into with
      | some x, _ => s.wordEff t f (failAt (Kind.tile, t) x) id
      | none, some x => s.wordEff t f (failAt (Kind.tile, t) x) id
      | none, none =>
        let weak := s.weakOf p from_
        let s := ((s.putRanges p (into.zip (from_.map (fun r : Nat × Nat => s.partRead p r.1 r.2)))).landed s Req.dma into).mend weak
        let s := if walk then s.finc .kvWalkRows (t / 8) rows.length else s.finc .kvAppendRows (t / 8) rows.length
        s.completeWord t f
  State.startAtts 16 (s.moveEngine t) t

/-- Dispatch an ATT word into its queue. -/
def State.attWord (s : State) (t w : Nat) (writes : Bool) : State :=
  let x := s.tile t
  State.startAtts 16 (s.enqueue t w writes false false (attRef (x.sreg (bitsOf w 56 52)) (x.sreg (bitsOf w 61 57)))) t

/-- Fields of WALK and APPEND. -/
def attUses (_ : Nat) : List (Nat × Nat) := [(27, 20), (51, 32), (61, 52), (79, 64)]

/-- ATT.WALK (R414 to R417). -/
def execAttWalk (t : Nat) (s : State) : Host.Outcome State Fault Refusal :=
  .next (s.tileRow t 7 0 (fun f => f == 1) attUses (fun s w => s.attWord t w true))

/-- ATT.APPEND (R414 to R416). -/
def execAttAppend (t : Nat) (s : State) : Host.Outcome State Fault Refusal :=
  .next (s.tileRow t 7 1 (fun f => f == 1) attUses (fun s w => s.attWord t w true))

/-- ATT.INFO (R414). S[SEQREG + 1] must name a register (log entry 29). -/
def execAttInfo (t : Nat) (s : State) : Host.Outcome State Fault Refusal :=
  .next (s.tileRow t 7 2 fmtNone (fun _ => [(56, 52)]) (fun s w =>
    if bitsOf w 56 52 = 31 then s.illegal t Reason.fieldRange else s.attWord t w false))

end Sys2Proof.Machine
end

