-- ==== Sys2Proof/Machine/Sampler.lean ====
section
/-!
DEFINITION. Draws, candidate lists, sampling and verification (R375 to R381).
-/

namespace Sys2Proof.Machine

/-! ### Binary64 on encodings (R378) -/

def d64 (b : Nat) : Val := FFmt.fp64.decode b
def f64add (a b : Nat) : Nat := (FFmt.fp64.add (d64 a) (d64 b)).bits
def f64sub (a b : Nat) : Nat := (FFmt.fp64.add (d64 a) (d64 b).negate).bits
def f64mul (a b : Nat) : Nat := (FFmt.fp64.mul (d64 a) (d64 b)).bits
def f64div (a b : Nat) : Nat := (FFmt.fp64.div (d64 a) (d64 b)).bits
def f64lt (a b : Nat) : Bool := Val.lt (d64 a) (d64 b)
def f64one : Nat := 0x3FF0_0000_0000_0000
/-- An FP32 encoding as binary64, which is exact. -/
def f64of32 (b : Nat) : Nat := (FFmt.fp64.ofVal (f32 b)).bits

/-- exp of a binary64 value. -/
def f64exp (b : Nat) : Nat :=
  match d64 b with
  | .fin neg m e => exp64 neg m e
  | .inf neg => if neg then 0 else FFmt.fp64.infBits
  | .nan _ => FFmt.fp64.nanBits

/-- ln of m × 2^e rounded once to FP32 (R379; log entry 30). -/
def ln32 (m : Nat) (e : Int) : Nat :=
  if m = 2 ^ m.log2 && (m.log2 : Int) + e == 0 then 0
  else
    let v : Int := ((m.log2 : Int) + e) * (fxLn2 : Int) + ((fxLn1 m (2 ^ m.log2) : Nat) : Int)
    (FFmt.fp32.round (decide (v < 0)) (2 * v.natAbs + 1) 1 (-(fxBits : Int) - 1)).bits

/-! ### Draws (R377) -/

abbrev Purpose.draft : Nat := 0
abbrev Purpose.accept : Nat := 1
abbrev Purpose.main : Nat := 2

/-- The first two output words of a draw. -/
def drawWords (seed seqId pos purpose : Nat) : Nat × Nat :=
  let w := philox seed (seed / 2 ^ 32) pos seqId (0x0001_0000 + purpose) 0
  (w.getD 0 0, w.getD 1 0)

/-- A draw in [0, 1), as binary64. -/
def drawU (seed seqId pos purpose : Nat) : Nat :=
  let (w0, w1) := drawWords seed seqId pos purpose
  (FFmt.fp64.round false (w0 * 2 ^ 21 + w1 / 2 ^ 11) 1 (-53)).bits

/-! ### Lists (R375, R376) -/

structure Listed where
  count : Nat
  draft : Nat
  /-- (token, z in FP32). -/
  es : List (Nat × Nat)

/-- Bytes of a list slot. -/
def slotBytes (k : Nat) : Nat := 16 + 8 * k

/-- Read a list slot. -/
def State.readList (s : State) (a k : Nat) : Listed :=
  let n := Mem.readNat s.dev a 4
  { count := n, draft := Mem.readNat s.dev (a + 4) 4,
    es := (List.range (min n k)).map (fun i => (Mem.readNat s.dev (a + 16 + 8 * i) 4, Mem.readNat s.dev (a + 20 + 8 * i) 4)) }

/-- z descending, and tokens ascending where z is equal. -/
def listSorted : List (Nat × Nat) → Bool
  | [] => true
  | [_] => true
  | a :: b :: rest => (Val.lt (f32 b.2) (f32 a.2) || (Val.eq (f32 a.2) (f32 b.2) && decide (a.1 < b.1))) && listSorted (b :: rest)

/-- A list keeps R375. -/
def Listed.ok (l : Listed) (k : Nat) (draft : Bool) : Bool :=
  decide (1 ≤ l.count) && decide (l.count ≤ k) && listSorted l.es && l.es.all (fun e => f32isFinite e.2) &&
    (!draft || l.es.any (fun e => e.1 == l.draft))

/-! ### Distributions (R378) -/

/-- The kept entries of a list: token, e and running sum, and the last sum. -/
structure Dist where
  kept : List (Nat × Nat × Nat)
  total : Nat

/-- Running sums in list order. -/
def runningSums : Nat → List Nat → List Nat
  | _, [] => []
  | acc, e :: rest => f64add acc e :: runningSums (f64add acc e) rest

def distOf (topK topP : Nat) (l : Listed) : Dist :=
  let es := l.es.take topK
  let z0 := f64of32 ((es.headD (0, 0)).2)
  let e := es.map (fun x => f64exp (f64sub (f64of32 x.2) z0))
  let sums := match e with
    | [] => []
    | x :: rest => x :: runningSums x rest
  let limit := f64mul (f64of32 topP) (sums.getLastD 0)
  let m := ((sums.findIdx? (fun c => !f64lt c limit)).getD (sums.length - 1)) + 1
  { kept := (es.zip (e.zip sums)).take m |>.map (fun x => (x.1.1, x.2.1, x.2.2)), total := sums.getD (m - 1) 0 }

/-- Probability of a token, as binary64. -/
def Dist.prob (d : Dist) (token : Nat) : Nat :=
  match d.kept.find? (fun x => x.1 == token) with
  | some x => f64div x.2.1 d.total
  | none => 0

/-- The first entry of running sums for which u × total lies below its sum; none where there is none. -/
def pick (sums : List (Nat × Nat)) (total u : Nat) : Option Nat :=
  (sums.find? (fun x => f64lt (f64mul u total) x.2)).map Prod.fst

/-- The token that a draw samples. Where no running sum lies above the draw the last kept entry is taken (log entry 31). -/
def Dist.sample (d : Dist) (u : Nat) : Nat :=
  (pick (d.kept.map (fun x => (x.1, x.2.2))) d.total u).getD ((d.kept.getLastD (0, 0, 0)).1)

/-- The behaviour log-probability of a token, FP32 (R379); a token of probability 0 has a free one (log entry 31). -/
def Dist.logp (d : Dist) (token : Nat) (at_ : List Nat) : Nat :=
  match d64 (d.prob token) with
  | .fin _ m e => if m = 0 then Config.freeAt 40 (token :: at_) % 2 ^ 32 else ln32 m e
  | _ => Config.freeAt 40 (token :: at_) % 2 ^ 32

/-- A delivered token: the token, whether a draft was accepted, its log-probability. -/
abbrev Given := Nat × Bool × Nat

/-- Sample one token from a main list at a position (R378, R379). -/
def sampleOne (temp topK topP seed seqId pos : Nat) (l : Listed) : Given :=
  if temp = 0 then ((l.es.headD (0, 0)).1, false, 0)
  else
    let d := distOf topK topP l
    let t := d.sample (drawU seed seqId pos Purpose.main)
    (t, false, d.logp t [seed, seqId, pos])

/-- Sample from the residual r(y) = max(0, p(y) - q(y)) (R380); a residual of zeros leaves the token free among the kept entries
(log entry 31). -/
def residual (p q : Dist) (u : Nat) (at_ : List Nat) : Nat :=
  let r := p.kept.map (fun x =>
    let d := f64sub (p.prob x.1) (q.prob x.1)
    (x.1, if f64lt 0 d then d else 0))
  let sums := match r with
    | [] => []
    | x :: rest => x.2 :: runningSums x.2 (rest.map Prod.snd)
  match pick ((r.map Prod.fst).zip sums) (sums.getLastD 0) u with
  | some t => t
  | none => (p.kept.getD (Config.freeAt 41 at_ % max 1 p.kept.length) (0, 0, 0)).1

/-- A draft token is accepted at a position: the ACCEPT draw lies below min(1, p / q). A token outside the draft's kept entries is
accepted when p is above 0, and freely when p is 0 too (log entry 31). -/
def accepts (p q : Dist) (x u : Nat) (at_ : List Nat) : Bool :=
  let px := p.prob x
  let qx := q.prob x
  if qx = 0 then (if px = 0 then Config.freeAt 42 (x :: at_) % 2 == 1 else f64lt u f64one)
  else
    let a := f64div px qx
    f64lt u (if f64lt a f64one then a else f64one)

/-- Take the drafts in order from position `pos`: the accepted ones and then exactly one main-model token (R380). What spec/ leaves open is
a function of seed, sequence and position (R5, log entry 31). -/
def verify (temp topK topP seed seqId : Nat) : Nat → List Listed → List Listed → List Given
  | _, [], _ => []
  | pos, m :: _, [] => [sampleOne temp topK topP seed seqId pos m]
  | pos, m :: ms, l :: ls =>
    let x := l.draft
    let at_ := [seed, seqId, pos]
    if temp = 0 then
      let top := (m.es.headD (0, 0)).1
      if x = top then (x, true, 0) :: verify temp topK topP seed seqId (pos + 1) ms ls else [(top, false, 0)]
    else
      let p := distOf topK topP m
      let q := distOf topK topP l
      if accepts p q x (drawU seed seqId pos Purpose.accept) at_ then
        (x, true, p.logp x at_) :: verify temp topK topP seed seqId (pos + 1) ms ls
      else
        let y := residual p q (drawU seed seqId pos Purpose.main) at_
        [(y, false, p.logp y at_)]

/-! ### Draft depth (R381) -/

/-- Depth, counts and the off mark after a pass of depth d that accepted `acc` drafts; a pass of depth 0 changes nothing. -/
def Seq.adapt (q : Seq) (cap d acc : Nat) : Seq :=
  if d = 0 then q
  else
    let zs := if acc = 0 then q.zero + 1 else 0
    let full := if acc = 0 then 0 else if acc = d then q.full + 1 else 0
    if 4 ≤ zs ∧ 1 < q.depth then { q with depth := q.depth / 2, zero := 0, full := full }
    else if 4 ≤ full then { q with depth := min (2 * q.depth) cap, zero := zs, full := 0 }
    else if 16 ≤ zs ∧ q.depth = 1 then { q with depth := 0, off := true, zero := zs, full := full }
    else { q with zero := zs, full := full }

end Sys2Proof.Machine
end

