-- ==== Sys2Proof/Machine/Sequencer.lean ====
section
/-!
DEFINITION. The rollout sequencer of a bay: admission, token buffers, the choice of work, the length table, launches, and the
outcome of a step (R366 to R393, R404 to R411).
-/

namespace Sys2Proof.Machine

/-- Roles of the tiles of a rollout step (field 0x02.0x01). -/
abbrev Role.learn : Nat := 1
abbrev Role.decode : Nat := 2
abbrev Role.draft : Nat := 3
abbrev Role.auxiliary : Nat := 4

/-! ### Token buffers (R367, R444) -/

/-- The submitting command as the owner of a host buffer. -/
def Seq.asCmd (q : Seq) (p : Nat) : Cmd :=
  { id := 0, fn := q.fn, ring := q.ring, slot := 0, part := p, desc := 0, ctr := q.ctr, started := true, stage := 0, rseq := q.rseq,
    replayed := false }

/-- The token buffer lies in host memory. -/
def Seq.inHost (q : Seq) : Bool := bitOf q.flags 0

/-- Segment j of a sealed token buffer: as the host sealed it, or as the sequencer did; free bytes where neither opens (log
entry 33). -/
def State.tokenSegment (s : State) (q : Seq) (j : Nat) : List Byte :=
  let a := q.buf + 4160 * j
  let open_ (dir unit : Nat) : Option (List Byte) :=
    Config.gcmOpen (s.dataKey (q.fn - 1) dir) (gcmIv unit q.ring q.ctr j) (leBytes 8 a) (s.hostRead a 4096) (s.hostRead (a + 4096) 16)
  match open_ 0 0x02 with
  | some bs => bs
  | none => (open_ 1 0x12).getD ((List.range 4096).map (fun i => BitVec.ofNat 8 (Config.freeAt 44 [q.id, j, i])))

/-- The token at index i of a host buffer as a replay run's records give it (R501). -/
def State.replayToken (s : State) (p : Nat) (q : Seq) (i : Nat) : Option Nat :=
  let a := q.buf + 4 * i
  ((s.part p).replayRun.bind (fun r => if r.live then
      r.data.find? (fun x => x.2.1 == q.rseq && !bitOf x.2.2.2.1 0 && decide (x.2.2.1 ≤ a) && decide (a + 4 ≤ x.2.2.1 + x.2.2.2.2.length))
    else none)).map (fun x => leNat ((x.2.2.2.2.drop (a - x.2.2.1)).take 4))

/-- Token at position i of a sequence: its buffer's, or the home's word for it on another rank (R367, R393; log entry 35). -/
def State.token (s : State) (p : Nat) (q : Seq) (i : Nat) : Nat :=
  match q.told.find? (fun x => x.1 == i), s.replayToken p q i with
  | some x, _ => x.2
  | none, some x => x
  | none, none =>
    if q.inHost then
      if s.sealed q.fn then leNat (((s.tokenSegment q (4 * i / 4096)).drop (4 * i % 4096)).take 4)
      else leNat (s.hostRead (q.buf + 4 * i) 4)
    else leNat (s.partRead p (q.buf + 4 * i) 4)

/-- Write the token at index i of a sequence's buffer. A replay run writes no host memory, and keeps the token itself (R501). -/
def State.putToken (s : State) (p : Nat) (q : Seq) (i tok : Nat) : State :=
  if q.inHost then
    if s.replays p then
      let note (x : Seq) : Seq := if x.id == q.id then { x with told := x.told ++ [(i, tok)] } else x
      (s.baysOf p).foldl (fun s b => s.modBay b (fun x => { x with live := x.live.map note })) s
    else if s.sealed q.fn then
      let j := 4 * i / 4096
      let a := q.buf + 4160 * j
      let plain := Mem.read (Mem.write (Mem.write [] 0 (s.tokenSegment q j)) (4 * i % 4096) (leBytes 4 tok)) 0 4096
      let (c, tag) := Config.gcmSeal (s.dataKey (q.fn - 1) 1) (gcmIv 0x12 q.ring q.ctr j) (leBytes 8 a) plain
      s.hostWrite a (c.take 4096 ++ tag.take 16 ++ List.replicate 48 0)
    else s.hostWrite (q.buf + 4 * i) (leBytes 4 tok)
  else s.partWrite p (q.buf + 4 * i) (leBytes 4 tok)

/-- The tokens that a step's table takes from host memory enter the capture, or are compared in a replay run (R498, R501). -/
def State.captureTokens (s : State) (p : Nat) (es : List (LenEntry × Seq)) : State :=
  (es.filter (fun x => x.2.inHost)).foldl (fun s x =>
    let n := if x.1.kind = 2 then 1 else x.1.count
    let a := x.2.buf + 4 * x.1.pos0
    let bs := (List.range n).flatMap (fun i => leBytes 4 (s.token p x.2 (x.1.pos0 + i)))
    if s.replays p then (s.replayHost p x.2.rseq a bs).2 else s.captureHost p x.2.rseq a bs) s

/-! ### Boundaries in a capture (R498, R501) -/

/-- The BOUNDARY record that a replay run holds for bay b at its present step: the sequences it admits. -/
def State.boundaryRow (s : State) (p b : Nat) : Option (Nat × List Nat) :=
  match (s.part p).replayRun with
  | none => none
  | some r =>
    (r.rows.find? (fun x => x.1 == 6 && leField x.2.2.2 0 0 == b && leField x.2.2.2 15 8 == s.fget .seqStep b)).map (fun x =>
      (x.2.2.1, (List.range (leField x.2.2.2 3 2)).map (fun i => leField x.2.2.2 (19 + 4 * i) (16 + 4 * i))))

/-- A replay run admits only the sequences of its BOUNDARY record. -/
def State.replayBars (s : State) (p b id : Nat) : Bool := s.replays p && !(s.boundaryRow p b).any (fun x => x.2.contains id)

/-- Do the work of a boundary, and record it where admissions, cancels, edits or a barrier event applied: the bay, the events (bit 0
admissions, bit 1 cancels, bit 2 edits, bit 3 the barrier), the count of sequences, SEQ_STEP, and their identifiers. A replay run consumes
its record. -/
def State.boundary (s : State) (p b : Nat) (k : State → State) : State :=
  let step := s.fget .seqStep b
  let x := s.bay b
  let s' := k s
  let new := ((s'.bay b).live.filter (fun q => !x.live.any (fun y => y.id == q.id))).map Seq.id
  let events := bitNat (!new.isEmpty) + 2 * bitNat (!x.cancels.isEmpty && (s'.bay b).cancels.isEmpty) +
    4 * bitNat (!x.edits.isEmpty && (s'.bay b).edits.isEmpty) + 8 * bitNat (s.fget .seqBarrier b != s'.fget .seqBarrier b)
  if events = 0 then s'
  else if s.replays p then
    match s.boundaryRow p b with
    | some (n, _) => s'.modPart p (fun y => { y with replayRun := y.replayRun.map (fun r => { r with rows := r.rows.filter (fun x => x.2.2.1 != n) }) })
    | none => s'
  else
    let ids := new ++ x.cancels.map Prod.fst ++ x.edits.map (fun e => e.2.2.1)
    s'.capture p 6 0 (leBytes 1 b ++ leBytes 1 events ++ leBytes 2 ids.length ++ leBytes 4 0 ++ leBytes 8 step ++ ids.flatMap (leBytes 4))

/-! ### Sequences of a bay -/

/-- Change the live sequence of an identifier. -/
def State.modSeq (s : State) (b id : Nat) (f : Seq → Seq) : State :=
  s.modBay b (fun x => { x with live := x.live.map (fun q => if q.id == id then f q else q) })

/-- The bay of partition p that holds a sequence. -/
def State.bayOfSeq (s : State) (p id : Nat) : Option Nat :=
  (s.baysOf p).find? (fun b => (s.bay b).live.any (fun q => q.id == id) || (s.bay b).queue.any (fun q => q.id == id))

/-- The bay of partition p on which a sequence is live, and the sequence. -/
def State.liveSeq (s : State) (p id : Nat) : Option (Nat × Seq) :=
  (s.baysOf p).findSome? (fun b => ((s.bay b).live.find? (fun q => q.id == id)).map (fun q => (b, q)))

/-- The sequence awaits prefill. -/
def Seq.filling (q : Seq) : Bool := decide (q.fed < q.target)

/-- Largest draft depth of a sequence (R381). -/
def Seq.cap (q : Seq) (c : SeqCfg) : Nat := min q.depthReq c.depthMax

/-- Applied top-k. -/
def Seq.k (q : Seq) (c : SeqCfg) : Nat := if q.topK = 0 then c.topK else min q.topK c.topK

/-- Write the tables of every live sequence of a bay (R407). -/
def State.writeTables (s : State) (p b : Nat) : State := (s.bay b).live.foldl (fun s q => s.writeTable p b q) s

/-- Admit queued sequences while R369 allows (row 7). -/
def State.takeIn : Nat → State → Nat → Nat → State
  | 0, s, _, _ => s
  | n + 1, s, p, b =>
    let x := s.bay b
    let c := (s.part p).cfg.seq b
    match x.queue, (List.range c.maxSeq).find? (fun i => !x.live.any (fun q => q.slot == i)) with
    | q :: rest, some slot =>
      if x.live.any (fun q => x.waited.contains q.order) || s.fget .seqBarrier b == 1 || !s.kvReady p b || s.replayBars p b q.id then s
      else
        let q := { q with slot := slot, len := q.promptLen, fed := 0, target := q.promptLen, depth := q.cap c, zero := 0, full := 0,
                          off := false, made := 0, high := 0, oldLimit := 0, mixed := false, reservedTo := 0, frames := [],
                          order := x.admitted }
        let s := s.setBay b { x with queue := rest, live := x.live ++ [q], admitted := x.admitted + 1 }
        State.takeIn n (s.writeTable p b q) p b
    | _, _ => s

/-! ### Page-table edits (R410, R411) -/

/-- Apply one edit and complete its command. -/
def State.applyEdit (s : State) (p b : Nat) (e : Nat × Nat × Nat × Nat) : State :=
  let (cmd, op, id, positions) := e
  match (s.bay b).live.find? (fun q => q.id == id) with
  | none => s.finish cmd Status.unknownSeq 0 0
  | some q =>
    if op = 0 then
      let want := (List.range (ceilDiv positions 256)).filter (fun f => s.holdsFret p q f && !q.frames.any (fun x => x.1 == f))
      match s.takeFrames p b want [] [] with
      | none => s.finish cmd Status.noFrames 0 0
      | some got =>
        let q' := { q with frames := q.frames ++ got, reservedTo := positions }
        ((s.modSeq b id (fun _ => q')).writeTable p b q').finish cmd Status.ok 0 0
    else
      let keep := q.frames.filter (fun x => decide (256 * x.1 < positions) || decide (256 * x.1 < q.len + 16))
      let q' := { q with frames := keep, reservedTo := 0 }
      ((s.modSeq b id (fun _ => q')).writeTable p b q').finish cmd Status.ok 0 0

/-- Apply the queued edits of a bay in order (row 5). -/
def State.applyEdits (s : State) (p b : Nat) : State :=
  let es := (s.bay b).edits
  es.foldl (fun s e => s.applyEdit p b e) (s.modBay b (fun x => { x with edits := [] }))

/-! ### The choice of work (R370, R387, R406) -/

structure Choice where
  /-- Entries with the sequences they feed. -/
  es : List (LenEntry × Seq)
  /-- Frames given: (sequence, fret, frame). -/
  got : List (Nat × Nat × Nat)
  /-- Positions given so far, and table bytes. -/
  used : Nat
  size : Nat
  /-- Sequences that wait for a fret. -/
  waits : List Nat
  nextSlot : Nat

/-- Frets for positions lo to hi that the sequence must still be given. -/
def State.needFrets (s : State) (p : Nat) (q : Seq) (lo hi : Nat) : List Nat :=
  (fretsOf lo (hi + 1 - lo)).filter (fun f => s.holdsFret p q f && !q.frames.any (fun x => x.1 == f))

/-- Give frets beside those the choice has given already. -/
def State.giveFrets (s : State) (p b : Nat) (ch : Choice) (q : Seq) (lo hi : Nat) : Option (List (Nat × Nat × Nat)) :=
  (s.takeFrames p b (s.needFrets p q lo hi) (ch.got.map (fun x => x.2.2)) []).map
    (fun l => l.map (fun x => (q.id, x.1, x.2)))

/-- Smallest ACTIVATIONS pool of the bay's DECODE and DRAFT tiles, in bytes. -/
def State.tableLimit (s : State) (p : Nat) (ts : List Nat) : Nat :=
  ts.foldl (fun m t => min m ((s.part p).cfg.pool t 2).2) (2 ^ 32)

/-- DECODE and DRAFT tiles of bay b. -/
def State.stepTiles (s : State) (p b : Nat) : List Nat :=
  ((List.range 8).map (fun j => 8 * b + j)).filter (fun t =>
    s.mapped t && (s.role p t == Role.decode || s.role p t == Role.draft))

/-- Offer decode work to one sequence (step 2 of R370). A pass is cut so that it feeds no position at or beyond MAX_CONTEXT (log
entry 34). -/
def State.offerDecode (s : State) (p b cap limit : Nat) (c : SeqCfg) (ch : Choice) (q : Seq) : Choice :=
  let d := min q.depth (c.maxCtx - q.len)
  let grow := 36 + 8 * d
  if cap < ch.used + d + 1 ∨ limit < ch.size + grow then ch
  else
    match s.giveFrets p b ch q (q.len - 1) (q.len - 1 + d) with
    | none => { ch with waits := ch.waits ++ [q.id] }
    | some got =>
      let e : LenEntry :=
        { slot := q.slot, kind := 2, depth := d, pos0 := q.len - 1, count := d + 1, tokenIdx := 0, drawIdx := 0, mainSlot := 0,
          draftSlot := 0 }
      { ch with es := ch.es ++ [(e, q)], got := ch.got ++ got, used := ch.used + d + 1, size := ch.size + grow, nextSlot := q.slot + 1 }

/-- Offer a prefill chunk to one sequence (step 3 of R370). -/
def State.offerPrefill (s : State) (p b limit : Nat) (c : SeqCfg) (ch : Choice) (q : Seq) : Choice :=
  let f := min c.chunk (c.budget - ch.used)
  let rem := q.target - q.fed
  let n := if rem ≤ f then rem else f / 256 * 256
  if n = 0 ∨ limit < ch.size + 32 + 4 * n then ch
  else
    match s.giveFrets p b ch q q.fed (q.fed + n - 1) with
    | none => { ch with waits := ch.waits ++ [q.id] }
    | some got =>
      let e : LenEntry :=
        { slot := q.slot, kind := if n = rem then 1 else 0, depth := 0, pos0 := q.fed, count := n, tokenIdx := 0, drawIdx := 0,
          mainSlot := 0, draftSlot := 0 }
      { ch with es := ch.es ++ [(e, q)], got := ch.got ++ got, used := ch.used + n, size := ch.size + 32 + 4 * n }

/-- Number tokens, draws and list slots in table order (R373, R375). -/
def numberEntries : Nat → Nat → Nat → List (LenEntry × Seq) → List (LenEntry × Seq)
  | _, _, _, [] => []
  | tok, draw, main, (e, q) :: rest =>
    let toks := if e.kind = 2 then 1 else e.count
    let mains := if e.kind = 2 then e.depth + 1 else if e.kind = 1 then 1 else 0
    ({ e with tokenIdx := tok, drawIdx := draw, mainSlot := main, draftSlot := draw }, q) ::
      numberEntries (tok + toks) (draw + e.depth) (main + mains) rest

/-- Choose a step's work (R370). -/
def State.choose (s : State) (p b : Nat) : Choice :=
  let c := (s.part p).cfg.seq b
  let x := s.bay b
  let limit := s.tableLimit p (s.stepTiles p b)
  let fill := orderedBy (fun a b => decide (a.order ≤ b.order)) (x.live.filter Seq.filling)
  let dec := orderedBy (fun a b => decide (a.slot ≤ b.slot)) (x.live.filter (fun q => !q.filling))
  let dec := dec.filter (fun q => decide (x.nextSlot ≤ q.slot)) ++ dec.filter (fun q => decide (q.slot < x.nextSlot))
  let cap := if fill.isEmpty then c.budget else c.budget - c.chunk
  let ch0 : Choice := { es := [], got := [], used := 0, size := 64, waits := [], nextSlot := x.nextSlot }
  let ch := dec.foldl (fun ch q => s.offerDecode p b cap limit c ch q) ch0
  let ch := fill.foldl (fun ch q => s.offerPrefill p b limit c ch q) ch
  { ch with es := numberEntries 0 0 0 ch.es }

/-- Choose, ending the most recently admitted sequence while every live one waits for a fret (R387). -/
def State.chooseWork : Nat → State → Nat → Nat → State × Choice
  | 0, s, p, b => (s, s.choose p b)
  | n + 1, s, p, b =>
    let ch := s.choose p b
    let live := (s.bay b).live
    if ch.es = [] ∧ live ≠ [] ∧ ch.waits.length = live.length then
      match (orderedBy (fun a b => decide (b.order ≤ a.order)) live).head? with
      | none => (s, ch)
      | some q =>
        let s := s.batchRecord p b false [markerEntry q endNoFret]
        let s := (s.dropSeqs b (fun x => x.id == q.id)).finc .seqPreempted b 1
        State.chooseWork n (s.raise Source.fretPreempt Kind.bay b q.id) p b
    else (s, ch)

/-! ### The length table and the launch (R371 to R374, R156) -/

/-- Bytes of the length table (R373, R377). -/
def State.lengthTable (s : State) (p b : Nat) (es : List (LenEntry × Seq)) : List Byte :=
  let c := (s.part p).cfg.seq b
  let area := s.fget .seqArea b
  let toks := es.flatMap (fun x =>
    (List.range (if x.1.kind = 2 then 1 else x.1.count)).map (fun i => s.token p x.2 (x.1.pos0 + i)))
  let draws := es.flatMap (fun x =>
    (List.range x.1.depth).map (fun i => drawWords x.2.seed x.2.id (x.1.pos0 + 1 + i) Purpose.draft))
  leBytes 8 (s.fget .seqStep b) ++ leBytes 4 (s.fget .seqEpochStep b) ++ leBytes 4 (s.fget .turnPolicyVersion p) ++
    leBytes 2 es.length ++ leBytes 2 toks.length ++ leBytes 4 draws.length ++ leBytes 8 area ++
    leBytes 8 (area + 80 * 2 ^ 20) ++ leBytes 2 c.topK ++ List.replicate 22 0 ++
    es.flatMap (fun x =>
      leBytes 2 x.1.slot ++ leBytes 1 x.1.kind ++ leBytes 1 x.1.depth ++ leBytes 4 x.2.id ++ leBytes 4 x.1.pos0 ++
        leBytes 2 x.1.count ++ leBytes 2 x.1.tokenIdx ++ leBytes 4 x.2.temp.toNat ++ leBytes 2 (x.2.k c) ++ leBytes 2 0 ++
        leBytes 4 x.2.topP.toNat ++ leBytes 4 x.1.drawIdx) ++
    toks.flatMap (leBytes 4) ++ draws.flatMap (fun d => leBytes 4 d.1 ++ leBytes 4 d.2)

/-- A token that the table takes from LPDDR5X fails its transfer (R213). -/
def State.tokensBad (s : State) (p : Nat) (es : List (LenEntry × Seq)) : Option (Nat × Nat) :=
  s.spansFault p false ((es.filter (fun x => !x.2.inHost)).map (fun x =>
    (x.2.buf + 4 * x.1.pos0, 4 * (if x.1.kind = 2 then 1 else x.1.count))))

/-- Room for the largest record of a step in the output ring and, with KEEP_LOG, in the record log (R371). -/
def State.recordRoom (s : State) (p b : Nat) (ch : Choice) : Bool :=
  let n := 32 + 16 * ((ch.es.foldl (fun n x => n + (if x.1.kind = 2 then x.1.count else if x.1.kind = 1 then 1 else 0)) 0) +
    (s.bay b).live.length)
  let need := s.outBytes p n
  let size := s.fget .seqOutSize b
  let head := s.fget .seqOutHead b
  let total := if head + need ≤ size then need else need + (size - head)
  decide (total ≤ s.outRoom b) &&
    (s.fget .seqKeepLog b == 0 || decide ((s.bay b).logTail + roundUp n 64 ≤ s.logSize b))

/-- The output ring's registers are legal (R383). -/
def State.outRingOk (s : State) (b : Nat) : Bool :=
  s.fget .seqOutBase b % 4096 == 0 && s.fget .seqOutSize b % 4096 == 0 && decide (2 ^ 23 ≤ s.fget .seqOutSize b)

/-- Work of the partition is stopped, so that no step may launch: safe state, containment, a drain window of its steps, a sparge. -/
def State.workHeld (s : State) (p : Nat) : Bool :=
  s.safe || s.fget .fcPartContained p == 1 || (s.part p).drain.any (fun d => d.why != 2 && d.why != 5) ||
    s.fget .spargeRunning p == 1 || s.fget .spargePending p == 1

/-- A lockstep bay whose close is due launches only up to the highest step named, once every member has named one (R392). -/
def State.lockstepHolds (s : State) (p b : Nat) : Bool :=
  let x := s.bay b
  x.closing && (s.fget .seqLockstep b == 0 ||
    (match (s.part p).cfg.comm (s.fget .seqLockComm b) with
      | none => true
      | some k => decide (x.closeVals.length < k.count) ||
          decide (x.closeVals.foldl (fun m v => max m v.2) 0 ≤ s.fget .seqEpochStep b)))

/-- Show STATE of SEQ_STATUS. -/
def State.seqShow (s : State) (b : Nat) (st : Nat) : State := s.fset .seqState b st

/-- Launch the chosen step: numbers, frames, tables, the length table and the tiles. -/
def State.launchStep (s : State) (p b : Nat) (ch : Choice) : State :=
  let s := (s.finc .seqStep b 1).finc .seqEpochStep b 1
  let s := s.modBay b (fun x => { x with
    live := x.live.map (fun q => { q with frames := q.frames ++ (ch.got.filter (fun g => g.1 == q.id)).map (fun g => g.2) }),
    entries := ch.es.map Prod.fst, stepping := true, stepFailed := false, reds := [], waited := (x.live.filter (fun q => ch.waits.contains q.id)).map (fun q => q.order), nextSlot := ch.nextSlot })
  let s := s.modPart p (fun x => { x with exchanges := x.exchanges.filter (fun e => e.home != some b) })
  let s := (s.writeTables p b).finc .seqFretWaits b ch.waits.length
  let s := s.seqShow b 1
  match s.tokensBad p ch.es with
  | some f => (s.modBay b (fun x => { x with stepFailed := true })).raise f.1 (instOf f.2).1 (instOf f.2).2 f.2
  | none =>
    let table := s.lengthTable p b ch.es
    let s := s.captureTokens p ch.es
    let ts := s.stepTiles p b
    let s := ts.foldl (fun s t => s.spWrite t ((s.part p).cfg.pool t 2).1 table) s
    let x := s.part p
    ts.foldl (fun s t =>
      s.startTile t (if s.role p t = Role.decode then x.decodeEntry else x.draftEntry) (s.fget .seqStep b)
        (s.fget .turnPolicyVersion p) ((x.cfg.pool t 2).1 / 64) true) s

/-- Row 8: choose work and launch where everything allows it. -/
def State.seqLaunch (s : State) (p b : Nat) : State :=
  let x := s.bay b
  if x.stepping || x.groupWait != [] || s.fget .seqBarrier b == 1 || s.workHeld p || s.lockstepHolds p b then s
  else if s.seqHeld p b || !s.outRingOk b then s.seqShow b 2
  else
    let s1 := s.boundary p b (fun s => State.takeIn 8192 s p b)
    let (s2, ch) := State.chooseWork 8192 s1 p b
    if ch.es = [] ∧ s.fget .seqLockstep b = 0 then s2.seqShow b 0
    else if !s2.recordRoom p b ch then s1.seqShow b 2
    else s2.launchStep p b ch

/-! ### The outcome of a step (rows 1 to 4) -/

structure StepOut where
  s : State
  toks : List BEntry
  marks : List BEntry
  /-- Sequences that ended: (SEQ_ID, reason). -/
  ended : List (Nat × Nat)
  /-- What each group sequence of this home delivered: SEQ_ID and tokens. -/
  given : List (Nat × List Nat)

/-- Lists of an entry: main and draft. -/
def State.entryLists (s : State) (b k : Nat) (e : LenEntry) : List Listed × List Listed :=
  let area := s.fget .seqArea b
  let mains := if e.kind = 2 then e.depth + 1 else if e.kind = 1 then 1 else 0
  ((List.range mains).map (fun i => s.readList (area + (e.mainSlot + i) * slotBytes k) k),
    (List.range e.depth).map (fun i => s.readList (area + 80 * 2 ^ 20 + (e.draftSlot + i) * slotBytes k) k))

/-- A list of the entry lies in a codeword that fails (R211). -/
def State.listsBad (s : State) (b k : Nat) (e : LenEntry) : Bool :=
  let area := s.fget .seqArea b
  let mains := if e.kind = 2 then e.depth + 1 else if e.kind = 1 then 1 else 0
  s.badRange (area + e.mainSlot * slotBytes k) (mains * slotBytes k) ||
    s.badRange (area + 80 * 2 ^ 20 + e.draftSlot * slotBytes k) (e.depth * slotBytes k)

/-- The cause that a delivered token meets, 0 for none (R385). -/
def endCause (q : Seq) (maxCtx tok : Nat) : Nat :=
  if tok != 0xFFFFFFFF && q.stops.contains tok then endStop
  else if q.maxNew ≤ q.made + 1 then endMaxNew
  else if maxCtx ≤ q.len + 1 then endMaxContext
  else 0

/-- Deliver tokens to sequence `id` of bay b in position order, until one ends it (R385). -/
def StepOut.deliver (o : StepOut) (p b id maxCtx : Nat) : List Given → StepOut
  | [] => o
  | (tok, drafted, logp) :: rest =>
    match (o.s.bay b).live.find? (fun q => q.id == id) with
    | none => o
    | some q =>
      let cause := endCause q maxCtx tok
      let fl := bitNat (q.made == 0) + (if drafted then 4 else 0) + (if q.mixed then 16 else 0) +
        (if cause = 0 then 0 else lastFlags cause)
      let s := (o.s.putToken p q q.len tok).finc .seqTokens b 1
      let s := s.modSeq b id (fun q => { q with len := q.len + 1, made := q.made + 1 })
      let given := match o.given.find? (fun g => g.1 == id) with
        | some g => (id, g.2 ++ [tok]) :: o.given.filter (fun g => g.1 != id)
        | none => (id, [tok]) :: o.given
      let e : BEntry := { slot := q.slot, seqId := id, token := tok, logp := logp, flags := fl }
      let o : StepOut := { o with s := s, given := given, toks := o.toks ++ [e] }
      if cause = 0 then o.deliver p b id maxCtx rest
      else { o with ended := o.ended ++ [(id, cause)] }

/-- The outcome of one entry of a step that did not fail. -/
def StepOut.entry (o : StepOut) (p b : Nat) (e : LenEntry) : StepOut :=
  let s := o.s
  let c := (s.part p).cfg.seq b
  match (s.bay b).live.find? (fun q => q.slot == e.slot) with
  | none => o
  | some q =>
    let s := s.modSeq b q.id (fun q => { q with high := max q.high (e.pos0 + e.count), fed := if e.kind = 2 then q.fed else e.pos0 + e.count })
    if e.kind = 0 then { o with s := s }
    else if !s.isHome p q then { o with s := s.modBay b (fun x => { x with groupWait := x.groupWait ++ [q.id] }) }
    else
      let (mains, drafts) := s.entryLists b c.topK e
      let temp := q.temp.toNat
      if e.kind = 1 then
        StepOut.deliver { o with s := s } p b q.id c.maxCtx
          [sampleOne temp (q.k c) q.topP.toNat q.seed q.id (e.pos0 + e.count) (mains.headD ⟨0, 0, []⟩)]
      else
        let gs := verify temp (q.k c) q.topP.toNat q.seed q.id (e.pos0 + 1) mains drafts
        let acc := (gs.filter (fun g => g.2.1)).length
        let s := if e.depth = 0 then s else
          ((s.finc .seqPasses b 1).finc .seqDrafted b e.depth).finc .seqAccepted b acc
        let s := s.modSeq b q.id (fun q => q.adapt (q.cap c) e.depth acc)
        StepOut.deliver { o with s := s } p b q.id c.maxCtx gs

/-- End a sequence of the step with a reason: its last token delivered in the step carries LAST, or it receives a marker (R389,
R390). -/
def StepOut.close (o : StepOut) (q : Seq) (reason : Nat) : StepOut :=
  if o.ended.any (fun e => e.1 == q.id) then o
  else
    let mine := o.toks.filter (fun t => t.seqId == q.id)
    match mine.getLast? with
    | none => { o with marks := o.marks ++ [markerEntry q reason], ended := o.ended ++ [(q.id, reason)] }
    | some last =>
      { o with
        toks := o.toks.map (fun t => if t == last then { t with flags := t.flags + lastFlags reason } else t),
        ended := o.ended ++ [(q.id, reason)] }

/-- The source that fails a step at its boundary: a bad list (R376) or unreadable data (R211); none where the step is sound. -/
def State.stepFault (s : State) (p b : Nat) : Option Nat :=
  let k := ((s.part p).cfg.seq b).topK
  let es := (s.bay b).entries.filter (fun e =>
    (((s.bay b).live.find? (fun q => q.slot == e.slot)).map (fun q => s.isHome p q)).getD false)
  if es.any (fun e => s.listsBad b k e) then some Source.hbmUncorrectable
  else if es.any (fun e =>
      let (m, d) := s.entryLists b k e
      !(m.all (fun l => l.ok k false) && d.all (fun l => l.ok k true))) then some Source.sampleInput
  else none

/-- Rows 1 to 3: sample, verify, stop, and take the cancels that were accepted during the step. -/
def State.stepOutcome (s : State) (p b : Nat) : StepOut × Bool :=
  let x := s.bay b
  let fault := if x.stepFailed then none else s.stepFault p b
  let failed := x.stepFailed || fault.isSome
  let s := match fault with
    | some src => s.raise src (if src = Source.sampleInput then Kind.bay else Kind.stack) b 0
    | none => s
  let o : StepOut := { s := s, toks := [], marks := [], ended := [], given := [] }
  let o :=
    if failed then
      (x.live.filter (fun q => x.entries.any (fun e => e.slot == q.slot))).foldl (fun o q => o.close q endStepFailed) o
    else x.entries.foldl (fun o e => o.entry p b e) o
  let o := x.cancels.foldl (fun o c =>
    let (id, cmd) := c
    if o.ended.any (fun e => e.1 == id) then { o with s := o.s.finish cmd Status.alreadyComplete 0 0 }
    else
      match ((o.s.bay b).live ++ (o.s.bay b).queue).find? (fun q => q.id == id) with
      | some q => let o := o.close q endCancelled
                  { o with s := o.s.finish cmd Status.ok 0 0 }
      | none => { o with s := o.s.finish cmd Status.alreadyComplete 0 0 }) o
  (o, failed)

/-- The home tells every other rank what each group sequence delivered, its length and its end (R393). -/
def StepOut.tellGroups (o : StepOut) (p b : Nat) : State :=
  let s := o.s
  let qs := (s.bay b).live.filter (fun q => q.comm != 0xFF && s.isHome p q &&
    (o.given.any (fun g => g.1 == q.id) || o.ended.any (fun e => e.1 == q.id)))
  qs.foldl (fun s q =>
    match (s.part p).cfg.comm q.comm with
    | none => s
    | some k =>
      let toks := ((o.given.find? (fun g => g.1 == q.id)).map Prod.snd).getD []
      let why := ((o.ended.find? (fun e => e.1 == q.id)).map Prod.snd).getD 0
      k.ranks.zipIdx.foldl (fun s r =>
        if r.2 = k.myRank ∨ k.count ≤ r.2 then s
        else s.send p { Msg.empty with dst := r.1, vc := Vc.scalar, ty := Ty.data, comm := q.comm, op := MsgOp.group, rank := k.myRank,
                                       args := [q.id, q.len, why] ++ toks }) s) s

/-- Order of entries in a record: by slot, tokens in delivery order (R382). -/
def sortEntries (es : List BEntry) : List BEntry := orderedBy (fun a b => decide (a.slot ≤ b.slot)) es

/-- Rows 1 to 4 of the boundary. `pause` ends every sequence with PAUSED_TURN in the same record (R389). -/
def State.endStep (s : State) (p b : Nat) (pause : Bool) : State :=
  let (o, failed) := s.stepOutcome p b
  let o := if pause then (o.s.bay b).seqs.foldl (fun o q => o.close q endPausedTurn) o else o
  let s := o.tellGroups p b
  let own (id : Nat) : Bool :=
    (((s.bay b).live ++ (s.bay b).queue).find? (fun q => q.id == id)).map (fun q => s.isHome p q) |>.getD true
  let marks := o.marks.filter (fun m => own m.seqId)
  let s := s.batchRecord p b failed (sortEntries o.toks ++ marks)
  let s := s.dropSeqs b (fun q => o.ended.any (fun e => e.1 == q.id))
  let s := s.modBay b (fun x => { x with entries := [], stepping := false, stepFailed := false, cancels := [] })
  (s.writeTables p b).seqRest b

/-! ### Cancels and lifts -/

/-- Cancel a live or queued sequence of a bay on which no step runs (R390). -/
def State.cancelNow (s : State) (p b : Nat) (q : Seq) : State :=
  let o : StepOut := { s := s, toks := [], marks := [], ended := [(q.id, endCancelled)], given := [] }
  let s := o.tellGroups p b
  (s.batchRecord p b false [markerEntry q endCancelled]).dropSeqs b (fun x => x.id == q.id)

/-- The capo barrier of a bay lifts: EPOCH_STEP 0, drafting on again, and frets kept as mixed or freed for prefill (R372, R381,
R397, R398, R408). `swapped` says that a refresh changed the version; a sequence that has fed no position has none of the old version
to mark (DEDUCED, log entry 143). SEQ_HOLD_US takes a free value: it measures time (log entry 133). -/
def State.liftBay (s : State) (p b : Nat) (swapped recompute : Bool) : State :=
  let c := (s.part p).cfg.seq b
  let s := if s.fget .seqBarrier b = 1 then s.free1.2.fset .seqHoldUs b (s.free1.1 % 2 ^ 32) else s
  let s := (s.fset .seqBarrier b 0).fset .seqEpochStep b 0
  let s := s.modBay b (fun x => { x with
    closing := false, pausing := false, closeVals := [],
    live := x.live.map (fun q =>
      let q := if q.off then { q with depth := min 1 (q.cap c), off := false, zero := 0, full := 0 } else q
      if recompute then { q with frames := [], fed := 0, target := q.len, high := 0 }
      else if swapped then { q with mixed := q.mixed || decide (0 < q.high), oldLimit := q.high } else q) })
  (s.writeTables p b).seqRest b

/-- Lift the barrier of every bay of a partition. -/
def State.liftBarrier (s : State) (p : Nat) (swapped recompute : Bool) : State :=
  (s.baysOf p).foldl (fun s b => s.liftBay p b swapped recompute) s

/-- Close the barrier of a bay at once. -/
def State.shutBay (s : State) (b : Nat) : State :=
  ((s.fset .seqBarrier b 1).modBay b (fun x => { x with closing := false, closeVals := [] })).seqRest b

/-- The barrier of every bay of a partition is closed and no step runs. -/
def State.allShut (s : State) (p : Nat) : Bool :=
  (s.baysOf p).all (fun b => s.fget .seqBarrier b == 1 && !(s.bay b).stepping)

/-- A lockstep bay names its highest launched step to the members of LOCK_COMM (step 2 of R392). -/
def State.nameClose (s : State) (p b : Nat) : State :=
  if s.fget .seqLockstep b = 0 then s
  else
    match (s.part p).cfg.comm (s.fget .seqLockComm b) with
    | none => s
    | some k =>
      let v := s.fget .seqEpochStep b
      let s := s.modBay b (fun x => { x with closeVals := x.closeVals.filter (fun c => c.1 != k.myRank) ++ [(k.myRank, v)] })
      k.ranks.zipIdx.foldl (fun s r =>
        if r.2 = k.myRank ∨ k.count ≤ r.2 then s
        else s.send p { Msg.empty with dst := r.1, vc := Vc.control, ty := Ty.fence, comm := k.id, op := MsgOp.closeValue, rank := k.myRank,
                                       args := [b, v] }) s

/-- A close of a bay's barrier is due (R389, R392, R395). -/
def State.dueClose (s : State) (p b : Nat) (pause : Bool) : State :=
  if s.fget .seqBarrier b = 1 then s
  else
    let fresh := !(s.bay b).closing
    let s := (s.modBay b (fun x => { x with closing := true, pausing := x.pausing || pause })).seqShow b 3
    if fresh then s.nameClose p b else s

/-- A replay run closes a barrier at the step whose BOUNDARY record names a barrier event, and at no other (R6, R501). -/
def State.closeBarred (s : State) (p b : Nat) : Bool :=
  s.replays p && !(s.part p).replayRun.any (fun r => r.rows.any (fun x =>
    x.1 == 6 && leField x.2.2.2 0 0 == b && leField x.2.2.2 15 8 == s.fget .seqStep b && bitOf (leField x.2.2.2 1 1) 3))

/-- The barrier of a bay closes at its boundary: a close is due, and no step is to run any more (R392, R395, R501). -/
def State.closesNow (s : State) (p b : Nat) : Bool :=
  let x := s.bay b
  x.closing && !s.closeBarred p b && (s.fget .seqLockstep b == 0 ||
    (match (s.part p).cfg.comm (s.fget .seqLockComm b) with
      | none => true
      | some k => decide (k.count ≤ x.closeVals.length) &&
          decide (x.closeVals.foldl (fun m v => max m v.2) 0 ≤ s.fget .seqEpochStep b)))

/-- Row 6: the barrier of a bay closes where no step runs; a turn's close ends the sequences. -/
def State.closeBay (s : State) (p b : Nat) : State :=
  let x := s.bay b
  if s.closesNow p b && !x.stepping then
    let s := if x.pausing && !x.seqs.isEmpty then s.endAllSeqs p b endPausedTurn false else s
    s.shutBay b
  else s

end Sys2Proof.Machine
end

