-- ==== Sys2Proof/Machine/Rollout.lean ====
section
/-!
DEFINITION. The rollout commands SEQ_SUBMIT, SEQ_CANCEL and KV_EDIT, and the messages of lockstep bays and sequence groups (R366 to
R368, R390 to R393, R399, R410, R411).
-/

namespace Sys2Proof.Machine

/-! ### SEQ_SUBMIT (R366 to R368) -/

/-- A sequence as its descriptor gives it. -/
def seqOf (bs : List Byte) (c : Cmd) : Seq :=
  let f (hi lo : Nat) : Nat := leNat ((bs.drop lo).take (hi + 1 - lo))
  { id := f 3 0, flags := f 4 4, depthReq := f 5 5, topK := f 7 6, promptLen := f 11 8, maxNew := f 15 12,
    temp := BitVec.ofNat 32 (f 19 16), topP := BitVec.ofNat 32 (f 23 20), seed := f 31 24, buf := f 39 32,
    stops := ((List.range 4).map (fun i => f (43 + 4 * i) (40 + 4 * i))).filter (fun t => t != 0xFFFFFFFF), comm := f 56 56,
    fn := c.fn, ring := c.ring, ctr := c.ctr, rseq := c.rseq, slot := 0, len := f 11 8, fed := 0, target := f 11 8, depth := 0, zero := 0, full := 0,
    off := false, made := 0, high := 0, oldLimit := 0, mixed := false, reservedTo := 0, frames := [], order := 0, told := [] }

/-- Bytes that a sequence's token buffer takes. -/
def Seq.bufBytes (q : Seq) : Nat := 4 * (q.promptLen + q.maxNew)

/-- Every field of the descriptor lies in its range, and its reserved bits and bytes are zero (R367). -/
def State.seqLegal (s : State) (p b : Nat) (bs : List Byte) (q : Seq) : Bool :=
  let c := (s.part p).cfg.seq b
  decide (q.flags < 2) && decide (q.depthReq ≤ 16) && decide (q.topK ≤ c.topK) && decide (1 ≤ q.promptLen) &&
    decide (q.promptLen + 1 ≤ c.maxCtx) && decide (1 ≤ q.maxNew) && decide (q.temp.toNat < 0x7F800000) &&
    decide (1 ≤ q.topP.toNat) && decide (q.topP.toNat ≤ 0x3F800000) && q.buf % 64 == 0 &&
    (q.comm == 0xFF || decide (q.comm < 64)) && ((bs.drop 57).take 7).all (fun x => x == 0) &&
    (q.inHost || (inTier 2 q.buf && inTier 2 (q.buf + q.bufBytes - 1) && (s.accessFault p q.buf q.bufBytes true).isNone))

/-- A live or queued sequence of the partition has the identifier (R366). -/
def State.seqTaken (s : State) (p id : Nat) : Bool :=
  (s.baysOf p).any (fun b => (s.bay b).live.any (fun q => q.id == id) || (s.bay b).queue.any (fun q => q.id == id))

/-- Read n more descriptors from index i on, one after another, and place each in the admission queue, stopping at the first that fails: the
state, the status and the result (R368). -/
def State.submit (c : Cmd) (p b : Nat) : Nat → State → Nat → State × Nat × Nat
  | 0, s, i => (s, Status.ok, i)
  | n + 1, s, i =>
    let (bs, ok, s) := s.hostPart c (c.arg 31 24) (64 * i) 64
    let q := seqOf bs c
    if !ok then (s.segmentFailed c, Status.tagFailed, 0)
    else if !s.seqLegal p b bs q then (s, Status.badOperand, i)
    else if s.seqTaken p q.id then (s, Status.duplicateSeq, i)
    else if 16384 ≤ (s.bay b).queue.length then (s, Status.queueFull, i)
    else State.submit c p b n (s.modBay b (fun x => { x with queue := x.queue ++ [q] })) (i + 1)

/-- The start of SEQ_SUBMIT. -/
def State.runSubmit (s : State) (c : Cmd) : State :=
  let (s, status, result) := State.submit c (c.arg 16 16) (c.arg 17 17) (c.arg 19 18) s 0
  s.complete c status result 0

/-- SEQ_SUBMIT (R368, R389, R399). -/
def execSeqSubmit (fn ring : Nat) (s : State) : Host.Outcome State Fault Refusal :=
  .next (s.hostCmd fn ring 0x50
    (fun s d =>
      let p := dField d 16 16
      { op := 0x50, fnOk := pfOrVf fn p, part := p, spargeOk := false,
        operands := s.partDefined p && s.holds p (dField d 17 17) && decide (1 ≤ dField d 19 18) && decide (dField d 19 18 ≤ 1024) &&
          dZero d 23 20 && dZero d 63 32 })
    (fun s d => if s.fget .turnPhase (dField d 16 16) = Phase.rollout then 0 else Status.badState)
    (fun s c => s.runSubmit c))

/-! ### SEQ_CANCEL (R390) -/

/-- The start of SEQ_CANCEL: at once where no step runs on the sequence's bay, else at the boundary. -/
def State.runCancel (s : State) (c : Cmd) : State :=
  let p := c.arg 16 16
  let id := c.arg 23 20
  match s.bayOfSeq p id with
  | none => s.complete c Status.unknownSeq 0 0
  | some b =>
    if (s.bay b).stepping then s.modBay b (fun x => { x with cancels := x.cancels ++ [(id, c.id)] })
    else
      match ((s.bay b).live ++ (s.bay b).queue).find? (fun q => q.id == id) with
      | none => s.complete c Status.unknownSeq 0 0
      | some q => (s.cancelNow p b q).complete c Status.ok 0 0

/-- SEQ_CANCEL (R390, R399). -/
def execSeqCancel (fn ring : Nat) (s : State) : Host.Outcome State Fault Refusal :=
  .next (s.hostCmd fn ring 0x51
    (fun s d =>
      let p := dField d 16 16
      { op := 0x51, fnOk := pfOrVf fn p, part := p, spargeOk := false,
        operands := s.partDefined p && dZero d 19 17 && dZero d 63 24 })
    (fun _ _ => 0)
    (fun s c => s.runCancel c))

/-! ### KV_EDIT (R410, R411) -/

/-- The start of KV_EDIT. -/
def State.runEdit (s : State) (c : Cmd) : State :=
  let p := c.arg 16 16
  let id := c.arg 23 20
  match s.liveSeq p id with
  | none => s.complete c Status.unknownSeq 0 0
  | some (b, _) =>
    let e := (c.id, c.arg 17 17, id, c.arg 27 24)
    if !(s.bay b).stepping then s.applyEdit p b e
    else if 256 ≤ (s.bay b).edits.length then s.complete c Status.editQueueFull 0 0
    else s.modBay b (fun x => { x with edits := x.edits ++ [e] })

/-- Largest MAX_CONTEXT of a partition's bays, the range of POSITIONS for a sequence on no known bay. -/
def State.maxContext (s : State) (p id : Nat) : Nat :=
  match s.liveSeq p id with
  | some (b, _) => ((s.part p).cfg.seq b).maxCtx
  | none => (s.baysOf p).foldl (fun m b => max m ((s.part p).cfg.seq b).maxCtx) 0

/-- KV_EDIT (R410, R411). -/
def execKvEdit (fn ring : Nat) (s : State) : Host.Outcome State Fault Refusal :=
  .next (s.hostCmd fn ring 0x52
    (fun s d =>
      let p := dField d 16 16
      { op := 0x52, fnOk := pfOrVf fn p, part := p, spargeOk := false,
        operands := s.partDefined p && decide (dField d 17 17 ≤ 1) && dZero d 19 18 && dZero d 63 28 &&
          decide (1 ≤ dField d 27 24) && decide (dField d 27 24 ≤ s.maxContext p (dField d 23 20)) })
    (fun _ _ => 0)
    (fun s c => s.runEdit c))

/-! ### Messages (R392, R393) -/

/-- Bays of partition p that run in lockstep over communicator k. -/
def State.lockBays (s : State) (p k : Nat) : List Nat :=
  (s.baysOf p).filter (fun b => s.fget .seqLockstep b == 1 && s.fget .seqLockComm b == k)

/-- A bay holds the highest step that a member has named (R392); several bays of one member name one value, the highest. -/
def State.holdClose (s : State) (b rank v : Nat) : State :=
  let old := (((s.bay b).closeVals.find? (fun c => c.1 == rank)).map Prod.snd).getD 0
  s.modBay b (fun x => { x with closeVals := x.closeVals.filter (fun c => c.1 != rank) ++ [(rank, max old v)] })

/-- CLOSE_VALUE_MESSAGE (R392): a close starts on each lockstep bay of the communicator whose barrier is open, and the value is
held. -/
def execCloseValueMessage (p : Nat) (m : Msg) (s : State) : Host.Outcome State Fault Refusal :=
  .next (s.onMsg p m Vc.control Ty.fence (m.op == MsgOp.closeValue) (fun s =>
    (s.lockBays p m.comm).foldl (fun s b =>
      if s.fget .seqBarrier b = 1 then s else (s.dueClose p b false).holdClose b m.rank (m.args.getD 1 0)) s))

/-- A rank that is not the home takes what the home delivered to a sequence of bay b: tokens, length and end (R393). -/
def State.takeGroup (s : State) (p b : Nat) (m : Msg) : State :=
  let id := m.args.getD 0 0
  let c := (s.part p).cfg.seq b
  let toks := m.args.drop 3
  let s := s.modBay b (fun x => { x with groupWait := x.groupWait.filter (fun i => i != id) })
  if m.args.getD 2 0 ≠ 0 then s.dropSeqs b (fun q => q.id == id)
  else
    s.modSeq b id (fun q =>
      let d := min q.depth (c.maxCtx - q.len)
      let q' := if q.len = q.target then q else q.adapt (q.cap c) d (toks.length - 1)
      { q' with told := q.told ++ toks.zipIdx.map (fun x => (q.len + x.2, x.1)), len := m.args.getD 1 0, made := q.made + toks.length })

/-- The bay that holds the sequence a group message names, where this device is not its home. -/
def State.groupBay (s : State) (p : Nat) (m : Msg) : Option Nat :=
  (s.baysOf p).find? (fun b =>
    ((s.bay b).live ++ (s.bay b).queue).any (fun q => q.id == m.args.getD 0 0 && q.comm == m.comm && !s.isHome p q))

/-- SEQUENCE_GROUP_MESSAGE (R393). A message that comes while this rank's own step still runs waits for its boundary. -/
def execSequenceGroupMessage (p : Nat) (m : Msg) (s : State) : Host.Outcome State Fault Refusal :=
  .next (s.onMsg p m Vc.scalar Ty.data (m.op == MsgOp.group) (fun s =>
    match s.groupBay p m with
    | none => s
    | some b =>
      if (s.bay b).stepping then s.modPart p (fun x => { x with early := x.early ++ [m] }) else s.takeGroup p b m))

/-- The group messages that waited for bay b's boundary take effect (R393). -/
def State.lateGroups (s : State) (p b : Nat) : State :=
  let mine (m : Msg) : Bool := m.vc == Vc.scalar && m.ty == Ty.data && m.op == MsgOp.group && s.groupBay p m == some b
  let ms := (s.part p).early.filter mine
  ms.foldl (fun s m => s.takeGroup p b m) (s.modPart p (fun x => { x with early := x.early.filter (fun m => !mine m) }))

end Sys2Proof.Machine
end

