-- ==== Sys2Proof/Machine/Collective.lean ====
section
/-!
DEFINITION. What the collectives of a bay share (R315, R325, R326, R332, R340): the descriptor and its shard map, segments, tree
positions, messages with their CRC-64, and the life of a collective from its word to its end.
-/

namespace Sys2Proof.Machine

/-! ### The descriptor (R325) -/

structure CollD where
  flags : Nat
  window : Nat
  opNo : Nat
  tensor : Nat
  accTile : Nat
  dstFmt : Nat
  src : Nat
  dest : Nat
  count : Nat
  map : Nat
  mapEntries : Nat
  root : Nat
  ssqAddr : Nat
  srcScale : Nat
  destScale : Nat
  zeroOk : Bool
  deriving DecidableEq, Repr

def collD (d : BitVec 512) : CollD :=
  { flags := dField d 0 0, window := dField d 1 1, opNo := dField d 3 2, tensor := dField d 5 4, accTile := dField d 6 6,
    dstFmt := dField d 7 7, src := dField d 15 8, dest := dField d 23 16, count := dField d 27 24, map := dField d 31 28,
    mapEntries := dField d 33 32, root := dField d 35 34, ssqAddr := dField d 39 36, srcScale := dField d 47 40,
    destScale := dField d 51 48, zeroOk := dZero d 63 52 }

/-- Bit 1 of FLAGS, OWNER_SSQ; bit 0, NORM. -/
def CollD.ownerSsq (d : CollD) : Bool := bitOf d.flags 1
def CollD.norm (d : CollD) : Bool := bitOf d.flags 0

/-- A field that operation `op` does not use is zero, and those it uses lie in their ranges. `scaled` and `arrives` say that the
source and the arrival carry scale planes. -/
def CollD.fieldsOk (d : CollD) (op : Nat) (scaled arrives : Bool) : Bool :=
  let data := decide (op ≤ 3)
  d.zeroOk && (if op = 0 then d.flags == 0 || d.flags == 2 else if op = 4 then decide (d.flags ≤ 1) else d.flags == 0) &&
    (if op = 0 then decide (2 ≤ d.window) && decide (d.window ≤ 64) && decide (d.accTile ≤ 7) && decide (d.dstFmt ≤ 2)
      else d.window == 0 && d.accTile == 0 && d.dstFmt == 0) &&
    (data || (d.tensor == 0 && d.count == 0)) && (op != 5 || (d.src == 0 && d.dest == 0)) &&
    (if op ≤ 1 then decide (1 ≤ d.mapEntries) && decide (d.mapEntries ≤ 4096) else d.map == 0 && d.mapEntries == 0) &&
    (op == 3 || d.root == 0) && (if op = 0 && d.ownerSsq then d.ssqAddr % 8 == 0 else d.ssqAddr == 0) &&
    ((decide (1 ≤ op) && decide (op ≤ 3) && scaled) || d.srcScale == 0) &&
    ((decide (1 ≤ op) && decide (op ≤ 3) && arrives) || d.destScale == 0)

/-- Entry i of a shard map: FIRST, owner, and the two zero bytes. -/
def mapEntry (bs : List Byte) (i : Nat) : Nat × Nat × Nat :=
  (leField bs (8 * i + 3) (8 * i), leField bs (8 * i + 5) (8 * i + 4), leField bs (8 * i + 7) (8 * i + 6))

/-- FIRST values ascend strictly from 0 below COUNT, owners are ranks, and the last bytes are zero (R325). -/
def mapOk (n count : Nat) (es : List (Nat × Nat × Nat)) : Bool :=
  (es.head?.map Prod.fst) == some 0 && es.all (fun e => decide (e.1 < count) && decide (e.2.1 < n) && e.2.2 == 0) &&
    (es.zip (es.drop 1)).all (fun x => decide (x.1.1 < x.2.1))

/-- The runs (first element, length) of a shard map that rank r owns, ascending (R325). -/
def runsOf : List (Nat × Nat) → Nat → Nat → List (Nat × Nat)
  | [], _, _ => []
  | [(f, o)], count, r => if o = r then [(f, count - f)] else []
  | (f, o) :: (g, q) :: rest, count, r =>
    if o = r then (f, g - f) :: runsOf ((g, q) :: rest) count r else runsOf ((g, q) :: rest) count r

/-- Elements of a list of runs. -/
def runsLen (rs : List (Nat × Nat)) : Nat := rs.foldl (fun n r => n + r.2) 0

/-- Places [skip, skip + n) of a list of runs, as runs. -/
def cutRuns : List (Nat × Nat) → Nat → Nat → List (Nat × Nat)
  | [], _, _ => []
  | (f, len) :: rest, skip, n =>
    if len ≤ skip then cutRuns rest (skip - len) n
    else
      let here := min (len - skip) n
      if here = 0 then [] else (f + skip, here) :: cutRuns rest 0 (n - here)

/-- The elements of a list of runs. -/
def runElems (rs : List (Nat × Nat)) : List Nat := rs.flatMap (fun r => (List.range r.2).map (fun i => r.1 + i))

/-! ### Segments (R276) -/

/-- Elements of one segment of a communicator. -/
def Comm.segElems (k : Comm) : Nat := max 1 (k.segment / 4)

/-- Number of segments of n places, k to a segment. -/
def segCount (n k : Nat) : Nat := ceilDiv n k

/-- The key of a segment, with its owner and number. -/
def segKey (owner seg : Nat) : Nat := 2 ^ 24 * owner + seg
def keyOwner (key : Nat) : Nat := key / 2 ^ 24
def keySeg (key : Nat) : Nat := key % 2 ^ 24

/-! ### Trees (R326) -/

/-- Position of a rank in the tree of `root`, and the rank at a position. -/
def Comm.pos (k : Comm) (root rank : Nat) : Nat := (rank + k.count - root % max k.count 1) % max k.count 1
def Comm.rankAt (k : Comm) (root pos : Nat) : Nat := (pos + root) % max k.count 1

/-- SHAPE TREE. -/
def Comm.tree (k : Comm) : Bool := k.shape == 1

/-- Parent of a position above 0. -/
def Comm.parentPos (k : Comm) (p : Nat) : Nat := if k.tree then (p - 1) / max k.fanout 1 else p - 1

/-- Parent of a rank in the tree of `root`. -/
def Comm.parent (k : Comm) (root rank : Nat) : Nat := k.rankAt root (k.parentPos (k.pos root rank))

/-- Children of a rank in the tree of `root`, ascending by position. -/
def Comm.children (k : Comm) (root rank : Nat) : List Nat :=
  let p := k.pos root rank
  ((List.range k.count).filter (fun c => c != 0 && k.parentPos c == p)).map (k.rankAt root)

/-- Positions from a rank down to the root: its depth. -/
def depthFrom (k : Comm) : Nat → Nat → Nat
  | 0, _ => 0
  | n + 1, p => if p = 0 then 0 else 1 + depthFrom k n (k.parentPos p)

def Comm.depth (k : Comm) (root rank : Nat) : Nat := depthFrom k k.count (k.pos root rank)

/-! ### Messages (R315, R332) -/

/-- A payload with its CRC-64, and the payload of a message whose CRC-64 holds. -/
def withCrc (bs : List Byte) : List Byte := bs ++ leBytes 8 (crc64 bs)
def checkedData (m : Msg) : Option (List Byte) :=
  let bs := m.data.take (m.data.length - 8)
  if 8 ≤ m.data.length ∧ leNat (m.data.drop (m.data.length - 8)) = crc64 bs then some bs else none

/-- An engine of bay b sends a message to a rank of a communicator. A device declared failed takes no further part: it is sent notices
and the fences of a rejoin only (R299, R351). -/
def State.toRankFrom (s : State) (p b : Nat) (k : Comm) (rank : Nat) (m : Msg) : State :=
  let d := k.ranks.getD rank 0
  let gone (x : Nat) : Bool := (s.part p).failed.contains (k.id, x)
  if !rejoins m && m.ty != Ty.notice && (gone d || gone (s.part p).cfg.deviceId) then s
  else s.sendFrom p b { m with dst := d, comm := k.id, rank := k.myRank }

/-- The same of an engine of no one bay (log entry 131). -/
def State.toRank (s : State) (p : Nat) (k : Comm) (rank : Nat) (m : Msg) : State := s.toRankFrom p (s.lowBay p) k rank m

/-- A message of a collective: STEP holds the policy version for a BROADCAST. -/
def State.collMsg (s : State) (p : Nat) (c : Coll) (vc ty seg : Nat) (args : List Nat) (data : List Byte) : Msg :=
  { Msg.empty with vc := vc, ty := ty, op := c.op, opNo := c.opNo, seg := seg,
                   step := if c.op = 3 then s.fget .turnPolicyVersion p else c.stepNo % 2 ^ 32, args := args, data := data }

/-- A message of a collective is checked for its epoch (R12, R302, R314). -/
def State.collective (s : State) (p : Nat) (m : Msg) (vc ty : Nat) (k : State → State) : State := s.onMsg p m vc ty true k

/-! ### Collectives in progress -/

/-- A message belongs to a collective: communicator, operation, OP_NO and step; a BROADCAST names no step (R315). -/
def Coll.hits (c : Coll) (m : Msg) : Bool :=
  c.comm == m.comm && c.op == m.op && c.opNo == m.opNo && (c.op == 3 || c.stepNo % 2 ^ 32 == m.step)

def State.collOf (s : State) (p : Nat) (m : Msg) : Option Coll := (s.part p).colls.find? (fun c => c.hits m)

def State.coll (s : State) (p id : Nat) : Option Coll := (s.part p).colls.find? (fun c => c.id == id)

def State.modColl (s : State) (p id : Nat) (f : Coll → Coll) : State :=
  s.modPart p (fun x => { x with colls := x.colls.map (fun c => if c.id == id then f c else c) })

/-- A message for a collective that has ended here in the running learn step or in a bay's rollout step, or for an earlier learn step. -/
def State.pastColl (s : State) (p : Nat) (m : Msg) : Bool :=
  (match (s.part p).step with
    | none => false
    | some st => decide (m.step < st.stepNo % 2 ^ 32) ||
        (m.step == st.stepNo % 2 ^ 32 && st.reds.contains (m.comm, 65536 * m.op + m.opNo))) ||
    (s.baysOf p).any (fun b => m.step == s.fget .seqEpochStep b && (s.bay b).reds.contains (m.comm, 65536 * m.op + m.opNo))

/-- Identities of collectives that words of tile t's step have used: its bay's rollout step, or the learn step (R275, R372). -/
def State.redsOf (s : State) (p t : Nat) : List (Nat × Nat) :=
  if (s.tile t).rollout then (s.bay (t / 8)).reds else ((s.part p).step.map LearnStep.reds).getD []

/-- Give a message to its collective; one that comes before its word has started waits for it, and one that comes after its end
is dropped. -/
def State.toColl (s : State) (p : Nat) (m : Msg) (k : State → Coll → State) : State :=
  match s.collOf p m with
  | some c => k s c
  | none =>
    if m.op != 3 && s.pastColl p m then s else s.modPart p (fun x => { x with early := x.early ++ [m] })

/-- The messages that waited for collective c. -/
def State.earlyFor (s : State) (p : Nat) (c : Coll) : List Msg := (s.part p).early.filter (fun m => c.hits m)

/-- A collective with nothing in it. -/
def Coll.base : Coll :=
  { id := 0, bay := 0, words := [], comm := 0, op := 0, opNo := 0, fmt := 0, stepNo := 0, orphan := false, norm := false, desc := 0,
    map := [], toSend := [], grants := [], sent := [], expect := [], granted := [], held := [], tries := [], ssq := [], vals := [],
    phase := 0 }

/-- Open a collective: it takes a number, its identity enters the running step's list, and the messages that waited for it leave
the list of early ones. -/
def State.openColl (s : State) (p : Nat) (c : Coll) : Coll × State :=
  let c := { c with id := (s.part p).nextColl }
  let used := (c.comm, 65536 * c.op + c.opNo)
  let rolls := c.words.any (fun w => (s.tile w.1).rollout)
  let s := s.modPart p (fun x => { x with
    colls := x.colls ++ [c], nextColl := x.nextColl + 1, early := x.early.filter (fun m => !c.hits m),
    step := if rolls then x.step else x.step.map (fun st => { st with reds := used :: st.reds }) })
  (c, if rolls then s.modBay c.bay (fun x => { x with reds := used :: x.reds }) else s)

/-- The words of a collective complete (R163), and it is in progress no more. -/
def State.closeColl (s : State) (p : Nat) (c : Coll) : State :=
  let s := s.modPart p (fun x => { x with colls := x.colls.filter (fun d => d.id != c.id) })
  c.words.foldl (fun s w =>
    match (s.tile w.1).flight.find? (fun f => f.id == w.2) with
    | some f => s.completeWord w.1 f
    | none => s) s

/-- A collective fails on a fault: it is in progress no more, its words fail, and its step stops (R184). -/
def State.breakColl (s : State) (p : Nat) (c : Coll) (e : Eff) : State :=
  let s := s.modPart p (fun x => { x with colls := x.colls.filter (fun d => d.id != c.id) })
  match c.words, e with
  | w :: rest, .fail source kind inst info =>
    let s := rest.foldl (fun s w => s.failWords w.1 (fun f => f.id == w.2)) s
    match (s.tile w.1).flight.find? (fun f => f.id == w.2) with
    | some f => s.wordFails w.1 f 0 source kind inst info
    | none => s
  | w :: rest, .bad r =>
    let s := rest.foldl (fun s w => s.failWords w.1 (fun f => f.id == w.2)) s
    match (s.tile w.1).flight.find? (fun f => f.id == w.2) with
    | some f => s.wordFails w.1 f r Source.illegalCommand Kind.tile w.1 r
    | none => s
  | _, _ => s

/-- The tile of a collective's first word. -/
def Coll.tile (c : Coll) : Nat := (c.words.head?.map Prod.fst).getD (8 * c.bay)

/-- The step number that a collective of tile t carries (R275, R372). -/
def State.xchStep (s : State) (t : Nat) : Nat := if (s.tile t).rollout then s.fget .seqEpochStep (t / 8) else (s.tile t).stepNo

/-- A resend is asked for at most 4 times for each segment and source (R279, R350). -/
def Coll.mayAsk (c : Coll) (key rank : Nat) : Bool := decide (Tab.get 0 c.tries (4096 * key + rank) < 4)
def Coll.asked (c : Coll) (key rank : Nat) : Coll :=
  { c with tries := Tab.set 0 c.tries (4096 * key + rank) (Tab.get 0 c.tries (4096 * key + rank) + 1) }

/-! ### Where arrivals land (R199, R409) -/

/-- A range in scratchpad lies in the EXCHANGE pool of its tile (R199). -/
def State.inExchange (s : State) (p a len : Nat) : Bool :=
  match spaceOf a with
  | .scratch t o => (s.part p).cfg.inPool t 5 o len
  | _ => true

/-- The failure of an arrival at a range, if it has one: outside its pool, or a fault of the range. Where a destination both leaves its pool
and names a tile outside the partition or an unmapped one, POOL_VIOLATION is raised (log entry 89, DESIGN CHOICE). -/
def State.arriveFault (s : State) (p t a len : Nat) : Option Eff :=
  if len ≠ 0 ∧ s.inExchange p a len = false then some (.fail Source.poolViolation Kind.tile t a)
  else (s.spanFault p a len true).map (failAt (Kind.tile, t))

/-- The first failure of a list of arrivals. -/
def State.arriveFaults (s : State) (p t : Nat) : List (Nat × Nat) → Option Eff
  | [] => none
  | (a, n) :: rest =>
    match s.arriveFault p t a n with
    | some e => some e
    | none => State.arriveFaults s p t rest

end Sys2Proof.Machine
end

