-- ==== Sys2Proof/Machine/Reduce.lean ====
section
/-!
DEFINITION. Gradient reductions (R275 to R283, R292 to R294): contributions, grants, the owner's sums in rank order, and the ring.
-/

namespace Sys2Proof.Machine

/-! ### Combining the partials of a device (R45, R282) -/

/-- The FP32 bits of an element. -/
def toF32 (fmt code : Nat) : Nat := if fmt = 0 then code else (FFmt.fp32.ofVal (decodeElem fmt code 0).1).bits

/-- Pair plus pair, as two updates of R88. -/
def pairPlus (a b : Nat × Nat) : Nat × Nat × Nat :=
  let (h, l, f1) := pairAdd a.1 a.2 b.1
  let (h, l, f2) := pairAdd h l b.2
  (h, l, f1 ||| f2)

/-- One addition of the device's tree, in FP32 or in pairs. -/
def treePlus (pair : Bool) (a b : Nat × Nat) : Nat × Nat × Nat :=
  if pair then pairPlus a b
  else let r := f32add a.1 b.1
       (r.bits, 0, r.fl)

/-- One level of the tree: each pair's sum is held at its lower tile, which raises the flags (R45, R282). -/
def State.treeStep (s : State) (pair : Bool) : List (Nat × List (Nat × Nat)) → State × List (Nat × List (Nat × Nat))
  | (t, xs) :: (_, ys) :: rest =>
    let rs := (xs.zip ys).map (fun z => treePlus pair z.1 z.2)
    let fl := rs.foldl (fun f r => f ||| r.2.2) 0
    let s := (s.flagBank t fl).flagGrad t fl true
    let (s, more) := State.treeStep s pair rest
    (s, (t, rs.map (fun r => (r.1, r.2.1))) :: more)
  | l => (s, l)

def State.treeSum (pair : Bool) : Nat → State → List (Nat × List (Nat × Nat)) → State × List (Nat × List (Nat × Nat))
  | 0, s, l => (s, l)
  | n + 1, s, l =>
    let (s, l) := s.treeStep pair l
    State.treeSum pair n s l

/-- The tiles that combine partials for a source range: those the image assigns, for a source in scratchpad (log entry 36). -/
def State.redTiles (s : State) (p tensor src : Nat) : List Nat :=
  match spaceOf src with
  | .scratch _ _ => (s.tilesOf p).filter (fun t => bitOf (Config.reduceTiles tensor) t)
  | _ => []

/-- The contribution's address and length on one participating tile. -/
def partialRange (tensor src count t : Nat) : Nat × Nat :=
  (scratchBase t + src % 2 ^ 26, fmtBytes (if Config.reducePair tensor then 8 else 0) count)

/-- The ranges that a contribution reads: `unit` bytes for each of `units` places, or every participating tile's partials. -/
def State.redReads (s : State) (p tensor src count units size : Nat) (thin : Bool) : List (Nat × Nat) :=
  let ts := s.redTiles p tensor src
  if thin || decide (ts.length ≤ 1) then [(src, units * size)] else ts.map (partialRange tensor src count)

/-- The whole contribution of this device, as bytes in FMT or as sparse records (R282, R283). -/
def State.redSource (s : State) (p tensor src count units size fmt : Nat) (thin : Bool) : State × List Byte :=
  let ts := s.redTiles p tensor src
  if thin || decide (ts.length ≤ 1) then (s, s.partRead p src (units * size))
  else
    let pair := Config.reducePair tensor
    let parts := ts.map (fun t =>
      let a := (partialRange tensor src count t).1
      (t, (List.range count).map (fun i => if pair then (Mem.readNat s.dev (a + 8 * i) 4, Mem.readNat s.dev (a + 8 * i + 4) 4)
        else (Mem.readNat s.dev (a + 4 * i) 4, 0))))
    let (s, l) := State.treeSum pair 8 s parts
    let cs := (((l.head?.map Prod.snd).getD []).map (fun x =>
      convElem fmt (if pair then (pairVal x.1 x.2).1 else f32 x.1) 0 none))
    let fl := if fmt = 0 ∧ pair = false then 0 else cs.foldl (fun f c => f ||| c.fl) 0
    let t := (l.head?.map Prod.fst).getD 0
    ((s.flagBank t fl).flagGrad t fl true, packElems fmt 0 (cs.map (fun c => c.code)))

/-! ### Contributions as values -/

/-- The value that a contribution adds for each element of a segment of `units` places: none where a sparse record sends no pair
(R292). -/
def contribVals (thin : Bool) (fmt units size : Nat) (bs : List Byte) : List (Option Nat) :=
  if thin then
    (List.range units).flatMap (fun j =>
      let r := (bs.drop (j * size)).take size
      let pairs := (List.range (leField r 3 2)).map (fun i => (leField r (17 + 4 * i) (16 + 4 * i), leField r (19 + 4 * i) (18 + 4 * i)))
      (List.range 4096).map (fun i => (pairs.find? (fun x => x.1 == i)).map (fun x => toF32 fmt x.2)))
  else (unpackElems fmt bs units).map (fun c => some (toF32 fmt c))

/-- One step of the fold of R292: running sums and flags. -/
def foldIn (sums : List Nat) (xs : List (Option Nat)) : List Nat × Nat :=
  let rs := sums.zipIdx.map (fun a =>
    match xs.getD a.2 none with
    | some x => let r := f32add a.1 x
                (r.bits, r.fl)
    | none => (a.1, 0))
  (rs.map Prod.fst, rs.foldl (fun f r => f ||| r.2) 0)

/-! ### A reduction in progress -/

/-- What a reduction's descriptor fixes on this device. -/
structure RedInfo where
  k : Comm
  d : CollD
  thin : Bool
  /-- Elements of one place of the shard, bytes of its contribution, places of a segment. -/
  per : Nat
  size : Nat
  seg : Nat
  acc : Nat
  ring : Bool

def Coll.redInfo (c : Coll) (cfg : Cfg) (k : Comm) : RedInfo :=
  let d := collD c.desc
  let tn := cfg.tensor d.tensor
  let thin := tn.thin != 0
  { k := k, d := d, thin := thin, per := if thin then 4096 else 1,
    size := if thin then 64 * recordWords (thinK tn.thin) else fmtBytes c.fmt 1,
    seg := if thin then max 1 (k.segment / 16384) else k.segElems, acc := 8 * c.bay + d.accTile, ring := !thin && k.shape == 0 }

/-- The runs of an owner's shard, in places. -/
def RedInfo.runs (r : RedInfo) (c : Coll) (owner : Nat) : List (Nat × Nat) :=
  runsOf (c.map.map (fun e => (e.1 / r.per, e.2))) (r.d.count / r.per) owner

/-- Segments of an owner's shard, and the runs of one. -/
def RedInfo.segs (r : RedInfo) (c : Coll) (owner : Nat) : Nat := segCount (runsLen (r.runs c owner)) r.seg
def RedInfo.segRuns (r : RedInfo) (c : Coll) (key : Nat) : List (Nat × Nat) :=
  cutRuns (r.runs c (keyOwner key)) (keySeg key * r.seg) r.seg

/-- Places of a segment, and its elements. -/
def RedInfo.units (r : RedInfo) (c : Coll) (key : Nat) : Nat := runsLen (r.segRuns c key)

/-- The bytes of a segment out of the whole contribution. -/
def RedInfo.slice (r : RedInfo) (c : Coll) (raw : List Byte) (key : Nat) : List Byte :=
  (r.segRuns c key).flatMap (fun x => (raw.drop (x.1 * r.size)).take (x.2 * r.size))

/-- Keys of every segment of every owner: by segment number, then by owner. -/
def RedInfo.allKeys (r : RedInfo) (c : Coll) : List Nat :=
  let most := (List.range r.k.count).foldl (fun m o => max m (r.segs c o)) 0
  (List.range most).flatMap (fun j => (List.range r.k.count).filterMap (fun o => if j < r.segs c o then some (segKey o j) else none))

/-- Keys of this rank's own shard. -/
def RedInfo.ownKeys (r : RedInfo) (c : Coll) : List Nat :=
  (List.range (r.segs c r.k.myRank)).map (fun j => segKey r.k.myRank j)

/-- Flags of the additions at the owner (R108, R292). -/
def State.redFlags (s : State) (r : RedInfo) (fl : Nat) : State := (s.flagBank r.acc fl).flagGrad r.acc fl true

/-- Send a segment: DATA on VC 0 with its owner among the arguments. -/
def State.sendSegment (s : State) (p : Nat) (k : Comm) (c : Coll) (key rank : Nat) (bs : List Byte) : State :=
  s.toRankFrom p c.bay k rank (s.collMsg p c Vc.reduction Ty.data (keySeg key) [keyOwner key] (withCrc bs))

/-- A segment is ready for a rank: it goes at once where the grant is here already (R277). -/
def State.readySegment (s : State) (p : Nat) (k : Comm) (c : Coll) (key rank : Nat) (bs : List Byte) : State × Coll :=
  let c := { c with toSend := c.toSend ++ [(key, rank, bs)] }
  if c.grants.contains (key, rank) then (s.sendSegment p k c key rank bs, { c with sent := (key, rank) :: c.sent }) else (s, c)

/-- A finished segment: its squares, its conversion and its write to DEST; after the last one, the owner's pair (R294). -/
def State.finishSegment (s : State) (p : Nat) (r : RedInfo) (c : Coll) (key : Nat) (sums : List Nat) : State × Coll × Option Eff :=
  let d := r.d
  let sq : Nat × Nat × Nat := if d.ownerSsq then
      sums.foldl (fun (a : Nat × Nat × Nat) x =>
        let m := f32mul x x
        let b := pairAdd a.1 a.2.1 m.bits
        (b.1, b.2.1, a.2.2 ||| m.fl ||| b.2.2)) (0, 0, 0)
    else (0, 0, 0)
  let cs := sums.map (fun x => convElem d.dstFmt (f32 x) 0 none)
  let fl := if d.dstFmt = 0 then 0 else cs.foldl (fun f x => f ||| x.fl) 0
  let bs := packElems d.dstFmt 0 (cs.map (fun x => x.code))
  let a := d.dest + keySeg key * r.seg * r.per * fmtBytes d.dstFmt 1
  match s.arriveFault p c.tile a bs.length with
  | some e => (s, c, some e)
  | none =>
    let s := ((s.flagBank r.acc sq.2.2).redFlags r fl).partPut Req.link p a bs
    let c := { c with ssq := c.ssq ++ [(key, BitVec.ofNat 32 sq.1, BitVec.ofNat 32 sq.2.1)] }
    if d.ownerSsq && decide (c.ssq.length = r.segs c r.k.myRank) then
      let ps := orderedBy (fun x y => decide (x.1 ≤ y.1)) c.ssq
      let t : Nat × Nat × Nat := ps.foldl (fun (a : Nat × Nat × Nat) x =>
        let b := pairPlus (a.1, a.2.1) (x.2.1.toNat, x.2.2.toNat)
        (b.1, b.2.1, a.2.2 ||| b.2.2)) (0, 0, 0)
      let n := pairOfVal (pairVal t.1 t.2.1).1
      let at_ := scratchBase c.tile + d.ssqAddr
      match s.arriveFault p c.tile at_ 8 with
      | some e => (s, c, some e)
      | none => ((s.flagBank r.acc (t.2.2 ||| n.2.2)).partPut Req.link p at_ (leBytes 4 n.1 ++ leBytes 4 n.2.1), c, none)
    else (s, c, none)

/-- Add the contributions of a segment that are here, in ascending rank order (R292); the last one finishes it. -/
def State.addRanks (p : Nat) (r : RedInfo) (key : Nat) : Nat → State → Coll → State × Coll × Option Eff
  | 0, s, c => (s, c, none)
  | n + 1, s, c =>
    match c.vals.find? (fun v => v.1 == key) with
    | none => (s, c, none)
    | some (_, st) =>
      let next := st.headD 0
      if r.k.count ≤ next then
        s.finishSegment p r { c with vals := c.vals.filter (fun v => v.1 != key) } key (st.drop 1)
      else
        match c.held.find? (fun h => h.1 == key && h.2.1 == next) with
        | none => (s, c, none)
        | some (_, _, bs) =>
          let (sums, fl) := foldIn (st.drop 1) (contribVals r.thin c.fmt (r.units c key) r.size bs)
          let s := (s.redFlags r fl).finc .spBankside r.acc (ceilDiv (4 * sums.length) 64)
          State.addRanks p r key n s { c with
            held := c.held.filter (fun h => !(h.1 == key && h.2.1 == next)),
            vals := c.vals.map (fun v => if v.1 == key then (key, (next + 1) :: sums) else v) }

/-- A partial of the ring has this rank's contribution added and goes on, or is the sum (R293). -/
def State.ringOn (s : State) (p : Nat) (r : RedInfo) (c : Coll) (key : Nat) (partial_ : List Nat) : State × Coll × Option Eff :=
  let me := r.k.myRank
  let mine := ((c.held.find? (fun h => h.1 == key && h.2.1 == me)).map (fun h => h.2.2)).getD []
  let (sums, fl) := foldIn partial_ (contribVals false c.fmt (r.units c key) r.size mine)
  let s := (s.redFlags r fl).finc .spBankside r.acc (ceilDiv (4 * sums.length) 64)
  let c := { c with held := c.held.filter (fun h => !(h.1 == key && h.2.1 == me)) }
  let bs := sums.flatMap (leBytes 4)
  if me + 1 < r.k.count then
    let (s, c) := s.readySegment p r.k c key (me + 1) bs
    (s, c, none)
  else if keyOwner key = me then s.finishSegment p r c key sums
  else
    let (s, c) := s.readySegment p r.k c key (keyOwner key) bs
    (s, c, none)

/-- The pair that the reserved slot waits for: the lowest awaited rank of the lowest-numbered segment that is not finished (R278). -/
def RedInfo.awaited (r : RedInfo) (c : Coll) : Option (Nat × Nat) :=
  if r.ring then c.expect.head?
  else (c.vals.head?).map (fun v => (v.1, v.2.headD 0))

/-- Slots of the window, the reserved one apart, that are taken: granted and not arrived, or held before their turn. -/
def RedInfo.taken (r : RedInfo) (c : Coll) : Nat :=
  (c.granted.filter (fun g => some g != r.awaited c)).length +
    (if r.ring then 0 else
      (c.held.filter (fun h => h.2.1 != r.k.myRank &&
        c.vals.any (fun v => v.1 == h.1 && decide (v.2.headD 0 < h.2.1)))).length)

/-- The pairs to grant now (R278). -/
def RedInfo.newGrants (r : RedInfo) (c : Coll) : List (Nat × Nat) :=
  let open_ := c.expect.filter (fun e => !c.granted.contains e)
  let first := open_.filter (fun e => some e == r.awaited c)
  first ++ (open_.filter (fun e => some e != r.awaited c)).take (r.d.window - 1 - r.taken c)

/-- Send one grant: the reduction, the segment and its owner, to the source rank (R277). -/
def State.sendGrant (s : State) (p : Nat) (k : Comm) (c : Coll) (e : Nat × Nat) : State :=
  s.toRankFrom p c.bay k e.2 (s.collMsg p c Vc.scalar Ty.grant (keySeg e.1) [keyOwner e.1] [])

/-- Grant what the window allows. -/
def State.grantAll (s : State) (p : Nat) (r : RedInfo) (c : Coll) : State × Coll :=
  let gs := r.newGrants c
  (gs.foldl (fun s e => s.sendGrant p r.k c e) s, { c with granted := c.granted ++ gs })

/-- The reduction holds nothing more to send, to await or to write (R280). -/
def Coll.redDone (c : Coll) : Bool := c.toSend.isEmpty && c.expect.isEmpty && c.vals.isEmpty

/-- Keep a reduction as it now stands: it fails, completes, or goes on with what the window grants. -/
def State.settleRed (s : State) (p : Nat) (r : RedInfo) (x : Coll × Option Eff) : State :=
  match x.2 with
  | some e => s.breakColl p x.1 e
  | none =>
    let (s, c) := s.grantAll p r x.1
    if c.redDone then s.closeColl p c else s.modColl p c.id (fun _ => c)

/-! ### Messages (R277 to R281, R292, R293) -/

/-- Acknowledge a segment to the rank that sent it. -/
def State.ackSegment (s : State) (p : Nat) (k : Comm) (c : Coll) (key rank : Nat) : State :=
  s.toRankFrom p c.bay k rank (s.collMsg p c Vc.scalar Ty.segAck (keySeg key) [keyOwner key] [])

/-- A segment arrives at a reduction in progress: checked, acknowledged, placed and added in its turn. -/
def State.takeSegment (s : State) (p : Nat) (m : Msg) (c : Coll) : State :=
  match (s.part p).cfg.comm c.comm with
  | none => s
  | some k =>
    let r := c.redInfo (s.part p).cfg k
    let key := segKey (m.args.headD k.myRank) m.seg
    let e := (key, m.rank)
    if c.orphan then
      let s := s.ackSegment p k c key m.rank
      let left := c.expect.filter (fun x => x != e)
      if left.isEmpty then s.modPart p (fun x => { x with colls := x.colls.filter (fun d => d.id != c.id) })
      else s.modColl p c.id (fun c => { c with expect := left })
    else if !c.expect.contains e then s.ackSegment p k c key m.rank
    else if !c.granted.contains e then s
    else
      match checkedData m with
      | none =>
        if c.mayAsk key m.rank then
          ((s.finc .redResends c.bay 1).modColl p c.id (fun c => c.asked key m.rank)).sendGrant p k c e
        else s
      | some bs =>
        let c := { c with expect := c.expect.filter (fun x => x != e), granted := c.granted.filter (fun x => x != e) }
        let s := s.ackSegment p k c key m.rank
        if r.ring then
          let sums := unpackElems 0 bs (r.units c key)
          let (s, x) := if keyOwner key = k.myRank ∧ m.rank + 1 = k.count then s.finishSegment p r c key sums
            else s.ringOn p r c key sums
          s.settleRed p r x
        else
          let early := c.vals.any (fun v => v.1 == key && v.2.headD 0 != m.rank)
          let s := if early then s.finc .redEarly c.bay 1 else s
          let (s, x) := State.addRanks p r key (k.count + 1) s { c with held := c.held ++ [(key, m.rank, bs)] }
          s.settleRed p r x

/-- REDUCTION_SEGMENT (R279, R281, R292, R293). -/
def State.onSegment (s : State) (p : Nat) (m : Msg) : State := s.toColl p m (fun s c => s.takeSegment p m c)

/-- A grant: the segment goes at once where it is ready, and else when it is; an orphan sends nothing (R277, R281). -/
def State.takeGrant (s : State) (p : Nat) (m : Msg) (c : Coll) : State :=
  match (s.part p).cfg.comm c.comm with
  | none => s
  | some k =>
    if c.orphan then s
    else
      let key := segKey (m.args.headD m.rank) m.seg
      match c.toSend.find? (fun x => x.1 == key && x.2.1 == m.rank) with
      | some x => (s.sendSegment p k c key m.rank x.2.2).modColl p c.id (fun c => { c with sent := (key, m.rank) :: c.sent })
      | none => s.modColl p c.id (fun c => { c with grants := (key, m.rank) :: c.grants })

def State.onGrant (s : State) (p : Nat) (m : Msg) : State := s.toColl p m (fun s c => s.takeGrant p m c)

/-- An acknowledgement: the segment needs nothing more, and the word may complete (R277, R280). -/
def State.takeAck (s : State) (p : Nat) (m : Msg) (c : Coll) : State :=
  if c.orphan then s
  else
    let key := segKey (m.args.headD m.rank) m.seg
    let c := { c with toSend := c.toSend.filter (fun x => !(x.1 == key && x.2.1 == m.rank)) }
    if c.redDone then s.closeColl p c else s.modColl p c.id (fun _ => c)

def State.onAck (s : State) (p : Nat) (m : Msg) : State := s.toColl p m (fun s c => s.takeAck p m c)

/-! ### The word (R275, R276, R280, R283) -/

/-- The shard map's rules for a thinned tensor, and its formats (R276, R283). -/
def thinOk (tn : Tensor) (fmt count : Nat) (es : List (Nat × Nat × Nat)) : Bool :=
  tn.thin == 0 || ((tn.store == 1 || tn.store == 2) && fmt == tn.store && count % 4096 == 0 && es.all (fun e => e.1 % 4096 == 0))

/-- The identity of a reduction is in use in its step (R275). -/
def State.redUsed (s : State) (p t comm opNo stepNo : Nat) : Bool :=
  (s.redsOf p t).contains (comm, opNo) ||
    (s.part p).colls.any (fun c => c.op == 0 && !c.orphan && c.comm == comm && c.opNo == opNo && c.stepNo == stepNo)

/-- Keys, their awaited ranks and this rank's own contributions at the start of a reduction. -/
def State.seedRed (s : State) (p : Nat) (r : RedInfo) (c : Coll) (raw : List Byte) : State × Coll × Option Eff :=
  let me := r.k.myRank
  if r.ring then
    let keys := r.allKeys c
    let c := { c with
      held := keys.map (fun key => (key, me, r.slice c raw key)),
      expect := if r.k.count ≤ 1 then [] else keys.flatMap (fun key => (if me = 0 then [] else [(key, me - 1)]) ++
        (if keyOwner key = me ∧ me + 1 < r.k.count then [(key, r.k.count - 1)] else [])) }
    if me = 0 then
      keys.foldl (fun (x : State × Coll × Option Eff) key =>
        match x.2.2 with
        | some _ => x
        | none => x.1.ringOn p r x.2.1 key (List.replicate (r.units x.2.1 key) 0)) (s, c, none)
    else (s, c, none)
  else
    let own := r.ownKeys c
    let c := { c with
      held := own.map (fun key => (key, me, r.slice c raw key)),
      vals := own.map (fun key => (key, 0 :: List.replicate (r.units c key * r.per) 0)),
      expect := own.flatMap (fun key => ((List.range r.k.count).filter (fun x => x != me)).map (fun x => (key, x))),
      toSend := (r.allKeys c).filterMap (fun key => if keyOwner key = me then none else some (key, keyOwner key, r.slice c raw key)) }
    own.foldl (fun (x : State × Coll × Option Eff) key =>
      match x.2.2 with
      | some _ => x
      | none => State.addRanks p r key (r.k.count + 1) x.1 x.2.1) (s, c, none)

/-- A contribution of one tile was drained in another format than FMT (R282). -/
def State.redMisfit (s : State) (p tensor src fmt : Nat) (thin : Bool) : Bool :=
  match spaceOf src, s.redTiles p tensor src with
  | .scratch t _, [] | .scratch t _, [_] => !thin && (Tab.get 0 (s.tile t).drained tensor != 0 && Tab.get 0 (s.tile t).drained tensor != fmt + 1)
  | _, _ => false

/-- Start a REDUCE_SCATTER word whose descriptor is `desc`. -/
def State.startRed (s : State) (p t : Nat) (f : Flight) (k : Comm) (desc : BitVec 512) : State :=
  let d := collD desc
  let cfg := (s.part p).cfg
  let tn := cfg.tensor d.tensor
  let fmt := wFmt f.word.toNat
  let stepNo := s.xchStep t
  if !d.fieldsOk 0 false false || !s.mapped (8 * (t / 8) + d.accTile) then s.wordEff t f (.bad Reason.descriptor) id
  else
    match s.spFault t (64 * d.map) (8 * d.mapEntries) false with
    | some e => s.wordEff t f e id
    | none =>
      let bs := s.spRead t (64 * d.map) (8 * d.mapEntries)
      let es := (List.range d.mapEntries).map (mapEntry bs)
      if !mapOk k.count d.count es || !thinOk tn fmt d.count es then s.wordEff t f (.bad Reason.descriptor) id
      else if s.redMisfit p d.tensor d.src fmt (tn.thin != 0) then s.wordEff t f (.bad Reason.badFormat) id
      else if s.redUsed p t k.id d.opNo stepNo then
        s.wordEff t f (.fail Source.reductionDuplicate Kind.tile t d.opNo) id
      else
        let c0 : Coll := { Coll.base with bay := t / 8, words := [(t, f.id)], comm := k.id, op := 0, opNo := d.opNo, fmt := fmt,
                                          stepNo := stepNo, desc := desc, map := es.map (fun e => (e.1, e.2.1)) }
        let r := c0.redInfo cfg k
        let units := d.count / r.per
        match s.dataFaults p (s.redReads p d.tensor d.src d.count units r.size r.thin) with
        | some x => s.wordEff t f (failAt (Kind.tile, t) x) id
        | none =>
          let old (c : Coll) : Bool := c.orphan && c.comm == k.id && c.opNo == d.opNo && c.stepNo == stepNo
          let s := s.modPart p (fun x => { x with colls := x.colls.filter (fun c => !old c) })
          let s := s.modFlight t f.id (fun f => { f with started := true })
          let ms := s.earlyFor p c0
          let (c, s) := s.openColl p c0
          let (s, raw) := s.redSource p d.tensor d.src d.count units r.size fmt r.thin
          let (s, x) := s.seedRed p r c raw
          let s := (s.modColl p c.id (fun _ => x.1)).settleRed p r x
          ms.foldl (fun s m =>
            if m.ty = Ty.grant then s.onGrant p m else if m.ty = Ty.segAck then s.onAck p m else s.onSegment p m) s

end Sys2Proof.Machine
end

