-- ==== Sys2Proof/Machine/Gather.lean ====
section
/-!
DEFINITION. ALL_GATHER, ALL_TO_ALL and BROADCAST (R198, R199, R326, R338, R339), and resends of their messages (R350).
-/

namespace Sys2Proof.Machine

/-- What a gather's descriptor fixes on this device. -/
structure GatherInfo where
  k : Comm
  d : CollD
  /-- Formats as sent and as they arrive (R198). -/
  fmt : Nat
  arr : Nat
  /-- Elements of a segment. -/
  seg : Nat

/-- The format in which elements of `fmt` arrive: ARRIVE_FORMAT of the tensor for a gather or an exchange of its STORE_FORMAT (R198, R338; log
entry 37). -/
def arriveFmt (op fmt : Nat) (tn : Tensor) : Nat :=
  if (op = 1 ∨ op = 2) ∧ fmt = tn.store ∧ widenLegal fmt tn.arrive then tn.arrive else fmt

def Coll.gatherInfo (c : Coll) (cfg : Cfg) (k : Comm) : GatherInfo :=
  let d := collD c.desc
  { k := k, d := d, fmt := c.fmt, arr := arriveFmt c.op c.fmt (cfg.tensor d.tensor),
    seg := if c.op = 2 then max 1 d.count else roundUp k.segElems 64 }

/-- The destination elements that a sender's data fills, as runs: an owner's shard, a block, or the whole range (R326). -/
def GatherInfo.runs (g : GatherInfo) (c : Coll) (owner : Nat) : List (Nat × Nat) :=
  if c.op = 1 then runsOf c.map g.d.count owner
  else if c.op = 2 then [(owner * g.d.count, g.d.count)]
  else [(0, g.d.count)]

/-- Segments of a sender's data. -/
def GatherInfo.segs (g : GatherInfo) (c : Coll) (owner : Nat) : Nat := segCount (runsLen (g.runs c owner)) g.seg

/-- The runs of a segment. -/
def GatherInfo.segRuns (g : GatherInfo) (c : Coll) (key : Nat) : List (Nat × Nat) :=
  cutRuns (g.runs c (keyOwner key)) (keySeg key * g.seg) g.seg

/-- The bytes that hold elements [i, i + n) of a packed plane: first byte and length (R80). -/
def spanOf (f i n : Nat) : Nat × Nat := (i * fmtBits f / 8, ceilDiv ((i + n) * fmtBits f) 8 - i * fmtBits f / 8)

/-- The scales of elements [i, i + n): first block and blocks (R81). -/
def blocksOf (i n : Nat) : Nat × Nat := (i / 64, ceilDiv (i + n) 64 - i / 64)

/-- Elements [i, i + n) of packed bytes, packed anew. -/
def sliceElems (f i n : Nat) (bs : List Byte) : List Byte :=
  let b := bs.drop (i * fmtBits f / 8)
  if i * fmtBits f % 8 = 0 then b.take (fmtBytes f n) else packElems f 0 ((unpackElems f b (n + 1)).drop 1)

/-- Packed elements `bs` put at elements [i, i + n), over the bytes `old` that hold those: a neighbour's half of a byte stays. -/
def mergeElems (f i n : Nat) (old bs : List Byte) : List Byte :=
  if i * fmtBits f % 8 = 0 ∧ n * fmtBits f % 8 = 0 then bs
  else
    let o := unpackElems f old (2 * old.length)
    packElems f 0 (o.take (i % 2) ++ unpackElems f bs n ++ o.drop (i % 2 + n))

/-- Place, in its sender's source, of the first element of a segment. -/
def GatherInfo.start (g : GatherInfo) (c : Coll) (key : Nat) : Nat :=
  if c.op = 2 then g.k.myRank * g.d.count else keySeg key * g.seg

/-- Elements of the whole destination. -/
def GatherInfo.total (g : GatherInfo) (c : Coll) : Nat := if c.op = 2 then g.k.count * g.d.count else g.d.count

/-- Source ranges of n elements from place i: the data, then the scales of a scaled source. -/
def GatherInfo.srcRanges (g : GatherInfo) (i n : Nat) : List (Nat × Nat) :=
  (g.d.src + (spanOf g.fmt i n).1, (spanOf g.fmt i n).2) ::
    (if fmtScaled g.fmt then [(g.d.srcScale + 2 * (blocksOf i n).1, 2 * (blocksOf i n).2)] else [])

/-- A payload: the elements, then their scales. -/
def State.gatherData (s : State) (p : Nat) (g : GatherInfo) (i n : Nat) : List Byte :=
  match g.srcRanges i n with
  | [] => []
  | x :: rest =>
    sliceElems g.fmt (if i * fmtBits g.fmt % 8 = 0 then 0 else 1) n (s.partRead p x.1 x.2) ++
      rest.flatMap (fun y => s.partRead p y.1 y.2)

/-- The tile whose scratchpad holds the destination scale plane, and which widens the arrivals. -/
def GatherInfo.tile (g : GatherInfo) (c : Coll) : Nat :=
  match spaceOf g.d.dest with
  | .scratch t _ => t
  | _ => c.tile

/-- Pieces of a list of bytes, by length. -/
def cutBytes : List Nat → List Byte → List (List Byte)
  | [], _ => []
  | n :: rest, bs => bs.take n :: cutBytes rest (bs.drop n)

/-- A scale plane lands at DEST_SCALE: of a scaled arrival, and of a gathered scaled source for which the descriptor names one (R325, R338; log
entry 138). -/
def GatherInfo.planed (g : GatherInfo) (c : Coll) : Bool := fmtScaled g.arr || (fmtScaled g.fmt && c.op == 1 && g.d.destScale != 0)

/-- Destination ranges of runs of elements. -/
def GatherInfo.dstRanges (g : GatherInfo) (c : Coll) (rs : List (Nat × Nat)) : List (Nat × Nat) :=
  rs.map (fun r => (g.d.dest + (spanOf g.arr r.1 r.2).1, (spanOf g.arr r.1 r.2).2)) ++
    (if g.planed c then
      rs.map (fun r => (wordAddr (g.tile c) g.d.destScale + 2 * (blocksOf r.1 r.2).1, 2 * (blocksOf r.1 r.2).2)) else [])

/-- Runs with the place of each in the payload. -/
def runPlaces : Nat → List (Nat × Nat) → List (Nat × Nat × Nat)
  | _, [] => []
  | x, (e, n) :: rest => (x, e, n) :: runPlaces (x + n) rest

/-- Scales of a run's destination blocks: a source block's own where a destination block is filled from that block alone, and a free
value where elements of different source blocks meet in it, for which the spec states no scale (log entry 38). -/
def placedScales (i total : Nat) (scales : List Byte) (x e n : Nat) : List Byte :=
  (List.range (blocksOf e n).2).flatMap (fun j =>
    let b := e / 64 + j
    if e ≤ 64 * b ∧ min (64 * b + 64) total ≤ e + n ∧ (i + x + (64 * b - e)) % 64 = 0 then
      (scales.drop (2 * ((i + x + (64 * b - e)) / 64 - i / 64))).take 2
    else leBytes 2 (Config.freeAt 32 (b :: i :: x :: e :: scales.map BitVec.toNat)))

/-- Scales of every run. -/
def allScales (i total : Nat) (scales : List Byte) (rs : List (Nat × Nat × Nat)) : List (List Byte) :=
  rs.map (fun y => placedScales i total scales y.1 y.2.1 y.2.2)

/-- Place a segment's payload at its runs of destination elements, widened as it lands (R198, R326). -/
def State.placeGather (s : State) (p : Nat) (g : GatherInfo) (c : Coll) (key : Nat) (bs : List Byte) : Eff :=
  let rs := g.segRuns c key
  let n := runsLen rs
  let i := g.start c key
  let into : List (Nat × Nat) := g.dstRanges c rs
  match s.arriveFaults p c.tile into with
  | some e => e
  | none =>
    let data := bs.take (fmtBytes g.fmt n)
    let scales := bs.drop (fmtBytes g.fmt n)
    let (out, fl) : List Byte × Nat :=
      if g.arr = g.fmt then (data, 0)
      else
        let xs := (unpackElems g.fmt data n).zipIdx.map (fun x =>
          widenElem g.fmt g.arr x.1 (leNat ((scales.drop (2 * ((i % 64 + x.2) / 64))).take 2)))
        (packElems g.arr 0 (xs.map Prod.fst), xs.foldl (fun f x => f ||| x.2) 0)
    let places := runPlaces 0 rs
    let s := places.foldl (fun s y =>
      let at0 := spanOf g.arr y.2.1 y.2.2
      s.partPut Req.link p (g.d.dest + at0.1)
        (mergeElems g.arr y.2.1 y.2.2 (s.partRead p (g.d.dest + at0.1) at0.2) (sliceElems g.arr y.1 y.2.2 out))) s
    let planes : List (List Byte) := if g.planed c then allScales i (g.total c) scales places else []
    let s := (s.putRanges p ((into.drop rs.length).zip planes)).landed s Req.link (into.drop rs.length)
    let s := s.flagBank (g.tile c) fl
    .ok (if g.arr = g.fmt then s else s.finc .spBankside (g.tile c) (ceilDiv out.length 64))

/-- Virtual channel of an operation's data (R314). -/
def gatherVc (op : Nat) : Nat := if op = 1 then Vc.gather else if op = 2 then Vc.exchange else Vc.broadcast

/-- Send a payload to some ranks. -/
def State.sendGather (s : State) (p : Nat) (g : GatherInfo) (c : Coll) (key : Nat) (bs : List Byte) (ranks : List Nat) : State :=
  ranks.foldl (fun s r =>
    s.toRankFrom p c.bay g.k r (s.collMsg p c (gatherVc c.op) Ty.data (keySeg key) [keyOwner key] (withCrc bs))) s

/-! ### Messages -/

/-- Ask a rank to send a message again (R350): a SEG_ACK with NAK set, or for VC 3 a DATA message with COLL_OP 7. -/
def State.askAgain (s : State) (p : Nat) (k : Comm) (c : Coll) (key rank : Nat) : State :=
  let s := (s.finc .exchResends c.bay 1).modColl p c.id (fun c => c.asked key rank)
  let m := s.collMsg p c Vc.scalar Ty.segAck (keySeg key) [keyOwner key] []
  if c.op = 3 then s.toRankFrom p c.bay k rank { m with vc := Vc.broadcast, ty := Ty.data, op := 7 } else s.toRankFrom p c.bay k rank { m with nak := true }

/-- A gather holds all that it awaits. -/
def State.settleGather (s : State) (p : Nat) (c : Coll) : State :=
  if c.expect.isEmpty then s.closeColl p c else s.modColl p c.id (fun _ => c)

/-- A message of a gather arrives: taken whole, placed, and forwarded down its tree (R326). -/
def State.takeGather (s : State) (p : Nat) (m : Msg) (c : Coll) : State :=
  match (s.part p).cfg.comm c.comm with
  | none => s
  | some k =>
    let g := c.gatherInfo (s.part p).cfg k
    let key := segKey (m.args.headD m.rank) m.seg
    let e := (key, m.rank)
    if !c.expect.contains e then s
    else
      match checkedData m with
      | none => if c.mayAsk key m.rank then s.askAgain p k c key m.rank else s
      | some bs =>
        let s :=
          if c.op = 2 then s
          else if (s.part p).relayed.contains m then s.modPart p (fun x => { x with relayed := x.relayed.erase m })
          else s.sendGather p g c key bs (k.children (keyOwner key) k.myRank)
        match s.placeGather p g c key bs with
        | .ok s => s.settleGather p { c with expect := c.expect.filter (fun x => x != e) }
        | e => s.breakColl p c e

/-- A segment that travels down a tree before this rank's own word has started is forwarded at once, where its CRC-64 holds (R326). -/
def State.relayGather (s : State) (p : Nat) (m : Msg) : State :=
  match (s.part p).cfg.comm m.comm with
  | none => s
  | some k =>
    if m.op = 2 ∨ (s.collOf p m).isSome ∨ (m.op ≠ 3 ∧ s.pastColl p m) ∨ (checkedData m).isNone ∨ (s.part p).early.contains m then s
    else
      ((k.children (m.args.headD m.rank) k.myRank).foldl (fun s r => s.toRank p k r m) s).modPart p (fun x =>
        { x with relayed := x.relayed ++ [m] })

def State.onGather (s : State) (p : Nat) (m : Msg) : State :=
  (s.relayGather p m).toColl p m (fun s c => s.takeGather p m c)

/-- ALL_GATHER_MESSAGE (R326, R338, R339, R350). -/
def State.allGatherMsg (s : State) (p : Nat) (m : Msg) : State :=
  if m.op = 1 then s.collective p m Vc.gather Ty.data (fun s => s.onGather p m) else s

/-- ALL_TO_ALL_MESSAGE (R326). -/
def State.allToAllMsg (s : State) (p : Nat) (m : Msg) : State :=
  if m.op = 2 then s.collective p m Vc.exchange Ty.data (fun s => s.onGather p m) else s

/-- Messages sent before that answer to a resend request: to the same receiver, of the same identity (R350). -/
def State.sentBefore (s : State) (m : Msg) : List Msg :=
  s.tx.filter (fun x => x.dst == m.src && x.ty == Ty.data && x.comm == m.comm && x.opNo == m.opNo && x.seg == m.seg &&
    x.op == (if m.op = 7 then 3 else m.op) && x.step == m.step && (x.args.headD 0 == m.args.headD 0))

/-- A sender sends the message again, at most 4 times (R350). -/
def State.resend (s : State) (p : Nat) (m : Msg) : State :=
  match s.sentBefore m with
  | [] => s
  | x :: rest => if 4 ≤ rest.length then s else s.send p x

/-- RESEND_REQUEST (R350). -/
def State.resendMsg (s : State) (p : Nat) (m : Msg) : State :=
  if m.vc = Vc.broadcast then
    s.onMsg p m Vc.broadcast Ty.data (m.op == 7) (fun s => s.resend p m)
  else if m.nak then s.collective p m Vc.scalar Ty.segAck (fun s => s.resend p m)
  else s

/-! ### The words (R325, R326) -/

/-- Start an ALL_GATHER, ALL_TO_ALL or BROADCAST word: read what this rank sends, place its own part, and send. -/
def State.startGather (s : State) (p t : Nat) (f : Flight) (k : Comm) (op : Nat) (desc : BitVec 512) : State :=
  let d := collD desc
  let cfg := (s.part p).cfg
  let fmt := wFmt f.word.toNat
  let arr := arriveFmt op fmt (cfg.tensor d.tensor)
  if !d.fieldsOk op (fmtScaled fmt) (fmtScaled arr || (op == 1 && fmtScaled fmt)) || (op == 3 && decide (k.count ≤ d.root)) then
    s.wordEff t f (.bad Reason.descriptor) id
  else
    match s.spFault t (64 * d.map) (8 * d.mapEntries) false with
    | some e => s.wordEff t f e id
    | none =>
      let bs := s.spRead t (64 * d.map) (8 * d.mapEntries)
      let es := (List.range d.mapEntries).map (mapEntry bs)
      if op == 1 && !mapOk k.count d.count es then s.wordEff t f (.bad Reason.descriptor) id
      else
        let c0 : Coll := { Coll.base with bay := t / 8, words := [(t, f.id)], comm := k.id, op := op, opNo := d.opNo, fmt := fmt,
                                          stepNo := s.xchStep t, desc := desc, map := es.map (fun e => (e.1, e.2.1)) }
        let g := c0.gatherInfo cfg k
        let me := k.myRank
        -- what this rank sends: key, first source place, elements, ranks it goes to
        let mine (root : Nat) (off : Nat) (ranks : List Nat) : List (Nat × Nat × Nat × List Nat) :=
          (List.range (g.segs c0 root)).map (fun j =>
            (segKey root j, off + j * g.seg, min g.seg (runsLen (g.runs c0 root) - j * g.seg), ranks))
        let out : List (Nat × Nat × Nat × List Nat) :=
          if op = 1 then mine me 0 (k.children me me)
          else if op = 2 then (List.range k.count).flatMap (fun j => mine me (j * d.count) [j])
          else if d.root = me then mine me 0 (k.children me me) else []
        let expect : List (Nat × Nat) :=
          if op = 1 then ((List.range k.count).filter (fun o => o != me)).flatMap (fun o =>
            (List.range (g.segs c0 o)).map (fun j => (segKey o j, k.parent o me)))
          else if op = 2 then ((List.range k.count).filter (fun o => o != me)).flatMap (fun o =>
            (List.range (g.segs c0 o)).map (fun j => (segKey o j, o)))
          else if d.root = me then [] else (List.range (g.segs c0 d.root)).map (fun j => (segKey d.root j, k.parent d.root me))
        match s.dataFaults p (out.flatMap (fun x => g.srcRanges x.2.1 x.2.2.1)) with
        | some x => s.wordEff t f (failAt (Kind.tile, t) x) id
        | none =>
          let s := s.modFlight t f.id (fun f => { f with started := true })
          let ms := s.earlyFor p c0
          let (c, s) := s.openColl p { c0 with expect := expect }
          let data := out.map (fun x => (x, s.gatherData p g x.2.1 x.2.2.1))
          let own := data.filter (fun x => op == 1 || (op == 2 && x.1.2.2.2 == [me]))
          let placed := own.foldl (fun (e : Eff) x => e.andThen (fun s => s.placeGather p g c x.1.1 x.2)) (.ok s)
          match placed with
          | .ok s =>
            let s := data.foldl (fun s x => s.sendGather p g c x.1.1 x.2 (x.1.2.2.2.filter (fun r => r != me))) s
            ms.foldl (fun s m => s.onGather p m) (s.settleGather p c)
          | e => s.breakColl p c e

/-- RESEND_REQUEST (R350). -/
def execResendRequest (p : Nat) (m : Msg) (s : State) : Host.Outcome State Fault Refusal := .next (s.resendMsg p m)

end Sys2Proof.Machine
end

