-- ==== Sys2Proof/Machine/Scalar.lean ====
section
/-!
DEFINITION. SCALAR_ALLREDUCE, BARRIER and the step norm (R250, R289, R295, R326).
-/

namespace Sys2Proof.Machine

/-! ### Values (R292, R295, R326) -/

/-- Words of a value: none for a BARRIER, a number, a pair, or a pair with its two flag bits. -/
def Coll.width (c : Coll) : Nat :=
  if c.op = 5 then 0 else if c.norm then 4 else if c.fmt = 8 then 2 else 1

/-- Rank 0 folds the values in ascending rank. The engine's own sums raise no flag (log entry 38). -/
def foldScalars (norm : Bool) (fmt : Nat) (vs : List (List Nat)) : List Nat :=
  if norm || fmt == 8 then
    let t : Nat × Nat := vs.foldl (fun (a : Nat × Nat) v =>
      let b := pairPlus a (v.getD 0 0, v.getD 1 0)
      (b.1, b.2.1)) (0, 0)
    let n := pairOfVal (pairVal t.1 t.2).1
    [n.1, n.2.1] ++ (if norm then [vs.foldl (fun f v => f ||| v.getD 2 0) 0, vs.foldl (fun f v => f ||| v.getD 3 0) 0] else [])
  else if fmt = 7 then [vs.foldl (fun a v => (i32add a (v.getD 0 0)).bits) 0]
  else [vs.foldl (fun a v => (f32add a (v.getD 0 0)).bits) 0]

/-- Values of an upward message: each a rank and its words. -/
def upValues (w : Nat) : Nat → List Nat → List (Nat × List Nat)
  | 0, _ => []
  | _ + 1, [] => []
  | n + 1, r :: rest => (r, rest.take w) :: upValues w n (rest.drop w)

/-- Send values up to the parent, each in a message of one flit (R326). SEGMENT 0 marks the way up, 1 the way down (log entry 32). -/
def State.sendUp (s : State) (p : Nat) (k : Comm) (c : Coll) (vs : List (Nat × List Nat)) : State :=
  if vs = [] then s
  else
    vs.foldl (fun s v => s.toRankFrom p c.bay k (k.parent 0 k.myRank) (s.collMsg p c Vc.scalar Ty.data 0 (v.1 :: v.2) [])) s

/-- Send the result, or a release, down to the children. -/
def State.sendDown (s : State) (p : Nat) (k : Comm) (c : Coll) (result : List Nat) : State :=
  (k.children 0 k.myRank).foldl (fun s r => s.toRankFrom p c.bay k r (s.collMsg p c Vc.scalar Ty.data 1 result [])) s

/-- The result goes down and is delivered. `done` is what the operation does with it. -/
def State.scalarDone (s : State) (p : Nat) (k : Comm) (done : State → Nat → Coll → List Nat → State) (c : Coll) (result : List Nat) : State :=
  done (s.sendDown p k c result) p c result

/-- New values are held: rank 0 folds them once it has heard from every rank, another rank forwards them (R326). -/
def State.holdScalars (s : State) (p : Nat) (k : Comm) (done : State → Nat → Coll → List Nat → State) (c : Coll) (vs : List (Nat × List Nat)) :
    State :=
  let new := orderedBy (fun a b => decide (a.1 ≤ b.1)) (vs.filter (fun v => !c.vals.any (fun x => x.1 == v.1)))
  let c := { c with vals := c.vals ++ new }
  let s := s.modColl p c.id (fun _ => c)
  if k.myRank ≠ 0 then s.sendUp p k c new
  else if c.vals.length < k.count then s
  else
    s.scalarDone p k done c (foldScalars c.norm c.fmt ((orderedBy (fun a b => decide (a.1 ≤ b.1)) c.vals).map Prod.snd))

/-- A message of a scalar operation that is in progress. -/
def State.takeScalar (s : State) (p : Nat) (done : State → Nat → Coll → List Nat → State) (m : Msg) (c : Coll) : State :=
  match (s.part p).cfg.comm c.comm with
  | none => s
  | some k =>
    if c.phase = 0 ∧ (m.seg = 1 ∨ k.myRank = 0) then s.modPart p (fun x => { x with early := x.early ++ [m] })
    else if m.seg = 1 then
      if k.myRank ≠ 0 ∧ m.rank = k.parent 0 k.myRank then s.scalarDone p k done c m.args else s
    else s.holdScalars p k done c (upValues c.width m.args.length m.args)

/-- A value on its way up that comes before this rank's own word has started goes on at once, except at rank 0 (R326). -/
def State.passUp (s : State) (p : Nat) (m : Msg) : Option State :=
  match (s.part p).cfg.comm m.comm with
  | none => none
  | some k =>
    if m.seg = 1 ∨ k.myRank = 0 ∨ (s.collOf p m).isSome ∨ s.pastColl p m then none
    else some (s.toRank p k (k.parent 0 k.myRank) m)

def State.onScalar (s : State) (p : Nat) (done : State → Nat → Coll → List Nat → State) (m : Msg) : State :=
  match s.passUp p m with
  | some s => s
  | none => s.toColl p m (fun s c => s.takeScalar p done m c)

/-- A scalar operation begins on this rank with its own value; the messages that came before are taken. -/
def State.joinScalar (s : State) (p : Nat) (k : Comm) (done : State → Nat → Coll → List Nat → State) (c : Coll) (value : List Nat) : State :=
  let ms := s.earlyFor p c
  let s := s.modPart p (fun x => { x with early := x.early.filter (fun m => !c.hits m) })
  let s := s.modColl p c.id (fun c => { c with phase := 1 })
  ms.foldl (fun s m => s.onScalar p done m) (s.holdScalars p k done { c with phase := 1 } [(k.myRank, value)])

/-! ### What the operations do with a result -/

/-- The bytes of a result. -/
def scalarBytes (c : Coll) (result : List Nat) : List Byte := (result.take (if c.norm ∨ c.fmt = 8 then 2 else 1)).flatMap (leBytes 4)

/-- The LEARN tiles of a partition, which issue the step norm (R295). -/
def State.normTiles (s : State) (p : Nat) : List Nat := (s.tilesOf p).filter (fun t => s.role p t == Role.learn)

/-- The step overflow bit of a result (R108, R295). -/
def normOverflow (result : List Nat) : Bool :=
  result.getD 2 0 != 0 || result.getD 3 0 != 0 ||
    !f32isFinite (FFmt.fp32.ofVal (pairVal (result.getD 0 0) (result.getD 1 0)).1).bits

/-- Deliver the norm record to the kettles and the overflow bit to the LEARN tiles (R250, R289, R295). -/
def State.normRecord (s : State) (p stepNo : Nat) (result : List Nat) : State :=
  let ovf := normOverflow result
  let s := (s.baysOf p).foldl (fun s b =>
    ((((s.fset .ketNormH b (result.getD 0 0)).fset .ketNormL b (result.getD 1 0)).fset .ketOverflow b (bitNat ovf)).fset .ketNormStep b
      stepNo).signalKettle b 15 1) s
  if ovf then (s.normTiles p).foldl (fun s t => s.fset1s .lauOvf t (2 ^ (stepNo % 64))) s else s

/-- A result lands at each DEST (R326), and the words complete. -/
def State.scalarLand (s : State) (p : Nat) (c : Coll) (result : List Nat) : State :=
  let bs := scalarBytes c result
  let into : List (Nat × Nat) := if c.norm then c.toSend.map (fun x => (x.1, x.2.1)) else [(c.tile, (collD c.desc).dest)]
  match into.findSome? (fun x => s.arriveFault p x.1 x.2 bs.length) with
  | some e => s.breakColl p c e
  | none => (into.foldl (fun s x => s.partPut Req.link p x.2 bs) s).closeColl p c

/-- What the operations of `XCH.COLL` do with their result. -/
def State.scalarEnd (s : State) (p : Nat) (c : Coll) (result : List Nat) : State :=
  if c.op = 5 then s.closeColl p c
  else if c.norm then (s.normRecord p c.stepNo result).scalarLand p c result
  else s.scalarLand p c result

/-! ### The words (R295, R325, R326) -/

/-- Start a SCALAR_ALLREDUCE or a BARRIER word. -/
def State.startScalar (s : State) (p t : Nat) (f : Flight) (k : Comm) (op : Nat) (desc : BitVec 512)
    (done : State → Nat → Coll → List Nat → State) : State :=
  let d := collD desc
  let fmt := wFmt f.word.toNat
  let n := if fmt = 8 then 8 else 4
  match (if op = 5 then none else s.dataFault p d.src n) with
  | some x => s.wordEff t f (failAt (Kind.tile, t) x) id
  | none =>
    let value : List Nat :=
      if op = 5 then []
      else
        let bs := s.partRead p d.src n
        if fmt = 8 then [leField bs 3 0, leField bs 7 4] else [leNat bs]
    let s := s.modFlight t f.id (fun f => { f with started := true })
    let c0 : Coll := { Coll.base with bay := t / 8, words := [(t, f.id)], comm := k.id, op := op, opNo := d.opNo, fmt := fmt,
                                      stepNo := s.xchStep t, desc := desc }
    let ms := s.earlyFor p c0
    let (c, s) := s.openColl p c0
    (s.modPart p (fun x => { x with early := x.early ++ ms })).joinScalar p k done c value

/-- The collective engine combines the norm pairs and gradient flags of the LEARN tiles (R45, R295). -/
def State.normValue (s : State) (c : Coll) : List Nat :=
  let ts := orderedBy (fun a b => decide (a.1 ≤ b.1)) (c.ssq.map (fun x => (x.1, x.2.1.toNat, x.2.2.toNat)))
  let plus (a b : Nat × Nat) : Nat × Nat := ((pairPlus a b).1, (pairPlus a b).2.1)
  let v : Nat × Nat := treeFold plus (0, 0) (ts.map Prod.snd)
  let any (f : Fld) : Nat := bitNat (ts.any (fun x => s.fget f x.1 == 1))
  [v.1, v.2, any .numGradOf, any .numGradInv]

/-- Start a step norm word: it joins those of the other LEARN tiles, and the last one begins the all-reduce (R295; log entry 39). -/
def State.startNorm (s : State) (p t : Nat) (f : Flight) (k : Comm) (desc : BitVec 512) (done : State → Nat → Coll → List Nat → State) : State :=
  let d := collD desc
  let tiles := s.normTiles p
  let stepNo := s.xchStep t
  let found := (s.part p).colls.find? (fun c => c.norm && c.stepNo == stepNo)
  let used := (s.redsOf p t).contains (k.id, 65536 * 4 + d.opNo)
  if !tiles.contains t || (s.tile t).rollout then s.wordEff t f (.bad Reason.descriptor) id
  else if (match found with
      | some c => decide (c.phase = 1) || c.words.any (fun w => w.1 == t) || c.comm != k.id || c.opNo != d.opNo
      | none => used) then
    s.wordEff t f (.fail Source.reductionDuplicate Kind.tile t d.opNo) id
  else
    match s.dataFault p d.src 8 with
    | some x => s.wordEff t f (failAt (Kind.tile, t) x) id
    | none =>
      let bs := s.partRead p d.src 8
      let s := s.modFlight t f.id (fun f => { f with started := true })
      let (c, s) : Coll × State :=
        match found with
        | some c => (c, s)
        | none =>
          let c0 : Coll := { Coll.base with bay := t / 8, comm := k.id, op := 4, opNo := d.opNo, fmt := 8, stepNo := stepNo,
                                            norm := true, desc := desc }
          let ms := s.earlyFor p c0
          let (c, s) := s.openColl p c0
          (c, s.modPart p (fun x => { x with early := x.early ++ ms }))
      let c := { c with
        words := c.words ++ [(t, f.id)], toSend := c.toSend ++ [(t, d.dest, [])],
        ssq := c.ssq ++ [(t, BitVec.ofNat 32 (leField bs 3 0), BitVec.ofNat 32 (leField bs 7 4))] }
      let s := s.modColl p c.id (fun _ => c)
      if tiles.all (fun x => c.words.any (fun w => w.1 == x)) then s.joinScalar p k done c (s.normValue c) else s

end Sys2Proof.Machine
end

