-- ==== Sys2Proof/Machine/Exchange.lean ====
section
/-!
DEFINITION. The expert exchange (R341 to R348), the XCH words, and the messages of the collectives (R326, R340).
-/

namespace Sys2Proof.Machine

/-! ### The exchange descriptor (R341) -/

structure ExD where
  opNo : Nat
  topk : Nat
  flags : Nat
  firstTile : Nat
  tileCount : Nat
  doneEv : Nat
  ept : Nat
  rowWords : Nat
  outWords : Nat
  tokens : Nat
  routes : Nat
  src : Nat
  dest : Nat
  bufBase : Nat
  bufLimit : Nat
  outBase : Nat
  outLimit : Nat
  table : Nat
  counts : Nat
  vis : Nat
  zeroOk : Bool
  deriving DecidableEq, Repr

def exD (d : BitVec 512) : ExD :=
  { opNo := dField d 1 0, topk := dField d 2 2, flags := dField d 3 3, firstTile := dField d 4 4, tileCount := dField d 5 5,
    doneEv := dField d 6 6, ept := dField d 9 8, rowWords := dField d 11 10, outWords := dField d 13 12, tokens := dField d 19 16,
    routes := dField d 23 20, src := dField d 27 24, dest := dField d 31 28, bufBase := dField d 35 32, bufLimit := dField d 39 36,
    outBase := dField d 43 40, outLimit := dField d 47 44, table := dField d 51 48, counts := dField d 55 52, vis := dField d 63 56,
    zeroOk := dZero d 7 7 && dZero d 15 14 && decide (dField d 3 3 < 4) }

/-- Tiles that hold experts, and the local experts of a rank (R342). -/
def ExD.tiles (d : ExD) : List Nat := (List.range d.tileCount).map (fun i => d.firstTile + i)
def ExD.experts (d : ExD) : Nat := d.ept * d.tileCount

/-- The descriptor keeps *Exchange descriptor*; an exclusive end may lie at the end of the scratchpad (log entry 40). -/
def State.exLegal (s : State) (p : Nat) (d : ExD) : Bool :=
  d.zeroOk && decide (1 ≤ d.topk) && decide (d.topk ≤ 16) && decide (1 ≤ d.tileCount) && decide (d.tileCount ≤ 96) &&
    d.tiles.all (fun t => s.mapped t && s.holds p (t / 8)) && decide (d.doneEv ≤ 63) && decide (1 ≤ d.ept) && decide (d.ept ≤ 4096) &&
    decide (1 ≤ d.rowWords) && decide (d.rowWords ≤ 1024) && decide (1 ≤ d.outWords) && decide (d.outWords ≤ 1024) &&
    decide (d.tokens ≤ 65536) && [d.routes, d.src, d.dest, d.bufBase, d.outBase, d.table, d.counts].all (fun x => decide (x < spWords)) &&
    decide (d.bufLimit ≤ spWords) && decide (d.outLimit ≤ spWords)

/-- A descriptor with SRC and DEST cleared, which a payload word shares with its COUNTS word (R341). -/
def exKey (d : BitVec 512) : Nat := putBits d.toNat 192 64 0

/-- The exchange whose allocation a payload word reuses. -/
def State.exchOf (s : State) (p t comm stepNo : Nat) (desc : BitVec 512) : Option Exch :=
  (s.part p).exchanges.find? (fun x => x.comm == comm && x.opNo == (exD desc).opNo && x.stepNo == stepNo && exKey x.desc == exKey desc &&
    x.home == (if (s.tile t).rollout then some (t / 8) else none))

/-! ### Rows (R344, R345) -/

/-- RECV[i][e] of an exchange. -/
def Exch.count (x : Exch) (i e : Nat) : Nat := x.recv.getD (i * (exD x.desc).experts + e) 0

/-- Rows of local expert e, over n sources. -/
def Exch.rows (x : Exch) (n e : Nat) : Nat := (List.range n).foldl (fun a i => a + x.count i e) 0

/-- First row of expert e on its tile, and the first row of source i's rows there (R344). -/
def Exch.firstRow (x : Exch) (n e : Nat) : Nat :=
  let d := exD x.desc
  (List.range (e % d.ept)).foldl (fun a j => a + x.rows n (e / d.ept * d.ept + j)) 0
def Exch.sourceRow (x : Exch) (n i e : Nat) : Nat :=
  x.firstRow n e + (List.range i).foldl (fun a k => a + x.count k e) 0

/-- This rank's route entries for local expert e of rank r, in source order (R344). -/
def Exch.choices (x : Exch) (r e : Nat) : List Nat :=
  let g := r * (exD x.desc).experts + e
  (List.range x.routes.length).filter (fun i => x.routes.getD i 0xFFFFFFFF == g)

/-- Words of a row of a payload operation: 17 DISPATCH, 18 COMBINE, 19 BDISPATCH, 20 BCOMBINE (R345). -/
def exRowWords (d : ExD) (op : Nat) : Nat := if op = 17 ∨ op = 20 then d.rowWords else d.outWords

/-- DISPATCH and BDISPATCH go from the tokens to the experts. -/
def exForward (op : Nat) : Bool := op == 17 || op == 19

/-- Addresses on the token side of the rows exchanged with rank r: expert by expert, in source order (R346; log entry 40). -/
def Exch.tokenSide (x : Exch) (d : ExD) (t op r : Nat) : List Nat :=
  (List.range d.experts).flatMap (fun e => (x.choices r e).map (fun i =>
    let at_ := if op = 17 then d.src + i / d.topk * d.rowWords
      else if op = 18 then d.dest + i * d.outWords
      else if op = 19 then d.src + i * d.outWords
      else d.dest + i * d.rowWords
    wordAddr t at_))

/-- Addresses on the expert side of the rows exchanged with rank r, with their tiles. -/
def Exch.expertSide (x : Exch) (d : ExD) (n op r : Nat) : List (Nat × Nat) :=
  (List.range d.experts).flatMap (fun e => (List.range (x.count r e)).map (fun i =>
    let row := x.sourceRow n r e + i
    let at_ := if op = 17 then d.bufBase + row * d.rowWords
      else if op = 18 then d.outBase + row * d.outWords
      else if op = 19 then d.dest + row * d.outWords
      else d.src + row * d.rowWords
    (d.firstTile + e / d.ept, wordAddr (d.firstTile + e / d.ept) at_)))

/-- Ranges that a payload operation reads for rank r, and those where rank r's rows land. -/
def Exch.reads (x : Exch) (d : ExD) (n t op r : Nat) : List (Nat × Nat) :=
  let w := 64 * exRowWords d op
  if exForward op then (x.tokenSide d t op r).map (fun a => (a, w)) else (x.expertSide d n op r).map (fun a => (a.2, w))
def Exch.lands (x : Exch) (d : ExD) (n t op r : Nat) : List (Nat × Nat) :=
  let w := 64 * exRowWords d op
  if exForward op then (x.expertSide d n op r).map (fun a => (a.2, w)) else (x.tokenSide d t op r).map (fun a => (a, w))

/-! ### COUNTS (R343, R347, R348) -/

/-- Rows that the experts of a tile need. -/
def Exch.need (x : Exch) (n t : Nat) : Nat :=
  let d := exD x.desc
  (List.range d.ept).foldl (fun a j => a + x.rows n ((t - d.firstTile) * d.ept + j)) 0

/-- A tile fits (R343). -/
def Exch.fits (x : Exch) (n t : Nat) : Bool :=
  let d := exD x.desc
  decide (x.need n t * d.rowWords ≤ d.bufLimit - d.bufBase) && decide (x.need n t * d.outWords ≤ d.outLimit - d.outBase)

/-- The allocation of a COUNTS word once every source's counts are here: `held` has them by source. -/
def Coll.exch (c : Coll) (n : Nat) (routes : List Nat) (home : Option Nat) : Exch :=
  { home := home, comm := c.comm, opNo := c.opNo, stepNo := c.stepNo, desc := c.desc, routes := routes,
    recv := (List.range n).flatMap (fun i =>
      let bs := ((c.held.find? (fun h => h.2.1 == i)).map (fun h => h.2.2)).getD []
      (List.range (exD c.desc).experts).map (fun e => leNat ((bs.drop (4 * e)).take 4))) }

/-- Routes of a COUNTS word, kept with it from its start. -/
def Coll.routes (c : Coll) : List Nat := c.map.map Prod.fst

/-- The bay whose rollout step a collective belongs to (R372). -/
def State.homeOf (s : State) (c : Coll) : Option Nat := if (s.tile c.tile).rollout then some c.bay else none

/-- A step fails through its exchange (R348). -/
def State.exchangeFails (s : State) (p : Nat) (c : Coll) : State :=
  let rolled := (s.tile c.tile).rollout
  let s := s.modPart p (fun x => { x with colls := x.colls.filter (fun d => d.id != c.id) })
  let s := s.failColl c
  let s := if rolled then s.failRollout c.bay else s.failLearn p Status.exchangeOverflow (detailOf Source.exchangeOverflow none)
  s.raise Source.exchangeOverflow Kind.bay c.bay 0

/-- The bytes of a tile's group table (R344). -/
def Exch.groupTable (x : Exch) (n t : Nat) : List Byte :=
  let d := exD x.desc
  (List.range d.ept).flatMap (fun j =>
    let e := (t - d.firstTile) * d.ept + j
    let row := x.firstRow n e
    leBytes 2 j ++ leBytes 2 0 ++ leBytes 4 (x.rows n e) ++ leBytes 4 ((d.bufBase + row * d.rowWords) * 64) ++
      leBytes 4 ((d.outBase + row * d.outWords) * 64))

/-- The visit counts of an exchange: (address, rows to add), by the experts of each bay in ascending order (R347). -/
def Exch.visits (x : Exch) (n : Nat) : List (Nat × Nat) :=
  let d := exD x.desc
  (List.range d.experts).map (fun e =>
    let b := (d.firstTile + e / d.ept) / 8
    let before := ((List.range e).filter (fun f => (d.firstTile + f / d.ept) / 8 == b)).length
    (hbmBase b + d.vis + 4 * before, x.rows n e))

/-- The fit check has its sum: the group tables and visit counts, or the overflow (R343, R347, R348). -/
def State.exchangeEnd (s : State) (p : Nat) (c : Coll) (result : List Nat) : State :=
  match (s.part p).cfg.comm c.comm with
  | none => s
  | some k =>
    let d := exD c.desc
    let x := c.exch k.count c.routes (s.homeOf c)
    if result.getD 0 0 ≠ 0 then
      let s := if d.tiles.all (fun t => x.fits k.count t) then s
        else (s.fset .exchNeed c.bay (d.tiles.foldl (fun m t => max m (x.need k.count t)) 0)).fset .exchCap c.bay
          (min ((d.bufLimit - d.bufBase) / d.rowWords) ((d.outLimit - d.outBase) / d.outWords))
      s.exchangeFails p c
    else
      let tables := d.tiles.map (fun t => (wordAddr t d.table, x.groupTable k.count t))
      let visits := if bitOf d.flags 0 then x.visits k.count else []
      match s.arriveFaults p c.tile (tables.map (fun e => (e.1, e.2.length))), s.spansFault p true (visits.map (fun v => (v.1, 4))) with
      | some e, _ => s.breakColl p c e
      | none, some f => s.breakColl p c (failAt (Kind.tile, c.tile) f)
      | none, none =>
        let s := tables.foldl (fun s e => s.partPut Req.link p e.1 e.2) s
        let s := visits.foldl (fun s v =>
          let r := i32add (leNat (s.partRead p v.1 4)) (min v.2 (2 ^ 31 - 1))
          (s.partPut Req.link p v.1 (leBytes 4 r.bits)).flagBank c.tile r.fl) s
        let s := s.modPart p (fun q => { q with exchanges := q.exchanges.filter (fun y => y.home != x.home || y.stepNo == x.stepNo) ++ [x] })
        s.closeColl p c

/-- What every scalar operation does with its result. -/
def State.scalarFinish (s : State) (p : Nat) (c : Coll) (result : List Nat) : State :=
  if c.op = 16 then s.exchangeEnd p c result else s.scalarEnd p c result

/-- Once every count is here, the fit check begins (R343). -/
def State.countsIn (s : State) (p : Nat) (k : Comm) (c : Coll) : State :=
  if c.expect.isEmpty then
    let x := c.exch k.count c.routes (s.homeOf c)
    let v := if (exD c.desc).tiles.all (fun t => x.fits k.count t) then 0 else 1
    s.joinScalar p k State.scalarFinish c [v]
  else s

/-- A count message arrives (R343, R350). -/
def State.takeCounts (s : State) (p : Nat) (m : Msg) (c : Coll) : State :=
  match (s.part p).cfg.comm c.comm with
  | none => s
  | some k =>
    let d := exD c.desc
    let e := (segKey m.rank 0, m.rank)
    if !c.expect.contains e then s
    else
      match checkedData m with
      | none => if c.mayAsk e.1 e.2 then s.askAgain p k c e.1 e.2 else s
      | some bs =>
        let n := d.experts
        let a := wordAddr c.tile d.counts + 4 * (k.count * n + m.rank * n)
        let s := s.partPut Req.link p a (bs.take (4 * n))
        let c := { c with expect := c.expect.filter (fun x => x != e), held := c.held ++ [(e.1, m.rank, bs)] }
        (s.modColl p c.id (fun _ => c)).countsIn p k c

def State.onCounts (s : State) (p : Nat) (m : Msg) : State := s.toColl p m (fun s c => s.takeCounts p m c)

/-- Start a COUNTS word (R342, R343). -/
def State.startCounts (s : State) (p t : Nat) (f : Flight) (k : Comm) (desc : BitVec 512) : State :=
  let d := exD desc
  let n := d.experts
  let routeBytes := 4 * d.tokens * d.topk
  if !s.exLegal p d then s.wordEff t f (.bad Reason.descriptor) id
  else
    match s.spFaults t [(64 * d.routes, routeBytes, false), (64 * d.counts, 8 * k.count * n, true)] with
    | some e => s.wordEff t f e id
    | none =>
      let bs := s.spRead t (64 * d.routes) routeBytes
      let routes := (List.range (d.tokens * d.topk)).map (fun i => leNat ((bs.drop (4 * i)).take 4))
      if routes.any (fun r => r != 0xFFFFFFFF && decide (k.count * n ≤ r)) then s.wordEff t f (.bad Reason.descriptor) id
      else
        let send (i : Nat) : List Byte :=
          (List.range n).flatMap (fun e => leBytes 4 ((routes.filter (fun r => r == i * n + e)).length))
        let all := (List.range k.count).map send
        let me := k.myRank
        let s := s.modFlight t f.id (fun f => { f with started := true })
        let s := s.spWrite t (64 * d.counts) (all.flatMap (fun x => x))
        let s := s.spWrite t (64 * d.counts + 4 * (k.count * n + me * n)) (send me)
        let c0 : Coll := { Coll.base with bay := t / 8, words := [(t, f.id)], comm := k.id, op := 16, opNo := d.opNo, fmt := 7,
                                          stepNo := s.xchStep t, desc := desc, map := routes.map (fun r => (r, 0)),
                                          held := [(segKey me 0, me, send me)],
                                          expect := ((List.range k.count).filter (fun r => r != me)).map (fun r => (segKey r 0, r)) }
        let ms := s.earlyFor p c0
        let (c, s) := s.openColl p c0
        let s := (List.range k.count).foldl (fun s r =>
          if r = me then s else s.toRankFrom p c.bay k r (s.collMsg p c Vc.exchange Ty.data 0 [me] (withCrc (send r)))) s
        let s := s.countsIn p k c
        ms.foldl (fun s m => if m.vc = Vc.exchange then s.onCounts p m else s.onScalar p State.scalarFinish m) s

/-! ### Payloads (R345, R346) -/

/-- DONE_EV of each tile on which every row of the word has landed (R346). `grants` holds the tiles that have been told. -/
def State.doneSignals (s : State) (x : Exch) (d : ExD) (n : Nat) (c : Coll) : State × Coll :=
  if !bitOf d.flags 1 then (s, c)
  else
    let tiles := if exForward c.op then d.tiles else [c.tile]
    tiles.foldl (fun (a : State × Coll) t =>
      let open_ := a.2.expect.any (fun e =>
        if exForward c.op then (x.expertSide d n c.op e.2).any (fun r => r.1 == t) else !(x.tokenSide d c.tile c.op e.2).isEmpty)
      if open_ || a.2.grants.contains (t, 0) then a
      else (a.1.signalTile t d.doneEv 1, { a.2 with grants := (t, 0) :: a.2.grants })) (s, c)

/-- Rows land whole, and the word completes with the last of them (R345). -/
def State.settleRows (s : State) (p : Nat) (x : Exch) (d : ExD) (n : Nat) (c : Coll) : State :=
  let (s, c) := s.doneSignals x d n c
  if c.expect.isEmpty then s.closeColl p c else s.modColl p c.id (fun _ => c)

/-- Place the rows of one source. -/
def State.landRows (s : State) (p : Nat) (c : Coll) (into : List (Nat × Nat)) (bs : List Byte) : Eff :=
  match s.arriveFaults p c.tile into with
  | some e => e
  | none =>
    .ok (((s.putRanges p (into.zip (cutBytes (into.map Prod.snd) bs))).landed s Req.link into).finc .exchRows c.bay into.length)

/-- A payload message arrives (R346, R350). -/
def State.takeRows (s : State) (p : Nat) (m : Msg) (c : Coll) : State :=
  match (s.part p).cfg.comm c.comm, s.exchOf p c.tile c.comm c.stepNo c.desc with
  | some k, some x =>
    let d := exD c.desc
    let e := (segKey m.rank 0, m.rank)
    if !c.expect.contains e then s
    else
      match checkedData m with
      | none => if c.mayAsk e.1 e.2 then s.askAgain p k c e.1 e.2 else s
      | some bs =>
        match s.landRows p c (x.lands d k.count c.tile c.op m.rank) bs with
        | .ok s => s.settleRows p x d k.count { c with expect := c.expect.filter (fun y => y != e) }
        | e => s.breakColl p c e
  | _, _ => s

def State.onRows (s : State) (p : Nat) (m : Msg) : State := s.toColl p m (fun s c => s.takeRows p m c)

/-- Start a payload word. -/
def State.startRows (s : State) (p t : Nat) (f : Flight) (k : Comm) (op : Nat) (desc : BitVec 512) : State :=
  let d := exD desc
  let n := k.count
  match s.exchOf p t k.id (s.xchStep t) desc with
  | none => s.wordEff t f (.bad Reason.descriptor) id
  | some x =>
    if !s.exLegal p d || 2 < wFmt f.word.toNat then s.wordEff t f (.bad Reason.descriptor) id
    else
      match s.dataFaults p ((List.range n).flatMap (fun r => x.reads d n t op r)) with
      | some y => s.wordEff t f (failAt (Kind.tile, t) y) id
      | none =>
        let me := k.myRank
        let s := s.modFlight t f.id (fun f => { f with started := true })
        let c0 : Coll := { Coll.base with bay := t / 8, words := [(t, f.id)], comm := k.id, op := op, opNo := d.opNo,
                                          fmt := wFmt f.word.toNat, stepNo := s.xchStep t, desc := desc,
                                          expect := ((List.range n).filter (fun r => r != me)).map (fun r => (segKey r 0, r)) }
        let ms := s.earlyFor p c0
        let (c, s) := s.openColl p c0
        let rows (r : Nat) : List Byte := (x.reads d n t op r).flatMap (fun y => s.partRead p y.1 y.2)
        let out := (List.range n).map (fun r => (r, rows r))
        let s := out.foldl (fun s y =>
          if y.1 = me then s else s.toRankFrom p c.bay k y.1 (s.collMsg p c Vc.exchange Ty.data 0 [me] (withCrc y.2))) s
        match s.landRows p c (x.lands d n t op me) (rows me) with
        | .ok s => ms.foldl (fun s m => s.onRows p m) (s.settleRows p x d n c)
        | e => s.breakColl p c e

/-! ### The engines of a bay (R170, R340) -/

def xComm (w : Nat) : Nat := bitsOf w 25 20
def xCollOp (w : Nat) : Nat := bitsOf w 29 26
def xDesc (w : Nat) : Nat := bitsOf w 51 32

/-- XCH words of a bay, with their tiles. -/
def State.xchWords (s : State) (b : Nat) : List (Nat × Flight) :=
  (List.range 8).flatMap (fun j => ((s.tile (8 * b + j)).flight.filter (fun f => f.cls == 6)).map (fun f => (8 * b + j, f)))

/-- The oldest word that waits. -/
def State.nextXch (s : State) (b : Nat) : Option (Nat × Flight) :=
  (orderedBy (fun x y => decide (x.2.ref ≤ y.2.ref)) ((s.xchWords b).filter (fun x => !x.2.started))).head?

/-- Start one XCH word: its descriptor is read now (R170, R325). -/
def State.startXch (s : State) (t : Nat) (f : Flight) : State :=
  let w := f.word.toNat
  let p := (s.partOfTile t).getD 0
  match s.spFault t (64 * xDesc w) 64 false with
  | some e => s.wordEff t f e id
  | none =>
    let desc := BitVec.ofNat 512 (s.spNat t (64 * xDesc w) 64)
    match (s.part p).cfg.comm (xComm w) with
    | none => s.wordEff t f (.bad Reason.descriptor) id
    | some k =>
      if f.op = 0 then s.startCounts p t f k desc
      else if f.op ≤ 4 then s.startRows p t f k (16 + f.op) desc
      else if xCollOp w = 0 then s.startRed p t f k desc
      else if xCollOp w ≤ 3 then s.startGather p t f k (xCollOp w) desc
      else if !(collD desc).fieldsOk (xCollOp w) false false then s.wordEff t f (.bad Reason.descriptor) id
      else if xCollOp w = 4 ∧ (collD desc).norm then s.startNorm p t f k desc State.scalarFinish
      else s.startScalar p t f k (xCollOp w) desc State.scalarFinish

/-- Ranges that a collective in progress may still write. -/
def State.collWrites (s : State) (p : Nat) (c : Coll) : List (Nat × Nat) :=
  match (s.part p).cfg.comm c.comm with
  | none => []
  | some k =>
    let d := collD c.desc
    let e := exD c.desc
    let n := k.count
    if c.op = 0 then
      let r := c.redInfo (s.part p).cfg k
      [(d.dest, fmtBytes d.dstFmt (r.per * runsLen (r.runs c k.myRank)))] ++
        (if d.ownerSsq then [(scratchBase c.tile + d.ssqAddr, 8)] else [])
    else if c.op ≤ 3 then
      let g := c.gatherInfo (s.part p).cfg k
      g.dstRanges c [(0, g.total c)]
    else if c.op = 4 then (if c.norm then c.toSend.map (fun x => (x.2.1, 8)) else [(d.dest, 8)])
    else if c.op = 5 then []
    else if c.op = 16 then
      e.tiles.map (fun t => (wordAddr t e.table, 16 * e.ept)) ++ [(wordAddr c.tile e.counts, 8 * n * e.experts)] ++
        (if bitOf e.flags 0 then e.tiles.map (fun t => (hbmBase (t / 8) + e.vis, 4 * e.experts)) else [])
    else
      match s.exchOf p c.tile c.comm c.stepNo c.desc with
      | none => []
      | some x => (List.range n).flatMap (fun r => x.lands e n c.tile c.op r)

/-- Ranges that a waiting XCH word reads, with its descriptor. -/
def State.xchReads (s : State) (p t : Nat) (f : Flight) : List (Nat × Nat) :=
  let w := f.word.toNat
  let desc := BitVec.ofNat 512 (s.spNat t (64 * xDesc w) 64)
  let d := collD desc
  let e := exD desc
  (wordAddr t (xDesc w), 64) ::
    (match (s.part p).cfg.comm (xComm w) with
      | none => []
      | some k =>
        if f.op = 0 then [(wordAddr t e.routes, 4 * e.tokens * e.topk)]
        else if f.op ≤ 4 then
          match s.exchOf p t k.id (s.xchStep t) desc with
          | none => []
          | some x => (List.range k.count).flatMap (fun r => x.reads e k.count t (16 + f.op) r)
        else if xCollOp w ≤ 3 then
          let n := if xCollOp w = 2 then k.count * d.count else d.count
          [(d.src, 64 * ceilDiv (n * fmtBits (wFmt w)) 512), (wordAddr t d.map, 8 * d.mapEntries), (d.srcScale, 2 * ceilDiv n 64)]
        else if xCollOp w = 4 then [(d.src, 8)]
        else [])

/-- A waiting word reads what an earlier word of its queue, still in progress, may write: its start waits, since the model reads at the start
(R161). -/
def State.xchHeld (s : State) (p t : Nat) (f : Flight) : Bool :=
  (s.part p).colls.any (fun c => c.words.any (fun w => w.1 == t) && rangesMeet (s.collWrites p c) (s.xchReads p t f))

/-- A bay's engines start waiting words in issue order while fewer than 8 are in progress (R340). -/
def State.runXch : Nat → State → Nat → State
  | 0, s, _ => s
  | n + 1, s, b =>
    if 8 ≤ ((s.xchWords b).filter (fun x => x.2.started)).length then s
    else
      match s.nextXch b with
      | none => s
      | some (t, f) =>
        if s.xchHeld ((s.partOfTile t).getD 0) t f then s
        else
        let s := s.startXch t f
        State.runXch n (if (s.tile t).flight.any (fun g => g.id == f.id && g.cls == 6 && !g.started) then s.failWords t (fun g => g.id == f.id)
          else s) b

/-- The engines of a partition's bays start what they can. -/
def State.xchEngine (s : State) (p : Nat) : State := (s.baysOf p).foldl (fun s b => State.runXch 64 s b) s

/-- Dispatch an XCH word into its queue. -/
def State.xchWord (s : State) (t w : Nat) (writes : Bool) : State :=
  let s1 := s.enqueue t w writes false false s.nextMove
  { s1 with nextMove := s.nextMove + 1 }.xchEngine ((s.partOfTile t).getD 0)

def xchUses (_ : Nat) : List (Nat × Nat) := [(25, 20), (51, 32)]
def collUses (_ : Nat) : List (Nat × Nat) := [(29, 20), (51, 32)]

/-- The formats that a collective takes (R282, R295, R326; log entry 38). -/
def collFmt (op fmt : Nat) : Bool :=
  if op = 0 then fmtFloat fmt else if op ≤ 3 then decide (fmt ≤ 8) else if op = 4 then fmt == 0 || fmt == 7 || fmt == 8 else fmt == 0

/-- One XCH.COLL row: a word of another COLL_OP is another row's, and a COLL_OP that no row has is an illegal encoding. -/
def State.collRow (s : State) (t op : Nat) : State :=
  s.tileRow t 6 8 (fun _ => true) collUses (fun s' w =>
    if xCollOp w ≤ 5 ∧ xCollOp w ≠ op then s
    else if 5 < xCollOp w then s'.illegal t Reason.fieldRange
    else if !collFmt op (wFmt w) then s'.illegal t Reason.badFormat
    else s'.xchWord t w (op != 5))

/-- XCH.COUNTS (R342, R343). -/
def execXchCounts (t : Nat) (s : State) : Host.Outcome State Fault Refusal :=
  .next (s.tileRow t 6 0 fmtNone xchUses (fun s w => s.xchWord t w true))

/-- XCH.DISPATCH (R345). -/
def execXchDispatch (t : Nat) (s : State) : Host.Outcome State Fault Refusal :=
  .next (s.tileRow t 6 1 (fun _ => true) xchUses (fun s w => s.xchWord t w true))

/-- XCH.COMBINE (R345). -/
def execXchCombine (t : Nat) (s : State) : Host.Outcome State Fault Refusal :=
  .next (s.tileRow t 6 2 (fun _ => true) xchUses (fun s w => s.xchWord t w true))

/-- XCH.BDISPATCH (R345). -/
def execXchBdispatch (t : Nat) (s : State) : Host.Outcome State Fault Refusal :=
  .next (s.tileRow t 6 3 (fun _ => true) xchUses (fun s w => s.xchWord t w true))

/-- XCH.BCOMBINE (R345). -/
def execXchBcombine (t : Nat) (s : State) : Host.Outcome State Fault Refusal :=
  .next (s.tileRow t 6 4 (fun _ => true) xchUses (fun s w => s.xchWord t w true))

/-- XCH.COLL REDUCE_SCATTER (R275). -/
def execXchCollReduceScatter (t : Nat) (s : State) : Host.Outcome State Fault Refusal := .next (s.collRow t 0)

/-- XCH.COLL ALL_GATHER (R326). -/
def execXchCollAllGather (t : Nat) (s : State) : Host.Outcome State Fault Refusal := .next (s.collRow t 1)

/-- XCH.COLL ALL_TO_ALL (R326). -/
def execXchCollAllToAll (t : Nat) (s : State) : Host.Outcome State Fault Refusal := .next (s.collRow t 2)

/-- XCH.COLL BROADCAST (R326). -/
def execXchCollBroadcast (t : Nat) (s : State) : Host.Outcome State Fault Refusal := .next (s.collRow t 3)

/-- XCH.COLL SCALAR_ALLREDUCE (R295, R326). -/
def execXchCollScalarAllreduce (t : Nat) (s : State) : Host.Outcome State Fault Refusal := .next (s.collRow t 4)

/-- XCH.COLL BARRIER (R326). -/
def execXchCollBarrier (t : Nat) (s : State) : Host.Outcome State Fault Refusal := .next (s.collRow t 5)

/-! ### Message rows -/

/-- GRANT (R277, R302). -/
def execGrant (p : Nat) (m : Msg) (s : State) : Host.Outcome State Fault Refusal :=
  .next (if m.op = 0 then s.collective p m Vc.scalar Ty.grant (fun s => (s.onGrant p m).xchEngine p) else s)

/-- SEG_ACK (R277, R302): an acknowledgement; one with NAK set is a resend request. -/
def execSegAck (p : Nat) (m : Msg) (s : State) : Host.Outcome State Fault Refusal :=
  .next (if m.op = 0 ∧ m.nak = false then s.collective p m Vc.scalar Ty.segAck (fun s => (s.onAck p m).xchEngine p) else s)

/-- REDUCTION_SEGMENT (R279, R292, R293). -/
def execReductionSegment (p : Nat) (m : Msg) (s : State) : Host.Outcome State Fault Refusal :=
  .next (if m.op = 0 then s.collective p m Vc.reduction Ty.data (fun s => (s.onSegment p m).xchEngine p) else s)

/-- ALL_GATHER_MESSAGE (R326, R338, R339, R350). -/
def execAllGatherMessage (p : Nat) (m : Msg) (s : State) : Host.Outcome State Fault Refusal := .next ((s.allGatherMsg p m).xchEngine p)

/-- ALL_TO_ALL_MESSAGE (R326). -/
def execAllToAllMessage (p : Nat) (m : Msg) (s : State) : Host.Outcome State Fault Refusal := .next ((s.allToAllMsg p m).xchEngine p)

/-- BARRIER_MESSAGE (R326). -/
def execBarrierMessage (p : Nat) (m : Msg) (s : State) : Host.Outcome State Fault Refusal :=
  .next (if m.op = 5 then s.collective p m Vc.scalar Ty.data (fun s => (s.onScalar p State.scalarFinish m).xchEngine p) else s)

/-- EXCHANGE_COUNT_MESSAGE (R343, R350). -/
def execExchangeCountMessage (p : Nat) (m : Msg) (s : State) : Host.Outcome State Fault Refusal :=
  .next (if m.op = 16 then s.collective p m Vc.exchange Ty.data (fun s => (s.onCounts p m).xchEngine p) else s)

/-- EXCHANGE_ROWS_MESSAGE (R346, R350). -/
def execExchangeRowsMessage (p : Nat) (m : Msg) (s : State) : Host.Outcome State Fault Refusal :=
  .next (if 17 ≤ m.op ∧ m.op ≤ 20 then s.collective p m Vc.exchange Ty.data (fun s => (s.onRows p m).xchEngine p) else s)

end Sys2Proof.Machine
end

