-- ==== Sys2Proof/Machine/Kettle.lean ====
section
/-!
DEFINITION. The kettle (R240 to R265): its programs, the stages of a run, the instructions over a group, blocks with their undo
entries, and the final blocks.
-/

namespace Sys2Proof.Machine

/-! ### Kettle programs (R243) -/

structure KProg where
  sweep : Bool
  count : Nat
  startEv : Nat
  doneTile : Nat
  doneEv : Nat
  startCount : Nat
  elems : Nat
  span : Nat
  param : Nat
  fprint : Nat
  segs : Nat
  deriving DecidableEq, Repr

def kprog (bs : List Byte) : KProg :=
  { sweep := leField bs 0 0 == 1, count := leField bs 1 1, startEv := leField bs 2 2, doneTile := leField bs 3 3,
    doneEv := leField bs 4 4, startCount := leField bs 7 6, elems := leField bs 15 8, span := leField bs 19 16,
    param := leField bs 31 24, fprint := leField bs 39 32, segs := leField bs 41 40 }

structure KBind where
  base : Nat
  fmt : Nat
  used : Bool
  tensor : Nat
  plane : Nat
  record : Nat
  elem0 : Nat
  deriving DecidableEq, Repr

def kbind (bs : List Byte) (n : Nat) : KBind :=
  let b := (bs.drop (64 + 48 * n)).take 48
  { base := leField b 7 0, fmt := leField b 8 8, used := bitOf (leField b 9 9) 0, tensor := leField b 11 10,
    plane := leField b 23 16, record := leField b 31 24, elem0 := leField b 39 32 }

abbrev Stream.m : Nat := 1
abbrev Stream.v : Nat := 2
abbrev Stream.res : Nat := 4
abbrev Stream.roll : Nat := 6
abbrev Stream.vis : Nat := 12
abbrev Stream.stepcnt : Nat := 13

/-- Instruction i of a program. -/
def kinstr (bs : List Byte) (i : Nat) : Nat := leField bs (736 + 8 * i + 7) (736 + 8 * i)

def kiOp (w : Nat) : Nat := bitsOf w 4 0
def kiD (w : Nat) : Nat := bitsOf w 9 5
def kiA (w : Nat) : Nat := bitsOf w 15 10
def kiB (w : Nat) : Nat := bitsOf w 21 16
def kiC (w : Nat) : Nat := bitsOf w 27 22
def kiS (w : Nat) : Nat := bitsOf w 31 28
def kiImm (w : Nat) : Nat := bitsOf w 63 32

/-- Layer entry i: LAYER and FIRST. -/
def klayer (bs : List Byte) (n i : Nat) : Nat × Nat :=
  let at_ := 736 + 8 * n + 16 * i
  (leField bs (at_ + 3) at_, leField bs (at_ + 15) (at_ + 8))

def kinstrs (bs : List Byte) : List Nat := (List.range (kprog bs).count).map (kinstr bs)

/-- The program loads or stores a stream. -/
def kloads (bs : List Byte) (n : Nat) : Bool := (kinstrs bs).any (fun w => kiOp w == 1 && kiS w == n)
def kstores (bs : List Byte) (n : Nat) : Bool := (kinstrs bs).any (fun w => kiOp w == 2 && kiS w == n)

/-- Streams stored in place: W, M, V and any AUX stream that is stored (R262). -/
def kinPlace (bs : List Byte) : List Nat := [0, 1, 2, 8, 9, 10, 11].filter (kstores bs)

/-- Stored streams that keep a scale record: those whose format is not FP32 (*Stream binding*). -/
def kinRecord (bs : List Byte) : List Nat := (List.range 12).filter (fun n => kstores bs n && (kbind bs n).fmt != 0)

/-- Groups of 2,048 elements. -/
def KProg.groups (k : KProg) : Nat := ceilDiv k.elems 2048

/-- Groups of one block (R262). -/
def kgroups (bs : List Byte) : Nat :=
  let p := (kinPlace bs).foldl (fun n i => n + fmtBits (kbind bs i).fmt / 8) 0
  if p = 0 then 64 else min 64 (131072 / (2048 * p))

/-- Element blocks of a run. -/
def kblocks (bs : List Byte) : Nat := ceilDiv (kprog bs).groups (max 1 (kgroups bs))

/-- Experts, one for a dense shard (R251, R256). -/
def KProg.experts (k : KProg) : Nat := if k.span = 0 then 1 else k.elems / k.span

/-- Final blocks (R265): the last of them for the slot state and the record headers. A SWEEP leaves out stage 6 (R247). -/
def KProg.finals (k : KProg) : Nat := if k.sweep then 0 else if k.experts ≤ 32640 then 1 else ceilDiv k.experts 32768 + 1

/-- First 8 bytes of a program's digest, as JDIGEST shows them (R264, R274). -/
def kdigest (bs : List Byte) : Nat := leNat ((sha256 bs).take 8)

/-! ### Slots -/

/-- The program of kettle slot n that the partition of stack st applies. -/
def State.kslot (s : State) (st n : Nat) : Option KSlot :=
  (s.partOfBay st).bind (fun p => (s.part p).cfg.kslots.find? (fun k => k.slot == n))

/-- Slots of a kind, ascending. -/
def Cfg.kettleSlots (c : Cfg) (sweep : Bool) : List Nat :=
  orderedBy (fun a b => decide (a ≤ b)) ((c.kslots.filter (fun k => k.prog != [] && (kprog k.prog).sweep == sweep)).map KSlot.slot)

/-- Position of stack st among the bays of its partition (R259). -/
def State.kettleRank (s : State) (st : Nat) : Nat :=
  match s.partOfBay st with
  | some p => ((s.baysOf p).filter (fun b => decide (b < st))).length
  | none => 0

/-! ### Slot state and counters (R251) -/

/-- Read n bytes of the STEPCNT stream from offset o; a slot without one keeps its own. -/
def State.stepRead (s : State) (st : Nat) (k : KSlot) (o n : Nat) : List Byte :=
  let b := kbind k.prog Stream.stepcnt
  if b.used then s.devRead (hbmBase st + b.base + o) n else Mem.read (s.kettle st).own (2 ^ 40 * k.slot + o) n

def State.stepWrite (s : State) (st : Nat) (k : KSlot) (o : Nat) (bs : List Byte) : State :=
  let b := kbind k.prog Stream.stepcnt
  if b.used then s.devWrite (hbmBase st + b.base + o) bs
  else s.modKettle st (fun x => { x with own := Mem.write x.own (2 ^ 40 * k.slot + o) bs })

/-- E, CLEAN and LAST_STEP of a slot; E and CLEAN as R251 takes them while LAST_STEP is 0. -/
def State.slotState (s : State) (st : Nat) (k : KSlot) : Nat × Nat × Nat :=
  let bs := s.stepRead st k 0 16
  let last := leField bs 15 8
  if last = 0 then (k.initExp, 0, 0) else (leField bs 0 0, leField bs 7 4, last)

/-- Write a slot state. -/
def State.putSlot (s : State) (st : Nat) (k : KSlot) (e clean last : Nat) : State :=
  s.stepWrite st k 0 (leBytes 1 e ++ leBytes 3 0 ++ leBytes 4 clean ++ leBytes 8 last)

/-- Show the slot state in KETTLE_SLOT. -/
def State.showSlot (s : State) (st : Nat) (k : KSlot) (skipped : Bool) : State :=
  let (e, clean, _) := s.slotState st k
  let i := 32 * st + k.slot
  ((s.fset .ketSlotE i e).fset .ketSlotClean i clean).fset .ketSlotSkipped i (bitNat skipped)

/-- The step counter of expert x as stored. -/
def State.stepCounter (s : State) (st : Nat) (k : KSlot) (x : Nat) : Nat := leNat (s.stepRead st k (16 + 4 * x) 4)

/-! ### Experts (R256 to R258) -/

/-- The expert of an element. -/
def KProg.expert (k : KProg) (e : Nat) : Nat := if k.span = 0 then 0 else e / k.span

/-- An expert is visited in the step. Every expert is, in a dense shard, in a program that binds no VIS, and in a sweep. -/
def State.visited (s : State) (st : Nat) (k : KSlot) (x : Nat) : Bool :=
  let g := kprog k.prog
  let b := kbind k.prog Stream.vis
  g.sweep || g.span == 0 || !b.used || decide (0 < toSigned 32 (Mem.readNat s.dev (hbmBase st + b.base + 4 * x) 4))

/-- ZERO_VISIT: 0 SKIP, 1 DECAY, 2 FULL. -/
def State.runsExpert (s : State) (st : Nat) (k : KSlot) (x : Nat) : Bool := s.visited st k x || k.zeroVisit != 0

/-- The group runs with its stores to the moments suppressed and VIS reading +0. -/
def State.decays (s : State) (st : Nat) (k : KSlot) (x : Nat) : Bool := !s.visited st k x && k.zeroVisit == 1

/-- The expert's counter advances in the run. -/
def State.advances (s : State) (st : Nat) (k : KSlot) (x : Nat) : Bool :=
  !(kprog k.prog).sweep && (s.visited st k x || k.zeroVisit == 2)

/-- β to the power t in binary64, by repeated squaring in ascending bit order. -/
def powLoop : Nat → Nat → Nat → Nat → Nat
  | 0, acc, _, _ => acc
  | n + 1, acc, base, t =>
    if t = 0 then acc else powLoop n (if t % 2 = 1 then f64mul acc base else acc) (f64mul base base) (t / 2)

/-- BC1 or BC2 for a β (R258). -/
def biasCorrection (beta t : Nat) : Nat :=
  if t = 0 then 0
  else
    let p := powLoop 64 f64one (f64of32 beta) t
    (FFmt.fp32.ofVal (d64 (f64div f64one (f64sub f64one p)))).bits

/-! ### Failing and ending a run (R249, R252, R266) -/

/-- A kettle run fails on a source: it stops as R266 says, and its learn step fails. -/
def State.kettleFails (s : State) (st status source kind inst info : Nat) (bad : Bool) : State :=
  let why := (s.kettle st).why
  let s := s.stopKettle st
  let s := if bad then s.fset .ketJbad st 1 else s
  let note (p : Nat) (c : Cmd) : Cmd := if c.part = p ∧ c.op = 0x78 ∧ c.started then { c with stage := source } else c
  let s := match s.partOfBay st with
    | some p => if why = 1 then s.failLearn p status (detailOf source none)
      else if why = 3 then { s with cmds := s.cmds.map (note p) } else s
    | none => s
  s.raise source kind inst info

/-- Data that a run reads in HBM fails: HBM_UNCORRECTABLE, and JBAD (R266). -/
def State.kettleHbm (s : State) (st a : Nat) : State :=
  s.kettleFails st Status.kettleInterrupted Source.hbmUncorrectable Kind.stack st a true

/-- The run of the slot in front of `todo` is over: the next slot waits, or the kettle is idle (R246, R247). -/
def State.nextSlot (s : State) (st : Nat) : State :=
  let rest := (s.kettle st).todo.drop 1
  let s := (s.fset .ketState st 0).finc .ketRuns st 1
  s.modKettle st (fun k => { k with
    todo := rest, why := if rest = [] then 0 else k.why, undo := [], group := 0, pc := 0, caps := [], sats := [], kregs := [] })

/-- Stage 7: the done signal, which a resumed run does not send (R247, R268). -/
def State.closeRun (s : State) (st : Nat) (g : KProg) : State :=
  let t := 8 * st + g.doneTile
  let s := if g.doneTile < 8 ∧ (s.kettle st).why ≠ 3 ∧ s.mapped t then s.signalTile t g.doneEv 1 else s
  s.nextSlot st

/-! ### Groups and blocks (R246, R263) -/

/-- Elements of group g of a run: first, and count. -/
def KProg.groupElems (k : KProg) (g : Nat) : Nat × Nat := (2048 * g, min 2048 (k.elems - 2048 * g))

/-- The next group from g on that runs; the run's group count where none does. -/
def State.nextGroup (s : State) (st : Nat) (k : KSlot) : Nat → Nat → Nat
  | 0, g => g
  | n + 1, g =>
    let r := kprog k.prog
    if r.groups ≤ g then r.groups
    else if s.runsExpert st k (r.expert (2048 * g)) then g
    else State.nextGroup s st k n (g + 1)

/-- Stand before group g with every K register at +0 (R246). -/
def State.toGroup (s : State) (st : Nat) (k : KSlot) (g : Nat) : State :=
  let r := kprog k.prog
  let g' := s.nextGroup st k (r.groups - g) g
  s.modKettle st (fun x => { x with group := g', pc := 0, kregs := [] })

/-- Byte ranges of the stack that an undo entry of block n keeps: the in-place streams of the groups that run, and the record
entries of scaled stores. -/
def State.undoRanges (s : State) (st : Nat) (k : KSlot) (n : Nat) : List (Nat × Nat) :=
  let r := kprog k.prog
  let size := kgroups k.prog
  let gs := ((List.range size).map (fun i => n * size + i)).filter (fun g =>
    decide (g < r.groups) && s.runsExpert st k (r.expert (2048 * g)))
  gs.flatMap (fun g =>
    let (e, c) := r.groupElems g
    (kinPlace k.prog).map (fun i =>
      let b := kbind k.prog i
      (b.base + e * (fmtBits b.fmt / 8), c * (fmtBits b.fmt / 8))) ++
    ((kinRecord k.prog).filter (fun i => fmtScaled (kbind k.prog i).fmt)).map (fun i =>
      ((kbind k.prog i).record + 32 + 4 * (e / 64), 4 * ceilDiv c 64)))

/-- Step 1 of R263: copy the old values of block n into a free undo entry; none where a read fails. -/
def State.openBlock (s : State) (st : Nat) (k : KSlot) (n : Nat) : Option State :=
  let rs := s.undoRanges st k n
  if rs.any (fun r => s.badRange (hbmBase st + r.1) r.2) then none
  else
    let u : Undo :=
      { slot := k.slot, step := (s.kettle st).stepNo, block := n, old := rs.map (fun r => (r.1, s.devRead (hbmBase st + r.1) r.2)),
        ownOld := [], bad := false }
    some (s.modKettle st (fun x => { x with undo := x.undo ++ [u], block := n }))

/-! ### Stages 1 to 4 (R247, R251 to R255, R264) -/

/-- Parameter word at byte o of the block read at stage 4. -/
def Kettle.param (x : Kettle) (o : Nat) : Nat := Mem.readNat x.params o 4

/-- s = fl(h + l) and the norm N of an exponent (R253). -/
def normSum (h l : Nat) : Nat := (f32add h l).bits
def normOf (h l e : Nat) : Nat := (f32mul (FFmt.fp32.sqrt (f32 (normSum h l))).bits ((127 - e) * 2 ^ 23)).bits

/-- GSCALE of a norm, a clip and an exponent (R254). -/
def gscaleOf (norm clip e : Nat) : Nat :=
  let c := if Val.lt (f32 0) (f32 clip) && Val.lt (f32 clip) (f32 norm) then (FFmt.fp32.div (f32 clip) (f32 norm)).bits else f32one
  (f32mul c ((127 - e) * 2 ^ 23)).bits

/-- VIS, and STEPCNT where it is bound, can be read as stage 5 reads them (R256 to R258). -/
def State.kinputs (s : State) (st : Nat) (k : KSlot) : Option Nat :=
  let r := kprog k.prog
  let b := kbind k.prog Stream.stepcnt
  let v := kbind k.prog Stream.vis
  if r.sweep then none
  else if v.used && s.badRange (hbmBase st + v.base) (4 * r.experts) then some (s.failingAt (hbmBase st + v.base) (4 * r.experts))
  else if b.used && s.badRange (hbmBase st + b.base + 16) (4 * r.experts) then
    some (s.failingAt (hbmBase st + b.base + 16) (4 * r.experts))
  else none

/-- Stage 4: open the journal and stand before the first block. A SWEEP, which has no norm, takes a free value for GSCALE. -/
def State.openJournal (s : State) (st : Nat) (k : KSlot) (e : Nat) : State :=
  let r := kprog k.prog
  if s.badRange (hbmBase st + r.param) 48 then s.kettleHbm st (hbmBase st + r.param)
  else
    let bs := s.devRead (hbmBase st + r.param) 48
    let clip := leField bs 11 8
    let g := if r.sweep then Config.freeAt 45 [st, k.slot] % 2 ^ 32 else gscaleOf (normOf (s.fget .ketNormH st) (s.fget .ketNormL st) e) clip e
    let s := (((s.fset .ketJstate st 1).fset .ketJslot st k.slot).fset .ketKind st (bitNat r.sweep)).fset .ketJstep st (s.kettle st).stepNo
    let s := (((s.fset .ketGscale st g).fset .ketJdigest st (kdigest k.prog)).fset .ketCommitted st 0).fset .ketJbad st 0
    let s := (s.fset .ketBlockCount st (kblocks k.prog + r.finals)).fset .ketState st 3
    let s := s.modKettle st (fun x => { x with
      params := Mem.write [] 0 bs, undo := [], caps := [], sats := [], crcData := 0, crcScale := 0, prints := [] })
    match s.kinputs st k with
    | some a => s.kettleHbm st a
    | none => s.toGroup st k 0

/-- Stages 3 and 4; a SWEEP leaves out stage 3. -/
def State.startSlot (s : State) (st : Nat) (k : KSlot) : State :=
  let r := kprog k.prog
  let b := kbind k.prog Stream.stepcnt
  if r.sweep then s.openJournal st k 0
  else if b.used && s.badRange (hbmBase st + b.base) 16 then s.kettleHbm st (s.failingAt (hbmBase st + b.base) 16)
  else
    let (e, _, last) := s.slotState st k
    let step := (s.kettle st).stepNo
    if step ≤ last then s.kettleFails st Status.tileFault Source.kettleStepStale Kind.stack st step false
    else if s.fget .ketOverflow st = 1 ∨ f32isFinite (normSum (s.fget .ketNormH st) (s.fget .ketNormL st)) = false then
      ((s.putSlot st k (e - 1) 0 step).showSlot st k true).closeRun st r
    else s.openJournal st k e

/-- Stage 2, for the first UPDATE slot of a step. -/
def State.waitNorm (s : State) (st : Nat) (k : KSlot) : State :=
  if (kprog k.prog).sweep || (s.kettle st).normTaken then s.startSlot st k
  else if s.fget .ketKE (16 * st + 15) = 0 then s.fset .ketState st 2
  else
    ((s.fset .ketKE (16 * st + 15) (s.fget .ketKE (16 * st + 15) - 1)).modKettle st (fun x => { x with normTaken := true })).startSlot st k

/-- An UPDATE slot of the partition of stack st is open in a journal, and no SWEEP runs (R247). -/
def State.updateOpen (s : State) (st : Nat) : Bool :=
  (s.partOfBay st).elim false (fun p => (s.baysOf p).any (fun b => s.fget .ketJstate b != 0 && s.fget .ketKind b == 0))

/-- Stage 1 on, for the slot in front of `todo`. -/
def State.startRun (s : State) (st : Nat) (k : KSlot) : State :=
  let r := kprog k.prog
  if r.sweep && s.updateOpen st then s
  else
  let s := s.fset .ketSlot st k.slot
  if s.fget .ketState st = 2 then s.waitNorm st k
  else
    let have_ := s.fget .ketKE (16 * st + r.startEv)
    if have_ < r.startCount then s.fset .ketState st 1
    else (s.fset .ketKE (16 * st + r.startEv) (have_ - r.startCount)).waitNorm st k

/-! ### Instructions (R243, R245, R259) -/

/-- An operand of an instruction for lane l. -/
def State.koperand (s : State) (st : Nat) (k : KSlot) (w code l : Nat) : Nat :=
  let x := s.kettle st
  if code < 32 then (Tab.get 0#32 x.kregs (2048 * code + l)).toNat
  else if code < 40 then x.param (16 + 4 * (code - 32))
  else if code = 40 then s.fget .ketGscale st
  else if code = 41 ∨ code = 42 then
    let e := (kprog k.prog).expert (2048 * x.group)
    let t := (s.stepCounter st k e + bitNat (s.advances st k e)) % 2 ^ 32
    biasCorrection (x.param (if code = 41 then 0 else 4)) t
  else if code = 43 then if s.decays st k ((kprog k.prog).expert (2048 * x.group)) then 0 else f32one
  else if code = 44 then kiImm w
  else if code = 45 then 0
  else f32one

/-- Device address of element e of stream n: HBM, or the RESIDUE pool of a tile (R241). -/
def kaddr (st : Nat) (b : KBind) (n e : Nat) : Nat :=
  if n = Stream.res then scratchBase (8 * st + bitsOf b.base 34 32) + bitsOf b.base 25 0 + 4 * e
  else hbmBase st + b.base + e * (fmtBits b.fmt / 8)

/-- Write the results of an instruction into register d, lane by lane, and raise its flags. -/
def State.kwrite (s : State) (st d : Nat) (rs : List Rnd) : State :=
  let put (m : Tab Word) (r : Rnd × Nat) : Tab Word := Tab.set 0#32 m (2048 * d + r.2) (BitVec.ofNat 32 r.1.bits)
  (s.modKettle st (fun x => { x with kregs := rs.zipIdx.foldl put x.kregs })).flagKettle st (rs.foldl (fun f r => f ||| r.fl) 0)

/-- LD over the lanes of a group. -/
def State.kload (s : State) (st : Nat) (k : KSlot) (w e c : Nat) : State :=
  let n := kiS w
  let b := kbind k.prog n
  let a := kaddr st b n e
  if s.badRange a (c * (fmtBits b.fmt / 8)) then
    if n = Stream.res then
      s.kettleFails st Status.kettleInterrupted Source.scratchUncorrectable Kind.tile (8 * st + bitsOf b.base 34 32)
        (s.failingAt a (c * (fmtBits b.fmt / 8))) false
    else s.kettleHbm st (s.failingAt a (c * (fmtBits b.fmt / 8)))
  else
    (s.kwrite st (kiD w) ((List.range c).map (fun l =>
      let (v, f1) := decodeElem b.fmt (s.elem b.fmt a l) 0
      let r := FFmt.fp32.ofVal v
      ⟨r.bits, f1 ||| r.fl⟩))).mend (s.weakIn a (c * (fmtBits b.fmt / 8)))

/-- Write the maxima of a store's blocks: each entry holds the maximum of the run so far over its block (R99). -/
def State.kcapture (s : State) (st n record : Nat) (maxima : Tab Nat) : State :=
  maxima.foldl (fun s m =>
    let key := 2 ^ 40 * n + m.1
    let v := max m.2 (Tab.get 0#32 (s.kettle st).caps key).toNat
    (s.modKettle st (fun x => { x with caps := Tab.set 0#32 x.caps key (BitVec.ofNat 32 v) })).devWrite
      (hbmBase st + record + 32 + 4 * m.1) (leBytes 4 v)) s

/-- The tensor of a stream, as the partition's image has it. -/
def State.ktensor (s : State) (st : Nat) (b : KBind) : Tensor :=
  match s.partOfBay st with
  | some p => (s.part p).cfg.tensor b.tensor
  | none => Cfg.empty.tensor b.tensor

/-- ST over the lanes of a group: conversion, capture and the write of data and scales (R259). Blocks of a record and of a scale
plane count from the stream's first element. -/
def State.kstore (s : State) (st : Nat) (k : KSlot) (w e c : Nat) : State :=
  let n := kiS w
  let b := kbind k.prog n
  let r := kprog k.prog
  let x := s.kettle st
  if s.decays st k (r.expert e) && (n == 1 || n == 2 || decide (8 ≤ n)) then s
  else
    let a := if fmtBits b.fmt = 4 then hbmBase st + b.base + e / 2 else kaddr st b n e
    let tn := s.ktensor st b
    let vals := (List.range c).map (fun l => f32 (s.koperand st k w (kiA w) l))
    let maxima := blockMaxima (vals.zipIdx.map (fun v => (e + v.2, (e + v.2) / recBlock b.fmt, v.1)))
    let rec_ := hbmBase st + b.record
    let imm := tn.scaling == 1 || !s.recValid rec_
    let scale (i : Nat) : Nat :=
      if fmtScaled b.fmt then
        scaleFor b.fmt (if imm then ((maxima.find? (fun m => m.1 == i / 64)).map Prod.snd).getD 0 else s.recEntry rec_ (i / 64))
      else 0
    let first := b.elem0 + s.kettleRank st * r.elems
    let seed := if r.sweep then 0 else x.seed
    let step := if r.sweep then 0 else x.stepNo % 2 ^ 32
    let cs := vals.zipIdx.map (fun v =>
      let i := e + v.2
      convElem b.fmt v.1 (scale i)
        (if tn.rounding = 1 && (b.fmt == 1 || b.fmt == 2) then some (roundWord seed b.tensor step (first + i)) else none))
    let data := packElems b.fmt 0 (cs.map Conv.code)
    let plane := (List.range (ceilDiv c 64)).flatMap (fun j => leBytes 2 (scale (e + 64 * j)))
    let pa := hbmBase st + b.plane + 2 * (e / 64)
    if s.badEdge a data.length || fmtScaled b.fmt && s.badEdge pa plane.length then s.kettleHbm st a
    else
      let s := s.devWrite a data
      let s := if fmtScaled b.fmt then s.devWrite pa plane else s
      let s := if b.fmt = 0 then s else s.kcapture st n b.record maxima
      let key := 16 * (x.block + 1) + n
      let sats := (cs.filter Conv.sat).length
      (s.modKettle st (fun x => { x with sats := Tab.set 0 x.sats key (Tab.get 0 x.sats key + sats) })).flagKettle st
        (cs.foldl (fun f v => f ||| v.fl) 0)

/-- The result of an arithmetic instruction on one lane. -/
def karith (op func a b c : Nat) (visited : Bool) : Rnd :=
  match op with
  | 3 => f32add a b
  | 4 => f32mul a b
  | 5 => f32fma a b c
  | 6 => FFmt.fp32.minMax false (f32 a) (f32 b)
  | 7 => FFmt.fp32.minMax true (f32 a) (f32 b)
  | 8 => ⟨if Val.pred func (f32 a) (f32 b) then f32one else 0, sigFlag [f32 a, f32 b]⟩
  | 9 =>
    let r := FFmt.fp32.ofVal (f32 (if Val.pred 1 (f32 a) (f32 0) then b else c))
    ⟨r.bits, sigFlag [f32 a] ||| r.fl⟩
  | 10 => FFmt.fp32.ofVal (f32 (if visited then a else b))
  | 11 => estimate func (f32 a)
  | 12 => FFmt.fp32.div (f32 a) (f32 b)
  | _ => FFmt.fp32.sqrt (f32 a)

/-- The kettle's next instruction, with its group: the run is in its element blocks, a group is left, and its block may be in
flight beside the one before it (R263). -/
def State.kettleNext (s : State) (st : Nat) : Option (KSlot × Nat) :=
  let x := s.kettle st
  if s.fget .ketState st ≠ 3 then none
  else
    match s.kslot st (s.fget .ketJslot st) with
    | none => none
    | some k =>
      if (kprog k.prog).groups ≤ x.group ∨ s.fget .ketCommitted st + 1 < x.group / max 1 (kgroups k.prog) then none
      else some (k, kinstr k.prog x.pc)

/-- A lane's result fails its residue code: the mismatch is counted for the lane, and the run stops (R266, R273). -/
def State.kresidue (s : State) (st lane : Nat) : State :=
  (s.modKettle st (fun x => { x with badLane := none, laneErrs := Tab.set 0 x.laneErrs lane (Tab.get 0 x.laneErrs lane + 1) })).kettleFails st
    Status.kettleInterrupted Source.kettleResidue Kind.stack st lane false

/-- Run one instruction on every lane of the group, and go on to the next instruction or the next group. -/
def State.kettleOp (s : State) (st op : Nat) : State :=
  match s.kettleNext st with
  | none => s
  | some (k, w) =>
    if kiOp w ≠ op then s
    else
      let x := s.kettle st
      let r := kprog k.prog
      let n := x.group / max 1 (kgroups k.prog)
      let opened := if x.undo.any (fun u => u.block == n) then some s else s.openBlock st k n
      match opened with
      | none => s.kettleHbm st (hbmBase st)
      | some s =>
        let (e, c) := r.groupElems x.group
        let s' :=
          if 3 ≤ op ∧ x.badLane.isSome then s.kresidue st (x.badLane.getD 0)
          else if op = 0 then s
          else if op = 1 then s.kload st k w e c
          else if op = 2 then s.kstore st k w e c
          else
            let visited := !s.decays st k (r.expert e)
            s.kwrite st (kiD w) ((List.range c).map (fun l =>
              karith op (kiS w) (s.koperand st k w (kiA w) l) (s.koperand st k w (kiB w) l) (s.koperand st k w (kiC w) l) visited))
        if s'.fget .ketState st ≠ 3 then s'
        else if x.pc + 1 < r.count then s'.modKettle st (fun x => { x with pc := x.pc + 1 })
        else s'.toGroup st k (x.group + 1)

/-! ### Commits and final blocks (R260, R263, R265) -/

/-- First element of layer segment i, and the element where it ends. -/
def ksegment (bs : List Byte) (i : Nat) : Nat × Nat :=
  let r := kprog bs
  ((klayer bs r.count i).2, if i + 1 < r.segs then (klayer bs r.count (i + 1)).2 else r.elems)

/-- CRC-64 of data bytes followed by n scale bytes, from the CRC of each part: with the initial value 0 the CRC is linear. -/
def joinCrc (data scales n : Nat) : Nat := Nat.xor (crc64From data (List.replicate n 0)) scales

/-- The part of layer segment i that elements lo to hi - 1 of ROLL store goes into the partial CRCs; where the segment ends there, its CRC is
finished (R260, R264). -/
def State.kprintPart (s : State) (st : Nat) (bs : List Byte) (lo hi i : Nat) : State :=
  let b := kbind bs Stream.roll
  let (first, stop) := ksegment bs i
  let a := max lo first
  let z := min hi stop
  if z ≤ a then s
  else
    let d0 := a * fmtBits b.fmt / 8
    let data := s.devRead (hbmBase st + b.base + d0) ((z * fmtBits b.fmt + 7) / 8 - d0)
    let scales := s.devRead (hbmBase st + b.plane + 2 * (a / 64)) (2 * (ceilDiv z 64 - a / 64))
    s.modKettle st (fun x =>
      let d := crc64From x.crcData data
      let c := crc64From x.crcScale scales
      if z = stop then
        { x with prints := x.prints ++ [joinCrc d c (2 * (ceilDiv stop 64 - first / 64))], crcData := 0, crcScale := 0 }
      else { x with crcData := d, crcScale := c })

/-- Element block n of a run that stores ROLL is committed: its bytes go into the CRCs. -/
def State.kprints (s : State) (st : Nat) (bs : List Byte) (n : Nat) : State :=
  let r := kprog bs
  let size := 2048 * kgroups bs
  if kstores bs Stream.roll then
    (List.range r.segs).foldl (fun s i => s.kprintPart st bs (n * size) (min r.elems ((n + 1) * size)) i) s
  else s

/-- Write the fingerprint records of a run that stores ROLL: CRC-64 over each layer segment's data, then its scales (R260). -/
def State.kfprint (s : State) (st : Nat) (bs : List Byte) : State :=
  let r := kprog bs
  (s.kettle st).prints.zipIdx.foldl (fun s x =>
    s.devWrite (hbmBase st + r.fprint + 16 * x.2) (leBytes 4 (klayer bs r.count x.2).1 ++ leBytes 4 0 ++ leBytes 8 x.1)) s

/-- Advance the step counters of experts lo to hi - 1 (R257). -/
def State.kcounters (s : State) (st : Nat) (k : KSlot) (lo hi : Nat) : State :=
  s.stepWrite st k (16 + 4 * lo) ((List.range (hi - lo)).flatMap (fun i =>
    leBytes 4 (s.stepCounter st k (lo + i) + bitNat (s.advances st k (lo + i)))))

/-- Update the header of each scale record of a run, from the journal's counts (R99, R265). -/
def State.kheaders (s : State) (st : Nat) (bs : List Byte) : State :=
  (kinRecord bs).foldl (fun s n =>
    let b := kbind bs n
    let a := hbmBase st + b.record
    let imm := fmtScaled b.fmt && ((s.ktensor st b).scaling == 1 || !s.recValid a)
    (s.recCapture a []).recClose a (Tab.get 0 (s.kettle st).sats n) imm) s

/-- Parts of the slot state and its counters that final block f carries, as (offset, bytes). -/
def kfinalParts (bs : List Byte) (f : Nat) : List (Nat × Nat) :=
  let r := kprog bs
  if f + 1 < r.finals then [(16 + 4 * (32768 * f), 4 * (min r.experts (32768 * (f + 1)) - 32768 * f))]
  else [(0, if r.experts ≤ 32640 then 16 + 4 * r.experts else 16)]

/-- Headers of the scale records of a run. -/
def kheaderParts (bs : List Byte) : List (Nat × Nat) := (kinRecord bs).map (fun n => ((kbind bs n).record, 32))

/-- Step 1 of R263 for final block f: its undo entry holds the old counters, slot state or headers; none, with the address, where a read
of one fails. -/
def State.openFinal (s : State) (st : Nat) (k : KSlot) (f : Nat) : State ⊕ Nat :=
  let r := kprog k.prog
  let b := kbind k.prog Stream.stepcnt
  let parts := kfinalParts k.prog f
  let hbm := (if b.used then parts.map (fun x => (b.base + x.1, x.2)) else []) ++ (if f + 1 < r.finals then [] else kheaderParts k.prog)
  match hbm.find? (fun x => s.badRange (hbmBase st + x.1) x.2) with
  | some x => .inr (s.failingAt (hbmBase st + x.1) x.2)
  | none =>
    let n := s.fget .ketCommitted st
    .inl (s.modKettle st (fun x => { x with
      undo := x.undo ++ [{ slot := k.slot, step := x.stepNo, block := n,
                           old := hbm.map (fun y => (y.1, s.devRead (hbmBase st + y.1) y.2)),
                           ownOld := if b.used then [] else parts.map (fun y =>
                             (2 ^ 40 * k.slot + y.1, Mem.read x.own (2 ^ 40 * k.slot + y.1) y.2)),
                           bad := false }], block := n }))

/-- Step 2 for final block f: counters, or in the last one the slot state, the record headers and the fingerprints. -/
def State.writeFinal (s : State) (st : Nat) (k : KSlot) (f : Nat) : State :=
  let r := kprog k.prog
  if f + 1 < r.finals then s.kcounters st k (32768 * f) (min r.experts (32768 * (f + 1)))
  else
    let s := if 32640 < r.experts then s else s.kcounters st k 0 r.experts
    let (e, clean, _) := s.slotState st k
    let up := decide (k.growth ≤ clean + 1)
    let s := s.putSlot st k (if up then min (e + 1) 24 else e) (if up then 0 else clean + 1) (s.kettle st).stepNo
    let s := s.kheaders st k.prog
    if kstores k.prog Stream.roll then s.kfprint st k.prog else s

/-- Step 3: block n is committed, and its undo entry is free. -/
def State.commitBlock (s : State) (st n : Nat) : State :=
  (s.fset .ketCommitted st (n + 1)).modKettle st (fun x => { x with undo := x.undo.filter (fun u => u.block != n) })

/-- The run closes its journal and ends. -/
def State.closeJournal (s : State) (st : Nat) (r : KProg) : State := (s.fset .ketJstate st 0).closeRun st r

/-- Commit an element block that has been computed: the journal takes its counts and CRCs. The last block of a SWEEP, which leaves out stage
6, also updates the record headers, and ends the run (log entry 137). -/
def State.commitElems (s : State) (st : Nat) (k : KSlot) (n : Nat) : State :=
  let r := kprog k.prog
  let x := s.kettle st
  let mine := (List.range 12).map (fun i => (i, Tab.get 0 x.sats (16 * (n + 1) + i)))
  let sats := mine.foldl (fun m e => Tab.set 0 m e.1 (Tab.get 0 m e.1 + e.2))
    (Tab.drop x.sats (fun i => decide (16 * (n + 1) ≤ i) && decide (i < 16 * (n + 2))))
  let s := ((s.commitBlock st n).modKettle st (fun x => { x with sats := sats })).kprints st k.prog n
  if n + 1 < kblocks k.prog then s
  else if r.sweep then
    let s := s.kheaders st k.prog
    (if kstores k.prog Stream.roll then s.kfprint st k.prog else s).closeJournal st r
  else s.fset .ketState st 4

/-- A final block: first its undo entry and its writes, then its commit; the last one closes the journal (R263, R265). -/
def State.finalBlock (s : State) (st : Nat) (k : KSlot) (n : Nat) : State :=
  let r := kprog k.prog
  let f := n - kblocks k.prog
  if (s.kettle st).undo.any (fun u => u.block == n) then
    let s := s.commitBlock st n
    if f + 1 < r.finals then s else (s.showSlot st k false).closeJournal st r
  else
    match s.openFinal st k f with
    | .inr a => s.kettleHbm st a
    | .inl s => s.writeFinal st k f

/-- Go on with the lowest block that is not committed: commit an element block that has been computed, or take the next step of a final
block. -/
def State.kcommit (s : State) (st : Nat) : State :=
  let n := s.fget .ketCommitted st
  match s.kslot st (s.fget .ketJslot st) with
  | none => s
  | some k =>
    if s.fget .ketState st = 3 then
      if (s.kettle st).group < min (kprog k.prog).groups ((n + 1) * kgroups k.prog) then s else s.commitElems st k n
    else if s.fget .ketState st = 4 then s.finalBlock st k n
    else s

/-! ### Starting and resuming kettles (R158, R247, R268) -/

/-- The kettles of a partition take the slots of a kind to run. -/
def State.startKettles (s : State) (p why stepNo seed : Nat) : State :=
  let slots := (s.part p).cfg.kettleSlots (why == 2)
  let set (k : Kettle) : Kettle :=
    { k with todo := slots, why := if slots = [] then 0 else why, normTaken := false, failed := false, group := 0, pc := 0, seed := seed, stepNo := stepNo }
  (s.baysOf p).foldl (fun s b => s.modKettle b set) s

/-- Every kettle of a partition has ended its runs. -/
def State.kettlesDone (s : State) (p : Nat) : Bool := (s.baysOf p).all (fun b => (s.kettle b).why == 0)

/-- Some journal of the partition is INTERRUPTED (R267). -/
def State.journalOpen (s : State) (p : Nat) : Bool := (s.baysOf p).any (fun b => s.fget .ketJstate b == 2)

/-- Continue an interrupted run of stack st from block COMMITTED: the parameter block is read again (R268). -/
def State.resumeKettle (s : State) (st : Nat) : State :=
  match s.kslot st (s.fget .ketJslot st) with
  | none => s
  | some k =>
    let r := kprog k.prog
    let s := (s.fset .ketJstate st 1).modKettle st (fun x => { x with todo := [k.slot], why := 3, failed := false })
    if s.badRange (hbmBase st + r.param) 48 then s.kettleHbm st (hbmBase st + r.param)
    else
      let bs := s.devRead (hbmBase st + r.param) 48
      let s := (s.fset .ketSlot st k.slot).modKettle st (fun x => { x with params := Mem.write [] 0 bs, undo := [] })
      let n := s.fget .ketCommitted st
      if kblocks k.prog ≤ n then s.fset .ketState st 4 else (s.fset .ketState st 3).toGroup st k (n * kgroups k.prog)

/-- The row of a kettle instruction. -/
def State.kettleRow (s : State) (st op : Nat) : State := if st < 12 then s.kettleOp st op else s

end Sys2Proof.Machine
end

