-- ==== Sys2Proof/Machine/Druco.lean ====
section
/-!
DEFINITION. Druco images (R52 to R63, R526): the container, the order of checks, clamping, the checks of structured values, the
load report, and the values that an accepted image applies.
-/

namespace Sys2Proof.Machine

abbrev Why.belowMin : Nat := 0x0001
abbrev Why.aboveMax : Nat := 0x0002
abbrev Why.notMultiple : Nat := 0x0003
abbrev Why.notPower : Nat := 0x0004
abbrev Why.capacity : Nat := 0x0005
abbrev Why.masterLimit : Nat := 0x0006
abbrev Why.illegalPair : Nat := 0x0007
abbrev Why.truncated : Nat := 0x0080
abbrev Why.badCrc : Nat := 0x0081
abbrev Why.badMagic : Nat := 0x0082
abbrev Why.badFormat : Nat := 0x0083
abbrev Why.wrongMember : Nat := 0x0084
abbrev Why.badHeader : Nat := 0x0085
abbrev Why.recordOrder : Nat := 0x0086
abbrev Why.unknownId : Nat := 0x0087
abbrev Why.badEncoding : Nat := 0x0088
abbrev Why.tileSet : Nat := 0x0089
abbrev Why.baySet : Nat := 0x008A
abbrev Why.rankSet : Nat := 0x008B
abbrev Why.badReference : Nat := 0x008C
abbrev Why.badRegion : Nat := 0x008D
abbrev Why.badBlob : Nat := 0x008E
abbrev Why.missingField : Nat := 0x008F
abbrev Why.strictClamp : Nat := 0x0090
abbrev Why.changed : Nat := 0x0091
abbrev Why.tooLarge : Nat := 0x0092

/-- One record of a load report (*Load report record*). -/
structure Entry where
  sec : Nat
  fld : Nat
  idx : Nat
  requested : Nat
  applied : Nat
  reason : Nat
  reject : Bool
  off : Nat
  deriving DecidableEq, Repr

def Entry.bytes (e : Entry) : List Byte :=
  leBytes 2 e.sec ++ leBytes 2 e.fld ++ leBytes 4 e.idx ++ leBytes 8 e.requested ++ leBytes 8 e.applied ++ leBytes 2 e.reason ++
    leBytes 1 (bitNat e.reject) ++ leBytes 1 0 ++ leBytes 4 e.off

/-- A rejection of the header or the container. -/
def headFault (reason off value : Nat) : Entry :=
  { sec := 0, fld := 0, idx := 0, requested := value, applied := 0, reason := reason, reject := true, off := off }

/-- One field record (*Field record*). -/
structure Rec where
  sec : Nat
  fld : Nat
  idx : Nat
  val : List Byte
  off : Nat
  deriving DecidableEq, Repr

def Rec.num (r : Rec) : Nat := leNat r.val

/-! ### Steps 1 to 3 (R52, R53) -/

/-- The scope bit of a header: a partition image. -/
def imagePart (bs : List Byte) : Bool := bitOf (leField bs 9 8) 1

/-- Step 1. `len` is the staged length. -/
def checkLength (bs : List Byte) (len : Nat) : Option Entry :=
  let total := leField bs 15 12
  if len < 68 then some (headFault Why.truncated 0 len)
  else if len < total then some (headFault Why.truncated 12 total)
  else if total < len then some (headFault Why.badHeader 12 total)
  else if (if imagePart bs then 16 else 64) * 2 ^ 20 < len then some (headFault Why.tooLarge 12 total)
  else none

/-- Step 2. -/
def checkCrc (bs : List Byte) : Option Entry :=
  let n := bs.length - 4
  let stored := leField bs (n + 3) n
  if crc32c (bs.take n) = stored then none else some (headFault Why.badCrc n stored)

/-- Step 3. -/
def checkHeader (bs : List Byte) : Option Entry :=
  if leField bs 3 0 ≠ 0x4F435244 then some (headFault Why.badMagic 0 (leField bs 3 0))
  else if leField bs 5 5 ≠ 1 ∨ 2 < leField bs 4 4 then some (headFault Why.badFormat 4 (leField bs 5 4))
  else if leField bs 7 6 ≠ 0x0060 then some (headFault Why.wrongMember 6 (leField bs 7 6))
  else if leField bs 9 8 / 4 ≠ 0 then some (headFault Why.badHeader 8 (leField bs 9 8))
  else if leField bs 11 10 ≠ 0 then some (headFault Why.badHeader 10 (leField bs 11 10))
  else if leField bs 29 28 / 4096 ≠ 0 then some (headFault Why.badHeader 28 (leField bs 29 28))
  else if leField bs 31 30 ≠ 0 then some (headFault Why.badHeader 30 (leField bs 31 30))
  else if leField bs 63 48 ≠ 0 then some (headFault Why.badHeader 48 (leField bs 63 48))
  else none

/-! ### Step 4: the record walk (R54, R526) -/

/-- Number of elements that the INDEX column of a field allows; none for an identifier that the catalogue does not hold. -/
def fieldIndices (sec fld : Nat) : Option Nat :=
  match sec, fld with
  | 1, 1 => some 12
  | 2, 1 | 2, 2 | 3, 1 | 3, 2 | 3, 3 | 3, 4 | 3, 5 | 3, 6 | 10, 1 => some 96
  | 4, 1 | 4, 2 | 4, 3 | 4, 4 | 7, 1 | 7, 2 => some 256
  | 5, 1 | 5, 3 => some 1
  | 5, 2 | 5, 4 => some 24
  | 6, 1 | 6, 2 | 6, 3 | 6, 4 | 6, 5 | 6, 6 | 6, 7 | 11, 1 | 11, 2 | 11, 3 => some 64
  | 8, 1 | 8, 2 | 8, 3 | 8, 4 => some 32
  | 9, 1 | 9, 2 | 9, 3 | 9, 4 | 9, 5 | 9, 6 | 9, 7 => some 12
  | 12, 1 | 12, 2 | 12, 3 | 12, 4 | 12, 5 | 12, 6 => some 65536
  | _, _ => none

/-- The fixed LENGTH of a field, where it has one. -/
def fieldWidth (sec fld : Nat) : Option Nat :=
  match sec, fld with
  | 2, _ | 4, 1 | 4, 2 | 5, 2 | 6, 7 | 8, 2 | 8, 4 | 9, 4 | 9, 7 | 11, 1 | 11, 2 | 12, 1 | 12, 2 | 12, 3 | 12, 4 | 12, 5 => some 1
  | 1, _ | 5, 1 | 7, 2 | 9, 1 | 9, 2 | 9, 3 | 9, 5 => some 2
  | 3, _ | 6, 1 | 6, 2 | 6, 5 | 6, 6 | 8, 3 | 9, 6 | 11, 3 | 12, 6 => some 4
  | 4, 3 | 4, 4 | 7, 1 => some 8
  | 5, 3 => some 4096
  | 5, 4 => some 16
  | _, _ => none

/-- (SECTION, FIELD, INDEX) as one number, in the order of R54. -/
def recKey (sec fld idx : Nat) : Nat := (sec * 2 ^ 16 + fld) * 2 ^ 32 + idx

def Rec.key (r : Rec) : Nat := recKey r.sec r.fld r.idx

/-- Walk the records from byte `off` to `stop`; `last` is one more than the key of the record before. The records, or the first
failure. In a partition image a record of section 0x01 breaks the scope rule of R55. -/
def walkRecords (bs : List Byte) (stop : Nat) (part : Bool) : Nat → Nat → Nat → List Rec → Except Entry (List Rec)
  | 0, _, _, acc => .ok acc.reverse
  | n + 1, off, last, acc =>
    if stop ≤ off then .ok acc.reverse
    else
      let body := (bs.take stop).drop off
      let sec := leField body 1 0
      let fld := leField body 3 2
      let idx := leField body 7 4
      let len := leField body 11 8
      let val := (body.drop 16).take len
      let bad (reason : Nat) : Except Entry (List Rec) :=
        .error { sec := sec, fld := fld, idx := idx, requested := leNat (val.take 8), applied := 0, reason := reason, reject := true,
                 off := off }
      let next := off + 16 + roundUp len 8
      if stop < off + 16 ∨ stop < next then bad Why.badHeader
      else if recKey sec fld idx < last then bad Why.recordOrder
      else if leField body 15 12 ≠ 0 ∨ (((body.drop 16).take (roundUp len 8)).drop len).any (fun x => x != 0) then bad Why.badHeader
      else
        match fieldIndices sec fld with
        | none => bad Why.unknownId
        | some k =>
          if k ≤ idx then bad Why.badReference
          else if part ∧ sec = 1 then bad Why.badHeader
          else if (match fieldWidth sec fld with | some w => len != w | none => false) then bad Why.badHeader
          else walkRecords bs stop part n next (recKey sec fld idx + 1)
            ({ sec := sec, fld := fld, idx := idx, val := val, off := off } :: acc)

/-! ### Clamping (R58) -/

/-- Into the range, then to the nearest multiple of the step, the lower on a tie; the value and the reason, 0 for none. -/
def clampTo (lo hi step v : Nat) : Nat × Nat :=
  let (x, why) := if v < lo then (lo, Why.belowMin) else if hi < v then (hi, Why.aboveMax) else (v, 0)
  let low := x / step * step
  if low = x then (x, why)
  else
    let up := low + step
    ((if (up - x < x - low ∧ up ≤ hi) ∨ low < lo then up else low), if why = 0 then Why.notMultiple else why)

/-- Into the range, then to the nearest power of two, the lower on a tie. The bounds are powers of two. -/
def clampPower (lo hi v : Nat) : Nat × Nat :=
  let (x, why) := if v < lo then (lo, Why.belowMin) else if hi < v then (hi, Why.aboveMax) else (v, 0)
  let low := 2 ^ x.log2
  if low = x then (x, why) else ((if 2 * low - x < x - low then 2 * low else low), if why = 0 then Why.notPower else why)

/-! ### Step 6: fields in record order -/

/-- What the checks have gathered: applied numbers and structured values by key, rejected keys, and the report. -/
structure Chk where
  nums : Tab Nat
  blobs : Tab (List Byte)
  bad : List Nat
  out : List Entry

/-- The value at a key, where there is one. -/
def look {α : Type} (m : Tab α) (k : Nat) : Option α := (m.find? (fun e => e.1 == k)).map Prod.snd

def Chk.num (c : Chk) (sec fld idx : Nat) : Option Nat := look c.nums (recKey sec fld idx)
def Chk.blob (c : Chk) (sec fld idx : Nat) : Option (List Byte) := look c.blobs (recKey sec fld idx)
def Chk.isBad (c : Chk) (sec fld idx : Nat) : Bool := c.bad.contains (recKey sec fld idx)

def Chk.reject (c : Chk) (r : Rec) (reason : Nat) : Chk :=
  { c with bad := r.key :: c.bad,
           out := { sec := r.sec, fld := r.fld, idx := r.idx, requested := leNat (r.val.take 8), applied := 0, reason := reason,
                    reject := true, off := r.off } :: c.out }

/-- Record a clamp, where there is one. -/
def Chk.clamped (c : Chk) (r : Rec) (applied reason : Nat) : Chk :=
  if reason = 0 then c
  else { c with out := { sec := r.sec, fld := r.fld, idx := r.idx, requested := leNat (r.val.take 8), applied := applied, reason := reason,
                         reject := false, off := r.off } :: c.out }

/-- Apply a number, with its clamp. -/
def Chk.set (c : Chk) (r : Rec) (v : Nat × Nat) : Chk :=
  { c.clamped r v.1 v.2 with nums := Tab.insert c.nums r.key v.1 }

def Chk.setBlob (c : Chk) (r : Rec) (v : List Byte) : Chk := { c with blobs := Tab.insert c.blobs r.key v }

/-- An enumeration: values up to `top`. -/
def Chk.enum (c : Chk) (r : Rec) (top reason : Nat) : Chk := if top < r.num then c.reject r reason else c.set r (r.num, 0)

/-- ROLE of tile t as applied. -/
def Chk.role (c : Chk) (t : Nat) : Nat := (c.num 2 1 t).getD 0

/-- Pool n (0 to 5) of tile t as applied, in 64 KiB units: an absent one is 0, or 4 for the ACTIVATIONS of a tile with a role. -/
def Chk.pool (c : Chk) (t n : Nat) : Nat := (c.num 3 (n + 1) t).getD (if n = 2 ∧ c.role t ≠ 0 then 4 else 0)

/-- A pool of R59. -/
def Chk.setPool (c : Chk) (r : Rec) : Chk :=
  let n := r.fld - 1
  let least := if c.role r.idx ≠ 0 then 4 else 0
  let (v, why) := clampTo (if n = 2 then least else 0) 768 1 r.num
  let room := 768 - (List.range n).foldl (fun a i => a + c.pool r.idx i) 0 - (if n < 2 then least else 0)
  if room < v then c.set r (room, Why.capacity) else c.set r (v, why)

/-- A region's bay, where its address lies in a stack or a pair: kind, bay, offset and size of the unit. -/
def unitOf (a : Nat) : Option (Nat × Nat × Nat × Nat) :=
  match spaceOf a with
  | .hbm st off => some (0, st, off, 2 ^ 37)
  | .lp b off => some (1, b, off, 0x30_0000_0000)
  | _ => none

/-- The regions applied so far, ascending by index. -/
def Chk.regions (c : Chk) : List Region :=
  (List.range 256).filterMap (fun i =>
    match c.num 4 1 i, c.num 4 2 i, c.num 4 3 i, c.num 4 4 i with
    | some k, some u, some b, some n => some { idx := i, kind := k, use := u, base := b, size := n }
    | _, _, _, _ => none)

/-- BASE of a region. -/
def Chk.setBase (c : Chk) (bays : Nat) (r : Rec) : Chk :=
  match unitOf r.num with
  | none => c.reject r Why.badRegion
  | some (kind, b, _, _) =>
    if r.num % 2 ^ 21 ≠ 0 ∨ (c.num 4 1 r.idx).getD kind ≠ kind then c.reject r Why.badRegion
    else if bitOf bays b then c.set r (r.num, 0) else c.reject r Why.baySet

/-- SIZE of a region. -/
def Chk.setSize (c : Chk) (r : Rec) : Chk :=
  let n := r.num / 2 ^ 21 * 2 ^ 21
  let c := c.clamped r n (if n = r.num then 0 else Why.notMultiple)
  let fits :=
    match c.num 4 3 r.idx with
    | none => n != 0
    | some base =>
      n != 0 && (match unitOf base with | some (_, _, off, unit) => decide (off + n ≤ unit) | none => false) &&
        !(List.range 256).any (fun i => i != r.idx &&
          (match c.num 4 3 i, c.num 4 4 i with
            | some b, some m => decide (b < base + n) && decide (base < b + m)
            | _, _ => false))
  if fits then { c with nums := Tab.insert c.nums r.key n } else c.reject r Why.badRegion

/-- The 16-bit values of a list. -/
def words16 (bs : List Byte) : List Nat := (List.range (bs.length / 2)).map (fun i => leField bs (2 * i + 1) (2 * i))

def distinct : List Nat → Bool
  | [] => true
  | x :: xs => !xs.contains x && distinct xs

/-- RANK_LIST of a communicator. -/
def Chk.rankListOk (c : Chk) (r : Rec) : Bool :=
  let ids := words16 r.val
  r.val.length % 2 == 0 && ids.length == (c.num 6 1 r.idx).getD ids.length && distinct ids && ids.all (fun d => decide (d < 4096)) &&
    (match c.num 6 2 r.idx, c.num 5 1 0 with
      | some me, some dev => ids[me]? == some dev
      | _, _ => true)

/-- SPARE_LIST of a communicator. -/
def Chk.spareListOk (c : Chk) (r : Rec) : Bool :=
  let ids := words16 r.val
  r.val.length % 2 == 0 && decide (ids.length ≤ 64) && distinct ids && ids.all (fun d => decide (d < 4096)) &&
    !ids.any (fun d => (words16 ((c.blob 6 3 r.idx).getD [])).contains d)

/-- SPILL_REGION of a stage: an LPDDR5X stash region whose HBM home holds the budget (R56, R335). -/
def Chk.spillOk (c : Chk) (r : Rec) : Bool :=
  let cfg := { Cfg.empty with regions := c.regions }
  match cfg.regions.find? (fun x => x.idx == r.num) with
  | none => false
  | some x => x.kind == 1 && x.use == 3 &&
    (match cfg.home x, c.num 7 1 r.idx with
      | some h, some budget => decide (budget ≤ h.size)
      | some _, none => true
      | none, _ => false)

/-! ### Kettle programs (R244) -/

/-- Largest stack offset (R243). -/
def stackOffMax : Nat := 0x1F_FFFF_FFFF

/-- Formats that a stream may have (*Streams*). -/
def streamFmts (n : Nat) : List Nat :=
  if n ≤ 2 ∨ n = 4 then [0]
  else if n = 3 ∨ (8 ≤ n ∧ n ≤ 11) then [0, 1, 2]
  else if n = 5 then [1]
  else if n = 6 then [5, 6]
  else if n = 7 then [5]
  else [7]

/-- Fields of an instruction that an operation uses: D, A, B, C, S. -/
def kiUses (op : Nat) : Bool × Bool × Bool × Bool × Bool :=
  match op with
  | 0 => (false, false, false, false, false)
  | 1 => (true, false, false, false, true)
  | 2 => (false, true, false, false, true)
  | 5 | 9 => (true, true, true, true, false)
  | 8 => (true, true, true, false, true)
  | 11 => (true, true, false, false, true)
  | 13 => (true, true, false, false, false)
  | _ => (true, true, true, false, false)

/-- An instruction word is legal, apart from the streams it names. -/
def kiOk (w : Nat) : Bool :=
  let (d, a, b, c, s) := kiUses (kiOp w)
  let ops := (if a then [kiA w] else []) ++ (if b then [kiB w] else []) ++ (if c then [kiC w] else [])
  let top := if kiOp w = 8 then 7 else if kiOp w = 11 then 3 else 11
  decide (kiOp w ≤ 13) && (d || kiD w == 0) && (a || kiA w == 0) && (b || kiB w == 0) && (c || kiC w == 0) &&
    (if s then decide (kiS w ≤ top) else kiS w == 0) && ops.all (fun x => decide (x ≤ 46)) && (ops.contains 44 || kiImm w == 0)

/-- Header fields in their ranges, reserved bytes zero, and the length of the VALUE. -/
def kheadOk (bs : List Byte) : Bool :=
  let k := kprog bs
  decide (736 ≤ bs.length) && bs.length == 736 + 8 * k.count + 16 * k.segs && decide (leField bs 0 0 ≤ 1) &&
    decide (1 ≤ k.count) && decide (k.count ≤ 64) && decide (k.startEv ≤ 14) && (decide (k.doneTile ≤ 7) || k.doneTile == 255) &&
    decide (k.doneEv ≤ 63) && leField bs 5 5 == 0 && decide (1 ≤ k.elems) && decide (k.elems ≤ 2 ^ 35) &&
    (k.span == 0 || (k.span % 2048 == 0 && k.elems % k.span == 0)) && leField bs 23 20 == 0 && k.param % 64 == 0 &&
    decide (k.param ≤ stackOffMax) && k.fprint % 64 == 0 && decide (k.fprint ≤ stackOffMax) && decide (k.segs ≤ 1024) &&
    leField bs 63 42 == 0

/-- Binding n: reserved bits zero, and its fields in their ranges where it is USED. -/
def kbindOk (bs : List Byte) (n : Nat) : Bool :=
  let raw := (bs.drop (64 + 48 * n)).take 48
  let b := kbind bs n
  decide (leField raw 9 9 ≤ 1) && leField raw 15 12 == 0 && leField raw 47 40 == 0 &&
    (!b.used || ((streamFmts n).contains b.fmt && decide (b.plane ≤ stackOffMax) && decide (b.record ≤ stackOffMax) &&
      (if n = Stream.res then b.base == 2 ^ 63 + bitsOf b.base 34 32 * 2 ^ 32 + bitsOf b.base 25 0 else decide (b.base ≤ stackOffMax))))

/-- The layer entries: ascending from 0, below ELEMENT_COUNT, layers to 255, reserved bytes zero. -/
def klayersOk (bs : List Byte) : Bool :=
  let k := kprog bs
  let es := (List.range k.segs).map (klayer bs k.count)
  (es = [] || (es.head?.map Prod.snd) == some 0) && es.all (fun e => decide (e.1 ≤ 255) && decide (e.2 < k.elems)) &&
    (es.zip (es.drop 1)).all (fun x => decide (x.1.2 < x.2.2)) &&
    (List.range k.segs).all (fun i => leField bs (736 + 8 * k.count + 16 * i + 7) (736 + 8 * k.count + 16 * i + 4) == 0)

/-- HBM ranges that a run binds: (must lie in USE OPTIMISER, offset, length). -/
def kranges (bs : List Byte) : List (Bool × Nat × Nat) :=
  let k := kprog bs
  let one (n : Nat) : List (Bool × Nat × Nat) :=
    let b := kbind bs n
    if !b.used || n == Stream.res then []
    else if n = Stream.vis then [(false, b.base, 4 * k.experts)]
    else if n = Stream.stepcnt then [(true, b.base, 16 + 4 * k.experts)]
    else
      [(decide (n ≤ 2), b.base, fmtBytes b.fmt k.elems)] ++
        (if fmtScaled b.fmt then [(false, b.plane, 2 * ceilDiv k.elems 64)] else []) ++
        (if kstores bs n && b.fmt != 0 then [(false, b.record, 32 + 4 * ceilDiv k.elems (recBlock b.fmt))] else [])
  [(false, k.param, 48)] ++ (if (kbind bs Stream.roll).used then [(false, k.fprint, 16 * k.segs)] else []) ++
    (List.range 14).flatMap one

/-- [pos, stop) of a stack lies in regions, given ascending by base as (offset, size). -/
def coveredBy : List (Nat × Nat) → Nat → Nat → Bool
  | [], pos, stop => decide (stop ≤ pos)
  | (o, n) :: rest, pos, stop =>
    if stop ≤ pos then true else if o ≤ pos ∧ pos < o + n then coveredBy rest (o + n) stop else coveredBy rest pos stop

/-- The ranges of a program lie in the regions of bay b, and RES in the RESIDUE pool of its tile. -/
def Chk.kfits (c : Chk) (bs : List Byte) (b : Nat) : Bool :=
  let mine := orderedBy (fun x y => decide (x.base ≤ y.base)) (c.regions.filter (fun r => r.kind == 0 && hbmBay r == b))
  let spans (opt : Bool) : List (Nat × Nat) :=
    (mine.filter (fun r => !opt || r.use == 2)).map (fun r => (r.base % 2 ^ 37, r.size))
  let res := kbind bs Stream.res
  (kranges bs).all (fun x => coveredBy (spans x.1) x.2.1 (x.2.1 + x.2.2)) &&
    (!res.used ||
      (let t := 8 * b + bitsOf res.base 34 32
       let base := (c.pool t 0 + c.pool t 1 + c.pool t 2) * 65536
       let o := bitsOf res.base 25 0
       decide (base ≤ o) && decide (o + 4 * (kprog bs).elems ≤ base + c.pool t 3 * 65536)))

/-- No two ranges share a byte. -/
def rangesApart : List (Bool × Nat × Nat) → Bool
  | [] => true
  | x :: rest => !rest.any (fun y => decide (x.2.1 < y.2.1 + y.2.2) && decide (y.2.1 < x.2.1 + x.2.2)) && rangesApart rest

/-- Streams a program may not load, and may not store. -/
def loadable (n : Nat) : Bool := n ≤ 4 || decide (8 ≤ n)
def storable (n : Nat) : Bool := n ≤ 2 || decide (5 ≤ n)

/-- The program is legal (R244). -/
def Chk.programOk (c : Chk) (bays : Nat) (bs : List Byte) : Bool :=
  let k := kprog bs
  kheadOk bs && (List.range 14).all (kbindOk bs) && klayersOk bs && (k.segs != 0 || !(kbind bs Stream.roll).used) &&
    (!(kbind bs Stream.vis).used || k.span != 0) &&
    (kinstrs bs).all (fun w => kiOk w && (!(kiOp w == 1 || kiOp w == 2) || (kbind bs (kiS w)).used) &&
      (kiOp w != 1 || loadable (kiS w)) && (kiOp w != 2 || storable (kiS w))) &&
    distinct (((kinstrs bs).filter (fun w => kiOp w == 2)).map kiS) &&
    [8, 9, 10, 11].all (fun n => !kstores bs n || kloads bs n) &&
    (!k.sweep || [0, 1, 2, 8, 9, 10, 11].all (fun n => !kstores bs n)) &&
    rangesApart (kranges bs) && (bitList 12 bays).all (c.kfits bs)

/-! ### Steep lists (R223) -/

/-- A range of tile t lies in its WEIGHTS pool. -/
def Chk.inWeights (c : Chk) (t a n : Nat) : Bool := decide (scratchBase t ≤ a) && decide (a + n ≤ scratchBase t + c.pool t 0 * 65536)

/-- One entry of a steep list is legal. -/
def Chk.steepOk (c : Chk) (cfg : Cfg) (bays t : Nat) (e : List Byte) : Bool :=
  let m := moveD (BitVec.ofNat 512 (leNat ((e.drop 16).take 64)))
  decide (leField e 2 2 ≤ 63) && decide (leField e 3 3 ≤ 1) && leField e 15 8 == 0 && (leField e 3 3 == 1 || leField e 7 4 == 0) &&
    m.legal cfg false && m.dt == 0 && m.dstRanges.all (fun r => c.inWeights t r.1 r.2) &&
    (match spaceOf m.src with
      | .hbm st _ => bitOf bays st
      | .lp b _ => bitOf bays b
      | _ => true)

/-- A steep list is legal. -/
def Chk.steepsOk (c : Chk) (cfg : Cfg) (bays t : Nat) (bs : List Byte) : Bool :=
  let n := steepCount bs
  let es := (List.range n).map (fun i => (bs.drop (16 + 80 * i)).take 80)
  bs.length == 16 + 80 * n && decide (1 ≤ n) && decide (n ≤ 8192) && leField bs 15 4 == 0 && es.all (c.steepOk cfg bays t) &&
    (es.zip (es.drop 1)).all (fun x => decide (leField x.1 1 0 ≤ leField x.2 1 0))

/-! ### One field -/

/-- The bay that a field's INDEX lies in, for tiles, bays and ports. -/
def recBay (r : Rec) : Option Nat :=
  if r.sec = 2 ∨ r.sec = 3 ∨ r.sec = 10 then some (r.idx / 8)
  else if r.sec = 9 then some r.idx
  else if r.sec = 5 ∧ (r.fld = 2 ∨ r.fld = 4) then some (r.idx / 2)
  else none

/-- The fields whose applied values set a field's range. -/
def mastersOf (sec fld : Nat) : List (Nat × Nat) :=
  match sec, fld with
  | 3, _ => [(2, 1)]
  | 4, 3 => [(4, 1)]
  | 4, 4 => [(4, 3)]
  | 6, 2 => [(6, 1)]
  | 6, 3 => [(6, 1), (6, 2)]
  | 6, 4 => [(6, 3)]
  | 6, 5 => [(6, 1), (6, 2)]
  | 9, 3 => [(9, 2)]
  | 11, 2 => [(11, 1)]
  | 12, 2 | 12, 4 => [(12, 1)]
  | _, _ => []

/-- Bays that earlier BAY_MASK fields have taken. -/
def Chk.taken (c : Chk) : Nat := (List.range 12).foldl (fun m p => m ||| (c.num 1 1 p).getD 0) 0

/-- Check and apply one field (R56). `gone` are the retired bays, and `cfg` gives the ROW_LEN of tensors. A VC_CREDITS field with
several clamped elements gives one report record: the first such element's reason, and the first 8 bytes as applied (log entry 93,
DESIGN CHOICE). -/
def Chk.field (gone : List Nat) (bays tiles : Nat) (cfg : Cfg) (c : Chk) (r : Rec) : Chk :=
  if (mastersOf r.sec r.fld).any (fun m => c.isBad m.1 m.2 r.idx) || (r.sec == 6 && r.fld == 3 && c.isBad 5 1 0) then c
  else if (match recBay r with | some b => !bitOf bays b | none => false) then c.reject r Why.baySet
  else
    let v := r.num
    match r.sec, r.fld with
    | 1, _ => if v = 0 ∨ 4096 ≤ v ∨ v &&& c.taken ≠ 0 ∨ gone.any (fun b => bitOf v b) ∨ v ||| bays ≠ bays then c.reject r Why.baySet else c.set r (v, 0)
    | 2, 1 => if 4 < v then c.reject r Why.badEncoding
      else if (v != 0) == bitOf tiles r.idx then c.set r (v, 0) else c.reject r Why.tileSet
    | 2, _ => c.enum r 2 Why.badEncoding
    | 3, _ => c.setPool r
    | 4, 1 => c.enum r 1 Why.badEncoding
    | 4, 2 => c.enum r 10 Why.badEncoding
    | 4, 3 => c.setBase bays r
    | 4, _ => c.setSize r
    | 5, 1 => c.enum r 4095 Why.rankSet
    | 5, 2 => c.enum r 1 Why.badEncoding
    | 5, 3 =>
      if r.val.any (fun x => decide (24 ≤ x.toNat) && decide (x.toNat < 0xFE)) then c.reject r Why.badBlob
      else if r.val.any (fun x => decide (x.toNat < 24) && !bitOf bays (x.toNat / 2)) then c.reject r Why.baySet
      else c.setBlob r r.val
    | 5, _ =>
      let vs := (words16 r.val).map (clampTo 4 64 1)
      let out := vs.flatMap (fun x => leBytes 2 x.1)
      (c.clamped r (leNat (out.take 8)) ((vs.map Prod.snd).find? (fun w => w != 0) |>.getD 0)).setBlob r out
    | 6, 1 => if v = 0 ∨ 4096 < v then c.reject r Why.rankSet else c.set r (v, 0)
    | 6, 2 => if v < (c.num 6 1 r.idx).getD (v + 1) then c.set r (v, 0) else c.reject r Why.rankSet
    | 6, 3 => if c.rankListOk r then c.setBlob r r.val else c.reject r Why.rankSet
    | 6, 4 => if c.spareListOk r then c.setBlob r r.val else c.reject r Why.rankSet
    | 6, 5 => if v < (c.num 6 1 r.idx).getD (v + 1) ∧ c.num 6 2 r.idx ≠ some v then c.set r (v, 0) else c.reject r Why.rankSet
    | 6, 6 => c.set r (clampTo 100 60000000 1 v)
    | 6, _ => c.set r (clampTo 0 7 1 v)
    | 7, 1 => c.set r (clampTo (64 * 2 ^ 20) ((bitList 12 bays).length * 2 ^ 37) (2 ^ 21) v)
    | 7, _ => if c.spillOk r then c.set r (v, 0) else c.reject r Why.badReference
    | 8, 1 => if c.programOk bays r.val then c.setBlob r r.val else c.reject r Why.badBlob
    | 8, 2 => c.enum r 2 Why.badEncoding
    | 8, 3 => c.set r (clampTo 1 1000000 1 v)
    | 8, _ => c.set r (clampTo 0 24 1 v)
    | 9, 1 => c.set r (clampTo 1 8192 1 v)
    | 9, 2 => c.set r (clampTo 256 8192 256 v)
    | 9, 3 =>
      let (x, why) := clampTo 256 ((c.num 9 2 r.idx).getD 8192) 256 v
      c.set r (x, if why = Why.aboveMax then Why.masterLimit else why)
    | 9, 4 => c.set r (clampTo 0 16 1 v)
    | 9, 5 => c.set r (clampTo 1 1024 1 v)
    | 9, 6 => c.set r (clampTo 1 1048576 1 v)
    | 9, _ => c.enum r 1 Why.badEncoding
    | 10, _ => if c.steepsOk cfg bays r.idx r.val then c.setBlob r r.val else c.reject r Why.badBlob
    | 11, 1 => c.enum r 1 Why.badEncoding
    | 11, 2 => if c.num 11 1 r.idx = some 0 then c.set r (v, 0) else c.set r (clampTo 2 16 1 v)
    | 11, _ => c.set r (clampPower 4096 (16 * 2 ^ 20) v)
    | 12, 1 => c.enum r 8 Why.badEncoding
    | 12, 2 =>
      let st := (c.num 12 1 r.idx).getD 1
      if v = st ∨ widenLegal st v then c.set r (v, 0) else c.set r (st, Why.illegalPair)
    | 12, 3 => c.enum r 1 Why.badEncoding
    | 12, 4 =>
      let st := (c.num 12 1 r.idx).getD 1
      if 1 < v then c.reject r Why.badEncoding
      else if v = 0 ∨ st = 1 ∨ st = 2 then c.set r (v, 0) else c.set r (0, Why.illegalPair)
    | 12, 5 => c.enum r 3 Why.badEncoding
    | _, _ => c.set r (v, 0)

/-! ### Steps 5 to 7 -/

/-- Step 5 against the device as it stands; `masks` are the BAY_MASK fields of a whole-device image. The records name the header byte at
fault, with SECTION, FIELD and INDEX zero (log entry 91, DESIGN CHOICE). -/
def State.checkSets (s : State) (part : Bool) (bays tiles : Nat) (masks : List Nat) : List Entry :=
  (if (bitList 12 bays).any (fun b => s.fget .bayRetired b == 1) then [headFault Why.baySet 28 bays] else []) ++
    (if (bitList 96 tiles).any (fun t => !bitOf bays (t / 8) || !s.mapped t) then [headFault Why.tileSet 16 (tiles % 2 ^ 64)] else []) ++
    (if !part && masks.foldl (fun m x => m ||| x) 0 != bays then [headFault Why.baySet 28 bays] else [])

/-- A field that is required and absent. Its record has OFFSET 0, since no byte of the image is at fault (log entry 92, DESIGN CHOICE). -/
def missing (sec fld idx reason : Nat) : Entry :=
  { sec := sec, fld := fld, idx := idx, requested := 0, applied := 0, reason := reason, reject := true, off := 0 }

/-- What R55 and R56 require of the elements that an image defines, and the roles that TILE_REQ calls for. -/
def Chk.required (c : Chk) (recs : List Rec) (tiles : Nat) : List Entry :=
  let seen (sec fld idx : Nat) : Bool := recs.any (fun r => r.sec == sec && r.fld == fld && r.idx == idx)
  let elems (secs : List Nat) (n : Nat) : List Nat := (List.range n).filter (fun i => recs.any (fun r => secs.contains r.sec && r.idx == i))
  let need (sec : Nat) (fs : List Nat) (is : List Nat) : List Entry :=
    fs.flatMap (fun f => (is.filter (fun i => !seen sec f i)).map (fun i => missing sec f i Why.missingField))
  ((bitList 96 tiles).filter (fun t => !seen 2 1 t)).map (fun t => missing 2 1 t Why.tileSet) ++
    need 4 [1, 2, 3, 4] (elems [4] 256) ++
    (if !seen 5 1 0 && ((List.range 24).any (fun q => c.num 5 2 q == some 1) || recs.any (fun r => r.sec == 6 || r.sec == 11)) then
      [missing 5 1 0 Why.missingField] else []) ++
    need 6 [1, 2, 3] (elems [6, 11] 64) ++ need 7 [1, 2] (elems [7] 256)

/-- Apply the fields of an accepted image. -/
def Chk.cfg (c : Chk) (recs : List Rec) (bays : Nat) : Cfg :=
  let numTab (d sec fld n : Nat) : Tab Nat :=
    (List.range n).foldl (fun m i => Tab.set d m i ((c.num sec fld i).getD d)) []
  let regions := c.regions
  { bays := bays, deviceId := (c.num 5 1 0).getD 0, hasDev := (c.num 5 1 0).isSome,
    roles := numTab 0 2 1 96, modes := numTab 0 2 2 96,
    pools := (List.range 96).foldl (fun m t => (List.range 6).foldl (fun m n => Tab.set 0 m (6 * t + n) (c.pool t n)) m) [],
    regions := regions, ports := numTab 0 5 2 24,
    routes := ((c.blob 5 3 0).getD []).zipIdx.foldl (fun m x => Tab.set 0xFF m x.2 x.1.toNat) [],
    credits := (List.range 24).foldl (fun m q =>
      (words16 ((c.blob 5 4 q).getD [])).zipIdx.foldl (fun m x => Tab.set 16 m (8 * q + x.2) x.1) m) [],
    comms := (List.range 64).filterMap (fun i =>
      match c.num 6 1 i, c.num 6 2 i with
      | some n, some me => some
        { id := i, count := n, myRank := me, ranks := words16 ((c.blob 6 3 i).getD []), spares := words16 ((c.blob 6 4 i).getD []),
          buddy := (c.num 6 5 i).getD ((me + 1) % n), wait := (c.num 6 6 i).getD 5000000, stale := (c.num 6 7 i).getD 1,
          shape := (c.num 11 1 i).getD 1, fanout := (c.num 11 2 i).getD 4, segment := (c.num 11 3 i).getD 1048576 }
      | _, _ => none),
    stages := (List.range 256).filterMap (fun i =>
      match c.num 7 1 i, c.num 7 2 i with
      | some b, some r => some { idx := i, budget := b, spill := r }
      | _, _ => none),
    kslots := (List.range 32).filterMap (fun i =>
      (c.blob 8 1 i).map (fun bs =>
        { slot := i, prog := bs, zeroVisit := (c.num 8 2 i).getD 0, growth := (c.num 8 3 i).getD 2000, initExp := (c.num 8 4 i).getD 16 })),
    seqs := ((List.range 12).filter (fun b => recs.any (fun r => r.sec == 9 && r.idx == b))).map (fun b =>
      (b, { maxSeq := (c.num 9 1 b).getD 8192, budget := (c.num 9 2 b).getD 8192, chunk := (c.num 9 3 b).getD 2048,
            depthMax := (c.num 9 4 b).getD 8, topK := (c.num 9 5 b).getD 1024, maxCtx := (c.num 9 6 b).getD 1048576,
            swapMode := (c.num 9 7 b).getD 0 })),
    steeps := (List.range 96).filterMap (fun t => (c.blob 10 1 t).map (fun bs => (t, bs))),
    tensors := (((recs.filter (fun r => r.sec == 12)).map Rec.idx).eraseDups).map (fun i =>
      { id := i, store := (c.num 12 1 i).getD 1, arrive := (c.num 12 2 i).getD ((c.num 12 1 i).getD 1), scaling := (c.num 12 3 i).getD 0,
        rounding := (c.num 12 4 i).getD 0, thin := (c.num 12 5 i).getD 0, rowLen := (c.num 12 6 i).getD 0 }) }

/-- What a check of an image finds: the report, and the values where it is accepted. -/
structure Checked where
  report : List Entry
  ok : Bool
  isPart : Bool
  bays : Nat
  tiles : Nat
  masks : List (Nat × Nat)
  cfg : Cfg

/-- A rejection at steps 1 to 4. -/
def Checked.stop (e : Entry) : Checked :=
  { report := [e], ok := false, isPart := false, bays := 0, tiles := 0, masks := [], cfg := Cfg.empty }

/-- The order of checks (R60). `len` is the staged length, `bs` the bytes read. -/
def State.checkImage (s : State) (bs : List Byte) (len : Nat) (forceStrict : Bool) : Checked :=
  match checkLength bs len with
  | some e => Checked.stop e
  | none =>
    match checkCrc bs with
    | some e => Checked.stop e
    | none =>
      match checkHeader bs with
      | some e => Checked.stop e
      | none =>
        let part := imagePart bs
        match walkRecords bs (len - 4) part (len / 16 + 1) 64 0 [] with
        | .error e => Checked.stop e
        | .ok recs =>
          let bays := leField bs 29 28
          let tiles := leField bs 27 16
          let masks := (recs.filter (fun r => r.sec == 1)).map (fun r => (r.idx, r.num))
          let sets := s.checkSets part bays tiles (masks.map Prod.snd)
          let lens : Cfg := { Cfg.empty with tensors := (recs.filter (fun r => r.sec == 12 && r.fld == 6)).map (fun r =>
            { id := r.idx, store := 1, arrive := 1, scaling := 0, rounding := 0, thin := 0, rowLen := r.num }) }
          let c := recs.foldl (Chk.field ((List.range 12).filter (fun b => s.fget .bayRetired b == 1)) bays tiles lens) { nums := [], blobs := [], bad := [], out := [] }
          let found := sets ++ c.out.reverse ++ c.required recs tiles
          let strict := (bitOf (leField bs 9 8) 0 || forceStrict) && found.any (fun e => !e.reject)
          let report := found ++ (if strict then [headFault Why.strictClamp 8 0] else [])
          { report := report, ok := !report.any Entry.reject, isPart := part, bays := bays, tiles := tiles, masks := masks, cfg := c.cfg recs bays }

/-- The load report in a buffer of `room` bytes (R63). -/
def reportBytes (handle room : Nat) (k : Checked) : List Byte :=
  let fit := (room - 16) / 32
  let outcome := if !k.ok then 2 else if k.report.isEmpty then 0 else 1
  leBytes 8 handle ++ leBytes 4 k.report.length ++ leBytes 1 (outcome + (if fit < k.report.length then 128 else 0)) ++ leBytes 1 0 ++
    leBytes 2 ((k.report.find? Entry.reject).map Entry.reason |>.getD 0) ++ (k.report.take fit).flatMap Entry.bytes

/-- The values of a whole-device configuration that partition bays `mask` take (R74). -/
def Cfg.restrict (c : Cfg) (mask : Nat) : Cfg :=
  let bayOf (r : Region) : Nat := if r.kind = 0 then hbmBay r else lpBay r
  let regions := c.regions.filter (fun r => bitOf mask (bayOf r))
  { c with
    bays := mask, regions := regions, stages := c.stages.filter (fun st => regions.any (fun r => r.idx == st.spill)),
    roles := Tab.drop c.roles (fun t => !bitOf mask (t / 8)), modes := Tab.drop c.modes (fun t => !bitOf mask (t / 8)),
    pools := Tab.drop c.pools (fun k => !bitOf mask (k / 48)), ports := Tab.drop c.ports (fun q => !bitOf mask (q / 2)),
    credits := Tab.drop c.credits (fun k => !bitOf mask (k / 16)), seqs := c.seqs.filter (fun x => bitOf mask x.1),
    steeps := c.steeps.filter (fun x => bitOf mask (x.1 / 8)) }

end Sys2Proof.Machine
end

