-- ==== Sys2Proof/Machine/Loader.lean ====
section
/-!
DEFINITION. The Druco loader (R64 to R77), the sparge (R455 to R459), and the drain windows of the disables (R70, R448, R449).
Rows that wait for the loader stand in Machine/Turn.lean.
-/

namespace Sys2Proof.Machine

/-! ### Staged images (R65 to R67) -/

def State.image (s : State) (handle : Nat) : Option Staged := s.images.find? (fun g => g.handle == handle)

/-- Partitions that an apply of the image configures (R68). -/
def Staged.configures (g : Staged) (part : Nat) : List Nat := if g.isPart then [part] else g.masks.map Prod.fst

/-- Partitions that an apply of the image affects: those it configures and, for a whole-device image, those that exist (R68). -/
def State.affects (s : State) (g : Staged) (part : Nat) : List Nat :=
  if g.isPart then [part] else (List.range 12).filter (fun p => (s.part p).defined || g.masks.any (fun m => m.1 == p))

/-- Partitions that a whole-device apply removes (R74). -/
def State.removes (s : State) (g : Staged) : List Nat :=
  if g.isPart then [] else (List.range 12).filter (fun p => (s.part p).defined && !g.masks.any (fun m => m.1 == p))

/-- The start of IMAGE_STAGE (R65). -/
def State.runStage (s : State) (c : Cmd) : State :=
  if 16 ≤ s.images.length then s.complete c Status.noHandle 0 0
  else
    let addr := c.arg 23 16
    let len := c.arg 27 24
    let bs := s.hostRead addr len
    let k := s.checkImage bs len (bitOf (c.arg 28 28) 0)
    let handle := if k.ok then s.nextHandle else 0
    let report := k.report.flatMap Entry.bytes
    let s := s.hostWrite (c.arg 39 32) (reportBytes handle (c.arg 43 40) k)
    if k.ok then
      let g : Staged := { handle := handle, addr := addr, len := len, digest := sha256 bs, report := report, isPart := k.isPart,
                          baySet := k.bays, tileReq := k.tiles, masks := k.masks, cfg := k.cfg }
      ({ s with images := s.images ++ [g], nextHandle := s.nextHandle + 1 }).complete c
        (if k.report = [] then Status.ok else Status.clamped) handle 0
    else s.complete c Status.imageRejected 0 0

/-- IMAGE_STAGE (R65). -/
def execImageStage (fn ring : Nat) (s : State) : Host.Outcome State Fault Refusal :=
  .next (s.hostCmd fn ring 0x40
    (fun _ d =>
      { op := 0x40, fnOk := fn == 0, part := 0xFF, spargeOk := true,
        operands := decide (dField d 28 28 < 2) && dZero d 31 29 && decide (16 ≤ dField d 43 40) && dZero d 63 44 })
    (fun _ _ => 0) (fun s c => s.runStage c))

/-- An open turn names the handle (R67). -/
def State.handleHeld (s : State) (h : Nat) : Bool :=
  (List.range 12).any (fun p => match (s.part p).turn with
    | some t => t.learnImage == h || (t.commit != 0 && t.rolloutImage == h)
    | none => false)

/-- IMAGE_RELEASE (R67). -/
def execImageRelease (fn ring : Nat) (s : State) : Host.Outcome State Fault Refusal :=
  .next (s.hostCmd fn ring 0x42
    (fun s d =>
      { op := 0x42, fnOk := fn == 0, part := 0xFF, spargeOk := true,
        operands := dZero d 31 16 && dZero d 63 40 && (s.image (dField d 39 32)).isSome })
    (fun s d => if s.handleHeld (dField d 39 32) then Status.handleInUse else 0)
    (fun s c => ({ s with images := s.images.filter (fun g => g.handle != c.arg 39 32) }).complete c Status.ok 0 0))

/-! ### The checks of an apply (R13, R68) -/

/-- An epoch may become current on partition p (R13). -/
def State.epochOk (s : State) (p e : Nat) : Bool := e != s.fget .turnLayoutEpoch p && !(s.part p).epochs.contains e

/-- The checks of R68, in its order: the status that fails the apply, with the reason of a rejection; (0, 0) where all pass. `turns`
asks that no turn is open on an affected partition. -/
def State.applyRefusal (s : State) (g : Staged) (part epoch : Nat) (turns : Bool) : Nat × Nat :=
  match s.checkSets g.isPart g.baySet g.tileReq (g.masks.map Prod.snd) with
  | e :: _ => (Status.imageRejected, e.reason)
  | [] =>
    if g.isPart && decide (part < 12) && (s.part part).cfg.bays != g.baySet then (Status.imageRejected, Why.baySet)
    else if g.isPart == decide (12 ≤ part) then (Status.badOperand, 0)
    else if turns && (s.affects g part).any (fun p => (s.part p).turn.isSome) then (Status.busy, 0)
    else if !(g.configures part).all (fun p => s.epochOk p epoch) then (Status.badEpoch, 0)
    else (0, 0)

/-- LAST_APPLY after an apply of partition `part`, or of the whole device (R77). An apply that fails with a status for which no reason
code stands (BUSY, BAD_EPOCH, BAD_OPERAND) leaves it unchanged (log entry 94, DESIGN CHOICE). -/
def State.lastApply (s : State) (part reason : Nat) : State :=
  (s.fset .ldrPart 0 (if part < 12 then part else 15)).fset .ldrReason 0 reason

/-! ### The sparge (R455 to R459) -/

/-- Registers of a tile that the sparge returns to their reset values: its counters and the state of *Sparge coverage*. -/
def tileFields : List Fld :=
  [.numGradInv, .numGradOf, .numBank, .numVector, .numMatrix, .mxmBusy, .mxmRows, .mxmStallLoad, .mxmStallDep, .mxmStallInput,
   .mxmStallDrain, .vecBusy, .vecVl, .vecIssued, .vecStallDep, .vecStallPort, .tpDispatched, .tpStallWait, .tpStallQueue,
   .spCorrected, .spCollisions, .spStallIdle, .spBankside, .steepCursor, .steepNext, .steepStall, .steepOverruns, .lauOvf,
   .lauTiles, .lauStall]

/-- The same of a bay. -/
def bayFields : List Fld :=
  [.kflFlags, .ketSlot, .ketState, .ketJbad, .ketKind, .ketJslot, .ketJstate, .ketJstep, .ketCommitted, .ketBlockCount, .ketJdigest,
   .ketNormH, .ketNormL, .ketOverflow, .ketNormStep, .ketGscale, .ketRuns, .ketStall, .redStale, .redResends, .redEarly, .redWaitMax,
   .linkbLocalDrops, .exchRows, .exchResends, .commAdmitted, .commDropped, .commFull, .commSpill, .seqSwapOpen,
   .seqState, .seqLockComm, .seqKeepLog, .seqLockstep, .seqStep, .seqEpochStep, .seqOutBase, .seqOutSize, .seqOutHead, .seqOutTail,
   .seqArea, .seqAreaSize, .seqTokens, .seqPasses, .seqDrafted, .seqAccepted, .seqFretWaits, .seqPreempted, .seqHoldUs,
   .kvWalkRows, .kvAppendRows, .kvTableMisses, .kvFaultValid, .kvFaultTile, .kvFaultReason, .kvFaultSlot]

/-- The same of a submission and a completion ring. -/
def ringFields : List Fld :=
  [.sqBase, .sqEnable, .sqCq, .sqLog2Size, .sqHead, .cqBase, .cqEnable, .cqIrqEn, .cqVector, .cqLog2Size, .cqTail, .cqHead, .cqCoalUs,
   .cqCoalCount]

/-- Fields of instance i return to their reset values. -/
def State.resetFields (s : State) (fs : List Fld) (i : Nat) : State := fs.foldl (fun s f => s.fset f i (f.reset i)) s

/-- What the sparge clears of one logical tile; its history of repairs stays. -/
def State.spargeTile (s : State) (t : Nat) : State :=
  let x := s.tile t
  let s := s.devZero (scratchBase t) scratchBytes
  let s := { s with acc := Mem.zero s.acc (2 ^ 20 * t) (2 ^ 20), accBad := Tab.clear s.accBad (2 ^ 20 * t) (2 ^ 20 * (t + 1)),
                    stat := Mem.zero s.stat (2 ^ 19 * t) (2 ^ 19), moves := s.moves.filter (fun m => m.owner != t) }
  let s := s.setTile t { Tile.reset with
    rowSpares := x.rowSpares, lineSpares := x.lineSpares, rowErrs := x.rowErrs, lineErrs := x.lineErrs, scrubPos := x.scrubPos,
    diverge := x.diverge, retire := x.retire }
  (List.range 64).foldl (fun s i => s.fset .ev (64 * t + i) 0) (s.resetFields tileFields t)

/-- What the sparge clears of one bay: its tiles, its kettle, its sequencer and its engines. -/
def State.spargeBay (s : State) (b : Nat) : State :=
  let s := (List.range 8).foldl (fun s j => s.spargeTile (8 * b + j)) s
  let k := s.kettle b
  let s := s.setKettle b { Kettle.reset with own := k.own, laneErrs := k.laneErrs }
  let s := (List.range 16).foldl (fun s i => s.fset .ketKE (16 * b + i) 0) s
  (s.setBay b Bay.reset).resetFields bayFields b

/-- What a disable returns of the VF of partition p: ring registers, MSI-X table and pending bits. -/
def State.resetVf (s : State) (fn : Nat) : State :=
  let s := (List.range 4).foldl (fun s r => (s.resetFields ringFields (ringIdx fn r)).setRing (ringIdx fn r) Ring.reset) s
  let lo := vecKey fn 0
  { s with msixOn := Tab.clear s.msixOn lo (lo + 4096), msixPend := Tab.clear s.msixPend lo (lo + 4096),
           msixAddr := Tab.clear s.msixAddr lo (lo + 4096), msixData := Tab.clear s.msixData lo (lo + 4096) }

/-- Confidential mode of partition p ends, and its session keys are gone (R443, R207). -/
def State.endSession (s : State) (p : Nat) : State :=
  let s := ((s.modPart p (fun x => { x with session := Session.none })).fset .partConfActive p 0).fset .confKeyUpdates p 0
  { s with err := { s.err with vault := Tab.set false s.err.vault p false } }

/-- What the sparge clears of a partition beyond its bays; its length in units of 10 ns is a free value (R457; log entry 4). -/
def State.spargePart (s : State) (p : Nat) : State :=
  let (ns, s) := s.free1
  let s := ((s.resetVf (p + 1)).endSession p).modPart p (fun x => { x with
    decodeEntry := 0, draftEntry := 0, step := none, colls := [], early := [], relayed := [], exchanges := [], refresh := none, install := none,
    flash := if x.flash.any (fun f => f.kind == 4) then x.flash else none, buddy := none, fence := none, putWait := [] })
  let s := { s with reasm := s.reasm.filter (fun r => r.part != p) }
  let s := ((s.fset .spargePending p 0).fset .spargeFailed p 0).fset .spargeRunning p 0
  (s.fset .spargeLastNs p ns).finc .spargeCount p 1

/-- The sparge of bays and of the partitions that hold them, whole. -/
def State.sparge (s : State) (bays parts : List Nat) : State := parts.foldl (fun s p => s.spargePart p) (bays.foldl (fun s b => s.spargeBay b) s)

/-! ### Ports (R305, R311, R448) -/

/-- The partition that enables port q. -/
def State.portPart (s : State) (q : Nat) : Option Nat :=
  match s.partOfBay (q / 2) with
  | some p => if Tab.get 0 (s.part p).cfg.ports q = 1 then some p else none
  | none => none

/-- A port starts a training attempt that tests all five lanes; its queued and unacknowledged flits are kept, and credits are agreed afresh
(R310, R311). -/
def State.trainPort (s : State) (q : Nat) : State :=
  ((((s.fset .linkState q 1).fset .linkWidth q 0).fset .linkSpareUsed q 0).fset .linkLanesFailed q 0).modPort q
    (fun x => { x with
      credit := [], owed := [], withheld := [], offered := [], resend := 0, fresh := false, naking := false, nakDue := false, ackDue := false,
      restriping := false, pausing := false })

/-- A port stops: transmitters idle, flits left in its queue and replay buffer dropped and counted (R305, R448). -/
def State.stopPort (s : State) (q : Nat) : State :=
  let x := s.port q
  let s := s.finc .linkRouteDrops q (x.queue.length + x.replay.length)
  let s := s.resetFields [.linkState, .linkWidth, .linkSpareUsed, .linkLanesFailed, .linkPartnerId, .linkPartnerPort] q
  s.setPort q Port.reset

/-- Ports follow the images in force: a newly enabled port trains, and one that no image enables any more drains, under the window
of partition p. -/
def State.setPorts (s : State) (p : Nat) (ports : List Nat) : State :=
  ports.foldl (fun s q =>
    let on := (s.portPart q).isSome
    if on && s.fget .linkState q == 0 then s.trainPort q
    else if !on && s.fget .linkState q != 0 && !(s.part p).drain.any (fun d => d.why == 5 && d.cmd == q) then
      let x := s.port q
      if x.queue.isEmpty && x.replay.isEmpty then s.stopPort q
      else s.modPart p (fun y => { y with drain := y.drain ++ [{ why := 5, cmd := q }] })
    else s) s

/-! ### Configuring a partition (R74, R77) -/

/-- The batch pool of a configuration: its first BATCH_POOL region. -/
def Cfg.batchPool (c : Cfg) : Option Region := (c.regionsOf 1 4).head?

/-- DEGRADED of FC_STATUS: some partition's image names a part that has been retired (R497). -/
def State.showDegraded (s : State) : State := s.fset .fcDegraded 0 (bitNat ((List.range 12).any (fun p => (s.part p).degraded)))

/-- A configuration and an epoch become current on partition p, as one change (R74). The epoch that was current joins the history of
R13, epoch 0 of power-on with the rest (log entry 88, DESIGN CHOICE). -/
def State.configure (s : State) (p : Nat) (c : Cfg) (digest : List Byte) (epoch : Nat) : State :=
  let old := (s.part p).cfg
  let was := s.fget .turnLayoutEpoch p
  let lost := (bitList 12 c.bays).filter (fun b => s.partOfBay b != some p) ++
    (bitList 12 old.bays).filter (fun b => !bitOf c.bays b && s.partOfBay b == some p)
  let pool := (old.batchPool.map (fun r => (r.base, r.size))) != (c.batchPool.map (fun r => (r.base, r.size)))
  let s := lost.foldl (fun s b => (s.setBay b Bay.reset).fset .seqState b 0) s
  let s := s.modPart p (fun x => { x with
    defined := true, cfg := c, epochs := if was = epoch then x.epochs else (was :: x.epochs).take 16,
    early := x.early.filter (fun m => m.vc == 5), relayed := [],
    colls := [], degraded := false, pool := if pool then [] else x.pool, poolTail := if pool then 0 else x.poolTail })
  let s := s.setEpoch p epoch
  let s := (List.range 8).foldl (fun s n => s.fset .ldrDigest (8 * p + n) (leField digest (4 * n + 3) (4 * n))) s
  let s := (s.setPorts p (List.range 24)).showDegraded
  (s.baysOf p).foldl (fun s b => if (s.bay b).stepping || (s.bay b).closing then s.writeTables p b else (s.writeTables p b).seqRest b) s

/-- A whole-device apply removes a partition: its bays idle, its digest reads zero; its epochs, its version and its PHASE are kept (R15, R74, R75). -/
def State.undefine (s : State) (p : Nat) : State :=
  let bays := s.baysOf p
  let s := bays.foldl (fun s b => (s.setBay b Bay.reset).fset .seqState b 0) s
  let s := s.modPart p (fun x => { x with
    defined := false, cfg := Cfg.empty, colls := [], early := [], relayed := [], pool := [], poolTail := 0, failed := [], degraded := false })
  let s := (List.range 8).foldl (fun s n => s.fset .ldrDigest (8 * p + n) 0) s
  s.setPorts p (List.range 24)

/-! ### Drain windows (R70, R300, R448, R449) -/

/-- The command waits in the loader, or is a turn command that runs. -/
def State.inLoader (s : State) (c : Cmd) : Bool := s.loader.any (fun j => j.cmd == c.id)
def Cmd.ofTurn (c : Cmd) : Bool := decide (0x60 ≤ c.op) && decide (c.op ≤ 0x62) && c.started

/-- A command lies in the scope of a disable of partition p that command `by` started (R70, R448). -/
def State.drains (s : State) (p why by_ : Nat) (c : Cmd) : Bool :=
  if why = 1 then c.fn == p + 1 || (c.part == p && c.op == 0x11)
  else c.part == p && c.id != by_ && (why == 2 || !s.inLoader c) && !(why == 0 && c.ofTurn)

/-- Work of a disable's scope is in flight: started commands, and for all but a quiesce rollout steps and open reductions (R300); for a
VF disable sequences too. -/
def State.busyScope (s : State) (p why by_ : Nat) : Bool :=
  s.cmds.any (fun c => s.drains p why by_ c) ||
    (why != 2 && ((s.baysOf p).any (fun b => (s.bay b).stepping) || !(s.part p).colls.isEmpty)) ||
    (why == 1 && (s.baysOf p).any (fun b => !(s.bay b).seqs.isEmpty))

/-- The start of a disable: commands not yet started complete with ABORTED, and a window runs while anything else is in flight
(R448). -/
def State.startDrain (s : State) (p why by_ : Nat) : State :=
  let waiting := s.cmds.filter (fun c => s.drains p why by_ c && !c.started)
  let s := waiting.foldl (fun s c => s.complete c Status.aborted 0 0) s
  let s := (s.fset .partAborted p waiting.length).fset .partAbortedDisable p 0
  if s.busyScope p why by_ then s.modPart p (fun x => { x with drain := x.drain ++ [{ why := why, cmd := by_ }] }) else s

/-- The collective belongs to a rollout step. -/
def State.rolloutColl (s : State) (c : Coll) : Bool := c.words.any (fun w => (s.tile w.1).rollout)

/-- The learn step of a partition stops, with its tiles, words, moves, collectives and kettle runs (R184, R266, R301). -/
def State.stopLearn (s : State) (p : Nat) : State :=
  let s := s.stopTiles (s.learnTiles p)
  let idle := (s.tilesOf p).filter (fun t => !(s.tile t).rollout)
  let s := idle.foldl (fun s t => s.failWords t (fun _ => true)) s
  let s := s.dropColls p (fun c => !s.rolloutColl c) true
  let s := (s.baysOf p).foldl (fun s b => if (s.kettle b).why = 1 then s.stopKettle b else s) s
  ({ s with moves := s.moves.filter (fun m => !idle.contains m.owner) }).modPart p (fun x => { x with step := none, exchanges := x.exchanges.filter (fun e => e.home.isSome) })

/-- Kettle runs of partition p of a kind (2 a sweep, 3 a resume) stop. -/
def State.stopRuns (s : State) (p why : Nat) : State :=
  (s.baysOf p).foldl (fun s b => if (s.kettle b).why = why then s.stopKettle b else s) s

/-- The engines stop what they do for commands of partition p whose id satisfies g; the commands themselves stay. -/
def State.haltFor (s : State) (p : Nat) (g : Nat → Bool) : State :=
  let x := s.part p
  let s := if x.step.any (fun st => g st.cmd) then s.stopLearn p else s
  let s := { s with moves := s.moves.filter (fun m => !(decide (96 ≤ m.owner) && g m.ref)) }
  let s := if s.cmds.any (fun c => g c.id && c.op == 0x78) then s.stopRuns p 3 else s
  let s :=
    if x.turn.any (fun t => [t.begin_, t.commit, t.abandon].any (fun i => i != 0 && g i)) then
      ((s.stopRuns p 2).modPart p (fun y => { y with install := none, fence := none })).haltTurn p
    else s
  let s := if x.refresh.any (fun r => g r.cmd) then s.dropRefresh p else s
  let s := s.modPart p (fun y => { y with
    flash := if y.flash.any (fun f => g f.cmd) then none else y.flash,
    fence := if y.fence.any (fun f => f.cmd != 0 && g f.cmd) then none else y.fence,
    putWait := y.putWait.filter (fun i => !g i) })
  let s := if x.replayRun.any (fun r => g r.cmd) then s.dropReplay p else s
  (s.baysOf p).foldl (fun s b => s.modBay b (fun y => { y with
    cancels := y.cancels.filter (fun c => !g c.2), edits := y.edits.filter (fun e => !g e.1) })) s

/-- The end of a window: what still runs is stopped with ABORTED_DISABLE, rollout steps with it, and open reductions are discarded
(R300, R388, R448). A VF disable ends every sequence without a record (R449). -/
def State.endDrain (s : State) (p : Nat) (d : Drain) : State :=
  if d.why = 5 then s.stopPort d.cmd
  else
    let gone := s.cmds.filter (fun c => s.drains p d.why d.cmd c)
    let s := s.haltFor p (fun i => gone.any (fun c => c.id == i))
    let s := gone.foldl (fun s c => s.complete c Status.abortedDisable 0 0) s
    let s := s.fset .partAbortedDisable p gone.length
    if d.why = 2 then s
    else
      let s := (s.baysOf p).foldl (fun s b => if (s.bay b).stepping then (s.failRollout b).endStep p b false else s) s
      let s := s.dropColls p (fun _ => true) true
      if d.why = 1 then (s.baysOf p).foldl (fun s b => s.dropSeqs b (fun _ => true)) s else s

/-! ### Jobs of the loader (R70 to R75) -/

/-- Partitions that a job affects. -/
def State.jobParts (s : State) (j : Job) : List Nat :=
  match s.image j.handle with
  | some g => if j.kind = 0 then s.affects g j.part else [j.part]
  | none => if j.part < 12 then [j.part] else []

/-- An IMAGE_APPLY accepted before command `cmd` still waits to start; the loader takes no later image before it (R71). -/
def State.applyAhead (s : State) (cmd : Nat) : Bool := s.cmds.any (fun c => c.op == 0x41 && !c.started && decide (c.id < cmd))

/-- What a job's drain is for (R448). -/
def Job.why (j : Job) : Nat := if j.kind = 4 then 3 else if j.kind = 5 then 4 else 0

/-- A drain window that the job waits for still runs. -/
def State.jobDrains (s : State) (j : Job) : Bool :=
  (s.jobParts j).any (fun p => (s.part p).drain.any (fun d => d.why == j.why && d.cmd == j.cmd))

/-- LOADER_STATUS shows BUSY while a job runs. -/
def State.showLoader (s : State) : State := s.fset .ldrBusy 0 (bitNat (s.loader.any Job.running))

/-- All jobs ahead of a job have ended, or they and it are sparges that run together (R462). -/
def mayRun : List Job → Job → Bool
  | [], _ => false
  | x :: rest, j => if x = j then true else x.running && x.kind == 4 && j.kind == 4 && x.part != j.part && mayRun rest j

/-- The loader may take a job: its turn has come, and no image accepted earlier still waits to reach the loader (R71). -/
def State.jobMayRun (s : State) (j : Job) : Bool := mayRun s.loader j && (j.kind == 4 || !s.applyAhead j.cmd)

def State.dropJob (s : State) (j : Job) : State := ({ s with loader := s.loader.filter (fun x => x != j) }).showLoader

/-- The bytes of a staged image as host memory now holds them match its digest (R66). -/
def State.unchanged (s : State) (g : Staged) : Bool := sha256 (s.hostRead g.addr g.len) == g.digest

/-- The loader takes a job: the checks of R66 and R68 for an image, then the drain window. A failure answers its status, and the job
leaves the loader. -/
def State.startJob (s : State) (j : Job) : State × Option Nat :=
  let go (s : State) : State × Option Nat :=
    let s := { s with loader := s.loader.map (fun x => if x = j then { x with running := true } else x) }
    let s := if j.kind = 4 ∧ j.part < 12 then (s.fset .spargePending j.part 1).fset .spargeRunning j.part 1 else s
    (((s.jobParts j).foldl (fun s p => if j.kind = 4 ∧ j.cmd = 0 then s else s.startDrain p j.why j.cmd) s).showLoader, none)
  if j.kind = 4 ∨ j.kind = 6 then go s
  else
    match s.image j.handle with
    | none => (s.dropJob j, some Status.badOperand)
    | some g =>
      if !s.unchanged g then ((s.dropJob j).lastApply j.part Why.changed, some Status.imageRejected)
      else if j.kind = 5 then go s
      else
        let (status, why) := s.applyRefusal g j.part j.epoch (j.kind == 0)
        if status = Status.imageRejected then ((s.dropJob j).lastApply j.part why, some status)
        else if status ≠ 0 then (s.dropJob j, some status)
        else go s

/-- PHASE after a stand-alone IMAGE_APPLY (R75). -/
def State.phaseAfter (s : State) (p : Nat) (was : Bool) (j : Job) : State :=
  let s := if j.enterLearn then s.modPart p (fun x => { x with learnEpoch := j.epoch }) else s
  s.fset .turnPhase p (if j.enterLearn then Phase.learn else if was then Phase.rollout else Phase.unconfigured)

/-- An armed capture starts with an apply that spargs (R498, R499): it needs its target. -/
def State.startCapture (s : State) (p : Nat) (digest : List Byte) : State :=
  let target := s.fget .rplTarget p
  let size := 64 * s.fget .rplSize p
  let ok :=
    if target = 0 then ((s.part p).cfg.regionsOf 1 8) != []
    else if target = 1 then size != 0 && size % 4096 == 0 && s.fget .rplBase p % 4096 == 0 && !s.confidential p
    else target == 2 && !s.confidential p
  if s.fget .rplState p ≠ 1 then s
  else if !ok then s.fset .rplState p 4
  else
    let s := (s.fset .rplState p 2).modPart p (fun x => { x with rseq := 0, replayGap := 0, replayHeld := [] })
    s.capture p 1 0 (digest ++ leBytes 2 (s.fget .turnLayoutEpoch p) ++ leBytes 2 (s.part p).cfg.deviceId ++ leBytes 4 (s.fget .turnPolicyVersion p) ++
      leBytes 2 (s.part p).cfg.bays)

/-- Apply the image of a job: sparge where asked, then remove, configure and digest (R70, R74, R77). -/
def State.applyImage (s : State) (j : Job) (g : Staged) : State :=
  let parts := g.configures j.part
  let gone := s.removes g
  let was := parts.filter (fun p => (s.part p).defined && s.fget .turnPhase p == Phase.rollout)
  let s :=
    if j.sparge then
      let bays := (List.range 12).filter (fun b => bitOf g.baySet b || gone.any (fun p => s.holds p b))
      s.sparge bays (s.affects g j.part)
    else s
  let s := gone.foldl (fun s p => s.undefine p) s
  let digest := sha256 (s.hostRead g.addr g.len ++ g.report)
  let s := parts.foldl (fun s p =>
    let c := if g.isPart then g.cfg else g.cfg.restrict (((g.masks.find? (fun m => m.1 == p)).map Prod.snd).getD 0)
    s.configure p c digest j.epoch) s
  let s := if j.kind = 0 ∧ j.sparge then parts.foldl (fun s p => s.startCapture p g.digest) s else s
  let s := if j.kind = 0 then parts.foldl (fun s p => s.phaseAfter p (was.contains p) j) s else s
  s.lastApply j.part 0

/-- The job does its work once its windows have ended, and leaves the loader with its status. An image whose sets no longer hold is
rejected (R69). -/
def State.finishJob (s : State) (j : Job) : State × Nat :=
  let s := s.dropJob j
  if j.kind = 4 then
    let s := s.sparge (s.baysOf j.part) [j.part]
    let s := if s.loader.any (fun x => x.part == j.part && (x.kind == 1 || x.kind == 2 || x.kind == 6)) then s
      else (s.modPart j.part (fun x => { x with turn := none })).fset .turnStep j.part 0
    (s.fset .turnPhase j.part Phase.unconfigured, Status.ok)
  else if j.kind = 5 then (s, Status.ok)
  else if j.kind = 6 then
    match (s.part j.part).turn with
    | some t => ((s.configure j.part t.oldCfg t.oldDigest t.oldEpoch).lastApply j.part 0, Status.ok)
    | none => (s, Status.ok)
  else
    match s.image j.handle with
    | none => (s, Status.badOperand)
    | some g =>
      match s.checkSets g.isPart g.baySet g.tileReq (g.masks.map Prod.snd) with
      | e :: _ => (s.lastApply j.part e.reason, Status.imageRejected)
      | [] => (s.applyImage j g, Status.ok)

/-- Put a job at the end of the loader's queue. -/
def State.addJob (s : State) (j : Job) : State := { s with loader := s.loader ++ [j] }

end Sys2Proof.Machine
end

