-- ==== Sys2Proof/Machine/Links.lean ====
section
/-!
DEFINITION. Lanoip ports (R305 to R324): training, lanes, the receiver, retransmission, routing of transit flits, and ports that go
down. Flits and a port's sender are in Machine/Flits.lean.
-/

namespace Sys2Proof.Machine

/-! ### Retransmission (R309, R311, R316) -/

/-- Every unacknowledged flit is to be sent again, under fresh credits after training. -/
def State.replayPort (s : State) (q : Nat) (fresh : Bool) : State :=
  State.pump 512 (s.modPort q (fun x => { x with resend := x.replay.length, fresh := fresh && !x.replay.isEmpty })) q

/-- A NAK: send again, or train again where a flit has been sent 8 times (R316). -/
def State.onNak (s : State) (q : Nat) : State :=
  if (s.port q).replay.any (fun e => decide (8 ≤ e.2.1)) then
    ((s.trainPort q).modPort q (fun x => { x with replay := x.replay.map (fun e => (e.1, 0, e.2.2)) })).raise Source.linkReplayLimit Kind.port q 0
  else s.replayPort q (s.port q).fresh

/-! ### Receiving (R315 to R317, R320, R321, R459, R483) -/

/-- The credit of an accepted flit is returned (R317). -/
def State.credit1 (s : State) (q vc : Nat) : State :=
  s.modPort q (fun x => { x with owed := Tab.set 0 x.owed vc (Tab.get 0 x.owed vc + 1) })

/-- A flit that arrived on port q is dropped: counted, and its credit is returned. -/
def State.dropFlit (s : State) (q : Nat) (f : BitVec 2048) : State := (s.credit1 q (flitVc f)).finc .linkRouteDrops q 1

/-- A context has been freed: one credit withheld on a port of partition p is given back (R315). -/
def State.giveBack (s : State) (p : Nat) : State :=
  match (List.range 24).find? (fun q => s.portPart q == some p && (s.port q).withheld.any (fun e => decide (1 ≤ e.2))) with
  | none => s
  | some q =>
    match (s.port q).withheld.find? (fun e => decide (1 ≤ e.2)) with
    | none => s
    | some e => (s.modPort q (fun x => { x with withheld := Tab.set 0 x.withheld e.1 (e.2 - 1) })).credit1 q e.1

/-- A delivered flit enters the reassembly context of its message, by SRC and VC; the last flit frees the context and hands the message
on. While all 1,024 contexts of each bay are in use, the credit of a new message is withheld (R315). -/
def State.reassemble (s : State) (p q : Nat) (f : BitVec 2048) : State :=
  let src := flitSrc f
  let vc := flitVc f
  let mine (r : Reasm) : Bool := r.part == p && r.src == src && r.vc == vc
  let first := bitOf (flitFlags f) 0
  let last := bitOf (flitFlags f) 1
  let rs := s.reasm.filter (fun r => !mine r)
  let fresh : Reasm := { part := p, src := src, vc := vc, ty := flitTy f, epoch := flitEpoch f, got := [], len := 0 }
  let old := if first then fresh else (s.reasm.find? mine).getD fresh
  let now : Reasm := { old with got := Mem.write old.got (flitOff f) (flitPayload f), len := max old.len (flitOff f + flitLen f) }
  let full := decide (1024 * (s.baysOf p).length ≤ (rs.filter (fun r => r.part == p)).length)
  if last then
    let had := s.reasm.any mine
    let s := { s with reasm := rs }.credit1 q vc
    let s := if had then s.giveBack p else s
    match msgOfWire src (flitDst f) vc now.ty now.epoch (Mem.read now.got 0 now.len) with
    | some m => { s with inbox := s.inbox ++ [(p, m)] }
    | none => s
  else
    let s := { s with reasm := now :: rs }
    if full && first then s.modPort q (fun x => { x with withheld := Tab.set 0 x.withheld vc (Tab.get 0 x.withheld vc + 1) })
    else s.credit1 q vc

/-- Delivery to the partition's own DEVICE_ID. -/
def State.deliver (s : State) (p q : Nat) (f : BitVec 2048) : State :=
  if (s.part p).deaf || s.fget .spargeRunning p == 1 || s.safe then s.dropFlit q f
  else if flitChecked f && flitEpoch f != s.fget .turnLayoutEpoch p then
    (s.credit1 q (flitVc f)).finc .redStale (s.lowBay p) 1
  else s.reassemble p q f

/-- A transit flit: forwarded by the partition's route table with HOPS + 1, or dropped (R320, R321). -/
def State.forward (s : State) (p q : Nat) (f : BitVec 2048) : State :=
  if flitHops f = 15 then (s.dropFlit q f).raise Source.hopLimit Kind.port q (flitDst f)
  else
    match s.route p (flitDst f) with
    | none => (s.dropFlit q f).raise Source.routeDrop Kind.port q (flitDst f)
    | some o => (s.credit1 q (flitVc f)).queueOn o [(stampFlit f (flitHops f + 1) 0 0 0, q)]

/-! ### Lanes and ports that go down (R308, R309, R324) -/

/-- The port's bay is in service and an image enables the port. -/
def State.portOn (s : State) (q : Nat) : Bool := decide (q < 24) && (s.portPart q).isSome && s.fget .bayRetired (q / 2) == 0

/-- A flit that waited on a port that went down is dropped: on the port it arrived on, or on the bay whose engine sent it (R320, R324). -/
def State.dropQueued (s : State) (e : BitVec 2048 × Nat) : State :=
  if e.2 < 24 then (s.finc .linkRouteDrops e.2 1).raise Source.routeDrop Kind.port e.2 (flitDst e.1)
  else if e.2 < 36 then s.localDrop (e.2 - 24) 1 (flitDst e.1) else s

/-- A port goes down: its unacknowledged flits move to the failover port ahead of any later one, or are discarded (R324). LANE flits never
leave their link (R313). -/
def State.portDown (s : State) (q : Nat) : State :=
  let x := s.port q
  let s := ((s.fset .linkState q 3).fset .linkWidth q 0).fset .linkSpareUsed q 0
  let s :=
    match (s.portPart q).bind (fun p => s.outPort p q) with
    | some f =>
      let moved : List (BitVec 2048 × Nat) :=
        (x.replay.map (fun e : BitVec 2048 × Nat × Nat => (e.1, e.2.2)) ++ x.queue).filter (fun e => flitTy e.1 != 7)
      (s.setPort q Port.reset).queueOn f moved
    | none =>
      let s := (s.setPort q Port.reset).finc .linkRouteDrops q x.replay.length
      x.queue.foldl (fun s e => s.dropQueued e) s
  s.raise Source.linkDown Kind.port q 0

/-- Physical lanes that have not failed. -/
def goodLanes (mask : Nat) : Nat := 5 - (bitList 5 mask).length

/-- The handshake that moves a lane at the other end: a LANE flit whose payload is the lane (R308, R313; log entry 132). -/
def State.sendLane (s : State) (q lane : Nat) : State :=
  let own := ((s.portPart q).map (fun p => (s.part p).cfg.deviceId)).getD 0
  s.queueOn q [(formFlit (s.fget .linkPartnerId q) own 6 7 3 0 0 (leBytes 1 lane), 255)]

/-- A lane fails: the spare takes over, or the port re-stripes, or it goes down (R308, R309). `tell`: it was found at this end. -/
def State.laneFails (s : State) (q lane : Nat) (tell : Bool) : State :=
  let mask := s.fget .linkLanesFailed q
  if 5 ≤ lane ∨ s.fget .linkState q ≠ 2 ∨ bitOf mask lane then s
  else
    let used := s.fget .linkSpareUsed q == 1
    let s := (s.fset .linkLanesFailed q (mask + 2 ^ lane)).raise Source.laneFailed Kind.port q lane
    let s := if tell then s.sendLane q lane else s
    if lane = 4 ∧ !used then s
    else if !used && !bitOf mask 4 then s.fset .linkSpareUsed q 1
    else
      let s := if lane = 4 then s.fset .linkSpareUsed q 0 else s
      if goodLanes (mask + 2 ^ lane) < 2 then (s.raise Source.linkDegraded Kind.port q 0).portDown q
      else s.modPort q (fun x => { x with restriping := true })

/-- A flit accepted in order. -/
def State.acceptFlit (s : State) (q : Nat) (f : BitVec 2048) : State :=
  let s := (s.modPort q (fun x => { x with rxSeq := (x.rxSeq + 1) % 256, naking := false, ackDue := true })).finc .linkRxFlits q 1
  if flitTy f = 7 then (s.credit1 q 6).laneFails q (leField (flitPayload f) 0 0) false
  else
    match s.portPart q with
    | none => s.credit1 q (flitVc f)
    | some p => if flitDst f = (s.part p).cfg.deviceId then s.deliver p q f else s.forward p q f

/-- The link fields of a flit that passes its CRC are acted on before anything else (R314). While the port re-stripes, a NAK only marks what
is to be sent again (R309). -/
def State.linkFields (s : State) (q : Nat) (f : BitVec 2048) : State :=
  let vc := flitCredit f % 8
  let s := s.modPort q (fun x =>
    let kept := afterAck (flitAck f) x.replay
    { x with replay := kept, resend := min x.resend kept.length,
             credit := Tab.set 0 x.credit vc (Tab.get 0 x.credit vc + flitCredit f / 8) })
  if bitOf (flitFlags f) 2 then s.onNak q else s

/-- A flit fails its CRC: it and every later one are dropped until the replay, and a NAK names the last good one (R316). Its FEC had words
that it could not correct; how many, and how many it did correct, nothing but the line tells (log entry 133). -/
def State.crcFails (s : State) (q : Nat) : State :=
  let (n, s) := s.free1
  let s := (s.modPort q (fun x => { x with nakDue := x.nakDue || !x.naking, naking := true })).finc .linkCrcErrors q 1
  State.pump 512 (s.finc .linkFecUncorrectable q n) q

/-- A flit that breaks R312 or R313 is dropped, and its credit is returned (R315); an IDLE flit has taken none. -/
def State.badFlit (s : State) (q : Nat) (f : BitVec 2048) : State :=
  let s :=
    if flitTy f = 0 then s
    else (s.modPort q (fun x => { x with rxSeq := (x.rxSeq + 1) % 256, naking := false, ackDue := true })).credit1 q (flitVc f)
  s.raise Source.linkProtocol Kind.port q 0

/-- A flit arrives on a port (R314 to R317, R320, R321); in standby it holds no flit (R510). -/
def State.takeFlit (s : State) (q : Nat) (f : BitVec 2048) : State :=
  if 24 ≤ q ∨ s.fget .linkState q ≠ 2 ∨ s.standby then s
  else
    let (n, s) := s.free1
    let s := s.finc .linkFecCorrected q n
    if !flitCrcOk f then s.crcFails q
    else
      let s := s.linkFields q f
      if s.fget .linkState q ≠ 2 then s
      else if flitTy f ≠ 0 ∧ flitSeq f ≠ (s.port q).rxSeq then s
      else
        let s := if !flitLegal f then s.badFlit q f else if flitTy f = 0 then s else s.acceptFlit q f
        State.pump 512 s q

/-! ### The rows of ports (R308 to R311, R319, R324) -/

/-- LANE_FAILED (R308, R309). -/
def execLaneFailed (port lane : Nat) (s : State) : Host.Outcome State Fault Refusal := .next (if 24 ≤ port then s else (s.laneFails port lane true).settle)

/-- RESTRIPE_COMPLETE (R309). -/
def execRestripeComplete (port : Nat) (s : State) : Host.Outcome State Fault Refusal :=
  .next (
    if s.fget .linkState port ≠ 2 ∨ (s.port port).restriping = false then s
    else
      let s := (s.modPort port (fun x => { x with restriping := false })).fset .linkWidth port (min 4 (goodLanes (s.fget .linkLanesFailed port)))
      (s.replayPort port (s.port port).fresh).raise Source.linkDegraded Kind.port port 0)

/-- PARTNER_TRAINING (R311): also during the pause after a failed attempt. -/
def execPartnerTraining (port : Nat) (s : State) : Host.Outcome State Fault Refusal :=
  .next (if s.portOn port && (s.fget .linkState port == 1 || s.fget .linkState port == 2) then s.trainPort port else s)

/-- Credits that the port advertises when it trains: VC_CREDITS of its partition's image (R311, R317). -/
def State.ownCredits (s : State) (q : Nat) : Tab Nat :=
  match s.portPart q with
  | none => []
  | some p => (List.range 8).foldl (fun m v => Tab.set 0 m v (Tab.get 16 (s.part p).cfg.credits (8 * q + v))) []

/-- LINK_UP (R311): STATE reads UP, the partner is known, each end has advertised its credits, and unacknowledged flits are sent again. -/
def execLinkUp (port partnerId partnerPort : Nat) (credits : List Nat) (s : State) : Host.Outcome State Fault Refusal :=
  .next (
    if !s.portOn port || s.fget .linkState port != 1 || (s.port port).pausing then s
    else
      let s := (((s.fset .linkState port 2).fset .linkWidth port 4).fset .linkPartnerId port partnerId).fset .linkPartnerPort port partnerPort
      let s := s.modPort port (fun x => { x with
        credit := credits.zipIdx.foldl (fun m c => if c.2 < 8 then Tab.set 0 m c.2 c.1 else m) [], offered := s.ownCredits port })
      s.replayPort port true)

/-- LINK_TRAIN_FAIL (R311). -/
def execLinkTrainFail (port : Nat) (s : State) : Host.Outcome State Fault Refusal :=
  .next (
    if s.portOn port && s.fget .linkState port == 1 && !(s.port port).pausing then
      (s.modPort port (fun x => { x with pausing := true })).raise Source.linkTrainFail Kind.port port 0
    else s)

/-- LINK_TRAIN_RETRY (R311). -/
def execLinkTrainRetry (port : Nat) (s : State) : Host.Outcome State Fault Refusal :=
  .next (if s.portOn port && s.fget .linkState port == 1 && (s.port port).pausing then s.trainPort port else s)

/-- CREDIT_STALL (R319): also on a port that trains, which holds no credit. The wait has lasted LINK_STALL_LIMIT µs at least; what it has
lasted beyond, nothing tells (log entry 133). -/
def execCreditStall (port vc : Nat) (s : State) : Host.Outcome State Fault Refusal :=
  .next (
    let x := s.port port
    if (s.fget .linkState port == 1 || s.fget .linkState port == 2) && x.queue.any (fun e => flitVc e.1 == vc) &&
        Tab.get 0 x.credit vc == 0 then
      let (n, s) := s.free1
      (s.finc .linkStallUs port (s.fget .linkStallLimit port + n)).raise Source.creditStall Kind.port port vc
    else s)

/-- LINK_DOWN (R324). -/
def execLinkDown (port : Nat) (s : State) : Host.Outcome State Fault Refusal :=
  .next (if s.portOn port && (s.fget .linkState port == 1 || s.fget .linkState port == 2) then (s.portDown port).settle else s)

/-- RETRAIN (R311, R324, R330). -/
def execRetrain (port : Nat) (s : State) : Host.Outcome State Fault Refusal :=
  .next (if s.portOn port && s.fget .linkState port != 0 then s.trainPort port else s)

end Sys2Proof.Machine
end

