-- ==== Sys2Proof/Machine/Commands.lean ====
section
/-!
DEFINITION. The host commands NOP, PROG_LOAD and FILL, a descriptor with an opcode that is not defined (R438, R439, R441, R528), and
what the commands that move data share: their failures, and the parking of optimiser state (R228, R229).
-/

namespace Sys2Proof.Machine

/-! ### Failures of a host command (R44, R50, R409, R446, R495) -/

/-- Where a command's fault is raised: data errors on the instance that owns the address, the others on the partition's lowest bay. -/
def State.faultAt (s : State) (p : Nat) (f : Nat × Nat) : State :=
  let (k, i) := if isDataError f.1 then instOf f.2 else (Kind.bay, s.lowBay p)
  s.raise f.1 k i f.2

/-- DETAIL of a command that a transfer failed: the source of a data error (R495). -/
def transferDetail (source : Nat) : Nat := if isDataError source then detailOf source none else 0

/-- A command fails on a transfer: it completes, and the source is raised. -/
def State.failCmd (s : State) (c : Cmd) (f : Nat × Nat) : State :=
  (s.complete c (transferStatus f.1) 0 (transferDetail f.1)).faultAt c.part f

/-- A host operand of the command failed its tag. -/
def State.failTag (s : State) (c : Cmd) : State := (s.complete c Status.tagFailed 0 0).segmentFailed c

/-- The PF may not move a confidential partition's data (R444). -/
def State.pfBarred (s : State) (fn p : Nat) : Bool := fn == 0 && s.confidential p

/-! ### NOP and opcodes that are not defined -/

/-- NOP (R438). -/
def execNop (fn ring : Nat) (s : State) : Host.Outcome State Fault Refusal :=
  .next (s.hostCmd fn ring 0x00
    (fun _ d => { op := 0x00, fnOk := true, part := 0xFF, spargeOk := true, operands := dZero d 63 16 })
    (fun _ _ => 0) (fun s c => s.complete c Status.ok 0 0))

/-- RESERVED_OPCODE (R528). A sealed descriptor that fails its tag is taken here too. -/
def execReservedOpcode (fn ring : Nat) (s : State) : Host.Outcome State Fault Refusal :=
  let op := ((s.slotDesc fn ring).map (fun d => dField d 0 0)).getD 0xFF
  .next (
    if opDefined op then s
    else s.hostCmd fn ring op (fun _ _ => { op := op, fnOk := true, part := 0xFF, spargeOk := true, operands := true }) (fun _ _ => 0)
      (fun s _ => s))

/-! ### PROG_LOAD (R155, R439) -/

/-- The tiles that a PROG_LOAD names. -/
def State.progTiles (s : State) (d : BitVec 512) : List Nat :=
  let p := dField d 16 16
  if dField d 18 18 = 0xFF then (s.tilesOf p).filter (fun t => bitOf (dField d 17 17) (s.role p t) && s.role p t != 0)
  else [dField d 18 18]

/-- A step runs on the partition: a learn step, or a rollout step of a bay. -/
def State.stepRuns (s : State) (p : Nat) : Bool := (s.part p).step.isSome || (s.baysOf p).any (fun b => (s.bay b).stepping)

/-- Copy command words into one program store. -/
def State.loadProg (s : State) (t off : Nat) (bs : List Byte) : State :=
  s.modTile t (fun x => (List.range (bs.length / 16)).foldl (fun x i =>
    { x with prog := Tab.set 0 x.prog (off + i) (BitVec.ofNat 128 (leNat ((bs.drop (16 * i)).take 16))),
             progBad := Tab.set false x.progBad (off + i) false }) x)

/-- The start of PROG_LOAD. -/
def State.runProgLoad (s : State) (c : Cmd) : State :=
  if s.stepRuns c.part then s.complete c Status.busy 0 0
  else
  let (bs, ok, s) := s.hostTake c (c.arg 31 24) (16 * c.arg 35 34)
  if !ok then s.failTag c
  else
    let s := (s.progTiles c.desc).foldl (fun s t => s.loadProg t (c.arg 33 32) bs) s
    let s := if bitOf (c.arg 19 19) 0 then
        s.modPart c.part (fun x => { x with decodeEntry := c.arg 37 36, draftEntry := c.arg 39 38 }) else s
    s.complete c Status.ok 0 0

/-- PROG_LOAD (R439). -/
def execProgLoad (fn ring : Nat) (s : State) : Host.Outcome State Fault Refusal :=
  .next (s.hostCmd fn ring 0x10
    (fun s d =>
      let p := dField d 16 16
      let t := dField d 18 18
      { op := 0x10, fnOk := pfOrVf fn p, part := p, spargeOk := false,
        operands := s.partDefined p && dField d 17 17 % 2 == 0 && decide (dField d 17 17 < 32) && decide (dField d 19 19 < 2) &&
          dZero d 23 20 && dZero d 63 40 && decide (1 ≤ dField d 35 34) && decide (dField d 33 32 + dField d 35 34 ≤ 16384) &&
          (t == 0xFF || (dField d 17 17 == 0 && s.mapped t && s.holds p (t / 8))) })
    (fun s d => if s.pfBarred fn (dField d 16 16) then Status.badState else 0)
    (fun s c => s.runProgLoad c))

/-! ### FILL (R409, R441) -/

/-- Write an 8-byte pattern over pieces of device memory, each a multiple of 8 bytes. -/
def State.fillPieces (s : State) (pat : Nat) : List (Nat × Nat) → State
  | [] => s
  | (a, n) :: rest =>
    State.fillPieces (if pat = 0 then s.devZero a n else s.devWrite a ((List.range (n / 8)).flatMap (fun _ => leBytes 8 pat))) pat rest

/-- No sequence is live or queued on the partition and no step runs, so that the fill engine may write page tables (R409). -/
def State.tablesIdle (s : State) (p : Nat) : Bool := !s.stepRuns p && (s.baysOf p).all (fun b => (s.bay b).seqs.isEmpty)

/-- A range lies in HBM or LPDDR5X. -/
def inDram (a len : Nat) : Bool :=
  len == 0 || (match spaceOf a, spaceOf (a + len - 1) with
    | .hbm _ _, .hbm _ _ => true
    | .lp _ _, .lp _ _ => true
    | _, _ => false)

/-- The start of FILL. -/
def State.runFill (s : State) (c : Cmd) : State :=
  let p := c.part
  let a := c.arg 31 24
  let n := c.arg 39 32
  if a % 64 ≠ 0 ∨ n % 64 ≠ 0 then s.complete c Status.badAddress 0 0
  else
    match s.accessFault p a n true with
    | some src => s.failCmd c (src, a)
    | none =>
      if !inDram a n then s.complete c Status.badAddress 0 0
      else if s.touchesTable p a n && !s.tablesIdle p then s.failCmd c (Source.pageTableWrite, a)
      else ((s.fillPieces (c.arg 47 40) (s.pieces p a n true)).countSpill p a n).complete c Status.ok 0 0

/-- FILL (R441). -/
def execFill (fn ring : Nat) (s : State) : Host.Outcome State Fault Refusal :=
  .next (s.hostCmd fn ring 0x13
    (fun s d =>
      { op := 0x13, fnOk := fn == 0, part := dField d 16 16, spargeOk := true,
        operands := s.partDefined (dField d 16 16) && dZero d 23 17 && dZero d 63 48 })
    (fun _ _ => 0) (fun s c => s.runFill c))

/-! ### Parking (R213, R228, R229) -/

/-- Pairs of optimiser regions, HBM and LPDDR5X, in ascending index within each bay (R228). -/
def Cfg.parkPairs (c : Cfg) : List (Region × Region) :=
  (List.range 12).flatMap (fun b =>
    ((c.regionsOf 0 2).filter (fun r => hbmBay r == b)).zip ((c.regionsOf 1 2).filter (fun r => lpBay r == b)))

/-- Every optimiser region has its pair, of equal SIZE. -/
def Cfg.parkOk (c : Cfg) : Bool :=
  (List.range 12).all (fun b =>
    ((c.regionsOf 0 2).filter (fun r => hbmBay r == b)).map Region.size == ((c.regionsOf 1 2).filter (fun r => lpBay r == b)).map Region.size)

/-- Bytes of a segment under R213, R230. -/
def segBytes : Nat := 2 ^ 21

/-- Cut bytes into segments. -/
def segmentsOf (bs : List Byte) : List (List Byte) := (List.range (ceilDiv bs.length segBytes)).map (fun i => (bs.drop (segBytes * i)).take segBytes)

/-- Write LPDDR5X with a CRC-64 for each segment, kept as the CRC plus 1 (R213). -/
def State.putParked (s : State) (p a : Nat) (bs : List Byte) : State :=
  let s := s.devWrite a bs
  s.modPart p (fun x => { x with
    parkCrc := (segmentsOf bs).zipIdx.foldl (fun m g => Tab.set 0 m (a + segBytes * g.2) (crc64 g.1 + 1)) x.parkCrc })

/-- Read LPDDR5X written by `putParked`: a failing transfer or a segment that fails its CRC is LPDDR_DATA_ERROR (R213). -/
def State.parkedFault (s : State) (p a n : Nat) : Option (Nat × Nat) :=
  if s.badRange a n then some (Source.lpddrDataError, a)
  else
    ((segmentsOf (s.devRead a n)).zipIdx.find? (fun g =>
      let want := Tab.get 0 (s.part p).parkCrc (a + segBytes * g.2)
      want != 0 && want != crc64 g.1 + 1)).map (fun g => (Source.lpddrDataError, a + segBytes * g.2))

/-- Put a copy in flight on the engines of the bays. -/
def State.addCopy (s : State) (why ref src dst len : Nat) : State := s.addMove 97 why ref 0 src dst len

/-- Start the moves of a park (or unpark) for command `ref` (R228). -/
def State.startPark (s : State) (p ref : Nat) (unpark : Bool) : State :=
  (s.part p).cfg.parkPairs.foldl (fun s x =>
    if unpark then s.addCopy 8 ref x.2.base x.1.base x.1.size else s.addCopy 7 ref x.1.base x.2.base x.1.size) s

/-- A park or unpark move reads and writes: the state, or the fault that fails it. -/
def State.parkCopy (s : State) (p : Nat) (m : Move) : State × Option (Nat × Nat) :=
  if m.why = 8 ∨ m.why = 14 then
    match s.parkedFault p m.src m.len with
    | some f => (s, some f)
    | none => (s.devWrite m.dst (s.devRead m.src m.len), none)
  else if s.badRange m.src m.len then (s, some (badSource m.src, m.src))
  else (s.putParked p m.dst (s.devRead m.src m.len), none)

/-- Moves that command `ref` has in flight. -/
def State.cmdMoves (s : State) (ref : Nat) : List Move := s.moves.filter (fun m => decide (96 ≤ m.owner) && m.ref == ref)

/-- The moves of a command are dropped. -/
def State.dropCmdMoves (s : State) (ref : Nat) : State := { s with moves := s.moves.filter (fun m => !(decide (96 ≤ m.owner) && m.ref == ref)) }

end Sys2Proof.Machine
end

