-- ==== Sys2Proof/Machine/Tiers.lean ====
section
/-!
DEFINITION. The tier commands (R228 to R239): MOVE, STATE_MOVE, the flash commands, checkpoints with their buddy copies, and NS_CLEAR.
Flash bytes lie at their window addresses (R215).
-/

namespace Sys2Proof.Machine

/-! ### Common checks (R236) -/

/-- What the common checks need of a tier command: the PF or the VF of PART, and its own reserved bytes. -/
def State.tierSpec (s : State) (fn op : Nat) (d : BitVec 512) (ok : Bool) : Spec :=
  { op := op, fnOk := true, part := dField d 16 16, spargeOk := false,
    operands := pfOrVf fn (dField d 16 16) && s.partDefined (dField d 16 16) && ok }

/-- A turn is open on the partition. -/
def State.inTurn (s : State) (p : Nat) : Bool := (s.part p).turn.isSome

/-! ### MOVE (R218, R221) -/

/-- The chip move engine has a place for c, and no MOVE submitted before it still waits for one (R221). -/
def State.movePlace (s : State) (c : Cmd) : Bool :=
  decide ((s.movesOf 96).length < 32) && !s.cmds.any (fun e => e.op == 0x70 && e.stage == 3 && decide (e.id < c.id))

/-- The start of MOVE: the descriptor, its ranges, and a place among the 32 moves of the chip move engine; until it has one the
command stays unstarted. -/
def State.runMove (s : State) (c : Cmd) : State :=
  if !s.movePlace c then s.modCmd c.id (fun c => { c with started := false, stage := 3 })
  else
    let s := s.modCmd c.id (fun c => { c with stage := 0 })
    let (bs, ok, s) := s.hostTake c (c.arg 31 24) 64
    if !ok then s.failTag c
    else
      let d := BitVec.ofNat 512 (leNat bs)
      let m := moveD d
      if !m.legal (s.part c.part).cfg true then s.complete c Status.badOperand 0 0
      else if (m.st == 4 || m.dt == 4) && s.pfBarred c.fn c.part then s.complete c Status.badState 0 0
      else
        match s.moveAddrs c.part m with
        | some f => s.failCmd c f
        | none => s.addMove 96 2 c.id d m.src m.dst 0

/-- MOVE (R218). -/
def execMove (fn ring : Nat) (s : State) : Host.Outcome State Fault Refusal :=
  .next (s.hostCmd fn ring 0x70 (fun s d => s.tierSpec fn 0x70 d (dZero d 23 17 && dZero d 63 32)) (fun _ _ => 0) (fun s c => s.runMove c))

/-- A host move lands. It carries no seed and runs outside a learn step: both are 0 (R96). -/
def State.landHost (s : State) (m : Move) : State :=
  let s := s.dropMove m.id
  match s.cmd m.ref with
  | none => s
  | some c =>
    let d := moveD m.desc
    let s := s.moveFlash c.part d
    let s := if d.st = 4 then (s.hostTake c d.src ((d.rows - 1) * d.sstride + fmtBytes d.sf d.cols)).2.2 else s
    match s.moveRun c.part (Kind.bay, s.lowBay c.part) (some c) 0 0 d with
    | .ok s' => s'.complete c Status.ok 0 0
    | .bad _ => s.complete c Status.badOperand 0 0
    | .fail source _ _ info =>
      if source = Source.gcmTagFailed then s.failTag c else s.failCmd c (source, info)

/-! ### STATE_MOVE (R228, R229) -/

/-- The later checks of STATE_MOVE, which a late start meets again (R267, R272). -/
def State.stateMoveRefusal (s : State) (p : Nat) : Nat :=
  if s.inTurn p || s.journalOpen p || s.stepRuns p || !(s.part p).cfg.parkOk then Status.badState else 0

/-- The start of STATE_MOVE. -/
def State.runStateMove (s : State) (c : Cmd) : State :=
  let pairs := (s.part c.part).cfg.parkPairs
  let bad := s.stateMoveRefusal c.part
  if bad ≠ 0 then s.complete c bad 0 0
  else if pairs.isEmpty then s.complete c Status.ok 0 0 else s.startPark c.part c.id (c.arg 17 17 == 1)

/-- STATE_MOVE (R228). -/
def execStateMove (fn ring : Nat) (s : State) : Host.Outcome State Fault Refusal :=
  .next (s.hostCmd fn ring 0x71 (fun s d => s.tierSpec fn 0x71 d (decide (dField d 17 17 < 2) && dZero d 63 18))
    (fun s d => s.stateMoveRefusal (dField d 16 16)) (fun s c => s.runStateMove c))

/-- A park or unpark move of a command lands: the command completes with its last move, or fails (R229). -/
def State.landPark (s : State) (m : Move) : State :=
  let s := s.dropMove m.id
  match s.cmd m.ref with
  | none => s
  | some c =>
    match s.parkCopy c.part m with
    | (s, some f) => (s.dropCmdMoves m.ref).failCmd c f
    | (s, none) => if c.op = 0x71 ∧ (s.cmdMoves m.ref).isEmpty then s.complete c Status.ok 0 0 else s

/-! ### Slots and generations (R230, R231) -/

/-- User-space base of slot i of partition p, and bytes of a slot. -/
def State.slotSize (s : State) (p : Nat) : Nat := s.fget .flashCkptSlot p * 2 ^ 30
def State.slotBase (s : State) (p i : Nat) : Nat := (s.nsRange p).1 + i * s.slotSize p

def pageBytes : Nat := 16384

/-- Read user space. -/
def State.flashRead (s : State) (x n : Nat) : List Byte := s.devRead (flashBase + x) n

/-- First byte of a slot's trailer page. -/
def State.trailerAt (s : State) (p slot : Nat) : Nat := slot + s.slotSize p - pageBytes

/-- The trailer of the slot at user byte `slot`. -/
def State.trailer (s : State) (p slot : Nat) : List Byte := s.flashRead (s.trailerAt p slot) 64

def trailerStep (tr : List Byte) : Nat := leField tr 15 8
def trailerLen (tr : List Byte) : Nat := leField tr 39 32
def trailerSegs (tr : List Byte) : Nat := leField tr 43 40

/-- The slot holds a valid generation (R231). -/
def State.slotValid (s : State) (p slot : Nat) : Bool :=
  let tr := s.trailer p slot
  s.slotSize p != 0 && leField tr 3 0 == 0x4C544B43 && leField tr 63 56 == crc64 (tr.take 56) &&
    leField tr 55 48 == crc64 (s.flashRead (slot + trailerLen tr) (8 * trailerSegs tr))

/-- The pair of slots OWN (0) or BUDDY (2), and those that hold valid generations. -/
def State.slotPair (s : State) (p first : Nat) : List Nat := [s.slotBase p first, s.slotBase p (first + 1)]
def State.validSlots (s : State) (p first : Nat) : List Nat := (s.slotPair p first).filter (fun x => s.slotValid p x)

/-- The newest of a list of slots. -/
def State.newest (s : State) (p : Nat) (slots : List Nat) : Option Nat :=
  (orderedBy (fun a b => decide (trailerStep (s.trailer p b) ≤ trailerStep (s.trailer p a))) slots).head?

/-- The slot that a write targets: the one that does not hold the newest valid generation (R232). -/
def State.targetSlot (s : State) (p first : Nat) : Nat :=
  match s.newest p (s.validSlots p first) with
  | some x => if x = s.slotBase p first then s.slotBase p (first + 1) else s.slotBase p first
  | none => s.slotBase p first

/-- The valid slot of a step, or the newest where the step is 0 (R234). -/
def State.slotOfStep (s : State) (p first step : Nat) : Option Nat :=
  if step = 0 then s.newest p (s.validSlots p first)
  else (s.validSlots p first).find? (fun x => trailerStep (s.trailer p x) == step)

/-- OWN_A_VALID and OWN_B_VALID follow the slots. -/
def State.showSlots (s : State) (p : Nat) : State :=
  (s.fset .flashOwnAValid p (bitNat (s.slotValid p (s.slotBase p 0)))).fset .flashOwnBValid p (bitNat (s.slotValid p (s.slotBase p 1)))

/-- Segment i of the generation in a slot, and the CRC-64 its table gives. -/
def State.slotSegment (s : State) (p slot i : Nat) : List Byte × Nat :=
  let tr := s.trailer p slot
  let n := trailerLen tr
  (s.flashRead (slot + segBytes * i) (min segBytes (n - segBytes * i)), leNat (s.flashRead (slot + n + 8 * i) 8))

/-- The segment table of region data. -/
def tableOf (data : List Byte) : List Byte := (segmentsOf data).flatMap (fun g => leBytes 8 (crc64 g))

/-- A trailer (*Checkpoint trailer*). -/
def trailerBytes (step owner comm rank epoch version : Nat) (data : List Byte) : List Byte :=
  let t := tableOf data
  let head := leBytes 4 0x4C544B43 ++ leBytes 4 1 ++ leBytes 8 step ++ leBytes 2 owner ++ leBytes 2 comm ++ leBytes 4 rank ++ leBytes 2 epoch ++
    leBytes 2 0 ++ leBytes 4 version ++ leBytes 8 data.length ++ leBytes 4 (t.length / 8) ++ leBytes 4 0 ++ leBytes 8 (crc64 t)
  head ++ leBytes 8 (crc64 head)

/-! ### Optimiser data (R230, R232, R234) -/

/-- The regions that hold the owned optimiser state: the park area, or HBM. -/
def State.optimiser (s : State) (p : Nat) (parked : Bool) : List Region := (s.part p).cfg.regionsOf (bitNat parked) 2

/-- The state is parked now: in every phase but LEARN. -/
def State.parkedNow (s : State) (p : Nat) : Bool := s.fget .turnPhase p != Phase.learn

def regionsLen (rs : List Region) : Nat := rs.foldl (fun n r => n + r.size) 0

/-- Read regions end to end. -/
def State.readRegions (s : State) (rs : List Region) : List Byte := rs.flatMap (fun r => s.devRead r.base r.size)

/-- The fault of reading regions: HBM codewords, link errors and parked segments (R211, R213). -/
def State.regionsFault (s : State) (p : Nat) (rs : List Region) : Option (Nat × Nat) :=
  rs.findSome? (fun r =>
    if r.kind = 1 then s.parkedFault p r.base r.size else if s.badRange r.base r.size then some (badSource r.base, r.base) else none)

/-- Write data over regions laid end to end; parked regions take their segment CRCs. -/
def State.writeRegions (s : State) (p : Nat) : List Region → List Byte → State
  | [], _ => s
  | r :: rest, bs =>
    let here := bs.take r.size
    State.writeRegions (if r.kind = 1 then s.putParked p r.base here else s.devWrite r.base here) p rest (bs.drop r.size)

/-! ### CKPT_WRITE (R232, R233) -/

def State.modFlash (s : State) (p : Nat) (f : Flash → Flash) : State := s.modPart p (fun x => { x with flash := x.flash.map f })

/-- The flash controller's command of a partition ends with a status. -/
def State.endFlash (s : State) (p status detail : Nat) : State :=
  match (s.part p).flash with
  | none => s
  | some f =>
    ((((s.modPart p (fun x => { x with flash := none })).fset .flashCkptState p 0).fset .flashProgress p 0).showSlots p).finish f.cmd status
      0 detail

/-- A checkpoint command fails on a read. -/
def State.failFlash (s : State) (p : Nat) (f : Nat × Nat) : State :=
  (s.endFlash p (transferStatus f.1) (transferDetail f.1)).faultAt p f

/-- The epoch of the learn image: the applied one in LEARN phase, else the one that the last learn image of the partition applied (R230). -/
def State.learnEpochOf (s : State) (p : Nat) : Nat :=
  if s.fget .turnPhase p = Phase.learn then s.fget .turnLayoutEpoch p else (s.part p).learnEpoch

/-- Send the stream of a generation to a device, one message a segment (R233; log entry 32). -/
def State.streamTo (s : State) (p : Nat) (k : Comm) (rank step : Nat) (data : List Byte) : State :=
  let version := s.fget .turnPolicyVersion p
  (segmentsOf data).zipIdx.foldl (fun s g =>
    s.toRank p k rank { Msg.empty with
      vc := Vc.broadcast, ty := Ty.stream, op := MsgOp.buddy, seg := g.2,
      args := [step, data.length, s.learnEpochOf p, version], data := g.1 }) s

/-- The region data is read: it is programmed, and streamed to the buddy holder (step 2 of R232). -/
def State.ckptRead (s : State) (p : Nat) (f : Flash) (rs : List Region) : State :=
  match s.regionsFault p rs with
  | some e => s.failFlash p e
  | none =>
    let total := regionsLen (s.optimiser p f.parked)
    let data := (s.readRegions rs).take total
    let s := s.modFlash p (fun g => { g with stage := 2, data := data })
    let s := s.fset .flashCkptState p 2
    match (s.part p).cfg.comm f.comm with
    | some k => s.streamTo p k k.buddy f.step data
    | none => s

/-- The start of CKPT_WRITE: the trim of the target's trailer page begins, and from now on the slot holds no valid generation (step 1 of R232,
R235). -/
def State.runCkptWrite (s : State) (c : Cmd) : State :=
  let p := c.part
  if (s.part p).flash.isSome then s.modCmd c.id (fun c => { c with started := false })
  else
  let f : Flash := { kind := 0, cmd := c.id, stage := 0, slot := s.targetSlot p 0, step := c.arg 31 24, comm := c.arg 17 17, rank := 0, data := [],
                     missing := [], buddyOk := false, parked := s.parkedNow p }
  let s := (s.devZero (flashBase + s.trailerAt p f.slot) pageBytes).showSlots p
  (s.modPart p (fun x => { x with flash := some f })).fset .flashCkptState p (if f.parked then 2 else 1)

/-- The phases in which a checkpoint command finds the state of the turn in motion (R232). -/
def State.turning (s : State) (p : Nat) : Bool :=
  [Phase.turnIn, Phase.turnOut, Phase.abandoning].contains (s.fget .turnPhase p)

/-- A generation of the optimiser state fits its slot (R230, R237), and in LEARN phase its staging regions (R232). -/
def State.ckptFits (s : State) (p : Nat) : Bool :=
  let n := regionsLen (s.optimiser p (s.parkedNow p))
  decide (n ≤ 2 ^ 39) && decide (n + 8 * ceilDiv n segBytes + pageBytes ≤ s.slotSize p) && decide (4 * s.slotSize p ≤ (s.nsRange p).2) &&
    (s.fget .turnPhase p != Phase.learn || decide (n ≤ regionsLen ((s.part p).cfg.regionsOf 1 9)))

/-- The later checks of CKPT_WRITE. -/
def State.ckptRefusal (s : State) (d : BitVec 512) : Nat :=
  let p := dField d 16 16
  if s.fget .flashReadOnly 0 = 1 then Status.readOnly
  else if s.fget .pwrSag 0 = 1 then Status.powerSag
  else if s.turning p || (s.part p).flash.any (fun f => decide (f.kind ≤ 1)) then Status.busy
  else if s.journalOpen p || !(s.fget .turnPhase p == Phase.learn || s.fget .turnPhase p == Phase.rollout) then Status.badState
  else if (s.validSlots p 0).any (fun x => decide (dField d 31 24 ≤ trailerStep (s.trailer p x))) then Status.badOperand
  else if !s.ckptFits p then Status.noSpace
  else 0

/-- CKPT_WRITE (R232). -/
def execCkptWrite (fn ring : Nat) (s : State) : Host.Outcome State Fault Refusal :=
  .next (s.hostCmd fn ring 0x72
    (fun s d => s.tierSpec fn 0x72 d (((s.part (dField d 16 16)).cfg.comm (dField d 17 17)).isSome && dZero d 23 18 && dZero d 63 32))
    (fun s d => s.ckptRefusal d) (fun s c => s.runCkptWrite c))

/-- The staging copy of a checkpoint lands: the data moves to the staging regions with segment CRCs, and is read back for the flash
(R213, R232). It begins only once every kettle run of the step in progress has closed its journal (R272). -/
def State.landStaging (s : State) (m : Move) : State :=
  match s.cmd m.ref with
  | none => s.dropMove m.id
  | some c =>
    let p := c.part
    if (s.baysOf p).any (fun b => s.fget .ketJstate b == 1) then s
    else
      let s := s.dropMove m.id
      match (s.part p).flash with
      | none => s
      | some f =>
        match s.regionsFault p (s.optimiser p f.parked) with
        | some e => s.failFlash p e
        | none =>
          let rs := (s.part p).cfg.regionsOf 1 9
          (s.writeRegions p rs (s.readRegions (s.optimiser p f.parked))).ckptRead p f rs

/-- One program or trim of the partition's own flash command has finished. -/
def State.ownProgrammed (s : State) (p : Nat) : State :=
  match (s.part p).flash with
  | none => s
  | some f =>
    match f.kind, f.stage with
    | 0, 0 =>
      if f.parked then s.ckptRead p f (s.optimiser p true)
      else (s.modFlash p (fun g => { g with stage := 1 })).addCopy 9 f.cmd 0 0 0
    | 0, 2 =>
      ((s.devWrite (flashBase + f.slot) f.data).modFlash p (fun g => { g with stage := 3 })).fset .flashProgress p (f.data.length / 2 ^ 30)
    | 0, 3 => (s.devWrite (flashBase + f.slot + f.data.length) (tableOf f.data)).modFlash p (fun g => { g with stage := 4 })
    | 0, 4 =>
      let rank := (((s.part p).cfg.comm f.comm).map Comm.myRank).getD 0
      let tr := trailerBytes f.step (s.part p).cfg.deviceId f.comm rank (s.learnEpochOf p) (s.fget .turnPolicyVersion p) f.data
      let s := (s.devWrite (flashBase + s.trailerAt p f.slot) tr).showSlots p
      if f.buddyOk then s.endFlash p Status.ok 0 else s.modFlash p (fun g => { g with stage := 5 })
    | 2, 0 =>
      ((s.devWrite (flashBase + f.slot) f.data).modFlash p (fun g => { g with stage := 1 })).fset .flashProgress p (f.data.length / 2 ^ 30)
    | 2, _ => s.endFlash p Status.ok 0
    | 3, _ => (s.devZero (flashBase + f.slot) (f.missing.headD 0)).endFlash p Status.ok 0
    | 4, _ => (s.devZero (flashBase + f.slot) (f.missing.headD 0)).endFlash p Status.ok 0
    | _, _ => s

/-- The confirmation of a buddy holder (R233). -/
def State.buddyConfirmed (s : State) (p : Nat) (m : Msg) : State :=
  match (s.part p).flash with
  | some f =>
    if f.kind = 0 ∧ f.comm = m.comm ∧ m.args.headD 0 = f.step then
      if f.stage = 5 then s.endFlash p Status.ok 0 else s.modFlash p (fun g => { g with buddyOk := true })
    else s
  | none => s

/-- BUDDY_TRAILER_CONFIRM (R233). -/
def execBuddyTrailerConfirm (p : Nat) (m : Msg) (s : State) : Host.Outcome State Fault Refusal :=
  .next (s.onMsg p m Vc.broadcast Ty.stream (m.op == MsgOp.buddyConfirm) (fun s => s.buddyConfirmed p m))

/-- BUDDY_CONFIRM_TIMEOUT (R233): counted from the commit of the writer's own trailer. -/
def execBuddyConfirmTimeout (p : Nat) (s : State) : Host.Outcome State Fault Refusal :=
  .next (
    if (s.part p).flash.any (fun f => f.kind == 0 && f.stage == 5) then (s.endFlash p Status.buddyMissing 0).settle else s)

/-! ### Buddy copies that this device holds (R233, R235, R515) -/

/-- The buddy slots hold a valid generation of another owner, or a stream of another owner runs. -/
def State.otherOwner (s : State) (p : Nat) (m : Msg) : Bool :=
  (s.validSlots p 2).any (fun x =>
    let tr := s.trailer p x
    !(leField tr 17 16 == m.src && leField tr 19 18 == m.comm && leField tr 23 20 == m.rank)) ||
  (s.part p).buddy.any (fun b => !(b.src == m.src && b.comm == m.comm && b.rank == m.rank))

/-- A message of a buddy stream: the first segment trims the target's trailer page, and each is programmed where it belongs. -/
def State.takeStream (s : State) (p : Nat) (m : Msg) : State :=
  let step := m.args.getD 0 0
  let len := m.args.getD 1 0
  let fits := decide (len + 8 * ceilDiv len segBytes + pageBytes ≤ s.slotSize p) && decide (4 * s.slotSize p ≤ (s.nsRange p).2)
  let s :=
    if m.seg = 0 ∧ !s.otherOwner p m ∧ fits ∧ s.fget .flashReadOnly 0 = 0 then
      let slot := s.targetSlot p 2
      let b : Buddy := { src := m.src, comm := m.comm, rank := m.rank, step := step, slot := slot, data := [], discard := s.fget .pwrSag 0 == 1,
                         whole := false, epoch := m.args.getD 2 0, version := m.args.getD 3 0 }
      let s := if b.discard then s else s.devZero (flashBase + s.trailerAt p slot) pageBytes
      s.modPart p (fun x => { x with buddy := some b })
    else s
  match (s.part p).buddy with
  | none => s
  | some b =>
    if b.src ≠ m.src ∨ b.comm ≠ m.comm ∨ b.rank ≠ m.rank ∨ b.step ≠ step ∨ b.data.length ≠ segBytes * m.seg then s
    else
      let data := b.data ++ m.data
      let s := if b.discard then s else s.devWrite (flashBase + b.slot + segBytes * m.seg) m.data
      let whole := decide (len ≤ data.length)
      s.modPart p (fun x => { x with
        buddy := if whole && b.discard then none else some { b with data := data, whole := whole } })

/-- The table and the trailer of a whole buddy stream are programmed, and the writer is told (R233). -/
def State.buddyProgrammed (s : State) (p : Nat) : State :=
  match (s.part p).buddy with
  | some b =>
    if !b.whole || b.discard then s
    else
      let tr := trailerBytes b.step b.src b.comm b.rank b.epoch b.version b.data
      let s := s.devWrite (flashBase + b.slot + b.data.length) (tableOf b.data)
      let s := (s.devWrite (flashBase + s.trailerAt p b.slot) tr).modPart p (fun x => { x with buddy := none })
      s.send p { Msg.empty with dst := b.src, vc := Vc.broadcast, ty := Ty.stream, op := MsgOp.buddyConfirm, comm := b.comm, args := [b.step] }
  | none => s

/-- BUDDY_STREAM_TIMEOUT (R235). -/
def execBuddyStreamTimeout (p : Nat) (s : State) : Host.Outcome State Fault Refusal :=
  .next (if (s.part p).buddy.any (fun b => !b.whole) then s.modPart p (fun x => { x with buddy := none }) else s)

/-! ### CKPT_LOAD (R234) -/

/-- The load completes: journals close, and the gate of its step opens (R267, R353). -/
def State.loadDone (s : State) (p : Nat) : State :=
  match (s.part p).flash with
  | none => s
  | some f =>
    let s := s.writeRegions p (s.optimiser p f.parked) f.data
    let s := (s.baysOf p).foldl (fun s b => (s.fset .ketJstate b 0).modKettle b (fun k => { k with undo := [] })) s
    let s := s.modPart p (fun x => { x with rollback := if x.rollback = some f.step then none else x.rollback })
    s.endFlash p Status.ok 0

/-- Ask a device for a generation, or for segments of it: copy 0 of the owner itself, 2 of its buddy holder. -/
def State.askCopy (s : State) (p : Nat) (f : Flash) (k : Comm) (from_ copy : Nat) (segs : List Nat) : State :=
  s.toRank p k from_ { Msg.empty with vc := Vc.broadcast, ty := Ty.stream, op := MsgOp.loadRequest, args := [f.rank, f.step, copy] ++ segs }

/-- The rank that holds the buddy copy of a rank: as far from it as BUDDY_RANK is from this one (R233, R234; log entry 139). -/
def Comm.holder (k : Comm) (rank : Nat) : Nat := (rank + k.buddy + k.count - k.myRank) % max k.count 1

/-- The rank that a load turns to for its second copy: the buddy holder of an own load, the owner itself of a remote one. -/
def Flash.second (f : Flash) (k : Comm) (remote : Bool) : Nat × Nat := if remote then (f.rank, 0) else (k.buddy, 2)

/-- Segments have failed in the first copy: the second is asked for them (R234). -/
def State.askSecond (s : State) (p : Nat) (f : Flash) : State :=
  match (s.part p).cfg.comm f.comm, s.cmd f.cmd with
  | some k, some c =>
    let (from_, copy) := f.second k (c.arg 18 18 == 1)
    (s.modFlash p (fun g => { g with stage := 2 })).askCopy p f k from_ copy f.missing
  | _, _ => s

/-- The start of CKPT_LOAD. -/
def State.runCkptLoad (s : State) (c : Cmd) : State :=
  let p := c.part
  if (s.part p).flash.isSome then s.modCmd c.id (fun c => { c with started := false })
  else
  let step := c.arg 31 24
  let remote := c.arg 18 18 == 1
  match (s.part p).cfg.comm (c.arg 17 17) with
  | none => s.complete c Status.badOperand 0 0
  | some k =>
    let rank := if remote then c.arg 23 20 else k.myRank
    let f : Flash := { kind := 1, cmd := c.id, stage := 1, slot := 0, step := step, comm := k.id, rank := rank, data := [], missing := [],
                       buddyOk := false, parked := s.parkedNow p }
    let s := s.fset .flashCkptState p 3
    match (if remote then none else s.slotOfStep p 0 step) with
    | some slot =>
      let tr := s.trailer p slot
      let gs := (List.range (trailerSegs tr)).map (fun i => (i, s.slotSegment p slot i))
      let bad := (gs.filter (fun g => crc64 g.2.1 != g.2.2)).map Prod.fst
      let s := s.flashReads p (slot - (s.nsRange p).1) (gs.flatMap (fun g => g.2.1))
      let f := { f with slot := slot, step := trailerStep tr, data := gs.flatMap (fun g => g.2.1), missing := bad }
      let s := (s.modPart p (fun x => { x with flash := some f })).fset .flashProgress p (f.data.length / 2 ^ 30)
      if bad.isEmpty then s.loadDone p else s.askSecond p f
    | none =>
      let first := if remote then k.holder rank else k.buddy
      (s.modPart p (fun x => { x with flash := some f })).askCopy p f k first 2 []

/-- CKPT_LOAD (R234). -/
def execCkptLoad (fn ring : Nat) (s : State) : Host.Outcome State Fault Refusal :=
  .next (s.hostCmd fn ring 0x73
    (fun s d =>
      let k := (s.part (dField d 16 16)).cfg.comm (dField d 17 17)
      s.tierSpec fn 0x73 d (k.isSome && decide (dField d 18 18 < 2) && dZero d 19 19 && dZero d 63 32 &&
        (dField d 18 18 == 0 || k.any (fun k => decide (dField d 23 20 < k.count)))))
    (fun s d =>
      let p := dField d 16 16
      if s.turning p || (s.part p).flash.any (fun f => decide (f.kind ≤ 1)) then Status.busy else 0)
    (fun s c => s.runCkptLoad c))

/-- Put segment i of a generation of `len` bytes into its data. -/
def putSegment (data : List Byte) (len i : Nat) (bs : List Byte) : List Byte :=
  let data := data ++ List.replicate (len - data.length) 0
  data.take (segBytes * i) ++ bs ++ data.drop (segBytes * i + bs.length)

/-- A load that cannot go on leaves what has come in the regions (R234). -/
def State.loadBroken (s : State) (p : Nat) (f : Flash) : State :=
  (s.writeRegions p (s.optimiser p f.parked) f.data).endFlash p Status.bothCopiesBad 0

/-- The first copy holds no valid generation: a remote load asks the owner itself for all of it, and an own load, whose own copy is not valid
either, ends (R234). Stage 3 is that second copy. -/
def State.noCopy (s : State) (p : Nat) (f : Flash) : State :=
  match (s.part p).cfg.comm f.comm, s.cmd f.cmd with
  | some k, some c =>
    if f.stage = 1 ∧ c.arg 18 18 = 1 then (s.modFlash p (fun g => { g with stage := 3 })).askCopy p f k f.rank 0 []
    else if f.stage = 2 then s.loadBroken p f else s.endFlash p Status.ckptNone 0
  | _, _ => s.endFlash p Status.ckptNone 0

/-- An answer to a load: nothing valid, or one segment with its CRC-64 (R234). Both copies of a segment that fail end the load. -/
def State.onLoadData (s : State) (p : Nat) (m : Msg) : State :=
  match (s.part p).flash with
  | none => s
  | some f =>
    if f.kind ≠ 1 ∨ f.comm ≠ m.comm then s
    else if m.args.getD 0 0 = 0 then s.noCopy p f
    else
      let step := m.args.getD 1 0
      let len := m.args.getD 2 0
      let i := m.seg
      let n := ceilDiv len segBytes
      let good := crc64 m.data == m.args.getD 3 0
      if f.stage ≠ 2 then
        let awaited := if f.data = [] then List.range n else f.missing
        let f := { f with step := step, data := putSegment f.data len i (if good then m.data else []),
                          missing := if good then awaited.filter (· != i) else awaited }
        let s := (s.modFlash p (fun _ => f)).fset .flashProgress p (f.data.length / 2 ^ 30)
        if i + 1 < n then s
        else if f.missing.isEmpty then s.loadDone p
        else if f.stage = 1 ∧ (s.cmd f.cmd).any (fun c => c.arg 18 18 == 1) then s.askSecond p f
        else s.loadBroken p f
      else if !f.missing.contains i then s
      else if !good then s.loadBroken p f
      else
        let f := { f with data := putSegment f.data len i m.data, missing := f.missing.filter (· != i) }
        let s := s.modFlash p (fun _ => f)
        if f.missing.isEmpty then s.loadDone p else s

/-- REMOTE_LOAD_TIMEOUT (R234). -/
def execRemoteLoadTimeout (p : Nat) (s : State) : Host.Outcome State Fault Refusal :=
  .next (
    match (s.part p).flash with
    | some f => if f.kind = 1 then (s.loadBroken p f).settle else s
    | none => s)

/-- BUDDY_STREAM (R233, R234): a stream to hold, or the answer to a load. -/
def execBuddyStream (p : Nat) (m : Msg) (s : State) : Host.Outcome State Fault Refusal :=
  .next (s.onMsg p m Vc.broadcast Ty.stream (m.op == MsgOp.buddy || m.op == MsgOp.loadData) (fun s =>
    if m.op = MsgOp.buddy then s.takeStream p m else s.onLoadData p m))

/-- Serve a load: the generation of the owner's rank, whole or the segments named, from this device's slots (R234). -/
def State.serveLoad (s : State) (p : Nat) (m : Msg) : State :=
  let rank := m.args.getD 0 0
  let first := m.args.getD 2 0
  let answer : Msg := { Msg.empty with dst := m.src, vc := Vc.broadcast, ty := Ty.stream, op := MsgOp.loadData, comm := m.comm }
  let mine (x : Nat) : Bool := leField (s.trailer p x) 19 18 == m.comm && leField (s.trailer p x) 23 20 == rank
  match (s.slotOfStep p first (m.args.getD 1 0)).filter mine with
  | none => s.send p { answer with args := [0] }
  | some slot =>
    let tr := s.trailer p slot
    let want := m.args.drop 3
    (if want = [] then List.range (trailerSegs tr) else want).foldl (fun s i =>
      let g := s.slotSegment p slot i
      let s := s.flashReads p (slot + segBytes * i - (s.nsRange p).1) g.1
      s.send p { answer with seg := i, args := [1, trailerStep tr, trailerLen tr, g.2], data := g.1 }) s

/-- REMOTE_LOAD_REQUEST (R234). -/
def execRemoteLoadRequest (p : Nat) (m : Msg) (s : State) : Host.Outcome State Fault Refusal :=
  .next (s.onMsg p m Vc.broadcast Ty.stream (m.op == MsgOp.loadRequest) (fun s => s.serveLoad p m))

/-! ### FLASH_WRITE, FLASH_TRIM and NS_CLEAR (R236, R477) -/

/-- A flash command waits, unstarted, while another one of its partition runs. -/
def State.startFlash (s : State) (c : Cmd) (f : Flash) : State :=
  if (s.part c.part).flash.isSome then s.modCmd c.id (fun c => { c with started := false })
  else s.modPart c.part (fun x => { x with flash := some { f with cmd := c.id } })

def Flash.base : Flash :=
  { kind := 2, cmd := 0, stage := 0, slot := 0, step := 0, comm := 0, rank := 0, data := [], missing := [], buddyOk := false,
    parked := false }

/-- The range rule of *Tier commands*. -/
def State.beyondSlots (s : State) (p off len : Nat) : Bool :=
  off % pageBytes == 0 && len % pageBytes == 0 && decide (4 * s.slotSize p ≤ off)

/-- The start of FLASH_WRITE: its source is read, and its program begins. -/
def State.runFlashWrite (s : State) (c : Cmd) : State :=
  let p := c.part
  let src := c.arg 31 24
  let n := c.arg 47 40
  if (s.part p).flash.isSome then s.modCmd c.id (fun c => { c with started := false })
  else
    let go (s : State) (bs : List Byte) : State := s.startFlash c { Flash.base with slot := (s.nsRange p).1 + c.arg 39 32, data := bs }
    if bitOf (c.arg 17 17) 0 then
      let (bs, ok, s) := s.hostTake c src n
      if ok then go s bs else s.failTag c
    else
      match s.dataFault p src n with
      | some f => s.failCmd c f
      | none => go s (s.partRead p src n)

/-- FLASH_WRITE (R236). -/
def execFlashWrite (fn ring : Nat) (s : State) : Host.Outcome State Fault Refusal :=
  .next (s.hostCmd fn ring 0x74
    (fun s d => s.tierSpec fn 0x74 d (decide (dField d 17 17 < 2) && dZero d 23 18 && dZero d 63 48 &&
      s.beyondSlots (dField d 16 16) (dField d 39 32) (dField d 47 40)))
    (fun s d =>
      let p := dField d 16 16
      if dField d 17 17 == 1 && s.pfBarred fn p then Status.badState
      else if s.fget .flashReadOnly 0 = 1 then Status.readOnly
      else if s.fget .pwrSag 0 = 1 then Status.powerSag
      else if (s.nsRange p).2 < dField d 39 32 + dField d 47 40 then Status.noSpace else 0)
    (fun s c => s.runFlashWrite c))

/-- The start of FLASH_TRIM. -/
def State.runFlashTrim (s : State) (c : Cmd) : State :=
  s.startFlash c { Flash.base with kind := 3, slot := (s.nsRange c.part).1 + c.arg 31 24, missing := [c.arg 39 32] }

/-- FLASH_TRIM (R236). -/
def execFlashTrim (fn ring : Nat) (s : State) : Host.Outcome State Fault Refusal :=
  .next (s.hostCmd fn ring 0x75
    (fun s d => s.tierSpec fn 0x75 d (dZero d 23 17 && dZero d 63 40 && s.beyondSlots (dField d 16 16) (dField d 31 24) (dField d 39 32)))
    (fun s d => if (s.nsRange (dField d 16 16)).2 < dField d 31 24 + dField d 39 32 then Status.noSpace else 0)
    (fun s c => s.runFlashTrim c))

/-- The start of NS_CLEAR. -/
def State.runNsClear (s : State) (c : Cmd) : State :=
  s.startFlash c { Flash.base with kind := 4, slot := (s.nsRange c.part).1, missing := [(s.nsRange c.part).2] }

/-- NS_CLEAR (R460, R477). -/
def execNsClear (fn ring : Nat) (s : State) : Host.Outcome State Fault Refusal :=
  .next (s.hostCmd fn ring 0x86
    (fun s d => { op := 0x86, fnOk := fn == 0, part := dField d 16 16, spargeOk := false,
                  operands := s.partDefined (dField d 16 16) && dZero d 63 17 })
    (fun _ _ => 0) (fun s c => s.runNsClear c))

/-- A program or an erase wears flash: how often blocks have been erased and how many spares are left is the flash's own, and free; once the
spare pool cannot replace a worn block, flash is read only (R216, R238; log entry 140). -/
def State.wear (s : State) : State :=
  let (erased, s) := s.free1
  let (left, s) := s.free1
  let (worn, s) := s.free1
  let s := s.fset .flashEraseMax 0 (max (s.fget .flashEraseMax 0) (erased % 2 ^ 32))
  let s := s.fset .flashSpareLeft 0 (min (s.fget .flashSpareLeft 0) (left % 101))
  if s.fget .flashSpareLeft 0 = 0 ∧ worn % 2 = 1 ∧ s.fget .flashReadOnly 0 = 0 then
    (s.fset .flashReadOnly 0 1).detect Source.flashReadOnly Kind.chip 0 0
  else s

/-- FLASH_PROGRAM_DONE (R232, R233, R236): one program, erase or trim of the partition's flash work finishes, its own and the buddy copy it
holds alike. -/
def execFlashProgramDone (p : Nat) (s : State) : Host.Outcome State Fault Refusal :=
  .next (if 12 ≤ p ∨ ((s.part p).flash.isNone ∧ (s.part p).buddy.isNone) then s else ((s.ownProgrammed p).buddyProgrammed p).wear.settle)

/-! ### Namespaces (R239) -/

/-- Two ranges of GiB share one. -/
def nsMeet (b1 n1 b2 n2 : Nat) : Bool := n1 != 0 && n2 != 0 && decide (b1 < b2 + n2) && decide (b2 < b1 + n1)

/-- A write of NS_BASE, NS_SIZE and CKPT_SLOT: all three, or none. -/
def State.writeNs (s : State) (p base size slot : Nat) : State :=
  let bad := (s.part p).flash.isSome || decide (65536 ≤ base) || decide (65536 ≤ size) ||
    decide (65536 ≤ slot) || decide (size < 4 * slot) || decide (2 ^ 15 < base + size) ||
    (List.range 12).any (fun q => q != p && nsMeet base size (s.fget .flashNsBase q) (s.fget .flashNsSize q))
  if bad then s
  else (((s.fset .flashNsBase p base).fset .flashNsSize p size).fset .flashCkptSlot p slot).showSlots p

end Sys2Proof.Machine
end

