-- ==== Sys2Proof/Machine/Learn.lean ====
section
/-!
DEFINITION. Learn steps (R156 to R158, R440) and the batch pool (R355 to R358). The row that ends a step stands in Machine/Turn.lean.
-/

namespace Sys2Proof.Machine

/-! ### The batch pool (R355, R356) -/

/-- Bytes of the admission list before the ring of entries. -/
def poolHead : Nat := 65536

/-- Most entries that the list holds (log entry 44). -/
def poolMax : Nat := 8190

/-- Bytes that an entry takes. -/
def entryBytes (n : Nat) : Nat := roundUp (16 + n) 64

/-- Fields of a batch record (R382). -/
def recordSrc (bs : List Byte) : Nat := leField bs 3 2
def recordStep (bs : List Byte) : Nat := leField bs 15 8
def recordVersion (bs : List Byte) : Nat := leField bs 19 16

/-- An entry header (*Batch pool entry header*). -/
def poolHeader (len state comm src step : Nat) : List Byte :=
  leBytes 4 len ++ leBytes 1 state ++ leBytes 1 comm ++ leBytes 2 src ++ leBytes 8 step

/-- The ring place of a new entry of n bytes: the tail, or the ring's start where it does not fit before the end; none where it meets
an entry that is not free. -/
def Part.poolPlace (x : Part) (size n : Nat) : Option Nat :=
  let at_ := if x.poolTail + n ≤ size then x.poolTail else 0
  let meets (e : PoolEntry) : Bool :=
    let o := e.off - poolHead
    decide (o < at_ + n) && decide (at_ < o + entryBytes e.len)
  if size < n ∨ x.pool.any meets then none else some at_

/-- Append a record to the pool of partition p; false where it has no room, with BATCH_POOL_FULL (R356). -/
def State.poolAdd (s : State) (p comm : Nat) (bs : List Byte) : State × Bool :=
  let x := s.part p
  let n := entryBytes bs.length
  match x.cfg.batchPool.bind (fun r => (x.poolPlace (r.size - poolHead) n).map (fun o => (r.base, o))) with
  | none =>
    let s := (s.baysOf p).foldl (fun s b => s.finc .commFull b 1) s
    (s.detect Source.batchPoolFull Kind.bay (s.lowBay p) 0, false)
  | some (base, o) =>
    let src := recordSrc bs
    let e : PoolEntry := { off := poolHead + o, len := bs.length, admitted := 0, waiting := true, comm := comm, src := src }
    let pad := List.replicate (n - 16 - bs.length) 0
    let s := s.devWrite (base + poolHead + o) (poolHeader bs.length 1 comm src 0 ++ bs ++ pad)
    (s.modPart p (fun x => { x with pool := x.pool ++ [e], poolTail := o + n }), true)

/-- Bytes [lo, lo + n) of an entry's record. -/
def State.poolField (s : State) (base : Nat) (e : PoolEntry) (lo n : Nat) : Nat := Mem.readNat s.dev (base + e.off + 16 + lo) n

/-- Rewrite the STATE and STEP of an entry. -/
def State.markEntry (s : State) (base : Nat) (e : PoolEntry) (state step : Nat) : State :=
  s.devWrite (base + e.off) (poolHeader e.len state e.comm e.src step)

/-! ### Admission (R357, R358) -/

/-- STALENESS of the communicator that an entry names; 1 where the image does not define it (log entry 44). -/
def Cfg.staleness (c : Cfg) (comm : Nat) : Nat := ((c.comm comm).map Comm.stale).getD 1

/-- Order of the admission list. -/
def State.poolBefore (s : State) (base : Nat) (a b : PoolEntry) : Bool :=
  let k (e : PoolEntry) : Nat × Nat × Nat := (s.poolField base e 16 4, e.src, s.poolField base e 8 8)
  let (v, d, n) := k a
  let (w, e, m) := k b
  decide (v < w) || (v == w && (decide (d < e) || (d == e && decide (n ≤ m))))

/-- The entries that a replay run's next ADMISSION record names (R501). -/
def State.replayAdmits (s : State) (p : Nat) : Option (Nat × List Nat) :=
  (s.part p).replayRun.bind (fun r => (r.rows.find? (fun x => x.1 == 8)).map (fun x =>
    (x.2.2.1, (List.range (leField x.2.2.2 3 0)).map (fun i => leField x.2.2.2 (23 + 8 * i) (16 + 8 * i)))))

/-- The start of learn step n takes the waiting entries (R357, R358). -/
def State.admitStep (s : State) (p n : Nat) : State :=
  match (s.part p).cfg.batchPool with
  | none => s
  | some r =>
    let x := s.part p
    let fixed := s.replayAdmits p
    let fresh (e : PoolEntry) : Bool :=
      match fixed with
      | some l => l.2.contains e.off
      | none => decide (s.fget .turnPolicyVersion p ≤ s.poolField r.base e 16 4 + x.cfg.staleness e.comm)
    let done := x.pool.filter (fun e => !e.waiting && e.admitted != n)
    let kept := x.pool.filter (fun e => !e.waiting && e.admitted == n)
    let wait := x.pool.filter PoolEntry.waiting
    let stale := wait.filter (fun e => !fresh e)
    let sorted := orderedBy (s.poolBefore r.base) (wait.filter fresh)
    let take := sorted.take (poolMax - kept.length)
    let s := (done ++ stale).foldl (fun s e => s.markEntry r.base e 0 0) s
    let s := take.foldl (fun s e => s.markEntry r.base e 2 n) s
    let pool := (x.pool.filter (fun e => kept.contains e || e.waiting && fresh e)).map (fun e =>
      if take.contains e then { e with admitted := n, waiting := false } else e)
    let s := s.modPart p (fun x => { x with pool := pool })
    let s := (s.baysOf p).foldl (fun s b => (s.finc .commDropped b stale.length).finc .commAdmitted b take.length) s
    let s := stale.foldl (fun s e => s.detect Source.batchStale Kind.bay (s.lowBay p) e.off) s
    let mine := orderedBy (s.poolBefore r.base) (kept ++ take)
    let list := leBytes 4 mine.length ++ leBytes 4 0 ++ leBytes 8 n ++ mine.flatMap (fun e => leBytes 8 e.off)
    let s := s.devWrite r.base list
    match fixed with
    | some l => s.modPart p (fun x => { x with replayRun := x.replayRun.map (fun r => { r with rows := r.rows.filter (fun x => x.2.2.1 != l.1) }) })
    | none => s.capture p 8 0 list

/-! ### BATCH_PUT and its messages (R356) -/

/-- The start of BATCH_PUT: its record is read, and appended here or sent. -/
def State.runBatchPut (s : State) (c : Cmd) : State :=
  let p := c.part
  let n := c.arg 35 32
  let go (s : State) (bs : List Byte) : State :=
    if bitOf (c.arg 18 18) 0 then
      (s.modPart p (fun x => { x with putWait := x.putWait ++ [c.id] })).send p
        { Msg.empty with dst := c.arg 21 20, vc := Vc.broadcast, ty := Ty.data, comm := c.arg 17 17, op := MsgOp.batch,
                         step := recordVersion bs, data := bs }
    else
      let (s, ok) := s.poolAdd p (c.arg 17 17) bs
      s.complete c (if ok then Status.ok else Status.poolFull) 0 0
  if bitOf (c.arg 18 18) 1 then
    let (bs, ok, s) := s.hostTake c (c.arg 31 24) n
    if ok then go s bs else s.failTag c
  else
    match s.dataFault p (c.arg 31 24) n with
    | some f => s.failCmd c f
    | none => go s (s.partRead p (c.arg 31 24) n)

/-- BATCH_PUT (R356). -/
def execBatchPut (fn ring : Nat) (s : State) : Host.Outcome State Fault Refusal :=
  .next (s.hostCmd fn ring 0x67
    (fun s d =>
      let p := dField d 16 16
      let n := dField d 35 32
      { op := 0x67, fnOk := pfOrVf fn p, part := p, spargeOk := false,
        operands := s.partDefined p && decide (dField d 18 18 < 4) && dZero d 19 19 && dZero d 23 22 && dZero d 63 36 &&
          decide (64 ≤ n) && decide (n ≤ 2 ^ 22) })
    (fun s d => if bitOf (dField d 18 18) 1 && s.pfBarred fn (dField d 16 16) then Status.badState else 0)
    (fun s c => s.runBatchPut c))

/-- BATCH_RECORD_MESSAGE (R356). -/
def execBatchRecordMessage (p : Nat) (m : Msg) (s : State) : Host.Outcome State Fault Refusal :=
  .next (s.onMsg p m Vc.broadcast Ty.data (m.op == MsgOp.batch) (fun s =>
    let (s, ok) := s.poolAdd p m.comm m.data
    s.send p { Msg.empty with dst := m.src, vc := Vc.broadcast, ty := Ty.data, comm := m.comm, op := MsgOp.batchAnswer, step := m.step,
                              args := [if ok then Status.ok else Status.poolFull] }))

/-- Take a BATCH_PUT from those that wait, and complete it. -/
def State.answerPut (s : State) (p id status : Nat) : State :=
  (s.modPart p (fun x => { x with putWait := x.putWait.filter (· != id) })).finish id status 0 0

/-- BATCH_ANSWER_MESSAGE (R356): the oldest BATCH_PUT to the answering device completes. -/
def execBatchAnswerMessage (p : Nat) (m : Msg) (s : State) : Host.Outcome State Fault Refusal :=
  .next (s.onMsg p m Vc.broadcast Ty.data (m.op == MsgOp.batchAnswer) (fun s =>
    match (s.part p).putWait.find? (fun id => (s.cmd id).any (fun c => c.arg 21 20 == m.src)) with
    | some id => s.answerPut p id (m.args.headD 0)
    | none => s))

/-- BATCH_ANSWER_TIMEOUT (R356): the oldest BATCH_PUT without an answer completes, and no one is declared. -/
def execBatchAnswerTimeout (p : Nat) (s : State) : Host.Outcome State Fault Refusal :=
  .next (
    match (s.part p).putWait with
    | id :: _ => (s.answerPut p id Status.peerFailed).settle
    | [] => s)

/-! ### Learn steps (R25, R156 to R158, R267, R353, R440, R497) -/

/-- The status that refuses a learn step of partition p, or 0; `id` is its command number, which TURN_COMMITs accepted before it lie
below (R25). -/
def State.learnRefusal (s : State) (p id : Nat) : Nat :=
  let x := s.part p
  if x.degraded then Status.degraded
  else if s.fget .turnPhase p != Phase.learn || s.cmds.any (fun d => d.part == p && d.op == 0x61 && decide (d.id < id)) then Status.badState
  else if s.journalOpen p then Status.journalOpen
  else if x.rollback.isSome then Status.badState
  else 0

/-- A learn step waits: an earlier one of its partition has not completed, a checkpoint copies the state, or kettles run (R158,
R232, R247). -/
def State.learnWaits (s : State) (c : Cmd) : Bool :=
  let x := s.part c.part
  x.step.isSome || s.cmds.any (fun d => d.part == c.part && d.op == 0x11 && decide (d.id < c.id)) ||
    x.flash.any (fun f => f.kind == 0 && decide (f.stage ≤ 1)) || !s.kettlesDone c.part || x.refresh.isSome || s.workHeld c.part

/-- A message of a collective of an earlier step, which no word of this step awaits. -/
def lateMsg (n : Nat) (m : Msg) : Bool := (decide (m.op ≤ 5) && m.op != 3 || (decide (16 ≤ m.op) && decide (m.op < 24))) && decide (m.step < n % 2 ^ 32)

/-- Tiles that a learn step launches, with their entries (R156, R440). -/
def State.learnLaunch (s : State) (c : Cmd) : List (Nat × Nat) :=
  (s.tilesOf c.part).filterMap (fun t =>
    if s.role c.part t = Role.learn then some (t, c.arg 41 40)
    else if s.role c.part t = Role.auxiliary then some (t, c.arg 43 42) else none)

/-- A learn step launches: the numeric and residue flags of its tiles, the admission list, its kettles and its tiles (R108, R156, R157,
R289, R357). -/
def State.launchLearn (s : State) (c : Cmd) : State :=
  let p := c.part
  let n := c.arg 31 24
  let seed := c.arg 39 32
  let st : LearnStep := { cmd := c.id, stepNo := n, seed := seed, status := 0, detail := 0, reds := [], exps := [] }
  let s := s.modPart p (fun x => { x with
    step := some st, exchanges := x.exchanges.filter (fun e => e.home.isSome), early := x.early.filter (fun m => !lateMsg n m),
    relayed := x.relayed.filter (fun m => !lateMsg n m) })
  let s := (s.tilesOf p).foldl (fun s t => (s.fset .numGradOf t 0).fset .numGradInv t 0) s
  let bit := 2 ^ (n % 64)
  let clear (s : State) (t : Nat) : State := if bitOf (s.fget .lauOvf t) (n % 64) then s.fset .lauOvf t (s.fget .lauOvf t - bit) else s
  let s := (s.normTiles p).foldl clear s
  let s := (s.admitStep p n).startKettles p 1 n seed
  (s.learnLaunch c).foldl (fun s x => s.startTile x.1 x.2 n seed (c.arg 47 44) false) s

/-- The start of LEARN_STEP: it launches, waits, or is refused where the state has changed since it was accepted. -/
def State.runLearnStep (s : State) (c : Cmd) : State :=
  if s.learnWaits c then s.modCmd c.id (fun c => { c with started := false })
  else
    let bad := s.learnRefusal c.part c.id
    if bad ≠ 0 then s.complete c bad 0 0 else (s.launchLearn c).settle

/-- LEARN_STEP (R440). -/
def execLearnStep (fn ring : Nat) (s : State) : Host.Outcome State Fault Refusal :=
  .next (s.hostCmd fn ring 0x11
    (fun s d =>
      let p := dField d 16 16
      { op := 0x11, fnOk := pfOrVf fn p, part := p, spargeOk := false,
        operands := s.partDefined p && dZero d 23 17 && dZero d 63 48 })
    (fun s d => s.learnRefusal (dField d 16 16) s.nextCmd)
    (fun s c => s.runLearnStep c))

/-- In a failed step, a norm word that waits for a LEARN tile which will issue none waits no longer: it fails (R184, R295; log entry
39). -/
def State.dropNorm (s : State) (p : Nat) : State :=
  let lost (c : Coll) : Bool := (s.normTiles p).any (fun t =>
    !(s.tile t).live && !c.words.any (fun w => w.1 == t) && (s.tile t).flight.all (fun f => f.cls != 6 || f.started))
  if (s.part p).step.any (fun st => st.status != 0) then
    ((s.part p).colls.filter (fun c => c.norm && lost c)).foldl (fun s c =>
      (s.failColl c).modPart p (fun x => { x with colls := x.colls.filter (fun y => y.id != c.id) })) s
  else s

/-- Every tile and kettle that the running learn step started has finished (R158). -/
def State.learnOver (s : State) (p : Nat) : Bool :=
  (s.tilesOf p).all (fun t => (s.tile t).rollout || (!(s.tile t).live && (s.tile t).flight.isEmpty)) && s.kettlesDone p

/-- The running learn step ends and its command completes (R158, R159, R184, R440). -/
def State.endLearn (s : State) (p : Nat) : State :=
  match (s.part p).step with
  | none => s
  | some st =>
    let s := s.modPart p (fun x => { x with step := none, exchanges := x.exchanges.filter (fun e => e.home.isSome) })
    if st.status ≠ 0 then s.finish st.cmd st.status 0 st.detail
    else if st.detail ≠ 0 then s.finish st.cmd Status.programFailed 0 st.detail
    else s.finish st.cmd Status.ok 0 0

end Sys2Proof.Machine
end

