-- ==== Sys2Proof/Machine/Fences.lean ====
section
/-!
DEFINITION. Turn, refresh and rejoin fences on the control channel (R24, R328, R352, R395).
-/

namespace Sys2Proof.Machine

abbrev FenceKind.turn : Nat := 0
abbrev FenceKind.refresh : Nat := 1
abbrev FenceKind.rejoin : Nat := 2

/-- A communicator without the devices `gone`; the others keep their order (R32, R351). -/
def Comm.without (k : Comm) (gone : List Nat) : Comm :=
  if gone.isEmpty || gone.contains (k.ranks.getD k.myRank 0) then k
  else
    let left := (k.ranks.take k.count).filter (fun d => !gone.contains d)
    { k with count := left.length, myRank := left.idxOf (k.ranks.getD k.myRank 0), ranks := left }

/-- The communicator that a turn's fences span: that of the rollout image the turn began under, from step 8 of the one it ends under,
without the devices that the turn has lost. -/
def State.turnComm (s : State) (p : Nat) : Option Comm :=
  (s.part p).turn.bind (fun t =>
    (if s.fget .turnStep p < 8 then t.oldCfg.comm t.comm else ((s.part p).cfg.comm t.comm).or (t.oldCfg.comm t.comm)).map (fun k =>
      k.without t.gone))

/-- The communicator of a fence of a kind; a rejoin fences that of the image it names (R352). -/
def State.fenceComm (s : State) (p kind comm : Nat) : Option Comm :=
  if kind = FenceKind.turn then (s.turnComm p).filter (fun k => k.id == comm)
  else if kind = FenceKind.rejoin then
    let h := (s.cmds.find? (fun c => c.part == p && c.op == 0x66)).map (fun c => c.arg 39 32)
    (h.bind (fun h => s.image h)).bind (fun g => g.cfg.comm comm)
  else (s.part p).cfg.comm comm

/-- What the fence's comparison gives for one arrival (R24, R328, R352, R395): 0, or the status it fails with. Of the two statuses that R24
leaves for a TURN_ID mismatch, BAD_EPOCH is given (log entry 85, DESIGN CHOICE). -/
def arrivalVerdict (kind : Nat) (own other : List Nat) : Nat :=
  let differs (i : Nat) : Bool := own.getD i 0 != other.getD i 0
  if kind = FenceKind.turn then
    if differs 0 || differs 2 then Status.badEpoch else if differs 3 then Status.badVersion else 0
  else if kind = FenceKind.refresh then if differs 0 then Status.badVersion else 0
  else if other.getD 3 0 ≠ 0 then other.getD 3 0
  else if differs 0 then Status.badEpoch
  else if differs 1 || differs 2 then Status.rejoinMismatch else 0

/-- Which of several failures a fence gives: IMAGE_REJECTED before BAD_EPOCH before the others. -/
def worstVerdict (vs : List Nat) : Nat :=
  if vs.contains Status.imageRejected then Status.imageRejected
  else if vs.contains Status.badEpoch then Status.badEpoch
  else (vs.find? (· != 0)).getD 0

/-- A fence message: an arrival with its origin, or a release with its verdict (log entry 32). -/
def fenceMsg (op first : Nat) (f : Fence) : Msg :=
  { Msg.empty with vc := Vc.control, ty := Ty.fence, op := op, args := first :: f.kind :: f.key }

/-- A release goes down the tree. -/
def State.sendRelease (s : State) (p : Nat) (k : Comm) (verdict : Nat) (f : Fence) : State :=
  (k.children 0 k.myRank).foldl (fun s r => s.toRank p k r (fenceMsg MsgOp.release verdict f)) s

/-- Rank 0 gives its verdict once every rank has arrived. -/
def State.judgeFence (s : State) (p : Nat) (k : Comm) (f : Fence) : State :=
  if k.myRank ≠ 0 ∨ f.seen.length < k.count then s.modPart p (fun x => { x with fence := some f })
  else
    let v := worstVerdict (f.seen.map (fun a => arrivalVerdict f.kind f.key a.2))
    (s.modPart p (fun x => { x with fence := some { f with verdict := some v } })).sendRelease p k v f

/-- An early arrival belongs to a fence: its kind, its communicator and, in a turn, its step. -/
def Fence.awaits (f : Fence) (m : Msg) : Bool :=
  m.vc == Vc.control && m.ty == Ty.fence && m.op == MsgOp.arrival && m.comm == f.comm && m.args.getD 1 9 == f.kind &&
    (f.kind != FenceKind.turn || m.args.getD 3 0 == f.key.getD 1 0)

/-- Hold an arrival, once for each rank. -/
def Fence.hold (f : Fence) (rank : Nat) (key : List Nat) : Fence :=
  if f.seen.any (fun a => a.1 == rank) then f else { f with seen := f.seen ++ [(rank, key)] }

/-- Partition p arrives at a fence. `own` is what its arrival carries; rank 0 compares the others with it. -/
def State.openFence (s : State) (p kind : Nat) (k : Comm) (cmd : Nat) (own : List Nat) : State :=
  let f : Fence := { kind := kind, comm := k.id, cmd := cmd, key := own, seen := [], verdict := none }
  let ms := (s.part p).early.filter f.awaits
  let s := s.modPart p (fun x => { x with early := x.early.filter (fun m => !f.awaits m) })
  if k.myRank = 0 then
    s.judgeFence p k (ms.foldl (fun f m => f.hold (m.args.headD 0) (m.args.drop 2)) (f.hold 0 own))
  else
    let up := k.parent 0 k.myRank
    ms.foldl (fun s m => s.toRank p k up m) ((s.modPart p (fun x => { x with fence := some f })).toRank p k up (fenceMsg MsgOp.arrival k.myRank f))

/-- An arrival comes: an inner rank forwards it at once, rank 0 holds it. -/
def State.onArrival (s : State) (p : Nat) (m : Msg) : State :=
  let kind := m.args.getD 1 0
  let early (s : State) : State := s.modPart p (fun x => { x with early := x.early ++ [m] })
  match s.fenceComm p kind m.comm with
  | none => early s
  | some k =>
    if k.myRank ≠ 0 then s.toRank p k (k.parent 0 k.myRank) m
    else
      match (s.part p).fence with
      | some f => if f.awaits m ∧ f.verdict = none then s.judgeFence p k (f.hold (m.args.headD 0) (m.args.drop 2)) else early s
      | none => early s

/-- A release comes: it goes on down the tree, and this rank has its verdict. -/
def State.onRelease (s : State) (p : Nat) (m : Msg) : State :=
  match (s.part p).fence with
  | none => s
  | some f =>
    if f.comm ≠ m.comm ∨ f.kind ≠ m.args.getD 1 9 ∨ f.verdict ≠ none then s
    else
      match s.fenceComm p f.kind f.comm with
      | none => s
      | some k =>
        if k.myRank = 0 then s
        else
          let v := m.args.headD 0
          (s.sendRelease p k v { f with key := m.args.drop 2 }).modPart p (fun x => { x with fence := some { f with verdict := some v } })

/-- The verdict of a fence of a kind, taken: the fence is over. -/
def State.takeVerdict (s : State) (p kind : Nat) : Option (Nat × State) :=
  match (s.part p).fence with
  | some f => if f.kind = kind then f.verdict.map (fun v => (v, s.modPart p (fun x => { x with fence := none }))) else none
  | none => none

end Sys2Proof.Machine
end

