-- ==== Sys2Proof/Machine/Install.lean ====
section
/-!
DEFINITION. Rollout copies on their way: the owner's broadcast, staging, install, the comparison of fingerprints, fetches and the
replica audit (R17, R330 to R332, R359 to R361, R394, R395). The messages of a copy and their fields are the model's own (log entry 45).
-/

namespace Sys2Proof.Machine

/-- OP_NO of the messages of a rollout copy, which no word's broadcast carries. -/
def copyOp : Nat := 65536

/-- The bytes [off, off + len) of regions laid end to end, as (address, length) pieces. -/
def spread : List Region → Nat → Nat → List (Nat × Nat)
  | [], _, _ => []
  | r :: rest, off, len =>
    if r.size ≤ off then spread rest (off - r.size) len
    else
      let n := min len (r.size - off)
      if n = 0 then [] else (r.base + off, n) :: spread rest 0 (len - n)

def State.readPieces (s : State) (ps : List (Nat × Nat)) : List Byte := ps.flatMap (fun x => s.devRead x.1 x.2)

/-! ### What an owner broadcasts (R260, R359) -/

/-- A layer segment of an owner: its data and scale bytes in HBM, and the CRC-64 its kettle computed. -/
structure OwnSeg where
  layer : Nat
  data : Nat × Nat
  plane : Nat × Nat
  crc : Nat

/-- The segments of this device's rollout copy: the layer entries of its SWEEP slots that store the rollout copy, stack by stack. -/
def State.ownSegs (s : State) (p : Nat) : List OwnSeg :=
  let slots := (s.part p).cfg.kettleSlots true
  (s.baysOf p).flatMap (fun b => slots.flatMap (fun n =>
    match s.kslot b n with
    | none => []
    | some k =>
      if !kstores k.prog Stream.roll then []
      else
        let r := kprog k.prog
        let x := kbind k.prog Stream.roll
        (List.range r.segs).map (fun i =>
          let (first, stop) := ksegment k.prog i
          let d0 := first * fmtBits x.fmt / 8
          let s0 := first / 64
          { layer := (klayer k.prog r.count i).1, data := (hbmBase b + x.base + d0, (stop * fmtBits x.fmt + 7) / 8 - d0),
            plane := (hbmBase b + x.plane + 2 * s0, 2 * (ceilDiv stop 64 - s0)),
            crc := Mem.readNat s.dev (hbmBase b + r.fprint + 16 * i + 8) 8 })))

def State.ownBytes (s : State) (g : OwnSeg) : List Byte := s.readPieces [g.data, g.plane]

/-- Send one message of a copy to the children in the owner's tree: `tag` 0 the count of segments, 1 a segment, 2 its fingerprint. -/
def State.copyDown (s : State) (p : Nat) (k : Comm) (owner tag entry dlen count version : Nat) (bs : List Byte) : State :=
  (k.children owner k.myRank).foldl (fun s r =>
    s.toRank p k r { Msg.empty with vc := Vc.broadcast, ty := Ty.data, op := 3, opNo := copyOp, seg := 4 * entry + tag, step := version,
                                    args := [owner, tag, entry, dlen, count], data := withCrc bs }) s

/-- An owner announces its copy and broadcasts it, each fingerprint after its segment. -/
def State.sendCopy (s : State) (p : Nat) (k : Comm) (version : Nat) (gs : List OwnSeg) : State :=
  let n := gs.length
  let s := s.copyDown p k k.myRank 0 0 0 n version []
  gs.zipIdx.foldl (fun s g =>
    let s := s.copyDown p k k.myRank 1 g.2 g.1.data.2 n version (s.ownBytes g.1)
    s.copyDown p k k.myRank 2 g.2 g.1.data.2 n version (leBytes 4 g.1.layer ++ leBytes 4 0 ++ leBytes 8 g.1.crc)) s

/-! ### Segments of an install -/

def Install.seg (x : Install) (owner entry : Nat) : Seg :=
  (x.segs.find? (fun g => g.owner == owner && g.entry == entry)).getD
    { owner := owner, entry := entry, len := 0, dlen := 0, stageCrcs := [], crc := none, fp := none, fetches := 0 }

def Install.putSeg (x : Install) (g : Seg) : Install :=
  { x with segs := x.segs.filter (fun y => !(y.owner == g.owner && y.entry == g.entry)) ++ [g] }

def State.modInstall (s : State) (p : Nat) (f : Install → Install) : State := s.modPart p (fun x => { x with install := x.install.map f })
def State.modSeg (s : State) (p owner entry : Nat) (f : Seg → Seg) : State := s.modInstall p (fun x => x.putSeg (f (x.seg owner entry)))

/-- The communicator of an install. -/
def State.installComm (s : State) (p : Nat) (x : Install) : Option Comm :=
  if x.staged then s.turnComm p else (s.part p).cfg.comm x.comm

/-- Staging regions: those of the image that the turn ends under (R17, R18). -/
def State.stagingRegions (s : State) (p : Nat) : List Region :=
  match (s.part p).turn.bind (fun t => s.image t.rolloutImage) with
  | some g => g.cfg.regionsOf 1 5
  | none => (s.part p).cfg.regionsOf 1 5

/-- The regions that an install writes: the live copy for a turn and in IN_PLACE mode, the other set in POINTER_FLIP mode (R395,
R396). -/
def State.copyInto (s : State) (p : Nat) (staged : Bool) : List Region :=
  let c := (s.part p).cfg
  (s.baysOf p).flatMap (fun b =>
    if (c.seq b).swapMode = 1 then
      let (as_, bs) := c.copySets b
      if (s.fget .seqFlipSet b == 1) == staged then bs else as_
    else c.copyRegions b)

/-- Where a segment lies in regions laid end to end (log entry 41). -/
def segSpots (rs : List Region) (comm : Nat) (g : Seg) : List (Nat × Nat) :=
  spread rs (Config.segPlace comm g.owner (2 * g.entry)) g.dlen ++ spread rs (Config.segPlace comm g.owner (2 * g.entry + 1)) (g.len - g.dlen)

/-- Write the bytes of a segment at its pieces. -/
def State.putSpots (s : State) : List (Nat × Nat) → List Byte → State
  | [], _ => s
  | (a, n) :: rest, bs => State.putSpots (s.devWrite a (bs.take n)) rest (bs.drop n)

/-- The install tile of a segment: the lowest-numbered mapped tile of the bay it is written to (R359). -/
def State.installTile (s : State) (ps : List (Nat × Nat)) : Nat :=
  let b := ((ps.headD (0, 0)).1) / 2 ^ 37
  ((List.range 8).map (fun j => 8 * b + j)).find? s.mapped |>.getD (8 * b)

/-! ### Comparison and fetches (R359, R361) -/

/-- A segment differs from its owner's fingerprint: the source and the counts, and a fetch while fewer than four have been made. -/
def State.segDiffers (s : State) (p : Nat) (x : Install) (k : Comm) (g : Seg) : State :=
  let t := s.installTile (segSpots (s.copyInto p x.staged) x.comm g)
  let n := (s.tile t).diverge + 1
  let s := (s.finc .commDiverge (t / 8) 1).modTile t (fun y => { y with diverge := n, retire := y.retire || decide (3 ≤ n) })
  let s := s.detect Source.replicaMismatch Kind.tile t (segKey g.owner g.entry)
  if 4 ≤ g.fetches then s
  else
    (s.modSeg p g.owner g.entry (fun y => { y with fetches := y.fetches + 1, crc := none })).toRank p k g.owner
      { Msg.empty with vc := Vc.broadcast, ty := Ty.data, op := MsgOp.fetch, step := x.version, args := [g.owner, g.entry] }

/-- Compare a segment whose installed bytes and fingerprint are both known. -/
def State.compareSeg (s : State) (p owner entry : Nat) : State :=
  match (s.part p).install with
  | none => s
  | some x =>
    let g := x.seg owner entry
    match g.crc, g.fp, s.installComm p x with
    | some c, some f, some k => if c = f then s else s.segDiffers p x k g
    | _, _, _ => s

/-- A segment has been compared for good. -/
def Seg.settled (g : Seg) : Bool := g.crc.isSome && g.fp.isSome && (g.crc == g.fp || decide (4 ≤ g.fetches))

/-- Write a segment into HBM, fingerprint it and compare it. -/
def State.installSeg (s : State) (p owner entry : Nat) (bs : List Byte) : State :=
  match (s.part p).install with
  | none => s
  | some x =>
    let ps := segSpots (s.copyInto p x.staged) x.comm (x.seg owner entry)
    (((s.putSpots ps bs).modSeg p owner entry (fun g => { g with crc := some (crc64 bs) })).compareSeg p owner entry)

/-! ### Receiving a copy -/

/-- A segment's bytes have come: they are staged with their CRC-64, or installed at once (R17, R33, R213). -/
def State.takeSeg (s : State) (p owner entry dlen : Nat) (bs : List Byte) : State :=
  match (s.part p).install with
  | none => s
  | some x =>
    let s := s.modSeg p owner entry (fun g => { g with len := bs.length, dlen := dlen, stageCrcs := (segmentsOf bs).map crc64 })
    if x.staged then
      let g := { x.seg owner entry with len := bs.length, dlen := dlen }
      s.putSpots (segSpots (s.stagingRegions p) x.comm g) bs
    else s.installSeg p owner entry bs

/-- Take one message of a copy: check, forward and use it (R326, R350, R359). -/
def State.takeCopy (s : State) (p : Nat) (x : Install) (k : Comm) (m : Msg) : State :=
  let owner := m.args.getD 0 0
  let tag := m.args.getD 1 0
  let entry := m.args.getD 2 0
  let key := 2 ^ 20 * owner + m.seg
  match checkedData m with
  | none =>
    let n := Tab.get 0 x.tries key
    if 4 ≤ n then s
    else
      let s := (s.finc .exchResends (s.lowBay p) 1).modInstall p (fun x => { x with tries := Tab.set 0 x.tries key (n + 1) })
      s.toRank p k (k.parent owner k.myRank) { m with op := 7, args := [owner], data := [] }
  | some bs =>
    let s := s.copyDown p k owner tag entry (m.args.getD 3 0) (m.args.getD 4 0) x.version bs
    if tag = 0 then s.modInstall p (fun x => { x with counts := x.counts.filter (fun c => c.1 != owner) ++ [(owner, m.args.getD 4 0)] })
    else if (s.part p).refresh.any Refresh.publish then s
    else if tag = 1 then s.takeSeg p owner entry (m.args.getD 3 0) bs
    else (s.modSeg p owner entry (fun g => { g with fp := some (leField bs 15 8) })).compareSeg p owner entry

/-- A message of a copy comes: one that comes before this device's install waits for it. -/
def State.onCopy (s : State) (p : Nat) (m : Msg) : State :=
  let early (s : State) : State := if m.step ≤ s.fget .turnPolicyVersion p then s else s.modPart p (fun x => { x with early := x.early ++ [m] })
  match (s.part p).install with
  | none => early s
  | some x =>
    if x.comm ≠ m.comm ∨ x.version ≠ m.step then early s
    else
      match s.installComm p x with
      | none => s
      | some k => if m.rank = k.parent (m.args.getD 0 0) k.myRank then s.takeCopy p x k m else s

/-- A message of a rollout copy. -/
def isCopy (m : Msg) : Bool := m.vc == Vc.broadcast && m.ty == Ty.data && m.op == 3 && m.opNo == copyOp

/-- An install begins: this device's own segments enter it and are broadcast, and what has come early is taken. A device that receives
only announces that it has none. -/
def State.openInstall (s : State) (p : Nat) (k : Comm) (version : Nat) (staged owner : Bool) : State :=
  let gs := if owner then s.ownSegs p else []
  let x : Install := { comm := k.id, version := version, staged := staged, counts := [(k.myRank, if staged then gs.length else 0)], segs := [],
                       phase := 0, sum := 0, tries := [] }
  let mine (m : Msg) : Bool := isCopy m && m.comm == k.id && m.step == version
  let ms := (s.part p).early.filter mine
  let s := s.modPart p (fun y => { y with install := some x, early := y.early.filter (fun m => !mine m) })
  let s :=
    if staged then gs.zipIdx.foldl (fun s g =>
      (s.modSeg p k.myRank g.2 (fun y => { y with fp := some g.1.crc })).takeSeg p k.myRank g.2 g.1.data.2 (s.ownBytes g.1)) s
    else s
  let s := s.sendCopy p k version gs
  ms.foldl (fun s m => s.onCopy p m) s

/-- Every rank has announced its segments, and every segment has come with its fingerprint; a publishing owner
awaits nothing. -/
def Install.whole (x : Install) (k : Comm) (publish : Bool) : Bool :=
  publish || (List.range k.count).all (fun r =>
    match x.counts.find? (fun c => c.1 == r) with
    | none => false
    | some c => (List.range c.2).all (fun e =>
        let g := x.seg r e
        !g.stageCrcs.isEmpty && g.fp.isSome))

/-! ### The move from staging (step 8) -/

/-- Install moves of partition p in flight. -/
def State.installMoves (s : State) (p : Nat) : List Move := s.moves.filter (fun m => m.why == 11 && s.holds p (m.owner / 8))

/-- The staged segments go to their install tiles. -/
def State.startInstall (s : State) (p : Nat) : State :=
  match (s.part p).install with
  | none => s
  | some x =>
    let s := s.modInstall p (fun x => { x with phase := 2 })
    x.segs.foldl (fun s g =>
      s.addMove (s.installTile (segSpots (s.copyInto p true) x.comm g)) 11 (2 ^ 20 * g.owner + g.entry) 0 0 0 g.len) s

/-! ### Fetches -/

/-- The segment of this device's own copy as its HBM now holds it. -/
def State.ownCopy (s : State) (p entry : Nat) : Option (Nat × List Byte) :=
  match (s.part p).install with
  | none => none
  | some x =>
    if (s.part p).refresh.any Refresh.publish then (s.ownSegs p)[entry]?.map (fun g => (g.data.2, s.ownBytes g))
    else
      match s.installComm p x with
      | none => none
      | some k =>
        let g := x.seg k.myRank entry
        if g.crc.isNone && g.fetches = 0 then none
        else some (g.dlen, s.readPieces (segSpots (s.copyInto p x.staged) x.comm g))

/-- An owner takes a request to send a segment again (R359). -/
def State.onFetch (s : State) (p : Nat) (m : Msg) : State :=
  let owner := m.args.getD 0 0
  let entry := m.args.getD 1 0
  match s.ownCopy p entry with
  | none => s.modPart p (fun x => { x with early := x.early ++ [m] })
  | some (dlen, bs) =>
    s.send p { Msg.empty with dst := m.src, vc := Vc.broadcast, ty := Ty.data, comm := m.comm, op := MsgOp.fetchData, step := m.step,
                              args := [owner, entry, dlen], data := withCrc bs }

/-- A fetched segment fails its CRC-64 in the message: it is asked for again, at most four times in all, and then what HBM holds stays and
differs (R350, R359). -/
def State.fetchFails (s : State) (p : Nat) (x : Install) (k : Comm) (g : Seg) : State :=
  if 4 ≤ g.fetches then
    s.modSeg p g.owner g.entry (fun y => { y with
      crc := some (crc64 (s.readPieces (segSpots (s.copyInto p x.staged) x.comm g))) })
  else
    (s.modSeg p g.owner g.entry (fun y => { y with fetches := y.fetches + 1 })).toRank p k g.owner
      { Msg.empty with vc := Vc.broadcast, ty := Ty.data, op := MsgOp.fetch, step := x.version, args := [g.owner, g.entry] }

/-- The fetched segment comes, and is installed without staging. -/
def State.onFetched (s : State) (p : Nat) (m : Msg) : State :=
  match (s.part p).install with
  | none => s
  | some x =>
    let owner := m.args.getD 0 0
    let entry := m.args.getD 1 0
    let g := x.seg owner entry
    if x.comm ≠ m.comm ∨ x.version ≠ m.step ∨ g.crc.isSome then s
    else
      match checkedData m, s.installComm p x with
      | some bs, _ => s.installSeg p owner entry bs
      | none, some k => s.fetchFails p x k g
      | none, none => s

/-- Requests for this device's segments that came before they were installed. -/
def State.lateFetches (s : State) (p : Nat) : State :=
  let mine (m : Msg) : Bool := m.op == MsgOp.fetch && m.ty == Ty.data
  let ms := (s.part p).early.filter mine
  if ms = [] then s
  else ms.foldl (fun s m => s.onFetch p m) (s.modPart p (fun x => { x with early := x.early.filter (fun m => !mine m) }))

/-! ### The audit (R360) -/

/-- What the audit's sum, or any other scalar all-reduce, does with its result. -/
def State.turnFinish (s : State) (p : Nat) (c : Coll) (result : List Nat) : State :=
  if c.op = MsgOp.audit then
    let s := s.modPart p (fun x => { x with colls := x.colls.filter (fun d => d.id != c.id) })
    s.modInstall p (fun x => { x with sum := result.headD 0, phase := 4 })
  else s.scalarFinish p c result

/-- Segments that still differ. -/
def Install.differing (x : Install) : Nat := (x.segs.filter (fun g => g.crc != g.fp)).length

/-- The audit begins: this device gives the number of its segments that differ. -/
def State.startAudit (s : State) (p : Nat) (k : Comm) (x : Install) : State :=
  let c0 : Coll := { Coll.base with bay := s.lowBay p, comm := k.id, op := MsgOp.audit, fmt := 7, stepNo := x.version }
  let ms := s.earlyFor p c0
  let (c, s) := (s.modInstall p (fun x => { x with phase := 3 })).openColl p c0
  (s.modPart p (fun y => { y with early := y.early ++ ms })).joinScalar p k State.turnFinish c [x.differing]

/-- The install goes on by itself where it can: from received to installing, and from compared to audited. -/
def State.driveInstall (s : State) (p : Nat) : Option State :=
  match (s.part p).install with
  | none => none
  | some x =>
    let publish := (s.part p).refresh.any Refresh.publish
    match s.installComm p x with
    | none => none
    | some k =>
      if x.phase = 0 ∧ x.whole k publish then some (s.modInstall p (fun x => { x with phase := if x.staged then 1 else 2 }))
      else if x.phase = 2 ∧ (s.installMoves p).isEmpty ∧ x.segs.all Seg.settled then some ((s.lateFetches p).startAudit p k x)
      else none

end Sys2Proof.Machine
end

