-- ==== Sys2Proof/Machine/Turn.lean ====
section
/-!
DEFINITION. The synchronous turn (R17 to R32): its commands' checks, its steps, and its abandon. The rows stand in Machine/Proceed.lean.
-/

namespace Sys2Proof.Machine

def State.modTurn (s : State) (p : Nat) (f : Turn → Turn) : State := s.modPart p (fun x => { x with turn := x.turn.map f })
def State.toStage (s : State) (p n : Nat) : State := s.modTurn p (fun t => { t with stage := n })
def State.toStep (s : State) (p n : Nat) : State := (s.fset .turnStep p n).toStage p 0

/-- The command that drives the turn now. -/
def Turn.driver (t : Turn) : Nat := if t.commit ≠ 0 then t.commit else t.begin_

/-! ### Jobs of the loader for a command (R71) -/

/-- Put a job in the loader's queue; it starts at once where nothing runs ahead of it. -/
def State.queueJob (s : State) (j : Job) : State × Option Nat :=
  let s := s.addJob j
  if s.jobMayRun j then s.startJob j else (s, none)

def jobOf (kind cmd part handle epoch : Nat) : Job :=
  { kind := kind, cmd := cmd, part := part, handle := handle, epoch := epoch, sparge := false, enterLearn := false, running := false }

/-! ### Leaving the communicators (R69, R497) -/

/-- A failure notice that names a rank, to every other rank of a communicator (R299). -/
def State.sendNotice (s : State) (p : Nat) (k : Comm) (rank : Nat) : State :=
  (List.range k.count).foldl (fun s r =>
    if r = k.myRank then s
    else s.toRank p k r { Msg.empty with vc := Vc.control, ty := Ty.notice, args := [rank] }) s

/-- The partition's device leaves its communicators: it names its own rank on each, and reports DEGRADED. -/
def State.leaveComms (s : State) (p : Nat) : State :=
  let s := (s.part p).cfg.comms.foldl (fun s k => s.sendNotice p k k.myRank) s
  (s.modPart p (fun x => { x with degraded := true })).showDegraded

/-! ### The checks of the turn commands (R13, R14, R18, R19, R23 to R30, R68, R267, R497) -/

/-- Two lists of regions are the same places. -/
def samePlaces (a b : List Region) : Bool := a.map (fun r => (r.base, r.size)) == b.map (fun r => (r.base, r.size))

/-- The pools and park areas of two images agree (R18). -/
def Cfg.agrees (a b : Cfg) : Bool := samePlaces (a.regionsOf 1 4) (b.regionsOf 1 4) && samePlaces (a.regionsOf 1 2) (b.regionsOf 1 2)

def regionsMeet (a b : Region) : Bool := decide (a.base < b.base + b.size) && decide (b.base < a.base + a.size)

/-- The staging regions of a rollout image lie in LPDDR5X that the learn image leaves unassigned, or in a region that holds the kept old
copy, of whose pieces `held` are the places (R18). -/
def stagingOk (learn rollout : Cfg) (held : List Nat) : Bool :=
  (rollout.regionsOf 1 5).all (fun r => learn.regions.all (fun q =>
    q.kind != 1 || (q.use == 0 && held.any (fun a => decide (q.base ≤ a) && decide (a < q.base + q.size))) || !regionsMeet r q))

/-- Cut two lists of places of equal use into pieces that go one to one: (source, destination, length). -/
def pairUp : Nat → List (Nat × Nat) → List (Nat × Nat) → List (Nat × Nat × Nat)
  | 0, _, _ => []
  | _ + 1, [], _ => []
  | _ + 1, _, [] => []
  | f + 1, (a, n) :: xs, (b, m) :: ys =>
    let k := min n m
    let xs := if k < n then (a + k, n - k) :: xs else xs
    let ys := if k < m then (b + k, m - k) :: ys else ys
    if k = 0 then pairUp f xs ys else (a, b, k) :: pairUp f xs ys

def places (rs : List Region) : List (Nat × Nat) := (rs.filter (fun r => r.size != 0)).map (fun r => (r.base, r.size))

/-- The old rollout copy in HBM and its place in the learn image's LPDDR5X (R17, R19). -/
def State.keptPairs (s : State) (p : Nat) (t : Turn) : List (Nat × Nat × Nat) :=
  let from_ := places (t.oldCfg.regionsOf 0 0)
  let to_ := places ((s.part p).cfg.regionsOf 1 0)
  pairUp (from_.length + to_.length) from_ to_

/-- LPDDR5X room of the learn image for the whole old rollout copy (R19). -/
def keepRoom (old learn : Cfg) : Bool := decide (regionsLen (old.regionsOf 0 0) ≤ regionsLen (learn.regionsOf 1 0))

/-- The status that the checks of R68 give an image of a turn command. -/
def State.turnImage (s : State) (p : Nat) (g : Staged) (epoch : Nat) : Nat := (s.applyRefusal g p epoch false).1

/-- The later checks of TURN_BEGIN. A TURN_ID of 0, and a TURN_COMM that the active image does not define, are BAD_OPERAND (log entry 87,
DESIGN CHOICE). -/
def State.beginRefusal (s : State) (d : BitVec 512) : Nat :=
  let p := dField d 20 20
  let x := s.part p
  match s.image (dField d 39 32) with
  | none => Status.badOperand
  | some g =>
    let bad := s.turnImage p g (dField d 23 22)
    if x.degraded then Status.degraded
    else if dField d 19 16 == 0 || (x.cfg.comm (dField d 25 24)).isNone then Status.badOperand
    else if x.turn.isSome then Status.busy
    else if s.fget .turnPhase p != Phase.rollout || s.journalOpen p || x.refresh.isSome then Status.badState
    else if dField d 31 28 != s.fget .turnPolicyVersion p then Status.badVersion
    else if !s.epochOk p (dField d 23 22) then Status.badEpoch
    else if bad ≠ 0 then bad
    else if !x.cfg.agrees g.cfg || !g.cfg.parkOk then Status.imageRejected
    else if dField d 21 21 == 1 && !keepRoom x.cfg g.cfg then Status.noRoom else 0

/-- The later checks of TURN_COMMIT. A TURN_ID that is not the open turn's is BAD_OPERAND (log entry 86, DESIGN CHOICE). -/
def State.commitRefusal (s : State) (d : BitVec 512) : Nat :=
  let p := dField d 20 20
  let x := s.part p
  match s.image (dField d 39 32), x.turn with
  | none, _ => Status.badOperand
  | some _, none => if x.degraded then Status.degraded else Status.badState
  | some g, some t =>
    let bad := s.turnImage p g (dField d 23 22)
    if x.degraded then Status.degraded
    else if s.fget .turnPhase p != Phase.learn || t.commit != 0 || s.journalOpen p || x.rollback.isSome then Status.badState
    else if dField d 19 16 != t.turnId then Status.badOperand
    else if decide (dField d 31 28 ≤ s.fget .turnPolicyVersion p) then Status.badVersion
    else if !s.epochOk p (dField d 23 22) || dField d 23 22 == t.learnEpoch then Status.badEpoch
    else if bad ≠ 0 then bad
    else if !x.cfg.agrees g.cfg || !x.cfg.parkOk || !stagingOk x.cfg g.cfg (if t.kept then (s.keptPairs p t).map (fun e => e.2.1) else []) then Status.imageRejected else 0

/-- The later checks of TURN_ABANDON. A TURN_ID that is not the open turn's is BAD_OPERAND (log entry 86, DESIGN CHOICE). -/
def State.abandonRefusal (s : State) (d : BitVec 512) : Nat :=
  let p := dField d 20 20
  match (s.part p).turn with
  | none => Status.badState
  | some t =>
    if s.fget .turnPhase p = Phase.halted ∨ t.abandon ≠ 0 then Status.badState
    else if dField d 19 16 != t.turnId then Status.badOperand
    else if 6 ≤ s.fget .turnStep p then Status.tooLate else 0

/-! ### The start of the turn commands -/

/-- TURN_BEGIN opens the turn: step 1 closes the capo barrier, and pauses the live sequences (R17, R389). -/
def State.runBegin (s : State) (c : Cmd) : State :=
  let p := c.part
  let x := s.part p
  let t : Turn :=
    { turnId := c.arg 19 16, comm := c.arg 25 24, keepOld := bitOf (c.arg 21 21) 0, learnEpoch := c.arg 23 22, learnImage := c.arg 39 32,
      oldEpoch := s.fget .turnLayoutEpoch p, oldCfg := x.cfg,
      oldDigest := (List.range 8).flatMap (fun n => leBytes 4 (s.fget .ldrDigest (8 * p + n))), version := c.arg 31 28, rolloutEpoch := 0,
      rolloutImage := 0, newVersion := 0, abandonOpen := false, begin_ := c.id, commit := 0, abandon := 0, kept := false, gone := [],
      stage := 0 }
  let s := s.modPart p (fun x => { x with turn := some t })
  let s := ((s.fset .turnTurnId p t.turnId).fset .turnStep p 1).fset .turnPhase p Phase.turnIn
  (s.baysOf p).foldl (fun s b => s.dueClose p b true) s

/-- TURN_COMMIT ends the learn phase once the learn steps accepted before it have completed (R25). A barrier that an earlier mismatch
reopened closes again. -/
def State.runCommit (s : State) (c : Cmd) : State :=
  let s := s.modTurn c.part (fun t => { t with
    rolloutEpoch := c.arg 23 22, rolloutImage := c.arg 39 32, newVersion := c.arg 31 28, abandonOpen := bitOf (c.arg 21 21) 0, commit := c.id })
  (s.baysOf c.part).foldl (fun s b => s.dueClose c.part b false) s

/-- TURN_ABANDON takes effect at the end of the step in progress; learn steps not yet started complete with ABORTED (R29), and so does a
TURN_COMMIT that still waits for step 5 to end (log entry 128). -/
def State.runAbandon (s : State) (c : Cmd) : State :=
  let p := c.part
  let s := (s.modTurn p (fun t => { t with abandon := c.id })).fset .turnPhase p Phase.abandoning
  if s.fget .turnStep p = 5 then
    let s := (s.cmds.filter (fun d => d.part == p && d.op == 0x11 && !d.started)).foldl (fun s d => s.complete d Status.aborted 0 0) s
    match (s.part p).turn with
    | some t => if t.commit = 0 ∨ t.stage = 9 then s else (s.modTurn p (fun t => { t with commit := 0 })).finish t.commit Status.aborted 0 0
    | none => s
  else s

/-! ### Fences of the turn (R24, R328) -/

/-- What an arrival carries: TURN_ID, the step, the epoch operand and the policy version of the turn command. -/
def turnKey (t : Turn) (step : Nat) : List Nat :=
  if step < 5 then [t.turnId, step, t.learnEpoch, t.version] else [t.turnId, step, t.rolloutEpoch, t.newVersion]

/-- The step in progress is done here: the device arrives at its fence. -/
def State.turnFence (s : State) (p : Nat) (t : Turn) : State :=
  match s.turnComm p with
  | some k => (s.toStage p 9).openFence p FenceKind.turn k t.driver (turnKey t (s.fget .turnStep p))
  | none => s.toStage p 9

/-- The turn is over. -/
def State.endTurn (s : State) (p phase : Nat) : State :=
  ((s.fset .turnPhase p phase).fset .turnStep p 0).modPart p (fun x => { x with turn := none, fence := none, install := none })

/-- The turn's command fails, and PHASE reads HALTED. -/
def State.failTurn (s : State) (p : Nat) (t : Turn) (status : Nat) : State :=
  let s := s.endTurn p Phase.halted
  let s := s.finish t.driver status 0 0
  if t.abandon ≠ 0 then s.finish t.abandon status 0 0 else s

/-! ### The work of the steps -/

/-- Step 2 for one bay: the records of its log enter the batch pool, and the log is empty (R20, R355, R384). A record that fails its read
is lost with its fault. -/
def State.flushLog (s : State) (p b comm : Nat) : Nat → Nat → State
  | 0, _ => s
  | n + 1, off =>
    if (s.bay b).logTail ≤ off then s.modBay b (fun x => { x with logTail := 0 })
    else
      let a := s.fget .seqArea b + 160 * 2 ^ 20 + off
      let len := 32 + 16 * Mem.readNat s.dev (a + 20) 4
      let s := if s.badRange a len then s.detect (badSource a) (instOf a).1 (instOf a).2 a else (s.poolAdd p comm (s.devRead a len)).1
      State.flushLog s p b comm n (off + roundUp len 64)

def State.flushLogs (s : State) (p comm : Nat) : State :=
  (s.baysOf p).foldl (fun s b => s.flushLog p b comm ((s.bay b).logTail / 64 + 1) 0) s

/-- Step 4: the optimiser state is unparked, and with KEEP_OLD the old copy is parked. -/
def State.startUnpark (s : State) (p : Nat) (t : Turn) : State :=
  let s := s.startPark p t.begin_ true
  let s := if t.keepOld then (s.keptPairs p t).foldl (fun s x => s.addCopy 13 t.begin_ x.1 x.2.1 x.2.2) s else s
  s.modTurn p (fun t => { t with kept := t.keepOld, stage := 1 })

/-- The scratchpad residents of a partition: (tile, device address, byte offset in the tile, bytes) (log entry 42). -/
def State.residents (s : State) (p : Nat) : List (Nat × Nat × Nat × Nat) := (s.tilesOf p).flatMap (fun t => (Config.residents p t).map (fun x => (t, x)))

/-- The fault of loading them: a place outside its tile's WEIGHTS pool, or a source that cannot be read (R199, R50). -/
def State.residentFault (s : State) (p : Nat) : Option (Nat × Nat) :=
  (s.residents p).findSome? (fun x =>
    if (s.part p).cfg.inPool x.1 0 x.2.2.1 x.2.2.2 then s.spanFault p x.2.1 x.2.2.2 false
    else some (Source.poolViolation, scratchBase x.1 + x.2.2.1))

/-- Scratchpad residents are loaded (R17, R395, R442; log entry 42). -/
def State.loadResidents (s : State) (p : Nat) : State :=
  (s.residents p).foldl (fun s x => s.spWrite x.1 x.2.2.1 (s.partRead p x.2.1 x.2.2.2)) s

/-- Step 9: residents, the new version, and the capo barrier lifts. -/
def State.liftTurn (s : State) (p : Nat) (t : Turn) : State :=
  match s.residentFault p with
  | some f => (s.failTurn p t (transferStatus f.1)).faultAt p f
  | none =>
    let s := ((s.loadResidents p).setVersion p t.newVersion).liftBarrier p true false
    (s.endTurn p Phase.rollout).finish t.commit Status.ok 0 0

/-! ### What the loader's jobs of a turn end in (R69) -/

/-- The apply of step 3 or 8 has ended. -/
def State.turnApplied (s : State) (p status : Nat) : State :=
  match (s.part p).turn with
  | none => s
  | some t =>
    if status ≠ 0 then (s.leaveComms p).failTurn p t Status.imageRejected
    else if s.fget .turnStep p = 3 then (s.modPart p (fun x => { x with learnEpoch := t.learnEpoch })).turnFence p t
    else s.toStage p 2

/-- Start the apply of step 3 or 8. -/
def State.startApply (s : State) (p : Nat) (j : Job) : State :=
  match (s.toStage p 1).queueJob j with
  | (s, some status) => s.turnApplied p status
  | (s, none) => s

/-! ### Abandon (R29, R31) -/

/-- The abandon has finished. -/
def State.abandoned (s : State) (p : Nat) (t : Turn) : State :=
  let late := decide (4 ≤ s.fget .turnStep p)
  let s := s.finish t.begin_ Status.abandoned 0 0
  if late && !t.kept then (s.endTurn p Phase.unconfigured).finish t.abandon Status.noOldCopy 0 0
  else ((s.liftBarrier p false false).endTurn p Phase.rollout).finish t.abandon Status.ok 0 0

/-- The old image comes back: job 6 of the loader. -/
def State.reapply (s : State) (p : Nat) (t : Turn) : State := ((s.toStage p 22).queueJob (jobOf 6 t.abandon p 0 t.oldEpoch)).1

/-- An abandon goes on: stage 20 the step in progress has ended, 21 park and restore, 22 the loader. -/
def State.driveAbandon (s : State) (p : Nat) (t : Turn) : Option State :=
  if t.stage = 20 then
    if s.fget .turnStep p < 4 then some (s.reapply p t)
    else
      let s := s.startPark p t.abandon false
      let s := if t.kept then (s.keptPairs p t).foldl (fun s x => s.addCopy 14 t.abandon x.2.1 x.1 x.2.2) s else s
      some (s.toStage p 21)
  else if t.stage = 21 ∧ (s.cmdMoves t.abandon).isEmpty then some (s.reapply p t)
  else none

/-! ### The steps -/

/-- A fence of the turn has its verdict. -/
def State.turnVerdict (s : State) (p : Nat) (t : Turn) (v : Nat) : State :=
  let step := s.fget .turnStep p
  if v ≠ 0 then
    if step = 1 then
      let s := ((s.liftBarrier p false false).endTurn p Phase.rollout).finish t.begin_ v 0 0
      if t.abandon ≠ 0 then s.finish t.abandon Status.ok 0 0 else s
    else if step = 5 then
      let s := (((s.fset .turnPhase p Phase.learn).toStage p 0).modTurn p (fun t => { t with commit := 0, rolloutImage := 0 })).liftBarrier p false false
      s.finish t.commit v 0 0
    else s.failTurn p t v
  else if t.abandon ≠ 0 then
    if step = 5 then ((s.toStage p 20).modTurn p (fun t => { t with commit := 0 })).finish t.commit Status.aborted 0 0 else s.toStage p 20
  else if step = 5 then ((s.fset .turnPhase p Phase.turnOut).toStep p 6).startKettles p 2 0 0
  else if step = 4 then ((s.fset .turnPhase p Phase.learn).toStep p 5).finish t.begin_ Status.ok 0 0
  else s.toStep p (step + 1)

/-- A CKPT_WRITE still reads the park area, for which step 7 waits (R232). -/
def State.parkRead (s : State) (p : Nat) : Bool := (s.part p).flash.any (fun f => f.kind == 0 && f.parked && f.stage == 0)

/-- Learn steps that a TURN_COMMIT waits for (R25). -/
def State.learnBefore (s : State) (p cmd : Nat) : Bool :=
  (s.part p).step.isSome || s.cmds.any (fun c => c.part == p && c.op == 0x11 && decide (c.id < cmd))

/-- The learn-epoch reductions that hold step 7 (R26). -/
def openRed (c : Coll) : Bool := c.op == 0

/-- The turn goes on where it can. -/
def State.driveTurn (s : State) (p : Nat) : Option State :=
  match (s.part p).turn with
  | none => none
  | some t =>
    let step := s.fget .turnStep p
    if s.fget .turnPhase p = Phase.halted then none
    else if 20 ≤ t.stage then s.driveAbandon p t
    else if t.stage = 9 then (s.takeVerdict p FenceKind.turn).map (fun x => x.2.turnVerdict p t x.1)
    else
      match step, t.stage with
      | 1, _ => if s.allShut p then some (s.turnFence p t) else none
      | 2, _ => some ((s.flushLogs p t.comm).turnFence p t)
      | 3, 0 => some (s.startApply p (jobOf 1 t.begin_ p t.learnImage t.learnEpoch))
      | 4, 0 => some (s.startUnpark p t)
      | 4, _ => if (s.cmdMoves t.begin_).isEmpty then some (s.turnFence p t) else none
      | 5, _ =>
        if t.abandon ≠ 0 then if (s.part p).step.isNone then some (s.toStage p 20) else none
        else if t.commit = 0 ∨ s.learnBefore p t.commit ∨ s.kettlesDone p = false ∨ s.allShut p = false then none
        else if s.journalOpen p then some ((s.modTurn p (fun t => { t with commit := 0 })).finish t.commit Status.badState 0 0)
        else some (s.turnFence p t)
      | 6, _ =>
        if !s.kettlesDone p then none
        else if (s.baysOf p).any (fun b => (s.kettle b).failed) then some (s.failTurn p t Status.kettleInterrupted)
        else some (s.turnFence p t)
      | 7, 0 =>
        if t.abandonOpen then some ((s.dropColls p openRed true).toStage p 1)
        else if (s.part p).colls.any openRed then none else some (s.toStage p 1)
      | 7, 1 =>
        match s.turnComm p with
        | some k => some (((s.startPark p t.commit false).toStage p 2).openInstall p k t.newVersion true true)
        | none => none
      | 7, _ =>
        if (s.cmdMoves t.commit).isEmpty && !s.parkRead p && (s.part p).install.any (fun x => x.phase == 1) then some (s.turnFence p t) else none
      | 8, 0 => some (s.startApply p (jobOf 2 t.commit p t.rolloutImage t.rolloutEpoch))
      | 8, 2 => some ((s.toStage p 3).startInstall p)
      | 8, 3 =>
        match (s.part p).install with
        | some x =>
          if x.phase ≠ 4 then none
          else if x.sum = 0 then some (s.turnFence p t) else some (s.failTurn p t Status.auditFailed)
        | none => none
      | 9, _ => some (s.liftTurn p t)
      | _, _ => none

end Sys2Proof.Machine
end

