-- ==== Sys2Proof/Machine/Refresh.lean ====
section
/-!
DEFINITION. Live refresh (R394 to R398), WEIGHT_LOAD (R442) and COMM_REJOIN (R351 to R353): their checks and their progress. The rows stand in
Machine/Proceed.lean.
-/

namespace Sys2Proof.Machine

/-! ### POLICY_PUBLISH and POLICY_SWAP (R394 to R399) -/

def State.refreshStage (s : State) (p n : Nat) : State :=
  s.modPart p (fun x => { x with refresh := x.refresh.map (fun r => { r with stage := n }) })

/-- A refresh ends with a status. -/
def State.endRefresh (s : State) (p status : Nat) : State :=
  match (s.part p).refresh with
  | none => s
  | some r => (s.dropRefresh p).finish r.cmd status 0 0

/-- Sets A and B of a bay are whole and alike (R396). -/
def Cfg.flipOk (c : Cfg) (b : Nat) : Bool :=
  let (as_, bs) := c.copySets b
  (c.copyRegions b).length % 2 == 0 && as_ != [] && as_.map Region.size == bs.map Region.size

/-- Bays of a partition in POINTER_FLIP mode (field 0x09.0x07). -/
def State.flipBays (s : State) (p : Nat) : List Nat := (s.baysOf p).filter (fun b => ((s.part p).cfg.seq b).swapMode == 1)

/-- Every bay is in POINTER_FLIP mode, so that the barrier stays open until the flip. -/
def State.allFlip (s : State) (p : Nat) : Bool := (s.flipBays p).length == (s.baysOf p).length

/-- The later checks of POLICY_PUBLISH. -/
def State.publishRefusal (s : State) (d : BitVec 512) : Nat :=
  let p := dField d 16 16
  if s.fget .turnPhase p != Phase.learn || (s.part p).step.isSome || s.inTurn p then Status.badState
  else if (s.part p).refresh.isSome then Status.swapPending
  else if decide (dField d 23 20 ≤ s.fget .turnPolicyVersion p) then Status.badVersion else 0

/-- The later checks of POLICY_SWAP. -/
def State.swapRefusal (s : State) (d : BitVec 512) : Nat :=
  let p := dField d 16 16
  if s.fget .turnPhase p != Phase.rollout then Status.badState
  else if (s.part p).refresh.isSome then Status.swapPending
  else if decide (dField d 23 20 ≤ s.fget .turnPolicyVersion p) then Status.badVersion
  else if (s.flipBays p).any (fun b => !(s.part p).cfg.flipOk b) then Status.noFlipRoom else 0

def refreshOf (c : Cmd) (publish : Bool) : Refresh :=
  { cmd := c.id, comm := c.arg 18 18, version := c.arg 23 20, publish := publish, recompute := !publish && bitOf (c.arg 17 17) 0, stage := 0 }

/-- The start of POLICY_PUBLISH: the sweep slots run (step 2 of R394). -/
def State.runPublish (s : State) (c : Cmd) : State :=
  let bad := s.publishRefusal c.desc
  if bad ≠ 0 then s.complete c bad 0 0
  else (s.modPart c.part (fun x => { x with refresh := some (refreshOf c true) })).startKettles c.part 2 0 0

/-- The start of POLICY_SWAP: in IN_PLACE mode the capo barrier closes first (step 1 of R395). -/
def State.runSwap (s : State) (c : Cmd) : State :=
  let p := c.part
  let bad := s.swapRefusal c.desc
  if bad ≠ 0 then s.complete c bad 0 0
  else
    let s := s.modPart p (fun x => { x with refresh := some (refreshOf c false) })
    let s := (s.baysOf p).foldl (fun s b => s.fset .seqSwapOpen b 1) s
    if s.allFlip p then s else (s.baysOf p).foldl (fun s b => s.dueClose p b false) s

/-- The device arrives at the refresh fence with its version. -/
def State.refreshFence (s : State) (p : Nat) (r : Refresh) : State :=
  match (s.part p).cfg.comm r.comm with
  | some k => (s.refreshStage p 1).openFence p FenceKind.refresh k r.cmd [r.version]
  | none => s.endRefresh p Status.badOperand

/-- The last steps of a swap: flip, residents, version and lift (R395 to R398). -/
def State.liftSwap (s : State) (p : Nat) (r : Refresh) : State :=
  let s := (s.flipBays p).foldl (fun s b => s.fset .seqFlipSet b (1 - s.fget .seqFlipSet b)) s
  match s.residentFault p with
  | some f => ((s.fset .turnPhase p Phase.halted).endRefresh p (transferStatus f.1)).faultAt p f
  | none => (((s.loadResidents p).setVersion p r.version).liftBarrier p true r.recompute).endRefresh p Status.ok

/-- The audit's sum is known (R394, R395). -/
def State.refreshAudited (s : State) (p : Nat) (r : Refresh) (sum : Nat) : State :=
  if r.publish then
    if sum = 0 then (s.setVersion p r.version).endRefresh p Status.ok else s.endRefresh p Status.auditFailed
  else if sum ≠ 0 then (s.fset .turnPhase p Phase.halted).endRefresh p Status.auditFailed
  else (s.baysOf p).foldl (fun s b => s.dueClose p b false) (s.refreshStage p 3)

/-- The refresh goes on where it can. -/
def State.driveRefresh (s : State) (p : Nat) : Option State :=
  match (s.part p).refresh with
  | none => none
  | some r =>
    match r.stage with
    | 0 =>
      if r.publish then
        if !s.kettlesDone p then none
        else if (s.baysOf p).any (fun b => (s.kettle b).failed) then some (s.endRefresh p Status.kettleInterrupted)
        else some (s.refreshFence p r)
      else if s.allFlip p || s.allShut p then some (s.refreshFence p r) else none
    | 1 =>
      (s.takeVerdict p FenceKind.refresh).map (fun x =>
        if x.1 ≠ 0 then (if r.publish then x.2 else x.2.liftBarrier p false false).endRefresh p x.1
        else
          match (s.part p).cfg.comm r.comm with
          | some k => (x.2.refreshStage p 2).openInstall p k r.version false r.publish
          | none => x.2)
    | 2 =>
      match (s.part p).install with
      | some x => if x.phase = 4 then some (s.refreshAudited p r x.sum) else none
      | none => none
    | _ => if s.allShut p then some (s.liftSwap p r) else none

/-! ### WEIGHT_LOAD (R28, R442) -/

/-- DST lies in one HBM or LPDDR5X region of the partition, outside every page-table area, in whole units of 64 bytes. -/
def State.weightDst (s : State) (p a n : Nat) : Bool :=
  (s.accessFault p a n true).isSome || a % 64 == 0 && n % 64 == 0 && !s.touchesTable p a n &&
    (s.part p).cfg.regions.any (fun r => decide (r.base ≤ a) && decide (a + n ≤ r.base + r.size))

/-- The later checks of WEIGHT_LOAD. -/
def State.weightRefusal (s : State) (fn : Nat) (d : BitVec 512) : Nat :=
  let p := dField d 16 16
  if s.pfBarred fn p then Status.badState
  else if !s.weightDst p (dField d 39 32) (dField d 47 40) then Status.badAddress
  else if s.fget .turnPhase p != Phase.unconfigured && s.fget .turnPhase p != Phase.rollout then Status.badState
  else if (s.part p).refresh.isSome then Status.swapPending
  else if bitOf (dField d 17 17) 1 && decide (dField d 23 20 ≤ s.fget .turnPolicyVersion p) then Status.badVersion else 0

/-- The start of WEIGHT_LOAD: CLOSE closes the barrier, and the copy waits for it. An address outside the partition or unmapped fails the
command, and raises its source (R44, R50). -/
def State.runWeight (s : State) (c : Cmd) : State :=
  match s.accessFault c.part (c.arg 39 32) (c.arg 47 40) true with
  | some src => s.failCmd c (src, c.arg 39 32)
  | none =>
  let s := s.modCmd c.id (fun c => { c with stage := 1 })
  if bitOf (c.arg 17 17) 0 then (s.baysOf c.part).foldl (fun s b => s.dueClose c.part b false) s else s

/-- A load whose copy may begin: the barrier is closed where it asked for that, and the chip move engine has a place. -/
def State.driveWeight (s : State) (p : Nat) : Option State :=
  if 32 ≤ (s.movesOf 96).length then none
  else
    (s.cmds.find? (fun c => c.part == p && c.op == 0x12 && c.stage == 1 && (!bitOf (c.arg 17 17) 0 || s.allShut p))).map (fun c =>
      (s.modCmd c.id (fun c => { c with stage := 2 })).addMove 96 3 c.id 0 (c.arg 31 24) (c.arg 39 32) (c.arg 47 40))

/-- The status that an INSTALL meets when its copy ends: its conditions hold then too (R14, R28, R442). -/
def State.installRefusal (s : State) (c : Cmd) : Nat :=
  let p := c.part
  if s.fget .turnPhase p != Phase.unconfigured && s.fget .turnPhase p != Phase.rollout then Status.badState
  else if (s.part p).refresh.isSome then Status.swapPending
  else if decide (c.arg 23 20 ≤ s.fget .turnPolicyVersion p) then Status.badVersion else 0

/-- The copy of a load lands, and INSTALL takes effect (R28, R442). -/
def State.landWeight (s : State) (m : Move) : State :=
  let s := s.dropMove m.id
  match s.cmd m.ref with
  | none => s
  | some c =>
    let p := c.part
    let (bs, ok, s) := s.hostTake c m.src m.len
    if !ok then s.failTag c
    else
      match s.spanFault p m.dst m.len true with
      | some f => s.failCmd c f
      | none =>
        let bad := if bitOf (c.arg 17 17) 1 then s.installRefusal c else 0
        if bad ≠ 0 then s.complete c bad 0 0 else
        let s := s.partWrite p m.dst bs
        if !bitOf (c.arg 17 17) 1 then s.complete c Status.ok 0 0
        else if !s.allShut p then s.complete c Status.badState 0 0
        else
          match s.residentFault p with
          | some f => s.failCmd c f
          | none =>
            let s := (s.loadResidents p).setVersion p (c.arg 23 20)
            let s := if s.fget .turnPhase p = Phase.unconfigured then s.fset .turnPhase p Phase.rollout else s
            (s.liftBarrier p true false).complete c Status.ok 0 0

/-! ### COMM_REJOIN (R351 to R353) -/

/-- The later checks of COMM_REJOIN. What the checks of R13 and R68 give its image is agreed on the fence (R352). -/
def State.rejoinRefusal (s : State) (d : BitVec 512) : Nat :=
  let p := dField d 16 16
  match s.image (dField d 39 32) with
  | none => Status.badOperand
  | some g =>
    let bad := (s.applyRefusal g p (dField d 19 18) false).1
    if (s.part p).degraded then Status.degraded
    else if s.stepRuns p then Status.badState
    else if bad = Status.imageRejected ∨ bad = Status.badEpoch then 0 else bad

/-- What a rejoin arrival carries, with the status of a member whose apply failed. -/
def rejoinKey (c : Cmd) (k : Comm) (status : Nat) : List Nat :=
  [c.arg 19 18, c.arg 31 24, leNat ((sha256 (k.ranks.flatMap (leBytes 2))).take 8), status]

/-- The apply of a rejoin has ended: the member arrives at the fence of the new communicator. -/
def State.rejoinApplied (s : State) (p cmd status : Nat) : State :=
  match s.cmd cmd, s.fenceComm p FenceKind.rejoin (((s.cmd cmd).map (fun c => c.arg 17 17)).getD 0) with
  | some c, some k => s.openFence p FenceKind.rejoin k cmd (rejoinKey c k status)
  | some c, none => (s.fset .turnPhase p Phase.halted).complete c (if status = 0 then Status.imageRejected else status) 0 0
  | none, _ => s

/-- The start of COMM_REJOIN. -/
def State.runRejoin (s : State) (c : Cmd) : State :=
  let bad := s.rejoinRefusal c.desc
  let found := ((s.image (c.arg 39 32)).map (fun g => (s.applyRefusal g c.part (c.arg 19 18) false).1)).getD 0
  if bad ≠ 0 then s.complete c bad 0 0
  else if found ≠ 0 then s.rejoinApplied c.part c.id found
  else
    match s.queueJob (jobOf 3 c.id c.part (c.arg 39 32) (c.arg 19 18)) with
    | (s, some status) => s.rejoinApplied c.part c.id status
    | (s, none) => s

/-- The rejoin fence has its verdict. -/
def State.driveRejoin (s : State) (p : Nat) : Option State :=
  match (s.part p).fence with
  | none => none
  | some f =>
    (s.takeVerdict p FenceKind.rejoin).map (fun x =>
      let s := x.2
      if x.1 ≠ 0 then (s.fset .turnPhase p Phase.halted).finish f.cmd x.1 0 0
      else
        let epoch := f.key.getD 0 0
        let s := (s.fset .turnPhase p Phase.learn).modPart p (fun y => { y with
          rollback := some (f.key.getD 1 0), install := none, learnEpoch := epoch,
          failed := y.failed.filter (fun e => !(y.cfg.comm e.1).any (fun k => k.ranks.contains e.2 || k.spares.contains e.2)),
          turn := y.turn.map (fun t => { t with stage := 0, commit := 0, learnEpoch := epoch, rolloutImage := 0 }) })
        let s := if s.inTurn p then s.fset .turnStep p 5 else s
        s.finish f.cmd Status.ok 0 0)

end Sys2Proof.Machine
end

