-- ==== Sys2Proof/Machine/Replay.lean ====
section
/-!
DEFINITION. Replay runs (R501, R502): the command, the reading of a capture, and the start and end of a run. What a run consumes tick by
tick stands in Machine/Tick.lean.
-/

namespace Sys2Proof.Machine

/-- Cut a capture into records (TYPE, FLAGS, RSEQ, payload), without its PAD records (R499). -/
def replayRecords : Nat → List Byte → List (Nat × Nat × Nat × List Byte)
  | 0, _ => []
  | n + 1, bs =>
    if bs.length < 64 then []
    else
      let len := leField bs 7 4
      let row := (leField bs 0 0, leField bs 1 1, leField bs 15 8, (bs.drop 16).take len)
      let rest := replayRecords n (bs.drop (roundUp (16 + len) 64))
      if row.1 = 0 then rest else row :: rest

/-- What a run does with its records: those it consumes in order, the outputs it compares, and the reads it answers and checks. -/
def replayOf (cmd image version : Nat) (rs : List (Nat × Nat × Nat × List Byte)) : Replay :=
  let of_ (k : Nat) : List (Nat × Nat × Nat × List Byte) := rs.filter (fun r => r.1 == k)
  { cmd := cmd, image := image, live := false, rows := rs.filter (fun r => r.1 != 3 && r.1 != 5 && r.1 != 9 && r.1 != 11),
    outs := (of_ 9).map (fun r => (r.2.2.1, r.2.2.2.take 32)),
    data := (of_ 3).map (fun r => (r.2.2.1, leField r.2.2.2 7 0, leField r.2.2.2 15 8, r.2.1, r.2.2.2.drop 16)),
    flash := (of_ 5).map (fun r => (r.2.2.1, leField r.2.2.2 7 0, (r.2.2.2.drop 8).take 32)), version := version, verdict := (0, 0) }

/-- The image of a run no longer is what was staged: the run ends with the status of its apply (R66). -/
def State.refuseReplay (s : State) (p status : Nat) : State :=
  match (s.part p).replayRun with
  | none => s
  | some r => ((s.fset .rplState p 3).modPart p (fun x => { x with replayRun := none })).finish r.cmd status 0 0

/-- Put a run's apply in the loader's queue (R501). -/
def State.queueRun (s : State) (p : Nat) (j : Job) : State :=
  match s.queueJob j with
  | (s, some status) => s.refuseReplay p status
  | (s, none) => s

/-- The start of REPLAY_RUN: its records are read whole, and its apply enters the loader. -/
def State.runReplay (s : State) (c : Cmd) : State :=
  let p := c.part
  let n := c.arg 39 32
  match s.image (c.arg 47 40) with
  | none => s.complete c Status.badOperand 0 0
  | some g =>
    let bad := (s.applyRefusal g p 0 true).1
    let go (bs : List Byte) : State :=
      match replayRecords (bs.length / 64) bs with
      | (1, _, _, start) :: rest =>
        if start.take 32 ≠ g.digest then s.complete c Status.badOperand 0 0
        else
          let r := replayOf c.id g.handle (s.fget .turnPolicyVersion p) ((1, 0, 1, start) :: rest)
          ((s.fset .rplState p 5).modPart p (fun x => { x with replayRun := some r })).queueRun p (jobOf 5 c.id p g.handle 0)
      | _ => s.complete c Status.badOperand 0 0
    if bad ≠ 0 ∧ bad ≠ Status.badEpoch then s.complete c bad 0 0
    else if bitOf (c.arg 17 17) 0 then go (s.hostRead (c.arg 31 24) n)
    else
      match s.dataFault p (c.arg 31 24) n with
      | some f => s.failCmd c f
      | none => go (s.partRead p (c.arg 31 24) n)

/-- The partition is disabled: the image is applied with its sparge, and version and epoch are those of START (R501). -/
def State.replayApplied (s : State) (p : Nat) (j : Job) : State :=
  match (s.part p).replayRun, s.image j.handle with
  | some r, some g =>
    let start := (r.rows.headD (1, 0, 0, [])).2.2.2
    let epoch := leField start 33 32
    let version := leField start 39 36
    let s := s.applyImage { j with sparge := true, epoch := epoch } g
    (s.fset .turnPolicyVersion p version).modPart p (fun x => { x with
      replayRun := some { r with live := true, rows := r.rows.drop 1, version := max r.version version } })
  | _, _ => s

/-- A run ends: the partition is sparged, and its command completes with the verdict (R501, R502). -/
def State.endReplay (s : State) (p status rseq : Nat) : State :=
  match (s.part p).replayRun with
  | none => s
  | some r =>
    let s := { s with cmds := s.cmds.filter (fun c => !(c.replayed && c.part == p)) }
    let s := (s.haltWork p).sparge (s.baysOf p) [p]
    let s := (((s.fset .turnPhase p Phase.unconfigured).fset .turnStep p 0).fset .turnPolicyVersion p r.version).fset .rplState p 3
    (s.modPart p (fun x => { x with turn := none, replayRun := none })).finish r.cmd status rseq 0

end Sys2Proof.Machine
end

