-- ==== Sys2Proof/Machine/Proceed.lean ====
section
/-!
DEFINITION. What goes on by itself once an event has happened: the loader, closing barriers, turns, refreshes, rejoins, installs and
loads; and the rows that set them going (R17 to R33, R68 to R75, R158, R328, R359, R394, R395, R442, R448, R449, R455).
-/

namespace Sys2Proof.Machine

/-! ### Going on -/

/-- A job of the loader has ended with a status. -/
def State.jobDone (s : State) (j : Job) (status : Nat) : State :=
  match j.kind with
  | 0 => s.finish j.cmd status 0 0
  | 1 => s.turnApplied j.part status
  | 2 => s.turnApplied j.part status
  | 3 => s.rejoinApplied j.part j.cmd status
  | 4 => s.finish j.cmd status 0 0
  | 5 => if status = 0 then s.replayApplied j.part j else s.refuseReplay j.part status
  | _ =>
    match (s.part j.part).turn with
    | some t => s.abandoned j.part t
    | none => s

/-- A running job whose windows have ended does its work (R70, R72). -/
def State.driveLoader (s : State) : Option State :=
  (s.loader.find? (fun j => j.running && !s.jobDrains j)).map (fun j =>
    let (s, status) := s.finishJob j
    s.jobDone j status)

/-- Bays of a partition whose barrier is due to close and can (row 6 of the boundary). -/
def State.driveClose (s : State) (p : Nat) : Option State :=
  let s' := (s.baysOf p).foldl (fun s b => s.boundary p b (fun s => s.closeBay p b)) s
  if (s.baysOf p).any (fun b => (s.bay b).closing && !(s'.bay b).closing) then some s' else none

/-- Stacks that KETTLE_RESUME or KETTLE_ABANDON names. -/
def journalStacks (d : BitVec 512) : List Nat := bitList 16 (dField d 19 18)

/-- A KETTLE_RESUME whose kettles have all ended completes: OK, or KETTLE_INTERRUPTED where one has stopped again (R266, R268). -/
def State.driveResume (s : State) (p : Nat) : Option State :=
  (s.cmds.find? (fun c => c.part == p && c.op == 0x78 && c.started && (journalStacks c.desc).all (fun st => (s.kettle st).why != 3))).map (fun c =>
    if c.stage = 0 then s.complete c Status.ok 0 0 else s.complete c Status.kettleInterrupted 0 (detailOf c.stage none))

/-- One thing of partition p that goes on. -/
def State.driveOne (s : State) (p : Nat) : Option State :=
  s.driveLoader.orElse (fun _ => (s.driveClose p).orElse (fun _ => (s.driveTurn p).orElse (fun _ => (s.driveRefresh p).orElse (fun _ =>
    (s.driveRejoin p).orElse (fun _ => (s.driveInstall p).orElse (fun _ => (s.driveWeight p).orElse (fun _ => s.driveResume p)))))))

/-- Everything of partition p that goes on, and what it detects. -/
def State.driveN : Nat → State → Nat → State
  | 0, s, _ => s.settle
  | n + 1, s, p =>
    match s.driveOne p with
    | some s' => State.driveN n s'.settle p
    | none => s.settle

def State.proceed (s : State) (p : Nat) : State := State.driveN 64 s p

/-- Every partition goes on. -/
def State.proceedAll (s : State) : State := (List.range 12).foldl (fun s p => s.proceed p) s

/-! ### The loader's rows (R68 to R75, R448, R455) -/

/-- The start of IMAGE_APPLY. -/
def State.runApply (s : State) (c : Cmd) : State :=
  let j := { (jobOf 0 c.id (c.arg 20 20) (c.arg 39 32) (c.arg 23 22)) with sparge := bitOf (c.arg 21 21) 0, enterLearn := bitOf (c.arg 21 21) 1 }
  match s.queueJob j with
  | (s, some status) => s.jobDone j status
  | (s, none) => s

/-- The checks of R68 for an apply. -/
def State.applyLater (s : State) (d : BitVec 512) : Nat × Nat :=
  match s.image (dField d 39 32) with
  | some g => s.applyRefusal g (dField d 20 20) (dField d 23 22) true
  | none => (Status.badOperand, 0)

/-- A partition image whose PART names an undefined partition is BAD_OPERAND, before its BAY_SET is compared (log entry 95, DESIGN CHOICE).
-/
def applySpec (s : State) (fn : Nat) (d : BitVec 512) : Spec :=
  { op := 0x41, fnOk := fn == 0, part := if dField d 20 20 < 12 then dField d 20 20 else 0xFF, spargeOk := bitOf (dField d 21 21) 0,
    operands := (s.partDefined (dField d 20 20) || dField d 20 20 == 0xFF) && decide (dField d 21 21 < 4) && dZero d 19 16 && dZero d 31 24 &&
      dZero d 63 40 && (s.image (dField d 39 32)).isSome }

/-- LAST_APPLY shows an apply that is rejected when it is submitted (R77). A failure without a reason code leaves LAST_APPLY unchanged (log
entry 94, DESIGN CHOICE). -/
def State.applyNoted (s : State) (fn ring : Nat) : State :=
  match (if s.fetchable fn ring then s.slotDesc fn ring else none) with
  | some d =>
    let (status, why) := s.applyLater d
    if dField d 0 0 = 0x41 ∧ s.stalled (applySpec s fn d) = false ∧ s.refusal fn d (applySpec s fn d) = 0 ∧ status = Status.imageRejected then
      s.lastApply (dField d 20 20) why
    else s
  | none => s

/-- IMAGE_APPLY (R68 to R75). -/
def execImageApply (fn ring : Nat) (s : State) : Host.Outcome State Fault Refusal :=
  .next (((s.applyNoted fn ring).hostCmd fn ring 0x41 (fun s d => applySpec s fn d) (fun s d => (s.applyLater d).1) (fun s c => s.runApply c)).proceedAll)

/-- The start of SPARGE (R455, R459). -/
def State.runSparge (s : State) (c : Cmd) : State := (s.queueJob (jobOf 4 c.id c.part 0 0)).1

/-- SPARGE (R455 to R462). -/
def execSparge (fn ring : Nat) (s : State) : Host.Outcome State Fault Refusal :=
  .next ((s.hostCmd fn ring 0x81
    (fun s d => { op := 0x81, fnOk := fn == 0, part := dField d 16 16, spargeOk := true,
                  operands := s.partDefined (dField d 16 16) && dZero d 63 17 })
    (fun _ _ => 0) (fun s c => s.runSparge c)).proceedAll)

/-- LOADER_APPLY_START (R71): the next job of the loader starts. -/
def execLoaderApplyStart (s : State) : Host.Outcome State Fault Refusal :=
  .next (
    match s.loader.find? (fun j => !j.running && s.jobMayRun j) with
    | none => s
    | some j =>
      (match s.startJob j with
        | (s, some status) => s.jobDone j status
        | (s, none) => s).proceedAll)

/-- The window in front ends: what still runs is stopped, and a VF's disable may be followed by its sparge (R448, R449). -/
def State.windowEnd (s : State) (p : Nat) (d : Drain) : State :=
  let s := (s.endDrain p d).modPart p (fun x => { x with drain := x.drain.erase d })
  if d.why = 1 ∧ s.fget .partSpargeOnDisable p = 1 then (s.queueJob (jobOf 4 0 p 0 0)).1 else s

/-- DRAIN_WINDOW_END (R448). -/
def execDrainWindowEnd (p : Nat) (s : State) : Host.Outcome State Fault Refusal :=
  .next (
    match (s.part p).drain with
    | [] => s
    | d :: _ => (s.windowEnd p d).proceedAll)

/-! ### Turn commands (R17 to R32) -/

/-- What the common checks need of a turn command. -/
def State.turnSpec (s : State) (fn op : Nat) (d : BitVec 512) (ok : Bool) : Spec :=
  { op := op, fnOk := fn == 0, part := dField d 20 20, spargeOk := false, operands := s.partDefined (dField d 20 20) && ok }

/-- A command whose checks no longer hold when it starts is refused then. -/
def State.orRefuse (s : State) (c : Cmd) (status : Nat) (k : State) : State := if status ≠ 0 then s.complete c status 0 0 else k

/-- TURN_BEGIN (R17, R22 to R24). -/
def execTurnBegin (fn ring : Nat) (s : State) : Host.Outcome State Fault Refusal :=
  .next ((s.hostCmd fn ring 0x60
    (fun s d => s.turnSpec fn 0x60 d (decide (dField d 21 21 < 2) && dZero d 27 26 && dZero d 63 40 &&
      (s.image (dField d 39 32)).isSome))
    (fun s d => s.beginRefusal d)
    (fun s c => s.orRefuse c (s.beginRefusal c.desc) (s.runBegin c))).proceedAll)

/-- TURN_COMMIT (R25, R26). -/
def execTurnCommit (fn ring : Nat) (s : State) : Host.Outcome State Fault Refusal :=
  .next ((s.hostCmd fn ring 0x61
    (fun s d => s.turnSpec fn 0x61 d (decide (dField d 21 21 < 2) && dZero d 27 24 && dZero d 63 40 && (s.image (dField d 39 32)).isSome))
    (fun s d => s.commitRefusal d)
    (fun s c => s.orRefuse c (s.commitRefusal c.desc) (s.runCommit c))).proceedAll)

/-- TURN_ABANDON (R29 to R31). -/
def execTurnAbandon (fn ring : Nat) (s : State) : Host.Outcome State Fault Refusal :=
  .next ((s.hostCmd fn ring 0x62
    (fun s d => s.turnSpec fn 0x62 d (dZero d 63 21))
    (fun s d => s.abandonRefusal d)
    (fun s c => s.orRefuse c (s.abandonRefusal c.desc) (s.runAbandon c))).proceedAll)

/-! ### Refresh, loads and rejoin -/

/-- POLICY_PUBLISH (R394, R399). -/
def execPolicyPublish (fn ring : Nat) (s : State) : Host.Outcome State Fault Refusal :=
  .next ((s.hostCmd fn ring 0x69
    (fun s d =>
      let p := dField d 16 16
      { op := 0x69, fnOk := fn == 0, part := p, spargeOk := false,
        operands := s.partDefined p && dZero d 17 17 && dZero d 19 19 && dZero d 63 24 && ((s.part p).cfg.comm (dField d 18 18)).isSome })
    (fun s d => s.publishRefusal d) (fun s c => s.runPublish c)).proceedAll)

/-- POLICY_SWAP (R395 to R399). -/
def execPolicySwap (fn ring : Nat) (s : State) : Host.Outcome State Fault Refusal :=
  .next ((s.hostCmd fn ring 0x68
    (fun s d =>
      let p := dField d 16 16
      { op := 0x68, fnOk := pfOrVf fn p, part := p, spargeOk := false,
        operands := s.partDefined p && decide (dField d 17 17 < 2) && dZero d 19 19 && dZero d 63 24 &&
          ((s.part p).cfg.comm (dField d 18 18)).isSome })
    (fun s d => s.swapRefusal d) (fun s c => s.runSwap c)).proceedAll)

/-- WEIGHT_LOAD (R442). -/
def execWeightLoad (fn ring : Nat) (s : State) : Host.Outcome State Fault Refusal :=
  .next ((s.hostCmd fn ring 0x12
    (fun s d =>
      let p := dField d 16 16
      { op := 0x12, fnOk := pfOrVf fn p, part := p, spargeOk := false,
        operands := s.partDefined p && decide (dField d 17 17 < 4) && dZero d 19 18 && dZero d 63 48 &&
          (bitOf (dField d 17 17) 1 || dField d 23 20 == 0) })
    (fun s d => s.weightRefusal fn d) (fun s c => s.runWeight c)).proceedAll)

/-- COMM_REJOIN (R351, R352). -/
def execCommRejoin (fn ring : Nat) (s : State) : Host.Outcome State Fault Refusal :=
  .next ((s.hostCmd fn ring 0x66
    (fun s d =>
      let p := dField d 16 16
      { op := 0x66, fnOk := fn == 0, part := p, spargeOk := false,
        operands := s.partDefined p && dZero d 23 20 && dZero d 63 40 &&
          (s.image (dField d 39 32)).any (fun g => (g.cfg.comm (dField d 17 17)).isSome) })
    (fun s d => s.rejoinRefusal d) (fun s c => s.runRejoin c)).proceedAll)

/-- REPLAY_RUN (R501 to R503). -/
def execReplayRun (fn ring : Nat) (s : State) : Host.Outcome State Fault Refusal :=
  .next ((s.hostCmd fn ring 0x90
    (fun s d =>
      let p := dField d 16 16
      { op := 0x90, fnOk := fn == 0, part := p, spargeOk := false,
        operands := s.partDefined p && decide (dField d 17 17 < 2) && dZero d 23 18 && dZero d 63 48 && (s.image (dField d 47 40)).isSome })
    (fun s d => if s.confidential (dField d 16 16) then Status.badState else 0)
    (fun s c => s.runReplay c)).proceedAll)

/-! ### Events -/

/-- STEP_END (R158, R184): the tiles and kettles of the learn step have finished. -/
def execStepEnd (p : Nat) (s : State) : Host.Outcome State Fault Refusal :=
  .next (if (s.part p).step.isSome && (s.dropNorm p).learnOver p then ((s.dropNorm p).endLearn p).proceed p else s)

/-- FENCE_ARRIVAL (R328, R352, R395). -/
def execFenceArrival (p : Nat) (m : Msg) (s : State) : Host.Outcome State Fault Refusal :=
  .next (s.onMsg p m Vc.control Ty.fence (m.op == MsgOp.arrival) (fun s => (s.onArrival p m).proceed p))

/-- FENCE_RELEASE (R24, R328, R352, R395). -/
def execFenceRelease (p : Nat) (m : Msg) (s : State) : Host.Outcome State Fault Refusal :=
  .next (s.onMsg p m Vc.control Ty.fence (m.op == MsgOp.release) (fun s => (s.onRelease p m).proceed p))

/-- BROADCAST_MESSAGE (R326, R359): a BROADCAST of a word, a rollout copy, or a segment fetched again. -/
def execBroadcastMessage (p : Nat) (m : Msg) (s : State) : Host.Outcome State Fault Refusal :=
  .next (
    if isCopy m then s.onMsg p m Vc.broadcast Ty.data true (fun s => (s.onCopy p m).proceed p)
    else if m.op = 3 then s.collective p m Vc.broadcast Ty.data (fun s => (s.onGather p m).xchEngine p)
    else s.onMsg p m Vc.broadcast Ty.data (m.op == MsgOp.fetchData) (fun s => (s.onFetched p m).proceed p))

/-- SCALAR_VALUE_MESSAGE (R295, R326, R343, R360). -/
def execScalarValueMessage (p : Nat) (m : Msg) (s : State) : Host.Outcome State Fault Refusal :=
  .next (
    if m.op = 4 ∨ m.op = 16 ∨ m.op = MsgOp.audit then
      s.collective p m Vc.scalar Ty.data (fun s => ((s.onScalar p State.turnFinish m).xchEngine p).proceed p)
    else s)

/-- REPLICA_FETCH_REQUEST (R359). -/
def execReplicaFetchRequest (p : Nat) (m : Msg) (s : State) : Host.Outcome State Fault Refusal :=
  .next (s.onMsg p m Vc.broadcast Ty.data (m.op == MsgOp.fetch) (fun s => s.onFetch p m))

/-! ### The sequencer's boundary and launch (R370, R371, R389, R392, R498, R501) -/

/-- Rows 3, 5, 6 and 7 of a boundary, with what a group's home has told. -/
def State.boundaryRows (s : State) (p b : Nat) : State :=
  s.boundary p b (fun s =>
    let s := if (s.bay b).stepping then s.endStep p b ((s.bay b).pausing && s.closesNow p b) else s
    let s := s.lateGroups p b
    let s := if s.replays p && !(s.boundaryRow p b).isSome then s else s.applyEdits p b
    let s := s.closeBay p b
    State.takeIn 8192 s p b)

/-- A replay run's boundary waits for the records before its own, other than messages (R501). -/
def State.replayWaits (s : State) (p b : Nat) : Bool :=
  s.replays p && (match s.boundaryRow p b with
    | some (n, _) => !((s.part p).replayRun.any (fun r => (r.rows.find? (fun x => x.1 != 4)).any (fun x => x.2.2.1 == n)))
    | none => false)

/-- ROLLOUT_STEP_BOUNDARY (R370): the tiles of the bay's step have ended with their words (R184), or no step runs. -/
def execRolloutStepBoundary (b : Nat) (s : State) : Host.Outcome State Fault Refusal :=
  .next (
    match s.partOfBay b with
    | none => s
    | some p =>
      if !(s.rolloutTiles b).isEmpty || s.rolloutWords b || s.replayWaits p b || s.safe || s.fget .fcPartContained p == 1 then s
      else
        (s.boundaryRows p b).settle.proceed p)

/-- ROLLOUT_STEP_LAUNCH (R371 to R374). -/
def execRolloutStepLaunch (b : Nat) (s : State) : Host.Outcome State Fault Refusal :=
  .next (
    match s.partOfBay b with
    | none => s
    | some p => if s.fget .turnPhase p = Phase.rollout ∧ s.replayWaits p b = false then (s.seqLaunch p b).settle else s)

end Sys2Proof.Machine
end

