-- ==== Sys2Proof/Machine/Peers.lean ====
section
/-!
DEFINITION. Ranks that fail (R281, R297 to R301, R327, R349, R351, R392): the timers that declare a rank, notices, and the stop that
follows on every device (R32, R184).
-/

namespace Sys2Proof.Machine

/-! ### What a failure stops (R32, R281, R299, R301) -/

/-- The collectives of the stopped step end, and XCH words that still wait end with them; the reductions of the communicator are discarded, those of another stay as orphans. The
stop raises no further fault (R299). -/
def State.peerColls (s : State) (p comm : Nat) : State :=
  let reds := (s.part p).colls.filter (fun c => c.op == 0 && c.comm == comm)
  let s := reds.foldl (fun s c => s.fset .redAborted c.bay c.stepNo) s
  let s := (s.dropColls p (fun c => c.op != 0 || c.comm == comm) false).orphan p
  (s.tilesOf p).foldl (fun s t => State.releaseN 16 (s.failWords t (fun f => f.cls == 6 && !f.started)) t) s

/-- The learn step completes with PEER_FAILED, or with DECLARED_FAILED on the device that was named; the name counts even after another
rank's (R299). -/
def State.peerStep (s : State) (p : Nat) (named : Bool) : State :=
  let d := detailOf Source.rankDeclaredFailed none
  let s := s.failLearn p (if named then Status.declaredFailed else Status.peerFailed) d
  match (s.part p).step with
  | some st =>
    if named && st.status == Status.peerFailed then
      s.modPart p (fun x => { x with step := some { st with status := Status.declaredFailed } })
    else s
  | none => s

/-- Rollout steps in progress stop as a learn step does (R184). -/
def State.peerRollout (s : State) (p : Nat) : State := (s.baysOf p).foldl (fun s b => if (s.bay b).stepping then s.failRollout b else s) s

/-- An open turn command completes with PEER_FAILED and PHASE reads HALTED; the turn stays open for the learner failure path (R32). -/
def State.peerTurn (s : State) (p comm device : Nat) : State :=
  let s := s.modTurn p (fun t => { t with gone := if t.gone.contains device then t.gone else device :: t.gone })
  match (s.part p).turn with
  | none => s
  | some t =>
    if t.comm ≠ comm ∨ s.fget .turnPhase p = Phase.halted ∨ (s.fget .turnStep p = 5 ∧ t.commit = 0) then s
    else
      let s := (s.fset .turnPhase p Phase.halted).modPart p (fun x => { x with
        turn := some { t with begin_ := 0, commit := 0, abandon := 0, stage := 0 }, fence := none, install := none })
      let s := s.finish t.driver Status.peerFailed 0 0
      if t.abandon ≠ 0 then s.finish t.abandon Status.peerFailed 0 0 else s

/-- A refresh whose communicator loses a rank ends; a live copy written in part leaves the barrier closed. -/
def State.peerRefresh (s : State) (p comm : Nat) : State :=
  match (s.part p).refresh with
  | none => s
  | some r =>
    if r.comm ≠ comm then s
    else if r.publish || s.allFlip p then s.endRefresh p Status.peerFailed
    else if r.stage ≤ 1 then (s.liftBarrier p false false).endRefresh p Status.peerFailed
    else (s.fset .turnPhase p Phase.halted).endRefresh p Status.peerFailed

/-- A rejoin whose fence loses a rank fails (R32, R328). -/
def State.peerRejoin (s : State) (p comm : Nat) : State :=
  match (s.part p).fence with
  | some f =>
    if f.kind = FenceKind.rejoin ∧ f.comm = comm then
      ((s.fset .turnPhase p Phase.halted).modPart p (fun x => { x with fence := none })).finish f.cmd Status.peerFailed 0 0
    else s
  | none => s

/-- Everything that a device does when it declares a rank or receives a notice, which name a device of a communicator (R299, R351). -/
def State.peerStop (s : State) (p comm device : Nat) (named : Bool) : State :=
  let s := s.modPart p (fun x => { x with failed := if x.failed.contains (comm, device) then x.failed else (comm, device) :: x.failed })
  let s := ((s.peerColls p comm).peerStep p named).peerRollout p
  ((s.peerTurn p comm device).peerRefresh p comm).peerRejoin p comm

/-- Show a declaration in RED_DECLARED of every bay of the partition: ROLE 0 on the declaring device, 1 on the one that was named. -/
def State.showDeclared (s : State) (p role comm rank : Nat) : State :=
  (s.baysOf p).foldl (fun s b => (((s.fset .redDeclValid b 1).fset .redDeclRole b role).fset .redDeclComm b comm).fset .redDeclRank b rank) s

/-- This device declares the device failed that has this rank in k; a notice names its rank in the communicator of the image in force
(R299). -/
def State.declare (s : State) (p : Nat) (k : Comm) (n : Nat) : State :=
  let device := k.ranks.getD n 0
  let rank := (((s.part p).cfg.comm k.id).map (fun c => c.ranks.idxOf device)).getD n
  let s := (s.showDeclared p 0 k.id rank).detect Source.rankDeclaredFailed Kind.bay (s.lowBay p) (k.id * 2 ^ 12 + rank)
  (((s.sendNotice p k rank).peerStop p k.id device false).settle).proceed p

/-- A notice comes. -/
def State.onNotice (s : State) (p : Nat) (m : Msg) : State :=
  match (s.part p).cfg.comm m.comm with
  | none => s
  | some k =>
    let rank := m.args.headD 0
    let named := rank == k.myRank
    let s := if named then s.showDeclared p 1 k.id rank else s
    ((s.peerStop p k.id (k.ranks.getD rank 0) named).settle).proceed p

/-- NOTICE (R299, R351). -/
def execNotice (p : Nat) (m : Msg) (s : State) : Host.Outcome State Fault Refusal :=
  .next (s.onMsg p m Vc.control Ty.notice true (fun s => s.onNotice p m))

/-! ### Timers of reductions (R281, R297, R298) -/

/-- The open collective that a timer names, with its communicator. -/
def State.timed (s : State) (p comm opNo : Nat) (ok : Coll → Bool) : Option (Comm × Coll) :=
  if (s.replays p) then none
  else
    match (s.part p).cfg.comm comm, (s.part p).colls.find? (fun c => c.comm == comm && c.opNo == opNo && ok c) with
    | some k, some c => some (k, c)
    | _, _ => none

/-- An open gradient reduction. -/
def liveRed (c : Coll) : Bool := c.op == 0 && !c.orphan

/-- The rank that the timer of segment number `seg` runs on: the lowest awaited rank of a segment of this owner, or under RING the rank
before this one in the chain (R297). -/
def State.lateRank (s : State) (p : Nat) (k : Comm) (c : Coll) (seg : Nat) : Option Nat :=
  let r := c.redInfo (s.part p).cfg k
  if r.ring then (c.expect.find? (fun e => keySeg e.1 == seg)).map Prod.snd
  else
    let key := segKey k.myRank seg
    ((c.vals.find? (fun v => v.1 == key)).map (fun v => v.2.headD 0)).filter (fun n => c.expect.contains (key, n))

/-- RED_WAIT_MAX holds the longest value that a timer of R297 has reached, in µs. -/
def State.noteWait (s : State) (b us : Nat) : State := s.fset .redWaitMax b (max (s.fget .redWaitMax b) us)

/-- OWNER_WAIT_TIMEOUT (R297). -/
def execOwnerWaitTimeout (p comm opNo seg : Nat) (s : State) : Host.Outcome State Fault Refusal :=
  .next (
    match s.timed p comm opNo liveRed with
    | some (k, c) =>
      match s.lateRank p k c seg with
      | some rank => (s.noteWait c.bay k.wait).declare p k rank
      | none => s
    | none => s)

/-- SENDER_GRANT_TIMEOUT (R298): a segment is ready for the owner, and it holds no grant. -/
def execSenderGrantTimeout (p comm opNo owner : Nat) (s : State) : Host.Outcome State Fault Refusal :=
  .next (
    match s.timed p comm opNo liveRed with
    | some (k, c) =>
      if c.toSend.any (fun x => x.2.1 == owner && !c.grants.contains (x.1, owner) && !c.sent.contains (x.1, owner)) then s.declare p k owner
      else s
    | none => s)

/-- ORPHAN_TIMEOUT (R281): the orphan closes. -/
def execOrphanTimeout (p comm opNo : Nat) (s : State) : Host.Outcome State Fault Refusal :=
  .next (
    match s.timed p comm opNo (fun c => c.orphan) with
    | some (_, c) => (s.modPart p (fun x => { x with colls := x.colls.filter (fun d => d.id != c.id) })).proceed p
    | none => s)

/-! ### Timers of barriers and fences (R327, R328) -/

/-- An operation whose values go up a tree to rank 0 and whose result comes down. -/
def isScalar (c : Coll) : Bool := (c.op == 4 || c.op == 5 || c.op == 16 || c.op == MsgOp.audit) && c.phase == 1

/-- The lowest rank of k that `heard` does not hold. -/
def lowestSilent (k : Comm) (heard : List Nat) : Option Nat := (List.range k.count).find? (fun r => !heard.contains r)

/-- A fence that is open on a communicator. -/
def State.openFenceOn (s : State) (p comm : Nat) : Option (Comm × Fence) :=
  match (s.part p).fence with
  | some f => if f.comm = comm ∧ f.verdict = none then (s.fenceComm p f.kind comm).map (fun k => (k, f)) else none
  | none => none

/-- BARRIER_UP_TIMEOUT (R327, R328): rank 0 declares the lowest rank that it has not heard from. -/
def execBarrierUpTimeout (p comm opNo : Nat) (s : State) : Host.Outcome State Fault Refusal :=
  .next (
    let late (k : Comm) (heard : List Nat) : State :=
      if k.myRank ≠ 0 then s
      else match lowestSilent k heard with
        | some r => s.declare p k r
        | none => s
    match s.timed p comm opNo isScalar, s.openFenceOn p comm with
    | some (k, c), _ => late k (c.vals.map Prod.fst)
    | none, some (k, f) => late k (f.seen.map Prod.fst)
    | none, none => s)

/-- RELEASE_WAIT_TIMEOUT (R327, R328): a rank that has arrived and hears no release declares rank 0. -/
def execReleaseWaitTimeout (p comm opNo : Nat) (s : State) : Host.Outcome State Fault Refusal :=
  .next (
    match s.timed p comm opNo isScalar, s.openFenceOn p comm with
    | some (k, _), _ => if k.myRank = 0 then s else s.declare p k 0
    | none, some (k, _) => if k.myRank = 0 then s else s.declare p k 0
    | none, none => s)

/-! ### Timers of receivers (R349, R350, R392) -/

/-- The owner of a list whose d × WAIT_LIMIT passes first: the least deep, and of those the first (R349). -/
def Comm.soonest (k : Comm) (owners : List Nat) : Option Nat :=
  owners.foldl (fun (m : Option Nat) o =>
    match m with
    | none => some o
    | some x => if k.depth o k.myRank < k.depth x k.myRank then some o else some x) none

/-- The tree parent towards the owner whose copy is not here whole and is the first to be late. -/
def State.copyLate (s : State) (p comm opNo : Nat) : Option (Comm × Nat) :=
  match (s.part p).install with
  | none => none
  | some x =>
    if x.comm ≠ comm ∨ opNo ≠ copyOp ∨ x.phase ≠ 0 then none
    else (s.installComm p x).bind (fun k =>
      (k.soonest ((List.range k.count).filter (fun r => r != k.myRank && (match x.counts.find? (fun c => c.1 == r) with
        | none => true
        | some c => (List.range c.2).any (fun e => (x.seg r e).stageCrcs.isEmpty || (x.seg r e).fp.isNone))))).map (fun r =>
          (k, k.parent r k.myRank)))

/-- GATHER_RECEIVE_TIMEOUT (R349): the receiver declares its tree parent. -/
def execGatherReceiveTimeout (p comm opNo : Nat) (s : State) : Host.Outcome State Fault Refusal :=
  .next (
    match s.timed p comm opNo (fun c => (c.op == 1 || c.op == 3) && c.expect != []), s.copyLate p comm opNo with
    | some (k, c), _ =>
      match k.soonest (c.expect.map (fun e => keyOwner e.1)) with
      | some o => s.declare p k (k.parent o k.myRank)
      | none => s
    | none, some (k, r) => s.declare p k r
    | none, none => s)

/-- EXCHANGE_RECEIVE_TIMEOUT (R349): the receiver declares the lowest source whose message is missing. -/
def execExchangeReceiveTimeout (p comm opNo : Nat) (s : State) : Host.Outcome State Fault Refusal :=
  .next (
    match s.timed p comm opNo (fun c => (c.op == 2 || (decide (16 ≤ c.op) && decide (c.op < 24))) && c.expect != []) with
    | some (k, c) =>
      match (c.expect.map Prod.snd).min? with
      | some r => s.declare p k r
      | none => s
    | none => s)

/-- CLOSE_AGREEMENT_TIMEOUT (R392): a member of LOCK_COMM has sent no value. -/
def execCloseAgreementTimeout (b : Nat) (s : State) : Host.Outcome State Fault Refusal :=
  .next (
    match s.partOfBay b with
    | none => s
    | some p =>
      if !(s.bay b).closing || s.fget .seqLockstep b == 0 then s
      else
        match (s.part p).cfg.comm (s.fget .seqLockComm b) with
        | none => s
        | some k =>
          match lowestSilent k ((s.bay b).closeVals.map Prod.fst) with
          | some r => s.declare p k r
          | none => s)

end Sys2Proof.Machine
end

