-- ==== Sys2Proof/Machine/KettleRows.lean ====
section
/-!
DEFINITION. The rows of the kettles: their instructions, the start, the blocks and the waits of a run (R243, R247, R249, R263), and the journal
commands (R268 to R270).
-/

namespace Sys2Proof.Machine

/-- What follows a kettle's work in its partition. -/
def State.afterKettle (s : State) (st : Nat) : State :=
  match s.partOfBay st with
  | some p => s.settle.proceed p
  | none => s.settle

/-- The kettle of stack st takes its next instruction where it is of operation `op`. -/
def State.kettleRuns (s : State) (st op : Nat) : State := (s.kettleRow st op).afterKettle st

/-- KETTLE_NOP: operation 0 of the kettle's program (R243). -/
def execKettleNop (st : Nat) (s : State) : Host.Outcome State Fault Refusal := .next (s.kettleRuns st 0)

/-- KETTLE_LD: operation 1 of the kettle's program (R243). -/
def execKettleLd (st : Nat) (s : State) : Host.Outcome State Fault Refusal := .next (s.kettleRuns st 1)

/-- KETTLE_ST: operation 2 of the kettle's program (R243). -/
def execKettleSt (st : Nat) (s : State) : Host.Outcome State Fault Refusal := .next (s.kettleRuns st 2)

/-- KETTLE_ADD: operation 3 of the kettle's program (R243). -/
def execKettleAdd (st : Nat) (s : State) : Host.Outcome State Fault Refusal := .next (s.kettleRuns st 3)

/-- KETTLE_MUL: operation 4 of the kettle's program (R243). -/
def execKettleMul (st : Nat) (s : State) : Host.Outcome State Fault Refusal := .next (s.kettleRuns st 4)

/-- KETTLE_FMA: operation 5 of the kettle's program (R243). -/
def execKettleFma (st : Nat) (s : State) : Host.Outcome State Fault Refusal := .next (s.kettleRuns st 5)

/-- KETTLE_MIN: operation 6 of the kettle's program (R243). -/
def execKettleMin (st : Nat) (s : State) : Host.Outcome State Fault Refusal := .next (s.kettleRuns st 6)

/-- KETTLE_MAX: operation 7 of the kettle's program (R243). -/
def execKettleMax (st : Nat) (s : State) : Host.Outcome State Fault Refusal := .next (s.kettleRuns st 7)

/-- KETTLE_CMP: operation 8 of the kettle's program (R243). -/
def execKettleCmp (st : Nat) (s : State) : Host.Outcome State Fault Refusal := .next (s.kettleRuns st 8)

/-- KETTLE_SEL: operation 9 of the kettle's program (R243). -/
def execKettleSel (st : Nat) (s : State) : Host.Outcome State Fault Refusal := .next (s.kettleRuns st 9)

/-- KETTLE_SELV: operation 10 of the kettle's program (R243). -/
def execKettleSelv (st : Nat) (s : State) : Host.Outcome State Fault Refusal := .next (s.kettleRuns st 10)

/-- KETTLE_EST: operation 11 of the kettle's program (R243). -/
def execKettleEst (st : Nat) (s : State) : Host.Outcome State Fault Refusal := .next (s.kettleRuns st 11)

/-- KETTLE_DIV: operation 12 of the kettle's program (R243). -/
def execKettleDiv (st : Nat) (s : State) : Host.Outcome State Fault Refusal := .next (s.kettleRuns st 12)

/-- KETTLE_SQRT: operation 13 of the kettle's program (R243). -/
def execKettleSqrt (st : Nat) (s : State) : Host.Outcome State Fault Refusal := .next (s.kettleRuns st 13)

/-- The kettle's first slot to run goes through stages 1 to 4 (R247). -/
def State.kettleStart (s : State) (st : Nat) : State :=
  let x := s.kettle st
  if 12 ≤ st ∨ x.why = 0 ∨ 3 ≤ s.fget .ketState st then s
  else
    match x.todo with
    | [] => s
    | n :: _ =>
      match s.kslot st n with
      | some k => s.startRun st k
      | none => s

/-- KETTLE_RUN_START (R247, R255). -/
def execKettleRunStart (st : Nat) (s : State) : Host.Outcome State Fault Refusal := .next ((s.kettleStart st).afterKettle st)

/-- KETTLE_BLOCK_COMMIT (R263, R265). -/
def execKettleBlockCommit (st : Nat) (s : State) : Host.Outcome State Fault Refusal :=
  .next (if st < 12 then (s.kcommit st).afterKettle st else s)

/-- KETTLE_WAIT_TIMEOUT (R249): a wait of stage 1 or 2 ends the run, and nothing is written. -/
def execKettleWaitTimeout (st : Nat) (s : State) : Host.Outcome State Fault Refusal :=
  .next (
    if st < 12 ∧ (s.fget .ketState st = 1 ∨ s.fget .ketState st = 2) then
      (s.kettleFails st Status.tileFault Source.kettleWaitTimeout Kind.stack st 0 false).afterKettle st
    else s)

/-! ### KETTLE_RESUME and KETTLE_ABANDON -/

/-- What the common checks need of a journal command. -/
def State.journalSpec (s : State) (fn op : Nat) (d : BitVec 512) : Spec :=
  let p := dField d 16 16
  { op := op, fnOk := fn == 0, part := p, spargeOk := false,
    operands := s.partDefined p && dZero d 17 17 && dZero d 63 20 && (journalStacks d).all (fun st => s.holds p st) }

/-- The slot of the stack's journal holds the program that the journal names (R268). -/
def State.journalFits (s : State) (st : Nat) : Bool :=
  match s.kslot st (s.fget .ketJslot st) with
  | some k => kdigest k.prog == s.fget .ketJdigest st
  | none => false

/-- The later checks of KETTLE_RESUME (R268; log entry 46). -/
def State.resumeRefusal (s : State) (d : BitVec 512) : Nat :=
  let sts := journalStacks d
  if sts.any (fun st => s.fget .ketJstate st != 2) then Status.noJournal
  else if sts.any (fun st => s.fget .ketJbad st == 1) then Status.journalBad
  else if !sts.all s.journalFits then Status.journalMismatch
  else if s.stepRuns (dField d 16 16) then Status.busy else 0

/-- The start of KETTLE_RESUME. -/
def State.runResume (s : State) (c : Cmd) : State :=
  let bad := s.resumeRefusal c.desc
  if bad ≠ 0 then s.complete c bad 0 0
  else ((journalStacks c.desc).foldl (fun s st => s.resumeKettle st) s).proceed c.part

/-- KETTLE_RESUME (R268, R270). -/
def execKettleResume (fn ring : Nat) (s : State) : Host.Outcome State Fault Refusal :=
  .next (s.hostCmd fn ring 0x78 (fun s d => s.journalSpec fn 0x78 d) (fun s d => s.resumeRefusal d) (fun s c => s.runResume c))

/-- The later check of KETTLE_ABANDON. -/
def State.dropRefusal (s : State) (d : BitVec 512) : Nat :=
  if (journalStacks d).any (fun st => s.fget .ketJstate st != 2) then Status.noJournal else 0

/-- The start of KETTLE_ABANDON: the journals are IDLE, and every element stays as it stands. -/
def State.runDrop (s : State) (c : Cmd) : State :=
  let bad := s.dropRefusal c.desc
  if bad ≠ 0 then s.complete c bad 0 0
  else ((journalStacks c.desc).foldl (fun s st => s.fset .ketJstate st 0) s).complete c Status.ok 0 0

/-- KETTLE_ABANDON (R269, R270). -/
def execKettleAbandon (fn ring : Nat) (s : State) : Host.Outcome State Fault Refusal :=
  .next (s.hostCmd fn ring 0x79 (fun s d => s.journalSpec fn 0x79 d) (fun s d => s.dropRefusal d) (fun s c => s.runDrop c))

end Sys2Proof.Machine
end

