-- ==== Sys2Proof/Machine/Landing.lean ====
section
/-!
DEFINITION. Moves that land (R221, R225, R226): each by what it serves.
-/

namespace Sys2Proof.Machine

/-- A park, an unpark, or a copy of the old rollout copy lands for a turn command. A fault ends the turn with PHASE HALTED, and every
command that drives it with the fault's status (R16, R229). -/
def State.landTurn (s : State) (p : Nat) (m : Move) (c : Cmd) (t : Turn) : State :=
  match s.parkCopy p m with
  | (s, none) => s
  | (s, some f) =>
    let s := ((s.dropCmdMoves m.ref).failCmd c f).haltTurn p
    [t.begin_, t.commit, t.abandon].foldl (fun s id => s.finish id (transferStatus f.1) 0 (transferDetail f.1)) s

/-- A move of the engines of the bays lands for a command: STATE_MOVE, or a turn. -/
def State.landCopy (s : State) (m : Move) : State :=
  match s.cmd m.ref with
  | none => s.dropMove m.id
  | some c =>
    if c.op = 0x71 then s.landPark m
    else
      match (s.part c.part).turn with
      | some t => (s.dropMove m.id).landTurn c.part m c t
      | none => s.dropMove m.id

/-- A staged segment fails its CRC-64: the TURN_COMMIT that reads it fails, and the turn ends with PHASE HALTED (R213, R479). -/
def State.stagingFails (s : State) (p a : Nat) : State :=
  let s := s.detect Source.lpddrDataError (instOf a).1 (instOf a).2 a
  let ids := ((s.part p).turn.map (fun t => [t.begin_, t.commit, t.abandon])).getD []
  let s := ({ s with moves := s.moves.filter (fun m => m.why != 11 || !s.holds p (m.owner / 8)) }.modPart p (fun x =>
    { x with install := none })).haltTurn p
  ids.foldl (fun s id => s.finish id Status.dataError 0 (transferDetail Source.lpddrDataError)) s

/-- An install move lands: the staged bytes, checked by the CRC-64 of each 2 MiB, are written, fingerprinted and compared (R213, R359). -/
def State.landInstall (s : State) (m : Move) : State :=
  let s := s.dropMove m.id
  match s.partOfTile m.owner with
  | none => s
  | some p =>
    match (s.part p).install with
    | none => s
    | some x =>
      let owner := m.ref / 2 ^ 20
      let entry := m.ref % 2 ^ 20
      let g := x.seg owner entry
      let ps := segSpots (s.stagingRegions p) x.comm g
      let bs := s.readPieces ps
      if ps.any (fun y => s.badRange y.1 y.2) || (segmentsOf bs).map crc64 != g.stageCrcs then s.stagingFails p ((ps.headD (0, 0)).1)
      else s.installSeg p owner entry bs

/-- The partition that a move belongs to. -/
def State.movePart (s : State) (m : Move) : Option Nat :=
  if m.owner < 96 then s.partOfTile m.owner else (s.cmd m.ref).map Cmd.part

/-- A move lands, by what it serves. -/
def State.landMove (s : State) (m : Move) : State :=
  match m.why with
  | 0 => State.startAtts 16 (s.landMov m) m.owner
  | 2 => s.landHost m
  | 3 => s.landWeight m
  | 4 => State.startAtts 16 (s.landMov m) m.owner
  | 5 => s.landAtt m
  | 6 => s.landAtt m
  | 9 => s.landStaging m
  | 11 => State.startAtts 16 ((s.landInstall m).moveEngine m.owner) m.owner
  | 12 => State.startAtts 16 (s.landOld m) m.owner
  | _ => s.landCopy m

/-- MOVE_LANDED (R221). A steep-list entry lands with its own row. -/
def execMoveLanded (id : Nat) (s : State) : Host.Outcome State Fault Refusal :=
  .next (
    match s.moves.find? (fun m => m.id == id) with
    | none => s
    | some m =>
      if m.why = 1 ∨ s.moveHeld m then s
      else
        let p := s.movePart m
        let s := (s.landMove m).settle
        match p with
        | some p => s.proceed p
        | none => s)

/-- A steep-list entry lands, and the entries that are now due signal. -/
def State.landSteep (s : State) (t entry : Nat) (m : Move) : State :=
  let s := s.dropMove m.id
  match s.landTile m with
  | .ok s' =>
    let s := s'.modTile t (fun x => { x with steepLanded := Tab.set false x.steepLanded entry true })
    let gate := (steepEntry (s.steepList t) entry).gate
    State.startAtts 16 (((s.steepDue t gate).foldl (fun s i => s.steepSignal t i) s).moveEngine t) t
  | .bad r => s.tileStop t Source.illegalCommand Kind.tile t r
  | .fail source kind inst info => s.tileStop t source kind inst info

/-- STEEP_ENTRY_LANDED (R225, R226). -/
def execSteepEntryLanded (t entry : Nat) (s : State) : Host.Outcome State Fault Refusal :=
  .next (
    match (s.movesOf t).find? (fun m => m.why == 1 && m.ref == entry) with
    | none => s
    | some m => if s.moveHeld m then s else (s.landSteep t entry m).settle)

end Sys2Proof.Machine
end

