-- ==== Sys2Proof/Machine/Repair.lean ====
section
/-!
DEFINITION. Wear (R36 to R38, R201 to R203, R211, R213, R496, R497): the patrol scrubber, repairs, and the retirement of tiles and bays. A row
names what physical wear has made due (log entry 47). Kinds of the sparing log: 0 a tile's takeover, 1 a tile unmapped, 2 a bay retired,
3 a bank row, 4 an accumulator line, 5 an HBM row, 6 an LPDDR5X row, 7 a kettle lane, 8 an HBM data lane.
-/

namespace Sys2Proof.Machine

/-! ### Step boundaries and the sparing log -/

/-- No step of partition p runs, or the one that ran has finished its work: a step boundary. -/
def State.atBoundary (s : State) (p : Nat) : Bool :=
  ((s.part p).step.isNone || s.learnOver p) && (s.baysOf p).all (fun b => (s.rolloutTiles b).isEmpty)

/-- Bay b is at a step boundary of its partition. -/
def State.bayBoundary (s : State) (b : Nat) : Bool :=
  match s.partOfBay b with
  | some p => s.atBoundary p
  | none => true

def State.spared (s : State) (kind unit part : Nat) : State := { s with sparing := (kind, unit, part) :: s.sparing }

/-- Parts of a unit that the sparing log holds. -/
def State.sparedOf (s : State) (kind unit : Nat) : List Nat :=
  (s.sparing.filter (fun e => e.1 == kind && e.2.1 == unit)).map (fun e => e.2.2)

/-! ### Scrubbing and rows -/

/-- Words of a bank (R186). -/
def bankWords : Nat := 12288

/-- The scrubber reads the next word of a bank (R201, R525). -/
def State.scrub (s : State) (t bank : Nat) : State :=
  let i := Tab.get 0 (s.tile t).scrubPos bank
  let a := wordAddr t (64 * i + bank)
  let s := s.modTile t (fun x => { x with scrubPos := Tab.set 0 x.scrubPos bank ((i + 1) % bankWords) })
  if s.badRange a 64 then s.raise Source.scratchUncorrectable Kind.tile t (s.failingAt a 64) else s.mend (s.weakIn a 64)

/-- PATROL_SCRUB (R201): a word whose error is corrected is written back as R200 says. -/
def execPatrolScrub (t bank : Nat) (s : State) : Host.Outcome State Fault Refusal :=
  .next (if s.mapped t ∧ bank < 64 then s.scrub t bank else s)

/-- The lowest-numbered bank of tile t with `left` unused spare rows (WORST_BANK, R208). -/
def State.worstBank (s : State) (t left : Nat) : Nat :=
  ((List.range 64).find? (fun b => Tab.get 0 (s.tile t).rowSpares b + left == 16)).getD 0

/-- A bank row goes to a spare row, with its failing codewords; the tile is retired where its bank has none left (R202, R203). -/
def State.repairRow (s : State) (t bank row : Nat) : State :=
  let used := Tab.get 0 (s.tile t).rowSpares bank
  if 16 ≤ used then (s.modTile t (fun x => { x with retire := true })).raise Source.scratchSparesExhausted Kind.tile t bank
  else
    let s := s.modTile t (fun x => { x with rowSpares := Tab.set 0 x.rowSpares bank (used + 1),
                                            rowErrs := Tab.set 0 x.rowErrs (768 * bank + row) 0 })
    let left := min (s.fget .spSpareMin t) (15 - used)
    let s := ((s.fset .spSpareMin t left).fset .spWorstBank t (s.worstBank t left)).spared 3 t (768 * bank + row)
    s.raise Source.rowRepaired Kind.tile t (768 * bank + row)

/-- BANK_ROW_REPAIR (R202, R203): the row has yielded an uncorrectable error, or its fourth corrected error. -/
def execBankRowRepair (t bank row : Nat) (s : State) : Host.Outcome State Fault Refusal :=
  .next (
    if s.mapped t ∧ bank < 64 ∧ row < 768 ∧ s.bayBoundary (t / 8) ∧ 4 ≤ Tab.get 0 (s.tile t).rowErrs (768 * bank + row) then s.repairRow t bank row
    else s)

/-- An accumulator line goes to a spare line (R496). -/
def State.repairLine (s : State) (t line : Nat) : State :=
  let used := (s.tile t).lineSpares
  if 16 ≤ used then (s.modTile t (fun x => { x with retire := true })).raise Source.accSparesExhausted Kind.tile t line
  else ((s.modTile t (fun x => { x with lineSpares := used + 1, lineErrs := Tab.set 0 x.lineErrs line 0 })).spared 4 t line).raise Source.rowRepaired Kind.tile t line

/-- ACC_LINE_REPAIR (R496): the line has yielded an uncorrectable error, or its fourth corrected error. -/
def execAccLineRepair (t line : Nat) (s : State) : Host.Outcome State Fault Refusal :=
  .next (if s.mapped t ∧ s.bayBoundary (t / 8) ∧ 4 ≤ Tab.get 0 (s.tile t).lineErrs line then s.repairLine t line else s)

/-- LPDDR_ROW_REPAIR (R213). -/
def execLpddrRowRepair (b row : Nat) (s : State) : Host.Outcome State Fault Refusal :=
  .next (
    if 12 ≤ b ∨ s.fget .bayRetired b = 1 ∨ s.bayBoundary b = false then s
    else if Config.repairLeft 1 b row (s.sparedOf 6 b) then (s.spared 6 b row).raise Source.rowRepaired Kind.bay b row
    else s.raise Source.lpddrSparesExhausted Kind.bay b row)

/-! ### Retirement (R36, R37, R497) -/

/-- The image of a partition names a part that is gone: it leaves its communicators, its step completes with DEGRADED, and PHASE reads
HALTED (R497). -/
def State.degrade (s : State) (p : Nat) : State :=
  let s := s.leaveComms p
  let s := match (s.part p).step with
    | some st => (s.modPart p (fun x => { x with step := some { st with status := if st.status = 0 then Status.degraded else st.status } })).endLearn p
    | none => s
  let s := match (s.part p).turn with
    | some t => s.failTurn p t Status.degraded
    | none => s
  (s.endRefresh p Status.degraded).fset .turnPhase p Phase.halted

/-- The partition whose active image gives tile t a role. -/
def State.namedBy (s : State) (t : Nat) : Option Nat := (s.partOfTile t).filter (fun p => s.role p t != Role.idle)

/-- The spare slot of the bay takes over tile t's number and state (R36). -/
def State.takeOver (s : State) (t : Nat) : State :=
  let b := t / 8
  let s := (s.spared 0 t (s.fget .baySlot t)).fset .baySlot t 8
  let s := ((s.fset .baySpareUsed b 1).fset .spSpareMin t 16).fset .spWorstBank t 0
  let s := s.modTile t (fun x => { x with retire := false, diverge := 0, rowSpares := [], lineSpares := 0, rowErrs := [], lineErrs := [], scrubPos := [] })
  s.raise Source.spareTakeover Kind.tile t 0

/-- SPARE_TAKEOVER (R36): the bay's spare has neither been used nor failed in use. -/
def execSpareTakeover (t : Nat) (s : State) : Host.Outcome State Fault Refusal :=
  .next (
    if s.mapped t && (s.tile t).retire && s.fget .baySpareUsed (t / 8) == 0 && s.fget .bayDegraded (t / 8) == 0 && s.bayBoundary (t / 8)
    then s.takeOver t else s)

/-- Tile t's number becomes unmapped (R37). -/
def State.unmapTile (s : State) (t : Nat) : State :=
  let named := s.namedBy t
  let onSpare := s.fget .baySlot t == 8
  let s := ((s.spared 1 t (s.fget .baySlot t)).fset .baySlot t 15).fset .bayDegraded (t / 8) 1
  let s := (if onSpare then s.fset .baySpareUsed (t / 8) 0 else s).modTile t (fun x => { x with retire := false })
  let s := s.raise Source.tileUnmapped Kind.tile t 0
  match named with
  | some p => (s.degrade p).settle.proceed p
  | none => s

/-- TILE_UNMAPPED (R37). A bay that has lost a number already is retired instead (R497). -/
def execTileUnmapped (t : Nat) (s : State) : Host.Outcome State Fault Refusal :=
  .next (
    if s.mapped t && (s.tile t).retire && s.fget .baySpareUsed (t / 8) == 1 && s.fget .bayDegraded (t / 8) == 0 && s.bayBoundary (t / 8) then
      s.unmapTile t
    else s)

/-- Bay b has no logical tile any more (R37, R497). -/
def State.retireBay (s : State) (b : Nat) : State :=
  let p := s.partOfBay b
  let s := (List.range 8).foldl (fun s j => s.fset .baySlot (8 * b + j) 15) (s.spared 2 b 0)
  let s := (((s.fset .bayRetired b 1).fset .baySpareUsed b 0).fset .bayDegraded b 0).raise Source.bayRetired Kind.bay b 0
  match p with
  | some p => (s.degrade p).settle.proceed p
  | none => s

/-- BAY_RETIRED (R37, R497). -/
def execBayRetired (b : Nat) (s : State) : Host.Outcome State Fault Refusal :=
  .next (if b < 12 ∧ s.fget .bayRetired b = 0 ∧ s.bayBoundary b then s.retireBay b else s)

/-- A stack is lost, and its bay is retired (R211, R273). -/
def State.loseStack (s : State) (st info : Nat) : State :=
  let s := s.raise Source.stackLost Kind.stack st info
  if s.fget .bayRetired st = 1 then s else s.retireBay st

/-- HBM_ROW_REPAIR (R211): the row has yielded an uncorrectable error, or its fourth corrected error; how many repairs a pseudo-channel has
is the implementation's. -/
def execHbmRowRepair (st row : Nat) (s : State) : Host.Outcome State Fault Refusal :=
  .next (
    if 12 ≤ st ∨ s.fget .bayRetired st = 1 ∨ s.bayBoundary st = false ∨ Tab.get 0 s.err.hbmRows (2 ^ 32 * st + row) < 4 then s
    else
      let s := { s with err := { s.err with hbmRows := Tab.set 0 s.err.hbmRows (2 ^ 32 * st + row) 0 } }
      if Config.repairLeft 0 st row (s.sparedOf 5 st) then (s.spared 5 st row).raise Source.rowRepaired Kind.stack st row
      else s.loseStack st row)

/-! ### Lanes (R211, R273) -/

/-- A kettle lane that has mismatched twice is replaced by one of the kettle's 16 spares; the stack is lost where none remains (R273). -/
def State.spareLane (s : State) (st lane : Nat) : State :=
  let left := s.fget .ketSpareLanes st
  let s := s.modKettle st (fun x => { x with laneErrs := Tab.set 0 x.laneErrs lane 0 })
  if left = 0 then s.loseStack st lane
  else ((s.fset .ketSpareLanes st (left - 1)).spared 7 st lane).raise Source.kettleLaneSpared Kind.stack st lane

/-- A failed HBM data lane is replaced by a redundant lane; how many a channel has is the implementation's (R211). -/
def State.spareData (s : State) (st lane : Nat) : State :=
  if Config.repairLeft 2 st lane (s.sparedOf 8 st) then s.spared 8 st lane else s.loseStack st lane

/-- Lanes that a warm reset replaces. -/
def State.spareLanes (s : State) : State :=
  let s := (List.range 12).foldl (fun s st =>
    ((s.kettle st).laneErrs.filter (fun e => decide (2 ≤ e.2))).foldl (fun s e => s.spareLane st e.1) s) s
  let lanes := s.err.hbmLanes
  lanes.foldl (fun s k => s.spareData (k / 64) (k % 64)) { s with err := { s.err with hbmLanes := [] } }

/-! ### Physical upsets (log entry 141) -/

/-- What an upset of a kind does at place a. Kinds: 1 a correctable error of a scratchpad or HBM codeword, 2 an uncorrectable one, 3 and 4
the same of an accumulator codeword, 5 LPDDR5X, 6 a program word, 7 the parity of a stationary byte, 8 the residue of a sub-array's next
pass, 9 an undo entry, 10 a key of the vault, 11 a kettle lane's next result, 12 an HBM data lane (R138, R183, R200, R207, R211, R213,
R266, R273). -/
def State.upset (s : State) (kind a : Nat) : State :=
  let t := a % 96
  let st := a % 12
  let i := a / 96
  let key := a / codeword a * codeword a
  match kind, spaceOf a with
  | 1, .scratch _ _ | 1, .hbm _ _ => { s with err := { s.err with weak := Tab.set false s.err.weak key true } }
  | 2, .scratch _ _ | 2, .hbm _ _ => { s with bad := Tab.set false s.bad key true }
  | 5, .lp _ _ => { s with lpBad := Tab.set false s.lpBad a true }
  | 3, _ => { s with err := { s.err with accWeak := Tab.set false s.err.accWeak (2 ^ 20 * t + 16 * (i % 2 ^ 16)) true } }
  | 4, _ => { s with accBad := Tab.set false s.accBad (2 ^ 20 * t + 16 * (i % 2 ^ 16)) true }
  | 6, _ => s.modTile t (fun x => { x with progBad := Tab.set false x.progBad (i % 16384) true })
  | 7, _ => { s with err := { s.err with stat := Tab.set false s.err.stat (2 ^ 19 * t + i % 2 ^ 19) true } }
  | 8, _ => s.modTile t (fun x => { x with residue := Tab.set false x.residue (i % 4) true })
  | 9, _ => s.modKettle st (fun x => { x with undo := x.undo.zipIdx.map (fun e => { e.1 with bad := e.1.bad || e.2 == i }) })
  | 10, _ => { s with err := { s.err with vault := Tab.set false s.err.vault (a % 13) true } }
  | 11, _ => s.modKettle st (fun x => { x with badLane := some (i % 2048) })
  | 12, _ => { s with err := { s.err with hbmLanes := if s.err.hbmLanes.contains (64 * st + i % 64) then s.err.hbmLanes
                                                       else s.err.hbmLanes ++ [64 * st + i % 64] } }
  | _, _ => s

/-- Whether an upset comes with a tick, its kind and its place are free values. -/
def State.upsets (s : State) : State :=
  let (k, s) := s.free1
  let (a, s) := s.free1
  s.upset (k % 16) a

end Sys2Proof.Machine
end

