-- ==== Sys2Proof/Machine/Reset.lean ====
section
/-!
DEFINITION. Boot, warm reset, power-up and power-down (R8, R15, R38, R155, R204, R264, R266, R428, R462, R470, R472, R486, R491, R520 to
R522).
-/

namespace Sys2Proof.Machine

/-! ### The firmware image (R472) -/

/-- The SPI NOR's contents; one that was never written holds the image of its delivery. -/
def State.norImage (s : State) : List Byte :=
  if s.sec.norLen = 0 then Config.fused Fused.firmware else Mem.read s.sec.nor 0 s.sec.norLen

/-- Length of component i of an image, from its header: 0 system firmware, 1 kettle microcode, 2 Lanoip firmware. -/
def fwLen (bs : List Byte) (i : Nat) : Nat := leField bs (115 + 4 * i) (112 + 4 * i)

def fwComponent (bs : List Byte) (i : Nat) : List Byte :=
  (bs.drop (256 + ((List.range i).map (fwLen bs)).sum)).take (fwLen bs i)

/-- The boot ROM's checks in their order: 0, or the FAIL_REASON: 1 header, 2 signature, 3 SVN, 4 digest. -/
def fwCheck (svn : Nat) (bs : List Byte) : Nat :=
  let total := leField bs 15 12
  if leField bs 3 0 ≠ 0x4D495746 ∨ leField bs 7 4 ≠ 1 ∨ total ≠ 256 + fwLen bs 0 + fwLen bs 1 + fwLen bs 2 ∨ 2 ^ 25 < total ∨
      bs.length < total then 1
  else if Config.ecdsaVerify (Config.fused Fused.firmwareKey) (bs.take 128) ((bs.drop 128).take 64) = false then 2
  else if leField bs 11 8 < svn then 3
  else if (List.range 3).any (fun i => sha256 (fwComponent bs i) != (bs.drop (16 + 32 * i)).take 32) then 4
  else 0

/-! ### Boot -/

/-- The system firmware's start: it restores what R8, R38 and R239 name, the PLLs are locked, and the identity key is derived
(R464). -/
def State.startFirmware (s : State) (bs : List Byte) : State :=
  let s := s.fset .secStage 0 3
  let s := ((s.fset .clkLockEngine 0 1).fset .clkLockFabric 0 1).fset .clkLockTx 0 1
  let s := (s.fset .clkLockMgmt 0 1).fset .clkSscActive 0
    (s.fget .clkSscEngine 0 + 2 * s.fget .clkSscFabric 0 + 4 * s.fget .clkSscMgmt 0)
  let s := if s.sec.norLen ≠ 0 ∧ bitOf (leField bs 127 124) 0 then s.fset .secFwSvn 0 (max (s.fget .secFwSvn 0) (leField bs 11 8)) else s
  let s := s.fset .secKeysValid 0 (bitNat (!s.sec.wiped))
  { s with sec := { s.sec with identity := !s.sec.wiped, running := bs.take 256 }, err := { s.err with vault := Tab.set false s.err.vault 12 false } }

/-- The boot ROM checks the image, which the image of delivery passes (log entry 7), and the firmware runs or STAGE reads RECOVERY (R472). The link's rate and width are the partner's
as much as the module's: free values (log entry 4). -/
def State.boot (s : State) : State :=
  let bs := s.norImage
  let why := if s.sec.norLen = 0 then 0 else fwCheck (s.fget .secFwSvn 0) bs
  let s := { s with pwr := { s.pwr with link := some s.free }, free := s.free + 2 }
  if why = 0 then s.startFirmware bs else (s.fset .secStage 0 2).fset .secFailReason 0 why

/-! ### Warm reset -/

/-- Fields of the power manager that show what is so at present, and no history. -/
def presentFields : List Fld := [.pwrThrottle, .pwrCapping, .pwrSag, .pwrLeak, .pwrDuty, .pwrTjMax, .pwrPower, .pwrVoltage, .pwrCurrent]

/-- Register fields after a warm reset: those kept, and the present readings. -/
def State.keepFields (s : State) : State :=
  { s with regs := s.regs.filter (fun e => (keptFields ++ presentFields).any (fun f => f.ctorIdx == e.1 % 512)) }

/-- A tile after a warm reset: program store and registers stay, its repairs stay, and what it was doing is gone (R155). -/
def Tile.warm (x : Tile) : Tile :=
  { Tile.reset with
    sregs := x.sregs, vregs := x.vregs, masks := x.masks, remain := x.remain, prog := x.prog, progBad := x.progBad, front := x.front,
    bufFmt := x.bufFmt, bufDepth := x.bufDepth, rowSpares := x.rowSpares, lineSpares := x.lineSpares, rowErrs := x.rowErrs,
    lineErrs := x.lineErrs, scrubPos := x.scrubPos, diverge := x.diverge, retire := x.retire }

/-- A partition after a warm reset: its epochs and the CRCs of what it has parked (R15, R213). -/
def Part.warm (x : Part) : Part := { Part.reset with epochs := x.epochs, parkCrc := x.parkCrc }

/-- Every entry of a table of components is reset by f, and one that is then at its reset value leaves the table. -/
def warmTab {α : Type} [DecidableEq α] (base : α) (f : α → α) (m : Tab (Option α)) : Tab (Option α) :=
  m.filterMap (fun e =>
    match e.2 with
    | some x => if f x = base then none else some (e.1, some (f x))
    | none => none)

/-- What outlasts the warm reset of the collector: the safe state where R491 or R492 keeps it, and the containments that are HELD. -/
def State.keepFaults (s old : State) (external : Bool) : State :=
  let held := old.fget .fcHeld 0 == 1
  let parity := old.fc.byParity && !external
  let safe := old.safe && (old.fc.byTamper || parity || held)
  let s := (List.range 12).foldl (fun s p =>
    if old.fget .fcPartContained p = 1 ∧ old.fget .fcPartHeld p = 1 then s.fset .fcPartContained p 1 else s) s
  let s := if safe then (s.fset .fcSafe 0 1).fset .fcAsserted 0 1 else s
  let s := if safe ∧ parity then s.fset .fcSelfFault 0 1 else s
  { s with fc := { old.fc with timers := [], pulse := false, release := false, quiet := [], byTamper := old.fc.byTamper && safe, byParity := parity && safe } }

/-- The state of the module under reset: what the reset clears is cleared. -/
def State.clearWarm (s : State) : State :=
  { s.keepFields with
    tiles := warmTab Tile.reset Tile.warm s.tiles,
    kettles := warmTab Kettle.reset (fun k => { k with todo := [], why := 0, normTaken := false, kregs := [], failed := false }) s.kettles,
    parts := warmTab Part.reset Part.warm s.parts, bays := [], rings := [], ports := [], reasm := [], cmds := [], moves := [], images := [],
    loader := [], due := [], numVfs := 0, vfUp := 0, msixOn := [], msixPend := [], msixAddr := [], msixData := [], clock0 := s.time,
    sec := { s.sec with identity := false, challenge := none, running := [], recovering := false, spdm := [] } }

/-- A warm reset of the module (R428): partitions with PENDING set are sparged and kettle runs restored before any command is
accepted (R266, R462), and the module boots. Commands in flight complete nowhere. -/
def State.warm (s : State) (external : Bool) : State :=
  let old := s
  let s := (List.range 12).foldl (fun s p => if s.fget .spargePending p = 1 then s.sparge (s.baysOf p) [p] else s) s
  let s := (List.range 12).foldl (fun s b => s.stopKettle b) s
  let found := s.due
  let s := ((s.clearWarm).keepFaults old external).boot
  let s := s.fset .pwrState 0 (if s.safe then 5 else 0)
  (State.settle { s with due := found.filter (fun r => r.source == Source.kettleUndoUncorrectable) }).spareLanes

/-- WARM_RESET (R428). Under power-down, or while PERST_N is low, the module is in reset already. -/
def execWarmReset (external : Bool) (s : State) : Host.Outcome State Fault Refusal :=
  .next (if s.pwr.powered && !s.pwr.perst then s.warm external else s)

/-- PERST_N_RELEASE (R521): the module boots. -/
def execPerstNRelease (s : State) : Host.Outcome State Fault Refusal :=
  .next (if s.pwr.powered && s.pwr.perst then State.boot { s with pwr := { s.pwr with perst := false } } else s)

/-! ### Power -/

/-- Register fields that stand in fuses, in the SPI NOR, in flash or in the sparing log, and so outlast a loss of power (R38, R239, R466,
R497). -/
def fusedFields : List Fld :=
  [.bayRetired, .bayDegraded, .baySpareUsed, .baySlot, .spSpareMin, .spWorstBank, .flashReadOnly, .flashSpareLeft, .flashEraseMax, .flashNsBase,
   .flashNsSize, .flashCkptSlot, .flashOwnBValid, .flashOwnAValid, .ketSpareLanes, .hostSerial, .secLcState, .secCustomerKey, .secFwSvn, .fcDegraded]

/-- A tile after a loss of power: its history in the sparing log. -/
def Tile.cold (x : Tile) : Tile :=
  { Tile.reset with rowSpares := x.rowSpares, lineSpares := x.lineSpares, diverge := x.diverge, retire := x.retire }

/-- A module of part number P96-M4L-C at its first power-on: life-cycle state DEPLOYED, and the digest of the customer's public key, supplied
with the order, in customer key bank 0 (R1, R524). `State.reset` is a P96-M4L. -/
def State.resetC : State :=
  { (State.reset.fset .secLcState 0 2).fset .secCustomerKey 0 1 with
    sec := { Security.reset with bank0 := some (Config.fused Fused.customerDigest) } }

/-- The module without power: every volatile state is lost (R522). What stands outside it, and the model's own records of what it has
sent, stay. -/
def State.cold (s : State) : State :=
  { State.reset with
    pending := s.pending, regs := s.regs.filter (fun e => fusedFields.any (fun f => f.ctorIdx == e.1 % 512)),
    dev := s.dev.filter (fun e => decide (flashBase ≤ e.1) && decide (e.1 < flashBase + 2 ^ 45)), host := s.host,
    tiles := warmTab Tile.reset Tile.cold s.tiles, sparing := s.sparing,
    sec := { Security.reset with bank0 := s.sec.bank0, bank1 := s.sec.bank1, challenges := s.sec.challenges, nor := s.sec.nor, norLen := s.sec.norLen },
    pwr := { Power.reset with powered := false, pwrgood := false }, irqs := s.irqs, tx := s.tx, mgmt := s.mgmt, free := s.free }

/-- MODULE_POWER_ON (R520, R521): the straps are sampled, and the rails ramp until PWRGOOD is released; PERST_N is low. -/
def execModulePowerOn (straps : Nat) (s : State) : Host.Outcome State Fault Refusal :=
  .next (if s.pwr.powered then s else { s with pwr := { s.pwr with powered := true, perst := true, pwrgood := true, straps := straps % 16 } })

/-- POWER_DOWN (R516, R522): the input is below 38 V, or above 60.5 V. -/
def execPowerDown (centivolts : Nat) (s : State) : Host.Outcome State Fault Refusal :=
  .next (if s.pwr.powered && (decide (centivolts < 3800) || decide (6050 < centivolts)) then s.cold else s)

end Sys2Proof.Machine
end

