-- ==== Sys2Proof/Machine/Fault.lean ====
section
/-!
DEFINITION. The fault collector's commands and events (R484 to R494, R503): acknowledgement, escalation, the quiet period, FAULT_N,
release and injection.
-/

namespace Sys2Proof.Machine

/-! ### Acknowledgement (R487) -/

/-- FC_ACK (R487): a SEQ that is not in the log is ignored. -/
def execFcAck (seq : Nat) (s : State) : Host.Outcome State Fault Refusal :=
  .next (match s.slotOf seq with
    | some i => s.ackSlot i
    | none => s)

/-- Every record of the log is acknowledged, and every timer stops: also those of records that were not logged (R488). -/
def State.ackAll (s : State) : State :=
  { s with fc := { s.fc with timers := [], log := s.fc.log.map (fun e => (e.1, { e.2 with acked := true })) } }

/-- FC_ACK_ALL (R487). -/
def execFcAckAll (value : Nat) (s : State) : Host.Outcome State Fault Refusal := .next (if bitOf value 0 then s.ackAll else s)

/-! ### Escalation (R486) -/

/-- The record of a SEQ, where it is in the log, shows a new severity in force. -/
def State.showLevel (s : State) (seq sev : Nat) : State :=
  match s.slotOf seq with
  | some i => s.setSlot i { s.fc.slot i with severity := sev, escalated := true }
  | none => s

/-- An expired grace timer: the whole action of the next level, and its timer; or the scope becomes HELD. -/
def State.escalate (s : State) (g : Grace) : State :=
  let s := { s with fc := { s.fc with timers := s.fc.timers.filter (fun x => x != g) } }
  let part := if g.scope < 12 then g.scope else 0xFF
  if g.level = Severity.safe then s.hold g.scope
  else ((s.showLevel g.seq (g.level + 1)).startGrace g.seq (g.level + 1) part g.source g.kind g.inst).act (g.level + 1) part

/-- The safe state was entered through TAMPER, if the device is in it and was not before (R491). -/
def State.markTamper (s : State) (was : Bool) (source : Nat) : State :=
  if !was && s.safe && source == Source.tamper then { s with fc := { s.fc with byTamper := true } } else s

/-- GRACE_EXPIRY (R486): the timer of record `seq` runs. -/
def execGraceExpiry (seq : Nat) (s : State) : Host.Outcome State Fault Refusal :=
  .next (match s.fc.timers.find? (fun g => g.seq == seq) with
    | some g => (s.escalate g).settle.markTamper s.safe g.source
    | none => s)

/-! ### Leaving a fault state (R490 to R492) -/

/-- A source whose condition lasts is raised with an action of CONTAIN or above: these are the chip's, so they count for the device, and
for the partitions that a CONTAIN of theirs contains. -/
def State.stillRaised (s : State) (scope : Nat) : Bool :=
  s.fc.lasting.any (fun e => if scope < 12 then s.severity e.1 == Severity.contain else decide (Severity.contain ≤ s.severity e.1))

/-- The device leaves the safe state: the system firmware performs a warm reset (R490). R491 keeps two kinds of safe state. -/
def State.leaveSafe (s : State) : State := if s.fc.byTamper || s.fc.byParity || !s.safe then s else s.warm false

/-- A scope leaves its fault state. -/
def State.leave (s : State) (scope : Nat) : State := if scope < 12 then s.leaveContained scope else s.leaveSafe

/-- RECOVERY_LIMIT of a scope (R492). -/
def State.raiseLimit (s : State) (scope : Nat) : State :=
  if scope < 12 then s.raise Source.recoveryLimit Kind.bay (s.lowBay scope) 0 else s.raise Source.recoveryLimit Kind.chip 0 0

/-- The end of a scope's quiet period: an exit, or HELD where the exit would exceed LIMIT (R492). -/
def State.quietOver (s : State) (scope : Nat) : State :=
  if s.fget .fcLimit 0 < s.recentExits scope + 1 then (s.hold scope).raiseLimit scope
  else (s.recordExit scope).leave scope

/-- QUIET_EXPIRY (R490 to R492). -/
def execQuietExpiry (scope : Nat) (s : State) : Host.Outcome State Fault Refusal :=
  .next (
    if !s.fc.quiet.contains scope || s.isHeld scope || s.stillRaised scope || (scope == 12 && (s.fc.byTamper || s.fc.byParity)) then s
    else s.quietOver scope)

/-! ### FAULT_N (R489) -/

/-- The pin outside its minimum pulse: low while HOLD is 1 or in the safe state. -/
def State.driveFault (s : State) : State := s.fset .fcAsserted 0 (bitNat (s.fget .fcHold 0 == 1 || s.safe))

/-- FAULT_PULSE_END (R489): a write of 0 to HOLD during the pulse takes effect now. -/
def execFaultPulseEnd (s : State) : Host.Outcome State Fault Refusal :=
  .next (
    if s.fc.pulse then
      let s := if s.fc.release then s.fset .fcHold 0 0 else s
      State.driveFault { s with fc := { s.fc with pulse := false, release := false } }
    else s)

/-- A write of HOLD. -/
def State.writeHold (s : State) (value : Nat) : State :=
  if s.fc.pulse then { s with fc := { s.fc with release := value % 2 == 0 } }
  else (s.fset .fcHold 0 (value % 2)).driveFault

/-- HOLD_WRITE (R489). -/
def execHoldWrite (value : Nat) (s : State) : Host.Outcome State Fault Refusal := .next (s.writeHold value)

/-! ### The collector's own errors (R494) -/

/-- The safe state without severity, grace timer or log slot. -/
def State.selfFault (s : State) : State :=
  let s := { s with fc := { s.fc with byParity := s.fc.byParity || !s.safe } }
  (((s.fset .fcSelfFault 0 1).enterSafe).fset .fcAsserted 0 1).settle

/-- COLLECTOR_PARITY (R494). -/
def execCollectorParity (s : State) : Host.Outcome State Fault Refusal := .next s.selfFault

/-! ### FAULT_RELEASE (R492, R503, R527) -/

/-- The start of FAULT_RELEASE: the scope leaves its state at once, which is not counted as an exit. -/
def State.runRelease (s : State) (c : Cmd) : State :=
  let n := c.arg 16 16
  if n < 12 then
    if s.isHeld n || s.fget .fcPartContained n == 1 then ((s.fset .fcPartHeld n 0).leaveContained n).complete c Status.ok 0 0
    else s.complete c Status.notHeld 0 0
  else if s.isHeld 12 then ((s.fset .fcHeld 0 0).complete c Status.ok 0 0).leaveSafe
  else s.complete c Status.notHeld 0 0

/-- FAULT_RELEASE (R503). -/
def execFaultRelease (fn ring : Nat) (s : State) : Host.Outcome State Fault Refusal :=
  .next (s.hostCmd fn ring 0x91
    (fun _ d =>
      let n := dField d 16 16
      { op := 0x91, fnOk := fn == 0, part := n, spargeOk := false, operands := (decide (n < 12) || n == 0xFF) && dZero d 63 17 })
    (fun _ _ => 0) (fun s c => s.runRelease c))

/-! ### FAULT_INJECT (R503) -/

/-- The legal instances of a kind. -/
def State.instanceOk (s : State) (kind inst : Nat) : Bool :=
  if kind = Kind.chip then inst == 0
  else if kind = Kind.tile then s.mapped inst
  else if kind = Kind.bay then decide (inst < 12)
  else if kind = Kind.port then decide (inst < 24)
  else kind == Kind.stack && decide (inst < 12)

/-- The start of FAULT_INJECT: COLLECTOR_PARITY acts as R494 says. -/
def State.runInject (s : State) (c : Cmd) : State :=
  let source := c.arg 17 16
  let s := s.complete c Status.ok 0 0
  if source = Source.collectorParity then s.selfFault else s.raise source (c.arg 18 18) (c.arg 19 19) 0

/-- FAULT_INJECT (R503). -/
def execFaultInject (fn ring : Nat) (s : State) : Host.Outcome State Fault Refusal :=
  .next (s.hostCmd fn ring 0x92
    (fun s d =>
      { op := 0x92, fnOk := fn == 0, part := 0xFF, spargeOk := false,
        operands := sourceNamed (dField d 17 16) && dField d 17 16 != Source.tamper && s.instanceOk (dField d 18 18) (dField d 19 19) &&
          dZero d 63 20 })
    (fun _ _ => 0) (fun s c => s.runInject c))

end Sys2Proof.Machine
end

