-- ==== Sys2Proof/Machine/Security.lean ====
section
/-!
DEFINITION. The security controller and the boot ROM (R443, R449, R463 to R478): VF disables, tamper, life cycle, debug unlock, firmware
update and recovery, the attestation report, and the SPDM responder. A key is named here by the bytes that spec/ keeps of it: the
public key or its digest (log entry 7).
-/

namespace Sys2Proof.Machine

/-! ### VF enable and disable (R427, R428, R448, R449) -/

/-- VF 1 to VF n, as a mask. -/
def vfMask (n : Nat) : Nat := 2 ^ (min n 12 + 1) - 2

/-- VF_ENABLE (R427): not in RECOVERY (R473). -/
def execVfEnable (numVfs : Nat) (s : State) : Host.Outcome State Fault Refusal :=
  .next (if s.fget .secStage 0 = 2 then s else { s with numVfs := numVfs % 2 ^ 16, vfUp := vfMask (numVfs % 2 ^ 16) })

/-- The disable of partition p's VF: its session ends, its rings and vectors are reset, and its drain window starts; with nothing in
flight the window ends at once (R443, R448, R449). -/
def State.disableVf (s : State) (p : Nat) : State :=
  if (s.part p).drain.any (fun d => d.why == 1) then s
  else
    let s := ((s.resetVf (p + 1)).startDrain p 1 0).endSession p
    let s := s.resetVf (p + 1)
    if (s.part p).drain.any (fun d => d.why == 1) then s else s.windowEnd p { why := 1, cmd := 0 }

/-- VF_DISABLE (R428, R449). -/
def execVfDisable (vf : Nat) (s : State) : Host.Outcome State Fault Refusal :=
  .next (if 1 ≤ vf ∧ vf ≤ 12 ∧ s.fnUp vf then ((s.disableVf (vf - 1)).settle).proceedAll else s)

/-- Every session ends, and the VF of a confidential partition is disabled (R464, R470). -/
def State.endSessions (s : State) : State :=
  (List.range 12).foldl (fun s p =>
    if (s.part p).session.stage = 0 then s
    else if s.confidential p then (s.endSession p).disableVf p
    else s.endSession p) s

/-! ### Tamper (R463, R464) -/

/-- The vault is wiped, and the identity key is not derived again before module power-on. -/
def State.tamperWipe (s : State) : State :=
  State.endSessions ({ s with sec := { s.sec with identity := false, wiped := true }, err := { s.err with vault := [] } }.fset .secKeysValid 0 0)

/-- TAMPER (R463, R464): the bit of a source of *Tamper sources*. -/
def execTamper (cause : Nat) (s : State) : Host.Outcome State Fault Refusal :=
  .next (
    if 5 ≤ cause ∨ s.pwr.powered = false then s
    else ((s.fset1s .secCause 0 (2 ^ cause)).tamperWipe.raise Source.tamper Kind.chip 0 cause).markTamper s.safe Source.tamper)

/-! ### Authorisation (R466 to R470) -/

/-- The digest in the valid customer key bank. -/
def State.customerKey (s : State) : Option (List Byte) := s.sec.bank0 <|> s.sec.bank1

abbrev Lc.manufacture : Nat := 0
abbrev Lc.provisioned : Nat := 1
abbrev Lc.deployed : Nat := 2
abbrev Lc.return_ : Nat := 3
abbrev Lc.end_ : Nat := 4

/-- The row of *Life-cycle transitions*: whether the customer key signs, and whether NEW_KEY is given. -/
def lcRow (from_ target : Nat) : Option (Bool × Bool) :=
  match from_, target with
  | 0, 1 => some (false, false)
  | 1, 2 => some (false, true)
  | 2, 3 => some (true, false)
  | 2, 4 => some (true, false)
  | 1, 3 => some (false, false)
  | 1, 4 => some (false, false)
  | 3, 4 => some (false, false)
  | _, _ => none

/-- The key that signs: the customer's, or Skovari's. -/
def State.signer (s : State) (customer : Bool) : List Byte :=
  if customer then s.customerKey.getD [] else Config.fused Fused.skovariKey

/-- An authorisation block is valid (R468). -/
def State.authOk (s : State) (purpose target : Nat) (key bs : List Byte) : Bool :=
  leField bs 3 0 == 0x48545541 && leField bs 4 4 == purpose && leField bs 5 5 == target &&
    leField bs 15 8 == s.fget .hostSerial 0 && s.sec.challenge == some ((bs.drop 16).take 32) &&
    Config.ecdsaVerify key (bs.take 128) ((bs.drop 128).take 64)

def authKey (bs : List Byte) : List Byte := (bs.drop 48).take 64

/-- A use of the challenge consumes it. -/
def State.useChallenge (s : State) : State := { s with sec := { s.sec with challenge := none } }

/-- An invalid block: AUTH_FAILED, as a status and as a fault. -/
def State.failAuth (s : State) (c : Cmd) : State := (s.complete c Status.authFailed 0 0).raise Source.authFailed Kind.chip 0 0

/-- The vault is wiped at a life-cycle change and at a debug unlock; its session keys are gone, and the identity key is derived again at
once (R465). -/
def State.wipeVault (s : State) : State := State.endSessions { s with err := { s.err with vault := [] } }

/-- A new key's digest goes into the next free bank, then its valid bit (R467). -/
def State.putKey (s : State) (key : List Byte) : State :=
  let d := some (sha256 key)
  let s := if s.sec.bank0.isNone then { s with sec := { s.sec with bank0 := d } } else { s with sec := { s.sec with bank1 := d } }
  s.fset .secCustomerKey 0 1

/-- The start of LC_ADVANCE. -/
def State.runLcAdvance (s : State) (c : Cmd) : State :=
  let target := c.arg 16 16
  match lcRow (s.fget .secLcState 0) target with
  | none => s.complete c Status.badTransition 0 0
  | some (customer, hasKey) =>
    let bs := s.hostRead (c.arg 31 24) 192
    let ok := s.authOk 1 target (s.signer customer) bs
    let s := s.useChallenge
    if !ok then s.failAuth c
    else if ((authKey bs).any (fun b => b != 0)) != hasKey || (hasKey && s.sec.bank0.isSome && s.sec.bank1.isSome) then
      s.complete c Status.badTransition 0 0
    else
      let s := s.wipeVault
      let s := if hasKey then s.putKey (authKey bs) else s
      (s.fset .secLcState 0 target).complete c Status.ok 0 0

/-- LC_ADVANCE (R467, R515). -/
def execLcAdvance (fn ring : Nat) (s : State) : Host.Outcome State Fault Refusal :=
  .next (s.hostCmd fn ring 0x83
    (fun _ d => { op := 0x83, fnOk := fn == 0, part := 0xFF, spargeOk := false, operands := dZero d 23 17 && dZero d 63 32 })
    (fun s _ => if s.fget .pwrSag 0 = 1 then Status.powerSag else 0)
    (fun s c => s.runLcAdvance c))

/-- The start of AUTH_CHALLENGE: 32 fresh bytes, a free value (log entry 4). -/
def State.runChallenge (s : State) (c : Cmd) : State :=
  let (n, s) := s.free1
  let bs := leBytes 32 n
  let s := { s with sec := { s.sec with challenge := some bs, challenges := s.sec.challenges + 1 } }
  (s.hostPut c (c.arg 31 24) bs).complete c Status.ok 0 0

/-- AUTH_CHALLENGE (R468). -/
def execAuthChallenge (fn ring : Nat) (s : State) : Host.Outcome State Fault Refusal :=
  .next (s.hostCmd fn ring 0x84
    (fun _ d => { op := 0x84, fnOk := fn == 0, part := 0xFF, spargeOk := false, operands := dZero d 23 16 && dZero d 63 32 })
    (fun _ _ => 0) (fun s c => s.runChallenge c))

/-- A debug state can be reached by an unlock: whether the customer key signs (*Debug states*). -/
def State.debugRow (s : State) (target : Nat) : Option Bool :=
  let lc := s.fget .secLcState 0
  if target = 1 then
    if lc = Lc.provisioned ∨ lc = Lc.deployed ∨ lc = Lc.return_ then some (lc == Lc.deployed && s.customerKey.isSome) else none
  else if target = 2 ∧ (lc = Lc.manufacture ∨ lc = Lc.return_) then some false
  else none

/-- The start of DEBUG_UNLOCK (R470). -/
def State.runUnlock (s : State) (c : Cmd) : State :=
  let target := c.arg 16 16
  match s.debugRow target with
  | none => s.complete c Status.badTransition 0 0
  | some customer =>
    let ok := s.authOk 2 target (s.signer customer) (s.hostRead (c.arg 31 24) 192)
    let s := s.useChallenge
    if !ok then s.failAuth c else (s.wipeVault.fset .secDebugState 0 target).complete c Status.ok 0 0

/-- DEBUG_UNLOCK (R470). -/
def execDebugUnlock (fn ring : Nat) (s : State) : Host.Outcome State Fault Refusal :=
  .next (s.hostCmd fn ring 0x85
    (fun _ d => { op := 0x85, fnOk := fn == 0, part := 0xFF, spargeOk := false, operands := dZero d 23 17 && dZero d 63 32 })
    (fun _ _ => 0) (fun s c => s.runUnlock c))

/-! ### Firmware (R472 to R474) -/

/-- Program the SPI NOR with an image. -/
def State.programNor (s : State) (bs : List Byte) : State :=
  { s with sec := { s.sec with nor := Mem.write [] 0 bs, norLen := bs.length } }

/-- The start of FW_UPDATE. -/
def State.runFwUpdate (s : State) (c : Cmd) : State :=
  let bs := s.hostRead (c.arg 31 24) (c.arg 35 32)
  let why := fwCheck (s.fget .secFwSvn 0) bs
  if why = 3 then s.complete c Status.rollback 0 0
  else if why ≠ 0 then s.complete c Status.fwInvalid 0 0
  else (s.programNor bs).complete c Status.ok 0 0

/-- FW_UPDATE (R474, R515). -/
def execFwUpdate (fn ring : Nat) (s : State) : Host.Outcome State Fault Refusal :=
  .next (s.hostCmd fn ring 0x82
    (fun _ d => { op := 0x82, fnOk := fn == 0, part := 0xFF, spargeOk := false, operands := dZero d 23 16 && dZero d 63 36 })
    (fun s _ =>
      if s.fget .pwrSag 0 = 1 then Status.powerSag
      else if s.cmds.any (fun c => decide (c.part < 12)) then Status.busy else 0)
    (fun s c => s.runFwUpdate c))

/-- Bytes of a recovery chunk. -/
def chunkBytes : Nat := 2 ^ 19

/-- RECOVERY_CHUNK (R473): chunk k of the image lands in the first 32 MiB of bay 0's LPDDR5X. -/
def execRecoveryChunk (k : Nat) (data : List Byte) (s : State) : Host.Outcome State Fault Refusal :=
  .next (
    if s.fget .secStage 0 ≠ 2 ∨ 64 ≤ k then s
    else
      let s := { s with sec := { s.sec with recovering := true } }
      (s.devWrite (lpBase 0 + chunkBytes * k) (data.take chunkBytes)).fset .secChunkDone 0 k)

/-- GO: the check of R472, the programming, and a warm reset. No SPI NOR write starts under supply sag (R515). -/
def State.recoverImage (s : State) : State :=
  if s.fget .secStage 0 ≠ 2 ∨ s.fget .pwrSag 0 = 1 then s
  else
    let bs := s.devRead (lpBase 0) (min (s.fget .secRecoveryLen 0) (2 ^ 25))
    if s.fget .secRecoveryLen 0 ≤ 2 ^ 25 ∧ fwCheck (s.fget .secFwSvn 0) bs = 0 then ((s.fset .secError 0 0).programNor bs).warm false
    else s.fset .secError 0 1

/-- RECOVERY_GO (R473). -/
def execRecoveryGo (s : State) : Host.Outcome State Fault Refusal := .next s.recoverImage

/-! ### The attestation report (R475) -/

/-- The first n bytes, zero beyond the end. -/
def padTo (n : Nat) (bs : List Byte) : List Byte := (bs ++ List.replicate n 0).take n

/-- An entry of partition q in the view (0xFF the device, else a partition): its value, or zero. -/
def inView (view q : Nat) {α : Type} (dflt x : α) : α := if view = 0xFF ∨ view = q then x else dflt

/-- Bytes 959:0 of a report. -/
def State.reportBody (s : State) (view : Nat) (nonce : List Byte) : List Byte :=
  let hd := s.sec.running
  let digest (o : Nat) : List Byte := padTo 32 (hd.drop o)
  let spares (b : Nat) : Nat :=
    s.activeTiles b + 16 * s.fget .baySpareUsed b + 32 * s.fget .bayDegraded b + 64 * s.fget .bayRetired b
  padTo 960 (
    leBytes 4 0x52545441 ++ leBytes 2 1 ++ leBytes 2 1024 ++ leBytes 8 (s.fget .hostSerial 0) ++ leBytes 2 0x0060 ++ leBytes 1 0x10 ++
    leBytes 1 0 ++ sha256 (Config.fused Fused.identityKey) ++ sha256 (Config.fused Fused.bootRom) ++ digest 16 ++ digest 48 ++ digest 80 ++
    leBytes 4 (s.fget .secFwSvn 0) ++ (List.range 12).flatMap (fun q => inView view q (leBytes 32 0) ((List.range 8).flatMap (fun n => leBytes 4 (s.fget .ldrDigest (8 * q + n))))) ++
    leBytes 8 (bitNat s.sec.bank0.isSome + 2 * bitNat s.sec.bank1.isSome + 4) ++
    leBytes 1 (s.fget .secLcState 0) ++ leBytes 1 (s.fget .secDebugState 0) ++ leBytes 2 0 ++
    (List.range 12).flatMap (fun b => leBytes 1 ((s.partOfBay b).getD 0xFF)) ++ (List.range 12).flatMap (fun b => leBytes 1 (spares b)) ++
    leBytes 1 (s.fget .flashSpareLeft 0) ++ leBytes 1 0 ++ leBytes 2 ((List.range 24).filter (fun q => s.fget .linkSpareUsed q == 1)).length ++
    (List.range 12).flatMap (fun b => leBytes 1 (s.fget .ketSpareLanes b)) ++ leBytes 4 0 ++ padTo 32 (s.customerKey.getD []) ++
    padTo 32 nonce ++ leBytes 1 view ++ leBytes 1 0 ++
    (List.range 12).flatMap (fun q => leBytes 1 (inView view q 0 (bitNat (s.confidential q)))))

/-- The report, signed by the identity key. -/
def State.report (s : State) (view : Nat) (nonce : List Byte) : List Byte :=
  let body := s.reportBody view nonce
  body ++ padTo 64 (Config.ecdsaSign 0 body)

/-- The start of ATTEST_REPORT. -/
def State.runAttest (s : State) (c : Cmd) : State :=
  if Tab.get false s.err.vault 12 then s.vaultFails 12
  else (s.hostPut c (c.arg 31 24) (s.report (c.arg 16 16) (leBytes 32 (c.arg 63 32)))).complete c Status.ok 0 0

/-- ATTEST_REPORT (R464, R475, R477). -/
def execAttestReport (fn ring : Nat) (s : State) : Host.Outcome State Fault Refusal :=
  .next (s.hostCmd fn ring 0x80
    (fun s d =>
      let p := dField d 16 16
      { op := 0x80, fnOk := pfOrVf fn p, part := p, spargeOk := false, operands := (p == 0xFF || s.partDefined p) && dZero d 23 17 })
    (fun s _ => if s.sec.identity then 0 else Status.keysWiped)
    (fun s c => s.runAttest c))

/-! ### SPDM (R443, R476) -/

abbrev Spdm.error : Nat := 0x7F
abbrev Spdm.digests : Nat := 0x81
abbrev Spdm.certificate : Nat := 0x82
abbrev Spdm.challenge : Nat := 0x83
abbrev Spdm.version : Nat := 0x84
abbrev Spdm.measurements : Nat := 0xE0
abbrev Spdm.capabilities : Nat := 0xE1
abbrev Spdm.algorithms : Nat := 0xE3
abbrev Spdm.keyExchange : Nat := 0xE4
abbrev Spdm.finish : Nat := 0xE5
abbrev Spdm.keyUpdate : Nat := 0xE9
abbrev Spdm.endSession : Nat := 0xEC

/-- A response on the DOE mailbox of a function (log entry 8). -/
def State.doe (s : State) (fn code : Nat) (req view : List Byte) : State := { s with mgmt := (fn, Config.spdmBody code req view) :: s.mgmt }

/-- The mailbox answers: the function is up, and the system firmware runs; the request ends an idle state (R473, R476, R509). -/
def State.mailbox (s : State) (fn : Nat) : Bool := s.fget .secStage 0 == 3 && s.fnUp fn

/-- A request whose connection state or condition fails gets an SPDM error; the others their response. -/
def State.spdm (s : State) (fn need code : Nat) (req view : List Byte) (ok : Bool) (k : State → State) : State :=
  if !s.mailbox fn then s
  else
    let s := s.wake
    if Tab.get 0 s.sec.spdm fn < need || !ok then s.doe fn Spdm.error req [] else k (s.doe fn code req view)

def State.setSpdm (s : State) (fn n : Nat) : State := { s with sec := { s.sec with spdm := Tab.set 0 s.sec.spdm fn n } }

/-- The view of a mailbox: the device for the PF, its own partition for a VF. -/
def viewOf (fn : Nat) : Nat := if fn = 0 then 0xFF else fn - 1

/-- The measurements of a mailbox's view, with the requester's nonce (*SPDM measurements*). -/
def State.measured (s : State) (fn : Nat) (req : List Byte) : List Byte := s.report (viewOf fn) ((req.drop 4).take 32)

/-- GET_VERSION (R476). -/
def execGetVersion (fn : Nat) (req : List Byte) (s : State) : Host.Outcome State Fault Refusal :=
  .next (s.spdm fn 0 Spdm.version req [] true (fun s => s.setSpdm fn 1))

/-- GET_CAPABILITIES (R476). -/
def execGetCapabilities (fn : Nat) (req : List Byte) (s : State) : Host.Outcome State Fault Refusal :=
  .next (s.spdm fn 1 Spdm.capabilities req [] true (fun s => s.setSpdm fn 2))

/-- NEGOTIATE_ALGORITHMS (R476). -/
def execNegotiateAlgorithms (fn : Nat) (req : List Byte) (s : State) : Host.Outcome State Fault Refusal :=
  .next (s.spdm fn 2 Spdm.algorithms req [] true (fun s => s.setSpdm fn 3))

/-- GET_DIGESTS (R476). -/
def execGetDigests (fn : Nat) (req : List Byte) (s : State) : Host.Outcome State Fault Refusal :=
  .next (s.spdm fn 3 Spdm.digests req [] true id)

/-- GET_CERTIFICATE (R476). -/
def execGetCertificate (fn : Nat) (req : List Byte) (s : State) : Host.Outcome State Fault Refusal :=
  .next (s.spdm fn 3 Spdm.certificate req [] true id)

/-- CHALLENGE (R464, R476). -/
def execChallenge (fn : Nat) (req : List Byte) (s : State) : Host.Outcome State Fault Refusal :=
  .next (s.spdm fn 3 Spdm.challenge req (s.measured fn req) s.sec.identity id)

/-- GET_MEASUREMENTS (R464, R476): bit 0 of byte 2 asks for a signature. -/
def execGetMeasurements (fn : Nat) (req : List Byte) (s : State) : Host.Outcome State Fault Refusal :=
  .next (s.spdm fn 3 Spdm.measurements req (s.measured fn req) (s.sec.identity || !bitOf (leField req 2 2) 0) id)

/-- The session of VF fn's partition. -/
def State.modSession (s : State) (fn : Nat) (f : Session → Session) : State := s.modPart (fn - 1) (fun x => { x with session := f x.session })

/-- A session key set takes a number of its own. -/
def State.newKeys (s : State) (fn : Nat) (f : Session → Session) : State :=
  { (s.modSession fn (fun x => f { x with keyId := s.free + 1 })) with free := s.free + 1 }

/-- KEY_EXCHANGE (R443, R464): refused while the partition has a command in flight. -/
def execKeyExchange (fn : Nat) (req : List Byte) (s : State) : Host.Outcome State Fault Refusal :=
  .next (s.spdm fn 3 Spdm.keyExchange req []
    (fn != 0 && s.sec.identity && (s.part (fn - 1)).session.stage == 0 && !s.cmds.any (fun c => c.part == fn - 1 || c.fn == fn))
    (fun s => s.newKeys fn (fun x => { Session.none with stage := 1, keyId := x.keyId })))

/-- A HOST or REMOTE capture ends at the start of a confidential session (R498). -/
def State.endOpenCapture (s : State) (p : Nat) : State :=
  if s.fget .rplState p = 2 ∧ (s.fget .rplTarget p = 1 ∨ s.fget .rplTarget p = 2) then s.fset .rplState p 4 else s

/-- FINISH (R443). -/
def execFinish (fn : Nat) (req : List Byte) (s : State) : Host.Outcome State Fault Refusal :=
  .next (s.spdm fn 3 Spdm.finish req [] (fn != 0 && (s.part (fn - 1)).session.stage == 1)
    (fun s => ((s.modSession fn (fun x => { x with stage := 2 })).fset .partConfActive (fn - 1) 1).endOpenCapture (fn - 1)))

/-- KEY_UPDATE (R443): the keys change, and every counter continues. -/
def execKeyUpdate (fn : Nat) (req : List Byte) (s : State) : Host.Outcome State Fault Refusal :=
  .next (s.spdm fn 3 Spdm.keyUpdate req [] (fn != 0 && (s.part (fn - 1)).session.stage == 2)
    (fun s => (s.newKeys fn (fun x => { x with updates := x.updates + 1 })).finc .confKeyUpdates (fn - 1) 1))

/-- END_SESSION (R443, R449). -/
def execEndSession (fn : Nat) (req : List Byte) (s : State) : Host.Outcome State Fault Refusal :=
  .next ((s.spdm fn 3 Spdm.endSession req [] (fn != 0 && (s.part (fn - 1)).session.stage != 0)
    (fun s => ((s.endSession (fn - 1)).disableVf (fn - 1)).settle)).proceedAll)

end Sys2Proof.Machine
end

