-- ==== Sys2Proof/Machine/Power.lean ====
section
/-!
DEFINITION. The power manager (R49, R490, R507 to R519, R523): power states, limits, temperature, supply and leak.
-/

namespace Sys2Proof.Machine

/-! ### Conditions that last (R490) -/

/-- A source's condition begins: it is raised once, and counts as raised until it ends. `key` tells the places of one source apart. -/
def State.startLasting (s : State) (source key kind inst info : Nat) : State :=
  if s.fc.lasting.contains (source, key) then s
  else ({ s with fc := { s.fc with lasting := (source, key) :: s.fc.lasting } }).raise source kind inst info

/-- A condition ends. -/
def State.endLasting (s : State) (source key : Nat) : State :=
  { s with fc := { s.fc with lasting := s.fc.lasting.filter (fun e => e != (source, key)) } }

/-! ### DUTY (R511 to R514) -/

/-- DUTY goes down by 1, to no less than 1. -/
def State.dutyDown (s : State) : State := s.fset .pwrDuty 0 (max 1 (s.fget .pwrDuty 0 - 1))

/-- A temperature action lowers DUTY. -/
def State.hot (s : State) : Bool := s.pwr.hot95 || s.pwr.hot105 || s.pwr.stackHot != 0

/-- THROTTLE follows the temperature actions, with its event. -/
def State.showThrottle (s : State) : State :=
  let s1 := s.fset .pwrThrottle 0 (bitNat s.hot)
  if s.hot && s.fget .pwrThrottle 0 == 0 then s1.powerEvent .pwrThrottleStart else s1

/-- CAPPING, with its event. -/
def State.showCapping (s : State) (on : Bool) : State :=
  let s1 := s.fset .pwrCapping 0 (bitNat on)
  if on && s.fget .pwrCapping 0 == 0 then s1.powerEvent .pwrCapStart else s1

/-- µs with THROTTLE and with CAPPING set. -/
def State.countUs (s : State) (n : Nat) : State :=
  (s.finc .pwrThrottleUs 0 (n * s.fget .pwrThrottle 0)).finc .pwrCapUs 0 (n * s.fget .pwrCapping 0)

/-- A tick of 100 µs: DUTY goes down where the mean exceeds the cap, or a junction or a stack is at 95 °C; CAPPING ends at or below the
cap. -/
def State.tickDown (s : State) (mean : Nat) : State :=
  let high := decide (s.fget .pwrCap 0 < mean)
  let s := (s.countUs 100).showCapping high
  if high || s.hot then s.dutyDown else s

/-- A tick of 1 ms: DUTY goes up where the mean is below 97 % of the cap and nothing lowers it. -/
def State.tickUp (s : State) (mean : Nat) : State :=
  if 100 * mean < 97 * s.fget .pwrCap 0 ∧ s.hot = false then s.fset .pwrDuty 0 (min 16 (s.fget .pwrDuty 0 + 1)) else s

/-- POWER_CAP_ADJUST (R511). -/
def execPowerCapAdjust (meanWatts : Nat) (slow : Bool) (s : State) : Host.Outcome State Fault Refusal :=
  .next (if s.pwr.powered = false then s else if slow then s.tickUp meanWatts else s.tickDown meanWatts)

/-- POWER_PEAK_LIMIT (R512). -/
def execPowerPeakLimit (watts centiamps : Nat) (s : State) : Host.Outcome State Fault Refusal :=
  .next (
    if s.pwr.powered && (decide (4000 < watts) || decide (10000 < centiamps)) then
      (s.showCapping true).fset .pwrDuty 0 (min 8 (s.fget .pwrDuty 0))
    else s)

/-! ### Temperature (R514) -/

/-- THERMAL_THROTTLE (R514): a junction (none) or a stack at 95 °C. -/
def execThermalThrottle (stack : Option Nat) (celsius : Nat) (s : State) : Host.Outcome State Fault Refusal :=
  .next (
    if s.pwr.powered = false ∨ celsius < 95 then s
    else
      match stack with
      | none =>
        let s := s.fset .pwrTjMax 0 celsius
        if s.pwr.hot95 then s
        else
          let s := State.showThrottle { s with pwr := { s.pwr with hot95 := true } }
          s.dutyDown.raise Source.thermalThrottle Kind.chip 0 celsius
      | some st =>
        if 12 ≤ st ∨ bitOf s.pwr.stackHot st then s
        else (State.showThrottle { s with pwr := { s.pwr with stackHot := s.pwr.stackHot + 2 ^ st } }).dutyDown)

/-- LIMIT_105 (R514). -/
def execLimit105 (celsius : Nat) (s : State) : Host.Outcome State Fault Refusal :=
  .next (
    if s.pwr.powered = false ∨ celsius < 105 then s
    else
      let s := s.fset .pwrTjMax 0 celsius
      if s.pwr.hot105 then s
      else (((State.showThrottle { s with pwr := { s.pwr with hot105 := true } }).fset .pwrDuty 0 1).powerEvent .pwrLimit105))

/-- THERMAL_TRIP (R514): THERMTRIP_N stays low until module power-on. -/
def execThermalTrip (stack : Option Nat) (celsius : Nat) (s : State) : Host.Outcome State Fault Refusal :=
  .next (
    if s.pwr.powered = false then s
    else
      let s' := { s with pwr := { s.pwr with tripped := true } }
      match stack with
      | none => if celsius < 115 then s else (s'.fset .pwrTjMax 0 celsius).startLasting Source.thermalTrip 0 Kind.chip 0 celsius
      | some st => if celsius < 105 ∨ 12 ≤ st then s else s'.startLasting Source.thermalTrip (st + 1) Kind.stack st celsius)

/-- HBM_REFRESH_DOUBLE (R514). -/
def execHbmRefreshDouble (stack celsius : Nat) (s : State) : Host.Outcome State Fault Refusal :=
  .next (
    if s.pwr.powered = false ∨ celsius < 85 ∨ 12 ≤ stack ∨ bitOf s.pwr.refresh2 stack then s
    else { s with pwr := { s.pwr with refresh2 := s.pwr.refresh2 + 2 ^ stack } })

/-- A mask with bit i cleared. -/
def clearBit (mask i : Nat) : Nat := if bitOf mask i then mask - 2 ^ i else mask

/-- TEMPERATURE_RECOVERED (R490, R514): each action ends at its own threshold. -/
def execTemperatureRecovered (stack : Option Nat) (celsius : Nat) (s : State) : Host.Outcome State Fault Refusal :=
  .next (
    if s.pwr.powered = false then s
    else
      match stack with
      | none =>
        let s := s.fset .pwrTjMax 0 celsius
        let s := { s with pwr := { s.pwr with hot95 := s.pwr.hot95 && decide (93 < celsius), hot105 := s.pwr.hot105 && decide (100 < celsius) } }
        State.showThrottle (if celsius < 115 then s.endLasting Source.thermalTrip 0 else s)
      | some st =>
        let s := { s with pwr := { s.pwr with
          refresh2 := if celsius ≤ 83 then clearBit s.pwr.refresh2 st else s.pwr.refresh2,
          stackHot := if celsius ≤ 93 then clearBit s.pwr.stackHot st else s.pwr.stackHot } }
        State.showThrottle (if celsius < 105 then s.endLasting Source.thermalTrip (st + 1) else s))

/-! ### Supply (R515, R516) -/

/-- Running CKPT_WRITE and FLASH_WRITE commands whose flash work is not done complete with POWER_SAG (R515). -/
def State.sagFlash (s : State) : State :=
  State.dropBuddies ((List.range 12).foldl (fun s p =>
    match (s.part p).flash with
    | some f => if (f.kind = 0 ∧ f.stage < 5) ∨ f.kind = 2 then s.endFlash p Status.powerSag 0 else s
    | none => s) s)

/-- SUPPLY_SAG (R515). -/
def execSupplySag (centivolts : Nat) (s : State) : Host.Outcome State Fault Refusal :=
  .next (
    if s.pwr.powered = false ∨ s.fget .pwrSag 0 = 1 then s
    else
      let s := (((s.fset .pwrVoltage 0 centivolts).fset .pwrSag 0 1).finc .pwrSagCount 0 1).powerEvent .pwrSagStart
      (s.sagFlash.raise Source.supplySag Kind.chip 0 centivolts).proceedAll)

/-- SAG_END (R515): the input is above 44 V. -/
def execSagEnd (centivolts : Nat) (s : State) : Host.Outcome State Fault Refusal :=
  .next (
    if s.fget .pwrSag 0 = 1 ∧ 4400 < centivolts then ((s.fset .pwrVoltage 0 centivolts).fset .pwrSag 0 0).powerEvent .pwrSagEnd else s)

/-- SUPPLY_UNDER (R516): the safe state whatever severity is programmed. -/
def execSupplyUnder (centivolts : Nat) (s : State) : Host.Outcome State Fault Refusal :=
  .next (
    if s.pwr.powered = false ∨ 4000 ≤ centivolts then s
    else
      let s := (s.fset .pwrVoltage 0 centivolts).startLasting Source.supplyUnder 0 Kind.chip 0 centivolts
      if s.safe then s else ((s.enterSafe.startQuiet 12).fset .fcAsserted 0 1).settle)

/-- SUPPLY_UNDER_END (R490). -/
def execSupplyUnderEnd (centivolts : Nat) (s : State) : Host.Outcome State Fault Refusal :=
  .next (if s.pwr.powered && decide (4000 ≤ centivolts) then (s.fset .pwrVoltage 0 centivolts).endLasting Source.supplyUnder 0 else s)

/-! ### Leak and clocks (R49, R519) -/

/-- LEAK (R519). -/
def execLeak (s : State) : Host.Outcome State Fault Refusal :=
  .next (if s.pwr.powered = false then s else (s.fset .pwrLeak 0 1).startLasting Source.leak 0 Kind.chip 0 0)

/-- LEAK_CLEARED (R490). -/
def execLeakCleared (s : State) : Host.Outcome State Fault Refusal :=
  .next (if s.pwr.powered = false then s else (s.fset .pwrLeak 0 0).endLasting Source.leak 0)

/-- The lock bit of a PLL, in the bit order of CLK_STATUS: engine, fabric, transmit, management. -/
def pllField (pll : Nat) : Option Fld :=
  match pll with
  | 0 => some .clkLockEngine
  | 1 => some .clkLockFabric
  | 2 => some .clkLockTx
  | 3 => some .clkLockMgmt
  | _ => none

/-- PLL_UNLOCK (R49): after reset, so the PLL had locked. -/
def execPllUnlock (pll : Nat) (s : State) : Host.Outcome State Fault Refusal :=
  .next (match pllField pll with
    | some f => if s.fget f 0 = 1 then (s.fset f 0 0).startLasting Source.pllUnlock pll Kind.chip 0 pll else s
    | none => s)

/-- PLL_LOCK_REGAINED (R490). -/
def execPllLockRegained (pll : Nat) (s : State) : Host.Outcome State Fault Refusal :=
  .next (match pllField pll with
    | some f => if s.fc.lasting.contains (Source.pllUnlock, pll) then (s.fset f 0 1).endLasting Source.pllUnlock pll else s
    | none => s)

/-! ### Power states (R507 to R509) -/

/-- Nothing of R508 is under way. -/
def State.quiescent (s : State) : Bool :=
  s.cmds.isEmpty && s.moves.isEmpty && s.loader.isEmpty && (List.range 12).all (fun p => (s.part p).step.isNone && s.fget .spargeRunning p == 0) &&
    (List.range 12).all (fun b => s.fget .ketState b == 0 && !(s.bay b).stepping && (s.bay b).queue.isEmpty && (s.bay b).live.isEmpty)

/-- The deepest state whose exit latency is at most PWR_LTR (R507). -/
def State.idleState (s : State) : Nat :=
  let ltr := s.fget .pwrLtr 0
  if 5000 ≤ ltr ∧ s.fget .pwrLinkStandbyEn 0 = 1 ∧ s.pwr.aspmL12 then 4
  else if 400 ≤ ltr then 3
  else if 40 ≤ ltr then 2
  else if 2 ≤ ltr then 1
  else 0

/-- The host's ASPM control of L1.2, a PCIe register outside the block, as it stands when the device goes idle: a free value (log entry
142). -/
def State.readAspm (s : State) : State :=
  let (k, s) := s.free1
  { s with pwr := { s.pwr with aspmL12 := k % 2 == 1 } }

/-- IDLE_ENTRY (R507, R508). -/
def execIdleEntry (s : State) : Host.Outcome State Fault Refusal :=
  .next (if s.fget .secStage 0 = 3 ∧ s.safe = false ∧ s.quiescent then s.readAspm.powerTo s.readAspm.idleState else s)

/-- Every port sends what it may: after a standby, what waited in it (R510). -/
def State.pumpAll (s : State) : State := (List.range 24).foldl (fun s q => State.pump 512 s q) s

/-- IDLE_WAKE (R509). -/
def execIdleWake (s : State) : Host.Outcome State Fault Refusal := .next s.wake.pumpAll

end Sys2Proof.Machine
end

