-- ==== Sys2Proof/Machine/Manage.lean ====
section
/-!
DEFINITION. The management endpoint and its sensors (R450), messages of the management channel (R313), and the arming of replay captures
with the records that a receiver appends (R498, R499, R505).
-/

namespace Sys2Proof.Machine

/-! ### Sensors (*Sensors reported over PLDM*) -/

/-- Module condition: 0 normal, 1 degraded, 2 fault, 3 safe. A fault is FAULT_N low or a contained partition (log entry 48). -/
def State.condition (s : State) : Nat :=
  if s.safe then 3
  else if s.fget .fcAsserted 0 = 1 ∨ (List.range 12).any (fun p => s.fget .fcPartContained p == 1) then 2
  else s.fget .fcDegraded 0

/-- The reading of a sensor. -/
def State.sensor (s : State) (n : Nat) : Nat :=
  if n = 24 then s.fget .pwrLeak 0
  else if n = 25 then s.condition
  else if n = 26 then s.fget .pwrState 0 % 5
  else Tab.get 0 s.pwr.sensors n

/-- The warning, critical and fatal thresholds of a sensor that rise. -/
def risingThresholds (n : Nat) : List Nat :=
  if 1 ≤ n ∧ n ≤ 7 then [95, 105, 115]
  else if 8 ≤ n ∧ n ≤ 19 then [85, 95, 105]
  else if n = 20 then [35, 40]
  else if n = 22 then [95, 100]
  else if n = 23 then [3800, 4000]
  else []

/-- How many thresholds a reading has reached: 0 normal, 1 warning, 2 critical, 3 fatal. The input voltage warns below 43 V and above
60 V, and is critical below 40 V. -/
def sensorLevel (n value : Nat) : Nat :=
  if n = 21 then (if value < 40 then 2 else if value < 43 ∨ 60 < value then 1 else 0)
  else ((risingThresholds n).filter (fun x => decide (x ≤ value))).length

/-- Level of a stored reading; a sensor that has not been read has none. -/
def State.levelOf (s : State) (n : Nat) : Nat := if Tab.get 0 s.pwr.sensors n = 0 then 0 else sensorLevel n (Tab.get 0 s.pwr.sensors n)

/-- ALERT_N is low while any sensor is beyond its warning threshold. -/
def State.showAlert (s : State) : State := { s with pwr := { s.pwr with alert := (List.range 24).any (fun n => decide (1 ≤ s.levelOf n)) } }

/-- Kinds of message on the management bus, as they stand in `mgmt` and select the standard's body (log entry 8). -/
abbrev Bmc.control : Nat := 0x100
abbrev Bmc.base : Nat := 0x101
abbrev Bmc.platform : Nat := 0x102
abbrev Bmc.fru : Nat := 0x103
abbrev Bmc.event : Nat := 0x104

/-- Send a message to the BMC. -/
def State.bmc (s : State) (kind : Nat) (req : List Byte) (view : List Nat) : State :=
  { s with mgmt := (kind, Config.mgmtBody kind req view) :: s.mgmt }

/-- The registers that show a sensor's reading: TJ_MAX, and the input's volts and amperes in hundredths and its watts. -/
def State.showReading (s : State) (n value : Nat) : State :=
  if n = 1 then s.fset .pwrTjMax 0 value
  else if n = 21 then s.fset .pwrVoltage 0 (100 * value)
  else if n = 22 then s.fset .pwrCurrent 0 (100 * value)
  else if n = 23 then s.fset .pwrPower 0 value
  else s

/-- SENSOR_UPDATE (R450): a crossing sends a PlatformEventMessage. Sensors 24 to 26 change with their events only. -/
def execSensorUpdate (sensor value : Nat) (s : State) : Host.Outcome State Fault Refusal :=
  .next (
    if s.pwr.powered = false ∨ sensor = 0 ∨ 23 < sensor then s
    else
      let old := s.levelOf sensor
      let s := ({ s with pwr := { s.pwr with sensors := Tab.set 0 s.pwr.sensors sensor value } }.showReading sensor value).showAlert
      if s.levelOf sensor = old then s else s.bmc Bmc.event [] [sensor, value, s.levelOf sensor])

/-! ### Requests of the BMC (R450) -/

/-- Command code Set Endpoint ID, and the EID it assigns: bytes 2 and 4 of an MCTP control message (log entry 8). -/
def setsEid (req : List Byte) : Option Nat := if leField req 2 2 = 1 ∧ 5 ≤ req.length then some (leField req 4 4) else none

/-- MCTP_CONTROL_MESSAGE (R450): the bus owner assigns the EID. -/
def execMctpControlMessage (req : List Byte) (s : State) : Host.Outcome State Fault Refusal :=
  .next (
    if s.pwr.powered = false then s
    else
      let s := match setsEid req with
        | some e => { s with pwr := { s.pwr with eid := e } }
        | none => s
      s.bmc Bmc.control req [s.pwr.eid, s.pwr.straps])

/-- PLDM_BASE_REQUEST (R450). -/
def execPldmBaseRequest (req : List Byte) (s : State) : Host.Outcome State Fault Refusal :=
  .next (if s.pwr.powered = false then s else s.bmc Bmc.base req [])

/-- PLDM_PLATFORM_REQUEST (R450): the readings of sensors 1 to 26, and their levels. -/
def execPldmPlatformRequest (req : List Byte) (s : State) : Host.Outcome State Fault Refusal :=
  .next (
    if s.pwr.powered = false then s
    else
      let ids := (List.range 26).map (fun i => i + 1)
      s.bmc Bmc.platform req (ids.map s.sensor ++ ids.map s.levelOf))

/-- PLDM_FRU_REQUEST (R450). -/
def execPldmFruRequest (req : List Byte) (s : State) : Host.Outcome State Fault Refusal :=
  .next (if s.pwr.powered = false then s else s.bmc Bmc.fru req [s.fget .hostSerial 0])

/-! ### The management channel (R313) -/

/-- MGMT_MESSAGE (R313): the message is taken, and captured as every message delivered locally (R498). spec/ gives its payload no
other effect. -/
def execMgmtMessage (p : Nat) (m : Msg) (s : State) : Host.Outcome State Fault Refusal :=
  .next (s.onMsg p m Vc.management Ty.mgmt true id)

/-! ### Replay captures (R498, R505) -/

/-- The PF's registers outside the security block answer; outside identity, collector and power manager not in the safe state (R473,
R493). -/
def State.regsOpen (s : State) (inSafe : Bool) : Bool := s.fget .secStage 0 == 3 && (inSafe || !s.safe)

/-- ARM is set: STATE reads ARMED, unless a capture or a replay run goes on. -/
def State.armReplay (s : State) (p : Nat) : State :=
  let s := s.fset .rplArm p 1
  if s.fget .rplState p = 2 ∨ s.fget .rplState p = 5 then s else s.fset .rplState p 1

/-- ARM is cleared: a capture that has not started is off; one that has ends at the next acceptance. -/
def State.disarmReplay (s : State) (p : Nat) : State :=
  let s := s.fset .rplArm p 0
  if s.fget .rplState p = 1 then s.fset .rplState p 0 else s

/-- REPLAY_ARM (R498). -/
def execReplayArm (p : Nat) (s : State) : Host.Outcome State Fault Refusal :=
  .next (if s.regsOpen false && decide (p < 12) then s.wake.armReplay p else s)

/-- REPLAY_DISARM (R498). -/
def execReplayDisarm (p : Nat) (s : State) : Host.Outcome State Fault Refusal :=
  .next (if s.regsOpen false && decide (p < 12) then s.wake.disarmReplay p else s)

/-- Append the bytes of a record of another partition's capture at HEAD, after a PAD record where it does not fit before the end of the
region; where there is no room it is lost (R499, R500). -/
def State.appendRecord (s : State) (p : Nat) (bs : List Byte) : State :=
  match ((s.part p).cfg.regionsOf 1 8).head? with
  | none => s
  | some r =>
    let units := r.size / 64
    let need := ceilDiv bs.length 64
    let head := s.fget .rplHead p
    let used := (head + units - s.fget .rplTail p) % units
    let pad := if head + need ≤ units then 0 else units - head
    if units = 0 ∨ units ≤ used + pad + need then
      (s.finc .rplLost p 1).detect Source.replayOverrun Kind.bay (s.lowBay p) 0
    else
      let s := if pad = 0 then s else s.devWrite (r.base + 64 * head) (replayBytes 0 0 (leField bs 15 8) [])
      let at_ := if pad = 0 then head else 0
      ((s.devWrite (r.base + 64 * at_) bs).finc .rplRecords p 1).fset .rplHead p ((at_ + need) % units)

/-- REPLAY_RECORD_MESSAGE (R498): only a partition whose TARGET is RECEIVE takes it. -/
def execReplayRecordMessage (p : Nat) (m : Msg) (s : State) : Host.Outcome State Fault Refusal :=
  .next (s.onMsg p m Vc.replay Ty.data (s.fget .rplTarget p == 3) (fun s => s.appendRecord p m.data))

end Sys2Proof.Machine
end

