-- ==== Sys2Proof/Machine/Regs.lean ====
section
/-!
DEFINITION. Writes of registers and doorbells by the host (R8, R239, R330, R374, R405, R427 to R431, R435, R437, R449, R489, R504, R505,
R509), and the coalescing timer.
-/

namespace Sys2Proof.Machine

/-! ### Rings (R430, R431, R435, R437) -/

/-- The rings, doorbells and MSI-X tables of a function take writes: also in the safe state, where commands still complete (R493, log
entry 50). -/
def State.ringsOpen (s : State) (fn : Nat) : Bool := s.fget .secStage 0 == 3 && s.fnUp fn

/-- The function has this ring pair, and its rings take writes. -/
def State.ringOpen (s : State) (fn ring : Nat) : Bool := decide (fn ≤ 12) && decide (ring < ringCount fn) && s.ringsOpen fn

/-- ENABLE of a submission ring goes from 0 to 1: SQ_HEAD is 0, and no slot has been submitted. -/
def State.enableSq (s : State) (fn ring : Nat) : State :=
  let r := ringIdx fn ring
  if s.fget .sqEnable r = 1 then s
  else ((s.fset .sqEnable r 1).fset .sqHead r 0).modRing r (fun x => { x with tail := 0 })

/-- ENABLE of a completion ring goes from 0 to 1: head and tail are 0, the phase is 1, and held records post from slot 0. -/
def State.enableCq (s : State) (fn ring : Nat) : State :=
  let r := ringIdx fn ring
  if s.fget .cqEnable r = 1 then s
  else
    let s := ((s.fset .cqEnable r 1).fset .cqHead r 0).fset .cqTail r 0
    let s := s.modRing r (fun x => { x with phase := true, seq := 0, pending := 0 })
    s.postHeld fn ring (s.ring r).held.length

/-- RING_ENABLE (R430). -/
def execRingEnable (fn ring : Nat) (cq : Bool) (s : State) : Host.Outcome State Fault Refusal :=
  .next (if s.ringOpen fn ring then (if cq then s.wake.enableCq fn ring else s.wake.enableSq fn ring) else s)

/-- Where the doorbell of a function is heard: the chip for the PF, the partition's lowest bay for a VF (R481). -/
def State.bellAt (s : State) (fn : Nat) : Nat × Nat :=
  if fn = 0 ∨ (s.part (fn - 1)).defined = false then (Kind.chip, 0) else (Kind.bay, s.lowBay (fn - 1))

/-- A doorbell write: a value at or above the ring size is ignored, and raises DOORBELL_INVALID. -/
def State.ringBell (s : State) (fn ring value : Nat) : State :=
  let r := ringIdx fn ring
  if 2 ^ s.fget .sqLog2Size r ≤ value then s.raise Source.doorbellInvalid (s.bellAt fn).1 (s.bellAt fn).2 value
  else s.modRing r (fun x => { x with tail := value })

/-- DOORBELL_WRITE (R431). -/
def execDoorbellWrite (fn ring value : Nat) (s : State) : Host.Outcome State Fault Refusal :=
  .next (if s.ringOpen fn ring then s.wake.ringBell fn ring value else s)

/-- A write of CQ_HEAD: slots are free, and held records post; equal to CQ_TAIL it clears the pending count. -/
def State.setCqHead (s : State) (fn ring value : Nat) : State :=
  let r := ringIdx fn ring
  let s := s.fset .cqHead r value
  let s := if s.fget .cqHead r = s.fget .cqTail r then s.modRing r (fun x => { x with pending := 0 }) else s
  s.postHeld fn ring (s.ring r).held.length

/-- CQ_HEAD_WRITE (R435, R437). -/
def execCqHeadWrite (fn ring value : Nat) (s : State) : Host.Outcome State Fault Refusal :=
  .next (if s.ringOpen fn ring then s.wake.setCqHead fn ring value else s)

/-- COALESCE_TIMEOUT (R437): COAL_US of 0 imposes no limit. -/
def execCoalesceTimeout (fn ring : Nat) (s : State) : Host.Outcome State Fault Refusal :=
  .next (
    let r := ringIdx fn ring
    if decide (fn ≤ 12) && decide (ring < ringCount fn) && (s.ring r).pending != 0 && s.fget .cqCoalUs r != 0 then
      (s.modRing r (fun x => { x with pending := 0 })).interrupt fn (s.fget .cqVector r)
    else s)

/-- log₂ of a ring size, clamped. -/
def ringLog2 (v : Nat) : Nat := max 6 (min 16 v)

/-- SQ_CFG: CQ and LOG2_SIZE only while the ring is not enabled, then ENABLE. -/
def State.writeSqCfg (s : State) (r v : Nat) : State :=
  let fn := r / 8
  let cq := bitsOf v 11 8
  let s := if s.fget .sqEnable r = 1 then s
    else (s.fset .sqCq r (if cq < ringCount fn then cq else 0)).fset .sqLog2Size r (ringLog2 (bitsOf v 4 0))
  if bitOf v 31 then s.enableSq fn (r % 8) else s.fset .sqEnable r 0

/-- CQ_CFG: VECTOR and LOG2_SIZE only while the ring is not enabled, then IRQ_EN and ENABLE. -/
def State.writeCqCfg (s : State) (r v : Nat) : State :=
  let fn := r / 8
  let vec := bitsOf v 24 16
  let s := if s.fget .cqEnable r = 1 then s
    else (s.fset .cqVector r (if vec < vectorCount fn then vec else 0)).fset .cqLog2Size r (ringLog2 (bitsOf v 4 0))
  let s := s.fset .cqIrqEn r (bitsOf v 30 30)
  if bitOf v 31 then s.enableCq fn (r % 8) else s.fset .cqEnable r 0

/-- One half of a 64-bit field is written. -/
def State.writeHalf (s : State) (f : Fld) (i v : Nat) (upper : Bool) : State :=
  let old := s.fget f i
  s.fset f i (if upper then v % 2 ^ 32 * 2 ^ 32 + old % 2 ^ 32 else old / 2 ^ 32 * 2 ^ 32 + v % 2 ^ 32)

/-- A register of a ring pair. -/
def State.writeRing (s : State) (r o v : Nat) : State :=
  if o = 0 ∨ o = 4 then (if s.fget .sqEnable r = 1 then s else s.writeHalf .sqBase r v (o == 4))
  else if o = 8 then s.writeSqCfg r v
  else if o = 0x10 ∨ o = 0x14 then (if s.fget .cqEnable r = 1 then s else s.writeHalf .cqBase r v (o == 0x14))
  else if o = 0x18 then s.writeCqCfg r v
  else if o = 0x20 then s.setCqHead (r / 8) (r % 8) v
  else if o = 0x24 then (s.fset .cqCoalUs r (bitsOf v 31 16)).fset .cqCoalCount r (bitsOf v 15 0)
  else s

/-! ### Quiesce (R448, R449) -/

/-- A write of QUIESCE: 1 starts a drain, and 0 resumes fetching and ends a window that still runs. -/
def State.writeQuiesce (s : State) (p value : Nat) : State :=
  if value % 2 = 1 then (if s.fget .partQuiesce p = 1 then s else (s.fset .partQuiesce p 1).startDrain p 2 0)
  else (s.fset .partQuiesce p 0).modPart p (fun x => { x with drain := x.drain.filter (fun d => d.why != 2) })

/-- QUIESCE_WRITE (R449). -/
def execQuiesceWrite (p value : Nat) (s : State) : Host.Outcome State Fault Refusal :=
  .next (if decide (p < 12) && s.blkOpen 0 Blk.part then ((s.wake.writeQuiesce p value).settle).proceedAll else s)

/-! ### The sequencer and the cache (R374, R405, R429) -/

/-- Function fn reaches bay b's sequencer and fret registers. -/
def State.bayOpen (s : State) (fn b : Nat) (k : Blk) : Bool :=
  decide (b < 12) && s.blkOpen fn k && s.blkLive k b && (fn == 0 || s.holds (fn - 1) b)

/-- STATE of a bay that runs no step and closes no barrier follows what holds the bay (R374, R405). -/
def State.seqRestIdle (s : State) (b : Nat) : State :=
  if (s.bay b).stepping || (s.bay b).closing then s else s.seqRest b

/-- A write of KV_CTRL: both fields on every bay of the partition, or nothing. -/
def State.writeKvCtrl (s : State) (b value : Nat) : State :=
  let layers := bitsOf value 8 0
  let rope := bitsOf value 11 9
  let set (s : State) (b : Nat) : State := (s.fset .kvLayers b layers).fset .kvRope b rope
  if layers = 0 ∨ 256 < layers ∨ 4 < rope then s
  else
    match s.partOfBay b with
    | none => set s b
    | some p =>
      if s.stepRuns p || (s.baysOf p).any (fun b => !(s.bay b).seqs.isEmpty) then s
      else (s.baysOf p).foldl State.seqRestIdle ((s.baysOf p).foldl set s)

/-- KV_CTRL_WRITE (R405). -/
def execKvCtrlWrite (fn b value : Nat) (s : State) : Host.Outcome State Fault Refusal :=
  .next (if s.bayOpen fn b Blk.kv then s.wake.writeKvCtrl b value else s)

/-- The step area of bay b is set to what the registers hold. -/
def State.putArea (s : State) (b area size : Nat) : State :=
  ((s.fset .seqArea b area).fset .seqAreaSize b size).seqRestIdle b

/-- A write of the whole step area, ignored where it is not legal (R374). -/
def State.writeArea (s : State) (b area size : Nat) : State :=
  match s.partOfBay b with
  | none => s
  | some p => if (s.part p).cfg.areaOk b area size then s.putArea b area size else s

/-- A write of one of its three registers, which cannot be judged without the others: it is ignored where it is illegal by itself, and
an area that is not legal holds the sequencer (log entry 49). -/
def State.writeAreaPart (s : State) (b o v : Nat) : State :=
  let area := s.fget .seqArea b
  let size := s.fget .seqAreaSize b
  if o = 0x30 then (if v % 2 ^ 21 = 0 then s.putArea b (area / 2 ^ 32 * 2 ^ 32 + v) size else s)
  else if o = 0x34 then s.putArea b (v * 2 ^ 32 + area % 2 ^ 32) size
  else if 256 ≤ v then s.putArea b area v
  else s

/-- SEQ_AREA_WRITE (R374). -/
def execSeqAreaWrite (fn b area size : Nat) (s : State) : Host.Outcome State Fault Refusal :=
  .next (if s.bayOpen fn b Blk.seq then s.wake.writeArea b area size else s)

/-! ### Flash namespaces (R239) -/

/-- FLASH_NS_WRITE (R239). -/
def execFlashNsWrite (p base size slot : Nat) (s : State) : Host.Outcome State Fault Refusal :=
  .next (if decide (p < 12) && s.blkOpen 0 Blk.flash then s.wake.writeNs p base size slot else s)

/-! ### Plain fields (R8) -/

/-- What a write stores where the field has a range (R448, R504, R511). -/
def clampOf (f : Fld) (v : Nat) : Nat :=
  match f with
  | .hostDrainWindow => max 100 (min 10000000 v)
  | .tpWaitLimit => max 1 (min 60000000 v)
  | .fcGraceNotify | .fcGraceContain | .fcGraceSafe => if v = 0 then 0 else max 1000 (min 60000000 v)
  | .fcQuiet => max 1000 (min 60000000 v)
  | .fcWindow => max 1 v
  | .fcLimit => max 1 v
  | .fcPulse => max 10 (min 1000 v)
  | .pwrCap => max 1000 (min 3800 v)
  | .linkStallLimit => max 1 (min 60000000 v)
  | _ => v

/-- One field of a written register, by its access code; fields with an action of their own are handled with their register. -/
def State.writeField (s : State) (x : RegRow × Nat) (v : Nat) : State :=
  let r := x.1
  let i := x.2
  let n := bitsOf v r.hi r.lo
  match r.acc with
  | .ro => s
  | .wo => s
  | .w1c => s.fset r.fld i (s.fget r.fld i - Nat.land (s.fget r.fld i) n)
  | .rw => if r.fld.width = 64 then s.writeHalf r.fld i v r.upper else s.fset r.fld i (clampOf r.fld n)

/-- Every field of a register. -/
def State.writePlain (s : State) (k : Blk) (i o v : Nat) : State := (k.rowsAt i o).foldl (fun s x => s.writeField x v) s

/-- NUM_FLAGS_CLEAR (R106, R107). -/
def execNumFlagsClear (t value : Nat) (s : State) : Host.Outcome State Fault Refusal :=
  .next (if s.blkOpen 0 Blk.num && s.blkLive Blk.num t then s.wake.writePlain Blk.num t 0 value else s)

/-! ### Registers with actions -/

/-- A register of the fault collector: FC_ACK, FC_ACK_ALL, FC_PIN and FC_SEVERITY have effects of their own (R484, R487, R489). -/
def State.writeFc (s : State) (o v : Nat) : State :=
  if o = 0xC then (s.slotOf v).elim s (fun i => s.ackSlot i)
  else if o = 0x10 then (if bitOf v 0 then s.ackAll else s)
  else if o = 0x28 then (s.fset .fcPulse 0 (clampOf .fcPulse (bitsOf v 9 0))).writeHold (bitsOf v 16 16)
  else if 0x100 ≤ o ∧ o < 0x420 then
    let n := (o - 0x100) / 4
    if sourceNamed n && n != Source.collectorParity then s.fset .fcSeverity n (v % 4) else s
  else s.writePlain .fc 0 o v

/-- Replay registers of partition p: configuration only while ARM is 0 and no capture or run goes on (R505); TAIL frees space (R500). -/
def State.writeRpl (s : State) (p o v : Nat) : State :=
  let free := s.fget .rplArm p == 0 && s.fget .rplState p != 2 && s.fget .rplState p != 5
  if o = 0x14 then
    let s := s.fset .rplTail p v
    s.replayFlush p (s.part p).replayHeld.length
  else if o = 0 then
    let armed := s.fget .rplArm p == 1
    let s := if free then (s.writePlain .rpl p 0 v).fset .rplArm p 0 else s
    if bitOf v 31 then s.armReplay p else if armed then s.disarmReplay p else s
  else if free then s.writePlain .rpl p o v
  else s

/-- Namespace registers of partition p, one at a time. -/
def State.writeFlash (s : State) (o v : Nat) : State :=
  if o < 0x100 ∨ 0x1C0 ≤ o then s
  else
    let p := (o - 0x100) / 16
    let n := v % 2 ^ 16
    let base := s.fget .flashNsBase p
    let size := s.fget .flashNsSize p
    let slot := s.fget .flashCkptSlot p
    match (o - 0x100) % 16 with
    | 0 => s.writeNs p n size slot
    | 4 => s.writeNs p base n slot
    | 8 => s.writeNs p base size n
    | _ => s

/-- LINK_CTRL of a port: the failover fields, and RETRAIN (R324, R330). -/
def State.writeLink (s : State) (q o v : Nat) : State :=
  let s := s.writePlain .link q o v
  if o = 8 ∧ bitOf v 31 ∧ s.portOn q ∧ s.fget .linkState q ≠ 0 then s.trainPort q else s

/-- A sequencer register. -/
def State.writeSeq (s : State) (b o v : Nat) : State :=
  if o = 0x30 ∨ o = 0x34 ∨ o = 0x38 then s.writeAreaPart b o v else s.writePlain .seq b o v

/-- A word of the MSI-X table: clearing the mask of a vector whose pending bit is set sends its message (R437). -/
def State.writeMsix (s : State) (fn o v : Nat) : State :=
  let key := vecKey fn (o / 16)
  let a := Tab.get 0 s.msixAddr key
  if o % 16 = 0 then { s with msixAddr := Tab.set 0 s.msixAddr key (a / 2 ^ 32 * 2 ^ 32 + v) }
  else if o % 16 = 4 then { s with msixAddr := Tab.set 0 s.msixAddr key (v * 2 ^ 32 + a % 2 ^ 32) }
  else if o % 16 = 8 then { s with msixData := Tab.set 0 s.msixData key v }
  else if bitOf v 0 then { s with msixOn := Tab.set false s.msixOn key false }
  else
    let s := { s with msixOn := Tab.set false s.msixOn key true }
    if Tab.get false s.msixPend key then
      State.interrupt { s with msixPend := Tab.set false s.msixPend key false } fn (o / 16)
    else s

/-- A register of a block that answers. -/
def State.writeBlk (s : State) (k : Blk) (i o v : Nat) : State :=
  match k with
  | .ring => s.writeRing i o v
  | .fc => s.writeFc o v
  | .rpl => s.writeRpl i o v
  | .flash => s.writeFlash o v
  | .link => s.writeLink i o v
  | .seq => s.writeSeq i o v
  | .kv =>
    if o = 0 then s.writeKvCtrl i v
    else if o = 0x28 then (if bitOf v 31 then s.resetFields [.kvFaultValid, .kvFaultTile, .kvFaultReason, .kvFaultSlot] i else s)
    else s.writePlain .kv i o v
  | .part => if o = 0 then (s.fset .partSpargeOnDisable i (bitsOf v 2 2)).writeQuiesce i (bitsOf v 1 1) else s
  | .sec => if o = 0x14 then (if bitOf v 31 then s.recoverImage else s) else s.writePlain .sec i o v
  | _ => s.writePlain k i o v

/-- Base of the doorbells in a function's BAR0. -/
def bellBase (fn : Nat) : Nat := if fn = 0 then 0x1_1000 else 0x2000

/-- A write of the 32-bit register at offset a of function fn's BAR0; one outside the power manager and the collector ends an idle
state (R509). -/
def State.writeReg (s : State) (fn a v : Nat) : State :=
  if msixBase fn ≤ a ∧ a < msixBase fn + 16 * vectorCount fn then
    if s.ringsOpen fn then s.wake.writeMsix fn (a - msixBase fn) v else s
  else if bellBase fn ≤ a ∧ a < bellBase fn + 8 * ringCount fn then
    if a % 8 = 0 ∧ s.ringsOpen fn then s.wake.ringBell fn ((a - bellBase fn) / 8) v else s
  else
    match s.blkAt fn a with
    | none => s
    | some (k, i, o) =>
      if (if k = Blk.ring then s.ringsOpen fn else s.blkOpen fn k) && s.blkLive k i then
        (if k = Blk.fc ∨ k = Blk.pwr then s else s.wake).writeBlk k i o v
      else s

/-- REGISTER_WRITE (R8): `value` is 32 bits, and `addr` a multiple of 4. -/
def execRegisterWrite (fn addr value : Nat) (s : State) : Host.Outcome State Fault Refusal :=
  .next (if fn ≤ 12 ∧ addr % 4 = 0 then (s.writeReg fn addr (value % 2 ^ 32)).settle.proceedAll else s)

end Sys2Proof.Machine
end

