-- ==== Sys2Proof/Machine/Tick.lean ====
section
/-!
DEFINITION. A tick: what the block does of itself when no command waits. Accepted commands that wait their turn start (R431, R158, R221),
a replay run consumes its next record (R501, R502), and time passes (log entry 1).
-/

namespace Sys2Proof.Machine

/-! ### Commands that start late -/

/-- The start of an accepted command, by its opcode. -/
def State.runCmd (s : State) (c : Cmd) : State :=
  match c.op with
  | 0x10 => s.runProgLoad c
  | 0x11 => s.runLearnStep c
  | 0x12 => s.runWeight c
  | 0x13 => s.runFill c
  | 0x40 => s.runStage c
  | 0x41 => s.runApply c
  | 0x42 => ({ s with images := s.images.filter (fun g => g.handle != c.arg 39 32) }).complete c Status.ok 0 0
  | 0x50 => s.runSubmit c
  | 0x51 => s.runCancel c
  | 0x52 => s.runEdit c
  | 0x60 => s.runBegin c
  | 0x61 => s.runCommit c
  | 0x62 => s.runAbandon c
  | 0x66 => s.runRejoin c
  | 0x67 => s.runBatchPut c
  | 0x68 => s.runSwap c
  | 0x69 => s.runPublish c
  | 0x70 => s.runMove c
  | 0x71 => s.runStateMove c
  | 0x72 => s.runCkptWrite c
  | 0x73 => s.runCkptLoad c
  | 0x74 => s.runFlashWrite c
  | 0x75 => s.runFlashTrim c
  | 0x78 => s.runResume c
  | 0x79 => s.runDrop c
  | 0x80 => s.runAttest c
  | 0x81 => s.runSparge c
  | 0x82 => s.runFwUpdate c
  | 0x83 => s.runLcAdvance c
  | 0x84 => s.runChallenge c
  | 0x85 => s.runUnlock c
  | 0x86 => s.runNsClear c
  | 0x90 => s.runReplay c
  | 0x91 => s.runRelease c
  | 0x92 => s.runInject c
  | _ => s.complete c Status.ok 0 0

/-- What refuses a command that starts after the state it was accepted in has gone by: the checks of its own chapter (step 9 of R528). A
replayed command was accepted where it was recorded. -/
def State.lateRefusal (s : State) (c : Cmd) : Nat :=
  if c.replayed then 0
  else
    match c.op with
    | 0x11 => if s.learnWaits c then 0 else s.learnRefusal c.part c.id
    | 0x12 => s.weightRefusal c.fn c.desc
    | 0x41 => (s.applyLater c.desc).1
    | 0x50 => if s.fget .turnPhase c.part = Phase.rollout then 0 else Status.badState
    | 0x60 => s.beginRefusal c.desc
    | 0x61 => s.commitRefusal c.desc
    | 0x62 => s.abandonRefusal c.desc
    | 0x66 => s.rejoinRefusal c.desc
    | 0x68 => s.swapRefusal c.desc
    | 0x69 => s.publishRefusal c.desc
    | 0x71 => s.stateMoveRefusal c.part
    | 0x72 => s.ckptRefusal c.desc
    | 0x74 => if s.fget .flashReadOnly 0 = 1 then Status.readOnly else if s.fget .pwrSag 0 = 1 then Status.powerSag else 0
    | 0x78 => s.resumeRefusal c.desc
    | 0x79 => s.dropRefusal c.desc
    | 0x80 => if s.sec.identity then 0 else Status.keysWiped
    | 0x82 | 0x83 => if s.fget .pwrSag 0 = 1 then Status.powerSag else 0
    | _ => 0

/-- An accepted command that has not started starts where its turn has come. -/
def State.startLate (s : State) (id : Nat) : State :=
  match s.cmd id with
  | none => s
  | some c =>
    if c.started || !s.mayStart c then s
    else
      let bad := s.lateRefusal c
      if bad ≠ 0 then
        (if c.op = 0x41 ∧ bad = Status.imageRejected then s.lastApply (c.arg 20 20) (s.applyLater c.desc).2 else s).complete c bad 0 0
      else
        let c := { c with started := true }
        (State.runCmd (s.modCmd id (fun c => { c with started := true })) c).settle

/-- Every command that waits is tried once, in the order of acceptance. -/
def State.startAll (s : State) : State := (s.cmds.map Cmd.id).foldl (fun s i => s.startLate i) s

/-! ### Replay runs (R501, R502) -/

/-- The state after a row that ends in one. -/
def after (s : State) (o : Host.Outcome State Fault Refusal) : State :=
  match o with
  | .next s' => s'
  | _ => s

/-- The message rows. -/
def messageRows : List (Nat → Msg → State → Host.Outcome State Fault Refusal) :=
  [execBuddyStream, execGrant, execSegAck, execReductionSegment, execNotice, execResendRequest, execAllGatherMessage, execAllToAllMessage,
   execBroadcastMessage, execScalarValueMessage, execBarrierMessage, execExchangeCountMessage, execExchangeRowsMessage, execFenceArrival,
   execFenceRelease, execBatchRecordMessage, execBatchAnswerMessage, execCloseValueMessage, execSequenceGroupMessage, execReplayRecordMessage,
   execMgmtMessage, execBuddyTrailerConfirm, execRemoteLoadRequest, execReplicaFetchRequest]

/-- Deliver a recorded message to the row that takes it; none where no engine expects it. -/
def State.tryDeliver (s : State) (p : Nat) (m : Msg) : List (Nat → Msg → State → Host.Outcome State Fault Refusal) → Option State
  | [] => none
  | f :: rest => if after s (f p m s) = s then s.tryDeliver p m rest else some (after s (f p m s))

/-- Hand the messages delivered whole to the engines that take them, in order; one that no engine expects is dropped, and those of a
partition whose capture stalls wait (R315, R500). -/
def State.drainInbox : Nat → State → State
  | 0, s => s
  | n + 1, s =>
    match s.inbox.find? (fun e => (s.part e.1).replayHeld.isEmpty) with
    | none => s
    | some e =>
      let s := { s with inbox := s.inbox.erase e }
      State.drainInbox n ((s.tryDeliver e.1 e.2 messageRows).getD s)

/-- FLIT_RECEIVE (R314 to R317, R320, R321). -/
def execFlitReceive (port : Nat) (flit : BitVec 2048) (s : State) : Host.Outcome State Fault Refusal :=
  .next (
    let s := (s.takeFlit port flit).settle
    s.drainInbox s.inbox.length)

/-- The record leaves the run. -/
def State.dropRow (s : State) (p rseq : Nat) : State :=
  s.modPart p (fun x => { x with replayRun := x.replayRun.map (fun r => { r with rows := r.rows.filter (fun y => y.2.2.1 != rseq) }) })

/-- A recorded command is accepted. -/
def State.replayCmd (s : State) (p rseq : Nat) (bs : List Byte) : State :=
  let c : Cmd := { id := s.nextCmd, fn := leField bs 0 0, ring := leField bs 1 1, slot := 0, part := p,
                   desc := BitVec.ofNat 512 (leField bs 65 2), ctr := 0, started := false, stage := 0, rseq := rseq, replayed := true }
  (State.startLate { s with cmds := s.cmds ++ [c], nextCmd := s.nextCmd + 1 } c.id).proceed p

/-- A VERSION record is due: the learn step, or the sequencer's step, has the number it was written at. -/
def State.versionDue (s : State) (p n : Nat) : Bool :=
  match (s.part p).step with
  | some st => st.stepNo == n
  | none => decide (n ≤ s.fget .seqStep (s.lowBay p))

/-- POLICY_VERSION and LAYOUT_EPOCH are taken from the record. -/
def State.replayVersion (s : State) (p : Nat) (bs : List Byte) : State :=
  let v := leField bs 7 4
  let top (r : Replay) : Replay := { r with version := max r.version v }
  ((s.fset .turnPolicyVersion p v).fset .turnLayoutEpoch p (leField bs 11 10)).modPart p (fun x => { x with replayRun := x.replayRun.map top })

/-- What one record does now; none where its time has not come. `first` says that no record before it waits, messages aside. -/
def State.replayRow (s : State) (p : Nat) (first : Bool) (x : Nat × Nat × Nat × List Byte) : Option State :=
  let (type, flags, rseq, bs) := x
  if type = 4 then
    if bitOf flags 0 then (if first then some (s.replayFails p Status.replayIncomplete rseq) else none)
    else (s.tryDeliver p (msgOf (s.part p).cfg.deviceId bs) messageRows).map (fun s => s.dropRow p rseq)
  else if !first then none
  else if type = 2 then some ((s.dropRow p rseq).replayCmd p rseq bs)
  else if type = 7 then (if s.versionDue p (leField bs 23 16) then some ((s.dropRow p rseq).replayVersion p bs) else none)
  else if type = 10 then some (s.replayFails p Status.replayIncomplete rseq)
  else if type = 12 then some (s.dropRow p rseq)
  else none

/-- The first record of a list that can be consumed. -/
def State.replayScan (s : State) (p : Nat) : Bool → List (Nat × Nat × Nat × List Byte) → Option State
  | _, [] => none
  | first, x :: rest =>
    match s.replayRow p first x with
    | some s' => some s'
    | none => s.replayScan p (first && x.1 == 4) rest

/-- Recorded work is still going on. -/
def State.replayBusy (s : State) (p : Nat) : Bool := s.cmds.any (fun c => c.replayed && c.part == p)

/-- Everything recorded has been consumed, or cannot be: the verdict of R502. Messages that no engine takes were not taken when they were
recorded. -/
def State.replayEnd (s : State) (p : Nat) (r : Replay) : State :=
  let live := s.replayBusy p || (s.part p).step.isSome || (s.baysOf p).any (fun b => (s.bay b).stepping || !(s.bay b).seqs.isEmpty)
  match r.outs with
  | [] =>
    match s.cmds.find? (fun c => c.replayed && c.part == p) with
    | some c => s.endReplay p Status.replayIncomplete c.rseq
    | none => s.endReplay p Status.ok 0
  | o :: _ => if live then s else s.endReplay p Status.replayDiverged o.1

/-- One step of a replay run. -/
def State.replayTick (s : State) (p : Nat) : State :=
  match (s.part p).replayRun with
  | none => s
  | some r =>
    if !r.live then s
    else if r.verdict.1 ≠ 0 then s.endReplay p r.verdict.1 r.verdict.2
    else
      match s.replayScan p true r.rows with
      | some s' => s'
      | none => if r.rows.all (fun x => x.1 == 4) then s.replayEnd p r else s

/-! ### The tick -/

/-- What the block does when no command waits. -/
def State.tick (s : State) : State :=
  let s := s.startAll
  let s := (List.range 12).foldl (fun s p => s.replayTick p) s
  let s := s.regWrites.foldl (fun s x => s.writeReg x.1 x.2.1 x.2.2) { s with regWrites := [] }
  let s := s.drainInbox s.inbox.length
  let s := s.proceedAll.pumpAll.upsets
  { s with time := s.time + 1 }

end Sys2Proof.Machine
end

