-- ==== Sys2Proof/WellFormed.lean ====
section
/-!
DEFINITION. Well-formed commands: every operand names a unit that the module has. The P96 has 13 functions (R427), 8 ring
pairs on the PF and 4 on a VF (R430), 12 partitions, bays and stacks, 96 logical tiles (R34, R35), 24 ports (R305) of 5
lanes (R306) and 8 virtual channels (R314), 64 banks a tile of 768 rows (R186, R202), 64 communicators (R331).
-/

namespace Sys2Proof

/-- A message whose addressing fits the fields of *Flit header* and *Collective message header* (R315). -/
def Msg.wf (m : Msg) : Bool :=
  decide (m.src < 4096) && decide (m.dst < 4096) && decide (m.vc < 8) && decide (m.ty < 16) && decide (m.epoch < 65536) &&
    decide (m.comm < 256) && decide (m.rank < 4096) && decide (m.data.length < 2 ^ 32)

/-- Every operand of the command names something the module has. -/
def Instr.wf : Instr → Bool
  | .nop fn ring => decide (fn < 13) && decide (ring < 8) && decide (fn = 0 ∨ ring < 4)
  | .reservedOpcode fn ring => decide (fn < 13) && decide (ring < 8) && decide (fn = 0 ∨ ring < 4)
  | .progLoad fn ring => decide (fn < 13) && decide (ring < 8) && decide (fn = 0 ∨ ring < 4)
  | .learnStep fn ring => decide (fn < 13) && decide (ring < 8) && decide (fn = 0 ∨ ring < 4)
  | .weightLoad fn ring => decide (fn < 13) && decide (ring < 8) && decide (fn = 0 ∨ ring < 4)
  | .fill fn ring => decide (fn < 13) && decide (ring < 8) && decide (fn = 0 ∨ ring < 4)
  | .imageStage fn ring => decide (fn < 13) && decide (ring < 8) && decide (fn = 0 ∨ ring < 4)
  | .imageApply fn ring => decide (fn < 13) && decide (ring < 8) && decide (fn = 0 ∨ ring < 4)
  | .imageRelease fn ring => decide (fn < 13) && decide (ring < 8) && decide (fn = 0 ∨ ring < 4)
  | .loaderApplyStart => true
  | .drainWindowEnd p => decide (p < 12)
  | .seqSubmit fn ring => decide (fn < 13) && decide (ring < 8) && decide (fn = 0 ∨ ring < 4)
  | .seqCancel fn ring => decide (fn < 13) && decide (ring < 8) && decide (fn = 0 ∨ ring < 4)
  | .kvEdit fn ring => decide (fn < 13) && decide (ring < 8) && decide (fn = 0 ∨ ring < 4)
  | .turnBegin fn ring => decide (fn < 13) && decide (ring < 8) && decide (fn = 0 ∨ ring < 4)
  | .turnCommit fn ring => decide (fn < 13) && decide (ring < 8) && decide (fn = 0 ∨ ring < 4)
  | .turnAbandon fn ring => decide (fn < 13) && decide (ring < 8) && decide (fn = 0 ∨ ring < 4)
  | .commRejoin fn ring => decide (fn < 13) && decide (ring < 8) && decide (fn = 0 ∨ ring < 4)
  | .batchPut fn ring => decide (fn < 13) && decide (ring < 8) && decide (fn = 0 ∨ ring < 4)
  | .policySwap fn ring => decide (fn < 13) && decide (ring < 8) && decide (fn = 0 ∨ ring < 4)
  | .policyPublish fn ring => decide (fn < 13) && decide (ring < 8) && decide (fn = 0 ∨ ring < 4)
  | .move fn ring => decide (fn < 13) && decide (ring < 8) && decide (fn = 0 ∨ ring < 4)
  | .stateMove fn ring => decide (fn < 13) && decide (ring < 8) && decide (fn = 0 ∨ ring < 4)
  | .ckptWrite fn ring => decide (fn < 13) && decide (ring < 8) && decide (fn = 0 ∨ ring < 4)
  | .ckptLoad fn ring => decide (fn < 13) && decide (ring < 8) && decide (fn = 0 ∨ ring < 4)
  | .flashWrite fn ring => decide (fn < 13) && decide (ring < 8) && decide (fn = 0 ∨ ring < 4)
  | .flashTrim fn ring => decide (fn < 13) && decide (ring < 8) && decide (fn = 0 ∨ ring < 4)
  | .kettleResume fn ring => decide (fn < 13) && decide (ring < 8) && decide (fn = 0 ∨ ring < 4)
  | .kettleAbandon fn ring => decide (fn < 13) && decide (ring < 8) && decide (fn = 0 ∨ ring < 4)
  | .attestReport fn ring => decide (fn < 13) && decide (ring < 8) && decide (fn = 0 ∨ ring < 4)
  | .sparge fn ring => decide (fn < 13) && decide (ring < 8) && decide (fn = 0 ∨ ring < 4)
  | .fwUpdate fn ring => decide (fn < 13) && decide (ring < 8) && decide (fn = 0 ∨ ring < 4)
  | .lcAdvance fn ring => decide (fn < 13) && decide (ring < 8) && decide (fn = 0 ∨ ring < 4)
  | .authChallenge fn ring => decide (fn < 13) && decide (ring < 8) && decide (fn = 0 ∨ ring < 4)
  | .debugUnlock fn ring => decide (fn < 13) && decide (ring < 8) && decide (fn = 0 ∨ ring < 4)
  | .nsClear fn ring => decide (fn < 13) && decide (ring < 8) && decide (fn = 0 ∨ ring < 4)
  | .replayRun fn ring => decide (fn < 13) && decide (ring < 8) && decide (fn = 0 ∨ ring < 4)
  | .faultRelease fn ring => decide (fn < 13) && decide (ring < 8) && decide (fn = 0 ∨ ring < 4)
  | .faultInject fn ring => decide (fn < 13) && decide (ring < 8) && decide (fn = 0 ∨ ring < 4)
  | .ctlNop t => decide (t < 96)
  | .ctlLi t => decide (t < 96)
  | .ctlAlu t => decide (t < 96)
  | .ctlBr t => decide (t < 96)
  | .ctlLoop t => decide (t < 96)
  | .ctlMod t => decide (t < 96)
  | .ctlVxfer t => decide (t < 96)
  | .ctlRdcr t => decide (t < 96)
  | .ctlWrcr t => decide (t < 96)
  | .ctlEnd t => decide (t < 96)
  | .mxmLoadw t => decide (t < 96)
  | .mxmMul t => decide (t < 96)
  | .mxmDrain t => decide (t < 96)
  | .mxmGroup t => decide (t < 96)
  | .mxmFence t => decide (t < 96)
  | .vecSetvl t => decide (t < 96)
  | .vecAdd t => decide (t < 96)
  | .vecMul t => decide (t < 96)
  | .vecFma t => decide (t < 96)
  | .vecMin t => decide (t < 96)
  | .vecMax t => decide (t < 96)
  | .vecCmp t => decide (t < 96)
  | .vecSel t => decide (t < 96)
  | .vecEst t => decide (t < 96)
  | .vecRsum t => decide (t < 96)
  | .vecRmax t => decide (t < 96)
  | .vecLd t => decide (t < 96)
  | .vecSt t => decide (t < 96)
  | .movDesc t => decide (t < 96)
  | .movSteep t => decide (t < 96)
  | .movCopy t => decide (t < 96)
  | .bnkAdd t => decide (t < 96)
  | .bnkMax t => decide (t < 96)
  | .bnkSadd t => decide (t < 96)
  | .bnkWiden t => decide (t < 96)
  | .bnkConvert t => decide (t < 96)
  | .bnkRmaxcap t => decide (t < 96)
  | .xchCounts t => decide (t < 96)
  | .xchDispatch t => decide (t < 96)
  | .xchCombine t => decide (t < 96)
  | .xchBdispatch t => decide (t < 96)
  | .xchBcombine t => decide (t < 96)
  | .xchCollReduceScatter t => decide (t < 96)
  | .xchCollAllGather t => decide (t < 96)
  | .xchCollAllToAll t => decide (t < 96)
  | .xchCollBroadcast t => decide (t < 96)
  | .xchCollScalarAllreduce t => decide (t < 96)
  | .xchCollBarrier t => decide (t < 96)
  | .attWalk t => decide (t < 96)
  | .attAppend t => decide (t < 96)
  | .attInfo t => decide (t < 96)
  | .synWait t => decide (t < 96)
  | .synSignal t => decide (t < 96)
  | .synFence t => decide (t < 96)
  | .wordComplete t _ => decide (t < 96)
  | .syncTimeout t => decide (t < 96)
  | .stepEnd p => decide (p < 12)
  | .kettleNop st => decide (st < 12)
  | .kettleLd st => decide (st < 12)
  | .kettleSt st => decide (st < 12)
  | .kettleAdd st => decide (st < 12)
  | .kettleMul st => decide (st < 12)
  | .kettleFma st => decide (st < 12)
  | .kettleMin st => decide (st < 12)
  | .kettleMax st => decide (st < 12)
  | .kettleCmp st => decide (st < 12)
  | .kettleSel st => decide (st < 12)
  | .kettleSelv st => decide (st < 12)
  | .kettleEst st => decide (st < 12)
  | .kettleDiv st => decide (st < 12)
  | .kettleSqrt st => decide (st < 12)
  | .kettleRunStart st => decide (st < 12)
  | .kettleBlockCommit st => decide (st < 12)
  | .kettleWaitTimeout st => decide (st < 12)
  | .moveLanded _ => true
  | .steepEntryLanded t _ => decide (t < 96)
  | .patrolScrub t bank => decide (t < 96) && decide (bank < 64)
  | .bankRowRepair t bank row => decide (t < 96) && decide (bank < 64) && decide (row < 768)
  | .hbmRowRepair st _ => decide (st < 12)
  | .lpddrRowRepair b _ => decide (b < 12)
  | .accLineRepair t line => decide (t < 96) && decide (line < 4096)
  | .spareTakeover t => decide (t < 96)
  | .tileUnmapped t => decide (t < 96)
  | .bayRetired b => decide (b < 12)
  | .buddyStream p m => decide (p < 12) && m.wf
  | .buddyStreamTimeout p => decide (p < 12)
  | .buddyConfirmTimeout p => decide (p < 12)
  | .grant p m => decide (p < 12) && m.wf
  | .segAck p m => decide (p < 12) && m.wf
  | .reductionSegment p m => decide (p < 12) && m.wf
  | .ownerWaitTimeout p comm _ _ => decide (p < 12) && decide (comm < 64)
  | .senderGrantTimeout p comm _ _ => decide (p < 12) && decide (comm < 64)
  | .orphanTimeout p comm _ => decide (p < 12) && decide (comm < 64)
  | .notice p m => decide (p < 12) && m.wf
  | .resendRequest p m => decide (p < 12) && m.wf
  | .allGatherMessage p m => decide (p < 12) && m.wf
  | .allToAllMessage p m => decide (p < 12) && m.wf
  | .broadcastMessage p m => decide (p < 12) && m.wf
  | .scalarValueMessage p m => decide (p < 12) && m.wf
  | .barrierMessage p m => decide (p < 12) && m.wf
  | .barrierUpTimeout p comm _ => decide (p < 12) && decide (comm < 64)
  | .releaseWaitTimeout p comm _ => decide (p < 12) && decide (comm < 64)
  | .gatherReceiveTimeout p comm _ => decide (p < 12) && decide (comm < 64)
  | .exchangeCountMessage p m => decide (p < 12) && m.wf
  | .exchangeRowsMessage p m => decide (p < 12) && m.wf
  | .exchangeReceiveTimeout p comm _ => decide (p < 12) && decide (comm < 64)
  | .fenceArrival p m => decide (p < 12) && m.wf
  | .fenceRelease p m => decide (p < 12) && m.wf
  | .batchRecordMessage p m => decide (p < 12) && m.wf
  | .batchAnswerMessage p m => decide (p < 12) && m.wf
  | .batchAnswerTimeout p => decide (p < 12)
  | .closeValueMessage p m => decide (p < 12) && m.wf
  | .sequenceGroupMessage p m => decide (p < 12) && m.wf
  | .replayRecordMessage p m => decide (p < 12) && m.wf
  | .mgmtMessage p m => decide (p < 12) && m.wf
  | .flitReceive port _ => decide (port < 24)
  | .laneFailed port lane => decide (port < 24) && decide (lane < 5)
  | .restripeComplete port => decide (port < 24)
  | .partnerTraining port => decide (port < 24)
  | .linkUp port partnerId partnerPort credits => decide (port < 24) && decide (partnerId < 4096) && decide (partnerPort < 32) && decide (credits.length = 8)
  | .linkTrainFail port => decide (port < 24)
  | .linkTrainRetry port => decide (port < 24)
  | .creditStall port vc => decide (port < 24) && decide (vc < 8)
  | .linkDown port => decide (port < 24)
  | .retrain port => decide (port < 24)
  | .rolloutStepBoundary b => decide (b < 12)
  | .rolloutStepLaunch b => decide (b < 12)
  | .doorbellWrite fn ring value => decide (fn < 13) && decide (ring < 8) && decide (value < 2 ^ 64) && decide (fn = 0 ∨ ring < 4)
  | .ringEnable fn ring _ => decide (fn < 13) && decide (ring < 8) && decide (fn = 0 ∨ ring < 4)
  | .cqHeadWrite fn ring value => decide (fn < 13) && decide (ring < 8) && decide (value < 2 ^ 64) && decide (fn = 0 ∨ ring < 4)
  | .coalesceTimeout fn ring => decide (fn < 13) && decide (ring < 8) && decide (fn = 0 ∨ ring < 4)
  | .quiesceWrite p value => decide (p < 12) && decide (value < 2 ^ 64)
  | .holdWrite value => decide (value < 2 ^ 64)
  | .fcAck seq => decide (0 < seq ∧ seq < 2 ^ 32)
  | .fcAckAll value => decide (value < 2 ^ 64)
  | .numFlagsClear t value => decide (t < 96) && decide (value < 2 ^ 64)
  | .kvCtrlWrite fn b value => decide (fn < 13) && decide (b < 12) && decide (value < 2 ^ 64)
  | .seqAreaWrite fn b _ _ => decide (fn < 13) && decide (b < 12)
  | .flashNsWrite p base size slot => decide (p < 12) && decide (base < 65536) && decide (size < 65536) && decide (slot < 65536)
  | .recoveryChunk k data => decide (k < 65536) && decide (data.length = 524288)
  | .recoveryGo => true
  | .replayArm p => decide (p < 12)
  | .replayDisarm p => decide (p < 12)
  | .registerWrite fn addr value => decide (fn < 13) && decide (value < 2 ^ 64) && decide (addr % 4 = 0) && decide (addr < 2 ^ 25)
  | .vfEnable numVfs => decide (numVfs ≤ 12)
  | .vfDisable vf => decide (vf < 13) && decide (0 < vf)
  | .warmReset _ => true
  | .modulePowerOn _ => true
  | .powerDown _ => true
  | .supplySag _ => true
  | .sagEnd _ => true
  | .supplyUnder _ => true
  | .powerCapAdjust _ _ => true
  | .powerPeakLimit _ _ => true
  | .thermalThrottle stack _ => stack.all (fun k => decide (k < 12))
  | .limit105 _ => true
  | .thermalTrip stack _ => stack.all (fun k => decide (k < 12))
  | .hbmRefreshDouble stack _ => decide (stack < 12)
  | .temperatureRecovered stack _ => stack.all (fun k => decide (k < 12))
  | .leak => true
  | .tamper _ => true
  | .pllUnlock pll => decide (pll < 4)
  | .collectorParity => true
  | .idleEntry => true
  | .idleWake => true
  | .graceExpiry _ => true
  | .quietExpiry scope => decide (scope < 13)
  | .faultPulseEnd => true
  | .getVersion fn _ => decide (fn < 13)
  | .getCapabilities fn _ => decide (fn < 13)
  | .negotiateAlgorithms fn _ => decide (fn < 13)
  | .getDigests fn _ => decide (fn < 13)
  | .getCertificate fn _ => decide (fn < 13)
  | .challenge fn _ => decide (fn < 13)
  | .getMeasurements fn _ => decide (fn < 13)
  | .keyExchange fn _ => decide (fn < 13)
  | .finish fn _ => decide (fn < 13)
  | .keyUpdate fn _ => decide (fn < 13)
  | .endSession fn _ => decide (fn < 13)
  | .mctpControlMessage _ => true
  | .pldmBaseRequest _ => true
  | .pldmPlatformRequest _ => true
  | .pldmFruRequest _ => true
  | .sensorUpdate _ value => decide (value < 2 ^ 64)
  | .leakCleared => true
  | .supplyUnderEnd _ => true
  | .pllLockRegained pll => decide (pll < 4)
  | .buddyTrailerConfirm p m => decide (p < 12) && m.wf
  | .remoteLoadRequest p m => decide (p < 12) && m.wf
  | .remoteLoadTimeout p => decide (p < 12)
  | .replicaFetchRequest p m => decide (p < 12) && m.wf
  | .closeAgreementTimeout b => decide (b < 12)
  | .perstNRelease => true
  | .flashProgramDone p => decide (p < 12)

/-- The kinds of unit a command can name, and how many of each the module has. -/
inductive UnitKind where
  | function | ring | partition | bay | tile | stack | port
  deriving DecidableEq, Repr

/-- How many units of a kind there are (R34, R35, R305, R427, R430). -/
def UnitKind.count : UnitKind → Nat
  | .function => 13
  | .ring => 8
  | .partition => 12
  | .bay => 12
  | .tile => 96
  | .stack => 12
  | .port => 24

/-- The units that a command names. -/
def Instr.units : Instr → List (UnitKind × Nat)
  | .nop fn ring => [(.function, fn), (.ring, ring)]
  | .reservedOpcode fn ring => [(.function, fn), (.ring, ring)]
  | .progLoad fn ring => [(.function, fn), (.ring, ring)]
  | .learnStep fn ring => [(.function, fn), (.ring, ring)]
  | .weightLoad fn ring => [(.function, fn), (.ring, ring)]
  | .fill fn ring => [(.function, fn), (.ring, ring)]
  | .imageStage fn ring => [(.function, fn), (.ring, ring)]
  | .imageApply fn ring => [(.function, fn), (.ring, ring)]
  | .imageRelease fn ring => [(.function, fn), (.ring, ring)]
  | .loaderApplyStart => []
  | .drainWindowEnd p => [(.partition, p)]
  | .seqSubmit fn ring => [(.function, fn), (.ring, ring)]
  | .seqCancel fn ring => [(.function, fn), (.ring, ring)]
  | .kvEdit fn ring => [(.function, fn), (.ring, ring)]
  | .turnBegin fn ring => [(.function, fn), (.ring, ring)]
  | .turnCommit fn ring => [(.function, fn), (.ring, ring)]
  | .turnAbandon fn ring => [(.function, fn), (.ring, ring)]
  | .commRejoin fn ring => [(.function, fn), (.ring, ring)]
  | .batchPut fn ring => [(.function, fn), (.ring, ring)]
  | .policySwap fn ring => [(.function, fn), (.ring, ring)]
  | .policyPublish fn ring => [(.function, fn), (.ring, ring)]
  | .move fn ring => [(.function, fn), (.ring, ring)]
  | .stateMove fn ring => [(.function, fn), (.ring, ring)]
  | .ckptWrite fn ring => [(.function, fn), (.ring, ring)]
  | .ckptLoad fn ring => [(.function, fn), (.ring, ring)]
  | .flashWrite fn ring => [(.function, fn), (.ring, ring)]
  | .flashTrim fn ring => [(.function, fn), (.ring, ring)]
  | .kettleResume fn ring => [(.function, fn), (.ring, ring)]
  | .kettleAbandon fn ring => [(.function, fn), (.ring, ring)]
  | .attestReport fn ring => [(.function, fn), (.ring, ring)]
  | .sparge fn ring => [(.function, fn), (.ring, ring)]
  | .fwUpdate fn ring => [(.function, fn), (.ring, ring)]
  | .lcAdvance fn ring => [(.function, fn), (.ring, ring)]
  | .authChallenge fn ring => [(.function, fn), (.ring, ring)]
  | .debugUnlock fn ring => [(.function, fn), (.ring, ring)]
  | .nsClear fn ring => [(.function, fn), (.ring, ring)]
  | .replayRun fn ring => [(.function, fn), (.ring, ring)]
  | .faultRelease fn ring => [(.function, fn), (.ring, ring)]
  | .faultInject fn ring => [(.function, fn), (.ring, ring)]
  | .ctlNop t => [(.tile, t)]
  | .ctlLi t => [(.tile, t)]
  | .ctlAlu t => [(.tile, t)]
  | .ctlBr t => [(.tile, t)]
  | .ctlLoop t => [(.tile, t)]
  | .ctlMod t => [(.tile, t)]
  | .ctlVxfer t => [(.tile, t)]
  | .ctlRdcr t => [(.tile, t)]
  | .ctlWrcr t => [(.tile, t)]
  | .ctlEnd t => [(.tile, t)]
  | .mxmLoadw t => [(.tile, t)]
  | .mxmMul t => [(.tile, t)]
  | .mxmDrain t => [(.tile, t)]
  | .mxmGroup t => [(.tile, t)]
  | .mxmFence t => [(.tile, t)]
  | .vecSetvl t => [(.tile, t)]
  | .vecAdd t => [(.tile, t)]
  | .vecMul t => [(.tile, t)]
  | .vecFma t => [(.tile, t)]
  | .vecMin t => [(.tile, t)]
  | .vecMax t => [(.tile, t)]
  | .vecCmp t => [(.tile, t)]
  | .vecSel t => [(.tile, t)]
  | .vecEst t => [(.tile, t)]
  | .vecRsum t => [(.tile, t)]
  | .vecRmax t => [(.tile, t)]
  | .vecLd t => [(.tile, t)]
  | .vecSt t => [(.tile, t)]
  | .movDesc t => [(.tile, t)]
  | .movSteep t => [(.tile, t)]
  | .movCopy t => [(.tile, t)]
  | .bnkAdd t => [(.tile, t)]
  | .bnkMax t => [(.tile, t)]
  | .bnkSadd t => [(.tile, t)]
  | .bnkWiden t => [(.tile, t)]
  | .bnkConvert t => [(.tile, t)]
  | .bnkRmaxcap t => [(.tile, t)]
  | .xchCounts t => [(.tile, t)]
  | .xchDispatch t => [(.tile, t)]
  | .xchCombine t => [(.tile, t)]
  | .xchBdispatch t => [(.tile, t)]
  | .xchBcombine t => [(.tile, t)]
  | .xchCollReduceScatter t => [(.tile, t)]
  | .xchCollAllGather t => [(.tile, t)]
  | .xchCollAllToAll t => [(.tile, t)]
  | .xchCollBroadcast t => [(.tile, t)]
  | .xchCollScalarAllreduce t => [(.tile, t)]
  | .xchCollBarrier t => [(.tile, t)]
  | .attWalk t => [(.tile, t)]
  | .attAppend t => [(.tile, t)]
  | .attInfo t => [(.tile, t)]
  | .synWait t => [(.tile, t)]
  | .synSignal t => [(.tile, t)]
  | .synFence t => [(.tile, t)]
  | .wordComplete t _ => [(.tile, t)]
  | .syncTimeout t => [(.tile, t)]
  | .stepEnd p => [(.partition, p)]
  | .kettleNop st => [(.stack, st)]
  | .kettleLd st => [(.stack, st)]
  | .kettleSt st => [(.stack, st)]
  | .kettleAdd st => [(.stack, st)]
  | .kettleMul st => [(.stack, st)]
  | .kettleFma st => [(.stack, st)]
  | .kettleMin st => [(.stack, st)]
  | .kettleMax st => [(.stack, st)]
  | .kettleCmp st => [(.stack, st)]
  | .kettleSel st => [(.stack, st)]
  | .kettleSelv st => [(.stack, st)]
  | .kettleEst st => [(.stack, st)]
  | .kettleDiv st => [(.stack, st)]
  | .kettleSqrt st => [(.stack, st)]
  | .kettleRunStart st => [(.stack, st)]
  | .kettleBlockCommit st => [(.stack, st)]
  | .kettleWaitTimeout st => [(.stack, st)]
  | .moveLanded _ => []
  | .steepEntryLanded t _ => [(.tile, t)]
  | .patrolScrub t _ => [(.tile, t)]
  | .bankRowRepair t _ _ => [(.tile, t)]
  | .hbmRowRepair st _ => [(.stack, st)]
  | .lpddrRowRepair b _ => [(.bay, b)]
  | .accLineRepair t _ => [(.tile, t)]
  | .spareTakeover t => [(.tile, t)]
  | .tileUnmapped t => [(.tile, t)]
  | .bayRetired b => [(.bay, b)]
  | .buddyStream p _ => [(.partition, p)]
  | .buddyStreamTimeout p => [(.partition, p)]
  | .buddyConfirmTimeout p => [(.partition, p)]
  | .grant p _ => [(.partition, p)]
  | .segAck p _ => [(.partition, p)]
  | .reductionSegment p _ => [(.partition, p)]
  | .ownerWaitTimeout p _ _ _ => [(.partition, p)]
  | .senderGrantTimeout p _ _ _ => [(.partition, p)]
  | .orphanTimeout p _ _ => [(.partition, p)]
  | .notice p _ => [(.partition, p)]
  | .resendRequest p _ => [(.partition, p)]
  | .allGatherMessage p _ => [(.partition, p)]
  | .allToAllMessage p _ => [(.partition, p)]
  | .broadcastMessage p _ => [(.partition, p)]
  | .scalarValueMessage p _ => [(.partition, p)]
  | .barrierMessage p _ => [(.partition, p)]
  | .barrierUpTimeout p _ _ => [(.partition, p)]
  | .releaseWaitTimeout p _ _ => [(.partition, p)]
  | .gatherReceiveTimeout p _ _ => [(.partition, p)]
  | .exchangeCountMessage p _ => [(.partition, p)]
  | .exchangeRowsMessage p _ => [(.partition, p)]
  | .exchangeReceiveTimeout p _ _ => [(.partition, p)]
  | .fenceArrival p _ => [(.partition, p)]
  | .fenceRelease p _ => [(.partition, p)]
  | .batchRecordMessage p _ => [(.partition, p)]
  | .batchAnswerMessage p _ => [(.partition, p)]
  | .batchAnswerTimeout p => [(.partition, p)]
  | .closeValueMessage p _ => [(.partition, p)]
  | .sequenceGroupMessage p _ => [(.partition, p)]
  | .replayRecordMessage p _ => [(.partition, p)]
  | .mgmtMessage p _ => [(.partition, p)]
  | .flitReceive port _ => [(.port, port)]
  | .laneFailed port _ => [(.port, port)]
  | .restripeComplete port => [(.port, port)]
  | .partnerTraining port => [(.port, port)]
  | .linkUp port _ _ _ => [(.port, port)]
  | .linkTrainFail port => [(.port, port)]
  | .linkTrainRetry port => [(.port, port)]
  | .creditStall port _ => [(.port, port)]
  | .linkDown port => [(.port, port)]
  | .retrain port => [(.port, port)]
  | .rolloutStepBoundary b => [(.bay, b)]
  | .rolloutStepLaunch b => [(.bay, b)]
  | .doorbellWrite fn ring _ => [(.function, fn), (.ring, ring)]
  | .ringEnable fn ring _ => [(.function, fn), (.ring, ring)]
  | .cqHeadWrite fn ring _ => [(.function, fn), (.ring, ring)]
  | .coalesceTimeout fn ring => [(.function, fn), (.ring, ring)]
  | .quiesceWrite p _ => [(.partition, p)]
  | .holdWrite _ => []
  | .fcAck _ => []
  | .fcAckAll _ => []
  | .numFlagsClear t _ => [(.tile, t)]
  | .kvCtrlWrite fn b _ => [(.function, fn), (.bay, b)]
  | .seqAreaWrite fn b _ _ => [(.function, fn), (.bay, b)]
  | .flashNsWrite p _ _ _ => [(.partition, p)]
  | .recoveryChunk _ _ => []
  | .recoveryGo => []
  | .replayArm p => [(.partition, p)]
  | .replayDisarm p => [(.partition, p)]
  | .registerWrite fn _ _ => [(.function, fn)]
  | .vfEnable _ => []
  | .vfDisable vf => [(.function, vf)]
  | .warmReset _ => []
  | .modulePowerOn _ => []
  | .powerDown _ => []
  | .supplySag _ => []
  | .sagEnd _ => []
  | .supplyUnder _ => []
  | .powerCapAdjust _ _ => []
  | .powerPeakLimit _ _ => []
  | .thermalThrottle _ _ => []
  | .limit105 _ => []
  | .thermalTrip _ _ => []
  | .hbmRefreshDouble _ _ => []
  | .temperatureRecovered _ _ => []
  | .leak => []
  | .tamper _ => []
  | .pllUnlock _ => []
  | .collectorParity => []
  | .idleEntry => []
  | .idleWake => []
  | .graceExpiry _ => []
  | .quietExpiry _ => []
  | .faultPulseEnd => []
  | .getVersion fn _ => [(.function, fn)]
  | .getCapabilities fn _ => [(.function, fn)]
  | .negotiateAlgorithms fn _ => [(.function, fn)]
  | .getDigests fn _ => [(.function, fn)]
  | .getCertificate fn _ => [(.function, fn)]
  | .challenge fn _ => [(.function, fn)]
  | .getMeasurements fn _ => [(.function, fn)]
  | .keyExchange fn _ => [(.function, fn)]
  | .finish fn _ => [(.function, fn)]
  | .keyUpdate fn _ => [(.function, fn)]
  | .endSession fn _ => [(.function, fn)]
  | .mctpControlMessage _ => []
  | .pldmBaseRequest _ => []
  | .pldmPlatformRequest _ => []
  | .pldmFruRequest _ => []
  | .sensorUpdate _ _ => []
  | .leakCleared => []
  | .supplyUnderEnd _ => []
  | .pllLockRegained _ => []
  | .buddyTrailerConfirm p _ => [(.partition, p)]
  | .remoteLoadRequest p _ => [(.partition, p)]
  | .remoteLoadTimeout p => [(.partition, p)]
  | .replicaFetchRequest p _ => [(.partition, p)]
  | .closeAgreementTimeout b => [(.bay, b)]
  | .perstNRelease => []
  | .flashProgramDone p => [(.partition, p)]

end Sys2Proof
end

