-- ==== Sys2Proof/Machine/Dispatch.lean ====
section
/-!
DEFINITION. The dispatch: one arm for each command.
-/

namespace Sys2Proof.Machine

def exec (i : Instr) (s : State) : Host.Outcome State Fault Refusal :=
  match i with
  | .nop fn ring => Sys2Proof.Machine.execNop fn ring s
  | .reservedOpcode fn ring => Sys2Proof.Machine.execReservedOpcode fn ring s
  | .progLoad fn ring => Sys2Proof.Machine.execProgLoad fn ring s
  | .learnStep fn ring => Sys2Proof.Machine.execLearnStep fn ring s
  | .weightLoad fn ring => Sys2Proof.Machine.execWeightLoad fn ring s
  | .fill fn ring => Sys2Proof.Machine.execFill fn ring s
  | .imageStage fn ring => Sys2Proof.Machine.execImageStage fn ring s
  | .imageApply fn ring => Sys2Proof.Machine.execImageApply fn ring s
  | .imageRelease fn ring => Sys2Proof.Machine.execImageRelease fn ring s
  | .loaderApplyStart => Sys2Proof.Machine.execLoaderApplyStart s
  | .drainWindowEnd p => Sys2Proof.Machine.execDrainWindowEnd p s
  | .seqSubmit fn ring => Sys2Proof.Machine.execSeqSubmit fn ring s
  | .seqCancel fn ring => Sys2Proof.Machine.execSeqCancel fn ring s
  | .kvEdit fn ring => Sys2Proof.Machine.execKvEdit fn ring s
  | .turnBegin fn ring => Sys2Proof.Machine.execTurnBegin fn ring s
  | .turnCommit fn ring => Sys2Proof.Machine.execTurnCommit fn ring s
  | .turnAbandon fn ring => Sys2Proof.Machine.execTurnAbandon fn ring s
  | .commRejoin fn ring => Sys2Proof.Machine.execCommRejoin fn ring s
  | .batchPut fn ring => Sys2Proof.Machine.execBatchPut fn ring s
  | .policySwap fn ring => Sys2Proof.Machine.execPolicySwap fn ring s
  | .policyPublish fn ring => Sys2Proof.Machine.execPolicyPublish fn ring s
  | .move fn ring => Sys2Proof.Machine.execMove fn ring s
  | .stateMove fn ring => Sys2Proof.Machine.execStateMove fn ring s
  | .ckptWrite fn ring => Sys2Proof.Machine.execCkptWrite fn ring s
  | .ckptLoad fn ring => Sys2Proof.Machine.execCkptLoad fn ring s
  | .flashWrite fn ring => Sys2Proof.Machine.execFlashWrite fn ring s
  | .flashTrim fn ring => Sys2Proof.Machine.execFlashTrim fn ring s
  | .kettleResume fn ring => Sys2Proof.Machine.execKettleResume fn ring s
  | .kettleAbandon fn ring => Sys2Proof.Machine.execKettleAbandon fn ring s
  | .attestReport fn ring => Sys2Proof.Machine.execAttestReport fn ring s
  | .sparge fn ring => Sys2Proof.Machine.execSparge fn ring s
  | .fwUpdate fn ring => Sys2Proof.Machine.execFwUpdate fn ring s
  | .lcAdvance fn ring => Sys2Proof.Machine.execLcAdvance fn ring s
  | .authChallenge fn ring => Sys2Proof.Machine.execAuthChallenge fn ring s
  | .debugUnlock fn ring => Sys2Proof.Machine.execDebugUnlock fn ring s
  | .nsClear fn ring => Sys2Proof.Machine.execNsClear fn ring s
  | .replayRun fn ring => Sys2Proof.Machine.execReplayRun fn ring s
  | .faultRelease fn ring => Sys2Proof.Machine.execFaultRelease fn ring s
  | .faultInject fn ring => Sys2Proof.Machine.execFaultInject fn ring s
  | .ctlNop t => Sys2Proof.Machine.execCtlNop t s
  | .ctlLi t => Sys2Proof.Machine.execCtlLi t s
  | .ctlAlu t => Sys2Proof.Machine.execCtlAlu t s
  | .ctlBr t => Sys2Proof.Machine.execCtlBr t s
  | .ctlLoop t => Sys2Proof.Machine.execCtlLoop t s
  | .ctlMod t => Sys2Proof.Machine.execCtlMod t s
  | .ctlVxfer t => Sys2Proof.Machine.execCtlVxfer t s
  | .ctlRdcr t => Sys2Proof.Machine.execCtlRdcr t s
  | .ctlWrcr t => Sys2Proof.Machine.execCtlWrcr t s
  | .ctlEnd t => Sys2Proof.Machine.execCtlEnd t s
  | .mxmLoadw t => Sys2Proof.Machine.execMxmLoadw t s
  | .mxmMul t => Sys2Proof.Machine.execMxmMul t s
  | .mxmDrain t => Sys2Proof.Machine.execMxmDrain t s
  | .mxmGroup t => Sys2Proof.Machine.execMxmGroup t s
  | .mxmFence t => Sys2Proof.Machine.execMxmFence t s
  | .vecSetvl t => Sys2Proof.Machine.execVecSetvl t s
  | .vecAdd t => Sys2Proof.Machine.execVecAdd t s
  | .vecMul t => Sys2Proof.Machine.execVecMul t s
  | .vecFma t => Sys2Proof.Machine.execVecFma t s
  | .vecMin t => Sys2Proof.Machine.execVecMin t s
  | .vecMax t => Sys2Proof.Machine.execVecMax t s
  | .vecCmp t => Sys2Proof.Machine.execVecCmp t s
  | .vecSel t => Sys2Proof.Machine.execVecSel t s
  | .vecEst t => Sys2Proof.Machine.execVecEst t s
  | .vecRsum t => Sys2Proof.Machine.execVecRsum t s
  | .vecRmax t => Sys2Proof.Machine.execVecRmax t s
  | .vecLd t => Sys2Proof.Machine.execVecLd t s
  | .vecSt t => Sys2Proof.Machine.execVecSt t s
  | .movDesc t => Sys2Proof.Machine.execMovDesc t s
  | .movSteep t => Sys2Proof.Machine.execMovSteep t s
  | .movCopy t => Sys2Proof.Machine.execMovCopy t s
  | .bnkAdd t => Sys2Proof.Machine.execBnkAdd t s
  | .bnkMax t => Sys2Proof.Machine.execBnkMax t s
  | .bnkSadd t => Sys2Proof.Machine.execBnkSadd t s
  | .bnkWiden t => Sys2Proof.Machine.execBnkWiden t s
  | .bnkConvert t => Sys2Proof.Machine.execBnkConvert t s
  | .bnkRmaxcap t => Sys2Proof.Machine.execBnkRmaxcap t s
  | .xchCounts t => Sys2Proof.Machine.execXchCounts t s
  | .xchDispatch t => Sys2Proof.Machine.execXchDispatch t s
  | .xchCombine t => Sys2Proof.Machine.execXchCombine t s
  | .xchBdispatch t => Sys2Proof.Machine.execXchBdispatch t s
  | .xchBcombine t => Sys2Proof.Machine.execXchBcombine t s
  | .xchCollReduceScatter t => Sys2Proof.Machine.execXchCollReduceScatter t s
  | .xchCollAllGather t => Sys2Proof.Machine.execXchCollAllGather t s
  | .xchCollAllToAll t => Sys2Proof.Machine.execXchCollAllToAll t s
  | .xchCollBroadcast t => Sys2Proof.Machine.execXchCollBroadcast t s
  | .xchCollScalarAllreduce t => Sys2Proof.Machine.execXchCollScalarAllreduce t s
  | .xchCollBarrier t => Sys2Proof.Machine.execXchCollBarrier t s
  | .attWalk t => Sys2Proof.Machine.execAttWalk t s
  | .attAppend t => Sys2Proof.Machine.execAttAppend t s
  | .attInfo t => Sys2Proof.Machine.execAttInfo t s
  | .synWait t => Sys2Proof.Machine.execSynWait t s
  | .synSignal t => Sys2Proof.Machine.execSynSignal t s
  | .synFence t => Sys2Proof.Machine.execSynFence t s
  | .wordComplete t id => Sys2Proof.Machine.execWordComplete t id s
  | .syncTimeout t => Sys2Proof.Machine.execSyncTimeout t s
  | .stepEnd p => Sys2Proof.Machine.execStepEnd p s
  | .kettleNop st => Sys2Proof.Machine.execKettleNop st s
  | .kettleLd st => Sys2Proof.Machine.execKettleLd st s
  | .kettleSt st => Sys2Proof.Machine.execKettleSt st s
  | .kettleAdd st => Sys2Proof.Machine.execKettleAdd st s
  | .kettleMul st => Sys2Proof.Machine.execKettleMul st s
  | .kettleFma st => Sys2Proof.Machine.execKettleFma st s
  | .kettleMin st => Sys2Proof.Machine.execKettleMin st s
  | .kettleMax st => Sys2Proof.Machine.execKettleMax st s
  | .kettleCmp st => Sys2Proof.Machine.execKettleCmp st s
  | .kettleSel st => Sys2Proof.Machine.execKettleSel st s
  | .kettleSelv st => Sys2Proof.Machine.execKettleSelv st s
  | .kettleEst st => Sys2Proof.Machine.execKettleEst st s
  | .kettleDiv st => Sys2Proof.Machine.execKettleDiv st s
  | .kettleSqrt st => Sys2Proof.Machine.execKettleSqrt st s
  | .kettleRunStart st => Sys2Proof.Machine.execKettleRunStart st s
  | .kettleBlockCommit st => Sys2Proof.Machine.execKettleBlockCommit st s
  | .kettleWaitTimeout st => Sys2Proof.Machine.execKettleWaitTimeout st s
  | .moveLanded id => Sys2Proof.Machine.execMoveLanded id s
  | .steepEntryLanded t entry => Sys2Proof.Machine.execSteepEntryLanded t entry s
  | .patrolScrub t bank => Sys2Proof.Machine.execPatrolScrub t bank s
  | .bankRowRepair t bank row => Sys2Proof.Machine.execBankRowRepair t bank row s
  | .hbmRowRepair st row => Sys2Proof.Machine.execHbmRowRepair st row s
  | .lpddrRowRepair b row => Sys2Proof.Machine.execLpddrRowRepair b row s
  | .accLineRepair t line => Sys2Proof.Machine.execAccLineRepair t line s
  | .spareTakeover t => Sys2Proof.Machine.execSpareTakeover t s
  | .tileUnmapped t => Sys2Proof.Machine.execTileUnmapped t s
  | .bayRetired b => Sys2Proof.Machine.execBayRetired b s
  | .buddyStream p m => Sys2Proof.Machine.execBuddyStream p m s
  | .buddyStreamTimeout p => Sys2Proof.Machine.execBuddyStreamTimeout p s
  | .buddyConfirmTimeout p => Sys2Proof.Machine.execBuddyConfirmTimeout p s
  | .grant p m => Sys2Proof.Machine.execGrant p m s
  | .segAck p m => Sys2Proof.Machine.execSegAck p m s
  | .reductionSegment p m => Sys2Proof.Machine.execReductionSegment p m s
  | .ownerWaitTimeout p comm opNo seg => Sys2Proof.Machine.execOwnerWaitTimeout p comm opNo seg s
  | .senderGrantTimeout p comm opNo owner => Sys2Proof.Machine.execSenderGrantTimeout p comm opNo owner s
  | .orphanTimeout p comm opNo => Sys2Proof.Machine.execOrphanTimeout p comm opNo s
  | .notice p m => Sys2Proof.Machine.execNotice p m s
  | .resendRequest p m => Sys2Proof.Machine.execResendRequest p m s
  | .allGatherMessage p m => Sys2Proof.Machine.execAllGatherMessage p m s
  | .allToAllMessage p m => Sys2Proof.Machine.execAllToAllMessage p m s
  | .broadcastMessage p m => Sys2Proof.Machine.execBroadcastMessage p m s
  | .scalarValueMessage p m => Sys2Proof.Machine.execScalarValueMessage p m s
  | .barrierMessage p m => Sys2Proof.Machine.execBarrierMessage p m s
  | .barrierUpTimeout p comm opNo => Sys2Proof.Machine.execBarrierUpTimeout p comm opNo s
  | .releaseWaitTimeout p comm opNo => Sys2Proof.Machine.execReleaseWaitTimeout p comm opNo s
  | .gatherReceiveTimeout p comm opNo => Sys2Proof.Machine.execGatherReceiveTimeout p comm opNo s
  | .exchangeCountMessage p m => Sys2Proof.Machine.execExchangeCountMessage p m s
  | .exchangeRowsMessage p m => Sys2Proof.Machine.execExchangeRowsMessage p m s
  | .exchangeReceiveTimeout p comm opNo => Sys2Proof.Machine.execExchangeReceiveTimeout p comm opNo s
  | .fenceArrival p m => Sys2Proof.Machine.execFenceArrival p m s
  | .fenceRelease p m => Sys2Proof.Machine.execFenceRelease p m s
  | .batchRecordMessage p m => Sys2Proof.Machine.execBatchRecordMessage p m s
  | .batchAnswerMessage p m => Sys2Proof.Machine.execBatchAnswerMessage p m s
  | .batchAnswerTimeout p => Sys2Proof.Machine.execBatchAnswerTimeout p s
  | .closeValueMessage p m => Sys2Proof.Machine.execCloseValueMessage p m s
  | .sequenceGroupMessage p m => Sys2Proof.Machine.execSequenceGroupMessage p m s
  | .replayRecordMessage p m => Sys2Proof.Machine.execReplayRecordMessage p m s
  | .mgmtMessage p m => Sys2Proof.Machine.execMgmtMessage p m s
  | .flitReceive port flit => Sys2Proof.Machine.execFlitReceive port flit s
  | .laneFailed port lane => Sys2Proof.Machine.execLaneFailed port lane s
  | .restripeComplete port => Sys2Proof.Machine.execRestripeComplete port s
  | .partnerTraining port => Sys2Proof.Machine.execPartnerTraining port s
  | .linkUp port partnerId partnerPort credits => Sys2Proof.Machine.execLinkUp port partnerId partnerPort credits s
  | .linkTrainFail port => Sys2Proof.Machine.execLinkTrainFail port s
  | .linkTrainRetry port => Sys2Proof.Machine.execLinkTrainRetry port s
  | .creditStall port vc => Sys2Proof.Machine.execCreditStall port vc s
  | .linkDown port => Sys2Proof.Machine.execLinkDown port s
  | .retrain port => Sys2Proof.Machine.execRetrain port s
  | .rolloutStepBoundary b => Sys2Proof.Machine.execRolloutStepBoundary b s
  | .rolloutStepLaunch b => Sys2Proof.Machine.execRolloutStepLaunch b s
  | .doorbellWrite fn ring value => Sys2Proof.Machine.execDoorbellWrite fn ring value s
  | .ringEnable fn ring cq => Sys2Proof.Machine.execRingEnable fn ring cq s
  | .cqHeadWrite fn ring value => Sys2Proof.Machine.execCqHeadWrite fn ring value s
  | .coalesceTimeout fn ring => Sys2Proof.Machine.execCoalesceTimeout fn ring s
  | .quiesceWrite p value => Sys2Proof.Machine.execQuiesceWrite p value s
  | .holdWrite value => Sys2Proof.Machine.execHoldWrite value s
  | .fcAck seq => Sys2Proof.Machine.execFcAck seq s
  | .fcAckAll value => Sys2Proof.Machine.execFcAckAll value s
  | .numFlagsClear t value => Sys2Proof.Machine.execNumFlagsClear t value s
  | .kvCtrlWrite fn b value => Sys2Proof.Machine.execKvCtrlWrite fn b value s
  | .seqAreaWrite fn b area size => Sys2Proof.Machine.execSeqAreaWrite fn b area size s
  | .flashNsWrite p base size slot => Sys2Proof.Machine.execFlashNsWrite p base size slot s
  | .recoveryChunk k data => Sys2Proof.Machine.execRecoveryChunk k data s
  | .recoveryGo => Sys2Proof.Machine.execRecoveryGo s
  | .replayArm p => Sys2Proof.Machine.execReplayArm p s
  | .replayDisarm p => Sys2Proof.Machine.execReplayDisarm p s
  | .registerWrite fn addr value => Sys2Proof.Machine.execRegisterWrite fn addr value s
  | .vfEnable numVfs => Sys2Proof.Machine.execVfEnable numVfs s
  | .vfDisable vf => Sys2Proof.Machine.execVfDisable vf s
  | .warmReset external => Sys2Proof.Machine.execWarmReset external s
  | .modulePowerOn straps => Sys2Proof.Machine.execModulePowerOn straps s
  | .powerDown centivolts => Sys2Proof.Machine.execPowerDown centivolts s
  | .supplySag centivolts => Sys2Proof.Machine.execSupplySag centivolts s
  | .sagEnd centivolts => Sys2Proof.Machine.execSagEnd centivolts s
  | .supplyUnder centivolts => Sys2Proof.Machine.execSupplyUnder centivolts s
  | .powerCapAdjust meanWatts slow => Sys2Proof.Machine.execPowerCapAdjust meanWatts slow s
  | .powerPeakLimit watts centiamps => Sys2Proof.Machine.execPowerPeakLimit watts centiamps s
  | .thermalThrottle stack celsius => Sys2Proof.Machine.execThermalThrottle stack celsius s
  | .limit105 celsius => Sys2Proof.Machine.execLimit105 celsius s
  | .thermalTrip stack celsius => Sys2Proof.Machine.execThermalTrip stack celsius s
  | .hbmRefreshDouble stack celsius => Sys2Proof.Machine.execHbmRefreshDouble stack celsius s
  | .temperatureRecovered stack celsius => Sys2Proof.Machine.execTemperatureRecovered stack celsius s
  | .leak => Sys2Proof.Machine.execLeak s
  | .tamper cause => Sys2Proof.Machine.execTamper cause s
  | .pllUnlock pll => Sys2Proof.Machine.execPllUnlock pll s
  | .collectorParity => Sys2Proof.Machine.execCollectorParity s
  | .idleEntry => Sys2Proof.Machine.execIdleEntry s
  | .idleWake => Sys2Proof.Machine.execIdleWake s
  | .graceExpiry seq => Sys2Proof.Machine.execGraceExpiry seq s
  | .quietExpiry scope => Sys2Proof.Machine.execQuietExpiry scope s
  | .faultPulseEnd => Sys2Proof.Machine.execFaultPulseEnd s
  | .getVersion fn req => Sys2Proof.Machine.execGetVersion fn req s
  | .getCapabilities fn req => Sys2Proof.Machine.execGetCapabilities fn req s
  | .negotiateAlgorithms fn req => Sys2Proof.Machine.execNegotiateAlgorithms fn req s
  | .getDigests fn req => Sys2Proof.Machine.execGetDigests fn req s
  | .getCertificate fn req => Sys2Proof.Machine.execGetCertificate fn req s
  | .challenge fn req => Sys2Proof.Machine.execChallenge fn req s
  | .getMeasurements fn req => Sys2Proof.Machine.execGetMeasurements fn req s
  | .keyExchange fn req => Sys2Proof.Machine.execKeyExchange fn req s
  | .finish fn req => Sys2Proof.Machine.execFinish fn req s
  | .keyUpdate fn req => Sys2Proof.Machine.execKeyUpdate fn req s
  | .endSession fn req => Sys2Proof.Machine.execEndSession fn req s
  | .mctpControlMessage req => Sys2Proof.Machine.execMctpControlMessage req s
  | .pldmBaseRequest req => Sys2Proof.Machine.execPldmBaseRequest req s
  | .pldmPlatformRequest req => Sys2Proof.Machine.execPldmPlatformRequest req s
  | .pldmFruRequest req => Sys2Proof.Machine.execPldmFruRequest req s
  | .sensorUpdate sensor value => Sys2Proof.Machine.execSensorUpdate sensor value s
  | .leakCleared => Sys2Proof.Machine.execLeakCleared s
  | .supplyUnderEnd centivolts => Sys2Proof.Machine.execSupplyUnderEnd centivolts s
  | .pllLockRegained pll => Sys2Proof.Machine.execPllLockRegained pll s
  | .buddyTrailerConfirm p m => Sys2Proof.Machine.execBuddyTrailerConfirm p m s
  | .remoteLoadRequest p m => Sys2Proof.Machine.execRemoteLoadRequest p m s
  | .remoteLoadTimeout p => Sys2Proof.Machine.execRemoteLoadTimeout p s
  | .replicaFetchRequest p m => Sys2Proof.Machine.execReplicaFetchRequest p m s
  | .closeAgreementTimeout b => Sys2Proof.Machine.execCloseAgreementTimeout b s
  | .perstNRelease => Sys2Proof.Machine.execPerstNRelease s
  | .flashProgramDone p => Sys2Proof.Machine.execFlashProgramDone p s

end Sys2Proof.Machine
end

