-- ==== Sys2Proof/Safety.lean ====
section
/-!
DEFINITION. What a safe run of the P96 is, in the terms the claims use.
-/

namespace Sys2Proof

/-- Every memory is in its canonical form: strictly rising addresses, and no entry that an unlisted address reads as. -/
def Machine.State.memWf (s : Machine.State) : Prop :=
  Machine.Memory.wf s.dev ∧ Machine.Memory.wf s.host ∧ Machine.Memory.wf s.acc ∧ Machine.Memory.wf s.stat

/-- The state is in its one canonical form, so that equal machines are equal data: the memories, the tables of failing codewords, of
registers and of components. -/
structure Machine.State.Canon (s : Machine.State) : Prop where
  mem : s.memWf
  bad : Machine.Tab.wf false s.bad = true
  accBad : Machine.Tab.wf false s.accBad = true
  lpBad : Machine.Tab.wf false s.lpBad = true
  regs : Machine.Tab.wf none s.regs = true
  tiles : Machine.Tab.wf none s.tiles = true
  kettles : Machine.Tab.wf none s.kettles = true
  parts : Machine.Tab.wf none s.parts = true
  bays : Machine.Tab.wf none s.bays = true
  rings : Machine.Tab.wf none s.rings = true
  ports : Machine.Tab.wf none s.ports = true

/-- No stored register field holds a value beyond its width (R8). -/
def Machine.State.FieldsFit (s : Machine.State) : Prop :=
  ∀ f i v, Machine.Tab.get none s.regs (Machine.Fld.key f i) = some v → v < 2 ^ f.width

/-- Tile t dispatches the word w next, and w, of this class and operation, passes the checks that every word passes: its program word reads
without error, FENCE does not hold it, its format is one its operation has (`fmtOk`), no bit outside the fields in use is set, no
CTL.MOD precedes a CTL word, and its class's queue has room (R160, R164, R175, R183). -/
abbrev Machine.State.issues (s : Machine.State) (t cls op w : Nat) (fmtOk : Bool) (uses : List (Nat × Nat)) : Prop :=
  s.dispatching t = true ∧ Machine.Tab.get false (s.tile t).progBad (s.fget .tpPc t) = false ∧
    w = Machine.applyMods ((s.tile t).word (s.fget .tpPc t)) (s.tile t).mods ∧ Machine.wCls w = cls ∧ Machine.wOp w = op ∧
    (Machine.wFence w = true → (s.tile t).flight = []) ∧ fmtOk = true ∧
    Machine.onlyUses w (Machine.headerUses w ++ uses) = true ∧ (cls = 0 → (s.tile t).modding = false) ∧
    (cls ≠ 0 → cls ≠ 5 → (s.tile t).waiting cls < 16)

/-- The accepted command of the fetched descriptor d, and the machine that has accepted and started it (R431, R432). -/
def Machine.State.taken (s : Machine.State) (fn ring part : Nat) (d : BitVec 512) : Machine.Cmd × Machine.State :=
  let cs := (s.popSlot fn ring).accept fn ring (s.fget .sqHead (Machine.ringIdx fn ring)) d part
  ({ cs.1 with started := true }, cs.2.modCmd cs.1.id (fun c => { c with started := true }))

/-- The partition a command record names: 0xFF where the command names none. -/
def Machine.Spec.partNo (k : Machine.Spec) : Nat := if k.part < 12 then k.part else 0xFF

/-- The submission ring (fn, ring) holds the descriptor d of the row k next; it passes the checks of R528, and the command it makes may start
at once (R431 to R434, R527, R528). -/
abbrev Machine.State.accepts (s : Machine.State) (fn ring : Nat) (d : BitVec 512) (k : Machine.Spec) : Prop :=
  s.fetchable fn ring = true ∧ s.slotDesc fn ring = some d ∧ Machine.dField d 0 0 = k.op ∧ s.stalled k = false ∧
    (s.popSlot fn ring).refusal fn d k = 0 ∧
    ((s.popSlot fn ring).accept fn ring (s.fget .sqHead (Machine.ringIdx fn ring)) d k.partNo).2.mayStart
      ((s.popSlot fn ring).accept fn ring (s.fget .sqHead (Machine.ringIdx fn ring)) d k.partNo).1 = true

end Sys2Proof
end

