-- ==== Sys2Proof/Certificates/Slice0/Obligations.lean ====
section
/-!
DEFINITION. The statements for the provers. A claim says of one command where it completes: under hypotheses on the state and the operands
alone, exec answers the next state that the rules give. An obligation states the claims of a family together.
-/

open Sys2Proof Sys2Proof.Machine

namespace Sys2Proof.Claims

/-! ### Control words -/

/-- CTL.NOP only goes on to the next word (R165). -/
def ctlNop : Prop := ∀ s t w, s.issues t 0 0 w (wFmt w == 0) [] → exec (.ctlNop t) s = .next (s.nextWord t)

/-- CTL.LI: S[D] takes the 64-bit IMM (R165). -/
def ctlLi : Prop := ∀ s t w, s.issues t 0 1 w (wFmt w == 0) [(24, 20), (127, 64)] →
  exec (.ctlLi t) s = .next ((s.modTile t (fun x => x.setSreg (bitsOf w 24 20) (bitsOf w 127 64))).nextWord t)

/-- CTL.ALU: S[D] takes the result on S[A] and on S[B], or on the sign-extended 32-bit immediate (R165). -/
def ctlAlu : Prop := ∀ s t w,
  s.issues t 0 2 w (wFmt w == 0) (if bitOf w 39 then [(29, 20), (39, 35), (95, 64)] else [(39, 20)]) → bitsOf w 38 35 ≤ 12 →
  exec (.ctlAlu t) s = .next ((s.modTile t (fun x => x.setSreg (bitsOf w 24 20) (aluOp (bitsOf w 38 35) (x.sreg (bitsOf w 29 25))
    (if bitOf w 39 then ofSigned 64 (toSigned 32 (bitsOf w 95 64)) else x.sreg (bitsOf w 34 30))))).nextWord t)

/-- CTL.BR with a direct target that R174 allows: taken, it links the next index into S[D] and goes to the target; not taken, it goes on. -/
def ctlBr : Prop := ∀ s t w, s.issues t 0 3 w (wFmt w == 0) (brUses w) → bitsOf w 38 35 ≤ 6 → bitOf w 39 = false →
  (s.tile t).branchOk (s.fget .tpPc t) (bitsOf w 77 64) = true →
  exec (.ctlBr t) s = .next (
    if brCond (bitsOf w 38 35) ((s.tile t).sreg (bitsOf w 29 25)) ((s.tile t).sreg (bitsOf w 34 30)) then
      (s.setTile t ({ s.tile t with mods := [], modding := false }.setSreg (bitsOf w 24 20) (s.fget .tpPc t + 1))).goto t (bitsOf w 77 64)
    else s.nextWord t)

/-- CTL.BR with an indirect target: it goes to S[A] modulo 16,384 (R165, R174). -/
def ctlBrIndirect : Prop := ∀ s t w, s.issues t 0 3 w (wFmt w == 0) (brUses w) → bitsOf w 38 35 = 0 → bitOf w 39 = true →
  (s.tile t).branchOk (s.fget .tpPc t) ((s.tile t).sreg (bitsOf w 29 25) % 16384) = true →
  exec (.ctlBr t) s = .next ((s.setTile t ({ s.tile t with mods := [], modding := false }.setSreg (bitsOf w 24 20) (s.fget .tpPc t + 1))).goto t
    ((s.tile t).sreg (bitsOf w 29 25) % 16384))

/-- The trip count of a LOOP word: COUNT of the word, or S[A] (R165, R172). -/
def loopCount (s : State) (t w : Nat) : Nat := if bitOf w 30 then bitsOf w 95 64 else (s.tile t).sreg (bitsOf w 29 25)

/-- The fields of a LOOP word. -/
def loopUses (w : Nat) : List (Nat × Nat) := if bitOf w 30 then [(24, 20), (31, 30), (44, 32), (95, 64)] else [(31, 20), (44, 32)]

/-- CTL.LOOP whose body fits the program and the loop stack: a count of 0 skips the body; else the loop opens with index 0 in S[D], and in
STRIP mode REMAIN takes the count (R172, R173). -/
def ctlLoop : Prop := ∀ s t w, s.issues t 0 4 w (wFmt w == 0) (loopUses w) → 1 ≤ bitsOf w 44 32 → bitsOf w 44 32 ≤ 4096 →
  s.fget .tpPc t + 1 + bitsOf w 44 32 ≤ 16384 → (s.tile t).loops.length < 4 →
  ((s.tile t).loops.all (fun l => decide (s.fget .tpPc t + 1 + bitsOf w 44 32 ≤ l.stop))) = true →
  exec (.ctlLoop t) s = .next (
    let pc := s.fget .tpPc t
    let n := loopCount s t w
    let x := if bitOf w 31 then { s.tile t with remain := n } else s.tile t
    let l : Loop := { start := pc + 1, stop := pc + 1 + bitsOf w 44 32, idxReg := bitsOf w 24 20, iter := 0, count := n, strip := bitOf w 31,
                      remain0 := n }
    if n = 0 then (s.setTile t x).advance t (pc + 1 + bitsOf w 44 32)
    else (s.setTile t ({ x with loops := l :: x.loops, mods := [], modding := false }.setSreg (bitsOf w 24 20) 0)).goto t (pc + 1))

/-- CTL.MOD whose triples lie in bits 127:20 without overlap: the next word fetched takes the additions (R175). -/
def ctlMod : Prop := ∀ s t w, s.issues t 0 5 w (wFmt w == 0) (modUses w) → triplesOk (modTriples w) = true → ((s.nextWord t).tile t).live = true →
  exec (.ctlMod t) s = .next (
    let ms : List ModAdd := (modTriples w).map (fun r => { pos := r.2.1, width := r.2.2, add := (s.tile t).sreg r.1 })
    (s.nextWord t).modTile t (fun x => { x with mods := ms, modding := true }))

/-- CTL.VXFER: one element moves from V[V] to S[D], or from S[A] to V[V] (R165). -/
def ctlVxfer : Prop := ∀ s t w, s.issues t 0 6 w (wFmt w == 0) (if bitOf w 30 then [(44, 25)] else [(24, 20), (44, 30)]) →
  exec (.ctlVxfer t) s = .next ((s.modTile t (fun x =>
    if bitOf w 30 then x.setVelem (bitsOf w 34 31) (bitsOf w 44 35) (x.sreg (bitsOf w 29 25))
    else x.setSreg (bitsOf w 24 20) (x.velem (bitsOf w 34 31) (bitsOf w 44 35)))).nextWord t)

/-- CTL.RDCR of a control register of R166; CR 8, the free-running counter, is a free value (log entry 15). -/
def ctlRdcr : Prop := ∀ s t w, s.issues t 0 7 w (wFmt w == 0) [(24, 20), (39, 32)] → bitsOf w 39 32 ≤ 9 →
  exec (.ctlRdcr t) s = .next (((s.tickCycles t (bitsOf w 39 32)).modTile t (fun x =>
    x.setSreg (bitsOf w 24 20) ((s.tickCycles t (bitsOf w 39 32)).ctlReg t (bitsOf w 39 32)))).nextWord t)

/-- CTL.WRCR of control register 1 clears the NUM_FLAGS bits that S[A] has set (R166). -/
def ctlWrcr : Prop := ∀ s t w, s.issues t 0 8 w (wFmt w == 0) [(29, 25), (39, 32)] → bitsOf w 39 32 = 1 →
  exec (.ctlWrcr t) s = .next ((s.clearNumFlags t ((s.tile t).sreg (bitsOf w 29 25))).nextWord t)

/-- CTL.END: dispatch stops, FAIL keeps its CODE, and the program ends once no word is in flight (R159). -/
def ctlEnd : Prop := ∀ s t w, s.issues t 0 9 w (wFmt w == 0) (if bitOf w 20 then [(20, 20), (47, 32)] else [(20, 20)]) →
  exec (.ctlEnd t) s = .next (((s.finc .tpDispatched t 1).modTile t (fun x =>
    { x with ending := true, mods := [], modding := false,
              failCode := if bitOf w 20 then some (bitsOf w 47 32) else none })).endProgram t)

/-- SYN.WAIT: while the counter is below N dispatch is held, for a free number of cycles that the stall counters add (log entry 133); then it goes on, and CONSUME subtracts N (R171). -/
def synWait : Prop := ∀ s t w, s.issues t 5 0 w (wFmt w == 0) ((26, 20) :: synUses w) →
  exec (.synWait t) s = .next (
    let i := 64 * t + bitsOf w 25 20
    let n := synCount (s.tile t) w
    if s.fget .ev i < n then (s.waits t (bitsOf w 25 20)).fset .tpState t TpState.waiting
    else (if bitOf w 26 then s.fset .ev i (s.fget .ev i - n) else s).nextWord t)

/-- The fields of a SYN.SIGNAL word. -/
def signalUses (w : Nat) : List (Nat × Nat) :=
  (25, 20) :: (31, 28) :: (39, 39) :: ((if bitsOf w 31 28 = 0 then [] else [(38, 32)]) ++ synUses w)

/-- SYN.SIGNAL to this tile, a mapped tile of the partition or a kettle of the partition adds N to the counter at once, unless RELEASE holds
it behind an earlier word that writes memory; then it waits in flight (R171, R178, R179). -/
def synSignal : Prop := ∀ s t w, s.issues t 5 1 w (wFmt w == 0) (signalUses w) →
  (bitsOf w 31 28 = 0 ∨
    bitsOf w 31 28 = 1 ∧ s.mapped (bitsOf w 38 32) = true ∧ s.holds ((s.partOfTile t).getD 12) (bitsOf w 38 32 / 8) = true ∨
    bitsOf w 31 28 = 2 ∧ bitsOf w 25 20 ≤ 15 ∧ s.holds ((s.partOfTile t).getD 12) (bitsOf w 38 32) = true) →
  exec (.synSignal t) s = .next (
    if bitOf w 39 && (s.tile t).flight.any (fun f => f.writes) then
      s.enqueue t w false true false (packSignal (bitsOf w 31 28) (bitsOf w 38 32) (bitsOf w 25 20) (synCount (s.tile t) w))
    else (s.sendSignal t (bitsOf w 31 28) (bitsOf w 38 32) (bitsOf w 25 20) (synCount (s.tile t) w)).nextWord t)

/-- SYN.FENCE goes on once no word of a marked class is in flight (R171). -/
def synFence : Prop := ∀ s t w, s.issues t 5 2 w (wFmt w == 0) [(39, 33)] → ((s.tile t).flight.all (fun f => !bitOf w (32 + f.cls))) = true →
  exec (.synFence t) s = .next (s.nextWord t)

/-- WORD_COMPLETE of a word whose engine has done its work, an MXM.FENCE only with no earlier MXM word in flight: the word leaves the tile, its
SIG takes effect, held signals leave, and the program may end (R125, R163, R178). -/
def wordComplete : Prop := ∀ s t id f, (s.tile t).flight.find? (fun g => g.id == id) = some f → f.done = true → (s.tile t).fenceHeld f = false →
  exec (.wordComplete t id) s = .next (s.completeWord t f)

/-- SYNC_TIMEOUT of a tile that a SYN.WAIT holds stops it with REASON 0, fails its step with TILE_FAULT and raises SYNC_TIMEOUT (R180, R184). -/
def syncTimeout : Prop := ∀ s t, s.dispatching t = true → s.fget .tpState t = TpState.waiting →
  exec (.syncTimeout t) s = .next (((s.stopTile t 0 (s.fget .tpPc t)).failStepOf t Status.tileFault
    (detailOf Source.syncTimeout (some t))).raise Source.syncTimeout Kind.tile t 0)

/-! ### Vector words -/

/-- The state after a vector word: VD takes `rs` from element 0 on, VEC_ISSUED counts, the flags are raised, and the word is in flight with its
work done (R143, R154, R163). -/
def vecState (s : State) (t w : Nat) (rs : List Nat) (fl : Nat) : State :=
  ((s.setTile t ((s.tile t).setElems (wVd w) 0 rs)).vecDone t fl).enqueue t w false true true 0

/-- Elements below VL of an element-wise operation: A and B with NEG and BCAST, C of FMA (R143, R146). -/
def vecResults (s : State) (t w : Nat) : List Rnd :=
  (List.range (s.fget .vecVl t)).map (fun i =>
    vecElem (wOp w) (wFmt w) ((s.tile t).operand (wVa w) i (bitOf w 41) false) ((s.tile t).operand (wVb w) i (bitOf w 42) (bitOf w 44))
      ((s.tile t).operand (wVc w) i (bitOf w 43) (bitOf w 45)))

/-- The flags of a list of results. -/
def flagsOf (rs : List Rnd) : Nat := rs.foldl (fun f r => f ||| r.fl) 0

/-- VEC.SETVL with SRC 0 (IMM), 1 (a register) or 2 (REMAIN): VL is the smaller of the 32-bit count and 1,024, REMAIN the rest (R142). -/
def vecSetvl : Prop := ∀ s t w,
  s.issues t 2 0 w (wFmt w == 0)
    ((49, 48) :: (if bitsOf w 49 48 = 0 then [(127, 96)] else if bitsOf w 49 48 = 1 then [(54, 50)] else [])) → bitsOf w 49 48 ≤ 2 →
  exec (.vecSetvl t) s = .next (
    let n := (if bitsOf w 49 48 = 0 then bitsOf w 127 96
      else if bitsOf w 49 48 = 1 then (s.tile t).sreg (bitsOf w 54 50) else (s.tile t).remain) % 2 ^ 32
    (((s.setTile t { s.tile t with remain := n - min n 1024 }).fset .vecVl t (min n 1024)).vecDone t 0).enqueue t w false true true 0)

/-- VEC.ADD (R146). -/
def vecAdd : Prop := ∀ s t w, s.issues t 2 1 w (fmtArithInt (wFmt w)) (vecUses2 w) → negOk w = true →
  exec (.vecAdd t) s = .next (vecState s t w ((vecResults s t w).map Rnd.bits) (flagsOf (vecResults s t w)))

/-- VEC.MUL (R146). -/
def vecMul : Prop := ∀ s t w, s.issues t 2 2 w (fmtArith (wFmt w)) (vecUses2 w) → negOk w = true →
  exec (.vecMul t) s = .next (vecState s t w ((vecResults s t w).map Rnd.bits) (flagsOf (vecResults s t w)))

/-- VEC.FMA (R146). -/
def vecFma : Prop := ∀ s t w, s.issues t 2 3 w (fmtArith (wFmt w)) (vecUses3 w) → negOk w = true →
  exec (.vecFma t) s = .next (vecState s t w ((vecResults s t w).map Rnd.bits) (flagsOf (vecResults s t w)))

/-- VEC.MIN (R147). -/
def vecMin : Prop := ∀ s t w, s.issues t 2 4 w (fmtArithInt (wFmt w)) (vecUses2 w) → negOk w = true →
  exec (.vecMin t) s = .next (vecState s t w ((vecResults s t w).map Rnd.bits) (flagsOf (vecResults s t w)))

/-- VEC.MAX (R147). -/
def vecMax : Prop := ∀ s t w, s.issues t 2 5 w (fmtArithInt (wFmt w)) (vecUses2 w) → negOk w = true →
  exec (.vecMax t) s = .next (vecState s t w ((vecResults s t w).map Rnd.bits) (flagsOf (vecResults s t w)))

/-- VEC.CMP sets a bit of M[MD] for each element below VL (R148). -/
def vecCmp : Prop := ∀ s t w, s.issues t 2 6 w (fmtArithInt (wFmt w)) ((40, 36) :: vecUses2 w) → negOk w = true →
  exec (.vecCmp t) s = .next (
    let rs := (List.range (s.fget .vecVl t)).map (fun i =>
      Machine.vecCmp (wFmt w) (bitsOf w 40 38) ((s.tile t).operand (wVa w) i (bitOf w 41) false)
        ((s.tile t).operand (wVb w) i (bitOf w 42) (bitOf w 44)))
    ((s.setTile t ((s.tile t).setMask (bitsOf w 37 36) 0 (rs.map Prod.fst))).vecDone t (rs.foldl (fun f r => f ||| r.2) 0)).enqueue t w false
      true true 0)

/-- VEC.SEL copies A's bits where the mask bit is 1, else B's, and raises no flag (R146, R148). -/
def vecSel : Prop := ∀ s t w, s.issues t 2 7 w (fmtAny (wFmt w)) [(31, 20), (37, 36), (44, 44)] →
  exec (.vecSel t) s = .next (vecState s t w ((List.range (s.fget .vecVl t)).map (fun i =>
    if (s.tile t).maskBit (bitsOf w 37 36) i then (s.tile t).velem (wVa w) i
    else (s.tile t).operand (wVb w) i false (bitOf w 44))) 0)

/-- VEC.EST of a function that R150 defines. -/
def vecEst : Prop := ∀ s t w, s.issues t 2 8 w (wFmt w == 0) [(27, 20), (40, 38)] → bitsOf w 40 38 ≤ 3 →
  exec (.vecEst t) s = .next (
    let rs := (List.range (s.fget .vecVl t)).map (fun i => estimate (bitsOf w 40 38) (f32 ((s.tile t).velem (wVa w) i)))
    vecState s t w (rs.map Rnd.bits) (flagsOf rs))

/-- The fold of elements below VL over the tree of R45, by operation `op` of the word's format (R149). -/
def vecFold (s : State) (t w op : Nat) : Rnd :=
  treeFold (fun a b : Rnd => let c := vecElem op (wFmt w) a.bits b.bits 0; ⟨c.bits, c.fl ||| a.fl ||| b.fl⟩) ⟨0, 0⟩
    ((List.range (s.fget .vecVl t)).map (fun i => ⟨(s.tile t).velem (wVa w) i, 0⟩))

/-- VEC.RSUM and VEC.RMAX put the fold into element 0 of VD, a NaN as the canonical NaN; with VL 0 they write nothing (R79, R149). -/
def vecFolded (s : State) (t w op : Nat) : State :=
  if s.fget .vecVl t = 0 then (s.vecDone t 0).enqueue t w false true true 0
  else
    let r := vecFold s t w op
    let bits := if wFmt w != 7 && f32isNan r.bits then f32nan else r.bits
    ((s.setTile t ((s.tile t).setVelem (wVd w) 0 bits)).vecDone t r.fl).enqueue t w false true true 0

/-- VEC.RSUM (R149). -/
def vecRsum : Prop := ∀ s t w, s.issues t 2 9 w (fmtArithInt (wFmt w)) [(27, 20)] → exec (.vecRsum t) s = .next (vecFolded s t w 1)

/-- VEC.RMAX (R149). -/
def vecRmax : Prop := ∀ s t w, s.issues t 2 10 w (fmtArithInt (wFmt w)) [(27, 20)] → exec (.vecRmax t) s = .next (vecFolded s t w 5)

/-- Reads of a VEC.LD: the elements, and the scales of a scaled format. -/
def loadReads (s : State) (t w : Nat) : List (Nat × Nat × Bool) :=
  [(64 * bitsOf w 83 64, fmtBytes (wFmt w) (s.fget .vecVl t), false),
   (64 * bitsOf w 103 84, if fmtScaled (wFmt w) then 2 * ceilDiv (s.fget .vecVl t) 64 else 0, false)]

/-- VEC.LD whose reads can be made loads VL elements as exact values, and corrects the codewords it can (R151, R200). -/
def vecLd : Prop := ∀ s t w,
  s.issues t 2 11 w (decide (wFmt w ≤ 7)) ((23, 20) :: (83, 64) :: (if fmtScaled (wFmt w) then [(103, 84)] else [])) →
  s.spFaults t (loadReads s t w) = none →
  exec (.vecLd t) s = .next (
    let rs := (List.range (s.fget .vecVl t)).map (fun i => loadBits (wFmt w) (s.elem (wFmt w) (wordAddr t (bitsOf w 83 64)) i)
      (if fmtScaled (wFmt w) then s.spNat t (64 * bitsOf w 103 84 + 2 * (i / 64)) 2 else 0))
    ((((s.setTile t ((s.tile t).setElems (wVd w) 0 (rs.map Rnd.bits))).vecDone t (flagsOf rs)).wordLands s t Req.vector
      (loadReads s t w)).enqueue t w false true true 0))

/-- The write of a VEC.ST. -/
def storeWrites (s : State) (t w : Nat) : List (Nat × Nat × Bool) := [(64 * bitsOf w 83 64, fmtBytes (wFmt w) (s.fget .vecVl t), true)]

/-- VEC.ST whose write can be made stores VL elements with conversion; where the write meets one in flight, R190 to R192 apply (R151; that a register element is an FP32 value is log entry 16). -/
def vecSt : Prop := ∀ s t w, s.issues t 2 12 w (fmtArithInt (wFmt w)) [(27, 24), (83, 64)] →
  s.spFaults t (storeWrites s t w) = none →
  exec (.vecSt t) s = .next (
    let cs := (List.range (s.fget .vecVl t)).map (fun i => convElem (wFmt w) (f32 ((s.tile t).velem (wVa w) i)) 0 none)
    (((s.spWrite t (64 * bitsOf w 83 64) (packElems (wFmt w) 0 (cs.map (fun c => c.code)))).vecDone t
      (cs.foldl (fun f c => f ||| c.fl) 0)).wordLands s t Req.vector (storeWrites s t w)).enqueue t w true true true 0)

/-! ### Bank-side words -/

/-- The accesses of BNK.ADD, MAX and SADD. -/
def bankReads (w : Nat) : List (Nat × Nat × Bool) :=
  [(64 * bSrc w, fmtBytes (wFmt w) (bCount w), false), (64 * bDst w, fmtBytes (bDstFmt w) (bCount w), false),
   (64 * bDst w, fmtBytes (bDstFmt w) (bCount w), true)]

/-- BNK.ADD, MAX and SADD apply their operation element by element in ascending order, write the destination, raise flags and count words
(R193, R194, R197). -/
def bankState (s : State) (t w op : Nat) : State :=
  let rs := (List.range (bCount w)).map (fun i =>
    bankElem op (wFmt w) (bDstFmt w) ((s.tile t).sreg (bTreg w) % 2 ^ 32) (s.bankDst t w i) (s.bankSrc t w i))
  ((s.bankPut t w (rs.map Prod.fst) (rs.foldl (fun f r => f ||| r.2) 0)).wordLands s t Req.control (bankReads w)).enqueue t w true true true 0

/-- BNK.ADD (R193). -/
def bnkAdd : Prop := ∀ s t w, s.issues t 4 0 w (fmtArithInt (wFmt w)) (bnkUses w) →
  (bankPair 0 (wFmt w) (bDstFmt w) && countOk w && bTreg w == 0 && rangesOk w true) = true → s.spFaults t (bankReads w) = none →
  exec (.bnkAdd t) s = .next (bankState s t w 0)

/-- BNK.MAX (R193). -/
def bnkMax : Prop := ∀ s t w, s.issues t 4 1 w (fmtArithInt (wFmt w)) (bnkUses w) →
  (bankPair 1 (wFmt w) (bDstFmt w) && countOk w && bTreg w == 0 && rangesOk w true) = true → s.spFaults t (bankReads w) = none →
  exec (.bnkMax t) s = .next (bankState s t w 1)

/-- BNK.SADD (R193, R195). -/
def bnkSadd : Prop := ∀ s t w, s.issues t 4 2 w (fmtArith (wFmt w)) (bnkUses w) →
  (bankPair 2 (wFmt w) (bDstFmt w) && countOk w && tregOk w && rangesOk w true) = true → s.spFaults t (bankReads w) = none →
  exec (.bnkSadd t) s = .next (bankState s t w 2)

/-- Source and destination scale planes of a BNK.WIDEN, in words (R195). -/
def widenPlanes (s : State) (t w : Nat) : Nat × Nat :=
  (bitsOf ((s.tile t).sreg (bTreg w)) 19 0, bitsOf ((s.tile t).sreg (bTreg w)) 39 20)

/-- The accesses of a BNK.WIDEN. -/
def widenAccesses (s : State) (t w : Nat) : List (Nat × Nat × Bool) :=
  [(64 * bSrc w, fmtBytes (wFmt w) (bCount w), false),
   (64 * (widenPlanes s t w).1, if fmtScaled (wFmt w) then 2 * (bCount w / 64) else 0, false), (64 * bDst w, fmtBytes (bDstFmt w) (bCount w), true),
   (64 * (widenPlanes s t w).2, if fmtScaled (bDstFmt w) then 2 * (bCount w / 64) else 0, true)]

/-- BNK.WIDEN of a legal pair of formats writes the widened elements, and copies the scales where the destination is scaled; both count in
BANKSIDE (R84, R193, R195, R208). -/
def bnkWiden : Prop := ∀ s t w, s.issues t 4 3 w (decide (3 ≤ wFmt w) && decide (wFmt w ≤ 6)) (bnkUses w) →
  (widenLegal (wFmt w) (bDstFmt w) && countOk w && rangesOk w false &&
    (if fmtScaled (wFmt w) then tregOk w && bitsOf ((s.tile t).sreg (bTreg w)) 63 40 == 0 else bTreg w == 0)) = true →
  s.spFaults t (widenAccesses s t w) = none →
  exec (.bnkWiden t) s = .next (
    let rs := (List.range (bCount w)).map (fun i => widenElem (wFmt w) (bDstFmt w) (s.bankSrc t w i)
      (if fmtScaled (wFmt w) then s.spNat t (64 * (widenPlanes s t w).1 + 2 * (i / 64)) 2 else 0))
    let planes := if fmtScaled (bDstFmt w) then 2 * (bCount w / 64) else 0
    let s1 := (s.bankPut t w (rs.map Prod.fst) (rs.foldl (fun f r => f ||| r.2) 0)).spWrite t (64 * (widenPlanes s t w).2)
      (s.spRead t (64 * (widenPlanes s t w).1) planes)
    ((s1.finc .spBankside t (ceilDiv planes 64)).wordLands s t Req.control (widenAccesses s t w)).enqueue t w true true true 0)

/-- The context registers of a BNK word, its tensor, and the index of its first element (R168, R196). -/
def bankCtx (s : State) (t w : Nat) : DrainCtx := (s.tile t).drainCtx (bTreg w)
def bankTensor (s : State) (t w : Nat) : Tensor := (s.cfgOf t).tensor (bankCtx s t w).tensor
def bankBase (s : State) (t w : Nat) : Nat := (bankCtx s t w).row0 * (bankTensor s t w).rowLen + (bankCtx s t w).col0

/-- The record's bytes that a CONVERT or RMAXCAP reaches (R97, R98). -/
def bankRecord (s : State) (t w : Nat) : List (Nat × Nat × Bool) :=
  recRanges (64 * (bankCtx s t w).record) (bDstFmt w) (bankTensor s t w).rowLen (bankBase s t w) (bCount w)

/-- The destination scale plane of a CONVERT, in words: the words after the elements (R196). -/
def convertPlane (w : Nat) : Nat := bDst w + ceilDiv (fmtBytes (bDstFmt w) (bCount w)) 64

/-- The accesses of a BNK.CONVERT. -/
def convertAccesses (s : State) (t w : Nat) : List (Nat × Nat × Bool) :=
  [(64 * bSrc w, fmtBytes (wFmt w) (bCount w), false), (64 * bDst w, fmtBytes (bDstFmt w) (bCount w), true),
   (64 * convertPlane w, if fmtScaled (bDstFmt w) then 2 * (bCount w / 64) else 0, true)] ++ bankRecord s t w

/-- BNK.CONVERT writes the converted elements, the scales of a scaled destination after them, and the record's capture and totals (R94 to R103,
R196). -/
def bnkConvert : Prop := ∀ s t w, s.issues t 4 4 w (fmtConvSrc (wFmt w)) (bnkUses w) →
  (decide (bDstFmt w ≤ 8) && bDstFmt w != 7 && countOk w && tregOk w && (bankCtx s t w).zeroOk && rangesOk w false &&
    (bankTensor s t w).rowLen != 0) = true →
  s.spFaults t (convertAccesses s t w) = none →
  exec (.bnkConvert t) s = .next (
    let a := wordAddr t (bankCtx s t w).record
    let c := s.convert a (bDstFmt w) (s.tile t).seed (s.stepWord t) (bankTensor s t w)
      (s.bankElems t w (bankTensor s t w).rowLen (bankBase s t w))
    let s1 := s.bankPut t w c.codes (c.fl ||| s.bankDecodes t w)
    let s2 := if fmtScaled (bDstFmt w) then
        (s1.spWrite t (64 * convertPlane w) ((planeScales (bCount w / 64) c.scales).flatMap (leBytes 2))).finc .spBankside t
          (ceilDiv (2 * (bCount w / 64)) 64) else s1
    (((s2.recCapture a c.maxima).recClose a c.sats c.immediate).wordLands s t Req.control (convertAccesses s t w)).enqueue t w true true true 0)

/-- BNK.RMAXCAP captures the block maxima into the record, sets VALID and writes nothing else (R196). -/
def bnkRmaxcap : Prop := ∀ s t w, s.issues t 4 5 w (fmtConvSrc (wFmt w)) (bnkUses w) →
  (decide (bDstFmt w ≤ 8) && countOk w && tregOk w && (bankCtx s t w).zeroOk && bDst w == 0 && (bankTensor s t w).rowLen != 0) = true →
  s.spFaults t ((64 * bSrc w, fmtBytes (wFmt w) (bCount w), false) :: bankRecord s t w) = none →
  exec (.bnkRmaxcap t) s = .next ((((s.recCapture (wordAddr t (bankCtx s t w).record)
    (blockMaxima (s.bankElems t w (bankTensor s t w).rowLen (bankBase s t w)))).flagBank t (s.bankDecodes t w)).wordLands s t Req.control
      ((64 * bSrc w, fmtBytes (wFmt w) (bCount w), false) :: bankRecord s t w)).enqueue t w true true true 0)
/-! ### Matrix words -/

/-- The SHADOW buffer of the sub-array that a LOADW names (R112). -/
def shadow (s : State) (t w : Nat) : Nat := 1 - (s.tile t).frontIdx (bitsOf w 21 20)

/-- The reads of a LOADW: the elements, and the scales of a scaled format. -/
def loadwReads (s : State) (t w : Nat) : List (Nat × Nat × Bool) :=
  [(64 * bitsOf w 51 32, fmtBytes (wFmt w) ((s.mode t).cols * bitsOf w 31 22), false),
   (64 * bitsOf w 83 64, if fmtScaled (wFmt w) then 2 * ((s.mode t).cols * bitsOf w 31 22 / 64) else 0, false)]

/-- MXM.LOADW of a depth that its format and the tile's array mode allow loads SHADOW and keeps the block's format and depth (R112 to R115, R125). -/
def mxmLoadw : Prop := ∀ s t w, s.issues t 1 0 w (fmtOperand (wFmt w)) ((51, 20) :: (if fmtScaled (wFmt w) then [(83, 64)] else [])) →
  ((s.mode t).isSplit || bitsOf w 21 20 == 0) = true → 1 ≤ bitsOf w 31 22 → bitsOf w 31 22 ≤ (s.mode t).depth (wFmt w) →
  (fmtScaled (wFmt w) = true → bitsOf w 31 22 % 64 = 0) → s.spFaults t (loadwReads s t w) = none →
  exec (.mxmLoadw t) s = .next ((((s.loadBlock t (bitsOf w 21 20) (shadow s t w) (wFmt w) (bitsOf w 31 22) (bitsOf w 51 32)
    (bitsOf w 83 64)).modTile t (fun x =>
      { x with bufFmt := Tab.set 0 x.bufFmt (2 * bitsOf w 21 20 + shadow s t w) (wFmt w + 1),
               bufDepth := Tab.set 0 x.bufDepth (2 * bitsOf w 21 20 + shadow s t w) (bitsOf w 31 22) })).wordLands s t Req.shadow
    (loadwReads s t w)).enqueue t w false true true 0)

/-- The tile of a MUL after its optional swap of FRONT and SHADOW (R116). -/
def swapped (s : State) (t w : Nat) : Tile :=
  if bitOf w 22 then
    { s.tile t with front := Tab.set false (s.tile t).front (bitsOf w 21 20) (!Tab.get false (s.tile t).front (bitsOf w 21 20)) }
  else s.tile t

/-- The fields of a MUL fit its format, the array mode and the accumulator store (R118, R119, R122, R123, *MXM operations and their fields*). -/
def mulFits (s : State) (t w : Nat) : Bool :=
  let m := s.mode t
  let acc := bitsOf w 27 24
  let rows := bitsOf w 110 100 + 1
  let x := swapped s t w
  (acc == 0 || acc == 7 || acc == 8) && passesOk (wFmt w) (bitsOf w 31 28) && decide (1 ≤ bitsOf w 99 84) &&
    (!m.isSplit || decide (rows ≤ 1024)) &&
    (decide (bitsOf w 120 111 ≤ m.depth (wFmt w)) && (!fmtScaled (wFmt w) || bitsOf w 120 111 % 64 == 0)) &&
    decide (bitsOf w 127 121 + 1 ≤ m.cols) &&
    Tab.get 0 x.bufFmt (2 * bitsOf w 21 20 + x.frontIdx (bitsOf w 21 20)) == wFmt w + 1 && (m.isSplit || bitsOf w 21 20 == 0) &&
    accFmtOk m (wFmt w) acc (bitsOf w 31 28) && (s.accTileBad t (bitsOf w 21 20) (bitsOf w 63 52) acc rows).isNone

/-- The addresses of a MUL's accumulator rows. -/
def mulAccs (s : State) (t w : Nat) : List Nat :=
  (List.range (bitsOf w 110 100 + 1)).map (fun r => s.accAddr t (bitsOf w 63 52) (bitsOf w 27 24) r)

/-- Bytes of each accumulator row of a MUL. -/
def mulAccLen (w : Nat) : Nat := accBytes (bitsOf w 27 24) * (bitsOf w 127 121 + 1)

/-- The accesses of a MUL: its streamed rows, the scales of a scaled format, and in M40_COMPAT the accumulator rows it writes. -/
def mulAccesses (s : State) (t w : Nat) : List (Nat × Nat × Bool) :=
  (List.range (bitsOf w 110 100 + 1)).flatMap (fun r =>
    [(64 * bitsOf w 51 32 + 64 * r * bitsOf w 99 84, fmtBytes (wFmt w) (bitsOf w 120 111), false),
     (64 * bitsOf w 83 64 + 2 * (r * bitsOf w 99 84 * (if wFmt w = 6 then 2 else 1)),
      if fmtScaled (wFmt w) then 2 * (bitsOf w 120 111 / 64) else 0, false)]) ++
  (if s.mode t == .m40 then (mulAccs s t w).map (fun a => (a - scratchBase t, mulAccLen w, true)) else [])

/-- The rows of a MUL against FRONT: the state and the flags (R116, R117). -/
def mulDone (s : State) (t w : Nat) : State × Nat :=
  (s.setTile t (swapped s t w)).mulRows t (bitsOf w 21 20) (wFmt w) (bitsOf w 27 24) (bitsOf w 31 28) (bitOf w 23) (bitsOf w 51 32)
    (bitsOf w 99 84) (bitsOf w 83 64) (bitsOf w 120 111) (bitsOf w 127 121 + 1) (bitsOf w 63 52) (bitsOf w 110 100 + 1) 0 0

/-- MXM.MUL whose fields fit and whose reads, stationary block and accumulator carry no error: swap, then every row into the accumulator, the
flags, and MXM_ROWS; an adding MUL corrects what it reads of the accumulator (R116, R117, R125, R138). -/
def mxmMul : Prop := ∀ s t w, s.issues t 1 1 w (fmtOperand (wFmt w)) (mulUses w) → mulFits s t w = true →
  s.spFaults t (mulAccesses s t w) = none →
  s.parityBad t (bitsOf w 21 20) ((swapped s t w).frontIdx (bitsOf w 21 20)) (wFmt w) (bitsOf w 120 111) (bitsOf w 127 121 + 1) = false →
  Tab.get false (swapped s t w).residue (bitsOf w 21 20) = false →
  ((mulAccs s t w).any (fun a => s.accBadAt t a (mulAccLen w) (!bitOf w 23))) = false →
  exec (.mxmMul t) s = .next (
    let s1 := (mulDone s t w).1
    let s2 := if bitOf w 23 then s1.accMend s t (mulAccLen w) (mulAccs s t w) else s1
    (((s2.flagMatrix t (mulDone s t w).2).finc .mxmRows t
      ((if wFmt w = 0 ∧ bitsOf w 31 28 ≠ 15 then bitsOf w 31 28 else 1) * (bitsOf w 110 100 + 1))).wordLands s t Req.stream
        (mulAccesses s t w)).enqueue t w (s.mode t == .m40) true true 0)

/-- The context of a DRAIN and its tensor (R168). -/
def drainCtxOf (s : State) (t w : Nat) : DrainCtx := (s.tile t).drainCtx (bitsOf w 102 98)
def drainTensor (s : State) (t w : Nat) : Tensor := (s.cfgOf t).tensor (drainCtxOf s t w).tensor

/-- The fields of a DRAIN that does not thin fit (R126 to R128). -/
def drainFits (s : State) (t w : Nat) : Bool :=
  let mo := s.mode t
  let acc := bitsOf w 27 24
  let m := bitsOf w 90 80 + 1
  drainFmtOk acc (wFmt w) (bitOf w 22) && (acc == 0 || acc == 7 || acc == 8) &&
    (decide (bitsOf w 29 28 ≤ 2) && (acc != 7 || bitsOf w 29 28 == 0)) &&
    (decide (1 ≤ bitsOf w 102 98) && decide (bitsOf w 102 98 ≤ 30) && (drainCtxOf s t w).zeroOk) && (drainTensor s t w).rowLen != 0 &&
    (!mo.isSplit || (decide (m ≤ 1024) && decide (bitsOf w 97 91 + 1 ≤ 64))) && (drainTensor s t w).thin == 0 &&
    (mo.isSplit || bitsOf w 21 20 == 0) && (mo != .m40 || acc != 8) && (s.accTileBad t (bitsOf w 21 20) (bitsOf w 63 52) acc m).isNone

/-- The accumulator rows that a DRAIN writes out. -/
def drainedRows (s : State) (t w : Nat) : List DrainRow :=
  let dest := bitsOf w 51 32
  let stride := bitsOf w 79 64
  let m := bitsOf w 90 80 + 1
  let n := bitsOf w 97 91 + 1
  (List.range m).map (fun r =>
    { row := (drainCtxOf s t w).row0 + r, word := dest + r * stride, scales := rowScales (wFmt w) dest stride m n r, counted := true,
      vals := (List.range n).map (fun c => accAt (s.accMem t) (bitsOf w 27 24) (s.accAddr t (bitsOf w 63 52) (bitsOf w 27 24) r) c) })

/-- The accesses of a DRAIN that does not thin: the rows with their scales and record entries, and the sum of squares. -/
def drainWrites (s : State) (t w : Nat) : List (Nat × Nat × Bool) :=
  drainAccesses (wFmt w) (bitsOf w 97 91 + 1) (drainTensor s t w).rowLen (drainCtxOf s t w).col0 (64 * (drainCtxOf s t w).record)
      (drainedRows s t w) ++
    [(8 * (drainCtxOf s t w).ssqAddr, if bitsOf w 29 28 = 0 then 0 else 8, false)]

/-- The addresses of a DRAIN's accumulator rows, and the bytes of each. -/
def drainAccs (s : State) (t w : Nat) : List Nat :=
  (List.range (bitsOf w 90 80 + 1)).map (fun r => s.accAddr t (bitsOf w 63 52) (bitsOf w 27 24) r)
def drainAccLen (w : Nat) : Nat := accBytes (bitsOf w 27 24) * (bitsOf w 97 91 + 1)

/-- MXM.DRAIN of a tensor that is not thinned converts and writes its rows, with the capture, the totals and the sum of squares; it corrects
what it reads of the accumulator, and the format of its tensor is noted for a reduction (R126 to R128, R138, R282). -/
def mxmDrain : Prop := ∀ s t w, s.issues t 1 2 w (fmtAny (wFmt w)) (drainUses w) → drainFits s t w = true →
  s.spFaults t (drainWrites s t w) = none → ((drainAccs s t w).any (fun a => s.accBadAt t a (drainAccLen w) false)) = false →
  exec (.mxmDrain t) s = .next (
    let s1 := s.drainRows t (bitsOf w 27 24) (wFmt w) (bitsOf w 97 91 + 1) (drainCtxOf s t w) (drainTensor s t w) (bitsOf w 29 28) (bitOf w 23)
      (drainedRows s t w)
    let s2 := (s1.accMend s t (drainAccLen w) (drainAccs s t w)).modTile t (fun x =>
      { x with drained := Tab.set 0 x.drained (drainCtxOf s t w).tensor (if bitOf w 22 then 9 else wFmt w + 1) })
    (s2.wordLands s t Req.drain (drainWrites s t w)).enqueue t w true true true 0)

/-- What a GROUP word says, its table entries, and its weights context (R132, R168). -/
def groupArgs (s : State) (t w : Nat) : GroupArgs :=
  { fmt := wFmt w, acc := bitsOf w 27 24, dst := bitsOf w 67 64, w := (s.tile t).weightCtx (bitsOf w 77 73),
    k := if bitOf w 30 then bitsOf w 87 78 else 64 * bitsOf w 87 78, rowStride := bitsOf w 103 88, outStride := bitsOf w 119 104 }
def groupEntries (s : State) (t w : Nat) : List GEntry := (List.range (bitsOf w 63 52 + 1)).map (fun i => s.groupEntry t (bitsOf w 51 32) i)
def groupCtx (s : State) (t w : Nat) : DrainCtx := (s.tile t).drainCtx (bitsOf w 72 68)
def groupTensor (s : State) (t w : Nat) : Tensor := (s.cfgOf t).tensor (groupCtx s t w).tensor

/-- Blocks of a forward product's K. -/
def groupBlocks (s : State) (t w : Nat) : Nat := (groupArgs s t w).k / Mode.depth .split (wFmt w)

/-- The fields of a GROUP fit, of either direction (R132 to R134, R136). -/
def groupFits (s : State) (t w : Nat) : Bool :=
  let acc := bitsOf w 27 24
  let g := groupArgs s t w
  (drainFmtOk acc (bitsOf w 67 64) (bitOf w 22) && (!bitOf w 30 || (wFmt w == 1 || wFmt w == 2) &&
      (bitsOf w 67 64 == 0 || bitsOf w 67 64 == 1 || bitsOf w 67 64 == 2 || bitsOf w 67 64 == 8))) && (acc == 0 || acc == 7 || acc == 8) &&
    (decide (bitsOf w 29 28 ≤ 2) && (acc != 7 || bitsOf w 29 28 == 0)) &&
    (decide (1 ≤ bitsOf w 72 68) && decide (bitsOf w 72 68 ≤ 30) && (groupCtx s t w).zeroOk) &&
    (decide (1 ≤ bitsOf w 77 73) && decide (bitsOf w 77 73 ≤ 30) && g.w.zeroOk) && (groupTensor s t w).rowLen != 0 &&
    (groupTensor s t w).thin == 0 && decide (1 ≤ g.rowStride) &&
    (if bitOf w 30 then decide (1 ≤ g.w.rows) && g.w.scale == 0 && decide (g.w.rows * gradWords g.dst ≤ g.w.stride) &&
        decide (2 * (bitsOf w 87 78 + 1) ≤ g.rowStride)
      else decide (1 ≤ bitsOf w 87 78) && g.k % Mode.depth .split (wFmt w) == 0) &&
    s.mode t == .split && accFmtOk .split (wFmt w) acc 0

/-- Every table entry is legal, and its weights lie in pool 0, or its gradient in the scratchpad (R132, R133, R137). -/
def groupTableOk (s : State) (t w : Nat) : Bool :=
  let g := groupArgs s t w
  (groupEntries s t w).all (fun e => e.ok &&
    (if bitOf w 30 then decide (64 * (g.w.base + e.expert * g.w.stride + g.w.rows * gradWords g.dst) ≤ scratchBytes)
      else (s.cfgOf t).inPool t 0 (64 * (g.w.base + e.expert * g.w.stride)) (8192 * groupBlocks s t w)))

/-- The output rows of a GROUP, in table order: of the forward product, or of the weight gradient (R134, R137). -/
def groupRows (s : State) (t w : Nat) : List DrainRow :=
  if bitOf w 30 then s.gradRows t (groupArgs s t w) (groupCtx s t w).row0 (groupEntries s t w) 0
  else s.fwdRows t (groupArgs s t w) (groupCtx s t w).row0 (groupEntries s t w) 0

/-- The read of the group table. -/
def tableReads (w : Nat) : List (Nat × Nat × Bool) := [(64 * bitsOf w 51 32, 16 * (bitsOf w 63 52 + 1), false)]

/-- MXM.GROUP whose table gives no row has nothing to write: the word is in flight with its work done (R134, R136). -/
def mxmGroupEmpty : Prop := ∀ s t w, s.issues t 1 3 w (decide (1 ≤ wFmt w) && decide (wFmt w ≤ 6)) (groupUses w) → groupFits s t w = true →
  s.spFaults t (tableReads w) = none → groupTableOk s t w = true → groupRows s t w = [] →
  exec (.mxmGroup t) s = .next ((s.wordLands s t Req.drain (tableReads w)).enqueue t w true true true 0)

/-- The reads of a GROUP: of the forward product its token rows, and the weights of each entry that has tokens, with their scales; of the
weight gradient the 64 features of its token rows, and their output rows. -/
def groupReads (s : State) (t w : Nat) : List (Nat × Nat × Bool) :=
  let g := groupArgs s t w
  let es := groupEntries s t w
  es.flatMap (fun e => (List.range e.count).flatMap (fun r =>
    (e.row + 64 * r * g.rowStride + (if bitOf w 30 then fmtBytes (wFmt w) (64 * bitsOf w 87 78) else 0),
      (if bitOf w 30 then fmtBytes (wFmt w) 64 else fmtBytes (wFmt w) g.k), false) ::
    (if bitOf w 30 then [(e.out + 64 * r * g.outStride, fmtBytes (wFmt w) g.w.rows, false)] else []))) ++
  (if bitOf w 30 then [] else
    (es.filter (fun e => e.count != 0)).flatMap (fun e => (64 * (g.w.base + e.expert * g.w.stride), 8192 * groupBlocks s t w, false) ::
      (if fmtScaled (wFmt w) then
        (List.range (groupBlocks s t w)).map (fun j =>
          (64 * (g.w.scale + e.expert * g.w.stride) + 8192 * j, 128 * (Mode.depth .split (wFmt w) / 64), false))
      else [])))

/-- The accesses of a GROUP: the sum of squares, its reads, and the rows written with their scales and record entries. -/
def groupAccesses (s : State) (t w : Nat) : List (Nat × Nat × Bool) :=
  (8 * (groupCtx s t w).ssqAddr, if bitsOf w 29 28 = 0 then 0 else 8, false) :: groupReads s t w ++
    drainAccesses (bitsOf w 67 64) 64 (groupTensor s t w).rowLen (groupCtx s t w).col0 (64 * (groupCtx s t w).record) (groupRows s t w)

/-- Streaming rows that a GROUP counts in MXM_ROWS (R125, R135). -/
def groupStreams (s : State) (t w : Nat) : Nat :=
  if bitOf w 30 then (groupEntries s t w).foldl (fun m e => m + ceilDiv e.count 64) 0 * (groupArgs s t w).w.rows
  else (groupEntries s t w).foldl (fun m e => m + e.count) 0 * groupBlocks s t w

/-- MXM.GROUP in either direction: its rows are drained, the flags raised and MXM_ROWS counted; the accumulators and stationary buffers of
the sub-arrays that ran a chunk are left at free values (R134 to R137; log entries 20 to 22). -/
def mxmGroup : Prop := ∀ s t w, s.issues t 1 3 w (decide (1 ≤ wFmt w) && decide (wFmt w ≤ 6)) (groupUses w) → groupFits s t w = true →
  s.spFaults t (tableReads w) = none → groupTableOk s t w = true → groupRows s t w ≠ [] → s.spFaults t (groupAccesses s t w) = none →
  ((List.range (min 4 (groupChunks (bitOf w 30) (groupArgs s t w).w.rows (groupEntries s t w)))).find? (fun q =>
    Tab.get false (s.tile t).residue q)) = none →
  exec (.mxmGroup t) s = .next (
    let g := groupArgs s t w
    let rows := groupRows s t w
    let s1 := (s.drainRows t g.acc g.dst 64 (groupCtx s t w) (groupTensor s t w) (bitsOf w 29 28) (bitOf w 23) rows).flagMatrix t
      (rows.foldl (fun f r => r.vals.foldl (fun f v => f ||| v.fl) f) 0)
    let s2 := (s1.finc .mxmRows t (groupStreams s t w)).groupLeaves t (wFmt w) (groupChunks (bitOf w 30) g.w.rows (groupEntries s t w))
      (w :: rows.flatMap (fun r => r.vals.map AccV.h))
    ((s2.wordLands s t Req.drain (groupAccesses s t w)).wordLands s t Req.drain (tableReads w)).enqueue t w true true true 0)

/-- MXM.FENCE is in flight, and completes once no earlier MXM word is in flight (R125). -/
def mxmFence : Prop := ∀ s t w, s.issues t 1 4 w (wFmt w == 0) [] → exec (.mxmFence t) s = .next (s.enqueue t w false true true 0)

/-! ### Moves and page walks of a tile -/

/-- MOV.DESC that heads its queue, with no earlier move about to write its descriptor, with a legal descriptor whose addresses the partition may
reach and room in the move engine: the move at DESC is in flight, and the read of DESC corrects what it can (R161, R200, R217 to R221). -/
def movDesc : Prop := ∀ s t w e f d, s.issues t 3 0 w (wFmt w == 0) [(51, 32)] → e = s.enqueue t w true false false 0 →
  (e.tile t).flight.find? (fun g => g.cls == 3 && !g.started) = some f → f.op = 0 → (e.movesOf t).length < 8 →
  e.descHeld t f = false → e.spFault t (64 * bitsOf f.word.toNat 51 32) 64 false = none → d = BitVec.ofNat 512 (e.spNat t (64 * bitsOf f.word.toNat 51 32) 64) →
  (moveD d).legal (e.part ((e.partOfTile t).getD 0)).cfg false = true → e.moveAddrs ((e.partOfTile t).getD 0) (moveD d) = none →
  exec (.movDesc t) s = .next (State.issueSteep 8 (State.startMovs 15
    (((e.mend (e.weakIn (scratchBase t + 64 * bitsOf f.word.toNat 51 32) 64)).modFlight t f.id
      (fun g => { g with started := true, ref := e.nextMove })).addMove t 0 f.id d (moveD d).src (moveD d).dst 0) t) t)

/-- MOV.STEEP that heads its queue and does not lower the cursor: the cursor takes CURSOR, and released entries issue (R224). -/
def movSteep : Prop := ∀ s t w e f, s.issues t 3 1 w (wFmt w == 0) [(47, 32)] → e = s.enqueue t w false false false 0 →
  (e.tile t).flight.find? (fun g => g.cls == 3 && !g.started) = some f → f.op = 1 → e.fget .steepCursor t ≤ bitsOf f.word.toNat 47 32 →
  exec (.movSteep t) s = .next (State.issueSteep 8 (State.startMovs 15 (State.issueSteep 8
    ((e.fset .steepCursor t (bitsOf f.word.toNat 47 32)).modFlight t f.id (fun g => { g with started := true, done := true })) t) t) t)

/-- MOV.COPY that heads its queue, of 1 to 786,432 words between reachable places: the copy is in flight (R170, R178). -/
def movCopy : Prop := ∀ s t w e f, s.issues t 3 2 w (wFmt w == 0) ([(51, 32), (83, 64), (91, 84), (127, 96)] ++ (if cRsig w then [(95, 92)] else [])) →
  1 ≤ cCount w → cCount w ≤ spWords → e = s.enqueue t w true false false 0 →
  (e.tile t).flight.find? (fun g => g.cls == 3 && !g.started) = some f → f.op = 2 → (e.movesOf t).length < 8 →
  e.addrsFault ((e.partOfTile t).getD 0) false [(wordAddr t (bitsOf f.word.toNat 51 32), 64 * cCount f.word.toNat)] = none →
  e.addrsFault ((e.partOfTile t).getD 0) true [(wordAddr (cDtile f.word.toNat) (bitsOf f.word.toNat 83 64), 64 * cCount f.word.toNat)] = none →
  exec (.movCopy t) s = .next (State.issueSteep 8 (State.startMovs 15
    ((e.modFlight t f.id (fun g => { g with started := true, ref := e.nextMove })).addMove t 4 f.id 0 (wordAddr t (bitsOf f.word.toNat 51 32))
      (wordAddr (cDtile f.word.toNat) (bitsOf f.word.toNat 83 64)) (64 * cCount f.word.toNat)) t) t)

/-- An ATT.WALK or ATT.APPEND that heads its queue, of a live slot, a layer and positions that R415 allows, with its scratchpad rows and page
table readable and room in the move engine: the walker reads its table entries, and its rows are in flight (R414 to R417). -/
def attRuns (c : Instr) (op : Nat) (t : Nat) : Prop := ∀ s w e f, s.issues t 7 op w (wFmt w == 1) (attUses w) →
  e = s.enqueue t w true false false (attRef ((s.tile t).sreg (bitsOf w 56 52)) ((s.tile t).sreg (bitsOf w 61 57))) →
  (e.tile t).flight.find? (fun g => g.cls == 7 && !g.started) = some f → f.op = op → (e.movesOf t).length < 8 →
  e.attReason ((e.partOfTile t).getD 0) (t / 8) (attSlot f.ref) (aLayer f.word.toNat) (attPos f.ref) (aCount f.word.toNat) (op == 1) = none →
  e.spFault t (64 * aPlace f.word.toNat) (64 * rowWordsKv * aCount f.word.toNat) (op == 0) = none →
  e.spansFault ((e.partOfTile t).getD 0) false ((fretsOf (attPos f.ref) (aCount f.word.toNat)).map (fun x =>
    (e.entryAddr ((e.partOfTile t).getD 0) (t / 8) (attSlot f.ref) x, 4))) = none →
  exec c s = .next (State.startAtts 15 (((e.walkEntries t (attSlot f.ref) (fretsOf (attPos f.ref) (aCount f.word.toNat))).modFlight t f.id
    (fun g => { g with started := true })).addMove t (5 + op) f.id 0 (wordAddr t (aPlace f.word.toNat)) 0
      (64 * rowWordsKv * aCount f.word.toNat)) t)

def attWalk : Prop := ∀ t, attRuns (.attWalk t) 0 t
def attAppend : Prop := ∀ t, attRuns (.attAppend t) 1 t

/-- ATT.INFO that heads its queue reads the length of a live slot into S[SEQREG + 1] (R414); of a slot with no live sequence the value is free
(log entry 29). -/
def attInfo : Prop := ∀ s t w e f, s.issues t 7 2 w (wFmt w == 0) [(56, 52)] → bitsOf w 56 52 ≠ 31 →
  e = s.enqueue t w false false false (attRef ((s.tile t).sreg (bitsOf w 56 52)) ((s.tile t).sreg (bitsOf w 61 57))) →
  (e.tile t).flight.find? (fun g => g.cls == 7 && !g.started) = some f → f.op = 2 →
  exec (.attInfo t) s = .next (
    let v := match (e.bay (t / 8)).live.find? (fun q => q.slot == attSlot f.ref) with
      | some x => x.len
      | none => Config.freeAt 43 [t / 8, attSlot f.ref] % 2 ^ 64
    State.startAtts 15 ((e.modTile t (fun x => x.setSreg (bitsOf f.word.toNat 56 52 + 1) v)).modFlight t f.id
      (fun g => { g with started := true, done := true })) t)

/-! ### Exchange and collective words

`e` is the machine with the word in its queue; the word is the oldest that waits on its bay, and the engines of the bays before it have nothing
to start. -/

/-- The machine with an XCH word in its queue (R170, R340). -/
def xchQueued (s : State) (t w : Nat) (writes : Bool) : State :=
  { s.enqueue t w writes false false s.nextMove with nextMove := s.nextMove + 1 }

/-- Word f of tile t is the next that the bays' engines start, no word in progress may still write what it reads, and its descriptor `desc` and
communicator k can be read (R161, R170, R325, R340). -/
abbrev xchHeads (s e : State) (p t : Nat) (f : Flight) (pre post : List Nat) (k : Comm) (desc : BitVec 512) : Prop :=
  (s.partOfTile t).getD 0 = p ∧ (e.partOfTile t).getD 0 = p ∧ e.baysOf p = pre ++ (t / 8) :: post ∧
    pre.all (fun b => (e.nextXch b).isNone) = true ∧ ((e.xchWords (t / 8)).filter (fun x => x.2.started)).length < 8 ∧
    e.nextXch (t / 8) = some (t, f) ∧ e.xchHeld p t f = false ∧ e.spFault t (64 * xDesc f.word.toNat) 64 false = none ∧
    desc = BitVec.ofNat 512 (e.spNat t (64 * xDesc f.word.toNat) 64) ∧ (e.part p).cfg.comm (xComm f.word.toNat) = some k

/-- The word waits no more on tile t of r: it is in progress or has completed. -/
abbrev xchBegun (r : State) (t : Nat) (f : Flight) : Prop :=
  (r.tile t).flight.any (fun g => g.id == f.id && g.cls == 6 && !g.started) = false

/-- After the word has started, r, the engines go on with what else waits. -/
def xchAfter (r : State) (t : Nat) (post : List Nat) : State :=
  post.foldl (fun s b => State.runXch 64 s b) (State.runXch 63 r (t / 8))

/-- The routes of a COUNTS word (R341). -/
def exRoutes (e : State) (t : Nat) (d : ExD) : List Nat :=
  (List.range (d.tokens * d.topk)).map (fun i => leNat (((e.spRead t (64 * d.routes) (4 * d.tokens * d.topk)).drop (4 * i)).take 4))

/-- SEND[i] of a COUNTS word: rows for each expert of rank i (R343). -/
def exSend (d : ExD) (routes : List Nat) (i : Nat) : List Byte :=
  (List.range d.experts).flatMap (fun x => leBytes 4 ((routes.filter (fun r => r == i * d.experts + x)).length))

/-- A COUNTS word has started: SEND and this rank's own RECV counts are written, the collective is open, and the counts go to every other rank;
with every count here the fit check begins (R342, R343). -/
def countsStarted (e : State) (p t : Nat) (f : Flight) (k : Comm) (desc : BitVec 512) : State :=
  let d := exD desc
  let routes := exRoutes e t d
  let me := k.myRank
  let s := e.modFlight t f.id (fun f => { f with started := true })
  let s := s.spWrite t (64 * d.counts) (((List.range k.count).map (exSend d routes)).flatMap (fun x => x))
  let s := s.spWrite t (64 * d.counts + 4 * (k.count * d.experts + me * d.experts)) (exSend d routes me)
  let c0 : Coll := { Coll.base with bay := t / 8, words := [(t, f.id)], comm := k.id, op := 16, opNo := d.opNo, fmt := 7,
                                    stepNo := s.xchStep t, desc := desc, map := routes.map (fun r => (r, 0)),
                                    held := [(segKey me 0, me, exSend d routes me)],
                                    expect := ((List.range k.count).filter (fun r => r != me)).map (fun r => (segKey r 0, r)) }
  let ms := s.earlyFor p c0
  let (c, s) := s.openColl p c0
  let s := (List.range k.count).foldl (fun s r =>
    if r = me then s else s.toRankFrom p c.bay k r (s.collMsg p c Vc.exchange Ty.data 0 [me] (withCrc (exSend d routes r)))) s
  ms.foldl (fun s m => if m.vc = Vc.exchange then s.onCounts p m else s.onScalar p State.scalarFinish m) (s.countsIn p k c)

/-- XCH.COUNTS with a legal descriptor, readable routes that name ranks' experts or nothing, and writable counts (R341 to R343). -/
def xchCounts : Prop := ∀ s t w e p f pre post k desc, s.issues t 6 0 w (wFmt w == 0) (xchUses w) → e = xchQueued s t w true →
  xchHeads s e p t f pre post k desc → f.op = 0 → e.exLegal p (exD desc) = true →
  e.spFaults t [(64 * (exD desc).routes, 4 * (exD desc).tokens * (exD desc).topk, false), (64 * (exD desc).counts, 8 * k.count * (exD desc).experts, true)] = none →
  ((exRoutes e t (exD desc)).any (fun r => r != 0xFFFFFFFF && decide (k.count * (exD desc).experts ≤ r))) = false →
  xchBegun (countsStarted e p t f k desc) t f →
  exec (.xchCounts t) s = .next (xchAfter (countsStarted e p t f k desc) t post)

/-- A payload word's own collective (R345). -/
def rowsColl (e : State) (t : Nat) (f : Flight) (k : Comm) (op : Nat) (desc : BitVec 512) : Coll :=
  { Coll.base with bay := t / 8, words := [(t, f.id)], comm := k.id, op := op, opNo := (exD desc).opNo, fmt := wFmt f.word.toNat,
                   stepNo := e.xchStep t, desc := desc,
                   expect := ((List.range k.count).filter (fun r => r != k.myRank)).map (fun r => (segKey r 0, r)) }

/-- The rows that a payload word exchanges with rank r, as bytes. -/
def rowsOf (s : State) (x : Exch) (p t op n r : Nat) (d : ExD) : List Byte :=
  (x.reads d n t op r).flatMap (fun y => s.partRead p y.1 y.2)

/-- A payload word has sent each other rank its rows; its own rows are still to land. -/
def rowsSent (e : State) (x : Exch) (p t : Nat) (f : Flight) (k : Comm) (op : Nat) (desc : BitVec 512) : Coll × State :=
  let s1 := e.modFlight t f.id (fun f => { f with started := true })
  let o := s1.openColl p (rowsColl s1 t f k op desc)
  (o.1, ((List.range k.count).map (fun r => (r, rowsOf o.2 x p t op k.count r (exD desc)))).foldl (fun s y =>
    if y.1 = k.myRank then s else s.toRankFrom p o.1.bay k y.1 (s.collMsg p o.1 Vc.exchange Ty.data 0 [k.myRank] (withCrc y.2))) o.2)

/-- The machine with a payload word's collective open, whose rows are read then. -/
def rowsOpen (e : State) (p t : Nat) (f : Flight) (k : Comm) (op : Nat) (desc : BitVec 512) : State :=
  ((e.modFlight t f.id (fun f => { f with started := true })).openColl p
    (rowsColl (e.modFlight t f.id (fun f => { f with started := true })) t f k op desc)).2

/-- XCH.DISPATCH, COMBINE, BDISPATCH and BCOMBINE after their COUNTS: the rows of each rank are read and sent, this rank's own rows land whole,
and the messages that waited are taken; `r` is the machine with its own rows landed (R345, R346). -/
def xchPayload (c : Instr) (op t : Nat) : Prop := ∀ s w e p f pre post k desc x r, s.issues t 6 op w true (xchUses w) →
  e = xchQueued s t w true → xchHeads s e p t f pre post k desc → f.op = op → e.exchOf p t k.id (e.xchStep t) desc = some x →
  e.exLegal p (exD desc) = true → wFmt f.word.toNat ≤ 2 →
  e.dataFaults p ((List.range k.count).flatMap (fun r => x.reads (exD desc) k.count t (16 + op) r)) = none →
  (rowsSent e x p t f k (16 + op) desc).2.landRows p (rowsSent e x p t f k (16 + op) desc).1
    (x.lands (exD desc) k.count t (16 + op) k.myRank) (rowsOf (rowsOpen e p t f k (16 + op) desc) x p t (16 + op) k.count k.myRank (exD desc)) = .ok r →
  xchBegun (((e.modFlight t f.id (fun f => { f with started := true })).earlyFor p
      (rowsColl (e.modFlight t f.id (fun f => { f with started := true })) t f k (16 + op) desc)).foldl (fun s m => s.onRows p m)
    (r.settleRows p x (exD desc) k.count (rowsSent e x p t f k (16 + op) desc).1)) t f →
  exec c s = .next (xchAfter (((e.modFlight t f.id (fun f => { f with started := true })).earlyFor p
      (rowsColl (e.modFlight t f.id (fun f => { f with started := true })) t f k (16 + op) desc)).foldl (fun s m => s.onRows p m)
    (r.settleRows p x (exD desc) k.count (rowsSent e x p t f k (16 + op) desc).1)) t post)

def xchDispatch : Prop := ∀ t, xchPayload (.xchDispatch t) 1 t
def xchCombine : Prop := ∀ t, xchPayload (.xchCombine t) 2 t
def xchBdispatch : Prop := ∀ t, xchPayload (.xchBdispatch t) 3 t
def xchBcombine : Prop := ∀ t, xchPayload (.xchBcombine t) 4 t

/-- An XCH.COLL word of operation `op` in a format that it takes. -/
abbrev collIssues (s : State) (t op w : Nat) : Prop :=
  s.issues t 6 8 w true (collUses w) ∧ xCollOp w = op ∧ collFmt op (wFmt w) = true

/-- The shard map of a collective's descriptor, and what it says. -/
def shardMap (e : State) (t : Nat) (d : CollD) : List (Nat × Nat × Nat) :=
  (List.range d.mapEntries).map (mapEntry (e.spRead t (64 * d.map) (8 * d.mapEntries)))

/-- A collective's record as its word opens it (R325). -/
def collRecord (e : State) (t : Nat) (f : Flight) (k : Comm) (op : Nat) (desc : BitVec 512) : Coll :=
  { Coll.base with bay := t / 8, words := [(t, f.id)], comm := k.id, op := op, opNo := (collD desc).opNo, fmt := wFmt f.word.toNat,
                   stepNo := e.xchStep t, desc := desc, map := (shardMap e t (collD desc)).map (fun x => (x.1, x.2.1)) }

/-- A REDUCE_SCATTER word has started: an orphan of its identity ends, the reduction is open, this rank's contribution is read and combined, its
own shard's sums begin, and the messages that waited for it are taken (R275 to R283, R292, R293). -/
def reduceStarted (e : State) (p t : Nat) (f : Flight) (k : Comm) (desc : BitVec 512) : State :=
  let d := collD desc
  let c0 := collRecord e t f k 0 desc
  let r := c0.redInfo (e.part p).cfg k
  let old (c : Coll) : Bool := c.orphan && c.comm == k.id && c.opNo == d.opNo && c.stepNo == e.xchStep t
  let s := e.modPart p (fun x => { x with colls := x.colls.filter (fun c => !old c) })
  let s := s.modFlight t f.id (fun f => { f with started := true })
  let ms := s.earlyFor p c0
  let (c, s) := s.openColl p c0
  let (s, raw) := s.redSource p d.tensor d.src d.count (d.count / r.per) r.size (wFmt f.word.toNat) r.thin
  let (s, x) := s.seedRed p r c raw
  ms.foldl (fun s m => if m.ty = Ty.grant then s.onGrant p m else if m.ty = Ty.segAck then s.onAck p m else s.onSegment p m)
    ((s.modColl p c.id (fun _ => x.1)).settleRed p r x)

/-- XCH.COLL REDUCE_SCATTER with a legal descriptor and shard map, a source drained in its format, an identity not in use, and a source that can
be read (R275, R276, R282, R283). -/
def xchCollReduceScatter : Prop := ∀ s t w e p f pre post k desc, collIssues s t 0 w → e = xchQueued s t w true →
  xchHeads s e p t f pre post k desc → f.op = 8 → xCollOp f.word.toNat = 0 → (collD desc).fieldsOk 0 false false = true →
  e.mapped (8 * (t / 8) + (collD desc).accTile) = true → e.spFault t (64 * (collD desc).map) (8 * (collD desc).mapEntries) false = none →
  mapOk k.count (collD desc).count (shardMap e t (collD desc)) = true →
  thinOk ((e.part p).cfg.tensor (collD desc).tensor) (wFmt f.word.toNat) (collD desc).count (shardMap e t (collD desc)) = true →
  e.redMisfit p (collD desc).tensor (collD desc).src (wFmt f.word.toNat) (((e.part p).cfg.tensor (collD desc).tensor).thin != 0) = false →
  e.redUsed p t k.id (collD desc).opNo (e.xchStep t) = false →
  (e.dataFaults p (e.redReads p (collD desc).tensor (collD desc).src (collD desc).count
    ((collD desc).count / ((collRecord e t f k 0 desc).redInfo (e.part p).cfg k).per) ((collRecord e t f k 0 desc).redInfo (e.part p).cfg k).size
    ((collRecord e t f k 0 desc).redInfo (e.part p).cfg k).thin)) = none →
  xchBegun (reduceStarted e p t f k desc) t f →
  exec (.xchCollReduceScatter t) s = .next (xchAfter (reduceStarted e p t f k desc) t post)

/-- What this rank sends in a gather: key, first source place, elements, and the ranks it goes to (R326). -/
def gatherOut (g : GatherInfo) (c : Coll) (k : Comm) (op : Nat) (d : CollD) : List (Nat × Nat × Nat × List Nat) :=
  let me := k.myRank
  let mine (root off : Nat) (ranks : List Nat) : List (Nat × Nat × Nat × List Nat) :=
    (List.range (g.segs c root)).map (fun j => (segKey root j, off + j * g.seg, min g.seg (runsLen (g.runs c root) - j * g.seg), ranks))
  if op = 1 then mine me 0 (k.children me me)
  else if op = 2 then (List.range k.count).flatMap (fun j => mine me (j * d.count) [j])
  else if d.root = me then mine me 0 (k.children me me) else []

/-- What this rank awaits in a gather: (key, rank that sends it) (R326). -/
def gatherExpect (g : GatherInfo) (c : Coll) (k : Comm) (op : Nat) (d : CollD) : List (Nat × Nat) :=
  let me := k.myRank
  if op = 1 then ((List.range k.count).filter (fun o => o != me)).flatMap (fun o =>
    (List.range (g.segs c o)).map (fun j => (segKey o j, k.parent o me)))
  else if op = 2 then ((List.range k.count).filter (fun o => o != me)).flatMap (fun o =>
    (List.range (g.segs c o)).map (fun j => (segKey o j, o)))
  else if d.root = me then [] else (List.range (g.segs c d.root)).map (fun j => (segKey d.root j, k.parent d.root me))

/-- A gather is open, with what it awaits. -/
def gatherOpen (e : State) (p t : Nat) (f : Flight) (k : Comm) (op : Nat) (desc : BitVec 512) : Coll × State :=
  let c0 := collRecord e t f k op desc
  let g := c0.gatherInfo (e.part p).cfg k
  (e.modFlight t f.id (fun f => { f with started := true })).openColl p { c0 with expect := gatherExpect g c0 k op (collD desc) }

/-- Payloads that a gather sends. -/
def gatherPayloads (e : State) (p t : Nat) (f : Flight) (k : Comm) (op : Nat) (desc : BitVec 512) :
    List ((Nat × Nat × Nat × List Nat) × List Byte) :=
  let c0 := collRecord e t f k op desc
  let g := c0.gatherInfo (e.part p).cfg k
  (gatherOut g c0 k op (collD desc)).map (fun x => (x, (gatherOpen e p t f k op desc).2.gatherData p g x.2.1 x.2.2.1))

/-- This rank's own part of a gather lands at its destination. -/
def gatherPlaced (e : State) (p t : Nat) (f : Flight) (k : Comm) (op : Nat) (desc : BitVec 512) : Eff :=
  let g := (collRecord e t f k op desc).gatherInfo (e.part p).cfg k
  let o := gatherOpen e p t f k op desc
  ((gatherPayloads e p t f k op desc).filter (fun x => op == 1 || (op == 2 && x.1.2.2.2 == [k.myRank]))).foldl
    (fun (e : Eff) x => e.andThen (fun s => s.placeGather p g o.1 x.1.1 x.2)) (.ok o.2)

/-- A gather has started: its own part, r, has landed, its payloads go to their ranks, and the messages that waited are taken (R326). -/
def gatherStarted (e r : State) (p t : Nat) (f : Flight) (k : Comm) (op : Nat) (desc : BitVec 512) : State :=
  let c0 := collRecord e t f k op desc
  let g := c0.gatherInfo (e.part p).cfg k
  let o := gatherOpen e p t f k op desc
  ((e.modFlight t f.id (fun f => { f with started := true })).earlyFor p c0).foldl (fun s m => s.onGather p m)
    (((gatherPayloads e p t f k op desc).foldl (fun s x =>
      s.sendGather p g o.1 x.1.1 x.2 (x.1.2.2.2.filter (fun r => r != k.myRank))) r).settleGather p o.1)

/-- XCH.COLL ALL_GATHER, ALL_TO_ALL and BROADCAST with a legal descriptor, a legal shard map for a gather, and a source that can be read
(R325, R326). -/
def xchGathers (c : Instr) (op t : Nat) : Prop := ∀ s w e p f pre post k desc r, collIssues s t op w → e = xchQueued s t w true →
  xchHeads s e p t f pre post k desc → f.op = 8 → xCollOp f.word.toNat = op →
  (collD desc).fieldsOk op (fmtScaled (wFmt f.word.toNat))
    (fmtScaled (arriveFmt op (wFmt f.word.toNat) ((e.part p).cfg.tensor (collD desc).tensor)) || (op == 1 && fmtScaled (wFmt f.word.toNat))) = true →
  (op = 3 → (collD desc).root < k.count) → e.spFault t (64 * (collD desc).map) (8 * (collD desc).mapEntries) false = none →
  (op = 1 → mapOk k.count (collD desc).count (shardMap e t (collD desc)) = true) →
  e.dataFaults p ((gatherOut ((collRecord e t f k op desc).gatherInfo (e.part p).cfg k) (collRecord e t f k op desc) k op
    (collD desc)).flatMap (fun x => ((collRecord e t f k op desc).gatherInfo (e.part p).cfg k).srcRanges x.2.1 x.2.2.1)) = none →
  gatherPlaced e p t f k op desc = .ok r → xchBegun (gatherStarted e r p t f k op desc) t f →
  exec c s = .next (xchAfter (gatherStarted e r p t f k op desc) t post)

def xchCollAllGather : Prop := ∀ t, xchGathers (.xchCollAllGather t) 1 t
def xchCollAllToAll : Prop := ∀ t, xchGathers (.xchCollAllToAll t) 2 t
def xchCollBroadcast : Prop := ∀ t, xchGathers (.xchCollBroadcast t) 3 t

/-- This rank's value in a scalar operation. -/
def scalarValue (e : State) (p op : Nat) (f : Flight) (desc : BitVec 512) : List Nat :=
  if op = 5 then []
  else if wFmt f.word.toNat = 8 then
    [leField (e.partRead p (collD desc).src 8) 3 0, leField (e.partRead p (collD desc).src 8) 7 4]
  else [leNat (e.partRead p (collD desc).src 4)]

/-- A scalar all-reduce or a barrier has started: it is open and begins with this rank's value (R326). -/
def scalarStarted (e : State) (p t : Nat) (f : Flight) (k : Comm) (op : Nat) (desc : BitVec 512) : State :=
  let s := e.modFlight t f.id (fun f => { f with started := true })
  let c0 : Coll := { Coll.base with bay := t / 8, words := [(t, f.id)], comm := k.id, op := op, opNo := (collD desc).opNo,
                                    fmt := wFmt f.word.toNat, stepNo := s.xchStep t, desc := desc }
  let ms := s.earlyFor p c0
  let (c, s) := s.openColl p c0
  (s.modPart p (fun x => { x with early := x.early ++ ms })).joinScalar p k State.scalarFinish c (scalarValue e p op f desc)

/-- XCH.COLL SCALAR_ALLREDUCE without NORM, whose source can be read (R325, R326). -/
def xchCollScalarAllreduce : Prop := ∀ s t w e p f pre post k desc, collIssues s t 4 w → e = xchQueued s t w true →
  xchHeads s e p t f pre post k desc → f.op = 8 → xCollOp f.word.toNat = 4 → (collD desc).fieldsOk 4 false false = true →
  (collD desc).norm = false → e.dataFault p (collD desc).src (if wFmt f.word.toNat = 8 then 8 else 4) = none →
  xchBegun (scalarStarted e p t f k 4 desc) t f →
  exec (.xchCollScalarAllreduce t) s = .next (xchAfter (scalarStarted e p t f k 4 desc) t post)

/-- XCH.COLL BARRIER (R325, R326). -/
def xchCollBarrier : Prop := ∀ s t w e p f pre post k desc, collIssues s t 5 w → e = xchQueued s t w false →
  xchHeads s e p t f pre post k desc → f.op = 8 → xCollOp f.word.toNat = 5 → (collD desc).fieldsOk 5 false false = true →
  xchBegun (scalarStarted e p t f k 5 desc) t f →
  exec (.xchCollBarrier t) s = .next (xchAfter (scalarStarted e p t f k 5 desc) t post)

/-! ### Messages of collectives

`s1` is the machine once the capture has recorded the message (R498). -/

/-- Partition p hears message m on this channel and of this type, and m does not carry a stale epoch (R302, R314). -/
abbrev hear (s : State) (p : Nat) (m : Msg) (vc ty : Nat) : Prop := s.hears p m vc ty = true ∧ s.stale p m = false

/-- Partition p hears message m, and m belongs to collective c of communicator k (R302, R314, R315). -/
abbrev joins (s s1 : State) (p : Nat) (m : Msg) (vc ty : Nat) (c : Coll) (k : Comm) : Prop :=
  hear s p m vc ty ∧ s1 = s.captureMsg p m ∧ s1.collOf p m = some c ∧ (s1.part p).cfg.comm c.comm = some k

/-- The key of the segment that a message of a reduction names; `dflt` is its owner where the message names none (log entry 32). -/
def msgKey (m : Msg) (dflt : Nat) : Nat := segKey (m.args.headD dflt) m.seg

/-- GRANT for a reduction in progress: a ready segment goes to the owner at once; a grant that comes first is kept (R277). -/
def grant : Prop := ∀ (s s1 : State) (p : Nat) (m : Msg) (c : Coll) (k : Comm), m.op = 0 → joins s s1 p m Vc.scalar Ty.grant c k → c.orphan = false →
  exec (.grant p m) s = .next (((match c.toSend.find? (fun x : Nat × Nat × List Byte => x.1 == msgKey m m.rank && x.2.1 == m.rank) with
    | some x => (s1.sendSegment p k c (msgKey m m.rank) m.rank x.2.2).modColl p c.id (fun c =>
        { c with sent := (msgKey m m.rank, m.rank) :: c.sent })
    | none => s1.modColl p c.id (fun c => { c with grants := (msgKey m m.rank, m.rank) :: c.grants })).xchEngine p).settle)

/-- SEG_ACK without NAK for a reduction in progress: the segment needs nothing more, and a reduction with nothing left completes (R277, R280). -/
def segAck : Prop := ∀ (s s1 : State) (p : Nat) (m : Msg) (c : Coll) (k : Comm), m.op = 0 → m.nak = false → joins s s1 p m Vc.scalar Ty.segAck c k → c.orphan = false →
  exec (.segAck p m) s = .next ((
    let c1 := { c with toSend := c.toSend.filter (fun x => !(x.1 == msgKey m m.rank && x.2.1 == m.rank)) }
    (if c1.redDone then s1.closeColl p c1 else s1.modColl p c1.id (fun _ => c1)).xchEngine p).settle)

/-- REDUCTION_SEGMENT that was granted and passes its CRC-64: it is acknowledged; under RING its partial goes on or ends here, else the
contribution is held and those whose turn has come are added in rank order (R277, R279, R292, R293). -/
def reductionSegment : Prop := ∀ (s s1 : State) (p : Nat) (m : Msg) (c : Coll) (k : Comm) (bs : List Byte), m.op = 0 → joins s s1 p m Vc.reduction Ty.data c k → c.orphan = false →
  c.expect.contains (msgKey m k.myRank, m.rank) = true → c.granted.contains (msgKey m k.myRank, m.rank) = true → checkedData m = some bs →
  exec (.reductionSegment p m) s = .next ((
    let key := msgKey m k.myRank
    let r := c.redInfo (s1.part p).cfg k
    let c1 := { c with expect := c.expect.filter (fun x => x != (key, m.rank)), granted := c.granted.filter (fun x => x != (key, m.rank)) }
    let s2 := s1.ackSegment p k c1 key m.rank
    (if r.ring then
      let x := if keyOwner key = k.myRank ∧ m.rank + 1 = k.count then s2.finishSegment p r c1 key (unpackElems 0 bs (r.units c1 key))
        else s2.ringOn p r c1 key (unpackElems 0 bs (r.units c1 key))
      x.1.settleRed p r x.2
    else
      let s3 := if c1.vals.any (fun v => v.1 == key && v.2.headD 0 != m.rank) then s2.finc .redEarly c1.bay 1 else s2
      let x := State.addRanks p r key (k.count + 1) s3 { c1 with held := c1.held ++ [(key, m.rank, bs)] }
      x.1.settleRed p r x.2).xchEngine p).settle)

/-- A gather or broadcast message goes on to the children at once, unless it did so before this rank's own word started (R326). -/
def gatherForwarded (s1 : State) (p : Nat) (m : Msg) (c : Coll) (k : Comm) (bs : List Byte) : State :=
  if c.op = 2 then s1
  else if (s1.part p).relayed.contains m then s1.modPart p (fun x => { x with relayed := x.relayed.erase m })
  else s1.sendGather p (c.gatherInfo (s1.part p).cfg k) c (msgKey m m.rank) bs (k.children (keyOwner (msgKey m m.rank)) k.myRank)

/-- The message is placed, which gives r; the collective then holds all it awaits and completes, or awaits the rest (R326). -/
def gatherTaken (r : State) (p : Nat) (m : Msg) (c : Coll) : State :=
  r.settleGather p { c with expect := c.expect.filter (fun x => x != (msgKey m m.rank, m.rank)) }

/-- Message m is awaited by gather c, and its payload bs passes its CRC-64 and, forwarded, lands, which gives r. -/
abbrev gatherLands (s1 r : State) (p : Nat) (m : Msg) (c : Coll) (k : Comm) (bs : List Byte) : Prop :=
  c.expect.contains (msgKey m m.rank, m.rank) = true ∧ checkedData m = some bs ∧
    (gatherForwarded s1 p m c k bs).placeGather p (c.gatherInfo (s1.part p).cfg k) c (msgKey m m.rank) bs = .ok r

/-- ALL_GATHER_MESSAGE (R326). -/
def allGatherMessage : Prop := ∀ (s s1 : State) (p : Nat) (m : Msg) (c : Coll) (k : Comm) (bs : List Byte) (r : State), m.op = 1 → joins s s1 p m Vc.gather Ty.data c k → gatherLands s1 r p m c k bs →
  exec (.allGatherMessage p m) s = .next ((gatherTaken r p m c).settle.xchEngine p)

/-- ALL_TO_ALL_MESSAGE (R326). -/
def allToAllMessage : Prop := ∀ (s s1 : State) (p : Nat) (m : Msg) (c : Coll) (k : Comm) (bs : List Byte) (r : State), m.op = 2 → joins s s1 p m Vc.exchange Ty.data c k → gatherLands s1 r p m c k bs →
  exec (.allToAllMessage p m) s = .next ((gatherTaken r p m c).settle.xchEngine p)

/-- BROADCAST_MESSAGE of a word's broadcast (R326). -/
def broadcastMessage : Prop := ∀ (s s1 : State) (p : Nat) (m : Msg) (c : Coll) (k : Comm) (bs : List Byte) (r : State), m.op = 3 → isCopy m = false → joins s s1 p m Vc.broadcast Ty.data c k →
  gatherLands s1 r p m c k bs →
  exec (.broadcastMessage p m) s = .next (((gatherTaken r p m c).xchEngine p).settle)

/-- BROADCAST_MESSAGE of a rollout copy for the install in progress, from this rank's parent in the owner's tree (R359; its message layout is log
entry 45). -/
def broadcastCopy : Prop := ∀ (s s1 : State) (p : Nat) (m : Msg) x k, isCopy m = true → hear s p m Vc.broadcast Ty.data → s1 = s.captureMsg p m →
  (s1.part p).install = some x → x.comm = m.comm → x.version = m.step → s1.installComm p x = some k →
  m.rank = k.parent (m.args.getD 0 0) k.myRank →
  exec (.broadcastMessage p m) s = .next (((s1.takeCopy p x k m).proceed p).settle)

/-- A resend request, a SEG_ACK with NAK or a DATA message with operation 7: the message sent before goes again, at most 4 times (R350). -/
def resendRequest : Prop := ∀ (s s1 : State) (p : Nat) (m : Msg) x rest, s1 = s.captureMsg p m →
  (m.vc = Vc.broadcast ∧ hear s p m Vc.broadcast Ty.data ∧ m.op = 7 ∨
    m.vc = Vc.scalar ∧ m.nak = true ∧ hear s p m Vc.scalar Ty.segAck) →
  s1.sentBefore m = x :: rest → rest.length < 4 → exec (.resendRequest p m) s = .next ((s1.send p x).settle)

/-- A value of a scalar operation that has begun here: going up it is held, and at rank 0 folded once every rank has been heard; coming down from
the parent it is delivered and goes on (R295, R326). `done` is what the operation does with its result. -/
def scalarTaken (s1 : State) (p : Nat) (m : Msg) (c : Coll) (k : Comm) (done : State → Nat → Coll → List Nat → State) : State :=
  if m.seg = 1 then
    if k.myRank ≠ 0 ∧ m.rank = k.parent 0 k.myRank then s1.scalarDone p k done c m.args else s1
  else s1.holdScalars p k done c (upValues c.width m.args.length m.args)

/-- SCALAR_VALUE_MESSAGE (R295, R326, R343, R360). -/
def scalarValueMessage : Prop := ∀ (s s1 : State) (p : Nat) (m : Msg) (c : Coll) (k : Comm), (m.op = 4 ∨ m.op = 16 ∨ m.op = MsgOp.audit) → joins s s1 p m Vc.scalar Ty.data c k →
  ¬ (c.phase = 0 ∧ (m.seg = 1 ∨ k.myRank = 0)) →
  exec (.scalarValueMessage p m) s = .next ((((scalarTaken s1 p m c k State.turnFinish).xchEngine p).proceed p).settle)

/-- BARRIER_MESSAGE (R326). -/
def barrierMessage : Prop := ∀ (s s1 : State) (p : Nat) (m : Msg) (c : Coll) (k : Comm), m.op = 5 → joins s s1 p m Vc.scalar Ty.data c k → ¬ (c.phase = 0 ∧ (m.seg = 1 ∨ k.myRank = 0)) →
  exec (.barrierMessage p m) s = .next (((scalarTaken s1 p m c k State.scalarFinish).xchEngine p).settle)

/-- EXCHANGE_COUNT_MESSAGE that is awaited and passes its CRC-64: the RECV counts of its source are written, and with the last the fit check begins
(R343). -/
def exchangeCountMessage : Prop := ∀ (s s1 : State) (p : Nat) (m : Msg) (c : Coll) (k : Comm) (bs : List Byte), m.op = 16 → joins s s1 p m Vc.exchange Ty.data c k →
  c.expect.contains (segKey m.rank 0, m.rank) = true → checkedData m = some bs →
  exec (.exchangeCountMessage p m) s = .next ((
    let n := (exD c.desc).experts
    let s2 := s1.partPut Req.link p (wordAddr c.tile (exD c.desc).counts + 4 * (k.count * n + m.rank * n)) (bs.take (4 * n))
    let c1 := { c with expect := c.expect.filter (fun x => x != (segKey m.rank 0, m.rank)), held := c.held ++ [(segKey m.rank 0, m.rank, bs)] }
    ((s2.modColl p c1.id (fun _ => c1)).countsIn p k c1).xchEngine p).settle)

/-- EXCHANGE_ROWS_MESSAGE that is awaited and passes its CRC-64: its rows land whole, r, and DONE_EV and the word follow with the last (R345,
R346). -/
def exchangeRowsMessage : Prop := ∀ (s s1 : State) (p : Nat) (m : Msg) (c : Coll) (k : Comm) (bs : List Byte) (x : Exch) (r : State), 17 ≤ m.op → m.op ≤ 20 → joins s s1 p m Vc.exchange Ty.data c k →
  s1.exchOf p c.tile c.comm c.stepNo c.desc = some x → c.expect.contains (segKey m.rank 0, m.rank) = true → checkedData m = some bs →
  s1.landRows p c (x.lands (exD c.desc) k.count c.tile c.op m.rank) bs = .ok r →
  exec (.exchangeRowsMessage p m) s = .next (((r.settleRows p x (exD c.desc) k.count
    { c with expect := c.expect.filter (fun y => y != (segKey m.rank 0, m.rank)) }).xchEngine p).settle)

/-! ### Fences, notices and batch messages -/

/-- FENCE_ARRIVAL: an inner rank forwards it; rank 0, whose own fence of that kind is open, holds it and judges once every rank is here (R328). -/
def fenceArrival : Prop := ∀ (s s1 : State) (p : Nat) (m : Msg) k, m.op = MsgOp.arrival → hear s p m Vc.control Ty.fence → s1 = s.captureMsg p m →
  s1.fenceComm p (m.args.getD 1 0) m.comm = some k →
  (k.myRank ≠ 0 → exec (.fenceArrival p m) s = .next (((s1.toRank p k (k.parent 0 k.myRank) m).proceed p).settle)) ∧
  (∀ f : Fence, k.myRank = 0 → (s1.part p).fence = some f → f.awaits m = true → f.verdict = none →
    exec (.fenceArrival p m) s = .next (((s1.judgeFence p k (f.hold (m.args.headD 0) (m.args.drop 2))).proceed p).settle))

/-- FENCE_RELEASE for the fence at which this rank waits: it goes on down the tree, and its verdict is this rank's (R328). -/
def fenceRelease : Prop := ∀ (s s1 : State) (p : Nat) (m : Msg) (f : Fence) (k : Comm), m.op = MsgOp.release → hear s p m Vc.control Ty.fence → s1 = s.captureMsg p m →
  (s1.part p).fence = some f → f.comm = m.comm → f.kind = m.args.getD 1 9 → f.verdict = none → s1.fenceComm p f.kind f.comm = some k →
  k.myRank ≠ 0 →
  exec (.fenceRelease p m) s = .next ((((s1.sendRelease p k (m.args.headD 0) { f with key := m.args.drop 2 }).modPart p (fun x =>
    { x with fence := some { f with verdict := some (m.args.headD 0) } })).proceed p).settle)

/-- NOTICE of a communicator of the partition: RED_DECLARED shows it where it names this rank, and every step of the partition stops with
PEER_FAILED, or DECLARED_FAILED on the named device (R299). -/
def notice : Prop := ∀ (s s1 : State) (p : Nat) (m : Msg) k, hear s p m Vc.control Ty.notice → s1 = s.captureMsg p m → (s1.part p).cfg.comm m.comm = some k →
  exec (.notice p m) s = .next (((((if m.args.headD 0 == k.myRank then s1.showDeclared p 1 k.id (m.args.headD 0) else s1).peerStop p k.id
    (k.ranks.getD (m.args.headD 0) 0) (m.args.headD 0 == k.myRank)).settle).proceed p).settle)

/-- BATCH_RECORD_MESSAGE: the record is appended, and the answer gives OK, or POOL_FULL where there is no room (R356). -/
def batchRecordMessage : Prop := ∀ (s s1 : State) (p : Nat) (m : Msg), m.op = MsgOp.batch → hear s p m Vc.broadcast Ty.data → s1 = s.captureMsg p m →
  exec (.batchRecordMessage p m) s = .next (((s1.poolAdd p m.comm m.data).1.send p
    { Msg.empty with dst := m.src, vc := Vc.broadcast, ty := Ty.data, comm := m.comm, op := MsgOp.batchAnswer, step := m.step,
                     args := [if (s1.poolAdd p m.comm m.data).2 then Status.ok else Status.poolFull] }).settle)

/-- BATCH_ANSWER_MESSAGE: the oldest BATCH_PUT to the answering device completes with the outcome (R356). -/
def batchAnswerMessage : Prop := ∀ (s s1 : State) (p : Nat) (m : Msg) id, m.op = MsgOp.batchAnswer → hear s p m Vc.broadcast Ty.data → s1 = s.captureMsg p m →
  (s1.part p).putWait.find? (fun id => (s1.cmd id).any (fun c => c.arg 21 20 == m.src)) = some id →
  exec (.batchAnswerMessage p m) s = .next ((s1.answerPut p id (m.args.headD 0)).settle)

/-- BATCH_ANSWER_TIMEOUT: the oldest BATCH_PUT without an answer completes with PEER_FAILED, and no rank is declared (R356). -/
def batchAnswerTimeout : Prop := ∀ s p id rest, (s.part p).putWait = id :: rest →
  exec (.batchAnswerTimeout p) s = .next ((s.answerPut p id Status.peerFailed).settle)

/-- CLOSE_VALUE_MESSAGE: each lockstep bay of the communicator whose barrier is open starts its close and holds the member's step (R392). -/
def closeValueMessage : Prop := ∀ (s s1 : State) (p : Nat) (m : Msg), m.op = MsgOp.closeValue → hear s p m Vc.control Ty.fence → s1 = s.captureMsg p m →
  exec (.closeValueMessage p m) s = .next (((s1.lockBays p m.comm).foldl (fun s b =>
    if s.fget .seqBarrier b = 1 then s else (s.dueClose p b false).holdClose b m.rank (m.args.getD 1 0)) s1).settle)

/-- SEQUENCE_GROUP_MESSAGE for a sequence held here away from its home: tokens, length and end take effect, or wait for the boundary of the step
that runs (R393). -/
def sequenceGroupMessage : Prop := ∀ (s s1 : State) (p : Nat) (m : Msg) b, m.op = MsgOp.group → hear s p m Vc.scalar Ty.data → s1 = s.captureMsg p m →
  s1.groupBay p m = some b →
  exec (.sequenceGroupMessage p m) s = .next ((if (s1.bay b).stepping then s1.modPart p (fun x => { x with early := x.early ++ [m] })
    else s1.takeGroup p b m).settle)

/-- REPLICA_FETCH_REQUEST for a segment of this device's own copy: it goes back to the requester (R359). -/
def replicaFetchRequest : Prop := ∀ (s s1 : State) (p : Nat) (m : Msg) dlen bs, m.op = MsgOp.fetch → hear s p m Vc.broadcast Ty.data → s1 = s.captureMsg p m →
  s1.ownCopy p (m.args.getD 1 0) = some (dlen, bs) →
  exec (.replicaFetchRequest p m) s = .next ((s1.send p { Msg.empty with dst := m.src, vc := Vc.broadcast, ty := Ty.data, comm := m.comm, op := MsgOp.fetchData, step := m.step, args := [m.args.getD 0 0, m.args.getD 1 0, dlen], data := withCrc bs }).settle)

/-! ### Timers that declare a rank failed -/

/-- The next state of a declaration (R299). -/
abbrev declared (s : State) (p : Nat) (k : Comm) (rank : Nat) : Host.Outcome State Fault Refusal := .next (s.declare p k rank)

/-- OWNER_WAIT_TIMEOUT: RED_WAIT_MAX shows the wait, and the awaited rank is declared failed (R297). -/
def ownerWaitTimeout : Prop := ∀ s p comm opNo seg k c rank, s.timed p comm opNo liveRed = some (k, c) → s.lateRank p k c seg = some rank →
  exec (.ownerWaitTimeout p comm opNo seg) s = declared (s.noteWait c.bay k.wait) p k rank

/-- SENDER_GRANT_TIMEOUT with a segment ready for the owner and no grant: the owner is declared failed (R298). -/
def senderGrantTimeout : Prop := ∀ s p comm opNo owner k (c : Coll), s.timed p comm opNo liveRed = some (k, c) →
  (c.toSend.any (fun x => x.2.1 == owner && !c.grants.contains (x.1, owner) && !c.sent.contains (x.1, owner))) = true →
  exec (.senderGrantTimeout p comm opNo owner) s = declared s p k owner

/-- ORPHAN_TIMEOUT: the orphan reduction closes (R281). -/
def orphanTimeout : Prop := ∀ s p comm opNo k (c : Coll), s.timed p comm opNo (fun c => c.orphan) = some (k, c) →
  exec (.orphanTimeout p comm opNo) s = .next ((s.modPart p (fun x => { x with colls := x.colls.filter (fun d => d.id != c.id) })).proceed p)

/-- BARRIER_UP_TIMEOUT at rank 0 of a scalar operation: the lowest silent rank is declared failed (R327). -/
def barrierUpTimeout : Prop := ∀ s p comm opNo k (c : Coll) r, s.timed p comm opNo isScalar = some (k, c) → k.myRank = 0 →
  lowestSilent k (c.vals.map Prod.fst) = some r → exec (.barrierUpTimeout p comm opNo) s = declared s p k r

/-- BARRIER_UP_TIMEOUT at rank 0 of an open fence (R328). -/
def fenceUpTimeout : Prop := ∀ s p comm opNo k (f : Fence) r, s.timed p comm opNo isScalar = none → s.openFenceOn p comm = some (k, f) → k.myRank = 0 →
  lowestSilent k (f.seen.map Prod.fst) = some r → exec (.barrierUpTimeout p comm opNo) s = declared s p k r

/-- RELEASE_WAIT_TIMEOUT of a rank that has arrived: rank 0 is declared failed (R327). -/
def releaseWaitTimeout : Prop := ∀ s p comm opNo k (c : Coll), s.timed p comm opNo isScalar = some (k, c) → k.myRank ≠ 0 →
  exec (.releaseWaitTimeout p comm opNo) s = declared s p k 0

/-- GATHER_RECEIVE_TIMEOUT: of the owners whose segments are missing, the one whose d x WAIT_LIMIT passes first counts, and the rank that the
receiver awaits for it, its tree parent, is declared failed (R349). -/
def gatherReceiveTimeout : Prop := ∀ s p comm opNo k (c : Coll) o,
  s.timed p comm opNo (fun c => (c.op == 1 || c.op == 3) && c.expect != []) = some (k, c) →
  k.soonest (c.expect.map (fun e => keyOwner e.1)) = some o →
  exec (.gatherReceiveTimeout p comm opNo) s = declared s p k (k.parent o k.myRank)

/-- EXCHANGE_RECEIVE_TIMEOUT: the lowest source whose message is missing is declared failed (R349). -/
def exchangeReceiveTimeout : Prop := ∀ s p comm opNo k c r,
  s.timed p comm opNo (fun c => (c.op == 2 || (decide (16 ≤ c.op) && decide (c.op < 24))) && c.expect != []) = some (k, c) →
  (c.expect.map Prod.snd).min? = some r → exec (.exchangeReceiveTimeout p comm opNo) s = declared s p k r

/-- CLOSE_AGREEMENT_TIMEOUT of a closing lockstep bay: the lowest member that has sent no value is declared failed (R392). -/
def closeAgreementTimeout : Prop := ∀ s b p k r, s.partOfBay b = some p → (s.bay b).closing = true → s.fget .seqLockstep b ≠ 0 →
  (s.part p).cfg.comm (s.fget .seqLockComm b) = some k → lowestSilent k ((s.bay b).closeVals.map Prod.fst) = some r →
  exec (.closeAgreementTimeout b) s = declared s p k r

/-! ### Commands of the host

`d` is the descriptor fetched from ring `ring` of function `fn`, `k` what its row fixes for the checks of R528, `c` the command accepted, `s1`
the machine that has accepted and started it. -/

/-- The fetched descriptor is of row k, passes every check of R528, and is command c in machine s1. -/
abbrev starts (s : State) (fn ring : Nat) (d : BitVec 512) (k : Spec) (c : Cmd) (s1 : State) : Prop :=
  s.accepts fn ring d k ∧ s.taken fn ring k.partNo d = (c, s1)

/-- Command c reads its n source bytes bs at address a: from host memory where `host` says so, whole and, of a confidential partition,
verified; else from device memory that its partition may read. `s2` is the machine after the read. -/
abbrev reads (s1 s2 : State) (c : Cmd) (host : Bool) (a n : Nat) (bs : List Byte) : Prop :=
  host = true ∧ s1.hostTake c a n = (bs, true, s2) ∨
    host = false ∧ s1.dataFault c.part a n = none ∧ bs = s1.partRead c.part a n ∧ s2 = s1

/-- NOP completes OK (R438). -/
def nop : Prop := ∀ (s s1 : State) (fn ring : Nat) (d : BitVec 512) (c : Cmd), starts s fn ring d ⟨0x00, true, 0xFF, dZero d 63 16, true⟩ c s1 →
  exec (.nop fn ring) s = .next ((s1.complete c Status.ok 0 0).settle)

/-- A descriptor of no row completes BAD_OPCODE (R528). -/
def reservedOpcode : Prop := ∀ (s : State) (fn ring : Nat) (d : BitVec 512), s.fetchable fn ring = true → s.slotDesc fn ring = some d →
  opDefined (dField d 0 0) = false → (s.popSlot fn ring).safe = false →
  exec (.reservedOpcode fn ring) s =
    .next (((s.popSlot fn ring).reply fn ring (s.fget .sqHead (ringIdx fn ring)) d 0xFF Status.badOpcode 0 0).settle)

/-- PROG_LOAD with no step running writes its command words into every program store it names, and the entries it carries (R155, R439). -/
def progLoad : Prop := ∀ (s s1 s2 : State) (fn ring : Nat) (d : BitVec 512) (c : Cmd) (bs : List Byte),
  starts s fn ring d ⟨0x10, pfOrVf fn (dField d 16 16), dField d 16 16,
    s.partDefined (dField d 16 16) && dField d 17 17 % 2 == 0 && decide (dField d 17 17 < 32) && decide (dField d 19 19 < 2) &&
      dZero d 23 20 && dZero d 63 40 && decide (1 ≤ dField d 35 34) && decide (dField d 33 32 + dField d 35 34 ≤ 16384) &&
      (dField d 18 18 == 0xFF || (dField d 17 17 == 0 && s.mapped (dField d 18 18) && s.holds (dField d 16 16) (dField d 18 18 / 8))), false⟩ c s1 →
  (s.popSlot fn ring).pfBarred fn (dField d 16 16) = false → s1.stepRuns c.part = false →
  s1.hostTake c (c.arg 31 24) (16 * c.arg 35 34) = (bs, true, s2) →
  exec (.progLoad fn ring) s = .next ((
    let s3 := (s2.progTiles c.desc).foldl (fun s t => s.loadProg t (c.arg 33 32) bs) s2
    let s4 := if bitOf (c.arg 19 19) 0 then s3.modPart c.part (fun x => { x with decodeEntry := c.arg 37 36, draftEntry := c.arg 39 38 }) else s3
    s4.complete c Status.ok 0 0).settle)

/-- LEARN_STEP launches where none runs and nothing refuses it (R156, R440). -/
def learnStep : Prop := ∀ (s s1 : State) (fn ring : Nat) (d : BitVec 512) (c : Cmd),
  starts s fn ring d ⟨0x11, pfOrVf fn (dField d 16 16), dField d 16 16, s.partDefined (dField d 16 16) && dZero d 23 17 && dZero d 63 48, false⟩ c s1 →
  (s.popSlot fn ring).learnRefusal (dField d 16 16) (s.popSlot fn ring).nextCmd = 0 → s1.learnWaits c = false →
  s1.learnRefusal c.part c.id = 0 →
  exec (.learnStep fn ring) s = .next ((s1.launchLearn c).settle.settle)

/-- WEIGHT_LOAD to a destination that the partition may write is on its way, and where it asks for a boundary the barrier of every bay is due to close (R442). -/
def weightLoad : Prop := ∀ (s s1 : State) (fn ring : Nat) (d : BitVec 512) (c : Cmd),
  starts s fn ring d ⟨0x12, pfOrVf fn (dField d 16 16), dField d 16 16,
    s.partDefined (dField d 16 16) && decide (dField d 17 17 < 4) && dZero d 19 18 && dZero d 63 48 && (bitOf (dField d 17 17) 1 || dField d 23 20 == 0), false⟩ c s1 →
  (s.popSlot fn ring).weightRefusal fn d = 0 → s1.accessFault c.part (c.arg 39 32) (c.arg 47 40) true = none →
  exec (.weightLoad fn ring) s = .next ((
    let s2 := s1.modCmd c.id (fun c => { c with stage := 1 })
    if bitOf (c.arg 17 17) 0 then (s2.baysOf c.part).foldl (fun s b => s.dueClose c.part b false) s2 else s2).settle.proceedAll)

/-- FILL writes its pattern over an aligned range of HBM or LPDDR5X that the partition may write; a page table is filled only while
its bays are idle (R441, R413). -/
def fill : Prop := ∀ (s s1 : State) (fn ring : Nat) (d : BitVec 512) (c : Cmd),
  starts s fn ring d ⟨0x13, fn == 0, dField d 16 16, s.partDefined (dField d 16 16) && dZero d 23 17 && dZero d 63 48, true⟩ c s1 →
  c.arg 31 24 % 64 = 0 → c.arg 39 32 % 64 = 0 → s1.accessFault c.part (c.arg 31 24) (c.arg 39 32) true = none →
  inDram (c.arg 31 24) (c.arg 39 32) = true → (s1.touchesTable c.part (c.arg 31 24) (c.arg 39 32) && !s1.tablesIdle c.part) = false →
  exec (.fill fn ring) s = .next ((((s1.fillPieces (c.arg 47 40) (s1.pieces c.part (c.arg 31 24) (c.arg 39 32) true)).countSpill c.part
    (c.arg 31 24) (c.arg 39 32)).complete c Status.ok 0 0).settle)

/-- IMAGE_STAGE of an image that passes its checks: the report is written, the image held under the next handle, the handle the result (R65). -/
def imageStage : Prop := ∀ (s s1 : State) (fn ring : Nat) (d : BitVec 512) (c : Cmd),
  starts s fn ring d ⟨0x40, fn == 0, 0xFF, decide (dField d 28 28 < 2) && dZero d 31 29 && decide (16 ≤ dField d 43 40) && dZero d 63 44, true⟩ c s1 →
  s1.images.length < 16 → (s1.checkImage (s1.hostRead (c.arg 23 16) (c.arg 27 24)) (c.arg 27 24) (bitOf (c.arg 28 28) 0)).ok = true →
  exec (.imageStage fn ring) s = .next ((
    let bs := s1.hostRead (c.arg 23 16) (c.arg 27 24)
    let k := s1.checkImage bs (c.arg 27 24) (bitOf (c.arg 28 28) 0)
    let s2 := s1.hostWrite (c.arg 39 32) (reportBytes s1.nextHandle (c.arg 43 40) k)
    let g : Staged := { handle := s1.nextHandle, addr := c.arg 23 16, len := c.arg 27 24, digest := sha256 bs, report := k.report.flatMap Entry.bytes,
                        isPart := k.isPart, baySet := k.bays, tileReq := k.tiles, masks := k.masks, cfg := k.cfg }
    ({ s2 with images := s2.images ++ [g], nextHandle := s2.nextHandle + 1 }).complete c
      (if k.report = [] then Status.ok else Status.clamped) s1.nextHandle 0).settle)

/-- IMAGE_APPLY that nothing refuses joins the loader's jobs, and starts where none stands before it (R68 to R71). -/
def imageApply : Prop := ∀ (s s1 s2 : State) (fn ring : Nat) (d : BitVec 512) (c : Cmd), starts s fn ring d (applySpec s fn d) c s1 →
  (s.applyLater d).1 = 0 → ((s.popSlot fn ring).applyLater d).1 = 0 →
  s1.queueJob { (jobOf 0 c.id (c.arg 20 20) (c.arg 39 32) (c.arg 23 22)) with sparge := bitOf (c.arg 21 21) 0, enterLearn := bitOf (c.arg 21 21) 1 }
    = (s2, none) →
  exec (.imageApply fn ring) s = .next (s2.settle.proceedAll)

/-- IMAGE_RELEASE drops a staged image that no open turn names (R67). -/
def imageRelease : Prop := ∀ (s s1 : State) (fn ring : Nat) (d : BitVec 512) (c : Cmd),
  starts s fn ring d ⟨0x42, fn == 0, 0xFF, dZero d 31 16 && dZero d 63 40 && (s.image (dField d 39 32)).isSome, true⟩ c s1 →
  (s.popSlot fn ring).handleHeld (dField d 39 32) = false →
  exec (.imageRelease fn ring) s =
    .next ((({ s1 with images := s1.images.filter (fun g => g.handle != c.arg 39 32) }).complete c Status.ok 0 0).settle)

/-- SEQ_SUBMIT in ROLLOUT: its descriptors are read and queued one after another up to the first that fails, and it completes with that status
and how many were queued (R368, R389). -/
def seqSubmit : Prop := ∀ (s s1 : State) (fn ring : Nat) (d : BitVec 512) (c : Cmd),
  starts s fn ring d ⟨0x50, pfOrVf fn (dField d 16 16), dField d 16 16,
    s.partDefined (dField d 16 16) && s.holds (dField d 16 16) (dField d 17 17) && decide (1 ≤ dField d 19 18) && decide (dField d 19 18 ≤ 1024) &&
      dZero d 23 20 && dZero d 63 32, false⟩ c s1 →
  (s.popSlot fn ring).fget .turnPhase (dField d 16 16) = Phase.rollout →
  exec (.seqSubmit fn ring) s = .next ((
    let x := State.submit c (c.arg 16 16) (c.arg 17 17) (c.arg 19 18) s1 0
    x.1.complete c x.2.1 x.2.2 0).settle)

/-- SEQ_CANCEL of a sequence whose bay runs no step acts at once; where a step runs it waits for the boundary (R390). -/
def seqCancel : Prop := ∀ (s s1 : State) (fn ring : Nat) (d : BitVec 512) (c : Cmd) (b : Nat) (q : Seq),
  starts s fn ring d ⟨0x51, pfOrVf fn (dField d 16 16), dField d 16 16, s.partDefined (dField d 16 16) && dZero d 19 17 && dZero d 63 24, false⟩ c s1 →
  s1.bayOfSeq (c.arg 16 16) (c.arg 23 20) = some b →
  ((s1.bay b).live ++ (s1.bay b).queue).find? (fun q => q.id == c.arg 23 20) = some q →
  exec (.seqCancel fn ring) s = .next ((
    if (s1.bay b).stepping then s1.modBay b (fun x => { x with cancels := x.cancels ++ [(c.arg 23 20, c.id)] })
    else (s1.cancelNow (c.arg 16 16) b q).complete c Status.ok 0 0).settle)

/-- KV_EDIT of a live sequence acts at once where its bay runs no step, and joins the edit queue where one runs (R410, R411). -/
def kvEdit : Prop := ∀ (s s1 : State) (fn ring : Nat) (d : BitVec 512) (c : Cmd) (b : Nat) (q : Seq),
  starts s fn ring d ⟨0x52, pfOrVf fn (dField d 16 16), dField d 16 16,
    s.partDefined (dField d 16 16) && decide (dField d 17 17 ≤ 1) && dZero d 19 18 && dZero d 63 28 &&
      decide (1 ≤ dField d 27 24) && decide (dField d 27 24 ≤ s.maxContext (dField d 16 16) (dField d 23 20)), false⟩ c s1 →
  s1.liveSeq (c.arg 16 16) (c.arg 23 20) = some (b, q) → ((s1.bay b).stepping = true → (s1.bay b).edits.length < 256) →
  exec (.kvEdit fn ring) s = .next ((
    let e := (c.id, c.arg 17 17, c.arg 23 20, c.arg 27 24)
    if (s1.bay b).stepping then s1.modBay b (fun x => { x with edits := x.edits ++ [e] }) else s1.applyEdit (c.arg 16 16) b e).settle)

/-- TURN_BEGIN that nothing refuses opens the turn: PHASE is TURN_IN, STEP 1, and every bay's barrier is due to close (R17, R22). -/
def turnBegin : Prop := ∀ (s s1 : State) (fn ring : Nat) (d : BitVec 512) (c : Cmd),
  starts s fn ring d (s.turnSpec fn 0x60 d (decide (dField d 21 21 < 2) && dZero d 27 26 && dZero d 63 40 && (s.image (dField d 39 32)).isSome)) c s1 →
  (s.popSlot fn ring).beginRefusal d = 0 → s1.beginRefusal c.desc = 0 →
  exec (.turnBegin fn ring) s = .next ((
    let p := c.part
    let x := s1.part p
    let t : Turn :=
      { turnId := c.arg 19 16, comm := c.arg 25 24, keepOld := bitOf (c.arg 21 21) 0, learnEpoch := c.arg 23 22, learnImage := c.arg 39 32,
        oldEpoch := s1.fget .turnLayoutEpoch p, oldCfg := x.cfg,
        oldDigest := (List.range 8).flatMap (fun n => leBytes 4 (s1.fget .ldrDigest (8 * p + n))), version := c.arg 31 28, rolloutEpoch := 0,
        rolloutImage := 0, newVersion := 0, abandonOpen := false, begin_ := c.id, commit := 0, abandon := 0, kept := false, gone := [],
        stage := 0 }
    let s2 := s1.modPart p (fun x => { x with turn := some t })
    let s3 := ((s2.fset .turnTurnId p t.turnId).fset .turnStep p 1).fset .turnPhase p Phase.turnIn
    (s3.baysOf p).foldl (fun s b => s.dueClose p b true) s3).settle.proceedAll)

/-- TURN_COMMIT that nothing refuses is noted in the open turn, which goes on to TURN_OUT by itself; a barrier that an earlier mismatch reopened is
due to close again (R24, R25). -/
def turnCommit : Prop := ∀ (s s1 : State) (fn ring : Nat) (d : BitVec 512) (c : Cmd),
  starts s fn ring d (s.turnSpec fn 0x61 d (decide (dField d 21 21 < 2) && dZero d 27 24 && dZero d 63 40 && (s.image (dField d 39 32)).isSome)) c s1 →
  (s.popSlot fn ring).commitRefusal d = 0 → s1.commitRefusal c.desc = 0 →
  exec (.turnCommit fn ring) s = .next ((
    let s2 := s1.modTurn c.part (fun t => { t with
      rolloutEpoch := c.arg 23 22, rolloutImage := c.arg 39 32, newVersion := c.arg 31 28, abandonOpen := bitOf (c.arg 21 21) 0, commit := c.id })
    (s2.baysOf c.part).foldl (fun s b => s.dueClose c.part b false) s2).settle.proceedAll)

/-- TURN_ABANDON that nothing refuses: PHASE is ABANDONING; in step 5 learn steps that wait complete ABORTED, and so does a TURN_COMMIT that
waits for them (R29, R30; log entry 128). -/
def turnAbandon : Prop := ∀ (s s1 : State) (fn ring : Nat) (d : BitVec 512) (c : Cmd), starts s fn ring d (s.turnSpec fn 0x62 d (dZero d 63 21)) c s1 →
  (s.popSlot fn ring).abandonRefusal d = 0 → s1.abandonRefusal c.desc = 0 →
  exec (.turnAbandon fn ring) s = .next ((
    let p := c.part
    let s2 := (s1.modTurn p (fun t => { t with abandon := c.id })).fset .turnPhase p Phase.abandoning
    if s2.fget .turnStep p = 5 then
      let s3 := (s2.cmds.filter (fun d => d.part == p && d.op == 0x11 && !d.started)).foldl (fun s d => s.complete d Status.aborted 0 0) s2
      match (s3.part p).turn with
      | some t => if t.commit = 0 ∨ t.stage = 9 then s3 else (s3.modTurn p (fun t => { t with commit := 0 })).finish t.commit Status.aborted 0 0
      | none => s3
    else s2).settle.proceedAll)

/-- COMM_REJOIN that nothing refuses applies its image as a job of the loader (R351). -/
def commRejoin : Prop := ∀ (s s1 s2 : State) (fn ring : Nat) (d : BitVec 512) (c : Cmd),
  starts s fn ring d ⟨0x66, fn == 0, dField d 16 16, s.partDefined (dField d 16 16) && dZero d 23 20 && dZero d 63 40 &&
    (s.image (dField d 39 32)).any (fun g => (g.cfg.comm (dField d 17 17)).isSome), false⟩ c s1 →
  (s.popSlot fn ring).rejoinRefusal d = 0 → s1.rejoinRefusal c.desc = 0 →
  (((s1.image (c.arg 39 32)).map (fun g => (s1.applyRefusal g c.part (c.arg 19 18) false).1)).getD 0) = 0 →
  s1.queueJob (jobOf 3 c.id c.part (c.arg 39 32) (c.arg 19 18)) = (s2, none) →
  exec (.commRejoin fn ring) s = .next (s2.settle.proceedAll)

/-- BATCH_PUT of a record that can be read: appended to the partition's own pool, or sent to the device it names, whose answer completes it
(R356). -/
def batchPut : Prop := ∀ (s s1 s2 : State) (fn ring : Nat) (d : BitVec 512) (c : Cmd) (bs : List Byte),
  starts s fn ring d ⟨0x67, pfOrVf fn (dField d 16 16), dField d 16 16,
    s.partDefined (dField d 16 16) && decide (dField d 18 18 < 4) && dZero d 19 19 && dZero d 23 22 && dZero d 63 36 &&
      decide (64 ≤ dField d 35 32) && decide (dField d 35 32 ≤ 2 ^ 22), false⟩ c s1 →
  (bitOf (dField d 18 18) 1 && (s.popSlot fn ring).pfBarred fn (dField d 16 16)) = false →
  reads s1 s2 c (bitOf (c.arg 18 18) 1) (c.arg 31 24) (c.arg 35 32) bs →
  exec (.batchPut fn ring) s = .next ((
    if bitOf (c.arg 18 18) 0 then
      (s2.modPart c.part (fun x => { x with putWait := x.putWait ++ [c.id] })).send c.part
        { Msg.empty with dst := c.arg 21 20, vc := Vc.broadcast, ty := Ty.data, comm := c.arg 17 17, op := MsgOp.batch,
                         step := recordVersion bs, data := bs }
    else
      let x := s2.poolAdd c.part (c.arg 17 17) bs
      x.1.complete c (if x.2 then Status.ok else Status.poolFull) 0 0).settle)

/-- POLICY_SWAP that nothing refuses is the partition's open refresh; where its bays cannot all flip, their barriers are due to close (R395,
R396). -/
def policySwap : Prop := ∀ (s s1 : State) (fn ring : Nat) (d : BitVec 512) (c : Cmd),
  starts s fn ring d ⟨0x68, pfOrVf fn (dField d 16 16), dField d 16 16, s.partDefined (dField d 16 16) && decide (dField d 17 17 < 2) && dZero d 19 19 &&
    dZero d 63 24 && ((s.part (dField d 16 16)).cfg.comm (dField d 18 18)).isSome, false⟩ c s1 →
  (s.popSlot fn ring).swapRefusal d = 0 → s1.swapRefusal c.desc = 0 →
  exec (.policySwap fn ring) s = .next ((
    let p := c.part
    let s2 := s1.modPart p (fun x => { x with refresh := some (refreshOf c false) })
    let s3 := (s2.baysOf p).foldl (fun s b => s.fset .seqSwapOpen b 1) s2
    if s3.allFlip p then s3 else (s3.baysOf p).foldl (fun s b => s.dueClose p b false) s3).settle.proceedAll)

/-- POLICY_PUBLISH that nothing refuses is the partition's open refresh, and the install kettles run (R394). -/
def policyPublish : Prop := ∀ (s s1 : State) (fn ring : Nat) (d : BitVec 512) (c : Cmd),
  starts s fn ring d ⟨0x69, fn == 0, dField d 16 16, s.partDefined (dField d 16 16) && dZero d 17 17 && dZero d 19 19 && dZero d 63 24 &&
    ((s.part (dField d 16 16)).cfg.comm (dField d 18 18)).isSome, false⟩ c s1 →
  (s.popSlot fn ring).publishRefusal d = 0 → s1.publishRefusal c.desc = 0 →
  exec (.policyPublish fn ring) s =
    .next (((s1.modPart c.part (fun x => { x with refresh := some (refreshOf c true) })).startKettles c.part 2 0 0).settle.proceedAll)

/-- MOVE with a place free among the 32 moves, and none before it that waits for one: its legal descriptor is in flight (R218, R221). -/
def move : Prop := ∀ (s s1 s2 : State) (fn ring : Nat) (d : BitVec 512) (c : Cmd) (bs : List Byte),
  starts s fn ring d (s.tierSpec fn 0x70 d (dZero d 23 17 && dZero d 63 32)) c s1 → s1.movePlace c = true →
  (s1.modCmd c.id (fun c => { c with stage := 0 })).hostTake c (c.arg 31 24) 64 = (bs, true, s2) → (moveD (BitVec.ofNat 512 (leNat bs))).legal (s2.part c.part).cfg true = true →
  (((moveD (BitVec.ofNat 512 (leNat bs))).st == 4 || (moveD (BitVec.ofNat 512 (leNat bs))).dt == 4) && s2.pfBarred c.fn c.part) = false →
  s2.moveAddrs c.part (moveD (BitVec.ofNat 512 (leNat bs))) = none →
  exec (.move fn ring) s = .next ((
    let m := moveD (BitVec.ofNat 512 (leNat bs))
    s2.addMove 96 2 c.id (BitVec.ofNat 512 (leNat bs)) m.src m.dst 0).settle)

/-- STATE_MOVE starts one move for each pair of optimiser regions; with none it completes OK (R228). -/
def stateMove : Prop := ∀ (s s1 : State) (fn ring : Nat) (d : BitVec 512) (c : Cmd),
  starts s fn ring d (s.tierSpec fn 0x71 d (decide (dField d 17 17 < 2) && dZero d 63 18)) c s1 →
  (s.popSlot fn ring).stateMoveRefusal (dField d 16 16) = 0 → s1.stateMoveRefusal c.part = 0 →
  exec (.stateMove fn ring) s = .next ((
    if ((s1.part c.part).cfg.parkPairs).isEmpty then s1.complete c Status.ok 0 0 else s1.startPark c.part c.id (c.arg 17 17 == 1)).settle)

/-- CKPT_WRITE that nothing refuses is the partition's flash command: the trim of its target slot's trailer has begun, so the slot holds no valid
generation from now on (R232, R235). -/
def ckptWrite : Prop := ∀ (s s1 : State) (fn ring : Nat) (d : BitVec 512) (c : Cmd),
  starts s fn ring d (s.tierSpec fn 0x72 d (((s.part (dField d 16 16)).cfg.comm (dField d 17 17)).isSome && dZero d 23 18 && dZero d 63 32)) c s1 →
  (s.popSlot fn ring).ckptRefusal d = 0 → (s1.part c.part).flash = none →
  exec (.ckptWrite fn ring) s = .next ((
    let f : Flash := { kind := 0, cmd := c.id, stage := 0, slot := s1.targetSlot c.part 0, step := c.arg 31 24, comm := c.arg 17 17, rank := 0,
                       data := [], missing := [], buddyOk := false, parked := s1.parkedNow c.part }
    let s2 := (s1.devZero (flashBase + s1.trailerAt c.part f.slot) pageBytes).showSlots c.part
    (s2.modPart c.part (fun x => { x with flash := some f })).fset .flashCkptState c.part (if f.parked then 2 else 1)).settle)

/-- CKPT_LOAD of the device's own generation from a slot that holds it takes its segments: with none bad they go to the optimiser state, else the
second copy is asked for the bad ones. A REMOTE load, or one with no such slot, asks the first device that may hold the copy (R234). -/
def ckptLoad : Prop := ∀ (s s1 : State) (fn ring : Nat) (d : BitVec 512) (c : Cmd) (k : Comm),
  starts s fn ring d (s.tierSpec fn 0x73 d (((s.part (dField d 16 16)).cfg.comm (dField d 17 17)).isSome && decide (dField d 18 18 < 2) &&
    dZero d 19 19 && dZero d 63 32 && (dField d 18 18 == 0 ||
      ((s.part (dField d 16 16)).cfg.comm (dField d 17 17)).any (fun k => decide (dField d 23 20 < k.count))))) c s1 →
  (s.popSlot fn ring).turning (dField d 16 16) = false →
  ((s.popSlot fn ring).part (dField d 16 16)).flash.any (fun f => decide (f.kind ≤ 1)) = false → (s1.part c.part).flash = none →
  (s1.part c.part).cfg.comm (c.arg 17 17) = some k →
  exec (.ckptLoad fn ring) s = .next ((
    let remote := c.arg 18 18 == 1
    let rank := if remote then c.arg 23 20 else k.myRank
    let s2 := s1.fset .flashCkptState c.part 3
    let f : Flash := { kind := 1, cmd := c.id, stage := 1, slot := 0, step := c.arg 31 24, comm := k.id, rank := rank, data := [], missing := [],
                       buddyOk := false, parked := s1.parkedNow c.part }
    match (if remote then none else s2.slotOfStep c.part 0 (c.arg 31 24)) with
    | some slot =>
      let gs := (List.range (trailerSegs (s2.trailer c.part slot))).map (fun i => (i, s2.slotSegment c.part slot i))
      let bad := (gs.filter (fun g : Nat × List Byte × Nat => crc64 g.2.1 != g.2.2)).map Prod.fst
      let data := gs.flatMap (fun g : Nat × List Byte × Nat => g.2.1)
      let f1 := { f with slot := slot, step := trailerStep (s2.trailer c.part slot), data := data, missing := bad }
      let s3 := ((s2.flashReads c.part (slot - (s2.nsRange c.part).1) data).modPart c.part (fun x => { x with flash := some f1 })).fset
        .flashProgress c.part (data.length / 2 ^ 30)
      if bad.isEmpty then s3.loadDone c.part else s3.askSecond c.part f1
    | none =>
      (s2.modPart c.part (fun x => { x with flash := some f })).askCopy c.part f k (if remote then k.holder rank else k.buddy) 2 []).settle)

/-- FLASH_WRITE of bytes that can be read, within the namespace: they are on their way to the flash (R236). -/
def flashWrite : Prop := ∀ (s s1 s2 : State) (fn ring : Nat) (d : BitVec 512) (c : Cmd) (bs : List Byte),
  starts s fn ring d (s.tierSpec fn 0x74 d (decide (dField d 17 17 < 2) && dZero d 23 18 && dZero d 63 48 &&
    s.beyondSlots (dField d 16 16) (dField d 39 32) (dField d 47 40))) c s1 →
  (dField d 17 17 == 1 && (s.popSlot fn ring).pfBarred fn (dField d 16 16)) = false → (s.popSlot fn ring).fget .flashReadOnly 0 ≠ 1 →
  (s.popSlot fn ring).fget .pwrSag 0 ≠ 1 → dField d 39 32 + dField d 47 40 ≤ ((s.popSlot fn ring).nsRange (dField d 16 16)).2 →
  (s1.part c.part).flash = none → reads s1 s2 c (bitOf (c.arg 17 17) 0) (c.arg 31 24) (c.arg 47 40) bs → (s2.part c.part).flash = none →
  exec (.flashWrite fn ring) s = .next ((s2.modPart c.part (fun x => { x with flash := some { Flash.base with
    slot := (s2.nsRange c.part).1 + c.arg 39 32, data := bs, cmd := c.id } })).settle)

/-- FLASH_TRIM of a range within the namespace is the partition's flash command (R236). -/
def flashTrim : Prop := ∀ (s s1 : State) (fn ring : Nat) (d : BitVec 512) (c : Cmd),
  starts s fn ring d (s.tierSpec fn 0x75 d (dZero d 23 17 && dZero d 63 40 && s.beyondSlots (dField d 16 16) (dField d 31 24) (dField d 39 32))) c s1 →
  dField d 31 24 + dField d 39 32 ≤ ((s.popSlot fn ring).nsRange (dField d 16 16)).2 → (s1.part c.part).flash = none →
  exec (.flashTrim fn ring) s = .next ((s1.modPart c.part (fun x => { x with flash := some { Flash.base with
    kind := 3, slot := (s1.nsRange c.part).1 + c.arg 31 24, missing := [c.arg 39 32], cmd := c.id } })).settle)

/-- NS_CLEAR is the partition's flash command over the whole namespace (R460, R477). -/
def nsClear : Prop := ∀ (s s1 : State) (fn ring : Nat) (d : BitVec 512) (c : Cmd),
  starts s fn ring d ⟨0x86, fn == 0, dField d 16 16, s.partDefined (dField d 16 16) && dZero d 63 17, false⟩ c s1 → (s1.part c.part).flash = none →
  exec (.nsClear fn ring) s = .next ((s1.modPart c.part (fun x => { x with flash := some { Flash.base with
    kind := 4, slot := (s1.nsRange c.part).1, missing := [(s1.nsRange c.part).2], cmd := c.id } })).settle)

/-- KETTLE_RESUME of open journals whose slots hold their programs: the kettles go on where they stopped (R268). -/
def kettleResume : Prop := ∀ (s s1 : State) (fn ring : Nat) (d : BitVec 512) (c : Cmd), starts s fn ring d (s.journalSpec fn 0x78 d) c s1 →
  (s.popSlot fn ring).resumeRefusal d = 0 → s1.resumeRefusal c.desc = 0 →
  exec (.kettleResume fn ring) s = .next ((((journalStacks c.desc).foldl (fun s st => s.resumeKettle st) s1).proceed c.part).settle)

/-- KETTLE_ABANDON of open journals: they are IDLE, and every element stays as it stands (R269). -/
def kettleAbandon : Prop := ∀ (s s1 : State) (fn ring : Nat) (d : BitVec 512) (c : Cmd), starts s fn ring d (s.journalSpec fn 0x79 d) c s1 →
  (s.popSlot fn ring).dropRefusal d = 0 → s1.dropRefusal c.desc = 0 →
  exec (.kettleAbandon fn ring) s =
    .next ((((journalStacks c.desc).foldl (fun s st => s.fset .ketJstate st 0) s1).complete c Status.ok 0 0).settle)

/-- ATTEST_REPORT with the identity key in place, and readable, writes the signed report of its view and nonce (R475). -/
def attestReport : Prop := ∀ (s s1 : State) (fn ring : Nat) (d : BitVec 512) (c : Cmd),
  starts s fn ring d ⟨0x80, pfOrVf fn (dField d 16 16), dField d 16 16, (dField d 16 16 == 0xFF || s.partDefined (dField d 16 16)) && dZero d 23 17, false⟩ c s1 →
  (s.popSlot fn ring).sec.identity = true → Tab.get false s1.err.vault 12 = false →
  exec (.attestReport fn ring) s =
    .next (((s1.hostPut c (c.arg 31 24) (s1.report (c.arg 16 16) (leBytes 32 (c.arg 63 32)))).complete c Status.ok 0 0).settle)

/-- SPARGE joins the loader's jobs, and starts where none stands before it (R455, R459). -/
def sparge : Prop := ∀ (s s1 : State) (fn ring : Nat) (d : BitVec 512) (c : Cmd),
  starts s fn ring d ⟨0x81, fn == 0, dField d 16 16, s.partDefined (dField d 16 16) && dZero d 63 17, true⟩ c s1 →
  exec (.sparge fn ring) s = .next ((s1.queueJob (jobOf 4 c.id c.part 0 0)).1.settle.proceedAll)

/-- FW_UPDATE with nothing in flight, of an image that passes the boot ROM's checks: the SPI NOR holds it (R474). -/
def fwUpdate : Prop := ∀ (s s1 : State) (fn ring : Nat) (d : BitVec 512) (c : Cmd),
  starts s fn ring d ⟨0x82, fn == 0, 0xFF, dZero d 23 16 && dZero d 63 36, false⟩ c s1 → (s.popSlot fn ring).fget .pwrSag 0 ≠ 1 →
  (s.popSlot fn ring).cmds.any (fun c => decide (c.part < 12)) = false →
  fwCheck (s1.fget .secFwSvn 0) (s1.hostRead (c.arg 31 24) (c.arg 35 32)) = 0 →
  exec (.fwUpdate fn ring) s = .next (((s1.programNor (s1.hostRead (c.arg 31 24) (c.arg 35 32))).complete c Status.ok 0 0).settle)

/-- LC_ADVANCE along a row of *Life-cycle transitions*, with a valid block that carries a new key exactly where the row asks for one, and a free
bank for it: the challenge is used, the vault wiped, the key put in its bank, and LC_STATE is the target (R467, R468). -/
def lcAdvance : Prop := ∀ (s s1 : State) (fn ring : Nat) (d : BitVec 512) (c : Cmd) (customer hasKey : Bool),
  starts s fn ring d ⟨0x83, fn == 0, 0xFF, dZero d 23 17 && dZero d 63 32, false⟩ c s1 → (s.popSlot fn ring).fget .pwrSag 0 ≠ 1 →
  lcRow (s1.fget .secLcState 0) (c.arg 16 16) = some (customer, hasKey) →
  s1.authOk 1 (c.arg 16 16) (s1.signer customer) (s1.hostRead (c.arg 31 24) 192) = true →
  (authKey (s1.hostRead (c.arg 31 24) 192)).any (fun b => b != 0) = hasKey →
  (hasKey && s1.useChallenge.sec.bank0.isSome && s1.useChallenge.sec.bank1.isSome) = false →
  exec (.lcAdvance fn ring) s = .next ((
    let s2 := s1.useChallenge.wipeVault
    let s3 := if hasKey then s2.putKey (authKey (s1.hostRead (c.arg 31 24) 192)) else s2
    (s3.fset .secLcState 0 (c.arg 16 16)).complete c Status.ok 0 0).settle)

/-- AUTH_CHALLENGE writes 32 fresh bytes and keeps them (R468; the bytes are a free value, log entry 4). -/
def authChallenge : Prop := ∀ (s s1 : State) (fn ring : Nat) (d : BitVec 512) (c : Cmd),
  starts s fn ring d ⟨0x84, fn == 0, 0xFF, dZero d 23 16 && dZero d 63 32, false⟩ c s1 →
  exec (.authChallenge fn ring) s = .next ((
    let bs := leBytes 32 s1.free1.1
    let s2 := { s1.free1.2 with sec := { s1.free1.2.sec with challenge := some bs, challenges := s1.free1.2.sec.challenges + 1 } }
    (s2.hostPut c (c.arg 31 24) bs).complete c Status.ok 0 0).settle)

/-- DEBUG_UNLOCK of a debug state that the life cycle allows, with a valid block: the challenge is used, the vault wiped, and the state
reached (R470). -/
def debugUnlock : Prop := ∀ (s s1 : State) (fn ring : Nat) (d : BitVec 512) (c : Cmd) (customer : Bool),
  starts s fn ring d ⟨0x85, fn == 0, 0xFF, dZero d 23 17 && dZero d 63 32, false⟩ c s1 → s1.debugRow (c.arg 16 16) = some customer →
  s1.authOk 2 (c.arg 16 16) (s1.signer customer) (s1.hostRead (c.arg 31 24) 192) = true →
  exec (.debugUnlock fn ring) s = .next (((s1.useChallenge.wipeVault.fset .secDebugState 0 (c.arg 16 16)).complete c Status.ok 0 0).settle)

/-- REPLAY_RUN of a capture of its own image, in host memory or in memory of the partition: STATE is 5, and the partition is sparged and applied by
a job of the loader (R501). -/
def replayRun : Prop := ∀ (s s1 : State) (fn ring : Nat) (d : BitVec 512) (c : Cmd) (g : Staged) (bs start : List Byte)
    (rest : List (Nat × Nat × Nat × List Byte)) (fl n : Nat),
  starts s fn ring d ⟨0x90, fn == 0, dField d 16 16, s.partDefined (dField d 16 16) && decide (dField d 17 17 < 2) && dZero d 23 18 && dZero d 63 48 &&
    (s.image (dField d 47 40)).isSome, false⟩ c s1 →
  (s.popSlot fn ring).confidential (dField d 16 16) = false → s1.image (c.arg 47 40) = some g →
  ((s1.applyRefusal g c.part 0 true).1 = 0 ∨ (s1.applyRefusal g c.part 0 true).1 = Status.badEpoch) →
  (bitOf (c.arg 17 17) 0 = true ∧ bs = s1.hostRead (c.arg 31 24) (c.arg 39 32) ∨
    bitOf (c.arg 17 17) 0 = false ∧ s1.dataFault c.part (c.arg 31 24) (c.arg 39 32) = none ∧
      bs = s1.partRead c.part (c.arg 31 24) (c.arg 39 32)) →
  replayRecords (bs.length / 64) bs = (1, fl, n, start) :: rest → start.take 32 = g.digest →
  exec (.replayRun fn ring) s = .next ((
    let r := replayOf c.id g.handle (s1.fget .turnPolicyVersion c.part) ((1, 0, 1, start) :: rest)
    ((s1.fset .rplState c.part 5).modPart c.part (fun x => { x with replayRun := some r })).queueRun c.part
      (jobOf 5 c.id c.part g.handle 0)).settle.proceedAll)

/-- FAULT_RELEASE of a contained or HELD partition, or of the device held in the safe state: it leaves its state at once (R492, R503). -/
def faultRelease : Prop := ∀ (s s1 : State) (fn ring : Nat) (d : BitVec 512) (c : Cmd),
  starts s fn ring d ⟨0x91, fn == 0, dField d 16 16, (decide (dField d 16 16 < 12) || dField d 16 16 == 0xFF) && dZero d 63 17, false⟩ c s1 →
  (c.arg 16 16 < 12 → (s1.isHeld (c.arg 16 16) || s1.fget .fcPartContained (c.arg 16 16) == 1) = true →
    exec (.faultRelease fn ring) s =
      .next ((((s1.fset .fcPartHeld (c.arg 16 16) 0).leaveContained (c.arg 16 16)).complete c Status.ok 0 0).settle)) ∧
  (c.arg 16 16 = 0xFF → s1.isHeld 12 = true →
    exec (.faultRelease fn ring) s = .next ((((s1.fset .fcHeld 0 0).complete c Status.ok 0 0).leaveSafe).settle))

/-- FAULT_INJECT completes, and raises its source on its instance with an INFO of 0 (R503). -/
def faultInject : Prop := ∀ (s s1 : State) (fn ring : Nat) (d : BitVec 512) (c : Cmd),
  starts s fn ring d ⟨0x92, fn == 0, 0xFF, sourceNamed (dField d 17 16) && dField d 17 16 != Source.tamper &&
    s.instanceOk (dField d 18 18) (dField d 19 19) && dZero d 63 20, false⟩ c s1 →
  exec (.faultInject fn ring) s = .next ((
    if c.arg 17 16 = Source.collectorParity then (s1.complete c Status.ok 0 0).selfFault
    else (s1.complete c Status.ok 0 0).raise (c.arg 17 16) (c.arg 18 18) (c.arg 19 19) 0).settle)

/-! ### Steps and the loader -/

/-- LOADER_APPLY_START: the loader's next job that nothing holds back starts, and its drain windows open; one that may not start ends with its
status (R71). -/
def loaderApplyStart : Prop := ∀ (s s1 : State) (j : Job) (r : Option Nat),
  s.loader.find? (fun j => !j.running && s.jobMayRun j) = some j → s.startJob j = (s1, r) →
  exec .loaderApplyStart s = .next ((match r with
    | some status => s1.jobDone j status
    | none => s1).proceedAll)

/-- DRAIN_WINDOW_END: what still runs in the oldest window is stopped, the window is gone, and a VF's disable may be followed by its sparge
(R448, R449). -/
def drainWindowEnd : Prop := ∀ (s : State) (p : Nat) (d : Drain) (rest : List Drain), (s.part p).drain = d :: rest →
  exec (.drainWindowEnd p) s = .next ((
    let s1 := (s.endDrain p d).modPart p (fun x => { x with drain := x.drain.erase d })
    if d.why = 1 ∧ s1.fget .partSpargeOnDisable p = 1 then (s1.queueJob (jobOf 4 0 p 0 0)).1 else s1).proceedAll)

/-- STEP_END: with its tiles and kettles finished the learn step is over, and LEARN_STEP completes with the status that failed it, with
PROGRAM_FAILED where a tile ended with a nonzero code, else OK. A failed step's norm words that can never be joined fail first (R158, R184,
R295). -/
def stepEnd : Prop := ∀ (s s1 : State) (p : Nat) (st : LearnStep), s1 = s.dropNorm p → (s.part p).step.isSome = true → s1.learnOver p = true →
  (s1.part p).step = some st →
  exec (.stepEnd p) s = .next (((s1.modPart p (fun x => { x with step := none, exchanges := x.exchanges.filter (fun e => e.home.isSome) })).finish
    st.cmd (if st.status ≠ 0 then st.status else if st.detail ≠ 0 then Status.programFailed else Status.ok) 0 st.detail).proceed p)

/-- ROLLOUT_STEP_BOUNDARY with the bay's tiles ended and their words done: the step ends, and its sequences with PAUSED_TURN where a turn's close
takes place now; edits apply, a closing barrier closes, and new sequences are taken in (R184, R370, R371). -/
def rolloutStepBoundary : Prop := ∀ (s : State) (b p : Nat), s.partOfBay b = some p → s.rolloutTiles b = [] → s.rolloutWords b = false →
  s.replayWaits p b = false → s.safe = false → s.fget .fcPartContained p ≠ 1 →
  exec (.rolloutStepBoundary b) s = .next ((s.boundary p b (fun s =>
    let s := if (s.bay b).stepping then s.endStep p b ((s.bay b).pausing && s.closesNow p b) else s
    let s := s.lateGroups p b
    let s := if s.replays p && !(s.boundaryRow p b).isSome then s else s.applyEdits p b
    let s := s.closeBay p b
    State.takeIn 8192 s p b)).settle.proceed p)

/-- The choice of work that a launch makes, after new sequences are taken in (R371, R387). -/
def launchChoice (s : State) (p b : Nat) : State × Choice := State.chooseWork 8192 (s.boundary p b (fun s => State.takeIn 8192 s p b)) p b

/-- ROLLOUT_STEP_LAUNCH in ROLLOUT with nothing in its way launches the work it chooses; a lockstep bay launches without work too (R371 to R374,
R392). -/
def rolloutStepLaunch : Prop := ∀ (s : State) (b p : Nat), s.partOfBay b = some p → s.fget .turnPhase p = Phase.rollout →
  s.replayWaits p b = false → (s.bay b).stepping = false → (s.bay b).groupWait = [] → s.fget .seqBarrier b ≠ 1 → s.workHeld p = false →
  s.lockstepHolds p b = false → s.seqHeld p b = false → s.outRingOk b = true →
  ¬ ((launchChoice s p b).2.es = [] ∧ s.fget .seqLockstep b = 0) → (launchChoice s p b).1.recordRoom p b (launchChoice s p b).2 = true →
  exec (.rolloutStepLaunch b) s = .next (((launchChoice s p b).1.launchStep p b (launchChoice s p b).2).settle)

/-! ### Kettles -/

/-- The kettle of stack st takes instruction word w, of operation op, of the program of slot k; `s1` has the undo entry of the block of its group
(R243, R263). -/
abbrev kettleTakes (s s1 : State) (st op : Nat) (k : KSlot) (w : Nat) : Prop :=
  st < 12 ∧ s.kettleNext st = some (k, w) ∧ kiOp w = op ∧
    (if (s.kettle st).undo.any (fun u => u.block == (s.kettle st).group / max 1 (kgroups k.prog)) then some s
      else s.openBlock st k ((s.kettle st).group / max 1 (kgroups k.prog))) = some s1

/-- First element of the group that the kettle of stack st works on, and the group's lanes (R246). -/
def kgroup (s : State) (st : Nat) (k : KSlot) : Nat × Nat := (kprog k.prog).groupElems (s.kettle st).group

/-- After an instruction of machine s left s': the next instruction, or after the program's last the next group; where the run has stopped, neither
(R246). -/
def kettleGoes (s s' : State) (st : Nat) (k : KSlot) : State :=
  (if s'.fget .ketState st ≠ 3 then s'
    else if (s.kettle st).pc + 1 < (kprog k.prog).count then s'.modKettle st (fun x => { x with pc := x.pc + 1 })
    else s'.toGroup st k ((s.kettle st).group + 1)).afterKettle st

/-- Register D takes, lane by lane, f of the operands A, B and C, and the flags that f raises (R243, R245). -/
def kettleLanes (s s1 : State) (st : Nat) (k : KSlot) (w : Nat) (f : Nat → Nat → Nat → Rnd) : State :=
  s1.kwrite st (kiD w) ((List.range (kgroup s st k).2).map (fun l =>
    f (s1.koperand st k w (kiA w) l) (s1.koperand st k w (kiB w) l) (s1.koperand st k w (kiC w) l)))

/-- An instruction of the kettle's program, of operation op, whose lanes take f, none of them with a residue error (R243, R273). -/
def kettleArith (i : Nat → Instr) (op : Nat) (f : Nat → Nat → Nat → Nat → Bool → Rnd) : Prop :=
  ∀ (s s1 : State) (st : Nat) (k : KSlot) (w : Nat), kettleTakes s s1 st op k w → (s.kettle st).badLane = none →
    exec (i st) s = .next (kettleGoes s (kettleLanes s s1 st k w (fun a b c =>
      f (kiS w) a b c (!s1.decays st k ((kprog k.prog).expert (kgroup s st k).1)))) st k)

/-- A lane with a residue error stops the run where an arithmetic instruction takes it (R273). -/
def kettleBadLane : Prop := ∀ (s s1 : State) (st l : Nat) (k : KSlot) (w : Nat), kettleTakes s s1 st 3 k w → (s.kettle st).badLane = some l →
  exec (.kettleAdd st) s = .next (kettleGoes s (s1.kresidue st l) st k)

/-- KETTLE_NOP (R243). -/
def kettleNop : Prop := ∀ (s s1 : State) (st : Nat) (k : KSlot) (w : Nat), kettleTakes s s1 st 0 k w →
  exec (.kettleNop st) s = .next (kettleGoes s s1 st k)

/-- The codewords of a group's stream: its first byte and its bytes. -/
def kspan (s : State) (st : Nat) (k : KSlot) (w : Nat) : Nat × Nat :=
  (kaddr st (kbind k.prog (kiS w)) (kiS w) (kgroup s st k).1, (kgroup s st k).2 * (fmtBits (kbind k.prog (kiS w)).fmt / 8))

/-- KETTLE_LD: the lanes of the group are read from their stream and converted to FP32, and the read corrects what it can (R211, R241, R243,
R259). -/
def kettleLd : Prop := ∀ (s s1 : State) (st : Nat) (k : KSlot) (w : Nat), kettleTakes s s1 st 1 k w →
  s1.badRange (kspan s st k w).1 (kspan s st k w).2 = false →
  exec (.kettleLd st) s = .next (
    let b := kbind k.prog (kiS w)
    kettleGoes s ((s1.kwrite st (kiD w) ((List.range (kgroup s st k).2).map (fun l =>
      let v := decodeElem b.fmt (s1.elem b.fmt (kspan s st k w).1 l) 0
      ⟨(FFmt.fp32.ofVal v.1).bits, v.2 ||| (FFmt.fp32.ofVal v.1).fl⟩))).mend (s1.weakIn (kspan s st k w).1 (kspan s st k w).2)) st k)

/-- The lanes of operand A of a KETTLE_ST, as values, and the block maxima of their group (R97, R259). -/
def kstVals (s s1 : State) (st : Nat) (k : KSlot) (w : Nat) : List Val :=
  (List.range (kgroup s st k).2).map (fun l => f32 (s1.koperand st k w (kiA w) l))
def kstMaxima (s s1 : State) (st : Nat) (k : KSlot) (w : Nat) : List (Nat × Nat) :=
  let e := (kgroup s st k).1
  blockMaxima ((kstVals s s1 st k w).zipIdx.map (fun v => (e + v.2, (e + v.2) / recBlock (kbind k.prog (kiS w)).fmt, v.1)))

/-- The scale of element i: of its own block's maximum under immediate scaling or with no valid record, else of the record's entry (R99, R259). -/
def kstScale (s s1 : State) (st : Nat) (k : KSlot) (w i : Nat) : Nat :=
  let b := kbind k.prog (kiS w)
  if fmtScaled b.fmt then
    scaleFor b.fmt (if (s1.ktensor st b).scaling == 1 || !s1.recValid (hbmBase st + b.record) then
        (((kstMaxima s s1 st k w).find? (fun m => m.1 == i / 64)).map Prod.snd).getD 0
      else s1.recEntry (hbmBase st + b.record) (i / 64))
  else 0

/-- The converted lanes of a KETTLE_ST, rounded as its tensor says (R95, R259). -/
def kstConv (s s1 : State) (st : Nat) (k : KSlot) (w : Nat) : List Conv :=
  let b := kbind k.prog (kiS w)
  let r := kprog k.prog
  let e := (kgroup s st k).1
  let x := s1.kettle st
  (kstVals s s1 st k w).zipIdx.map (fun v =>
    convElem b.fmt v.1 (kstScale s s1 st k w (e + v.2))
      (if (s1.ktensor st b).rounding = 1 && (b.fmt == 1 || b.fmt == 2) then
        some (roundWord (if r.sweep then 0 else x.seed) b.tensor (if r.sweep then 0 else x.stepNo % 2 ^ 32)
          (b.elem0 + s1.kettleRank st * r.elems + (e + v.2))) else none))

/-- Where a KETTLE_ST writes its elements and, of a scaled stream, its scales; and the scales' bytes. -/
def kstData (s : State) (st : Nat) (k : KSlot) (w : Nat) : Nat :=
  let b := kbind k.prog (kiS w)
  if fmtBits b.fmt = 4 then hbmBase st + b.base + (kgroup s st k).1 / 2 else kaddr st b (kiS w) (kgroup s st k).1
def kstPlane (s : State) (st : Nat) (k : KSlot) (w : Nat) : Nat := hbmBase st + (kbind k.prog (kiS w)).plane + 2 * ((kgroup s st k).1 / 64)
def kstScales (s s1 : State) (st : Nat) (k : KSlot) (w : Nat) : List Byte :=
  (List.range (ceilDiv (kgroup s st k).2 64)).flatMap (fun j => leBytes 2 (kstScale s s1 st k w ((kgroup s st k).1 + 64 * j)))

/-- KETTLE_ST: of a decayed expert, for the streams that decay, nothing is written; else the lanes of operand A are written as they convert, with
the scales of a scaled stream, the block maxima are captured, and the saturations and flags of the conversion are counted (R243, R257,
R259). -/
def kettleSt : Prop := ∀ (s s1 : State) (st : Nat) (k : KSlot) (w : Nat), kettleTakes s s1 st 2 k w →
  let b := kbind k.prog (kiS w)
  let skips := s1.decays st k ((kprog k.prog).expert (kgroup s st k).1) && (kiS w == 1 || kiS w == 2 || decide (8 ≤ kiS w))
  let cs := kstConv s s1 st k w
  (skips = true → exec (.kettleSt st) s = .next (kettleGoes s s1 st k)) ∧
  (skips = false → s1.badEdge (kstData s st k w) (packElems b.fmt 0 (cs.map Conv.code)).length = false →
    (fmtScaled b.fmt && s1.badEdge (kstPlane s st k w) (kstScales s s1 st k w).length) = false →
    exec (.kettleSt st) s = .next (
      let s2 := s1.devWrite (kstData s st k w) (packElems b.fmt 0 (cs.map Conv.code))
      let s3 := if fmtScaled b.fmt then s2.devWrite (kstPlane s st k w) (kstScales s s1 st k w) else s2
      let s4 := if b.fmt = 0 then s3 else s3.kcapture st (kiS w) b.record (kstMaxima s s1 st k w)
      let key := 16 * ((s1.kettle st).block + 1) + kiS w
      kettleGoes s ((s4.modKettle st (fun x =>
        { x with sats := Tab.set 0 x.sats key (Tab.get 0 x.sats key + (cs.filter Conv.sat).length) })).flagKettle st
          (cs.foldl (fun f v => f ||| v.fl) 0)) st k))

/-- KETTLE_ADD: FP32 addition (R243, R245). -/
def kettleAdd : Prop := kettleArith .kettleAdd 3 (fun _ a b _ _ => f32add a b)
/-- KETTLE_MUL: FP32 multiplication (R243, R245). -/
def kettleMul : Prop := kettleArith .kettleMul 4 (fun _ a b _ _ => f32mul a b)
/-- KETTLE_FMA: fused multiply-add (R243, R245). -/
def kettleFma : Prop := kettleArith .kettleFma 5 (fun _ a b c _ => f32fma a b c)
/-- KETTLE_MIN: the minimum (R243, R245). -/
def kettleMin : Prop := kettleArith .kettleMin 6 (fun _ a b _ _ => FFmt.fp32.minMax false (f32 a) (f32 b))
/-- KETTLE_MAX: the maximum (R243, R245). -/
def kettleMax : Prop := kettleArith .kettleMax 7 (fun _ a b _ _ => FFmt.fp32.minMax true (f32 a) (f32 b))
/-- KETTLE_CMP: 1.0 where the predicate holds, else +0 (R243, R245). -/
def kettleCmp : Prop := kettleArith .kettleCmp 8 (fun n a b _ _ => ⟨if Val.pred n (f32 a) (f32 b) then f32one else 0, sigFlag [f32 a, f32 b]⟩)
/-- KETTLE_SEL: B where A is not equal to zero, else C, a NaN as the canonical NaN (R79, R243, R245). -/
def kettleSel : Prop := kettleArith .kettleSel 9 (fun _ a b c _ =>
  let r := FFmt.fp32.ofVal (f32 (if Val.pred 1 (f32 a) (f32 0) then b else c))
  ⟨r.bits, sigFlag [f32 a] ||| r.fl⟩)
/-- KETTLE_SELV: A where the expert was visited, else B, a NaN as the canonical NaN (R79, R243, R245). -/
def kettleSelv : Prop := kettleArith .kettleSelv 10 (fun _ a b _ v => FFmt.fp32.ofVal (f32 (if v then a else b)))
/-- KETTLE_EST: the estimate that S names (R243, R245). -/
def kettleEst : Prop := kettleArith .kettleEst 11 (fun n a _ _ _ => estimate n (f32 a))
/-- KETTLE_DIV: correctly rounded division (R243, R245). -/
def kettleDiv : Prop := kettleArith .kettleDiv 12 (fun _ a b _ _ => FFmt.fp32.div (f32 a) (f32 b))
/-- KETTLE_SQRT: correctly rounded square root (R243, R245). -/
def kettleSqrt : Prop := kettleArith .kettleSqrt 13 (fun _ a _ _ _ => FFmt.fp32.sqrt (f32 a))

/-- Stage 2 of a run: the first UPDATE slot of a step takes the norm event, or waits for it; then the slot starts (R247). -/
def kettleNorm (s : State) (st : Nat) (k : KSlot) : State :=
  if (kprog k.prog).sweep || (s.kettle st).normTaken then s.startSlot st k
  else if s.fget .ketKE (16 * st + 15) = 0 then s.fset .ketState st 2
  else ((s.fset .ketKE (16 * st + 15) (s.fget .ketKE (16 * st + 15) - 1)).modKettle st (fun x => { x with normTaken := true })).startSlot st k

/-- KETTLE_RUN_START of the kettle's next slot, whose start event stands or has been taken, a SWEEP with no UPDATE's journal open: the event is
consumed, then the norm, and the slot starts (R247, R255). -/
def kettleRunStart : Prop := ∀ (s : State) (st n : Nat) (rest : List Nat) (k : KSlot), st < 12 → (s.kettle st).why ≠ 0 → s.fget .ketState st < 3 →
  (s.kettle st).todo = n :: rest → s.kslot st n = some k → ((kprog k.prog).sweep && s.updateOpen st) = false →
  ((s.fset .ketSlot st k.slot).fget .ketState st ≠ 2 →
    (kprog k.prog).startCount ≤ (s.fset .ketSlot st k.slot).fget .ketKE (16 * st + (kprog k.prog).startEv)) →
  exec (.kettleRunStart st) s = .next ((
    let s1 := s.fset .ketSlot st k.slot
    let e := 16 * st + (kprog k.prog).startEv
    kettleNorm (if s1.fget .ketState st = 2 then s1 else s1.fset .ketKE e (s1.fget .ketKE e - (kprog k.prog).startCount)) st k).afterKettle st)

/-- The machine with element block n of a kettle's run committed: its undo entry free, its saturations and its CRCs in the journal (R263, R264). -/
def kettleCommitted (s : State) (st : Nat) (k : KSlot) (n : Nat) : State :=
  let mine := (List.range 12).map (fun i => (i, Tab.get 0 (s.kettle st).sats (16 * (n + 1) + i)))
  let sats := mine.foldl (fun m e => Tab.set 0 m e.1 (Tab.get 0 m e.1 + e.2))
    (Tab.drop (s.kettle st).sats (fun i => decide (16 * (n + 1) ≤ i) && decide (i < 16 * (n + 2))))
  ((s.commitBlock st n).modKettle st (fun x => { x with sats := sats })).kprints st k.prog n

/-- KETTLE_BLOCK_COMMIT: an element block that has been computed is committed; after the last of them the final blocks follow, or a SWEEP updates
its headers and fingerprint and ends. A final block first takes its undo entry and makes its writes, then is committed, and the last one closes
the journal (R263 to R265). -/
def kettleBlockCommit : Prop := ∀ (s : State) (st : Nat) (k : KSlot), st < 12 → s.kslot st (s.fget .ketJslot st) = some k →
  let n := s.fget .ketCommitted st
  let f := n - kblocks k.prog
  (s.fget .ketState st = 3 → min (kprog k.prog).groups ((n + 1) * kgroups k.prog) ≤ (s.kettle st).group →
    exec (.kettleBlockCommit st) s = .next ((
      let s1 := kettleCommitted s st k n
      if n + 1 < kblocks k.prog then s1
      else if (kprog k.prog).sweep then
        let s2 := s1.kheaders st k.prog
        (if kstores k.prog Stream.roll then s2.kfprint st k.prog else s2).closeJournal st (kprog k.prog)
      else s1.fset .ketState st 4).afterKettle st)) ∧
  (s.fget .ketState st = 4 → (s.kettle st).undo.any (fun u => u.block == n) = false → ∀ s1, s.openFinal st k f = .inl s1 →
    exec (.kettleBlockCommit st) s = .next ((s1.writeFinal st k f).afterKettle st)) ∧
  (s.fget .ketState st = 4 → (s.kettle st).undo.any (fun u => u.block == n) = true →
    exec (.kettleBlockCommit st) s = .next ((
      let s1 := s.commitBlock st n
      if f + 1 < (kprog k.prog).finals then s1 else (s1.showSlot st k false).closeJournal st (kprog k.prog)).afterKettle st))

/-- KETTLE_WAIT_TIMEOUT of stage 1 or 2: the run ends, and KETTLE_WAIT_TIMEOUT is raised on its stack (R249). -/
def kettleWaitTimeout : Prop := ∀ (s : State) (st : Nat), st < 12 → (s.fget .ketState st = 1 ∨ s.fget .ketState st = 2) →
  exec (.kettleWaitTimeout st) s = .next ((s.kettleFails st Status.tileFault Source.kettleWaitTimeout Kind.stack st 0 false).afterKettle st)

/-! ### Moves that land -/

/-- MOVE_LANDED of a move that no earlier one holds: its bytes are at their destination, and what it serves goes on: the words of its tile for a
MOV's move or copy, its command for the host's, an install for a weight segment (R43, R161, R221). -/
def moveLanded : Prop := ∀ (s : State) (id : Nat) (m : Move), s.moves.find? (fun m => m.id == id) = some m → m.why ≠ 1 → s.moveHeld m = false →
  exec (.moveLanded id) s = .next (match s.movePart m with
    | some p => (s.landMove m).settle.proceed p
    | none => (s.landMove m).settle) ∧
  (m.why = 0 ∨ m.why = 4 → s.landMove m = State.startAtts 16 (s.landMov m) m.owner) ∧ (m.why = 2 → s.landMove m = s.landHost m) ∧
  (m.why = 3 → s.landMove m = s.landWeight m) ∧ (m.why = 5 ∨ m.why = 6 → s.landMove m = s.landAtt m) ∧
  (m.why = 9 → s.landMove m = s.landStaging m) ∧
  (m.why = 11 → s.landMove m = State.startAtts 16 ((s.landInstall m).moveEngine m.owner) m.owner) ∧
  (m.why = 12 → s.landMove m = State.startAtts 16 (s.landOld m) m.owner) ∧ (m.why = 7 ∨ m.why = 8 → s.landMove m = s.landCopy m)

/-- STEEP_ENTRY_LANDED of an entry whose move succeeds: the entry has landed, and the entries that are now due signal (R225, R226). -/
def steepEntryLanded : Prop := ∀ (s s1 : State) (t entry : Nat) (m : Move),
  (s.movesOf t).find? (fun m => m.why == 1 && m.ref == entry) = some m → s.moveHeld m = false → (s.dropMove m.id).landTile m = .ok s1 →
  exec (.steepEntryLanded t entry) s = .next ((
    let s2 := s1.modTile t (fun x => { x with steepLanded := Tab.set false x.steepLanded entry true })
    let gate := (steepEntry (s2.steepList t) entry).gate
    State.startAtts 16 (((s2.steepDue t gate).foldl (fun s i => s.steepSignal t i) s2).moveEngine t) t).settle)

/-! ### Messages of the tiers, of the management channel and of captures -/

/-- BUDDY_STREAM segment for a stream that this device holds, next in order: it is programmed where it belongs (R233). -/
def buddyStream : Prop := ∀ (s s1 : State) (p : Nat) (m : Msg) (b : Buddy), hear s p m Vc.broadcast Ty.stream → m.op = MsgOp.buddy →
  s1 = s.captureMsg p m → m.seg ≠ 0 → (s1.part p).buddy = some b → b.src = m.src → b.comm = m.comm → b.rank = m.rank → b.step = m.args.getD 0 0 →
  b.data.length = segBytes * m.seg → b.discard = false →
  exec (.buddyStream p m) s = .next (((s1.devWrite (flashBase + b.slot + segBytes * m.seg) m.data).modPart p (fun x => { x with
    buddy := some { b with data := b.data ++ m.data, whole := decide (m.args.getD 1 0 ≤ (b.data ++ m.data).length) } })).settle)

/-- BUDDY_TRAILER_CONFIRM: the writer that waits for its buddy completes; one that still programs notes it (R233). -/
def buddyTrailerConfirm : Prop := ∀ (s s1 : State) (p : Nat) (m : Msg) (f : Flash), hear s p m Vc.broadcast Ty.stream → m.op = MsgOp.buddyConfirm →
  s1 = s.captureMsg p m → (s1.part p).flash = some f → f.kind = 0 → f.comm = m.comm → m.args.headD 0 = f.step →
  exec (.buddyTrailerConfirm p m) s =
    .next ((if f.stage = 5 then s1.endFlash p Status.ok 0 else s1.modFlash p (fun g => { g with buddyOk := true })).settle)

/-- BUDDY_CONFIRM_TIMEOUT of a writer that waits for its buddy: CKPT_WRITE completes BUDDY_MISSING (R233). -/
def buddyConfirmTimeout : Prop := ∀ (s : State) (p : Nat) (f : Flash), (s.part p).flash = some f → f.kind = 0 → f.stage = 5 →
  exec (.buddyConfirmTimeout p) s = .next ((s.endFlash p Status.buddyMissing 0).settle)

/-- BUDDY_STREAM_TIMEOUT of a stream that is not whole: it is discarded (R235). -/
def buddyStreamTimeout : Prop := ∀ (s : State) (p : Nat) (b : Buddy), (s.part p).buddy = some b → b.whole = false →
  exec (.buddyStreamTimeout p) s = .next (s.modPart p (fun x => { x with buddy := none }))

/-- REMOTE_LOAD_REQUEST for a generation that this device holds for the asker's rank: each segment asked for goes out with its CRC-64 (R234). -/
def remoteLoadRequest : Prop := ∀ (s s1 : State) (p : Nat) (m : Msg) (slot : Nat), hear s p m Vc.broadcast Ty.stream → m.op = MsgOp.loadRequest →
  s1 = s.captureMsg p m → s1.slotOfStep p (m.args.getD 2 0) (m.args.getD 1 0) = some slot →
  leField (s1.trailer p slot) 19 18 = m.comm → leField (s1.trailer p slot) 23 20 = m.args.getD 0 0 →
  exec (.remoteLoadRequest p m) s = .next ((
    let answer : Msg := { Msg.empty with dst := m.src, vc := Vc.broadcast, ty := Ty.stream, op := MsgOp.loadData, comm := m.comm }
    let tr := s1.trailer p slot
    (if m.args.drop 3 = [] then List.range (trailerSegs tr) else m.args.drop 3).foldl (fun s i =>
      let g := s.slotSegment p slot i
      let s := s.flashReads p (slot + segBytes * i - (s.nsRange p).1) g.1
      s.send p { answer with seg := i, args := [1, trailerStep tr, trailerLen tr, g.2], data := g.1 }) s1).settle)

/-- REMOTE_LOAD_TIMEOUT: the load that waits for its device is broken: the source that R234 tries next is asked, or, with none left, it writes what has
arrived and completes BOTH_COPIES_BAD (R234). -/
def remoteLoadTimeout : Prop := ∀ (s : State) (p : Nat) (f : Flash), (s.part p).flash = some f → f.kind = 1 →
  exec (.remoteLoadTimeout p) s = .next ((s.loadBroken p f).settle)

/-- FLASH_PROGRAM_DONE: what the partition's flash work s1 has done by then, the buddy copy, and the wear follow (R216, R232, R233, R236): a FLASH_WRITE's
bytes, a CKPT_WRITE's data and then its table stand in the flash; FLASH_WRITE, FLASH_TRIM and FLASH_NS_WRITE complete OK once they are done. -/
def flashProgramDone : Prop := ∀ (s s1 : State) (p : Nat) (f : Flash), p < 12 → (s.part p).flash = some f →
  (f.kind = 0 ∧ f.stage = 2 ∧ s1 = ((s.devWrite (flashBase + f.slot) f.data).modFlash p (fun g => { g with stage := 3 })).fset .flashProgress p (f.data.length / 2 ^ 30) ∨
   f.kind = 0 ∧ f.stage = 3 ∧ s1 = (s.devWrite (flashBase + f.slot + f.data.length) (tableOf f.data)).modFlash p (fun g => { g with stage := 4 }) ∨
   f.kind = 2 ∧ f.stage = 0 ∧ s1 = ((s.devWrite (flashBase + f.slot) f.data).modFlash p (fun g => { g with stage := 1 })).fset .flashProgress p (f.data.length / 2 ^ 30) ∨
   f.kind = 2 ∧ f.stage ≠ 0 ∧ s1 = s.endFlash p Status.ok 0 ∨
   (f.kind = 3 ∨ f.kind = 4) ∧ s1 = (s.devZero (flashBase + f.slot) (f.missing.headD 0)).endFlash p Status.ok 0) →
  exec (.flashProgramDone p) s = .next ((s1.buddyProgrammed p).wear.settle)

/-- MGMT_MESSAGE is taken, and captured as every message delivered locally (R313, R498). -/
def mgmtMessage : Prop := ∀ (s : State) (p : Nat) (m : Msg), hear s p m Vc.management Ty.mgmt →
  exec (.mgmtMessage p m) s = .next ((s.captureMsg p m).settle)

/-- REPLAY_RECORD_MESSAGE to a partition whose TARGET is RECEIVE: the record stands at HEAD, or after a PAD record at the start of the region where
it does not fit before the end; where there is no room it is lost and counted, and REPLAY_OVERRUN raised (R498, R499, R500). -/
def replayRecordMessage : Prop := ∀ (s s1 : State) (p : Nat) (m : Msg) (r : Region) (units need head pad used : Nat), hear s p m Vc.replay Ty.data →
  s.fget .rplTarget p = 3 → s1 = s.captureMsg p m → ((s1.part p).cfg.regionsOf 1 8).head? = some r →
  units = r.size / 64 → units ≠ 0 → need = ceilDiv m.data.length 64 → head = s1.fget .rplHead p → pad = (if head + need ≤ units then 0 else units - head) →
  used = (head + units - s1.fget .rplTail p) % units →
  exec (.replayRecordMessage p m) s = .next ((
    if used + pad + need < units then
      let s2 := if pad = 0 then s1 else s1.devWrite (r.base + 64 * head) (replayBytes 0 0 (leField m.data 15 8) [])
      let start := if pad = 0 then head else 0
      ((s2.devWrite (r.base + 64 * start) m.data).finc .rplRecords p 1).fset .rplHead p ((start + need) % units)
    else (s1.finc .rplLost p 1).detect Source.replayOverrun Kind.bay (s1.lowBay p) 0).settle)

/-! ### Repair -/

/-- PATROL_SCRUB reads the bank's next word; one that does not correct is raised, and one that corrects is written back (R200, R201). -/
def patrolScrub : Prop := ∀ (s : State) (t bank : Nat), s.mapped t = true → bank < 64 →
  exec (.patrolScrub t bank) s = .next (
    let i := Tab.get 0 (s.tile t).scrubPos bank
    let a := wordAddr t (64 * i + bank)
    let s1 := s.modTile t (fun x => { x with scrubPos := Tab.set 0 x.scrubPos bank ((i + 1) % 12288) })
    if s1.badRange a 64 then s1.raise Source.scratchUncorrectable Kind.tile t (s1.failingAt a 64) else s1.mend (s1.weakIn a 64))

/-- BANK_ROW_REPAIR at a step boundary of a row that has yielded an uncorrectable error or its fourth corrected one: with a spare row of its bank
left it uses it and raises ROW_REPAIRED; with none left the tile is to be retired (R202, R203). -/
def bankRowRepair : Prop := ∀ (s : State) (t bank row : Nat), s.mapped t = true → bank < 64 → row < 768 → s.bayBoundary (t / 8) = true →
  4 ≤ Tab.get 0 (s.tile t).rowErrs (768 * bank + row) →
  exec (.bankRowRepair t bank row) s = .next (
    let used := Tab.get 0 (s.tile t).rowSpares bank
    if used < 16 then
      let s1 := s.modTile t (fun x => { x with rowSpares := Tab.set 0 x.rowSpares bank (used + 1), rowErrs := Tab.set 0 x.rowErrs (768 * bank + row) 0 })
      let left := min (s1.fget .spSpareMin t) (15 - used)
      (((s1.fset .spSpareMin t left).fset .spWorstBank t (s1.worstBank t left)).spared 3 t (768 * bank + row)).raise Source.rowRepaired Kind.tile t (768 * bank + row)
    else (s.modTile t (fun x => { x with retire := true })).raise Source.scratchSparesExhausted Kind.tile t bank)

/-- ACC_LINE_REPAIR at a step boundary, likewise (R496). -/
def accLineRepair : Prop := ∀ (s : State) (t line : Nat), s.mapped t = true → s.bayBoundary (t / 8) = true → 4 ≤ Tab.get 0 (s.tile t).lineErrs line →
  exec (.accLineRepair t line) s = .next (
    let used := (s.tile t).lineSpares
    if used < 16 then
      ((s.modTile t (fun x => { x with lineSpares := used + 1, lineErrs := Tab.set 0 x.lineErrs line 0 })).spared 4 t line).raise Source.rowRepaired Kind.tile t line
    else (s.modTile t (fun x => { x with retire := true })).raise Source.accSparesExhausted Kind.tile t line)

/-- HBM_ROW_REPAIR at a step boundary of a row that has yielded an uncorrectable error or its fourth corrected one: the row is repaired while the
stack has a repair left, else the stack is lost and its bay retires (R211; how many repairs there are is the implementation's, log entry 47). -/
def hbmRowRepair : Prop := ∀ (s : State) (st row : Nat), st < 12 → s.fget .bayRetired st ≠ 1 → s.bayBoundary st = true →
  4 ≤ Tab.get 0 s.err.hbmRows (2 ^ 32 * st + row) →
  exec (.hbmRowRepair st row) s = .next (
    let s1 := { s with err := { s.err with hbmRows := Tab.set 0 s.err.hbmRows (2 ^ 32 * st + row) 0 } }
    if Config.repairLeft 0 st row (s1.sparedOf 5 st) then (s1.spared 5 st row).raise Source.rowRepaired Kind.stack st row
    else s1.loseStack st row)

/-- LPDDR_ROW_REPAIR at a step boundary, likewise (R213; log entry 47). -/
def lpddrRowRepair : Prop := ∀ (s : State) (b row : Nat), b < 12 → s.fget .bayRetired b ≠ 1 → s.bayBoundary b = true →
  exec (.lpddrRowRepair b row) s = .next (
    if Config.repairLeft 1 b row (s.sparedOf 6 b) then (s.spared 6 b row).raise Source.rowRepaired Kind.bay b row
    else s.raise Source.lpddrSparesExhausted Kind.bay b row)

/-- SPARE_TAKEOVER of a tile to be retired, its bay's spare unused, at a step boundary: slot 8 has its number, and SPARE_USED is set (R36). -/
def spareTakeover : Prop := ∀ (s : State) (t : Nat), s.mapped t = true → (s.tile t).retire = true → s.fget .baySpareUsed (t / 8) = 0 →
  s.fget .bayDegraded (t / 8) = 0 → s.bayBoundary (t / 8) = true →
  exec (.spareTakeover t) s = .next (
    let s1 := (s.spared 0 t (s.fget .baySlot t)).fset .baySlot t 8
    let s2 := ((s1.fset .baySpareUsed (t / 8) 1).fset .spSpareMin t 16).fset .spWorstBank t 0
    (s2.modTile t (fun x => { x with retire := false, diverge := 0, rowSpares := [], lineSpares := 0, rowErrs := [], lineErrs := [], scrubPos := [] })).raise
      Source.spareTakeover Kind.tile t 0)

/-- TILE_UNMAPPED of a tile to be retired that no image names, its bay's spare used, at a step boundary: its number is unmapped, and the bay
DEGRADED (R37). -/
def tileUnmapped : Prop := ∀ (s : State) (t : Nat), s.mapped t = true → (s.tile t).retire = true → s.fget .baySpareUsed (t / 8) = 1 →
  s.fget .bayDegraded (t / 8) = 0 → s.bayBoundary (t / 8) = true →
  exec (.tileUnmapped t) s = .next (
    let onSpare := s.fget .baySlot t == 8
    let s1 := ((s.spared 1 t (s.fget .baySlot t)).fset .baySlot t 15).fset .bayDegraded (t / 8) 1
    let s2 := (if onSpare then s1.fset .baySpareUsed (t / 8) 0 else s1).modTile t (fun x => { x with retire := false })
    let s3 := s2.raise Source.tileUnmapped Kind.tile t 0
    match s.namedBy t with
    | some p => (s3.degrade p).settle.proceed p
    | none => s3)

/-- BAY_RETIRED at a step boundary: none of the bay's numbers is mapped, and RETIRED is set (R37, R497). -/
def bayRetired : Prop := ∀ (s : State) (b : Nat), b < 12 → s.fget .bayRetired b = 0 → s.bayBoundary b = true →
  exec (.bayRetired b) s = .next (
    let s1 := (List.range 8).foldl (fun s j => s.fset .baySlot (8 * b + j) 15) (s.spared 2 b 0)
    let s2 := (((s1.fset .bayRetired b 1).fset .baySpareUsed b 0).fset .bayDegraded b 0).raise Source.bayRetired Kind.bay b 0
    match s.partOfBay b with
    | some p => (s2.degrade p).settle.proceed p
    | none => s2)

/-! ### Links -/

/-- FLIT_RECEIVE on an UP port that is not in standby: a flit that fails its CRC is dropped and answered with NAK; one that passes has its link fields
acted on, and one in sequence that obeys R312 and R313 is accepted; what that sends goes out, and the messages it completes are handed to their engines
(R314 to R317, R510; what FEC corrected is free, log entry 133). -/
def flitReceive : Prop := ∀ (s s0 s1 s2 : State) (q n : Nat) (f : BitVec 2048), q < 24 → s.fget .linkState q = 2 → s.standby = false →
  s.free1 = (n, s0) → s1 = s0.finc .linkFecCorrected q n →
  (flitCrcOk f = false ∧ s2 = s1.crcFails q ∨
   flitCrcOk f = true ∧ (s1.linkFields q f).fget .linkState q ≠ 2 ∧ s2 = s1.linkFields q f ∨
   flitCrcOk f = true ∧ (s1.linkFields q f).fget .linkState q = 2 ∧ flitTy f ≠ 0 ∧ flitSeq f ≠ ((s1.linkFields q f).port q).rxSeq ∧ s2 = s1.linkFields q f ∨
   flitCrcOk f = true ∧ (s1.linkFields q f).fget .linkState q = 2 ∧ (flitTy f = 0 ∨ flitSeq f = ((s1.linkFields q f).port q).rxSeq) ∧
     s2 = State.pump 512 (if flitLegal f = false then (s1.linkFields q f).badFlit q f else if flitTy f = 0 then s1.linkFields q f else (s1.linkFields q f).acceptFlit q f) q) →
  exec (.flitReceive q f) s = .next (s2.settle.drainInbox s2.settle.inbox.length)

/-- LANE_FAILED on an UP port: the partner is told; a lane that carries is replaced by the spare where that is free; else the port stripes again over
what is left, and goes down with fewer than 2 lanes (R308, R309). -/
def laneFailed : Prop := ∀ (s : State) (q lane : Nat), q < 24 → lane < 5 → s.fget .linkState q = 2 → bitOf (s.fget .linkLanesFailed q) lane = false →
  exec (.laneFailed q lane) s = .next ((
    let mask := s.fget .linkLanesFailed q
    let used := s.fget .linkSpareUsed q = 1
    let s1 := ((s.fset .linkLanesFailed q (mask + 2 ^ lane)).raise Source.laneFailed Kind.port q lane).sendLane q lane
    if lane = 4 ∧ ¬ used then s1
    else if ¬ used ∧ bitOf mask 4 = false then s1.fset .linkSpareUsed q 1
    else
      let s2 := if lane = 4 then s1.fset .linkSpareUsed q 0 else s1
      if goodLanes (mask + 2 ^ lane) < 2 then (s2.raise Source.linkDegraded Kind.port q 0).portDown q
      else s2.modPort q (fun x => { x with restriping := true })).settle)

/-- RESTRIPE_COMPLETE: WIDTH is the lanes left, unacknowledged flits go out again, and LINK_DEGRADED is raised (R309). -/
def restripeComplete : Prop := ∀ (s : State) (q : Nat), s.fget .linkState q = 2 → (s.port q).restriping = true →
  exec (.restripeComplete q) s = .next (
    let s1 := (s.modPort q (fun x => { x with restriping := false })).fset .linkWidth q (min 4 (goodLanes (s.fget .linkLanesFailed q)))
    (s1.replayPort q (s1.port q).fresh).raise Source.linkDegraded Kind.port q 0)

/-- PARTNER_TRAINING of a port that trains or is UP: the port trains (R311). -/
def partnerTraining : Prop := ∀ (s : State) (q : Nat), s.portOn q = true → (s.fget .linkState q = 1 ∨ s.fget .linkState q = 2) →
  exec (.partnerTraining q) s = .next (s.trainPort q)

/-- LINK_UP of a port that trains: STATE is UP, WIDTH 4, the partner and its credits are known, the own credits are advertised, and unacknowledged
flits go out again (R311, R317). -/
def linkUp : Prop := ∀ (s : State) (q pid pport : Nat) (credits : List Nat), s.portOn q = true → s.fget .linkState q = 1 → (s.port q).pausing = false →
  exec (.linkUp q pid pport credits) s = .next (
    let s1 := (((s.fset .linkState q 2).fset .linkWidth q 4).fset .linkPartnerId q pid).fset .linkPartnerPort q pport
    let s2 := s1.modPort q (fun x => { x with
      credit := credits.zipIdx.foldl (fun m c => if c.2 < 8 then Tab.set 0 m c.2 c.1 else m) [], offered := s1.ownCredits q })
    s2.replayPort q true)

/-- LINK_TRAIN_FAIL of a port that trains: it pauses, and LINK_TRAIN_FAIL is raised (R311). -/
def linkTrainFail : Prop := ∀ (s : State) (q : Nat), s.portOn q = true → s.fget .linkState q = 1 → (s.port q).pausing = false →
  exec (.linkTrainFail q) s = .next ((s.modPort q (fun x => { x with pausing := true })).raise Source.linkTrainFail Kind.port q 0)

/-- LINK_TRAIN_RETRY of a port that pauses: it trains again (R311). -/
def linkTrainRetry : Prop := ∀ (s : State) (q : Nat), s.portOn q = true → s.fget .linkState q = 1 → (s.port q).pausing = true →
  exec (.linkTrainRetry q) s = .next (s.trainPort q)

/-- CREDIT_STALL of a channel with a flit waiting and no credit, on a port that trains or is UP, counts the wait and is raised (R319; what it lasted beyond
LINK_STALL_LIMIT is free, log entry 133). -/
def creditStall : Prop := ∀ (s s1 : State) (q vc n : Nat), (s.fget .linkState q = 1 ∨ s.fget .linkState q = 2) →
  (s.port q).queue.any (fun e => flitVc e.1 == vc) = true → Tab.get 0 (s.port q).credit vc = 0 → s.free1 = (n, s1) →
  exec (.creditStall q vc) s = .next ((s1.finc .linkStallUs q (s1.fget .linkStallLimit q + n)).raise Source.creditStall Kind.port q vc)

/-- LINK_DOWN of a port that trains or is UP: STATE is DOWN and WIDTH 0; its flits, LANE flits apart, move to the failover port ahead of later ones, or
are discarded and counted; LINK_DOWN is raised (R313, R324). -/
def linkDown : Prop := ∀ (s : State) (q : Nat), s.portOn q = true → (s.fget .linkState q = 1 ∨ s.fget .linkState q = 2) →
  exec (.linkDown q) s = .next ((
    let x := s.port q
    let s1 := ((s.fset .linkState q 3).fset .linkWidth q 0).fset .linkSpareUsed q 0
    let s2 := match (s1.portPart q).bind (fun p => s1.outPort p q) with
      | some f => (s1.setPort q Port.reset).queueOn f ((x.replay.map (fun e : BitVec 2048 × Nat × Nat => (e.1, e.2.2)) ++ x.queue).filter (fun e => flitTy e.1 != 7))
      | none => x.queue.foldl (fun s e => s.dropQueued e) ((s1.setPort q Port.reset).finc .linkRouteDrops q x.replay.length)
    s2.raise Source.linkDown Kind.port q 0).settle)

/-- RETRAIN of a port that is not OFF: it trains (R330). -/
def retrain : Prop := ∀ (s : State) (q : Nat), s.portOn q = true → s.fget .linkState q ≠ 0 → exec (.retrain q) s = .next (s.trainPort q)

/-! ### Registers -/

/-- RING_ENABLE of a ring that is not enabled: a submission ring starts at slot 0 with nothing submitted; a completion ring at slot 0 with phase 1,
and held records post (R430). -/
def ringEnable : Prop := ∀ (s : State) (fn ring : Nat), s.ringOpen fn ring = true →
  (s.wake.fget .sqEnable (ringIdx fn ring) ≠ 1 → exec (.ringEnable fn ring false) s = .next (
    ((s.wake.fset .sqEnable (ringIdx fn ring) 1).fset .sqHead (ringIdx fn ring) 0).modRing (ringIdx fn ring) (fun x => { x with tail := 0 }))) ∧
  (s.wake.fget .cqEnable (ringIdx fn ring) ≠ 1 → exec (.ringEnable fn ring true) s = .next (
    let s1 := (((s.wake.fset .cqEnable (ringIdx fn ring) 1).fset .cqHead (ringIdx fn ring) 0).fset .cqTail (ringIdx fn ring) 0).modRing
      (ringIdx fn ring) (fun x => { x with phase := true, seq := 0, pending := 0 })
    s1.postHeld fn ring (s1.ring (ringIdx fn ring)).held.length))

/-- DOORBELL_WRITE below the ring's size is its new tail; another value is ignored, and DOORBELL_INVALID raised (R431). -/
def doorbellWrite : Prop := ∀ (s : State) (fn ring v : Nat), s.ringOpen fn ring = true →
  exec (.doorbellWrite fn ring v) s = .next (
    if v < 2 ^ s.wake.fget .sqLog2Size (ringIdx fn ring) then s.wake.modRing (ringIdx fn ring) (fun x => { x with tail := v })
    else s.wake.raise Source.doorbellInvalid (s.wake.bellAt fn).1 (s.wake.bellAt fn).2 v)

/-- CQ_HEAD_WRITE frees slots: held records post; a head at the tail clears the pending count (R435, R437). -/
def cqHeadWrite : Prop := ∀ (s : State) (fn ring v : Nat), s.ringOpen fn ring = true →
  exec (.cqHeadWrite fn ring v) s = .next (
    let r := ringIdx fn ring
    let s1 := s.wake.fset .cqHead r v
    let s2 := if s1.fget .cqHead r = s1.fget .cqTail r then s1.modRing r (fun x => { x with pending := 0 }) else s1
    s2.postHeld fn ring (s2.ring r).held.length)

/-- COALESCE_TIMEOUT with records pending and a limit set sends the vector (R437). -/
def coalesceTimeout : Prop := ∀ (s : State) (fn ring : Nat), fn ≤ 12 → ring < ringCount fn → (s.ring (ringIdx fn ring)).pending ≠ 0 →
  s.fget .cqCoalUs (ringIdx fn ring) ≠ 0 →
  exec (.coalesceTimeout fn ring) s = .next ((s.modRing (ringIdx fn ring) (fun x => { x with pending := 0 })).interrupt fn
    (s.fget .cqVector (ringIdx fn ring)))

/-- QUIESCE_WRITE: 1 sets QUIESCE and starts the drain; 0 clears it and ends a window that still runs (R448, R449). -/
def quiesceWrite : Prop := ∀ (s : State) (p v : Nat), p < 12 → s.blkOpen 0 Blk.part = true →
  (v % 2 = 1 → s.wake.fget .partQuiesce p ≠ 1 →
    exec (.quiesceWrite p v) s = .next (((s.wake.fset .partQuiesce p 1).startDrain p 2 0).settle.proceedAll)) ∧
  (v % 2 = 0 → exec (.quiesceWrite p v) s = .next (((s.wake.fset .partQuiesce p 0).modPart p (fun x =>
    { x with drain := x.drain.filter (fun d => d.why != 2) })).settle.proceedAll))

/-- HOLD_WRITE: the pin follows at once, except during the minimum pulse, where a 0 waits for its end (R489). -/
def holdWrite : Prop := ∀ (s : State) (v : Nat),
  exec (.holdWrite v) s = .next (
    if s.fc.pulse then { s with fc := { s.fc with release := v % 2 == 0 } }
    else
      let s1 := s.fset .fcHold 0 (v % 2)
      s1.fset .fcAsserted 0 (bitNat (s1.fget .fcHold 0 == 1 || s1.safe)))

/-- FC_ACK of a record in the log acknowledges it and stops its timer (R487). -/
def fcAck : Prop := ∀ (s : State) (seq i : Nat), s.slotOf seq = some i → exec (.fcAck seq) s = .next (s.ackSlot i)

/-- FC_ACK_ALL with bit 0 acknowledges every record of the log and stops every timer (R487, R488). -/
def fcAckAll : Prop := ∀ (s : State) (v : Nat), bitOf v 0 = true →
  exec (.fcAckAll v) s =
    .next { s with fc := { s.fc with timers := [], log := s.fc.log.map (fun e => (e.1, { e.2 with acked := true })) } }

/-- NUM_FLAGS_CLEAR of a live tile clears the flags written as 1 (R106, R107). -/
def numFlagsClear : Prop := ∀ (s : State) (t v : Nat), s.blkOpen 0 Blk.num = true → s.blkLive Blk.num t = true →
  exec (.numFlagsClear t v) s = .next ((Blk.num.rowsAt t 0).foldl (fun s x => s.writeField x v) s.wake)

/-- KV_CTRL_WRITE of a legal value to a bay of a partition with nothing live or running sets both fields on every bay of it, and
STATE of SEQ_STATUS follows (R405). -/
def kvCtrlWrite : Prop := ∀ (s : State) (fn b v p : Nat), s.bayOpen fn b Blk.kv = true → 1 ≤ bitsOf v 8 0 → bitsOf v 8 0 ≤ 256 → bitsOf v 11 9 ≤ 4 →
  s.wake.partOfBay b = some p → s.wake.stepRuns p = false → (s.wake.baysOf p).any (fun b => !(s.wake.bay b).seqs.isEmpty) = false →
  exec (.kvCtrlWrite fn b v) s = .next ((s.wake.baysOf p).foldl State.seqRestIdle
    ((s.wake.baysOf p).foldl (fun s b => (s.fset .kvLayers b (bitsOf v 8 0)).fset .kvRope b (bitsOf v 11 9)) s.wake))

/-- SEQ_AREA_WRITE of a legal area is the bay's step area (R374). -/
def seqAreaWrite : Prop := ∀ (s : State) (fn b area size p : Nat), s.bayOpen fn b Blk.seq = true → s.wake.partOfBay b = some p →
  (s.wake.part p).cfg.areaOk b area size = true →
  exec (.seqAreaWrite fn b area size) s = .next (
    let s1 := (s.wake.fset .seqArea b area).fset .seqAreaSize b size
    if (s1.bay b).stepping || (s1.bay b).closing then s1 else s1.seqRest b)

/-- FLASH_NS_WRITE of a legal namespace with no flash command of the partition at work on it sets all three registers; a write that is not legal sets none (R239). -/
def flashNsWrite : Prop := ∀ (s : State) (p base size slot : Nat), p < 12 → s.blkOpen 0 Blk.flash = true →
  exec (.flashNsWrite p base size slot) s = .next (
    if (s.wake.part p).flash = none ∧ base < 65536 ∧ size < 65536 ∧ slot < 65536 ∧ 4 * slot ≤ size ∧
        base + size ≤ 2 ^ 15 ∧ (List.range 12).any (fun q => q != p && nsMeet base size (s.wake.fget .flashNsBase q) (s.wake.fget .flashNsSize q)) = false
    then (((s.wake.fset .flashNsBase p base).fset .flashNsSize p size).fset .flashCkptSlot p slot).showSlots p
    else s.wake)

/-- REPLAY_ARM sets ARM: STATE is ARMED, unless a capture or a run goes on (R498). -/
def replayArm : Prop := ∀ (s : State) (p : Nat), s.regsOpen false = true → p < 12 →
  exec (.replayArm p) s = .next (
    let s1 := s.wake.fset .rplArm p 1
    if s1.fget .rplState p = 2 ∨ s1.fget .rplState p = 5 then s1 else s1.fset .rplState p 1)

/-- REPLAY_DISARM clears ARM: a capture that has not started is off (R498). -/
def replayDisarm : Prop := ∀ (s : State) (p : Nat), s.regsOpen false = true → p < 12 →
  exec (.replayDisarm p) s = .next (
    let s1 := s.wake.fset .rplArm p 0
    if s1.fget .rplState p = 1 then s1.fset .rplState p 0 else s1)

/-- REGISTER_WRITE of an aligned register, by where it lies: an MSI-X table, a doorbell, or a register of a block that answers; 32 bits are written,
and what it starts goes on (R8, R431, R437). -/
def registerWrite : Prop := ∀ (s : State) (fn a v : Nat), fn ≤ 12 → a % 4 = 0 →
  (msixBase fn ≤ a → a < msixBase fn + 16 * vectorCount fn → s.ringsOpen fn = true →
    exec (.registerWrite fn a v) s = .next ((s.wake.writeMsix fn (a - msixBase fn) (v % 2 ^ 32)).settle.proceedAll)) ∧
  (¬ (msixBase fn ≤ a ∧ a < msixBase fn + 16 * vectorCount fn) → bellBase fn ≤ a → a < bellBase fn + 8 * ringCount fn → a % 8 = 0 → s.ringsOpen fn = true →
    exec (.registerWrite fn a v) s = .next ((s.wake.ringBell fn ((a - bellBase fn) / 8) (v % 2 ^ 32)).settle.proceedAll)) ∧
  (∀ k i o, ¬ (msixBase fn ≤ a ∧ a < msixBase fn + 16 * vectorCount fn) → ¬ (bellBase fn ≤ a ∧ a < bellBase fn + 8 * ringCount fn) →
    s.blkAt fn a = some (k, i, o) → (if k = Blk.ring then s.ringsOpen fn else s.blkOpen fn k) = true → s.blkLive k i = true →
    exec (.registerWrite fn a v) s = .next (((if k = Blk.fc ∨ k = Blk.pwr then s else s.wake).writeBlk k i o (v % 2 ^ 32)).settle.proceedAll))

/-! ### Virtual functions -/

/-- VF_ENABLE outside RECOVERY: VF 1 to VF NumVFs are up (R427). -/
def vfEnable : Prop := ∀ (s : State) (n : Nat), s.fget .secStage 0 ≠ 2 →
  exec (.vfEnable n) s = .next { s with numVfs := n % 2 ^ 16, vfUp := vfMask (n % 2 ^ 16) }

/-- VF_DISABLE of a VF that is up and not being disabled: its rings and vectors are reset, its session ends, and its drain window starts; with
nothing in flight the window ends at once (R428, R443, R448, R449). -/
def vfDisable : Prop := ∀ (s : State) (vf : Nat), 1 ≤ vf → vf ≤ 12 → s.fnUp vf = true → (s.part (vf - 1)).drain.any (fun d => d.why == 1) = false →
  exec (.vfDisable vf) s = .next (
    let p := vf - 1
    let s1 := (((s.resetVf (p + 1)).startDrain p 1 0).endSession p).resetVf (p + 1)
    (if (s1.part p).drain.any (fun d => d.why == 1) then s1 else s1.windowEnd p { why := 1, cmd := 0 }).settle.proceedAll)

/-! ### Reset and power -/

/-- WARM_RESET of a module that is powered and not in reset (R266, R428, R462): pending sparges are done and kettle runs stop, what a warm reset clears
is cleared, the collector keeps what is HELD, the module boots, and spare kettle lanes take over (R273). -/
def warmReset : Prop := ∀ (s : State) (external : Bool), s.pwr.powered = true → s.pwr.perst = false →
  exec (.warmReset external) s = .next (
    let s1 := (List.range 12).foldl (fun s p => if s.fget .spargePending p = 1 then s.sparge (s.baysOf p) [p] else s) s
    let s2 := (List.range 12).foldl (fun s b => s.stopKettle b) s1
    let s3 := ((s2.clearWarm).keepFaults s external).boot
    (State.settle { s3.fset .pwrState 0 (if s3.safe then 5 else 0) with due := s2.due.filter (fun r => r.source == Source.kettleUndoUncorrectable) }).spareLanes)

/-- PERST_N_RELEASE of a powered module whose PERST_N is low: it boots (R472, R521). -/
def perstNRelease : Prop := ∀ (s : State), s.pwr.powered = true → s.pwr.perst = true →
  exec .perstNRelease s = .next (State.boot { s with pwr := { s.pwr with perst := false } })

/-- MODULE_POWER_ON: the straps are sampled; PWRGOOD is released, and PERST_N is low (R520, R521). -/
def modulePowerOn : Prop := ∀ (s : State) (straps : Nat), s.pwr.powered = false →
  exec (.modulePowerOn straps) s = .next { s with pwr := { s.pwr with powered := true, perst := true, pwrgood := true, straps := straps % 16 } }

/-- POWER_DOWN below 38 V or above 60.5 V: every volatile state is lost (R516, R522). -/
def powerDown : Prop := ∀ (s : State) (v : Nat), s.pwr.powered = true → (v < 3800 ∨ 6050 < v) → exec (.powerDown v) s = .next s.cold

/-- POWER_CAP_ADJUST: the tick of 100 µs counts, shows CAPPING, and lowers DUTY where the mean exceeds the cap or a temperature action holds; the tick
of 1 ms raises it below 97 % of the cap where none does (R511). -/
def powerCapAdjust : Prop := ∀ (s : State) (mean : Nat), s.pwr.powered = true →
  exec (.powerCapAdjust mean false) s = .next (
    let s1 := (s.countUs 100).showCapping (decide (s.fget .pwrCap 0 < mean))
    if decide (s.fget .pwrCap 0 < mean) || s1.hot then s1.fset .pwrDuty 0 (max 1 (s1.fget .pwrDuty 0 - 1)) else s1) ∧
  exec (.powerCapAdjust mean true) s = .next (
    if 100 * mean < 97 * s.fget .pwrCap 0 ∧ s.hot = false then s.fset .pwrDuty 0 (min 16 (s.fget .pwrDuty 0 + 1)) else s)

/-- POWER_PEAK_LIMIT above 4,000 W or 100 A: DUTY is at most 8, and CAPPING is set (R512). -/
def powerPeakLimit : Prop := ∀ (s : State) (watts centiamps : Nat), s.pwr.powered = true → (4000 < watts ∨ 10000 < centiamps) →
  exec (.powerPeakLimit watts centiamps) s = .next ((s.showCapping true).fset .pwrDuty 0 (min 8 (s.fget .pwrDuty 0)))

/-- THERMAL_THROTTLE: a junction, or a stack, that reaches 95 °C lowers DUTY and shows THROTTLE; the junction raises its source (R514). -/
def thermalThrottle : Prop := ∀ (s : State) (c : Nat), s.pwr.powered = true → 95 ≤ c →
  (s.pwr.hot95 = false → exec (.thermalThrottle none c) s = .next (
    let s1 := s.fset .pwrTjMax 0 c
    (State.showThrottle { s1 with pwr := { s1.pwr with hot95 := true } }).dutyDown.raise Source.thermalThrottle Kind.chip 0 c)) ∧
  (∀ st, st < 12 → bitOf s.pwr.stackHot st = false → exec (.thermalThrottle (some st) c) s = .next (
    (State.showThrottle { s with pwr := { s.pwr with stackHot := s.pwr.stackHot + 2 ^ st } }).dutyDown))

/-- LIMIT_105: DUTY is 1 (R514). -/
def limit105 : Prop := ∀ (s : State) (c : Nat), s.pwr.powered = true → 105 ≤ c → s.pwr.hot105 = false →
  exec (.limit105 c) s = .next (
    let s1 := s.fset .pwrTjMax 0 c
    ((State.showThrottle { s1 with pwr := { s1.pwr with hot105 := true } }).fset .pwrDuty 0 1).powerEvent .pwrLimit105)

/-- THERMAL_TRIP: THERMTRIP_N is low, and THERMAL_TRIP is raised on the chip or on the stack (R514). -/
def thermalTrip : Prop := ∀ (s : State) (c : Nat), s.pwr.powered = true →
  (115 ≤ c → exec (.thermalTrip none c) s =
    .next ((({ s with pwr := { s.pwr with tripped := true } } : State).fset .pwrTjMax 0 c).startLasting Source.thermalTrip 0 Kind.chip 0 c)) ∧
  (∀ st, st < 12 → 105 ≤ c → exec (.thermalTrip (some st) c) s =
    .next (({ s with pwr := { s.pwr with tripped := true } } : State).startLasting Source.thermalTrip (st + 1) Kind.stack st c))

/-- HBM_REFRESH_DOUBLE of a stack at 85 °C: its refresh rate doubles (R514). -/
def hbmRefreshDouble : Prop := ∀ (s : State) (st c : Nat), s.pwr.powered = true → 85 ≤ c → st < 12 → bitOf s.pwr.refresh2 st = false →
  exec (.hbmRefreshDouble st c) s = .next { s with pwr := { s.pwr with refresh2 := s.pwr.refresh2 + 2 ^ st } }

/-- TEMPERATURE_RECOVERED: each action of a junction or a stack ends at its own threshold (R490, R514). -/
def temperatureRecovered : Prop := ∀ (s : State) (c : Nat), s.pwr.powered = true →
  exec (.temperatureRecovered none c) s = .next (
    let s1 := s.fset .pwrTjMax 0 c
    let s2 := { s1 with pwr := { s1.pwr with hot95 := s1.pwr.hot95 && decide (93 < c), hot105 := s1.pwr.hot105 && decide (100 < c) } }
    State.showThrottle (if c < 115 then s2.endLasting Source.thermalTrip 0 else s2)) ∧
  (∀ st, exec (.temperatureRecovered (some st) c) s = .next (
    let s1 := { s with pwr := { s.pwr with
      refresh2 := if c ≤ 83 then clearBit s.pwr.refresh2 st else s.pwr.refresh2, stackHot := if c ≤ 93 then clearBit s.pwr.stackHot st else s.pwr.stackHot } }
    State.showThrottle (if c < 105 then s1.endLasting Source.thermalTrip (st + 1) else s1)))

/-- SUPPLY_SAG: SAG is set and counted, flash writes complete POWER_SAG, and SUPPLY_SAG is raised (R515). -/
def supplySag : Prop := ∀ (s : State) (v : Nat), s.pwr.powered = true → s.fget .pwrSag 0 ≠ 1 →
  exec (.supplySag v) s = .next (((((s.fset .pwrVoltage 0 v).fset .pwrSag 0 1).finc .pwrSagCount 0 1).powerEvent .pwrSagStart).sagFlash.raise
    Source.supplySag Kind.chip 0 v).proceedAll

/-- SAG_END above 44 V clears SAG (R515). -/
def sagEnd : Prop := ∀ (s : State) (v : Nat), s.fget .pwrSag 0 = 1 → 4400 < v →
  exec (.sagEnd v) s = .next (((s.fset .pwrVoltage 0 v).fset .pwrSag 0 0).powerEvent .pwrSagEnd)

/-- SUPPLY_UNDER below 40 V: the source is raised, and the device is in the safe state with FAULT_N low (R516). -/
def supplyUnder : Prop := ∀ (s : State) (v : Nat), s.pwr.powered = true → v < 4000 →
  exec (.supplyUnder v) s = .next (
    let s1 := (s.fset .pwrVoltage 0 v).startLasting Source.supplyUnder 0 Kind.chip 0 v
    if s1.safe then s1 else ((s1.enterSafe.startQuiet 12).fset .fcAsserted 0 1).settle)

/-- SUPPLY_UNDER_END at 40 V or more: the condition ends (R490). -/
def supplyUnderEnd : Prop := ∀ (s : State) (v : Nat), s.pwr.powered = true → 4000 ≤ v →
  exec (.supplyUnderEnd v) s = .next ((s.fset .pwrVoltage 0 v).endLasting Source.supplyUnder 0)

/-- LEAK shows the leak and raises LEAK (R519). -/
def leak : Prop := ∀ (s : State), s.pwr.powered = true → exec .leak s = .next ((s.fset .pwrLeak 0 1).startLasting Source.leak 0 Kind.chip 0 0)

/-- LEAK_CLEARED: the condition ends (R490). -/
def leakCleared : Prop := ∀ (s : State), s.pwr.powered = true → exec .leakCleared s = .next ((s.fset .pwrLeak 0 0).endLasting Source.leak 0)

/-- PLL_UNLOCK of a locked PLL clears its lock bit and raises PLL_UNLOCK (R49). -/
def pllUnlock : Prop := ∀ (s : State) (n : Nat) (f : Fld), pllField n = some f → s.fget f 0 = 1 →
  exec (.pllUnlock n) s = .next ((s.fset f 0 0).startLasting Source.pllUnlock n Kind.chip 0 n)

/-- PLL_LOCK_REGAINED of an unlocked PLL: the condition ends (R490). -/
def pllLockRegained : Prop := ∀ (s : State) (n : Nat) (f : Fld), pllField n = some f → s.fc.lasting.contains (Source.pllUnlock, n) = true →
  exec (.pllLockRegained n) s = .next ((s.fset f 0 1).endLasting Source.pllUnlock n)

/-- IDLE_ENTRY of a module that runs, is not safe and has nothing under way: the deepest state that PWR_LTR allows
(R507, R508; ASPM as the host has it then, log entry 142). -/
def idleEntry : Prop := ∀ (s : State), s.fget .secStage 0 = 3 → s.safe = false → s.quiescent = true →
  exec .idleEntry s = .next (s.readAspm.powerTo s.readAspm.idleState)

/-- IDLE_WAKE leaves an idle state, and what the ports hold goes out (R509, R510). -/
def idleWake : Prop := ∀ (s : State), exec .idleWake s = .next s.wake.pumpAll

/-! ### The fault collector -/

/-- GRACE_EXPIRY of a timer below SAFE: the whole action of the next level is taken, with its own timer, and the record shows it; at SAFE the scope is
HELD (R486). -/
def graceExpiry : Prop := ∀ (s : State) (seq : Nat) (g : Grace), s.fc.timers.find? (fun g => g.seq == seq) = some g →
  exec (.graceExpiry seq) s = .next (
    let s1 := { s with fc := { s.fc with timers := s.fc.timers.filter (fun x => x != g) } }
    let part := if g.scope < 12 then g.scope else 0xFF
    (if g.level = Severity.safe then s1.hold g.scope
      else ((s1.showLevel g.seq (g.level + 1)).startGrace g.seq (g.level + 1) part g.source g.kind g.inst).act (g.level + 1) part).settle.markTamper
        s.safe g.source)

/-- QUIET_EXPIRY of a scope that nothing keeps: it leaves its fault state, and the exit is recorded; where it would exceed LIMIT the scope is HELD,
and RECOVERY_LIMIT raised (R490 to R492). -/
def quietExpiry : Prop := ∀ (s : State) (scope : Nat), s.fc.quiet.contains scope = true → s.isHeld scope = false → s.stillRaised scope = false →
  (scope = 12 → s.fc.byTamper = false ∧ s.fc.byParity = false) →
  exec (.quietExpiry scope) s = .next (
    if s.fget .fcLimit 0 < s.recentExits scope + 1 then (s.hold scope).raiseLimit scope
    else if scope < 12 then (s.recordExit scope).leaveContained scope else (s.recordExit scope).leaveSafe)

/-- FAULT_PULSE_END: a write of 0 to HOLD during the pulse takes effect, and the pin follows (R489). -/
def faultPulseEnd : Prop := ∀ (s : State), s.fc.pulse = true →
  exec .faultPulseEnd s = .next (
    let s1 := if s.fc.release then s.fset .fcHold 0 0 else s
    State.driveFault { s1 with fc := { s1.fc with pulse := false, release := false } })

/-- COLLECTOR_PARITY: SELF_FAULT is set, the device is in the safe state and FAULT_N low, without severity, timer or log record (R494). -/
def collectorParity : Prop := ∀ (s : State),
  exec .collectorParity s = .next (
    let s1 := { s with fc := { s.fc with byParity := s.fc.byParity || !s.safe } }
    (((s1.fset .fcSelfFault 0 1).enterSafe).fset .fcAsserted 0 1).settle)

/-! ### Security -/

/-- TAMPER of a powered module: its cause bit is set, sessions end, the vault is wiped, and TAMPER is raised (R463, R464). -/
def tamper : Prop := ∀ (s : State) (cause : Nat), cause < 5 → s.pwr.powered = true →
  exec (.tamper cause) s = .next (
    let s1 := s.fset1s .secCause 0 (2 ^ cause)
    ((State.endSessions (({ s1 with sec := { s1.sec with identity := false, wiped := true }, err := { s1.err with vault := [] } } : State).fset .secKeysValid 0 0)).raise Source.tamper
      Kind.chip 0 cause).markTamper s.safe Source.tamper)

/-- RECOVERY_CHUNK k in RECOVERY: its bytes land in bay 0's LPDDR5X, and CHUNK_DONE is k (R473). -/
def recoveryChunk : Prop := ∀ (s : State) (k : Nat) (data : List Byte), s.fget .secStage 0 = 2 → k < 64 →
  exec (.recoveryChunk k data) s = .next (
    (({ s with sec := { s.sec with recovering := true } } : State).devWrite (lpBase 0 + chunkBytes * k) (data.take chunkBytes)).fset .secChunkDone 0 k)

/-- RECOVERY_GO in RECOVERY: an image that passes the checks of R472 is programmed and a warm reset follows; one that does not sets ERROR (R473). -/
def recoveryGo : Prop := ∀ (s : State), s.fget .secStage 0 = 2 → s.fget .pwrSag 0 ≠ 1 →
  exec .recoveryGo s = .next (
    let bs := s.devRead (lpBase 0) (min (s.fget .secRecoveryLen 0) (2 ^ 25))
    if s.fget .secRecoveryLen 0 ≤ 2 ^ 25 ∧ fwCheck (s.fget .secFwSvn 0) bs = 0 then ((s.fset .secError 0 0).programNor bs).warm false
    else s.fset .secError 0 1)

/-- The mailbox of a function answers a request of SPDM in connection state `need` or above (R443, R476). -/
abbrev spdmTaken (s : State) (fn need : Nat) : Prop := s.mailbox fn = true ∧ need ≤ Tab.get 0 s.wake.sec.spdm fn

/-- GET_VERSION answers, and the connection starts anew (R476). -/
def getVersion : Prop := ∀ (s : State) (fn : Nat) (req : List Byte), spdmTaken s fn 0 →
  exec (.getVersion fn req) s = .next ((s.wake.doe fn Spdm.version req []).setSpdm fn 1)

/-- GET_CAPABILITIES follows GET_VERSION (R476). -/
def getCapabilities : Prop := ∀ (s : State) (fn : Nat) (req : List Byte), spdmTaken s fn 1 →
  exec (.getCapabilities fn req) s = .next ((s.wake.doe fn Spdm.capabilities req []).setSpdm fn 2)

/-- NEGOTIATE_ALGORITHMS follows GET_CAPABILITIES (R476). -/
def negotiateAlgorithms : Prop := ∀ (s : State) (fn : Nat) (req : List Byte), spdmTaken s fn 2 →
  exec (.negotiateAlgorithms fn req) s = .next ((s.wake.doe fn Spdm.algorithms req []).setSpdm fn 3)

/-- GET_DIGESTS answers a negotiated connection (R476). -/
def getDigests : Prop := ∀ (s : State) (fn : Nat) (req : List Byte), spdmTaken s fn 3 →
  exec (.getDigests fn req) s = .next (s.wake.doe fn Spdm.digests req [])

/-- GET_CERTIFICATE answers a negotiated connection (R476). -/
def getCertificate : Prop := ∀ (s : State) (fn : Nat) (req : List Byte), spdmTaken s fn 3 →
  exec (.getCertificate fn req) s = .next (s.wake.doe fn Spdm.certificate req [])

/-- CHALLENGE is answered with the signed measurements of the mailbox's view while the identity key stands (R464, R476). -/
def challenge : Prop := ∀ (s : State) (fn : Nat) (req : List Byte), spdmTaken s fn 3 → s.sec.identity = true →
  exec (.challenge fn req) s = .next (s.wake.doe fn Spdm.challenge req (s.measured fn req))

/-- GET_MEASUREMENTS is answered with them where it asks for no signature, or the identity key stands (R464, R476). -/
def getMeasurements : Prop := ∀ (s : State) (fn : Nat) (req : List Byte), spdmTaken s fn 3 → (s.sec.identity = true ∨ bitOf (leField req 2 2) 0 = false) →
  exec (.getMeasurements fn req) s = .next (s.wake.doe fn Spdm.measurements req (s.measured fn req))

/-- KEY_EXCHANGE on a VF's mailbox, its partition without session and without command in flight: a session with keys of its own waits for FINISH
(R443, R464). -/
def keyExchange : Prop := ∀ (s : State) (fn : Nat) (req : List Byte), spdmTaken s fn 3 → fn ≠ 0 → s.sec.identity = true →
  (s.part (fn - 1)).session.stage = 0 → s.cmds.any (fun c => c.part == fn - 1 || c.fn == fn) = false →
  exec (.keyExchange fn req) s = .next ((s.wake.doe fn Spdm.keyExchange req []).newKeys fn (fun x => { Session.none with stage := 1, keyId := x.keyId }))

/-- FINISH: the session is established, CONF_ACTIVE is set, and a host or remote capture ends (R443, R498). -/
def finish : Prop := ∀ (s : State) (fn : Nat) (req : List Byte), spdmTaken s fn 3 → fn ≠ 0 → (s.part (fn - 1)).session.stage = 1 →
  exec (.finish fn req) s = .next (((s.wake.doe fn Spdm.finish req []).modSession fn (fun x => { x with stage := 2 })).fset .partConfActive
    (fn - 1) 1 |>.endOpenCapture (fn - 1))

/-- KEY_UPDATE of an established session changes its keys and is counted (R443). -/
def keyUpdate : Prop := ∀ (s : State) (fn : Nat) (req : List Byte), spdmTaken s fn 3 → fn ≠ 0 → (s.part (fn - 1)).session.stage = 2 →
  exec (.keyUpdate fn req) s = .next (((s.wake.doe fn Spdm.keyUpdate req []).newKeys fn (fun x => { x with updates := x.updates + 1 })).finc
    .confKeyUpdates (fn - 1) 1)

/-- END_SESSION ends the session, and the VF is disabled (R443, R449). -/
def endSession : Prop := ∀ (s : State) (fn : Nat) (req : List Byte), spdmTaken s fn 3 → fn ≠ 0 → (s.part (fn - 1)).session.stage ≠ 0 →
  exec (.endSession fn req) s =
    .next ((((s.wake.doe fn Spdm.endSession req []).endSession (fn - 1)).disableVf (fn - 1)).settle.proceedAll)

/-! ### The management bus -/

/-- SENSOR_UPDATE of sensor 1 to 23: the reading stands, and one that crosses a threshold sends an event (R450). -/
def sensorUpdate : Prop := ∀ (s : State) (n v : Nat), s.pwr.powered = true → 1 ≤ n → n ≤ 23 →
  exec (.sensorUpdate n v) s = .next (
    let s1 := (State.showReading { s with pwr := { s.pwr with sensors := Tab.set 0 s.pwr.sensors n v } } n v).showAlert
    if s1.levelOf n = s.levelOf n then s1 else s1.bmc Bmc.event [] [n, v, s1.levelOf n])

/-- MCTP_CONTROL_MESSAGE is answered, and Set Endpoint ID sets the EID (R450; its layout: log entry 8). -/
def mctpControlMessage : Prop := ∀ (s : State) (req : List Byte), s.pwr.powered = true →
  exec (.mctpControlMessage req) s = .next (
    let s1 := match setsEid req with
      | some e => { s with pwr := { s.pwr with eid := e } }
      | none => s
    s1.bmc Bmc.control req [s1.pwr.eid, s1.pwr.straps])

/-- PLDM_BASE_REQUEST is answered (R450). -/
def pldmBaseRequest : Prop := ∀ (s : State) (req : List Byte), s.pwr.powered = true → exec (.pldmBaseRequest req) s = .next (s.bmc Bmc.base req [])

/-- PLDM_PLATFORM_REQUEST is answered with the readings and levels of sensors 1 to 26 (R450). -/
def pldmPlatformRequest : Prop := ∀ (s : State) (req : List Byte), s.pwr.powered = true →
  exec (.pldmPlatformRequest req) s = .next (s.bmc Bmc.platform req
    (((List.range 26).map (fun i => i + 1)).map s.sensor ++ ((List.range 26).map (fun i => i + 1)).map s.levelOf))

/-- PLDM_FRU_REQUEST is answered with the serial number (R450). -/
def pldmFruRequest : Prop := ∀ (s : State) (req : List Byte), s.pwr.powered = true →
  exec (.pldmFruRequest req) s = .next (s.bmc Bmc.fru req [s.fget .hostSerial 0])

/-! ### Frames -/

/-- Nothing has changed but tile t and the register fields `fs` of instance t. -/
abbrev onlyTile (t : Nat) (fs : List Fld) (s s' : State) : Prop :=
  { s' with regs := s.regs, tiles := s.tiles } = s ∧ (∀ u, u ≠ t → s'.tile u = s.tile u) ∧ ∀ f i, f ∉ fs ∨ i ≠ t → s'.fget f i = s.fget f i

/-- The same, where device memory, and with it which of its codewords err, may have changed too. -/
abbrev onlyTileMem (t : Nat) (fs : List Fld) (s s' : State) : Prop :=
  { s' with regs := s.regs, tiles := s.tiles, dev := s.dev, bad := s.bad, lpBad := s.lpBad, err := s.err } = s ∧ (∀ u, u ≠ t → s'.tile u = s.tile u) ∧
    ∀ f i, f ∉ fs ∨ i ≠ t → s'.fget f i = s.fget f i

/-- The tile goes on in program order without leaving the store or stalling a STRIP loop (R173). -/
abbrev goesOn (s : State) (t : Nat) : Prop :=
  ∃ x pc, closeLoops 5 { s.tile t with mods := [], modding := false } (s.fget .tpPc t + 1) = some (x, pc) ∧ pc < 16384

/-- Register r is no index register of an open loop, so that going on leaves it. -/
abbrev noIndex (s : State) (t r : Nat) : Prop := ∀ l ∈ (s.tile t).loops, l.idxReg ≠ r

/-- Fields that every dispatched word changes (R164, R172). -/
abbrev progFields : List Fld := [.tpPc, .tpState, .tpDispatched]

/-- A CTL word that goes on changes nothing outside its tile, and inside it no scalar register but `d` and the index registers of loops, no
mask and no memory of the program. -/
abbrev ctlFrame (s s' : State) (t : Nat) (d : Option Nat) : Prop :=
  onlyTile t progFields s s' ∧ (∀ r, some r ≠ d → noIndex s t r → (s'.tile t).sreg r = (s.tile t).sreg r) ∧
    (s'.tile t).masks = (s.tile t).masks ∧ (s'.tile t).remain = (s.tile t).remain ∧ (s'.tile t).prog = (s.tile t).prog ∧
    (s'.tile t).flight = (s.tile t).flight

/-- Fields that a vector word changes besides. -/
abbrev vecFields : List Fld := progFields ++ [.numVector, .vecIssued, .vecBusy, .mxmBusy]

/-- An element-wise vector word: nothing changes outside its tile; inside it no element of a register other than VD, no element of VD from VL
on, no mask, and no scalar register but the index registers of loops (R143). -/
def vecFrame (i : Nat → Instr) (op : Nat) (fmtOk : Nat → Bool) (uses : Nat → List (Nat × Nat)) : Prop :=
  ∀ s t w s', s.issues t 2 op w (fmtOk (wFmt w)) (uses w) → negOk w = true → goesOn s t → s.fget .vecVl t ≤ 1024 → exec (i t) s = .next s' →
    onlyTile t vecFields s s' ∧
    (∀ v j, j < 1024 → v ≠ wVd w ∨ s.fget .vecVl t ≤ j → (s'.tile t).velem v j = (s.tile t).velem v j) ∧
    (∀ r, noIndex s t r → (s'.tile t).sreg r = (s.tile t).sreg r) ∧ (s'.tile t).masks = (s.tile t).masks ∧ (s'.tile t).remain = (s.tile t).remain

/-- Fields that a bank-side word changes. -/
abbrev bankFields : List Fld := progFields ++ [.numBank, .numGradOf, .numGradInv, .spBankside, .spCorrected, .vecBusy, .mxmBusy]

/-- BNK.ADD, MAX and SADD, where no word in flight of another queue shares a word with what they write (R190): no byte of memory changes outside the destination's COUNT elements, nothing else outside the tile, and inside it no
vector register, no mask, and no scalar register but the index registers of loops (R193, R194). -/
def bankFrame (i : Nat → Instr) (op : Nat) (fmtOk : Nat → Bool) (treg : Nat → Bool) : Prop :=
  ∀ s t w s', s.issues t 4 op w (fmtOk (wFmt w)) (bnkUses w) →
    (bankPair op (wFmt w) (bDstFmt w) && countOk w && treg w && rangesOk w true) = true → s.spFaults t (bankReads w) = none →
    (s.tile t).meets Req.control [(64 * bDst w, fmtBytes (bDstFmt w) (bCount w))] = [] → goesOn s t →
    exec (i t) s = .next s' →
    onlyTileMem t bankFields s s' ∧
    (∀ a, a < wordAddr t (bDst w) ∨ wordAddr t (bDst w) + fmtBytes (bDstFmt w) (bCount w) ≤ a → Mem.byte s'.dev a = Mem.byte s.dev a) ∧
    (s'.tile t).vregs = (s.tile t).vregs ∧ (s'.tile t).masks = (s.tile t).masks ∧
    (∀ r, noIndex s t r → (s'.tile t).sreg r = (s.tile t).sreg r)

end Sys2Proof.Claims

/-- A step runs the command in front. -/
def Obligations.StepRunsFront : Prop := ∀ (s : State) (c : Instr), step { s with pending := c :: s.pending } = exec c s

/-- An empty queue ticks (the model's choice, log entry 1). -/
def Obligations.IdleTicks : Prop := ∀ (s : State), s.pending = [] → step s = .next s.tick

/-- No command ends in a fault or a refusal. -/
def Obligations.ExecAnswers : Prop := ∀ (c : Instr) (s : State), ∃ t, exec c s = .next t

/-- No command touches the queue. -/
def Obligations.QueueStands : Prop := ∀ (c : Instr) (s t : State), exec c s = .next t → t.pending = s.pending

/-- Reset is in canonical form. -/
def Obligations.ResetForm : Prop := State.reset.Canon ∧ State.reset.FieldsFit

/-- Every step keeps the canonical form and the widths of the registers. -/
def Obligations.StepKeepsForm : Prop := ∀ (s t : State), s.Canon → s.FieldsFit → step s = .next t → t.Canon ∧ t.FieldsFit

/-- Registers after reset. -/
def Obligations.ResetRegisters : Prop :=
  (∀ p, State.reset.fget .turnPhase p = 0 ∧ State.reset.fget .turnLayoutEpoch p = 0 ∧ State.reset.fget .turnPolicyVersion p = 0) ∧
    (∀ b, State.reset.fget .seqBarrier b = 1) ∧ (∀ t, State.reset.fget .tpWaitLimit t = 1000000) ∧
    State.reset.fget .hostDrainWindow 0 = 10000 ∧ State.reset.fget .fcGraceNotify 0 = 1000000 ∧ State.reset.fget .fcGraceContain 0 = 10000000 ∧
    State.reset.fget .fcGraceSafe 0 = 60000000 ∧ State.reset.fget .fcQuiet 0 = 1000000 ∧ State.reset.fget .fcWindow 0 = 3600 ∧
    State.reset.fget .fcLimit 0 = 3 ∧ State.reset.fget .fcPulse 0 = 10 ∧ State.reset.fget .pwrCap 0 = 3800 ∧ State.reset.fget .pwrDuty 0 = 16

/-- A register field reads as the value last stored in it. -/
def Obligations.RegisterFields : Prop :=
  ∀ (s : State) (f g : Fld) (i j v : Nat),
    (s.fset f i v).fget f i = v % 2 ^ f.width ∧ (g ≠ f ∨ j ≠ i → (s.fset f i v).fget g j = s.fget g j) ∧
      { s.fset f i v with regs := s.regs } = s

/-- Scalar registers of a tile. -/
def Obligations.ScalarRegisters : Prop :=
  ∀ (x : Tile) (r q v : Nat),
    (x.setSreg r v).sreg 0 = 0 ∧ (r ≠ 0 → (x.setSreg r v).sreg r = v % 2 ^ 64) ∧ (q ≠ r → (x.setSreg r v).sreg q = x.sreg q) ∧
      (x.setSreg 0 v) = x ∧ (x.setSreg r v).vregs = x.vregs ∧ (x.setSreg r v).masks = x.masks

/-- A byte of device memory reads as last written. -/
def Obligations.DeviceMemory : Prop :=
  ∀ (s : State) (a x : Nat) (bs : List Byte), s.badEdge a bs.length = false →
    Mem.byte (s.devWrite a bs).dev x = if a ≤ x ∧ x < a + bs.length then bs.getD (x - a) 0 else Mem.byte s.dev x

/-- Numbers in memory are little-endian. -/
def Obligations.LittleEndian : Prop :=
  ∀ (m : Mem) (a n v : Nat), Mem.readNat (Mem.writeNat m a n v) a n = v % 2 ^ (8 * n) ∧
    ∀ i, i < n → (Mem.byte (Mem.writeNat m a n v) (a + i)).toNat = v / 2 ^ (8 * i) % 256

/-- INT8, INT4 and INT32. -/
def Obligations.IntegerFormats : Prop :=
  (∀ x, x < 256 → decodeElem 3 x 0 = (Val.ofInt (if x < 128 then (x : Int) else x - 256), 0)) ∧
    (∀ x, x < 16 → decodeElem 4 x 0 = (Val.ofInt (if x < 8 then (x : Int) else x - 16), 0)) ∧
    (∀ x, x < 2 ^ 32 → decodeElem 7 x 0 = (Val.ofInt (if x < 2 ^ 31 then (x : Int) else x - 2 ^ 32), 0)) ∧
    (∀ (s : State) (a i : Nat), s.elem 4 a (2 * i) = (Mem.byte s.dev (a + i)).toNat % 16 ∧
      s.elem 4 a (2 * i + 1) = (Mem.byte s.dev (a + i)).toNat / 16) ∧
    ∀ (x y rest : Nat) (more : List Nat), x < 16 → y < 16 →
      packElems 4 rest (x :: y :: more) = BitVec.ofNat 8 (x + 16 * y) :: packElems 4 rest more

/-- INT32 addition saturates. -/
def Obligations.IntegerSums : Prop :=
  ∀ a b : Nat,
    let v := toSigned 32 a + toSigned 32 b
    (i32add a b).bits < 2 ^ 32 ∧ toSigned 32 (i32add a b).bits = max (-(2 ^ 31)) (min (2 ^ 31 - 1) v) ∧
      ((i32add a b).fl = if v < -(2 ^ 31) ∨ 2 ^ 31 - 1 < v then flOF else 0)

/-- Event counters stop at their largest value. -/
def Obligations.EventCounters : Prop :=
  ∀ (s : State) (t ev n : Nat), ev < 64 →
    (s.fget .ev (64 * t + ev) + n < 2 ^ 32 →
      (s.signalTile t ev n).fget .ev (64 * t + ev) = s.fget .ev (64 * t + ev) + n ∧ { s.signalTile t ev n with regs := s.regs } = s ∧
      ∀ f i, f ≠ .ev ∨ i ≠ 64 * t + ev → (s.signalTile t ev n).fget f i = s.fget f i) ∧
    (2 ^ 32 ≤ s.fget .ev (64 * t + ev) + n →
      (s.fset .ev (64 * t + ev) (2 ^ 32 - 1)).fget .ev (64 * t + ev) = 2 ^ 32 - 1 ∧
      s.signalTile t ev n = (s.fset .ev (64 * t + ev) (2 ^ 32 - 1)).raise Source.eventOverflow Kind.tile t ev)

/-- A refused descriptor completes with the status of its first failing check. -/
def Obligations.RefusedCommand : Prop :=
  ∀ (s : State) (fn ring op : Nat) (spec : State → BitVec 512 → Spec) (later : State → BitVec 512 → Nat) (start : State → Cmd → State)
    (d : BitVec 512), s.fetchable fn ring = true → s.slotDesc fn ring = some d → dField d 0 0 = op → s.stalled (spec s d) = false →
    let s1 := s.popSlot fn ring
    let slot := s.fget .sqHead (ringIdx fn ring)
    (s1.refusal fn d (spec s d) ≠ 0 →
      s.hostCmd fn ring op spec later start = (s1.reply fn ring slot d (spec s d).partNo (s1.refusal fn d (spec s d)) 0 0).settle) ∧
    (s1.refusal fn d (spec s d) = 0 → later s1 d ≠ 0 →
      s.hostCmd fn ring op spec later start = (s1.reply fn ring slot d (spec s d).partNo (later s1 d) 0 0).settle)

/-- Turn commands come from the PF alone. -/
def Obligations.TurnOnlyFromPf : Prop :=
  ∀ (s : State) (fn ring : Nat) (d : BitVec 512), fn ≠ 0 → s.fetchable fn ring = true → s.slotDesc fn ring = some d →
    (dField d 20 20 < 12 → s.fget .rplState (dField d 20 20) ≠ 2) → (s.popSlot fn ring).safe = false → dField d 1 1 < 4 → dZero d 7 2 = true →
    let t := (((s.popSlot fn ring).reply fn ring (s.fget .sqHead (ringIdx fn ring)) d (if dField d 20 20 < 12 then dField d 20 20 else 0xFF)
      Status.badState 0 0).settle).proceedAll
    (dField d 0 0 = 0x60 → exec (.turnBegin fn ring) s = .next t) ∧ (dField d 0 0 = 0x61 → exec (.turnCommit fn ring) s = .next t) ∧
      (dField d 0 0 = 0x62 → exec (.turnAbandon fn ring) s = .next t)

/-- TURN_ABANDON after step 6 is too late. -/
def Obligations.AbandonTooLate : Prop :=
  ∀ (s : State) (fn ring : Nat) (d : BitVec 512) (t : Turn),
    let k := s.turnSpec fn 0x62 d (dZero d 63 21)
    let p := dField d 20 20
    let s1 := s.popSlot fn ring
    let s2 := s1.reply fn ring (s.fget .sqHead (ringIdx fn ring)) d k.partNo Status.tooLate 0 0
    s.fetchable fn ring = true → s.slotDesc fn ring = some d → dField d 0 0 = 0x62 → s.stalled k = false → s1.refusal fn d k = 0 →
    (s1.part p).turn = some t → s1.fget .turnPhase p ≠ Phase.halted → t.abandon = 0 → dField d 19 16 = t.turnId →
    6 ≤ s1.fget .turnStep p →
    exec (.turnAbandon fn ring) s = .next s2.settle.proceedAll ∧ (s2.part p).turn = some t ∧ s2.fget .turnStep p = s1.fget .turnStep p

/-- An illegal word has no effect but its fault. -/
def Obligations.IllegalWord : Prop :=
  ∀ (s : State) (t cls op w : Nat) (fmtOk : Nat → Bool) (uses : Nat → List (Nat × Nat)) (run : State → Nat → State),
    s.dispatching t = true → Tab.get false (s.tile t).progBad (s.fget .tpPc t) = false → w = applyMods ((s.tile t).word (s.fget .tpPc t)) (s.tile t).mods →
    (wFence w = false ∨ (s.tile t).flight = []) →
    (8 ≤ wCls w → s.tileRow t cls op fmtOk uses run = s.illegal t Reason.badClass) ∧
    (wCls w < 8 → opNamed (wCls w) (wOp w) = false → s.tileRow t cls op fmtOk uses run = s.illegal t Reason.badOp) ∧
    (wCls w < 8 → wCls w = cls → wOp w = op → opNamed cls op = true →
      (fmtOk (wFmt w) = false → s.tileRow t cls op fmtOk uses run = s.illegal t Reason.badFormat) ∧
      (fmtOk (wFmt w) = true → onlyUses w (headerUses w ++ uses w) = false → s.tileRow t cls op fmtOk uses run = s.illegal t Reason.reservedSet) ∧
      (fmtOk (wFmt w) = true → onlyUses w (headerUses w ++ uses w) = true → (s.tile t).modding = true → cls = 0 →
        s.tileRow t cls op fmtOk uses run = s.illegal t Reason.modTarget))

/-- What CTL.NOP, LI, ALU and VXFER leave alone. -/
def Obligations.ControlFrame : Prop :=
  ∀ (s s' : State) (t w : Nat), Claims.goesOn s t →
    (s.issues t 0 0 w (wFmt w == 0) [] → exec (.ctlNop t) s = .next s' →
      Claims.ctlFrame s s' t none ∧ (s'.tile t).vregs = (s.tile t).vregs) ∧
    (s.issues t 0 1 w (wFmt w == 0) [(24, 20), (127, 64)] → exec (.ctlLi t) s = .next s' →
      Claims.ctlFrame s s' t (some (bitsOf w 24 20)) ∧ (s'.tile t).vregs = (s.tile t).vregs) ∧
    (s.issues t 0 2 w (wFmt w == 0) (if bitOf w 39 then [(29, 20), (39, 35), (95, 64)] else [(39, 20)]) → bitsOf w 38 35 ≤ 12 →
      exec (.ctlAlu t) s = .next s' → Claims.ctlFrame s s' t (some (bitsOf w 24 20)) ∧ (s'.tile t).vregs = (s.tile t).vregs) ∧
    (s.issues t 0 6 w (wFmt w == 0) [(44, 25)] → bitOf w 30 = true → exec (.ctlVxfer t) s = .next s' →
      Claims.ctlFrame s s' t none ∧ ∀ v i, i < 1024 → v ≠ bitsOf w 34 31 ∨ i ≠ bitsOf w 44 35 → (s'.tile t).velem v i = (s.tile t).velem v i) ∧
    (s.issues t 0 6 w (wFmt w == 0) [(24, 20), (44, 30)] → bitOf w 30 = false → exec (.ctlVxfer t) s = .next s' →
      Claims.ctlFrame s s' t (some (bitsOf w 24 20)) ∧ (s'.tile t).vregs = (s.tile t).vregs)

/-- What element-wise vector words leave alone. -/
def Obligations.VectorFrame : Prop :=
  Claims.vecFrame .vecAdd 1 fmtArithInt vecUses2 ∧ Claims.vecFrame .vecMul 2 fmtArith vecUses2 ∧ Claims.vecFrame .vecFma 3 fmtArith vecUses3 ∧
    Claims.vecFrame .vecMin 4 fmtArithInt vecUses2 ∧ Claims.vecFrame .vecMax 5 fmtArithInt vecUses2

/-- What VEC.ST leaves alone. -/
def Obligations.VectorStoreFrame : Prop :=
  ∀ (s s' : State) (t w : Nat), s.issues t 2 12 w (fmtArithInt (wFmt w)) [(27, 24), (83, 64)] →
    s.spFaults t (Claims.storeWrites s t w) = none →
    (s.tile t).meets Req.vector [(64 * bitsOf w 83 64, fmtBytes (wFmt w) (s.fget .vecVl t))] = [] → Claims.goesOn s t →
    exec (.vecSt t) s = .next s' →
    Claims.onlyTileMem t Claims.vecFields s s' ∧
    (∀ a, a < wordAddr t (bitsOf w 83 64) ∨ wordAddr t (bitsOf w 83 64) + fmtBytes (wFmt w) (s.fget .vecVl t) ≤ a →
      Mem.byte s'.dev a = Mem.byte s.dev a) ∧
    (s'.tile t).vregs = (s.tile t).vregs ∧ (s'.tile t).masks = (s.tile t).masks ∧
    ∀ r, Claims.noIndex s t r → (s'.tile t).sreg r = (s.tile t).sreg r

/-- What BNK.ADD, MAX and SADD leave alone. -/
def Obligations.BankFrame : Prop :=
  Claims.bankFrame .bnkAdd 0 fmtArithInt (fun w => bTreg w == 0) ∧ Claims.bankFrame .bnkMax 1 fmtArithInt (fun w => bTreg w == 0) ∧
    Claims.bankFrame .bnkSadd 2 fmtArith tregOk

/-- What FILL writes. -/
def Obligations.FillContent : Prop :=
  (∀ (s : State) (pat a n i : Nat), n % 8 = 0 → s.badEdge a n = false → i < n →
    Mem.byte (s.fillPieces pat [(a, n)]).dev (a + i) = BitVec.ofNat 8 (pat / 2 ^ (8 * (i % 8)))) ∧
  ∀ (s : State) (pat x : Nat) (ps : List (Nat × Nat)), (∀ q ∈ ps, q.2 % 8 = 0 ∧ (x < q.1 ∨ q.1 + q.2 ≤ x)) →
    Mem.byte (s.fillPieces pat ps).dev x = Mem.byte s.dev x

/-- A completion record is written at CQ_TAIL. -/
def Obligations.RecordPosted : Prop :=
  ∀ (s : State) (fn ring : Nat) (noIrq : Bool) (body : List Byte),
    let r := ringIdx fn ring
    let a := s.fget .cqBase r + 32 * s.fget .cqTail r
    let s' := s.post fn ring noIrq body
    s.fnUp fn = true → (fn = 0 ∨ (s.part (fn - 1)).drain.any (fun d => d.why == 1) = false) → (s.ring r).held = [] → s.cqRoom r = true →
    s.sealed fn = false → s.fget .cqLog2Size r ≤ 16 → body.length = 28 →
    s'.hostRead a 32 = body.take 3 ++ leBytes 1 (bitNat (s.ring r).phase) ++ body.drop 4 ++ leBytes 4 (((s.ring r).seq + 1) % 2 ^ 32) ∧
    (∀ x, x < a ∨ a + 32 ≤ x → Mem.byte s'.host x = Mem.byte s.host x) ∧ s'.dev = s.dev ∧
    s'.fget .cqTail r = (s.fget .cqTail r + 1) % s.cqSize r ∧
    (s'.ring r).phase = (if (s.fget .cqTail r + 1) % s.cqSize r = 0 then !(s.ring r).phase else (s.ring r).phase)

/-- Where the collector places a record. -/
def Obligations.LogPlacement : Prop :=
  ∀ (s : State) (r : LogRec),
    let next := (s.fget .fcSlot 0 + 1) % 256
    let put (i : Nat) : Prop := (s.logNew r).fc.slot i = r ∧ (∀ j, j ≠ i → (s.logNew r).fc.slot j = s.fc.slot j) ∧
      (s.logNew r).fget .fcLogHead 0 = r.seq % 2 ^ 32 ∧ (s.logNew r).fget .fcSlot 0 = i % 256 ∧ (s.logNew r).fget .fcLost 0 = s.fget .fcLost 0
    ((s.fc.slot next).isOpen = false → put next) ∧
    (∀ i, (s.fc.slot next).isOpen = true → s.fc.oldest = some i → put i) ∧
    ((s.fc.slot next).isOpen = true → s.fc.oldest = none →
      (s.logNew r).fc.log = s.fc.log ∧ (s.logNew r).fget .fcLost 0 = (s.fget .fcLost 0 + 1) % 2 ^ 32 ∧
      (s.logNew r).fget .fcLogHead 0 = s.fget .fcLogHead 0 ∧ (s.logNew r).fget .fcSlot 0 = s.fget .fcSlot 0) ∧
    (s.logNew r).fc.nextSeq = s.fc.nextSeq + 1

/-- Acknowledging records of the log. -/
def Obligations.Acknowledgement : Prop :=
  ∀ (s : State) (seq : Nat),
    (s.slotOf seq = none → exec (.fcAck seq) s = .next s) ∧
    (∀ i, s.slotOf seq = some i → exec (.fcAck seq) s = .next { s with fc := { s.fc with
      log := Tab.set LogRec.empty s.fc.log i { s.fc.slot i with acked := true }, timers := s.fc.timers.filter (fun g => g.seq != seq) } }) ∧
    ∀ v, v % 2 = 1 → exec (.fcAckAll v) s = .next { s with fc := { s.fc with
      timers := [], log := s.fc.log.map (fun e => (e.1, { e.2 with acked := true })) } }

/-- A PLL that loses lock raises PLL_UNLOCK. -/
def Obligations.PllUnlockRaises : Prop :=
  State.reset.severity Source.pllUnlock = Severity.safe ∧
  ∀ (s : State) (n : Nat), n < 4 → ∃ f ∈ [Fld.clkLockEngine, .clkLockFabric, .clkLockTx, .clkLockMgmt],
    pllField n = some f ∧ (s.fget f 0 = 1 → s.fc.lasting.contains (Source.pllUnlock, n) = false →
      (s.fset f 0 0).fget f 0 = 0 ∧ exec (.pllUnlock n) s = .next (({ (s.fset f 0 0) with
        fc := { s.fc with lasting := (Source.pllUnlock, n) :: s.fc.lasting } } : State).raise Source.pllUnlock Kind.chip 0 n))

/-- A leak raises LEAK. -/
def Obligations.LeakRaises : Prop :=
  ∀ s : State, s.pwr.powered = true → s.fc.lasting.contains (Source.leak, 0) = false →
    ∃ s1, s1 = ({ s.fset .pwrLeak 0 1 with fc := { s.fc with lasting := (Source.leak, 0) :: s.fc.lasting } } : State) ∧
      s1.fget .pwrLeak 0 = 1 ∧ s1.sensor 24 = 1 ∧ s1.fc.lasting.contains (Source.leak, 0) = true ∧
      exec .leak s = .next (s1.raise Source.leak Kind.chip 0 0)

/-- CTL words complete with the effect of R165 and R172 to R175. -/
def Obligations.ControlWords : Prop :=
  Claims.ctlNop ∧ Claims.ctlLi ∧ Claims.ctlAlu ∧ Claims.ctlBr ∧ Claims.ctlBrIndirect ∧ Claims.ctlLoop ∧ Claims.ctlMod ∧ Claims.ctlVxfer ∧
  Claims.ctlRdcr ∧ Claims.ctlWrcr ∧ Claims.ctlEnd

/-- SYN words, the completion of a word in flight, and the end of a wait (R163, R171, R176 to R180). -/
def Obligations.SyncWords : Prop := Claims.synWait ∧ Claims.synSignal ∧ Claims.synFence ∧ Claims.wordComplete ∧ Claims.syncTimeout

/-- VEC words complete with the effect of R142 to R151. -/
def Obligations.VectorWords : Prop :=
  Claims.vecSetvl ∧ Claims.vecAdd ∧ Claims.vecMul ∧ Claims.vecFma ∧ Claims.vecMin ∧ Claims.vecMax ∧ Claims.vecCmp ∧ Claims.vecSel ∧
  Claims.vecEst ∧ Claims.vecRsum ∧ Claims.vecRmax ∧ Claims.vecLd ∧ Claims.vecSt

/-- BNK words complete with the effect of R193 to R197. -/
def Obligations.BankWords : Prop := Claims.bnkAdd ∧ Claims.bnkMax ∧ Claims.bnkSadd ∧ Claims.bnkWiden ∧ Claims.bnkConvert ∧ Claims.bnkRmaxcap

/-- MXM words complete with the effect of R112 to R137. -/
def Obligations.MatrixWords : Prop := Claims.mxmLoadw ∧ Claims.mxmMul ∧ Claims.mxmDrain ∧ Claims.mxmGroupEmpty ∧ Claims.mxmGroup ∧ Claims.mxmFence

/-- MOV and ATT words complete, and moves land (R166 to R170, R221 to R226, R415 to R417). -/
def Obligations.MoveWords : Prop :=
  Claims.movDesc ∧ Claims.movSteep ∧ Claims.movCopy ∧ Claims.moveLanded ∧ Claims.steepEntryLanded ∧ Claims.attWalk ∧ Claims.attAppend ∧
  Claims.attInfo

/-- XCH words open their exchange or collective (R275 to R297, R338 to R349). -/
def Obligations.ExchangeWords : Prop :=
  Claims.xchCounts ∧ Claims.xchDispatch ∧ Claims.xchCombine ∧ Claims.xchBdispatch ∧ Claims.xchBcombine ∧ Claims.xchCollReduceScatter ∧
  Claims.xchCollAllGather ∧ Claims.xchCollAllToAll ∧ Claims.xchCollBroadcast ∧ Claims.xchCollScalarAllreduce ∧ Claims.xchCollBarrier

/-- Messages of a collective in progress take effect (R275 to R297, R326). -/
def Obligations.ReductionMessages : Prop :=
  Claims.grant ∧ Claims.segAck ∧ Claims.reductionSegment ∧ Claims.allGatherMessage ∧ Claims.allToAllMessage ∧ Claims.broadcastMessage ∧
  Claims.resendRequest ∧ Claims.scalarValueMessage ∧ Claims.barrierMessage

/-- Messages of exchanges, fences, batches, refreshes and lockstep take effect (R299 to R303, R338 to R361, R391 to R397). -/
def Obligations.FleetMessages : Prop :=
  Claims.exchangeCountMessage ∧ Claims.exchangeRowsMessage ∧ Claims.fenceArrival ∧ Claims.fenceRelease ∧ Claims.notice ∧
  Claims.batchRecordMessage ∧ Claims.batchAnswerMessage ∧ Claims.broadcastCopy ∧ Claims.replicaFetchRequest ∧ Claims.closeValueMessage ∧
  Claims.sequenceGroupMessage

/-- A wait that passes its limit ends as its rule says (R299 to R302, R328, R347, R356, R392). -/
def Obligations.FleetTimeouts : Prop :=
  Claims.ownerWaitTimeout ∧ Claims.senderGrantTimeout ∧ Claims.orphanTimeout ∧ Claims.barrierUpTimeout ∧ Claims.fenceUpTimeout ∧
  Claims.releaseWaitTimeout ∧ Claims.gatherReceiveTimeout ∧ Claims.exchangeReceiveTimeout ∧ Claims.closeAgreementTimeout ∧
  Claims.batchAnswerTimeout

/-- NOP, an undefined opcode, PROG_LOAD, FILL and WEIGHT_LOAD (R438 to R442, R528). -/
def Obligations.LoadCommands : Prop := Claims.nop ∧ Claims.reservedOpcode ∧ Claims.progLoad ∧ Claims.fill ∧ Claims.weightLoad

/-- Image commands, the loader's jobs and SPARGE (R65 to R75, R448, R455). -/
def Obligations.ImageCommands : Prop :=
  Claims.imageStage ∧ Claims.imageApply ∧ Claims.imageRelease ∧ Claims.loaderApplyStart ∧ Claims.drainWindowEnd ∧ Claims.sparge

/-- SEQ_SUBMIT, SEQ_CANCEL, KV_EDIT and the sequencer's steps (R368 to R374, R390, R410). -/
def Obligations.SequencerCommands : Prop :=
  Claims.seqSubmit ∧ Claims.seqCancel ∧ Claims.kvEdit ∧ Claims.rolloutStepBoundary ∧ Claims.rolloutStepLaunch

/-- TURN_BEGIN, TURN_COMMIT, TURN_ABANDON, COMM_REJOIN, POLICY_SWAP and POLICY_PUBLISH (R17 to R31, R351, R394, R395). -/
def Obligations.TurnCommands : Prop :=
  Claims.turnBegin ∧ Claims.turnCommit ∧ Claims.turnAbandon ∧ Claims.commRejoin ∧ Claims.policySwap ∧ Claims.policyPublish

/-- LEARN_STEP, the end of a learn step, and BATCH_PUT (R156 to R158, R356, R440). -/
def Obligations.LearnCommands : Prop := Claims.learnStep ∧ Claims.stepEnd ∧ Claims.batchPut

/-- MOVE, STATE_MOVE, CKPT_WRITE, CKPT_LOAD, FLASH_WRITE, FLASH_TRIM, NS_CLEAR and the end of flash work (R218 to R236). -/
def Obligations.TierCommands : Prop :=
  Claims.move ∧ Claims.stateMove ∧ Claims.ckptWrite ∧ Claims.ckptLoad ∧ Claims.flashWrite ∧ Claims.flashTrim ∧ Claims.nsClear ∧
  Claims.flashProgramDone

/-- Messages of buddy streams and remote loads, of the management channel and of captures (R233 to R235, R313, R498). -/
def Obligations.BuddyMessages : Prop :=
  Claims.buddyStream ∧ Claims.buddyTrailerConfirm ∧ Claims.buddyConfirmTimeout ∧ Claims.buddyStreamTimeout ∧ Claims.remoteLoadRequest ∧
  Claims.remoteLoadTimeout ∧ Claims.mgmtMessage ∧ Claims.replayRecordMessage

/-- The 14 kettle instructions on every lane of a group (R243, R245, R246). -/
def Obligations.KettleInstructions : Prop :=
  Claims.kettleNop ∧ Claims.kettleLd ∧ Claims.kettleSt ∧ Claims.kettleAdd ∧ Claims.kettleMul ∧ Claims.kettleFma ∧ Claims.kettleMin ∧
  Claims.kettleMax ∧ Claims.kettleCmp ∧ Claims.kettleSel ∧ Claims.kettleSelv ∧ Claims.kettleEst ∧ Claims.kettleDiv ∧ Claims.kettleSqrt

/-- Kettle runs start, commit their blocks, stop on a residue mismatch, and are resumed or abandoned (R247 to R249, R263 to R269, R273). -/
def Obligations.KettleRuns : Prop :=
  Claims.kettleRunStart ∧ Claims.kettleBlockCommit ∧ Claims.kettleBadLane ∧ Claims.kettleWaitTimeout ∧ Claims.kettleResume ∧ Claims.kettleAbandon

/-- ATTEST_REPORT, FW_UPDATE, LC_ADVANCE, AUTH_CHALLENGE, DEBUG_UNLOCK, recovery and tamper (R463 to R475). -/
def Obligations.SecurityCommands : Prop :=
  Claims.attestReport ∧ Claims.fwUpdate ∧ Claims.lcAdvance ∧ Claims.authChallenge ∧ Claims.debugUnlock ∧ Claims.tamper ∧ Claims.recoveryChunk ∧
  Claims.recoveryGo

/-- SPDM requests in order are answered (R443, R476). -/
def Obligations.SpdmRequests : Prop :=
  Claims.getVersion ∧ Claims.getCapabilities ∧ Claims.negotiateAlgorithms ∧ Claims.getDigests ∧ Claims.getCertificate ∧ Claims.challenge ∧
  Claims.getMeasurements ∧ Claims.keyExchange ∧ Claims.finish ∧ Claims.keyUpdate ∧ Claims.endSession

/-- Sensor updates and the BMC's requests (R450). -/
def Obligations.ManagementRequests : Prop :=
  Claims.sensorUpdate ∧ Claims.mctpControlMessage ∧ Claims.pldmBaseRequest ∧ Claims.pldmPlatformRequest ∧ Claims.pldmFruRequest

/-- REPLAY_RUN, and arming and disarming a capture (R498, R501). -/
def Obligations.ReplayCommands : Prop := Claims.replayRun ∧ Claims.replayArm ∧ Claims.replayDisarm

/-- FAULT_RELEASE, FAULT_INJECT, acknowledgement, escalation, exits and FAULT_N (R486 to R494, R503). -/
def Obligations.CollectorCommands : Prop :=
  Claims.faultRelease ∧ Claims.faultInject ∧ Claims.fcAck ∧ Claims.fcAckAll ∧ Claims.graceExpiry ∧ Claims.quietExpiry ∧ Claims.faultPulseEnd ∧
  Claims.collectorParity ∧ Claims.holdWrite

/-- Scrubbing, repairs and spares (R36, R37, R201 to R203, R211, R213, R496). -/
def Obligations.RepairEvents : Prop :=
  Claims.patrolScrub ∧ Claims.bankRowRepair ∧ Claims.accLineRepair ∧ Claims.hbmRowRepair ∧ Claims.lpddrRowRepair ∧ Claims.spareTakeover ∧
  Claims.tileUnmapped ∧ Claims.bayRetired

/-- Flits, training and lanes of a port (R308 to R330). -/
def Obligations.LinkEvents : Prop :=
  Claims.flitReceive ∧ Claims.laneFailed ∧ Claims.restripeComplete ∧ Claims.partnerTraining ∧ Claims.linkUp ∧ Claims.linkTrainFail ∧
  Claims.linkTrainRetry ∧ Claims.creditStall ∧ Claims.linkDown ∧ Claims.retrain

/-- Rings, doorbells and register writes (R8, R106, R239, R374, R405, R430 to R437, R448). -/
def Obligations.RegisterWrites : Prop :=
  Claims.ringEnable ∧ Claims.doorbellWrite ∧ Claims.cqHeadWrite ∧ Claims.coalesceTimeout ∧ Claims.registerWrite ∧ Claims.quiesceWrite ∧
  Claims.numFlagsClear ∧ Claims.kvCtrlWrite ∧ Claims.seqAreaWrite ∧ Claims.flashNsWrite

/-- VF enable and disable, resets, power and idle states (R427, R428, R449, R507 to R509, R516, R520 to R522). -/
def Obligations.ModuleEvents : Prop :=
  Claims.vfEnable ∧ Claims.vfDisable ∧ Claims.warmReset ∧ Claims.perstNRelease ∧ Claims.modulePowerOn ∧ Claims.powerDown ∧ Claims.idleEntry ∧
  Claims.idleWake

/-- Power limits, temperature actions, supply, leaks and PLLs (R49, R490, R511 to R519). -/
def Obligations.PowerEvents : Prop :=
  Claims.powerCapAdjust ∧ Claims.powerPeakLimit ∧ Claims.thermalThrottle ∧ Claims.limit105 ∧ Claims.thermalTrip ∧ Claims.hbmRefreshDouble ∧
  Claims.temperatureRecovered ∧ Claims.supplySag ∧ Claims.sagEnd ∧ Claims.supplyUnder ∧ Claims.supplyUnderEnd ∧ Claims.leak ∧
  Claims.leakCleared ∧ Claims.pllUnlock ∧ Claims.pllLockRegained
end

