-- ==== Sys2Proof/Laws/Tab.lean ====
section
/-!
SUPPORT. The canonical form of sparse tables and memories: every operation keeps it, and what a read gives after a write.
-/

namespace Sys2Proof.Machine

theorem tab_above_iff {α : Type} (b : Nat) (m : Tab α) : Tab.above b m = true ↔ ∀ e ∈ m, b < e.1 := by
  simp [Tab.above]

theorem tab_wf_cons {α : Type} [DecidableEq α] (d : α) (e : Nat × α) (m : Tab α) :
    Tab.wf d (e :: m) = true ↔ e.2 ≠ d ∧ (∀ x ∈ m, e.1 < x.1) ∧ Tab.wf d m = true := by
  obtain ⟨k, v⟩ := e
  simp [Tab.wf, tab_above_iff, and_assoc]

theorem tab_wf_nil {α : Type} [DecidableEq α] (d : α) : Tab.wf d ([] : Tab α) = true := rfl

/-- A table made of some of the entries, each at its own key and none of them the default, keeps the form. -/
theorem tab_wf_filterMap {α β : Type} [DecidableEq α] [DecidableEq β] {d : α} {d' : β} (f : Nat × α → Option (Nat × β))
    (hf : ∀ e x, f e = some x → x.1 = e.1 ∧ x.2 ≠ d') : ∀ {m : Tab α}, Tab.wf d m = true → Tab.wf d' (m.filterMap f) = true
  | [], _ => rfl
  | e :: m, h => by
    rw [tab_wf_cons] at h
    have ih := tab_wf_filterMap f hf h.2.2
    rw [List.filterMap_cons]
    cases he : f e with
    | none => exact ih
    | some x =>
      refine (tab_wf_cons _ _ _).2 ⟨(hf e x he).2, ?_, ih⟩
      intro y hy
      obtain ⟨a, ha, hay⟩ := List.mem_filterMap.1 hy
      rw [(hf e x he).1, (hf a y hay).1]
      exact h.2.1 a ha

theorem tab_wf_filter {α : Type} [DecidableEq α] {d : α} (p : Nat × α → Bool) :
    ∀ {m : Tab α}, Tab.wf d m = true → Tab.wf d (m.filter p) = true
  | [], _ => rfl
  | e :: m, h => by
    rw [tab_wf_cons] at h
    have ih := tab_wf_filter p h.2.2
    rw [List.filter_cons]
    split
    · exact (tab_wf_cons _ _ _).2 ⟨h.1, fun y hy => h.2.1 y (List.mem_filter.1 hy).1, ih⟩
    · exact ih

theorem tab_wf_drop {α : Type} [DecidableEq α] {d : α} {m : Tab α} (p : Nat → Bool) (h : Tab.wf d m = true) :
    Tab.wf d (Tab.drop m p) = true := tab_wf_filter _ h

theorem tab_wf_clear {α : Type} [DecidableEq α] {d : α} {m : Tab α} (lo hi : Nat) (h : Tab.wf d m = true) :
    Tab.wf d (Tab.clear m lo hi) = true := tab_wf_drop _ h

theorem tab_insert_mem {α : Type} {k : Nat} {v : α} {x : Nat × α} :
    ∀ {m : Tab α}, x ∈ Tab.insert m k v → x = (k, v) ∨ x ∈ m
  | [], h => by simpa [Tab.insert] using h
  | (a, b) :: m, h => by
    unfold Tab.insert at h
    split at h
    · simpa using h
    · split at h
      · rcases List.mem_cons.1 h with h | h
        · exact .inl h
        · exact .inr (List.mem_cons_of_mem _ h)
      · rcases List.mem_cons.1 h with h | h
        · exact .inr (h ▸ List.mem_cons_self)
        · rcases tab_insert_mem h with h | h
          · exact .inl h
          · exact .inr (List.mem_cons_of_mem _ h)

theorem tab_wf_insert {α : Type} [DecidableEq α] {d : α} {k : Nat} {v : α} (hv : v ≠ d) :
    ∀ {m : Tab α}, Tab.wf d m = true → Tab.wf d (Tab.insert m k v) = true
  | [], _ => by simp [Tab.insert, Tab.wf, Tab.above, hv]
  | (a, b) :: m, h => by
    have h' := (tab_wf_cons _ _ _).1 h
    unfold Tab.insert
    split
    · next hk =>
      refine (tab_wf_cons _ _ _).2 ⟨hv, ?_, h⟩
      intro x hx
      rcases List.mem_cons.1 hx with rfl | hx
      · exact hk
      · exact Nat.lt_trans hk (h'.2.1 x hx)
    · split
      · next hk => subst hk; exact (tab_wf_cons _ _ _).2 ⟨hv, h'.2.1, h'.2.2⟩
      · refine (tab_wf_cons _ _ _).2 ⟨h'.1, ?_, tab_wf_insert hv h'.2.2⟩
        intro x hx
        rcases tab_insert_mem hx with rfl | hx
        · simp only; omega
        · exact h'.2.1 x hx

theorem tab_wf_set {α : Type} [DecidableEq α] {d : α} {m : Tab α} (k : Nat) (v : α) (h : Tab.wf d m = true) :
    Tab.wf d (Tab.set d m k v) = true := by
  unfold Tab.set
  split
  · exact tab_wf_drop _ h
  · next hv => exact tab_wf_insert hv h

theorem tab_wf_foldl {α β : Type} [DecidableEq α] {d : α} (f : Tab α → β → Tab α)
    (hf : ∀ m x, Tab.wf d m = true → Tab.wf d (f m x) = true) :
    ∀ (l : List β) {m : Tab α}, Tab.wf d m = true → Tab.wf d (l.foldl f m) = true
  | [], _, h => h
  | x :: l, _, h => tab_wf_foldl f hf l (hf _ x h)

theorem mem_wf_write : ∀ (bs : List (BitVec 8)) {m : Mem} (a : Nat), Memory.wf m → Memory.wf (Mem.write m a bs)
  | [], _, _, h => h
  | _ :: bs, _, a, h => mem_wf_write bs (a + 1) (tab_wf_set _ _ h)

theorem mem_wf_zero {m : Mem} (a n : Nat) (h : Memory.wf m) : Memory.wf (Mem.zero m a n) := tab_wf_clear _ _ h

theorem tab_wf_append {α : Type} [DecidableEq α] {d : α} : ∀ {m n : Tab α}, Tab.wf d m = true → Tab.wf d n = true →
    (∀ x ∈ m, ∀ y ∈ n, x.1 < y.1) → Tab.wf d (m ++ n) = true
  | [], _, _, h, _ => h
  | e :: m, n, h, h', hlt => by
    have h := (tab_wf_cons _ _ _).1 h
    refine (tab_wf_cons _ _ _).2 ⟨h.1, ?_, tab_wf_append h.2.2 h' (fun x hx => hlt x (List.mem_cons_of_mem _ hx))⟩
    intro x hx
    rcases List.mem_append.1 hx with hx | hx
    · exact h.2.1 x hx
    · exact hlt e List.mem_cons_self x hx

theorem warmTab_wf {α : Type} [DecidableEq α] (base : α) (f : α → α) {m : Tab (Option α)} (h : Tab.wf none m = true) :
    Tab.wf none (warmTab base f m) = true := by
  refine tab_wf_filterMap _ ?_ h
  intro e x hx
  split at hx
  · split at hx
    · cases hx
    · cases hx; exact ⟨rfl, by simp⟩
  · cases hx

/-! ### Reading -/

theorem tab_get_above {α : Type} (d : α) {k : Nat} : ∀ {m : Tab α}, (∀ e ∈ m, k < e.1) → Tab.get d m k = d
  | [], _ => rfl
  | (a, b) :: m, h => by
    have := h (a, b) List.mem_cons_self
    simp only [Tab.get, if_neg (Nat.ne_of_lt this)]
    exact tab_get_above d (fun e he => h e (List.mem_cons_of_mem _ he))

theorem tab_get_insert {α : Type} (d : α) (k : Nat) (v : α) (j : Nat) :
    ∀ (m : Tab α), Tab.get d (Tab.insert m k v) j = if j = k then v else Tab.get d m j
  | [] => by simp [Tab.insert, Tab.get]
  | (a, b) :: m => by
    unfold Tab.insert
    split
    · simp only [Tab.get]
    · split
      · next hk => subst hk; simp only [Tab.get]; split <;> rfl
      · next hk =>
        simp only [Tab.get, tab_get_insert d k v j m]
        split
        · next hj => subst hj; rw [if_neg (fun h => hk h.symm)]
        · rfl

theorem tab_get_drop {α : Type} (d : α) (p : Nat → Bool) (j : Nat) :
    ∀ (m : Tab α), Tab.get d (Tab.drop m p) j = if p j then d else Tab.get d m j
  | [] => by simp [Tab.drop, Tab.get]
  | (a, b) :: m => by
    have ih := tab_get_drop d p j m
    unfold Tab.drop at ih ⊢
    rw [List.filter_cons]
    split
    · next h =>
      simp only [Tab.get]
      rw [ih]
      split
      · next hj => subst hj; simp at h; rw [h]; rfl
      · rfl
    · next h =>
      rw [ih]
      simp only [Tab.get]
      split
      · rfl
      · next hp =>
        split
        · next hj => subst hj; simp at h; exact absurd h hp
        · rfl

/-- What a key reads after a write. -/
theorem tab_get_set {α : Type} [DecidableEq α] (d : α) (m : Tab α) (k : Nat) (v : α) (j : Nat) :
    Tab.get d (Tab.set d m k v) j = if j = k then v else Tab.get d m j := by
  unfold Tab.set
  split
  · next hv => subst hv; rw [tab_get_drop]; simp only [beq_iff_eq]
  · exact tab_get_insert d k v j m

theorem tab_get_clear {α : Type} (d : α) (m : Tab α) (lo hi j : Nat) :
    Tab.get d (Tab.clear m lo hi) j = if lo ≤ j ∧ j < hi then d else Tab.get d m j := by
  unfold Tab.clear
  rw [tab_get_drop]
  simp only [Bool.and_eq_true, decide_eq_true_eq]

/-- What a byte reads after a string of bytes is written. -/
theorem mem_byte_write (j : Nat) : ∀ (bs : List (BitVec 8)) (m : Mem) (a : Nat),
    Mem.byte (Mem.write m a bs) j = if a ≤ j ∧ j < a + bs.length then bs.getD (j - a) 0 else Mem.byte m j
  | [], m, a => by
    rw [if_neg (by simp only [List.length_nil]; omega)]; rfl
  | b :: bs, m, a => by
    rw [Mem.write, mem_byte_write j bs, Mem.byte, Mem.byte, tab_get_set]
    simp only [List.length_cons]
    by_cases h : j = a
    · subst h; simp
    · rw [if_neg h]
      by_cases h1 : a + 1 ≤ j ∧ j < a + 1 + bs.length
      · rw [if_pos h1, if_pos (by omega)]
        obtain ⟨n, hn⟩ : ∃ n, j - a = n + 1 := ⟨j - a - 1, by omega⟩
        rw [hn, show j - (a + 1) = n by omega]; simp
      · rw [if_neg h1, if_neg (by omega)]

end Sys2Proof.Machine
end

