-- ==== Sys2Proof/Laws/Keeps.lean ====
section
/-!
SUPPORT. What no command does: no command touches the queue, and none leaves a table out of its canonical form or a register field
beyond its width. `Keeps o s` says that s may follow from o so; the files Laws/Keeps*.lean say it of every operation that gives a state.
-/

namespace Sys2Proof.Machine

/-- The tables of a state are canonical and its fields fit. -/
def State.Good (s : State) : Prop := s.Canon ∧ s.FieldsFit

/-- s follows from o: the queue stands, and a good state stays good. -/
def Keeps (o s : State) : Prop := s.pending = o.pending ∧ (o.Good → s.Good)

theorem Keeps.rfl {s : State} : Keeps s s := ⟨Eq.refl _, id⟩

theorem Keeps.trans {a b c : State} (h : Keeps a b) (h' : Keeps b c) : Keeps a c := ⟨h'.1.trans h.1, h'.2 ∘ h.2⟩

/-- The fields of the state that `Good` speaks of. -/
def State.tabs (s : State) :=
  (s.regs, s.dev, s.host, s.acc, s.stat, s.bad, s.accBad, s.lpBad, s.tiles, s.kettles, s.parts, s.bays, s.rings, s.ports)

theorem good_tabs {s t : State} (e : t.tabs = s.tabs) (h : s.Good) : t.Good := by
  unfold State.tabs at e
  simp only [Prod.mk.injEq] at e
  obtain ⟨e1, e2, e3, e4, e5, e6, e7, e8, e9, e10, e11, e12, e13, e14⟩ := e
  obtain ⟨c, f⟩ := h
  refine ⟨⟨?_, e6 ▸ c.bad, e7 ▸ c.accBad, e8 ▸ c.lpBad, e1 ▸ c.regs, e9 ▸ c.tiles, e10 ▸ c.kettles, e11 ▸ c.parts, e12 ▸ c.bays,
    e13 ▸ c.rings, e14 ▸ c.ports⟩, ?_⟩
  · unfold State.memWf; rw [e2, e3, e4, e5]; exact c.mem
  · unfold State.FieldsFit; rw [e1]; exact f

/-- An update of what `Good` does not speak of. -/
theorem Keeps.upd {o s t : State} (h : Keeps o s) (e : t.pending = s.pending) (e' : t.tabs = s.tabs) : Keeps o t :=
  ⟨e.trans h.1, fun g => good_tabs e' (h.2 g)⟩

/-- An update of what `Good` does not speak of, as the record that it makes. -/
theorem Keeps.mk_iff {o s : State} {x_err : Errors} {x_reasm : List Reasm} {x_cmds : List Cmd} {x_nextCmd : Nat} {x_moves : List Move}
    {x_nextMove : Nat} {x_images : List Staged} {x_nextHandle : Nat} {x_loader : List Job} {x_sparing : List (Nat × Nat × Nat)} {x_due :
    List Raise} {x_exits : List (Nat × Nat)} {x_fc : Collector} {x_sec : Security} {x_pwr : Power} {x_numVfs : Nat} {x_vfUp : Nat}
    {x_msixOn : Tab Bool} {x_msixPend : Tab Bool} {x_msixAddr : Tab Nat} {x_msixData : Tab Nat} {x_irqs : List (Nat × Nat)} {x_tx : List
    Msg} {x_wire : List (Nat × BitVec 2048)} {x_inbox : List (Nat × Msg)} {x_regWrites : List (Nat × Nat × Nat)} {x_mgmt : List (Nat ×
    List Byte)} {x_time : Nat} {x_clock0 : Nat} {x_free : Nat} : Keeps o (State.mk s.pending s.regs s.dev s.host s.acc s.stat s.bad
    s.accBad s.lpBad x_err s.tiles s.kettles s.parts s.bays s.rings s.ports x_reasm x_cmds x_nextCmd x_moves x_nextMove x_images
    x_nextHandle x_loader x_sparing x_due x_exits x_fc x_sec x_pwr x_numVfs x_vfUp x_msixOn x_msixPend x_msixAddr x_msixData x_irqs x_tx
    x_wire x_inbox x_regWrites x_mgmt x_time x_clock0 x_free) ↔ Keeps o s :=
  ⟨fun h => h.upd (Eq.refl _) (Eq.refl _), fun h => h.upd (Eq.refl _) (Eq.refl _)⟩

theorem Keeps.ite {o a b : State} {c : Prop} [Decidable c] (ha : Keeps o a) (hb : Keeps o b) : Keeps o (if c then a else b) := by
  split
  · exact ha
  · exact hb

theorem Keeps.bite {o a b : State} {c : Bool} (ha : Keeps o a) (hb : Keeps o b) : Keeps o (bif c then a else b) := by
  cases c
  · exact hb
  · exact ha

theorem Keeps.elim {α : Type} {o b : State} {a : Option α} {f : α → State} (hb : Keeps o b) (hf : ∀ x, Keeps o (f x)) :
    Keeps o (a.elim b f) := by
  cases a with
  | none => exact hb
  | some x => exact hf x

theorem Keeps.foldl {α : Type} {o : State} {f : State → α → State} (hf : ∀ s x, Keeps o s → Keeps o (f s x)) :
    ∀ (l : List α) {s : State}, Keeps o s → Keeps o (l.foldl f s)
  | [], _, h => h
  | x :: l, _, h => Keeps.foldl hf l (hf _ x h)

theorem Keeps.foldl1 {α β : Type} {o : State} {f : State × β → α → State × β} (hf : ∀ r x, Keeps o r.1 → Keeps o (f r x).1) :
    ∀ (l : List α) {r : State × β}, Keeps o r.1 → Keeps o (l.foldl f r).1
  | [], _, h => h
  | x :: l, _, h => Keeps.foldl1 hf l (hf _ x h)

theorem Keeps.foldl2 {α β : Type} {o : State} {f : β × State → α → β × State} (hf : ∀ r x, Keeps o r.2 → Keeps o (f r x).2) :
    ∀ (l : List α) {r : β × State}, Keeps o r.2 → Keeps o (l.foldl f r).2
  | [], _, h => h
  | x :: l, _, h => Keeps.foldl2 hf l (hf _ x h)

/-- What an outcome answers follows from o. -/
def KeepsOut (o : State) (r : Host.Outcome State Fault Refusal) : Prop := ∀ t, r = .next t → Keeps o t

theorem KeepsOut.next {o s : State} (h : Keeps o s) : KeepsOut o (.next s) := fun _ e => by cases e; exact h

/-- The same of an effect. -/
def KeepsEff (o : State) (r : Eff) : Prop := ∀ t, r = .ok t → Keeps o t

theorem KeepsEff.ok {o s : State} (h : Keeps o s) : KeepsEff o (.ok s) := fun _ e => by cases e; exact h
theorem KeepsEff.bad {o : State} {n : Nat} : KeepsEff o (.bad n) := fun _ e => by cases e
theorem KeepsEff.fail {o : State} {a b c d : Nat} : KeepsEff o (.fail a b c d) := fun _ e => by cases e
theorem KeepsEff.ite {o : State} {a b : Eff} {c : Prop} [Decidable c] (ha : KeepsEff o a) (hb : KeepsEff o b) :
    KeepsEff o (if c then a else b) := by
  split
  · exact ha
  · exact hb
theorem KeepsEff.andThen {o : State} {e : Eff} {f : State → Eff} (h : KeepsEff o e) (hf : ∀ s, Keeps o s → KeepsEff o (f s)) :
    KeepsEff o (e.andThen f) := by
  cases e with
  | ok s => exact hf s (h s (Eq.refl _))
  | bad n => exact KeepsEff.bad
  | fail a b c d => exact KeepsEff.fail
theorem KeepsEff.foldl {α : Type} {o : State} {f : Eff → α → Eff} (hf : ∀ e x, KeepsEff o e → KeepsEff o (f e x)) :
    ∀ (l : List α) {e : Eff}, KeepsEff o e → KeepsEff o (l.foldl f e)
  | [], _, h => h
  | x :: l, _, h => KeepsEff.foldl hf l (hf _ x h)
theorem KeepsEff.get {o t : State} {r : Eff} (e : r = .ok t) (h : KeepsEff o r) : Keeps o t := h t e

/-- The same of an optional state. -/
def KeepsOpt (o : State) (r : Option State) : Prop := ∀ t, r = some t → Keeps o t

theorem KeepsOpt.none {o : State} : KeepsOpt o Option.none := fun _ e => by cases e
theorem KeepsOpt.some {o s : State} (h : Keeps o s) : KeepsOpt o (Option.some s) := fun _ e => by cases e; exact h
theorem KeepsOpt.ite {o : State} {a b : Option State} {c : Prop} [Decidable c] (ha : KeepsOpt o a) (hb : KeepsOpt o b) :
    KeepsOpt o (if c then a else b) := by
  split
  · exact ha
  · exact hb
theorem KeepsOpt.map {o : State} {a : Option State} {f : State → State} (ha : KeepsOpt o a) (hf : ∀ s, Keeps o s → Keeps o (f s)) :
    KeepsOpt o (a.map f) := by
  cases a with
  | none => exact KeepsOpt.none
  | some s => exact KeepsOpt.some (hf s (ha s (Eq.refl _)))
theorem KeepsOpt.of {o : State} {α : Type} {a : Option α} {f : α → State} (hf : ∀ x, Keeps o (f x)) : KeepsOpt o (a.map f) := by
  cases a with
  | none => exact KeepsOpt.none
  | some x => exact KeepsOpt.some (hf x)
theorem KeepsOpt.bind {o : State} {a : Option State} {f : State → Option State} (ha : KeepsOpt o a)
    (hf : ∀ s, Keeps o s → KeepsOpt o (f s)) : KeepsOpt o (a.bind f) := by
  cases a with
  | none => exact KeepsOpt.none
  | some s => exact hf s (ha s (Eq.refl _))
theorem KeepsOpt.orElse {o : State} {a : Option State} {f : Unit → Option State} (ha : KeepsOpt o a) (hf : KeepsOpt o (f ())) :
    KeepsOpt o (a.orElse f) := by
  cases a with
  | none => exact hf
  | some s => exact ha
theorem KeepsOpt.getD {o b : State} {a : Option State} (ha : KeepsOpt o a) (hb : Keeps o b) : Keeps o (a.getD b) := by
  cases a with
  | none => exact hb
  | some s => exact ha s (Eq.refl _)
theorem KeepsOpt.get {o t : State} {r : Option State} (e : r = Option.some t) (h : KeepsOpt o r) : Keeps o t := h t e

/-- The same of a fault that an access may answer. -/
def KeepsFault (o : State) (r : Option Eff) : Prop := ∀ e, r = some e → KeepsEff o e

theorem KeepsFault.none {o : State} : KeepsFault o Option.none := fun _ e => by cases e
theorem KeepsFault.some {o : State} {x : Eff} (h : KeepsEff o x) : KeepsFault o (Option.some x) := fun _ e => by cases e; exact h
theorem KeepsFault.ite {o : State} {a b : Option Eff} {c : Prop} [Decidable c] (ha : KeepsFault o a) (hb : KeepsFault o b) :
    KeepsFault o (if c then a else b) := by
  split
  · exact ha
  · exact hb
theorem KeepsFault.map {o : State} {α : Type} {a : Option α} {f : α → Eff} (hf : ∀ x, KeepsEff o (f x)) : KeepsFault o (a.map f) := by
  cases a with
  | none => exact KeepsFault.none
  | some x => exact KeepsFault.some (hf x)
theorem KeepsFault.get {o : State} {x : Eff} {r : Option Eff} (e : r = Option.some x) (h : KeepsFault o r) : KeepsEff o x := h x e

theorem Keeps.id {o s : State} (h : Keeps o s) : Keeps o (id s) := h

theorem Keeps.fst {α : Type} {o t : State} {p : State × α} {x : α} (e : p = (t, x)) (h : Keeps o p.1) : Keeps o t := by subst e; exact h
theorem Keeps.snd {α : Type} {o t : State} {p : α × State} {x : α} (e : p = (x, t)) (h : Keeps o p.2) : Keeps o t := by subst e; exact h
theorem Keeps.third {α β : Type} {o t : State} {p : α × β × State} {x : α} {y : β} (e : p = (x, y, t)) (h : Keeps o p.2.2) :
    Keeps o t := by subst e; exact h

/-! ### The operations that touch the tables -/

theorem State.Canon.swap {s : State} (h : s.Canon) (t : State) (e0 : t.memWf) (e1 : Tab.wf false t.bad = true)
    (e2 : Tab.wf false t.accBad = true) (e3 : Tab.wf false t.lpBad = true) (e4 : t.regs = s.regs) (e5 : t.tiles = s.tiles)
    (e6 : t.kettles = s.kettles) (e7 : t.parts = s.parts) (e8 : t.bays = s.bays) (e9 : t.rings = s.rings) (e10 : t.ports = s.ports) :
    t.Canon :=
  ⟨e0, e1, e2, e3, e4 ▸ h.regs, e5 ▸ h.tiles, e6 ▸ h.kettles, e7 ▸ h.parts, e8 ▸ h.bays, e9 ▸ h.rings, e10 ▸ h.ports⟩

theorem fld_ctorIdx_lt (f : Fld) : f.ctorIdx < 512 := by cases f <;> decide

theorem fld_ctorIdx_inj {f g : Fld} (h : f.ctorIdx = g.ctorIdx) : f = g := by
  have h := congrArg Fld.ofNat h
  rwa [Fld.ofNat_ctorIdx, Fld.ofNat_ctorIdx] at h

/-- The keys of different fields, and of different instances of a field, differ. -/
theorem fld_key_inj {f g : Fld} {i j : Nat} (h : Fld.key f i = Fld.key g j) : f = g ∧ i = j := by
  have hf := fld_ctorIdx_lt f
  have hg := fld_ctorIdx_lt g
  unfold Fld.key at h
  exact ⟨fld_ctorIdx_inj (by omega), by omega⟩

theorem fset_keeps {o s : State} (h : Keeps o s) (f : Fld) (i v : Nat) : Keeps o (s.fset f i v) := by
  refine ⟨h.1, fun g => ?_⟩
  obtain ⟨c, w⟩ := h.2 g
  refine ⟨⟨c.mem, c.bad, c.accBad, c.lpBad, tab_wf_set _ _ c.regs, c.tiles, c.kettles, c.parts, c.bays, c.rings, c.ports⟩, ?_⟩
  intro f' i' v' hv
  unfold State.fset at hv
  simp only [tab_get_set] at hv
  split at hv
  · next e =>
    obtain ⟨rfl, rfl⟩ := fld_key_inj e
    split at hv
    · cases hv
    · cases hv; exact Nat.mod_lt _ (Nat.two_pow_pos _)
  · exact w _ _ _ hv

theorem finc_keeps {o s : State} (h : Keeps o s) (f : Fld) (i v : Nat) : Keeps o (s.finc f i v) := fset_keeps h _ _ _
theorem fsat_keeps {o s : State} (h : Keeps o s) (f : Fld) (i v : Nat) : Keeps o (s.fsat f i v) := fset_keeps h _ _ _
theorem fset1s_keeps {o s : State} (h : Keeps o s) (f : Fld) (i v : Nat) : Keeps o (s.fset1s f i v) := fset_keeps h _ _ _

theorem setTile_keeps {o s : State} (h : Keeps o s) (t : Nat) (x : Tile) : Keeps o (s.setTile t x) :=
  ⟨h.1, fun g => let ⟨c, w⟩ := h.2 g
    ⟨⟨c.mem, c.bad, c.accBad, c.lpBad, c.regs, tab_wf_set _ _ c.tiles, c.kettles, c.parts, c.bays, c.rings, c.ports⟩, w⟩⟩
theorem modTile_keeps {o s : State} (h : Keeps o s) (t : Nat) (f : Tile → Tile) : Keeps o (s.modTile t f) := setTile_keeps h _ _
theorem setKettle_keeps {o s : State} (h : Keeps o s) (t : Nat) (x : Kettle) : Keeps o (s.setKettle t x) :=
  ⟨h.1, fun g => let ⟨c, w⟩ := h.2 g
    ⟨⟨c.mem, c.bad, c.accBad, c.lpBad, c.regs, c.tiles, tab_wf_set _ _ c.kettles, c.parts, c.bays, c.rings, c.ports⟩, w⟩⟩
theorem modKettle_keeps {o s : State} (h : Keeps o s) (t : Nat) (f : Kettle → Kettle) : Keeps o (s.modKettle t f) := setKettle_keeps h _ _
theorem setPart_keeps {o s : State} (h : Keeps o s) (t : Nat) (x : Part) : Keeps o (s.setPart t x) :=
  ⟨h.1, fun g => let ⟨c, w⟩ := h.2 g
    ⟨⟨c.mem, c.bad, c.accBad, c.lpBad, c.regs, c.tiles, c.kettles, tab_wf_set _ _ c.parts, c.bays, c.rings, c.ports⟩, w⟩⟩
theorem modPart_keeps {o s : State} (h : Keeps o s) (t : Nat) (f : Part → Part) : Keeps o (s.modPart t f) := setPart_keeps h _ _
theorem setBay_keeps {o s : State} (h : Keeps o s) (t : Nat) (x : Bay) : Keeps o (s.setBay t x) :=
  ⟨h.1, fun g => let ⟨c, w⟩ := h.2 g
    ⟨⟨c.mem, c.bad, c.accBad, c.lpBad, c.regs, c.tiles, c.kettles, c.parts, tab_wf_set _ _ c.bays, c.rings, c.ports⟩, w⟩⟩
theorem modBay_keeps {o s : State} (h : Keeps o s) (t : Nat) (f : Bay → Bay) : Keeps o (s.modBay t f) := setBay_keeps h _ _
theorem setRing_keeps {o s : State} (h : Keeps o s) (t : Nat) (x : Ring) : Keeps o (s.setRing t x) :=
  ⟨h.1, fun g => let ⟨c, w⟩ := h.2 g
    ⟨⟨c.mem, c.bad, c.accBad, c.lpBad, c.regs, c.tiles, c.kettles, c.parts, c.bays, tab_wf_set _ _ c.rings, c.ports⟩, w⟩⟩
theorem modRing_keeps {o s : State} (h : Keeps o s) (t : Nat) (f : Ring → Ring) : Keeps o (s.modRing t f) := setRing_keeps h _ _
theorem setPort_keeps {o s : State} (h : Keeps o s) (t : Nat) (x : Port) : Keeps o (s.setPort t x) :=
  ⟨h.1, fun g => let ⟨c, w⟩ := h.2 g
    ⟨⟨c.mem, c.bad, c.accBad, c.lpBad, c.regs, c.tiles, c.kettles, c.parts, c.bays, c.rings, tab_wf_set _ _ c.ports⟩, w⟩⟩
theorem modPort_keeps {o s : State} (h : Keeps o s) (t : Nat) (f : Port → Port) : Keeps o (s.modPort t f) := setPort_keeps h _ _

theorem devWrite_keeps {o s : State} (h : Keeps o s) (a : Nat) (bs : List Byte) : Keeps o (s.devWrite a bs) := by
  unfold State.devWrite
  split
  · exact h
  · exact ⟨h.1, fun g => let ⟨c, w⟩ := h.2 g
      ⟨c.swap _ ⟨mem_wf_write _ _ c.mem.1, c.mem.2⟩ (tab_wf_clear _ _ c.bad) c.accBad (tab_wf_clear _ _ c.lpBad)
        (Eq.refl _) (Eq.refl _) (Eq.refl _) (Eq.refl _) (Eq.refl _) (Eq.refl _) (Eq.refl _), w⟩⟩

theorem devZero_keeps {o s : State} (h : Keeps o s) (a n : Nat) : Keeps o (s.devZero a n) :=
  ⟨h.1, fun g => let ⟨c, w⟩ := h.2 g
    ⟨c.swap _ ⟨mem_wf_zero _ _ c.mem.1, c.mem.2⟩ (tab_wf_clear _ _ c.bad) c.accBad (tab_wf_clear _ _ c.lpBad)
      (Eq.refl _) (Eq.refl _) (Eq.refl _) (Eq.refl _) (Eq.refl _) (Eq.refl _) (Eq.refl _), w⟩⟩

theorem hostWrite_keeps {o s : State} (h : Keeps o s) (a : Nat) (bs : List Byte) : Keeps o (s.hostWrite a bs) :=
  ⟨h.1, fun g => let ⟨c, w⟩ := h.2 g
    ⟨c.swap _ ⟨c.mem.1, mem_wf_write _ _ c.mem.2.1, c.mem.2.2⟩ c.bad c.accBad c.lpBad
      (Eq.refl _) (Eq.refl _) (Eq.refl _) (Eq.refl _) (Eq.refl _) (Eq.refl _) (Eq.refl _), w⟩⟩

/-- New accumulator and stationary memories. -/
theorem Keeps.engine {o s t : State} (h : Keeps o s) (e : t.pending = s.pending) (hd : t.dev = s.dev) (hh : t.host = s.host)
    (ha : Memory.wf s.acc → Memory.wf t.acc) (hs : Memory.wf s.stat → Memory.wf t.stat) (hb : t.bad = s.bad)
    (hab : Tab.wf false s.accBad = true → Tab.wf false t.accBad = true) (hl : t.lpBad = s.lpBad)
    (e4 : t.regs = s.regs) (e5 : t.tiles = s.tiles) (e6 : t.kettles = s.kettles) (e7 : t.parts = s.parts) (e8 : t.bays = s.bays)
    (e9 : t.rings = s.rings) (e10 : t.ports = s.ports) : Keeps o t := by
  refine ⟨e.trans h.1, fun g => ?_⟩
  obtain ⟨c, w⟩ := h.2 g
  refine ⟨c.swap _ ⟨hd ▸ c.mem.1, hh ▸ c.mem.2.1, ha c.mem.2.2.1, hs c.mem.2.2.2⟩ (hb ▸ c.bad) (hab c.accBad) (hl ▸ c.lpBad) e4 e5 e6 e7
    e8 e9 e10, ?_⟩
  unfold State.FieldsFit; rw [e4]; exact w

theorem mem_wf_freeRange {m : Mem} (base n kind : Nat) (os : List Nat) (h : Memory.wf m) : Memory.wf (Mem.freeRange m base n kind os) := by
  have hmid : ∀ (k : Nat), Memory.wf ((List.range' k n).filterMap (fun i =>
      let b := BitVec.ofNat 8 (Config.freeAt kind (i :: os))
      if b = 0 then none else some (base + i, b))) := by
    induction n with
    | zero => intro k; rfl
    | succ n ih =>
      intro k
      rw [List.range'_succ, List.filterMap_cons]
      split
      · exact ih (k + 1)
      · next x hx =>
        dsimp only at hx
        split at hx
        · cases hx
        · next hb =>
          cases hx
          refine (tab_wf_cons _ _ _).2 ⟨hb, ?_, ih (k + 1)⟩
          intro y hy
          obtain ⟨i, hi, hy⟩ := List.mem_filterMap.1 hy
          rw [List.mem_range'_1] at hi
          dsimp only at hy
          split at hy
          · cases hy
          · cases hy; simp only; omega
  unfold Mem.freeRange
  refine tab_wf_append (tab_wf_append (tab_wf_filter _ h) ?_ ?_) (tab_wf_filter _ h) ?_
  · rw [List.range_eq_range']; exact hmid 0
  · intro x hx y hy
    obtain ⟨i, hi, hy⟩ := List.mem_filterMap.1 hy
    simp only at hy
    split at hy
    · cases hy
    · cases hy
      have := (List.mem_filter.1 hx).2
      simp only [decide_eq_true_eq] at this
      simp only; omega
  · intro x hx y hy
    have hy := (List.mem_filter.1 hy).2
    simp only [decide_eq_true_eq] at hy
    rcases List.mem_append.1 hx with hx | hx
    · have hx := (List.mem_filter.1 hx).2
      simp only [decide_eq_true_eq] at hx
      omega
    · obtain ⟨i, hi, hx⟩ := List.mem_filterMap.1 hx
      rw [List.mem_range] at hi
      simp only at hx
      split at hx
      · cases hx
      · cases hx; simp only; omega

end Sys2Proof.Machine
end

