-- ==== Sys2Proof/Laws/KeepsOps.lean ====
section
/-!
SUPPORT. What no operation of Machine/Ops.lean does (Laws/Keeps.lean).
-/

set_option Elab.async false

namespace Sys2Proof.Machine

theorem free1_keeps {o : State} (s : State) (h : Keeps o s) : Keeps o (State.free1 s).2 := by
  unfold State.free1
  repeat' first | with_reducible assumption | simp only [Keeps.mk_iff] | dsimp only

theorem spWrite_keeps {o : State} (s : State) (t : ℕ) (o_ : ℕ) (bs : List Byte) (h : Keeps o s) : Keeps o (State.spWrite s t o_ bs) := by
  unfold State.spWrite
  repeat' first | with_reducible assumption | with_reducible apply devWrite_keeps

theorem pump_keeps {o : State} (a0 : ℕ) (a1 : State) (a2 : ℕ) (h : Keeps o a1) : Keeps o (State.pump a0 a1 a2) := by
  induction a0 generalizing a1 a2 with
  | zero =>
    unfold State.pump
    repeat' first
        | with_reducible assumption | with_reducible apply finc_keeps | with_reducible apply setPort_keeps
        | with_reducible apply finc_keeps | with_reducible apply setPort_keeps | with_reducible apply Keeps.ite
        | with_reducible apply KeepsOpt.some | with_reducible apply KeepsOpt.none | with_reducible apply KeepsOpt.ite
        | simp only [Keeps.mk_iff] | with_reducible refine Keeps.snd (by with_reducible assumption) ?_
        | with_reducible refine Keeps.fst (by with_reducible assumption) ?_
        | with_reducible refine KeepsOpt.get (by with_reducible assumption) ?_ | split
  | succ n ih =>
    unfold State.pump
    repeat' first
        | with_reducible assumption | with_reducible apply ih | with_reducible apply finc_keeps
        | with_reducible apply setPort_keeps | with_reducible apply finc_keeps | with_reducible apply setPort_keeps
        | with_reducible apply Keeps.ite | with_reducible apply KeepsOpt.some | with_reducible apply KeepsOpt.none
        | with_reducible apply KeepsOpt.ite | simp only [Keeps.mk_iff] | with_reducible refine Keeps.snd (by with_reducible assumption) ?_
        | with_reducible refine Keeps.fst (by with_reducible assumption) ?_
        | with_reducible refine KeepsOpt.get (by with_reducible assumption) ?_ | split

theorem queueOn_keeps {o : State} (s : State) (q : ℕ) (fs : List (BitVec 2048 × ℕ)) (h : Keeps o s) : Keeps o (State.queueOn s q fs) := by
  unfold State.queueOn
  repeat' first
      | with_reducible assumption | with_reducible intro _ | with_reducible apply pump_keeps
      | with_reducible apply modPort_keeps | simp only [Keeps.mk_iff]

theorem localDrop_keeps {o : State} (s : State) (b : ℕ) (n : ℕ) (dst : ℕ) (h : Keeps o s) : Keeps o (State.localDrop s b n dst) := by
  unfold State.localDrop
  repeat' first | with_reducible assumption | with_reducible apply finc_keeps | simp only [Keeps.mk_iff]

theorem sendFrom_keeps {o : State} (s : State) (p : ℕ) (b : ℕ) (m : Msg) (h : Keeps o s) : Keeps o (State.sendFrom s p b m) := by
  unfold State.sendFrom
  repeat' first
      | with_reducible assumption | with_reducible intro _ | with_reducible apply queueOn_keeps
      | with_reducible apply localDrop_keeps | with_reducible apply Keeps.ite | with_reducible apply KeepsOpt.some
      | with_reducible apply KeepsOpt.none | with_reducible apply KeepsOpt.ite | with_reducible refine KeepsOpt.map ?_ (fun s h => ?_)
      | with_reducible refine KeepsOpt.of (fun x => ?_) | simp only [Keeps.mk_iff]
      | with_reducible refine Keeps.snd (by with_reducible assumption) ?_
      | with_reducible refine Keeps.fst (by with_reducible assumption) ?_
      | with_reducible refine KeepsOpt.get (by with_reducible assumption) ?_ | split

theorem send_keeps {o : State} (s : State) (p : ℕ) (m : Msg) (h : Keeps o s) : Keeps o (State.send s p m) := by
  unfold State.send
  repeat' first
      | with_reducible assumption | with_reducible apply sendFrom_keeps | with_reducible refine KeepsOpt.map ?_ (fun s h => ?_)
      | with_reducible refine KeepsOpt.of (fun x => ?_) | with_reducible apply KeepsOpt.getD | simp only [Keeps.mk_iff]

end Sys2Proof.Machine
end

