-- ==== Sys2Proof/Laws/KeepsRings.lean ====
section
/-!
SUPPORT. What no operation of Machine/Rings.lean does (Laws/Keeps.lean).
-/

set_option Elab.async false

namespace Sys2Proof.Machine

theorem interrupt_keeps {o : State} (s : State) (fn : ℕ) (v : ℕ) (h : Keeps o s) : Keeps o (State.interrupt s fn v) := by
  unfold State.interrupt
  repeat' first | with_reducible assumption | with_reducible apply Keeps.ite | simp only [Keeps.mk_iff] | split

theorem powerEvent_keeps {o : State} (s : State) (f : Fld) (h : Keeps o s) : Keeps o (State.powerEvent s f) := by
  unfold State.powerEvent
  repeat' first
      | with_reducible assumption | with_reducible apply interrupt_keeps | with_reducible apply fset_keeps
      | with_reducible apply Keeps.ite | split

theorem powerTo_keeps {o : State} (s : State) (st : ℕ) (h : Keeps o s) : Keeps o (State.powerTo s st) := by
  unfold State.powerTo
  repeat' first
      | with_reducible assumption | with_reducible apply powerEvent_keeps | with_reducible apply fset_keeps
      | with_reducible apply Keeps.ite | split

theorem wake_keeps {o : State} (s : State) (h : Keeps o s) : Keeps o (State.wake s) := by
  unfold State.wake
  repeat' first | with_reducible assumption | with_reducible apply powerTo_keeps | with_reducible apply Keeps.ite | split

theorem replayPut_keeps {o : State} (s : State) (p : ℕ) (type : ℕ) (flags : ℕ) (payload : List Byte) (h : Keeps o s) : KeepsOpt o (State.replayPut s p type flags payload) := by
  unfold State.replayPut
  repeat' first
      | with_reducible assumption | with_reducible intro _ | with_reducible apply hostWrite_keeps
      | with_reducible apply devWrite_keeps | with_reducible apply modPart_keeps | with_reducible apply fset_keeps
      | with_reducible apply finc_keeps | with_reducible apply Keeps.ite | with_reducible apply KeepsOpt.some
      | with_reducible apply KeepsOpt.none | with_reducible apply KeepsOpt.ite | simp only [Keeps.mk_iff]
      | with_reducible refine Keeps.snd (by with_reducible assumption) ?_
      | with_reducible refine Keeps.fst (by with_reducible assumption) ?_
      | with_reducible refine KeepsOpt.get (by with_reducible assumption) ?_ | split

theorem capture_keeps {o : State} (s : State) (p : ℕ) (type : ℕ) (flags : ℕ) (payload : List Byte) (h : Keeps o s) : Keeps o (State.capture s p type flags payload) := by
  unfold State.capture
  repeat' first
      | with_reducible assumption | with_reducible intro _ | with_reducible apply send_keeps | with_reducible apply finc_keeps
      | with_reducible apply modPart_keeps | with_reducible apply replayPut_keeps | with_reducible apply Keeps.ite
      | with_reducible apply KeepsOpt.some | with_reducible apply KeepsOpt.none | with_reducible apply KeepsOpt.ite
      | with_reducible refine KeepsOpt.map ?_ (fun s h => ?_) | with_reducible refine KeepsOpt.of (fun x => ?_)
      | with_reducible refine KeepsOpt.bind ?_ (fun s h => ?_) | simp only [Keeps.mk_iff]
      | with_reducible refine Keeps.snd (by with_reducible assumption) ?_
      | with_reducible refine Keeps.fst (by with_reducible assumption) ?_
      | with_reducible refine KeepsOpt.get (by with_reducible assumption) ?_ | split

theorem endCapture_keeps {o : State} (s : State) (p : ℕ) (h : Keeps o s) : Keeps o (State.endCapture s p) := by
  unfold State.endCapture
  repeat' first | with_reducible assumption | with_reducible apply fset_keeps | with_reducible apply capture_keeps

theorem setVersion_keeps {o : State} (s : State) (p : ℕ) (v : ℕ) (h : Keeps o s) : Keeps o (State.setVersion s p v) := by
  unfold State.setVersion
  repeat' first
      | with_reducible assumption | with_reducible intro _ | with_reducible apply modPart_keeps
      | with_reducible apply fset_keeps | with_reducible apply capture_keeps | with_reducible apply Keeps.ite
      | with_reducible apply KeepsOpt.some | with_reducible apply KeepsOpt.none | with_reducible apply KeepsOpt.ite
      | with_reducible refine KeepsOpt.map ?_ (fun s h => ?_) | with_reducible refine KeepsOpt.of (fun x => ?_) | simp only [Keeps.mk_iff]
      | with_reducible refine Keeps.snd (by with_reducible assumption) ?_
      | with_reducible refine Keeps.fst (by with_reducible assumption) ?_
      | with_reducible refine KeepsOpt.get (by with_reducible assumption) ?_ | split

theorem setEpoch_keeps {o : State} (s : State) (p : ℕ) (e : ℕ) (h : Keeps o s) : Keeps o (State.setEpoch s p e) := by
  unfold State.setEpoch
  repeat' first
      | with_reducible assumption | with_reducible apply fset_keeps | with_reducible apply capture_keeps
      | with_reducible apply Keeps.ite | split

theorem replayFlush_keeps {o : State} (s : State) (p : ℕ) (a2 : ℕ) (h : Keeps o s) : Keeps o (State.replayFlush s p a2) := by
  induction a2 generalizing s p with
  | zero =>
    unfold State.replayFlush
    repeat' first
        | with_reducible assumption | with_reducible intro _ | with_reducible apply modPart_keeps
        | with_reducible apply replayPut_keeps | with_reducible apply modPart_keeps | with_reducible apply KeepsOpt.some
        | with_reducible apply KeepsOpt.none | simp only [Keeps.mk_iff] | with_reducible refine Keeps.snd (by with_reducible assumption) ?_
        | with_reducible refine Keeps.fst (by with_reducible assumption) ?_
        | with_reducible refine KeepsOpt.get (by with_reducible assumption) ?_ | split
  | succ n ih =>
    unfold State.replayFlush
    repeat' first
        | with_reducible assumption | with_reducible apply ih | with_reducible intro _ | with_reducible apply modPart_keeps
        | with_reducible apply replayPut_keeps | with_reducible apply modPart_keeps | with_reducible apply KeepsOpt.some
        | with_reducible apply KeepsOpt.none | simp only [Keeps.mk_iff] | with_reducible refine Keeps.snd (by with_reducible assumption) ?_
        | with_reducible refine Keeps.fst (by with_reducible assumption) ?_
        | with_reducible refine KeepsOpt.get (by with_reducible assumption) ?_ | split

theorem countPending_keeps {o : State} (s : State) (fn : ℕ) (ring : ℕ) (h : Keeps o s) : Keeps o (State.countPending s fn ring) := by
  unfold State.countPending
  repeat' first
      | with_reducible assumption | with_reducible intro _ | with_reducible apply interrupt_keeps
      | with_reducible apply modRing_keeps | with_reducible apply Keeps.ite | simp only [Keeps.mk_iff] | split

theorem writeRecord_keeps {o : State} (s : State) (fn : ℕ) (ring : ℕ) (noIrq : Bool) (body : List Byte) (h : Keeps o s) : Keeps o (State.writeRecord s fn ring noIrq body) := by
  unfold State.writeRecord
  repeat' first
      | with_reducible assumption | with_reducible intro _ | with_reducible apply modPart_keeps
      | with_reducible apply hostWrite_keeps | with_reducible apply modRing_keeps | with_reducible apply fset_keeps
      | with_reducible apply countPending_keeps | with_reducible apply take_keeps | with_reducible apply Keeps.ite
      | simp only [Keeps.mk_iff] | with_reducible refine Keeps.snd (by with_reducible assumption) ?_
      | with_reducible refine Keeps.fst (by with_reducible assumption) ?_
      | with_reducible refine Keeps.third (by with_reducible assumption) ?_ | split

theorem post_keeps {o : State} (s : State) (fn : ℕ) (ring : ℕ) (noIrq : Bool) (body : List Byte) (h : Keeps o s) : Keeps o (State.post s fn ring noIrq body) := by
  unfold State.post
  repeat' first
      | with_reducible assumption | with_reducible intro _ | with_reducible apply writeRecord_keeps
      | with_reducible apply modRing_keeps | with_reducible apply Keeps.ite | simp only [Keeps.mk_iff] | split

theorem postHeld_keeps {o : State} (s : State) (fn : ℕ) (ring : ℕ) (a3 : ℕ) (h : Keeps o s) : Keeps o (State.postHeld s fn ring a3) := by
  induction a3 generalizing s fn ring with
  | zero =>
    unfold State.postHeld
    repeat' first
        | with_reducible assumption | with_reducible intro _ | with_reducible apply modRing_keeps
        | with_reducible apply writeRecord_keeps | with_reducible apply modRing_keeps | with_reducible apply Keeps.ite
        | simp only [Keeps.mk_iff] | with_reducible refine Keeps.snd (by with_reducible assumption) ?_
        | with_reducible refine Keeps.fst (by with_reducible assumption) ?_ | split
  | succ n ih =>
    unfold State.postHeld
    repeat' first
        | with_reducible assumption | with_reducible apply ih | with_reducible intro _ | with_reducible apply modRing_keeps
        | with_reducible apply writeRecord_keeps | with_reducible apply modRing_keeps | with_reducible apply Keeps.ite
        | simp only [Keeps.mk_iff] | with_reducible refine Keeps.snd (by with_reducible assumption) ?_
        | with_reducible refine Keeps.fst (by with_reducible assumption) ?_ | split

theorem replayFails_keeps {o : State} (s : State) (p : ℕ) (status : ℕ) (rseq : ℕ) (h : Keeps o s) : Keeps o (State.replayFails s p status rseq) := by
  unfold State.replayFails
  repeat' first
      | with_reducible assumption | with_reducible intro _ | with_reducible apply modPart_keeps | with_reducible apply Keeps.ite
      | with_reducible refine KeepsOpt.map ?_ (fun s h => ?_) | with_reducible refine KeepsOpt.of (fun x => ?_) | simp only [Keeps.mk_iff]
      | split

theorem replayOutput_keeps {o : State} (s : State) (p : ℕ) (digest : List Byte) (h : Keeps o s) : Keeps o (State.replayOutput s p digest) := by
  unfold State.replayOutput
  repeat' first
      | with_reducible assumption | with_reducible intro _ | with_reducible apply replayFails_keeps
      | with_reducible apply modPart_keeps | with_reducible apply Keeps.ite | with_reducible apply KeepsOpt.some
      | with_reducible apply KeepsOpt.none | with_reducible apply KeepsOpt.ite | with_reducible refine KeepsOpt.map ?_ (fun s h => ?_)
      | with_reducible refine KeepsOpt.of (fun x => ?_) | with_reducible apply KeepsOpt.getD | simp only [Keeps.mk_iff]
      | with_reducible refine Keeps.snd (by with_reducible assumption) ?_
      | with_reducible refine Keeps.fst (by with_reducible assumption) ?_
      | with_reducible refine KeepsOpt.get (by with_reducible assumption) ?_ | split

theorem captureOutput_keeps {o : State} (s : State) (part : ℕ) (body : List Byte) (h : Keeps o s) : Keeps o (State.captureOutput s part body) := by
  unfold State.captureOutput
  repeat' first
      | with_reducible assumption | with_reducible apply replayOutput_keeps | with_reducible apply capture_keeps
      | with_reducible apply Keeps.ite | split

theorem reply_keeps {o : State} (s : State) (fn : ℕ) (ring : ℕ) (slot : ℕ) (d : BitVec 512) (part : ℕ) (status : ℕ) (result : ℕ) (detail : ℕ) (h : Keeps o s) : Keeps o (State.reply s fn ring slot d part status result detail) := by
  unfold State.reply
  repeat' first
      | with_reducible assumption | with_reducible apply fset_keeps | with_reducible apply post_keeps
      | with_reducible apply captureOutput_keeps | with_reducible apply Keeps.ite | split

theorem complete_keeps {o : State} (s : State) (c : Cmd) (status : ℕ) (result : ℕ) (detail : ℕ) (h : Keeps o s) : Keeps o (State.complete s c status result detail) := by
  unfold State.complete
  repeat' first
      | with_reducible assumption | with_reducible intro _ | with_reducible apply captureOutput_keeps
      | with_reducible apply reply_keeps | with_reducible apply Keeps.ite | with_reducible apply Keeps.id | simp only [Keeps.mk_iff]
      | split

theorem finish_keeps {o : State} (s : State) (id : ℕ) (status : ℕ) (result : ℕ) (detail : ℕ) (h : Keeps o s) : Keeps o (State.finish s id status result detail) := by
  unfold State.finish
  repeat' first
      | with_reducible assumption | with_reducible apply complete_keeps | with_reducible apply KeepsOpt.some
      | with_reducible apply KeepsOpt.none | with_reducible apply Keeps.id | simp only [Keeps.mk_iff]
      | with_reducible refine Keeps.snd (by with_reducible assumption) ?_
      | with_reducible refine Keeps.fst (by with_reducible assumption) ?_
      | with_reducible refine KeepsOpt.get (by with_reducible assumption) ?_ | split

theorem modCmd_keeps {o : State} (s : State) (id : ℕ) (f : Cmd → Cmd) (h : Keeps o s) : Keeps o (State.modCmd s id f) := by
  unfold State.modCmd
  repeat' first
      | with_reducible assumption | with_reducible intro _ | with_reducible apply Keeps.ite
      | with_reducible refine KeepsOpt.map ?_ (fun s h => ?_) | with_reducible refine KeepsOpt.of (fun x => ?_)
      | with_reducible apply Keeps.id | simp only [Keeps.mk_iff] | split

theorem popSlot_keeps {o : State} (s : State) (fn : ℕ) (ring : ℕ) (h : Keeps o s) : Keeps o (State.popSlot s fn ring) := by
  unfold State.popSlot
  repeat' first
      | with_reducible assumption | with_reducible intro _ | with_reducible apply fset_keeps
      | with_reducible apply modPart_keeps | with_reducible apply Keeps.ite | simp only [Keeps.mk_iff] | split

theorem accept_keeps {o : State} (s : State) (fn : ℕ) (ring : ℕ) (slot : ℕ) (d : BitVec 512) (part : ℕ) (h : Keeps o s) : Keeps o (State.accept s fn ring slot d part).2 := by
  unfold State.accept
  repeat' first
      | with_reducible assumption | with_reducible apply endCapture_keeps | with_reducible apply capture_keeps
      | with_reducible apply Keeps.ite | with_reducible apply Keeps.id | simp only [Keeps.mk_iff] | split | dsimp only

theorem tagFailed_keeps {o : State} (s : State) (p : ℕ) (h : Keeps o s) : Keeps o (State.tagFailed s p) := by
  unfold State.tagFailed
  repeat' first | with_reducible assumption | with_reducible apply fsat_keeps | simp only [Keeps.mk_iff]

theorem hostRow_keeps {o : State} (s : State) (fn : ℕ) (ring : ℕ) (op : ℕ) (spec : State → BitVec 512 → Spec) (later : State → BitVec 512 → ℕ) (start : State → Cmd → State) (h : Keeps o s) (h1 : ∀ x0 x1, Keeps o x0 → Keeps o (start x0 x1)) : Keeps o (State.hostRow s fn ring op spec later start) := by
  unfold State.hostRow
  repeat' first
      | with_reducible assumption | with_reducible intro _ | with_reducible apply reply_keeps
      | with_reducible apply tagFailed_keeps | with_reducible apply popSlot_keeps | with_reducible apply accept_keeps
      | with_reducible apply modCmd_keeps | with_reducible apply h1 | with_reducible apply Keeps.ite | with_reducible apply KeepsOpt.some
      | with_reducible apply KeepsOpt.none | with_reducible apply KeepsOpt.ite | with_reducible apply Keeps.id | simp only [Keeps.mk_iff]
      | with_reducible refine Keeps.snd (by with_reducible assumption) ?_
      | with_reducible refine Keeps.fst (by with_reducible assumption) ?_
      | with_reducible refine KeepsOpt.get (by with_reducible assumption) ?_
      | with_reducible refine Keeps.third (by with_reducible assumption) ?_ | split

end Sys2Proof.Machine
end

