-- ==== Sys2Proof/Laws/KeepsFrets.lean ====
section
/-!
SUPPORT. What no operation of Machine/Frets.lean does (Laws/Keeps.lean).
-/

set_option Elab.async false

namespace Sys2Proof.Machine

theorem seqRest_keeps {o : State} (s : State) (b : ℕ) (h : Keeps o s) : Keeps o (State.seqRest s b) := by
  unfold State.seqRest
  repeat' first
      | with_reducible assumption | with_reducible intro _ | with_reducible apply fset_keeps | with_reducible apply Keeps.ite
      | split

theorem writeTable_keeps {o : State} (s : State) (p : ℕ) (b : ℕ) (q : Seq) (h : Keeps o s) : Keeps o (State.writeTable s p b q) := by
  unfold State.writeTable
  repeat' first
      | with_reducible assumption | with_reducible intro _ | with_reducible apply devWrite_keeps
      | with_reducible apply Keeps.ite | with_reducible apply KeepsOpt.some | with_reducible apply KeepsOpt.none
      | with_reducible apply KeepsOpt.ite | with_reducible apply Keeps.id | simp only [Keeps.mk_iff]
      | with_reducible refine Keeps.snd (by with_reducible assumption) ?_
      | with_reducible refine Keeps.fst (by with_reducible assumption) ?_
      | with_reducible refine KeepsOpt.get (by with_reducible assumption) ?_ | split

end Sys2Proof.Machine
end

