-- ==== Sys2Proof/Laws/KeepsBatch.lean ====
section
/-!
SUPPORT. What no operation of Machine/Batch.lean does (Laws/Keeps.lean).
-/

set_option Elab.async false

namespace Sys2Proof.Machine

theorem putRecord_keeps {o : State} (s : State) (p : ℕ) (b : ℕ) (rec : List Byte) (h : Keeps o s) : Keeps o (State.putRecord s p b rec) := by
  unfold State.putRecord
  repeat' first
      | with_reducible assumption | with_reducible intro _ | with_reducible apply hostWrite_keeps
      | with_reducible apply modPart_keeps | with_reducible apply fset_keeps | with_reducible apply modBay_keeps
      | with_reducible apply devWrite_keeps | with_reducible apply post_keeps | with_reducible apply captureOutput_keeps
      | with_reducible apply take_keeps | with_reducible apply Keeps.ite | simp only [Keeps.mk_iff]
      | with_reducible refine Keeps.snd (by with_reducible assumption) ?_
      | with_reducible refine Keeps.fst (by with_reducible assumption) ?_
      | with_reducible refine Keeps.third (by with_reducible assumption) ?_ | split

theorem batchRecord_keeps {o : State} (s : State) (p : ℕ) (b : ℕ) (failed : Bool) (es : List BEntry) (h : Keeps o s) : Keeps o (State.batchRecord s p b failed es) := by
  unfold State.batchRecord
  repeat' first | with_reducible assumption | with_reducible apply putRecord_keeps | with_reducible apply Keeps.ite | split

theorem dropSeqs_keeps {o : State} (s : State) (b : ℕ) (gone : Seq → Bool) (h : Keeps o s) : Keeps o (State.dropSeqs s b gone) := by
  unfold State.dropSeqs
  repeat' first
      | with_reducible assumption | with_reducible intro _ | with_reducible apply writeTable_keeps
      | with_reducible apply modBay_keeps | with_reducible apply KeepsOpt.some | with_reducible apply KeepsOpt.none
      | with_reducible refine Keeps.foldl (fun s x h => ?_) _ ?_ | simp only [Keeps.mk_iff]
      | with_reducible refine Keeps.snd (by with_reducible assumption) ?_
      | with_reducible refine Keeps.fst (by with_reducible assumption) ?_
      | with_reducible refine KeepsOpt.get (by with_reducible assumption) ?_ | split

theorem endAllSeqs_keeps {o : State} (s : State) (p : ℕ) (b : ℕ) (reason : ℕ) (failed : Bool) (h : Keeps o s) : Keeps o (State.endAllSeqs s p b reason failed) := by
  unfold State.endAllSeqs
  repeat' first
      | with_reducible assumption | with_reducible intro _ | with_reducible apply dropSeqs_keeps
      | with_reducible apply batchRecord_keeps | with_reducible refine KeepsOpt.map ?_ (fun s h => ?_)
      | with_reducible refine KeepsOpt.of (fun x => ?_)

end Sys2Proof.Machine
end

