-- ==== Sys2Proof/Laws/KeepsStop.lean ====
section
/-!
SUPPORT. What no operation of Machine/Stop.lean does (Laws/Keeps.lean).
-/

set_option Elab.async false

namespace Sys2Proof.Machine

theorem detect_keeps {o : State} (s : State) (source : ℕ) (kind : ℕ) (inst : ℕ) (info : ℕ) (h : Keeps o s) : Keeps o (State.detect s source kind inst info) := by
  unfold State.detect
  repeat' first | with_reducible assumption | simp only [Keeps.mk_iff]

theorem stopTile_keeps {o : State} (s : State) (t : ℕ) (reason : ℕ) (pc : ℕ) (h : Keeps o s) : Keeps o (State.stopTile s t reason pc) := by
  unfold State.stopTile
  repeat' first
      | with_reducible assumption | with_reducible intro _ | with_reducible apply modTile_keeps
      | with_reducible apply fset_keeps | with_reducible apply KeepsFault.none | with_reducible apply KeepsFault.some
      | simp only [Keeps.mk_iff]

theorem stopTiles_keeps {o : State} (s : State) (ts : List ℕ) (h : Keeps o s) : Keeps o (State.stopTiles s ts) := by
  unfold State.stopTiles
  repeat' first
      | with_reducible assumption | with_reducible intro _ | with_reducible apply stopTile_keeps
      | with_reducible refine Keeps.foldl (fun s x h => ?_) _ ?_

theorem showBusy_keeps {o : State} (s : State) (t : ℕ) (h : Keeps o s) : Keeps o (State.showBusy s t) := by
  unfold State.showBusy
  repeat' first
      | with_reducible assumption | with_reducible intro _ | with_reducible apply fset_keeps
      | with_reducible refine Keeps.foldl (fun s x h => ?_) _ ?_

theorem failWords_keeps {o : State} (s : State) (t : ℕ) (p : Flight → Bool) (h : Keeps o s) : Keeps o (State.failWords s t p) := by
  unfold State.failWords
  repeat' first
      | with_reducible assumption | with_reducible intro _ | with_reducible apply showBusy_keeps
      | with_reducible apply modTile_keeps | with_reducible apply KeepsEff.ok | with_reducible apply KeepsEff.bad
      | with_reducible apply KeepsEff.fail | simp only [Keeps.mk_iff]

theorem failColl_keeps {o : State} (s : State) (c : Coll) (h : Keeps o s) : Keeps o (State.failColl s c) := by
  unfold State.failColl
  repeat' first
      | with_reducible assumption | with_reducible intro _ | with_reducible apply failWords_keeps
      | with_reducible apply KeepsEff.ok | with_reducible apply KeepsEff.bad | with_reducible apply KeepsEff.fail
      | with_reducible apply Keeps.id | with_reducible refine Keeps.foldl (fun s x h => ?_) _ ?_

theorem orphan_keeps {o : State} (s : State) (p : ℕ) (h : Keeps o s) : Keeps o (State.orphan s p) := by
  induction p generalizing s with
  | zero =>
    unfold State.orphan
    repeat' first
        | with_reducible assumption | with_reducible intro _ | with_reducible apply failColl_keeps
        | with_reducible apply modPart_keeps | with_reducible apply Keeps.ite | with_reducible apply KeepsEff.ok
        | with_reducible apply KeepsEff.bad | with_reducible apply KeepsEff.fail | with_reducible apply KeepsEff.ite
        | with_reducible apply KeepsOpt.some | with_reducible apply KeepsOpt.none | with_reducible apply KeepsOpt.ite
        | with_reducible refine Keeps.foldl (fun s x h => ?_) _ ?_ | simp only [Keeps.mk_iff] | split
  | succ n ih =>
    unfold State.orphan
    repeat' first
        | with_reducible assumption | with_reducible apply ih | with_reducible intro _ | with_reducible apply failColl_keeps
        | with_reducible apply modPart_keeps | with_reducible apply Keeps.ite | with_reducible apply KeepsEff.ok
        | with_reducible apply KeepsEff.bad | with_reducible apply KeepsEff.fail | with_reducible apply KeepsEff.ite
        | with_reducible apply KeepsOpt.some | with_reducible apply KeepsOpt.none | with_reducible apply KeepsOpt.ite
        | with_reducible refine Keeps.foldl (fun s x h => ?_) _ ?_ | simp only [Keeps.mk_iff] | split

theorem dropKettleWaits_keeps {o : State} (s : State) (p : ℕ) (h : Keeps o s) : Keeps o (State.dropKettleWaits s p) := by
  unfold State.dropKettleWaits
  repeat' first
      | with_reducible assumption | with_reducible intro _ | with_reducible apply modKettle_keeps
      | with_reducible apply fset_keeps | with_reducible apply take_keeps | with_reducible apply Keeps.ite
      | with_reducible refine Keeps.foldl (fun s x h => ?_) _ ?_ | simp only [Keeps.mk_iff] | split

theorem failLearn_keeps {o : State} (s : State) (p : ℕ) (status : ℕ) (detail : ℕ) (h : Keeps o s) : Keeps o (State.failLearn s p status detail) := by
  unfold State.failLearn
  repeat' first
      | with_reducible assumption | with_reducible intro _ | with_reducible apply stopTiles_keeps
      | with_reducible apply modPart_keeps | with_reducible apply dropKettleWaits_keeps | with_reducible apply orphan_keeps
      | with_reducible apply Keeps.ite | with_reducible apply KeepsEff.ok | with_reducible apply KeepsEff.bad
      | with_reducible apply KeepsEff.fail | with_reducible apply KeepsEff.ite | with_reducible apply KeepsOpt.some
      | with_reducible apply KeepsOpt.none | with_reducible apply KeepsOpt.ite | simp only [Keeps.mk_iff]
      | with_reducible refine Keeps.snd (by with_reducible assumption) ?_
      | with_reducible refine Keeps.fst (by with_reducible assumption) ?_
      | with_reducible refine KeepsOpt.get (by with_reducible assumption) ?_ | split

theorem failRollout_keeps {o : State} (s : State) (b : ℕ) (h : Keeps o s) : Keeps o (State.failRollout s b) := by
  unfold State.failRollout
  repeat' first
      | with_reducible assumption | with_reducible intro _ | with_reducible apply modBay_keeps
      | with_reducible apply stopTiles_keeps | with_reducible apply KeepsEff.ok | with_reducible apply KeepsEff.bad
      | with_reducible apply KeepsEff.fail | simp only [Keeps.mk_iff]

theorem failStepOf_keeps {o : State} (s : State) (t : ℕ) (status : ℕ) (detail : ℕ) (h : Keeps o s) : Keeps o (State.failStepOf s t status detail) := by
  unfold State.failStepOf
  repeat' first
      | with_reducible assumption | with_reducible apply failRollout_keeps | with_reducible apply failLearn_keeps
      | with_reducible apply Keeps.ite | with_reducible apply KeepsEff.ok | with_reducible apply KeepsEff.bad
      | with_reducible apply KeepsEff.fail | with_reducible apply KeepsEff.ite | with_reducible apply KeepsOpt.some
      | with_reducible apply KeepsOpt.none | with_reducible apply KeepsOpt.ite | simp only [Keeps.mk_iff]
      | with_reducible refine Keeps.snd (by with_reducible assumption) ?_
      | with_reducible refine Keeps.fst (by with_reducible assumption) ?_
      | with_reducible refine KeepsOpt.get (by with_reducible assumption) ?_ | split

theorem restoreEntry_keeps {o : State} (s : State) (st : ℕ) (u : Undo) (h : Keeps o s) : Keeps o (State.restoreEntry s st u) := by
  unfold State.restoreEntry
  repeat' first
      | with_reducible assumption | with_reducible intro _ | with_reducible apply modKettle_keeps
      | with_reducible apply devWrite_keeps | with_reducible refine Keeps.foldl (fun s x h => ?_) _ ?_ | simp only [Keeps.mk_iff]

theorem stopKettle_keeps {o : State} (s : State) (st : ℕ) (h : Keeps o s) : Keeps o (State.stopKettle s st) := by
  unfold State.stopKettle
  repeat' first
      | with_reducible assumption | with_reducible intro _ | with_reducible apply detect_keeps | with_reducible apply fset_keeps
      | with_reducible apply restoreEntry_keeps | with_reducible apply modKettle_keeps | with_reducible apply Keeps.ite
      | with_reducible apply KeepsEff.ok | with_reducible apply KeepsEff.bad | with_reducible apply KeepsEff.fail
      | with_reducible apply KeepsEff.ite | with_reducible refine Keeps.foldl (fun s x h => ?_) _ ?_ | simp only [Keeps.mk_iff] | split

theorem stopKettles_keeps {o : State} (s : State) (p : ℕ) (h : Keeps o s) : Keeps o (State.stopKettles s p) := by
  unfold State.stopKettles
  repeat' first
      | with_reducible assumption | with_reducible intro _ | with_reducible apply stopKettle_keeps
      | with_reducible refine Keeps.foldl (fun s x h => ?_) _ ?_

theorem discardRed_keeps {o : State} (s : State) (c : Coll) (h : Keeps o s) : Keeps o (State.discardRed s c) := by
  unfold State.discardRed
  repeat' first | with_reducible assumption | with_reducible apply detect_keeps | with_reducible apply fset_keeps

theorem dropColls_keeps {o : State} (s : State) (p : ℕ) (q : Coll → Bool) (abandon : Bool) (h : Keeps o s) : Keeps o (State.dropColls s p q abandon) := by
  unfold State.dropColls
  repeat' first
      | with_reducible assumption | with_reducible intro _ | with_reducible apply failColl_keeps
      | with_reducible apply discardRed_keeps | with_reducible apply modPart_keeps | with_reducible apply Keeps.ite
      | with_reducible apply KeepsEff.ok | with_reducible apply KeepsEff.bad | with_reducible apply KeepsEff.fail
      | with_reducible apply KeepsEff.ite | with_reducible refine Keeps.foldl (fun s x h => ?_) _ ?_ | simp only [Keeps.mk_iff] | split

theorem dropRefresh_keeps {o : State} (s : State) (p : ℕ) (h : Keeps o s) : Keeps o (State.dropRefresh s p) := by
  unfold State.dropRefresh
  repeat' first
      | with_reducible assumption | with_reducible intro _ | with_reducible apply fset_keeps
      | with_reducible apply modPart_keeps | with_reducible apply Keeps.ite | with_reducible refine Keeps.foldl (fun s x h => ?_) _ ?_
      | simp only [Keeps.mk_iff] | split

theorem haltWork_keeps {o : State} (s : State) (p : ℕ) (h : Keeps o s) : Keeps o (State.haltWork s p) := by
  unfold State.haltWork
  repeat' first
      | with_reducible assumption | with_reducible intro _ | with_reducible apply stopTiles_keeps
      | with_reducible apply failWords_keeps | with_reducible apply dropColls_keeps | with_reducible apply stopKettles_keeps
      | with_reducible apply fset_keeps | with_reducible apply modPart_keeps | with_reducible apply dropRefresh_keeps
      | with_reducible apply Keeps.ite | with_reducible apply KeepsEff.ok | with_reducible apply KeepsEff.bad
      | with_reducible apply KeepsEff.fail | with_reducible apply KeepsEff.ite | with_reducible refine Keeps.foldl (fun s x h => ?_) _ ?_
      | simp only [Keeps.mk_iff] | split

theorem dropReplay_keeps {o : State} (s : State) (p : ℕ) (h : Keeps o s) : Keeps o (State.dropReplay s p) := by
  unfold State.dropReplay
  repeat' first
      | with_reducible assumption | with_reducible intro _ | with_reducible apply fset_keeps
      | with_reducible apply modPart_keeps | with_reducible apply Keeps.ite | simp only [Keeps.mk_iff] | split

theorem endCmds_keeps {o : State} (s : State) (p : ℕ) (q : Cmd → Bool) (waiting : ℕ) (running : ℕ) (h : Keeps o s) : Keeps o (State.endCmds s p q waiting running) := by
  unfold State.endCmds
  repeat' first
      | with_reducible assumption | with_reducible intro _ | with_reducible apply complete_keeps
      | with_reducible refine Keeps.foldl (fun s x h => ?_) _ ?_

theorem haltTurn_keeps {o : State} (s : State) (p : ℕ) (h : Keeps o s) : Keeps o (State.haltTurn s p) := by
  unfold State.haltTurn
  repeat' first
      | with_reducible assumption | with_reducible intro _ | with_reducible apply modPart_keeps
      | with_reducible apply fset_keeps | with_reducible apply Keeps.ite | simp only [Keeps.mk_iff] | split

theorem dropJobs_keeps {o : State} (s : State) (p : ℕ) (h : Keeps o s) : Keeps o (State.dropJobs s p) := by
  unfold State.dropJobs
  repeat' first | with_reducible assumption | with_reducible intro _ | simp only [Keeps.mk_iff]

theorem seqIdle_keeps {o : State} (s : State) (b : ℕ) (h : Keeps o s) : Keeps o (State.seqIdle s b) := by
  unfold State.seqIdle
  repeat' first
      | with_reducible assumption | with_reducible intro _ | with_reducible apply modBay_keeps
      | with_reducible apply seqRest_keeps | simp only [Keeps.mk_iff]

theorem nameFailed_keeps {o : State} (s : State) (p : ℕ) (h : Keeps o s) : Keeps o (State.nameFailed s p) := by
  unfold State.nameFailed
  repeat' first
      | with_reducible assumption | with_reducible apply finish_keeps | with_reducible apply Keeps.ite
      | with_reducible apply KeepsOpt.some | with_reducible apply KeepsOpt.none | with_reducible apply KeepsOpt.ite
      | simp only [Keeps.mk_iff] | with_reducible refine Keeps.snd (by with_reducible assumption) ?_
      | with_reducible refine Keeps.fst (by with_reducible assumption) ?_
      | with_reducible refine KeepsOpt.get (by with_reducible assumption) ?_ | split

theorem containPart_keeps {o : State} (s : State) (p : ℕ) (h : Keeps o s) : Keeps o (State.containPart s p) := by
  unfold State.containPart
  repeat' first
      | with_reducible assumption | with_reducible intro _ | with_reducible apply nameFailed_keeps
      | with_reducible apply fset_keeps | with_reducible apply dropReplay_keeps | with_reducible apply haltWork_keeps
      | with_reducible apply endCmds_keeps | with_reducible apply dropJobs_keeps | with_reducible apply haltTurn_keeps
      | with_reducible apply stopTiles_keeps | with_reducible apply failWords_keeps | with_reducible apply seqIdle_keeps
      | with_reducible apply endAllSeqs_keeps | with_reducible apply modPart_keeps | with_reducible apply Keeps.ite
      | with_reducible apply KeepsEff.ok | with_reducible apply KeepsEff.bad | with_reducible apply KeepsEff.fail
      | with_reducible apply KeepsEff.ite | with_reducible refine Keeps.foldl (fun s x h => ?_) _ ?_ | simp only [Keeps.mk_iff] | split

theorem dropBuddies_keeps {o : State} (s : State) (h : Keeps o s) : Keeps o (State.dropBuddies s) := by
  unfold State.dropBuddies
  repeat' first
      | with_reducible assumption | with_reducible intro _ | with_reducible apply modPart_keeps | with_reducible apply Keeps.ite
      | with_reducible refine KeepsOpt.map ?_ (fun s h => ?_) | with_reducible refine KeepsOpt.of (fun x => ?_)
      | with_reducible refine Keeps.foldl (fun s x h => ?_) _ ?_ | simp only [Keeps.mk_iff] | split

theorem enterSafe_keeps {o : State} (s : State) (h : Keeps o s) : Keeps o (State.enterSafe s) := by
  unfold State.enterSafe
  repeat' first
      | with_reducible assumption | with_reducible intro _ | with_reducible apply dropBuddies_keeps
      | with_reducible apply powerTo_keeps | with_reducible apply fset_keeps | with_reducible apply endCmds_keeps
      | with_reducible apply dropReplay_keeps | with_reducible apply haltWork_keeps | with_reducible apply nameFailed_keeps
      | with_reducible apply dropJobs_keeps | with_reducible apply haltTurn_keeps | with_reducible apply stopTiles_keeps
      | with_reducible apply seqIdle_keeps | with_reducible apply failWords_keeps | with_reducible apply complete_keeps
      | with_reducible apply Keeps.ite | with_reducible apply KeepsEff.ok | with_reducible apply KeepsEff.bad
      | with_reducible apply KeepsEff.fail | with_reducible apply KeepsEff.ite | with_reducible refine Keeps.foldl (fun s x h => ?_) _ ?_
      | simp only [Keeps.mk_iff] | split

end Sys2Proof.Machine
end

