-- ==== Sys2Proof/Laws/KeepsCollector.lean ====
section
/-!
SUPPORT. What no operation of Machine/Collector.lean does (Laws/Keeps.lean).
-/

set_option Elab.async false

namespace Sys2Proof.Machine

theorem setSlot_keeps {o : State} (s : State) (i : ℕ) (r : LogRec) (h : Keeps o s) : Keeps o (State.setSlot s i r) := by
  unfold State.setSlot
  repeat' first | with_reducible assumption | simp only [Keeps.mk_iff]

theorem logNew_keeps {o : State} (s : State) (r : LogRec) (h : Keeps o s) : Keeps o (State.logNew s r) := by
  unfold State.logNew
  repeat' first
      | with_reducible assumption | with_reducible apply finc_keeps | with_reducible apply fset_keeps
      | with_reducible apply setSlot_keeps | with_reducible apply capture_keeps | with_reducible apply Keeps.ite
      | with_reducible apply KeepsOpt.some | with_reducible apply KeepsOpt.none | with_reducible apply KeepsOpt.ite
      | simp only [Keeps.mk_iff] | with_reducible refine Keeps.snd (by with_reducible assumption) ?_
      | with_reducible refine Keeps.fst (by with_reducible assumption) ?_
      | with_reducible refine KeepsOpt.get (by with_reducible assumption) ?_ | split

theorem assertFault_keeps {o : State} (s : State) (h : Keeps o s) : Keeps o (State.assertFault s) := by
  unfold State.assertFault
  repeat' first
      | with_reducible assumption | with_reducible apply fset_keeps | with_reducible apply KeepsFault.none
      | with_reducible apply KeepsFault.some | simp only [Keeps.mk_iff]

theorem startQuiet_keeps {o : State} (s : State) (scope : ℕ) (h : Keeps o s) : Keeps o (State.startQuiet s scope) := by
  unfold State.startQuiet
  repeat' first | with_reducible assumption | simp only [Keeps.mk_iff]

theorem act_keeps {o : State} (s : State) (sev : ℕ) (part : ℕ) (h : Keeps o s) : Keeps o (State.act s sev part) := by
  unfold State.act
  repeat' first
      | with_reducible assumption | with_reducible intro _ | with_reducible apply interrupt_keeps
      | with_reducible apply assertFault_keeps | with_reducible apply startQuiet_keeps | with_reducible apply containPart_keeps
      | with_reducible apply enterSafe_keeps | with_reducible apply Keeps.ite | with_reducible apply KeepsFault.none
      | with_reducible apply KeepsFault.some | with_reducible apply KeepsFault.ite
      | with_reducible refine Keeps.foldl (fun s x h => ?_) _ ?_ | split

theorem startGrace_keeps {o : State} (s : State) (seq : ℕ) (sev : ℕ) (part : ℕ) (source : ℕ) (kind : ℕ) (inst : ℕ) (h : Keeps o s) : Keeps o (State.startGrace s seq sev part source kind inst) := by
  unfold State.startGrace
  repeat' first | with_reducible assumption | with_reducible apply Keeps.ite | simp only [Keeps.mk_iff] | split

theorem take_keeps {o : State} (s : State) (r : Raise) (h : Keeps o s) : Keeps o (State.take s r) := by
  unfold State.take
  repeat' first
      | with_reducible assumption | with_reducible apply act_keeps | with_reducible apply setSlot_keeps
      | with_reducible apply logNew_keeps | with_reducible apply startGrace_keeps | with_reducible apply Keeps.ite
      | with_reducible apply KeepsOpt.some | with_reducible apply KeepsOpt.none | with_reducible apply KeepsOpt.ite
      | simp only [Keeps.mk_iff] | with_reducible refine Keeps.snd (by with_reducible assumption) ?_
      | with_reducible refine Keeps.fst (by with_reducible assumption) ?_
      | with_reducible refine KeepsOpt.get (by with_reducible assumption) ?_ | split

theorem rowYields_keeps {o : State} (s : State) (source : ℕ) (info : ℕ) (h : Keeps o s) : Keeps o (State.rowYields s source info) := by
  unfold State.rowYields
  repeat' first
      | with_reducible assumption | with_reducible intro _ | with_reducible apply modTile_keeps | with_reducible apply Keeps.ite
      | with_reducible apply KeepsEff.ok | with_reducible apply KeepsEff.bad | with_reducible apply KeepsEff.fail
      | with_reducible apply KeepsEff.ite | simp only [Keeps.mk_iff] | with_reducible refine Keeps.snd (by with_reducible assumption) ?_
      | with_reducible refine Keeps.fst (by with_reducible assumption) ?_ | split

theorem settleN_keeps {o : State} (a0 : ℕ) (a1 : State) (h : Keeps o a1) : Keeps o (State.settleN a0 a1) := by
  induction a0 generalizing a1 with
  | zero =>
    unfold State.settleN
    repeat' first
        | with_reducible assumption | with_reducible apply take_keeps | with_reducible apply rowYields_keeps
        | simp only [Keeps.mk_iff] | with_reducible refine Keeps.snd (by with_reducible assumption) ?_
        | with_reducible refine Keeps.fst (by with_reducible assumption) ?_ | split
  | succ n ih =>
    unfold State.settleN
    repeat' first
        | with_reducible assumption | with_reducible apply ih | with_reducible apply take_keeps
        | with_reducible apply rowYields_keeps | simp only [Keeps.mk_iff]
        | with_reducible refine Keeps.snd (by with_reducible assumption) ?_
        | with_reducible refine Keeps.fst (by with_reducible assumption) ?_ | split

theorem settle_keeps {o : State} (s : State) (h : Keeps o s) : Keeps o (State.settle s) := by
  unfold State.settle
  repeat' first | with_reducible assumption | with_reducible apply settleN_keeps

theorem raise_keeps {o : State} (s : State) (source : ℕ) (kind : ℕ) (inst : ℕ) (info : ℕ) (h : Keeps o s) : Keeps o (State.raise s source kind inst info) := by
  unfold State.raise
  repeat' first | with_reducible assumption | with_reducible apply settle_keeps | with_reducible apply detect_keeps

theorem tileFault_keeps {o : State} (s : State) (t : ℕ) (source : ℕ) (reason : ℕ) (info : ℕ) (h : Keeps o s) : Keeps o (State.tileFault s t source reason info) := by
  induction t generalizing s source reason info with
  | zero =>
    unfold State.tileFault
    repeat' first
        | with_reducible assumption | with_reducible apply stopTile_keeps | with_reducible apply failStepOf_keeps
        | with_reducible apply raise_keeps | with_reducible apply KeepsEff.ok | with_reducible apply KeepsEff.bad
        | with_reducible apply KeepsEff.fail | with_reducible apply KeepsOpt.some | with_reducible apply KeepsOpt.none
        | with_reducible apply KeepsFault.none | with_reducible apply KeepsFault.some
  | succ n ih =>
    unfold State.tileFault
    repeat' first
        | with_reducible assumption | with_reducible apply ih | with_reducible apply stopTile_keeps
        | with_reducible apply failStepOf_keeps | with_reducible apply raise_keeps | with_reducible apply KeepsEff.ok
        | with_reducible apply KeepsEff.bad | with_reducible apply KeepsEff.fail | with_reducible apply KeepsOpt.some
        | with_reducible apply KeepsOpt.none | with_reducible apply KeepsFault.none | with_reducible apply KeepsFault.some

theorem illegal_keeps {o : State} (s : State) (t : ℕ) (reason : ℕ) (h : Keeps o s) : Keeps o (State.illegal s t reason) := by
  unfold State.illegal
  repeat' first
      | with_reducible assumption | with_reducible apply tileFault_keeps | with_reducible apply KeepsFault.none
      | with_reducible apply KeepsFault.some

theorem raiseAt_keeps {o : State} (s : State) (source : ℕ) (a : ℕ) (h : Keeps o s) : Keeps o (State.raiseAt s source a) := by
  unfold State.raiseAt
  repeat' first
      | with_reducible assumption | with_reducible apply raise_keeps
      | with_reducible refine Keeps.snd (by with_reducible assumption) ?_
      | with_reducible refine Keeps.fst (by with_reducible assumption) ?_
      | with_reducible refine Keeps.third (by with_reducible assumption) ?_ | split

theorem vaultFails_keeps {o : State} (s : State) (k : ℕ) (h : Keeps o s) : Keeps o (State.vaultFails s k) := by
  unfold State.vaultFails
  repeat' first | with_reducible assumption | with_reducible apply raise_keeps

theorem hostCmd_keeps {o : State} (s : State) (fn : ℕ) (ring : ℕ) (op : ℕ) (spec : State → BitVec 512 → Spec) (later : State → BitVec 512 → ℕ) (start : State → Cmd → State) (h : Keeps o s) (h1 : ∀ x0 x1, Keeps o x0 → Keeps o (start x0 x1)) : Keeps o (State.hostCmd s fn ring op spec later start) := by
  unfold State.hostCmd
  repeat' first
      | with_reducible assumption | with_reducible apply vaultFails_keeps | with_reducible apply settle_keeps
      | with_reducible apply hostRow_keeps | with_reducible apply h1 | with_reducible apply Keeps.ite | split

theorem ackSlot_keeps {o : State} (s : State) (i : ℕ) (h : Keeps o s) : Keeps o (State.ackSlot s i) := by
  unfold State.ackSlot
  repeat' first | with_reducible assumption | with_reducible intro _ | with_reducible apply setSlot_keeps | simp only [Keeps.mk_iff]

theorem recordExit_keeps {o : State} (s : State) (scope : ℕ) (h : Keeps o s) : Keeps o (State.recordExit s scope) := by
  unfold State.recordExit
  repeat' first
      | with_reducible assumption | with_reducible intro _ | with_reducible apply fset_keeps | with_reducible apply take_keeps
      | with_reducible apply Keeps.ite | simp only [Keeps.mk_iff] | split

theorem hold_keeps {o : State} (s : State) (scope : ℕ) (h : Keeps o s) : Keeps o (State.hold s scope) := by
  unfold State.hold
  repeat' first | with_reducible assumption | with_reducible apply fset_keeps | with_reducible apply Keeps.ite | split

theorem leaveContained_keeps {o : State} (s : State) (p : ℕ) (h : Keeps o s) : Keeps o (State.leaveContained s p) := by
  unfold State.leaveContained
  repeat' first
      | with_reducible assumption | with_reducible intro _ | with_reducible apply fset_keeps
      | with_reducible apply modPart_keeps | simp only [Keeps.mk_iff]

end Sys2Proof.Machine
end

