-- ==== Sys2Proof/Laws/KeepsOperands.lean ====
section
/-!
SUPPORT. What no operation of Machine/Operands.lean does (Laws/Keeps.lean).
-/

set_option Elab.async false

namespace Sys2Proof.Machine

theorem Eff_andThen_keeps {o : State} (e : Eff) (f : State → Eff) (h : KeepsEff o e) (h1 : ∀ s, Keeps o s → KeepsEff o (f s)) :
    KeepsEff o (e.andThen f) := h.andThen h1

theorem spFault_keeps {o : State} (s : State) (t : ℕ) (o_ : ℕ) (n : ℕ) (write : Bool) (h : Keeps o s) : KeepsFault o (State.spFault s t o_ n write) := by
  unfold State.spFault
  repeat' first
      | with_reducible assumption | with_reducible apply Keeps.ite | with_reducible apply KeepsEff.ok
      | with_reducible apply KeepsEff.bad | with_reducible apply KeepsEff.fail | with_reducible apply KeepsEff.ite
      | with_reducible apply KeepsOpt.some | with_reducible apply KeepsOpt.none | with_reducible apply KeepsOpt.ite
      | with_reducible apply KeepsFault.none | with_reducible apply KeepsFault.some | with_reducible apply KeepsFault.ite | split

theorem spFaults_keeps {o : State} (s : State) (t : ℕ) (a2 : List (ℕ × ℕ × Bool)) (h : Keeps o s) : KeepsFault o (State.spFaults s t a2) := by
  induction a2 generalizing s t with
  | nil =>
    unfold State.spFaults
    repeat' first
        | with_reducible assumption | with_reducible apply spFault_keeps | with_reducible apply KeepsOpt.some
        | with_reducible apply KeepsOpt.none | with_reducible apply KeepsFault.none | with_reducible apply KeepsFault.some
        | simp only [Keeps.mk_iff] | with_reducible refine Keeps.snd (by with_reducible assumption) ?_
        | with_reducible refine Keeps.fst (by with_reducible assumption) ?_
        | with_reducible refine KeepsOpt.get (by with_reducible assumption) ?_
        | with_reducible refine KeepsFault.get (by with_reducible assumption) ?_ | split
  | cons x l ih =>
    unfold State.spFaults
    repeat' first
        | with_reducible assumption | with_reducible apply ih | with_reducible apply spFault_keeps
        | with_reducible apply KeepsOpt.some | with_reducible apply KeepsOpt.none | with_reducible apply KeepsFault.none
        | with_reducible apply KeepsFault.some | simp only [Keeps.mk_iff]
        | with_reducible refine Keeps.snd (by with_reducible assumption) ?_
        | with_reducible refine Keeps.fst (by with_reducible assumption) ?_
        | with_reducible refine KeepsOpt.get (by with_reducible assumption) ?_
        | with_reducible refine KeepsFault.get (by with_reducible assumption) ?_ | split

theorem collided_keeps {o : State} (s : State) (t : ℕ) (word : ℕ) (p0 : ℕ) (p1 : ℕ) (h : Keeps o s) : Keeps o (State.collided s t word p0 p1) := by
  unfold State.collided
  repeat' first
      | with_reducible assumption | with_reducible apply finc_keeps | with_reducible apply fset_keeps
      | with_reducible apply raise_keeps | with_reducible apply Keeps.ite | split

theorem putBack_keeps {o : State} (s : State) (was : State) (t : ℕ) (word : ℕ) (h : Keeps o s) (h1 : Keeps o was) : Keeps o (State.putBack s was t word) := by
  unfold State.putBack
  repeat' first | with_reducible assumption | with_reducible apply spWrite_keeps

theorem meeting_keeps {o : State} (new : State) (was : State) (t : ℕ) (req : ℕ) (writes : List (ℕ × ℕ)) (h : Keeps o new) (h1 : Keeps o was) : Keeps o (State.meeting new was t req writes) := by
  unfold State.meeting
  repeat' first
      | with_reducible assumption | with_reducible intro _ | with_reducible apply free1_keeps
      | with_reducible apply putBack_keeps | with_reducible apply collided_keeps | with_reducible apply Keeps.ite
      | with_reducible refine Keeps.foldl (fun s x h => ?_) _ ?_ | with_reducible refine Keeps.foldl1 (fun s x h => ?_) _ ?_
      | with_reducible refine Keeps.foldl2 (fun s x h => ?_) _ ?_ | with_reducible refine Keeps.snd (by with_reducible assumption) ?_
      | with_reducible refine Keeps.fst (by with_reducible assumption) ?_
      | with_reducible refine Keeps.third (by with_reducible assumption) ?_ | split

theorem rowError_keeps {o : State} (s : State) (a : ℕ) (n : ℕ) (h : Keeps o s) : Keeps o (State.rowError s a n) := by
  unfold State.rowError
  repeat' first
      | with_reducible assumption | with_reducible intro _ | with_reducible apply modTile_keeps | simp only [Keeps.mk_iff]
      | with_reducible refine Keeps.snd (by with_reducible assumption) ?_
      | with_reducible refine Keeps.fst (by with_reducible assumption) ?_ | split

theorem mend_keeps {o : State} (s : State) (cs : List ℕ) (h : Keeps o s) : Keeps o (State.mend s cs) := by
  unfold State.mend
  repeat' first
      | with_reducible assumption | with_reducible intro _ | with_reducible apply rowError_keeps
      | with_reducible apply finc_keeps | with_reducible refine Keeps.foldl (fun s x h => ?_) _ ?_ | simp only [Keeps.mk_iff]
      | with_reducible refine Keeps.snd (by with_reducible assumption) ?_
      | with_reducible refine Keeps.fst (by with_reducible assumption) ?_ | split

theorem wordLands_keeps {o : State} (new : State) (was : State) (t : ℕ) (req : ℕ) (accesses : List (ℕ × ℕ × Bool)) (h : Keeps o new) (h1 : Keeps o was) : Keeps o (State.wordLands new was t req accesses) := by
  unfold State.wordLands
  repeat' first
      | with_reducible assumption | with_reducible intro _ | with_reducible apply modTile_keeps
      | with_reducible apply mend_keeps | with_reducible apply meeting_keeps | with_reducible refine KeepsOpt.map ?_ (fun s h => ?_)
      | with_reducible refine KeepsOpt.of (fun x => ?_) | simp only [Keeps.mk_iff]

theorem guard_keeps {o : State} (s : State) (t : ℕ) (req : ℕ) (checks : List (Bool × ℕ)) (accesses : List (ℕ × ℕ × Bool)) (k : Unit → Eff) (h : Keeps o s) (h1 : KeepsEff o (k ())) : KeepsEff o (State.guard s t req checks accesses k) := by
  unfold State.guard
  repeat' first
      | with_reducible assumption | with_reducible intro _ | with_reducible apply spFaults_keeps
      | with_reducible apply Eff_andThen_keeps | with_reducible apply wordLands_keeps | with_reducible apply h1
      | with_reducible apply KeepsEff.ok | with_reducible apply KeepsEff.bad | with_reducible apply KeepsEff.fail
      | with_reducible refine KeepsEff.andThen ?_ (fun s h => ?_) | with_reducible apply KeepsOpt.some | with_reducible apply KeepsOpt.none
      | with_reducible apply KeepsFault.none | with_reducible apply KeepsFault.some | simp only [Keeps.mk_iff]
      | with_reducible refine Keeps.snd (by with_reducible assumption) ?_
      | with_reducible refine Keeps.fst (by with_reducible assumption) ?_
      | with_reducible refine KeepsOpt.get (by with_reducible assumption) ?_
      | with_reducible refine KeepsFault.get (by with_reducible assumption) ?_
      | with_reducible refine KeepsEff.get (by with_reducible assumption) ?_ | split

theorem recCapture_keeps {o : State} (s : State) (a : ℕ) (maxima : Tab ℕ) (h : Keeps o s) : Keeps o (State.recCapture s a maxima) := by
  unfold State.recCapture
  repeat' first
      | with_reducible assumption | with_reducible intro _ | with_reducible apply devWrite_keeps
      | with_reducible refine Keeps.foldl (fun s x h => ?_) _ ?_

theorem recClose_keeps {o : State} (s : State) (a : ℕ) (sats : ℕ) (immediate : Bool) (h : Keeps o s) : Keeps o (State.recClose s a sats immediate) := by
  unfold State.recClose
  repeat' first | with_reducible assumption | with_reducible apply devWrite_keeps

end Sys2Proof.Machine
end

