-- ==== Sys2Proof/Laws/KeepsFlags.lean ====
section
/-!
SUPPORT. What no operation of Machine/Flags.lean does (Laws/Keeps.lean).
-/

set_option Elab.async false

namespace Sys2Proof.Machine

theorem flagMatrix_keeps {o : State} (s : State) (t : ℕ) (fl : ℕ) (h : Keeps o s) : Keeps o (State.flagMatrix s t fl) := by
  unfold State.flagMatrix
  repeat' first | with_reducible assumption | with_reducible apply fset1s_keeps | with_reducible apply Keeps.ite | split

theorem flagVector_keeps {o : State} (s : State) (t : ℕ) (fl : ℕ) (h : Keeps o s) : Keeps o (State.flagVector s t fl) := by
  unfold State.flagVector
  repeat' first | with_reducible assumption | with_reducible apply fset1s_keeps | with_reducible apply Keeps.ite | split

theorem flagBank_keeps {o : State} (s : State) (t : ℕ) (fl : ℕ) (h : Keeps o s) : Keeps o (State.flagBank s t fl) := by
  unfold State.flagBank
  repeat' first | with_reducible assumption | with_reducible apply fset1s_keeps | with_reducible apply Keeps.ite | split

theorem flagGrad_keeps {o : State} (s : State) (t : ℕ) (fl : ℕ) (grad : Bool) (h : Keeps o s) : Keeps o (State.flagGrad s t fl grad) := by
  unfold State.flagGrad
  repeat' first | with_reducible assumption | with_reducible apply fset1s_keeps | with_reducible apply Keeps.ite | split

theorem flagKettle_keeps {o : State} (s : State) (st : ℕ) (fl : ℕ) (h : Keeps o s) : Keeps o (State.flagKettle s st fl) := by
  unfold State.flagKettle
  repeat' first | with_reducible assumption | with_reducible apply fset1s_keeps | with_reducible apply Keeps.ite | split

theorem clearBits_keeps {o : State} (s : State) (f : Fld) (i : ℕ) (lo : ℕ) (w : ℕ) (v : ℕ) (h : Keeps o s) : Keeps o (State.clearBits s f i lo w v) := by
  unfold State.clearBits
  repeat' first | with_reducible assumption | with_reducible apply fset_keeps

theorem clearNumFlags_keeps {o : State} (s : State) (t : ℕ) (v : ℕ) (h : Keeps o s) : Keeps o (State.clearNumFlags s t v) := by
  unfold State.clearNumFlags
  repeat' first | with_reducible assumption | with_reducible apply clearBits_keeps

end Sys2Proof.Machine
end

