-- ==== Sys2Proof/Laws/KeepsTiles.lean ====
section
/-!
SUPPORT. What no operation of Machine/Tiles.lean does (Laws/Keeps.lean).
-/

set_option Elab.async false

namespace Sys2Proof.Machine

theorem signalTile_keeps {o : State} (s : State) (t : ℕ) (ev : ℕ) (n : ℕ) (h : Keeps o s) : Keeps o (State.signalTile s t ev n) := by
  unfold State.signalTile
  repeat' first
      | with_reducible assumption | with_reducible apply fset_keeps | with_reducible apply raise_keeps
      | with_reducible apply Keeps.ite | split

theorem signalKettle_keeps {o : State} (s : State) (st : ℕ) (ev : ℕ) (n : ℕ) (h : Keeps o s) : Keeps o (State.signalKettle s st ev n) := by
  unfold State.signalKettle
  repeat' first | with_reducible assumption | with_reducible apply fsat_keeps

theorem sendSignal_keeps {o : State} (s : State) (t : ℕ) (target : ℕ) (index : ℕ) (ev : ℕ) (n : ℕ) (h : Keeps o s) : Keeps o (State.sendSignal s t target index ev n) := by
  unfold State.sendSignal
  repeat' first
      | with_reducible assumption | with_reducible apply signalTile_keeps | with_reducible apply signalKettle_keeps
      | with_reducible apply Keeps.ite | split

theorem sendPacked_keeps {o : State} (s : State) (t : ℕ) (ref : ℕ) (h : Keeps o s) : Keeps o (State.sendPacked s t ref) := by
  unfold State.sendPacked
  repeat' first | with_reducible assumption | with_reducible apply sendSignal_keeps

theorem launchTile_keeps {o : State} (s : State) (t : ℕ) (entry : ℕ) (stepNo : ℕ) (seed : ℕ) (arg : ℕ) (rollout : Bool) (h : Keeps o s) : Keeps o (State.launchTile s t entry stepNo seed arg rollout) := by
  unfold State.launchTile
  repeat' first
      | with_reducible assumption | with_reducible intro _ | with_reducible apply setTile_keeps
      | with_reducible apply fset_keeps | with_reducible refine Keeps.foldl (fun s x h => ?_) _ ?_
      | with_reducible refine Keeps.foldl1 (fun s x h => ?_) _ ?_ | with_reducible refine Keeps.foldl2 (fun s x h => ?_) _ ?_
      | simp only [Keeps.mk_iff]

theorem endProgram_keeps {o : State} (s : State) (t : ℕ) (h : Keeps o s) : Keeps o (State.endProgram s t) := by
  unfold State.endProgram
  repeat' first
      | with_reducible assumption | with_reducible intro _ | with_reducible apply fset_keeps
      | with_reducible apply setTile_keeps | with_reducible apply modBay_keeps | with_reducible apply modPart_keeps
      | with_reducible apply raise_keeps | with_reducible apply Keeps.ite | with_reducible apply KeepsEff.ok
      | with_reducible apply KeepsEff.bad | with_reducible apply KeepsEff.fail | with_reducible apply KeepsEff.ite
      | with_reducible apply KeepsOpt.some | with_reducible apply KeepsOpt.none | with_reducible apply KeepsOpt.ite
      | with_reducible refine KeepsOpt.map ?_ (fun s h => ?_) | with_reducible refine KeepsOpt.of (fun x => ?_) | simp only [Keeps.mk_iff]
      | with_reducible refine Keeps.snd (by with_reducible assumption) ?_
      | with_reducible refine Keeps.fst (by with_reducible assumption) ?_
      | with_reducible refine KeepsOpt.get (by with_reducible assumption) ?_ | split

theorem tileStop_keeps {o : State} (s : State) (t : ℕ) (source : ℕ) (kind : ℕ) (inst : ℕ) (info : ℕ) (h : Keeps o s) : Keeps o (State.tileStop s t source kind inst info) := by
  unfold State.tileStop
  repeat' first
      | with_reducible assumption | with_reducible apply stopTile_keeps | with_reducible apply failStepOf_keeps
      | with_reducible apply raise_keeps | with_reducible apply tileFault_keeps | with_reducible apply KeepsEff.ok
      | with_reducible apply KeepsEff.bad | with_reducible apply KeepsEff.fail | with_reducible apply KeepsOpt.some
      | with_reducible apply KeepsOpt.none | with_reducible apply KeepsFault.none | with_reducible apply KeepsFault.some

theorem tileRow_keeps {o : State} (s : State) (t : ℕ) (cls : ℕ) (op : ℕ) (fmtOk : ℕ → Bool) (uses : ℕ → List (ℕ × ℕ)) (run : State → ℕ → State) (h : Keeps o s) (h1 : ∀ x0 x1, Keeps o x0 → Keeps o (run x0 x1)) : Keeps o (State.tileRow s t cls op fmtOk uses run) := by
  unfold State.tileRow
  repeat' first
      | with_reducible assumption | with_reducible apply tileFault_keeps | with_reducible apply illegal_keeps
      | with_reducible apply h1 | with_reducible apply Keeps.ite | with_reducible apply KeepsEff.ok | with_reducible apply KeepsEff.bad
      | with_reducible apply KeepsEff.fail | with_reducible apply KeepsEff.ite | with_reducible apply KeepsFault.none
      | with_reducible apply KeepsFault.some | with_reducible apply KeepsFault.ite | split

theorem goto_keeps {o : State} (s : State) (t : ℕ) (pc : ℕ) (h : Keeps o s) : Keeps o (State.goto s t pc) := by
  unfold State.goto
  repeat' first
      | with_reducible assumption | with_reducible apply finc_keeps | with_reducible apply fset_keeps
      | with_reducible apply illegal_keeps | with_reducible apply Keeps.ite | split

theorem advance_keeps {o : State} (s : State) (t : ℕ) (next : ℕ) (h : Keeps o s) : Keeps o (State.advance s t next) := by
  unfold State.advance
  repeat' first
      | with_reducible assumption | with_reducible intro _ | with_reducible apply finc_keeps
      | with_reducible apply illegal_keeps | with_reducible apply modTile_keeps | with_reducible apply goto_keeps
      | with_reducible apply setTile_keeps | with_reducible apply KeepsOpt.some | with_reducible apply KeepsOpt.none
      | simp only [Keeps.mk_iff] | with_reducible refine Keeps.snd (by with_reducible assumption) ?_
      | with_reducible refine Keeps.fst (by with_reducible assumption) ?_
      | with_reducible refine KeepsOpt.get (by with_reducible assumption) ?_ | split

theorem nextWord_keeps {o : State} (s : State) (t : ℕ) (h : Keeps o s) : Keeps o (State.nextWord s t) := by
  unfold State.nextWord
  repeat' first | with_reducible assumption | with_reducible apply advance_keeps

theorem enqueue_keeps {o : State} (s : State) (t : ℕ) (w : ℕ) (writes : Bool) (started : Bool) (done : Bool) (ref : ℕ) (h : Keeps o s) : Keeps o (State.enqueue s t w writes started done ref) := by
  unfold State.enqueue
  repeat' first
      | with_reducible assumption | with_reducible apply nextWord_keeps | with_reducible apply showBusy_keeps
      | with_reducible apply setTile_keeps | with_reducible apply Keeps.ite | with_reducible apply KeepsOpt.some
      | with_reducible apply KeepsOpt.none | with_reducible apply KeepsOpt.ite | with_reducible apply Keeps.id | simp only [Keeps.mk_iff]
      | split

theorem engineFault_keeps {o : State} (s : State) (t : ℕ) (source : ℕ) (kind : ℕ) (inst : ℕ) (info : ℕ) (h : Keeps o s) : Keeps o (State.engineFault s t source kind inst info) := by
  unfold State.engineFault
  repeat' first
      | with_reducible assumption | with_reducible intro _ | with_reducible apply modTile_keeps
      | with_reducible apply fset_keeps | with_reducible apply finc_keeps | with_reducible apply tileStop_keeps
      | with_reducible apply Keeps.ite | with_reducible apply KeepsFault.none | with_reducible apply KeepsFault.some
      | with_reducible apply KeepsFault.ite | simp only [Keeps.mk_iff] | split

theorem engineRow_keeps {o : State} (s : State) (t : ℕ) (cls : ℕ) (op : ℕ) (fmtOk : ℕ → Bool) (uses : ℕ → List (ℕ × ℕ)) (writes : Bool) (work : State → ℕ → Eff) (h : Keeps o s) (h1 : ∀ x0 x1, Keeps o x0 → KeepsEff o (work x0 x1)) : Keeps o (State.engineRow s t cls op fmtOk uses writes work) := by
  unfold State.engineRow
  repeat' first
      | with_reducible assumption | with_reducible intro _ | with_reducible apply tileRow_keeps
      | with_reducible apply enqueue_keeps | with_reducible apply illegal_keeps | with_reducible apply engineFault_keeps
      | with_reducible apply finc_keeps | with_reducible apply h1 | with_reducible apply Keeps.ite | with_reducible apply KeepsEff.ok
      | with_reducible apply KeepsEff.bad | with_reducible apply KeepsEff.fail | with_reducible apply KeepsEff.ite
      | with_reducible apply KeepsFault.none | with_reducible apply KeepsFault.some | with_reducible apply KeepsFault.ite
      | simp only [Keeps.mk_iff] | with_reducible refine Keeps.snd (by with_reducible assumption) ?_
      | with_reducible refine Keeps.fst (by with_reducible assumption) ?_
      | with_reducible refine KeepsFault.get (by with_reducible assumption) ?_
      | with_reducible refine KeepsEff.get (by with_reducible assumption) ?_ | split

theorem releaseN_keeps {o : State} (a0 : ℕ) (a1 : State) (a2 : ℕ) (h : Keeps o a1) : Keeps o (State.releaseN a0 a1 a2) := by
  induction a0 generalizing a1 a2 with
  | zero =>
    unfold State.releaseN
    repeat' first
        | with_reducible assumption | with_reducible intro _ | with_reducible apply setTile_keeps
        | with_reducible apply sendPacked_keeps | with_reducible apply setTile_keeps | with_reducible apply KeepsOpt.some
        | with_reducible apply KeepsOpt.none | with_reducible apply Keeps.id | simp only [Keeps.mk_iff]
        | with_reducible refine Keeps.snd (by with_reducible assumption) ?_
        | with_reducible refine Keeps.fst (by with_reducible assumption) ?_
        | with_reducible refine KeepsOpt.get (by with_reducible assumption) ?_ | split
  | succ n ih =>
    unfold State.releaseN
    repeat' first
        | with_reducible assumption | with_reducible apply ih | with_reducible intro _ | with_reducible apply setTile_keeps
        | with_reducible apply sendPacked_keeps | with_reducible apply setTile_keeps | with_reducible apply KeepsOpt.some
        | with_reducible apply KeepsOpt.none | with_reducible apply Keeps.id | simp only [Keeps.mk_iff]
        | with_reducible refine Keeps.snd (by with_reducible assumption) ?_
        | with_reducible refine Keeps.fst (by with_reducible assumption) ?_
        | with_reducible refine KeepsOpt.get (by with_reducible assumption) ?_ | split

theorem completeWord_keeps {o : State} (s : State) (t : ℕ) (f : Flight) (h : Keeps o s) : Keeps o (State.completeWord s t f) := by
  unfold State.completeWord
  repeat' first
      | with_reducible assumption | with_reducible intro _ | with_reducible apply showBusy_keeps
      | with_reducible apply modTile_keeps | with_reducible apply signalTile_keeps | with_reducible apply endProgram_keeps
      | with_reducible apply releaseN_keeps | with_reducible apply KeepsOpt.some | with_reducible apply KeepsOpt.none
      | with_reducible apply Keeps.id | simp only [Keeps.mk_iff] | with_reducible refine Keeps.snd (by with_reducible assumption) ?_
      | with_reducible refine Keeps.fst (by with_reducible assumption) ?_
      | with_reducible refine KeepsOpt.get (by with_reducible assumption) ?_ | split

theorem execWordComplete_keeps {o : State} (t : ℕ) (id : ℕ) (s : State) (h : Keeps o s) : KeepsOut o (execWordComplete t id s) := by
  unfold execWordComplete
  repeat' first
      | with_reducible assumption | with_reducible intro _ | with_reducible apply completeWord_keeps
      | with_reducible apply releaseN_keeps | with_reducible apply Keeps.ite | with_reducible apply KeepsOpt.some
      | with_reducible apply KeepsOpt.none | with_reducible apply KeepsOpt.ite | with_reducible apply KeepsFault.none
      | with_reducible apply KeepsFault.some | with_reducible apply KeepsFault.ite | with_reducible apply KeepsOut.next
      | with_reducible apply Keeps.id | simp only [Keeps.mk_iff] | with_reducible refine Keeps.snd (by with_reducible assumption) ?_
      | with_reducible refine Keeps.fst (by with_reducible assumption) ?_
      | with_reducible refine KeepsOpt.get (by with_reducible assumption) ?_
      | with_reducible refine KeepsFault.get (by with_reducible assumption) ?_ | split

theorem execSyncTimeout_keeps {o : State} (t : ℕ) (s : State) (h : Keeps o s) : KeepsOut o (execSyncTimeout t s) := by
  unfold execSyncTimeout
  repeat' first
      | with_reducible assumption | with_reducible apply tileFault_keeps | with_reducible apply Keeps.ite
      | with_reducible apply KeepsFault.none | with_reducible apply KeepsFault.some | with_reducible apply KeepsFault.ite
      | with_reducible apply KeepsOut.next | split

end Sys2Proof.Machine
end

