-- ==== Sys2Proof/Laws/KeepsControl.lean ====
section
/-!
SUPPORT. What no operation of Machine/Control.lean does (Laws/Keeps.lean).
-/

set_option Elab.async false

namespace Sys2Proof.Machine

theorem execCtlNop_keeps {o : State} (t : ℕ) (s : State) (h : Keeps o s) : KeepsOut o (execCtlNop t s) := by
  unfold execCtlNop
  repeat' first
      | with_reducible assumption | with_reducible intro _ | with_reducible apply tileRow_keeps
      | with_reducible apply nextWord_keeps | with_reducible apply KeepsFault.none | with_reducible apply KeepsFault.some
      | with_reducible apply KeepsOut.next

theorem execCtlLi_keeps {o : State} (t : ℕ) (s : State) (h : Keeps o s) : KeepsOut o (execCtlLi t s) := by
  unfold execCtlLi
  repeat' first
      | with_reducible assumption | with_reducible intro _ | with_reducible apply tileRow_keeps
      | with_reducible apply nextWord_keeps | with_reducible apply modTile_keeps | with_reducible apply KeepsFault.none
      | with_reducible apply KeepsFault.some | with_reducible apply KeepsOut.next

theorem execCtlAlu_keeps {o : State} (t : ℕ) (s : State) (h : Keeps o s) : KeepsOut o (execCtlAlu t s) := by
  unfold execCtlAlu
  repeat' first
      | with_reducible assumption | with_reducible intro _ | with_reducible apply tileRow_keeps
      | with_reducible apply illegal_keeps | with_reducible apply nextWord_keeps | with_reducible apply modTile_keeps
      | with_reducible apply Keeps.ite | with_reducible apply KeepsFault.none | with_reducible apply KeepsFault.some
      | with_reducible apply KeepsFault.ite | with_reducible apply KeepsOut.next | split

theorem execCtlBr_keeps {o : State} (t : ℕ) (s : State) (h : Keeps o s) : KeepsOut o (execCtlBr t s) := by
  unfold execCtlBr
  repeat' first
      | with_reducible assumption | with_reducible intro _ | with_reducible apply tileRow_keeps
      | with_reducible apply illegal_keeps | with_reducible apply goto_keeps | with_reducible apply setTile_keeps
      | with_reducible apply nextWord_keeps | with_reducible apply Keeps.ite | with_reducible apply KeepsFault.none
      | with_reducible apply KeepsFault.some | with_reducible apply KeepsFault.ite | with_reducible apply KeepsOut.next
      | simp only [Keeps.mk_iff] | split

theorem execCtlLoop_keeps {o : State} (t : ℕ) (s : State) (h : Keeps o s) : KeepsOut o (execCtlLoop t s) := by
  unfold execCtlLoop
  repeat' first
      | with_reducible assumption | with_reducible intro _ | with_reducible apply tileRow_keeps
      | with_reducible apply illegal_keeps | with_reducible apply advance_keeps | with_reducible apply setTile_keeps
      | with_reducible apply goto_keeps | with_reducible apply Keeps.ite | with_reducible apply KeepsFault.none
      | with_reducible apply KeepsFault.some | with_reducible apply KeepsFault.ite | with_reducible apply KeepsOut.next
      | simp only [Keeps.mk_iff] | split

theorem execCtlMod_keeps {o : State} (t : ℕ) (s : State) (h : Keeps o s) : KeepsOut o (execCtlMod t s) := by
  unfold execCtlMod
  repeat' first
      | with_reducible assumption | with_reducible intro _ | with_reducible apply tileRow_keeps
      | with_reducible apply illegal_keeps | with_reducible apply nextWord_keeps | with_reducible apply modTile_keeps
      | with_reducible apply Keeps.ite | with_reducible apply KeepsFault.none | with_reducible apply KeepsFault.some
      | with_reducible apply KeepsFault.ite | with_reducible refine KeepsFault.map (fun x => ?_)
      | with_reducible refine KeepsOpt.map ?_ (fun s h => ?_) | with_reducible refine KeepsOpt.of (fun x => ?_)
      | with_reducible apply KeepsOut.next | simp only [Keeps.mk_iff] | split

theorem execCtlVxfer_keeps {o : State} (t : ℕ) (s : State) (h : Keeps o s) : KeepsOut o (execCtlVxfer t s) := by
  unfold execCtlVxfer
  repeat' first
      | with_reducible assumption | with_reducible intro _ | with_reducible apply tileRow_keeps
      | with_reducible apply nextWord_keeps | with_reducible apply modTile_keeps | with_reducible apply Keeps.ite
      | with_reducible apply KeepsFault.none | with_reducible apply KeepsFault.some | with_reducible apply KeepsFault.ite
      | with_reducible apply KeepsOut.next | split

theorem tickCycles_keeps {o : State} (s : State) (t : ℕ) (cr : ℕ) (h : Keeps o s) : Keeps o (State.tickCycles s t cr) := by
  unfold State.tickCycles
  repeat' first
      | with_reducible assumption | with_reducible intro _ | with_reducible apply modTile_keeps
      | with_reducible apply free1_keeps | with_reducible apply Keeps.ite | simp only [Keeps.mk_iff] | split

theorem execCtlRdcr_keeps {o : State} (t : ℕ) (s : State) (h : Keeps o s) : KeepsOut o (execCtlRdcr t s) := by
  unfold execCtlRdcr
  repeat' first
      | with_reducible assumption | with_reducible intro _ | with_reducible apply tileRow_keeps
      | with_reducible apply illegal_keeps | with_reducible apply tickCycles_keeps | with_reducible apply nextWord_keeps
      | with_reducible apply modTile_keeps | with_reducible apply Keeps.ite | with_reducible apply KeepsFault.none
      | with_reducible apply KeepsFault.some | with_reducible apply KeepsFault.ite | with_reducible apply KeepsOut.next | split

theorem execCtlWrcr_keeps {o : State} (t : ℕ) (s : State) (h : Keeps o s) : KeepsOut o (execCtlWrcr t s) := by
  unfold execCtlWrcr
  repeat' first
      | with_reducible assumption | with_reducible intro _ | with_reducible apply tileRow_keeps
      | with_reducible apply illegal_keeps | with_reducible apply nextWord_keeps | with_reducible apply clearNumFlags_keeps
      | with_reducible apply Keeps.ite | with_reducible apply KeepsFault.none | with_reducible apply KeepsFault.some
      | with_reducible apply KeepsFault.ite | with_reducible apply KeepsOut.next | split

theorem execCtlEnd_keeps {o : State} (t : ℕ) (s : State) (h : Keeps o s) : KeepsOut o (execCtlEnd t s) := by
  unfold execCtlEnd
  repeat' first
      | with_reducible assumption | with_reducible intro _ | with_reducible apply tileRow_keeps
      | with_reducible apply finc_keeps | with_reducible apply endProgram_keeps | with_reducible apply modTile_keeps
      | with_reducible apply Keeps.ite | with_reducible apply KeepsOpt.some | with_reducible apply KeepsOpt.none
      | with_reducible apply KeepsOpt.ite | with_reducible apply KeepsFault.none | with_reducible apply KeepsFault.some
      | with_reducible apply KeepsFault.ite | with_reducible apply KeepsOut.next | simp only [Keeps.mk_iff] | split

theorem waits_keeps {o : State} (s : State) (t : ℕ) (ev : ℕ) (h : Keeps o s) : Keeps o (State.waits s t ev) := by
  unfold State.waits
  repeat' first
      | with_reducible assumption | with_reducible intro _ | with_reducible apply free1_keeps | with_reducible apply finc_keeps
      | with_reducible apply Keeps.ite | with_reducible refine Keeps.snd (by with_reducible assumption) ?_
      | with_reducible refine Keeps.fst (by with_reducible assumption) ?_
      | with_reducible refine Keeps.third (by with_reducible assumption) ?_ | split

theorem execSynWait_keeps {o : State} (t : ℕ) (s : State) (h : Keeps o s) : KeepsOut o (execSynWait t s) := by
  unfold execSynWait
  repeat' first
      | with_reducible assumption | with_reducible intro _ | with_reducible apply tileRow_keeps
      | with_reducible apply fset_keeps | with_reducible apply waits_keeps | with_reducible apply nextWord_keeps
      | with_reducible apply Keeps.ite | with_reducible apply KeepsFault.none | with_reducible apply KeepsFault.some
      | with_reducible apply KeepsFault.ite | with_reducible apply KeepsOut.next | split

theorem execSynSignal_keeps {o : State} (t : ℕ) (s : State) (h : Keeps o s) : KeepsOut o (execSynSignal t s) := by
  unfold execSynSignal
  repeat' first
      | with_reducible assumption | with_reducible intro _ | with_reducible apply tileRow_keeps
      | with_reducible apply illegal_keeps | with_reducible apply tileStop_keeps | with_reducible apply enqueue_keeps
      | with_reducible apply nextWord_keeps | with_reducible apply sendSignal_keeps | with_reducible apply Keeps.ite
      | with_reducible apply KeepsFault.none | with_reducible apply KeepsFault.some | with_reducible apply KeepsFault.ite
      | with_reducible refine KeepsFault.map (fun x => ?_) | with_reducible refine KeepsOpt.map ?_ (fun s h => ?_)
      | with_reducible refine KeepsOpt.of (fun x => ?_) | with_reducible apply KeepsOpt.getD | with_reducible apply KeepsOut.next | split

theorem execSynFence_keeps {o : State} (t : ℕ) (s : State) (h : Keeps o s) : KeepsOut o (execSynFence t s) := by
  unfold execSynFence
  repeat' first
      | with_reducible assumption | with_reducible intro _ | with_reducible apply tileRow_keeps
      | with_reducible apply nextWord_keeps | with_reducible apply Keeps.ite | with_reducible apply KeepsFault.none
      | with_reducible apply KeepsFault.some | with_reducible apply KeepsFault.ite | with_reducible apply KeepsOut.next | split

end Sys2Proof.Machine
end

