-- ==== Sys2Proof/Laws/KeepsVector.lean ====
section
/-!
SUPPORT. What no operation of Machine/Vector.lean does (Laws/Keeps.lean).
-/

set_option Elab.async false

namespace Sys2Proof.Machine

theorem vecDone_keeps {o : State} (s : State) (t : ℕ) (fl : ℕ) (h : Keeps o s) : Keeps o (State.vecDone s t fl) := by
  unfold State.vecDone
  repeat' first | with_reducible assumption | with_reducible apply finc_keeps | with_reducible apply flagVector_keeps

theorem vecArith_keeps {o : State} (s : State) (t : ℕ) (w : ℕ) (h : Keeps o s) : KeepsEff o (State.vecArith s t w) := by
  unfold State.vecArith
  repeat' first
      | with_reducible assumption | with_reducible intro _ | with_reducible apply vecDone_keeps
      | with_reducible apply setTile_keeps | with_reducible apply Keeps.ite | with_reducible apply KeepsEff.ok
      | with_reducible apply KeepsEff.bad | with_reducible apply KeepsEff.fail | with_reducible apply KeepsEff.ite
      | with_reducible refine KeepsOpt.map ?_ (fun s h => ?_) | with_reducible refine KeepsOpt.of (fun x => ?_)
      | with_reducible refine Keeps.foldl (fun s x h => ?_) _ ?_ | with_reducible refine KeepsEff.foldl (fun s x h => ?_) _ ?_ | split

theorem execVecSetvl_keeps {o : State} (t : ℕ) (s : State) (h : Keeps o s) : KeepsOut o (execVecSetvl t s) := by
  unfold execVecSetvl
  repeat' first
      | with_reducible assumption | with_reducible intro _ | with_reducible apply engineRow_keeps
      | with_reducible apply vecDone_keeps | with_reducible apply fset_keeps | with_reducible apply setTile_keeps
      | with_reducible apply Keeps.ite | with_reducible apply KeepsEff.ok | with_reducible apply KeepsEff.bad
      | with_reducible apply KeepsEff.fail | with_reducible apply KeepsEff.ite | with_reducible apply KeepsFault.none
      | with_reducible apply KeepsFault.some | with_reducible apply KeepsFault.ite | with_reducible apply KeepsOut.next
      | simp only [Keeps.mk_iff] | split

theorem execVecAdd_keeps {o : State} (t : ℕ) (s : State) (h : Keeps o s) : KeepsOut o (execVecAdd t s) := by
  unfold execVecAdd
  repeat' first
      | with_reducible assumption | with_reducible intro _ | with_reducible apply engineRow_keeps
      | with_reducible apply vecArith_keeps | with_reducible apply KeepsFault.none | with_reducible apply KeepsFault.some
      | with_reducible apply KeepsOut.next

theorem execVecMul_keeps {o : State} (t : ℕ) (s : State) (h : Keeps o s) : KeepsOut o (execVecMul t s) := by
  unfold execVecMul
  repeat' first
      | with_reducible assumption | with_reducible intro _ | with_reducible apply engineRow_keeps
      | with_reducible apply vecArith_keeps | with_reducible apply KeepsFault.none | with_reducible apply KeepsFault.some
      | with_reducible apply KeepsOut.next

theorem execVecFma_keeps {o : State} (t : ℕ) (s : State) (h : Keeps o s) : KeepsOut o (execVecFma t s) := by
  unfold execVecFma
  repeat' first
      | with_reducible assumption | with_reducible intro _ | with_reducible apply engineRow_keeps
      | with_reducible apply vecArith_keeps | with_reducible apply KeepsFault.none | with_reducible apply KeepsFault.some
      | with_reducible apply KeepsOut.next

theorem execVecMin_keeps {o : State} (t : ℕ) (s : State) (h : Keeps o s) : KeepsOut o (execVecMin t s) := by
  unfold execVecMin
  repeat' first
      | with_reducible assumption | with_reducible intro _ | with_reducible apply engineRow_keeps
      | with_reducible apply vecArith_keeps | with_reducible apply KeepsFault.none | with_reducible apply KeepsFault.some
      | with_reducible apply KeepsOut.next

theorem execVecMax_keeps {o : State} (t : ℕ) (s : State) (h : Keeps o s) : KeepsOut o (execVecMax t s) := by
  unfold execVecMax
  repeat' first
      | with_reducible assumption | with_reducible intro _ | with_reducible apply engineRow_keeps
      | with_reducible apply vecArith_keeps | with_reducible apply KeepsFault.none | with_reducible apply KeepsFault.some
      | with_reducible apply KeepsOut.next

theorem execVecCmp_keeps {o : State} (t : ℕ) (s : State) (h : Keeps o s) : KeepsOut o (execVecCmp t s) := by
  unfold execVecCmp
  repeat' first
      | with_reducible assumption | with_reducible intro _ | with_reducible apply engineRow_keeps
      | with_reducible apply vecDone_keeps | with_reducible apply setTile_keeps | with_reducible apply Keeps.ite
      | with_reducible apply KeepsEff.ok | with_reducible apply KeepsEff.bad | with_reducible apply KeepsEff.fail
      | with_reducible apply KeepsEff.ite | with_reducible apply KeepsFault.none | with_reducible apply KeepsFault.some
      | with_reducible apply KeepsFault.ite | with_reducible refine KeepsFault.map (fun x => ?_)
      | with_reducible refine KeepsOpt.map ?_ (fun s h => ?_) | with_reducible refine KeepsOpt.of (fun x => ?_)
      | with_reducible apply KeepsOut.next | with_reducible refine Keeps.foldl (fun s x h => ?_) _ ?_
      | with_reducible refine KeepsEff.foldl (fun s x h => ?_) _ ?_ | split

theorem execVecSel_keeps {o : State} (t : ℕ) (s : State) (h : Keeps o s) : KeepsOut o (execVecSel t s) := by
  unfold execVecSel
  repeat' first
      | with_reducible assumption | with_reducible intro _ | with_reducible apply engineRow_keeps
      | with_reducible apply vecDone_keeps | with_reducible apply setTile_keeps | with_reducible apply Keeps.ite
      | with_reducible apply KeepsEff.ok | with_reducible apply KeepsEff.bad | with_reducible apply KeepsEff.fail
      | with_reducible apply KeepsEff.ite | with_reducible apply KeepsFault.none | with_reducible apply KeepsFault.some
      | with_reducible apply KeepsFault.ite | with_reducible refine KeepsFault.map (fun x => ?_)
      | with_reducible refine KeepsOpt.map ?_ (fun s h => ?_) | with_reducible refine KeepsOpt.of (fun x => ?_)
      | with_reducible apply KeepsOut.next | split

theorem execVecEst_keeps {o : State} (t : ℕ) (s : State) (h : Keeps o s) : KeepsOut o (execVecEst t s) := by
  unfold execVecEst
  repeat' first
      | with_reducible assumption | with_reducible intro _ | with_reducible apply engineRow_keeps
      | with_reducible apply vecDone_keeps | with_reducible apply setTile_keeps | with_reducible apply Keeps.ite
      | with_reducible apply KeepsEff.ok | with_reducible apply KeepsEff.bad | with_reducible apply KeepsEff.fail
      | with_reducible apply KeepsEff.ite | with_reducible apply KeepsFault.none | with_reducible apply KeepsFault.some
      | with_reducible apply KeepsFault.ite | with_reducible refine KeepsFault.map (fun x => ?_)
      | with_reducible refine KeepsOpt.map ?_ (fun s h => ?_) | with_reducible refine KeepsOpt.of (fun x => ?_)
      | with_reducible apply KeepsOut.next | with_reducible refine Keeps.foldl (fun s x h => ?_) _ ?_
      | with_reducible refine KeepsEff.foldl (fun s x h => ?_) _ ?_ | split

theorem vecReduce_keeps {o : State} (s : State) (t : ℕ) (w : ℕ) (op : ℕ) (h : Keeps o s) : KeepsEff o (State.vecReduce s t w op) := by
  unfold State.vecReduce
  repeat' first
      | with_reducible assumption | with_reducible intro _ | with_reducible apply vecDone_keeps
      | with_reducible apply setTile_keeps | with_reducible apply Keeps.ite | with_reducible apply KeepsEff.ok
      | with_reducible apply KeepsEff.bad | with_reducible apply KeepsEff.fail | with_reducible apply KeepsEff.ite
      | with_reducible refine KeepsOpt.map ?_ (fun s h => ?_) | with_reducible refine KeepsOpt.of (fun x => ?_) | split

theorem execVecRsum_keeps {o : State} (t : ℕ) (s : State) (h : Keeps o s) : KeepsOut o (execVecRsum t s) := by
  unfold execVecRsum
  repeat' first
      | with_reducible assumption | with_reducible intro _ | with_reducible apply engineRow_keeps
      | with_reducible apply vecReduce_keeps | with_reducible apply KeepsFault.none | with_reducible apply KeepsFault.some
      | with_reducible apply KeepsOut.next

theorem execVecRmax_keeps {o : State} (t : ℕ) (s : State) (h : Keeps o s) : KeepsOut o (execVecRmax t s) := by
  unfold execVecRmax
  repeat' first
      | with_reducible assumption | with_reducible intro _ | with_reducible apply engineRow_keeps
      | with_reducible apply vecReduce_keeps | with_reducible apply KeepsFault.none | with_reducible apply KeepsFault.some
      | with_reducible apply KeepsOut.next

theorem execVecLd_keeps {o : State} (t : ℕ) (s : State) (h : Keeps o s) : KeepsOut o (execVecLd t s) := by
  unfold execVecLd
  repeat' first
      | with_reducible assumption | with_reducible intro _ | with_reducible apply engineRow_keeps
      | with_reducible apply guard_keeps | with_reducible apply vecDone_keeps | with_reducible apply setTile_keeps
      | with_reducible apply Keeps.ite | with_reducible apply KeepsEff.ok | with_reducible apply KeepsEff.bad
      | with_reducible apply KeepsEff.fail | with_reducible apply KeepsEff.ite | with_reducible apply KeepsFault.none
      | with_reducible apply KeepsFault.some | with_reducible apply KeepsFault.ite | with_reducible refine KeepsFault.map (fun x => ?_)
      | with_reducible refine KeepsOpt.map ?_ (fun s h => ?_) | with_reducible refine KeepsOpt.of (fun x => ?_)
      | with_reducible apply KeepsOut.next | with_reducible refine Keeps.foldl (fun s x h => ?_) _ ?_
      | with_reducible refine KeepsEff.foldl (fun s x h => ?_) _ ?_ | split

theorem execVecSt_keeps {o : State} (t : ℕ) (s : State) (h : Keeps o s) : KeepsOut o (execVecSt t s) := by
  unfold execVecSt
  repeat' first
      | with_reducible assumption | with_reducible intro _ | with_reducible apply engineRow_keeps
      | with_reducible apply guard_keeps | with_reducible apply vecDone_keeps | with_reducible apply spWrite_keeps
      | with_reducible apply KeepsEff.ok | with_reducible apply KeepsEff.bad | with_reducible apply KeepsEff.fail
      | with_reducible apply KeepsFault.none | with_reducible apply KeepsFault.some | with_reducible refine KeepsFault.map (fun x => ?_)
      | with_reducible refine KeepsOpt.map ?_ (fun s h => ?_) | with_reducible refine KeepsOpt.of (fun x => ?_)
      | with_reducible apply KeepsOut.next | with_reducible refine Keeps.foldl (fun s x h => ?_) _ ?_
      | with_reducible refine KeepsEff.foldl (fun s x h => ?_) _ ?_

end Sys2Proof.Machine
end

