-- ==== Sys2Proof/Laws/KeepsBank.lean ====
section
/-!
SUPPORT. What no operation of Machine/Bank.lean does (Laws/Keeps.lean).
-/

set_option Elab.async false

namespace Sys2Proof.Machine

theorem bankPut_keeps {o : State} (s : State) (t : ℕ) (w : ℕ) (codes : List ℕ) (fl : ℕ) (h : Keeps o s) : Keeps o (State.bankPut s t w codes fl) := by
  unfold State.bankPut
  repeat' first
      | with_reducible assumption | with_reducible apply spWrite_keeps | with_reducible apply finc_keeps
      | with_reducible apply flagGrad_keeps | with_reducible apply flagBank_keeps

theorem bankArith_keeps {o : State} (s : State) (t : ℕ) (w : ℕ) (op : ℕ) (h : Keeps o s) : KeepsEff o (State.bankArith s t w op) := by
  unfold State.bankArith
  repeat' first
      | with_reducible assumption | with_reducible intro _ | with_reducible apply guard_keeps
      | with_reducible apply bankPut_keeps | with_reducible apply Keeps.ite | with_reducible apply KeepsEff.ok
      | with_reducible apply KeepsEff.bad | with_reducible apply KeepsEff.fail | with_reducible apply KeepsEff.ite
      | with_reducible refine KeepsOpt.map ?_ (fun s h => ?_) | with_reducible refine KeepsOpt.of (fun x => ?_)
      | with_reducible refine Keeps.foldl (fun s x h => ?_) _ ?_ | with_reducible refine KeepsEff.foldl (fun s x h => ?_) _ ?_ | split

theorem execBnkAdd_keeps {o : State} (t : ℕ) (s : State) (h : Keeps o s) : KeepsOut o (execBnkAdd t s) := by
  unfold execBnkAdd
  repeat' first
      | with_reducible assumption | with_reducible intro _ | with_reducible apply engineRow_keeps
      | with_reducible apply bankArith_keeps | with_reducible apply KeepsFault.none | with_reducible apply KeepsFault.some
      | with_reducible apply KeepsOut.next

theorem execBnkMax_keeps {o : State} (t : ℕ) (s : State) (h : Keeps o s) : KeepsOut o (execBnkMax t s) := by
  unfold execBnkMax
  repeat' first
      | with_reducible assumption | with_reducible intro _ | with_reducible apply engineRow_keeps
      | with_reducible apply bankArith_keeps | with_reducible apply KeepsFault.none | with_reducible apply KeepsFault.some
      | with_reducible apply KeepsOut.next

theorem execBnkSadd_keeps {o : State} (t : ℕ) (s : State) (h : Keeps o s) : KeepsOut o (execBnkSadd t s) := by
  unfold execBnkSadd
  repeat' first
      | with_reducible assumption | with_reducible intro _ | with_reducible apply engineRow_keeps
      | with_reducible apply bankArith_keeps | with_reducible apply KeepsFault.none | with_reducible apply KeepsFault.some
      | with_reducible apply KeepsOut.next

theorem execBnkWiden_keeps {o : State} (t : ℕ) (s : State) (h : Keeps o s) : KeepsOut o (execBnkWiden t s) := by
  unfold execBnkWiden
  repeat' first
      | with_reducible assumption | with_reducible intro _ | with_reducible apply engineRow_keeps
      | with_reducible apply guard_keeps | with_reducible apply finc_keeps | with_reducible apply spWrite_keeps
      | with_reducible apply bankPut_keeps | with_reducible apply Keeps.ite | with_reducible apply KeepsEff.ok
      | with_reducible apply KeepsEff.bad | with_reducible apply KeepsEff.fail | with_reducible apply KeepsEff.ite
      | with_reducible apply KeepsFault.none | with_reducible apply KeepsFault.some | with_reducible apply KeepsFault.ite
      | with_reducible refine KeepsFault.map (fun x => ?_) | with_reducible refine KeepsOpt.map ?_ (fun s h => ?_)
      | with_reducible refine KeepsOpt.of (fun x => ?_) | with_reducible apply KeepsOut.next
      | with_reducible refine Keeps.foldl (fun s x h => ?_) _ ?_ | with_reducible refine KeepsEff.foldl (fun s x h => ?_) _ ?_ | split

theorem execBnkConvert_keeps {o : State} (t : ℕ) (s : State) (h : Keeps o s) : KeepsOut o (execBnkConvert t s) := by
  unfold execBnkConvert
  repeat' first
      | with_reducible assumption | with_reducible intro _ | with_reducible apply engineRow_keeps
      | with_reducible apply guard_keeps | with_reducible apply bankPut_keeps | with_reducible apply finc_keeps
      | with_reducible apply spWrite_keeps | with_reducible apply recClose_keeps | with_reducible apply recCapture_keeps
      | with_reducible apply Keeps.ite | with_reducible apply KeepsEff.ok | with_reducible apply KeepsEff.bad
      | with_reducible apply KeepsEff.fail | with_reducible apply KeepsEff.ite | with_reducible apply KeepsFault.none
      | with_reducible apply KeepsFault.some | with_reducible apply KeepsFault.ite | with_reducible apply KeepsOut.next | split

theorem execBnkRmaxcap_keeps {o : State} (t : ℕ) (s : State) (h : Keeps o s) : KeepsOut o (execBnkRmaxcap t s) := by
  unfold execBnkRmaxcap
  repeat' first
      | with_reducible assumption | with_reducible intro _ | with_reducible apply engineRow_keeps
      | with_reducible apply guard_keeps | with_reducible apply flagBank_keeps | with_reducible apply recCapture_keeps
      | with_reducible apply KeepsEff.ok | with_reducible apply KeepsEff.bad | with_reducible apply KeepsEff.fail
      | with_reducible apply KeepsFault.none | with_reducible apply KeepsFault.some | with_reducible apply KeepsOut.next

end Sys2Proof.Machine
end

