-- ==== Sys2Proof/Laws/KeepsLauter.lean ====
section
/-!
SUPPORT. What no operation of Machine/Lauter.lean does (Laws/Keeps.lean).
-/

set_option Elab.async false

namespace Sys2Proof.Machine

theorem stepExp_keeps {o : State} (s : State) (t : ℕ) (slot : ℕ) (h : Keeps o s) : Keeps o (State.stepExp s t slot).2 := by
  unfold State.stepExp
  repeat' first
      | with_reducible assumption | with_reducible intro _ | with_reducible apply modPart_keeps
      | with_reducible apply KeepsOpt.some | with_reducible apply KeepsOpt.none | with_reducible refine KeepsOpt.map ?_ (fun s h => ?_)
      | with_reducible refine KeepsOpt.of (fun x => ?_) | with_reducible refine KeepsOpt.bind ?_ (fun s h => ?_) | simp only [Keeps.mk_iff]
      | with_reducible refine Keeps.snd (by with_reducible assumption) ?_
      | with_reducible refine Keeps.fst (by with_reducible assumption) ?_
      | with_reducible refine KeepsOpt.get (by with_reducible assumption) ?_ | split | dsimp only

theorem thinTiles_keeps {o : State} (s : State) (t : ℕ) (split : Bool) (tn : Tensor) (c : LautCtx) (use : Bool) (row0 : ℕ) (col0 : ℕ) (e : ℤ) (grad : Bool) (a10 : List ℕ) (a11 : ℕ) (a12 : ℕ) (h : Keeps o s) : Keeps o (State.thinTiles s t split tn c use row0 col0 e grad a10 a11 a12) := by
  induction a12 generalizing s t split tn c use row0 col0 e grad a10 a11 with
  | zero =>
    unfold State.thinTiles
    repeat' first
        | with_reducible assumption | with_reducible intro _ | with_reducible apply finc_keeps
        | with_reducible apply spWrite_keeps | with_reducible apply take_keeps | with_reducible apply flagMatrix_keeps
        | with_reducible apply flagGrad_keeps | with_reducible apply finc_keeps | with_reducible apply Keeps.ite
        | with_reducible refine KeepsOpt.map ?_ (fun s h => ?_) | with_reducible refine KeepsOpt.of (fun x => ?_)
        | with_reducible apply Keeps.id | with_reducible refine Keeps.snd (by with_reducible assumption) ?_
        | with_reducible refine Keeps.fst (by with_reducible assumption) ?_
        | with_reducible refine Keeps.third (by with_reducible assumption) ?_ | split
  | succ n ih =>
    unfold State.thinTiles
    repeat' first
        | with_reducible assumption | with_reducible apply ih | with_reducible intro _ | with_reducible apply finc_keeps
        | with_reducible apply spWrite_keeps | with_reducible apply take_keeps | with_reducible apply flagMatrix_keeps
        | with_reducible apply flagGrad_keeps | with_reducible apply finc_keeps | with_reducible apply Keeps.ite
        | with_reducible refine KeepsOpt.map ?_ (fun s h => ?_) | with_reducible refine KeepsOpt.of (fun x => ?_)
        | with_reducible apply Keeps.id | with_reducible refine Keeps.snd (by with_reducible assumption) ?_
        | with_reducible refine Keeps.fst (by with_reducible assumption) ?_
        | with_reducible refine Keeps.third (by with_reducible assumption) ?_ | split

theorem thinDrain_keeps {o : State} (s : State) (t : ℕ) (split : Bool) (tn : Tensor) (dest : ℕ) (row0 : ℕ) (col0 : ℕ) (grad : Bool) (xs : List ℕ) (h : Keeps o s) : KeepsEff o (State.thinDrain s t split tn dest row0 col0 grad xs) := by
  unfold State.thinDrain
  repeat' first
      | with_reducible assumption | with_reducible apply spFaults_keeps | with_reducible apply stepExp_keeps
      | with_reducible apply thinTiles_keeps | with_reducible apply spWrite_keeps | with_reducible apply Keeps.ite
      | with_reducible apply KeepsEff.ok | with_reducible apply KeepsEff.bad | with_reducible apply KeepsEff.fail
      | with_reducible apply KeepsEff.ite | with_reducible apply KeepsOpt.some | with_reducible apply KeepsOpt.none
      | with_reducible apply KeepsOpt.ite | with_reducible apply KeepsFault.none | with_reducible apply KeepsFault.some
      | with_reducible apply KeepsFault.ite | simp only [Keeps.mk_iff] | with_reducible refine Keeps.snd (by with_reducible assumption) ?_
      | with_reducible refine Keeps.fst (by with_reducible assumption) ?_
      | with_reducible refine KeepsOpt.get (by with_reducible assumption) ?_
      | with_reducible refine KeepsFault.get (by with_reducible assumption) ?_
      | with_reducible refine KeepsEff.get (by with_reducible assumption) ?_
      | with_reducible refine Keeps.third (by with_reducible assumption) ?_ | split

end Sys2Proof.Machine
end

