-- ==== Sys2Proof/Laws/KeepsMatrix.lean ====
section
/-!
SUPPORT. What no operation of Machine/Matrix.lean does (Laws/Keeps.lean).
-/

set_option Elab.async false

namespace Sys2Proof.Machine

theorem putColumn_wf {m : Mem} (f a : Nat) (cs : List Nat) (h : Memory.wf m) : Memory.wf (Mem.putColumn m f a cs) :=
  mem_wf_write _ _ h

theorem loadBlock_keeps {o : State} (s : State) (t q i fmt depth src scaleSrc : Nat) (h : Keeps o s) :
    Keeps o (s.loadBlock t q i fmt depth src scaleSrc) := by
  refine h.engine rfl rfl rfl id ?_ rfl id rfl rfl rfl rfl rfl rfl rfl rfl
  intro hs
  refine tab_wf_foldl _ ?_ _ hs
  intro m n hm
  dsimp only
  split
  · exact mem_wf_write _ _ (putColumn_wf _ _ _ hm)
  · exact putColumn_wf _ _ _ hm

theorem execMxmLoadw_keeps {o : State} (t : ℕ) (s : State) (h : Keeps o s) : KeepsOut o (execMxmLoadw t s) := by
  unfold execMxmLoadw
  repeat' first
      | with_reducible assumption | with_reducible intro _ | with_reducible apply engineRow_keeps
      | with_reducible apply guard_keeps | with_reducible apply modTile_keeps | with_reducible apply loadBlock_keeps
      | with_reducible apply Keeps.ite | with_reducible apply KeepsEff.ok | with_reducible apply KeepsEff.bad
      | with_reducible apply KeepsEff.fail | with_reducible apply KeepsEff.ite | with_reducible apply KeepsFault.none
      | with_reducible apply KeepsFault.some | with_reducible apply KeepsFault.ite | with_reducible apply KeepsOut.next
      | simp only [Keeps.mk_iff] | split

theorem accPut_keeps {o : State} (s : State) (t a : Nat) (bs : List Byte) (h : Keeps o s) : Keeps o (s.accPut t a bs) := by
  unfold State.accPut
  split
  · exact devWrite_keeps h _ _
  · exact h.engine rfl rfl rfl (mem_wf_write _ _) id rfl (tab_wf_clear _ _) rfl rfl rfl rfl rfl rfl rfl rfl

theorem accFail_keeps {o : State} (s : State) (t : ℕ) (n : ℕ) (rows : List ℕ) (h : Keeps o s) : KeepsEff o (State.accFail s t n rows) := by
  unfold State.accFail
  repeat' first
      | with_reducible assumption | with_reducible intro _ | with_reducible apply KeepsEff.ok
      | with_reducible apply KeepsEff.bad | with_reducible apply KeepsEff.fail | with_reducible refine KeepsOpt.map ?_ (fun s h => ?_)
      | with_reducible refine KeepsOpt.of (fun x => ?_) | with_reducible apply KeepsOpt.getD | simp only [Keeps.mk_iff]
      | with_reducible refine Keeps.snd (by with_reducible assumption) ?_
      | with_reducible refine Keeps.fst (by with_reducible assumption) ?_ | split

theorem accMend_keeps {o : State} (s : State) (was : State) (t : ℕ) (n : ℕ) (rows : List ℕ) (h : Keeps o s) (h1 : Keeps o was) : Keeps o (State.accMend s was t n rows) := by
  unfold State.accMend
  repeat' first
      | with_reducible assumption | with_reducible intro _ | with_reducible apply mend_keeps
      | with_reducible apply modTile_keeps | with_reducible refine KeepsOpt.map ?_ (fun s h => ?_)
      | with_reducible refine KeepsOpt.of (fun x => ?_) | with_reducible refine Keeps.foldl (fun s x h => ?_) _ ?_
      | simp only [Keeps.mk_iff] | with_reducible refine Keeps.snd (by with_reducible assumption) ?_
      | with_reducible refine Keeps.fst (by with_reducible assumption) ?_ | split

theorem mulRows_keeps {o : State} (s : State) (t : ℕ) (q : ℕ) (fmt : ℕ) (acc : ℕ) (passes : ℕ) (add : Bool) (src : ℕ) (stride : ℕ) (sc : ℕ) (k : ℕ) (n : ℕ) (u : ℕ) (a13 : ℕ) (a14 : ℕ) (a15 : ℕ) (h : Keeps o s) : Keeps o (State.mulRows s t q fmt acc passes add src stride sc k n u a13 a14 a15).1 := by
  induction a13 generalizing s t q fmt acc passes add src stride sc k n u a14 a15 with
  | zero =>
    unfold State.mulRows
    repeat' first
        | with_reducible assumption | with_reducible intro _ | with_reducible apply accPut_keeps
        | with_reducible refine Keeps.foldl (fun s x h => ?_) _ ?_ | with_reducible refine Keeps.foldl1 (fun s x h => ?_) _ ?_
        | with_reducible refine Keeps.foldl2 (fun s x h => ?_) _ ?_ | dsimp only
  | succ n ih =>
    unfold State.mulRows
    repeat' first
        | with_reducible assumption | with_reducible apply ih | with_reducible intro _ | with_reducible apply accPut_keeps
        | with_reducible refine Keeps.foldl (fun s x h => ?_) _ ?_ | with_reducible refine Keeps.foldl1 (fun s x h => ?_) _ ?_
        | with_reducible refine Keeps.foldl2 (fun s x h => ?_) _ ?_ | dsimp only

theorem execMxmMul_keeps {o : State} (t : ℕ) (s : State) (h : Keeps o s) : KeepsOut o (execMxmMul t s) := by
  unfold execMxmMul
  repeat' first
      | with_reducible assumption | with_reducible intro _ | with_reducible apply engineRow_keeps
      | with_reducible apply guard_keeps | with_reducible apply accFail_keeps | with_reducible apply mulRows_keeps
      | with_reducible apply setTile_keeps | with_reducible apply accMend_keeps | with_reducible apply finc_keeps
      | with_reducible apply flagMatrix_keeps | with_reducible apply Keeps.ite | with_reducible apply KeepsEff.ok
      | with_reducible apply KeepsEff.bad | with_reducible apply KeepsEff.fail | with_reducible apply KeepsEff.ite
      | with_reducible apply KeepsFault.none | with_reducible apply KeepsFault.some | with_reducible apply KeepsFault.ite
      | with_reducible refine KeepsFault.map (fun x => ?_) | with_reducible refine KeepsOpt.map ?_ (fun s h => ?_)
      | with_reducible refine KeepsOpt.of (fun x => ?_) | with_reducible apply KeepsOpt.getD | with_reducible apply KeepsOut.next
      | simp only [Keeps.mk_iff] | with_reducible refine Keeps.snd (by with_reducible assumption) ?_
      | with_reducible refine Keeps.fst (by with_reducible assumption) ?_
      | with_reducible refine KeepsFault.get (by with_reducible assumption) ?_
      | with_reducible refine KeepsEff.get (by with_reducible assumption) ?_
      | with_reducible refine Keeps.third (by with_reducible assumption) ?_ | split

theorem putRows_keeps {o : State} (s : State) (t : ℕ) (dst : ℕ) (a3 : List (DrainRow × List ℕ × List ℕ)) (h : Keeps o s) : Keeps o (State.putRows s t dst a3) := by
  induction a3 generalizing s t dst with
  | nil =>
    unfold State.putRows
    repeat' first | with_reducible assumption | with_reducible apply spWrite_keeps | with_reducible apply Keeps.ite | split
  | cons x l ih =>
    unfold State.putRows
    repeat' first
        | with_reducible assumption | with_reducible apply ih | with_reducible apply spWrite_keeps
        | with_reducible apply Keeps.ite | split

theorem drainRows_keeps {o : State} (s : State) (t : ℕ) (acc : ℕ) (dst : ℕ) (n : ℕ) (ctx : DrainCtx) (tn : Tensor) (ssq : ℕ) (grad : Bool) (rows : List DrainRow) (h : Keeps o s) : Keeps o (State.drainRows s t acc dst n ctx tn ssq grad rows) := by
  unfold State.drainRows
  repeat' first
      | with_reducible assumption | with_reducible intro _ | with_reducible apply putRows_keeps
      | with_reducible apply recClose_keeps | with_reducible apply recCapture_keeps | with_reducible apply flagGrad_keeps
      | with_reducible apply flagMatrix_keeps | with_reducible apply spWrite_keeps | with_reducible apply Keeps.ite
      | with_reducible refine KeepsOpt.map ?_ (fun s h => ?_) | with_reducible refine KeepsOpt.of (fun x => ?_)
      | with_reducible refine Keeps.foldl (fun s x h => ?_) _ ?_ | with_reducible refine Keeps.snd (by with_reducible assumption) ?_
      | with_reducible refine Keeps.fst (by with_reducible assumption) ?_
      | with_reducible refine Keeps.third (by with_reducible assumption) ?_ | split

theorem execMxmDrain_keeps {o : State} (t : ℕ) (s : State) (h : Keeps o s) : KeepsOut o (execMxmDrain t s) := by
  unfold execMxmDrain
  repeat' first
      | with_reducible assumption | with_reducible intro _ | with_reducible apply engineRow_keeps
      | with_reducible apply guard_keeps | with_reducible apply accFail_keeps | with_reducible apply Eff_andThen_keeps
      | with_reducible apply thinDrain_keeps | with_reducible apply flagGrad_keeps | with_reducible apply flagMatrix_keeps
      | with_reducible apply spWrite_keeps | with_reducible apply drainRows_keeps | with_reducible apply modTile_keeps
      | with_reducible apply accMend_keeps | with_reducible apply Keeps.ite | with_reducible apply KeepsEff.ok
      | with_reducible apply KeepsEff.bad | with_reducible apply KeepsEff.fail | with_reducible apply KeepsEff.ite
      | with_reducible refine KeepsEff.andThen ?_ (fun s h => ?_) | with_reducible apply KeepsFault.none
      | with_reducible apply KeepsFault.some | with_reducible apply KeepsFault.ite | with_reducible refine KeepsFault.map (fun x => ?_)
      | with_reducible refine KeepsOpt.map ?_ (fun s h => ?_) | with_reducible refine KeepsOpt.of (fun x => ?_)
      | with_reducible apply KeepsOpt.getD | with_reducible apply KeepsOut.next | with_reducible refine Keeps.foldl (fun s x h => ?_) _ ?_
      | with_reducible refine Keeps.foldl1 (fun s x h => ?_) _ ?_ | with_reducible refine Keeps.foldl2 (fun s x h => ?_) _ ?_
      | with_reducible refine KeepsEff.foldl (fun s x h => ?_) _ ?_ | simp only [Keeps.mk_iff]
      | with_reducible refine Keeps.snd (by with_reducible assumption) ?_
      | with_reducible refine Keeps.fst (by with_reducible assumption) ?_
      | with_reducible refine KeepsFault.get (by with_reducible assumption) ?_
      | with_reducible refine KeepsEff.get (by with_reducible assumption) ?_
      | with_reducible refine Keeps.third (by with_reducible assumption) ?_ | split

theorem groupLeaves_keeps {o : State} (s : State) (t fmt chunks : Nat) (operands : List Nat) (h : Keeps o s) :
    Keeps o (s.groupLeaves t fmt chunks operands) := by
  unfold State.groupLeaves
  refine Keeps.foldl (fun s q h => ?_) _ h
  dsimp only
  refine modTile_keeps ?_ _ _
  refine Keeps.engine h ?_ ?_ ?_ ?_ ?_ ?_ ?_ ?_ ?_ ?_ ?_ ?_ ?_ ?_ ?_ <;>
    first | rfl | exact mem_wf_freeRange _ _ _ _ | exact tab_wf_clear _ _

theorem execMxmGroup_keeps {o : State} (t : ℕ) (s : State) (h : Keeps o s) : KeepsOut o (execMxmGroup t s) := by
  unfold execMxmGroup
  repeat' first
      | with_reducible assumption | with_reducible intro _ | with_reducible apply engineRow_keeps
      | with_reducible apply guard_keeps | with_reducible apply flagMatrix_keeps | with_reducible apply drainRows_keeps
      | with_reducible apply finc_keeps | with_reducible apply groupLeaves_keeps | with_reducible apply Keeps.ite
      | with_reducible apply KeepsEff.ok | with_reducible apply KeepsEff.bad | with_reducible apply KeepsEff.fail
      | with_reducible apply KeepsEff.ite | with_reducible apply KeepsFault.none | with_reducible apply KeepsFault.some
      | with_reducible apply KeepsFault.ite | with_reducible refine KeepsFault.map (fun x => ?_)
      | with_reducible refine KeepsOpt.map ?_ (fun s h => ?_) | with_reducible refine KeepsOpt.of (fun x => ?_)
      | with_reducible apply KeepsOpt.getD | with_reducible apply KeepsOut.next | with_reducible refine Keeps.foldl (fun s x h => ?_) _ ?_
      | with_reducible refine Keeps.foldl1 (fun s x h => ?_) _ ?_ | with_reducible refine Keeps.foldl2 (fun s x h => ?_) _ ?_
      | with_reducible refine KeepsEff.foldl (fun s x h => ?_) _ ?_ | with_reducible refine Keeps.snd (by with_reducible assumption) ?_
      | with_reducible refine Keeps.fst (by with_reducible assumption) ?_
      | with_reducible refine KeepsFault.get (by with_reducible assumption) ?_
      | with_reducible refine KeepsEff.get (by with_reducible assumption) ?_
      | with_reducible refine Keeps.third (by with_reducible assumption) ?_ | split

theorem execMxmFence_keeps {o : State} (t : ℕ) (s : State) (h : Keeps o s) : KeepsOut o (execMxmFence t s) := by
  unfold execMxmFence
  repeat' first
      | with_reducible assumption | with_reducible intro _ | with_reducible apply engineRow_keeps
      | with_reducible apply KeepsEff.ok | with_reducible apply KeepsEff.bad | with_reducible apply KeepsEff.fail
      | with_reducible apply KeepsFault.none | with_reducible apply KeepsFault.some | with_reducible apply KeepsOut.next

end Sys2Proof.Machine
end

