-- ==== Sys2Proof/Laws/KeepsTransfers.lean ====
section
/-!
SUPPORT. What no operation of Machine/Transfers.lean does (Laws/Keeps.lean).
-/

set_option Elab.async false

namespace Sys2Proof.Machine

theorem viewWrite_keeps {o : State} (s : State) (p : ℕ) (x : ℕ) (bs : List Byte) (h : Keeps o s) : Keeps o (State.viewWrite s p x bs) := by
  unfold State.viewWrite
  repeat' first
      | with_reducible assumption | with_reducible intro _ | with_reducible apply take_keeps
      | with_reducible refine KeepsOpt.map ?_ (fun s h => ?_) | with_reducible refine KeepsOpt.of (fun x => ?_) | simp only [Keeps.mk_iff]

theorem writePieces_keeps {o : State} (s : State) (p : ℕ) (a2 : List (ℕ × ℕ)) (a3 : List Byte) (h : Keeps o s) : Keeps o (State.writePieces s p a2 a3) := by
  induction a2 generalizing s p a3 with
  | nil =>
    unfold State.writePieces
    repeat' first
        | with_reducible assumption | with_reducible apply devWrite_keeps | with_reducible apply take_keeps
        | with_reducible apply viewWrite_keeps | with_reducible apply devWrite_keeps | simp only [Keeps.mk_iff]
        | with_reducible refine Keeps.snd (by with_reducible assumption) ?_
        | with_reducible refine Keeps.fst (by with_reducible assumption) ?_ | split
  | cons x l ih =>
    unfold State.writePieces
    repeat' first
        | with_reducible assumption | with_reducible apply ih | with_reducible apply devWrite_keeps
        | with_reducible apply take_keeps | with_reducible apply viewWrite_keeps | with_reducible apply devWrite_keeps
        | simp only [Keeps.mk_iff] | with_reducible refine Keeps.snd (by with_reducible assumption) ?_
        | with_reducible refine Keeps.fst (by with_reducible assumption) ?_ | split

theorem countSpill_keeps {o : State} (s : State) (p : ℕ) (a : ℕ) (len : ℕ) (h : Keeps o s) : Keeps o (State.countSpill s p a len) := by
  unfold State.countSpill
  repeat' first
      | with_reducible assumption | with_reducible intro _ | with_reducible apply fset_keeps | with_reducible apply modBay_keeps
      | with_reducible apply Keeps.ite | with_reducible refine Keeps.foldl (fun s x h => ?_) _ ?_ | simp only [Keeps.mk_iff] | split

theorem partWrite_keeps {o : State} (s : State) (p : ℕ) (a : ℕ) (bs : List Byte) (h : Keeps o s) : Keeps o (State.partWrite s p a bs) := by
  unfold State.partWrite
  repeat' first | with_reducible assumption | with_reducible apply countSpill_keeps | with_reducible apply writePieces_keeps

theorem failAt_keeps {o : State} (who : ℕ × ℕ) (f : ℕ × ℕ)  : KeepsEff o (failAt who f) := by
  unfold failAt
  repeat' first
      | with_reducible assumption | with_reducible apply Keeps.ite | with_reducible apply KeepsEff.ok
      | with_reducible apply KeepsEff.bad | with_reducible apply KeepsEff.fail | with_reducible apply KeepsEff.ite | split

theorem captureHost_keeps {o : State} (s : State) (p : ℕ) (rseq : ℕ) (a : ℕ) (bs : List Byte) (h : Keeps o s) : Keeps o (State.captureHost s p rseq a bs) := by
  unfold State.captureHost
  repeat' first | with_reducible assumption | with_reducible apply capture_keeps | with_reducible apply Keeps.ite | split

theorem replayHost_keeps {o : State} (s : State) (p : ℕ) (rseq : ℕ) (a : ℕ) (now : List Byte) (h : Keeps o s) : Keeps o (State.replayHost s p rseq a now).2 := by
  unfold State.replayHost
  repeat' first
      | with_reducible assumption | with_reducible intro _ | with_reducible apply replayFails_keeps
      | with_reducible apply Keeps.ite | with_reducible apply KeepsOpt.some | with_reducible apply KeepsOpt.none
      | with_reducible apply KeepsOpt.ite | simp only [Keeps.mk_iff] | with_reducible refine Keeps.snd (by with_reducible assumption) ?_
      | with_reducible refine Keeps.fst (by with_reducible assumption) ?_
      | with_reducible refine KeepsOpt.get (by with_reducible assumption) ?_ | split | dsimp only

theorem hostTake_keeps {o : State} (s : State) (c : Cmd) (a : ℕ) (len : ℕ) (h : Keeps o s) : Keeps o (State.hostTake s c a len).2.2 := by
  unfold State.hostTake
  repeat' first
      | with_reducible assumption | with_reducible apply replayHost_keeps | with_reducible apply captureHost_keeps
      | with_reducible apply take_keeps | with_reducible apply Keeps.ite
      | with_reducible refine Keeps.snd (by with_reducible assumption) ?_
      | with_reducible refine Keeps.fst (by with_reducible assumption) ?_
      | with_reducible refine Keeps.third (by with_reducible assumption) ?_ | split | dsimp only

theorem hostPart_keeps {o : State} (s : State) (c : Cmd) (a : ℕ) (off : ℕ) (len : ℕ) (h : Keeps o s) : Keeps o (State.hostPart s c a off len).2.2 := by
  unfold State.hostPart
  repeat' first
      | with_reducible assumption | with_reducible apply replayHost_keeps | with_reducible apply captureHost_keeps
      | with_reducible apply take_keeps | with_reducible apply Keeps.ite
      | with_reducible refine Keeps.snd (by with_reducible assumption) ?_
      | with_reducible refine Keeps.fst (by with_reducible assumption) ?_
      | with_reducible refine Keeps.third (by with_reducible assumption) ?_ | split | dsimp only

theorem flashReads_keeps {o : State} (s : State) (p : ℕ) (off : ℕ) (bs : List Byte) (h : Keeps o s) : Keeps o (State.flashReads s p off bs) := by
  unfold State.flashReads
  repeat' first
      | with_reducible assumption | with_reducible intro _ | with_reducible apply replayFails_keeps
      | with_reducible apply capture_keeps | with_reducible apply take_keeps | with_reducible apply Keeps.ite
      | with_reducible apply KeepsOpt.some | with_reducible apply KeepsOpt.none | with_reducible apply KeepsOpt.ite
      | with_reducible refine Keeps.foldl (fun s x h => ?_) _ ?_ | simp only [Keeps.mk_iff]
      | with_reducible refine Keeps.snd (by with_reducible assumption) ?_
      | with_reducible refine Keeps.fst (by with_reducible assumption) ?_
      | with_reducible refine KeepsOpt.get (by with_reducible assumption) ?_ | split

theorem sealSegments_keeps {o : State} (s : State) (c : Cmd) (a : ℕ) (a3 : ℕ) (a4 : ℕ) (a5 : List Byte) (h : Keeps o s) : Keeps o (State.sealSegments s c a a3 a4 a5) := by
  induction a3 generalizing s c a a4 a5 with
  | zero =>
    unfold State.sealSegments
    repeat' first
        | with_reducible assumption | with_reducible apply hostWrite_keeps | with_reducible apply take_keeps
        | with_reducible apply hostWrite_keeps | with_reducible refine Keeps.snd (by with_reducible assumption) ?_
        | with_reducible refine Keeps.fst (by with_reducible assumption) ?_
        | with_reducible refine Keeps.third (by with_reducible assumption) ?_ | split
  | succ n ih =>
    unfold State.sealSegments
    repeat' first
        | with_reducible assumption | with_reducible apply ih | with_reducible apply hostWrite_keeps
        | with_reducible apply take_keeps | with_reducible apply hostWrite_keeps
        | with_reducible refine Keeps.snd (by with_reducible assumption) ?_
        | with_reducible refine Keeps.fst (by with_reducible assumption) ?_
        | with_reducible refine Keeps.third (by with_reducible assumption) ?_ | split

theorem hostPut_keeps {o : State} (s : State) (c : Cmd) (a : ℕ) (bs : List Byte) (h : Keeps o s) : Keeps o (State.hostPut s c a bs) := by
  unfold State.hostPut
  repeat' first
      | with_reducible assumption | with_reducible apply sealSegments_keeps | with_reducible apply hostWrite_keeps
      | with_reducible apply Keeps.ite | split

theorem segmentFailed_keeps {o : State} (s : State) (c : Cmd) (h : Keeps o s) : Keeps o (State.segmentFailed s c) := by
  unfold State.segmentFailed
  repeat' first | with_reducible assumption | with_reducible apply settle_keeps | with_reducible apply tagFailed_keeps

theorem dropStale_keeps {o : State} (s : State) (p : ℕ) (m : Msg) (h : Keeps o s) : Keeps o (State.dropStale s p m) := by
  unfold State.dropStale
  repeat' first | with_reducible assumption | with_reducible apply finc_keeps

theorem captureMsg_keeps {o : State} (s : State) (p : ℕ) (m : Msg) (h : Keeps o s) : Keeps o (State.captureMsg s p m) := by
  unfold State.captureMsg
  repeat' first | with_reducible assumption | with_reducible apply capture_keeps

theorem onMsg_keeps {o : State} (s : State) (p : ℕ) (m : Msg) (vc : ℕ) (ty : ℕ) (ok : Bool) (k : State → State) (h : Keeps o s) (h1 : ∀ x0, Keeps o x0 → Keeps o (k x0)) : Keeps o (State.onMsg s p m vc ty ok k) := by
  unfold State.onMsg
  repeat' first
      | with_reducible assumption | with_reducible apply dropStale_keeps | with_reducible apply settle_keeps
      | with_reducible apply captureMsg_keeps | with_reducible apply h1 | with_reducible apply Keeps.ite | split

end Sys2Proof.Machine
end

