-- ==== Sys2Proof/Laws/KeepsMoves.lean ====
section
/-!
SUPPORT. What no operation of Machine/Moves.lean does (Laws/Keeps.lean).
-/

set_option Elab.async false

namespace Sys2Proof.Machine

theorem hostRows_keeps {o : State} (s : State) (c : Cmd) (a : ℕ) (stride : ℕ) (rows : List (List Byte)) (h : Keeps o s) : Keeps o (State.hostRows s c a stride rows) := by
  unfold State.hostRows
  repeat' first
      | with_reducible assumption | with_reducible intro _ | with_reducible apply hostPut_keeps
      | with_reducible apply hostWrite_keeps | with_reducible apply take_keeps | with_reducible apply Keeps.ite
      | with_reducible refine KeepsOpt.map ?_ (fun s h => ?_) | with_reducible refine KeepsOpt.of (fun x => ?_)
      | with_reducible refine Keeps.foldl (fun s x h => ?_) _ ?_ | split

theorem putRanges_keeps {o : State} (s : State) (p : ℕ) (a2 : List ((ℕ × ℕ) × List Byte)) (h : Keeps o s) : Keeps o (State.putRanges s p a2) := by
  induction a2 generalizing s p with
  | nil =>
    unfold State.putRanges
    repeat' first | with_reducible assumption | with_reducible apply partWrite_keeps
  | cons x l ih =>
    unfold State.putRanges
    repeat' first | with_reducible assumption | with_reducible apply ih | with_reducible apply partWrite_keeps

theorem moveData_keeps {o : State} (s : State) (p : ℕ) (cmd : Option Cmd) (seed : ℕ) (step : ℕ) (m : MoveD) (h : Keeps o s) : KeepsOpt o (State.moveData s p cmd seed step m) := by
  unfold State.moveData
  repeat' first
      | with_reducible assumption | with_reducible intro _ | with_reducible apply hostRows_keeps
      | with_reducible apply putRanges_keeps | with_reducible apply partWrite_keeps | with_reducible apply recCapture_keeps
      | with_reducible apply recClose_keeps | with_reducible apply finc_keeps | with_reducible apply flagBank_keeps
      | with_reducible apply capture_keeps | with_reducible apply take_keeps | with_reducible apply Keeps.ite
      | with_reducible apply KeepsOpt.some | with_reducible apply KeepsOpt.none | with_reducible apply KeepsOpt.ite
      | with_reducible refine KeepsOpt.map ?_ (fun s h => ?_) | with_reducible refine KeepsOpt.of (fun x => ?_)
      | with_reducible refine Keeps.foldl (fun s x h => ?_) _ ?_ | with_reducible refine Keeps.foldl1 (fun s x h => ?_) _ ?_
      | with_reducible refine Keeps.foldl2 (fun s x h => ?_) _ ?_ | simp only [Keeps.mk_iff]
      | with_reducible refine Keeps.snd (by with_reducible assumption) ?_
      | with_reducible refine Keeps.fst (by with_reducible assumption) ?_
      | with_reducible refine KeepsOpt.get (by with_reducible assumption) ?_
      | with_reducible refine Keeps.third (by with_reducible assumption) ?_ | split

theorem landed_keeps {o : State} (new : State) (was : State) (req : ℕ) (ranges : List (ℕ × ℕ)) (h : Keeps o new) (h1 : Keeps o was) : Keeps o (State.landed new was req ranges) := by
  unfold State.landed
  repeat' first
      | with_reducible assumption | with_reducible intro _ | with_reducible apply meeting_keeps
      | with_reducible refine Keeps.foldl (fun s x h => ?_) _ ?_ | with_reducible refine Keeps.foldl1 (fun s x h => ?_) _ ?_
      | with_reducible refine Keeps.foldl2 (fun s x h => ?_) _ ?_ | simp only [Keeps.mk_iff]
      | with_reducible refine Keeps.snd (by with_reducible assumption) ?_
      | with_reducible refine Keeps.fst (by with_reducible assumption) ?_ | split

theorem partPut_keeps {o : State} (s : State) (req : ℕ) (p : ℕ) (a : ℕ) (bs : List Byte) (h : Keeps o s) : Keeps o (State.partPut s req p a bs) := by
  unfold State.partPut
  repeat' first | with_reducible assumption | with_reducible apply landed_keeps | with_reducible apply partWrite_keeps

theorem moveRun_keeps {o : State} (s : State) (p : ℕ) (who : ℕ × ℕ) (cmd : Option Cmd) (seed : ℕ) (step : ℕ) (m : MoveD) (h : Keeps o s) : KeepsEff o (State.moveRun s p who cmd seed step m) := by
  unfold State.moveRun
  repeat' first
      | with_reducible assumption | with_reducible apply failAt_keeps | with_reducible apply moveData_keeps
      | with_reducible apply mend_keeps | with_reducible apply landed_keeps | with_reducible apply KeepsEff.ok
      | with_reducible apply KeepsEff.bad | with_reducible apply KeepsEff.fail | with_reducible apply KeepsOpt.some
      | with_reducible apply KeepsOpt.none | with_reducible apply KeepsFault.none | with_reducible apply KeepsFault.some
      | simp only [Keeps.mk_iff] | with_reducible refine Keeps.snd (by with_reducible assumption) ?_
      | with_reducible refine Keeps.fst (by with_reducible assumption) ?_
      | with_reducible refine KeepsOpt.get (by with_reducible assumption) ?_
      | with_reducible refine KeepsFault.get (by with_reducible assumption) ?_
      | with_reducible refine KeepsEff.get (by with_reducible assumption) ?_ | split

theorem addMove_keeps {o : State} (s : State) (owner : ℕ) (why : ℕ) (ref : ℕ) (desc : BitVec 512) (src : ℕ) (dst : ℕ) (len : ℕ) (h : Keeps o s) : Keeps o (State.addMove s owner why ref desc src dst len) := by
  unfold State.addMove
  repeat' first | with_reducible assumption | with_reducible apply Keeps.id | simp only [Keeps.mk_iff]

theorem dropMove_keeps {o : State} (s : State) (id : ℕ) (h : Keeps o s) : Keeps o (State.dropMove s id) := by
  unfold State.dropMove
  repeat' first | with_reducible assumption | with_reducible intro _ | with_reducible apply Keeps.id | simp only [Keeps.mk_iff]

theorem wordFails_keeps {o : State} (s : State) (t : ℕ) (f : Flight) (reason : ℕ) (source : ℕ) (kind : ℕ) (inst : ℕ) (info : ℕ) (h : Keeps o s) : Keeps o (State.wordFails s t f reason source kind inst info) := by
  unfold State.wordFails
  repeat' first
      | with_reducible assumption | with_reducible intro _ | with_reducible apply releaseN_keeps
      | with_reducible apply failWords_keeps | with_reducible apply stopTile_keeps | with_reducible apply raise_keeps
      | with_reducible apply failStepOf_keeps | with_reducible apply tileFault_keeps | with_reducible apply Keeps.ite
      | with_reducible apply KeepsEff.ok | with_reducible apply KeepsEff.bad | with_reducible apply KeepsEff.fail
      | with_reducible apply KeepsEff.ite | with_reducible apply KeepsOpt.some | with_reducible apply KeepsOpt.none
      | with_reducible apply KeepsOpt.ite | with_reducible apply KeepsFault.none | with_reducible apply KeepsFault.some
      | with_reducible apply KeepsFault.ite | with_reducible apply Keeps.id | split

theorem wordEff_keeps {o : State} (s : State) (t : ℕ) (f : Flight) (e : Eff) (k : State → State) (h : Keeps o s) (h1 : KeepsEff o e) (h2 : ∀ x0, Keeps o x0 → Keeps o (k x0)) : Keeps o (State.wordEff s t f e k) := by
  unfold State.wordEff
  repeat' first
      | with_reducible assumption | with_reducible apply wordFails_keeps | with_reducible apply h2
      | with_reducible apply KeepsEff.ok | with_reducible apply KeepsEff.bad | with_reducible apply KeepsEff.fail
      | exact KeepsEff.get rfl (by with_reducible assumption) | exact KeepsOpt.get rfl (by with_reducible assumption)
      | simp only [Keeps.mk_iff] | with_reducible refine Keeps.snd (by with_reducible assumption) ?_
      | with_reducible refine Keeps.fst (by with_reducible assumption) ?_
      | with_reducible refine KeepsEff.get (by with_reducible assumption) ?_ | split

theorem modFlight_keeps {o : State} (s : State) (t : ℕ) (id : ℕ) (g : Flight → Flight) (h : Keeps o s) : Keeps o (State.modFlight s t id g) := by
  unfold State.modFlight
  repeat' first
      | with_reducible assumption | with_reducible intro _ | with_reducible apply modTile_keeps | with_reducible apply Keeps.ite
      | with_reducible refine KeepsOpt.map ?_ (fun s h => ?_) | with_reducible refine KeepsOpt.of (fun x => ?_)
      | with_reducible apply Keeps.id | simp only [Keeps.mk_iff] | split

theorem issueSteep_keeps {o : State} (a0 : ℕ) (a1 : State) (a2 : ℕ) (h : Keeps o a1) : Keeps o (State.issueSteep a0 a1 a2) := by
  induction a0 generalizing a1 a2 with
  | zero =>
    unfold State.issueSteep
    repeat' first
        | with_reducible assumption | with_reducible intro _ | with_reducible apply fset_keeps
        | with_reducible apply modTile_keeps | with_reducible apply tileStop_keeps | with_reducible apply addMove_keeps
        | with_reducible apply fset_keeps | with_reducible apply modTile_keeps | with_reducible apply Keeps.ite
        | with_reducible apply KeepsOpt.some | with_reducible apply KeepsOpt.none | with_reducible apply KeepsOpt.ite
        | with_reducible apply KeepsOpt.getD | simp only [Keeps.mk_iff] | with_reducible refine Keeps.snd (by with_reducible assumption) ?_
        | with_reducible refine Keeps.fst (by with_reducible assumption) ?_
        | with_reducible refine KeepsOpt.get (by with_reducible assumption) ?_ | split
  | succ n ih =>
    unfold State.issueSteep
    repeat' first
        | with_reducible assumption | with_reducible apply ih | with_reducible intro _ | with_reducible apply fset_keeps
        | with_reducible apply modTile_keeps | with_reducible apply tileStop_keeps | with_reducible apply addMove_keeps
        | with_reducible apply fset_keeps | with_reducible apply modTile_keeps | with_reducible apply Keeps.ite
        | with_reducible apply KeepsOpt.some | with_reducible apply KeepsOpt.none | with_reducible apply KeepsOpt.ite
        | with_reducible apply KeepsOpt.getD | simp only [Keeps.mk_iff] | with_reducible refine Keeps.snd (by with_reducible assumption) ?_
        | with_reducible refine Keeps.fst (by with_reducible assumption) ?_
        | with_reducible refine KeepsOpt.get (by with_reducible assumption) ?_ | split

theorem steepSignal_keeps {o : State} (s : State) (t : ℕ) (i : ℕ) (h : Keeps o s) : Keeps o (State.steepSignal s t i) := by
  unfold State.steepSignal
  repeat' first
      | with_reducible assumption | with_reducible intro _ | with_reducible apply free1_keeps
      | with_reducible apply modTile_keeps | with_reducible apply fset_keeps | with_reducible apply finc_keeps
      | with_reducible apply signalTile_keeps | with_reducible apply Keeps.ite | simp only [Keeps.mk_iff]
      | with_reducible refine Keeps.snd (by with_reducible assumption) ?_
      | with_reducible refine Keeps.fst (by with_reducible assumption) ?_
      | with_reducible refine Keeps.third (by with_reducible assumption) ?_ | split

theorem startMov_keeps {o : State} (s : State) (t : ℕ) (f : Flight) (h : Keeps o s) : Keeps o (State.startMov s t f) := by
  unfold State.startMov
  repeat' first
      | with_reducible assumption | with_reducible intro _ | with_reducible apply wordEff_keeps
      | with_reducible apply issueSteep_keeps | with_reducible apply modFlight_keeps | with_reducible apply fset_keeps
      | with_reducible apply spFault_keeps | with_reducible apply failAt_keeps | with_reducible apply addMove_keeps
      | with_reducible apply mend_keeps | with_reducible apply Keeps.ite | with_reducible apply KeepsEff.ok
      | with_reducible apply KeepsEff.bad | with_reducible apply KeepsEff.fail | with_reducible apply KeepsEff.ite
      | with_reducible apply KeepsOpt.some | with_reducible apply KeepsOpt.none | with_reducible apply KeepsOpt.ite
      | with_reducible apply KeepsFault.none | with_reducible apply KeepsFault.some | with_reducible apply KeepsFault.ite
      | with_reducible apply KeepsOpt.getD | with_reducible apply Keeps.id | simp only [Keeps.mk_iff]
      | with_reducible refine Keeps.snd (by with_reducible assumption) ?_
      | with_reducible refine Keeps.fst (by with_reducible assumption) ?_
      | with_reducible refine KeepsOpt.get (by with_reducible assumption) ?_
      | with_reducible refine KeepsFault.get (by with_reducible assumption) ?_ | split

theorem startMovs_keeps {o : State} (a0 : ℕ) (a1 : State) (a2 : ℕ) (h : Keeps o a1) : Keeps o (State.startMovs a0 a1 a2) := by
  induction a0 generalizing a1 a2 with
  | zero =>
    unfold State.startMovs
    repeat' first
        | with_reducible assumption | with_reducible intro _ | with_reducible apply startMov_keeps
        | with_reducible apply Keeps.ite | with_reducible apply KeepsOpt.some | with_reducible apply KeepsOpt.none
        | with_reducible apply KeepsOpt.ite | simp only [Keeps.mk_iff] | with_reducible refine Keeps.snd (by with_reducible assumption) ?_
        | with_reducible refine Keeps.fst (by with_reducible assumption) ?_
        | with_reducible refine KeepsOpt.get (by with_reducible assumption) ?_ | split
  | succ n ih =>
    unfold State.startMovs
    repeat' first
        | with_reducible assumption | with_reducible apply ih | with_reducible intro _ | with_reducible apply startMov_keeps
        | with_reducible apply Keeps.ite | with_reducible apply KeepsOpt.some | with_reducible apply KeepsOpt.none
        | with_reducible apply KeepsOpt.ite | simp only [Keeps.mk_iff] | with_reducible refine Keeps.snd (by with_reducible assumption) ?_
        | with_reducible refine Keeps.fst (by with_reducible assumption) ?_
        | with_reducible refine KeepsOpt.get (by with_reducible assumption) ?_ | split

theorem moveEngine_keeps {o : State} (s : State) (t : ℕ) (h : Keeps o s) : Keeps o (State.moveEngine s t) := by
  unfold State.moveEngine
  repeat' first | with_reducible assumption | with_reducible apply issueSteep_keeps | with_reducible apply startMovs_keeps

theorem movWord_keeps {o : State} (s : State) (t : ℕ) (w : ℕ) (writes : Bool) (h : Keeps o s) : Keeps o (State.movWord s t w writes) := by
  unfold State.movWord
  repeat' first | with_reducible assumption | with_reducible apply moveEngine_keeps | with_reducible apply enqueue_keeps

theorem execMovDesc_keeps {o : State} (t : ℕ) (s : State) (h : Keeps o s) : KeepsOut o (execMovDesc t s) := by
  unfold execMovDesc
  repeat' first
      | with_reducible assumption | with_reducible intro _ | with_reducible apply tileRow_keeps
      | with_reducible apply movWord_keeps | with_reducible apply KeepsFault.none | with_reducible apply KeepsFault.some
      | with_reducible apply KeepsOut.next

theorem execMovSteep_keeps {o : State} (t : ℕ) (s : State) (h : Keeps o s) : KeepsOut o (execMovSteep t s) := by
  unfold execMovSteep
  repeat' first
      | with_reducible assumption | with_reducible intro _ | with_reducible apply tileRow_keeps
      | with_reducible apply movWord_keeps | with_reducible apply KeepsFault.none | with_reducible apply KeepsFault.some
      | with_reducible apply KeepsOut.next

theorem execMovCopy_keeps {o : State} (t : ℕ) (s : State) (h : Keeps o s) : KeepsOut o (execMovCopy t s) := by
  unfold execMovCopy
  repeat' first
      | with_reducible assumption | with_reducible intro _ | with_reducible apply tileRow_keeps
      | with_reducible apply illegal_keeps | with_reducible apply movWord_keeps | with_reducible apply Keeps.ite
      | with_reducible apply KeepsFault.none | with_reducible apply KeepsFault.some | with_reducible apply KeepsFault.ite
      | with_reducible apply KeepsOut.next | split

theorem moveFlash_keeps {o : State} (s : State) (p : ℕ) (d : MoveD) (h : Keeps o s) : Keeps o (State.moveFlash s p d) := by
  unfold State.moveFlash
  repeat' first
      | with_reducible assumption | with_reducible intro _ | with_reducible apply flashReads_keeps
      | with_reducible apply Keeps.ite | with_reducible refine Keeps.foldl (fun s x h => ?_) _ ?_ | split

theorem landTile_keeps {o : State} (s : State) (m : Move) (h : Keeps o s) : KeepsEff o (State.landTile s m) := by
  unfold State.landTile
  repeat' first
      | with_reducible assumption | with_reducible apply failAt_keeps | with_reducible apply mend_keeps
      | with_reducible apply partPut_keeps | with_reducible apply moveRun_keeps | with_reducible apply moveFlash_keeps
      | with_reducible apply Keeps.ite | with_reducible apply KeepsEff.ok | with_reducible apply KeepsEff.bad
      | with_reducible apply KeepsEff.fail | with_reducible apply KeepsEff.ite | with_reducible apply KeepsOpt.some
      | with_reducible apply KeepsOpt.none | with_reducible apply KeepsOpt.ite | with_reducible apply KeepsFault.none
      | with_reducible apply KeepsFault.some | with_reducible apply KeepsFault.ite | with_reducible apply KeepsOpt.getD
      | simp only [Keeps.mk_iff] | with_reducible refine Keeps.snd (by with_reducible assumption) ?_
      | with_reducible refine Keeps.fst (by with_reducible assumption) ?_
      | with_reducible refine KeepsOpt.get (by with_reducible assumption) ?_
      | with_reducible refine KeepsFault.get (by with_reducible assumption) ?_
      | with_reducible refine KeepsEff.get (by with_reducible assumption) ?_ | split

theorem landMov_keeps {o : State} (s : State) (m : Move) (h : Keeps o s) : Keeps o (State.landMov s m) := by
  unfold State.landMov
  repeat' first
      | with_reducible assumption | with_reducible intro _ | with_reducible apply dropMove_keeps
      | with_reducible apply landTile_keeps | with_reducible apply wordEff_keeps | with_reducible apply signalTile_keeps
      | with_reducible apply completeWord_keeps | with_reducible apply moveEngine_keeps | with_reducible apply Keeps.ite
      | with_reducible apply KeepsEff.ok | with_reducible apply KeepsEff.bad | with_reducible apply KeepsEff.fail
      | with_reducible apply KeepsEff.ite | with_reducible apply KeepsOpt.some | with_reducible apply KeepsOpt.none
      | with_reducible apply KeepsOpt.ite | with_reducible apply Keeps.id | simp only [Keeps.mk_iff]
      | with_reducible refine Keeps.snd (by with_reducible assumption) ?_
      | with_reducible refine Keeps.fst (by with_reducible assumption) ?_
      | with_reducible refine KeepsOpt.get (by with_reducible assumption) ?_
      | with_reducible refine KeepsEff.get (by with_reducible assumption) ?_ | split

theorem landOld_keeps {o : State} (s : State) (m : Move) (h : Keeps o s) : Keeps o (State.landOld s m) := by
  unfold State.landOld
  repeat' first
      | with_reducible assumption | with_reducible apply dropMove_keeps | with_reducible apply moveEngine_keeps
      | with_reducible apply landTile_keeps | with_reducible apply tileStop_keeps | with_reducible apply KeepsEff.ok
      | with_reducible apply KeepsEff.bad | with_reducible apply KeepsEff.fail | with_reducible apply Keeps.id | simp only [Keeps.mk_iff]
      | with_reducible refine Keeps.snd (by with_reducible assumption) ?_
      | with_reducible refine Keeps.fst (by with_reducible assumption) ?_
      | with_reducible refine KeepsEff.get (by with_reducible assumption) ?_ | split

theorem startTile_keeps {o : State} (s : State) (t : ℕ) (entry : ℕ) (stepNo : ℕ) (seed : ℕ) (arg : ℕ) (rollout : Bool) (h : Keeps o s) : Keeps o (State.startTile s t entry stepNo seed arg rollout) := by
  unfold State.startTile
  repeat' first
      | with_reducible assumption | with_reducible intro _ | with_reducible apply issueSteep_keeps
      | with_reducible apply launchTile_keeps | with_reducible apply Keeps.ite | with_reducible refine KeepsOpt.map ?_ (fun s h => ?_)
      | with_reducible refine KeepsOpt.of (fun x => ?_) | simp only [Keeps.mk_iff] | split

end Sys2Proof.Machine
end

