-- ==== Sys2Proof/Laws/KeepsAttention.lean ====
section
/-!
SUPPORT. What no operation of Machine/Attention.lean does (Laws/Keeps.lean).
-/

set_option Elab.async false

namespace Sys2Proof.Machine

theorem walkEntries_keeps {o : State} (s : State) (t : ℕ) (slot : ℕ) (frets : List ℕ) (h : Keeps o s) : Keeps o (State.walkEntries s t slot frets) := by
  unfold State.walkEntries
  repeat' first
      | with_reducible assumption | with_reducible intro _ | with_reducible apply finc_keeps
      | with_reducible apply modTile_keeps | with_reducible apply Keeps.ite | with_reducible refine Keeps.foldl (fun s x h => ?_) _ ?_
      | simp only [Keeps.mk_iff] | split

theorem attFault_keeps {o : State} (s : State) (t : ℕ) (slot : ℕ) (reason : ℕ) (h : Keeps o s) : Keeps o (State.attFault s t slot reason) := by
  unfold State.attFault
  repeat' first
      | with_reducible assumption | with_reducible apply fset_keeps | with_reducible apply Keeps.ite
      | with_reducible apply KeepsFault.none | with_reducible apply KeepsFault.some | with_reducible apply KeepsFault.ite | split

theorem startAtt_keeps {o : State} (s : State) (t : ℕ) (f : Flight) (h : Keeps o s) : Keeps o (State.startAtt s t f) := by
  unfold State.startAtt
  repeat' first
      | with_reducible assumption | with_reducible intro _ | with_reducible apply modFlight_keeps
      | with_reducible apply modTile_keeps | with_reducible apply wordFails_keeps | with_reducible apply attFault_keeps
      | with_reducible apply spFault_keeps | with_reducible apply wordEff_keeps | with_reducible apply failAt_keeps
      | with_reducible apply addMove_keeps | with_reducible apply walkEntries_keeps | with_reducible apply Keeps.ite
      | with_reducible apply KeepsOpt.some | with_reducible apply KeepsOpt.none | with_reducible apply KeepsOpt.ite
      | with_reducible apply KeepsFault.none | with_reducible apply KeepsFault.some | with_reducible apply KeepsFault.ite
      | with_reducible refine KeepsFault.map (fun x => ?_) | with_reducible refine KeepsOpt.map ?_ (fun s h => ?_)
      | with_reducible refine KeepsOpt.of (fun x => ?_) | with_reducible apply KeepsOpt.getD | with_reducible apply Keeps.id
      | simp only [Keeps.mk_iff] | with_reducible refine Keeps.snd (by with_reducible assumption) ?_
      | with_reducible refine Keeps.fst (by with_reducible assumption) ?_
      | with_reducible refine KeepsOpt.get (by with_reducible assumption) ?_
      | with_reducible refine KeepsFault.get (by with_reducible assumption) ?_ | split

theorem startAtts_keeps {o : State} (a0 : ℕ) (a1 : State) (a2 : ℕ) (h : Keeps o a1) : Keeps o (State.startAtts a0 a1 a2) := by
  induction a0 generalizing a1 a2 with
  | zero =>
    unfold State.startAtts
    repeat' first
        | with_reducible assumption | with_reducible intro _ | with_reducible apply startAtt_keeps
        | with_reducible apply Keeps.ite | with_reducible apply KeepsOpt.some | with_reducible apply KeepsOpt.none
        | with_reducible apply KeepsOpt.ite | simp only [Keeps.mk_iff] | with_reducible refine Keeps.snd (by with_reducible assumption) ?_
        | with_reducible refine Keeps.fst (by with_reducible assumption) ?_
        | with_reducible refine KeepsOpt.get (by with_reducible assumption) ?_ | split
  | succ n ih =>
    unfold State.startAtts
    repeat' first
        | with_reducible assumption | with_reducible apply ih | with_reducible intro _ | with_reducible apply startAtt_keeps
        | with_reducible apply Keeps.ite | with_reducible apply KeepsOpt.some | with_reducible apply KeepsOpt.none
        | with_reducible apply KeepsOpt.ite | simp only [Keeps.mk_iff] | with_reducible refine Keeps.snd (by with_reducible assumption) ?_
        | with_reducible refine Keeps.fst (by with_reducible assumption) ?_
        | with_reducible refine KeepsOpt.get (by with_reducible assumption) ?_ | split

theorem landAtt_keeps {o : State} (s : State) (m : Move) (h : Keeps o s) : Keeps o (State.landAtt s m) := by
  unfold State.landAtt
  repeat' first
      | with_reducible assumption | with_reducible intro _ | with_reducible apply dropMove_keeps
      | with_reducible apply wordEff_keeps | with_reducible apply failAt_keeps | with_reducible apply mend_keeps
      | with_reducible apply landed_keeps | with_reducible apply putRanges_keeps | with_reducible apply finc_keeps
      | with_reducible apply completeWord_keeps | with_reducible apply startAtts_keeps | with_reducible apply moveEngine_keeps
      | with_reducible apply Keeps.ite | with_reducible apply KeepsOpt.some | with_reducible apply KeepsOpt.none
      | with_reducible apply KeepsOpt.ite | with_reducible apply KeepsFault.none | with_reducible apply KeepsFault.some
      | with_reducible apply KeepsFault.ite | with_reducible refine KeepsFault.map (fun x => ?_)
      | with_reducible refine KeepsOpt.map ?_ (fun s h => ?_) | with_reducible refine KeepsOpt.of (fun x => ?_)
      | with_reducible apply KeepsOpt.getD | with_reducible apply Keeps.id | simp only [Keeps.mk_iff]
      | with_reducible refine Keeps.snd (by with_reducible assumption) ?_
      | with_reducible refine Keeps.fst (by with_reducible assumption) ?_
      | with_reducible refine KeepsOpt.get (by with_reducible assumption) ?_
      | with_reducible refine KeepsFault.get (by with_reducible assumption) ?_ | split

theorem attWord_keeps {o : State} (s : State) (t : ℕ) (w : ℕ) (writes : Bool) (h : Keeps o s) : Keeps o (State.attWord s t w writes) := by
  unfold State.attWord
  repeat' first | with_reducible assumption | with_reducible apply startAtts_keeps | with_reducible apply enqueue_keeps

theorem execAttWalk_keeps {o : State} (t : ℕ) (s : State) (h : Keeps o s) : KeepsOut o (execAttWalk t s) := by
  unfold execAttWalk
  repeat' first
      | with_reducible assumption | with_reducible intro _ | with_reducible apply tileRow_keeps
      | with_reducible apply attWord_keeps | with_reducible apply KeepsFault.none | with_reducible apply KeepsFault.some
      | with_reducible apply KeepsOut.next

theorem execAttAppend_keeps {o : State} (t : ℕ) (s : State) (h : Keeps o s) : KeepsOut o (execAttAppend t s) := by
  unfold execAttAppend
  repeat' first
      | with_reducible assumption | with_reducible intro _ | with_reducible apply tileRow_keeps
      | with_reducible apply attWord_keeps | with_reducible apply KeepsFault.none | with_reducible apply KeepsFault.some
      | with_reducible apply KeepsOut.next

theorem execAttInfo_keeps {o : State} (t : ℕ) (s : State) (h : Keeps o s) : KeepsOut o (execAttInfo t s) := by
  unfold execAttInfo
  repeat' first
      | with_reducible assumption | with_reducible intro _ | with_reducible apply tileRow_keeps
      | with_reducible apply illegal_keeps | with_reducible apply attWord_keeps | with_reducible apply Keeps.ite
      | with_reducible apply KeepsFault.none | with_reducible apply KeepsFault.some | with_reducible apply KeepsFault.ite
      | with_reducible apply KeepsOut.next | split

end Sys2Proof.Machine
end

