-- ==== Sys2Proof/Laws/KeepsSequencer.lean ====
section
/-!
SUPPORT. What no operation of Machine/Sequencer.lean does (Laws/Keeps.lean).
-/

set_option Elab.async false

namespace Sys2Proof.Machine

theorem putToken_keeps {o : State} (s : State) (p : ℕ) (q : Seq) (i : ℕ) (tok : ℕ) (h : Keeps o s) : Keeps o (State.putToken s p q i tok) := by
  unfold State.putToken
  repeat' first
      | with_reducible assumption | with_reducible intro _ | with_reducible apply modBay_keeps
      | with_reducible apply hostWrite_keeps | with_reducible apply partWrite_keeps | with_reducible apply take_keeps
      | with_reducible apply Keeps.ite | with_reducible refine KeepsOpt.map ?_ (fun s h => ?_)
      | with_reducible refine KeepsOpt.of (fun x => ?_) | with_reducible apply Keeps.id
      | with_reducible refine Keeps.foldl (fun s x h => ?_) _ ?_ | simp only [Keeps.mk_iff]
      | with_reducible refine Keeps.snd (by with_reducible assumption) ?_
      | with_reducible refine Keeps.fst (by with_reducible assumption) ?_
      | with_reducible refine Keeps.third (by with_reducible assumption) ?_ | split

theorem captureTokens_keeps {o : State} (s : State) (p : ℕ) (es : List (LenEntry × Seq)) (h : Keeps o s) : Keeps o (State.captureTokens s p es) := by
  unfold State.captureTokens
  repeat' first
      | with_reducible assumption | with_reducible intro _ | with_reducible apply replayHost_keeps
      | with_reducible apply captureHost_keeps | with_reducible apply Keeps.ite | with_reducible refine Keeps.foldl (fun s x h => ?_) _ ?_
      | with_reducible refine Keeps.foldl1 (fun s x h => ?_) _ ?_ | with_reducible refine Keeps.foldl2 (fun s x h => ?_) _ ?_ | split

theorem boundary_keeps {o : State} (s : State) (p : ℕ) (b : ℕ) (k : State → State) (h : Keeps o s) (h1 : ∀ x0, Keeps o x0 → Keeps o (k x0)) : Keeps o (State.boundary s p b k) := by
  unfold State.boundary
  repeat' first
      | with_reducible assumption | with_reducible intro _ | with_reducible apply modPart_keeps
      | with_reducible apply capture_keeps | with_reducible apply h1 | with_reducible apply Keeps.ite | with_reducible apply KeepsOpt.some
      | with_reducible apply KeepsOpt.none | with_reducible apply KeepsOpt.ite | with_reducible refine KeepsOpt.map ?_ (fun s h => ?_)
      | with_reducible refine KeepsOpt.of (fun x => ?_) | with_reducible apply Keeps.id | simp only [Keeps.mk_iff]
      | with_reducible refine Keeps.snd (by with_reducible assumption) ?_
      | with_reducible refine Keeps.fst (by with_reducible assumption) ?_
      | with_reducible refine KeepsOpt.get (by with_reducible assumption) ?_ | split

theorem modSeq_keeps {o : State} (s : State) (b : ℕ) (id : ℕ) (f : Seq → Seq) (h : Keeps o s) : Keeps o (State.modSeq s b id f) := by
  unfold State.modSeq
  repeat' first
      | with_reducible assumption | with_reducible intro _ | with_reducible apply modBay_keeps | with_reducible apply Keeps.ite
      | with_reducible refine KeepsOpt.map ?_ (fun s h => ?_) | with_reducible refine KeepsOpt.of (fun x => ?_)
      | with_reducible apply Keeps.id | simp only [Keeps.mk_iff] | split

theorem writeTables_keeps {o : State} (s : State) (p : ℕ) (b : ℕ) (h : Keeps o s) : Keeps o (State.writeTables s p b) := by
  unfold State.writeTables
  repeat' first
      | with_reducible assumption | with_reducible intro _ | with_reducible apply writeTable_keeps
      | with_reducible refine Keeps.foldl (fun s x h => ?_) _ ?_

theorem takeIn_keeps {o : State} (a0 : ℕ) (a1 : State) (a2 : ℕ) (a3 : ℕ) (h : Keeps o a1) : Keeps o (State.takeIn a0 a1 a2 a3) := by
  induction a0 generalizing a1 a2 a3 with
  | zero =>
    unfold State.takeIn
    repeat' first
        | with_reducible assumption | with_reducible intro _ | with_reducible apply setBay_keeps
        | with_reducible apply writeTable_keeps | with_reducible apply setBay_keeps | with_reducible apply Keeps.ite
        | with_reducible apply KeepsOpt.some | with_reducible apply KeepsOpt.none | with_reducible apply KeepsOpt.ite
        | with_reducible apply Keeps.id | simp only [Keeps.mk_iff] | with_reducible refine Keeps.snd (by with_reducible assumption) ?_
        | with_reducible refine Keeps.fst (by with_reducible assumption) ?_
        | with_reducible refine KeepsOpt.get (by with_reducible assumption) ?_ | split
  | succ n ih =>
    unfold State.takeIn
    repeat' first
        | with_reducible assumption | with_reducible apply ih | with_reducible intro _ | with_reducible apply setBay_keeps
        | with_reducible apply writeTable_keeps | with_reducible apply setBay_keeps | with_reducible apply Keeps.ite
        | with_reducible apply KeepsOpt.some | with_reducible apply KeepsOpt.none | with_reducible apply KeepsOpt.ite
        | with_reducible apply Keeps.id | simp only [Keeps.mk_iff] | with_reducible refine Keeps.snd (by with_reducible assumption) ?_
        | with_reducible refine Keeps.fst (by with_reducible assumption) ?_
        | with_reducible refine KeepsOpt.get (by with_reducible assumption) ?_ | split

theorem applyEdit_keeps {o : State} (s : State) (p : ℕ) (b : ℕ) (e : ℕ × ℕ × ℕ × ℕ) (h : Keeps o s) : Keeps o (State.applyEdit s p b e) := by
  unfold State.applyEdit
  repeat' first
      | with_reducible assumption | with_reducible intro _ | with_reducible apply finish_keeps
      | with_reducible apply writeTable_keeps | with_reducible apply modSeq_keeps | with_reducible apply Keeps.ite
      | with_reducible apply KeepsEff.ok | with_reducible apply KeepsEff.bad | with_reducible apply KeepsEff.fail
      | with_reducible apply KeepsEff.ite | with_reducible apply KeepsOpt.some | with_reducible apply KeepsOpt.none
      | with_reducible apply KeepsOpt.ite | with_reducible apply Keeps.id | simp only [Keeps.mk_iff]
      | with_reducible refine Keeps.snd (by with_reducible assumption) ?_
      | with_reducible refine Keeps.fst (by with_reducible assumption) ?_
      | with_reducible refine KeepsOpt.get (by with_reducible assumption) ?_
      | with_reducible refine KeepsEff.get (by with_reducible assumption) ?_
      | with_reducible refine Keeps.third (by with_reducible assumption) ?_ | split

theorem applyEdits_keeps {o : State} (s : State) (p : ℕ) (b : ℕ) (h : Keeps o s) : Keeps o (State.applyEdits s p b) := by
  unfold State.applyEdits
  repeat' first
      | with_reducible assumption | with_reducible intro _ | with_reducible apply applyEdit_keeps
      | with_reducible apply modBay_keeps | with_reducible refine Keeps.foldl (fun s x h => ?_) _ ?_ | simp only [Keeps.mk_iff]

theorem chooseWork_keeps {o : State} (a0 : ℕ) (a1 : State) (a2 : ℕ) (a3 : ℕ) (h : Keeps o a1) : Keeps o (State.chooseWork a0 a1 a2 a3).1 := by
  induction a0 generalizing a1 a2 a3 with
  | zero =>
    unfold State.chooseWork
    repeat' first
        | with_reducible assumption | with_reducible intro _ | with_reducible apply finc_keeps
        | with_reducible apply batchRecord_keeps | with_reducible apply dropSeqs_keeps | with_reducible apply raise_keeps
        | with_reducible apply waits_keeps | with_reducible apply finc_keeps | with_reducible apply Keeps.ite
        | with_reducible apply KeepsOpt.some | with_reducible apply KeepsOpt.none | with_reducible apply KeepsOpt.ite
        | with_reducible apply Keeps.id | simp only [Keeps.mk_iff] | with_reducible refine Keeps.snd (by with_reducible assumption) ?_
        | with_reducible refine Keeps.fst (by with_reducible assumption) ?_
        | with_reducible refine KeepsOpt.get (by with_reducible assumption) ?_ | split | dsimp only
  | succ n ih =>
    unfold State.chooseWork
    repeat' first
        | with_reducible assumption | with_reducible apply ih | with_reducible intro _ | with_reducible apply finc_keeps
        | with_reducible apply batchRecord_keeps | with_reducible apply dropSeqs_keeps | with_reducible apply raise_keeps
        | with_reducible apply waits_keeps | with_reducible apply finc_keeps | with_reducible apply Keeps.ite
        | with_reducible apply KeepsOpt.some | with_reducible apply KeepsOpt.none | with_reducible apply KeepsOpt.ite
        | with_reducible apply Keeps.id | simp only [Keeps.mk_iff] | with_reducible refine Keeps.snd (by with_reducible assumption) ?_
        | with_reducible refine Keeps.fst (by with_reducible assumption) ?_
        | with_reducible refine KeepsOpt.get (by with_reducible assumption) ?_ | split | dsimp only

theorem seqShow_keeps {o : State} (s : State) (b : ℕ) (st : ℕ) (h : Keeps o s) : Keeps o (State.seqShow s b st) := by
  unfold State.seqShow
  repeat' first | with_reducible assumption | with_reducible apply fset_keeps

theorem launchStep_keeps {o : State} (s : State) (p : ℕ) (b : ℕ) (ch : Choice) (h : Keeps o s) : Keeps o (State.launchStep s p b ch) := by
  unfold State.launchStep
  repeat' first
      | with_reducible assumption | with_reducible intro _ | with_reducible apply finc_keeps | with_reducible apply modBay_keeps
      | with_reducible apply modPart_keeps | with_reducible apply writeTables_keeps | with_reducible apply seqShow_keeps
      | with_reducible apply raise_keeps | with_reducible apply captureTokens_keeps | with_reducible apply spWrite_keeps
      | with_reducible apply startTile_keeps | with_reducible apply waits_keeps | with_reducible apply nextSlot_keeps
      | with_reducible apply Keeps.ite | with_reducible apply KeepsOpt.some | with_reducible apply KeepsOpt.none
      | with_reducible apply KeepsOpt.ite | with_reducible refine KeepsOpt.map ?_ (fun s h => ?_)
      | with_reducible refine KeepsOpt.of (fun x => ?_) | with_reducible apply Keeps.id
      | with_reducible refine Keeps.foldl (fun s x h => ?_) _ ?_ | with_reducible refine Keeps.foldl1 (fun s x h => ?_) _ ?_
      | with_reducible refine Keeps.foldl2 (fun s x h => ?_) _ ?_ | simp only [Keeps.mk_iff]
      | with_reducible refine Keeps.snd (by with_reducible assumption) ?_
      | with_reducible refine Keeps.fst (by with_reducible assumption) ?_
      | with_reducible refine KeepsOpt.get (by with_reducible assumption) ?_ | split

theorem seqLaunch_keeps {o : State} (s : State) (p : ℕ) (b : ℕ) (h : Keeps o s) : Keeps o (State.seqLaunch s p b) := by
  unfold State.seqLaunch
  repeat' first
      | with_reducible assumption | with_reducible intro _ | with_reducible apply seqShow_keeps
      | with_reducible apply boundary_keeps | with_reducible apply takeIn_keeps | with_reducible apply chooseWork_keeps
      | with_reducible apply launchStep_keeps | with_reducible apply Keeps.ite
      | with_reducible refine Keeps.snd (by with_reducible assumption) ?_
      | with_reducible refine Keeps.fst (by with_reducible assumption) ?_
      | with_reducible refine Keeps.third (by with_reducible assumption) ?_ | split

theorem StepOut_deliver_keeps {o : State} (p b id maxCtx : Nat) : ∀ (l : List Given) (x : StepOut), Keeps o x.s →
    Keeps o (x.deliver p b id maxCtx l).s
  | [], _, h => h
  | (tok, drafted, logp) :: rest, x, h => by
    unfold StepOut.deliver
    split
    · exact h
    · extract_lets cause fl s1 s2 given e x'
      have h1 : Keeps o s1 := finc_keeps (putToken_keeps _ _ _ _ _ h) _ _ _
      have h2 : Keeps o s2 := modSeq_keeps _ _ _ _ h1
      have hx : Keeps o x'.s := h2
      clear_value x'
      split
      · exact StepOut_deliver_keeps p b id maxCtx rest x' hx
      · exact hx

theorem StepOut_entry_keeps {o : State} (p b : Nat) (e : LenEntry) (x : StepOut) (h : Keeps o x.s) : Keeps o (x.entry p b e).s := by
  unfold StepOut.entry
  repeat' first
      | with_reducible assumption | with_reducible apply StepOut_deliver_keeps | with_reducible apply modSeq_keeps
      | with_reducible apply modBay_keeps | with_reducible apply finc_keeps | simp only [Keeps.mk_iff] | split

theorem StepOut_close_keeps {o : State} (x : StepOut) (q : Seq) (reason : Nat) (h : Keeps o x.s) : Keeps o (x.close q reason).s := by
  unfold StepOut.close
  dsimp only
  split
  · exact h
  · split <;> exact h

theorem StepOut_foldl_keeps {α : Type} {o : State} {f : StepOut → α → StepOut} (hf : ∀ x y, Keeps o x.s → Keeps o (f x y).s) :
    ∀ (l : List α) {x : StepOut}, Keeps o x.s → Keeps o (l.foldl f x).s
  | [], _, h => h
  | y :: l, _, h => StepOut_foldl_keeps hf l (hf _ y h)

theorem stepOutcome_keeps {o : State} (s : State) (p b : Nat) (h : Keeps o s) : Keeps o (s.stepOutcome p b).1.s := by
  unfold State.stepOutcome
  extract_lets x fault failed s1 o1 o2 o3
  clear_value fault failed
  have h1 : Keeps o s1 := by
    unfold s1
    split
    · exact raise_keeps _ _ _ _ _ h
    · exact h
  have ho1 : Keeps o o1.s := h1
  clear_value s1 o1
  have ho2 : Keeps o o2.s := by
    unfold o2
    split
    · exact StepOut_foldl_keeps (fun x y h => StepOut_close_keeps x y _ h) _ ho1
    · exact StepOut_foldl_keeps (fun x y h => StepOut_entry_keeps _ _ _ _ h) _ ho1
  clear_value o2
  refine StepOut_foldl_keeps (fun x y h => ?_) _ ho2
  dsimp only
  split
  · exact finish_keeps _ _ _ _ _ h
  · split
    · exact finish_keeps _ _ _ _ _ (StepOut_close_keeps _ _ _ h)
    · exact finish_keeps _ _ _ _ _ h

theorem StepOut_tellGroups_keeps {o : State} (x : StepOut) (p b : Nat) (h : Keeps o x.s) : Keeps o (x.tellGroups p b) := by
  unfold StepOut.tellGroups
  refine Keeps.foldl (fun s q h => ?_) _ h
  split
  · exact h
  · exact Keeps.foldl (fun s r h => Keeps.ite h (send_keeps _ _ _ h)) _ h

theorem endStep_keeps {o : State} (s : State) (p b : Nat) (pause : Bool) (h : Keeps o s) : Keeps o (s.endStep p b pause) := by
  unfold State.endStep
  split
  rename_i x failed e
  have hx : Keeps o x.s := by have := stepOutcome_keeps s p b h; rw [e] at this; exact this
  extract_lets x1 s1 own marks s2 s3 s4
  have h1 : Keeps o x1.s := by
    unfold x1
    split
    · exact StepOut_foldl_keeps (fun x y h => StepOut_close_keeps x y _ h) _ hx
    · exact hx
  clear_value x1
  have h2 : Keeps o s1 := StepOut_tellGroups_keeps _ _ _ h1
  have h3 : Keeps o s2 := batchRecord_keeps _ _ _ _ _ h2
  have h4 : Keeps o s3 := dropSeqs_keeps _ _ _ h3
  have h5 : Keeps o s4 := modBay_keeps h4 _ _
  exact seqRest_keeps _ _ (writeTables_keeps _ _ _ h5)

theorem cancelNow_keeps {o : State} (s : State) (p b : Nat) (q : Seq) (h : Keeps o s) : Keeps o (s.cancelNow p b q) := by
  unfold State.cancelNow
  exact dropSeqs_keeps _ _ _ (batchRecord_keeps _ _ _ _ _ (StepOut_tellGroups_keeps _ _ _ h))

theorem liftBay_keeps {o : State} (s : State) (p : ℕ) (b : ℕ) (swapped : Bool) (recompute : Bool) (h : Keeps o s) : Keeps o (State.liftBay s p b swapped recompute) := by
  unfold State.liftBay
  repeat' first
      | with_reducible assumption | with_reducible intro _ | with_reducible apply fset_keeps | with_reducible apply modBay_keeps | with_reducible apply free1_keeps
      | with_reducible apply seqRest_keeps | with_reducible apply writeTables_keeps | with_reducible apply Keeps.ite
      | with_reducible refine KeepsOpt.map ?_ (fun s h => ?_) | with_reducible refine KeepsOpt.of (fun x => ?_) | simp only [Keeps.mk_iff]
      | split

theorem liftBarrier_keeps {o : State} (s : State) (p : ℕ) (swapped : Bool) (recompute : Bool) (h : Keeps o s) : Keeps o (State.liftBarrier s p swapped recompute) := by
  unfold State.liftBarrier
  repeat' first
      | with_reducible assumption | with_reducible intro _ | with_reducible apply liftBay_keeps
      | with_reducible refine Keeps.foldl (fun s x h => ?_) _ ?_

theorem shutBay_keeps {o : State} (s : State) (b : ℕ) (h : Keeps o s) : Keeps o (State.shutBay s b) := by
  unfold State.shutBay
  repeat' first
      | with_reducible assumption | with_reducible intro _ | with_reducible apply seqRest_keeps
      | with_reducible apply modBay_keeps | with_reducible apply fset_keeps | simp only [Keeps.mk_iff]

theorem nameClose_keeps {o : State} (s : State) (p : ℕ) (b : ℕ) (h : Keeps o s) : Keeps o (State.nameClose s p b) := by
  unfold State.nameClose
  repeat' first
      | with_reducible assumption | with_reducible intro _ | with_reducible apply modBay_keeps | with_reducible apply send_keeps
      | with_reducible apply Keeps.ite | with_reducible apply KeepsOpt.some | with_reducible apply KeepsOpt.none
      | with_reducible apply KeepsOpt.ite | with_reducible apply Keeps.id | with_reducible refine Keeps.foldl (fun s x h => ?_) _ ?_
      | simp only [Keeps.mk_iff] | with_reducible refine Keeps.snd (by with_reducible assumption) ?_
      | with_reducible refine Keeps.fst (by with_reducible assumption) ?_
      | with_reducible refine KeepsOpt.get (by with_reducible assumption) ?_ | split

theorem dueClose_keeps {o : State} (s : State) (p : ℕ) (b : ℕ) (pause : Bool) (h : Keeps o s) : Keeps o (State.dueClose s p b pause) := by
  unfold State.dueClose
  repeat' first
      | with_reducible assumption | with_reducible intro _ | with_reducible apply seqShow_keeps
      | with_reducible apply modBay_keeps | with_reducible apply nameClose_keeps | with_reducible apply Keeps.ite
      | simp only [Keeps.mk_iff] | split

theorem closeBay_keeps {o : State} (s : State) (p : ℕ) (b : ℕ) (h : Keeps o s) : Keeps o (State.closeBay s p b) := by
  unfold State.closeBay
  repeat' first
      | with_reducible assumption | with_reducible intro _ | with_reducible apply endAllSeqs_keeps
      | with_reducible apply shutBay_keeps | with_reducible apply Keeps.ite | with_reducible apply KeepsOpt.some
      | with_reducible apply KeepsOpt.none | with_reducible apply KeepsOpt.ite | with_reducible refine Keeps.foldl (fun s x h => ?_) _ ?_
      | simp only [Keeps.mk_iff] | with_reducible refine Keeps.snd (by with_reducible assumption) ?_
      | with_reducible refine Keeps.fst (by with_reducible assumption) ?_
      | with_reducible refine KeepsOpt.get (by with_reducible assumption) ?_ | split

end Sys2Proof.Machine
end

