-- ==== Sys2Proof/Laws/KeepsRollout.lean ====
section
/-!
SUPPORT. What no operation of Machine/Rollout.lean does (Laws/Keeps.lean).
-/

set_option Elab.async false

namespace Sys2Proof.Machine

theorem submit_keeps {o : State} (c : Cmd) (p : ℕ) (b : ℕ) (a3 : ℕ) (a4 : State) (a5 : ℕ) (h : Keeps o a4) : Keeps o (State.submit c p b a3 a4 a5).1 := by
  induction a3 generalizing c p b a4 a5 with
  | zero =>
    unfold State.submit
    repeat' first
        | with_reducible assumption | with_reducible intro _ | with_reducible apply modBay_keeps
        | with_reducible apply tagFailed_keeps | with_reducible apply hostPart_keeps | with_reducible apply segmentFailed_keeps
        | with_reducible apply modBay_keeps | with_reducible apply Keeps.ite | with_reducible apply KeepsEff.ok
        | with_reducible apply KeepsEff.bad | with_reducible apply KeepsEff.fail | with_reducible apply KeepsEff.ite
        | with_reducible apply Keeps.id | simp only [Keeps.mk_iff] | with_reducible refine Keeps.snd (by with_reducible assumption) ?_
        | with_reducible refine Keeps.fst (by with_reducible assumption) ?_
        | with_reducible refine KeepsEff.get (by with_reducible assumption) ?_
        | with_reducible refine Keeps.third (by with_reducible assumption) ?_ | split | dsimp only
  | succ n ih =>
    unfold State.submit
    repeat' first
        | with_reducible assumption | with_reducible apply ih | with_reducible intro _ | with_reducible apply modBay_keeps
        | with_reducible apply tagFailed_keeps | with_reducible apply hostPart_keeps | with_reducible apply segmentFailed_keeps
        | with_reducible apply modBay_keeps | with_reducible apply Keeps.ite | with_reducible apply KeepsEff.ok
        | with_reducible apply KeepsEff.bad | with_reducible apply KeepsEff.fail | with_reducible apply KeepsEff.ite
        | with_reducible apply Keeps.id | simp only [Keeps.mk_iff] | with_reducible refine Keeps.snd (by with_reducible assumption) ?_
        | with_reducible refine Keeps.fst (by with_reducible assumption) ?_
        | with_reducible refine KeepsEff.get (by with_reducible assumption) ?_
        | with_reducible refine Keeps.third (by with_reducible assumption) ?_ | split | dsimp only

theorem runSubmit_keeps {o : State} (s : State) (c : Cmd) (h : Keeps o s) : Keeps o (State.runSubmit s c) := by
  unfold State.runSubmit
  repeat' first
      | with_reducible assumption | with_reducible apply submit_keeps | with_reducible apply complete_keeps
      | with_reducible refine Keeps.snd (by with_reducible assumption) ?_
      | with_reducible refine Keeps.fst (by with_reducible assumption) ?_
      | with_reducible refine Keeps.third (by with_reducible assumption) ?_ | split

theorem execSeqSubmit_keeps {o : State} (fn : ℕ) (ring : ℕ) (s : State) (h : Keeps o s) : KeepsOut o (execSeqSubmit fn ring s) := by
  unfold execSeqSubmit
  repeat' first
      | with_reducible assumption | with_reducible intro _ | with_reducible apply hostCmd_keeps
      | with_reducible apply runSubmit_keeps | with_reducible apply Keeps.ite | with_reducible apply KeepsEff.ok
      | with_reducible apply KeepsEff.bad | with_reducible apply KeepsEff.fail | with_reducible apply KeepsEff.ite
      | with_reducible apply KeepsFault.none | with_reducible apply KeepsFault.some | with_reducible apply KeepsFault.ite
      | with_reducible apply KeepsOut.next | split

theorem runCancel_keeps {o : State} (s : State) (c : Cmd) (h : Keeps o s) : Keeps o (State.runCancel s c) := by
  unfold State.runCancel
  repeat' first
      | with_reducible assumption | with_reducible intro _ | with_reducible apply complete_keeps
      | with_reducible apply modBay_keeps | with_reducible apply cancelNow_keeps | with_reducible apply Keeps.ite
      | with_reducible apply KeepsEff.ok | with_reducible apply KeepsEff.bad | with_reducible apply KeepsEff.fail
      | with_reducible apply KeepsEff.ite | with_reducible apply KeepsOpt.some | with_reducible apply KeepsOpt.none
      | with_reducible apply KeepsOpt.ite | with_reducible apply Keeps.id | simp only [Keeps.mk_iff]
      | with_reducible refine Keeps.snd (by with_reducible assumption) ?_
      | with_reducible refine Keeps.fst (by with_reducible assumption) ?_
      | with_reducible refine KeepsOpt.get (by with_reducible assumption) ?_
      | with_reducible refine KeepsEff.get (by with_reducible assumption) ?_ | split

theorem execSeqCancel_keeps {o : State} (fn : ℕ) (ring : ℕ) (s : State) (h : Keeps o s) : KeepsOut o (execSeqCancel fn ring s) := by
  unfold execSeqCancel
  repeat' first
      | with_reducible assumption | with_reducible intro _ | with_reducible apply hostCmd_keeps
      | with_reducible apply runCancel_keeps | with_reducible apply KeepsFault.none | with_reducible apply KeepsFault.some
      | with_reducible apply KeepsOut.next

theorem runEdit_keeps {o : State} (s : State) (c : Cmd) (h : Keeps o s) : Keeps o (State.runEdit s c) := by
  unfold State.runEdit
  repeat' first
      | with_reducible assumption | with_reducible intro _ | with_reducible apply complete_keeps
      | with_reducible apply applyEdit_keeps | with_reducible apply modBay_keeps | with_reducible apply Keeps.ite
      | with_reducible apply KeepsOpt.some | with_reducible apply KeepsOpt.none | with_reducible apply KeepsOpt.ite
      | with_reducible apply Keeps.id | simp only [Keeps.mk_iff] | with_reducible refine Keeps.snd (by with_reducible assumption) ?_
      | with_reducible refine Keeps.fst (by with_reducible assumption) ?_
      | with_reducible refine KeepsOpt.get (by with_reducible assumption) ?_ | split

theorem execKvEdit_keeps {o : State} (fn : ℕ) (ring : ℕ) (s : State) (h : Keeps o s) : KeepsOut o (execKvEdit fn ring s) := by
  unfold execKvEdit
  repeat' first
      | with_reducible assumption | with_reducible intro _ | with_reducible apply hostCmd_keeps
      | with_reducible apply runEdit_keeps | with_reducible apply KeepsFault.none | with_reducible apply KeepsFault.some
      | with_reducible apply KeepsOut.next

theorem holdClose_keeps {o : State} (s : State) (b : ℕ) (rank : ℕ) (v : ℕ) (h : Keeps o s) : Keeps o (State.holdClose s b rank v) := by
  unfold State.holdClose
  repeat' first
      | with_reducible assumption | with_reducible intro _ | with_reducible apply modBay_keeps
      | with_reducible refine KeepsOpt.map ?_ (fun s h => ?_) | with_reducible refine KeepsOpt.of (fun x => ?_)
      | with_reducible apply KeepsOpt.getD | simp only [Keeps.mk_iff]

theorem execCloseValueMessage_keeps {o : State} (p : ℕ) (m : Msg) (s : State) (h : Keeps o s) : KeepsOut o (execCloseValueMessage p m s) := by
  unfold execCloseValueMessage
  repeat' first
      | with_reducible assumption | with_reducible intro _ | with_reducible apply onMsg_keeps
      | with_reducible apply holdClose_keeps | with_reducible apply dueClose_keeps | with_reducible apply Keeps.ite
      | with_reducible apply KeepsFault.none | with_reducible apply KeepsFault.some | with_reducible apply KeepsFault.ite
      | with_reducible apply KeepsOpt.getD | with_reducible apply KeepsOut.next | with_reducible refine Keeps.foldl (fun s x h => ?_) _ ?_
      | split

theorem takeGroup_keeps {o : State} (s : State) (p : ℕ) (b : ℕ) (m : Msg) (h : Keeps o s) : Keeps o (State.takeGroup s p b m) := by
  unfold State.takeGroup
  repeat' first
      | with_reducible assumption | with_reducible intro _ | with_reducible apply modBay_keeps
      | with_reducible apply dropSeqs_keeps | with_reducible apply modSeq_keeps | with_reducible apply Keeps.ite
      | with_reducible refine KeepsOpt.map ?_ (fun s h => ?_) | with_reducible refine KeepsOpt.of (fun x => ?_)
      | with_reducible apply KeepsOpt.getD | with_reducible apply Keeps.id | simp only [Keeps.mk_iff] | split

theorem execSequenceGroupMessage_keeps {o : State} (p : ℕ) (m : Msg) (s : State) (h : Keeps o s) : KeepsOut o (execSequenceGroupMessage p m s) := by
  unfold execSequenceGroupMessage
  repeat' first
      | with_reducible assumption | with_reducible intro _ | with_reducible apply onMsg_keeps
      | with_reducible apply modPart_keeps | with_reducible apply takeGroup_keeps | with_reducible apply Keeps.ite
      | with_reducible apply KeepsOpt.some | with_reducible apply KeepsOpt.none | with_reducible apply KeepsOpt.ite
      | with_reducible apply KeepsFault.none | with_reducible apply KeepsFault.some | with_reducible apply KeepsFault.ite
      | with_reducible apply KeepsOut.next | simp only [Keeps.mk_iff] | with_reducible refine Keeps.snd (by with_reducible assumption) ?_
      | with_reducible refine Keeps.fst (by with_reducible assumption) ?_
      | with_reducible refine KeepsOpt.get (by with_reducible assumption) ?_
      | with_reducible refine KeepsFault.get (by with_reducible assumption) ?_ | split

theorem lateGroups_keeps {o : State} (s : State) (p : ℕ) (b : ℕ) (h : Keeps o s) : Keeps o (State.lateGroups s p b) := by
  unfold State.lateGroups
  repeat' first
      | with_reducible assumption | with_reducible intro _ | with_reducible apply takeGroup_keeps
      | with_reducible apply modPart_keeps | with_reducible apply KeepsOpt.some | with_reducible apply KeepsOpt.none
      | with_reducible refine Keeps.foldl (fun s x h => ?_) _ ?_ | simp only [Keeps.mk_iff]

end Sys2Proof.Machine
end

