-- ==== Sys2Proof/Laws/KeepsCollective.lean ====
section
/-!
SUPPORT. What no operation of Machine/Collective.lean does (Laws/Keeps.lean).
-/

set_option Elab.async false

namespace Sys2Proof.Machine

theorem toRankFrom_keeps {o : State} (s : State) (p : ℕ) (b : ℕ) (k : Comm) (rank : ℕ) (m : Msg) (h : Keeps o s) : Keeps o (State.toRankFrom s p b k rank m) := by
  unfold State.toRankFrom
  repeat' first
      | with_reducible assumption | with_reducible apply sendFrom_keeps | with_reducible apply Keeps.ite
      | with_reducible apply KeepsEff.ok | with_reducible apply KeepsEff.bad | with_reducible apply KeepsEff.fail
      | with_reducible apply KeepsEff.ite | with_reducible apply KeepsOpt.getD | with_reducible apply Keeps.id | simp only [Keeps.mk_iff]
      | split

theorem toRank_keeps {o : State} (s : State) (p : ℕ) (k : Comm) (rank : ℕ) (m : Msg) (h : Keeps o s) : Keeps o (State.toRank s p k rank m) := by
  unfold State.toRank
  repeat' first | with_reducible assumption | with_reducible apply toRankFrom_keeps

theorem collective_keeps {o : State} (s : State) (p : ℕ) (m : Msg) (vc : ℕ) (ty : ℕ) (k : State → State) (h : Keeps o s) (h1 : ∀ x0, Keeps o x0 → Keeps o (k x0)) : Keeps o (State.collective s p m vc ty k) := by
  unfold State.collective
  repeat' first | with_reducible assumption | with_reducible apply onMsg_keeps | with_reducible apply h1

theorem modColl_keeps {o : State} (s : State) (p : ℕ) (id : ℕ) (f : Coll → Coll) (h : Keeps o s) : Keeps o (State.modColl s p id f) := by
  unfold State.modColl
  repeat' first
      | with_reducible assumption | with_reducible intro _ | with_reducible apply modPart_keeps | with_reducible apply Keeps.ite
      | with_reducible refine KeepsOpt.map ?_ (fun s h => ?_) | with_reducible refine KeepsOpt.of (fun x => ?_)
      | with_reducible apply Keeps.id | simp only [Keeps.mk_iff] | split

theorem toColl_keeps {o : State} (s : State) (p : ℕ) (m : Msg) (k : State → Coll → State) (h : Keeps o s) (h1 : ∀ x0 x1, Keeps o x0 → Keeps o (k x0 x1)) : Keeps o (State.toColl s p m k) := by
  unfold State.toColl
  repeat' first
      | with_reducible assumption | with_reducible intro _ | with_reducible apply modPart_keeps | with_reducible apply h1
      | with_reducible apply Keeps.ite | with_reducible apply KeepsOpt.some | with_reducible apply KeepsOpt.none
      | with_reducible apply KeepsOpt.ite | simp only [Keeps.mk_iff] | with_reducible refine Keeps.snd (by with_reducible assumption) ?_
      | with_reducible refine Keeps.fst (by with_reducible assumption) ?_
      | with_reducible refine KeepsOpt.get (by with_reducible assumption) ?_ | split

theorem openColl_keeps {o : State} (s : State) (p : ℕ) (c : Coll) (h : Keeps o s) : Keeps o (State.openColl s p c).2 := by
  unfold State.openColl
  repeat' first
      | with_reducible assumption | with_reducible intro _ | with_reducible apply modPart_keeps
      | with_reducible apply modBay_keeps | with_reducible apply Keeps.ite | with_reducible refine KeepsOpt.map ?_ (fun s h => ?_)
      | with_reducible refine KeepsOpt.of (fun x => ?_) | with_reducible apply Keeps.id | simp only [Keeps.mk_iff] | split | dsimp only

theorem closeColl_keeps {o : State} (s : State) (p : ℕ) (c : Coll) (h : Keeps o s) : Keeps o (State.closeColl s p c) := by
  unfold State.closeColl
  repeat' first
      | with_reducible assumption | with_reducible intro _ | with_reducible apply modPart_keeps
      | with_reducible apply completeWord_keeps | with_reducible apply KeepsOpt.some | with_reducible apply KeepsOpt.none
      | with_reducible apply Keeps.id | with_reducible refine Keeps.foldl (fun s x h => ?_) _ ?_ | simp only [Keeps.mk_iff]
      | with_reducible refine Keeps.snd (by with_reducible assumption) ?_
      | with_reducible refine Keeps.fst (by with_reducible assumption) ?_
      | with_reducible refine KeepsOpt.get (by with_reducible assumption) ?_ | split

theorem breakColl_keeps {o : State} (s : State) (p : ℕ) (c : Coll) (e : Eff) (h : Keeps o s) : Keeps o (State.breakColl s p c e) := by
  unfold State.breakColl
  repeat' first
      | with_reducible assumption | with_reducible intro _ | with_reducible apply modPart_keeps
      | with_reducible apply failWords_keeps | with_reducible apply wordFails_keeps | with_reducible apply KeepsEff.ok
      | with_reducible apply KeepsEff.bad | with_reducible apply KeepsEff.fail | with_reducible apply KeepsOpt.some
      | with_reducible apply KeepsOpt.none | with_reducible apply Keeps.id | exact KeepsEff.get rfl (by with_reducible assumption)
      | exact KeepsOpt.get rfl (by with_reducible assumption) | with_reducible refine Keeps.foldl (fun s x h => ?_) _ ?_
      | with_reducible refine KeepsEff.foldl (fun s x h => ?_) _ ?_ | simp only [Keeps.mk_iff]
      | with_reducible refine Keeps.snd (by with_reducible assumption) ?_
      | with_reducible refine Keeps.fst (by with_reducible assumption) ?_
      | with_reducible refine KeepsOpt.get (by with_reducible assumption) ?_ | split

theorem arriveFault_keeps {o : State} (s : State) (p : ℕ) (t : ℕ) (a : ℕ) (len : ℕ) (h : Keeps o s) : KeepsFault o (State.arriveFault s p t a len) := by
  unfold State.arriveFault
  repeat' first
      | with_reducible assumption | with_reducible apply failAt_keeps | with_reducible apply Keeps.ite
      | with_reducible apply KeepsEff.ok | with_reducible apply KeepsEff.bad | with_reducible apply KeepsEff.fail
      | with_reducible apply KeepsEff.ite | with_reducible apply KeepsOpt.some | with_reducible apply KeepsOpt.none
      | with_reducible apply KeepsOpt.ite | with_reducible apply KeepsFault.none | with_reducible apply KeepsFault.some
      | with_reducible apply KeepsFault.ite | with_reducible refine KeepsFault.map (fun x => ?_)
      | with_reducible refine KeepsOpt.map ?_ (fun s h => ?_) | with_reducible refine KeepsOpt.of (fun x => ?_) | split

theorem arriveFaults_keeps {o : State} (s : State) (p : ℕ) (t : ℕ) (a3 : List (ℕ × ℕ)) (h : Keeps o s) : KeepsFault o (State.arriveFaults s p t a3) := by
  induction a3 generalizing s p t with
  | nil =>
    unfold State.arriveFaults
    repeat' first
        | with_reducible assumption | with_reducible apply arriveFault_keeps | with_reducible apply KeepsOpt.some
        | with_reducible apply KeepsOpt.none | with_reducible apply KeepsFault.none | with_reducible apply KeepsFault.some
        | simp only [Keeps.mk_iff] | with_reducible refine Keeps.snd (by with_reducible assumption) ?_
        | with_reducible refine Keeps.fst (by with_reducible assumption) ?_
        | with_reducible refine KeepsOpt.get (by with_reducible assumption) ?_
        | with_reducible refine KeepsFault.get (by with_reducible assumption) ?_ | split
  | cons x l ih =>
    unfold State.arriveFaults
    repeat' first
        | with_reducible assumption | with_reducible apply ih | with_reducible apply arriveFault_keeps
        | with_reducible apply KeepsOpt.some | with_reducible apply KeepsOpt.none | with_reducible apply KeepsFault.none
        | with_reducible apply KeepsFault.some | simp only [Keeps.mk_iff]
        | with_reducible refine Keeps.snd (by with_reducible assumption) ?_
        | with_reducible refine Keeps.fst (by with_reducible assumption) ?_
        | with_reducible refine KeepsOpt.get (by with_reducible assumption) ?_
        | with_reducible refine KeepsFault.get (by with_reducible assumption) ?_ | split

end Sys2Proof.Machine
end

