-- ==== Sys2Proof/Laws/KeepsReduce.lean ====
section
/-!
SUPPORT. What no operation of Machine/Reduce.lean does (Laws/Keeps.lean).
-/

set_option Elab.async false

namespace Sys2Proof.Machine

theorem treeStep_keeps {o : State} (s : State) (pair : Bool) (l : List (Nat × List (Nat × Nat))) (h : Keeps o s) :
    Keeps o (s.treeStep pair l).1 := by
  fun_induction State.treeStep s pair l with
  | case1 s t xs u ys rest rs fl s1 s2 more e ih =>
    have := ih (flagGrad_keeps _ _ _ _ (flagBank_keeps _ _ _ h))
    rw [e] at this
    exact this
  | case2 s l _ => exact h

theorem treeSum_keeps {o : State} (pair : Bool) (a1 : ℕ) (a2 : State) (a3 : List (ℕ × List (ℕ × ℕ))) (h : Keeps o a2) : Keeps o (State.treeSum pair a1 a2 a3).1 := by
  induction a1 generalizing pair a2 a3 with
  | zero =>
    unfold State.treeSum
    repeat' first
        | with_reducible assumption | with_reducible apply treeStep_keeps
        | with_reducible refine Keeps.snd (by with_reducible assumption) ?_
        | with_reducible refine Keeps.fst (by with_reducible assumption) ?_
        | with_reducible refine Keeps.third (by with_reducible assumption) ?_ | split | dsimp only
  | succ n ih =>
    unfold State.treeSum
    repeat' first
        | with_reducible assumption | with_reducible apply ih | with_reducible apply treeStep_keeps
        | with_reducible refine Keeps.snd (by with_reducible assumption) ?_
        | with_reducible refine Keeps.fst (by with_reducible assumption) ?_
        | with_reducible refine Keeps.third (by with_reducible assumption) ?_ | split | dsimp only

theorem redSource_keeps {o : State} (s : State) (p : ℕ) (tensor : ℕ) (src : ℕ) (count : ℕ) (units : ℕ) (size : ℕ) (fmt : ℕ) (thin : Bool) (h : Keeps o s) : Keeps o (State.redSource s p tensor src count units size fmt thin).1 := by
  unfold State.redSource
  repeat' first
      | with_reducible assumption | with_reducible intro _ | with_reducible apply treeSum_keeps
      | with_reducible apply flagGrad_keeps | with_reducible apply flagBank_keeps | with_reducible apply Keeps.ite
      | with_reducible refine KeepsOpt.map ?_ (fun s h => ?_) | with_reducible refine KeepsOpt.of (fun x => ?_)
      | with_reducible apply KeepsOpt.getD | with_reducible refine Keeps.foldl (fun s x h => ?_) _ ?_
      | with_reducible refine Keeps.foldl1 (fun s x h => ?_) _ ?_ | with_reducible refine Keeps.foldl2 (fun s x h => ?_) _ ?_
      | with_reducible refine Keeps.snd (by with_reducible assumption) ?_
      | with_reducible refine Keeps.fst (by with_reducible assumption) ?_
      | with_reducible refine Keeps.third (by with_reducible assumption) ?_ | split | dsimp only

theorem redFlags_keeps {o : State} (s : State) (r : RedInfo) (fl : ℕ) (h : Keeps o s) : Keeps o (State.redFlags s r fl) := by
  unfold State.redFlags
  repeat' first | with_reducible assumption | with_reducible apply flagGrad_keeps | with_reducible apply flagBank_keeps

theorem sendSegment_keeps {o : State} (s : State) (p : ℕ) (k : Comm) (c : Coll) (key : ℕ) (rank : ℕ) (bs : List Byte) (h : Keeps o s) : Keeps o (State.sendSegment s p k c key rank bs) := by
  unfold State.sendSegment
  repeat' first | with_reducible assumption | with_reducible apply toRankFrom_keeps

theorem readySegment_keeps {o : State} (s : State) (p : ℕ) (k : Comm) (c : Coll) (key : ℕ) (rank : ℕ) (bs : List Byte) (h : Keeps o s) : Keeps o (State.readySegment s p k c key rank bs).1 := by
  unfold State.readySegment
  repeat' first
      | with_reducible assumption | with_reducible apply sendSegment_keeps | with_reducible apply Keeps.ite
      | simp only [Keeps.mk_iff] | split | dsimp only

theorem finishSegment_keeps {o : State} (s : State) (p : Nat) (r : RedInfo) (c : Coll) (key : Nat) (sums : List Nat)
    (h : Keeps o s) : Keeps o (s.finishSegment p r c key sums).1 := by
  unfold State.finishSegment
  extract_lets d sq cs fl bs a
  clear_value sq cs fl bs a
  split
  · exact h
  · rename_i s1 c1 ps t n at_ _ _
    have h1 : Keeps o s1 := by
      with_reducible exact partPut_keeps _ _ _ _ _ (redFlags_keeps _ _ _ (flagBank_keeps _ _ _ h))
    by_cases hc : (d.ownerSsq && decide (c1.ssq.length = r.segs c1 r.k.myRank)) = true
    · rw [if_pos hc]
      generalize s1.arriveFault p c1.tile at_ 8 = q
      cases q with
      | some e => exact h1
      | none => with_reducible exact partPut_keeps _ _ _ _ _ (flagBank_keeps _ _ _ h1)
    · rw [if_neg hc]
      exact h1

theorem addRanks_keeps {o : State} (p : ℕ) (r : RedInfo) (key : ℕ) (a3 : ℕ) (a4 : State) (a5 : Coll) (h : Keeps o a4) : Keeps o (State.addRanks p r key a3 a4 a5).1 := by
  induction a3 generalizing p r key a4 a5 with
  | zero =>
    unfold State.addRanks
    repeat' first
        | with_reducible assumption | with_reducible intro _ | with_reducible apply finc_keeps
        | with_reducible apply redFlags_keeps | with_reducible apply finishSegment_keeps | with_reducible apply finc_keeps
        | with_reducible apply Keeps.ite | with_reducible apply KeepsOpt.some | with_reducible apply KeepsOpt.none
        | with_reducible apply KeepsOpt.ite | with_reducible refine KeepsOpt.map ?_ (fun s h => ?_)
        | with_reducible refine KeepsOpt.of (fun x => ?_) | simp only [Keeps.mk_iff]
        | with_reducible refine Keeps.snd (by with_reducible assumption) ?_
        | with_reducible refine Keeps.fst (by with_reducible assumption) ?_
        | with_reducible refine KeepsOpt.get (by with_reducible assumption) ?_
        | with_reducible refine Keeps.third (by with_reducible assumption) ?_ | split | dsimp only
  | succ n ih =>
    unfold State.addRanks
    repeat' first
        | with_reducible assumption | with_reducible apply ih | with_reducible intro _ | with_reducible apply finc_keeps
        | with_reducible apply redFlags_keeps | with_reducible apply finishSegment_keeps | with_reducible apply finc_keeps
        | with_reducible apply Keeps.ite | with_reducible apply KeepsOpt.some | with_reducible apply KeepsOpt.none
        | with_reducible apply KeepsOpt.ite | with_reducible refine KeepsOpt.map ?_ (fun s h => ?_)
        | with_reducible refine KeepsOpt.of (fun x => ?_) | simp only [Keeps.mk_iff]
        | with_reducible refine Keeps.snd (by with_reducible assumption) ?_
        | with_reducible refine Keeps.fst (by with_reducible assumption) ?_
        | with_reducible refine KeepsOpt.get (by with_reducible assumption) ?_
        | with_reducible refine Keeps.third (by with_reducible assumption) ?_ | split | dsimp only

theorem ringOn_keeps {o : State} (s : State) (p : ℕ) (r : RedInfo) (c : Coll) (key : ℕ) (partial_ : List ℕ) (h : Keeps o s) : Keeps o (State.ringOn s p r c key partial_).1 := by
  unfold State.ringOn
  repeat' first
      | with_reducible assumption | with_reducible intro _ | with_reducible apply finc_keeps
      | with_reducible apply redFlags_keeps | with_reducible apply readySegment_keeps | with_reducible apply finishSegment_keeps
      | with_reducible apply Keeps.ite | with_reducible refine KeepsOpt.map ?_ (fun s h => ?_)
      | with_reducible refine KeepsOpt.of (fun x => ?_) | with_reducible apply KeepsOpt.getD | simp only [Keeps.mk_iff]
      | with_reducible refine Keeps.snd (by with_reducible assumption) ?_
      | with_reducible refine Keeps.fst (by with_reducible assumption) ?_
      | with_reducible refine Keeps.third (by with_reducible assumption) ?_ | split | dsimp only

theorem sendGrant_keeps {o : State} (s : State) (p : ℕ) (k : Comm) (c : Coll) (e : ℕ × ℕ) (h : Keeps o s) : Keeps o (State.sendGrant s p k c e) := by
  unfold State.sendGrant
  repeat' first | with_reducible assumption | with_reducible apply toRankFrom_keeps

theorem grantAll_keeps {o : State} (s : State) (p : ℕ) (r : RedInfo) (c : Coll) (h : Keeps o s) : Keeps o (State.grantAll s p r c).1 := by
  unfold State.grantAll
  repeat' first
      | with_reducible assumption | with_reducible intro _ | with_reducible apply sendGrant_keeps
      | with_reducible refine Keeps.foldl (fun s x h => ?_) _ ?_ | with_reducible refine Keeps.foldl1 (fun s x h => ?_) _ ?_
      | with_reducible refine Keeps.foldl2 (fun s x h => ?_) _ ?_ | simp only [Keeps.mk_iff] | dsimp only

theorem settleRed_keeps {o : State} (s : State) (p : ℕ) (r : RedInfo) (x : Coll × Option Eff) (h : Keeps o s) : Keeps o (State.settleRed s p r x) := by
  unfold State.settleRed
  repeat' first
      | with_reducible assumption | with_reducible intro _ | with_reducible apply breakColl_keeps
      | with_reducible apply grantAll_keeps | with_reducible apply closeColl_keeps | with_reducible apply modColl_keeps
      | with_reducible apply Keeps.ite | with_reducible apply KeepsOpt.some | with_reducible apply KeepsOpt.none
      | with_reducible apply KeepsOpt.ite | with_reducible apply Keeps.id | simp only [Keeps.mk_iff]
      | with_reducible refine Keeps.snd (by with_reducible assumption) ?_
      | with_reducible refine Keeps.fst (by with_reducible assumption) ?_
      | with_reducible refine KeepsOpt.get (by with_reducible assumption) ?_
      | with_reducible refine Keeps.third (by with_reducible assumption) ?_ | split

theorem ackSegment_keeps {o : State} (s : State) (p : ℕ) (k : Comm) (c : Coll) (key : ℕ) (rank : ℕ) (h : Keeps o s) : Keeps o (State.ackSegment s p k c key rank) := by
  unfold State.ackSegment
  repeat' first | with_reducible assumption | with_reducible apply toRankFrom_keeps

theorem takeSegment_keeps {o : State} (s : State) (p : ℕ) (m : Msg) (c : Coll) (h : Keeps o s) : Keeps o (State.takeSegment s p m c) := by
  unfold State.takeSegment
  repeat' first
      | with_reducible assumption | with_reducible intro _ | with_reducible apply ackSegment_keeps
      | with_reducible apply modPart_keeps | with_reducible apply modColl_keeps | with_reducible apply sendGrant_keeps
      | with_reducible apply finc_keeps | with_reducible apply finishSegment_keeps | with_reducible apply ringOn_keeps
      | with_reducible apply settleRed_keeps | with_reducible apply addRanks_keeps | with_reducible apply orphan_keeps
      | with_reducible apply Keeps.ite | with_reducible apply KeepsOpt.some | with_reducible apply KeepsOpt.none
      | with_reducible apply KeepsOpt.ite | with_reducible apply Keeps.id | simp only [Keeps.mk_iff]
      | with_reducible refine Keeps.snd (by with_reducible assumption) ?_
      | with_reducible refine Keeps.fst (by with_reducible assumption) ?_
      | with_reducible refine KeepsOpt.get (by with_reducible assumption) ?_
      | with_reducible refine Keeps.third (by with_reducible assumption) ?_ | split

theorem onSegment_keeps {o : State} (s : State) (p : ℕ) (m : Msg) (h : Keeps o s) : Keeps o (State.onSegment s p m) := by
  unfold State.onSegment
  repeat' first
      | with_reducible assumption | with_reducible intro _ | with_reducible apply toColl_keeps
      | with_reducible apply takeSegment_keeps

theorem takeGrant_keeps {o : State} (s : State) (p : ℕ) (m : Msg) (c : Coll) (h : Keeps o s) : Keeps o (State.takeGrant s p m c) := by
  unfold State.takeGrant
  repeat' first
      | with_reducible assumption | with_reducible intro _ | with_reducible apply modColl_keeps
      | with_reducible apply sendSegment_keeps | with_reducible apply orphan_keeps | with_reducible apply Keeps.ite
      | with_reducible apply KeepsOpt.some | with_reducible apply KeepsOpt.none | with_reducible apply KeepsOpt.ite
      | with_reducible apply Keeps.id | simp only [Keeps.mk_iff] | with_reducible refine Keeps.snd (by with_reducible assumption) ?_
      | with_reducible refine Keeps.fst (by with_reducible assumption) ?_
      | with_reducible refine KeepsOpt.get (by with_reducible assumption) ?_ | split

theorem onGrant_keeps {o : State} (s : State) (p : ℕ) (m : Msg) (h : Keeps o s) : Keeps o (State.onGrant s p m) := by
  unfold State.onGrant
  repeat' first
      | with_reducible assumption | with_reducible intro _ | with_reducible apply toColl_keeps
      | with_reducible apply takeGrant_keeps

theorem takeAck_keeps {o : State} (s : State) (p : ℕ) (m : Msg) (c : Coll) (h : Keeps o s) : Keeps o (State.takeAck s p m c) := by
  unfold State.takeAck
  repeat' first
      | with_reducible assumption | with_reducible intro _ | with_reducible apply closeColl_keeps
      | with_reducible apply modColl_keeps | with_reducible apply orphan_keeps | with_reducible apply Keeps.ite
      | with_reducible apply Keeps.id | simp only [Keeps.mk_iff] | split

theorem onAck_keeps {o : State} (s : State) (p : ℕ) (m : Msg) (h : Keeps o s) : Keeps o (State.onAck s p m) := by
  unfold State.onAck
  repeat' first
      | with_reducible assumption | with_reducible intro _ | with_reducible apply toColl_keeps
      | with_reducible apply takeAck_keeps

theorem seedRed_keeps {o : State} (s : State) (p : ℕ) (r : RedInfo) (c : Coll) (raw : List Byte) (h : Keeps o s) : Keeps o (State.seedRed s p r c raw).1 := by
  unfold State.seedRed
  repeat' first
      | with_reducible assumption | with_reducible intro _ | with_reducible apply ringOn_keeps
      | with_reducible apply addRanks_keeps | with_reducible apply Keeps.ite | with_reducible apply KeepsOpt.some
      | with_reducible apply KeepsOpt.none | with_reducible apply KeepsOpt.ite | with_reducible refine KeepsOpt.map ?_ (fun s h => ?_)
      | with_reducible refine KeepsOpt.of (fun x => ?_) | with_reducible refine Keeps.foldl (fun s x h => ?_) _ ?_
      | with_reducible refine Keeps.foldl1 (fun s x h => ?_) _ ?_ | with_reducible refine Keeps.foldl2 (fun s x h => ?_) _ ?_
      | with_reducible refine KeepsEff.foldl (fun s x h => ?_) _ ?_ | simp only [Keeps.mk_iff]
      | with_reducible refine Keeps.snd (by with_reducible assumption) ?_
      | with_reducible refine Keeps.fst (by with_reducible assumption) ?_
      | with_reducible refine KeepsOpt.get (by with_reducible assumption) ?_ | split | dsimp only

theorem startRed_keeps {o : State} (s : State) (p : ℕ) (t : ℕ) (f : Flight) (k : Comm) (desc : BitVec 512) (h : Keeps o s) : Keeps o (State.startRed s p t f k desc) := by
  unfold State.startRed
  repeat' first
      | with_reducible assumption | with_reducible intro _ | with_reducible apply wordEff_keeps
      | with_reducible apply spFault_keeps | with_reducible apply failAt_keeps | with_reducible apply modPart_keeps
      | with_reducible apply modFlight_keeps | with_reducible apply openColl_keeps | with_reducible apply redSource_keeps
      | with_reducible apply seedRed_keeps | with_reducible apply settleRed_keeps | with_reducible apply modColl_keeps
      | with_reducible apply onGrant_keeps | with_reducible apply onAck_keeps | with_reducible apply onSegment_keeps
      | with_reducible apply orphan_keeps | with_reducible apply Keeps.ite | with_reducible apply KeepsEff.ok
      | with_reducible apply KeepsEff.bad | with_reducible apply KeepsEff.fail | with_reducible apply KeepsEff.ite
      | with_reducible apply KeepsOpt.some | with_reducible apply KeepsOpt.none | with_reducible apply KeepsOpt.ite
      | with_reducible apply KeepsFault.none | with_reducible apply KeepsFault.some | with_reducible apply KeepsFault.ite
      | with_reducible refine KeepsFault.map (fun x => ?_) | with_reducible refine KeepsOpt.map ?_ (fun s h => ?_)
      | with_reducible refine KeepsOpt.of (fun x => ?_) | with_reducible apply Keeps.id
      | with_reducible refine Keeps.foldl (fun s x h => ?_) _ ?_ | with_reducible refine Keeps.foldl1 (fun s x h => ?_) _ ?_
      | with_reducible refine Keeps.foldl2 (fun s x h => ?_) _ ?_ | with_reducible refine KeepsEff.foldl (fun s x h => ?_) _ ?_
      | simp only [Keeps.mk_iff] | with_reducible refine Keeps.snd (by with_reducible assumption) ?_
      | with_reducible refine Keeps.fst (by with_reducible assumption) ?_
      | with_reducible refine KeepsOpt.get (by with_reducible assumption) ?_
      | with_reducible refine KeepsFault.get (by with_reducible assumption) ?_
      | with_reducible refine Keeps.third (by with_reducible assumption) ?_ | split

end Sys2Proof.Machine
end

