-- ==== Sys2Proof/Laws/KeepsGather.lean ====
section
/-!
SUPPORT. What no operation of Machine/Gather.lean does (Laws/Keeps.lean).
-/

set_option Elab.async false

namespace Sys2Proof.Machine

theorem placeGather_keeps {o : State} (s : State) (p : ℕ) (g : GatherInfo) (c : Coll) (key : ℕ) (bs : List Byte) (h : Keeps o s) : KeepsEff o (State.placeGather s p g c key bs) := by
  unfold State.placeGather
  repeat' first
      | with_reducible assumption | with_reducible intro _ | with_reducible apply arriveFaults_keeps
      | with_reducible apply partPut_keeps | with_reducible apply landed_keeps | with_reducible apply putRanges_keeps
      | with_reducible apply flagBank_keeps | with_reducible apply finc_keeps | with_reducible apply take_keeps
      | with_reducible apply Keeps.ite | with_reducible apply KeepsEff.ok | with_reducible apply KeepsEff.bad
      | with_reducible apply KeepsEff.fail | with_reducible apply KeepsEff.ite | with_reducible apply KeepsOpt.some
      | with_reducible apply KeepsOpt.none | with_reducible apply KeepsOpt.ite | with_reducible apply KeepsFault.none
      | with_reducible apply KeepsFault.some | with_reducible apply KeepsFault.ite | with_reducible refine KeepsFault.map (fun x => ?_)
      | with_reducible refine KeepsOpt.map ?_ (fun s h => ?_) | with_reducible refine KeepsOpt.of (fun x => ?_)
      | with_reducible refine Keeps.foldl (fun s x h => ?_) _ ?_ | with_reducible refine Keeps.foldl1 (fun s x h => ?_) _ ?_
      | with_reducible refine Keeps.foldl2 (fun s x h => ?_) _ ?_ | with_reducible refine KeepsEff.foldl (fun s x h => ?_) _ ?_
      | simp only [Keeps.mk_iff] | with_reducible refine Keeps.snd (by with_reducible assumption) ?_
      | with_reducible refine Keeps.fst (by with_reducible assumption) ?_
      | with_reducible refine KeepsOpt.get (by with_reducible assumption) ?_
      | with_reducible refine KeepsFault.get (by with_reducible assumption) ?_
      | with_reducible refine KeepsEff.get (by with_reducible assumption) ?_
      | with_reducible refine Keeps.third (by with_reducible assumption) ?_ | split

theorem sendGather_keeps {o : State} (s : State) (p : ℕ) (g : GatherInfo) (c : Coll) (key : ℕ) (bs : List Byte) (ranks : List ℕ) (h : Keeps o s) : Keeps o (State.sendGather s p g c key bs ranks) := by
  unfold State.sendGather
  repeat' first
      | with_reducible assumption | with_reducible intro _ | with_reducible apply toRankFrom_keeps
      | with_reducible refine Keeps.foldl (fun s x h => ?_) _ ?_

theorem askAgain_keeps {o : State} (s : State) (p : ℕ) (k : Comm) (c : Coll) (key : ℕ) (rank : ℕ) (h : Keeps o s) : Keeps o (State.askAgain s p k c key rank) := by
  unfold State.askAgain
  repeat' first
      | with_reducible assumption | with_reducible intro _ | with_reducible apply modColl_keeps
      | with_reducible apply finc_keeps | with_reducible apply toRankFrom_keeps | with_reducible apply Keeps.ite
      | with_reducible apply Keeps.id | simp only [Keeps.mk_iff] | split

theorem settleGather_keeps {o : State} (s : State) (p : ℕ) (c : Coll) (h : Keeps o s) : Keeps o (State.settleGather s p c) := by
  unfold State.settleGather
  repeat' first
      | with_reducible assumption | with_reducible intro _ | with_reducible apply closeColl_keeps
      | with_reducible apply modColl_keeps | with_reducible apply Keeps.ite | with_reducible apply Keeps.id | split

theorem takeGather_keeps {o : State} (s : State) (p : ℕ) (m : Msg) (c : Coll) (h : Keeps o s) : Keeps o (State.takeGather s p m c) := by
  unfold State.takeGather
  repeat' first
      | with_reducible assumption | with_reducible intro _ | with_reducible apply askAgain_keeps
      | with_reducible apply modPart_keeps | with_reducible apply sendGather_keeps | with_reducible apply placeGather_keeps
      | with_reducible apply settleGather_keeps | with_reducible apply breakColl_keeps | with_reducible apply Keeps.ite
      | with_reducible apply KeepsEff.ok | with_reducible apply KeepsEff.bad | with_reducible apply KeepsEff.fail
      | with_reducible apply KeepsEff.ite | with_reducible apply KeepsOpt.some | with_reducible apply KeepsOpt.none
      | with_reducible apply KeepsOpt.ite | simp only [Keeps.mk_iff] | with_reducible refine Keeps.snd (by with_reducible assumption) ?_
      | with_reducible refine Keeps.fst (by with_reducible assumption) ?_
      | with_reducible refine KeepsOpt.get (by with_reducible assumption) ?_
      | with_reducible refine KeepsEff.get (by with_reducible assumption) ?_ | split

theorem relayGather_keeps {o : State} (s : State) (p : ℕ) (m : Msg) (h : Keeps o s) : Keeps o (State.relayGather s p m) := by
  unfold State.relayGather
  repeat' first
      | with_reducible assumption | with_reducible intro _ | with_reducible apply modPart_keeps
      | with_reducible apply toRank_keeps | with_reducible apply Keeps.ite | with_reducible apply KeepsOpt.some
      | with_reducible apply KeepsOpt.none | with_reducible apply KeepsOpt.ite | with_reducible refine Keeps.foldl (fun s x h => ?_) _ ?_
      | simp only [Keeps.mk_iff] | with_reducible refine Keeps.snd (by with_reducible assumption) ?_
      | with_reducible refine Keeps.fst (by with_reducible assumption) ?_
      | with_reducible refine KeepsOpt.get (by with_reducible assumption) ?_ | split

theorem onGather_keeps {o : State} (s : State) (p : ℕ) (m : Msg) (h : Keeps o s) : Keeps o (State.onGather s p m) := by
  unfold State.onGather
  repeat' first
      | with_reducible assumption | with_reducible intro _ | with_reducible apply toColl_keeps
      | with_reducible apply relayGather_keeps | with_reducible apply takeGather_keeps

theorem allGatherMsg_keeps {o : State} (s : State) (p : ℕ) (m : Msg) (h : Keeps o s) : Keeps o (State.allGatherMsg s p m) := by
  unfold State.allGatherMsg
  repeat' first
      | with_reducible assumption | with_reducible intro _ | with_reducible apply collective_keeps
      | with_reducible apply onGather_keeps | with_reducible apply Keeps.ite | split

theorem allToAllMsg_keeps {o : State} (s : State) (p : ℕ) (m : Msg) (h : Keeps o s) : Keeps o (State.allToAllMsg s p m) := by
  unfold State.allToAllMsg
  repeat' first
      | with_reducible assumption | with_reducible intro _ | with_reducible apply collective_keeps
      | with_reducible apply onGather_keeps | with_reducible apply Keeps.ite | split

theorem resend_keeps {o : State} (s : State) (p : ℕ) (m : Msg) (h : Keeps o s) : Keeps o (State.resend s p m) := by
  unfold State.resend
  repeat' first
      | with_reducible assumption | with_reducible apply send_keeps | with_reducible apply Keeps.ite | simp only [Keeps.mk_iff]
      | with_reducible refine Keeps.snd (by with_reducible assumption) ?_
      | with_reducible refine Keeps.fst (by with_reducible assumption) ?_ | split

theorem resendMsg_keeps {o : State} (s : State) (p : ℕ) (m : Msg) (h : Keeps o s) : Keeps o (State.resendMsg s p m) := by
  unfold State.resendMsg
  repeat' first
      | with_reducible assumption | with_reducible intro _ | with_reducible apply onMsg_keeps
      | with_reducible apply resend_keeps | with_reducible apply collective_keeps | with_reducible apply Keeps.ite | split

theorem startGather_keeps {o : State} (s : State) (p : ℕ) (t : ℕ) (f : Flight) (k : Comm) (op : ℕ) (desc : BitVec 512) (h : Keeps o s) : Keeps o (State.startGather s p t f k op desc) := by
  unfold State.startGather
  repeat' first
      | with_reducible assumption | with_reducible intro _ | with_reducible apply wordEff_keeps
      | with_reducible apply spFault_keeps | with_reducible apply failAt_keeps | with_reducible apply modFlight_keeps
      | with_reducible apply openColl_keeps | with_reducible apply Eff_andThen_keeps | with_reducible apply placeGather_keeps
      | with_reducible apply sendGather_keeps | with_reducible apply onGather_keeps | with_reducible apply settleGather_keeps
      | with_reducible apply breakColl_keeps | with_reducible apply Keeps.ite | with_reducible apply KeepsEff.ok
      | with_reducible apply KeepsEff.bad | with_reducible apply KeepsEff.fail | with_reducible apply KeepsEff.ite
      | with_reducible refine KeepsEff.andThen ?_ (fun s h => ?_) | with_reducible apply KeepsOpt.some | with_reducible apply KeepsOpt.none
      | with_reducible apply KeepsOpt.ite | with_reducible apply KeepsFault.none | with_reducible apply KeepsFault.some
      | with_reducible apply KeepsFault.ite | with_reducible refine KeepsFault.map (fun x => ?_)
      | with_reducible refine KeepsOpt.map ?_ (fun s h => ?_) | with_reducible refine KeepsOpt.of (fun x => ?_)
      | with_reducible apply Keeps.id | with_reducible refine Keeps.foldl (fun s x h => ?_) _ ?_
      | with_reducible refine Keeps.foldl1 (fun s x h => ?_) _ ?_ | with_reducible refine Keeps.foldl2 (fun s x h => ?_) _ ?_
      | with_reducible refine KeepsEff.foldl (fun s x h => ?_) _ ?_ | simp only [Keeps.mk_iff]
      | with_reducible refine Keeps.snd (by with_reducible assumption) ?_
      | with_reducible refine Keeps.fst (by with_reducible assumption) ?_
      | with_reducible refine KeepsOpt.get (by with_reducible assumption) ?_
      | with_reducible refine KeepsFault.get (by with_reducible assumption) ?_
      | with_reducible refine KeepsEff.get (by with_reducible assumption) ?_
      | with_reducible refine Keeps.third (by with_reducible assumption) ?_ | split

theorem execResendRequest_keeps {o : State} (p : ℕ) (m : Msg) (s : State) (h : Keeps o s) : KeepsOut o (execResendRequest p m s) := by
  unfold execResendRequest
  repeat' first
      | with_reducible assumption | with_reducible apply resendMsg_keeps | with_reducible apply KeepsFault.none
      | with_reducible apply KeepsFault.some | with_reducible apply KeepsOut.next

end Sys2Proof.Machine
end

