-- ==== Sys2Proof/Laws/KeepsScalar.lean ====
section
/-!
SUPPORT. What no operation of Machine/Scalar.lean does (Laws/Keeps.lean).
-/

set_option Elab.async false

namespace Sys2Proof.Machine

theorem sendUp_keeps {o : State} (s : State) (p : ℕ) (k : Comm) (c : Coll) (vs : List (ℕ × List ℕ)) (h : Keeps o s) : Keeps o (State.sendUp s p k c vs) := by
  unfold State.sendUp
  repeat' first
      | with_reducible assumption | with_reducible intro _ | with_reducible apply toRankFrom_keeps
      | with_reducible apply Keeps.ite | with_reducible refine Keeps.foldl (fun s x h => ?_) _ ?_
      | with_reducible refine Keeps.foldl1 (fun s x h => ?_) _ ?_ | with_reducible refine Keeps.foldl2 (fun s x h => ?_) _ ?_ | split

theorem sendDown_keeps {o : State} (s : State) (p : ℕ) (k : Comm) (c : Coll) (result : List ℕ) (h : Keeps o s) : Keeps o (State.sendDown s p k c result) := by
  unfold State.sendDown
  repeat' first
      | with_reducible assumption | with_reducible intro _ | with_reducible apply toRankFrom_keeps
      | with_reducible refine Keeps.foldl (fun s x h => ?_) _ ?_

theorem scalarDone_keeps {o : State} (s : State) (p : ℕ) (k : Comm) (done : State → ℕ → Coll → List ℕ → State) (c : Coll) (result : List ℕ) (h : Keeps o s) (h1 : ∀ x0 x1 x2 x3, Keeps o x0 → Keeps o (done x0 x1 x2 x3)) : Keeps o (State.scalarDone s p k done c result) := by
  unfold State.scalarDone
  repeat' first | with_reducible assumption | with_reducible apply sendDown_keeps | with_reducible apply h1

theorem holdScalars_keeps {o : State} (s : State) (p : ℕ) (k : Comm) (done : State → ℕ → Coll → List ℕ → State) (c : Coll) (vs : List (ℕ × List ℕ)) (h : Keeps o s) (h1 : ∀ x0 x1 x2 x3, Keeps o x0 → Keeps o (done x0 x1 x2 x3)) : Keeps o (State.holdScalars s p k done c vs) := by
  unfold State.holdScalars
  repeat' first
      | with_reducible assumption | with_reducible intro _ | with_reducible apply modColl_keeps
      | with_reducible apply sendUp_keeps | with_reducible apply scalarDone_keeps | with_reducible apply h1
      | with_reducible apply Keeps.ite | with_reducible refine KeepsOpt.map ?_ (fun s h => ?_)
      | with_reducible refine KeepsOpt.of (fun x => ?_) | with_reducible apply Keeps.id | simp only [Keeps.mk_iff] | split

theorem takeScalar_keeps {o : State} (s : State) (p : ℕ) (done : State → ℕ → Coll → List ℕ → State) (m : Msg) (c : Coll) (h : Keeps o s) (h1 : ∀ x0 x1 x2 x3, Keeps o x0 → Keeps o (done x0 x1 x2 x3)) : Keeps o (State.takeScalar s p done m c) := by
  unfold State.takeScalar
  repeat' first
      | with_reducible assumption | with_reducible intro _ | with_reducible apply modPart_keeps
      | with_reducible apply scalarDone_keeps | with_reducible apply holdScalars_keeps | with_reducible apply h1
      | with_reducible apply Keeps.ite | with_reducible apply KeepsOpt.some | with_reducible apply KeepsOpt.none
      | with_reducible apply KeepsOpt.ite | simp only [Keeps.mk_iff] | with_reducible refine Keeps.snd (by with_reducible assumption) ?_
      | with_reducible refine Keeps.fst (by with_reducible assumption) ?_
      | with_reducible refine KeepsOpt.get (by with_reducible assumption) ?_ | split

theorem passUp_keeps {o : State} (s : State) (p : ℕ) (m : Msg) (h : Keeps o s) : KeepsOpt o (State.passUp s p m) := by
  unfold State.passUp
  repeat' first
      | with_reducible assumption | with_reducible apply toRank_keeps | with_reducible apply Keeps.ite
      | with_reducible apply KeepsOpt.some | with_reducible apply KeepsOpt.none | with_reducible apply KeepsOpt.ite
      | simp only [Keeps.mk_iff] | with_reducible refine Keeps.snd (by with_reducible assumption) ?_
      | with_reducible refine Keeps.fst (by with_reducible assumption) ?_
      | with_reducible refine KeepsOpt.get (by with_reducible assumption) ?_ | split

theorem onScalar_keeps {o : State} (s : State) (p : ℕ) (done : State → ℕ → Coll → List ℕ → State) (m : Msg) (h : Keeps o s) (h1 : ∀ x0 x1 x2 x3, Keeps o x0 → Keeps o (done x0 x1 x2 x3)) : Keeps o (State.onScalar s p done m) := by
  unfold State.onScalar
  repeat' first
      | with_reducible assumption | with_reducible intro _ | with_reducible apply passUp_keeps
      | with_reducible apply toColl_keeps | with_reducible apply takeScalar_keeps | with_reducible apply h1
      | with_reducible apply KeepsOpt.some | with_reducible apply KeepsOpt.none | simp only [Keeps.mk_iff]
      | with_reducible refine Keeps.snd (by with_reducible assumption) ?_
      | with_reducible refine Keeps.fst (by with_reducible assumption) ?_
      | with_reducible refine KeepsOpt.get (by with_reducible assumption) ?_ | split

theorem joinScalar_keeps {o : State} (s : State) (p : ℕ) (k : Comm) (done : State → ℕ → Coll → List ℕ → State) (c : Coll) (value : List ℕ) (h : Keeps o s) (h1 : ∀ x0 x1 x2 x3, Keeps o x0 → Keeps o (done x0 x1 x2 x3)) : Keeps o (State.joinScalar s p k done c value) := by
  unfold State.joinScalar
  repeat' first
      | with_reducible assumption | with_reducible intro _ | with_reducible apply modPart_keeps
      | with_reducible apply modColl_keeps | with_reducible apply onScalar_keeps | with_reducible apply holdScalars_keeps
      | with_reducible apply h1 | with_reducible apply Keeps.id | with_reducible refine Keeps.foldl (fun s x h => ?_) _ ?_
      | simp only [Keeps.mk_iff]

theorem normRecord_keeps {o : State} (s : State) (p : ℕ) (stepNo : ℕ) (result : List ℕ) (h : Keeps o s) : Keeps o (State.normRecord s p stepNo result) := by
  unfold State.normRecord
  repeat' first
      | with_reducible assumption | with_reducible intro _ | with_reducible apply signalKettle_keeps
      | with_reducible apply fset_keeps | with_reducible apply fset1s_keeps | with_reducible apply Keeps.ite
      | with_reducible apply KeepsOpt.getD | with_reducible refine Keeps.foldl (fun s x h => ?_) _ ?_ | split

theorem scalarLand_keeps {o : State} (s : State) (p : ℕ) (c : Coll) (result : List ℕ) (h : Keeps o s) : Keeps o (State.scalarLand s p c result) := by
  unfold State.scalarLand
  repeat' first
      | with_reducible assumption | with_reducible intro _ | with_reducible apply arriveFault_keeps
      | with_reducible apply breakColl_keeps | with_reducible apply closeColl_keeps | with_reducible apply partPut_keeps
      | with_reducible apply Keeps.ite | with_reducible apply KeepsOpt.some | with_reducible apply KeepsOpt.none
      | with_reducible apply KeepsOpt.ite | with_reducible apply KeepsFault.none | with_reducible apply KeepsFault.some
      | with_reducible apply KeepsFault.ite | with_reducible refine KeepsFault.map (fun x => ?_)
      | with_reducible refine KeepsOpt.map ?_ (fun s h => ?_) | with_reducible refine KeepsOpt.of (fun x => ?_)
      | with_reducible refine Keeps.foldl (fun s x h => ?_) _ ?_ | with_reducible refine Keeps.foldl1 (fun s x h => ?_) _ ?_
      | with_reducible refine Keeps.foldl2 (fun s x h => ?_) _ ?_ | simp only [Keeps.mk_iff]
      | with_reducible refine Keeps.snd (by with_reducible assumption) ?_
      | with_reducible refine Keeps.fst (by with_reducible assumption) ?_
      | with_reducible refine KeepsOpt.get (by with_reducible assumption) ?_
      | with_reducible refine KeepsFault.get (by with_reducible assumption) ?_ | split

theorem scalarEnd_keeps {o : State} (s : State) (p : ℕ) (c : Coll) (result : List ℕ) (h : Keeps o s) : Keeps o (State.scalarEnd s p c result) := by
  unfold State.scalarEnd
  repeat' first
      | with_reducible assumption | with_reducible apply closeColl_keeps | with_reducible apply scalarLand_keeps
      | with_reducible apply normRecord_keeps | with_reducible apply Keeps.ite | split

theorem startScalar_keeps {o : State} (s : State) (p : ℕ) (t : ℕ) (f : Flight) (k : Comm) (op : ℕ) (desc : BitVec 512) (done : State → ℕ → Coll → List ℕ → State) (h : Keeps o s) (h1 : ∀ x0 x1 x2 x3, Keeps o x0 → Keeps o (done x0 x1 x2 x3)) : Keeps o (State.startScalar s p t f k op desc done) := by
  unfold State.startScalar
  repeat' first
      | with_reducible assumption | with_reducible intro _ | with_reducible apply wordEff_keeps
      | with_reducible apply failAt_keeps | with_reducible apply modFlight_keeps | with_reducible apply openColl_keeps
      | with_reducible apply joinScalar_keeps | with_reducible apply modPart_keeps | with_reducible apply h1
      | with_reducible apply Keeps.ite | with_reducible apply KeepsOpt.some | with_reducible apply KeepsOpt.none
      | with_reducible apply KeepsOpt.ite | with_reducible apply KeepsFault.none | with_reducible apply KeepsFault.some
      | with_reducible apply KeepsFault.ite | with_reducible apply Keeps.id | simp only [Keeps.mk_iff]
      | with_reducible refine Keeps.snd (by with_reducible assumption) ?_
      | with_reducible refine Keeps.fst (by with_reducible assumption) ?_
      | with_reducible refine KeepsOpt.get (by with_reducible assumption) ?_
      | with_reducible refine KeepsFault.get (by with_reducible assumption) ?_
      | with_reducible refine Keeps.third (by with_reducible assumption) ?_ | split

theorem startNorm_keeps {o : State} (s : State) (p : ℕ) (t : ℕ) (f : Flight) (k : Comm) (desc : BitVec 512) (done : State → ℕ → Coll → List ℕ → State) (h : Keeps o s) (h1 : ∀ x0 x1 x2 x3, Keeps o x0 → Keeps o (done x0 x1 x2 x3)) : Keeps o (State.startNorm s p t f k desc done) := by
  unfold State.startNorm
  repeat' first
      | with_reducible assumption | with_reducible intro _ | with_reducible apply wordEff_keeps
      | with_reducible apply failAt_keeps | with_reducible apply modFlight_keeps | with_reducible apply openColl_keeps
      | with_reducible apply modPart_keeps | with_reducible apply modColl_keeps | with_reducible apply joinScalar_keeps
      | with_reducible apply h1 | with_reducible apply Keeps.ite | with_reducible apply KeepsEff.ok | with_reducible apply KeepsEff.bad
      | with_reducible apply KeepsEff.fail | with_reducible apply KeepsEff.ite | with_reducible apply KeepsOpt.some
      | with_reducible apply KeepsOpt.none | with_reducible apply KeepsOpt.ite | with_reducible apply KeepsFault.none
      | with_reducible apply KeepsFault.some | with_reducible apply KeepsFault.ite | with_reducible apply Keeps.id
      | simp only [Keeps.mk_iff] | with_reducible refine Keeps.snd (by with_reducible assumption) ?_
      | with_reducible refine Keeps.fst (by with_reducible assumption) ?_
      | with_reducible refine KeepsOpt.get (by with_reducible assumption) ?_
      | with_reducible refine KeepsFault.get (by with_reducible assumption) ?_
      | with_reducible refine Keeps.third (by with_reducible assumption) ?_ | split

end Sys2Proof.Machine
end

