-- ==== Sys2Proof/Laws/KeepsExchange.lean ====
section
/-!
SUPPORT. What no operation of Machine/Exchange.lean does (Laws/Keeps.lean).
-/

set_option Elab.async false

namespace Sys2Proof.Machine

theorem exchangeFails_keeps {o : State} (s : State) (p : ℕ) (c : Coll) (h : Keeps o s) : Keeps o (State.exchangeFails s p c) := by
  unfold State.exchangeFails
  repeat' first
      | with_reducible assumption | with_reducible intro _ | with_reducible apply modPart_keeps
      | with_reducible apply failColl_keeps | with_reducible apply failRollout_keeps | with_reducible apply failLearn_keeps
      | with_reducible apply raise_keeps | with_reducible apply Keeps.ite | with_reducible apply KeepsEff.ok
      | with_reducible apply KeepsEff.bad | with_reducible apply KeepsEff.fail | with_reducible apply KeepsEff.ite
      | with_reducible apply Keeps.id | simp only [Keeps.mk_iff] | split

theorem exchangeEnd_keeps {o : State} (s : State) (p : ℕ) (c : Coll) (result : List ℕ) (h : Keeps o s) : Keeps o (State.exchangeEnd s p c result) := by
  unfold State.exchangeEnd
  repeat' first
      | with_reducible assumption | with_reducible intro _ | with_reducible apply fset_keeps
      | with_reducible apply exchangeFails_keeps | with_reducible apply arriveFaults_keeps | with_reducible apply breakColl_keeps
      | with_reducible apply failAt_keeps | with_reducible apply partPut_keeps | with_reducible apply flagBank_keeps
      | with_reducible apply modPart_keeps | with_reducible apply closeColl_keeps | with_reducible apply Keeps.ite
      | with_reducible apply KeepsOpt.some | with_reducible apply KeepsOpt.none | with_reducible apply KeepsOpt.ite
      | with_reducible apply KeepsFault.none | with_reducible apply KeepsFault.some | with_reducible apply KeepsFault.ite
      | with_reducible refine KeepsFault.map (fun x => ?_) | with_reducible refine KeepsOpt.map ?_ (fun s h => ?_)
      | with_reducible refine KeepsOpt.of (fun x => ?_) | with_reducible apply KeepsOpt.getD
      | with_reducible refine Keeps.foldl (fun s x h => ?_) _ ?_ | with_reducible refine Keeps.foldl1 (fun s x h => ?_) _ ?_
      | with_reducible refine Keeps.foldl2 (fun s x h => ?_) _ ?_ | simp only [Keeps.mk_iff]
      | with_reducible refine Keeps.snd (by with_reducible assumption) ?_
      | with_reducible refine Keeps.fst (by with_reducible assumption) ?_
      | with_reducible refine KeepsOpt.get (by with_reducible assumption) ?_
      | with_reducible refine KeepsFault.get (by with_reducible assumption) ?_ | split

theorem scalarFinish_keeps {o : State} (s : State) (p : ℕ) (c : Coll) (result : List ℕ) (h : Keeps o s) : Keeps o (State.scalarFinish s p c result) := by
  unfold State.scalarFinish
  repeat' first
      | with_reducible assumption | with_reducible apply exchangeEnd_keeps | with_reducible apply scalarEnd_keeps
      | with_reducible apply Keeps.ite | split

theorem countsIn_keeps {o : State} (s : State) (p : ℕ) (k : Comm) (c : Coll) (h : Keeps o s) : Keeps o (State.countsIn s p k c) := by
  unfold State.countsIn
  repeat' first
      | with_reducible assumption | with_reducible intro _ | with_reducible apply joinScalar_keeps
      | with_reducible apply scalarFinish_keeps | with_reducible apply Keeps.ite | split

theorem takeCounts_keeps {o : State} (s : State) (p : ℕ) (m : Msg) (c : Coll) (h : Keeps o s) : Keeps o (State.takeCounts s p m c) := by
  unfold State.takeCounts
  repeat' first
      | with_reducible assumption | with_reducible intro _ | with_reducible apply askAgain_keeps
      | with_reducible apply partPut_keeps | with_reducible apply countsIn_keeps | with_reducible apply modColl_keeps
      | with_reducible apply take_keeps | with_reducible apply Keeps.ite | with_reducible apply KeepsOpt.some
      | with_reducible apply KeepsOpt.none | with_reducible apply KeepsOpt.ite | with_reducible apply Keeps.id | simp only [Keeps.mk_iff]
      | with_reducible refine Keeps.snd (by with_reducible assumption) ?_
      | with_reducible refine Keeps.fst (by with_reducible assumption) ?_
      | with_reducible refine KeepsOpt.get (by with_reducible assumption) ?_ | split

theorem onCounts_keeps {o : State} (s : State) (p : ℕ) (m : Msg) (h : Keeps o s) : Keeps o (State.onCounts s p m) := by
  unfold State.onCounts
  repeat' first
      | with_reducible assumption | with_reducible intro _ | with_reducible apply toColl_keeps
      | with_reducible apply takeCounts_keeps

theorem startCounts_keeps {o : State} (s : State) (p : ℕ) (t : ℕ) (f : Flight) (k : Comm) (desc : BitVec 512) (h : Keeps o s) : Keeps o (State.startCounts s p t f k desc) := by
  unfold State.startCounts
  repeat' first
      | with_reducible assumption | with_reducible intro _ | with_reducible apply wordEff_keeps
      | with_reducible apply spFaults_keeps | with_reducible apply modFlight_keeps | with_reducible apply spWrite_keeps
      | with_reducible apply openColl_keeps | with_reducible apply toRankFrom_keeps | with_reducible apply countsIn_keeps
      | with_reducible apply onCounts_keeps | with_reducible apply onScalar_keeps | with_reducible apply scalarFinish_keeps
      | with_reducible apply take_keeps | with_reducible apply Keeps.ite | with_reducible apply KeepsEff.ok
      | with_reducible apply KeepsEff.bad | with_reducible apply KeepsEff.fail | with_reducible apply KeepsEff.ite
      | with_reducible apply KeepsOpt.some | with_reducible apply KeepsOpt.none | with_reducible apply KeepsOpt.ite
      | with_reducible apply KeepsFault.none | with_reducible apply KeepsFault.some | with_reducible apply KeepsFault.ite
      | with_reducible refine KeepsFault.map (fun x => ?_) | with_reducible refine KeepsOpt.map ?_ (fun s h => ?_)
      | with_reducible refine KeepsOpt.of (fun x => ?_) | with_reducible apply Keeps.id
      | with_reducible refine Keeps.foldl (fun s x h => ?_) _ ?_ | with_reducible refine Keeps.foldl1 (fun s x h => ?_) _ ?_
      | with_reducible refine Keeps.foldl2 (fun s x h => ?_) _ ?_ | with_reducible refine KeepsEff.foldl (fun s x h => ?_) _ ?_
      | simp only [Keeps.mk_iff] | with_reducible refine Keeps.snd (by with_reducible assumption) ?_
      | with_reducible refine Keeps.fst (by with_reducible assumption) ?_
      | with_reducible refine KeepsOpt.get (by with_reducible assumption) ?_
      | with_reducible refine KeepsFault.get (by with_reducible assumption) ?_
      | with_reducible refine Keeps.third (by with_reducible assumption) ?_ | split

theorem doneSignals_keeps {o : State} (s : State) (x : Exch) (d : ExD) (n : ℕ) (c : Coll) (h : Keeps o s) : Keeps o (State.doneSignals s x d n c).1 := by
  unfold State.doneSignals
  repeat' first
      | with_reducible assumption | with_reducible intro _ | with_reducible apply signalTile_keeps
      | with_reducible apply Keeps.ite | with_reducible refine Keeps.foldl (fun s x h => ?_) _ ?_
      | with_reducible refine Keeps.foldl1 (fun s x h => ?_) _ ?_ | with_reducible refine Keeps.foldl2 (fun s x h => ?_) _ ?_
      | simp only [Keeps.mk_iff] | split | dsimp only

theorem settleRows_keeps {o : State} (s : State) (p : ℕ) (x : Exch) (d : ExD) (n : ℕ) (c : Coll) (h : Keeps o s) : Keeps o (State.settleRows s p x d n c) := by
  unfold State.settleRows
  repeat' first
      | with_reducible assumption | with_reducible intro _ | with_reducible apply doneSignals_keeps
      | with_reducible apply closeColl_keeps | with_reducible apply modColl_keeps | with_reducible apply Keeps.ite
      | with_reducible apply Keeps.id | with_reducible refine Keeps.snd (by with_reducible assumption) ?_
      | with_reducible refine Keeps.fst (by with_reducible assumption) ?_
      | with_reducible refine Keeps.third (by with_reducible assumption) ?_ | split

theorem landRows_keeps {o : State} (s : State) (p : ℕ) (c : Coll) (into : List (ℕ × ℕ)) (bs : List Byte) (h : Keeps o s) : KeepsEff o (State.landRows s p c into bs) := by
  unfold State.landRows
  repeat' first
      | with_reducible assumption | with_reducible apply arriveFaults_keeps | with_reducible apply finc_keeps
      | with_reducible apply landed_keeps | with_reducible apply putRanges_keeps | with_reducible apply KeepsEff.ok
      | with_reducible apply KeepsEff.bad | with_reducible apply KeepsEff.fail | with_reducible apply KeepsOpt.some
      | with_reducible apply KeepsOpt.none | with_reducible apply KeepsFault.none | with_reducible apply KeepsFault.some
      | with_reducible refine KeepsFault.map (fun x => ?_) | with_reducible refine KeepsOpt.map ?_ (fun s h => ?_)
      | with_reducible refine KeepsOpt.of (fun x => ?_) | simp only [Keeps.mk_iff]
      | with_reducible refine Keeps.snd (by with_reducible assumption) ?_
      | with_reducible refine Keeps.fst (by with_reducible assumption) ?_
      | with_reducible refine KeepsOpt.get (by with_reducible assumption) ?_
      | with_reducible refine KeepsFault.get (by with_reducible assumption) ?_
      | with_reducible refine KeepsEff.get (by with_reducible assumption) ?_ | split

theorem takeRows_keeps {o : State} (s : State) (p : ℕ) (m : Msg) (c : Coll) (h : Keeps o s) : Keeps o (State.takeRows s p m c) := by
  unfold State.takeRows
  repeat' first
      | with_reducible assumption | with_reducible intro _ | with_reducible apply askAgain_keeps
      | with_reducible apply landRows_keeps | with_reducible apply settleRows_keeps | with_reducible apply breakColl_keeps
      | with_reducible apply Keeps.ite | with_reducible apply KeepsEff.ok | with_reducible apply KeepsEff.bad
      | with_reducible apply KeepsEff.fail | with_reducible apply KeepsEff.ite | with_reducible apply KeepsOpt.some
      | with_reducible apply KeepsOpt.none | with_reducible apply KeepsOpt.ite | simp only [Keeps.mk_iff]
      | with_reducible refine Keeps.snd (by with_reducible assumption) ?_
      | with_reducible refine Keeps.fst (by with_reducible assumption) ?_
      | with_reducible refine KeepsOpt.get (by with_reducible assumption) ?_
      | with_reducible refine KeepsEff.get (by with_reducible assumption) ?_ | split

theorem onRows_keeps {o : State} (s : State) (p : ℕ) (m : Msg) (h : Keeps o s) : Keeps o (State.onRows s p m) := by
  unfold State.onRows
  repeat' first
      | with_reducible assumption | with_reducible intro _ | with_reducible apply toColl_keeps
      | with_reducible apply takeRows_keeps

theorem startRows_keeps {o : State} (s : State) (p : ℕ) (t : ℕ) (f : Flight) (k : Comm) (op : ℕ) (desc : BitVec 512) (h : Keeps o s) : Keeps o (State.startRows s p t f k op desc) := by
  unfold State.startRows
  repeat' first
      | with_reducible assumption | with_reducible intro _ | with_reducible apply wordEff_keeps
      | with_reducible apply failAt_keeps | with_reducible apply modFlight_keeps | with_reducible apply openColl_keeps
      | with_reducible apply toRankFrom_keeps | with_reducible apply landRows_keeps | with_reducible apply onRows_keeps
      | with_reducible apply settleRows_keeps | with_reducible apply breakColl_keeps | with_reducible apply Keeps.ite
      | with_reducible apply KeepsEff.ok | with_reducible apply KeepsEff.bad | with_reducible apply KeepsEff.fail
      | with_reducible apply KeepsEff.ite | with_reducible apply KeepsOpt.some | with_reducible apply KeepsOpt.none
      | with_reducible apply KeepsOpt.ite | with_reducible apply KeepsFault.none | with_reducible apply KeepsFault.some
      | with_reducible apply KeepsFault.ite | with_reducible refine KeepsFault.map (fun x => ?_)
      | with_reducible refine KeepsOpt.map ?_ (fun s h => ?_) | with_reducible refine KeepsOpt.of (fun x => ?_)
      | with_reducible apply Keeps.id | with_reducible refine Keeps.foldl (fun s x h => ?_) _ ?_
      | with_reducible refine Keeps.foldl1 (fun s x h => ?_) _ ?_ | with_reducible refine Keeps.foldl2 (fun s x h => ?_) _ ?_
      | with_reducible refine KeepsEff.foldl (fun s x h => ?_) _ ?_ | simp only [Keeps.mk_iff]
      | with_reducible refine Keeps.snd (by with_reducible assumption) ?_
      | with_reducible refine Keeps.fst (by with_reducible assumption) ?_
      | with_reducible refine KeepsOpt.get (by with_reducible assumption) ?_
      | with_reducible refine KeepsFault.get (by with_reducible assumption) ?_
      | with_reducible refine KeepsEff.get (by with_reducible assumption) ?_
      | with_reducible refine Keeps.third (by with_reducible assumption) ?_ | split

theorem startXch_keeps {o : State} (s : State) (t : ℕ) (f : Flight) (h : Keeps o s) : Keeps o (State.startXch s t f) := by
  unfold State.startXch
  repeat' first
      | with_reducible assumption | with_reducible apply spFault_keeps | with_reducible apply wordEff_keeps
      | with_reducible apply startCounts_keeps | with_reducible apply startRows_keeps | with_reducible apply startRed_keeps
      | with_reducible apply startGather_keeps | with_reducible apply startNorm_keeps | with_reducible apply scalarFinish_keeps
      | with_reducible apply startScalar_keeps | with_reducible apply Keeps.ite | with_reducible apply KeepsEff.ok
      | with_reducible apply KeepsEff.bad | with_reducible apply KeepsEff.fail | with_reducible apply KeepsEff.ite
      | with_reducible apply KeepsOpt.some | with_reducible apply KeepsOpt.none | with_reducible apply KeepsOpt.ite
      | with_reducible apply KeepsFault.none | with_reducible apply KeepsFault.some | with_reducible apply KeepsFault.ite
      | with_reducible apply KeepsOpt.getD | with_reducible apply Keeps.id | simp only [Keeps.mk_iff]
      | with_reducible refine Keeps.snd (by with_reducible assumption) ?_
      | with_reducible refine Keeps.fst (by with_reducible assumption) ?_
      | with_reducible refine KeepsOpt.get (by with_reducible assumption) ?_
      | with_reducible refine KeepsFault.get (by with_reducible assumption) ?_ | split

theorem runXch_keeps {o : State} (a0 : ℕ) (a1 : State) (a2 : ℕ) (h : Keeps o a1) : Keeps o (State.runXch a0 a1 a2) := by
  induction a0 generalizing a1 a2 with
  | zero =>
    unfold State.runXch
    repeat' first
        | with_reducible assumption | with_reducible intro _ | with_reducible apply failWords_keeps
        | with_reducible apply startXch_keeps | with_reducible apply Keeps.ite | with_reducible apply KeepsEff.ok
        | with_reducible apply KeepsEff.bad | with_reducible apply KeepsEff.fail | with_reducible apply KeepsEff.ite
        | with_reducible apply KeepsOpt.some | with_reducible apply KeepsOpt.none | with_reducible apply KeepsOpt.ite
        | with_reducible apply KeepsOpt.getD | with_reducible apply Keeps.id | simp only [Keeps.mk_iff]
        | with_reducible refine Keeps.snd (by with_reducible assumption) ?_
        | with_reducible refine Keeps.fst (by with_reducible assumption) ?_
        | with_reducible refine KeepsOpt.get (by with_reducible assumption) ?_ | split
  | succ n ih =>
    unfold State.runXch
    repeat' first
        | with_reducible assumption | with_reducible apply ih | with_reducible intro _ | with_reducible apply failWords_keeps
        | with_reducible apply startXch_keeps | with_reducible apply Keeps.ite | with_reducible apply KeepsEff.ok
        | with_reducible apply KeepsEff.bad | with_reducible apply KeepsEff.fail | with_reducible apply KeepsEff.ite
        | with_reducible apply KeepsOpt.some | with_reducible apply KeepsOpt.none | with_reducible apply KeepsOpt.ite
        | with_reducible apply KeepsOpt.getD | with_reducible apply Keeps.id | simp only [Keeps.mk_iff]
        | with_reducible refine Keeps.snd (by with_reducible assumption) ?_
        | with_reducible refine Keeps.fst (by with_reducible assumption) ?_
        | with_reducible refine KeepsOpt.get (by with_reducible assumption) ?_ | split

theorem xchEngine_keeps {o : State} (s : State) (p : ℕ) (h : Keeps o s) : Keeps o (State.xchEngine s p) := by
  unfold State.xchEngine
  repeat' first
      | with_reducible assumption | with_reducible intro _ | with_reducible apply runXch_keeps
      | with_reducible refine Keeps.foldl (fun s x h => ?_) _ ?_

theorem xchWord_keeps {o : State} (s : State) (t : ℕ) (w : ℕ) (writes : Bool) (h : Keeps o s) : Keeps o (State.xchWord s t w writes) := by
  unfold State.xchWord
  repeat' first
      | with_reducible assumption | with_reducible apply enqueue_keeps | with_reducible apply xchEngine_keeps
      | with_reducible apply KeepsOpt.getD | simp only [Keeps.mk_iff]

theorem collRow_keeps {o : State} (s : State) (t : ℕ) (op : ℕ) (h : Keeps o s) : Keeps o (State.collRow s t op) := by
  unfold State.collRow
  repeat' first
      | with_reducible assumption | with_reducible intro _ | with_reducible apply tileRow_keeps
      | with_reducible apply illegal_keeps | with_reducible apply xchWord_keeps | with_reducible apply Keeps.ite
      | with_reducible apply KeepsEff.ok | with_reducible apply KeepsEff.bad | with_reducible apply KeepsEff.fail
      | with_reducible apply KeepsEff.ite | split

theorem execXchCounts_keeps {o : State} (t : ℕ) (s : State) (h : Keeps o s) : KeepsOut o (execXchCounts t s) := by
  unfold execXchCounts
  repeat' first
      | with_reducible assumption | with_reducible intro _ | with_reducible apply tileRow_keeps
      | with_reducible apply xchWord_keeps | with_reducible apply KeepsFault.none | with_reducible apply KeepsFault.some
      | with_reducible apply KeepsOut.next

theorem execXchDispatch_keeps {o : State} (t : ℕ) (s : State) (h : Keeps o s) : KeepsOut o (execXchDispatch t s) := by
  unfold execXchDispatch
  repeat' first
      | with_reducible assumption | with_reducible intro _ | with_reducible apply tileRow_keeps
      | with_reducible apply xchWord_keeps | with_reducible apply KeepsFault.none | with_reducible apply KeepsFault.some
      | with_reducible apply KeepsOut.next

theorem execXchCombine_keeps {o : State} (t : ℕ) (s : State) (h : Keeps o s) : KeepsOut o (execXchCombine t s) := by
  unfold execXchCombine
  repeat' first
      | with_reducible assumption | with_reducible intro _ | with_reducible apply tileRow_keeps
      | with_reducible apply xchWord_keeps | with_reducible apply KeepsFault.none | with_reducible apply KeepsFault.some
      | with_reducible apply KeepsOut.next

theorem execXchBdispatch_keeps {o : State} (t : ℕ) (s : State) (h : Keeps o s) : KeepsOut o (execXchBdispatch t s) := by
  unfold execXchBdispatch
  repeat' first
      | with_reducible assumption | with_reducible intro _ | with_reducible apply tileRow_keeps
      | with_reducible apply xchWord_keeps | with_reducible apply KeepsFault.none | with_reducible apply KeepsFault.some
      | with_reducible apply KeepsOut.next

theorem execXchBcombine_keeps {o : State} (t : ℕ) (s : State) (h : Keeps o s) : KeepsOut o (execXchBcombine t s) := by
  unfold execXchBcombine
  repeat' first
      | with_reducible assumption | with_reducible intro _ | with_reducible apply tileRow_keeps
      | with_reducible apply xchWord_keeps | with_reducible apply KeepsFault.none | with_reducible apply KeepsFault.some
      | with_reducible apply KeepsOut.next

theorem execXchCollReduceScatter_keeps {o : State} (t : ℕ) (s : State) (h : Keeps o s) : KeepsOut o (execXchCollReduceScatter t s) := by
  unfold execXchCollReduceScatter
  repeat' first
      | with_reducible assumption | with_reducible apply collRow_keeps | with_reducible apply KeepsFault.none
      | with_reducible apply KeepsFault.some | with_reducible apply KeepsOut.next

theorem execXchCollAllGather_keeps {o : State} (t : ℕ) (s : State) (h : Keeps o s) : KeepsOut o (execXchCollAllGather t s) := by
  unfold execXchCollAllGather
  repeat' first
      | with_reducible assumption | with_reducible apply collRow_keeps | with_reducible apply KeepsFault.none
      | with_reducible apply KeepsFault.some | with_reducible apply KeepsOut.next

theorem execXchCollAllToAll_keeps {o : State} (t : ℕ) (s : State) (h : Keeps o s) : KeepsOut o (execXchCollAllToAll t s) := by
  unfold execXchCollAllToAll
  repeat' first
      | with_reducible assumption | with_reducible apply collRow_keeps | with_reducible apply KeepsFault.none
      | with_reducible apply KeepsFault.some | with_reducible apply KeepsOut.next

theorem execXchCollBroadcast_keeps {o : State} (t : ℕ) (s : State) (h : Keeps o s) : KeepsOut o (execXchCollBroadcast t s) := by
  unfold execXchCollBroadcast
  repeat' first
      | with_reducible assumption | with_reducible apply collRow_keeps | with_reducible apply KeepsFault.none
      | with_reducible apply KeepsFault.some | with_reducible apply KeepsOut.next

theorem execXchCollScalarAllreduce_keeps {o : State} (t : ℕ) (s : State) (h : Keeps o s) : KeepsOut o (execXchCollScalarAllreduce t s) := by
  unfold execXchCollScalarAllreduce
  repeat' first
      | with_reducible assumption | with_reducible apply collRow_keeps | with_reducible apply KeepsFault.none
      | with_reducible apply KeepsFault.some | with_reducible apply KeepsOut.next

theorem execXchCollBarrier_keeps {o : State} (t : ℕ) (s : State) (h : Keeps o s) : KeepsOut o (execXchCollBarrier t s) := by
  unfold execXchCollBarrier
  repeat' first
      | with_reducible assumption | with_reducible apply collRow_keeps | with_reducible apply KeepsFault.none
      | with_reducible apply KeepsFault.some | with_reducible apply KeepsOut.next

theorem execGrant_keeps {o : State} (p : ℕ) (m : Msg) (s : State) (h : Keeps o s) : KeepsOut o (execGrant p m s) := by
  unfold execGrant
  repeat' first
      | with_reducible assumption | with_reducible intro _ | with_reducible apply collective_keeps
      | with_reducible apply xchEngine_keeps | with_reducible apply onGrant_keeps | with_reducible apply Keeps.ite
      | with_reducible apply KeepsFault.none | with_reducible apply KeepsFault.some | with_reducible apply KeepsFault.ite
      | with_reducible apply KeepsOut.next | split

theorem execSegAck_keeps {o : State} (p : ℕ) (m : Msg) (s : State) (h : Keeps o s) : KeepsOut o (execSegAck p m s) := by
  unfold execSegAck
  repeat' first
      | with_reducible assumption | with_reducible intro _ | with_reducible apply collective_keeps
      | with_reducible apply xchEngine_keeps | with_reducible apply onAck_keeps | with_reducible apply Keeps.ite
      | with_reducible apply KeepsFault.none | with_reducible apply KeepsFault.some | with_reducible apply KeepsFault.ite
      | with_reducible apply KeepsOut.next | split

theorem execReductionSegment_keeps {o : State} (p : ℕ) (m : Msg) (s : State) (h : Keeps o s) : KeepsOut o (execReductionSegment p m s) := by
  unfold execReductionSegment
  repeat' first
      | with_reducible assumption | with_reducible intro _ | with_reducible apply collective_keeps
      | with_reducible apply xchEngine_keeps | with_reducible apply onSegment_keeps | with_reducible apply Keeps.ite
      | with_reducible apply KeepsFault.none | with_reducible apply KeepsFault.some | with_reducible apply KeepsFault.ite
      | with_reducible apply KeepsOut.next | split

theorem execAllGatherMessage_keeps {o : State} (p : ℕ) (m : Msg) (s : State) (h : Keeps o s) : KeepsOut o (execAllGatherMessage p m s) := by
  unfold execAllGatherMessage
  repeat' first
      | with_reducible assumption | with_reducible apply xchEngine_keeps | with_reducible apply allGatherMsg_keeps
      | with_reducible apply KeepsFault.none | with_reducible apply KeepsFault.some | with_reducible apply KeepsOut.next

theorem execAllToAllMessage_keeps {o : State} (p : ℕ) (m : Msg) (s : State) (h : Keeps o s) : KeepsOut o (execAllToAllMessage p m s) := by
  unfold execAllToAllMessage
  repeat' first
      | with_reducible assumption | with_reducible apply xchEngine_keeps | with_reducible apply allToAllMsg_keeps
      | with_reducible apply KeepsFault.none | with_reducible apply KeepsFault.some | with_reducible apply KeepsOut.next

theorem execBarrierMessage_keeps {o : State} (p : ℕ) (m : Msg) (s : State) (h : Keeps o s) : KeepsOut o (execBarrierMessage p m s) := by
  unfold execBarrierMessage
  repeat' first
      | with_reducible assumption | with_reducible intro _ | with_reducible apply collective_keeps
      | with_reducible apply xchEngine_keeps | with_reducible apply onScalar_keeps | with_reducible apply scalarFinish_keeps
      | with_reducible apply Keeps.ite | with_reducible apply KeepsFault.none | with_reducible apply KeepsFault.some
      | with_reducible apply KeepsFault.ite | with_reducible apply KeepsOut.next | split

theorem execExchangeCountMessage_keeps {o : State} (p : ℕ) (m : Msg) (s : State) (h : Keeps o s) : KeepsOut o (execExchangeCountMessage p m s) := by
  unfold execExchangeCountMessage
  repeat' first
      | with_reducible assumption | with_reducible intro _ | with_reducible apply collective_keeps
      | with_reducible apply xchEngine_keeps | with_reducible apply onCounts_keeps | with_reducible apply Keeps.ite
      | with_reducible apply KeepsFault.none | with_reducible apply KeepsFault.some | with_reducible apply KeepsFault.ite
      | with_reducible apply KeepsOut.next | split

theorem execExchangeRowsMessage_keeps {o : State} (p : ℕ) (m : Msg) (s : State) (h : Keeps o s) : KeepsOut o (execExchangeRowsMessage p m s) := by
  unfold execExchangeRowsMessage
  repeat' first
      | with_reducible assumption | with_reducible intro _ | with_reducible apply collective_keeps
      | with_reducible apply xchEngine_keeps | with_reducible apply onRows_keeps | with_reducible apply Keeps.ite
      | with_reducible apply KeepsFault.none | with_reducible apply KeepsFault.some | with_reducible apply KeepsFault.ite
      | with_reducible apply KeepsOut.next | split

end Sys2Proof.Machine
end

