-- ==== Sys2Proof/Laws/KeepsKettle.lean ====
section
/-!
SUPPORT. What no operation of Machine/Kettle.lean does (Laws/Keeps.lean).
-/

set_option Elab.async false

namespace Sys2Proof.Machine

theorem stepWrite_keeps {o : State} (s : State) (st : ℕ) (k : KSlot) (o_ : ℕ) (bs : List Byte) (h : Keeps o s) : Keeps o (State.stepWrite s st k o_ bs) := by
  unfold State.stepWrite
  repeat' first
      | with_reducible assumption | with_reducible intro _ | with_reducible apply devWrite_keeps
      | with_reducible apply modKettle_keeps | with_reducible apply Keeps.ite | simp only [Keeps.mk_iff] | split

theorem putSlot_keeps {o : State} (s : State) (st : ℕ) (k : KSlot) (e : ℕ) (clean : ℕ) (last : ℕ) (h : Keeps o s) : Keeps o (State.putSlot s st k e clean last) := by
  unfold State.putSlot
  repeat' first | with_reducible assumption | with_reducible apply stepWrite_keeps

theorem showSlot_keeps {o : State} (s : State) (st : ℕ) (k : KSlot) (skipped : Bool) (h : Keeps o s) : Keeps o (State.showSlot s st k skipped) := by
  unfold State.showSlot
  repeat' first
      | with_reducible assumption | with_reducible apply fset_keeps
      | with_reducible refine Keeps.snd (by with_reducible assumption) ?_
      | with_reducible refine Keeps.fst (by with_reducible assumption) ?_
      | with_reducible refine Keeps.third (by with_reducible assumption) ?_ | split

theorem kettleFails_keeps {o : State} (s : State) (st : ℕ) (status : ℕ) (source : ℕ) (kind : ℕ) (inst : ℕ) (info : ℕ) (bad : Bool) (h : Keeps o s) : Keeps o (State.kettleFails s st status source kind inst info bad) := by
  unfold State.kettleFails
  repeat' first
      | with_reducible assumption | with_reducible apply stopKettle_keeps | with_reducible apply fset_keeps
      | with_reducible apply failLearn_keeps | with_reducible apply raise_keeps | with_reducible apply Keeps.ite
      | with_reducible apply KeepsEff.ok | with_reducible apply KeepsEff.bad | with_reducible apply KeepsEff.fail
      | with_reducible apply KeepsEff.ite | with_reducible apply KeepsOpt.some | with_reducible apply KeepsOpt.none
      | with_reducible apply KeepsOpt.ite | with_reducible refine KeepsOpt.map ?_ (fun s h => ?_)
      | with_reducible refine KeepsOpt.of (fun x => ?_) | simp only [Keeps.mk_iff]
      | with_reducible refine Keeps.snd (by with_reducible assumption) ?_
      | with_reducible refine Keeps.fst (by with_reducible assumption) ?_
      | with_reducible refine KeepsOpt.get (by with_reducible assumption) ?_ | split

theorem kettleHbm_keeps {o : State} (s : State) (st : ℕ) (a : ℕ) (h : Keeps o s) : Keeps o (State.kettleHbm s st a) := by
  unfold State.kettleHbm
  repeat' first | with_reducible assumption | with_reducible apply kettleFails_keeps

theorem nextSlot_keeps {o : State} (s : State) (st : ℕ) (h : Keeps o s) : Keeps o (State.nextSlot s st) := by
  unfold State.nextSlot
  repeat' first
      | with_reducible assumption | with_reducible intro _ | with_reducible apply finc_keeps | with_reducible apply fset_keeps
      | with_reducible apply modKettle_keeps | with_reducible apply Keeps.ite | simp only [Keeps.mk_iff] | split

theorem closeRun_keeps {o : State} (s : State) (st : ℕ) (g : KProg) (h : Keeps o s) : Keeps o (State.closeRun s st g) := by
  unfold State.closeRun
  repeat' first
      | with_reducible assumption | with_reducible apply signalTile_keeps | with_reducible apply nextSlot_keeps
      | with_reducible apply Keeps.ite | with_reducible refine KeepsOpt.map ?_ (fun s h => ?_)
      | with_reducible refine KeepsOpt.of (fun x => ?_) | split

theorem toGroup_keeps {o : State} (s : State) (st : ℕ) (k : KSlot) (g : ℕ) (h : Keeps o s) : Keeps o (State.toGroup s st k g) := by
  unfold State.toGroup
  repeat' first | with_reducible assumption | with_reducible intro _ | with_reducible apply modKettle_keeps | simp only [Keeps.mk_iff]

theorem openBlock_keeps {o : State} (s : State) (st : ℕ) (k : KSlot) (n : ℕ) (h : Keeps o s) : KeepsOpt o (State.openBlock s st k n) := by
  unfold State.openBlock
  repeat' first
      | with_reducible assumption | with_reducible intro _ | with_reducible apply modKettle_keeps
      | with_reducible apply Keeps.ite | with_reducible apply KeepsEff.ok | with_reducible apply KeepsEff.bad
      | with_reducible apply KeepsEff.fail | with_reducible apply KeepsEff.ite | with_reducible apply KeepsOpt.some
      | with_reducible apply KeepsOpt.none | with_reducible apply KeepsOpt.ite | with_reducible refine KeepsOpt.map ?_ (fun s h => ?_)
      | with_reducible refine KeepsOpt.of (fun x => ?_) | simp only [Keeps.mk_iff] | split

theorem openJournal_keeps {o : State} (s : State) (st : ℕ) (k : KSlot) (e : ℕ) (h : Keeps o s) : Keeps o (State.openJournal s st k e) := by
  unfold State.openJournal
  repeat' first
      | with_reducible assumption | with_reducible intro _ | with_reducible apply kettleHbm_keeps
      | with_reducible apply fset_keeps | with_reducible apply modKettle_keeps | with_reducible apply toGroup_keeps
      | with_reducible apply Keeps.ite | with_reducible apply KeepsEff.ok | with_reducible apply KeepsEff.bad
      | with_reducible apply KeepsEff.fail | with_reducible apply KeepsEff.ite | with_reducible apply KeepsOpt.some
      | with_reducible apply KeepsOpt.none | with_reducible apply KeepsOpt.ite | simp only [Keeps.mk_iff]
      | with_reducible refine Keeps.snd (by with_reducible assumption) ?_
      | with_reducible refine Keeps.fst (by with_reducible assumption) ?_
      | with_reducible refine KeepsOpt.get (by with_reducible assumption) ?_ | split

theorem startSlot_keeps {o : State} (s : State) (st : ℕ) (k : KSlot) (h : Keeps o s) : Keeps o (State.startSlot s st k) := by
  unfold State.startSlot
  repeat' first
      | with_reducible assumption | with_reducible apply openJournal_keeps | with_reducible apply kettleHbm_keeps
      | with_reducible apply kettleFails_keeps | with_reducible apply closeRun_keeps | with_reducible apply showSlot_keeps
      | with_reducible apply putSlot_keeps | with_reducible apply tileFault_keeps | with_reducible apply Keeps.ite
      | with_reducible apply KeepsEff.ok | with_reducible apply KeepsEff.bad | with_reducible apply KeepsEff.fail
      | with_reducible apply KeepsEff.ite | with_reducible apply KeepsFault.none | with_reducible apply KeepsFault.some
      | with_reducible apply KeepsFault.ite | with_reducible refine Keeps.snd (by with_reducible assumption) ?_
      | with_reducible refine Keeps.fst (by with_reducible assumption) ?_
      | with_reducible refine KeepsFault.get (by with_reducible assumption) ?_
      | with_reducible refine Keeps.third (by with_reducible assumption) ?_ | split

theorem waitNorm_keeps {o : State} (s : State) (st : ℕ) (k : KSlot) (h : Keeps o s) : Keeps o (State.waitNorm s st k) := by
  unfold State.waitNorm
  repeat' first
      | with_reducible assumption | with_reducible intro _ | with_reducible apply startSlot_keeps
      | with_reducible apply fset_keeps | with_reducible apply modKettle_keeps | with_reducible apply Keeps.ite | simp only [Keeps.mk_iff]
      | split

theorem startRun_keeps {o : State} (s : State) (st : ℕ) (k : KSlot) (h : Keeps o s) : Keeps o (State.startRun s st k) := by
  unfold State.startRun
  repeat' first
      | with_reducible assumption | with_reducible apply fset_keeps | with_reducible apply waitNorm_keeps
      | with_reducible apply Keeps.ite | split

theorem kwrite_keeps {o : State} (s : State) (st : ℕ) (d : ℕ) (rs : List Rnd) (h : Keeps o s) : Keeps o (State.kwrite s st d rs) := by
  unfold State.kwrite
  repeat' first
      | with_reducible assumption | with_reducible intro _ | with_reducible apply flagKettle_keeps
      | with_reducible apply modKettle_keeps | with_reducible refine Keeps.foldl (fun s x h => ?_) _ ?_
      | with_reducible refine Keeps.foldl1 (fun s x h => ?_) _ ?_ | with_reducible refine Keeps.foldl2 (fun s x h => ?_) _ ?_
      | simp only [Keeps.mk_iff]

theorem kload_keeps {o : State} (s : State) (st : ℕ) (k : KSlot) (w : ℕ) (e : ℕ) (c : ℕ) (h : Keeps o s) : Keeps o (State.kload s st k w e c) := by
  unfold State.kload
  repeat' first
      | with_reducible assumption | with_reducible intro _ | with_reducible apply kettleFails_keeps
      | with_reducible apply kettleHbm_keeps | with_reducible apply mend_keeps | with_reducible apply kwrite_keeps
      | with_reducible apply Keeps.ite | with_reducible apply KeepsEff.ok | with_reducible apply KeepsEff.bad
      | with_reducible apply KeepsEff.fail | with_reducible apply KeepsEff.ite | with_reducible refine KeepsOpt.map ?_ (fun s h => ?_)
      | with_reducible refine KeepsOpt.of (fun x => ?_) | with_reducible refine Keeps.snd (by with_reducible assumption) ?_
      | with_reducible refine Keeps.fst (by with_reducible assumption) ?_
      | with_reducible refine Keeps.third (by with_reducible assumption) ?_ | split

theorem kcapture_keeps {o : State} (s : State) (st : ℕ) (n : ℕ) (record : ℕ) (maxima : Tab ℕ) (h : Keeps o s) : Keeps o (State.kcapture s st n record maxima) := by
  unfold State.kcapture
  repeat' first
      | with_reducible assumption | with_reducible intro _ | with_reducible apply devWrite_keeps
      | with_reducible apply modKettle_keeps | with_reducible refine Keeps.foldl (fun s x h => ?_) _ ?_ | simp only [Keeps.mk_iff]

theorem kstore_keeps {o : State} (s : State) (st : ℕ) (k : KSlot) (w : ℕ) (e : ℕ) (c : ℕ) (h : Keeps o s) : Keeps o (State.kstore s st k w e c) := by
  unfold State.kstore
  repeat' first
      | with_reducible assumption | with_reducible intro _ | with_reducible apply kettleHbm_keeps
      | with_reducible apply devWrite_keeps | with_reducible apply kcapture_keeps | with_reducible apply flagKettle_keeps
      | with_reducible apply modKettle_keeps | with_reducible apply Keeps.ite | with_reducible apply KeepsEff.ok
      | with_reducible apply KeepsEff.bad | with_reducible apply KeepsEff.fail | with_reducible apply KeepsEff.ite
      | with_reducible apply KeepsOpt.some | with_reducible apply KeepsOpt.none | with_reducible apply KeepsOpt.ite
      | with_reducible refine KeepsOpt.map ?_ (fun s h => ?_) | with_reducible refine KeepsOpt.of (fun x => ?_)
      | with_reducible apply KeepsOpt.getD | with_reducible refine Keeps.foldl (fun s x h => ?_) _ ?_ | simp only [Keeps.mk_iff] | split

theorem kresidue_keeps {o : State} (s : State) (st : ℕ) (lane : ℕ) (h : Keeps o s) : Keeps o (State.kresidue s st lane) := by
  unfold State.kresidue
  repeat' first
      | with_reducible assumption | with_reducible intro _ | with_reducible apply kettleFails_keeps
      | with_reducible apply modKettle_keeps | simp only [Keeps.mk_iff]

theorem kettleOp_keeps {o : State} (s : State) (st : ℕ) (op : ℕ) (h : Keeps o s) : Keeps o (State.kettleOp s st op) := by
  unfold State.kettleOp
  repeat' first
      | with_reducible assumption | with_reducible intro _ | with_reducible apply openBlock_keeps
      | with_reducible apply kettleHbm_keeps | with_reducible apply kresidue_keeps | with_reducible apply kload_keeps
      | with_reducible apply kstore_keeps | with_reducible apply kwrite_keeps | with_reducible apply modKettle_keeps
      | with_reducible apply toGroup_keeps | with_reducible apply Keeps.ite | with_reducible apply KeepsEff.ok
      | with_reducible apply KeepsEff.bad | with_reducible apply KeepsEff.fail | with_reducible apply KeepsEff.ite
      | with_reducible apply KeepsOpt.some | with_reducible apply KeepsOpt.none | with_reducible apply KeepsOpt.ite
      | with_reducible refine KeepsOpt.map ?_ (fun s h => ?_) | with_reducible refine KeepsOpt.of (fun x => ?_)
      | with_reducible apply KeepsOpt.getD | simp only [Keeps.mk_iff] | with_reducible refine Keeps.snd (by with_reducible assumption) ?_
      | with_reducible refine Keeps.fst (by with_reducible assumption) ?_
      | with_reducible refine KeepsOpt.get (by with_reducible assumption) ?_
      | with_reducible refine Keeps.third (by with_reducible assumption) ?_ | split

theorem kprintPart_keeps {o : State} (s : State) (st : ℕ) (bs : List Byte) (lo : ℕ) (hi : ℕ) (i : ℕ) (h : Keeps o s) : Keeps o (State.kprintPart s st bs lo hi i) := by
  unfold State.kprintPart
  repeat' first
      | with_reducible assumption | with_reducible intro _ | with_reducible apply modKettle_keeps
      | with_reducible apply Keeps.ite | simp only [Keeps.mk_iff] | with_reducible refine Keeps.snd (by with_reducible assumption) ?_
      | with_reducible refine Keeps.fst (by with_reducible assumption) ?_
      | with_reducible refine Keeps.third (by with_reducible assumption) ?_ | split

theorem kprints_keeps {o : State} (s : State) (st : ℕ) (bs : List Byte) (n : ℕ) (h : Keeps o s) : Keeps o (State.kprints s st bs n) := by
  unfold State.kprints
  repeat' first
      | with_reducible assumption | with_reducible intro _ | with_reducible apply kprintPart_keeps
      | with_reducible apply Keeps.ite | with_reducible refine Keeps.foldl (fun s x h => ?_) _ ?_ | split

theorem kfprint_keeps {o : State} (s : State) (st : ℕ) (bs : List Byte) (h : Keeps o s) : Keeps o (State.kfprint s st bs) := by
  unfold State.kfprint
  repeat' first
      | with_reducible assumption | with_reducible intro _ | with_reducible apply devWrite_keeps
      | with_reducible refine Keeps.foldl (fun s x h => ?_) _ ?_

theorem kcounters_keeps {o : State} (s : State) (st : ℕ) (k : KSlot) (lo : ℕ) (hi : ℕ) (h : Keeps o s) : Keeps o (State.kcounters s st k lo hi) := by
  unfold State.kcounters
  repeat' first | with_reducible assumption | with_reducible intro _ | with_reducible apply stepWrite_keeps

theorem kheaders_keeps {o : State} (s : State) (st : ℕ) (bs : List Byte) (h : Keeps o s) : Keeps o (State.kheaders s st bs) := by
  unfold State.kheaders
  repeat' first
      | with_reducible assumption | with_reducible intro _ | with_reducible apply recClose_keeps
      | with_reducible apply recCapture_keeps | with_reducible refine Keeps.foldl (fun s x h => ?_) _ ?_

theorem openFinal_keeps {o : State} (s t : State) (st : Nat) (k : KSlot) (f : Nat) (h : Keeps o s) (e : s.openFinal st k f = .inl t) :
    Keeps o t := by
  unfold State.openFinal at e
  dsimp only at e
  split at e
  · cases e
  · cases e
    with_reducible exact modKettle_keeps h _ _

theorem writeFinal_keeps {o : State} (s : State) (st : ℕ) (k : KSlot) (f : ℕ) (h : Keeps o s) : Keeps o (State.writeFinal s st k f) := by
  unfold State.writeFinal
  repeat' first
      | with_reducible assumption | with_reducible apply kcounters_keeps | with_reducible apply putSlot_keeps
      | with_reducible apply kheaders_keeps | with_reducible apply kfprint_keeps | with_reducible apply Keeps.ite
      | with_reducible refine Keeps.snd (by with_reducible assumption) ?_
      | with_reducible refine Keeps.fst (by with_reducible assumption) ?_
      | with_reducible refine Keeps.third (by with_reducible assumption) ?_ | split

theorem commitBlock_keeps {o : State} (s : State) (st : ℕ) (n : ℕ) (h : Keeps o s) : Keeps o (State.commitBlock s st n) := by
  unfold State.commitBlock
  repeat' first
      | with_reducible assumption | with_reducible intro _ | with_reducible apply modKettle_keeps
      | with_reducible apply fset_keeps | simp only [Keeps.mk_iff]

theorem closeJournal_keeps {o : State} (s : State) (st : ℕ) (r : KProg) (h : Keeps o s) : Keeps o (State.closeJournal s st r) := by
  unfold State.closeJournal
  repeat' first | with_reducible assumption | with_reducible apply closeRun_keeps | with_reducible apply fset_keeps

theorem commitElems_keeps {o : State} (s : State) (st : ℕ) (k : KSlot) (n : ℕ) (h : Keeps o s) : Keeps o (State.commitElems s st k n) := by
  unfold State.commitElems
  repeat' first
      | with_reducible assumption | with_reducible intro _ | with_reducible apply kprints_keeps
      | with_reducible apply modKettle_keeps | with_reducible apply commitBlock_keeps | with_reducible apply kheaders_keeps
      | with_reducible apply closeJournal_keeps | with_reducible apply kfprint_keeps | with_reducible apply fset_keeps
      | with_reducible apply Keeps.ite | with_reducible refine KeepsOpt.map ?_ (fun s h => ?_)
      | with_reducible refine KeepsOpt.of (fun x => ?_) | with_reducible refine Keeps.foldl (fun s x h => ?_) _ ?_
      | simp only [Keeps.mk_iff] | split

theorem finalBlock_keeps {o : State} (s : State) (st : Nat) (k : KSlot) (n : Nat) (h : Keeps o s) : Keeps o (s.finalBlock st k n) := by
  unfold State.finalBlock
  dsimp only
  repeat' first
    | with_reducible assumption
    | with_reducible exact kettleHbm_keeps _ _ _ h
    | with_reducible exact openFinal_keeps _ _ _ _ _ h (by assumption)
    | with_reducible apply Keeps.ite
    | with_reducible apply closeJournal_keeps
    | with_reducible apply showSlot_keeps
    | with_reducible apply commitBlock_keeps
    | with_reducible apply writeFinal_keeps
    | split

theorem kcommit_keeps {o : State} (s : State) (st : ℕ) (h : Keeps o s) : Keeps o (State.kcommit s st) := by
  unfold State.kcommit
  repeat' first
      | with_reducible assumption | with_reducible apply commitElems_keeps | with_reducible apply finalBlock_keeps
      | with_reducible apply Keeps.ite | with_reducible apply KeepsOpt.some | with_reducible apply KeepsOpt.none
      | with_reducible apply KeepsOpt.ite | simp only [Keeps.mk_iff] | with_reducible refine Keeps.snd (by with_reducible assumption) ?_
      | with_reducible refine Keeps.fst (by with_reducible assumption) ?_
      | with_reducible refine KeepsOpt.get (by with_reducible assumption) ?_ | split

theorem startKettles_keeps {o : State} (s : State) (p : ℕ) (why : ℕ) (stepNo : ℕ) (seed : ℕ) (h : Keeps o s) : Keeps o (State.startKettles s p why stepNo seed) := by
  unfold State.startKettles
  repeat' first
      | with_reducible assumption | with_reducible intro _ | with_reducible apply modKettle_keeps
      | with_reducible apply Keeps.ite | with_reducible refine Keeps.foldl (fun s x h => ?_) _ ?_
      | with_reducible refine Keeps.foldl1 (fun s x h => ?_) _ ?_ | with_reducible refine Keeps.foldl2 (fun s x h => ?_) _ ?_
      | simp only [Keeps.mk_iff] | split

theorem resumeKettle_keeps {o : State} (s : State) (st : ℕ) (h : Keeps o s) : Keeps o (State.resumeKettle s st) := by
  unfold State.resumeKettle
  repeat' first
      | with_reducible assumption | with_reducible intro _ | with_reducible apply modKettle_keeps
      | with_reducible apply fset_keeps | with_reducible apply kettleHbm_keeps | with_reducible apply toGroup_keeps
      | with_reducible apply Keeps.ite | with_reducible apply KeepsEff.ok | with_reducible apply KeepsEff.bad
      | with_reducible apply KeepsEff.fail | with_reducible apply KeepsEff.ite | with_reducible apply KeepsOpt.some
      | with_reducible apply KeepsOpt.none | with_reducible apply KeepsOpt.ite | simp only [Keeps.mk_iff]
      | with_reducible refine Keeps.snd (by with_reducible assumption) ?_
      | with_reducible refine Keeps.fst (by with_reducible assumption) ?_
      | with_reducible refine KeepsOpt.get (by with_reducible assumption) ?_ | split

theorem kettleRow_keeps {o : State} (s : State) (st : ℕ) (op : ℕ) (h : Keeps o s) : Keeps o (State.kettleRow s st op) := by
  unfold State.kettleRow
  repeat' first | with_reducible assumption | with_reducible apply kettleOp_keeps | with_reducible apply Keeps.ite | split

end Sys2Proof.Machine
end

