-- ==== Sys2Proof/Laws/KeepsLoader.lean ====
section
/-!
SUPPORT. What no operation of Machine/Loader.lean does (Laws/Keeps.lean).
-/

set_option Elab.async false

namespace Sys2Proof.Machine

theorem runStage_keeps {o : State} (s : State) (c : Cmd) (h : Keeps o s) : Keeps o (State.runStage s c) := by
  unfold State.runStage
  repeat' first
      | with_reducible assumption | with_reducible apply complete_keeps | with_reducible apply hostWrite_keeps
      | with_reducible apply Keeps.ite | with_reducible apply KeepsEff.ok | with_reducible apply KeepsEff.bad
      | with_reducible apply KeepsEff.fail | with_reducible apply KeepsEff.ite | simp only [Keeps.mk_iff] | split

theorem execImageStage_keeps {o : State} (fn : ℕ) (ring : ℕ) (s : State) (h : Keeps o s) : KeepsOut o (execImageStage fn ring s) := by
  unfold execImageStage
  repeat' first
      | with_reducible assumption | with_reducible intro _ | with_reducible apply hostCmd_keeps
      | with_reducible apply runStage_keeps | with_reducible apply KeepsFault.none | with_reducible apply KeepsFault.some
      | with_reducible apply KeepsOut.next

theorem execImageRelease_keeps {o : State} (fn : ℕ) (ring : ℕ) (s : State) (h : Keeps o s) : KeepsOut o (execImageRelease fn ring s) := by
  unfold execImageRelease
  repeat' first
      | with_reducible assumption | with_reducible intro _ | with_reducible apply hostCmd_keeps
      | with_reducible apply complete_keeps | with_reducible apply Keeps.ite | with_reducible apply KeepsEff.ok
      | with_reducible apply KeepsEff.bad | with_reducible apply KeepsEff.fail | with_reducible apply KeepsEff.ite
      | with_reducible apply KeepsFault.none | with_reducible apply KeepsFault.some | with_reducible apply KeepsFault.ite
      | with_reducible apply KeepsOut.next | simp only [Keeps.mk_iff] | split

theorem lastApply_keeps {o : State} (s : State) (part : ℕ) (reason : ℕ) (h : Keeps o s) : Keeps o (State.lastApply s part reason) := by
  unfold State.lastApply
  repeat' first | with_reducible assumption | with_reducible apply fset_keeps | with_reducible apply Keeps.ite | split

theorem resetFields_keeps {o : State} (s : State) (fs : List Fld) (i : ℕ) (h : Keeps o s) : Keeps o (State.resetFields s fs i) := by
  unfold State.resetFields
  repeat' first
      | with_reducible assumption | with_reducible intro _ | with_reducible apply fset_keeps
      | with_reducible refine Keeps.foldl (fun s x h => ?_) _ ?_

theorem spargeTile_keeps {o : State} (s : State) (t : Nat) (h : Keeps o s) : Keeps o (s.spargeTile t) := by
  unfold State.spargeTile
  refine Keeps.foldl (fun s x h => fset_keeps h _ _ _) _ (resetFields_keeps _ _ _ (setTile_keeps ?_ _ _))
  refine Keeps.engine (devZero_keeps h (scratchBase t) scratchBytes) ?_ ?_ ?_ ?_ ?_ ?_ ?_ ?_ ?_ ?_ ?_ ?_ ?_ ?_ ?_ <;>
    first | rfl | exact mem_wf_zero _ _ | exact tab_wf_clear _ _

theorem spargeBay_keeps {o : State} (s : State) (b : ℕ) (h : Keeps o s) : Keeps o (State.spargeBay s b) := by
  unfold State.spargeBay
  repeat' first
      | with_reducible assumption | with_reducible intro _ | with_reducible apply spargeTile_keeps
      | with_reducible apply setKettle_keeps | with_reducible apply fset_keeps | with_reducible apply resetFields_keeps
      | with_reducible apply setBay_keeps | with_reducible refine Keeps.foldl (fun s x h => ?_) _ ?_ | simp only [Keeps.mk_iff]

theorem resetVf_keeps {o : State} (s : State) (fn : ℕ) (h : Keeps o s) : Keeps o (State.resetVf s fn) := by
  unfold State.resetVf
  repeat' first
      | with_reducible assumption | with_reducible intro _ | with_reducible apply setRing_keeps
      | with_reducible apply resetFields_keeps | with_reducible refine Keeps.foldl (fun s x h => ?_) _ ?_ | simp only [Keeps.mk_iff]

theorem endSession_keeps {o : State} (s : State) (p : ℕ) (h : Keeps o s) : Keeps o (State.endSession s p) := by
  unfold State.endSession
  repeat' first
      | with_reducible assumption | with_reducible intro _ | with_reducible apply fset_keeps
      | with_reducible apply modPart_keeps | simp only [Keeps.mk_iff]

theorem spargePart_keeps {o : State} (s : State) (p : ℕ) (h : Keeps o s) : Keeps o (State.spargePart s p) := by
  unfold State.spargePart
  repeat' first
      | with_reducible assumption | with_reducible intro _ | with_reducible apply free1_keeps
      | with_reducible apply modPart_keeps | with_reducible apply endSession_keeps | with_reducible apply resetVf_keeps
      | with_reducible apply fset_keeps | with_reducible apply finc_keeps | with_reducible apply Keeps.ite | simp only [Keeps.mk_iff]
      | with_reducible refine Keeps.snd (by with_reducible assumption) ?_
      | with_reducible refine Keeps.fst (by with_reducible assumption) ?_
      | with_reducible refine Keeps.third (by with_reducible assumption) ?_ | split

theorem sparge_keeps {o : State} (s : State) (bays : List ℕ) (parts : List ℕ) (h : Keeps o s) : Keeps o (State.sparge s bays parts) := by
  unfold State.sparge
  repeat' first
      | with_reducible assumption | with_reducible intro _ | with_reducible apply spargePart_keeps
      | with_reducible apply spargeBay_keeps | with_reducible refine Keeps.foldl (fun s x h => ?_) _ ?_

theorem trainPort_keeps {o : State} (s : State) (q : ℕ) (h : Keeps o s) : Keeps o (State.trainPort s q) := by
  unfold State.trainPort
  repeat' first
      | with_reducible assumption | with_reducible intro _ | with_reducible apply modPort_keeps
      | with_reducible apply fset_keeps | simp only [Keeps.mk_iff]

theorem stopPort_keeps {o : State} (s : State) (q : ℕ) (h : Keeps o s) : Keeps o (State.stopPort s q) := by
  unfold State.stopPort
  repeat' first
      | with_reducible assumption | with_reducible apply finc_keeps | with_reducible apply resetFields_keeps
      | with_reducible apply setPort_keeps

theorem setPorts_keeps {o : State} (s : State) (p : ℕ) (ports : List ℕ) (h : Keeps o s) : Keeps o (State.setPorts s p ports) := by
  unfold State.setPorts
  repeat' first
      | with_reducible assumption | with_reducible intro _ | with_reducible apply trainPort_keeps
      | with_reducible apply stopPort_keeps | with_reducible apply modPart_keeps | with_reducible apply Keeps.ite
      | with_reducible refine Keeps.foldl (fun s x h => ?_) _ ?_ | simp only [Keeps.mk_iff] | split

theorem showDegraded_keeps {o : State} (s : State) (h : Keeps o s) : Keeps o (State.showDegraded s) := by
  unfold State.showDegraded
  repeat' first | with_reducible assumption | with_reducible intro _ | with_reducible apply fset_keeps

theorem configure_keeps {o : State} (s : State) (p : ℕ) (c : Cfg) (digest : List Byte) (epoch : ℕ) (h : Keeps o s) : Keeps o (State.configure s p c digest epoch) := by
  unfold State.configure
  repeat' first
      | with_reducible assumption | with_reducible intro _ | with_reducible apply fset_keeps | with_reducible apply setBay_keeps
      | with_reducible apply modPart_keeps | with_reducible apply setEpoch_keeps | with_reducible apply showDegraded_keeps
      | with_reducible apply setPorts_keeps | with_reducible apply writeTables_keeps | with_reducible apply seqRest_keeps
      | with_reducible apply take_keeps | with_reducible apply Keeps.ite | with_reducible apply KeepsOpt.some
      | with_reducible apply KeepsOpt.none | with_reducible apply KeepsOpt.ite | with_reducible refine KeepsOpt.map ?_ (fun s h => ?_)
      | with_reducible refine KeepsOpt.of (fun x => ?_) | with_reducible refine Keeps.foldl (fun s x h => ?_) _ ?_
      | simp only [Keeps.mk_iff] | split

theorem undefine_keeps {o : State} (s : State) (p : ℕ) (h : Keeps o s) : Keeps o (State.undefine s p) := by
  unfold State.undefine
  repeat' first
      | with_reducible assumption | with_reducible intro _ | with_reducible apply fset_keeps | with_reducible apply setBay_keeps
      | with_reducible apply modPart_keeps | with_reducible apply setPorts_keeps | with_reducible refine Keeps.foldl (fun s x h => ?_) _ ?_
      | simp only [Keeps.mk_iff]

theorem startDrain_keeps {o : State} (s : State) (p : ℕ) (why : ℕ) (by_ : ℕ) (h : Keeps o s) : Keeps o (State.startDrain s p why by_) := by
  unfold State.startDrain
  repeat' first
      | with_reducible assumption | with_reducible intro _ | with_reducible apply complete_keeps
      | with_reducible apply fset_keeps | with_reducible apply modPart_keeps | with_reducible apply Keeps.ite
      | with_reducible refine Keeps.foldl (fun s x h => ?_) _ ?_ | simp only [Keeps.mk_iff] | split

theorem stopLearn_keeps {o : State} (s : State) (p : ℕ) (h : Keeps o s) : Keeps o (State.stopLearn s p) := by
  unfold State.stopLearn
  repeat' first
      | with_reducible assumption | with_reducible intro _ | with_reducible apply stopTiles_keeps
      | with_reducible apply failWords_keeps | with_reducible apply dropColls_keeps | with_reducible apply stopKettle_keeps
      | with_reducible apply modPart_keeps | with_reducible apply Keeps.ite | with_reducible apply KeepsEff.ok
      | with_reducible apply KeepsEff.bad | with_reducible apply KeepsEff.fail | with_reducible apply KeepsEff.ite
      | with_reducible refine Keeps.foldl (fun s x h => ?_) _ ?_ | simp only [Keeps.mk_iff] | split

theorem stopRuns_keeps {o : State} (s : State) (p : ℕ) (why : ℕ) (h : Keeps o s) : Keeps o (State.stopRuns s p why) := by
  unfold State.stopRuns
  repeat' first
      | with_reducible assumption | with_reducible intro _ | with_reducible apply stopKettle_keeps
      | with_reducible apply Keeps.ite | with_reducible refine Keeps.foldl (fun s x h => ?_) _ ?_ | split

theorem haltFor_keeps {o : State} (s : State) (p : ℕ) (g : ℕ → Bool) (h : Keeps o s) : Keeps o (State.haltFor s p g) := by
  unfold State.haltFor
  repeat' first
      | with_reducible assumption | with_reducible intro _ | with_reducible apply stopLearn_keeps
      | with_reducible apply stopRuns_keeps | with_reducible apply haltTurn_keeps | with_reducible apply modPart_keeps
      | with_reducible apply dropRefresh_keeps | with_reducible apply dropReplay_keeps | with_reducible apply modBay_keeps
      | with_reducible apply Keeps.ite | with_reducible apply Keeps.id | with_reducible refine Keeps.foldl (fun s x h => ?_) _ ?_
      | simp only [Keeps.mk_iff] | split

theorem endDrain_keeps {o : State} (s : State) (p : ℕ) (d : Drain) (h : Keeps o s) : Keeps o (State.endDrain s p d) := by
  unfold State.endDrain
  repeat' first
      | with_reducible assumption | with_reducible intro _ | with_reducible apply stopPort_keeps
      | with_reducible apply haltFor_keeps | with_reducible apply complete_keeps | with_reducible apply fset_keeps
      | with_reducible apply endStep_keeps | with_reducible apply failRollout_keeps | with_reducible apply dropColls_keeps
      | with_reducible apply dropSeqs_keeps | with_reducible apply Keeps.ite | with_reducible apply KeepsEff.ok
      | with_reducible apply KeepsEff.bad | with_reducible apply KeepsEff.fail | with_reducible apply KeepsEff.ite
      | with_reducible apply Keeps.id | with_reducible refine Keeps.foldl (fun s x h => ?_) _ ?_ | split

theorem showLoader_keeps {o : State} (s : State) (h : Keeps o s) : Keeps o (State.showLoader s) := by
  unfold State.showLoader
  repeat' first | with_reducible assumption | with_reducible apply fset_keeps

theorem dropJob_keeps {o : State} (s : State) (j : Job) (h : Keeps o s) : Keeps o (State.dropJob s j) := by
  unfold State.dropJob
  repeat' first | with_reducible assumption | with_reducible intro _ | with_reducible apply showLoader_keeps | simp only [Keeps.mk_iff]

theorem startJob_keeps {o : State} (s : State) (j : Job) (h : Keeps o s) : Keeps o (State.startJob s j).1 := by
  unfold State.startJob
  repeat' first
      | with_reducible assumption | with_reducible intro _ | with_reducible apply fset_keeps
      | with_reducible apply showLoader_keeps | with_reducible apply startDrain_keeps | with_reducible apply dropJob_keeps
      | with_reducible apply lastApply_keeps | with_reducible apply Keeps.ite | with_reducible apply KeepsEff.ok
      | with_reducible apply KeepsEff.bad | with_reducible apply KeepsEff.fail | with_reducible apply KeepsEff.ite
      | with_reducible apply KeepsOpt.some | with_reducible apply KeepsOpt.none | with_reducible apply KeepsOpt.ite
      | with_reducible refine KeepsOpt.map ?_ (fun s h => ?_) | with_reducible refine KeepsOpt.of (fun x => ?_)
      | with_reducible refine Keeps.foldl (fun s x h => ?_) _ ?_ | with_reducible refine Keeps.foldl1 (fun s x h => ?_) _ ?_
      | with_reducible refine Keeps.foldl2 (fun s x h => ?_) _ ?_ | simp only [Keeps.mk_iff]
      | with_reducible refine Keeps.snd (by with_reducible assumption) ?_
      | with_reducible refine Keeps.fst (by with_reducible assumption) ?_
      | with_reducible refine KeepsOpt.get (by with_reducible assumption) ?_
      | with_reducible refine Keeps.third (by with_reducible assumption) ?_ | split | dsimp only

theorem phaseAfter_keeps {o : State} (s : State) (p : ℕ) (was : Bool) (j : Job) (h : Keeps o s) : Keeps o (State.phaseAfter s p was j) := by
  unfold State.phaseAfter
  repeat' first
      | with_reducible assumption | with_reducible intro _ | with_reducible apply modPart_keeps
      | with_reducible apply fset_keeps | with_reducible apply Keeps.ite | simp only [Keeps.mk_iff] | split

theorem startCapture_keeps {o : State} (s : State) (p : ℕ) (digest : List Byte) (h : Keeps o s) : Keeps o (State.startCapture s p digest) := by
  unfold State.startCapture
  repeat' first
      | with_reducible assumption | with_reducible intro _ | with_reducible apply fset_keeps
      | with_reducible apply modPart_keeps | with_reducible apply capture_keeps | with_reducible apply Keeps.ite | simp only [Keeps.mk_iff]
      | split

theorem applyImage_keeps {o : State} (s : State) (j : Job) (g : Staged) (h : Keeps o s) : Keeps o (State.applyImage s j g) := by
  unfold State.applyImage
  repeat' first
      | with_reducible assumption | with_reducible intro _ | with_reducible apply sparge_keeps
      | with_reducible apply undefine_keeps | with_reducible apply configure_keeps | with_reducible apply startCapture_keeps
      | with_reducible apply phaseAfter_keeps | with_reducible apply lastApply_keeps | with_reducible apply Keeps.ite
      | with_reducible refine KeepsOpt.map ?_ (fun s h => ?_) | with_reducible refine KeepsOpt.of (fun x => ?_)
      | with_reducible apply KeepsOpt.getD | with_reducible refine Keeps.foldl (fun s x h => ?_) _ ?_ | split

theorem finishJob_keeps {o : State} (s : State) (j : Job) (h : Keeps o s) : Keeps o (State.finishJob s j).1 := by
  unfold State.finishJob
  repeat' first
      | with_reducible assumption | with_reducible intro _ | with_reducible apply dropJob_keeps
      | with_reducible apply sparge_keeps | with_reducible apply fset_keeps | with_reducible apply modPart_keeps
      | with_reducible apply lastApply_keeps | with_reducible apply configure_keeps | with_reducible apply applyImage_keeps
      | with_reducible apply Keeps.ite | with_reducible apply KeepsEff.ok | with_reducible apply KeepsEff.bad
      | with_reducible apply KeepsEff.fail | with_reducible apply KeepsEff.ite | with_reducible apply KeepsOpt.some
      | with_reducible apply KeepsOpt.none | with_reducible apply KeepsOpt.ite | with_reducible refine KeepsOpt.map ?_ (fun s h => ?_)
      | with_reducible refine KeepsOpt.of (fun x => ?_) | simp only [Keeps.mk_iff]
      | with_reducible refine Keeps.snd (by with_reducible assumption) ?_
      | with_reducible refine Keeps.fst (by with_reducible assumption) ?_
      | with_reducible refine KeepsOpt.get (by with_reducible assumption) ?_
      | with_reducible refine KeepsEff.get (by with_reducible assumption) ?_ | split | dsimp only

theorem addJob_keeps {o : State} (s : State) (j : Job) (h : Keeps o s) : Keeps o (State.addJob s j) := by
  unfold State.addJob
  repeat' first | with_reducible assumption | simp only [Keeps.mk_iff]

end Sys2Proof.Machine
end

