-- ==== Sys2Proof/Laws/KeepsLinks.lean ====
section
/-!
SUPPORT. What no operation of Machine/Links.lean does (Laws/Keeps.lean).
-/

set_option Elab.async false

namespace Sys2Proof.Machine

theorem replayPort_keeps {o : State} (s : State) (q : ℕ) (fresh : Bool) (h : Keeps o s) : Keeps o (State.replayPort s q fresh) := by
  unfold State.replayPort
  repeat' first
      | with_reducible assumption | with_reducible intro _ | with_reducible apply pump_keeps
      | with_reducible apply modPort_keeps | simp only [Keeps.mk_iff]

theorem onNak_keeps {o : State} (s : State) (q : ℕ) (h : Keeps o s) : Keeps o (State.onNak s q) := by
  unfold State.onNak
  repeat' first
      | with_reducible assumption | with_reducible intro _ | with_reducible apply raise_keeps
      | with_reducible apply modPort_keeps | with_reducible apply trainPort_keeps | with_reducible apply replayPort_keeps
      | with_reducible apply Keeps.ite | with_reducible refine KeepsOpt.map ?_ (fun s h => ?_)
      | with_reducible refine KeepsOpt.of (fun x => ?_) | simp only [Keeps.mk_iff] | split

theorem credit1_keeps {o : State} (s : State) (q : ℕ) (vc : ℕ) (h : Keeps o s) : Keeps o (State.credit1 s q vc) := by
  unfold State.credit1
  repeat' first | with_reducible assumption | with_reducible intro _ | with_reducible apply modPort_keeps | simp only [Keeps.mk_iff]

theorem dropFlit_keeps {o : State} (s : State) (q : ℕ) (f : BitVec 2048) (h : Keeps o s) : Keeps o (State.dropFlit s q f) := by
  unfold State.dropFlit
  repeat' first | with_reducible assumption | with_reducible apply finc_keeps | with_reducible apply credit1_keeps

theorem giveBack_keeps {o : State} (s : State) (p : ℕ) (h : Keeps o s) : Keeps o (State.giveBack s p) := by
  unfold State.giveBack
  repeat' first
      | with_reducible assumption | with_reducible intro _ | with_reducible apply credit1_keeps
      | with_reducible apply modPort_keeps | with_reducible apply KeepsOpt.some | with_reducible apply KeepsOpt.none
      | simp only [Keeps.mk_iff] | with_reducible refine Keeps.snd (by with_reducible assumption) ?_
      | with_reducible refine Keeps.fst (by with_reducible assumption) ?_
      | with_reducible refine KeepsOpt.get (by with_reducible assumption) ?_ | split

theorem reassemble_keeps {o : State} (s : State) (p : ℕ) (q : ℕ) (f : BitVec 2048) (h : Keeps o s) : Keeps o (State.reassemble s p q f) := by
  unfold State.reassemble
  repeat' first
      | with_reducible assumption | with_reducible intro _ | with_reducible apply credit1_keeps
      | with_reducible apply giveBack_keeps | with_reducible apply modPort_keeps | with_reducible apply Keeps.ite
      | with_reducible apply KeepsOpt.some | with_reducible apply KeepsOpt.none | with_reducible apply KeepsOpt.ite
      | with_reducible apply KeepsOpt.getD | simp only [Keeps.mk_iff] | with_reducible refine Keeps.snd (by with_reducible assumption) ?_
      | with_reducible refine Keeps.fst (by with_reducible assumption) ?_
      | with_reducible refine KeepsOpt.get (by with_reducible assumption) ?_ | split

theorem deliver_keeps {o : State} (s : State) (p : ℕ) (q : ℕ) (f : BitVec 2048) (h : Keeps o s) : Keeps o (State.deliver s p q f) := by
  unfold State.deliver
  repeat' first
      | with_reducible assumption | with_reducible apply dropFlit_keeps | with_reducible apply finc_keeps
      | with_reducible apply credit1_keeps | with_reducible apply reassemble_keeps | with_reducible apply Keeps.ite | split

theorem forward_keeps {o : State} (s : State) (p : ℕ) (q : ℕ) (f : BitVec 2048) (h : Keeps o s) : Keeps o (State.forward s p q f) := by
  unfold State.forward
  repeat' first
      | with_reducible assumption | with_reducible apply raise_keeps | with_reducible apply dropFlit_keeps
      | with_reducible apply queueOn_keeps | with_reducible apply credit1_keeps | with_reducible apply Keeps.ite
      | with_reducible apply KeepsOpt.some | with_reducible apply KeepsOpt.none | with_reducible apply KeepsOpt.ite
      | simp only [Keeps.mk_iff] | with_reducible refine Keeps.snd (by with_reducible assumption) ?_
      | with_reducible refine Keeps.fst (by with_reducible assumption) ?_
      | with_reducible refine KeepsOpt.get (by with_reducible assumption) ?_ | split

theorem dropQueued_keeps {o : State} (s : State) (e : BitVec 2048 × ℕ) (h : Keeps o s) : Keeps o (State.dropQueued s e) := by
  unfold State.dropQueued
  repeat' first
      | with_reducible assumption | with_reducible apply raise_keeps | with_reducible apply finc_keeps
      | with_reducible apply localDrop_keeps | with_reducible apply Keeps.ite | split

theorem portDown_keeps {o : State} (s : State) (q : ℕ) (h : Keeps o s) : Keeps o (State.portDown s q) := by
  unfold State.portDown
  repeat' first
      | with_reducible assumption | with_reducible intro _ | with_reducible apply fset_keeps
      | with_reducible apply queueOn_keeps | with_reducible apply setPort_keeps | with_reducible apply finc_keeps
      | with_reducible apply dropQueued_keeps | with_reducible apply raise_keeps | with_reducible apply KeepsOpt.some
      | with_reducible apply KeepsOpt.none | with_reducible refine KeepsOpt.map ?_ (fun s h => ?_)
      | with_reducible refine KeepsOpt.of (fun x => ?_) | with_reducible refine KeepsOpt.bind ?_ (fun s h => ?_)
      | with_reducible refine Keeps.foldl (fun s x h => ?_) _ ?_ | with_reducible refine Keeps.foldl1 (fun s x h => ?_) _ ?_
      | with_reducible refine Keeps.foldl2 (fun s x h => ?_) _ ?_ | simp only [Keeps.mk_iff]
      | with_reducible refine Keeps.snd (by with_reducible assumption) ?_
      | with_reducible refine Keeps.fst (by with_reducible assumption) ?_
      | with_reducible refine KeepsOpt.get (by with_reducible assumption) ?_ | split

theorem sendLane_keeps {o : State} (s : State) (q : ℕ) (lane : ℕ) (h : Keeps o s) : Keeps o (State.sendLane s q lane) := by
  unfold State.sendLane
  repeat' first
      | with_reducible assumption | with_reducible intro _ | with_reducible apply queueOn_keeps
      | with_reducible refine KeepsOpt.map ?_ (fun s h => ?_) | with_reducible refine KeepsOpt.of (fun x => ?_)
      | with_reducible apply KeepsOpt.getD

theorem laneFails_keeps {o : State} (s : State) (q : ℕ) (lane : ℕ) (tell : Bool) (h : Keeps o s) : Keeps o (State.laneFails s q lane tell) := by
  unfold State.laneFails
  repeat' first
      | with_reducible assumption | with_reducible intro _ | with_reducible apply raise_keeps | with_reducible apply fset_keeps
      | with_reducible apply sendLane_keeps | with_reducible apply portDown_keeps | with_reducible apply modPort_keeps
      | with_reducible apply Keeps.ite | simp only [Keeps.mk_iff] | split

theorem acceptFlit_keeps {o : State} (s : State) (q : ℕ) (f : BitVec 2048) (h : Keeps o s) : Keeps o (State.acceptFlit s q f) := by
  unfold State.acceptFlit
  repeat' first
      | with_reducible assumption | with_reducible intro _ | with_reducible apply finc_keeps
      | with_reducible apply modPort_keeps | with_reducible apply laneFails_keeps | with_reducible apply credit1_keeps
      | with_reducible apply deliver_keeps | with_reducible apply forward_keeps | with_reducible apply Keeps.ite
      | with_reducible apply KeepsOpt.some | with_reducible apply KeepsOpt.none | with_reducible apply KeepsOpt.ite
      | simp only [Keeps.mk_iff] | with_reducible refine Keeps.snd (by with_reducible assumption) ?_
      | with_reducible refine Keeps.fst (by with_reducible assumption) ?_
      | with_reducible refine KeepsOpt.get (by with_reducible assumption) ?_ | split

theorem linkFields_keeps {o : State} (s : State) (q : ℕ) (f : BitVec 2048) (h : Keeps o s) : Keeps o (State.linkFields s q f) := by
  unfold State.linkFields
  repeat' first
      | with_reducible assumption | with_reducible intro _ | with_reducible apply modPort_keeps
      | with_reducible apply onNak_keeps | with_reducible apply resend_keeps | with_reducible apply Keeps.ite | simp only [Keeps.mk_iff]
      | split

theorem crcFails_keeps {o : State} (s : State) (q : ℕ) (h : Keeps o s) : Keeps o (State.crcFails s q) := by
  unfold State.crcFails
  repeat' first
      | with_reducible assumption | with_reducible intro _ | with_reducible apply free1_keeps | with_reducible apply finc_keeps
      | with_reducible apply modPort_keeps | with_reducible apply pump_keeps | simp only [Keeps.mk_iff]
      | with_reducible refine Keeps.snd (by with_reducible assumption) ?_
      | with_reducible refine Keeps.fst (by with_reducible assumption) ?_
      | with_reducible refine Keeps.third (by with_reducible assumption) ?_ | split

theorem badFlit_keeps {o : State} (s : State) (q : ℕ) (f : BitVec 2048) (h : Keeps o s) : Keeps o (State.badFlit s q f) := by
  unfold State.badFlit
  repeat' first
      | with_reducible assumption | with_reducible intro _ | with_reducible apply credit1_keeps
      | with_reducible apply modPort_keeps | with_reducible apply raise_keeps | with_reducible apply Keeps.ite
      | with_reducible apply KeepsEff.ok | with_reducible apply KeepsEff.bad | with_reducible apply KeepsEff.fail
      | with_reducible apply KeepsEff.ite | simp only [Keeps.mk_iff] | split

theorem takeFlit_keeps {o : State} (s : State) (q : ℕ) (f : BitVec 2048) (h : Keeps o s) : Keeps o (State.takeFlit s q f) := by
  unfold State.takeFlit
  repeat' first
      | with_reducible assumption | with_reducible apply free1_keeps | with_reducible apply finc_keeps
      | with_reducible apply crcFails_keeps | with_reducible apply linkFields_keeps | with_reducible apply badFlit_keeps
      | with_reducible apply acceptFlit_keeps | with_reducible apply pump_keeps | with_reducible apply Keeps.ite
      | with_reducible apply KeepsEff.ok | with_reducible apply KeepsEff.bad | with_reducible apply KeepsEff.fail
      | with_reducible apply KeepsEff.ite | with_reducible refine Keeps.snd (by with_reducible assumption) ?_
      | with_reducible refine Keeps.fst (by with_reducible assumption) ?_
      | with_reducible refine Keeps.third (by with_reducible assumption) ?_ | split

theorem execLaneFailed_keeps {o : State} (port : ℕ) (lane : ℕ) (s : State) (h : Keeps o s) : KeepsOut o (execLaneFailed port lane s) := by
  unfold execLaneFailed
  repeat' first
      | with_reducible assumption | with_reducible apply settle_keeps | with_reducible apply laneFails_keeps
      | with_reducible apply Keeps.ite | with_reducible apply KeepsFault.none | with_reducible apply KeepsFault.some
      | with_reducible apply KeepsFault.ite | with_reducible apply KeepsOut.next | split

theorem execRestripeComplete_keeps {o : State} (port : ℕ) (s : State) (h : Keeps o s) : KeepsOut o (execRestripeComplete port s) := by
  unfold execRestripeComplete
  repeat' first
      | with_reducible assumption | with_reducible intro _ | with_reducible apply fset_keeps
      | with_reducible apply modPort_keeps | with_reducible apply raise_keeps | with_reducible apply replayPort_keeps
      | with_reducible apply Keeps.ite | with_reducible apply KeepsFault.none | with_reducible apply KeepsFault.some
      | with_reducible apply KeepsFault.ite | with_reducible apply KeepsOut.next | simp only [Keeps.mk_iff] | split

theorem execPartnerTraining_keeps {o : State} (port : ℕ) (s : State) (h : Keeps o s) : KeepsOut o (execPartnerTraining port s) := by
  unfold execPartnerTraining
  repeat' first
      | with_reducible assumption | with_reducible apply trainPort_keeps | with_reducible apply Keeps.ite
      | with_reducible apply KeepsFault.none | with_reducible apply KeepsFault.some | with_reducible apply KeepsFault.ite
      | with_reducible apply KeepsOut.next | split

theorem execLinkUp_keeps {o : State} (port : ℕ) (partnerId : ℕ) (partnerPort : ℕ) (credits : List ℕ) (s : State) (h : Keeps o s) : KeepsOut o (execLinkUp port partnerId partnerPort credits s) := by
  unfold execLinkUp
  repeat' first
      | with_reducible assumption | with_reducible intro _ | with_reducible apply fset_keeps
      | with_reducible apply modPort_keeps | with_reducible apply replayPort_keeps | with_reducible apply Keeps.ite
      | with_reducible apply KeepsFault.none | with_reducible apply KeepsFault.some | with_reducible apply KeepsFault.ite
      | with_reducible apply KeepsOut.next | with_reducible refine Keeps.foldl (fun s x h => ?_) _ ?_ | simp only [Keeps.mk_iff] | split

theorem execLinkTrainFail_keeps {o : State} (port : ℕ) (s : State) (h : Keeps o s) : KeepsOut o (execLinkTrainFail port s) := by
  unfold execLinkTrainFail
  repeat' first
      | with_reducible assumption | with_reducible intro _ | with_reducible apply raise_keeps
      | with_reducible apply modPort_keeps | with_reducible apply Keeps.ite | with_reducible apply KeepsFault.none
      | with_reducible apply KeepsFault.some | with_reducible apply KeepsFault.ite | with_reducible apply KeepsOut.next
      | simp only [Keeps.mk_iff] | split

theorem execLinkTrainRetry_keeps {o : State} (port : ℕ) (s : State) (h : Keeps o s) : KeepsOut o (execLinkTrainRetry port s) := by
  unfold execLinkTrainRetry
  repeat' first
      | with_reducible assumption | with_reducible apply trainPort_keeps | with_reducible apply Keeps.ite
      | with_reducible apply KeepsFault.none | with_reducible apply KeepsFault.some | with_reducible apply KeepsFault.ite
      | with_reducible apply KeepsOut.next | split

theorem execCreditStall_keeps {o : State} (port : ℕ) (vc : ℕ) (s : State) (h : Keeps o s) : KeepsOut o (execCreditStall port vc s) := by
  unfold execCreditStall
  repeat' first
      | with_reducible assumption | with_reducible intro _ | with_reducible apply free1_keeps | with_reducible apply raise_keeps
      | with_reducible apply finc_keeps | with_reducible apply Keeps.ite | with_reducible apply KeepsFault.none
      | with_reducible apply KeepsFault.some | with_reducible apply KeepsFault.ite | with_reducible apply KeepsOut.next
      | with_reducible refine Keeps.snd (by with_reducible assumption) ?_
      | with_reducible refine Keeps.fst (by with_reducible assumption) ?_
      | with_reducible refine KeepsFault.get (by with_reducible assumption) ?_
      | with_reducible refine Keeps.third (by with_reducible assumption) ?_ | split

theorem execLinkDown_keeps {o : State} (port : ℕ) (s : State) (h : Keeps o s) : KeepsOut o (execLinkDown port s) := by
  unfold execLinkDown
  repeat' first
      | with_reducible assumption | with_reducible apply settle_keeps | with_reducible apply portDown_keeps
      | with_reducible apply Keeps.ite | with_reducible apply KeepsFault.none | with_reducible apply KeepsFault.some
      | with_reducible apply KeepsFault.ite | with_reducible apply KeepsOut.next | split

theorem execRetrain_keeps {o : State} (port : ℕ) (s : State) (h : Keeps o s) : KeepsOut o (execRetrain port s) := by
  unfold execRetrain
  repeat' first
      | with_reducible assumption | with_reducible apply trainPort_keeps | with_reducible apply Keeps.ite
      | with_reducible apply KeepsFault.none | with_reducible apply KeepsFault.some | with_reducible apply KeepsFault.ite
      | with_reducible apply KeepsOut.next | split

end Sys2Proof.Machine
end

