-- ==== Sys2Proof/Laws/KeepsCommands.lean ====
section
/-!
SUPPORT. What no operation of Machine/Commands.lean does (Laws/Keeps.lean).
-/

set_option Elab.async false

namespace Sys2Proof.Machine

theorem faultAt_keeps {o : State} (s : State) (p : ℕ) (f : ℕ × ℕ) (h : Keeps o s) : Keeps o (State.faultAt s p f) := by
  unfold State.faultAt
  repeat' first
      | with_reducible assumption | with_reducible apply raise_keeps | with_reducible apply Keeps.ite
      | with_reducible apply KeepsFault.none | with_reducible apply KeepsFault.some | with_reducible apply KeepsFault.ite
      | with_reducible refine Keeps.snd (by with_reducible assumption) ?_
      | with_reducible refine Keeps.fst (by with_reducible assumption) ?_
      | with_reducible refine KeepsFault.get (by with_reducible assumption) ?_
      | with_reducible refine Keeps.third (by with_reducible assumption) ?_ | split

theorem failCmd_keeps {o : State} (s : State) (c : Cmd) (f : ℕ × ℕ) (h : Keeps o s) : Keeps o (State.failCmd s c f) := by
  unfold State.failCmd
  repeat' first
      | with_reducible assumption | with_reducible apply faultAt_keeps | with_reducible apply complete_keeps
      | with_reducible apply KeepsEff.ok | with_reducible apply KeepsEff.bad | with_reducible apply KeepsEff.fail
      | with_reducible apply KeepsFault.none | with_reducible apply KeepsFault.some

theorem failTag_keeps {o : State} (s : State) (c : Cmd) (h : Keeps o s) : Keeps o (State.failTag s c) := by
  unfold State.failTag
  repeat' first
      | with_reducible assumption | with_reducible apply segmentFailed_keeps | with_reducible apply complete_keeps
      | with_reducible apply tagFailed_keeps | with_reducible apply KeepsEff.ok | with_reducible apply KeepsEff.bad
      | with_reducible apply KeepsEff.fail

theorem execNop_keeps {o : State} (fn : ℕ) (ring : ℕ) (s : State) (h : Keeps o s) : KeepsOut o (execNop fn ring s) := by
  unfold execNop
  repeat' first
      | with_reducible assumption | with_reducible intro _ | with_reducible apply hostCmd_keeps
      | with_reducible apply complete_keeps | with_reducible apply KeepsEff.ok | with_reducible apply KeepsEff.bad
      | with_reducible apply KeepsEff.fail | with_reducible apply KeepsFault.none | with_reducible apply KeepsFault.some
      | with_reducible apply KeepsOut.next

theorem execReservedOpcode_keeps {o : State} (fn : ℕ) (ring : ℕ) (s : State) (h : Keeps o s) : KeepsOut o (execReservedOpcode fn ring s) := by
  unfold execReservedOpcode
  repeat' first
      | with_reducible assumption | with_reducible intro _ | with_reducible apply hostCmd_keeps | with_reducible apply Keeps.ite
      | with_reducible apply KeepsFault.none | with_reducible apply KeepsFault.some | with_reducible apply KeepsFault.ite
      | with_reducible refine KeepsFault.map (fun x => ?_) | with_reducible refine KeepsOpt.map ?_ (fun s h => ?_)
      | with_reducible refine KeepsOpt.of (fun x => ?_) | with_reducible apply KeepsOpt.getD | with_reducible apply KeepsOut.next | split

theorem loadProg_keeps {o : State} (s : State) (t : ℕ) (off : ℕ) (bs : List Byte) (h : Keeps o s) : Keeps o (State.loadProg s t off bs) := by
  unfold State.loadProg
  repeat' first
      | with_reducible assumption | with_reducible intro _ | with_reducible apply modTile_keeps
      | with_reducible apply take_keeps | with_reducible refine Keeps.foldl (fun s x h => ?_) _ ?_ | simp only [Keeps.mk_iff]

theorem runProgLoad_keeps {o : State} (s : State) (c : Cmd) (h : Keeps o s) : Keeps o (State.runProgLoad s c) := by
  unfold State.runProgLoad
  repeat' first
      | with_reducible assumption | with_reducible intro _ | with_reducible apply complete_keeps
      | with_reducible apply hostTake_keeps | with_reducible apply failTag_keeps | with_reducible apply loadProg_keeps
      | with_reducible apply modPart_keeps | with_reducible apply Keeps.ite | with_reducible apply KeepsEff.ok
      | with_reducible apply KeepsEff.bad | with_reducible apply KeepsEff.fail | with_reducible apply KeepsEff.ite
      | with_reducible refine Keeps.foldl (fun s x h => ?_) _ ?_ | with_reducible refine Keeps.foldl1 (fun s x h => ?_) _ ?_
      | with_reducible refine Keeps.foldl2 (fun s x h => ?_) _ ?_ | with_reducible refine KeepsEff.foldl (fun s x h => ?_) _ ?_
      | simp only [Keeps.mk_iff] | with_reducible refine Keeps.snd (by with_reducible assumption) ?_
      | with_reducible refine Keeps.fst (by with_reducible assumption) ?_
      | with_reducible refine KeepsEff.get (by with_reducible assumption) ?_
      | with_reducible refine Keeps.third (by with_reducible assumption) ?_ | split

theorem execProgLoad_keeps {o : State} (fn : ℕ) (ring : ℕ) (s : State) (h : Keeps o s) : KeepsOut o (execProgLoad fn ring s) := by
  unfold execProgLoad
  repeat' first
      | with_reducible assumption | with_reducible intro _ | with_reducible apply hostCmd_keeps
      | with_reducible apply runProgLoad_keeps | with_reducible apply Keeps.ite | with_reducible apply KeepsEff.ok
      | with_reducible apply KeepsEff.bad | with_reducible apply KeepsEff.fail | with_reducible apply KeepsEff.ite
      | with_reducible apply KeepsFault.none | with_reducible apply KeepsFault.some | with_reducible apply KeepsFault.ite
      | with_reducible refine KeepsFault.map (fun x => ?_) | with_reducible refine KeepsOpt.map ?_ (fun s h => ?_)
      | with_reducible refine KeepsOpt.of (fun x => ?_) | with_reducible apply KeepsOut.next | split

theorem fillPieces_keeps {o : State} (s : State) (pat : ℕ) (a2 : List (ℕ × ℕ)) (h : Keeps o s) : Keeps o (State.fillPieces s pat a2) := by
  induction a2 generalizing s pat with
  | nil =>
    unfold State.fillPieces
    repeat' first
        | with_reducible assumption | with_reducible intro _ | with_reducible apply devWrite_keeps
        | with_reducible apply devZero_keeps | with_reducible apply devWrite_keeps | with_reducible apply devZero_keeps
        | with_reducible apply Keeps.ite | split
  | cons x l ih =>
    unfold State.fillPieces
    repeat' first
        | with_reducible assumption | with_reducible apply ih | with_reducible intro _ | with_reducible apply devWrite_keeps
        | with_reducible apply devZero_keeps | with_reducible apply devWrite_keeps | with_reducible apply devZero_keeps
        | with_reducible apply Keeps.ite | split

theorem runFill_keeps {o : State} (s : State) (c : Cmd) (h : Keeps o s) : Keeps o (State.runFill s c) := by
  unfold State.runFill
  repeat' first
      | with_reducible assumption | with_reducible apply complete_keeps | with_reducible apply failCmd_keeps
      | with_reducible apply countSpill_keeps | with_reducible apply fillPieces_keeps | with_reducible apply Keeps.ite
      | with_reducible apply KeepsEff.ok | with_reducible apply KeepsEff.bad | with_reducible apply KeepsEff.fail
      | with_reducible apply KeepsEff.ite | with_reducible apply KeepsOpt.some | with_reducible apply KeepsOpt.none
      | with_reducible apply KeepsOpt.ite | with_reducible apply KeepsFault.none | with_reducible apply KeepsFault.some
      | with_reducible apply KeepsFault.ite | simp only [Keeps.mk_iff] | with_reducible refine Keeps.snd (by with_reducible assumption) ?_
      | with_reducible refine Keeps.fst (by with_reducible assumption) ?_
      | with_reducible refine KeepsOpt.get (by with_reducible assumption) ?_
      | with_reducible refine KeepsFault.get (by with_reducible assumption) ?_
      | with_reducible refine KeepsEff.get (by with_reducible assumption) ?_ | split

theorem execFill_keeps {o : State} (fn : ℕ) (ring : ℕ) (s : State) (h : Keeps o s) : KeepsOut o (execFill fn ring s) := by
  unfold execFill
  repeat' first
      | with_reducible assumption | with_reducible intro _ | with_reducible apply hostCmd_keeps
      | with_reducible apply runFill_keeps | with_reducible apply KeepsFault.none | with_reducible apply KeepsFault.some
      | with_reducible apply KeepsOut.next

theorem putParked_keeps {o : State} (s : State) (p : ℕ) (a : ℕ) (bs : List Byte) (h : Keeps o s) : Keeps o (State.putParked s p a bs) := by
  unfold State.putParked
  repeat' first
      | with_reducible assumption | with_reducible intro _ | with_reducible apply devWrite_keeps
      | with_reducible apply modPart_keeps | with_reducible refine Keeps.foldl (fun s x h => ?_) _ ?_ | simp only [Keeps.mk_iff]

theorem addCopy_keeps {o : State} (s : State) (why : ℕ) (ref : ℕ) (src : ℕ) (dst : ℕ) (len : ℕ) (h : Keeps o s) : Keeps o (State.addCopy s why ref src dst len) := by
  unfold State.addCopy
  repeat' first | with_reducible assumption | with_reducible apply addMove_keeps

theorem startPark_keeps {o : State} (s : State) (p : ℕ) (ref : ℕ) (unpark : Bool) (h : Keeps o s) : Keeps o (State.startPark s p ref unpark) := by
  unfold State.startPark
  repeat' first
      | with_reducible assumption | with_reducible intro _ | with_reducible apply addCopy_keeps | with_reducible apply Keeps.ite
      | with_reducible refine Keeps.foldl (fun s x h => ?_) _ ?_ | split

theorem parkCopy_keeps {o : State} (s : State) (p : ℕ) (m : Move) (h : Keeps o s) : Keeps o (State.parkCopy s p m).1 := by
  unfold State.parkCopy
  repeat' first
      | with_reducible assumption | with_reducible apply devWrite_keeps | with_reducible apply putParked_keeps
      | with_reducible apply Keeps.ite | with_reducible apply KeepsEff.ok | with_reducible apply KeepsEff.bad
      | with_reducible apply KeepsEff.fail | with_reducible apply KeepsEff.ite | with_reducible apply KeepsOpt.some
      | with_reducible apply KeepsOpt.none | with_reducible apply KeepsOpt.ite | with_reducible apply KeepsFault.none
      | with_reducible apply KeepsFault.some | with_reducible apply KeepsFault.ite | simp only [Keeps.mk_iff]
      | with_reducible refine Keeps.snd (by with_reducible assumption) ?_
      | with_reducible refine Keeps.fst (by with_reducible assumption) ?_
      | with_reducible refine KeepsOpt.get (by with_reducible assumption) ?_
      | with_reducible refine KeepsFault.get (by with_reducible assumption) ?_ | split | dsimp only

theorem dropCmdMoves_keeps {o : State} (s : State) (ref : ℕ) (h : Keeps o s) : Keeps o (State.dropCmdMoves s ref) := by
  unfold State.dropCmdMoves
  repeat' first | with_reducible assumption | with_reducible intro _ | simp only [Keeps.mk_iff]

end Sys2Proof.Machine
end

