-- ==== Sys2Proof/Laws/KeepsTiers.lean ====
section
/-!
SUPPORT. What no operation of Machine/Tiers.lean does (Laws/Keeps.lean).
-/

set_option Elab.async false

namespace Sys2Proof.Machine

theorem runMove_keeps {o : State} (s : State) (c : Cmd) (h : Keeps o s) : Keeps o (State.runMove s c) := by
  unfold State.runMove
  repeat' first
      | with_reducible assumption | with_reducible intro _ | with_reducible apply modCmd_keeps
      | with_reducible apply hostTake_keeps | with_reducible apply failTag_keeps | with_reducible apply complete_keeps
      | with_reducible apply failCmd_keeps | with_reducible apply addMove_keeps | with_reducible apply Keeps.ite
      | with_reducible apply KeepsEff.ok | with_reducible apply KeepsEff.bad | with_reducible apply KeepsEff.fail
      | with_reducible apply KeepsEff.ite | with_reducible apply KeepsOpt.some | with_reducible apply KeepsOpt.none
      | with_reducible apply KeepsOpt.ite | with_reducible apply Keeps.id | simp only [Keeps.mk_iff]
      | with_reducible refine Keeps.snd (by with_reducible assumption) ?_
      | with_reducible refine Keeps.fst (by with_reducible assumption) ?_
      | with_reducible refine KeepsOpt.get (by with_reducible assumption) ?_
      | with_reducible refine Keeps.third (by with_reducible assumption) ?_ | split

theorem execMove_keeps {o : State} (fn : ℕ) (ring : ℕ) (s : State) (h : Keeps o s) : KeepsOut o (execMove fn ring s) := by
  unfold execMove
  repeat' first
      | with_reducible assumption | with_reducible intro _ | with_reducible apply hostCmd_keeps
      | with_reducible apply runMove_keeps | with_reducible apply KeepsFault.none | with_reducible apply KeepsFault.some
      | with_reducible apply KeepsOut.next

theorem landHost_keeps {o : State} (s : State) (m : Move) (h : Keeps o s) : Keeps o (State.landHost s m) := by
  unfold State.landHost
  repeat' first
      | with_reducible assumption | with_reducible apply dropMove_keeps | with_reducible apply moveFlash_keeps
      | with_reducible apply hostTake_keeps | with_reducible apply moveRun_keeps | with_reducible apply complete_keeps
      | with_reducible apply failTag_keeps | with_reducible apply failCmd_keeps | with_reducible apply Keeps.ite
      | with_reducible apply KeepsEff.ok | with_reducible apply KeepsEff.bad | with_reducible apply KeepsEff.fail
      | with_reducible apply KeepsEff.ite | with_reducible apply KeepsOpt.some | with_reducible apply KeepsOpt.none
      | with_reducible apply KeepsOpt.ite | with_reducible apply Keeps.id | simp only [Keeps.mk_iff]
      | with_reducible refine Keeps.snd (by with_reducible assumption) ?_
      | with_reducible refine Keeps.fst (by with_reducible assumption) ?_
      | with_reducible refine KeepsOpt.get (by with_reducible assumption) ?_
      | with_reducible refine KeepsEff.get (by with_reducible assumption) ?_ | split

theorem runStateMove_keeps {o : State} (s : State) (c : Cmd) (h : Keeps o s) : Keeps o (State.runStateMove s c) := by
  unfold State.runStateMove
  repeat' first
      | with_reducible assumption | with_reducible apply complete_keeps | with_reducible apply startPark_keeps
      | with_reducible apply Keeps.ite | with_reducible apply KeepsEff.ok | with_reducible apply KeepsEff.bad
      | with_reducible apply KeepsEff.fail | with_reducible apply KeepsEff.ite | with_reducible apply Keeps.id | split

theorem execStateMove_keeps {o : State} (fn : ℕ) (ring : ℕ) (s : State) (h : Keeps o s) : KeepsOut o (execStateMove fn ring s) := by
  unfold execStateMove
  repeat' first
      | with_reducible assumption | with_reducible intro _ | with_reducible apply hostCmd_keeps
      | with_reducible apply runStateMove_keeps | with_reducible apply KeepsFault.none | with_reducible apply KeepsFault.some
      | with_reducible apply KeepsOut.next

theorem landPark_keeps {o : State} (s : State) (m : Move) (h : Keeps o s) : Keeps o (State.landPark s m) := by
  unfold State.landPark
  repeat' first
      | with_reducible assumption | with_reducible apply dropMove_keeps | with_reducible apply parkCopy_keeps
      | with_reducible apply failCmd_keeps | with_reducible apply dropCmdMoves_keeps | with_reducible apply complete_keeps
      | with_reducible apply Keeps.ite | with_reducible apply KeepsEff.ok | with_reducible apply KeepsEff.bad
      | with_reducible apply KeepsEff.fail | with_reducible apply KeepsEff.ite | with_reducible apply KeepsOpt.some
      | with_reducible apply KeepsOpt.none | with_reducible apply KeepsOpt.ite | with_reducible apply Keeps.id | simp only [Keeps.mk_iff]
      | with_reducible refine Keeps.snd (by with_reducible assumption) ?_
      | with_reducible refine Keeps.fst (by with_reducible assumption) ?_
      | with_reducible refine KeepsOpt.get (by with_reducible assumption) ?_
      | with_reducible refine KeepsEff.get (by with_reducible assumption) ?_ | split

theorem showSlots_keeps {o : State} (s : State) (p : ℕ) (h : Keeps o s) : Keeps o (State.showSlots s p) := by
  unfold State.showSlots
  repeat' first | with_reducible assumption | with_reducible apply fset_keeps

theorem writeRegions_keeps {o : State} (s : State) (p : ℕ) (a2 : List Region) (a3 : List Byte) (h : Keeps o s) : Keeps o (State.writeRegions s p a2 a3) := by
  induction a2 generalizing s p a3 with
  | nil =>
    unfold State.writeRegions
    repeat' first
        | with_reducible assumption | with_reducible apply devWrite_keeps | with_reducible apply take_keeps
        | with_reducible apply putParked_keeps | with_reducible apply devWrite_keeps | with_reducible apply Keeps.ite | split
  | cons x l ih =>
    unfold State.writeRegions
    repeat' first
        | with_reducible assumption | with_reducible apply ih | with_reducible apply devWrite_keeps
        | with_reducible apply take_keeps | with_reducible apply putParked_keeps | with_reducible apply devWrite_keeps
        | with_reducible apply Keeps.ite | split

theorem modFlash_keeps {o : State} (s : State) (p : ℕ) (f : Flash → Flash) (h : Keeps o s) : Keeps o (State.modFlash s p f) := by
  unfold State.modFlash
  repeat' first
      | with_reducible assumption | with_reducible intro _ | with_reducible apply modPart_keeps
      | with_reducible refine KeepsOpt.map ?_ (fun s h => ?_) | with_reducible refine KeepsOpt.of (fun x => ?_) | simp only [Keeps.mk_iff]

theorem endFlash_keeps {o : State} (s : State) (p : ℕ) (status : ℕ) (detail : ℕ) (h : Keeps o s) : Keeps o (State.endFlash s p status detail) := by
  unfold State.endFlash
  repeat' first
      | with_reducible assumption | with_reducible intro _ | with_reducible apply finish_keeps
      | with_reducible apply showSlots_keeps | with_reducible apply fset_keeps | with_reducible apply modPart_keeps
      | with_reducible apply KeepsOpt.some | with_reducible apply KeepsOpt.none | simp only [Keeps.mk_iff]
      | with_reducible refine Keeps.snd (by with_reducible assumption) ?_
      | with_reducible refine Keeps.fst (by with_reducible assumption) ?_
      | with_reducible refine KeepsOpt.get (by with_reducible assumption) ?_ | split

theorem failFlash_keeps {o : State} (s : State) (p : ℕ) (f : ℕ × ℕ) (h : Keeps o s) : Keeps o (State.failFlash s p f) := by
  unfold State.failFlash
  repeat' first
      | with_reducible assumption | with_reducible apply faultAt_keeps | with_reducible apply endFlash_keeps
      | with_reducible apply KeepsEff.ok | with_reducible apply KeepsEff.bad | with_reducible apply KeepsEff.fail
      | with_reducible apply KeepsFault.none | with_reducible apply KeepsFault.some

theorem streamTo_keeps {o : State} (s : State) (p : ℕ) (k : Comm) (rank : ℕ) (step : ℕ) (data : List Byte) (h : Keeps o s) : Keeps o (State.streamTo s p k rank step data) := by
  unfold State.streamTo
  repeat' first
      | with_reducible assumption | with_reducible intro _ | with_reducible apply toRank_keeps
      | with_reducible refine Keeps.foldl (fun s x h => ?_) _ ?_ | with_reducible refine Keeps.foldl1 (fun s x h => ?_) _ ?_
      | with_reducible refine Keeps.foldl2 (fun s x h => ?_) _ ?_ | simp only [Keeps.mk_iff]

theorem ckptRead_keeps {o : State} (s : State) (p : ℕ) (f : Flash) (rs : List Region) (h : Keeps o s) : Keeps o (State.ckptRead s p f rs) := by
  unfold State.ckptRead
  repeat' first
      | with_reducible assumption | with_reducible intro _ | with_reducible apply failFlash_keeps
      | with_reducible apply modFlash_keeps | with_reducible apply fset_keeps | with_reducible apply streamTo_keeps
      | with_reducible apply take_keeps | with_reducible apply KeepsEff.ok | with_reducible apply KeepsEff.bad
      | with_reducible apply KeepsEff.fail | with_reducible apply KeepsOpt.some | with_reducible apply KeepsOpt.none
      | with_reducible apply KeepsFault.none | with_reducible apply KeepsFault.some | simp only [Keeps.mk_iff]
      | with_reducible refine Keeps.snd (by with_reducible assumption) ?_
      | with_reducible refine Keeps.fst (by with_reducible assumption) ?_
      | with_reducible refine KeepsOpt.get (by with_reducible assumption) ?_
      | with_reducible refine KeepsFault.get (by with_reducible assumption) ?_ | split

theorem runCkptWrite_keeps {o : State} (s : State) (c : Cmd) (h : Keeps o s) : Keeps o (State.runCkptWrite s c) := by
  unfold State.runCkptWrite
  repeat' first
      | with_reducible assumption | with_reducible intro _ | with_reducible apply modCmd_keeps
      | with_reducible apply showSlots_keeps | with_reducible apply devZero_keeps | with_reducible apply fset_keeps
      | with_reducible apply modPart_keeps | with_reducible apply Keeps.ite | with_reducible apply KeepsOpt.some
      | with_reducible apply KeepsOpt.none | with_reducible apply KeepsOpt.ite | with_reducible apply Keeps.id | simp only [Keeps.mk_iff]
      | split

theorem execCkptWrite_keeps {o : State} (fn : ℕ) (ring : ℕ) (s : State) (h : Keeps o s) : KeepsOut o (execCkptWrite fn ring s) := by
  unfold execCkptWrite
  repeat' first
      | with_reducible assumption | with_reducible intro _ | with_reducible apply hostCmd_keeps
      | with_reducible apply runCkptWrite_keeps | with_reducible apply KeepsFault.none | with_reducible apply KeepsFault.some
      | with_reducible apply KeepsOut.next

theorem landStaging_keeps {o : State} (s : State) (m : Move) (h : Keeps o s) : Keeps o (State.landStaging s m) := by
  unfold State.landStaging
  repeat' first
      | with_reducible assumption | with_reducible intro _ | with_reducible apply dropMove_keeps
      | with_reducible apply failFlash_keeps | with_reducible apply ckptRead_keeps | with_reducible apply writeRegions_keeps
      | with_reducible apply Keeps.ite | with_reducible apply KeepsEff.ok | with_reducible apply KeepsEff.bad
      | with_reducible apply KeepsEff.fail | with_reducible apply KeepsEff.ite | with_reducible apply KeepsOpt.some
      | with_reducible apply KeepsOpt.none | with_reducible apply KeepsOpt.ite | with_reducible apply KeepsFault.none
      | with_reducible apply KeepsFault.some | with_reducible apply KeepsFault.ite | with_reducible apply Keeps.id
      | simp only [Keeps.mk_iff] | with_reducible refine Keeps.snd (by with_reducible assumption) ?_
      | with_reducible refine Keeps.fst (by with_reducible assumption) ?_
      | with_reducible refine KeepsOpt.get (by with_reducible assumption) ?_
      | with_reducible refine KeepsFault.get (by with_reducible assumption) ?_ | split

theorem ownProgrammed_keeps {o : State} (s : State) (p : ℕ) (h : Keeps o s) : Keeps o (State.ownProgrammed s p) := by
  unfold State.ownProgrammed
  repeat' first
      | with_reducible assumption | with_reducible intro _ | with_reducible apply ckptRead_keeps
      | with_reducible apply addCopy_keeps | with_reducible apply modFlash_keeps | with_reducible apply fset_keeps
      | with_reducible apply devWrite_keeps | with_reducible apply showSlots_keeps | with_reducible apply endFlash_keeps
      | with_reducible apply devZero_keeps | with_reducible apply Keeps.ite | with_reducible apply KeepsEff.ok
      | with_reducible apply KeepsEff.bad | with_reducible apply KeepsEff.fail | with_reducible apply KeepsEff.ite
      | with_reducible apply KeepsOpt.some | with_reducible apply KeepsOpt.none | with_reducible apply KeepsOpt.ite
      | with_reducible refine KeepsOpt.map ?_ (fun s h => ?_) | with_reducible refine KeepsOpt.of (fun x => ?_)
      | with_reducible apply KeepsOpt.getD | simp only [Keeps.mk_iff] | with_reducible refine Keeps.snd (by with_reducible assumption) ?_
      | with_reducible refine Keeps.fst (by with_reducible assumption) ?_
      | with_reducible refine KeepsOpt.get (by with_reducible assumption) ?_
      | with_reducible refine KeepsEff.get (by with_reducible assumption) ?_ | split

theorem buddyConfirmed_keeps {o : State} (s : State) (p : ℕ) (m : Msg) (h : Keeps o s) : Keeps o (State.buddyConfirmed s p m) := by
  unfold State.buddyConfirmed
  repeat' first
      | with_reducible assumption | with_reducible intro _ | with_reducible apply endFlash_keeps
      | with_reducible apply modFlash_keeps | with_reducible apply Keeps.ite | with_reducible apply KeepsEff.ok
      | with_reducible apply KeepsEff.bad | with_reducible apply KeepsEff.fail | with_reducible apply KeepsEff.ite
      | with_reducible apply KeepsOpt.some | with_reducible apply KeepsOpt.none | with_reducible apply KeepsOpt.ite
      | simp only [Keeps.mk_iff] | with_reducible refine Keeps.snd (by with_reducible assumption) ?_
      | with_reducible refine Keeps.fst (by with_reducible assumption) ?_
      | with_reducible refine KeepsOpt.get (by with_reducible assumption) ?_
      | with_reducible refine KeepsEff.get (by with_reducible assumption) ?_ | split

theorem execBuddyTrailerConfirm_keeps {o : State} (p : ℕ) (m : Msg) (s : State) (h : Keeps o s) : KeepsOut o (execBuddyTrailerConfirm p m s) := by
  unfold execBuddyTrailerConfirm
  repeat' first
      | with_reducible assumption | with_reducible intro _ | with_reducible apply onMsg_keeps
      | with_reducible apply buddyConfirmed_keeps | with_reducible apply KeepsFault.none | with_reducible apply KeepsFault.some
      | with_reducible apply KeepsOut.next

theorem execBuddyConfirmTimeout_keeps {o : State} (p : ℕ) (s : State) (h : Keeps o s) : KeepsOut o (execBuddyConfirmTimeout p s) := by
  unfold execBuddyConfirmTimeout
  repeat' first
      | with_reducible assumption | with_reducible intro _ | with_reducible apply settle_keeps
      | with_reducible apply endFlash_keeps | with_reducible apply Keeps.ite | with_reducible apply KeepsFault.none
      | with_reducible apply KeepsFault.some | with_reducible apply KeepsFault.ite | with_reducible apply KeepsOut.next | split

theorem takeStream_keeps {o : State} (s : State) (p : ℕ) (m : Msg) (h : Keeps o s) : Keeps o (State.takeStream s p m) := by
  unfold State.takeStream
  repeat' first
      | with_reducible assumption | with_reducible intro _ | with_reducible apply devZero_keeps
      | with_reducible apply modPart_keeps | with_reducible apply devWrite_keeps | with_reducible apply Keeps.ite
      | with_reducible apply KeepsOpt.some | with_reducible apply KeepsOpt.none | with_reducible apply KeepsOpt.ite
      | with_reducible apply KeepsOpt.getD | simp only [Keeps.mk_iff] | with_reducible refine Keeps.snd (by with_reducible assumption) ?_
      | with_reducible refine Keeps.fst (by with_reducible assumption) ?_
      | with_reducible refine KeepsOpt.get (by with_reducible assumption) ?_ | split

theorem buddyProgrammed_keeps {o : State} (s : State) (p : ℕ) (h : Keeps o s) : Keeps o (State.buddyProgrammed s p) := by
  unfold State.buddyProgrammed
  repeat' first
      | with_reducible assumption | with_reducible intro _ | with_reducible apply devWrite_keeps
      | with_reducible apply modPart_keeps | with_reducible apply send_keeps | with_reducible apply Keeps.ite
      | with_reducible apply KeepsOpt.some | with_reducible apply KeepsOpt.none | with_reducible apply KeepsOpt.ite
      | simp only [Keeps.mk_iff] | with_reducible refine Keeps.snd (by with_reducible assumption) ?_
      | with_reducible refine Keeps.fst (by with_reducible assumption) ?_
      | with_reducible refine KeepsOpt.get (by with_reducible assumption) ?_ | split

theorem execBuddyStreamTimeout_keeps {o : State} (p : ℕ) (s : State) (h : Keeps o s) : KeepsOut o (execBuddyStreamTimeout p s) := by
  unfold execBuddyStreamTimeout
  repeat' first
      | with_reducible assumption | with_reducible intro _ | with_reducible apply modPart_keeps | with_reducible apply Keeps.ite
      | with_reducible apply KeepsFault.none | with_reducible apply KeepsFault.some | with_reducible apply KeepsFault.ite
      | with_reducible apply KeepsOut.next | simp only [Keeps.mk_iff] | split

theorem loadDone_keeps {o : State} (s : State) (p : ℕ) (h : Keeps o s) : Keeps o (State.loadDone s p) := by
  unfold State.loadDone
  repeat' first
      | with_reducible assumption | with_reducible intro _ | with_reducible apply writeRegions_keeps
      | with_reducible apply modKettle_keeps | with_reducible apply fset_keeps | with_reducible apply modPart_keeps
      | with_reducible apply endFlash_keeps | with_reducible apply Keeps.ite | with_reducible apply KeepsEff.ok
      | with_reducible apply KeepsEff.bad | with_reducible apply KeepsEff.fail | with_reducible apply KeepsEff.ite
      | with_reducible apply KeepsOpt.some | with_reducible apply KeepsOpt.none | with_reducible apply KeepsOpt.ite
      | with_reducible refine Keeps.foldl (fun s x h => ?_) _ ?_ | with_reducible refine KeepsEff.foldl (fun s x h => ?_) _ ?_
      | simp only [Keeps.mk_iff] | with_reducible refine Keeps.snd (by with_reducible assumption) ?_
      | with_reducible refine Keeps.fst (by with_reducible assumption) ?_
      | with_reducible refine KeepsOpt.get (by with_reducible assumption) ?_
      | with_reducible refine KeepsEff.get (by with_reducible assumption) ?_ | split

theorem askCopy_keeps {o : State} (s : State) (p : ℕ) (f : Flash) (k : Comm) (from_ : ℕ) (copy : ℕ) (segs : List ℕ) (h : Keeps o s) : Keeps o (State.askCopy s p f k from_ copy segs) := by
  unfold State.askCopy
  repeat' first | with_reducible assumption | with_reducible apply toRank_keeps | simp only [Keeps.mk_iff]

theorem askSecond_keeps {o : State} (s : State) (p : ℕ) (f : Flash) (h : Keeps o s) : Keeps o (State.askSecond s p f) := by
  unfold State.askSecond
  repeat' first
      | with_reducible assumption | with_reducible intro _ | with_reducible apply askCopy_keeps
      | with_reducible apply modFlash_keeps | with_reducible apply KeepsOpt.some | with_reducible apply KeepsOpt.none
      | simp only [Keeps.mk_iff] | with_reducible refine Keeps.snd (by with_reducible assumption) ?_
      | with_reducible refine Keeps.fst (by with_reducible assumption) ?_
      | with_reducible refine KeepsOpt.get (by with_reducible assumption) ?_
      | with_reducible refine Keeps.third (by with_reducible assumption) ?_ | split

theorem runCkptLoad_keeps {o : State} (s : State) (c : Cmd) (h : Keeps o s) : Keeps o (State.runCkptLoad s c) := by
  unfold State.runCkptLoad
  repeat' first
      | with_reducible assumption | with_reducible intro _ | with_reducible apply modCmd_keeps
      | with_reducible apply complete_keeps | with_reducible apply fset_keeps | with_reducible apply flashReads_keeps
      | with_reducible apply modPart_keeps | with_reducible apply loadDone_keeps | with_reducible apply askSecond_keeps
      | with_reducible apply askCopy_keeps | with_reducible apply Keeps.ite | with_reducible apply KeepsEff.ok
      | with_reducible apply KeepsEff.bad | with_reducible apply KeepsEff.fail | with_reducible apply KeepsEff.ite
      | with_reducible apply KeepsOpt.some | with_reducible apply KeepsOpt.none | with_reducible apply KeepsOpt.ite
      | with_reducible refine KeepsOpt.map ?_ (fun s h => ?_) | with_reducible refine KeepsOpt.of (fun x => ?_)
      | with_reducible apply Keeps.id | simp only [Keeps.mk_iff] | with_reducible refine Keeps.snd (by with_reducible assumption) ?_
      | with_reducible refine Keeps.fst (by with_reducible assumption) ?_
      | with_reducible refine KeepsOpt.get (by with_reducible assumption) ?_ | split

theorem execCkptLoad_keeps {o : State} (fn : ℕ) (ring : ℕ) (s : State) (h : Keeps o s) : KeepsOut o (execCkptLoad fn ring s) := by
  unfold execCkptLoad
  repeat' first
      | with_reducible assumption | with_reducible intro _ | with_reducible apply hostCmd_keeps
      | with_reducible apply runCkptLoad_keeps | with_reducible apply Keeps.ite | with_reducible apply KeepsFault.none
      | with_reducible apply KeepsFault.some | with_reducible apply KeepsFault.ite | with_reducible apply KeepsOut.next | split

theorem loadBroken_keeps {o : State} (s : State) (p : ℕ) (f : Flash) (h : Keeps o s) : Keeps o (State.loadBroken s p f) := by
  unfold State.loadBroken
  repeat' first | with_reducible assumption | with_reducible apply endFlash_keeps | with_reducible apply writeRegions_keeps

theorem noCopy_keeps {o : State} (s : State) (p : ℕ) (f : Flash) (h : Keeps o s) : Keeps o (State.noCopy s p f) := by
  unfold State.noCopy
  repeat' first
      | with_reducible assumption | with_reducible intro _ | with_reducible apply askCopy_keeps
      | with_reducible apply modFlash_keeps | with_reducible apply loadBroken_keeps | with_reducible apply endFlash_keeps
      | with_reducible apply Keeps.ite | with_reducible apply KeepsOpt.some | with_reducible apply KeepsOpt.none
      | with_reducible apply KeepsOpt.ite | simp only [Keeps.mk_iff] | with_reducible refine Keeps.snd (by with_reducible assumption) ?_
      | with_reducible refine Keeps.fst (by with_reducible assumption) ?_
      | with_reducible refine KeepsOpt.get (by with_reducible assumption) ?_ | split

theorem onLoadData_keeps {o : State} (s : State) (p : ℕ) (m : Msg) (h : Keeps o s) : Keeps o (State.onLoadData s p m) := by
  unfold State.onLoadData
  repeat' first
      | with_reducible assumption | with_reducible intro _ | with_reducible apply noCopy_keeps | with_reducible apply fset_keeps
      | with_reducible apply modFlash_keeps | with_reducible apply loadDone_keeps | with_reducible apply askSecond_keeps
      | with_reducible apply loadBroken_keeps | with_reducible apply Keeps.ite | with_reducible apply KeepsOpt.some
      | with_reducible apply KeepsOpt.none | with_reducible apply KeepsOpt.ite | with_reducible apply KeepsOpt.getD
      | simp only [Keeps.mk_iff] | with_reducible refine Keeps.snd (by with_reducible assumption) ?_
      | with_reducible refine Keeps.fst (by with_reducible assumption) ?_
      | with_reducible refine KeepsOpt.get (by with_reducible assumption) ?_ | split

theorem execRemoteLoadTimeout_keeps {o : State} (p : ℕ) (s : State) (h : Keeps o s) : KeepsOut o (execRemoteLoadTimeout p s) := by
  unfold execRemoteLoadTimeout
  repeat' first
      | with_reducible assumption | with_reducible apply settle_keeps | with_reducible apply loadBroken_keeps
      | with_reducible apply Keeps.ite | with_reducible apply KeepsOpt.some | with_reducible apply KeepsOpt.none
      | with_reducible apply KeepsOpt.ite | with_reducible apply KeepsFault.none | with_reducible apply KeepsFault.some
      | with_reducible apply KeepsFault.ite | with_reducible apply KeepsOut.next | simp only [Keeps.mk_iff]
      | with_reducible refine Keeps.snd (by with_reducible assumption) ?_
      | with_reducible refine Keeps.fst (by with_reducible assumption) ?_
      | with_reducible refine KeepsOpt.get (by with_reducible assumption) ?_
      | with_reducible refine KeepsFault.get (by with_reducible assumption) ?_ | split

theorem execBuddyStream_keeps {o : State} (p : ℕ) (m : Msg) (s : State) (h : Keeps o s) : KeepsOut o (execBuddyStream p m s) := by
  unfold execBuddyStream
  repeat' first
      | with_reducible assumption | with_reducible intro _ | with_reducible apply onMsg_keeps
      | with_reducible apply takeStream_keeps | with_reducible apply onLoadData_keeps | with_reducible apply Keeps.ite
      | with_reducible apply KeepsFault.none | with_reducible apply KeepsFault.some | with_reducible apply KeepsFault.ite
      | with_reducible apply KeepsOut.next | split

theorem serveLoad_keeps {o : State} (s : State) (p : ℕ) (m : Msg) (h : Keeps o s) : Keeps o (State.serveLoad s p m) := by
  unfold State.serveLoad
  repeat' first
      | with_reducible assumption | with_reducible intro _ | with_reducible apply send_keeps
      | with_reducible apply flashReads_keeps | with_reducible apply Keeps.ite | with_reducible apply KeepsOpt.some
      | with_reducible apply KeepsOpt.none | with_reducible apply KeepsOpt.ite | with_reducible apply KeepsOpt.getD
      | with_reducible refine Keeps.foldl (fun s x h => ?_) _ ?_ | simp only [Keeps.mk_iff]
      | with_reducible refine Keeps.snd (by with_reducible assumption) ?_
      | with_reducible refine Keeps.fst (by with_reducible assumption) ?_
      | with_reducible refine KeepsOpt.get (by with_reducible assumption) ?_ | split

theorem execRemoteLoadRequest_keeps {o : State} (p : ℕ) (m : Msg) (s : State) (h : Keeps o s) : KeepsOut o (execRemoteLoadRequest p m s) := by
  unfold execRemoteLoadRequest
  repeat' first
      | with_reducible assumption | with_reducible intro _ | with_reducible apply onMsg_keeps
      | with_reducible apply serveLoad_keeps | with_reducible apply KeepsFault.none | with_reducible apply KeepsFault.some
      | with_reducible apply KeepsOut.next

theorem startFlash_keeps {o : State} (s : State) (c : Cmd) (f : Flash) (h : Keeps o s) : Keeps o (State.startFlash s c f) := by
  unfold State.startFlash
  repeat' first
      | with_reducible assumption | with_reducible intro _ | with_reducible apply modCmd_keeps
      | with_reducible apply modPart_keeps | with_reducible apply Keeps.ite | with_reducible apply KeepsOpt.some
      | with_reducible apply KeepsOpt.none | with_reducible apply KeepsOpt.ite | with_reducible apply Keeps.id | simp only [Keeps.mk_iff]
      | split

theorem runFlashWrite_keeps {o : State} (s : State) (c : Cmd) (h : Keeps o s) : Keeps o (State.runFlashWrite s c) := by
  unfold State.runFlashWrite
  repeat' first
      | with_reducible assumption | with_reducible intro _ | with_reducible apply modCmd_keeps
      | with_reducible apply startFlash_keeps | with_reducible apply hostTake_keeps | with_reducible apply failTag_keeps
      | with_reducible apply failCmd_keeps | with_reducible apply Keeps.ite | with_reducible apply KeepsEff.ok
      | with_reducible apply KeepsEff.bad | with_reducible apply KeepsEff.fail | with_reducible apply KeepsEff.ite
      | with_reducible apply KeepsOpt.some | with_reducible apply KeepsOpt.none | with_reducible apply KeepsOpt.ite
      | with_reducible apply KeepsFault.none | with_reducible apply KeepsFault.some | with_reducible apply KeepsFault.ite
      | with_reducible apply Keeps.id | simp only [Keeps.mk_iff] | with_reducible refine Keeps.snd (by with_reducible assumption) ?_
      | with_reducible refine Keeps.fst (by with_reducible assumption) ?_
      | with_reducible refine KeepsOpt.get (by with_reducible assumption) ?_
      | with_reducible refine KeepsFault.get (by with_reducible assumption) ?_
      | with_reducible refine Keeps.third (by with_reducible assumption) ?_ | split

theorem execFlashWrite_keeps {o : State} (fn : ℕ) (ring : ℕ) (s : State) (h : Keeps o s) : KeepsOut o (execFlashWrite fn ring s) := by
  unfold execFlashWrite
  repeat' first
      | with_reducible assumption | with_reducible intro _ | with_reducible apply hostCmd_keeps
      | with_reducible apply runFlashWrite_keeps | with_reducible apply Keeps.ite | with_reducible apply KeepsEff.ok
      | with_reducible apply KeepsEff.bad | with_reducible apply KeepsEff.fail | with_reducible apply KeepsEff.ite
      | with_reducible apply KeepsFault.none | with_reducible apply KeepsFault.some | with_reducible apply KeepsFault.ite
      | with_reducible apply KeepsOut.next | split

theorem runFlashTrim_keeps {o : State} (s : State) (c : Cmd) (h : Keeps o s) : Keeps o (State.runFlashTrim s c) := by
  unfold State.runFlashTrim
  repeat' first | with_reducible assumption | with_reducible apply startFlash_keeps | simp only [Keeps.mk_iff]

theorem execFlashTrim_keeps {o : State} (fn : ℕ) (ring : ℕ) (s : State) (h : Keeps o s) : KeepsOut o (execFlashTrim fn ring s) := by
  unfold execFlashTrim
  repeat' first
      | with_reducible assumption | with_reducible intro _ | with_reducible apply hostCmd_keeps
      | with_reducible apply runFlashTrim_keeps | with_reducible apply Keeps.ite | with_reducible apply KeepsFault.none
      | with_reducible apply KeepsFault.some | with_reducible apply KeepsFault.ite | with_reducible apply KeepsOut.next | split

theorem runNsClear_keeps {o : State} (s : State) (c : Cmd) (h : Keeps o s) : Keeps o (State.runNsClear s c) := by
  unfold State.runNsClear
  repeat' first | with_reducible assumption | with_reducible apply startFlash_keeps | simp only [Keeps.mk_iff]

theorem execNsClear_keeps {o : State} (fn : ℕ) (ring : ℕ) (s : State) (h : Keeps o s) : KeepsOut o (execNsClear fn ring s) := by
  unfold execNsClear
  repeat' first
      | with_reducible assumption | with_reducible intro _ | with_reducible apply hostCmd_keeps
      | with_reducible apply runNsClear_keeps | with_reducible apply KeepsFault.none | with_reducible apply KeepsFault.some
      | with_reducible apply KeepsOut.next

theorem wear_keeps {o : State} (s : State) (h : Keeps o s) : Keeps o (State.wear s) := by
  unfold State.wear
  repeat' first
      | with_reducible assumption | with_reducible apply free1_keeps | with_reducible apply fset_keeps
      | with_reducible apply detect_keeps | with_reducible apply Keeps.ite
      | with_reducible refine Keeps.snd (by with_reducible assumption) ?_
      | with_reducible refine Keeps.fst (by with_reducible assumption) ?_
      | with_reducible refine Keeps.third (by with_reducible assumption) ?_ | split

theorem execFlashProgramDone_keeps {o : State} (p : ℕ) (s : State) (h : Keeps o s) : KeepsOut o (execFlashProgramDone p s) := by
  unfold execFlashProgramDone
  repeat' first
      | with_reducible assumption | with_reducible apply settle_keeps | with_reducible apply wear_keeps
      | with_reducible apply buddyProgrammed_keeps | with_reducible apply ownProgrammed_keeps | with_reducible apply Keeps.ite
      | with_reducible apply KeepsFault.none | with_reducible apply KeepsFault.some | with_reducible apply KeepsFault.ite
      | with_reducible apply KeepsOut.next | split

theorem writeNs_keeps {o : State} (s : State) (p : ℕ) (base : ℕ) (size : ℕ) (slot : ℕ) (h : Keeps o s) : Keeps o (State.writeNs s p base size slot) := by
  unfold State.writeNs
  repeat' first
      | with_reducible assumption | with_reducible intro _ | with_reducible apply showSlots_keeps
      | with_reducible apply fset_keeps | with_reducible apply Keeps.ite | split

end Sys2Proof.Machine
end

