-- ==== Sys2Proof/Laws/KeepsLearn.lean ====
section
/-!
SUPPORT. What no operation of Machine/Learn.lean does (Laws/Keeps.lean).
-/

set_option Elab.async false

namespace Sys2Proof.Machine

theorem poolAdd_keeps {o : State} (s : State) (p : ℕ) (comm : ℕ) (bs : List Byte) (h : Keeps o s) : Keeps o (State.poolAdd s p comm bs).1 := by
  unfold State.poolAdd
  repeat' first
      | with_reducible assumption | with_reducible intro _ | with_reducible apply finc_keeps | with_reducible apply detect_keeps
      | with_reducible apply devWrite_keeps | with_reducible apply modPart_keeps | with_reducible apply KeepsOpt.some
      | with_reducible apply KeepsOpt.none | with_reducible refine KeepsOpt.map ?_ (fun s h => ?_)
      | with_reducible refine KeepsOpt.of (fun x => ?_) | with_reducible refine KeepsOpt.bind ?_ (fun s h => ?_)
      | with_reducible refine Keeps.foldl (fun s x h => ?_) _ ?_ | with_reducible refine Keeps.foldl1 (fun s x h => ?_) _ ?_
      | with_reducible refine Keeps.foldl2 (fun s x h => ?_) _ ?_ | simp only [Keeps.mk_iff]
      | with_reducible refine Keeps.snd (by with_reducible assumption) ?_
      | with_reducible refine Keeps.fst (by with_reducible assumption) ?_
      | with_reducible refine KeepsOpt.get (by with_reducible assumption) ?_ | split | dsimp only

theorem markEntry_keeps {o : State} (s : State) (base : ℕ) (e : PoolEntry) (state : ℕ) (step : ℕ) (h : Keeps o s) : Keeps o (State.markEntry s base e state step) := by
  unfold State.markEntry
  repeat' first | with_reducible assumption | with_reducible apply devWrite_keeps

theorem admitStep_keeps {o : State} (s : State) (p : ℕ) (n : ℕ) (h : Keeps o s) : Keeps o (State.admitStep s p n) := by
  unfold State.admitStep
  repeat' first
      | with_reducible assumption | with_reducible intro _ | with_reducible apply markEntry_keeps
      | with_reducible apply modPart_keeps | with_reducible apply finc_keeps | with_reducible apply detect_keeps
      | with_reducible apply devWrite_keeps | with_reducible apply capture_keeps | with_reducible apply take_keeps
      | with_reducible apply Keeps.ite | with_reducible apply KeepsOpt.some | with_reducible apply KeepsOpt.none
      | with_reducible apply KeepsOpt.ite | with_reducible refine KeepsOpt.map ?_ (fun s h => ?_)
      | with_reducible refine KeepsOpt.of (fun x => ?_) | with_reducible refine Keeps.foldl (fun s x h => ?_) _ ?_
      | simp only [Keeps.mk_iff] | with_reducible refine Keeps.snd (by with_reducible assumption) ?_
      | with_reducible refine Keeps.fst (by with_reducible assumption) ?_
      | with_reducible refine KeepsOpt.get (by with_reducible assumption) ?_ | split

theorem runBatchPut_keeps {o : State} (s : State) (c : Cmd) (h : Keeps o s) : Keeps o (State.runBatchPut s c) := by
  unfold State.runBatchPut
  repeat' first
      | with_reducible assumption | with_reducible intro _ | with_reducible apply send_keeps
      | with_reducible apply modPart_keeps | with_reducible apply poolAdd_keeps | with_reducible apply complete_keeps
      | with_reducible apply hostTake_keeps | with_reducible apply failTag_keeps | with_reducible apply failCmd_keeps
      | with_reducible apply Keeps.ite | with_reducible apply KeepsEff.ok | with_reducible apply KeepsEff.bad
      | with_reducible apply KeepsEff.fail | with_reducible apply KeepsEff.ite | with_reducible apply KeepsOpt.some
      | with_reducible apply KeepsOpt.none | with_reducible apply KeepsOpt.ite | with_reducible apply KeepsFault.none
      | with_reducible apply KeepsFault.some | with_reducible apply KeepsFault.ite | with_reducible apply Keeps.id
      | simp only [Keeps.mk_iff] | with_reducible refine Keeps.snd (by with_reducible assumption) ?_
      | with_reducible refine Keeps.fst (by with_reducible assumption) ?_
      | with_reducible refine KeepsOpt.get (by with_reducible assumption) ?_
      | with_reducible refine KeepsFault.get (by with_reducible assumption) ?_
      | with_reducible refine KeepsEff.get (by with_reducible assumption) ?_
      | with_reducible refine Keeps.third (by with_reducible assumption) ?_ | split

theorem execBatchPut_keeps {o : State} (fn : ℕ) (ring : ℕ) (s : State) (h : Keeps o s) : KeepsOut o (execBatchPut fn ring s) := by
  unfold execBatchPut
  repeat' first
      | with_reducible assumption | with_reducible intro _ | with_reducible apply hostCmd_keeps
      | with_reducible apply runBatchPut_keeps | with_reducible apply Keeps.ite | with_reducible apply KeepsEff.ok
      | with_reducible apply KeepsEff.bad | with_reducible apply KeepsEff.fail | with_reducible apply KeepsEff.ite
      | with_reducible apply KeepsFault.none | with_reducible apply KeepsFault.some | with_reducible apply KeepsFault.ite
      | with_reducible apply KeepsOut.next | split

theorem execBatchRecordMessage_keeps {o : State} (p : ℕ) (m : Msg) (s : State) (h : Keeps o s) : KeepsOut o (execBatchRecordMessage p m s) := by
  unfold execBatchRecordMessage
  repeat' first
      | with_reducible assumption | with_reducible intro _ | with_reducible apply onMsg_keeps
      | with_reducible apply poolAdd_keeps | with_reducible apply send_keeps | with_reducible apply Keeps.ite
      | with_reducible apply KeepsEff.ok | with_reducible apply KeepsEff.bad | with_reducible apply KeepsEff.fail
      | with_reducible apply KeepsEff.ite | with_reducible apply KeepsFault.none | with_reducible apply KeepsFault.some
      | with_reducible apply KeepsFault.ite | with_reducible apply KeepsOut.next | simp only [Keeps.mk_iff]
      | with_reducible refine Keeps.snd (by with_reducible assumption) ?_
      | with_reducible refine Keeps.fst (by with_reducible assumption) ?_
      | with_reducible refine KeepsFault.get (by with_reducible assumption) ?_
      | with_reducible refine KeepsEff.get (by with_reducible assumption) ?_
      | with_reducible refine Keeps.third (by with_reducible assumption) ?_ | split

theorem answerPut_keeps {o : State} (s : State) (p : ℕ) (id : ℕ) (status : ℕ) (h : Keeps o s) : Keeps o (State.answerPut s p id status) := by
  unfold State.answerPut
  repeat' first
      | with_reducible assumption | with_reducible intro _ | with_reducible apply finish_keeps
      | with_reducible apply modPart_keeps | with_reducible apply Keeps.id | simp only [Keeps.mk_iff]

theorem execBatchAnswerMessage_keeps {o : State} (p : ℕ) (m : Msg) (s : State) (h : Keeps o s) : KeepsOut o (execBatchAnswerMessage p m s) := by
  unfold execBatchAnswerMessage
  repeat' first
      | with_reducible assumption | with_reducible intro _ | with_reducible apply onMsg_keeps
      | with_reducible apply answerPut_keeps | with_reducible apply KeepsOpt.some | with_reducible apply KeepsOpt.none
      | with_reducible apply KeepsFault.none | with_reducible apply KeepsFault.some | with_reducible apply KeepsOut.next
      | with_reducible apply Keeps.id | simp only [Keeps.mk_iff] | with_reducible refine Keeps.snd (by with_reducible assumption) ?_
      | with_reducible refine Keeps.fst (by with_reducible assumption) ?_
      | with_reducible refine KeepsOpt.get (by with_reducible assumption) ?_
      | with_reducible refine KeepsFault.get (by with_reducible assumption) ?_ | split

theorem execBatchAnswerTimeout_keeps {o : State} (p : ℕ) (s : State) (h : Keeps o s) : KeepsOut o (execBatchAnswerTimeout p s) := by
  unfold execBatchAnswerTimeout
  repeat' first
      | with_reducible assumption | with_reducible apply settle_keeps | with_reducible apply answerPut_keeps
      | with_reducible apply KeepsFault.none | with_reducible apply KeepsFault.some | with_reducible apply KeepsOut.next
      | with_reducible apply Keeps.id | simp only [Keeps.mk_iff] | with_reducible refine Keeps.snd (by with_reducible assumption) ?_
      | with_reducible refine Keeps.fst (by with_reducible assumption) ?_
      | with_reducible refine KeepsFault.get (by with_reducible assumption) ?_ | split

theorem launchLearn_keeps {o : State} (s : State) (c : Cmd) (h : Keeps o s) : Keeps o (State.launchLearn s c) := by
  unfold State.launchLearn
  repeat' first
      | with_reducible assumption | with_reducible intro _ | with_reducible apply modPart_keeps
      | with_reducible apply fset_keeps | with_reducible apply startKettles_keeps | with_reducible apply admitStep_keeps
      | with_reducible apply startTile_keeps | with_reducible apply Keeps.ite | with_reducible apply KeepsOpt.some
      | with_reducible apply KeepsOpt.none | with_reducible apply KeepsOpt.ite | with_reducible apply Keeps.id
      | with_reducible refine Keeps.foldl (fun s x h => ?_) _ ?_ | with_reducible refine Keeps.foldl1 (fun s x h => ?_) _ ?_
      | with_reducible refine Keeps.foldl2 (fun s x h => ?_) _ ?_ | simp only [Keeps.mk_iff] | split

theorem runLearnStep_keeps {o : State} (s : State) (c : Cmd) (h : Keeps o s) : Keeps o (State.runLearnStep s c) := by
  unfold State.runLearnStep
  repeat' first
      | with_reducible assumption | with_reducible intro _ | with_reducible apply modCmd_keeps
      | with_reducible apply complete_keeps | with_reducible apply settle_keeps | with_reducible apply launchLearn_keeps
      | with_reducible apply Keeps.ite | with_reducible apply Keeps.id | simp only [Keeps.mk_iff] | split

theorem execLearnStep_keeps {o : State} (fn : ℕ) (ring : ℕ) (s : State) (h : Keeps o s) : KeepsOut o (execLearnStep fn ring s) := by
  unfold execLearnStep
  repeat' first
      | with_reducible assumption | with_reducible intro _ | with_reducible apply hostCmd_keeps
      | with_reducible apply runLearnStep_keeps | with_reducible apply KeepsFault.none | with_reducible apply KeepsFault.some
      | with_reducible apply KeepsOut.next

theorem dropNorm_keeps {o : State} (s : State) (p : ℕ) (h : Keeps o s) : Keeps o (State.dropNorm s p) := by
  unfold State.dropNorm
  repeat' first
      | with_reducible assumption | with_reducible intro _ | with_reducible apply modPart_keeps
      | with_reducible apply failColl_keeps | with_reducible apply Keeps.ite | with_reducible apply KeepsEff.ok
      | with_reducible apply KeepsEff.bad | with_reducible apply KeepsEff.fail | with_reducible apply KeepsEff.ite
      | with_reducible apply Keeps.id | with_reducible refine Keeps.foldl (fun s x h => ?_) _ ?_ | simp only [Keeps.mk_iff] | split

theorem endLearn_keeps {o : State} (s : State) (p : ℕ) (h : Keeps o s) : Keeps o (State.endLearn s p) := by
  unfold State.endLearn
  repeat' first
      | with_reducible assumption | with_reducible intro _ | with_reducible apply modPart_keeps
      | with_reducible apply finish_keeps | with_reducible apply Keeps.ite | with_reducible apply KeepsEff.ok
      | with_reducible apply KeepsEff.bad | with_reducible apply KeepsEff.fail | with_reducible apply KeepsEff.ite
      | with_reducible apply KeepsOpt.some | with_reducible apply KeepsOpt.none | with_reducible apply KeepsOpt.ite
      | simp only [Keeps.mk_iff] | with_reducible refine Keeps.snd (by with_reducible assumption) ?_
      | with_reducible refine Keeps.fst (by with_reducible assumption) ?_
      | with_reducible refine KeepsOpt.get (by with_reducible assumption) ?_
      | with_reducible refine KeepsEff.get (by with_reducible assumption) ?_ | split

end Sys2Proof.Machine
end

