-- ==== Sys2Proof/Laws/KeepsFences.lean ====
section
/-!
SUPPORT. What no operation of Machine/Fences.lean does (Laws/Keeps.lean).
-/

set_option Elab.async false

namespace Sys2Proof.Machine

theorem sendRelease_keeps {o : State} (s : State) (p : ℕ) (k : Comm) (verdict : ℕ) (f : Fence) (h : Keeps o s) : Keeps o (State.sendRelease s p k verdict f) := by
  unfold State.sendRelease
  repeat' first
      | with_reducible assumption | with_reducible intro _ | with_reducible apply toRank_keeps
      | with_reducible refine Keeps.foldl (fun s x h => ?_) _ ?_

theorem judgeFence_keeps {o : State} (s : State) (p : ℕ) (k : Comm) (f : Fence) (h : Keeps o s) : Keeps o (State.judgeFence s p k f) := by
  unfold State.judgeFence
  repeat' first
      | with_reducible assumption | with_reducible intro _ | with_reducible apply modPart_keeps
      | with_reducible apply sendRelease_keeps | with_reducible apply Keeps.ite | with_reducible apply KeepsOpt.some
      | with_reducible apply KeepsOpt.none | with_reducible apply KeepsOpt.ite | with_reducible refine KeepsOpt.map ?_ (fun s h => ?_)
      | with_reducible refine KeepsOpt.of (fun x => ?_) | simp only [Keeps.mk_iff] | split

theorem openFence_keeps {o : State} (s : State) (p : ℕ) (kind : ℕ) (k : Comm) (cmd : ℕ) (own : List ℕ) (h : Keeps o s) : Keeps o (State.openFence s p kind k cmd own) := by
  unfold State.openFence
  repeat' first
      | with_reducible assumption | with_reducible intro _ | with_reducible apply modPart_keeps
      | with_reducible apply judgeFence_keeps | with_reducible apply toRank_keeps | with_reducible apply hold_keeps
      | with_reducible apply Keeps.ite | with_reducible apply KeepsOpt.some | with_reducible apply KeepsOpt.none
      | with_reducible apply KeepsOpt.ite | with_reducible apply Keeps.id | with_reducible refine Keeps.foldl (fun s x h => ?_) _ ?_
      | with_reducible refine Keeps.foldl1 (fun s x h => ?_) _ ?_ | with_reducible refine Keeps.foldl2 (fun s x h => ?_) _ ?_
      | simp only [Keeps.mk_iff] | split

theorem onArrival_keeps {o : State} (s : State) (p : ℕ) (m : Msg) (h : Keeps o s) : Keeps o (State.onArrival s p m) := by
  unfold State.onArrival
  repeat' first
      | with_reducible assumption | with_reducible intro _ | with_reducible apply modPart_keeps
      | with_reducible apply toRank_keeps | with_reducible apply judgeFence_keeps | with_reducible apply hold_keeps
      | with_reducible apply Keeps.ite | with_reducible apply KeepsOpt.some | with_reducible apply KeepsOpt.none
      | with_reducible apply KeepsOpt.ite | with_reducible apply KeepsOpt.getD | simp only [Keeps.mk_iff]
      | with_reducible refine Keeps.snd (by with_reducible assumption) ?_
      | with_reducible refine Keeps.fst (by with_reducible assumption) ?_
      | with_reducible refine KeepsOpt.get (by with_reducible assumption) ?_ | split

theorem onRelease_keeps {o : State} (s : State) (p : ℕ) (m : Msg) (h : Keeps o s) : Keeps o (State.onRelease s p m) := by
  unfold State.onRelease
  repeat' first
      | with_reducible assumption | with_reducible intro _ | with_reducible apply modPart_keeps
      | with_reducible apply sendRelease_keeps | with_reducible apply Keeps.ite | with_reducible apply KeepsOpt.some
      | with_reducible apply KeepsOpt.none | with_reducible apply KeepsOpt.ite | with_reducible apply KeepsOpt.getD
      | simp only [Keeps.mk_iff] | with_reducible refine Keeps.snd (by with_reducible assumption) ?_
      | with_reducible refine Keeps.fst (by with_reducible assumption) ?_
      | with_reducible refine KeepsOpt.get (by with_reducible assumption) ?_ | split

theorem takeVerdict_keeps {o s : State} {p kind : Nat} {k : Nat × State → State} (hk : ∀ x, Keeps o x.2 → Keeps o (k x))
    (h : Keeps o s) : KeepsOpt o ((s.takeVerdict p kind).map k) := by
  unfold State.takeVerdict
  split
  · split
    · rename_i f _ _
      cases f.verdict with
      | none => exact KeepsOpt.none
      | some v => exact KeepsOpt.some (hk _ (modPart_keeps h _ _))
    · exact KeepsOpt.none
  · exact KeepsOpt.none

end Sys2Proof.Machine
end

