-- ==== Sys2Proof/Laws/KeepsInstall.lean ====
section
/-!
SUPPORT. What no operation of Machine/Install.lean does (Laws/Keeps.lean).
-/

set_option Elab.async false

namespace Sys2Proof.Machine

theorem copyDown_keeps {o : State} (s : State) (p : ℕ) (k : Comm) (owner : ℕ) (tag : ℕ) (entry : ℕ) (dlen : ℕ) (count : ℕ) (version : ℕ) (bs : List Byte) (h : Keeps o s) : Keeps o (State.copyDown s p k owner tag entry dlen count version bs) := by
  unfold State.copyDown
  repeat' first
      | with_reducible assumption | with_reducible intro _ | with_reducible apply toRank_keeps
      | with_reducible refine Keeps.foldl (fun s x h => ?_) _ ?_ | with_reducible refine Keeps.foldl1 (fun s x h => ?_) _ ?_
      | with_reducible refine Keeps.foldl2 (fun s x h => ?_) _ ?_ | simp only [Keeps.mk_iff]

theorem sendCopy_keeps {o : State} (s : State) (p : ℕ) (k : Comm) (version : ℕ) (gs : List OwnSeg) (h : Keeps o s) : Keeps o (State.sendCopy s p k version gs) := by
  unfold State.sendCopy
  repeat' first
      | with_reducible assumption | with_reducible intro _ | with_reducible apply copyDown_keeps
      | with_reducible refine Keeps.foldl (fun s x h => ?_) _ ?_

theorem modInstall_keeps {o : State} (s : State) (p : ℕ) (f : Install → Install) (h : Keeps o s) : Keeps o (State.modInstall s p f) := by
  unfold State.modInstall
  repeat' first
      | with_reducible assumption | with_reducible intro _ | with_reducible apply modPart_keeps
      | with_reducible refine KeepsOpt.map ?_ (fun s h => ?_) | with_reducible refine KeepsOpt.of (fun x => ?_) | simp only [Keeps.mk_iff]

theorem modSeg_keeps {o : State} (s : State) (p : ℕ) (owner : ℕ) (entry : ℕ) (f : Seg → Seg) (h : Keeps o s) : Keeps o (State.modSeg s p owner entry f) := by
  unfold State.modSeg
  repeat' first | with_reducible assumption | with_reducible intro _ | with_reducible apply modInstall_keeps

theorem putSpots_keeps {o : State} (s : State) (a1 : List (ℕ × ℕ)) (a2 : List Byte) (h : Keeps o s) : Keeps o (State.putSpots s a1 a2) := by
  induction a1 generalizing s a2 with
  | nil =>
    unfold State.putSpots
    repeat' first
        | with_reducible assumption | with_reducible apply devWrite_keeps | with_reducible apply take_keeps
        | with_reducible apply devWrite_keeps
  | cons x l ih =>
    unfold State.putSpots
    repeat' first
        | with_reducible assumption | with_reducible apply ih | with_reducible apply devWrite_keeps
        | with_reducible apply take_keeps | with_reducible apply devWrite_keeps

theorem segDiffers_keeps {o : State} (s : State) (p : ℕ) (x : Install) (k : Comm) (g : Seg) (h : Keeps o s) : Keeps o (State.segDiffers s p x k g) := by
  unfold State.segDiffers
  repeat' first
      | with_reducible assumption | with_reducible intro _ | with_reducible apply modTile_keeps
      | with_reducible apply finc_keeps | with_reducible apply detect_keeps | with_reducible apply toRank_keeps
      | with_reducible apply modSeg_keeps | with_reducible apply Keeps.ite | simp only [Keeps.mk_iff]
      | with_reducible refine Keeps.snd (by with_reducible assumption) ?_
      | with_reducible refine Keeps.fst (by with_reducible assumption) ?_ | split

theorem compareSeg_keeps {o : State} (s : State) (p : ℕ) (owner : ℕ) (entry : ℕ) (h : Keeps o s) : Keeps o (State.compareSeg s p owner entry) := by
  unfold State.compareSeg
  repeat' first
      | with_reducible assumption | with_reducible apply segDiffers_keeps | with_reducible apply Keeps.ite
      | with_reducible apply KeepsOpt.some | with_reducible apply KeepsOpt.none | with_reducible apply KeepsOpt.ite
      | simp only [Keeps.mk_iff] | with_reducible refine Keeps.snd (by with_reducible assumption) ?_
      | with_reducible refine Keeps.fst (by with_reducible assumption) ?_
      | with_reducible refine KeepsOpt.get (by with_reducible assumption) ?_ | split

theorem installSeg_keeps {o : State} (s : State) (p : ℕ) (owner : ℕ) (entry : ℕ) (bs : List Byte) (h : Keeps o s) : Keeps o (State.installSeg s p owner entry bs) := by
  unfold State.installSeg
  repeat' first
      | with_reducible assumption | with_reducible intro _ | with_reducible apply compareSeg_keeps
      | with_reducible apply modSeg_keeps | with_reducible apply putSpots_keeps | with_reducible apply KeepsOpt.some
      | with_reducible apply KeepsOpt.none | simp only [Keeps.mk_iff] | with_reducible refine Keeps.snd (by with_reducible assumption) ?_
      | with_reducible refine Keeps.fst (by with_reducible assumption) ?_
      | with_reducible refine KeepsOpt.get (by with_reducible assumption) ?_ | split

theorem takeSeg_keeps {o : State} (s : State) (p : ℕ) (owner : ℕ) (entry : ℕ) (dlen : ℕ) (bs : List Byte) (h : Keeps o s) : Keeps o (State.takeSeg s p owner entry dlen bs) := by
  unfold State.takeSeg
  repeat' first
      | with_reducible assumption | with_reducible intro _ | with_reducible apply modSeg_keeps
      | with_reducible apply putSpots_keeps | with_reducible apply installSeg_keeps | with_reducible apply Keeps.ite
      | with_reducible apply KeepsOpt.some | with_reducible apply KeepsOpt.none | with_reducible apply KeepsOpt.ite
      | with_reducible refine KeepsOpt.map ?_ (fun s h => ?_) | with_reducible refine KeepsOpt.of (fun x => ?_) | simp only [Keeps.mk_iff]
      | with_reducible refine Keeps.snd (by with_reducible assumption) ?_
      | with_reducible refine Keeps.fst (by with_reducible assumption) ?_
      | with_reducible refine KeepsOpt.get (by with_reducible assumption) ?_ | split

theorem takeCopy_keeps {o : State} (s : State) (p : ℕ) (x : Install) (k : Comm) (m : Msg) (h : Keeps o s) : Keeps o (State.takeCopy s p x k m) := by
  unfold State.takeCopy
  repeat' first
      | with_reducible assumption | with_reducible intro _ | with_reducible apply modInstall_keeps
      | with_reducible apply finc_keeps | with_reducible apply toRank_keeps | with_reducible apply copyDown_keeps
      | with_reducible apply takeSeg_keeps | with_reducible apply compareSeg_keeps | with_reducible apply modSeg_keeps
      | with_reducible apply Keeps.ite | with_reducible apply KeepsOpt.some | with_reducible apply KeepsOpt.none
      | with_reducible apply KeepsOpt.ite | with_reducible apply KeepsOpt.getD | simp only [Keeps.mk_iff]
      | with_reducible refine Keeps.snd (by with_reducible assumption) ?_
      | with_reducible refine Keeps.fst (by with_reducible assumption) ?_
      | with_reducible refine KeepsOpt.get (by with_reducible assumption) ?_ | split

theorem onCopy_keeps {o : State} (s : State) (p : ℕ) (m : Msg) (h : Keeps o s) : Keeps o (State.onCopy s p m) := by
  unfold State.onCopy
  repeat' first
      | with_reducible assumption | with_reducible intro _ | with_reducible apply modPart_keeps
      | with_reducible apply takeCopy_keeps | with_reducible apply Keeps.ite | with_reducible apply KeepsOpt.some
      | with_reducible apply KeepsOpt.none | with_reducible apply KeepsOpt.ite | with_reducible apply KeepsOpt.getD
      | simp only [Keeps.mk_iff] | with_reducible refine Keeps.snd (by with_reducible assumption) ?_
      | with_reducible refine Keeps.fst (by with_reducible assumption) ?_
      | with_reducible refine KeepsOpt.get (by with_reducible assumption) ?_ | split

theorem openInstall_keeps {o : State} (s : State) (p : ℕ) (k : Comm) (version : ℕ) (staged : Bool) (owner : Bool) (h : Keeps o s) : Keeps o (State.openInstall s p k version staged owner) := by
  unfold State.openInstall
  repeat' first
      | with_reducible assumption | with_reducible intro _ | with_reducible apply modPart_keeps
      | with_reducible apply takeSeg_keeps | with_reducible apply modSeg_keeps | with_reducible apply sendCopy_keeps
      | with_reducible apply onCopy_keeps | with_reducible apply Keeps.ite | with_reducible apply KeepsOpt.some
      | with_reducible apply KeepsOpt.none | with_reducible apply KeepsOpt.ite | with_reducible apply Keeps.id
      | with_reducible refine Keeps.foldl (fun s x h => ?_) _ ?_ | with_reducible refine Keeps.foldl1 (fun s x h => ?_) _ ?_
      | with_reducible refine Keeps.foldl2 (fun s x h => ?_) _ ?_ | simp only [Keeps.mk_iff] | split

theorem startInstall_keeps {o : State} (s : State) (p : ℕ) (h : Keeps o s) : Keeps o (State.startInstall s p) := by
  unfold State.startInstall
  repeat' first
      | with_reducible assumption | with_reducible intro _ | with_reducible apply modInstall_keeps
      | with_reducible apply addMove_keeps | with_reducible apply KeepsOpt.some | with_reducible apply KeepsOpt.none
      | with_reducible refine Keeps.foldl (fun s x h => ?_) _ ?_ | simp only [Keeps.mk_iff]
      | with_reducible refine Keeps.snd (by with_reducible assumption) ?_
      | with_reducible refine Keeps.fst (by with_reducible assumption) ?_
      | with_reducible refine KeepsOpt.get (by with_reducible assumption) ?_ | split

theorem onFetch_keeps {o : State} (s : State) (p : ℕ) (m : Msg) (h : Keeps o s) : Keeps o (State.onFetch s p m) := by
  unfold State.onFetch
  repeat' first
      | with_reducible assumption | with_reducible intro _ | with_reducible apply modPart_keeps
      | with_reducible apply send_keeps | with_reducible apply KeepsOpt.some | with_reducible apply KeepsOpt.none
      | with_reducible apply KeepsOpt.getD | simp only [Keeps.mk_iff] | with_reducible refine Keeps.snd (by with_reducible assumption) ?_
      | with_reducible refine Keeps.fst (by with_reducible assumption) ?_
      | with_reducible refine KeepsOpt.get (by with_reducible assumption) ?_ | split

theorem fetchFails_keeps {o : State} (s : State) (p : ℕ) (x : Install) (k : Comm) (g : Seg) (h : Keeps o s) : Keeps o (State.fetchFails s p x k g) := by
  unfold State.fetchFails
  repeat' first
      | with_reducible assumption | with_reducible intro _ | with_reducible apply modSeg_keeps
      | with_reducible apply toRank_keeps | with_reducible apply Keeps.ite | with_reducible apply KeepsOpt.some
      | with_reducible apply KeepsOpt.none | with_reducible apply KeepsOpt.ite | simp only [Keeps.mk_iff] | split

theorem onFetched_keeps {o : State} (s : State) (p : ℕ) (m : Msg) (h : Keeps o s) : Keeps o (State.onFetched s p m) := by
  unfold State.onFetched
  repeat' first
      | with_reducible assumption | with_reducible apply installSeg_keeps | with_reducible apply fetchFails_keeps
      | with_reducible apply Keeps.ite | with_reducible apply KeepsOpt.some | with_reducible apply KeepsOpt.none
      | with_reducible apply KeepsOpt.ite | with_reducible apply KeepsOpt.getD | simp only [Keeps.mk_iff]
      | with_reducible refine Keeps.snd (by with_reducible assumption) ?_
      | with_reducible refine Keeps.fst (by with_reducible assumption) ?_
      | with_reducible refine KeepsOpt.get (by with_reducible assumption) ?_ | split

theorem lateFetches_keeps {o : State} (s : State) (p : ℕ) (h : Keeps o s) : Keeps o (State.lateFetches s p) := by
  unfold State.lateFetches
  repeat' first
      | with_reducible assumption | with_reducible intro _ | with_reducible apply onFetch_keeps
      | with_reducible apply modPart_keeps | with_reducible apply Keeps.ite | with_reducible refine Keeps.foldl (fun s x h => ?_) _ ?_
      | simp only [Keeps.mk_iff] | split

theorem turnFinish_keeps {o : State} (s : State) (p : ℕ) (c : Coll) (result : List ℕ) (h : Keeps o s) : Keeps o (State.turnFinish s p c result) := by
  unfold State.turnFinish
  repeat' first
      | with_reducible assumption | with_reducible intro _ | with_reducible apply modPart_keeps
      | with_reducible apply modInstall_keeps | with_reducible apply scalarFinish_keeps | with_reducible apply Keeps.ite
      | with_reducible apply Keeps.id | simp only [Keeps.mk_iff] | split

theorem startAudit_keeps {o : State} (s : State) (p : ℕ) (k : Comm) (x : Install) (h : Keeps o s) : Keeps o (State.startAudit s p k x) := by
  unfold State.startAudit
  repeat' first
      | with_reducible assumption | with_reducible intro _ | with_reducible apply openColl_keeps
      | with_reducible apply modInstall_keeps | with_reducible apply joinScalar_keeps | with_reducible apply modPart_keeps
      | with_reducible apply turnFinish_keeps | with_reducible apply Keeps.id | simp only [Keeps.mk_iff]
      | with_reducible refine Keeps.snd (by with_reducible assumption) ?_
      | with_reducible refine Keeps.fst (by with_reducible assumption) ?_
      | with_reducible refine Keeps.third (by with_reducible assumption) ?_ | split

theorem driveInstall_keeps {o : State} (s : State) (p : ℕ) (h : Keeps o s) : KeepsOpt o (State.driveInstall s p) := by
  unfold State.driveInstall
  repeat' first
      | with_reducible assumption | with_reducible intro _ | with_reducible apply modInstall_keeps
      | with_reducible apply startAudit_keeps | with_reducible apply lateFetches_keeps | with_reducible apply Keeps.ite
      | with_reducible apply KeepsOpt.some | with_reducible apply KeepsOpt.none | with_reducible apply KeepsOpt.ite
      | simp only [Keeps.mk_iff] | with_reducible refine Keeps.snd (by with_reducible assumption) ?_
      | with_reducible refine Keeps.fst (by with_reducible assumption) ?_
      | with_reducible refine KeepsOpt.get (by with_reducible assumption) ?_ | split

end Sys2Proof.Machine
end

