-- ==== Sys2Proof/Laws/KeepsTurn.lean ====
section
/-!
SUPPORT. What no operation of Machine/Turn.lean does (Laws/Keeps.lean).
-/

set_option Elab.async false

namespace Sys2Proof.Machine

theorem modTurn_keeps {o : State} (s : State) (p : ℕ) (f : Turn → Turn) (h : Keeps o s) : Keeps o (State.modTurn s p f) := by
  unfold State.modTurn
  repeat' first
      | with_reducible assumption | with_reducible intro _ | with_reducible apply modPart_keeps
      | with_reducible refine KeepsOpt.map ?_ (fun s h => ?_) | with_reducible refine KeepsOpt.of (fun x => ?_) | simp only [Keeps.mk_iff]

theorem toStage_keeps {o : State} (s : State) (p : ℕ) (n : ℕ) (h : Keeps o s) : Keeps o (State.toStage s p n) := by
  unfold State.toStage
  repeat' first | with_reducible assumption | with_reducible intro _ | with_reducible apply modTurn_keeps | simp only [Keeps.mk_iff]

theorem toStep_keeps {o : State} (s : State) (p : ℕ) (n : ℕ) (h : Keeps o s) : Keeps o (State.toStep s p n) := by
  unfold State.toStep
  repeat' first | with_reducible assumption | with_reducible apply toStage_keeps | with_reducible apply fset_keeps

theorem queueJob_keeps {o : State} (s : State) (j : Job) (h : Keeps o s) : Keeps o (State.queueJob s j).1 := by
  unfold State.queueJob
  repeat' first
      | with_reducible assumption | with_reducible apply addJob_keeps | with_reducible apply startJob_keeps
      | with_reducible apply Keeps.ite | split | dsimp only

theorem sendNotice_keeps {o : State} (s : State) (p : ℕ) (k : Comm) (rank : ℕ) (h : Keeps o s) : Keeps o (State.sendNotice s p k rank) := by
  unfold State.sendNotice
  repeat' first
      | with_reducible assumption | with_reducible intro _ | with_reducible apply toRank_keeps | with_reducible apply Keeps.ite
      | with_reducible refine Keeps.foldl (fun s x h => ?_) _ ?_ | simp only [Keeps.mk_iff] | split

theorem leaveComms_keeps {o : State} (s : State) (p : ℕ) (h : Keeps o s) : Keeps o (State.leaveComms s p) := by
  unfold State.leaveComms
  repeat' first
      | with_reducible assumption | with_reducible intro _ | with_reducible apply sendNotice_keeps
      | with_reducible apply showDegraded_keeps | with_reducible apply modPart_keeps
      | with_reducible refine Keeps.foldl (fun s x h => ?_) _ ?_ | simp only [Keeps.mk_iff]

theorem runBegin_keeps {o : State} (s : State) (c : Cmd) (h : Keeps o s) : Keeps o (State.runBegin s c) := by
  unfold State.runBegin
  repeat' first
      | with_reducible assumption | with_reducible intro _ | with_reducible apply modPart_keeps
      | with_reducible apply fset_keeps | with_reducible apply dueClose_keeps | with_reducible apply KeepsOpt.some
      | with_reducible apply KeepsOpt.none | with_reducible apply Keeps.id | with_reducible refine Keeps.foldl (fun s x h => ?_) _ ?_
      | simp only [Keeps.mk_iff]

theorem runCommit_keeps {o : State} (s : State) (c : Cmd) (h : Keeps o s) : Keeps o (State.runCommit s c) := by
  unfold State.runCommit
  repeat' first
      | with_reducible assumption | with_reducible intro _ | with_reducible apply modTurn_keeps
      | with_reducible apply dueClose_keeps | with_reducible apply Keeps.id | with_reducible refine Keeps.foldl (fun s x h => ?_) _ ?_
      | simp only [Keeps.mk_iff]

theorem runAbandon_keeps {o : State} (s : State) (c : Cmd) (h : Keeps o s) : Keeps o (State.runAbandon s c) := by
  unfold State.runAbandon
  repeat' first
      | with_reducible assumption | with_reducible intro _ | with_reducible apply fset_keeps
      | with_reducible apply modTurn_keeps | with_reducible apply complete_keeps | with_reducible apply finish_keeps
      | with_reducible apply Keeps.ite | with_reducible apply KeepsOpt.some | with_reducible apply KeepsOpt.none
      | with_reducible apply KeepsOpt.ite | with_reducible apply Keeps.id | with_reducible refine Keeps.foldl (fun s x h => ?_) _ ?_
      | simp only [Keeps.mk_iff] | with_reducible refine Keeps.snd (by with_reducible assumption) ?_
      | with_reducible refine Keeps.fst (by with_reducible assumption) ?_
      | with_reducible refine KeepsOpt.get (by with_reducible assumption) ?_ | split

theorem turnFence_keeps {o : State} (s : State) (p : ℕ) (t : Turn) (h : Keeps o s) : Keeps o (State.turnFence s p t) := by
  unfold State.turnFence
  repeat' first
      | with_reducible assumption | with_reducible apply openFence_keeps | with_reducible apply toStage_keeps
      | with_reducible apply KeepsOpt.some | with_reducible apply KeepsOpt.none | simp only [Keeps.mk_iff]
      | with_reducible refine Keeps.snd (by with_reducible assumption) ?_
      | with_reducible refine Keeps.fst (by with_reducible assumption) ?_
      | with_reducible refine KeepsOpt.get (by with_reducible assumption) ?_ | split

theorem endTurn_keeps {o : State} (s : State) (p : ℕ) (phase : ℕ) (h : Keeps o s) : Keeps o (State.endTurn s p phase) := by
  unfold State.endTurn
  repeat' first
      | with_reducible assumption | with_reducible intro _ | with_reducible apply modPart_keeps
      | with_reducible apply fset_keeps | simp only [Keeps.mk_iff]

theorem failTurn_keeps {o : State} (s : State) (p : ℕ) (t : Turn) (status : ℕ) (h : Keeps o s) : Keeps o (State.failTurn s p t status) := by
  unfold State.failTurn
  repeat' first
      | with_reducible assumption | with_reducible apply endTurn_keeps | with_reducible apply finish_keeps
      | with_reducible apply Keeps.ite | with_reducible apply KeepsEff.ok | with_reducible apply KeepsEff.bad
      | with_reducible apply KeepsEff.fail | with_reducible apply KeepsEff.ite | split

theorem flushLog_keeps {o : State} (s : State) (p : ℕ) (b : ℕ) (comm : ℕ) (a4 : ℕ) (a5 : ℕ) (h : Keeps o s) : Keeps o (State.flushLog s p b comm a4 a5) := by
  induction a4 generalizing s p b comm a5 with
  | zero =>
    unfold State.flushLog
    repeat' first
        | with_reducible assumption | with_reducible intro _ | with_reducible apply modBay_keeps
        | with_reducible apply detect_keeps | with_reducible apply poolAdd_keeps | with_reducible apply modBay_keeps
        | with_reducible apply Keeps.ite | with_reducible apply KeepsEff.ok | with_reducible apply KeepsEff.bad
        | with_reducible apply KeepsEff.fail | with_reducible apply KeepsEff.ite | simp only [Keeps.mk_iff] | split
  | succ n ih =>
    unfold State.flushLog
    repeat' first
        | with_reducible assumption | with_reducible apply ih | with_reducible intro _ | with_reducible apply modBay_keeps
        | with_reducible apply detect_keeps | with_reducible apply poolAdd_keeps | with_reducible apply modBay_keeps
        | with_reducible apply Keeps.ite | with_reducible apply KeepsEff.ok | with_reducible apply KeepsEff.bad
        | with_reducible apply KeepsEff.fail | with_reducible apply KeepsEff.ite | simp only [Keeps.mk_iff] | split

theorem flushLogs_keeps {o : State} (s : State) (p : ℕ) (comm : ℕ) (h : Keeps o s) : Keeps o (State.flushLogs s p comm) := by
  unfold State.flushLogs
  repeat' first
      | with_reducible assumption | with_reducible intro _ | with_reducible apply flushLog_keeps
      | with_reducible refine Keeps.foldl (fun s x h => ?_) _ ?_

theorem startUnpark_keeps {o : State} (s : State) (p : ℕ) (t : Turn) (h : Keeps o s) : Keeps o (State.startUnpark s p t) := by
  unfold State.startUnpark
  repeat' first
      | with_reducible assumption | with_reducible intro _ | with_reducible apply startPark_keeps
      | with_reducible apply addCopy_keeps | with_reducible apply modTurn_keeps | with_reducible apply Keeps.ite
      | with_reducible refine Keeps.foldl (fun s x h => ?_) _ ?_ | with_reducible refine Keeps.foldl1 (fun s x h => ?_) _ ?_
      | with_reducible refine Keeps.foldl2 (fun s x h => ?_) _ ?_ | simp only [Keeps.mk_iff] | split

theorem loadResidents_keeps {o : State} (s : State) (p : ℕ) (h : Keeps o s) : Keeps o (State.loadResidents s p) := by
  unfold State.loadResidents
  repeat' first
      | with_reducible assumption | with_reducible intro _ | with_reducible apply spWrite_keeps
      | with_reducible refine Keeps.foldl (fun s x h => ?_) _ ?_

theorem liftTurn_keeps {o : State} (s : State) (p : ℕ) (t : Turn) (h : Keeps o s) : Keeps o (State.liftTurn s p t) := by
  unfold State.liftTurn
  repeat' first
      | with_reducible assumption | with_reducible apply faultAt_keeps | with_reducible apply failTurn_keeps
      | with_reducible apply liftBarrier_keeps | with_reducible apply setVersion_keeps | with_reducible apply loadResidents_keeps
      | with_reducible apply finish_keeps | with_reducible apply endTurn_keeps | with_reducible apply KeepsEff.ok
      | with_reducible apply KeepsEff.bad | with_reducible apply KeepsEff.fail | with_reducible apply KeepsOpt.some
      | with_reducible apply KeepsOpt.none | with_reducible apply KeepsFault.none | with_reducible apply KeepsFault.some
      | simp only [Keeps.mk_iff] | with_reducible refine Keeps.snd (by with_reducible assumption) ?_
      | with_reducible refine Keeps.fst (by with_reducible assumption) ?_
      | with_reducible refine KeepsOpt.get (by with_reducible assumption) ?_
      | with_reducible refine KeepsFault.get (by with_reducible assumption) ?_
      | with_reducible refine KeepsEff.get (by with_reducible assumption) ?_ | split

theorem turnApplied_keeps {o : State} (s : State) (p : ℕ) (status : ℕ) (h : Keeps o s) : Keeps o (State.turnApplied s p status) := by
  unfold State.turnApplied
  repeat' first
      | with_reducible assumption | with_reducible intro _ | with_reducible apply failTurn_keeps
      | with_reducible apply leaveComms_keeps | with_reducible apply turnFence_keeps | with_reducible apply modPart_keeps
      | with_reducible apply toStage_keeps | with_reducible apply Keeps.ite | with_reducible apply KeepsEff.ok
      | with_reducible apply KeepsEff.bad | with_reducible apply KeepsEff.fail | with_reducible apply KeepsEff.ite
      | with_reducible apply KeepsOpt.some | with_reducible apply KeepsOpt.none | with_reducible apply KeepsOpt.ite
      | simp only [Keeps.mk_iff] | with_reducible refine Keeps.snd (by with_reducible assumption) ?_
      | with_reducible refine Keeps.fst (by with_reducible assumption) ?_
      | with_reducible refine KeepsOpt.get (by with_reducible assumption) ?_ | split

theorem startApply_keeps {o : State} (s : State) (p : ℕ) (j : Job) (h : Keeps o s) : Keeps o (State.startApply s p j) := by
  unfold State.startApply
  repeat' first
      | with_reducible assumption | with_reducible apply queueJob_keeps | with_reducible apply toStage_keeps
      | with_reducible apply turnApplied_keeps | with_reducible apply KeepsOpt.some | with_reducible apply KeepsOpt.none
      | simp only [Keeps.mk_iff] | with_reducible refine Keeps.snd (by with_reducible assumption) ?_
      | with_reducible refine Keeps.fst (by with_reducible assumption) ?_
      | with_reducible refine KeepsOpt.get (by with_reducible assumption) ?_ | split

theorem abandoned_keeps {o : State} (s : State) (p : ℕ) (t : Turn) (h : Keeps o s) : Keeps o (State.abandoned s p t) := by
  induction p generalizing s t with
  | zero =>
    unfold State.abandoned
    repeat' first
        | with_reducible assumption | with_reducible apply finish_keeps | with_reducible apply endTurn_keeps
        | with_reducible apply liftBarrier_keeps | with_reducible apply Keeps.ite | with_reducible apply KeepsEff.ok
        | with_reducible apply KeepsEff.bad | with_reducible apply KeepsEff.fail | with_reducible apply KeepsEff.ite | split
  | succ n ih =>
    unfold State.abandoned
    repeat' first
        | with_reducible assumption | with_reducible apply ih | with_reducible apply finish_keeps
        | with_reducible apply endTurn_keeps | with_reducible apply liftBarrier_keeps | with_reducible apply Keeps.ite
        | with_reducible apply KeepsEff.ok | with_reducible apply KeepsEff.bad | with_reducible apply KeepsEff.fail
        | with_reducible apply KeepsEff.ite | split

theorem reapply_keeps {o : State} (s : State) (p : ℕ) (t : Turn) (h : Keeps o s) : Keeps o (State.reapply s p t) := by
  unfold State.reapply
  repeat' first | with_reducible assumption | with_reducible apply queueJob_keeps | with_reducible apply toStage_keeps

theorem driveAbandon_keeps {o : State} (s : State) (p : ℕ) (t : Turn) (h : Keeps o s) : KeepsOpt o (State.driveAbandon s p t) := by
  unfold State.driveAbandon
  repeat' first
      | with_reducible assumption | with_reducible intro _ | with_reducible apply reapply_keeps
      | with_reducible apply startPark_keeps | with_reducible apply addCopy_keeps | with_reducible apply toStage_keeps
      | with_reducible apply Keeps.ite | with_reducible apply KeepsOpt.some | with_reducible apply KeepsOpt.none
      | with_reducible apply KeepsOpt.ite | with_reducible refine Keeps.foldl (fun s x h => ?_) _ ?_ | split

theorem turnVerdict_keeps {o : State} (s : State) (p : ℕ) (t : Turn) (v : ℕ) (h : Keeps o s) : Keeps o (State.turnVerdict s p t v) := by
  unfold State.turnVerdict
  repeat' first
      | with_reducible assumption | with_reducible intro _ | with_reducible apply finish_keeps
      | with_reducible apply endTurn_keeps | with_reducible apply liftBarrier_keeps | with_reducible apply modTurn_keeps
      | with_reducible apply toStage_keeps | with_reducible apply fset_keeps | with_reducible apply failTurn_keeps
      | with_reducible apply startKettles_keeps | with_reducible apply toStep_keeps | with_reducible apply Keeps.ite
      | with_reducible apply KeepsEff.ok | with_reducible apply KeepsEff.bad | with_reducible apply KeepsEff.fail
      | with_reducible apply KeepsEff.ite | simp only [Keeps.mk_iff] | split

theorem driveTurn_keeps {o : State} (s : State) (p : ℕ) (h : Keeps o s) : KeepsOpt o (State.driveTurn s p) := by
  unfold State.driveTurn
  repeat' first
      | with_reducible assumption | with_reducible intro _ | with_reducible apply driveAbandon_keeps
      | with_reducible apply turnVerdict_keeps | with_reducible apply turnFence_keeps | with_reducible apply flushLogs_keeps
      | with_reducible apply startApply_keeps | with_reducible apply startUnpark_keeps | with_reducible apply toStage_keeps
      | with_reducible apply finish_keeps | with_reducible apply modTurn_keeps | with_reducible apply failTurn_keeps
      | with_reducible apply dropColls_keeps | with_reducible apply openInstall_keeps | with_reducible apply startPark_keeps
      | with_reducible apply startInstall_keeps | with_reducible apply liftTurn_keeps | with_reducible apply Keeps.ite
      | with_reducible apply KeepsEff.ok | with_reducible apply KeepsEff.bad | with_reducible apply KeepsEff.fail
      | with_reducible apply KeepsEff.ite | with_reducible apply KeepsOpt.some | with_reducible apply KeepsOpt.none
      | with_reducible apply KeepsOpt.ite | with_reducible refine takeVerdict_keeps (fun x h => ?_) ?_
      | with_reducible refine KeepsOpt.map ?_ (fun s h => ?_) | with_reducible refine KeepsOpt.of (fun x => ?_) | simp only [Keeps.mk_iff]
      | with_reducible refine Keeps.snd (by with_reducible assumption) ?_
      | with_reducible refine Keeps.fst (by with_reducible assumption) ?_
      | with_reducible refine KeepsOpt.get (by with_reducible assumption) ?_ | split

end Sys2Proof.Machine
end

