-- ==== Sys2Proof/Laws/KeepsRefresh.lean ====
section
/-!
SUPPORT. What no operation of Machine/Refresh.lean does (Laws/Keeps.lean).
-/

set_option Elab.async false

namespace Sys2Proof.Machine

theorem refreshStage_keeps {o : State} (s : State) (p : ℕ) (n : ℕ) (h : Keeps o s) : Keeps o (State.refreshStage s p n) := by
  unfold State.refreshStage
  repeat' first
      | with_reducible assumption | with_reducible intro _ | with_reducible apply modPart_keeps
      | with_reducible refine KeepsOpt.map ?_ (fun s h => ?_) | with_reducible refine KeepsOpt.of (fun x => ?_) | simp only [Keeps.mk_iff]

theorem endRefresh_keeps {o : State} (s : State) (p : ℕ) (status : ℕ) (h : Keeps o s) : Keeps o (State.endRefresh s p status) := by
  unfold State.endRefresh
  repeat' first
      | with_reducible assumption | with_reducible apply finish_keeps | with_reducible apply dropRefresh_keeps
      | with_reducible apply KeepsOpt.some | with_reducible apply KeepsOpt.none | simp only [Keeps.mk_iff]
      | with_reducible refine Keeps.snd (by with_reducible assumption) ?_
      | with_reducible refine Keeps.fst (by with_reducible assumption) ?_
      | with_reducible refine KeepsOpt.get (by with_reducible assumption) ?_ | split

theorem runPublish_keeps {o : State} (s : State) (c : Cmd) (h : Keeps o s) : Keeps o (State.runPublish s c) := by
  unfold State.runPublish
  repeat' first
      | with_reducible assumption | with_reducible intro _ | with_reducible apply complete_keeps
      | with_reducible apply startKettles_keeps | with_reducible apply modPart_keeps | with_reducible apply Keeps.ite
      | with_reducible apply KeepsOpt.some | with_reducible apply KeepsOpt.none | with_reducible apply KeepsOpt.ite
      | simp only [Keeps.mk_iff] | split

theorem runSwap_keeps {o : State} (s : State) (c : Cmd) (h : Keeps o s) : Keeps o (State.runSwap s c) := by
  unfold State.runSwap
  repeat' first
      | with_reducible assumption | with_reducible intro _ | with_reducible apply complete_keeps
      | with_reducible apply modPart_keeps | with_reducible apply fset_keeps | with_reducible apply dueClose_keeps
      | with_reducible apply Keeps.ite | with_reducible apply KeepsOpt.some | with_reducible apply KeepsOpt.none
      | with_reducible apply KeepsOpt.ite | with_reducible refine Keeps.foldl (fun s x h => ?_) _ ?_ | simp only [Keeps.mk_iff] | split

theorem refreshFence_keeps {o : State} (s : State) (p : ℕ) (r : Refresh) (h : Keeps o s) : Keeps o (State.refreshFence s p r) := by
  unfold State.refreshFence
  repeat' first
      | with_reducible assumption | with_reducible apply openFence_keeps | with_reducible apply refreshStage_keeps
      | with_reducible apply endRefresh_keeps | with_reducible apply KeepsEff.ok | with_reducible apply KeepsEff.bad
      | with_reducible apply KeepsEff.fail | with_reducible apply KeepsOpt.some | with_reducible apply KeepsOpt.none
      | simp only [Keeps.mk_iff] | with_reducible refine Keeps.snd (by with_reducible assumption) ?_
      | with_reducible refine Keeps.fst (by with_reducible assumption) ?_
      | with_reducible refine KeepsOpt.get (by with_reducible assumption) ?_ | split

theorem liftSwap_keeps {o : State} (s : State) (p : ℕ) (r : Refresh) (h : Keeps o s) : Keeps o (State.liftSwap s p r) := by
  unfold State.liftSwap
  repeat' first
      | with_reducible assumption | with_reducible intro _ | with_reducible apply fset_keeps
      | with_reducible apply faultAt_keeps | with_reducible apply endRefresh_keeps | with_reducible apply liftBarrier_keeps
      | with_reducible apply setVersion_keeps | with_reducible apply loadResidents_keeps | with_reducible apply KeepsEff.ok
      | with_reducible apply KeepsEff.bad | with_reducible apply KeepsEff.fail | with_reducible apply KeepsOpt.some
      | with_reducible apply KeepsOpt.none | with_reducible apply KeepsFault.none | with_reducible apply KeepsFault.some
      | with_reducible refine Keeps.foldl (fun s x h => ?_) _ ?_ | with_reducible refine KeepsEff.foldl (fun s x h => ?_) _ ?_
      | simp only [Keeps.mk_iff] | with_reducible refine Keeps.snd (by with_reducible assumption) ?_
      | with_reducible refine Keeps.fst (by with_reducible assumption) ?_
      | with_reducible refine KeepsOpt.get (by with_reducible assumption) ?_
      | with_reducible refine KeepsFault.get (by with_reducible assumption) ?_
      | with_reducible refine KeepsEff.get (by with_reducible assumption) ?_ | split

theorem refreshAudited_keeps {o : State} (s : State) (p : ℕ) (r : Refresh) (sum : ℕ) (h : Keeps o s) : Keeps o (State.refreshAudited s p r sum) := by
  unfold State.refreshAudited
  repeat' first
      | with_reducible assumption | with_reducible intro _ | with_reducible apply endRefresh_keeps
      | with_reducible apply setVersion_keeps | with_reducible apply fset_keeps | with_reducible apply dueClose_keeps
      | with_reducible apply refreshStage_keeps | with_reducible apply Keeps.ite | with_reducible apply KeepsEff.ok
      | with_reducible apply KeepsEff.bad | with_reducible apply KeepsEff.fail | with_reducible apply KeepsEff.ite
      | with_reducible refine Keeps.foldl (fun s x h => ?_) _ ?_ | with_reducible refine KeepsEff.foldl (fun s x h => ?_) _ ?_ | split

theorem driveRefresh_keeps {o : State} (s : State) (p : ℕ) (h : Keeps o s) : KeepsOpt o (State.driveRefresh s p) := by
  unfold State.driveRefresh
  repeat' first
      | with_reducible assumption | with_reducible intro _ | with_reducible apply endRefresh_keeps
      | with_reducible apply refreshFence_keeps | with_reducible apply liftBarrier_keeps | with_reducible apply openInstall_keeps
      | with_reducible apply refreshStage_keeps | with_reducible apply refreshAudited_keeps | with_reducible apply liftSwap_keeps
      | with_reducible apply Keeps.ite | with_reducible apply KeepsEff.ok | with_reducible apply KeepsEff.bad
      | with_reducible apply KeepsEff.fail | with_reducible apply KeepsEff.ite | with_reducible apply KeepsOpt.some
      | with_reducible apply KeepsOpt.none | with_reducible apply KeepsOpt.ite | with_reducible refine takeVerdict_keeps (fun x h => ?_) ?_
      | with_reducible refine KeepsOpt.map ?_ (fun s h => ?_) | with_reducible refine KeepsOpt.of (fun x => ?_) | simp only [Keeps.mk_iff]
      | with_reducible refine Keeps.snd (by with_reducible assumption) ?_
      | with_reducible refine Keeps.fst (by with_reducible assumption) ?_
      | with_reducible refine KeepsOpt.get (by with_reducible assumption) ?_ | split

theorem runWeight_keeps {o : State} (s : State) (c : Cmd) (h : Keeps o s) : Keeps o (State.runWeight s c) := by
  unfold State.runWeight
  repeat' first
      | with_reducible assumption | with_reducible intro _ | with_reducible apply failCmd_keeps
      | with_reducible apply modCmd_keeps | with_reducible apply dueClose_keeps | with_reducible apply Keeps.ite
      | with_reducible apply KeepsEff.ok | with_reducible apply KeepsEff.bad | with_reducible apply KeepsEff.fail
      | with_reducible apply KeepsEff.ite | with_reducible apply KeepsOpt.some | with_reducible apply KeepsOpt.none
      | with_reducible apply KeepsOpt.ite | with_reducible apply KeepsFault.none | with_reducible apply KeepsFault.some
      | with_reducible apply KeepsFault.ite | with_reducible apply Keeps.id | with_reducible refine Keeps.foldl (fun s x h => ?_) _ ?_
      | simp only [Keeps.mk_iff] | with_reducible refine Keeps.snd (by with_reducible assumption) ?_
      | with_reducible refine Keeps.fst (by with_reducible assumption) ?_
      | with_reducible refine KeepsOpt.get (by with_reducible assumption) ?_
      | with_reducible refine KeepsFault.get (by with_reducible assumption) ?_ | split

theorem driveWeight_keeps {o : State} (s : State) (p : ℕ) (h : Keeps o s) : KeepsOpt o (State.driveWeight s p) := by
  unfold State.driveWeight
  repeat' first
      | with_reducible assumption | with_reducible intro _ | with_reducible apply addMove_keeps
      | with_reducible apply modCmd_keeps | with_reducible apply Keeps.ite | with_reducible apply KeepsOpt.some
      | with_reducible apply KeepsOpt.none | with_reducible apply KeepsOpt.ite | with_reducible refine KeepsOpt.map ?_ (fun s h => ?_)
      | with_reducible refine KeepsOpt.of (fun x => ?_) | with_reducible apply Keeps.id | simp only [Keeps.mk_iff] | split

theorem landWeight_keeps {o : State} (s : State) (m : Move) (h : Keeps o s) : Keeps o (State.landWeight s m) := by
  unfold State.landWeight
  repeat' first
      | with_reducible assumption | with_reducible apply dropMove_keeps | with_reducible apply hostTake_keeps
      | with_reducible apply failTag_keeps | with_reducible apply failCmd_keeps | with_reducible apply complete_keeps
      | with_reducible apply partWrite_keeps | with_reducible apply setVersion_keeps | with_reducible apply loadResidents_keeps
      | with_reducible apply fset_keeps | with_reducible apply liftBarrier_keeps | with_reducible apply Keeps.ite
      | with_reducible apply KeepsEff.ok | with_reducible apply KeepsEff.bad | with_reducible apply KeepsEff.fail
      | with_reducible apply KeepsEff.ite | with_reducible apply KeepsOpt.some | with_reducible apply KeepsOpt.none
      | with_reducible apply KeepsOpt.ite | with_reducible apply KeepsFault.none | with_reducible apply KeepsFault.some
      | with_reducible apply KeepsFault.ite | with_reducible apply Keeps.id | simp only [Keeps.mk_iff]
      | with_reducible refine Keeps.snd (by with_reducible assumption) ?_
      | with_reducible refine Keeps.fst (by with_reducible assumption) ?_
      | with_reducible refine KeepsOpt.get (by with_reducible assumption) ?_
      | with_reducible refine KeepsFault.get (by with_reducible assumption) ?_
      | with_reducible refine KeepsEff.get (by with_reducible assumption) ?_
      | with_reducible refine Keeps.third (by with_reducible assumption) ?_ | split

theorem rejoinApplied_keeps {o : State} (s : State) (p : ℕ) (cmd : ℕ) (status : ℕ) (h : Keeps o s) : Keeps o (State.rejoinApplied s p cmd status) := by
  unfold State.rejoinApplied
  repeat' first
      | with_reducible assumption | with_reducible intro _ | with_reducible apply openFence_keeps
      | with_reducible apply complete_keeps | with_reducible apply fset_keeps | with_reducible apply Keeps.ite
      | with_reducible apply KeepsOpt.some | with_reducible apply KeepsOpt.none | with_reducible apply KeepsOpt.ite
      | with_reducible refine KeepsOpt.map ?_ (fun s h => ?_) | with_reducible refine KeepsOpt.of (fun x => ?_)
      | with_reducible apply KeepsOpt.getD | simp only [Keeps.mk_iff] | with_reducible refine Keeps.snd (by with_reducible assumption) ?_
      | with_reducible refine Keeps.fst (by with_reducible assumption) ?_
      | with_reducible refine KeepsOpt.get (by with_reducible assumption) ?_ | split

theorem runRejoin_keeps {o : State} (s : State) (c : Cmd) (h : Keeps o s) : Keeps o (State.runRejoin s c) := by
  unfold State.runRejoin
  repeat' first
      | with_reducible assumption | with_reducible intro _ | with_reducible apply complete_keeps
      | with_reducible apply rejoinApplied_keeps | with_reducible apply queueJob_keeps | with_reducible apply Keeps.ite
      | with_reducible apply KeepsOpt.some | with_reducible apply KeepsOpt.none | with_reducible apply KeepsOpt.ite
      | with_reducible refine KeepsOpt.map ?_ (fun s h => ?_) | with_reducible refine KeepsOpt.of (fun x => ?_)
      | with_reducible apply KeepsOpt.getD | with_reducible apply Keeps.id | simp only [Keeps.mk_iff]
      | with_reducible refine Keeps.snd (by with_reducible assumption) ?_
      | with_reducible refine Keeps.fst (by with_reducible assumption) ?_
      | with_reducible refine KeepsOpt.get (by with_reducible assumption) ?_ | split

theorem driveRejoin_keeps {o : State} (s : State) (p : ℕ) (h : Keeps o s) : KeepsOpt o (State.driveRejoin s p) := by
  unfold State.driveRejoin
  repeat' first
      | with_reducible assumption | with_reducible intro _ | with_reducible apply finish_keeps | with_reducible apply fset_keeps
      | with_reducible apply modPart_keeps | with_reducible apply Keeps.ite | with_reducible apply KeepsEff.ok
      | with_reducible apply KeepsEff.bad | with_reducible apply KeepsEff.fail | with_reducible apply KeepsEff.ite
      | with_reducible apply KeepsOpt.some | with_reducible apply KeepsOpt.none | with_reducible apply KeepsOpt.ite
      | with_reducible refine takeVerdict_keeps (fun x h => ?_) ?_ | with_reducible refine KeepsOpt.map ?_ (fun s h => ?_)
      | with_reducible refine KeepsOpt.of (fun x => ?_) | with_reducible apply KeepsOpt.getD | simp only [Keeps.mk_iff]
      | with_reducible refine Keeps.snd (by with_reducible assumption) ?_
      | with_reducible refine Keeps.fst (by with_reducible assumption) ?_
      | with_reducible refine KeepsOpt.get (by with_reducible assumption) ?_
      | with_reducible refine KeepsEff.get (by with_reducible assumption) ?_ | split

end Sys2Proof.Machine
end

