-- ==== Sys2Proof/Laws/KeepsReplay.lean ====
section
/-!
SUPPORT. What no operation of Machine/Replay.lean does (Laws/Keeps.lean).
-/

set_option Elab.async false

namespace Sys2Proof.Machine

theorem refuseReplay_keeps {o : State} (s : State) (p : ℕ) (status : ℕ) (h : Keeps o s) : Keeps o (State.refuseReplay s p status) := by
  unfold State.refuseReplay
  repeat' first
      | with_reducible assumption | with_reducible intro _ | with_reducible apply finish_keeps
      | with_reducible apply modPart_keeps | with_reducible apply fset_keeps | with_reducible apply KeepsOpt.some
      | with_reducible apply KeepsOpt.none | simp only [Keeps.mk_iff] | with_reducible refine Keeps.snd (by with_reducible assumption) ?_
      | with_reducible refine Keeps.fst (by with_reducible assumption) ?_
      | with_reducible refine KeepsOpt.get (by with_reducible assumption) ?_ | split

theorem queueRun_keeps {o : State} (s : State) (p : ℕ) (j : Job) (h : Keeps o s) : Keeps o (State.queueRun s p j) := by
  unfold State.queueRun
  repeat' first
      | with_reducible assumption | with_reducible apply queueJob_keeps | with_reducible apply refuseReplay_keeps
      | with_reducible apply KeepsOpt.some | with_reducible apply KeepsOpt.none | simp only [Keeps.mk_iff]
      | with_reducible refine Keeps.snd (by with_reducible assumption) ?_
      | with_reducible refine Keeps.fst (by with_reducible assumption) ?_
      | with_reducible refine KeepsOpt.get (by with_reducible assumption) ?_ | split

theorem runReplay_keeps {o : State} (s : State) (c : Cmd) (h : Keeps o s) : Keeps o (State.runReplay s c) := by
  unfold State.runReplay
  repeat' first
      | with_reducible assumption | with_reducible intro _ | with_reducible apply complete_keeps
      | with_reducible apply queueRun_keeps | with_reducible apply modPart_keeps | with_reducible apply fset_keeps
      | with_reducible apply failCmd_keeps | with_reducible apply take_keeps | with_reducible apply Keeps.ite
      | with_reducible apply KeepsEff.ok | with_reducible apply KeepsEff.bad | with_reducible apply KeepsEff.fail
      | with_reducible apply KeepsEff.ite | with_reducible apply KeepsOpt.some | with_reducible apply KeepsOpt.none
      | with_reducible apply KeepsOpt.ite | with_reducible apply KeepsFault.none | with_reducible apply KeepsFault.some
      | with_reducible apply KeepsFault.ite | with_reducible apply Keeps.id | simp only [Keeps.mk_iff]
      | with_reducible refine Keeps.snd (by with_reducible assumption) ?_
      | with_reducible refine Keeps.fst (by with_reducible assumption) ?_
      | with_reducible refine KeepsOpt.get (by with_reducible assumption) ?_
      | with_reducible refine KeepsFault.get (by with_reducible assumption) ?_ | split

theorem replayApplied_keeps {o : State} (s : State) (p : ℕ) (j : Job) (h : Keeps o s) : Keeps o (State.replayApplied s p j) := by
  unfold State.replayApplied
  repeat' first
      | with_reducible assumption | with_reducible intro _ | with_reducible apply applyImage_keeps
      | with_reducible apply modPart_keeps | with_reducible apply fset_keeps | with_reducible apply KeepsOpt.some
      | with_reducible apply KeepsOpt.none | simp only [Keeps.mk_iff] | with_reducible refine Keeps.snd (by with_reducible assumption) ?_
      | with_reducible refine Keeps.fst (by with_reducible assumption) ?_
      | with_reducible refine KeepsOpt.get (by with_reducible assumption) ?_ | split

theorem endReplay_keeps {o : State} (s : State) (p : ℕ) (status : ℕ) (rseq : ℕ) (h : Keeps o s) : Keeps o (State.endReplay s p status rseq) := by
  unfold State.endReplay
  repeat' first
      | with_reducible assumption | with_reducible intro _ | with_reducible apply sparge_keeps
      | with_reducible apply haltWork_keeps | with_reducible apply fset_keeps | with_reducible apply finish_keeps
      | with_reducible apply modPart_keeps | with_reducible apply KeepsOpt.some | with_reducible apply KeepsOpt.none
      | simp only [Keeps.mk_iff] | with_reducible refine Keeps.snd (by with_reducible assumption) ?_
      | with_reducible refine Keeps.fst (by with_reducible assumption) ?_
      | with_reducible refine KeepsOpt.get (by with_reducible assumption) ?_ | split

end Sys2Proof.Machine
end

