-- ==== Sys2Proof/Laws/KeepsProceed.lean ====
section
/-!
SUPPORT. What no operation of Machine/Proceed.lean does (Laws/Keeps.lean).
-/

set_option Elab.async false

namespace Sys2Proof.Machine

theorem jobDone_keeps {o : State} (s : State) (j : Job) (status : ℕ) (h : Keeps o s) : Keeps o (State.jobDone s j status) := by
  unfold State.jobDone
  repeat' first
      | with_reducible assumption | with_reducible apply finish_keeps | with_reducible apply turnApplied_keeps
      | with_reducible apply rejoinApplied_keeps | with_reducible apply replayApplied_keeps | with_reducible apply refuseReplay_keeps
      | with_reducible apply abandoned_keeps | with_reducible apply Keeps.ite | with_reducible apply KeepsOpt.some
      | with_reducible apply KeepsOpt.none | with_reducible apply KeepsOpt.ite | simp only [Keeps.mk_iff]
      | with_reducible refine Keeps.snd (by with_reducible assumption) ?_
      | with_reducible refine Keeps.fst (by with_reducible assumption) ?_
      | with_reducible refine KeepsOpt.get (by with_reducible assumption) ?_ | split

theorem driveLoader_keeps {o : State} (s : State) (h : Keeps o s) : KeepsOpt o (State.driveLoader s) := by
  unfold State.driveLoader
  repeat' first
      | with_reducible assumption | with_reducible intro _ | with_reducible apply finishJob_keeps
      | with_reducible apply jobDone_keeps | with_reducible apply KeepsOpt.some | with_reducible apply KeepsOpt.none
      | with_reducible refine KeepsOpt.map ?_ (fun s h => ?_) | with_reducible refine KeepsOpt.of (fun x => ?_)
      | with_reducible refine Keeps.snd (by with_reducible assumption) ?_
      | with_reducible refine Keeps.fst (by with_reducible assumption) ?_
      | with_reducible refine Keeps.third (by with_reducible assumption) ?_ | split

theorem driveClose_keeps {o : State} (s : State) (p : ℕ) (h : Keeps o s) : KeepsOpt o (State.driveClose s p) := by
  unfold State.driveClose
  repeat' first
      | with_reducible assumption | with_reducible intro _ | with_reducible apply boundary_keeps
      | with_reducible apply closeBay_keeps | with_reducible apply Keeps.ite | with_reducible apply KeepsOpt.some
      | with_reducible apply KeepsOpt.none | with_reducible apply KeepsOpt.ite | with_reducible refine Keeps.foldl (fun s x h => ?_) _ ?_
      | split

theorem driveResume_keeps {o : State} (s : State) (p : ℕ) (h : Keeps o s) : KeepsOpt o (State.driveResume s p) := by
  unfold State.driveResume
  repeat' first
      | with_reducible assumption | with_reducible intro _ | with_reducible apply complete_keeps
      | with_reducible apply Keeps.ite | with_reducible apply KeepsEff.ok | with_reducible apply KeepsEff.bad
      | with_reducible apply KeepsEff.fail | with_reducible apply KeepsEff.ite | with_reducible apply KeepsOpt.some
      | with_reducible apply KeepsOpt.none | with_reducible apply KeepsOpt.ite | with_reducible refine KeepsOpt.map ?_ (fun s h => ?_)
      | with_reducible refine KeepsOpt.of (fun x => ?_) | split

theorem driveOne_keeps {o : State} (s : State) (p : ℕ) (h : Keeps o s) : KeepsOpt o (State.driveOne s p) := by
  unfold State.driveOne
  repeat' first
      | with_reducible assumption | with_reducible intro _ | with_reducible apply driveLoader_keeps
      | with_reducible apply driveClose_keeps | with_reducible apply driveTurn_keeps | with_reducible apply driveRefresh_keeps
      | with_reducible apply driveRejoin_keeps | with_reducible apply driveInstall_keeps | with_reducible apply driveWeight_keeps
      | with_reducible apply driveResume_keeps | with_reducible apply KeepsOpt.some | with_reducible apply KeepsOpt.none
      | with_reducible apply KeepsOpt.orElse

theorem driveN_keeps {o : State} (a0 : ℕ) (a1 : State) (a2 : ℕ) (h : Keeps o a1) : Keeps o (State.driveN a0 a1 a2) := by
  induction a0 generalizing a1 a2 with
  | zero =>
    unfold State.driveN
    repeat' first
        | with_reducible assumption | with_reducible apply settle_keeps | with_reducible apply driveOne_keeps
        | with_reducible apply KeepsOpt.some | with_reducible apply KeepsOpt.none | simp only [Keeps.mk_iff]
        | with_reducible refine Keeps.snd (by with_reducible assumption) ?_
        | with_reducible refine Keeps.fst (by with_reducible assumption) ?_
        | with_reducible refine KeepsOpt.get (by with_reducible assumption) ?_ | split
  | succ n ih =>
    unfold State.driveN
    repeat' first
        | with_reducible assumption | with_reducible apply ih | with_reducible apply settle_keeps
        | with_reducible apply driveOne_keeps | with_reducible apply KeepsOpt.some | with_reducible apply KeepsOpt.none
        | simp only [Keeps.mk_iff] | with_reducible refine Keeps.snd (by with_reducible assumption) ?_
        | with_reducible refine Keeps.fst (by with_reducible assumption) ?_
        | with_reducible refine KeepsOpt.get (by with_reducible assumption) ?_ | split

theorem proceed_keeps {o : State} (s : State) (p : ℕ) (h : Keeps o s) : Keeps o (State.proceed s p) := by
  unfold State.proceed
  repeat' first | with_reducible assumption | with_reducible apply driveN_keeps

theorem proceedAll_keeps {o : State} (s : State) (h : Keeps o s) : Keeps o (State.proceedAll s) := by
  unfold State.proceedAll
  repeat' first
      | with_reducible assumption | with_reducible intro _ | with_reducible apply proceed_keeps
      | with_reducible refine Keeps.foldl (fun s x h => ?_) _ ?_

theorem runApply_keeps {o : State} (s : State) (c : Cmd) (h : Keeps o s) : Keeps o (State.runApply s c) := by
  unfold State.runApply
  repeat' first
      | with_reducible assumption | with_reducible apply queueJob_keeps | with_reducible apply jobDone_keeps
      | with_reducible apply KeepsOpt.some | with_reducible apply KeepsOpt.none | with_reducible apply Keeps.id | simp only [Keeps.mk_iff]
      | with_reducible refine Keeps.snd (by with_reducible assumption) ?_
      | with_reducible refine Keeps.fst (by with_reducible assumption) ?_
      | with_reducible refine KeepsOpt.get (by with_reducible assumption) ?_ | split

theorem applyNoted_keeps {o : State} (s : State) (fn : ℕ) (ring : ℕ) (h : Keeps o s) : Keeps o (State.applyNoted s fn ring) := by
  unfold State.applyNoted
  repeat' first
      | with_reducible assumption | with_reducible apply lastApply_keeps | with_reducible apply Keeps.ite
      | with_reducible apply KeepsOpt.some | with_reducible apply KeepsOpt.none | with_reducible apply KeepsOpt.ite
      | simp only [Keeps.mk_iff] | with_reducible refine Keeps.snd (by with_reducible assumption) ?_
      | with_reducible refine Keeps.fst (by with_reducible assumption) ?_
      | with_reducible refine KeepsOpt.get (by with_reducible assumption) ?_
      | with_reducible refine Keeps.third (by with_reducible assumption) ?_ | split

theorem execImageApply_keeps {o : State} (fn : ℕ) (ring : ℕ) (s : State) (h : Keeps o s) : KeepsOut o (execImageApply fn ring s) := by
  unfold execImageApply
  repeat' first
      | with_reducible assumption | with_reducible intro _ | with_reducible apply proceedAll_keeps
      | with_reducible apply hostCmd_keeps | with_reducible apply applyNoted_keeps | with_reducible apply runApply_keeps
      | with_reducible apply KeepsFault.none | with_reducible apply KeepsFault.some | with_reducible apply KeepsOut.next

theorem runSparge_keeps {o : State} (s : State) (c : Cmd) (h : Keeps o s) : Keeps o (State.runSparge s c) := by
  unfold State.runSparge
  repeat' first | with_reducible assumption | with_reducible apply queueJob_keeps | with_reducible apply Keeps.id

theorem execSparge_keeps {o : State} (fn : ℕ) (ring : ℕ) (s : State) (h : Keeps o s) : KeepsOut o (execSparge fn ring s) := by
  unfold execSparge
  repeat' first
      | with_reducible assumption | with_reducible intro _ | with_reducible apply proceedAll_keeps
      | with_reducible apply hostCmd_keeps | with_reducible apply runSparge_keeps | with_reducible apply KeepsFault.none
      | with_reducible apply KeepsFault.some | with_reducible apply KeepsOut.next

theorem execLoaderApplyStart_keeps {o : State} (s : State) (h : Keeps o s) : KeepsOut o (execLoaderApplyStart s) := by
  unfold execLoaderApplyStart
  repeat' first
      | with_reducible assumption | with_reducible intro _ | with_reducible apply proceedAll_keeps
      | with_reducible apply startJob_keeps | with_reducible apply jobDone_keeps | with_reducible apply KeepsOpt.some
      | with_reducible apply KeepsOpt.none | with_reducible apply KeepsFault.none | with_reducible apply KeepsFault.some
      | with_reducible apply KeepsOut.next | simp only [Keeps.mk_iff] | with_reducible refine Keeps.snd (by with_reducible assumption) ?_
      | with_reducible refine Keeps.fst (by with_reducible assumption) ?_
      | with_reducible refine KeepsOpt.get (by with_reducible assumption) ?_
      | with_reducible refine KeepsFault.get (by with_reducible assumption) ?_ | split

theorem windowEnd_keeps {o : State} (s : State) (p : ℕ) (d : Drain) (h : Keeps o s) : Keeps o (State.windowEnd s p d) := by
  unfold State.windowEnd
  repeat' first
      | with_reducible assumption | with_reducible intro _ | with_reducible apply modPart_keeps
      | with_reducible apply endDrain_keeps | with_reducible apply queueJob_keeps | with_reducible apply Keeps.ite
      | simp only [Keeps.mk_iff] | split

theorem execDrainWindowEnd_keeps {o : State} (p : ℕ) (s : State) (h : Keeps o s) : KeepsOut o (execDrainWindowEnd p s) := by
  unfold execDrainWindowEnd
  repeat' first
      | with_reducible assumption | with_reducible apply proceedAll_keeps | with_reducible apply windowEnd_keeps
      | with_reducible apply KeepsFault.none | with_reducible apply KeepsFault.some | with_reducible apply KeepsOut.next
      | simp only [Keeps.mk_iff] | with_reducible refine Keeps.snd (by with_reducible assumption) ?_
      | with_reducible refine Keeps.fst (by with_reducible assumption) ?_
      | with_reducible refine KeepsFault.get (by with_reducible assumption) ?_ | split

theorem orRefuse_keeps {o : State} (s : State) (c : Cmd) (status : ℕ) (k : State) (h : Keeps o s) (h1 : Keeps o k) : Keeps o (State.orRefuse s c status k) := by
  unfold State.orRefuse
  repeat' first | with_reducible assumption | with_reducible apply complete_keeps | with_reducible apply Keeps.ite | split

theorem execTurnBegin_keeps {o : State} (fn : ℕ) (ring : ℕ) (s : State) (h : Keeps o s) : KeepsOut o (execTurnBegin fn ring s) := by
  unfold execTurnBegin
  repeat' first
      | with_reducible assumption | with_reducible intro _ | with_reducible apply proceedAll_keeps
      | with_reducible apply hostCmd_keeps | with_reducible apply orRefuse_keeps | with_reducible apply runBegin_keeps
      | with_reducible apply KeepsFault.none | with_reducible apply KeepsFault.some | with_reducible apply KeepsOut.next

theorem execTurnCommit_keeps {o : State} (fn : ℕ) (ring : ℕ) (s : State) (h : Keeps o s) : KeepsOut o (execTurnCommit fn ring s) := by
  unfold execTurnCommit
  repeat' first
      | with_reducible assumption | with_reducible intro _ | with_reducible apply proceedAll_keeps
      | with_reducible apply hostCmd_keeps | with_reducible apply orRefuse_keeps | with_reducible apply runCommit_keeps
      | with_reducible apply KeepsFault.none | with_reducible apply KeepsFault.some | with_reducible apply KeepsOut.next

theorem execTurnAbandon_keeps {o : State} (fn : ℕ) (ring : ℕ) (s : State) (h : Keeps o s) : KeepsOut o (execTurnAbandon fn ring s) := by
  unfold execTurnAbandon
  repeat' first
      | with_reducible assumption | with_reducible intro _ | with_reducible apply proceedAll_keeps
      | with_reducible apply hostCmd_keeps | with_reducible apply orRefuse_keeps | with_reducible apply runAbandon_keeps
      | with_reducible apply KeepsFault.none | with_reducible apply KeepsFault.some | with_reducible apply KeepsOut.next

theorem execPolicyPublish_keeps {o : State} (fn : ℕ) (ring : ℕ) (s : State) (h : Keeps o s) : KeepsOut o (execPolicyPublish fn ring s) := by
  unfold execPolicyPublish
  repeat' first
      | with_reducible assumption | with_reducible intro _ | with_reducible apply proceedAll_keeps
      | with_reducible apply hostCmd_keeps | with_reducible apply runPublish_keeps | with_reducible apply KeepsFault.none
      | with_reducible apply KeepsFault.some | with_reducible apply KeepsOut.next

theorem execPolicySwap_keeps {o : State} (fn : ℕ) (ring : ℕ) (s : State) (h : Keeps o s) : KeepsOut o (execPolicySwap fn ring s) := by
  unfold execPolicySwap
  repeat' first
      | with_reducible assumption | with_reducible intro _ | with_reducible apply proceedAll_keeps
      | with_reducible apply hostCmd_keeps | with_reducible apply runSwap_keeps | with_reducible apply KeepsFault.none
      | with_reducible apply KeepsFault.some | with_reducible apply KeepsOut.next

theorem execWeightLoad_keeps {o : State} (fn : ℕ) (ring : ℕ) (s : State) (h : Keeps o s) : KeepsOut o (execWeightLoad fn ring s) := by
  unfold execWeightLoad
  repeat' first
      | with_reducible assumption | with_reducible intro _ | with_reducible apply proceedAll_keeps
      | with_reducible apply hostCmd_keeps | with_reducible apply runWeight_keeps | with_reducible apply KeepsFault.none
      | with_reducible apply KeepsFault.some | with_reducible apply KeepsOut.next

theorem execCommRejoin_keeps {o : State} (fn : ℕ) (ring : ℕ) (s : State) (h : Keeps o s) : KeepsOut o (execCommRejoin fn ring s) := by
  unfold execCommRejoin
  repeat' first
      | with_reducible assumption | with_reducible intro _ | with_reducible apply proceedAll_keeps
      | with_reducible apply hostCmd_keeps | with_reducible apply runRejoin_keeps | with_reducible apply KeepsFault.none
      | with_reducible apply KeepsFault.some | with_reducible apply KeepsOut.next

theorem execReplayRun_keeps {o : State} (fn : ℕ) (ring : ℕ) (s : State) (h : Keeps o s) : KeepsOut o (execReplayRun fn ring s) := by
  unfold execReplayRun
  repeat' first
      | with_reducible assumption | with_reducible intro _ | with_reducible apply proceedAll_keeps
      | with_reducible apply hostCmd_keeps | with_reducible apply runReplay_keeps | with_reducible apply Keeps.ite
      | with_reducible apply KeepsEff.ok | with_reducible apply KeepsEff.bad | with_reducible apply KeepsEff.fail
      | with_reducible apply KeepsEff.ite | with_reducible apply KeepsFault.none | with_reducible apply KeepsFault.some
      | with_reducible apply KeepsFault.ite | with_reducible apply KeepsOut.next | split

theorem execStepEnd_keeps {o : State} (p : ℕ) (s : State) (h : Keeps o s) : KeepsOut o (execStepEnd p s) := by
  unfold execStepEnd
  repeat' first
      | with_reducible assumption | with_reducible apply dropNorm_keeps | with_reducible apply proceed_keeps
      | with_reducible apply endLearn_keeps | with_reducible apply Keeps.ite | with_reducible apply KeepsFault.none
      | with_reducible apply KeepsFault.some | with_reducible apply KeepsFault.ite | with_reducible apply KeepsOut.next | split

theorem execFenceArrival_keeps {o : State} (p : ℕ) (m : Msg) (s : State) (h : Keeps o s) : KeepsOut o (execFenceArrival p m s) := by
  unfold execFenceArrival
  repeat' first
      | with_reducible assumption | with_reducible intro _ | with_reducible apply onMsg_keeps
      | with_reducible apply proceed_keeps | with_reducible apply onArrival_keeps | with_reducible apply KeepsFault.none
      | with_reducible apply KeepsFault.some | with_reducible apply KeepsOut.next

theorem execFenceRelease_keeps {o : State} (p : ℕ) (m : Msg) (s : State) (h : Keeps o s) : KeepsOut o (execFenceRelease p m s) := by
  unfold execFenceRelease
  repeat' first
      | with_reducible assumption | with_reducible intro _ | with_reducible apply onMsg_keeps
      | with_reducible apply proceed_keeps | with_reducible apply onRelease_keeps | with_reducible apply KeepsFault.none
      | with_reducible apply KeepsFault.some | with_reducible apply KeepsOut.next

theorem execBroadcastMessage_keeps {o : State} (p : ℕ) (m : Msg) (s : State) (h : Keeps o s) : KeepsOut o (execBroadcastMessage p m s) := by
  unfold execBroadcastMessage
  repeat' first
      | with_reducible assumption | with_reducible intro _ | with_reducible apply onMsg_keeps
      | with_reducible apply proceed_keeps | with_reducible apply onCopy_keeps | with_reducible apply collective_keeps
      | with_reducible apply xchEngine_keeps | with_reducible apply onGather_keeps | with_reducible apply onFetched_keeps
      | with_reducible apply Keeps.ite | with_reducible apply KeepsFault.none | with_reducible apply KeepsFault.some
      | with_reducible apply KeepsFault.ite | with_reducible apply KeepsOut.next | split

theorem execScalarValueMessage_keeps {o : State} (p : ℕ) (m : Msg) (s : State) (h : Keeps o s) : KeepsOut o (execScalarValueMessage p m s) := by
  unfold execScalarValueMessage
  repeat' first
      | with_reducible assumption | with_reducible intro _ | with_reducible apply collective_keeps
      | with_reducible apply proceed_keeps | with_reducible apply xchEngine_keeps | with_reducible apply onScalar_keeps
      | with_reducible apply turnFinish_keeps | with_reducible apply Keeps.ite | with_reducible apply KeepsFault.none
      | with_reducible apply KeepsFault.some | with_reducible apply KeepsFault.ite | with_reducible apply KeepsOut.next | split

theorem execReplicaFetchRequest_keeps {o : State} (p : ℕ) (m : Msg) (s : State) (h : Keeps o s) : KeepsOut o (execReplicaFetchRequest p m s) := by
  unfold execReplicaFetchRequest
  repeat' first
      | with_reducible assumption | with_reducible intro _ | with_reducible apply onMsg_keeps
      | with_reducible apply onFetch_keeps | with_reducible apply KeepsFault.none | with_reducible apply KeepsFault.some
      | with_reducible apply KeepsOut.next

theorem boundaryRows_keeps {o : State} (s : State) (p : ℕ) (b : ℕ) (h : Keeps o s) : Keeps o (State.boundaryRows s p b) := by
  unfold State.boundaryRows
  repeat' first
      | with_reducible assumption | with_reducible intro _ | with_reducible apply boundary_keeps
      | with_reducible apply endStep_keeps | with_reducible apply lateGroups_keeps | with_reducible apply applyEdits_keeps
      | with_reducible apply closeBay_keeps | with_reducible apply takeIn_keeps | with_reducible apply Keeps.ite | split

theorem execRolloutStepBoundary_keeps {o : State} (b : ℕ) (s : State) (h : Keeps o s) : KeepsOut o (execRolloutStepBoundary b s) := by
  unfold execRolloutStepBoundary
  repeat' first
      | with_reducible assumption | with_reducible apply proceed_keeps | with_reducible apply settle_keeps
      | with_reducible apply boundaryRows_keeps | with_reducible apply Keeps.ite | with_reducible apply KeepsOpt.some
      | with_reducible apply KeepsOpt.none | with_reducible apply KeepsOpt.ite | with_reducible apply KeepsFault.none
      | with_reducible apply KeepsFault.some | with_reducible apply KeepsFault.ite | with_reducible apply KeepsOut.next
      | simp only [Keeps.mk_iff] | with_reducible refine Keeps.snd (by with_reducible assumption) ?_
      | with_reducible refine Keeps.fst (by with_reducible assumption) ?_
      | with_reducible refine KeepsOpt.get (by with_reducible assumption) ?_
      | with_reducible refine KeepsFault.get (by with_reducible assumption) ?_ | split

theorem execRolloutStepLaunch_keeps {o : State} (b : ℕ) (s : State) (h : Keeps o s) : KeepsOut o (execRolloutStepLaunch b s) := by
  unfold execRolloutStepLaunch
  repeat' first
      | with_reducible assumption | with_reducible apply settle_keeps | with_reducible apply seqLaunch_keeps
      | with_reducible apply Keeps.ite | with_reducible apply KeepsOpt.some | with_reducible apply KeepsOpt.none
      | with_reducible apply KeepsOpt.ite | with_reducible apply KeepsFault.none | with_reducible apply KeepsFault.some
      | with_reducible apply KeepsFault.ite | with_reducible apply KeepsOut.next | simp only [Keeps.mk_iff]
      | with_reducible refine Keeps.snd (by with_reducible assumption) ?_
      | with_reducible refine Keeps.fst (by with_reducible assumption) ?_
      | with_reducible refine KeepsOpt.get (by with_reducible assumption) ?_
      | with_reducible refine KeepsFault.get (by with_reducible assumption) ?_ | split

end Sys2Proof.Machine
end

