-- ==== Sys2Proof/Laws/KeepsPeers.lean ====
section
/-!
SUPPORT. What no operation of Machine/Peers.lean does (Laws/Keeps.lean).
-/

set_option Elab.async false

namespace Sys2Proof.Machine

theorem peerColls_keeps {o : State} (s : State) (p : ℕ) (comm : ℕ) (h : Keeps o s) : Keeps o (State.peerColls s p comm) := by
  unfold State.peerColls
  repeat' first
      | with_reducible assumption | with_reducible intro _ | with_reducible apply fset_keeps | with_reducible apply orphan_keeps
      | with_reducible apply dropColls_keeps | with_reducible apply releaseN_keeps | with_reducible apply failWords_keeps
      | with_reducible apply KeepsEff.ok | with_reducible apply KeepsEff.bad | with_reducible apply KeepsEff.fail
      | with_reducible refine Keeps.foldl (fun s x h => ?_) _ ?_

theorem peerStep_keeps {o : State} (s : State) (p : ℕ) (named : Bool) (h : Keeps o s) : Keeps o (State.peerStep s p named) := by
  unfold State.peerStep
  repeat' first
      | with_reducible assumption | with_reducible intro _ | with_reducible apply failLearn_keeps
      | with_reducible apply modPart_keeps | with_reducible apply Keeps.ite | with_reducible apply KeepsEff.ok
      | with_reducible apply KeepsEff.bad | with_reducible apply KeepsEff.fail | with_reducible apply KeepsEff.ite
      | with_reducible apply KeepsOpt.some | with_reducible apply KeepsOpt.none | with_reducible apply KeepsOpt.ite
      | simp only [Keeps.mk_iff] | with_reducible refine Keeps.snd (by with_reducible assumption) ?_
      | with_reducible refine Keeps.fst (by with_reducible assumption) ?_
      | with_reducible refine KeepsOpt.get (by with_reducible assumption) ?_ | split

theorem peerRollout_keeps {o : State} (s : State) (p : ℕ) (h : Keeps o s) : Keeps o (State.peerRollout s p) := by
  unfold State.peerRollout
  repeat' first
      | with_reducible assumption | with_reducible intro _ | with_reducible apply failRollout_keeps
      | with_reducible apply Keeps.ite | with_reducible apply KeepsEff.ok | with_reducible apply KeepsEff.bad
      | with_reducible apply KeepsEff.fail | with_reducible apply KeepsEff.ite | with_reducible refine Keeps.foldl (fun s x h => ?_) _ ?_
      | split

theorem peerTurn_keeps {o : State} (s : State) (p : ℕ) (comm : ℕ) (device : ℕ) (h : Keeps o s) : Keeps o (State.peerTurn s p comm device) := by
  unfold State.peerTurn
  repeat' first
      | with_reducible assumption | with_reducible intro _ | with_reducible apply modTurn_keeps
      | with_reducible apply modPart_keeps | with_reducible apply fset_keeps | with_reducible apply finish_keeps
      | with_reducible apply Keeps.ite | with_reducible apply KeepsOpt.some | with_reducible apply KeepsOpt.none
      | with_reducible apply KeepsOpt.ite | simp only [Keeps.mk_iff] | with_reducible refine Keeps.snd (by with_reducible assumption) ?_
      | with_reducible refine Keeps.fst (by with_reducible assumption) ?_
      | with_reducible refine KeepsOpt.get (by with_reducible assumption) ?_ | split

theorem peerRefresh_keeps {o : State} (s : State) (p : ℕ) (comm : ℕ) (h : Keeps o s) : Keeps o (State.peerRefresh s p comm) := by
  unfold State.peerRefresh
  repeat' first
      | with_reducible assumption | with_reducible apply endRefresh_keeps | with_reducible apply liftBarrier_keeps
      | with_reducible apply fset_keeps | with_reducible apply Keeps.ite | with_reducible apply KeepsOpt.some
      | with_reducible apply KeepsOpt.none | with_reducible apply KeepsOpt.ite | simp only [Keeps.mk_iff]
      | with_reducible refine Keeps.snd (by with_reducible assumption) ?_
      | with_reducible refine Keeps.fst (by with_reducible assumption) ?_
      | with_reducible refine KeepsOpt.get (by with_reducible assumption) ?_ | split

theorem peerRejoin_keeps {o : State} (s : State) (p : ℕ) (comm : ℕ) (h : Keeps o s) : Keeps o (State.peerRejoin s p comm) := by
  unfold State.peerRejoin
  repeat' first
      | with_reducible assumption | with_reducible intro _ | with_reducible apply finish_keeps
      | with_reducible apply modPart_keeps | with_reducible apply fset_keeps | with_reducible apply Keeps.ite
      | with_reducible apply KeepsOpt.some | with_reducible apply KeepsOpt.none | with_reducible apply KeepsOpt.ite
      | simp only [Keeps.mk_iff] | with_reducible refine Keeps.snd (by with_reducible assumption) ?_
      | with_reducible refine Keeps.fst (by with_reducible assumption) ?_
      | with_reducible refine KeepsOpt.get (by with_reducible assumption) ?_ | split

theorem peerStop_keeps {o : State} (s : State) (p : ℕ) (comm : ℕ) (device : ℕ) (named : Bool) (h : Keeps o s) : Keeps o (State.peerStop s p comm device named) := by
  unfold State.peerStop
  repeat' first
      | with_reducible assumption | with_reducible intro _ | with_reducible apply modPart_keeps
      | with_reducible apply peerRollout_keeps | with_reducible apply peerStep_keeps | with_reducible apply peerColls_keeps
      | with_reducible apply peerRejoin_keeps | with_reducible apply peerRefresh_keeps | with_reducible apply peerTurn_keeps
      | with_reducible apply Keeps.ite | with_reducible apply KeepsEff.ok | with_reducible apply KeepsEff.bad
      | with_reducible apply KeepsEff.fail | with_reducible apply KeepsEff.ite | simp only [Keeps.mk_iff] | split

theorem showDeclared_keeps {o : State} (s : State) (p : ℕ) (role : ℕ) (comm : ℕ) (rank : ℕ) (h : Keeps o s) : Keeps o (State.showDeclared s p role comm rank) := by
  unfold State.showDeclared
  repeat' first
      | with_reducible assumption | with_reducible intro _ | with_reducible apply fset_keeps
      | with_reducible refine Keeps.foldl (fun s x h => ?_) _ ?_

theorem declare_keeps {o : State} (s : State) (p : ℕ) (k : Comm) (n : ℕ) (h : Keeps o s) : Keeps o (State.declare s p k n) := by
  unfold State.declare
  repeat' first
      | with_reducible assumption | with_reducible intro _ | with_reducible apply detect_keeps
      | with_reducible apply showDeclared_keeps | with_reducible apply proceed_keeps | with_reducible apply settle_keeps
      | with_reducible apply peerStop_keeps | with_reducible apply sendNotice_keeps | with_reducible refine KeepsOpt.map ?_ (fun s h => ?_)
      | with_reducible refine KeepsOpt.of (fun x => ?_) | with_reducible apply KeepsOpt.getD | with_reducible apply Keeps.id

theorem onNotice_keeps {o : State} (s : State) (p : ℕ) (m : Msg) (h : Keeps o s) : Keeps o (State.onNotice s p m) := by
  unfold State.onNotice
  repeat' first
      | with_reducible assumption | with_reducible apply showDeclared_keeps | with_reducible apply proceed_keeps
      | with_reducible apply settle_keeps | with_reducible apply peerStop_keeps | with_reducible apply Keeps.ite
      | with_reducible apply KeepsOpt.some | with_reducible apply KeepsOpt.none | with_reducible apply KeepsOpt.ite
      | with_reducible apply KeepsOpt.getD | with_reducible apply Keeps.id | simp only [Keeps.mk_iff]
      | with_reducible refine Keeps.snd (by with_reducible assumption) ?_
      | with_reducible refine Keeps.fst (by with_reducible assumption) ?_
      | with_reducible refine KeepsOpt.get (by with_reducible assumption) ?_ | split

theorem execNotice_keeps {o : State} (p : ℕ) (m : Msg) (s : State) (h : Keeps o s) : KeepsOut o (execNotice p m s) := by
  unfold execNotice
  repeat' first
      | with_reducible assumption | with_reducible intro _ | with_reducible apply onMsg_keeps
      | with_reducible apply onNotice_keeps | with_reducible apply KeepsFault.none | with_reducible apply KeepsFault.some
      | with_reducible apply KeepsOut.next

theorem noteWait_keeps {o : State} (s : State) (b : ℕ) (us : ℕ) (h : Keeps o s) : Keeps o (State.noteWait s b us) := by
  unfold State.noteWait
  repeat' first | with_reducible assumption | with_reducible apply fset_keeps

theorem execOwnerWaitTimeout_keeps {o : State} (p : ℕ) (comm : ℕ) (opNo : ℕ) (seg : ℕ) (s : State) (h : Keeps o s) : KeepsOut o (execOwnerWaitTimeout p comm opNo seg s) := by
  unfold execOwnerWaitTimeout
  repeat' first
      | with_reducible assumption | with_reducible apply declare_keeps | with_reducible apply noteWait_keeps
      | with_reducible apply KeepsOpt.some | with_reducible apply KeepsOpt.none | with_reducible apply KeepsFault.none
      | with_reducible apply KeepsFault.some | with_reducible apply KeepsOut.next | simp only [Keeps.mk_iff]
      | with_reducible refine Keeps.snd (by with_reducible assumption) ?_
      | with_reducible refine Keeps.fst (by with_reducible assumption) ?_
      | with_reducible refine KeepsOpt.get (by with_reducible assumption) ?_
      | with_reducible refine KeepsFault.get (by with_reducible assumption) ?_ | split

theorem execSenderGrantTimeout_keeps {o : State} (p : ℕ) (comm : ℕ) (opNo : ℕ) (owner : ℕ) (s : State) (h : Keeps o s) : KeepsOut o (execSenderGrantTimeout p comm opNo owner s) := by
  unfold execSenderGrantTimeout
  repeat' first
      | with_reducible assumption | with_reducible intro _ | with_reducible apply declare_keeps | with_reducible apply Keeps.ite
      | with_reducible apply KeepsOpt.some | with_reducible apply KeepsOpt.none | with_reducible apply KeepsOpt.ite
      | with_reducible apply KeepsFault.none | with_reducible apply KeepsFault.some | with_reducible apply KeepsFault.ite
      | with_reducible apply KeepsOut.next | simp only [Keeps.mk_iff] | with_reducible refine Keeps.snd (by with_reducible assumption) ?_
      | with_reducible refine Keeps.fst (by with_reducible assumption) ?_
      | with_reducible refine KeepsOpt.get (by with_reducible assumption) ?_
      | with_reducible refine KeepsFault.get (by with_reducible assumption) ?_ | split

theorem execOrphanTimeout_keeps {o : State} (p : ℕ) (comm : ℕ) (opNo : ℕ) (s : State) (h : Keeps o s) : KeepsOut o (execOrphanTimeout p comm opNo s) := by
  unfold execOrphanTimeout
  repeat' first
      | with_reducible assumption | with_reducible intro _ | with_reducible apply proceed_keeps
      | with_reducible apply modPart_keeps | with_reducible apply orphan_keeps | with_reducible apply KeepsOpt.some
      | with_reducible apply KeepsOpt.none | with_reducible apply KeepsFault.none | with_reducible apply KeepsFault.some
      | with_reducible apply KeepsOut.next | with_reducible apply Keeps.id | simp only [Keeps.mk_iff]
      | with_reducible refine Keeps.snd (by with_reducible assumption) ?_
      | with_reducible refine Keeps.fst (by with_reducible assumption) ?_
      | with_reducible refine KeepsOpt.get (by with_reducible assumption) ?_
      | with_reducible refine KeepsFault.get (by with_reducible assumption) ?_ | split

theorem execBarrierUpTimeout_keeps {o : State} (p : ℕ) (comm : ℕ) (opNo : ℕ) (s : State) (h : Keeps o s) : KeepsOut o (execBarrierUpTimeout p comm opNo s) := by
  unfold execBarrierUpTimeout
  repeat' first
      | with_reducible assumption | with_reducible apply declare_keeps | with_reducible apply Keeps.ite
      | with_reducible apply KeepsOpt.some | with_reducible apply KeepsOpt.none | with_reducible apply KeepsOpt.ite
      | with_reducible apply KeepsFault.none | with_reducible apply KeepsFault.some | with_reducible apply KeepsFault.ite
      | with_reducible refine KeepsFault.map (fun x => ?_) | with_reducible refine KeepsOpt.map ?_ (fun s h => ?_)
      | with_reducible refine KeepsOpt.of (fun x => ?_) | with_reducible apply KeepsOut.next | simp only [Keeps.mk_iff]
      | with_reducible refine Keeps.snd (by with_reducible assumption) ?_
      | with_reducible refine Keeps.fst (by with_reducible assumption) ?_
      | with_reducible refine KeepsOpt.get (by with_reducible assumption) ?_
      | with_reducible refine KeepsFault.get (by with_reducible assumption) ?_ | split

theorem execReleaseWaitTimeout_keeps {o : State} (p : ℕ) (comm : ℕ) (opNo : ℕ) (s : State) (h : Keeps o s) : KeepsOut o (execReleaseWaitTimeout p comm opNo s) := by
  unfold execReleaseWaitTimeout
  repeat' first
      | with_reducible assumption | with_reducible apply declare_keeps | with_reducible apply Keeps.ite
      | with_reducible apply KeepsOpt.some | with_reducible apply KeepsOpt.none | with_reducible apply KeepsOpt.ite
      | with_reducible apply KeepsFault.none | with_reducible apply KeepsFault.some | with_reducible apply KeepsFault.ite
      | with_reducible apply KeepsOut.next | simp only [Keeps.mk_iff] | with_reducible refine Keeps.snd (by with_reducible assumption) ?_
      | with_reducible refine Keeps.fst (by with_reducible assumption) ?_
      | with_reducible refine KeepsOpt.get (by with_reducible assumption) ?_
      | with_reducible refine KeepsFault.get (by with_reducible assumption) ?_ | split

theorem execGatherReceiveTimeout_keeps {o : State} (p : ℕ) (comm : ℕ) (opNo : ℕ) (s : State) (h : Keeps o s) : KeepsOut o (execGatherReceiveTimeout p comm opNo s) := by
  unfold execGatherReceiveTimeout
  repeat' first
      | with_reducible assumption | with_reducible intro _ | with_reducible apply declare_keeps
      | with_reducible apply KeepsOpt.some | with_reducible apply KeepsOpt.none | with_reducible apply KeepsFault.none
      | with_reducible apply KeepsFault.some | with_reducible refine KeepsFault.map (fun x => ?_)
      | with_reducible refine KeepsOpt.map ?_ (fun s h => ?_) | with_reducible refine KeepsOpt.of (fun x => ?_)
      | with_reducible apply KeepsOut.next | simp only [Keeps.mk_iff] | with_reducible refine Keeps.snd (by with_reducible assumption) ?_
      | with_reducible refine Keeps.fst (by with_reducible assumption) ?_
      | with_reducible refine KeepsOpt.get (by with_reducible assumption) ?_
      | with_reducible refine KeepsFault.get (by with_reducible assumption) ?_ | split

theorem execExchangeReceiveTimeout_keeps {o : State} (p : ℕ) (comm : ℕ) (opNo : ℕ) (s : State) (h : Keeps o s) : KeepsOut o (execExchangeReceiveTimeout p comm opNo s) := by
  unfold execExchangeReceiveTimeout
  repeat' first
      | with_reducible assumption | with_reducible intro _ | with_reducible apply declare_keeps
      | with_reducible apply KeepsOpt.some | with_reducible apply KeepsOpt.none | with_reducible apply KeepsFault.none
      | with_reducible apply KeepsFault.some | with_reducible refine KeepsFault.map (fun x => ?_)
      | with_reducible refine KeepsOpt.map ?_ (fun s h => ?_) | with_reducible refine KeepsOpt.of (fun x => ?_)
      | with_reducible apply KeepsOut.next | simp only [Keeps.mk_iff] | with_reducible refine Keeps.snd (by with_reducible assumption) ?_
      | with_reducible refine Keeps.fst (by with_reducible assumption) ?_
      | with_reducible refine KeepsOpt.get (by with_reducible assumption) ?_
      | with_reducible refine KeepsFault.get (by with_reducible assumption) ?_ | split

theorem execCloseAgreementTimeout_keeps {o : State} (b : ℕ) (s : State) (h : Keeps o s) : KeepsOut o (execCloseAgreementTimeout b s) := by
  unfold execCloseAgreementTimeout
  repeat' first
      | with_reducible assumption | with_reducible apply declare_keeps | with_reducible apply Keeps.ite
      | with_reducible apply KeepsOpt.some | with_reducible apply KeepsOpt.none | with_reducible apply KeepsOpt.ite
      | with_reducible apply KeepsFault.none | with_reducible apply KeepsFault.some | with_reducible apply KeepsFault.ite
      | with_reducible refine KeepsFault.map (fun x => ?_) | with_reducible refine KeepsOpt.map ?_ (fun s h => ?_)
      | with_reducible refine KeepsOpt.of (fun x => ?_) | with_reducible apply KeepsOut.next | simp only [Keeps.mk_iff]
      | with_reducible refine Keeps.snd (by with_reducible assumption) ?_
      | with_reducible refine Keeps.fst (by with_reducible assumption) ?_
      | with_reducible refine KeepsOpt.get (by with_reducible assumption) ?_
      | with_reducible refine KeepsFault.get (by with_reducible assumption) ?_ | split

end Sys2Proof.Machine
end

