-- ==== Sys2Proof/Laws/KeepsKettleRows.lean ====
section
/-!
SUPPORT. What no operation of Machine/KettleRows.lean does (Laws/Keeps.lean).
-/

set_option Elab.async false

namespace Sys2Proof.Machine

theorem afterKettle_keeps {o : State} (s : State) (st : ℕ) (h : Keeps o s) : Keeps o (State.afterKettle s st) := by
  unfold State.afterKettle
  repeat' first
      | with_reducible assumption | with_reducible apply proceed_keeps | with_reducible apply settle_keeps
      | with_reducible apply KeepsOpt.some | with_reducible apply KeepsOpt.none | simp only [Keeps.mk_iff]
      | with_reducible refine Keeps.snd (by with_reducible assumption) ?_
      | with_reducible refine Keeps.fst (by with_reducible assumption) ?_
      | with_reducible refine KeepsOpt.get (by with_reducible assumption) ?_ | split

theorem kettleRuns_keeps {o : State} (s : State) (st : ℕ) (op : ℕ) (h : Keeps o s) : Keeps o (State.kettleRuns s st op) := by
  unfold State.kettleRuns
  repeat' first | with_reducible assumption | with_reducible apply afterKettle_keeps | with_reducible apply kettleRow_keeps

theorem execKettleNop_keeps {o : State} (st : ℕ) (s : State) (h : Keeps o s) : KeepsOut o (execKettleNop st s) := by
  unfold execKettleNop
  repeat' first
      | with_reducible assumption | with_reducible apply kettleRuns_keeps | with_reducible apply KeepsFault.none
      | with_reducible apply KeepsFault.some | with_reducible apply KeepsOut.next

theorem execKettleLd_keeps {o : State} (st : ℕ) (s : State) (h : Keeps o s) : KeepsOut o (execKettleLd st s) := by
  unfold execKettleLd
  repeat' first
      | with_reducible assumption | with_reducible apply kettleRuns_keeps | with_reducible apply KeepsFault.none
      | with_reducible apply KeepsFault.some | with_reducible apply KeepsOut.next

theorem execKettleSt_keeps {o : State} (st : ℕ) (s : State) (h : Keeps o s) : KeepsOut o (execKettleSt st s) := by
  unfold execKettleSt
  repeat' first
      | with_reducible assumption | with_reducible apply kettleRuns_keeps | with_reducible apply KeepsFault.none
      | with_reducible apply KeepsFault.some | with_reducible apply KeepsOut.next

theorem execKettleAdd_keeps {o : State} (st : ℕ) (s : State) (h : Keeps o s) : KeepsOut o (execKettleAdd st s) := by
  unfold execKettleAdd
  repeat' first
      | with_reducible assumption | with_reducible apply kettleRuns_keeps | with_reducible apply KeepsFault.none
      | with_reducible apply KeepsFault.some | with_reducible apply KeepsOut.next

theorem execKettleMul_keeps {o : State} (st : ℕ) (s : State) (h : Keeps o s) : KeepsOut o (execKettleMul st s) := by
  unfold execKettleMul
  repeat' first
      | with_reducible assumption | with_reducible apply kettleRuns_keeps | with_reducible apply KeepsFault.none
      | with_reducible apply KeepsFault.some | with_reducible apply KeepsOut.next

theorem execKettleFma_keeps {o : State} (st : ℕ) (s : State) (h : Keeps o s) : KeepsOut o (execKettleFma st s) := by
  unfold execKettleFma
  repeat' first
      | with_reducible assumption | with_reducible apply kettleRuns_keeps | with_reducible apply KeepsFault.none
      | with_reducible apply KeepsFault.some | with_reducible apply KeepsOut.next

theorem execKettleMin_keeps {o : State} (st : ℕ) (s : State) (h : Keeps o s) : KeepsOut o (execKettleMin st s) := by
  unfold execKettleMin
  repeat' first
      | with_reducible assumption | with_reducible apply kettleRuns_keeps | with_reducible apply KeepsFault.none
      | with_reducible apply KeepsFault.some | with_reducible apply KeepsOut.next

theorem execKettleMax_keeps {o : State} (st : ℕ) (s : State) (h : Keeps o s) : KeepsOut o (execKettleMax st s) := by
  unfold execKettleMax
  repeat' first
      | with_reducible assumption | with_reducible apply kettleRuns_keeps | with_reducible apply KeepsFault.none
      | with_reducible apply KeepsFault.some | with_reducible apply KeepsOut.next

theorem execKettleCmp_keeps {o : State} (st : ℕ) (s : State) (h : Keeps o s) : KeepsOut o (execKettleCmp st s) := by
  unfold execKettleCmp
  repeat' first
      | with_reducible assumption | with_reducible apply kettleRuns_keeps | with_reducible apply KeepsFault.none
      | with_reducible apply KeepsFault.some | with_reducible apply KeepsOut.next

theorem execKettleSel_keeps {o : State} (st : ℕ) (s : State) (h : Keeps o s) : KeepsOut o (execKettleSel st s) := by
  unfold execKettleSel
  repeat' first
      | with_reducible assumption | with_reducible apply kettleRuns_keeps | with_reducible apply KeepsFault.none
      | with_reducible apply KeepsFault.some | with_reducible apply KeepsOut.next

theorem execKettleSelv_keeps {o : State} (st : ℕ) (s : State) (h : Keeps o s) : KeepsOut o (execKettleSelv st s) := by
  unfold execKettleSelv
  repeat' first
      | with_reducible assumption | with_reducible apply kettleRuns_keeps | with_reducible apply KeepsFault.none
      | with_reducible apply KeepsFault.some | with_reducible apply KeepsOut.next

theorem execKettleEst_keeps {o : State} (st : ℕ) (s : State) (h : Keeps o s) : KeepsOut o (execKettleEst st s) := by
  unfold execKettleEst
  repeat' first
      | with_reducible assumption | with_reducible apply kettleRuns_keeps | with_reducible apply KeepsFault.none
      | with_reducible apply KeepsFault.some | with_reducible apply KeepsOut.next

theorem execKettleDiv_keeps {o : State} (st : ℕ) (s : State) (h : Keeps o s) : KeepsOut o (execKettleDiv st s) := by
  unfold execKettleDiv
  repeat' first
      | with_reducible assumption | with_reducible apply kettleRuns_keeps | with_reducible apply KeepsFault.none
      | with_reducible apply KeepsFault.some | with_reducible apply KeepsOut.next

theorem execKettleSqrt_keeps {o : State} (st : ℕ) (s : State) (h : Keeps o s) : KeepsOut o (execKettleSqrt st s) := by
  unfold execKettleSqrt
  repeat' first
      | with_reducible assumption | with_reducible apply kettleRuns_keeps | with_reducible apply KeepsFault.none
      | with_reducible apply KeepsFault.some | with_reducible apply KeepsOut.next

theorem kettleStart_keeps {o : State} (s : State) (st : ℕ) (h : Keeps o s) : Keeps o (State.kettleStart s st) := by
  unfold State.kettleStart
  repeat' first
      | with_reducible assumption | with_reducible apply startRun_keeps | with_reducible apply Keeps.ite
      | with_reducible apply KeepsOpt.some | with_reducible apply KeepsOpt.none | with_reducible apply KeepsOpt.ite
      | simp only [Keeps.mk_iff] | with_reducible refine Keeps.snd (by with_reducible assumption) ?_
      | with_reducible refine Keeps.fst (by with_reducible assumption) ?_
      | with_reducible refine KeepsOpt.get (by with_reducible assumption) ?_ | split

theorem execKettleRunStart_keeps {o : State} (st : ℕ) (s : State) (h : Keeps o s) : KeepsOut o (execKettleRunStart st s) := by
  unfold execKettleRunStart
  repeat' first
      | with_reducible assumption | with_reducible apply afterKettle_keeps | with_reducible apply kettleStart_keeps
      | with_reducible apply KeepsFault.none | with_reducible apply KeepsFault.some | with_reducible apply KeepsOut.next

theorem execKettleBlockCommit_keeps {o : State} (st : ℕ) (s : State) (h : Keeps o s) : KeepsOut o (execKettleBlockCommit st s) := by
  unfold execKettleBlockCommit
  repeat' first
      | with_reducible assumption | with_reducible apply afterKettle_keeps | with_reducible apply kcommit_keeps
      | with_reducible apply Keeps.ite | with_reducible apply KeepsFault.none | with_reducible apply KeepsFault.some
      | with_reducible apply KeepsFault.ite | with_reducible apply KeepsOut.next | split

theorem execKettleWaitTimeout_keeps {o : State} (st : ℕ) (s : State) (h : Keeps o s) : KeepsOut o (execKettleWaitTimeout st s) := by
  unfold execKettleWaitTimeout
  repeat' first
      | with_reducible assumption | with_reducible apply afterKettle_keeps | with_reducible apply kettleFails_keeps
      | with_reducible apply tileFault_keeps | with_reducible apply Keeps.ite | with_reducible apply KeepsFault.none
      | with_reducible apply KeepsFault.some | with_reducible apply KeepsFault.ite | with_reducible apply KeepsOut.next | split

theorem runResume_keeps {o : State} (s : State) (c : Cmd) (h : Keeps o s) : Keeps o (State.runResume s c) := by
  unfold State.runResume
  repeat' first
      | with_reducible assumption | with_reducible intro _ | with_reducible apply complete_keeps
      | with_reducible apply proceed_keeps | with_reducible apply resumeKettle_keeps | with_reducible apply Keeps.ite
      | with_reducible refine Keeps.foldl (fun s x h => ?_) _ ?_ | split

theorem execKettleResume_keeps {o : State} (fn : ℕ) (ring : ℕ) (s : State) (h : Keeps o s) : KeepsOut o (execKettleResume fn ring s) := by
  unfold execKettleResume
  repeat' first
      | with_reducible assumption | with_reducible intro _ | with_reducible apply hostCmd_keeps
      | with_reducible apply runResume_keeps | with_reducible apply KeepsFault.none | with_reducible apply KeepsFault.some
      | with_reducible apply KeepsOut.next

theorem runDrop_keeps {o : State} (s : State) (c : Cmd) (h : Keeps o s) : Keeps o (State.runDrop s c) := by
  unfold State.runDrop
  repeat' first
      | with_reducible assumption | with_reducible intro _ | with_reducible apply complete_keeps
      | with_reducible apply fset_keeps | with_reducible apply Keeps.ite | with_reducible apply KeepsEff.ok
      | with_reducible apply KeepsEff.bad | with_reducible apply KeepsEff.fail | with_reducible apply KeepsEff.ite
      | with_reducible refine Keeps.foldl (fun s x h => ?_) _ ?_ | with_reducible refine KeepsEff.foldl (fun s x h => ?_) _ ?_ | split

theorem execKettleAbandon_keeps {o : State} (fn : ℕ) (ring : ℕ) (s : State) (h : Keeps o s) : KeepsOut o (execKettleAbandon fn ring s) := by
  unfold execKettleAbandon
  repeat' first
      | with_reducible assumption | with_reducible intro _ | with_reducible apply hostCmd_keeps
      | with_reducible apply runDrop_keeps | with_reducible apply KeepsFault.none | with_reducible apply KeepsFault.some
      | with_reducible apply KeepsOut.next

end Sys2Proof.Machine
end

