-- ==== Sys2Proof/Laws/KeepsLanding.lean ====
section
/-!
SUPPORT. What no operation of Machine/Landing.lean does (Laws/Keeps.lean).
-/

set_option Elab.async false

namespace Sys2Proof.Machine

theorem landTurn_keeps {o : State} (s : State) (p : ℕ) (m : Move) (c : Cmd) (t : Turn) (h : Keeps o s) : Keeps o (State.landTurn s p m c t) := by
  unfold State.landTurn
  repeat' first
      | with_reducible assumption | with_reducible intro _ | with_reducible apply parkCopy_keeps
      | with_reducible apply haltTurn_keeps | with_reducible apply failCmd_keeps | with_reducible apply dropCmdMoves_keeps
      | with_reducible apply finish_keeps | with_reducible apply KeepsEff.ok | with_reducible apply KeepsEff.bad
      | with_reducible apply KeepsEff.fail | with_reducible apply KeepsOpt.some | with_reducible apply KeepsOpt.none
      | with_reducible apply Keeps.id | with_reducible refine Keeps.foldl (fun s x h => ?_) _ ?_
      | with_reducible refine Keeps.foldl1 (fun s x h => ?_) _ ?_ | with_reducible refine Keeps.foldl2 (fun s x h => ?_) _ ?_
      | simp only [Keeps.mk_iff] | with_reducible refine Keeps.snd (by with_reducible assumption) ?_
      | with_reducible refine Keeps.fst (by with_reducible assumption) ?_
      | with_reducible refine KeepsOpt.get (by with_reducible assumption) ?_ | split

theorem landCopy_keeps {o : State} (s : State) (m : Move) (h : Keeps o s) : Keeps o (State.landCopy s m) := by
  unfold State.landCopy
  repeat' first
      | with_reducible assumption | with_reducible apply dropMove_keeps | with_reducible apply landPark_keeps
      | with_reducible apply landTurn_keeps | with_reducible apply Keeps.ite | with_reducible apply KeepsOpt.some
      | with_reducible apply KeepsOpt.none | with_reducible apply KeepsOpt.ite | with_reducible apply Keeps.id | simp only [Keeps.mk_iff]
      | with_reducible refine Keeps.snd (by with_reducible assumption) ?_
      | with_reducible refine Keeps.fst (by with_reducible assumption) ?_
      | with_reducible refine KeepsOpt.get (by with_reducible assumption) ?_ | split

theorem stagingFails_keeps {o : State} (s : State) (p : ℕ) (a : ℕ) (h : Keeps o s) : Keeps o (State.stagingFails s p a) := by
  unfold State.stagingFails
  repeat' first
      | with_reducible assumption | with_reducible intro _ | with_reducible apply detect_keeps
      | with_reducible apply haltTurn_keeps | with_reducible apply modPart_keeps | with_reducible apply finish_keeps
      | with_reducible refine KeepsOpt.map ?_ (fun s h => ?_) | with_reducible refine KeepsOpt.of (fun x => ?_)
      | with_reducible apply KeepsOpt.getD | with_reducible apply Keeps.id | with_reducible refine Keeps.foldl (fun s x h => ?_) _ ?_
      | simp only [Keeps.mk_iff]

theorem landInstall_keeps {o : State} (s : State) (m : Move) (h : Keeps o s) : Keeps o (State.landInstall s m) := by
  unfold State.landInstall
  repeat' first
      | with_reducible assumption | with_reducible intro _ | with_reducible apply dropMove_keeps
      | with_reducible apply stagingFails_keeps | with_reducible apply installSeg_keeps | with_reducible apply Keeps.ite
      | with_reducible apply KeepsEff.ok | with_reducible apply KeepsEff.bad | with_reducible apply KeepsEff.fail
      | with_reducible apply KeepsEff.ite | with_reducible apply KeepsOpt.some | with_reducible apply KeepsOpt.none
      | with_reducible apply KeepsOpt.ite | with_reducible refine KeepsOpt.map ?_ (fun s h => ?_)
      | with_reducible refine KeepsOpt.of (fun x => ?_) | with_reducible apply Keeps.id | simp only [Keeps.mk_iff]
      | with_reducible refine Keeps.snd (by with_reducible assumption) ?_
      | with_reducible refine Keeps.fst (by with_reducible assumption) ?_
      | with_reducible refine KeepsOpt.get (by with_reducible assumption) ?_ | split

theorem landMove_keeps {o : State} (s : State) (m : Move) (h : Keeps o s) : Keeps o (State.landMove s m) := by
  unfold State.landMove
  repeat' first
      | with_reducible assumption | with_reducible apply startAtts_keeps | with_reducible apply landMov_keeps
      | with_reducible apply landHost_keeps | with_reducible apply landWeight_keeps | with_reducible apply landAtt_keeps
      | with_reducible apply landStaging_keeps | with_reducible apply moveEngine_keeps | with_reducible apply landInstall_keeps
      | with_reducible apply landOld_keeps | with_reducible apply landCopy_keeps | simp only [Keeps.mk_iff]
      | with_reducible refine Keeps.snd (by with_reducible assumption) ?_
      | with_reducible refine Keeps.fst (by with_reducible assumption) ?_ | split

theorem execMoveLanded_keeps {o : State} (id : ℕ) (s : State) (h : Keeps o s) : KeepsOut o (execMoveLanded id s) := by
  unfold execMoveLanded
  repeat' first
      | with_reducible assumption | with_reducible intro _ | with_reducible apply settle_keeps
      | with_reducible apply landMove_keeps | with_reducible apply proceed_keeps | with_reducible apply Keeps.ite
      | with_reducible apply KeepsOpt.some | with_reducible apply KeepsOpt.none | with_reducible apply KeepsOpt.ite
      | with_reducible apply KeepsFault.none | with_reducible apply KeepsFault.some | with_reducible apply KeepsFault.ite
      | with_reducible apply KeepsOut.next | with_reducible apply Keeps.id | simp only [Keeps.mk_iff]
      | with_reducible refine Keeps.snd (by with_reducible assumption) ?_
      | with_reducible refine Keeps.fst (by with_reducible assumption) ?_
      | with_reducible refine KeepsOpt.get (by with_reducible assumption) ?_
      | with_reducible refine KeepsFault.get (by with_reducible assumption) ?_ | split

theorem landSteep_keeps {o : State} (s : State) (t : ℕ) (entry : ℕ) (m : Move) (h : Keeps o s) : Keeps o (State.landSteep s t entry m) := by
  unfold State.landSteep
  repeat' first
      | with_reducible assumption | with_reducible intro _ | with_reducible apply dropMove_keeps
      | with_reducible apply landTile_keeps | with_reducible apply modTile_keeps | with_reducible apply startAtts_keeps
      | with_reducible apply moveEngine_keeps | with_reducible apply steepSignal_keeps | with_reducible apply tileStop_keeps
      | with_reducible apply KeepsEff.ok | with_reducible apply KeepsEff.bad | with_reducible apply KeepsEff.fail
      | with_reducible apply Keeps.id | with_reducible refine Keeps.foldl (fun s x h => ?_) _ ?_
      | with_reducible refine KeepsEff.foldl (fun s x h => ?_) _ ?_ | simp only [Keeps.mk_iff]
      | with_reducible refine Keeps.snd (by with_reducible assumption) ?_
      | with_reducible refine Keeps.fst (by with_reducible assumption) ?_
      | with_reducible refine KeepsEff.get (by with_reducible assumption) ?_ | split

theorem execSteepEntryLanded_keeps {o : State} (t : ℕ) (entry : ℕ) (s : State) (h : Keeps o s) : KeepsOut o (execSteepEntryLanded t entry s) := by
  unfold execSteepEntryLanded
  repeat' first
      | with_reducible assumption | with_reducible intro _ | with_reducible apply settle_keeps
      | with_reducible apply landSteep_keeps | with_reducible apply Keeps.ite | with_reducible apply KeepsOpt.some
      | with_reducible apply KeepsOpt.none | with_reducible apply KeepsOpt.ite | with_reducible apply KeepsFault.none
      | with_reducible apply KeepsFault.some | with_reducible apply KeepsFault.ite | with_reducible apply KeepsOut.next
      | simp only [Keeps.mk_iff] | with_reducible refine Keeps.snd (by with_reducible assumption) ?_
      | with_reducible refine Keeps.fst (by with_reducible assumption) ?_
      | with_reducible refine KeepsOpt.get (by with_reducible assumption) ?_
      | with_reducible refine KeepsFault.get (by with_reducible assumption) ?_ | split

end Sys2Proof.Machine
end

