-- ==== Sys2Proof/Laws/KeepsRepair.lean ====
section
/-!
SUPPORT. What no operation of Machine/Repair.lean does (Laws/Keeps.lean).
-/

set_option Elab.async false

namespace Sys2Proof.Machine

theorem spared_keeps {o : State} (s : State) (kind : ℕ) (unit : ℕ) (part : ℕ) (h : Keeps o s) : Keeps o (State.spared s kind unit part) := by
  unfold State.spared
  repeat' first | with_reducible assumption | simp only [Keeps.mk_iff]

theorem scrub_keeps {o : State} (s : State) (t : ℕ) (bank : ℕ) (h : Keeps o s) : Keeps o (State.scrub s t bank) := by
  unfold State.scrub
  repeat' first
      | with_reducible assumption | with_reducible intro _ | with_reducible apply modTile_keeps
      | with_reducible apply raise_keeps | with_reducible apply mend_keeps | with_reducible apply Keeps.ite
      | with_reducible apply KeepsEff.ok | with_reducible apply KeepsEff.bad | with_reducible apply KeepsEff.fail
      | with_reducible apply KeepsEff.ite | simp only [Keeps.mk_iff] | split

theorem execPatrolScrub_keeps {o : State} (t : ℕ) (bank : ℕ) (s : State) (h : Keeps o s) : KeepsOut o (execPatrolScrub t bank s) := by
  unfold execPatrolScrub
  repeat' first
      | with_reducible assumption | with_reducible apply scrub_keeps | with_reducible apply Keeps.ite
      | with_reducible apply KeepsFault.none | with_reducible apply KeepsFault.some | with_reducible apply KeepsFault.ite
      | with_reducible refine KeepsFault.map (fun x => ?_) | with_reducible refine KeepsOpt.map ?_ (fun s h => ?_)
      | with_reducible refine KeepsOpt.of (fun x => ?_) | with_reducible apply KeepsOut.next | split

theorem repairRow_keeps {o : State} (s : State) (t : ℕ) (bank : ℕ) (row : ℕ) (h : Keeps o s) : Keeps o (State.repairRow s t bank row) := by
  unfold State.repairRow
  repeat' first
      | with_reducible assumption | with_reducible intro _ | with_reducible apply raise_keeps
      | with_reducible apply modTile_keeps | with_reducible apply spared_keeps | with_reducible apply fset_keeps
      | with_reducible apply Keeps.ite | simp only [Keeps.mk_iff] | split

theorem execBankRowRepair_keeps {o : State} (t : ℕ) (bank : ℕ) (row : ℕ) (s : State) (h : Keeps o s) : KeepsOut o (execBankRowRepair t bank row s) := by
  unfold execBankRowRepair
  repeat' first
      | with_reducible assumption | with_reducible apply repairRow_keeps | with_reducible apply Keeps.ite
      | with_reducible apply KeepsFault.none | with_reducible apply KeepsFault.some | with_reducible apply KeepsFault.ite
      | with_reducible refine KeepsFault.map (fun x => ?_) | with_reducible refine KeepsOpt.map ?_ (fun s h => ?_)
      | with_reducible refine KeepsOpt.of (fun x => ?_) | with_reducible apply KeepsOut.next | split

theorem repairLine_keeps {o : State} (s : State) (t : ℕ) (line : ℕ) (h : Keeps o s) : Keeps o (State.repairLine s t line) := by
  unfold State.repairLine
  repeat' first
      | with_reducible assumption | with_reducible intro _ | with_reducible apply raise_keeps
      | with_reducible apply modTile_keeps | with_reducible apply spared_keeps | with_reducible apply Keeps.ite | simp only [Keeps.mk_iff]
      | split

theorem execAccLineRepair_keeps {o : State} (t : ℕ) (line : ℕ) (s : State) (h : Keeps o s) : KeepsOut o (execAccLineRepair t line s) := by
  unfold execAccLineRepair
  repeat' first
      | with_reducible assumption | with_reducible apply repairLine_keeps | with_reducible apply Keeps.ite
      | with_reducible apply KeepsFault.none | with_reducible apply KeepsFault.some | with_reducible apply KeepsFault.ite
      | with_reducible refine KeepsFault.map (fun x => ?_) | with_reducible refine KeepsOpt.map ?_ (fun s h => ?_)
      | with_reducible refine KeepsOpt.of (fun x => ?_) | with_reducible apply KeepsOut.next | split

theorem execLpddrRowRepair_keeps {o : State} (b : ℕ) (row : ℕ) (s : State) (h : Keeps o s) : KeepsOut o (execLpddrRowRepair b row s) := by
  unfold execLpddrRowRepair
  repeat' first
      | with_reducible assumption | with_reducible apply raise_keeps | with_reducible apply spared_keeps
      | with_reducible apply Keeps.ite | with_reducible apply KeepsFault.none | with_reducible apply KeepsFault.some
      | with_reducible apply KeepsFault.ite | with_reducible apply KeepsOut.next | split

theorem degrade_keeps {o : State} (s : State) (p : ℕ) (h : Keeps o s) : Keeps o (State.degrade s p) := by
  unfold State.degrade
  repeat' first
      | with_reducible assumption | with_reducible intro _ | with_reducible apply leaveComms_keeps
      | with_reducible apply endLearn_keeps | with_reducible apply modPart_keeps | with_reducible apply failTurn_keeps
      | with_reducible apply fset_keeps | with_reducible apply endRefresh_keeps | with_reducible apply Keeps.ite
      | with_reducible apply KeepsEff.ok | with_reducible apply KeepsEff.bad | with_reducible apply KeepsEff.fail
      | with_reducible apply KeepsEff.ite | with_reducible apply KeepsOpt.some | with_reducible apply KeepsOpt.none
      | with_reducible apply KeepsOpt.ite | simp only [Keeps.mk_iff] | with_reducible refine Keeps.snd (by with_reducible assumption) ?_
      | with_reducible refine Keeps.fst (by with_reducible assumption) ?_
      | with_reducible refine KeepsOpt.get (by with_reducible assumption) ?_ | split

theorem takeOver_keeps {o : State} (s : State) (t : ℕ) (h : Keeps o s) : Keeps o (State.takeOver s t) := by
  unfold State.takeOver
  repeat' first
      | with_reducible assumption | with_reducible intro _ | with_reducible apply fset_keeps | with_reducible apply spared_keeps
      | with_reducible apply modTile_keeps | with_reducible apply raise_keeps | simp only [Keeps.mk_iff]

theorem execSpareTakeover_keeps {o : State} (t : ℕ) (s : State) (h : Keeps o s) : KeepsOut o (execSpareTakeover t s) := by
  unfold execSpareTakeover
  repeat' first
      | with_reducible assumption | with_reducible apply takeOver_keeps | with_reducible apply Keeps.ite
      | with_reducible apply KeepsFault.none | with_reducible apply KeepsFault.some | with_reducible apply KeepsFault.ite
      | with_reducible refine KeepsFault.map (fun x => ?_) | with_reducible refine KeepsOpt.map ?_ (fun s h => ?_)
      | with_reducible refine KeepsOpt.of (fun x => ?_) | with_reducible apply KeepsOut.next | split

theorem unmapTile_keeps {o : State} (s : State) (t : ℕ) (h : Keeps o s) : Keeps o (State.unmapTile s t) := by
  unfold State.unmapTile
  repeat' first
      | with_reducible assumption | with_reducible intro _ | with_reducible apply fset_keeps | with_reducible apply spared_keeps
      | with_reducible apply modTile_keeps | with_reducible apply raise_keeps | with_reducible apply proceed_keeps
      | with_reducible apply settle_keeps | with_reducible apply degrade_keeps | with_reducible apply Keeps.ite
      | with_reducible apply KeepsOpt.some | with_reducible apply KeepsOpt.none | with_reducible apply KeepsOpt.ite
      | simp only [Keeps.mk_iff] | with_reducible refine Keeps.snd (by with_reducible assumption) ?_
      | with_reducible refine Keeps.fst (by with_reducible assumption) ?_
      | with_reducible refine KeepsOpt.get (by with_reducible assumption) ?_ | split

theorem execTileUnmapped_keeps {o : State} (t : ℕ) (s : State) (h : Keeps o s) : KeepsOut o (execTileUnmapped t s) := by
  unfold execTileUnmapped
  repeat' first
      | with_reducible assumption | with_reducible apply unmapTile_keeps | with_reducible apply Keeps.ite
      | with_reducible apply KeepsFault.none | with_reducible apply KeepsFault.some | with_reducible apply KeepsFault.ite
      | with_reducible refine KeepsFault.map (fun x => ?_) | with_reducible refine KeepsOpt.map ?_ (fun s h => ?_)
      | with_reducible refine KeepsOpt.of (fun x => ?_) | with_reducible apply KeepsOut.next | split

theorem retireBay_keeps {o : State} (s : State) (b : ℕ) (h : Keeps o s) : Keeps o (State.retireBay s b) := by
  unfold State.retireBay
  repeat' first
      | with_reducible assumption | with_reducible intro _ | with_reducible apply fset_keeps | with_reducible apply spared_keeps
      | with_reducible apply raise_keeps | with_reducible apply proceed_keeps | with_reducible apply settle_keeps
      | with_reducible apply degrade_keeps | with_reducible apply KeepsOpt.some | with_reducible apply KeepsOpt.none
      | with_reducible refine Keeps.foldl (fun s x h => ?_) _ ?_ | simp only [Keeps.mk_iff]
      | with_reducible refine Keeps.snd (by with_reducible assumption) ?_
      | with_reducible refine Keeps.fst (by with_reducible assumption) ?_
      | with_reducible refine KeepsOpt.get (by with_reducible assumption) ?_ | split

theorem execBayRetired_keeps {o : State} (b : ℕ) (s : State) (h : Keeps o s) : KeepsOut o (execBayRetired b s) := by
  unfold execBayRetired
  repeat' first
      | with_reducible assumption | with_reducible apply retireBay_keeps | with_reducible apply Keeps.ite
      | with_reducible apply KeepsFault.none | with_reducible apply KeepsFault.some | with_reducible apply KeepsFault.ite
      | with_reducible apply KeepsOut.next | split

theorem loseStack_keeps {o : State} (s : State) (st : ℕ) (info : ℕ) (h : Keeps o s) : Keeps o (State.loseStack s st info) := by
  unfold State.loseStack
  repeat' first
      | with_reducible assumption | with_reducible apply raise_keeps | with_reducible apply retireBay_keeps
      | with_reducible apply Keeps.ite | split

theorem execHbmRowRepair_keeps {o : State} (st : ℕ) (row : ℕ) (s : State) (h : Keeps o s) : KeepsOut o (execHbmRowRepair st row s) := by
  unfold execHbmRowRepair
  repeat' first
      | with_reducible assumption | with_reducible apply raise_keeps | with_reducible apply spared_keeps
      | with_reducible apply loseStack_keeps | with_reducible apply Keeps.ite | with_reducible apply KeepsFault.none
      | with_reducible apply KeepsFault.some | with_reducible apply KeepsFault.ite | with_reducible apply KeepsOut.next
      | simp only [Keeps.mk_iff] | split

theorem spareLane_keeps {o : State} (s : State) (st : ℕ) (lane : ℕ) (h : Keeps o s) : Keeps o (State.spareLane s st lane) := by
  unfold State.spareLane
  repeat' first
      | with_reducible assumption | with_reducible intro _ | with_reducible apply modKettle_keeps
      | with_reducible apply loseStack_keeps | with_reducible apply raise_keeps | with_reducible apply spared_keeps
      | with_reducible apply fset_keeps | with_reducible apply Keeps.ite | simp only [Keeps.mk_iff] | split

theorem spareData_keeps {o : State} (s : State) (st : ℕ) (lane : ℕ) (h : Keeps o s) : Keeps o (State.spareData s st lane) := by
  unfold State.spareData
  repeat' first
      | with_reducible assumption | with_reducible apply spared_keeps | with_reducible apply loseStack_keeps
      | with_reducible apply Keeps.ite | split

theorem spareLanes_keeps {o : State} (s : State) (h : Keeps o s) : Keeps o (State.spareLanes s) := by
  unfold State.spareLanes
  repeat' first
      | with_reducible assumption | with_reducible intro _ | with_reducible apply spareLane_keeps
      | with_reducible apply spareData_keeps | with_reducible refine Keeps.foldl (fun s x h => ?_) _ ?_ | simp only [Keeps.mk_iff]

theorem setBad_keeps {o s : State} (h : Keeps o s) (k : Nat) (v : Bool) : Keeps o { s with bad := Tab.set false s.bad k v } :=
  ⟨h.1, fun g => let ⟨c, w⟩ := h.2 g
    ⟨c.swap _ c.mem (tab_wf_set _ _ c.bad) c.accBad c.lpBad
      (Eq.refl _) (Eq.refl _) (Eq.refl _) (Eq.refl _) (Eq.refl _) (Eq.refl _) (Eq.refl _), w⟩⟩

theorem setAccBad_keeps {o s : State} (h : Keeps o s) (k : Nat) (v : Bool) : Keeps o { s with accBad := Tab.set false s.accBad k v } :=
  ⟨h.1, fun g => let ⟨c, w⟩ := h.2 g
    ⟨c.swap _ c.mem c.bad (tab_wf_set _ _ c.accBad) c.lpBad
      (Eq.refl _) (Eq.refl _) (Eq.refl _) (Eq.refl _) (Eq.refl _) (Eq.refl _) (Eq.refl _), w⟩⟩

theorem setLpBad_keeps {o s : State} (h : Keeps o s) (k : Nat) (v : Bool) : Keeps o { s with lpBad := Tab.set false s.lpBad k v } :=
  ⟨h.1, fun g => let ⟨c, w⟩ := h.2 g
    ⟨c.swap _ c.mem c.bad c.accBad (tab_wf_set _ _ c.lpBad)
      (Eq.refl _) (Eq.refl _) (Eq.refl _) (Eq.refl _) (Eq.refl _) (Eq.refl _) (Eq.refl _), w⟩⟩

theorem upset_keeps {o : State} (s : State) (kind a : Nat) (h : Keeps o s) : Keeps o (s.upset kind a) := by
  unfold State.upset
  dsimp only
  split
  all_goals first
    | with_reducible exact h
    | with_reducible exact modTile_keeps h _ _
    | with_reducible exact modKettle_keeps h _ _
    | exact setBad_keeps h _ _
    | exact setAccBad_keeps h _ _
    | exact setLpBad_keeps h _ _
    | simp only [Keeps.mk_iff]; exact h

theorem upsets_keeps {o : State} (s : State) (h : Keeps o s) : Keeps o (State.upsets s) := by
  unfold State.upsets
  repeat' first
      | with_reducible assumption | with_reducible apply free1_keeps | with_reducible apply upset_keeps
      | with_reducible refine Keeps.snd (by with_reducible assumption) ?_
      | with_reducible refine Keeps.fst (by with_reducible assumption) ?_
      | with_reducible refine Keeps.third (by with_reducible assumption) ?_ | split

end Sys2Proof.Machine
end

