-- ==== Sys2Proof/Laws/KeepsReset.lean ====
section
/-!
SUPPORT. What no operation of Machine/Reset.lean does (Laws/Keeps.lean).
-/

set_option Elab.async false

namespace Sys2Proof.Machine

theorem startFirmware_keeps {o : State} (s : State) (bs : List Byte) (h : Keeps o s) : Keeps o (State.startFirmware s bs) := by
  unfold State.startFirmware
  repeat' first
      | with_reducible assumption | with_reducible apply fset_keeps | with_reducible apply take_keeps
      | with_reducible apply Keeps.ite | simp only [Keeps.mk_iff] | split

theorem boot_keeps {o : State} (s : State) (h : Keeps o s) : Keeps o (State.boot s) := by
  unfold State.boot
  repeat' first
      | with_reducible assumption | with_reducible apply startFirmware_keeps | with_reducible apply fset_keeps
      | with_reducible apply Keeps.ite | with_reducible apply KeepsOpt.some | with_reducible apply KeepsOpt.none
      | with_reducible apply KeepsOpt.ite | simp only [Keeps.mk_iff] | split

/-- Some of the fields of a register table fit where all do. -/
theorem fit_filter {r : Tab (Option Nat)} (q : Nat → Bool)
    (h : ∀ f i v, Tab.get none r (Fld.key f i) = some v → v < 2 ^ f.width) :
    ∀ f i v, Tab.get none (r.filter (fun e => q e.1)) (Fld.key f i) = some v → v < 2 ^ f.width := by
  intro f i v hv
  have e : r.filter (fun e => q e.1) = Tab.drop r (fun k => !q k) := by simp [Tab.drop]
  rw [e, tab_get_drop] at hv
  split at hv
  · cases hv
  · exact h f i v hv

theorem keepFields_keeps {o : State} (s : State) (h : Keeps o s) : Keeps o s.keepFields :=
  ⟨h.1, fun g => let ⟨c, w⟩ := h.2 g
    ⟨⟨c.mem, c.bad, c.accBad, c.lpBad, tab_wf_filter _ c.regs, c.tiles, c.kettles, c.parts, c.bays, c.rings, c.ports⟩,
      fit_filter (fun k => (keptFields ++ presentFields).any (fun f => f.ctorIdx == k % 512)) w⟩⟩

theorem keepFaults_keeps {o : State} (s old : State) (external : Bool) (h : Keeps o s) : Keeps o (s.keepFaults old external) := by
  unfold State.keepFaults
  extract_lets held parity safe s1 s2 s3
  have h1 : Keeps o s1 := Keeps.foldl (fun s p h => Keeps.ite (fset_keeps h _ _ _) h) _ h
  have h2 : Keeps o s2 := Keeps.ite (fset_keeps (fset_keeps h1 _ _ _) _ _ _) h1
  have h3 : Keeps o s3 := Keeps.ite (fset_keeps h2 _ _ _) h2
  exact Keeps.mk_iff.2 h3

theorem clearWarm_keeps {o : State} (s : State) (h : Keeps o s) : Keeps o s.clearWarm := by
  have h := keepFields_keeps s h
  exact ⟨h.1, fun g => let ⟨c, w⟩ := h.2 g
    ⟨⟨c.mem, c.bad, c.accBad, c.lpBad, c.regs, warmTab_wf _ _ c.tiles, warmTab_wf _ _ c.kettles, warmTab_wf _ _ c.parts, rfl, rfl, rfl⟩,
      w⟩⟩

theorem warm_keeps {o : State} (s : State) (external : Bool) (h : Keeps o s) : Keeps o (State.warm s external) := by
  unfold State.warm
  repeat' first
      | with_reducible assumption | with_reducible intro _ | with_reducible apply sparge_keeps
      | with_reducible apply stopKettle_keeps | with_reducible apply boot_keeps | with_reducible apply keepFaults_keeps
      | with_reducible apply clearWarm_keeps | with_reducible apply fset_keeps | with_reducible apply spareLanes_keeps
      | with_reducible apply settle_keeps | with_reducible apply Keeps.ite | with_reducible apply KeepsFault.none
      | with_reducible apply KeepsFault.some | with_reducible apply KeepsFault.ite
      | with_reducible refine Keeps.foldl (fun s x h => ?_) _ ?_ | simp only [Keeps.mk_iff] | split

theorem execWarmReset_keeps {o : State} (external : Bool) (s : State) (h : Keeps o s) : KeepsOut o (execWarmReset external s) := by
  unfold execWarmReset
  repeat' first
      | with_reducible assumption | with_reducible apply warm_keeps | with_reducible apply Keeps.ite
      | with_reducible apply KeepsFault.none | with_reducible apply KeepsFault.some | with_reducible apply KeepsFault.ite
      | with_reducible apply KeepsOut.next | split

theorem execPerstNRelease_keeps {o : State} (s : State) (h : Keeps o s) : KeepsOut o (execPerstNRelease s) := by
  unfold execPerstNRelease
  repeat' first
      | with_reducible assumption | with_reducible apply boot_keeps | with_reducible apply Keeps.ite
      | with_reducible apply KeepsFault.none | with_reducible apply KeepsFault.some | with_reducible apply KeepsFault.ite
      | with_reducible apply KeepsOut.next | simp only [Keeps.mk_iff] | split

theorem cold_keeps {o : State} (s : State) (h : Keeps o s) : Keeps o s.cold :=
  ⟨h.1, fun g => let ⟨c, w⟩ := h.2 g
    ⟨⟨⟨tab_wf_filter _ c.mem.1, c.mem.2.1, rfl, rfl⟩, rfl, rfl, rfl, tab_wf_filter _ c.regs, warmTab_wf _ _ c.tiles, rfl, rfl, rfl, rfl,
      rfl⟩, fit_filter (fun k => fusedFields.any (fun f => f.ctorIdx == k % 512)) w⟩⟩

theorem execModulePowerOn_keeps {o : State} (straps : ℕ) (s : State) (h : Keeps o s) : KeepsOut o (execModulePowerOn straps s) := by
  unfold execModulePowerOn
  repeat' first
      | with_reducible assumption | with_reducible apply Keeps.ite | with_reducible apply KeepsFault.none
      | with_reducible apply KeepsFault.some | with_reducible apply KeepsFault.ite | with_reducible apply KeepsOut.next
      | simp only [Keeps.mk_iff] | split

theorem execPowerDown_keeps {o : State} (centivolts : ℕ) (s : State) (h : Keeps o s) : KeepsOut o (execPowerDown centivolts s) := by
  unfold execPowerDown
  repeat' first
      | with_reducible assumption | with_reducible apply cold_keeps | with_reducible apply Keeps.ite
      | with_reducible apply KeepsFault.none | with_reducible apply KeepsFault.some | with_reducible apply KeepsFault.ite
      | with_reducible apply KeepsOut.next | split

end Sys2Proof.Machine
end

