-- ==== Sys2Proof/Laws/KeepsFault.lean ====
section
/-!
SUPPORT. What no operation of Machine/Fault.lean does (Laws/Keeps.lean).
-/

set_option Elab.async false

namespace Sys2Proof.Machine

theorem execFcAck_keeps {o : State} (seq : ℕ) (s : State) (h : Keeps o s) : KeepsOut o (execFcAck seq s) := by
  unfold execFcAck
  repeat' first
      | with_reducible assumption | with_reducible apply ackSlot_keeps | with_reducible apply KeepsOpt.some
      | with_reducible apply KeepsOpt.none | with_reducible apply KeepsFault.none | with_reducible apply KeepsFault.some
      | with_reducible apply KeepsOut.next | simp only [Keeps.mk_iff] | with_reducible refine Keeps.snd (by with_reducible assumption) ?_
      | with_reducible refine Keeps.fst (by with_reducible assumption) ?_
      | with_reducible refine KeepsOpt.get (by with_reducible assumption) ?_
      | with_reducible refine KeepsFault.get (by with_reducible assumption) ?_ | split

theorem ackAll_keeps {o : State} (s : State) (h : Keeps o s) : Keeps o (State.ackAll s) := by
  unfold State.ackAll
  repeat' first
      | with_reducible assumption | with_reducible intro _ | with_reducible refine KeepsOpt.map ?_ (fun s h => ?_)
      | with_reducible refine KeepsOpt.of (fun x => ?_) | simp only [Keeps.mk_iff]

theorem execFcAckAll_keeps {o : State} (value : ℕ) (s : State) (h : Keeps o s) : KeepsOut o (execFcAckAll value s) := by
  unfold execFcAckAll
  repeat' first
      | with_reducible assumption | with_reducible apply ackAll_keeps | with_reducible apply Keeps.ite
      | with_reducible apply KeepsFault.none | with_reducible apply KeepsFault.some | with_reducible apply KeepsFault.ite
      | with_reducible apply KeepsOut.next | split

theorem showLevel_keeps {o : State} (s : State) (seq : ℕ) (sev : ℕ) (h : Keeps o s) : Keeps o (State.showLevel s seq sev) := by
  unfold State.showLevel
  repeat' first
      | with_reducible assumption | with_reducible apply setSlot_keeps | with_reducible apply KeepsOpt.some
      | with_reducible apply KeepsOpt.none | simp only [Keeps.mk_iff] | with_reducible refine Keeps.snd (by with_reducible assumption) ?_
      | with_reducible refine Keeps.fst (by with_reducible assumption) ?_
      | with_reducible refine KeepsOpt.get (by with_reducible assumption) ?_ | split

theorem escalate_keeps {o : State} (s : State) (g : Grace) (h : Keeps o s) : Keeps o (State.escalate s g) := by
  unfold State.escalate
  repeat' first
      | with_reducible assumption | with_reducible intro _ | with_reducible apply hold_keeps | with_reducible apply act_keeps
      | with_reducible apply startGrace_keeps | with_reducible apply showLevel_keeps | with_reducible apply Keeps.ite
      | simp only [Keeps.mk_iff] | split

theorem markTamper_keeps {o : State} (s : State) (was : Bool) (source : ℕ) (h : Keeps o s) : Keeps o (State.markTamper s was source) := by
  unfold State.markTamper
  repeat' first | with_reducible assumption | with_reducible apply Keeps.ite | simp only [Keeps.mk_iff] | split

theorem execGraceExpiry_keeps {o : State} (seq : ℕ) (s : State) (h : Keeps o s) : KeepsOut o (execGraceExpiry seq s) := by
  unfold execGraceExpiry
  repeat' first
      | with_reducible assumption | with_reducible intro _ | with_reducible apply markTamper_keeps
      | with_reducible apply settle_keeps | with_reducible apply escalate_keeps | with_reducible apply KeepsOpt.some
      | with_reducible apply KeepsOpt.none | with_reducible apply KeepsFault.none | with_reducible apply KeepsFault.some
      | with_reducible apply KeepsOut.next | simp only [Keeps.mk_iff] | with_reducible refine Keeps.snd (by with_reducible assumption) ?_
      | with_reducible refine Keeps.fst (by with_reducible assumption) ?_
      | with_reducible refine KeepsOpt.get (by with_reducible assumption) ?_
      | with_reducible refine KeepsFault.get (by with_reducible assumption) ?_ | split

theorem leaveSafe_keeps {o : State} (s : State) (h : Keeps o s) : Keeps o (State.leaveSafe s) := by
  unfold State.leaveSafe
  repeat' first | with_reducible assumption | with_reducible apply warm_keeps | with_reducible apply Keeps.ite | split

theorem leave_keeps {o : State} (s : State) (scope : ℕ) (h : Keeps o s) : Keeps o (State.leave s scope) := by
  unfold State.leave
  repeat' first
      | with_reducible assumption | with_reducible apply leaveContained_keeps | with_reducible apply leaveSafe_keeps
      | with_reducible apply Keeps.ite | split

theorem raiseLimit_keeps {o : State} (s : State) (scope : ℕ) (h : Keeps o s) : Keeps o (State.raiseLimit s scope) := by
  unfold State.raiseLimit
  repeat' first | with_reducible assumption | with_reducible apply raise_keeps | with_reducible apply Keeps.ite | split

theorem quietOver_keeps {o : State} (s : State) (scope : ℕ) (h : Keeps o s) : Keeps o (State.quietOver s scope) := by
  unfold State.quietOver
  repeat' first
      | with_reducible assumption | with_reducible apply raiseLimit_keeps | with_reducible apply hold_keeps
      | with_reducible apply leave_keeps | with_reducible apply recordExit_keeps | with_reducible apply Keeps.ite | split

theorem execQuietExpiry_keeps {o : State} (scope : ℕ) (s : State) (h : Keeps o s) : KeepsOut o (execQuietExpiry scope s) := by
  unfold execQuietExpiry
  repeat' first
      | with_reducible assumption | with_reducible apply quietOver_keeps | with_reducible apply Keeps.ite
      | with_reducible apply KeepsFault.none | with_reducible apply KeepsFault.some | with_reducible apply KeepsFault.ite
      | with_reducible apply KeepsOut.next | split

theorem driveFault_keeps {o : State} (s : State) (h : Keeps o s) : Keeps o (State.driveFault s) := by
  unfold State.driveFault
  repeat' first
      | with_reducible assumption | with_reducible apply fset_keeps | with_reducible apply KeepsFault.none
      | with_reducible apply KeepsFault.some

theorem execFaultPulseEnd_keeps {o : State} (s : State) (h : Keeps o s) : KeepsOut o (execFaultPulseEnd s) := by
  unfold execFaultPulseEnd
  repeat' first
      | with_reducible assumption | with_reducible apply fset_keeps | with_reducible apply driveFault_keeps
      | with_reducible apply Keeps.ite | with_reducible apply KeepsFault.none | with_reducible apply KeepsFault.some
      | with_reducible apply KeepsFault.ite | with_reducible apply KeepsOut.next | simp only [Keeps.mk_iff] | split

theorem writeHold_keeps {o : State} (s : State) (value : ℕ) (h : Keeps o s) : Keeps o (State.writeHold s value) := by
  unfold State.writeHold
  repeat' first
      | with_reducible assumption | with_reducible apply driveFault_keeps | with_reducible apply fset_keeps
      | with_reducible apply Keeps.ite | with_reducible apply KeepsFault.none | with_reducible apply KeepsFault.some
      | with_reducible apply KeepsFault.ite | simp only [Keeps.mk_iff] | split

theorem execHoldWrite_keeps {o : State} (value : ℕ) (s : State) (h : Keeps o s) : KeepsOut o (execHoldWrite value s) := by
  unfold execHoldWrite
  repeat' first
      | with_reducible assumption | with_reducible apply writeHold_keeps | with_reducible apply KeepsFault.none
      | with_reducible apply KeepsFault.some | with_reducible apply KeepsOut.next

theorem selfFault_keeps {o : State} (s : State) (h : Keeps o s) : Keeps o (State.selfFault s) := by
  unfold State.selfFault
  repeat' first
      | with_reducible assumption | with_reducible apply settle_keeps | with_reducible apply fset_keeps
      | with_reducible apply enterSafe_keeps | with_reducible apply KeepsFault.none | with_reducible apply KeepsFault.some
      | simp only [Keeps.mk_iff]

theorem execCollectorParity_keeps {o : State} (s : State) (h : Keeps o s) : KeepsOut o (execCollectorParity s) := by
  unfold execCollectorParity
  repeat' first
      | with_reducible assumption | with_reducible apply selfFault_keeps | with_reducible apply KeepsFault.none
      | with_reducible apply KeepsFault.some | with_reducible apply KeepsOut.next

theorem runRelease_keeps {o : State} (s : State) (c : Cmd) (h : Keeps o s) : Keeps o (State.runRelease s c) := by
  unfold State.runRelease
  repeat' first
      | with_reducible assumption | with_reducible apply complete_keeps | with_reducible apply leaveContained_keeps
      | with_reducible apply fset_keeps | with_reducible apply leaveSafe_keeps | with_reducible apply Keeps.ite
      | with_reducible apply KeepsEff.ok | with_reducible apply KeepsEff.bad | with_reducible apply KeepsEff.fail
      | with_reducible apply KeepsEff.ite | split

theorem execFaultRelease_keeps {o : State} (fn : ℕ) (ring : ℕ) (s : State) (h : Keeps o s) : KeepsOut o (execFaultRelease fn ring s) := by
  unfold execFaultRelease
  repeat' first
      | with_reducible assumption | with_reducible intro _ | with_reducible apply hostCmd_keeps
      | with_reducible apply runRelease_keeps | with_reducible apply KeepsFault.none | with_reducible apply KeepsFault.some
      | with_reducible apply KeepsOut.next

theorem runInject_keeps {o : State} (s : State) (c : Cmd) (h : Keeps o s) : Keeps o (State.runInject s c) := by
  unfold State.runInject
  repeat' first
      | with_reducible assumption | with_reducible apply complete_keeps | with_reducible apply selfFault_keeps
      | with_reducible apply raise_keeps | with_reducible apply Keeps.ite | with_reducible apply KeepsEff.ok
      | with_reducible apply KeepsEff.bad | with_reducible apply KeepsEff.fail | with_reducible apply KeepsEff.ite
      | with_reducible apply KeepsFault.none | with_reducible apply KeepsFault.some | with_reducible apply KeepsFault.ite | split

theorem execFaultInject_keeps {o : State} (fn : ℕ) (ring : ℕ) (s : State) (h : Keeps o s) : KeepsOut o (execFaultInject fn ring s) := by
  unfold execFaultInject
  repeat' first
      | with_reducible assumption | with_reducible intro _ | with_reducible apply hostCmd_keeps
      | with_reducible apply runInject_keeps | with_reducible apply KeepsFault.none | with_reducible apply KeepsFault.some
      | with_reducible apply KeepsOut.next

end Sys2Proof.Machine
end

