-- ==== Sys2Proof/Laws/KeepsSecurity.lean ====
section
/-!
SUPPORT. What no operation of Machine/Security.lean does (Laws/Keeps.lean).
-/

set_option Elab.async false

namespace Sys2Proof.Machine

theorem execVfEnable_keeps {o : State} (numVfs : ℕ) (s : State) (h : Keeps o s) : KeepsOut o (execVfEnable numVfs s) := by
  unfold execVfEnable
  repeat' first
      | with_reducible assumption | with_reducible apply Keeps.ite | with_reducible apply KeepsFault.none
      | with_reducible apply KeepsFault.some | with_reducible apply KeepsFault.ite | with_reducible apply KeepsOut.next
      | simp only [Keeps.mk_iff] | split

theorem disableVf_keeps {o : State} (s : State) (p : ℕ) (h : Keeps o s) : Keeps o (State.disableVf s p) := by
  unfold State.disableVf
  repeat' first
      | with_reducible assumption | with_reducible intro _ | with_reducible apply endSession_keeps
      | with_reducible apply startDrain_keeps | with_reducible apply resetVf_keeps | with_reducible apply windowEnd_keeps
      | with_reducible apply Keeps.ite | split

theorem execVfDisable_keeps {o : State} (vf : ℕ) (s : State) (h : Keeps o s) : KeepsOut o (execVfDisable vf s) := by
  unfold execVfDisable
  repeat' first
      | with_reducible assumption | with_reducible apply proceedAll_keeps | with_reducible apply settle_keeps
      | with_reducible apply disableVf_keeps | with_reducible apply Keeps.ite | with_reducible apply KeepsFault.none
      | with_reducible apply KeepsFault.some | with_reducible apply KeepsFault.ite | with_reducible apply KeepsOut.next | split

theorem endSessions_keeps {o : State} (s : State) (h : Keeps o s) : Keeps o (State.endSessions s) := by
  unfold State.endSessions
  repeat' first
      | with_reducible assumption | with_reducible intro _ | with_reducible apply disableVf_keeps
      | with_reducible apply endSession_keeps | with_reducible apply Keeps.ite | with_reducible refine Keeps.foldl (fun s x h => ?_) _ ?_
      | split

theorem tamperWipe_keeps {o : State} (s : State) (h : Keeps o s) : Keeps o (State.tamperWipe s) := by
  unfold State.tamperWipe
  repeat' first
      | with_reducible assumption | with_reducible apply endSessions_keeps | with_reducible apply fset_keeps
      | simp only [Keeps.mk_iff]

theorem execTamper_keeps {o : State} (cause : ℕ) (s : State) (h : Keeps o s) : KeepsOut o (execTamper cause s) := by
  unfold execTamper
  repeat' first
      | with_reducible assumption | with_reducible apply markTamper_keeps | with_reducible apply raise_keeps
      | with_reducible apply tamperWipe_keeps | with_reducible apply fset1s_keeps | with_reducible apply Keeps.ite
      | with_reducible apply KeepsFault.none | with_reducible apply KeepsFault.some | with_reducible apply KeepsFault.ite
      | with_reducible apply KeepsOut.next | split

theorem useChallenge_keeps {o : State} (s : State) (h : Keeps o s) : Keeps o (State.useChallenge s) := by
  unfold State.useChallenge
  repeat' first | with_reducible assumption | simp only [Keeps.mk_iff]

theorem failAuth_keeps {o : State} (s : State) (c : Cmd) (h : Keeps o s) : Keeps o (State.failAuth s c) := by
  unfold State.failAuth
  repeat' first
      | with_reducible assumption | with_reducible apply raise_keeps | with_reducible apply complete_keeps
      | with_reducible apply KeepsEff.ok | with_reducible apply KeepsEff.bad | with_reducible apply KeepsEff.fail

theorem wipeVault_keeps {o : State} (s : State) (h : Keeps o s) : Keeps o (State.wipeVault s) := by
  unfold State.wipeVault
  repeat' first | with_reducible assumption | with_reducible apply endSessions_keeps | simp only [Keeps.mk_iff]

theorem putKey_keeps {o : State} (s : State) (key : List Byte) (h : Keeps o s) : Keeps o (State.putKey s key) := by
  unfold State.putKey
  repeat' first
      | with_reducible assumption | with_reducible apply fset_keeps | with_reducible apply Keeps.ite
      | with_reducible apply KeepsOpt.some | with_reducible apply KeepsOpt.none | with_reducible apply KeepsOpt.ite
      | simp only [Keeps.mk_iff] | split

theorem runLcAdvance_keeps {o : State} (s : State) (c : Cmd) (h : Keeps o s) : Keeps o (State.runLcAdvance s c) := by
  unfold State.runLcAdvance
  repeat' first
      | with_reducible assumption | with_reducible intro _ | with_reducible apply complete_keeps
      | with_reducible apply useChallenge_keeps | with_reducible apply failAuth_keeps | with_reducible apply wipeVault_keeps
      | with_reducible apply putKey_keeps | with_reducible apply fset_keeps | with_reducible apply Keeps.ite
      | with_reducible apply KeepsEff.ok | with_reducible apply KeepsEff.bad | with_reducible apply KeepsEff.fail
      | with_reducible apply KeepsEff.ite | with_reducible apply KeepsOpt.some | with_reducible apply KeepsOpt.none
      | with_reducible apply KeepsOpt.ite | simp only [Keeps.mk_iff] | with_reducible refine Keeps.snd (by with_reducible assumption) ?_
      | with_reducible refine Keeps.fst (by with_reducible assumption) ?_
      | with_reducible refine KeepsOpt.get (by with_reducible assumption) ?_
      | with_reducible refine KeepsFault.get (by with_reducible assumption) ?_
      | with_reducible refine KeepsEff.get (by with_reducible assumption) ?_ | split

theorem execLcAdvance_keeps {o : State} (fn : ℕ) (ring : ℕ) (s : State) (h : Keeps o s) : KeepsOut o (execLcAdvance fn ring s) := by
  unfold execLcAdvance
  repeat' first
      | with_reducible assumption | with_reducible intro _ | with_reducible apply hostCmd_keeps
      | with_reducible apply runLcAdvance_keeps | with_reducible apply Keeps.ite | with_reducible apply KeepsFault.none
      | with_reducible apply KeepsFault.some | with_reducible apply KeepsFault.ite | with_reducible apply KeepsOut.next | split

theorem runChallenge_keeps {o : State} (s : State) (c : Cmd) (h : Keeps o s) : Keeps o (State.runChallenge s c) := by
  unfold State.runChallenge
  repeat' first
      | with_reducible assumption | with_reducible apply free1_keeps | with_reducible apply complete_keeps
      | with_reducible apply hostPut_keeps | with_reducible apply KeepsEff.ok | with_reducible apply KeepsEff.bad
      | with_reducible apply KeepsEff.fail | with_reducible apply KeepsOpt.some | with_reducible apply KeepsOpt.none
      | simp only [Keeps.mk_iff] | with_reducible refine Keeps.snd (by with_reducible assumption) ?_
      | with_reducible refine Keeps.fst (by with_reducible assumption) ?_
      | with_reducible refine KeepsOpt.get (by with_reducible assumption) ?_
      | with_reducible refine KeepsEff.get (by with_reducible assumption) ?_
      | with_reducible refine Keeps.third (by with_reducible assumption) ?_ | split

theorem execAuthChallenge_keeps {o : State} (fn : ℕ) (ring : ℕ) (s : State) (h : Keeps o s) : KeepsOut o (execAuthChallenge fn ring s) := by
  unfold execAuthChallenge
  repeat' first
      | with_reducible assumption | with_reducible intro _ | with_reducible apply hostCmd_keeps
      | with_reducible apply runChallenge_keeps | with_reducible apply KeepsFault.none | with_reducible apply KeepsFault.some
      | with_reducible apply KeepsOut.next

theorem runUnlock_keeps {o : State} (s : State) (c : Cmd) (h : Keeps o s) : Keeps o (State.runUnlock s c) := by
  unfold State.runUnlock
  repeat' first
      | with_reducible assumption | with_reducible apply complete_keeps | with_reducible apply useChallenge_keeps
      | with_reducible apply failAuth_keeps | with_reducible apply fset_keeps | with_reducible apply wipeVault_keeps
      | with_reducible apply Keeps.ite | with_reducible apply KeepsEff.ok | with_reducible apply KeepsEff.bad
      | with_reducible apply KeepsEff.fail | with_reducible apply KeepsEff.ite | with_reducible apply KeepsOpt.some
      | with_reducible apply KeepsOpt.none | with_reducible apply KeepsOpt.ite | simp only [Keeps.mk_iff]
      | with_reducible refine Keeps.snd (by with_reducible assumption) ?_
      | with_reducible refine Keeps.fst (by with_reducible assumption) ?_
      | with_reducible refine KeepsOpt.get (by with_reducible assumption) ?_
      | with_reducible refine KeepsFault.get (by with_reducible assumption) ?_
      | with_reducible refine KeepsEff.get (by with_reducible assumption) ?_ | split

theorem execDebugUnlock_keeps {o : State} (fn : ℕ) (ring : ℕ) (s : State) (h : Keeps o s) : KeepsOut o (execDebugUnlock fn ring s) := by
  unfold execDebugUnlock
  repeat' first
      | with_reducible assumption | with_reducible intro _ | with_reducible apply hostCmd_keeps
      | with_reducible apply runUnlock_keeps | with_reducible apply KeepsFault.none | with_reducible apply KeepsFault.some
      | with_reducible apply KeepsOut.next

theorem programNor_keeps {o : State} (s : State) (bs : List Byte) (h : Keeps o s) : Keeps o (State.programNor s bs) := by
  unfold State.programNor
  repeat' first | with_reducible assumption | simp only [Keeps.mk_iff]

theorem runFwUpdate_keeps {o : State} (s : State) (c : Cmd) (h : Keeps o s) : Keeps o (State.runFwUpdate s c) := by
  unfold State.runFwUpdate
  repeat' first
      | with_reducible assumption | with_reducible apply complete_keeps | with_reducible apply programNor_keeps
      | with_reducible apply Keeps.ite | with_reducible apply KeepsEff.ok | with_reducible apply KeepsEff.bad
      | with_reducible apply KeepsEff.fail | with_reducible apply KeepsEff.ite | split

theorem execFwUpdate_keeps {o : State} (fn : ℕ) (ring : ℕ) (s : State) (h : Keeps o s) : KeepsOut o (execFwUpdate fn ring s) := by
  unfold execFwUpdate
  repeat' first
      | with_reducible assumption | with_reducible intro _ | with_reducible apply hostCmd_keeps
      | with_reducible apply runFwUpdate_keeps | with_reducible apply Keeps.ite | with_reducible apply KeepsFault.none
      | with_reducible apply KeepsFault.some | with_reducible apply KeepsFault.ite | with_reducible apply KeepsOut.next | split

theorem execRecoveryChunk_keeps {o : State} (k : ℕ) (data : List Byte) (s : State) (h : Keeps o s) : KeepsOut o (execRecoveryChunk k data s) := by
  unfold execRecoveryChunk
  repeat' first
      | with_reducible assumption | with_reducible apply fset_keeps | with_reducible apply devWrite_keeps
      | with_reducible apply take_keeps | with_reducible apply Keeps.ite | with_reducible apply KeepsFault.none
      | with_reducible apply KeepsFault.some | with_reducible apply KeepsFault.ite | with_reducible apply KeepsOut.next
      | simp only [Keeps.mk_iff] | split

theorem recoverImage_keeps {o : State} (s : State) (h : Keeps o s) : Keeps o (State.recoverImage s) := by
  unfold State.recoverImage
  repeat' first
      | with_reducible assumption | with_reducible apply warm_keeps | with_reducible apply programNor_keeps
      | with_reducible apply fset_keeps | with_reducible apply Keeps.ite | split

theorem execRecoveryGo_keeps {o : State} (s : State) (h : Keeps o s) : KeepsOut o (execRecoveryGo s) := by
  unfold execRecoveryGo
  repeat' first
      | with_reducible assumption | with_reducible apply recoverImage_keeps | with_reducible apply KeepsFault.none
      | with_reducible apply KeepsFault.some | with_reducible apply KeepsOut.next

theorem runAttest_keeps {o : State} (s : State) (c : Cmd) (h : Keeps o s) : Keeps o (State.runAttest s c) := by
  unfold State.runAttest
  repeat' first
      | with_reducible assumption | with_reducible apply vaultFails_keeps | with_reducible apply complete_keeps
      | with_reducible apply hostPut_keeps | with_reducible apply Keeps.ite | with_reducible apply KeepsEff.ok
      | with_reducible apply KeepsEff.bad | with_reducible apply KeepsEff.fail | with_reducible apply KeepsEff.ite | split

theorem execAttestReport_keeps {o : State} (fn : ℕ) (ring : ℕ) (s : State) (h : Keeps o s) : KeepsOut o (execAttestReport fn ring s) := by
  unfold execAttestReport
  repeat' first
      | with_reducible assumption | with_reducible intro _ | with_reducible apply hostCmd_keeps
      | with_reducible apply runAttest_keeps | with_reducible apply Keeps.ite | with_reducible apply KeepsFault.none
      | with_reducible apply KeepsFault.some | with_reducible apply KeepsFault.ite | with_reducible apply KeepsOut.next | split

theorem doe_keeps {o : State} (s : State) (fn : ℕ) (code : ℕ) (req : List Byte) (view : List Byte) (h : Keeps o s) : Keeps o (State.doe s fn code req view) := by
  unfold State.doe
  repeat' first | with_reducible assumption | simp only [Keeps.mk_iff]

theorem spdm_keeps {o : State} (s : State) (fn : ℕ) (need : ℕ) (code : ℕ) (req : List Byte) (view : List Byte) (ok : Bool) (k : State → State) (h : Keeps o s) (h1 : ∀ x0, Keeps o x0 → Keeps o (k x0)) : Keeps o (State.spdm s fn need code req view ok k) := by
  induction fn generalizing s need code req view ok with
  | zero =>
    unfold State.spdm
    repeat' first
        | with_reducible assumption | with_reducible apply wake_keeps | with_reducible apply doe_keeps | with_reducible apply h1
        | with_reducible apply Keeps.ite | split
  | succ n ih =>
    unfold State.spdm
    repeat' first
        | with_reducible assumption | with_reducible apply ih | with_reducible apply wake_keeps | with_reducible apply doe_keeps
        | with_reducible apply h1 | with_reducible apply Keeps.ite | split

theorem setSpdm_keeps {o : State} (s : State) (fn : ℕ) (n : ℕ) (h : Keeps o s) : Keeps o (State.setSpdm s fn n) := by
  unfold State.setSpdm
  repeat' first | with_reducible assumption | with_reducible apply spdm_keeps | simp only [Keeps.mk_iff]

theorem execGetVersion_keeps {o : State} (fn : ℕ) (req : List Byte) (s : State) (h : Keeps o s) : KeepsOut o (execGetVersion fn req s) := by
  unfold execGetVersion
  repeat' first
      | with_reducible assumption | with_reducible intro _ | with_reducible apply spdm_keeps
      | with_reducible apply setSpdm_keeps | with_reducible apply KeepsFault.none | with_reducible apply KeepsFault.some
      | with_reducible apply KeepsOut.next

theorem execGetCapabilities_keeps {o : State} (fn : ℕ) (req : List Byte) (s : State) (h : Keeps o s) : KeepsOut o (execGetCapabilities fn req s) := by
  unfold execGetCapabilities
  repeat' first
      | with_reducible assumption | with_reducible intro _ | with_reducible apply spdm_keeps
      | with_reducible apply setSpdm_keeps | with_reducible apply KeepsFault.none | with_reducible apply KeepsFault.some
      | with_reducible apply KeepsOut.next

theorem execNegotiateAlgorithms_keeps {o : State} (fn : ℕ) (req : List Byte) (s : State) (h : Keeps o s) : KeepsOut o (execNegotiateAlgorithms fn req s) := by
  unfold execNegotiateAlgorithms
  repeat' first
      | with_reducible assumption | with_reducible intro _ | with_reducible apply spdm_keeps
      | with_reducible apply setSpdm_keeps | with_reducible apply KeepsFault.none | with_reducible apply KeepsFault.some
      | with_reducible apply KeepsOut.next

theorem execGetDigests_keeps {o : State} (fn : ℕ) (req : List Byte) (s : State) (h : Keeps o s) : KeepsOut o (execGetDigests fn req s) := by
  unfold execGetDigests
  repeat' first
      | with_reducible assumption | with_reducible apply spdm_keeps | with_reducible apply KeepsFault.none
      | with_reducible apply KeepsFault.some | with_reducible apply KeepsOut.next | with_reducible apply Keeps.id

theorem execGetCertificate_keeps {o : State} (fn : ℕ) (req : List Byte) (s : State) (h : Keeps o s) : KeepsOut o (execGetCertificate fn req s) := by
  unfold execGetCertificate
  repeat' first
      | with_reducible assumption | with_reducible apply spdm_keeps | with_reducible apply KeepsFault.none
      | with_reducible apply KeepsFault.some | with_reducible apply KeepsOut.next | with_reducible apply Keeps.id

theorem execChallenge_keeps {o : State} (fn : ℕ) (req : List Byte) (s : State) (h : Keeps o s) : KeepsOut o (execChallenge fn req s) := by
  unfold execChallenge
  repeat' first
      | with_reducible assumption | with_reducible apply spdm_keeps | with_reducible apply KeepsFault.none
      | with_reducible apply KeepsFault.some | with_reducible apply KeepsOut.next | with_reducible apply Keeps.id

theorem execGetMeasurements_keeps {o : State} (fn : ℕ) (req : List Byte) (s : State) (h : Keeps o s) : KeepsOut o (execGetMeasurements fn req s) := by
  unfold execGetMeasurements
  repeat' first
      | with_reducible assumption | with_reducible apply spdm_keeps | with_reducible apply KeepsFault.none
      | with_reducible apply KeepsFault.some | with_reducible apply KeepsOut.next | with_reducible apply Keeps.id

theorem modSession_keeps {o : State} (s : State) (fn : ℕ) (f : Session → Session) (h : Keeps o s) : Keeps o (State.modSession s fn f) := by
  unfold State.modSession
  repeat' first | with_reducible assumption | with_reducible intro _ | with_reducible apply modPart_keeps | simp only [Keeps.mk_iff]

theorem newKeys_keeps {o : State} (s : State) (fn : ℕ) (f : Session → Session) (h : Keeps o s) : Keeps o (State.newKeys s fn f) := by
  unfold State.newKeys
  repeat' first | with_reducible assumption | with_reducible intro _ | with_reducible apply modSession_keeps | simp only [Keeps.mk_iff]

theorem execKeyExchange_keeps {o : State} (fn : ℕ) (req : List Byte) (s : State) (h : Keeps o s) : KeepsOut o (execKeyExchange fn req s) := by
  unfold execKeyExchange
  repeat' first
      | with_reducible assumption | with_reducible intro _ | with_reducible apply spdm_keeps
      | with_reducible apply newKeys_keeps | with_reducible apply KeepsFault.none | with_reducible apply KeepsFault.some
      | with_reducible apply KeepsOut.next | simp only [Keeps.mk_iff]

theorem endOpenCapture_keeps {o : State} (s : State) (p : ℕ) (h : Keeps o s) : Keeps o (State.endOpenCapture s p) := by
  unfold State.endOpenCapture
  repeat' first | with_reducible assumption | with_reducible apply fset_keeps | with_reducible apply Keeps.ite | split

theorem execFinish_keeps {o : State} (fn : ℕ) (req : List Byte) (s : State) (h : Keeps o s) : KeepsOut o (execFinish fn req s) := by
  unfold execFinish
  repeat' first
      | with_reducible assumption | with_reducible intro _ | with_reducible apply spdm_keeps
      | with_reducible apply endOpenCapture_keeps | with_reducible apply fset_keeps | with_reducible apply modSession_keeps
      | with_reducible apply finish_keeps | with_reducible apply KeepsFault.none | with_reducible apply KeepsFault.some
      | with_reducible apply KeepsOut.next | simp only [Keeps.mk_iff]

theorem execKeyUpdate_keeps {o : State} (fn : ℕ) (req : List Byte) (s : State) (h : Keeps o s) : KeepsOut o (execKeyUpdate fn req s) := by
  unfold execKeyUpdate
  repeat' first
      | with_reducible assumption | with_reducible intro _ | with_reducible apply spdm_keeps | with_reducible apply finc_keeps
      | with_reducible apply newKeys_keeps | with_reducible apply KeepsFault.none | with_reducible apply KeepsFault.some
      | with_reducible apply KeepsOut.next | simp only [Keeps.mk_iff]

theorem execEndSession_keeps {o : State} (fn : ℕ) (req : List Byte) (s : State) (h : Keeps o s) : KeepsOut o (execEndSession fn req s) := by
  unfold execEndSession
  repeat' first
      | with_reducible assumption | with_reducible intro _ | with_reducible apply proceedAll_keeps
      | with_reducible apply spdm_keeps | with_reducible apply settle_keeps | with_reducible apply disableVf_keeps
      | with_reducible apply endSession_keeps | with_reducible apply KeepsFault.none | with_reducible apply KeepsFault.some
      | with_reducible apply KeepsOut.next

end Sys2Proof.Machine
end

