-- ==== Sys2Proof/Laws/KeepsPower.lean ====
section
/-!
SUPPORT. What no operation of Machine/Power.lean does (Laws/Keeps.lean).
-/

set_option Elab.async false

namespace Sys2Proof.Machine

theorem startLasting_keeps {o : State} (s : State) (source : ℕ) (key : ℕ) (kind : ℕ) (inst : ℕ) (info : ℕ) (h : Keeps o s) : Keeps o (State.startLasting s source key kind inst info) := by
  unfold State.startLasting
  repeat' first
      | with_reducible assumption | with_reducible apply raise_keeps | with_reducible apply Keeps.ite | simp only [Keeps.mk_iff]
      | split

theorem endLasting_keeps {o : State} (s : State) (source : ℕ) (key : ℕ) (h : Keeps o s) : Keeps o (State.endLasting s source key) := by
  unfold State.endLasting
  repeat' first | with_reducible assumption | with_reducible intro _ | simp only [Keeps.mk_iff]

theorem dutyDown_keeps {o : State} (s : State) (h : Keeps o s) : Keeps o (State.dutyDown s) := by
  unfold State.dutyDown
  repeat' first | with_reducible assumption | with_reducible apply fset_keeps

theorem showThrottle_keeps {o : State} (s : State) (h : Keeps o s) : Keeps o (State.showThrottle s) := by
  unfold State.showThrottle
  repeat' first
      | with_reducible assumption | with_reducible apply fset_keeps | with_reducible apply powerEvent_keeps
      | with_reducible apply Keeps.ite | split

theorem showCapping_keeps {o : State} (s : State) (on : Bool) (h : Keeps o s) : Keeps o (State.showCapping s on) := by
  unfold State.showCapping
  repeat' first
      | with_reducible assumption | with_reducible apply fset_keeps | with_reducible apply powerEvent_keeps
      | with_reducible apply Keeps.ite | split

theorem countUs_keeps {o : State} (s : State) (n : ℕ) (h : Keeps o s) : Keeps o (State.countUs s n) := by
  unfold State.countUs
  repeat' first | with_reducible assumption | with_reducible apply finc_keeps

theorem tickDown_keeps {o : State} (s : State) (mean : ℕ) (h : Keeps o s) : Keeps o (State.tickDown s mean) := by
  unfold State.tickDown
  repeat' first
      | with_reducible assumption | with_reducible apply showCapping_keeps | with_reducible apply countUs_keeps
      | with_reducible apply dutyDown_keeps | with_reducible apply Keeps.ite | split

theorem tickUp_keeps {o : State} (s : State) (mean : ℕ) (h : Keeps o s) : Keeps o (State.tickUp s mean) := by
  unfold State.tickUp
  repeat' first | with_reducible assumption | with_reducible apply fset_keeps | with_reducible apply Keeps.ite | split

theorem execPowerCapAdjust_keeps {o : State} (meanWatts : ℕ) (slow : Bool) (s : State) (h : Keeps o s) : KeepsOut o (execPowerCapAdjust meanWatts slow s) := by
  unfold execPowerCapAdjust
  repeat' first
      | with_reducible assumption | with_reducible apply tickUp_keeps | with_reducible apply tickDown_keeps
      | with_reducible apply Keeps.ite | with_reducible apply KeepsFault.none | with_reducible apply KeepsFault.some
      | with_reducible apply KeepsFault.ite | with_reducible apply KeepsOut.next | split

theorem execPowerPeakLimit_keeps {o : State} (watts : ℕ) (centiamps : ℕ) (s : State) (h : Keeps o s) : KeepsOut o (execPowerPeakLimit watts centiamps s) := by
  unfold execPowerPeakLimit
  repeat' first
      | with_reducible assumption | with_reducible apply fset_keeps | with_reducible apply showCapping_keeps
      | with_reducible apply Keeps.ite | with_reducible apply KeepsFault.none | with_reducible apply KeepsFault.some
      | with_reducible apply KeepsFault.ite | with_reducible apply KeepsOut.next | split

theorem execThermalThrottle_keeps {o : State} (stack : Option ℕ) (celsius : ℕ) (s : State) (h : Keeps o s) : KeepsOut o (execThermalThrottle stack celsius s) := by
  unfold execThermalThrottle
  repeat' first
      | with_reducible assumption | with_reducible apply fset_keeps | with_reducible apply showThrottle_keeps
      | with_reducible apply raise_keeps | with_reducible apply dutyDown_keeps | with_reducible apply Keeps.ite
      | with_reducible apply KeepsOpt.some | with_reducible apply KeepsOpt.none | with_reducible apply KeepsOpt.ite
      | with_reducible apply KeepsFault.none | with_reducible apply KeepsFault.some | with_reducible apply KeepsFault.ite
      | with_reducible apply KeepsOut.next | simp only [Keeps.mk_iff] | with_reducible refine Keeps.snd (by with_reducible assumption) ?_
      | with_reducible refine Keeps.fst (by with_reducible assumption) ?_
      | with_reducible refine KeepsOpt.get (by with_reducible assumption) ?_
      | with_reducible refine KeepsFault.get (by with_reducible assumption) ?_ | split

theorem execLimit105_keeps {o : State} (celsius : ℕ) (s : State) (h : Keeps o s) : KeepsOut o (execLimit105 celsius s) := by
  unfold execLimit105
  repeat' first
      | with_reducible assumption | with_reducible apply fset_keeps | with_reducible apply powerEvent_keeps
      | with_reducible apply showThrottle_keeps | with_reducible apply Keeps.ite | with_reducible apply KeepsFault.none
      | with_reducible apply KeepsFault.some | with_reducible apply KeepsFault.ite | with_reducible apply KeepsOut.next
      | simp only [Keeps.mk_iff] | split

theorem execThermalTrip_keeps {o : State} (stack : Option ℕ) (celsius : ℕ) (s : State) (h : Keeps o s) : KeepsOut o (execThermalTrip stack celsius s) := by
  unfold execThermalTrip
  repeat' first
      | with_reducible assumption | with_reducible apply startLasting_keeps | with_reducible apply fset_keeps
      | with_reducible apply Keeps.ite | with_reducible apply KeepsOpt.some | with_reducible apply KeepsOpt.none
      | with_reducible apply KeepsOpt.ite | with_reducible apply KeepsFault.none | with_reducible apply KeepsFault.some
      | with_reducible apply KeepsFault.ite | with_reducible apply KeepsOut.next | simp only [Keeps.mk_iff]
      | with_reducible refine Keeps.snd (by with_reducible assumption) ?_
      | with_reducible refine Keeps.fst (by with_reducible assumption) ?_
      | with_reducible refine KeepsOpt.get (by with_reducible assumption) ?_
      | with_reducible refine KeepsFault.get (by with_reducible assumption) ?_ | split

theorem execHbmRefreshDouble_keeps {o : State} (stack : ℕ) (celsius : ℕ) (s : State) (h : Keeps o s) : KeepsOut o (execHbmRefreshDouble stack celsius s) := by
  unfold execHbmRefreshDouble
  repeat' first
      | with_reducible assumption | with_reducible apply Keeps.ite | with_reducible apply KeepsFault.none
      | with_reducible apply KeepsFault.some | with_reducible apply KeepsFault.ite | with_reducible apply KeepsOut.next
      | simp only [Keeps.mk_iff] | split

theorem execTemperatureRecovered_keeps {o : State} (stack : Option ℕ) (celsius : ℕ) (s : State) (h : Keeps o s) : KeepsOut o (execTemperatureRecovered stack celsius s) := by
  unfold execTemperatureRecovered
  repeat' first
      | with_reducible assumption | with_reducible apply fset_keeps | with_reducible apply showThrottle_keeps
      | with_reducible apply endLasting_keeps | with_reducible apply Keeps.ite | with_reducible apply KeepsOpt.some
      | with_reducible apply KeepsOpt.none | with_reducible apply KeepsOpt.ite | with_reducible apply KeepsFault.none
      | with_reducible apply KeepsFault.some | with_reducible apply KeepsFault.ite | with_reducible apply KeepsOut.next
      | simp only [Keeps.mk_iff] | with_reducible refine Keeps.snd (by with_reducible assumption) ?_
      | with_reducible refine Keeps.fst (by with_reducible assumption) ?_
      | with_reducible refine KeepsOpt.get (by with_reducible assumption) ?_
      | with_reducible refine KeepsFault.get (by with_reducible assumption) ?_ | split

theorem sagFlash_keeps {o : State} (s : State) (h : Keeps o s) : Keeps o (State.sagFlash s) := by
  unfold State.sagFlash
  repeat' first
      | with_reducible assumption | with_reducible intro _ | with_reducible apply dropBuddies_keeps
      | with_reducible apply endFlash_keeps | with_reducible apply Keeps.ite | with_reducible apply KeepsOpt.some
      | with_reducible apply KeepsOpt.none | with_reducible apply KeepsOpt.ite | with_reducible refine Keeps.foldl (fun s x h => ?_) _ ?_
      | simp only [Keeps.mk_iff] | with_reducible refine Keeps.snd (by with_reducible assumption) ?_
      | with_reducible refine Keeps.fst (by with_reducible assumption) ?_
      | with_reducible refine KeepsOpt.get (by with_reducible assumption) ?_ | split

theorem execSupplySag_keeps {o : State} (centivolts : ℕ) (s : State) (h : Keeps o s) : KeepsOut o (execSupplySag centivolts s) := by
  unfold execSupplySag
  repeat' first
      | with_reducible assumption | with_reducible apply powerEvent_keeps | with_reducible apply finc_keeps
      | with_reducible apply fset_keeps | with_reducible apply proceedAll_keeps | with_reducible apply raise_keeps
      | with_reducible apply sagFlash_keeps | with_reducible apply Keeps.ite | with_reducible apply KeepsFault.none
      | with_reducible apply KeepsFault.some | with_reducible apply KeepsFault.ite | with_reducible apply KeepsOut.next | split

theorem execSagEnd_keeps {o : State} (centivolts : ℕ) (s : State) (h : Keeps o s) : KeepsOut o (execSagEnd centivolts s) := by
  unfold execSagEnd
  repeat' first
      | with_reducible assumption | with_reducible apply powerEvent_keeps | with_reducible apply fset_keeps
      | with_reducible apply Keeps.ite | with_reducible apply KeepsFault.none | with_reducible apply KeepsFault.some
      | with_reducible apply KeepsFault.ite | with_reducible apply KeepsOut.next | split

theorem execSupplyUnder_keeps {o : State} (centivolts : ℕ) (s : State) (h : Keeps o s) : KeepsOut o (execSupplyUnder centivolts s) := by
  unfold execSupplyUnder
  repeat' first
      | with_reducible assumption | with_reducible apply startLasting_keeps | with_reducible apply fset_keeps
      | with_reducible apply settle_keeps | with_reducible apply startQuiet_keeps | with_reducible apply enterSafe_keeps
      | with_reducible apply Keeps.ite | with_reducible apply KeepsFault.none | with_reducible apply KeepsFault.some
      | with_reducible apply KeepsFault.ite | with_reducible apply KeepsOut.next | split

theorem execSupplyUnderEnd_keeps {o : State} (centivolts : ℕ) (s : State) (h : Keeps o s) : KeepsOut o (execSupplyUnderEnd centivolts s) := by
  unfold execSupplyUnderEnd
  repeat' first
      | with_reducible assumption | with_reducible apply endLasting_keeps | with_reducible apply fset_keeps
      | with_reducible apply Keeps.ite | with_reducible apply KeepsFault.none | with_reducible apply KeepsFault.some
      | with_reducible apply KeepsFault.ite | with_reducible apply KeepsOut.next | split

theorem execLeak_keeps {o : State} (s : State) (h : Keeps o s) : KeepsOut o (execLeak s) := by
  unfold execLeak
  repeat' first
      | with_reducible assumption | with_reducible apply startLasting_keeps | with_reducible apply fset_keeps
      | with_reducible apply Keeps.ite | with_reducible apply KeepsFault.none | with_reducible apply KeepsFault.some
      | with_reducible apply KeepsFault.ite | with_reducible apply KeepsOut.next | split

theorem execLeakCleared_keeps {o : State} (s : State) (h : Keeps o s) : KeepsOut o (execLeakCleared s) := by
  unfold execLeakCleared
  repeat' first
      | with_reducible assumption | with_reducible apply endLasting_keeps | with_reducible apply fset_keeps
      | with_reducible apply Keeps.ite | with_reducible apply KeepsFault.none | with_reducible apply KeepsFault.some
      | with_reducible apply KeepsFault.ite | with_reducible apply KeepsOut.next | split

theorem execPllUnlock_keeps {o : State} (pll : ℕ) (s : State) (h : Keeps o s) : KeepsOut o (execPllUnlock pll s) := by
  unfold execPllUnlock
  repeat' first
      | with_reducible assumption | with_reducible apply startLasting_keeps | with_reducible apply fset_keeps
      | with_reducible apply Keeps.ite | with_reducible apply KeepsOpt.some | with_reducible apply KeepsOpt.none
      | with_reducible apply KeepsOpt.ite | with_reducible apply KeepsFault.none | with_reducible apply KeepsFault.some
      | with_reducible apply KeepsFault.ite | with_reducible apply KeepsOut.next | simp only [Keeps.mk_iff]
      | with_reducible refine Keeps.snd (by with_reducible assumption) ?_
      | with_reducible refine Keeps.fst (by with_reducible assumption) ?_
      | with_reducible refine KeepsOpt.get (by with_reducible assumption) ?_
      | with_reducible refine KeepsFault.get (by with_reducible assumption) ?_ | split

theorem execPllLockRegained_keeps {o : State} (pll : ℕ) (s : State) (h : Keeps o s) : KeepsOut o (execPllLockRegained pll s) := by
  unfold execPllLockRegained
  repeat' first
      | with_reducible assumption | with_reducible apply endLasting_keeps | with_reducible apply fset_keeps
      | with_reducible apply Keeps.ite | with_reducible apply KeepsOpt.some | with_reducible apply KeepsOpt.none
      | with_reducible apply KeepsOpt.ite | with_reducible apply KeepsFault.none | with_reducible apply KeepsFault.some
      | with_reducible apply KeepsFault.ite | with_reducible apply KeepsOut.next | simp only [Keeps.mk_iff]
      | with_reducible refine Keeps.snd (by with_reducible assumption) ?_
      | with_reducible refine Keeps.fst (by with_reducible assumption) ?_
      | with_reducible refine KeepsOpt.get (by with_reducible assumption) ?_
      | with_reducible refine KeepsFault.get (by with_reducible assumption) ?_ | split

theorem readAspm_keeps {o : State} (s : State) (h : Keeps o s) : Keeps o (State.readAspm s) := by
  unfold State.readAspm
  repeat' first
      | with_reducible assumption | with_reducible apply free1_keeps | simp only [Keeps.mk_iff]
      | with_reducible refine Keeps.snd (by with_reducible assumption) ?_
      | with_reducible refine Keeps.fst (by with_reducible assumption) ?_
      | with_reducible refine Keeps.third (by with_reducible assumption) ?_ | split

theorem execIdleEntry_keeps {o : State} (s : State) (h : Keeps o s) : KeepsOut o (execIdleEntry s) := by
  unfold execIdleEntry
  repeat' first
      | with_reducible assumption | with_reducible apply powerTo_keeps | with_reducible apply readAspm_keeps
      | with_reducible apply Keeps.ite | with_reducible apply KeepsFault.none | with_reducible apply KeepsFault.some
      | with_reducible apply KeepsFault.ite | with_reducible apply KeepsOut.next | split

theorem pumpAll_keeps {o : State} (s : State) (h : Keeps o s) : Keeps o (State.pumpAll s) := by
  unfold State.pumpAll
  repeat' first
      | with_reducible assumption | with_reducible intro _ | with_reducible apply pump_keeps
      | with_reducible refine Keeps.foldl (fun s x h => ?_) _ ?_

theorem execIdleWake_keeps {o : State} (s : State) (h : Keeps o s) : KeepsOut o (execIdleWake s) := by
  unfold execIdleWake
  repeat' first
      | with_reducible assumption | with_reducible apply pumpAll_keeps | with_reducible apply wake_keeps
      | with_reducible apply KeepsFault.none | with_reducible apply KeepsFault.some | with_reducible apply KeepsOut.next

end Sys2Proof.Machine
end

