-- ==== Sys2Proof/Laws/KeepsManage.lean ====
section
/-!
SUPPORT. What no operation of Machine/Manage.lean does (Laws/Keeps.lean).
-/

set_option Elab.async false

namespace Sys2Proof.Machine

theorem showAlert_keeps {o : State} (s : State) (h : Keeps o s) : Keeps o (State.showAlert s) := by
  unfold State.showAlert
  repeat' first | with_reducible assumption | with_reducible intro _ | simp only [Keeps.mk_iff]

theorem bmc_keeps {o : State} (s : State) (kind : ℕ) (req : List Byte) (view : List ℕ) (h : Keeps o s) : Keeps o (State.bmc s kind req view) := by
  unfold State.bmc
  repeat' first | with_reducible assumption | simp only [Keeps.mk_iff]

theorem showReading_keeps {o : State} (s : State) (n : ℕ) (value : ℕ) (h : Keeps o s) : Keeps o (State.showReading s n value) := by
  unfold State.showReading
  repeat' first | with_reducible assumption | with_reducible apply fset_keeps | with_reducible apply Keeps.ite | split

theorem execSensorUpdate_keeps {o : State} (sensor : ℕ) (value : ℕ) (s : State) (h : Keeps o s) : KeepsOut o (execSensorUpdate sensor value s) := by
  unfold execSensorUpdate
  repeat' first
      | with_reducible assumption | with_reducible apply showAlert_keeps | with_reducible apply showReading_keeps
      | with_reducible apply bmc_keeps | with_reducible apply Keeps.ite | with_reducible apply KeepsFault.none
      | with_reducible apply KeepsFault.some | with_reducible apply KeepsFault.ite | with_reducible apply KeepsOut.next
      | simp only [Keeps.mk_iff] | split

theorem execMctpControlMessage_keeps {o : State} (req : List Byte) (s : State) (h : Keeps o s) : KeepsOut o (execMctpControlMessage req s) := by
  unfold execMctpControlMessage
  repeat' first
      | with_reducible assumption | with_reducible apply bmc_keeps | with_reducible apply Keeps.ite
      | with_reducible apply KeepsOpt.some | with_reducible apply KeepsOpt.none | with_reducible apply KeepsOpt.ite
      | with_reducible apply KeepsFault.none | with_reducible apply KeepsFault.some | with_reducible apply KeepsFault.ite
      | with_reducible apply KeepsOut.next | simp only [Keeps.mk_iff] | with_reducible refine Keeps.snd (by with_reducible assumption) ?_
      | with_reducible refine Keeps.fst (by with_reducible assumption) ?_
      | with_reducible refine KeepsOpt.get (by with_reducible assumption) ?_
      | with_reducible refine KeepsFault.get (by with_reducible assumption) ?_ | split

theorem execPldmBaseRequest_keeps {o : State} (req : List Byte) (s : State) (h : Keeps o s) : KeepsOut o (execPldmBaseRequest req s) := by
  unfold execPldmBaseRequest
  repeat' first
      | with_reducible assumption | with_reducible apply bmc_keeps | with_reducible apply Keeps.ite
      | with_reducible apply KeepsFault.none | with_reducible apply KeepsFault.some | with_reducible apply KeepsFault.ite
      | with_reducible apply KeepsOut.next | split

theorem execPldmPlatformRequest_keeps {o : State} (req : List Byte) (s : State) (h : Keeps o s) : KeepsOut o (execPldmPlatformRequest req s) := by
  unfold execPldmPlatformRequest
  repeat' first
      | with_reducible assumption | with_reducible intro _ | with_reducible apply bmc_keeps | with_reducible apply Keeps.ite
      | with_reducible apply KeepsFault.none | with_reducible apply KeepsFault.some | with_reducible apply KeepsFault.ite
      | with_reducible refine KeepsFault.map (fun x => ?_) | with_reducible refine KeepsOpt.map ?_ (fun s h => ?_)
      | with_reducible refine KeepsOpt.of (fun x => ?_) | with_reducible apply KeepsOut.next | split

theorem execPldmFruRequest_keeps {o : State} (req : List Byte) (s : State) (h : Keeps o s) : KeepsOut o (execPldmFruRequest req s) := by
  unfold execPldmFruRequest
  repeat' first
      | with_reducible assumption | with_reducible apply bmc_keeps | with_reducible apply Keeps.ite
      | with_reducible apply KeepsFault.none | with_reducible apply KeepsFault.some | with_reducible apply KeepsFault.ite
      | with_reducible apply KeepsOut.next | split

theorem execMgmtMessage_keeps {o : State} (p : ℕ) (m : Msg) (s : State) (h : Keeps o s) : KeepsOut o (execMgmtMessage p m s) := by
  unfold execMgmtMessage
  repeat' first
      | with_reducible assumption | with_reducible apply onMsg_keeps | with_reducible apply KeepsFault.none
      | with_reducible apply KeepsFault.some | with_reducible apply KeepsOut.next | with_reducible apply Keeps.id

theorem armReplay_keeps {o : State} (s : State) (p : ℕ) (h : Keeps o s) : Keeps o (State.armReplay s p) := by
  unfold State.armReplay
  repeat' first | with_reducible assumption | with_reducible apply fset_keeps | with_reducible apply Keeps.ite | split

theorem disarmReplay_keeps {o : State} (s : State) (p : ℕ) (h : Keeps o s) : Keeps o (State.disarmReplay s p) := by
  unfold State.disarmReplay
  repeat' first | with_reducible assumption | with_reducible apply fset_keeps | with_reducible apply Keeps.ite | split

theorem execReplayArm_keeps {o : State} (p : ℕ) (s : State) (h : Keeps o s) : KeepsOut o (execReplayArm p s) := by
  unfold execReplayArm
  repeat' first
      | with_reducible assumption | with_reducible apply armReplay_keeps | with_reducible apply wake_keeps
      | with_reducible apply Keeps.ite | with_reducible apply KeepsFault.none | with_reducible apply KeepsFault.some
      | with_reducible apply KeepsFault.ite | with_reducible apply KeepsOut.next | split

theorem execReplayDisarm_keeps {o : State} (p : ℕ) (s : State) (h : Keeps o s) : KeepsOut o (execReplayDisarm p s) := by
  unfold execReplayDisarm
  repeat' first
      | with_reducible assumption | with_reducible apply disarmReplay_keeps | with_reducible apply wake_keeps
      | with_reducible apply Keeps.ite | with_reducible apply KeepsFault.none | with_reducible apply KeepsFault.some
      | with_reducible apply KeepsFault.ite | with_reducible apply KeepsOut.next | split

theorem appendRecord_keeps {o : State} (s : State) (p : ℕ) (bs : List Byte) (h : Keeps o s) : Keeps o (State.appendRecord s p bs) := by
  unfold State.appendRecord
  repeat' first
      | with_reducible assumption | with_reducible apply detect_keeps | with_reducible apply finc_keeps
      | with_reducible apply devWrite_keeps | with_reducible apply fset_keeps | with_reducible apply Keeps.ite
      | with_reducible apply KeepsOpt.some | with_reducible apply KeepsOpt.none | with_reducible apply KeepsOpt.ite
      | simp only [Keeps.mk_iff] | with_reducible refine Keeps.snd (by with_reducible assumption) ?_
      | with_reducible refine Keeps.fst (by with_reducible assumption) ?_
      | with_reducible refine KeepsOpt.get (by with_reducible assumption) ?_ | split

theorem execReplayRecordMessage_keeps {o : State} (p : ℕ) (m : Msg) (s : State) (h : Keeps o s) : KeepsOut o (execReplayRecordMessage p m s) := by
  unfold execReplayRecordMessage
  repeat' first
      | with_reducible assumption | with_reducible intro _ | with_reducible apply onMsg_keeps
      | with_reducible apply appendRecord_keeps | with_reducible apply KeepsFault.none | with_reducible apply KeepsFault.some
      | with_reducible apply KeepsOut.next

end Sys2Proof.Machine
end

