-- ==== Sys2Proof/Laws/KeepsRegMap.lean ====
section
/-!
SUPPORT. What no operation of Machine/RegMap.lean does (Laws/Keeps.lean).
-/

set_option Elab.async false

namespace Sys2Proof.Machine

end Sys2Proof.Machine
end

