-- ==== Sys2Proof/Laws/KeepsRegs.lean ====
section
/-!
SUPPORT. What no operation of Machine/Regs.lean does (Laws/Keeps.lean).
-/

set_option Elab.async false

namespace Sys2Proof.Machine

theorem enableSq_keeps {o : State} (s : State) (fn : ℕ) (ring : ℕ) (h : Keeps o s) : Keeps o (State.enableSq s fn ring) := by
  unfold State.enableSq
  repeat' first
      | with_reducible assumption | with_reducible intro _ | with_reducible apply modRing_keeps
      | with_reducible apply fset_keeps | with_reducible apply Keeps.ite | simp only [Keeps.mk_iff] | split

theorem enableCq_keeps {o : State} (s : State) (fn : ℕ) (ring : ℕ) (h : Keeps o s) : Keeps o (State.enableCq s fn ring) := by
  unfold State.enableCq
  repeat' first
      | with_reducible assumption | with_reducible intro _ | with_reducible apply fset_keeps
      | with_reducible apply modRing_keeps | with_reducible apply postHeld_keeps | with_reducible apply Keeps.ite
      | simp only [Keeps.mk_iff] | split

theorem execRingEnable_keeps {o : State} (fn : ℕ) (ring : ℕ) (cq : Bool) (s : State) (h : Keeps o s) : KeepsOut o (execRingEnable fn ring cq s) := by
  unfold execRingEnable
  repeat' first
      | with_reducible assumption | with_reducible apply enableCq_keeps | with_reducible apply wake_keeps
      | with_reducible apply enableSq_keeps | with_reducible apply Keeps.ite | with_reducible apply KeepsFault.none
      | with_reducible apply KeepsFault.some | with_reducible apply KeepsFault.ite | with_reducible apply KeepsOut.next | split

theorem ringBell_keeps {o : State} (s : State) (fn : ℕ) (ring : ℕ) (value : ℕ) (h : Keeps o s) : Keeps o (State.ringBell s fn ring value) := by
  unfold State.ringBell
  repeat' first
      | with_reducible assumption | with_reducible intro _ | with_reducible apply raise_keeps
      | with_reducible apply modRing_keeps | with_reducible apply Keeps.ite | simp only [Keeps.mk_iff] | split

theorem execDoorbellWrite_keeps {o : State} (fn : ℕ) (ring : ℕ) (value : ℕ) (s : State) (h : Keeps o s) : KeepsOut o (execDoorbellWrite fn ring value s) := by
  unfold execDoorbellWrite
  repeat' first
      | with_reducible assumption | with_reducible apply ringBell_keeps | with_reducible apply wake_keeps
      | with_reducible apply Keeps.ite | with_reducible apply KeepsFault.none | with_reducible apply KeepsFault.some
      | with_reducible apply KeepsFault.ite | with_reducible apply KeepsOut.next | split

theorem setCqHead_keeps {o : State} (s : State) (fn : ℕ) (ring : ℕ) (value : ℕ) (h : Keeps o s) : Keeps o (State.setCqHead s fn ring value) := by
  unfold State.setCqHead
  repeat' first
      | with_reducible assumption | with_reducible intro _ | with_reducible apply fset_keeps
      | with_reducible apply modRing_keeps | with_reducible apply postHeld_keeps | with_reducible apply Keeps.ite
      | simp only [Keeps.mk_iff] | split

theorem execCqHeadWrite_keeps {o : State} (fn : ℕ) (ring : ℕ) (value : ℕ) (s : State) (h : Keeps o s) : KeepsOut o (execCqHeadWrite fn ring value s) := by
  unfold execCqHeadWrite
  repeat' first
      | with_reducible assumption | with_reducible apply setCqHead_keeps | with_reducible apply wake_keeps
      | with_reducible apply Keeps.ite | with_reducible apply KeepsFault.none | with_reducible apply KeepsFault.some
      | with_reducible apply KeepsFault.ite | with_reducible apply KeepsOut.next | split

theorem execCoalesceTimeout_keeps {o : State} (fn : ℕ) (ring : ℕ) (s : State) (h : Keeps o s) : KeepsOut o (execCoalesceTimeout fn ring s) := by
  unfold execCoalesceTimeout
  repeat' first
      | with_reducible assumption | with_reducible intro _ | with_reducible apply interrupt_keeps
      | with_reducible apply modRing_keeps | with_reducible apply Keeps.ite | with_reducible apply KeepsFault.none
      | with_reducible apply KeepsFault.some | with_reducible apply KeepsFault.ite | with_reducible apply KeepsOut.next
      | simp only [Keeps.mk_iff] | split

theorem writeSqCfg_keeps {o : State} (s : State) (r : ℕ) (v : ℕ) (h : Keeps o s) : Keeps o (State.writeSqCfg s r v) := by
  unfold State.writeSqCfg
  repeat' first
      | with_reducible assumption | with_reducible apply fset_keeps | with_reducible apply enableSq_keeps
      | with_reducible apply Keeps.ite | split

theorem writeCqCfg_keeps {o : State} (s : State) (r : ℕ) (v : ℕ) (h : Keeps o s) : Keeps o (State.writeCqCfg s r v) := by
  unfold State.writeCqCfg
  repeat' first
      | with_reducible assumption | with_reducible apply fset_keeps | with_reducible apply enableCq_keeps
      | with_reducible apply Keeps.ite | split

theorem writeHalf_keeps {o : State} (s : State) (f : Fld) (i : ℕ) (v : ℕ) (upper : Bool) (h : Keeps o s) : Keeps o (State.writeHalf s f i v upper) := by
  unfold State.writeHalf
  repeat' first | with_reducible assumption | with_reducible apply fset_keeps | with_reducible apply Keeps.ite | split

theorem writeRing_keeps {o : State} (s : State) (r : ℕ) (o_ : ℕ) (v : ℕ) (h : Keeps o s) : Keeps o (State.writeRing s r o_ v) := by
  unfold State.writeRing
  repeat' first
      | with_reducible assumption | with_reducible apply writeHalf_keeps | with_reducible apply writeSqCfg_keeps
      | with_reducible apply writeCqCfg_keeps | with_reducible apply setCqHead_keeps | with_reducible apply fset_keeps
      | with_reducible apply Keeps.ite | split

theorem writeQuiesce_keeps {o : State} (s : State) (p : ℕ) (value : ℕ) (h : Keeps o s) : Keeps o (State.writeQuiesce s p value) := by
  unfold State.writeQuiesce
  repeat' first
      | with_reducible assumption | with_reducible intro _ | with_reducible apply startDrain_keeps
      | with_reducible apply fset_keeps | with_reducible apply modPart_keeps | with_reducible apply Keeps.ite | simp only [Keeps.mk_iff]
      | split

theorem execQuiesceWrite_keeps {o : State} (p : ℕ) (value : ℕ) (s : State) (h : Keeps o s) : KeepsOut o (execQuiesceWrite p value s) := by
  unfold execQuiesceWrite
  repeat' first
      | with_reducible assumption | with_reducible apply proceedAll_keeps | with_reducible apply settle_keeps
      | with_reducible apply writeQuiesce_keeps | with_reducible apply wake_keeps | with_reducible apply Keeps.ite
      | with_reducible apply KeepsFault.none | with_reducible apply KeepsFault.some | with_reducible apply KeepsFault.ite
      | with_reducible apply KeepsOut.next | split

theorem seqRestIdle_keeps {o : State} (s : State) (b : ℕ) (h : Keeps o s) : Keeps o (State.seqRestIdle s b) := by
  unfold State.seqRestIdle
  repeat' first | with_reducible assumption | with_reducible apply seqRest_keeps | with_reducible apply Keeps.ite

theorem writeKvCtrl_keeps {o : State} (s : State) (b : ℕ) (value : ℕ) (h : Keeps o s) : Keeps o (State.writeKvCtrl s b value) := by
  unfold State.writeKvCtrl
  repeat' first
      | with_reducible assumption | with_reducible intro _ | with_reducible apply fset_keeps | with_reducible apply seqRestIdle_keeps
      | with_reducible apply Keeps.ite
      | with_reducible apply KeepsOpt.some | with_reducible apply KeepsOpt.none | with_reducible apply KeepsOpt.ite
      | with_reducible refine Keeps.foldl (fun s x h => ?_) _ ?_ | simp only [Keeps.mk_iff]
      | with_reducible refine Keeps.snd (by with_reducible assumption) ?_
      | with_reducible refine Keeps.fst (by with_reducible assumption) ?_
      | with_reducible refine KeepsOpt.get (by with_reducible assumption) ?_ | split

theorem execKvCtrlWrite_keeps {o : State} (fn : ℕ) (b : ℕ) (value : ℕ) (s : State) (h : Keeps o s) : KeepsOut o (execKvCtrlWrite fn b value s) := by
  unfold execKvCtrlWrite
  repeat' first
      | with_reducible assumption | with_reducible apply writeKvCtrl_keeps | with_reducible apply wake_keeps
      | with_reducible apply Keeps.ite | with_reducible apply KeepsFault.none | with_reducible apply KeepsFault.some
      | with_reducible apply KeepsFault.ite | with_reducible apply KeepsOut.next | split

theorem putArea_keeps {o : State} (s : State) (b : ℕ) (area : ℕ) (size : ℕ) (h : Keeps o s) : Keeps o (State.putArea s b area size) := by
  unfold State.putArea
  exact seqRestIdle_keeps _ _ (fset_keeps (fset_keeps h _ _ _) _ _ _)

theorem writeArea_keeps {o : State} (s : State) (b : ℕ) (area : ℕ) (size : ℕ) (h : Keeps o s) : Keeps o (State.writeArea s b area size) := by
  unfold State.writeArea
  repeat' first
      | with_reducible assumption | with_reducible apply putArea_keeps | with_reducible apply Keeps.ite
      | with_reducible apply KeepsOpt.some | with_reducible apply KeepsOpt.none | with_reducible apply KeepsOpt.ite
      | simp only [Keeps.mk_iff] | with_reducible refine Keeps.snd (by with_reducible assumption) ?_
      | with_reducible refine Keeps.fst (by with_reducible assumption) ?_
      | with_reducible refine KeepsOpt.get (by with_reducible assumption) ?_ | split

theorem writeAreaPart_keeps {o : State} (s : State) (b : ℕ) (o_ : ℕ) (v : ℕ) (h : Keeps o s) : Keeps o (State.writeAreaPart s b o_ v) := by
  unfold State.writeAreaPart
  repeat' first | with_reducible assumption | with_reducible apply putArea_keeps | with_reducible apply Keeps.ite | split

theorem execSeqAreaWrite_keeps {o : State} (fn : ℕ) (b : ℕ) (area : ℕ) (size : ℕ) (s : State) (h : Keeps o s) : KeepsOut o (execSeqAreaWrite fn b area size s) := by
  unfold execSeqAreaWrite
  repeat' first
      | with_reducible assumption | with_reducible apply writeArea_keeps | with_reducible apply wake_keeps
      | with_reducible apply Keeps.ite | with_reducible apply KeepsFault.none | with_reducible apply KeepsFault.some
      | with_reducible apply KeepsFault.ite | with_reducible apply KeepsOut.next | split

theorem execFlashNsWrite_keeps {o : State} (p : ℕ) (base : ℕ) (size : ℕ) (slot : ℕ) (s : State) (h : Keeps o s) : KeepsOut o (execFlashNsWrite p base size slot s) := by
  unfold execFlashNsWrite
  repeat' first
      | with_reducible assumption | with_reducible apply writeNs_keeps | with_reducible apply wake_keeps
      | with_reducible apply Keeps.ite | with_reducible apply KeepsFault.none | with_reducible apply KeepsFault.some
      | with_reducible apply KeepsFault.ite | with_reducible apply KeepsOut.next | split

theorem writeField_keeps {o : State} (s : State) (x : RegRow × ℕ) (v : ℕ) (h : Keeps o s) : Keeps o (State.writeField s x v) := by
  unfold State.writeField
  repeat' first
      | with_reducible assumption | with_reducible apply fset_keeps | with_reducible apply writeHalf_keeps
      | with_reducible apply Keeps.ite | simp only [Keeps.mk_iff] | with_reducible refine Keeps.snd (by with_reducible assumption) ?_
      | with_reducible refine Keeps.fst (by with_reducible assumption) ?_ | split

theorem writePlain_keeps {o : State} (s : State) (k : Blk) (i : ℕ) (o_ : ℕ) (v : ℕ) (h : Keeps o s) : Keeps o (State.writePlain s k i o_ v) := by
  unfold State.writePlain
  repeat' first
      | with_reducible assumption | with_reducible intro _ | with_reducible apply writeField_keeps
      | with_reducible refine Keeps.foldl (fun s x h => ?_) _ ?_

theorem execNumFlagsClear_keeps {o : State} (t : ℕ) (value : ℕ) (s : State) (h : Keeps o s) : KeepsOut o (execNumFlagsClear t value s) := by
  unfold execNumFlagsClear
  repeat' first
      | with_reducible assumption | with_reducible apply writePlain_keeps | with_reducible apply wake_keeps
      | with_reducible apply Keeps.ite | with_reducible apply KeepsFault.none | with_reducible apply KeepsFault.some
      | with_reducible apply KeepsFault.ite | with_reducible apply KeepsOut.next | split

theorem writeFc_keeps {o : State} (s : State) (o_ : ℕ) (v : ℕ) (h : Keeps o s) : Keeps o (State.writeFc s o_ v) := by
  unfold State.writeFc
  repeat' first
      | with_reducible assumption | with_reducible intro _ | with_reducible apply ackSlot_keeps
      | with_reducible apply ackAll_keeps | with_reducible apply writeHold_keeps | with_reducible apply fset_keeps
      | with_reducible apply writePlain_keeps | with_reducible apply Keeps.ite | with_reducible refine Keeps.elim ?_ (fun x => ?_) | split

theorem writeRpl_keeps {o : State} (s : State) (p : ℕ) (o_ : ℕ) (v : ℕ) (h : Keeps o s) : Keeps o (State.writeRpl s p o_ v) := by
  unfold State.writeRpl
  repeat' first
      | with_reducible assumption | with_reducible apply fset_keeps | with_reducible apply replayFlush_keeps
      | with_reducible apply writePlain_keeps | with_reducible apply armReplay_keeps | with_reducible apply disarmReplay_keeps
      | with_reducible apply Keeps.ite | split

theorem writeFlash_keeps {o : State} (s : State) (o_ : ℕ) (v : ℕ) (h : Keeps o s) : Keeps o (State.writeFlash s o_ v) := by
  unfold State.writeFlash
  repeat' first
      | with_reducible assumption | with_reducible apply writeNs_keeps | with_reducible apply Keeps.ite
      | simp only [Keeps.mk_iff] | with_reducible refine Keeps.snd (by with_reducible assumption) ?_
      | with_reducible refine Keeps.fst (by with_reducible assumption) ?_ | split

theorem writeLink_keeps {o : State} (s : State) (q : ℕ) (o_ : ℕ) (v : ℕ) (h : Keeps o s) : Keeps o (State.writeLink s q o_ v) := by
  unfold State.writeLink
  repeat' first
      | with_reducible assumption | with_reducible apply writePlain_keeps | with_reducible apply trainPort_keeps
      | with_reducible apply Keeps.ite | split

theorem writeSeq_keeps {o : State} (s : State) (b : ℕ) (o_ : ℕ) (v : ℕ) (h : Keeps o s) : Keeps o (State.writeSeq s b o_ v) := by
  unfold State.writeSeq
  repeat' first
      | with_reducible assumption | with_reducible apply writeAreaPart_keeps | with_reducible apply writePlain_keeps
      | with_reducible apply Keeps.ite | split

theorem writeMsix_keeps {o : State} (s : State) (fn : ℕ) (o_ : ℕ) (v : ℕ) (h : Keeps o s) : Keeps o (State.writeMsix s fn o_ v) := by
  unfold State.writeMsix
  repeat' first
      | with_reducible assumption | with_reducible apply interrupt_keeps | with_reducible apply Keeps.ite
      | simp only [Keeps.mk_iff] | split

theorem writeBlk_keeps {o : State} (s : State) (k : Blk) (i : ℕ) (o_ : ℕ) (v : ℕ) (h : Keeps o s) : Keeps o (State.writeBlk s k i o_ v) := by
  unfold State.writeBlk
  repeat' first
      | with_reducible assumption | with_reducible apply writeRing_keeps | with_reducible apply writeFc_keeps
      | with_reducible apply writeRpl_keeps | with_reducible apply writeFlash_keeps | with_reducible apply writeLink_keeps
      | with_reducible apply writeSeq_keeps | with_reducible apply writeKvCtrl_keeps | with_reducible apply resetFields_keeps
      | with_reducible apply writePlain_keeps | with_reducible apply writeQuiesce_keeps | with_reducible apply fset_keeps
      | with_reducible apply recoverImage_keeps | with_reducible apply Keeps.ite | with_reducible apply KeepsFault.none
      | with_reducible apply KeepsFault.some | with_reducible apply KeepsFault.ite | simp only [Keeps.mk_iff]
      | with_reducible refine Keeps.snd (by with_reducible assumption) ?_
      | with_reducible refine Keeps.fst (by with_reducible assumption) ?_
      | with_reducible refine KeepsFault.get (by with_reducible assumption) ?_ | split

theorem writeReg_keeps {o : State} (s : State) (fn : ℕ) (a : ℕ) (v : ℕ) (h : Keeps o s) : Keeps o (State.writeReg s fn a v) := by
  unfold State.writeReg
  repeat' first
      | with_reducible assumption | with_reducible apply writeMsix_keeps | with_reducible apply wake_keeps
      | with_reducible apply ringBell_keeps | with_reducible apply writeBlk_keeps | with_reducible apply Keeps.ite
      | with_reducible apply KeepsOpt.some | with_reducible apply KeepsOpt.none | with_reducible apply KeepsOpt.ite
      | simp only [Keeps.mk_iff] | with_reducible refine Keeps.snd (by with_reducible assumption) ?_
      | with_reducible refine Keeps.fst (by with_reducible assumption) ?_
      | with_reducible refine KeepsOpt.get (by with_reducible assumption) ?_ | split

theorem execRegisterWrite_keeps {o : State} (fn : ℕ) (addr : ℕ) (value : ℕ) (s : State) (h : Keeps o s) : KeepsOut o (execRegisterWrite fn addr value s) := by
  unfold execRegisterWrite
  repeat' first
      | with_reducible assumption | with_reducible apply proceedAll_keeps | with_reducible apply settle_keeps
      | with_reducible apply writeReg_keeps | with_reducible apply Keeps.ite | with_reducible apply KeepsFault.none
      | with_reducible apply KeepsFault.some | with_reducible apply KeepsFault.ite | with_reducible apply KeepsOut.next | split

end Sys2Proof.Machine
end

