-- ==== Sys2Proof/Laws/KeepsTick.lean ====
section
/-!
SUPPORT. What no operation of Machine/Tick.lean does (Laws/Keeps.lean).
-/

set_option Elab.async false

namespace Sys2Proof.Machine

theorem runCmd_keeps {o : State} (s : State) (c : Cmd) (h : Keeps o s) : Keeps o (State.runCmd s c) := by
  unfold State.runCmd
  repeat' first
      | with_reducible assumption | with_reducible intro _ | with_reducible apply runProgLoad_keeps
      | with_reducible apply runLearnStep_keeps | with_reducible apply runWeight_keeps | with_reducible apply runFill_keeps
      | with_reducible apply runStage_keeps | with_reducible apply runApply_keeps | with_reducible apply complete_keeps
      | with_reducible apply runSubmit_keeps | with_reducible apply runCancel_keeps | with_reducible apply runEdit_keeps
      | with_reducible apply runBegin_keeps | with_reducible apply runCommit_keeps | with_reducible apply runAbandon_keeps
      | with_reducible apply runRejoin_keeps | with_reducible apply runBatchPut_keeps | with_reducible apply runSwap_keeps
      | with_reducible apply runPublish_keeps | with_reducible apply runMove_keeps | with_reducible apply runStateMove_keeps
      | with_reducible apply runCkptWrite_keeps | with_reducible apply runCkptLoad_keeps | with_reducible apply runFlashWrite_keeps
      | with_reducible apply runFlashTrim_keeps | with_reducible apply runResume_keeps | with_reducible apply runDrop_keeps
      | with_reducible apply runAttest_keeps | with_reducible apply runSparge_keeps | with_reducible apply runFwUpdate_keeps
      | with_reducible apply runLcAdvance_keeps | with_reducible apply runChallenge_keeps | with_reducible apply runUnlock_keeps
      | with_reducible apply runNsClear_keeps | with_reducible apply runReplay_keeps | with_reducible apply runRelease_keeps
      | with_reducible apply runInject_keeps | with_reducible apply KeepsEff.ok | with_reducible apply KeepsEff.bad
      | with_reducible apply KeepsEff.fail | simp only [Keeps.mk_iff] | with_reducible refine Keeps.snd (by with_reducible assumption) ?_
      | with_reducible refine Keeps.fst (by with_reducible assumption) ?_
      | with_reducible refine KeepsEff.get (by with_reducible assumption) ?_ | split

theorem startLate_keeps {o : State} (s : State) (id : ℕ) (h : Keeps o s) : Keeps o (State.startLate s id) := by
  unfold State.startLate
  repeat' first
      | with_reducible assumption | with_reducible intro _ | with_reducible apply complete_keeps
      | with_reducible apply lastApply_keeps | with_reducible apply settle_keeps | with_reducible apply runCmd_keeps
      | with_reducible apply modCmd_keeps | with_reducible apply Keeps.ite | with_reducible apply KeepsOpt.some
      | with_reducible apply KeepsOpt.none | with_reducible apply KeepsOpt.ite | with_reducible apply Keeps.id | simp only [Keeps.mk_iff]
      | with_reducible refine Keeps.snd (by with_reducible assumption) ?_
      | with_reducible refine Keeps.fst (by with_reducible assumption) ?_
      | with_reducible refine KeepsOpt.get (by with_reducible assumption) ?_ | split

theorem startAll_keeps {o : State} (s : State) (h : Keeps o s) : Keeps o (State.startAll s) := by
  unfold State.startAll
  repeat' first
      | with_reducible assumption | with_reducible intro _ | with_reducible apply startLate_keeps
      | with_reducible refine KeepsOpt.map ?_ (fun s h => ?_) | with_reducible refine KeepsOpt.of (fun x => ?_)
      | with_reducible apply Keeps.id | with_reducible refine Keeps.foldl (fun s x h => ?_) _ ?_

theorem after_keeps {o s : State} {r : Host.Outcome State Fault Refusal} (h : Keeps o s) (h1 : KeepsOut o r) : Keeps o (after s r) := by
  unfold after
  split
  · exact h1 _ rfl
  · exact h

/-- Every message row keeps what it is given. -/
def RowsKeep (l : List (Nat → Msg → State → Host.Outcome State Fault Refusal)) : Prop :=
  ∀ f ∈ l, ∀ o s p m, Keeps o s → KeepsOut o (f p m s)

theorem rowsKeep_nil : RowsKeep [] := fun _ h => by cases h

theorem rowsKeep_cons {f : Nat → Msg → State → Host.Outcome State Fault Refusal} {l}
    (hf : ∀ o s p m, Keeps o s → KeepsOut o (f p m s)) (hl : RowsKeep l) : RowsKeep (f :: l) := by
  intro g hg
  rcases List.mem_cons.1 hg with rfl | hg
  · exact hf
  · exact hl g hg

theorem messageRows_keep : RowsKeep messageRows := by
  unfold messageRows
  refine rowsKeep_cons (fun o s p m h => execBuddyStream_keeps p m s h) ?_
  refine rowsKeep_cons (fun o s p m h => execGrant_keeps p m s h) ?_
  refine rowsKeep_cons (fun o s p m h => execSegAck_keeps p m s h) ?_
  refine rowsKeep_cons (fun o s p m h => execReductionSegment_keeps p m s h) ?_
  refine rowsKeep_cons (fun o s p m h => execNotice_keeps p m s h) ?_
  refine rowsKeep_cons (fun o s p m h => execResendRequest_keeps p m s h) ?_
  refine rowsKeep_cons (fun o s p m h => execAllGatherMessage_keeps p m s h) ?_
  refine rowsKeep_cons (fun o s p m h => execAllToAllMessage_keeps p m s h) ?_
  refine rowsKeep_cons (fun o s p m h => execBroadcastMessage_keeps p m s h) ?_
  refine rowsKeep_cons (fun o s p m h => execScalarValueMessage_keeps p m s h) ?_
  refine rowsKeep_cons (fun o s p m h => execBarrierMessage_keeps p m s h) ?_
  refine rowsKeep_cons (fun o s p m h => execExchangeCountMessage_keeps p m s h) ?_
  refine rowsKeep_cons (fun o s p m h => execExchangeRowsMessage_keeps p m s h) ?_
  refine rowsKeep_cons (fun o s p m h => execFenceArrival_keeps p m s h) ?_
  refine rowsKeep_cons (fun o s p m h => execFenceRelease_keeps p m s h) ?_
  refine rowsKeep_cons (fun o s p m h => execBatchRecordMessage_keeps p m s h) ?_
  refine rowsKeep_cons (fun o s p m h => execBatchAnswerMessage_keeps p m s h) ?_
  refine rowsKeep_cons (fun o s p m h => execCloseValueMessage_keeps p m s h) ?_
  refine rowsKeep_cons (fun o s p m h => execSequenceGroupMessage_keeps p m s h) ?_
  refine rowsKeep_cons (fun o s p m h => execReplayRecordMessage_keeps p m s h) ?_
  refine rowsKeep_cons (fun o s p m h => execMgmtMessage_keeps p m s h) ?_
  refine rowsKeep_cons (fun o s p m h => execBuddyTrailerConfirm_keeps p m s h) ?_
  refine rowsKeep_cons (fun o s p m h => execRemoteLoadRequest_keeps p m s h) ?_
  refine rowsKeep_cons (fun o s p m h => execReplicaFetchRequest_keeps p m s h) ?_
  exact rowsKeep_nil

theorem tryDeliver_keeps {o : State} (s : State) (p : Nat) (m : Msg) (h : Keeps o s) :
    ∀ (l : List (Nat → Msg → State → Host.Outcome State Fault Refusal)), RowsKeep l → KeepsOpt o (s.tryDeliver p m l)
  | [], _ => KeepsOpt.none
  | f :: l, hl => by
    unfold State.tryDeliver
    split
    · exact tryDeliver_keeps s p m h l (fun g hg => hl g (List.mem_cons_of_mem _ hg))
    · exact KeepsOpt.some (after_keeps h (hl f List.mem_cons_self o s p m h))

theorem drainInbox_keeps {o : State} (n : Nat) (s : State) (h : Keeps o s) : Keeps o (State.drainInbox n s) := by
  induction n generalizing s with
  | zero => exact h
  | succ n ih =>
    unfold State.drainInbox
    split
    · exact h
    · refine ih _ (KeepsOpt.getD (tryDeliver_keeps _ _ _ ?_ _ messageRows_keep) ?_) <;> (simp only [Keeps.mk_iff]; exact h)

theorem execFlitReceive_keeps {o : State} (port : ℕ) (flit : BitVec 2048) (s : State) (h : Keeps o s) : KeepsOut o (execFlitReceive port flit s) := by
  unfold execFlitReceive
  repeat' first
      | with_reducible assumption | with_reducible apply settle_keeps | with_reducible apply takeFlit_keeps
      | with_reducible apply drainInbox_keeps | with_reducible apply KeepsFault.none | with_reducible apply KeepsFault.some
      | with_reducible apply KeepsOut.next

theorem dropRow_keeps {o : State} (s : State) (p : ℕ) (rseq : ℕ) (h : Keeps o s) : Keeps o (State.dropRow s p rseq) := by
  unfold State.dropRow
  repeat' first
      | with_reducible assumption | with_reducible intro _ | with_reducible apply modPart_keeps
      | with_reducible refine KeepsOpt.map ?_ (fun s h => ?_) | with_reducible refine KeepsOpt.of (fun x => ?_) | simp only [Keeps.mk_iff]

theorem replayCmd_keeps {o : State} (s : State) (p : ℕ) (rseq : ℕ) (bs : List Byte) (h : Keeps o s) : Keeps o (State.replayCmd s p rseq bs) := by
  unfold State.replayCmd
  repeat' first
      | with_reducible assumption | with_reducible apply proceed_keeps | with_reducible apply startLate_keeps
      | with_reducible apply Keeps.id | simp only [Keeps.mk_iff]

theorem replayVersion_keeps {o : State} (s : State) (p : ℕ) (bs : List Byte) (h : Keeps o s) : Keeps o (State.replayVersion s p bs) := by
  unfold State.replayVersion
  repeat' first
      | with_reducible assumption | with_reducible intro _ | with_reducible apply modPart_keeps
      | with_reducible apply fset_keeps | with_reducible refine KeepsOpt.map ?_ (fun s h => ?_)
      | with_reducible refine KeepsOpt.of (fun x => ?_) | simp only [Keeps.mk_iff]

theorem replayRow_keeps {o : State} (s : State) (p : Nat) (first : Bool) (x : Nat × Nat × Nat × List Byte) (h : Keeps o s) :
    KeepsOpt o (s.replayRow p first x) := by
  unfold State.replayRow
  split
  repeat' first
      | with_reducible assumption | with_reducible apply KeepsOpt.ite | with_reducible apply KeepsOpt.none
      | with_reducible apply KeepsOpt.some | with_reducible apply replayFails_keeps
      | with_reducible refine KeepsOpt.map (tryDeliver_keeps _ _ _ ?_ _ messageRows_keep) (fun s h => ?_)
      | with_reducible apply dropRow_keeps | with_reducible apply replayCmd_keeps | with_reducible apply replayVersion_keeps

theorem replayScan_keeps {o : State} (s : State) (p : ℕ) (a2 : Bool) (a3 : List (ℕ × ℕ × ℕ × List Byte)) (h : Keeps o s) : KeepsOpt o (State.replayScan s p a2 a3) := by
  induction a3 generalizing s p a2 with
  | nil =>
    unfold State.replayScan
    repeat' first
        | with_reducible assumption | with_reducible apply replayRow_keeps | with_reducible apply KeepsOpt.some
        | with_reducible apply KeepsOpt.none | simp only [Keeps.mk_iff] | with_reducible refine Keeps.snd (by with_reducible assumption) ?_
        | with_reducible refine Keeps.fst (by with_reducible assumption) ?_
        | with_reducible refine KeepsOpt.get (by with_reducible assumption) ?_ | split
  | cons x l ih =>
    unfold State.replayScan
    repeat' first
        | with_reducible assumption | with_reducible apply ih | with_reducible apply replayRow_keeps
        | with_reducible apply KeepsOpt.some | with_reducible apply KeepsOpt.none | simp only [Keeps.mk_iff]
        | with_reducible refine Keeps.snd (by with_reducible assumption) ?_
        | with_reducible refine Keeps.fst (by with_reducible assumption) ?_
        | with_reducible refine KeepsOpt.get (by with_reducible assumption) ?_ | split

theorem replayEnd_keeps {o : State} (s : State) (p : ℕ) (r : Replay) (h : Keeps o s) : Keeps o (State.replayEnd s p r) := by
  unfold State.replayEnd
  repeat' first
      | with_reducible assumption | with_reducible intro _ | with_reducible apply endReplay_keeps
      | with_reducible apply Keeps.ite | with_reducible apply KeepsEff.ok | with_reducible apply KeepsEff.bad
      | with_reducible apply KeepsEff.fail | with_reducible apply KeepsEff.ite | with_reducible apply KeepsOpt.some
      | with_reducible apply KeepsOpt.none | with_reducible apply KeepsOpt.ite | simp only [Keeps.mk_iff]
      | with_reducible refine Keeps.snd (by with_reducible assumption) ?_
      | with_reducible refine Keeps.fst (by with_reducible assumption) ?_
      | with_reducible refine KeepsOpt.get (by with_reducible assumption) ?_
      | with_reducible refine KeepsEff.get (by with_reducible assumption) ?_ | split

theorem replayTick_keeps {o : State} (s : State) (p : ℕ) (h : Keeps o s) : Keeps o (State.replayTick s p) := by
  unfold State.replayTick
  repeat' first
      | with_reducible assumption | with_reducible intro _ | with_reducible apply endReplay_keeps
      | with_reducible apply replayScan_keeps | with_reducible apply replayEnd_keeps | with_reducible apply Keeps.ite
      | with_reducible apply KeepsOpt.some | with_reducible apply KeepsOpt.none | with_reducible apply KeepsOpt.ite
      | simp only [Keeps.mk_iff] | with_reducible refine Keeps.snd (by with_reducible assumption) ?_
      | with_reducible refine Keeps.fst (by with_reducible assumption) ?_
      | with_reducible refine KeepsOpt.get (by with_reducible assumption) ?_ | split

theorem tick_keeps {o : State} (s : State) (h : Keeps o s) : Keeps o (State.tick s) := by
  unfold State.tick
  repeat' first
      | with_reducible assumption | with_reducible intro _ | with_reducible apply startAll_keeps
      | with_reducible apply replayTick_keeps | with_reducible apply writeReg_keeps | with_reducible apply drainInbox_keeps
      | with_reducible apply upsets_keeps | with_reducible apply pumpAll_keeps | with_reducible apply proceedAll_keeps
      | with_reducible refine Keeps.foldl (fun s x h => ?_) _ ?_ | simp only [Keeps.mk_iff]

end Sys2Proof.Machine
end

