-- ==== Sys2Proof/Laws/PerInstr.lean ====
section
/-!
SUPPORT. One lemma for each command of the family Operands: a well-formed command names only units the module has.
-/

set_option Elab.async false

namespace Sys2Proof.Laws.Operands

/-- Every unit that a well-formed command names is one of the module's. -/
def Statement (i : Instr) : Prop := i.wf = true → ∀ u ∈ i.units, u.2 < u.1.count

theorem nop (fn : Nat) (ring : Nat) : Statement (.nop fn ring) := by
  intro h u hu
  simp [Instr.wf] at h
  simp [Instr.units] at hu
  rcases hu with rfl | rfl <;> simp [UnitKind.count] <;> omega
theorem reservedOpcode (fn : Nat) (ring : Nat) : Statement (.reservedOpcode fn ring) := by
  intro h u hu
  simp [Instr.wf] at h
  simp [Instr.units] at hu
  rcases hu with rfl | rfl <;> simp [UnitKind.count] <;> omega
theorem progLoad (fn : Nat) (ring : Nat) : Statement (.progLoad fn ring) := by
  intro h u hu
  simp [Instr.wf] at h
  simp [Instr.units] at hu
  rcases hu with rfl | rfl <;> simp [UnitKind.count] <;> omega
theorem learnStep (fn : Nat) (ring : Nat) : Statement (.learnStep fn ring) := by
  intro h u hu
  simp [Instr.wf] at h
  simp [Instr.units] at hu
  rcases hu with rfl | rfl <;> simp [UnitKind.count] <;> omega
theorem weightLoad (fn : Nat) (ring : Nat) : Statement (.weightLoad fn ring) := by
  intro h u hu
  simp [Instr.wf] at h
  simp [Instr.units] at hu
  rcases hu with rfl | rfl <;> simp [UnitKind.count] <;> omega
theorem fill (fn : Nat) (ring : Nat) : Statement (.fill fn ring) := by
  intro h u hu
  simp [Instr.wf] at h
  simp [Instr.units] at hu
  rcases hu with rfl | rfl <;> simp [UnitKind.count] <;> omega
theorem imageStage (fn : Nat) (ring : Nat) : Statement (.imageStage fn ring) := by
  intro h u hu
  simp [Instr.wf] at h
  simp [Instr.units] at hu
  rcases hu with rfl | rfl <;> simp [UnitKind.count] <;> omega
theorem imageApply (fn : Nat) (ring : Nat) : Statement (.imageApply fn ring) := by
  intro h u hu
  simp [Instr.wf] at h
  simp [Instr.units] at hu
  rcases hu with rfl | rfl <;> simp [UnitKind.count] <;> omega
theorem imageRelease (fn : Nat) (ring : Nat) : Statement (.imageRelease fn ring) := by
  intro h u hu
  simp [Instr.wf] at h
  simp [Instr.units] at hu
  rcases hu with rfl | rfl <;> simp [UnitKind.count] <;> omega
theorem loaderApplyStart : Statement (.loaderApplyStart) := by
  intro _ u hu; cases hu
theorem drainWindowEnd (p : Nat) : Statement (.drainWindowEnd p) := by
  intro h u hu
  simp [Instr.wf] at h
  simp [Instr.units] at hu
  subst hu; simp [UnitKind.count]; omega
theorem seqSubmit (fn : Nat) (ring : Nat) : Statement (.seqSubmit fn ring) := by
  intro h u hu
  simp [Instr.wf] at h
  simp [Instr.units] at hu
  rcases hu with rfl | rfl <;> simp [UnitKind.count] <;> omega
theorem seqCancel (fn : Nat) (ring : Nat) : Statement (.seqCancel fn ring) := by
  intro h u hu
  simp [Instr.wf] at h
  simp [Instr.units] at hu
  rcases hu with rfl | rfl <;> simp [UnitKind.count] <;> omega
theorem kvEdit (fn : Nat) (ring : Nat) : Statement (.kvEdit fn ring) := by
  intro h u hu
  simp [Instr.wf] at h
  simp [Instr.units] at hu
  rcases hu with rfl | rfl <;> simp [UnitKind.count] <;> omega
theorem turnBegin (fn : Nat) (ring : Nat) : Statement (.turnBegin fn ring) := by
  intro h u hu
  simp [Instr.wf] at h
  simp [Instr.units] at hu
  rcases hu with rfl | rfl <;> simp [UnitKind.count] <;> omega
theorem turnCommit (fn : Nat) (ring : Nat) : Statement (.turnCommit fn ring) := by
  intro h u hu
  simp [Instr.wf] at h
  simp [Instr.units] at hu
  rcases hu with rfl | rfl <;> simp [UnitKind.count] <;> omega
theorem turnAbandon (fn : Nat) (ring : Nat) : Statement (.turnAbandon fn ring) := by
  intro h u hu
  simp [Instr.wf] at h
  simp [Instr.units] at hu
  rcases hu with rfl | rfl <;> simp [UnitKind.count] <;> omega
theorem commRejoin (fn : Nat) (ring : Nat) : Statement (.commRejoin fn ring) := by
  intro h u hu
  simp [Instr.wf] at h
  simp [Instr.units] at hu
  rcases hu with rfl | rfl <;> simp [UnitKind.count] <;> omega
theorem batchPut (fn : Nat) (ring : Nat) : Statement (.batchPut fn ring) := by
  intro h u hu
  simp [Instr.wf] at h
  simp [Instr.units] at hu
  rcases hu with rfl | rfl <;> simp [UnitKind.count] <;> omega
theorem policySwap (fn : Nat) (ring : Nat) : Statement (.policySwap fn ring) := by
  intro h u hu
  simp [Instr.wf] at h
  simp [Instr.units] at hu
  rcases hu with rfl | rfl <;> simp [UnitKind.count] <;> omega
theorem policyPublish (fn : Nat) (ring : Nat) : Statement (.policyPublish fn ring) := by
  intro h u hu
  simp [Instr.wf] at h
  simp [Instr.units] at hu
  rcases hu with rfl | rfl <;> simp [UnitKind.count] <;> omega
theorem move (fn : Nat) (ring : Nat) : Statement (.move fn ring) := by
  intro h u hu
  simp [Instr.wf] at h
  simp [Instr.units] at hu
  rcases hu with rfl | rfl <;> simp [UnitKind.count] <;> omega
theorem stateMove (fn : Nat) (ring : Nat) : Statement (.stateMove fn ring) := by
  intro h u hu
  simp [Instr.wf] at h
  simp [Instr.units] at hu
  rcases hu with rfl | rfl <;> simp [UnitKind.count] <;> omega
theorem ckptWrite (fn : Nat) (ring : Nat) : Statement (.ckptWrite fn ring) := by
  intro h u hu
  simp [Instr.wf] at h
  simp [Instr.units] at hu
  rcases hu with rfl | rfl <;> simp [UnitKind.count] <;> omega
theorem ckptLoad (fn : Nat) (ring : Nat) : Statement (.ckptLoad fn ring) := by
  intro h u hu
  simp [Instr.wf] at h
  simp [Instr.units] at hu
  rcases hu with rfl | rfl <;> simp [UnitKind.count] <;> omega
theorem flashWrite (fn : Nat) (ring : Nat) : Statement (.flashWrite fn ring) := by
  intro h u hu
  simp [Instr.wf] at h
  simp [Instr.units] at hu
  rcases hu with rfl | rfl <;> simp [UnitKind.count] <;> omega
theorem flashTrim (fn : Nat) (ring : Nat) : Statement (.flashTrim fn ring) := by
  intro h u hu
  simp [Instr.wf] at h
  simp [Instr.units] at hu
  rcases hu with rfl | rfl <;> simp [UnitKind.count] <;> omega
theorem kettleResume (fn : Nat) (ring : Nat) : Statement (.kettleResume fn ring) := by
  intro h u hu
  simp [Instr.wf] at h
  simp [Instr.units] at hu
  rcases hu with rfl | rfl <;> simp [UnitKind.count] <;> omega
theorem kettleAbandon (fn : Nat) (ring : Nat) : Statement (.kettleAbandon fn ring) := by
  intro h u hu
  simp [Instr.wf] at h
  simp [Instr.units] at hu
  rcases hu with rfl | rfl <;> simp [UnitKind.count] <;> omega
theorem attestReport (fn : Nat) (ring : Nat) : Statement (.attestReport fn ring) := by
  intro h u hu
  simp [Instr.wf] at h
  simp [Instr.units] at hu
  rcases hu with rfl | rfl <;> simp [UnitKind.count] <;> omega
theorem sparge (fn : Nat) (ring : Nat) : Statement (.sparge fn ring) := by
  intro h u hu
  simp [Instr.wf] at h
  simp [Instr.units] at hu
  rcases hu with rfl | rfl <;> simp [UnitKind.count] <;> omega
theorem fwUpdate (fn : Nat) (ring : Nat) : Statement (.fwUpdate fn ring) := by
  intro h u hu
  simp [Instr.wf] at h
  simp [Instr.units] at hu
  rcases hu with rfl | rfl <;> simp [UnitKind.count] <;> omega
theorem lcAdvance (fn : Nat) (ring : Nat) : Statement (.lcAdvance fn ring) := by
  intro h u hu
  simp [Instr.wf] at h
  simp [Instr.units] at hu
  rcases hu with rfl | rfl <;> simp [UnitKind.count] <;> omega
theorem authChallenge (fn : Nat) (ring : Nat) : Statement (.authChallenge fn ring) := by
  intro h u hu
  simp [Instr.wf] at h
  simp [Instr.units] at hu
  rcases hu with rfl | rfl <;> simp [UnitKind.count] <;> omega
theorem debugUnlock (fn : Nat) (ring : Nat) : Statement (.debugUnlock fn ring) := by
  intro h u hu
  simp [Instr.wf] at h
  simp [Instr.units] at hu
  rcases hu with rfl | rfl <;> simp [UnitKind.count] <;> omega
theorem nsClear (fn : Nat) (ring : Nat) : Statement (.nsClear fn ring) := by
  intro h u hu
  simp [Instr.wf] at h
  simp [Instr.units] at hu
  rcases hu with rfl | rfl <;> simp [UnitKind.count] <;> omega
theorem replayRun (fn : Nat) (ring : Nat) : Statement (.replayRun fn ring) := by
  intro h u hu
  simp [Instr.wf] at h
  simp [Instr.units] at hu
  rcases hu with rfl | rfl <;> simp [UnitKind.count] <;> omega
theorem faultRelease (fn : Nat) (ring : Nat) : Statement (.faultRelease fn ring) := by
  intro h u hu
  simp [Instr.wf] at h
  simp [Instr.units] at hu
  rcases hu with rfl | rfl <;> simp [UnitKind.count] <;> omega
theorem faultInject (fn : Nat) (ring : Nat) : Statement (.faultInject fn ring) := by
  intro h u hu
  simp [Instr.wf] at h
  simp [Instr.units] at hu
  rcases hu with rfl | rfl <;> simp [UnitKind.count] <;> omega
theorem ctlNop (t : Nat) : Statement (.ctlNop t) := by
  intro h u hu
  simp [Instr.wf] at h
  simp [Instr.units] at hu
  subst hu; simp [UnitKind.count]; omega
theorem ctlLi (t : Nat) : Statement (.ctlLi t) := by
  intro h u hu
  simp [Instr.wf] at h
  simp [Instr.units] at hu
  subst hu; simp [UnitKind.count]; omega
theorem ctlAlu (t : Nat) : Statement (.ctlAlu t) := by
  intro h u hu
  simp [Instr.wf] at h
  simp [Instr.units] at hu
  subst hu; simp [UnitKind.count]; omega
theorem ctlBr (t : Nat) : Statement (.ctlBr t) := by
  intro h u hu
  simp [Instr.wf] at h
  simp [Instr.units] at hu
  subst hu; simp [UnitKind.count]; omega
theorem ctlLoop (t : Nat) : Statement (.ctlLoop t) := by
  intro h u hu
  simp [Instr.wf] at h
  simp [Instr.units] at hu
  subst hu; simp [UnitKind.count]; omega
theorem ctlMod (t : Nat) : Statement (.ctlMod t) := by
  intro h u hu
  simp [Instr.wf] at h
  simp [Instr.units] at hu
  subst hu; simp [UnitKind.count]; omega
theorem ctlVxfer (t : Nat) : Statement (.ctlVxfer t) := by
  intro h u hu
  simp [Instr.wf] at h
  simp [Instr.units] at hu
  subst hu; simp [UnitKind.count]; omega
theorem ctlRdcr (t : Nat) : Statement (.ctlRdcr t) := by
  intro h u hu
  simp [Instr.wf] at h
  simp [Instr.units] at hu
  subst hu; simp [UnitKind.count]; omega
theorem ctlWrcr (t : Nat) : Statement (.ctlWrcr t) := by
  intro h u hu
  simp [Instr.wf] at h
  simp [Instr.units] at hu
  subst hu; simp [UnitKind.count]; omega
theorem ctlEnd (t : Nat) : Statement (.ctlEnd t) := by
  intro h u hu
  simp [Instr.wf] at h
  simp [Instr.units] at hu
  subst hu; simp [UnitKind.count]; omega
theorem mxmLoadw (t : Nat) : Statement (.mxmLoadw t) := by
  intro h u hu
  simp [Instr.wf] at h
  simp [Instr.units] at hu
  subst hu; simp [UnitKind.count]; omega
theorem mxmMul (t : Nat) : Statement (.mxmMul t) := by
  intro h u hu
  simp [Instr.wf] at h
  simp [Instr.units] at hu
  subst hu; simp [UnitKind.count]; omega
theorem mxmDrain (t : Nat) : Statement (.mxmDrain t) := by
  intro h u hu
  simp [Instr.wf] at h
  simp [Instr.units] at hu
  subst hu; simp [UnitKind.count]; omega
theorem mxmGroup (t : Nat) : Statement (.mxmGroup t) := by
  intro h u hu
  simp [Instr.wf] at h
  simp [Instr.units] at hu
  subst hu; simp [UnitKind.count]; omega
theorem mxmFence (t : Nat) : Statement (.mxmFence t) := by
  intro h u hu
  simp [Instr.wf] at h
  simp [Instr.units] at hu
  subst hu; simp [UnitKind.count]; omega
theorem vecSetvl (t : Nat) : Statement (.vecSetvl t) := by
  intro h u hu
  simp [Instr.wf] at h
  simp [Instr.units] at hu
  subst hu; simp [UnitKind.count]; omega
theorem vecAdd (t : Nat) : Statement (.vecAdd t) := by
  intro h u hu
  simp [Instr.wf] at h
  simp [Instr.units] at hu
  subst hu; simp [UnitKind.count]; omega
theorem vecMul (t : Nat) : Statement (.vecMul t) := by
  intro h u hu
  simp [Instr.wf] at h
  simp [Instr.units] at hu
  subst hu; simp [UnitKind.count]; omega
theorem vecFma (t : Nat) : Statement (.vecFma t) := by
  intro h u hu
  simp [Instr.wf] at h
  simp [Instr.units] at hu
  subst hu; simp [UnitKind.count]; omega
theorem vecMin (t : Nat) : Statement (.vecMin t) := by
  intro h u hu
  simp [Instr.wf] at h
  simp [Instr.units] at hu
  subst hu; simp [UnitKind.count]; omega
theorem vecMax (t : Nat) : Statement (.vecMax t) := by
  intro h u hu
  simp [Instr.wf] at h
  simp [Instr.units] at hu
  subst hu; simp [UnitKind.count]; omega
theorem vecCmp (t : Nat) : Statement (.vecCmp t) := by
  intro h u hu
  simp [Instr.wf] at h
  simp [Instr.units] at hu
  subst hu; simp [UnitKind.count]; omega
theorem vecSel (t : Nat) : Statement (.vecSel t) := by
  intro h u hu
  simp [Instr.wf] at h
  simp [Instr.units] at hu
  subst hu; simp [UnitKind.count]; omega
theorem vecEst (t : Nat) : Statement (.vecEst t) := by
  intro h u hu
  simp [Instr.wf] at h
  simp [Instr.units] at hu
  subst hu; simp [UnitKind.count]; omega
theorem vecRsum (t : Nat) : Statement (.vecRsum t) := by
  intro h u hu
  simp [Instr.wf] at h
  simp [Instr.units] at hu
  subst hu; simp [UnitKind.count]; omega
theorem vecRmax (t : Nat) : Statement (.vecRmax t) := by
  intro h u hu
  simp [Instr.wf] at h
  simp [Instr.units] at hu
  subst hu; simp [UnitKind.count]; omega
theorem vecLd (t : Nat) : Statement (.vecLd t) := by
  intro h u hu
  simp [Instr.wf] at h
  simp [Instr.units] at hu
  subst hu; simp [UnitKind.count]; omega
theorem vecSt (t : Nat) : Statement (.vecSt t) := by
  intro h u hu
  simp [Instr.wf] at h
  simp [Instr.units] at hu
  subst hu; simp [UnitKind.count]; omega
theorem movDesc (t : Nat) : Statement (.movDesc t) := by
  intro h u hu
  simp [Instr.wf] at h
  simp [Instr.units] at hu
  subst hu; simp [UnitKind.count]; omega
theorem movSteep (t : Nat) : Statement (.movSteep t) := by
  intro h u hu
  simp [Instr.wf] at h
  simp [Instr.units] at hu
  subst hu; simp [UnitKind.count]; omega
theorem movCopy (t : Nat) : Statement (.movCopy t) := by
  intro h u hu
  simp [Instr.wf] at h
  simp [Instr.units] at hu
  subst hu; simp [UnitKind.count]; omega
theorem bnkAdd (t : Nat) : Statement (.bnkAdd t) := by
  intro h u hu
  simp [Instr.wf] at h
  simp [Instr.units] at hu
  subst hu; simp [UnitKind.count]; omega
theorem bnkMax (t : Nat) : Statement (.bnkMax t) := by
  intro h u hu
  simp [Instr.wf] at h
  simp [Instr.units] at hu
  subst hu; simp [UnitKind.count]; omega
theorem bnkSadd (t : Nat) : Statement (.bnkSadd t) := by
  intro h u hu
  simp [Instr.wf] at h
  simp [Instr.units] at hu
  subst hu; simp [UnitKind.count]; omega
theorem bnkWiden (t : Nat) : Statement (.bnkWiden t) := by
  intro h u hu
  simp [Instr.wf] at h
  simp [Instr.units] at hu
  subst hu; simp [UnitKind.count]; omega
theorem bnkConvert (t : Nat) : Statement (.bnkConvert t) := by
  intro h u hu
  simp [Instr.wf] at h
  simp [Instr.units] at hu
  subst hu; simp [UnitKind.count]; omega
theorem bnkRmaxcap (t : Nat) : Statement (.bnkRmaxcap t) := by
  intro h u hu
  simp [Instr.wf] at h
  simp [Instr.units] at hu
  subst hu; simp [UnitKind.count]; omega
theorem xchCounts (t : Nat) : Statement (.xchCounts t) := by
  intro h u hu
  simp [Instr.wf] at h
  simp [Instr.units] at hu
  subst hu; simp [UnitKind.count]; omega
theorem xchDispatch (t : Nat) : Statement (.xchDispatch t) := by
  intro h u hu
  simp [Instr.wf] at h
  simp [Instr.units] at hu
  subst hu; simp [UnitKind.count]; omega
theorem xchCombine (t : Nat) : Statement (.xchCombine t) := by
  intro h u hu
  simp [Instr.wf] at h
  simp [Instr.units] at hu
  subst hu; simp [UnitKind.count]; omega
theorem xchBdispatch (t : Nat) : Statement (.xchBdispatch t) := by
  intro h u hu
  simp [Instr.wf] at h
  simp [Instr.units] at hu
  subst hu; simp [UnitKind.count]; omega
theorem xchBcombine (t : Nat) : Statement (.xchBcombine t) := by
  intro h u hu
  simp [Instr.wf] at h
  simp [Instr.units] at hu
  subst hu; simp [UnitKind.count]; omega
theorem xchCollReduceScatter (t : Nat) : Statement (.xchCollReduceScatter t) := by
  intro h u hu
  simp [Instr.wf] at h
  simp [Instr.units] at hu
  subst hu; simp [UnitKind.count]; omega
theorem xchCollAllGather (t : Nat) : Statement (.xchCollAllGather t) := by
  intro h u hu
  simp [Instr.wf] at h
  simp [Instr.units] at hu
  subst hu; simp [UnitKind.count]; omega
theorem xchCollAllToAll (t : Nat) : Statement (.xchCollAllToAll t) := by
  intro h u hu
  simp [Instr.wf] at h
  simp [Instr.units] at hu
  subst hu; simp [UnitKind.count]; omega
theorem xchCollBroadcast (t : Nat) : Statement (.xchCollBroadcast t) := by
  intro h u hu
  simp [Instr.wf] at h
  simp [Instr.units] at hu
  subst hu; simp [UnitKind.count]; omega
theorem xchCollScalarAllreduce (t : Nat) : Statement (.xchCollScalarAllreduce t) := by
  intro h u hu
  simp [Instr.wf] at h
  simp [Instr.units] at hu
  subst hu; simp [UnitKind.count]; omega
theorem xchCollBarrier (t : Nat) : Statement (.xchCollBarrier t) := by
  intro h u hu
  simp [Instr.wf] at h
  simp [Instr.units] at hu
  subst hu; simp [UnitKind.count]; omega
theorem attWalk (t : Nat) : Statement (.attWalk t) := by
  intro h u hu
  simp [Instr.wf] at h
  simp [Instr.units] at hu
  subst hu; simp [UnitKind.count]; omega
theorem attAppend (t : Nat) : Statement (.attAppend t) := by
  intro h u hu
  simp [Instr.wf] at h
  simp [Instr.units] at hu
  subst hu; simp [UnitKind.count]; omega
theorem attInfo (t : Nat) : Statement (.attInfo t) := by
  intro h u hu
  simp [Instr.wf] at h
  simp [Instr.units] at hu
  subst hu; simp [UnitKind.count]; omega
theorem synWait (t : Nat) : Statement (.synWait t) := by
  intro h u hu
  simp [Instr.wf] at h
  simp [Instr.units] at hu
  subst hu; simp [UnitKind.count]; omega
theorem synSignal (t : Nat) : Statement (.synSignal t) := by
  intro h u hu
  simp [Instr.wf] at h
  simp [Instr.units] at hu
  subst hu; simp [UnitKind.count]; omega
theorem synFence (t : Nat) : Statement (.synFence t) := by
  intro h u hu
  simp [Instr.wf] at h
  simp [Instr.units] at hu
  subst hu; simp [UnitKind.count]; omega
theorem wordComplete (t : Nat) (id : Nat) : Statement (.wordComplete t id) := by
  intro h u hu
  simp [Instr.wf] at h
  simp [Instr.units] at hu
  subst hu; simp [UnitKind.count]; omega
theorem syncTimeout (t : Nat) : Statement (.syncTimeout t) := by
  intro h u hu
  simp [Instr.wf] at h
  simp [Instr.units] at hu
  subst hu; simp [UnitKind.count]; omega
theorem stepEnd (p : Nat) : Statement (.stepEnd p) := by
  intro h u hu
  simp [Instr.wf] at h
  simp [Instr.units] at hu
  subst hu; simp [UnitKind.count]; omega
theorem kettleNop (st : Nat) : Statement (.kettleNop st) := by
  intro h u hu
  simp [Instr.wf] at h
  simp [Instr.units] at hu
  subst hu; simp [UnitKind.count]; omega
theorem kettleLd (st : Nat) : Statement (.kettleLd st) := by
  intro h u hu
  simp [Instr.wf] at h
  simp [Instr.units] at hu
  subst hu; simp [UnitKind.count]; omega
theorem kettleSt (st : Nat) : Statement (.kettleSt st) := by
  intro h u hu
  simp [Instr.wf] at h
  simp [Instr.units] at hu
  subst hu; simp [UnitKind.count]; omega
theorem kettleAdd (st : Nat) : Statement (.kettleAdd st) := by
  intro h u hu
  simp [Instr.wf] at h
  simp [Instr.units] at hu
  subst hu; simp [UnitKind.count]; omega
theorem kettleMul (st : Nat) : Statement (.kettleMul st) := by
  intro h u hu
  simp [Instr.wf] at h
  simp [Instr.units] at hu
  subst hu; simp [UnitKind.count]; omega
theorem kettleFma (st : Nat) : Statement (.kettleFma st) := by
  intro h u hu
  simp [Instr.wf] at h
  simp [Instr.units] at hu
  subst hu; simp [UnitKind.count]; omega
theorem kettleMin (st : Nat) : Statement (.kettleMin st) := by
  intro h u hu
  simp [Instr.wf] at h
  simp [Instr.units] at hu
  subst hu; simp [UnitKind.count]; omega
theorem kettleMax (st : Nat) : Statement (.kettleMax st) := by
  intro h u hu
  simp [Instr.wf] at h
  simp [Instr.units] at hu
  subst hu; simp [UnitKind.count]; omega
theorem kettleCmp (st : Nat) : Statement (.kettleCmp st) := by
  intro h u hu
  simp [Instr.wf] at h
  simp [Instr.units] at hu
  subst hu; simp [UnitKind.count]; omega
theorem kettleSel (st : Nat) : Statement (.kettleSel st) := by
  intro h u hu
  simp [Instr.wf] at h
  simp [Instr.units] at hu
  subst hu; simp [UnitKind.count]; omega
theorem kettleSelv (st : Nat) : Statement (.kettleSelv st) := by
  intro h u hu
  simp [Instr.wf] at h
  simp [Instr.units] at hu
  subst hu; simp [UnitKind.count]; omega
theorem kettleEst (st : Nat) : Statement (.kettleEst st) := by
  intro h u hu
  simp [Instr.wf] at h
  simp [Instr.units] at hu
  subst hu; simp [UnitKind.count]; omega
theorem kettleDiv (st : Nat) : Statement (.kettleDiv st) := by
  intro h u hu
  simp [Instr.wf] at h
  simp [Instr.units] at hu
  subst hu; simp [UnitKind.count]; omega
theorem kettleSqrt (st : Nat) : Statement (.kettleSqrt st) := by
  intro h u hu
  simp [Instr.wf] at h
  simp [Instr.units] at hu
  subst hu; simp [UnitKind.count]; omega
theorem kettleRunStart (st : Nat) : Statement (.kettleRunStart st) := by
  intro h u hu
  simp [Instr.wf] at h
  simp [Instr.units] at hu
  subst hu; simp [UnitKind.count]; omega
theorem kettleBlockCommit (st : Nat) : Statement (.kettleBlockCommit st) := by
  intro h u hu
  simp [Instr.wf] at h
  simp [Instr.units] at hu
  subst hu; simp [UnitKind.count]; omega
theorem kettleWaitTimeout (st : Nat) : Statement (.kettleWaitTimeout st) := by
  intro h u hu
  simp [Instr.wf] at h
  simp [Instr.units] at hu
  subst hu; simp [UnitKind.count]; omega
theorem moveLanded (id : Nat) : Statement (.moveLanded id) := by
  intro _ u hu; cases hu
theorem steepEntryLanded (t : Nat) (entry : Nat) : Statement (.steepEntryLanded t entry) := by
  intro h u hu
  simp [Instr.wf] at h
  simp [Instr.units] at hu
  subst hu; simp [UnitKind.count]; omega
theorem patrolScrub (t : Nat) (bank : Nat) : Statement (.patrolScrub t bank) := by
  intro h u hu
  simp [Instr.wf] at h
  simp [Instr.units] at hu
  subst hu; simp [UnitKind.count]; omega
theorem bankRowRepair (t : Nat) (bank : Nat) (row : Nat) : Statement (.bankRowRepair t bank row) := by
  intro h u hu
  simp [Instr.wf] at h
  simp [Instr.units] at hu
  subst hu; simp [UnitKind.count]; omega
theorem hbmRowRepair (st : Nat) (row : Nat) : Statement (.hbmRowRepair st row) := by
  intro h u hu
  simp [Instr.wf] at h
  simp [Instr.units] at hu
  subst hu; simp [UnitKind.count]; omega
theorem lpddrRowRepair (b : Nat) (row : Nat) : Statement (.lpddrRowRepair b row) := by
  intro h u hu
  simp [Instr.wf] at h
  simp [Instr.units] at hu
  subst hu; simp [UnitKind.count]; omega
theorem accLineRepair (t : Nat) (line : Nat) : Statement (.accLineRepair t line) := by
  intro h u hu
  simp [Instr.wf] at h
  simp [Instr.units] at hu
  subst hu; simp [UnitKind.count]; omega
theorem spareTakeover (t : Nat) : Statement (.spareTakeover t) := by
  intro h u hu
  simp [Instr.wf] at h
  simp [Instr.units] at hu
  subst hu; simp [UnitKind.count]; omega
theorem tileUnmapped (t : Nat) : Statement (.tileUnmapped t) := by
  intro h u hu
  simp [Instr.wf] at h
  simp [Instr.units] at hu
  subst hu; simp [UnitKind.count]; omega
theorem bayRetired (b : Nat) : Statement (.bayRetired b) := by
  intro h u hu
  simp [Instr.wf] at h
  simp [Instr.units] at hu
  subst hu; simp [UnitKind.count]; omega
theorem buddyStream (p : Nat) (m : Msg) : Statement (.buddyStream p m) := by
  intro h u hu
  simp [Instr.wf] at h
  simp [Instr.units] at hu
  subst hu; simp [UnitKind.count]; omega
theorem buddyStreamTimeout (p : Nat) : Statement (.buddyStreamTimeout p) := by
  intro h u hu
  simp [Instr.wf] at h
  simp [Instr.units] at hu
  subst hu; simp [UnitKind.count]; omega
theorem buddyConfirmTimeout (p : Nat) : Statement (.buddyConfirmTimeout p) := by
  intro h u hu
  simp [Instr.wf] at h
  simp [Instr.units] at hu
  subst hu; simp [UnitKind.count]; omega
theorem grant (p : Nat) (m : Msg) : Statement (.grant p m) := by
  intro h u hu
  simp [Instr.wf] at h
  simp [Instr.units] at hu
  subst hu; simp [UnitKind.count]; omega
theorem segAck (p : Nat) (m : Msg) : Statement (.segAck p m) := by
  intro h u hu
  simp [Instr.wf] at h
  simp [Instr.units] at hu
  subst hu; simp [UnitKind.count]; omega
theorem reductionSegment (p : Nat) (m : Msg) : Statement (.reductionSegment p m) := by
  intro h u hu
  simp [Instr.wf] at h
  simp [Instr.units] at hu
  subst hu; simp [UnitKind.count]; omega
theorem ownerWaitTimeout (p : Nat) (comm : Nat) (opNo : Nat) (seg : Nat) : Statement (.ownerWaitTimeout p comm opNo seg) := by
  intro h u hu
  simp [Instr.wf] at h
  simp [Instr.units] at hu
  subst hu; simp [UnitKind.count]; omega
theorem senderGrantTimeout (p : Nat) (comm : Nat) (opNo : Nat) (owner : Nat) : Statement (.senderGrantTimeout p comm opNo owner) := by
  intro h u hu
  simp [Instr.wf] at h
  simp [Instr.units] at hu
  subst hu; simp [UnitKind.count]; omega
theorem orphanTimeout (p : Nat) (comm : Nat) (opNo : Nat) : Statement (.orphanTimeout p comm opNo) := by
  intro h u hu
  simp [Instr.wf] at h
  simp [Instr.units] at hu
  subst hu; simp [UnitKind.count]; omega
theorem notice (p : Nat) (m : Msg) : Statement (.notice p m) := by
  intro h u hu
  simp [Instr.wf] at h
  simp [Instr.units] at hu
  subst hu; simp [UnitKind.count]; omega
theorem resendRequest (p : Nat) (m : Msg) : Statement (.resendRequest p m) := by
  intro h u hu
  simp [Instr.wf] at h
  simp [Instr.units] at hu
  subst hu; simp [UnitKind.count]; omega
theorem allGatherMessage (p : Nat) (m : Msg) : Statement (.allGatherMessage p m) := by
  intro h u hu
  simp [Instr.wf] at h
  simp [Instr.units] at hu
  subst hu; simp [UnitKind.count]; omega
theorem allToAllMessage (p : Nat) (m : Msg) : Statement (.allToAllMessage p m) := by
  intro h u hu
  simp [Instr.wf] at h
  simp [Instr.units] at hu
  subst hu; simp [UnitKind.count]; omega
theorem broadcastMessage (p : Nat) (m : Msg) : Statement (.broadcastMessage p m) := by
  intro h u hu
  simp [Instr.wf] at h
  simp [Instr.units] at hu
  subst hu; simp [UnitKind.count]; omega
theorem scalarValueMessage (p : Nat) (m : Msg) : Statement (.scalarValueMessage p m) := by
  intro h u hu
  simp [Instr.wf] at h
  simp [Instr.units] at hu
  subst hu; simp [UnitKind.count]; omega
theorem barrierMessage (p : Nat) (m : Msg) : Statement (.barrierMessage p m) := by
  intro h u hu
  simp [Instr.wf] at h
  simp [Instr.units] at hu
  subst hu; simp [UnitKind.count]; omega
theorem barrierUpTimeout (p : Nat) (comm : Nat) (opNo : Nat) : Statement (.barrierUpTimeout p comm opNo) := by
  intro h u hu
  simp [Instr.wf] at h
  simp [Instr.units] at hu
  subst hu; simp [UnitKind.count]; omega
theorem releaseWaitTimeout (p : Nat) (comm : Nat) (opNo : Nat) : Statement (.releaseWaitTimeout p comm opNo) := by
  intro h u hu
  simp [Instr.wf] at h
  simp [Instr.units] at hu
  subst hu; simp [UnitKind.count]; omega
theorem gatherReceiveTimeout (p : Nat) (comm : Nat) (opNo : Nat) : Statement (.gatherReceiveTimeout p comm opNo) := by
  intro h u hu
  simp [Instr.wf] at h
  simp [Instr.units] at hu
  subst hu; simp [UnitKind.count]; omega
theorem exchangeCountMessage (p : Nat) (m : Msg) : Statement (.exchangeCountMessage p m) := by
  intro h u hu
  simp [Instr.wf] at h
  simp [Instr.units] at hu
  subst hu; simp [UnitKind.count]; omega
theorem exchangeRowsMessage (p : Nat) (m : Msg) : Statement (.exchangeRowsMessage p m) := by
  intro h u hu
  simp [Instr.wf] at h
  simp [Instr.units] at hu
  subst hu; simp [UnitKind.count]; omega
theorem exchangeReceiveTimeout (p : Nat) (comm : Nat) (opNo : Nat) : Statement (.exchangeReceiveTimeout p comm opNo) := by
  intro h u hu
  simp [Instr.wf] at h
  simp [Instr.units] at hu
  subst hu; simp [UnitKind.count]; omega
theorem fenceArrival (p : Nat) (m : Msg) : Statement (.fenceArrival p m) := by
  intro h u hu
  simp [Instr.wf] at h
  simp [Instr.units] at hu
  subst hu; simp [UnitKind.count]; omega
theorem fenceRelease (p : Nat) (m : Msg) : Statement (.fenceRelease p m) := by
  intro h u hu
  simp [Instr.wf] at h
  simp [Instr.units] at hu
  subst hu; simp [UnitKind.count]; omega
theorem batchRecordMessage (p : Nat) (m : Msg) : Statement (.batchRecordMessage p m) := by
  intro h u hu
  simp [Instr.wf] at h
  simp [Instr.units] at hu
  subst hu; simp [UnitKind.count]; omega
theorem batchAnswerMessage (p : Nat) (m : Msg) : Statement (.batchAnswerMessage p m) := by
  intro h u hu
  simp [Instr.wf] at h
  simp [Instr.units] at hu
  subst hu; simp [UnitKind.count]; omega
theorem batchAnswerTimeout (p : Nat) : Statement (.batchAnswerTimeout p) := by
  intro h u hu
  simp [Instr.wf] at h
  simp [Instr.units] at hu
  subst hu; simp [UnitKind.count]; omega
theorem closeValueMessage (p : Nat) (m : Msg) : Statement (.closeValueMessage p m) := by
  intro h u hu
  simp [Instr.wf] at h
  simp [Instr.units] at hu
  subst hu; simp [UnitKind.count]; omega
theorem sequenceGroupMessage (p : Nat) (m : Msg) : Statement (.sequenceGroupMessage p m) := by
  intro h u hu
  simp [Instr.wf] at h
  simp [Instr.units] at hu
  subst hu; simp [UnitKind.count]; omega
theorem replayRecordMessage (p : Nat) (m : Msg) : Statement (.replayRecordMessage p m) := by
  intro h u hu
  simp [Instr.wf] at h
  simp [Instr.units] at hu
  subst hu; simp [UnitKind.count]; omega
theorem mgmtMessage (p : Nat) (m : Msg) : Statement (.mgmtMessage p m) := by
  intro h u hu
  simp [Instr.wf] at h
  simp [Instr.units] at hu
  subst hu; simp [UnitKind.count]; omega
theorem flitReceive (port : Nat) (flit : BitVec 2048) : Statement (.flitReceive port flit) := by
  intro h u hu
  simp [Instr.wf] at h
  simp [Instr.units] at hu
  subst hu; simp [UnitKind.count]; omega
theorem laneFailed (port : Nat) (lane : Nat) : Statement (.laneFailed port lane) := by
  intro h u hu
  simp [Instr.wf] at h
  simp [Instr.units] at hu
  subst hu; simp [UnitKind.count]; omega
theorem restripeComplete (port : Nat) : Statement (.restripeComplete port) := by
  intro h u hu
  simp [Instr.wf] at h
  simp [Instr.units] at hu
  subst hu; simp [UnitKind.count]; omega
theorem partnerTraining (port : Nat) : Statement (.partnerTraining port) := by
  intro h u hu
  simp [Instr.wf] at h
  simp [Instr.units] at hu
  subst hu; simp [UnitKind.count]; omega
theorem linkUp (port : Nat) (partnerId : Nat) (partnerPort : Nat) (credits : List Nat) : Statement (.linkUp port partnerId partnerPort credits) := by
  intro h u hu
  simp [Instr.wf] at h
  simp [Instr.units] at hu
  subst hu; simp [UnitKind.count]; omega
theorem linkTrainFail (port : Nat) : Statement (.linkTrainFail port) := by
  intro h u hu
  simp [Instr.wf] at h
  simp [Instr.units] at hu
  subst hu; simp [UnitKind.count]; omega
theorem linkTrainRetry (port : Nat) : Statement (.linkTrainRetry port) := by
  intro h u hu
  simp [Instr.wf] at h
  simp [Instr.units] at hu
  subst hu; simp [UnitKind.count]; omega
theorem creditStall (port : Nat) (vc : Nat) : Statement (.creditStall port vc) := by
  intro h u hu
  simp [Instr.wf] at h
  simp [Instr.units] at hu
  subst hu; simp [UnitKind.count]; omega
theorem linkDown (port : Nat) : Statement (.linkDown port) := by
  intro h u hu
  simp [Instr.wf] at h
  simp [Instr.units] at hu
  subst hu; simp [UnitKind.count]; omega
theorem retrain (port : Nat) : Statement (.retrain port) := by
  intro h u hu
  simp [Instr.wf] at h
  simp [Instr.units] at hu
  subst hu; simp [UnitKind.count]; omega
theorem rolloutStepBoundary (b : Nat) : Statement (.rolloutStepBoundary b) := by
  intro h u hu
  simp [Instr.wf] at h
  simp [Instr.units] at hu
  subst hu; simp [UnitKind.count]; omega
theorem rolloutStepLaunch (b : Nat) : Statement (.rolloutStepLaunch b) := by
  intro h u hu
  simp [Instr.wf] at h
  simp [Instr.units] at hu
  subst hu; simp [UnitKind.count]; omega
theorem doorbellWrite (fn : Nat) (ring : Nat) (value : Nat) : Statement (.doorbellWrite fn ring value) := by
  intro h u hu
  simp [Instr.wf] at h
  simp [Instr.units] at hu
  rcases hu with rfl | rfl <;> simp [UnitKind.count] <;> omega
theorem ringEnable (fn : Nat) (ring : Nat) (cq : Bool) : Statement (.ringEnable fn ring cq) := by
  intro h u hu
  simp [Instr.wf] at h
  simp [Instr.units] at hu
  rcases hu with rfl | rfl <;> simp [UnitKind.count] <;> omega
theorem cqHeadWrite (fn : Nat) (ring : Nat) (value : Nat) : Statement (.cqHeadWrite fn ring value) := by
  intro h u hu
  simp [Instr.wf] at h
  simp [Instr.units] at hu
  rcases hu with rfl | rfl <;> simp [UnitKind.count] <;> omega
theorem coalesceTimeout (fn : Nat) (ring : Nat) : Statement (.coalesceTimeout fn ring) := by
  intro h u hu
  simp [Instr.wf] at h
  simp [Instr.units] at hu
  rcases hu with rfl | rfl <;> simp [UnitKind.count] <;> omega
theorem quiesceWrite (p : Nat) (value : Nat) : Statement (.quiesceWrite p value) := by
  intro h u hu
  simp [Instr.wf] at h
  simp [Instr.units] at hu
  subst hu; simp [UnitKind.count]; omega
theorem holdWrite (value : Nat) : Statement (.holdWrite value) := by
  intro _ u hu; cases hu
theorem fcAck (seq : Nat) : Statement (.fcAck seq) := by
  intro _ u hu; cases hu
theorem fcAckAll (value : Nat) : Statement (.fcAckAll value) := by
  intro _ u hu; cases hu
theorem numFlagsClear (t : Nat) (value : Nat) : Statement (.numFlagsClear t value) := by
  intro h u hu
  simp [Instr.wf] at h
  simp [Instr.units] at hu
  subst hu; simp [UnitKind.count]; omega
theorem kvCtrlWrite (fn : Nat) (b : Nat) (value : Nat) : Statement (.kvCtrlWrite fn b value) := by
  intro h u hu
  simp [Instr.wf] at h
  simp [Instr.units] at hu
  rcases hu with rfl | rfl <;> simp [UnitKind.count] <;> omega
theorem seqAreaWrite (fn : Nat) (b : Nat) (area : Nat) (size : Nat) : Statement (.seqAreaWrite fn b area size) := by
  intro h u hu
  simp [Instr.wf] at h
  simp [Instr.units] at hu
  rcases hu with rfl | rfl <;> simp [UnitKind.count] <;> omega
theorem flashNsWrite (p : Nat) (base : Nat) (size : Nat) (slot : Nat) : Statement (.flashNsWrite p base size slot) := by
  intro h u hu
  simp [Instr.wf] at h
  simp [Instr.units] at hu
  subst hu; simp [UnitKind.count]; omega
theorem recoveryChunk (k : Nat) (data : List Byte) : Statement (.recoveryChunk k data) := by
  intro _ u hu; cases hu
theorem recoveryGo : Statement (.recoveryGo) := by
  intro _ u hu; cases hu
theorem replayArm (p : Nat) : Statement (.replayArm p) := by
  intro h u hu
  simp [Instr.wf] at h
  simp [Instr.units] at hu
  subst hu; simp [UnitKind.count]; omega
theorem replayDisarm (p : Nat) : Statement (.replayDisarm p) := by
  intro h u hu
  simp [Instr.wf] at h
  simp [Instr.units] at hu
  subst hu; simp [UnitKind.count]; omega
theorem registerWrite (fn : Nat) (addr : Nat) (value : Nat) : Statement (.registerWrite fn addr value) := by
  intro h u hu
  simp [Instr.wf] at h
  simp [Instr.units] at hu
  subst hu; simp [UnitKind.count]; omega
theorem vfEnable (numVfs : Nat) : Statement (.vfEnable numVfs) := by
  intro _ u hu; cases hu
theorem vfDisable (vf : Nat) : Statement (.vfDisable vf) := by
  intro h u hu
  simp [Instr.wf] at h
  simp [Instr.units] at hu
  subst hu; simp [UnitKind.count]; omega
theorem warmReset (external : Bool) : Statement (.warmReset external) := by
  intro _ u hu; cases hu
theorem modulePowerOn (straps : Nat) : Statement (.modulePowerOn straps) := by
  intro _ u hu; cases hu
theorem powerDown (centivolts : Nat) : Statement (.powerDown centivolts) := by
  intro _ u hu; cases hu
theorem supplySag (centivolts : Nat) : Statement (.supplySag centivolts) := by
  intro _ u hu; cases hu
theorem sagEnd (centivolts : Nat) : Statement (.sagEnd centivolts) := by
  intro _ u hu; cases hu
theorem supplyUnder (centivolts : Nat) : Statement (.supplyUnder centivolts) := by
  intro _ u hu; cases hu
theorem powerCapAdjust (meanWatts : Nat) (slow : Bool) : Statement (.powerCapAdjust meanWatts slow) := by
  intro _ u hu; cases hu
theorem powerPeakLimit (watts : Nat) (centiamps : Nat) : Statement (.powerPeakLimit watts centiamps) := by
  intro _ u hu; cases hu
theorem thermalThrottle (stack : Option Nat) (celsius : Nat) : Statement (.thermalThrottle stack celsius) := by
  intro _ u hu; cases hu
theorem limit105 (celsius : Nat) : Statement (.limit105 celsius) := by
  intro _ u hu; cases hu
theorem thermalTrip (stack : Option Nat) (celsius : Nat) : Statement (.thermalTrip stack celsius) := by
  intro _ u hu; cases hu
theorem hbmRefreshDouble (stack : Nat) (celsius : Nat) : Statement (.hbmRefreshDouble stack celsius) := by
  intro _ u hu; cases hu
theorem temperatureRecovered (stack : Option Nat) (celsius : Nat) : Statement (.temperatureRecovered stack celsius) := by
  intro _ u hu; cases hu
theorem leak : Statement (.leak) := by
  intro _ u hu; cases hu
theorem tamper (cause : Nat) : Statement (.tamper cause) := by
  intro _ u hu; cases hu
theorem pllUnlock (pll : Nat) : Statement (.pllUnlock pll) := by
  intro _ u hu; cases hu
theorem collectorParity : Statement (.collectorParity) := by
  intro _ u hu; cases hu
theorem idleEntry : Statement (.idleEntry) := by
  intro _ u hu; cases hu
theorem idleWake : Statement (.idleWake) := by
  intro _ u hu; cases hu
theorem graceExpiry (seq : Nat) : Statement (.graceExpiry seq) := by
  intro _ u hu; cases hu
theorem quietExpiry (scope : Nat) : Statement (.quietExpiry scope) := by
  intro _ u hu; cases hu
theorem faultPulseEnd : Statement (.faultPulseEnd) := by
  intro _ u hu; cases hu
theorem getVersion (fn : Nat) (req : List Byte) : Statement (.getVersion fn req) := by
  intro h u hu
  simp [Instr.wf] at h
  simp [Instr.units] at hu
  subst hu; simp [UnitKind.count]; omega
theorem getCapabilities (fn : Nat) (req : List Byte) : Statement (.getCapabilities fn req) := by
  intro h u hu
  simp [Instr.wf] at h
  simp [Instr.units] at hu
  subst hu; simp [UnitKind.count]; omega
theorem negotiateAlgorithms (fn : Nat) (req : List Byte) : Statement (.negotiateAlgorithms fn req) := by
  intro h u hu
  simp [Instr.wf] at h
  simp [Instr.units] at hu
  subst hu; simp [UnitKind.count]; omega
theorem getDigests (fn : Nat) (req : List Byte) : Statement (.getDigests fn req) := by
  intro h u hu
  simp [Instr.wf] at h
  simp [Instr.units] at hu
  subst hu; simp [UnitKind.count]; omega
theorem getCertificate (fn : Nat) (req : List Byte) : Statement (.getCertificate fn req) := by
  intro h u hu
  simp [Instr.wf] at h
  simp [Instr.units] at hu
  subst hu; simp [UnitKind.count]; omega
theorem challenge (fn : Nat) (req : List Byte) : Statement (.challenge fn req) := by
  intro h u hu
  simp [Instr.wf] at h
  simp [Instr.units] at hu
  subst hu; simp [UnitKind.count]; omega
theorem getMeasurements (fn : Nat) (req : List Byte) : Statement (.getMeasurements fn req) := by
  intro h u hu
  simp [Instr.wf] at h
  simp [Instr.units] at hu
  subst hu; simp [UnitKind.count]; omega
theorem keyExchange (fn : Nat) (req : List Byte) : Statement (.keyExchange fn req) := by
  intro h u hu
  simp [Instr.wf] at h
  simp [Instr.units] at hu
  subst hu; simp [UnitKind.count]; omega
theorem finish (fn : Nat) (req : List Byte) : Statement (.finish fn req) := by
  intro h u hu
  simp [Instr.wf] at h
  simp [Instr.units] at hu
  subst hu; simp [UnitKind.count]; omega
theorem keyUpdate (fn : Nat) (req : List Byte) : Statement (.keyUpdate fn req) := by
  intro h u hu
  simp [Instr.wf] at h
  simp [Instr.units] at hu
  subst hu; simp [UnitKind.count]; omega
theorem endSession (fn : Nat) (req : List Byte) : Statement (.endSession fn req) := by
  intro h u hu
  simp [Instr.wf] at h
  simp [Instr.units] at hu
  subst hu; simp [UnitKind.count]; omega
theorem mctpControlMessage (req : List Byte) : Statement (.mctpControlMessage req) := by
  intro _ u hu; cases hu
theorem pldmBaseRequest (req : List Byte) : Statement (.pldmBaseRequest req) := by
  intro _ u hu; cases hu
theorem pldmPlatformRequest (req : List Byte) : Statement (.pldmPlatformRequest req) := by
  intro _ u hu; cases hu
theorem pldmFruRequest (req : List Byte) : Statement (.pldmFruRequest req) := by
  intro _ u hu; cases hu
theorem sensorUpdate (sensor : Nat) (value : Nat) : Statement (.sensorUpdate sensor value) := by
  intro _ u hu; cases hu
theorem leakCleared : Statement (.leakCleared) := by
  intro _ u hu; cases hu
theorem supplyUnderEnd (centivolts : Nat) : Statement (.supplyUnderEnd centivolts) := by
  intro _ u hu; cases hu
theorem pllLockRegained (pll : Nat) : Statement (.pllLockRegained pll) := by
  intro _ u hu; cases hu
theorem buddyTrailerConfirm (p : Nat) (m : Msg) : Statement (.buddyTrailerConfirm p m) := by
  intro h u hu
  simp [Instr.wf] at h
  simp [Instr.units] at hu
  subst hu; simp [UnitKind.count]; omega
theorem remoteLoadRequest (p : Nat) (m : Msg) : Statement (.remoteLoadRequest p m) := by
  intro h u hu
  simp [Instr.wf] at h
  simp [Instr.units] at hu
  subst hu; simp [UnitKind.count]; omega
theorem remoteLoadTimeout (p : Nat) : Statement (.remoteLoadTimeout p) := by
  intro h u hu
  simp [Instr.wf] at h
  simp [Instr.units] at hu
  subst hu; simp [UnitKind.count]; omega
theorem replicaFetchRequest (p : Nat) (m : Msg) : Statement (.replicaFetchRequest p m) := by
  intro h u hu
  simp [Instr.wf] at h
  simp [Instr.units] at hu
  subst hu; simp [UnitKind.count]; omega
theorem closeAgreementTimeout (b : Nat) : Statement (.closeAgreementTimeout b) := by
  intro h u hu
  simp [Instr.wf] at h
  simp [Instr.units] at hu
  subst hu; simp [UnitKind.count]; omega
theorem perstNRelease : Statement (.perstNRelease) := by
  intro _ u hu; cases hu
theorem flashProgramDone (p : Nat) : Statement (.flashProgramDone p) := by
  intro h u hu
  simp [Instr.wf] at h
  simp [Instr.units] at hu
  subst hu; simp [UnitKind.count]; omega

end Sys2Proof.Laws.Operands
end

