-- ==== Sys2Proof/Laws/Rows.lean ====
section
/-!
SUPPORT. What the row shapes do: a host command whose descriptor passes every check starts; a tile word that passes every check runs.
-/

namespace Sys2Proof.Machine

/-- A word that passes every check of its row runs (R160, R164, R183). -/
theorem tileRow_runs {s : State} {t cls op : Nat} {fmtOk : Nat → Bool} {uses : Nat → List (Nat × Nat)} {run : State → Nat → State} {w : Nat}
    (h : s.issues t cls op w (fmtOk (wFmt w)) (uses w)) (hn : opNamed cls op = true) :
    s.tileRow t cls op fmtOk uses run = run s w := by
  obtain ⟨hd, hb, hw, hc, ho, hf, hm, hu, h0, hq⟩ := h
  have h8 : ¬ 8 ≤ cls := by
    intro h
    have : opNamed cls op = false := by
      unfold opNamed
      split <;> first | omega | rfl
    simp [this] at hn
  subst hc ho
  unfold State.tileRow
  simp only [hd, hb, ← hw, hn, hm, hu, h8, Bool.not_true, Bool.false_eq_true, if_false]
  rw [if_neg (by simp), if_neg, if_neg, if_neg]
  · intro h
    simp only [Bool.and_eq_true, bne_iff_ne, ne_eq, decide_eq_true_eq] at h
    have := hq h.1.1 h.1.2
    omega
  · intro h
    simp only [Bool.and_eq_true, beq_iff_eq] at h
    rw [h0 h.2] at h
    simp at h
  · intro h
    simp only [Bool.and_eq_true, Bool.not_eq_true'] at h
    rw [hf h.1] at h
    simp at h

/-- An engine word whose work succeeds is in flight, its work done (R161, R163). -/
theorem engineRow_ok {s s' : State} {t cls op : Nat} {fmtOk : Nat → Bool} {uses : Nat → List (Nat × Nat)} {work : State → Nat → Eff} {w : Nat}
    {writes : Bool} (h : s.issues t cls op w (fmtOk (wFmt w)) (uses w)) (hn : opNamed cls op = true) (hk : work s w = .ok s') :
    s.engineRow t cls op fmtOk uses writes work = s'.enqueue t w writes true true 0 := by
  unfold State.engineRow
  rw [tileRow_runs h hn]
  simp only [hk]

/-- A descriptor that passes every check starts its command (R431, R432, R528). -/
theorem hostCmd_starts {s : State} {fn ring op : Nat} {spec : State → BitVec 512 → Spec} {later : State → BitVec 512 → Nat}
    {start : State → Cmd → State} {d : BitVec 512} {k : Spec} (h : s.accepts fn ring d k) (hk : spec s d = k) (ho : k.op = op)
    (hl : later (s.popSlot fn ring) d = 0) :
    s.hostCmd fn ring op spec later start = (start (s.taken fn ring k.partNo d).2 (s.taken fn ring k.partNo d).1).settle := by
  obtain ⟨hf, hd, hop, hs, hr, hm⟩ := h
  subst hk ho
  unfold Spec.partNo at *
  have hv : s.keyFails fn = false := by
    unfold State.fetchable at hf
    simp only [Bool.and_eq_true, Bool.not_eq_true'] at hf
    exact hf.2
  unfold State.hostCmd State.hostRow State.taken
  simp only [hv, Bool.false_and, Bool.false_eq_true, if_false]
  simp only [hf, hd, hop, hs, hr, hl, hm, Bool.not_true, Bool.false_eq_true, if_false, if_true, ne_eq, not_true_eq_false, or_self]

/-- The checks of a word and of its accesses pass, so its work is done, and its reads and writes land. -/
theorem guard_ok {s s' : State} {t req : Nat} {checks : List (Bool × Nat)} {accesses : List (Nat × Nat × Bool)} {k : Unit → Eff}
    (hc : checks.all (fun c => c.1) = true) (ha : s.spFaults t accesses = none) (hk : k () = .ok s') :
    s.guard t req checks accesses k = .ok (s'.wordLands s t req accesses) := by
  have : firstBad checks = none := by
    induction checks with
    | nil => rfl
    | cons c cs ih =>
      simp only [List.all_cons, Bool.and_eq_true] at hc
      unfold firstBad
      rw [if_pos hc.1, ih hc.2]
  unfold State.guard
  rw [this, ha]
  simp only [hk]
  rfl

end Sys2Proof.Machine
end

