-- ==== Sys2Proof/Laws/State.lean ====
section
/-!
SUPPORT. What a read gives after an update of the state: one lemma for each field of State and each update, and reads of what was just
written.
-/

set_option Elab.async false

namespace Sys2Proof.Machine

/-- A field reads as the value just stored in it, cut to its width; every other field as before. -/
theorem fget_fset (s : State) (f g : Fld) (i j v : Nat) :
    (s.fset f i v).fget g j = if g = f ∧ j = i then v % 2 ^ f.width else s.fget g j := by
  unfold State.fset State.fget
  rw [tab_get_set]
  by_cases h : g = f ∧ j = i
  · obtain ⟨rfl, rfl⟩ := h
    simp only [and_self, if_true]
    by_cases hv : v % 2 ^ g.width = g.reset j
    · simp [hv]
    · simp [hv]
  · rw [if_neg h, if_neg]
    intro e
    obtain ⟨rfl, rfl⟩ := fld_key_inj e
    exact h ⟨rfl, rfl⟩

/-- The field just stored. -/
theorem fget_fset_self (s : State) (f : Fld) (i v : Nat) : (s.fset f i v).fget f i = v % 2 ^ f.width := by
  rw [fget_fset, if_pos ⟨rfl, rfl⟩]

/-- Any other field. -/
theorem fget_fset_ne (s : State) {f g : Fld} {i j : Nat} (v : Nat) (h : g ≠ f ∨ j ≠ i) : (s.fset f i v).fget g j = s.fget g j := by
  rw [fget_fset, if_neg]
  rintro ⟨rfl, rfl⟩
  rcases h with h | h <;> exact h rfl


theorem tile_setTile (s : State) (t u : Nat) (x : Tile) : (s.setTile t x).tile u = if u = t then x else s.tile u := by
  unfold State.setTile State.tile
  rw [tab_get_set]
  by_cases h : u = t
  · simp only [h, if_true]
    by_cases hx : x = Tile.reset <;> simp [hx]
  · simp only [h, if_false]

theorem tile_modTile (s : State) (t u : Nat) (f : Tile → Tile) : (s.modTile t f).tile u = if u = t then f (s.tile t) else s.tile u := tile_setTile s t u _


theorem kettle_setKettle (s : State) (t u : Nat) (x : Kettle) : (s.setKettle t x).kettle u = if u = t then x else s.kettle u := by
  unfold State.setKettle State.kettle
  rw [tab_get_set]
  by_cases h : u = t
  · simp only [h, if_true]
    by_cases hx : x = Kettle.reset <;> simp [hx]
  · simp only [h, if_false]

theorem kettle_modKettle (s : State) (t u : Nat) (f : Kettle → Kettle) : (s.modKettle t f).kettle u = if u = t then f (s.kettle t) else s.kettle u := kettle_setKettle s t u _


theorem part_setPart (s : State) (t u : Nat) (x : Part) : (s.setPart t x).part u = if u = t then x else s.part u := by
  unfold State.setPart State.part
  rw [tab_get_set]
  by_cases h : u = t
  · simp only [h, if_true]
    by_cases hx : x = Part.reset <;> simp [hx]
  · simp only [h, if_false]

theorem part_modPart (s : State) (t u : Nat) (f : Part → Part) : (s.modPart t f).part u = if u = t then f (s.part t) else s.part u := part_setPart s t u _


theorem bay_setBay (s : State) (t u : Nat) (x : Bay) : (s.setBay t x).bay u = if u = t then x else s.bay u := by
  unfold State.setBay State.bay
  rw [tab_get_set]
  by_cases h : u = t
  · simp only [h, if_true]
    by_cases hx : x = Bay.reset <;> simp [hx]
  · simp only [h, if_false]

theorem bay_modBay (s : State) (t u : Nat) (f : Bay → Bay) : (s.modBay t f).bay u = if u = t then f (s.bay t) else s.bay u := bay_setBay s t u _


theorem ring_setRing (s : State) (t u : Nat) (x : Ring) : (s.setRing t x).ring u = if u = t then x else s.ring u := by
  unfold State.setRing State.ring
  rw [tab_get_set]
  by_cases h : u = t
  · simp only [h, if_true]
    by_cases hx : x = Ring.reset <;> simp [hx]
  · simp only [h, if_false]

theorem ring_modRing (s : State) (t u : Nat) (f : Ring → Ring) : (s.modRing t f).ring u = if u = t then f (s.ring t) else s.ring u := ring_setRing s t u _


theorem port_setPort (s : State) (t u : Nat) (x : Port) : (s.setPort t x).port u = if u = t then x else s.port u := by
  unfold State.setPort State.port
  rw [tab_get_set]
  by_cases h : u = t
  · simp only [h, if_true]
    by_cases hx : x = Port.reset <;> simp [hx]
  · simp only [h, if_false]

theorem port_modPort (s : State) (t u : Nat) (f : Port → Port) : (s.modPort t f).port u = if u = t then f (s.port t) else s.port u := port_setPort s t u _


/-! ### One lemma for each field and update -/

@[simp] theorem fset_pending (s : State) (g : Fld) (i v : Nat) : (s.fset g i v).pending = s.pending := rfl
@[simp] theorem fset_dev (s : State) (g : Fld) (i v : Nat) : (s.fset g i v).dev = s.dev := rfl
@[simp] theorem fset_host (s : State) (g : Fld) (i v : Nat) : (s.fset g i v).host = s.host := rfl
@[simp] theorem fset_acc (s : State) (g : Fld) (i v : Nat) : (s.fset g i v).acc = s.acc := rfl
@[simp] theorem fset_stat (s : State) (g : Fld) (i v : Nat) : (s.fset g i v).stat = s.stat := rfl
@[simp] theorem fset_bad (s : State) (g : Fld) (i v : Nat) : (s.fset g i v).bad = s.bad := rfl
@[simp] theorem fset_accBad (s : State) (g : Fld) (i v : Nat) : (s.fset g i v).accBad = s.accBad := rfl
@[simp] theorem fset_lpBad (s : State) (g : Fld) (i v : Nat) : (s.fset g i v).lpBad = s.lpBad := rfl
@[simp] theorem fset_err (s : State) (g : Fld) (i v : Nat) : (s.fset g i v).err = s.err := rfl
@[simp] theorem fset_tiles (s : State) (g : Fld) (i v : Nat) : (s.fset g i v).tiles = s.tiles := rfl
@[simp] theorem fset_kettles (s : State) (g : Fld) (i v : Nat) : (s.fset g i v).kettles = s.kettles := rfl
@[simp] theorem fset_parts (s : State) (g : Fld) (i v : Nat) : (s.fset g i v).parts = s.parts := rfl
@[simp] theorem fset_bays (s : State) (g : Fld) (i v : Nat) : (s.fset g i v).bays = s.bays := rfl
@[simp] theorem fset_rings (s : State) (g : Fld) (i v : Nat) : (s.fset g i v).rings = s.rings := rfl
@[simp] theorem fset_ports (s : State) (g : Fld) (i v : Nat) : (s.fset g i v).ports = s.ports := rfl
@[simp] theorem fset_reasm (s : State) (g : Fld) (i v : Nat) : (s.fset g i v).reasm = s.reasm := rfl
@[simp] theorem fset_cmds (s : State) (g : Fld) (i v : Nat) : (s.fset g i v).cmds = s.cmds := rfl
@[simp] theorem fset_nextCmd (s : State) (g : Fld) (i v : Nat) : (s.fset g i v).nextCmd = s.nextCmd := rfl
@[simp] theorem fset_moves (s : State) (g : Fld) (i v : Nat) : (s.fset g i v).moves = s.moves := rfl
@[simp] theorem fset_nextMove (s : State) (g : Fld) (i v : Nat) : (s.fset g i v).nextMove = s.nextMove := rfl
@[simp] theorem fset_images (s : State) (g : Fld) (i v : Nat) : (s.fset g i v).images = s.images := rfl
@[simp] theorem fset_nextHandle (s : State) (g : Fld) (i v : Nat) : (s.fset g i v).nextHandle = s.nextHandle := rfl
@[simp] theorem fset_loader (s : State) (g : Fld) (i v : Nat) : (s.fset g i v).loader = s.loader := rfl
@[simp] theorem fset_sparing (s : State) (g : Fld) (i v : Nat) : (s.fset g i v).sparing = s.sparing := rfl
@[simp] theorem fset_due (s : State) (g : Fld) (i v : Nat) : (s.fset g i v).due = s.due := rfl
@[simp] theorem fset_exits (s : State) (g : Fld) (i v : Nat) : (s.fset g i v).exits = s.exits := rfl
@[simp] theorem fset_fc (s : State) (g : Fld) (i v : Nat) : (s.fset g i v).fc = s.fc := rfl
@[simp] theorem fset_sec (s : State) (g : Fld) (i v : Nat) : (s.fset g i v).sec = s.sec := rfl
@[simp] theorem fset_pwr (s : State) (g : Fld) (i v : Nat) : (s.fset g i v).pwr = s.pwr := rfl
@[simp] theorem fset_numVfs (s : State) (g : Fld) (i v : Nat) : (s.fset g i v).numVfs = s.numVfs := rfl
@[simp] theorem fset_vfUp (s : State) (g : Fld) (i v : Nat) : (s.fset g i v).vfUp = s.vfUp := rfl
@[simp] theorem fset_msixOn (s : State) (g : Fld) (i v : Nat) : (s.fset g i v).msixOn = s.msixOn := rfl
@[simp] theorem fset_msixPend (s : State) (g : Fld) (i v : Nat) : (s.fset g i v).msixPend = s.msixPend := rfl
@[simp] theorem fset_msixAddr (s : State) (g : Fld) (i v : Nat) : (s.fset g i v).msixAddr = s.msixAddr := rfl
@[simp] theorem fset_msixData (s : State) (g : Fld) (i v : Nat) : (s.fset g i v).msixData = s.msixData := rfl
@[simp] theorem fset_irqs (s : State) (g : Fld) (i v : Nat) : (s.fset g i v).irqs = s.irqs := rfl
@[simp] theorem fset_tx (s : State) (g : Fld) (i v : Nat) : (s.fset g i v).tx = s.tx := rfl
@[simp] theorem fset_wire (s : State) (g : Fld) (i v : Nat) : (s.fset g i v).wire = s.wire := rfl
@[simp] theorem fset_inbox (s : State) (g : Fld) (i v : Nat) : (s.fset g i v).inbox = s.inbox := rfl
@[simp] theorem fset_regWrites (s : State) (g : Fld) (i v : Nat) : (s.fset g i v).regWrites = s.regWrites := rfl
@[simp] theorem fset_mgmt (s : State) (g : Fld) (i v : Nat) : (s.fset g i v).mgmt = s.mgmt := rfl
@[simp] theorem fset_time (s : State) (g : Fld) (i v : Nat) : (s.fset g i v).time = s.time := rfl
@[simp] theorem fset_clock0 (s : State) (g : Fld) (i v : Nat) : (s.fset g i v).clock0 = s.clock0 := rfl
@[simp] theorem fset_free (s : State) (g : Fld) (i v : Nat) : (s.fset g i v).free = s.free := rfl
@[simp] theorem setTile_pending (s : State) (t : Nat) (x : Tile) : (s.setTile t x).pending = s.pending := rfl
@[simp] theorem setTile_regs (s : State) (t : Nat) (x : Tile) : (s.setTile t x).regs = s.regs := rfl
@[simp] theorem setTile_dev (s : State) (t : Nat) (x : Tile) : (s.setTile t x).dev = s.dev := rfl
@[simp] theorem setTile_host (s : State) (t : Nat) (x : Tile) : (s.setTile t x).host = s.host := rfl
@[simp] theorem setTile_acc (s : State) (t : Nat) (x : Tile) : (s.setTile t x).acc = s.acc := rfl
@[simp] theorem setTile_stat (s : State) (t : Nat) (x : Tile) : (s.setTile t x).stat = s.stat := rfl
@[simp] theorem setTile_bad (s : State) (t : Nat) (x : Tile) : (s.setTile t x).bad = s.bad := rfl
@[simp] theorem setTile_accBad (s : State) (t : Nat) (x : Tile) : (s.setTile t x).accBad = s.accBad := rfl
@[simp] theorem setTile_lpBad (s : State) (t : Nat) (x : Tile) : (s.setTile t x).lpBad = s.lpBad := rfl
@[simp] theorem setTile_err (s : State) (t : Nat) (x : Tile) : (s.setTile t x).err = s.err := rfl
@[simp] theorem setTile_kettles (s : State) (t : Nat) (x : Tile) : (s.setTile t x).kettles = s.kettles := rfl
@[simp] theorem setTile_parts (s : State) (t : Nat) (x : Tile) : (s.setTile t x).parts = s.parts := rfl
@[simp] theorem setTile_bays (s : State) (t : Nat) (x : Tile) : (s.setTile t x).bays = s.bays := rfl
@[simp] theorem setTile_rings (s : State) (t : Nat) (x : Tile) : (s.setTile t x).rings = s.rings := rfl
@[simp] theorem setTile_ports (s : State) (t : Nat) (x : Tile) : (s.setTile t x).ports = s.ports := rfl
@[simp] theorem setTile_reasm (s : State) (t : Nat) (x : Tile) : (s.setTile t x).reasm = s.reasm := rfl
@[simp] theorem setTile_cmds (s : State) (t : Nat) (x : Tile) : (s.setTile t x).cmds = s.cmds := rfl
@[simp] theorem setTile_nextCmd (s : State) (t : Nat) (x : Tile) : (s.setTile t x).nextCmd = s.nextCmd := rfl
@[simp] theorem setTile_moves (s : State) (t : Nat) (x : Tile) : (s.setTile t x).moves = s.moves := rfl
@[simp] theorem setTile_nextMove (s : State) (t : Nat) (x : Tile) : (s.setTile t x).nextMove = s.nextMove := rfl
@[simp] theorem setTile_images (s : State) (t : Nat) (x : Tile) : (s.setTile t x).images = s.images := rfl
@[simp] theorem setTile_nextHandle (s : State) (t : Nat) (x : Tile) : (s.setTile t x).nextHandle = s.nextHandle := rfl
@[simp] theorem setTile_loader (s : State) (t : Nat) (x : Tile) : (s.setTile t x).loader = s.loader := rfl
@[simp] theorem setTile_sparing (s : State) (t : Nat) (x : Tile) : (s.setTile t x).sparing = s.sparing := rfl
@[simp] theorem setTile_due (s : State) (t : Nat) (x : Tile) : (s.setTile t x).due = s.due := rfl
@[simp] theorem setTile_exits (s : State) (t : Nat) (x : Tile) : (s.setTile t x).exits = s.exits := rfl
@[simp] theorem setTile_fc (s : State) (t : Nat) (x : Tile) : (s.setTile t x).fc = s.fc := rfl
@[simp] theorem setTile_sec (s : State) (t : Nat) (x : Tile) : (s.setTile t x).sec = s.sec := rfl
@[simp] theorem setTile_pwr (s : State) (t : Nat) (x : Tile) : (s.setTile t x).pwr = s.pwr := rfl
@[simp] theorem setTile_numVfs (s : State) (t : Nat) (x : Tile) : (s.setTile t x).numVfs = s.numVfs := rfl
@[simp] theorem setTile_vfUp (s : State) (t : Nat) (x : Tile) : (s.setTile t x).vfUp = s.vfUp := rfl
@[simp] theorem setTile_msixOn (s : State) (t : Nat) (x : Tile) : (s.setTile t x).msixOn = s.msixOn := rfl
@[simp] theorem setTile_msixPend (s : State) (t : Nat) (x : Tile) : (s.setTile t x).msixPend = s.msixPend := rfl
@[simp] theorem setTile_msixAddr (s : State) (t : Nat) (x : Tile) : (s.setTile t x).msixAddr = s.msixAddr := rfl
@[simp] theorem setTile_msixData (s : State) (t : Nat) (x : Tile) : (s.setTile t x).msixData = s.msixData := rfl
@[simp] theorem setTile_irqs (s : State) (t : Nat) (x : Tile) : (s.setTile t x).irqs = s.irqs := rfl
@[simp] theorem setTile_tx (s : State) (t : Nat) (x : Tile) : (s.setTile t x).tx = s.tx := rfl
@[simp] theorem setTile_wire (s : State) (t : Nat) (x : Tile) : (s.setTile t x).wire = s.wire := rfl
@[simp] theorem setTile_inbox (s : State) (t : Nat) (x : Tile) : (s.setTile t x).inbox = s.inbox := rfl
@[simp] theorem setTile_regWrites (s : State) (t : Nat) (x : Tile) : (s.setTile t x).regWrites = s.regWrites := rfl
@[simp] theorem setTile_mgmt (s : State) (t : Nat) (x : Tile) : (s.setTile t x).mgmt = s.mgmt := rfl
@[simp] theorem setTile_time (s : State) (t : Nat) (x : Tile) : (s.setTile t x).time = s.time := rfl
@[simp] theorem setTile_clock0 (s : State) (t : Nat) (x : Tile) : (s.setTile t x).clock0 = s.clock0 := rfl
@[simp] theorem setTile_free (s : State) (t : Nat) (x : Tile) : (s.setTile t x).free = s.free := rfl
@[simp] theorem modTile_pending (s : State) (t : Nat) (x : Tile → Tile) : (s.modTile t x).pending = s.pending := rfl
@[simp] theorem modTile_regs (s : State) (t : Nat) (x : Tile → Tile) : (s.modTile t x).regs = s.regs := rfl
@[simp] theorem modTile_dev (s : State) (t : Nat) (x : Tile → Tile) : (s.modTile t x).dev = s.dev := rfl
@[simp] theorem modTile_host (s : State) (t : Nat) (x : Tile → Tile) : (s.modTile t x).host = s.host := rfl
@[simp] theorem modTile_acc (s : State) (t : Nat) (x : Tile → Tile) : (s.modTile t x).acc = s.acc := rfl
@[simp] theorem modTile_stat (s : State) (t : Nat) (x : Tile → Tile) : (s.modTile t x).stat = s.stat := rfl
@[simp] theorem modTile_bad (s : State) (t : Nat) (x : Tile → Tile) : (s.modTile t x).bad = s.bad := rfl
@[simp] theorem modTile_accBad (s : State) (t : Nat) (x : Tile → Tile) : (s.modTile t x).accBad = s.accBad := rfl
@[simp] theorem modTile_lpBad (s : State) (t : Nat) (x : Tile → Tile) : (s.modTile t x).lpBad = s.lpBad := rfl
@[simp] theorem modTile_err (s : State) (t : Nat) (x : Tile → Tile) : (s.modTile t x).err = s.err := rfl
@[simp] theorem modTile_kettles (s : State) (t : Nat) (x : Tile → Tile) : (s.modTile t x).kettles = s.kettles := rfl
@[simp] theorem modTile_parts (s : State) (t : Nat) (x : Tile → Tile) : (s.modTile t x).parts = s.parts := rfl
@[simp] theorem modTile_bays (s : State) (t : Nat) (x : Tile → Tile) : (s.modTile t x).bays = s.bays := rfl
@[simp] theorem modTile_rings (s : State) (t : Nat) (x : Tile → Tile) : (s.modTile t x).rings = s.rings := rfl
@[simp] theorem modTile_ports (s : State) (t : Nat) (x : Tile → Tile) : (s.modTile t x).ports = s.ports := rfl
@[simp] theorem modTile_reasm (s : State) (t : Nat) (x : Tile → Tile) : (s.modTile t x).reasm = s.reasm := rfl
@[simp] theorem modTile_cmds (s : State) (t : Nat) (x : Tile → Tile) : (s.modTile t x).cmds = s.cmds := rfl
@[simp] theorem modTile_nextCmd (s : State) (t : Nat) (x : Tile → Tile) : (s.modTile t x).nextCmd = s.nextCmd := rfl
@[simp] theorem modTile_moves (s : State) (t : Nat) (x : Tile → Tile) : (s.modTile t x).moves = s.moves := rfl
@[simp] theorem modTile_nextMove (s : State) (t : Nat) (x : Tile → Tile) : (s.modTile t x).nextMove = s.nextMove := rfl
@[simp] theorem modTile_images (s : State) (t : Nat) (x : Tile → Tile) : (s.modTile t x).images = s.images := rfl
@[simp] theorem modTile_nextHandle (s : State) (t : Nat) (x : Tile → Tile) : (s.modTile t x).nextHandle = s.nextHandle := rfl
@[simp] theorem modTile_loader (s : State) (t : Nat) (x : Tile → Tile) : (s.modTile t x).loader = s.loader := rfl
@[simp] theorem modTile_sparing (s : State) (t : Nat) (x : Tile → Tile) : (s.modTile t x).sparing = s.sparing := rfl
@[simp] theorem modTile_due (s : State) (t : Nat) (x : Tile → Tile) : (s.modTile t x).due = s.due := rfl
@[simp] theorem modTile_exits (s : State) (t : Nat) (x : Tile → Tile) : (s.modTile t x).exits = s.exits := rfl
@[simp] theorem modTile_fc (s : State) (t : Nat) (x : Tile → Tile) : (s.modTile t x).fc = s.fc := rfl
@[simp] theorem modTile_sec (s : State) (t : Nat) (x : Tile → Tile) : (s.modTile t x).sec = s.sec := rfl
@[simp] theorem modTile_pwr (s : State) (t : Nat) (x : Tile → Tile) : (s.modTile t x).pwr = s.pwr := rfl
@[simp] theorem modTile_numVfs (s : State) (t : Nat) (x : Tile → Tile) : (s.modTile t x).numVfs = s.numVfs := rfl
@[simp] theorem modTile_vfUp (s : State) (t : Nat) (x : Tile → Tile) : (s.modTile t x).vfUp = s.vfUp := rfl
@[simp] theorem modTile_msixOn (s : State) (t : Nat) (x : Tile → Tile) : (s.modTile t x).msixOn = s.msixOn := rfl
@[simp] theorem modTile_msixPend (s : State) (t : Nat) (x : Tile → Tile) : (s.modTile t x).msixPend = s.msixPend := rfl
@[simp] theorem modTile_msixAddr (s : State) (t : Nat) (x : Tile → Tile) : (s.modTile t x).msixAddr = s.msixAddr := rfl
@[simp] theorem modTile_msixData (s : State) (t : Nat) (x : Tile → Tile) : (s.modTile t x).msixData = s.msixData := rfl
@[simp] theorem modTile_irqs (s : State) (t : Nat) (x : Tile → Tile) : (s.modTile t x).irqs = s.irqs := rfl
@[simp] theorem modTile_tx (s : State) (t : Nat) (x : Tile → Tile) : (s.modTile t x).tx = s.tx := rfl
@[simp] theorem modTile_wire (s : State) (t : Nat) (x : Tile → Tile) : (s.modTile t x).wire = s.wire := rfl
@[simp] theorem modTile_inbox (s : State) (t : Nat) (x : Tile → Tile) : (s.modTile t x).inbox = s.inbox := rfl
@[simp] theorem modTile_regWrites (s : State) (t : Nat) (x : Tile → Tile) : (s.modTile t x).regWrites = s.regWrites := rfl
@[simp] theorem modTile_mgmt (s : State) (t : Nat) (x : Tile → Tile) : (s.modTile t x).mgmt = s.mgmt := rfl
@[simp] theorem modTile_time (s : State) (t : Nat) (x : Tile → Tile) : (s.modTile t x).time = s.time := rfl
@[simp] theorem modTile_clock0 (s : State) (t : Nat) (x : Tile → Tile) : (s.modTile t x).clock0 = s.clock0 := rfl
@[simp] theorem modTile_free (s : State) (t : Nat) (x : Tile → Tile) : (s.modTile t x).free = s.free := rfl
@[simp] theorem setKettle_pending (s : State) (t : Nat) (x : Kettle) : (s.setKettle t x).pending = s.pending := rfl
@[simp] theorem setKettle_regs (s : State) (t : Nat) (x : Kettle) : (s.setKettle t x).regs = s.regs := rfl
@[simp] theorem setKettle_dev (s : State) (t : Nat) (x : Kettle) : (s.setKettle t x).dev = s.dev := rfl
@[simp] theorem setKettle_host (s : State) (t : Nat) (x : Kettle) : (s.setKettle t x).host = s.host := rfl
@[simp] theorem setKettle_acc (s : State) (t : Nat) (x : Kettle) : (s.setKettle t x).acc = s.acc := rfl
@[simp] theorem setKettle_stat (s : State) (t : Nat) (x : Kettle) : (s.setKettle t x).stat = s.stat := rfl
@[simp] theorem setKettle_bad (s : State) (t : Nat) (x : Kettle) : (s.setKettle t x).bad = s.bad := rfl
@[simp] theorem setKettle_accBad (s : State) (t : Nat) (x : Kettle) : (s.setKettle t x).accBad = s.accBad := rfl
@[simp] theorem setKettle_lpBad (s : State) (t : Nat) (x : Kettle) : (s.setKettle t x).lpBad = s.lpBad := rfl
@[simp] theorem setKettle_err (s : State) (t : Nat) (x : Kettle) : (s.setKettle t x).err = s.err := rfl
@[simp] theorem setKettle_tiles (s : State) (t : Nat) (x : Kettle) : (s.setKettle t x).tiles = s.tiles := rfl
@[simp] theorem setKettle_parts (s : State) (t : Nat) (x : Kettle) : (s.setKettle t x).parts = s.parts := rfl
@[simp] theorem setKettle_bays (s : State) (t : Nat) (x : Kettle) : (s.setKettle t x).bays = s.bays := rfl
@[simp] theorem setKettle_rings (s : State) (t : Nat) (x : Kettle) : (s.setKettle t x).rings = s.rings := rfl
@[simp] theorem setKettle_ports (s : State) (t : Nat) (x : Kettle) : (s.setKettle t x).ports = s.ports := rfl
@[simp] theorem setKettle_reasm (s : State) (t : Nat) (x : Kettle) : (s.setKettle t x).reasm = s.reasm := rfl
@[simp] theorem setKettle_cmds (s : State) (t : Nat) (x : Kettle) : (s.setKettle t x).cmds = s.cmds := rfl
@[simp] theorem setKettle_nextCmd (s : State) (t : Nat) (x : Kettle) : (s.setKettle t x).nextCmd = s.nextCmd := rfl
@[simp] theorem setKettle_moves (s : State) (t : Nat) (x : Kettle) : (s.setKettle t x).moves = s.moves := rfl
@[simp] theorem setKettle_nextMove (s : State) (t : Nat) (x : Kettle) : (s.setKettle t x).nextMove = s.nextMove := rfl
@[simp] theorem setKettle_images (s : State) (t : Nat) (x : Kettle) : (s.setKettle t x).images = s.images := rfl
@[simp] theorem setKettle_nextHandle (s : State) (t : Nat) (x : Kettle) : (s.setKettle t x).nextHandle = s.nextHandle := rfl
@[simp] theorem setKettle_loader (s : State) (t : Nat) (x : Kettle) : (s.setKettle t x).loader = s.loader := rfl
@[simp] theorem setKettle_sparing (s : State) (t : Nat) (x : Kettle) : (s.setKettle t x).sparing = s.sparing := rfl
@[simp] theorem setKettle_due (s : State) (t : Nat) (x : Kettle) : (s.setKettle t x).due = s.due := rfl
@[simp] theorem setKettle_exits (s : State) (t : Nat) (x : Kettle) : (s.setKettle t x).exits = s.exits := rfl
@[simp] theorem setKettle_fc (s : State) (t : Nat) (x : Kettle) : (s.setKettle t x).fc = s.fc := rfl
@[simp] theorem setKettle_sec (s : State) (t : Nat) (x : Kettle) : (s.setKettle t x).sec = s.sec := rfl
@[simp] theorem setKettle_pwr (s : State) (t : Nat) (x : Kettle) : (s.setKettle t x).pwr = s.pwr := rfl
@[simp] theorem setKettle_numVfs (s : State) (t : Nat) (x : Kettle) : (s.setKettle t x).numVfs = s.numVfs := rfl
@[simp] theorem setKettle_vfUp (s : State) (t : Nat) (x : Kettle) : (s.setKettle t x).vfUp = s.vfUp := rfl
@[simp] theorem setKettle_msixOn (s : State) (t : Nat) (x : Kettle) : (s.setKettle t x).msixOn = s.msixOn := rfl
@[simp] theorem setKettle_msixPend (s : State) (t : Nat) (x : Kettle) : (s.setKettle t x).msixPend = s.msixPend := rfl
@[simp] theorem setKettle_msixAddr (s : State) (t : Nat) (x : Kettle) : (s.setKettle t x).msixAddr = s.msixAddr := rfl
@[simp] theorem setKettle_msixData (s : State) (t : Nat) (x : Kettle) : (s.setKettle t x).msixData = s.msixData := rfl
@[simp] theorem setKettle_irqs (s : State) (t : Nat) (x : Kettle) : (s.setKettle t x).irqs = s.irqs := rfl
@[simp] theorem setKettle_tx (s : State) (t : Nat) (x : Kettle) : (s.setKettle t x).tx = s.tx := rfl
@[simp] theorem setKettle_wire (s : State) (t : Nat) (x : Kettle) : (s.setKettle t x).wire = s.wire := rfl
@[simp] theorem setKettle_inbox (s : State) (t : Nat) (x : Kettle) : (s.setKettle t x).inbox = s.inbox := rfl
@[simp] theorem setKettle_regWrites (s : State) (t : Nat) (x : Kettle) : (s.setKettle t x).regWrites = s.regWrites := rfl
@[simp] theorem setKettle_mgmt (s : State) (t : Nat) (x : Kettle) : (s.setKettle t x).mgmt = s.mgmt := rfl
@[simp] theorem setKettle_time (s : State) (t : Nat) (x : Kettle) : (s.setKettle t x).time = s.time := rfl
@[simp] theorem setKettle_clock0 (s : State) (t : Nat) (x : Kettle) : (s.setKettle t x).clock0 = s.clock0 := rfl
@[simp] theorem setKettle_free (s : State) (t : Nat) (x : Kettle) : (s.setKettle t x).free = s.free := rfl
@[simp] theorem modKettle_pending (s : State) (t : Nat) (x : Kettle → Kettle) : (s.modKettle t x).pending = s.pending := rfl
@[simp] theorem modKettle_regs (s : State) (t : Nat) (x : Kettle → Kettle) : (s.modKettle t x).regs = s.regs := rfl
@[simp] theorem modKettle_dev (s : State) (t : Nat) (x : Kettle → Kettle) : (s.modKettle t x).dev = s.dev := rfl
@[simp] theorem modKettle_host (s : State) (t : Nat) (x : Kettle → Kettle) : (s.modKettle t x).host = s.host := rfl
@[simp] theorem modKettle_acc (s : State) (t : Nat) (x : Kettle → Kettle) : (s.modKettle t x).acc = s.acc := rfl
@[simp] theorem modKettle_stat (s : State) (t : Nat) (x : Kettle → Kettle) : (s.modKettle t x).stat = s.stat := rfl
@[simp] theorem modKettle_bad (s : State) (t : Nat) (x : Kettle → Kettle) : (s.modKettle t x).bad = s.bad := rfl
@[simp] theorem modKettle_accBad (s : State) (t : Nat) (x : Kettle → Kettle) : (s.modKettle t x).accBad = s.accBad := rfl
@[simp] theorem modKettle_lpBad (s : State) (t : Nat) (x : Kettle → Kettle) : (s.modKettle t x).lpBad = s.lpBad := rfl
@[simp] theorem modKettle_err (s : State) (t : Nat) (x : Kettle → Kettle) : (s.modKettle t x).err = s.err := rfl
@[simp] theorem modKettle_tiles (s : State) (t : Nat) (x : Kettle → Kettle) : (s.modKettle t x).tiles = s.tiles := rfl
@[simp] theorem modKettle_parts (s : State) (t : Nat) (x : Kettle → Kettle) : (s.modKettle t x).parts = s.parts := rfl
@[simp] theorem modKettle_bays (s : State) (t : Nat) (x : Kettle → Kettle) : (s.modKettle t x).bays = s.bays := rfl
@[simp] theorem modKettle_rings (s : State) (t : Nat) (x : Kettle → Kettle) : (s.modKettle t x).rings = s.rings := rfl
@[simp] theorem modKettle_ports (s : State) (t : Nat) (x : Kettle → Kettle) : (s.modKettle t x).ports = s.ports := rfl
@[simp] theorem modKettle_reasm (s : State) (t : Nat) (x : Kettle → Kettle) : (s.modKettle t x).reasm = s.reasm := rfl
@[simp] theorem modKettle_cmds (s : State) (t : Nat) (x : Kettle → Kettle) : (s.modKettle t x).cmds = s.cmds := rfl
@[simp] theorem modKettle_nextCmd (s : State) (t : Nat) (x : Kettle → Kettle) : (s.modKettle t x).nextCmd = s.nextCmd := rfl
@[simp] theorem modKettle_moves (s : State) (t : Nat) (x : Kettle → Kettle) : (s.modKettle t x).moves = s.moves := rfl
@[simp] theorem modKettle_nextMove (s : State) (t : Nat) (x : Kettle → Kettle) : (s.modKettle t x).nextMove = s.nextMove := rfl
@[simp] theorem modKettle_images (s : State) (t : Nat) (x : Kettle → Kettle) : (s.modKettle t x).images = s.images := rfl
@[simp] theorem modKettle_nextHandle (s : State) (t : Nat) (x : Kettle → Kettle) : (s.modKettle t x).nextHandle = s.nextHandle := rfl
@[simp] theorem modKettle_loader (s : State) (t : Nat) (x : Kettle → Kettle) : (s.modKettle t x).loader = s.loader := rfl
@[simp] theorem modKettle_sparing (s : State) (t : Nat) (x : Kettle → Kettle) : (s.modKettle t x).sparing = s.sparing := rfl
@[simp] theorem modKettle_due (s : State) (t : Nat) (x : Kettle → Kettle) : (s.modKettle t x).due = s.due := rfl
@[simp] theorem modKettle_exits (s : State) (t : Nat) (x : Kettle → Kettle) : (s.modKettle t x).exits = s.exits := rfl
@[simp] theorem modKettle_fc (s : State) (t : Nat) (x : Kettle → Kettle) : (s.modKettle t x).fc = s.fc := rfl
@[simp] theorem modKettle_sec (s : State) (t : Nat) (x : Kettle → Kettle) : (s.modKettle t x).sec = s.sec := rfl
@[simp] theorem modKettle_pwr (s : State) (t : Nat) (x : Kettle → Kettle) : (s.modKettle t x).pwr = s.pwr := rfl
@[simp] theorem modKettle_numVfs (s : State) (t : Nat) (x : Kettle → Kettle) : (s.modKettle t x).numVfs = s.numVfs := rfl
@[simp] theorem modKettle_vfUp (s : State) (t : Nat) (x : Kettle → Kettle) : (s.modKettle t x).vfUp = s.vfUp := rfl
@[simp] theorem modKettle_msixOn (s : State) (t : Nat) (x : Kettle → Kettle) : (s.modKettle t x).msixOn = s.msixOn := rfl
@[simp] theorem modKettle_msixPend (s : State) (t : Nat) (x : Kettle → Kettle) : (s.modKettle t x).msixPend = s.msixPend := rfl
@[simp] theorem modKettle_msixAddr (s : State) (t : Nat) (x : Kettle → Kettle) : (s.modKettle t x).msixAddr = s.msixAddr := rfl
@[simp] theorem modKettle_msixData (s : State) (t : Nat) (x : Kettle → Kettle) : (s.modKettle t x).msixData = s.msixData := rfl
@[simp] theorem modKettle_irqs (s : State) (t : Nat) (x : Kettle → Kettle) : (s.modKettle t x).irqs = s.irqs := rfl
@[simp] theorem modKettle_tx (s : State) (t : Nat) (x : Kettle → Kettle) : (s.modKettle t x).tx = s.tx := rfl
@[simp] theorem modKettle_wire (s : State) (t : Nat) (x : Kettle → Kettle) : (s.modKettle t x).wire = s.wire := rfl
@[simp] theorem modKettle_inbox (s : State) (t : Nat) (x : Kettle → Kettle) : (s.modKettle t x).inbox = s.inbox := rfl
@[simp] theorem modKettle_regWrites (s : State) (t : Nat) (x : Kettle → Kettle) : (s.modKettle t x).regWrites = s.regWrites := rfl
@[simp] theorem modKettle_mgmt (s : State) (t : Nat) (x : Kettle → Kettle) : (s.modKettle t x).mgmt = s.mgmt := rfl
@[simp] theorem modKettle_time (s : State) (t : Nat) (x : Kettle → Kettle) : (s.modKettle t x).time = s.time := rfl
@[simp] theorem modKettle_clock0 (s : State) (t : Nat) (x : Kettle → Kettle) : (s.modKettle t x).clock0 = s.clock0 := rfl
@[simp] theorem modKettle_free (s : State) (t : Nat) (x : Kettle → Kettle) : (s.modKettle t x).free = s.free := rfl
@[simp] theorem setPart_pending (s : State) (t : Nat) (x : Part) : (s.setPart t x).pending = s.pending := rfl
@[simp] theorem setPart_regs (s : State) (t : Nat) (x : Part) : (s.setPart t x).regs = s.regs := rfl
@[simp] theorem setPart_dev (s : State) (t : Nat) (x : Part) : (s.setPart t x).dev = s.dev := rfl
@[simp] theorem setPart_host (s : State) (t : Nat) (x : Part) : (s.setPart t x).host = s.host := rfl
@[simp] theorem setPart_acc (s : State) (t : Nat) (x : Part) : (s.setPart t x).acc = s.acc := rfl
@[simp] theorem setPart_stat (s : State) (t : Nat) (x : Part) : (s.setPart t x).stat = s.stat := rfl
@[simp] theorem setPart_bad (s : State) (t : Nat) (x : Part) : (s.setPart t x).bad = s.bad := rfl
@[simp] theorem setPart_accBad (s : State) (t : Nat) (x : Part) : (s.setPart t x).accBad = s.accBad := rfl
@[simp] theorem setPart_lpBad (s : State) (t : Nat) (x : Part) : (s.setPart t x).lpBad = s.lpBad := rfl
@[simp] theorem setPart_err (s : State) (t : Nat) (x : Part) : (s.setPart t x).err = s.err := rfl
@[simp] theorem setPart_tiles (s : State) (t : Nat) (x : Part) : (s.setPart t x).tiles = s.tiles := rfl
@[simp] theorem setPart_kettles (s : State) (t : Nat) (x : Part) : (s.setPart t x).kettles = s.kettles := rfl
@[simp] theorem setPart_bays (s : State) (t : Nat) (x : Part) : (s.setPart t x).bays = s.bays := rfl
@[simp] theorem setPart_rings (s : State) (t : Nat) (x : Part) : (s.setPart t x).rings = s.rings := rfl
@[simp] theorem setPart_ports (s : State) (t : Nat) (x : Part) : (s.setPart t x).ports = s.ports := rfl
@[simp] theorem setPart_reasm (s : State) (t : Nat) (x : Part) : (s.setPart t x).reasm = s.reasm := rfl
@[simp] theorem setPart_cmds (s : State) (t : Nat) (x : Part) : (s.setPart t x).cmds = s.cmds := rfl
@[simp] theorem setPart_nextCmd (s : State) (t : Nat) (x : Part) : (s.setPart t x).nextCmd = s.nextCmd := rfl
@[simp] theorem setPart_moves (s : State) (t : Nat) (x : Part) : (s.setPart t x).moves = s.moves := rfl
@[simp] theorem setPart_nextMove (s : State) (t : Nat) (x : Part) : (s.setPart t x).nextMove = s.nextMove := rfl
@[simp] theorem setPart_images (s : State) (t : Nat) (x : Part) : (s.setPart t x).images = s.images := rfl
@[simp] theorem setPart_nextHandle (s : State) (t : Nat) (x : Part) : (s.setPart t x).nextHandle = s.nextHandle := rfl
@[simp] theorem setPart_loader (s : State) (t : Nat) (x : Part) : (s.setPart t x).loader = s.loader := rfl
@[simp] theorem setPart_sparing (s : State) (t : Nat) (x : Part) : (s.setPart t x).sparing = s.sparing := rfl
@[simp] theorem setPart_due (s : State) (t : Nat) (x : Part) : (s.setPart t x).due = s.due := rfl
@[simp] theorem setPart_exits (s : State) (t : Nat) (x : Part) : (s.setPart t x).exits = s.exits := rfl
@[simp] theorem setPart_fc (s : State) (t : Nat) (x : Part) : (s.setPart t x).fc = s.fc := rfl
@[simp] theorem setPart_sec (s : State) (t : Nat) (x : Part) : (s.setPart t x).sec = s.sec := rfl
@[simp] theorem setPart_pwr (s : State) (t : Nat) (x : Part) : (s.setPart t x).pwr = s.pwr := rfl
@[simp] theorem setPart_numVfs (s : State) (t : Nat) (x : Part) : (s.setPart t x).numVfs = s.numVfs := rfl
@[simp] theorem setPart_vfUp (s : State) (t : Nat) (x : Part) : (s.setPart t x).vfUp = s.vfUp := rfl
@[simp] theorem setPart_msixOn (s : State) (t : Nat) (x : Part) : (s.setPart t x).msixOn = s.msixOn := rfl
@[simp] theorem setPart_msixPend (s : State) (t : Nat) (x : Part) : (s.setPart t x).msixPend = s.msixPend := rfl
@[simp] theorem setPart_msixAddr (s : State) (t : Nat) (x : Part) : (s.setPart t x).msixAddr = s.msixAddr := rfl
@[simp] theorem setPart_msixData (s : State) (t : Nat) (x : Part) : (s.setPart t x).msixData = s.msixData := rfl
@[simp] theorem setPart_irqs (s : State) (t : Nat) (x : Part) : (s.setPart t x).irqs = s.irqs := rfl
@[simp] theorem setPart_tx (s : State) (t : Nat) (x : Part) : (s.setPart t x).tx = s.tx := rfl
@[simp] theorem setPart_wire (s : State) (t : Nat) (x : Part) : (s.setPart t x).wire = s.wire := rfl
@[simp] theorem setPart_inbox (s : State) (t : Nat) (x : Part) : (s.setPart t x).inbox = s.inbox := rfl
@[simp] theorem setPart_regWrites (s : State) (t : Nat) (x : Part) : (s.setPart t x).regWrites = s.regWrites := rfl
@[simp] theorem setPart_mgmt (s : State) (t : Nat) (x : Part) : (s.setPart t x).mgmt = s.mgmt := rfl
@[simp] theorem setPart_time (s : State) (t : Nat) (x : Part) : (s.setPart t x).time = s.time := rfl
@[simp] theorem setPart_clock0 (s : State) (t : Nat) (x : Part) : (s.setPart t x).clock0 = s.clock0 := rfl
@[simp] theorem setPart_free (s : State) (t : Nat) (x : Part) : (s.setPart t x).free = s.free := rfl
@[simp] theorem modPart_pending (s : State) (t : Nat) (x : Part → Part) : (s.modPart t x).pending = s.pending := rfl
@[simp] theorem modPart_regs (s : State) (t : Nat) (x : Part → Part) : (s.modPart t x).regs = s.regs := rfl
@[simp] theorem modPart_dev (s : State) (t : Nat) (x : Part → Part) : (s.modPart t x).dev = s.dev := rfl
@[simp] theorem modPart_host (s : State) (t : Nat) (x : Part → Part) : (s.modPart t x).host = s.host := rfl
@[simp] theorem modPart_acc (s : State) (t : Nat) (x : Part → Part) : (s.modPart t x).acc = s.acc := rfl
@[simp] theorem modPart_stat (s : State) (t : Nat) (x : Part → Part) : (s.modPart t x).stat = s.stat := rfl
@[simp] theorem modPart_bad (s : State) (t : Nat) (x : Part → Part) : (s.modPart t x).bad = s.bad := rfl
@[simp] theorem modPart_accBad (s : State) (t : Nat) (x : Part → Part) : (s.modPart t x).accBad = s.accBad := rfl
@[simp] theorem modPart_lpBad (s : State) (t : Nat) (x : Part → Part) : (s.modPart t x).lpBad = s.lpBad := rfl
@[simp] theorem modPart_err (s : State) (t : Nat) (x : Part → Part) : (s.modPart t x).err = s.err := rfl
@[simp] theorem modPart_tiles (s : State) (t : Nat) (x : Part → Part) : (s.modPart t x).tiles = s.tiles := rfl
@[simp] theorem modPart_kettles (s : State) (t : Nat) (x : Part → Part) : (s.modPart t x).kettles = s.kettles := rfl
@[simp] theorem modPart_bays (s : State) (t : Nat) (x : Part → Part) : (s.modPart t x).bays = s.bays := rfl
@[simp] theorem modPart_rings (s : State) (t : Nat) (x : Part → Part) : (s.modPart t x).rings = s.rings := rfl
@[simp] theorem modPart_ports (s : State) (t : Nat) (x : Part → Part) : (s.modPart t x).ports = s.ports := rfl
@[simp] theorem modPart_reasm (s : State) (t : Nat) (x : Part → Part) : (s.modPart t x).reasm = s.reasm := rfl
@[simp] theorem modPart_cmds (s : State) (t : Nat) (x : Part → Part) : (s.modPart t x).cmds = s.cmds := rfl
@[simp] theorem modPart_nextCmd (s : State) (t : Nat) (x : Part → Part) : (s.modPart t x).nextCmd = s.nextCmd := rfl
@[simp] theorem modPart_moves (s : State) (t : Nat) (x : Part → Part) : (s.modPart t x).moves = s.moves := rfl
@[simp] theorem modPart_nextMove (s : State) (t : Nat) (x : Part → Part) : (s.modPart t x).nextMove = s.nextMove := rfl
@[simp] theorem modPart_images (s : State) (t : Nat) (x : Part → Part) : (s.modPart t x).images = s.images := rfl
@[simp] theorem modPart_nextHandle (s : State) (t : Nat) (x : Part → Part) : (s.modPart t x).nextHandle = s.nextHandle := rfl
@[simp] theorem modPart_loader (s : State) (t : Nat) (x : Part → Part) : (s.modPart t x).loader = s.loader := rfl
@[simp] theorem modPart_sparing (s : State) (t : Nat) (x : Part → Part) : (s.modPart t x).sparing = s.sparing := rfl
@[simp] theorem modPart_due (s : State) (t : Nat) (x : Part → Part) : (s.modPart t x).due = s.due := rfl
@[simp] theorem modPart_exits (s : State) (t : Nat) (x : Part → Part) : (s.modPart t x).exits = s.exits := rfl
@[simp] theorem modPart_fc (s : State) (t : Nat) (x : Part → Part) : (s.modPart t x).fc = s.fc := rfl
@[simp] theorem modPart_sec (s : State) (t : Nat) (x : Part → Part) : (s.modPart t x).sec = s.sec := rfl
@[simp] theorem modPart_pwr (s : State) (t : Nat) (x : Part → Part) : (s.modPart t x).pwr = s.pwr := rfl
@[simp] theorem modPart_numVfs (s : State) (t : Nat) (x : Part → Part) : (s.modPart t x).numVfs = s.numVfs := rfl
@[simp] theorem modPart_vfUp (s : State) (t : Nat) (x : Part → Part) : (s.modPart t x).vfUp = s.vfUp := rfl
@[simp] theorem modPart_msixOn (s : State) (t : Nat) (x : Part → Part) : (s.modPart t x).msixOn = s.msixOn := rfl
@[simp] theorem modPart_msixPend (s : State) (t : Nat) (x : Part → Part) : (s.modPart t x).msixPend = s.msixPend := rfl
@[simp] theorem modPart_msixAddr (s : State) (t : Nat) (x : Part → Part) : (s.modPart t x).msixAddr = s.msixAddr := rfl
@[simp] theorem modPart_msixData (s : State) (t : Nat) (x : Part → Part) : (s.modPart t x).msixData = s.msixData := rfl
@[simp] theorem modPart_irqs (s : State) (t : Nat) (x : Part → Part) : (s.modPart t x).irqs = s.irqs := rfl
@[simp] theorem modPart_tx (s : State) (t : Nat) (x : Part → Part) : (s.modPart t x).tx = s.tx := rfl
@[simp] theorem modPart_wire (s : State) (t : Nat) (x : Part → Part) : (s.modPart t x).wire = s.wire := rfl
@[simp] theorem modPart_inbox (s : State) (t : Nat) (x : Part → Part) : (s.modPart t x).inbox = s.inbox := rfl
@[simp] theorem modPart_regWrites (s : State) (t : Nat) (x : Part → Part) : (s.modPart t x).regWrites = s.regWrites := rfl
@[simp] theorem modPart_mgmt (s : State) (t : Nat) (x : Part → Part) : (s.modPart t x).mgmt = s.mgmt := rfl
@[simp] theorem modPart_time (s : State) (t : Nat) (x : Part → Part) : (s.modPart t x).time = s.time := rfl
@[simp] theorem modPart_clock0 (s : State) (t : Nat) (x : Part → Part) : (s.modPart t x).clock0 = s.clock0 := rfl
@[simp] theorem modPart_free (s : State) (t : Nat) (x : Part → Part) : (s.modPart t x).free = s.free := rfl
@[simp] theorem setBay_pending (s : State) (t : Nat) (x : Bay) : (s.setBay t x).pending = s.pending := rfl
@[simp] theorem setBay_regs (s : State) (t : Nat) (x : Bay) : (s.setBay t x).regs = s.regs := rfl
@[simp] theorem setBay_dev (s : State) (t : Nat) (x : Bay) : (s.setBay t x).dev = s.dev := rfl
@[simp] theorem setBay_host (s : State) (t : Nat) (x : Bay) : (s.setBay t x).host = s.host := rfl
@[simp] theorem setBay_acc (s : State) (t : Nat) (x : Bay) : (s.setBay t x).acc = s.acc := rfl
@[simp] theorem setBay_stat (s : State) (t : Nat) (x : Bay) : (s.setBay t x).stat = s.stat := rfl
@[simp] theorem setBay_bad (s : State) (t : Nat) (x : Bay) : (s.setBay t x).bad = s.bad := rfl
@[simp] theorem setBay_accBad (s : State) (t : Nat) (x : Bay) : (s.setBay t x).accBad = s.accBad := rfl
@[simp] theorem setBay_lpBad (s : State) (t : Nat) (x : Bay) : (s.setBay t x).lpBad = s.lpBad := rfl
@[simp] theorem setBay_err (s : State) (t : Nat) (x : Bay) : (s.setBay t x).err = s.err := rfl
@[simp] theorem setBay_tiles (s : State) (t : Nat) (x : Bay) : (s.setBay t x).tiles = s.tiles := rfl
@[simp] theorem setBay_kettles (s : State) (t : Nat) (x : Bay) : (s.setBay t x).kettles = s.kettles := rfl
@[simp] theorem setBay_parts (s : State) (t : Nat) (x : Bay) : (s.setBay t x).parts = s.parts := rfl
@[simp] theorem setBay_rings (s : State) (t : Nat) (x : Bay) : (s.setBay t x).rings = s.rings := rfl
@[simp] theorem setBay_ports (s : State) (t : Nat) (x : Bay) : (s.setBay t x).ports = s.ports := rfl
@[simp] theorem setBay_reasm (s : State) (t : Nat) (x : Bay) : (s.setBay t x).reasm = s.reasm := rfl
@[simp] theorem setBay_cmds (s : State) (t : Nat) (x : Bay) : (s.setBay t x).cmds = s.cmds := rfl
@[simp] theorem setBay_nextCmd (s : State) (t : Nat) (x : Bay) : (s.setBay t x).nextCmd = s.nextCmd := rfl
@[simp] theorem setBay_moves (s : State) (t : Nat) (x : Bay) : (s.setBay t x).moves = s.moves := rfl
@[simp] theorem setBay_nextMove (s : State) (t : Nat) (x : Bay) : (s.setBay t x).nextMove = s.nextMove := rfl
@[simp] theorem setBay_images (s : State) (t : Nat) (x : Bay) : (s.setBay t x).images = s.images := rfl
@[simp] theorem setBay_nextHandle (s : State) (t : Nat) (x : Bay) : (s.setBay t x).nextHandle = s.nextHandle := rfl
@[simp] theorem setBay_loader (s : State) (t : Nat) (x : Bay) : (s.setBay t x).loader = s.loader := rfl
@[simp] theorem setBay_sparing (s : State) (t : Nat) (x : Bay) : (s.setBay t x).sparing = s.sparing := rfl
@[simp] theorem setBay_due (s : State) (t : Nat) (x : Bay) : (s.setBay t x).due = s.due := rfl
@[simp] theorem setBay_exits (s : State) (t : Nat) (x : Bay) : (s.setBay t x).exits = s.exits := rfl
@[simp] theorem setBay_fc (s : State) (t : Nat) (x : Bay) : (s.setBay t x).fc = s.fc := rfl
@[simp] theorem setBay_sec (s : State) (t : Nat) (x : Bay) : (s.setBay t x).sec = s.sec := rfl
@[simp] theorem setBay_pwr (s : State) (t : Nat) (x : Bay) : (s.setBay t x).pwr = s.pwr := rfl
@[simp] theorem setBay_numVfs (s : State) (t : Nat) (x : Bay) : (s.setBay t x).numVfs = s.numVfs := rfl
@[simp] theorem setBay_vfUp (s : State) (t : Nat) (x : Bay) : (s.setBay t x).vfUp = s.vfUp := rfl
@[simp] theorem setBay_msixOn (s : State) (t : Nat) (x : Bay) : (s.setBay t x).msixOn = s.msixOn := rfl
@[simp] theorem setBay_msixPend (s : State) (t : Nat) (x : Bay) : (s.setBay t x).msixPend = s.msixPend := rfl
@[simp] theorem setBay_msixAddr (s : State) (t : Nat) (x : Bay) : (s.setBay t x).msixAddr = s.msixAddr := rfl
@[simp] theorem setBay_msixData (s : State) (t : Nat) (x : Bay) : (s.setBay t x).msixData = s.msixData := rfl
@[simp] theorem setBay_irqs (s : State) (t : Nat) (x : Bay) : (s.setBay t x).irqs = s.irqs := rfl
@[simp] theorem setBay_tx (s : State) (t : Nat) (x : Bay) : (s.setBay t x).tx = s.tx := rfl
@[simp] theorem setBay_wire (s : State) (t : Nat) (x : Bay) : (s.setBay t x).wire = s.wire := rfl
@[simp] theorem setBay_inbox (s : State) (t : Nat) (x : Bay) : (s.setBay t x).inbox = s.inbox := rfl
@[simp] theorem setBay_regWrites (s : State) (t : Nat) (x : Bay) : (s.setBay t x).regWrites = s.regWrites := rfl
@[simp] theorem setBay_mgmt (s : State) (t : Nat) (x : Bay) : (s.setBay t x).mgmt = s.mgmt := rfl
@[simp] theorem setBay_time (s : State) (t : Nat) (x : Bay) : (s.setBay t x).time = s.time := rfl
@[simp] theorem setBay_clock0 (s : State) (t : Nat) (x : Bay) : (s.setBay t x).clock0 = s.clock0 := rfl
@[simp] theorem setBay_free (s : State) (t : Nat) (x : Bay) : (s.setBay t x).free = s.free := rfl
@[simp] theorem modBay_pending (s : State) (t : Nat) (x : Bay → Bay) : (s.modBay t x).pending = s.pending := rfl
@[simp] theorem modBay_regs (s : State) (t : Nat) (x : Bay → Bay) : (s.modBay t x).regs = s.regs := rfl
@[simp] theorem modBay_dev (s : State) (t : Nat) (x : Bay → Bay) : (s.modBay t x).dev = s.dev := rfl
@[simp] theorem modBay_host (s : State) (t : Nat) (x : Bay → Bay) : (s.modBay t x).host = s.host := rfl
@[simp] theorem modBay_acc (s : State) (t : Nat) (x : Bay → Bay) : (s.modBay t x).acc = s.acc := rfl
@[simp] theorem modBay_stat (s : State) (t : Nat) (x : Bay → Bay) : (s.modBay t x).stat = s.stat := rfl
@[simp] theorem modBay_bad (s : State) (t : Nat) (x : Bay → Bay) : (s.modBay t x).bad = s.bad := rfl
@[simp] theorem modBay_accBad (s : State) (t : Nat) (x : Bay → Bay) : (s.modBay t x).accBad = s.accBad := rfl
@[simp] theorem modBay_lpBad (s : State) (t : Nat) (x : Bay → Bay) : (s.modBay t x).lpBad = s.lpBad := rfl
@[simp] theorem modBay_err (s : State) (t : Nat) (x : Bay → Bay) : (s.modBay t x).err = s.err := rfl
@[simp] theorem modBay_tiles (s : State) (t : Nat) (x : Bay → Bay) : (s.modBay t x).tiles = s.tiles := rfl
@[simp] theorem modBay_kettles (s : State) (t : Nat) (x : Bay → Bay) : (s.modBay t x).kettles = s.kettles := rfl
@[simp] theorem modBay_parts (s : State) (t : Nat) (x : Bay → Bay) : (s.modBay t x).parts = s.parts := rfl
@[simp] theorem modBay_rings (s : State) (t : Nat) (x : Bay → Bay) : (s.modBay t x).rings = s.rings := rfl
@[simp] theorem modBay_ports (s : State) (t : Nat) (x : Bay → Bay) : (s.modBay t x).ports = s.ports := rfl
@[simp] theorem modBay_reasm (s : State) (t : Nat) (x : Bay → Bay) : (s.modBay t x).reasm = s.reasm := rfl
@[simp] theorem modBay_cmds (s : State) (t : Nat) (x : Bay → Bay) : (s.modBay t x).cmds = s.cmds := rfl
@[simp] theorem modBay_nextCmd (s : State) (t : Nat) (x : Bay → Bay) : (s.modBay t x).nextCmd = s.nextCmd := rfl
@[simp] theorem modBay_moves (s : State) (t : Nat) (x : Bay → Bay) : (s.modBay t x).moves = s.moves := rfl
@[simp] theorem modBay_nextMove (s : State) (t : Nat) (x : Bay → Bay) : (s.modBay t x).nextMove = s.nextMove := rfl
@[simp] theorem modBay_images (s : State) (t : Nat) (x : Bay → Bay) : (s.modBay t x).images = s.images := rfl
@[simp] theorem modBay_nextHandle (s : State) (t : Nat) (x : Bay → Bay) : (s.modBay t x).nextHandle = s.nextHandle := rfl
@[simp] theorem modBay_loader (s : State) (t : Nat) (x : Bay → Bay) : (s.modBay t x).loader = s.loader := rfl
@[simp] theorem modBay_sparing (s : State) (t : Nat) (x : Bay → Bay) : (s.modBay t x).sparing = s.sparing := rfl
@[simp] theorem modBay_due (s : State) (t : Nat) (x : Bay → Bay) : (s.modBay t x).due = s.due := rfl
@[simp] theorem modBay_exits (s : State) (t : Nat) (x : Bay → Bay) : (s.modBay t x).exits = s.exits := rfl
@[simp] theorem modBay_fc (s : State) (t : Nat) (x : Bay → Bay) : (s.modBay t x).fc = s.fc := rfl
@[simp] theorem modBay_sec (s : State) (t : Nat) (x : Bay → Bay) : (s.modBay t x).sec = s.sec := rfl
@[simp] theorem modBay_pwr (s : State) (t : Nat) (x : Bay → Bay) : (s.modBay t x).pwr = s.pwr := rfl
@[simp] theorem modBay_numVfs (s : State) (t : Nat) (x : Bay → Bay) : (s.modBay t x).numVfs = s.numVfs := rfl
@[simp] theorem modBay_vfUp (s : State) (t : Nat) (x : Bay → Bay) : (s.modBay t x).vfUp = s.vfUp := rfl
@[simp] theorem modBay_msixOn (s : State) (t : Nat) (x : Bay → Bay) : (s.modBay t x).msixOn = s.msixOn := rfl
@[simp] theorem modBay_msixPend (s : State) (t : Nat) (x : Bay → Bay) : (s.modBay t x).msixPend = s.msixPend := rfl
@[simp] theorem modBay_msixAddr (s : State) (t : Nat) (x : Bay → Bay) : (s.modBay t x).msixAddr = s.msixAddr := rfl
@[simp] theorem modBay_msixData (s : State) (t : Nat) (x : Bay → Bay) : (s.modBay t x).msixData = s.msixData := rfl
@[simp] theorem modBay_irqs (s : State) (t : Nat) (x : Bay → Bay) : (s.modBay t x).irqs = s.irqs := rfl
@[simp] theorem modBay_tx (s : State) (t : Nat) (x : Bay → Bay) : (s.modBay t x).tx = s.tx := rfl
@[simp] theorem modBay_wire (s : State) (t : Nat) (x : Bay → Bay) : (s.modBay t x).wire = s.wire := rfl
@[simp] theorem modBay_inbox (s : State) (t : Nat) (x : Bay → Bay) : (s.modBay t x).inbox = s.inbox := rfl
@[simp] theorem modBay_regWrites (s : State) (t : Nat) (x : Bay → Bay) : (s.modBay t x).regWrites = s.regWrites := rfl
@[simp] theorem modBay_mgmt (s : State) (t : Nat) (x : Bay → Bay) : (s.modBay t x).mgmt = s.mgmt := rfl
@[simp] theorem modBay_time (s : State) (t : Nat) (x : Bay → Bay) : (s.modBay t x).time = s.time := rfl
@[simp] theorem modBay_clock0 (s : State) (t : Nat) (x : Bay → Bay) : (s.modBay t x).clock0 = s.clock0 := rfl
@[simp] theorem modBay_free (s : State) (t : Nat) (x : Bay → Bay) : (s.modBay t x).free = s.free := rfl
@[simp] theorem setRing_pending (s : State) (t : Nat) (x : Ring) : (s.setRing t x).pending = s.pending := rfl
@[simp] theorem setRing_regs (s : State) (t : Nat) (x : Ring) : (s.setRing t x).regs = s.regs := rfl
@[simp] theorem setRing_dev (s : State) (t : Nat) (x : Ring) : (s.setRing t x).dev = s.dev := rfl
@[simp] theorem setRing_host (s : State) (t : Nat) (x : Ring) : (s.setRing t x).host = s.host := rfl
@[simp] theorem setRing_acc (s : State) (t : Nat) (x : Ring) : (s.setRing t x).acc = s.acc := rfl
@[simp] theorem setRing_stat (s : State) (t : Nat) (x : Ring) : (s.setRing t x).stat = s.stat := rfl
@[simp] theorem setRing_bad (s : State) (t : Nat) (x : Ring) : (s.setRing t x).bad = s.bad := rfl
@[simp] theorem setRing_accBad (s : State) (t : Nat) (x : Ring) : (s.setRing t x).accBad = s.accBad := rfl
@[simp] theorem setRing_lpBad (s : State) (t : Nat) (x : Ring) : (s.setRing t x).lpBad = s.lpBad := rfl
@[simp] theorem setRing_err (s : State) (t : Nat) (x : Ring) : (s.setRing t x).err = s.err := rfl
@[simp] theorem setRing_tiles (s : State) (t : Nat) (x : Ring) : (s.setRing t x).tiles = s.tiles := rfl
@[simp] theorem setRing_kettles (s : State) (t : Nat) (x : Ring) : (s.setRing t x).kettles = s.kettles := rfl
@[simp] theorem setRing_parts (s : State) (t : Nat) (x : Ring) : (s.setRing t x).parts = s.parts := rfl
@[simp] theorem setRing_bays (s : State) (t : Nat) (x : Ring) : (s.setRing t x).bays = s.bays := rfl
@[simp] theorem setRing_ports (s : State) (t : Nat) (x : Ring) : (s.setRing t x).ports = s.ports := rfl
@[simp] theorem setRing_reasm (s : State) (t : Nat) (x : Ring) : (s.setRing t x).reasm = s.reasm := rfl
@[simp] theorem setRing_cmds (s : State) (t : Nat) (x : Ring) : (s.setRing t x).cmds = s.cmds := rfl
@[simp] theorem setRing_nextCmd (s : State) (t : Nat) (x : Ring) : (s.setRing t x).nextCmd = s.nextCmd := rfl
@[simp] theorem setRing_moves (s : State) (t : Nat) (x : Ring) : (s.setRing t x).moves = s.moves := rfl
@[simp] theorem setRing_nextMove (s : State) (t : Nat) (x : Ring) : (s.setRing t x).nextMove = s.nextMove := rfl
@[simp] theorem setRing_images (s : State) (t : Nat) (x : Ring) : (s.setRing t x).images = s.images := rfl
@[simp] theorem setRing_nextHandle (s : State) (t : Nat) (x : Ring) : (s.setRing t x).nextHandle = s.nextHandle := rfl
@[simp] theorem setRing_loader (s : State) (t : Nat) (x : Ring) : (s.setRing t x).loader = s.loader := rfl
@[simp] theorem setRing_sparing (s : State) (t : Nat) (x : Ring) : (s.setRing t x).sparing = s.sparing := rfl
@[simp] theorem setRing_due (s : State) (t : Nat) (x : Ring) : (s.setRing t x).due = s.due := rfl
@[simp] theorem setRing_exits (s : State) (t : Nat) (x : Ring) : (s.setRing t x).exits = s.exits := rfl
@[simp] theorem setRing_fc (s : State) (t : Nat) (x : Ring) : (s.setRing t x).fc = s.fc := rfl
@[simp] theorem setRing_sec (s : State) (t : Nat) (x : Ring) : (s.setRing t x).sec = s.sec := rfl
@[simp] theorem setRing_pwr (s : State) (t : Nat) (x : Ring) : (s.setRing t x).pwr = s.pwr := rfl
@[simp] theorem setRing_numVfs (s : State) (t : Nat) (x : Ring) : (s.setRing t x).numVfs = s.numVfs := rfl
@[simp] theorem setRing_vfUp (s : State) (t : Nat) (x : Ring) : (s.setRing t x).vfUp = s.vfUp := rfl
@[simp] theorem setRing_msixOn (s : State) (t : Nat) (x : Ring) : (s.setRing t x).msixOn = s.msixOn := rfl
@[simp] theorem setRing_msixPend (s : State) (t : Nat) (x : Ring) : (s.setRing t x).msixPend = s.msixPend := rfl
@[simp] theorem setRing_msixAddr (s : State) (t : Nat) (x : Ring) : (s.setRing t x).msixAddr = s.msixAddr := rfl
@[simp] theorem setRing_msixData (s : State) (t : Nat) (x : Ring) : (s.setRing t x).msixData = s.msixData := rfl
@[simp] theorem setRing_irqs (s : State) (t : Nat) (x : Ring) : (s.setRing t x).irqs = s.irqs := rfl
@[simp] theorem setRing_tx (s : State) (t : Nat) (x : Ring) : (s.setRing t x).tx = s.tx := rfl
@[simp] theorem setRing_wire (s : State) (t : Nat) (x : Ring) : (s.setRing t x).wire = s.wire := rfl
@[simp] theorem setRing_inbox (s : State) (t : Nat) (x : Ring) : (s.setRing t x).inbox = s.inbox := rfl
@[simp] theorem setRing_regWrites (s : State) (t : Nat) (x : Ring) : (s.setRing t x).regWrites = s.regWrites := rfl
@[simp] theorem setRing_mgmt (s : State) (t : Nat) (x : Ring) : (s.setRing t x).mgmt = s.mgmt := rfl
@[simp] theorem setRing_time (s : State) (t : Nat) (x : Ring) : (s.setRing t x).time = s.time := rfl
@[simp] theorem setRing_clock0 (s : State) (t : Nat) (x : Ring) : (s.setRing t x).clock0 = s.clock0 := rfl
@[simp] theorem setRing_free (s : State) (t : Nat) (x : Ring) : (s.setRing t x).free = s.free := rfl
@[simp] theorem modRing_pending (s : State) (t : Nat) (x : Ring → Ring) : (s.modRing t x).pending = s.pending := rfl
@[simp] theorem modRing_regs (s : State) (t : Nat) (x : Ring → Ring) : (s.modRing t x).regs = s.regs := rfl
@[simp] theorem modRing_dev (s : State) (t : Nat) (x : Ring → Ring) : (s.modRing t x).dev = s.dev := rfl
@[simp] theorem modRing_host (s : State) (t : Nat) (x : Ring → Ring) : (s.modRing t x).host = s.host := rfl
@[simp] theorem modRing_acc (s : State) (t : Nat) (x : Ring → Ring) : (s.modRing t x).acc = s.acc := rfl
@[simp] theorem modRing_stat (s : State) (t : Nat) (x : Ring → Ring) : (s.modRing t x).stat = s.stat := rfl
@[simp] theorem modRing_bad (s : State) (t : Nat) (x : Ring → Ring) : (s.modRing t x).bad = s.bad := rfl
@[simp] theorem modRing_accBad (s : State) (t : Nat) (x : Ring → Ring) : (s.modRing t x).accBad = s.accBad := rfl
@[simp] theorem modRing_lpBad (s : State) (t : Nat) (x : Ring → Ring) : (s.modRing t x).lpBad = s.lpBad := rfl
@[simp] theorem modRing_err (s : State) (t : Nat) (x : Ring → Ring) : (s.modRing t x).err = s.err := rfl
@[simp] theorem modRing_tiles (s : State) (t : Nat) (x : Ring → Ring) : (s.modRing t x).tiles = s.tiles := rfl
@[simp] theorem modRing_kettles (s : State) (t : Nat) (x : Ring → Ring) : (s.modRing t x).kettles = s.kettles := rfl
@[simp] theorem modRing_parts (s : State) (t : Nat) (x : Ring → Ring) : (s.modRing t x).parts = s.parts := rfl
@[simp] theorem modRing_bays (s : State) (t : Nat) (x : Ring → Ring) : (s.modRing t x).bays = s.bays := rfl
@[simp] theorem modRing_ports (s : State) (t : Nat) (x : Ring → Ring) : (s.modRing t x).ports = s.ports := rfl
@[simp] theorem modRing_reasm (s : State) (t : Nat) (x : Ring → Ring) : (s.modRing t x).reasm = s.reasm := rfl
@[simp] theorem modRing_cmds (s : State) (t : Nat) (x : Ring → Ring) : (s.modRing t x).cmds = s.cmds := rfl
@[simp] theorem modRing_nextCmd (s : State) (t : Nat) (x : Ring → Ring) : (s.modRing t x).nextCmd = s.nextCmd := rfl
@[simp] theorem modRing_moves (s : State) (t : Nat) (x : Ring → Ring) : (s.modRing t x).moves = s.moves := rfl
@[simp] theorem modRing_nextMove (s : State) (t : Nat) (x : Ring → Ring) : (s.modRing t x).nextMove = s.nextMove := rfl
@[simp] theorem modRing_images (s : State) (t : Nat) (x : Ring → Ring) : (s.modRing t x).images = s.images := rfl
@[simp] theorem modRing_nextHandle (s : State) (t : Nat) (x : Ring → Ring) : (s.modRing t x).nextHandle = s.nextHandle := rfl
@[simp] theorem modRing_loader (s : State) (t : Nat) (x : Ring → Ring) : (s.modRing t x).loader = s.loader := rfl
@[simp] theorem modRing_sparing (s : State) (t : Nat) (x : Ring → Ring) : (s.modRing t x).sparing = s.sparing := rfl
@[simp] theorem modRing_due (s : State) (t : Nat) (x : Ring → Ring) : (s.modRing t x).due = s.due := rfl
@[simp] theorem modRing_exits (s : State) (t : Nat) (x : Ring → Ring) : (s.modRing t x).exits = s.exits := rfl
@[simp] theorem modRing_fc (s : State) (t : Nat) (x : Ring → Ring) : (s.modRing t x).fc = s.fc := rfl
@[simp] theorem modRing_sec (s : State) (t : Nat) (x : Ring → Ring) : (s.modRing t x).sec = s.sec := rfl
@[simp] theorem modRing_pwr (s : State) (t : Nat) (x : Ring → Ring) : (s.modRing t x).pwr = s.pwr := rfl
@[simp] theorem modRing_numVfs (s : State) (t : Nat) (x : Ring → Ring) : (s.modRing t x).numVfs = s.numVfs := rfl
@[simp] theorem modRing_vfUp (s : State) (t : Nat) (x : Ring → Ring) : (s.modRing t x).vfUp = s.vfUp := rfl
@[simp] theorem modRing_msixOn (s : State) (t : Nat) (x : Ring → Ring) : (s.modRing t x).msixOn = s.msixOn := rfl
@[simp] theorem modRing_msixPend (s : State) (t : Nat) (x : Ring → Ring) : (s.modRing t x).msixPend = s.msixPend := rfl
@[simp] theorem modRing_msixAddr (s : State) (t : Nat) (x : Ring → Ring) : (s.modRing t x).msixAddr = s.msixAddr := rfl
@[simp] theorem modRing_msixData (s : State) (t : Nat) (x : Ring → Ring) : (s.modRing t x).msixData = s.msixData := rfl
@[simp] theorem modRing_irqs (s : State) (t : Nat) (x : Ring → Ring) : (s.modRing t x).irqs = s.irqs := rfl
@[simp] theorem modRing_tx (s : State) (t : Nat) (x : Ring → Ring) : (s.modRing t x).tx = s.tx := rfl
@[simp] theorem modRing_wire (s : State) (t : Nat) (x : Ring → Ring) : (s.modRing t x).wire = s.wire := rfl
@[simp] theorem modRing_inbox (s : State) (t : Nat) (x : Ring → Ring) : (s.modRing t x).inbox = s.inbox := rfl
@[simp] theorem modRing_regWrites (s : State) (t : Nat) (x : Ring → Ring) : (s.modRing t x).regWrites = s.regWrites := rfl
@[simp] theorem modRing_mgmt (s : State) (t : Nat) (x : Ring → Ring) : (s.modRing t x).mgmt = s.mgmt := rfl
@[simp] theorem modRing_time (s : State) (t : Nat) (x : Ring → Ring) : (s.modRing t x).time = s.time := rfl
@[simp] theorem modRing_clock0 (s : State) (t : Nat) (x : Ring → Ring) : (s.modRing t x).clock0 = s.clock0 := rfl
@[simp] theorem modRing_free (s : State) (t : Nat) (x : Ring → Ring) : (s.modRing t x).free = s.free := rfl
@[simp] theorem setPort_pending (s : State) (t : Nat) (x : Port) : (s.setPort t x).pending = s.pending := rfl
@[simp] theorem setPort_regs (s : State) (t : Nat) (x : Port) : (s.setPort t x).regs = s.regs := rfl
@[simp] theorem setPort_dev (s : State) (t : Nat) (x : Port) : (s.setPort t x).dev = s.dev := rfl
@[simp] theorem setPort_host (s : State) (t : Nat) (x : Port) : (s.setPort t x).host = s.host := rfl
@[simp] theorem setPort_acc (s : State) (t : Nat) (x : Port) : (s.setPort t x).acc = s.acc := rfl
@[simp] theorem setPort_stat (s : State) (t : Nat) (x : Port) : (s.setPort t x).stat = s.stat := rfl
@[simp] theorem setPort_bad (s : State) (t : Nat) (x : Port) : (s.setPort t x).bad = s.bad := rfl
@[simp] theorem setPort_accBad (s : State) (t : Nat) (x : Port) : (s.setPort t x).accBad = s.accBad := rfl
@[simp] theorem setPort_lpBad (s : State) (t : Nat) (x : Port) : (s.setPort t x).lpBad = s.lpBad := rfl
@[simp] theorem setPort_err (s : State) (t : Nat) (x : Port) : (s.setPort t x).err = s.err := rfl
@[simp] theorem setPort_tiles (s : State) (t : Nat) (x : Port) : (s.setPort t x).tiles = s.tiles := rfl
@[simp] theorem setPort_kettles (s : State) (t : Nat) (x : Port) : (s.setPort t x).kettles = s.kettles := rfl
@[simp] theorem setPort_parts (s : State) (t : Nat) (x : Port) : (s.setPort t x).parts = s.parts := rfl
@[simp] theorem setPort_bays (s : State) (t : Nat) (x : Port) : (s.setPort t x).bays = s.bays := rfl
@[simp] theorem setPort_rings (s : State) (t : Nat) (x : Port) : (s.setPort t x).rings = s.rings := rfl
@[simp] theorem setPort_reasm (s : State) (t : Nat) (x : Port) : (s.setPort t x).reasm = s.reasm := rfl
@[simp] theorem setPort_cmds (s : State) (t : Nat) (x : Port) : (s.setPort t x).cmds = s.cmds := rfl
@[simp] theorem setPort_nextCmd (s : State) (t : Nat) (x : Port) : (s.setPort t x).nextCmd = s.nextCmd := rfl
@[simp] theorem setPort_moves (s : State) (t : Nat) (x : Port) : (s.setPort t x).moves = s.moves := rfl
@[simp] theorem setPort_nextMove (s : State) (t : Nat) (x : Port) : (s.setPort t x).nextMove = s.nextMove := rfl
@[simp] theorem setPort_images (s : State) (t : Nat) (x : Port) : (s.setPort t x).images = s.images := rfl
@[simp] theorem setPort_nextHandle (s : State) (t : Nat) (x : Port) : (s.setPort t x).nextHandle = s.nextHandle := rfl
@[simp] theorem setPort_loader (s : State) (t : Nat) (x : Port) : (s.setPort t x).loader = s.loader := rfl
@[simp] theorem setPort_sparing (s : State) (t : Nat) (x : Port) : (s.setPort t x).sparing = s.sparing := rfl
@[simp] theorem setPort_due (s : State) (t : Nat) (x : Port) : (s.setPort t x).due = s.due := rfl
@[simp] theorem setPort_exits (s : State) (t : Nat) (x : Port) : (s.setPort t x).exits = s.exits := rfl
@[simp] theorem setPort_fc (s : State) (t : Nat) (x : Port) : (s.setPort t x).fc = s.fc := rfl
@[simp] theorem setPort_sec (s : State) (t : Nat) (x : Port) : (s.setPort t x).sec = s.sec := rfl
@[simp] theorem setPort_pwr (s : State) (t : Nat) (x : Port) : (s.setPort t x).pwr = s.pwr := rfl
@[simp] theorem setPort_numVfs (s : State) (t : Nat) (x : Port) : (s.setPort t x).numVfs = s.numVfs := rfl
@[simp] theorem setPort_vfUp (s : State) (t : Nat) (x : Port) : (s.setPort t x).vfUp = s.vfUp := rfl
@[simp] theorem setPort_msixOn (s : State) (t : Nat) (x : Port) : (s.setPort t x).msixOn = s.msixOn := rfl
@[simp] theorem setPort_msixPend (s : State) (t : Nat) (x : Port) : (s.setPort t x).msixPend = s.msixPend := rfl
@[simp] theorem setPort_msixAddr (s : State) (t : Nat) (x : Port) : (s.setPort t x).msixAddr = s.msixAddr := rfl
@[simp] theorem setPort_msixData (s : State) (t : Nat) (x : Port) : (s.setPort t x).msixData = s.msixData := rfl
@[simp] theorem setPort_irqs (s : State) (t : Nat) (x : Port) : (s.setPort t x).irqs = s.irqs := rfl
@[simp] theorem setPort_tx (s : State) (t : Nat) (x : Port) : (s.setPort t x).tx = s.tx := rfl
@[simp] theorem setPort_wire (s : State) (t : Nat) (x : Port) : (s.setPort t x).wire = s.wire := rfl
@[simp] theorem setPort_inbox (s : State) (t : Nat) (x : Port) : (s.setPort t x).inbox = s.inbox := rfl
@[simp] theorem setPort_regWrites (s : State) (t : Nat) (x : Port) : (s.setPort t x).regWrites = s.regWrites := rfl
@[simp] theorem setPort_mgmt (s : State) (t : Nat) (x : Port) : (s.setPort t x).mgmt = s.mgmt := rfl
@[simp] theorem setPort_time (s : State) (t : Nat) (x : Port) : (s.setPort t x).time = s.time := rfl
@[simp] theorem setPort_clock0 (s : State) (t : Nat) (x : Port) : (s.setPort t x).clock0 = s.clock0 := rfl
@[simp] theorem setPort_free (s : State) (t : Nat) (x : Port) : (s.setPort t x).free = s.free := rfl
@[simp] theorem modPort_pending (s : State) (t : Nat) (x : Port → Port) : (s.modPort t x).pending = s.pending := rfl
@[simp] theorem modPort_regs (s : State) (t : Nat) (x : Port → Port) : (s.modPort t x).regs = s.regs := rfl
@[simp] theorem modPort_dev (s : State) (t : Nat) (x : Port → Port) : (s.modPort t x).dev = s.dev := rfl
@[simp] theorem modPort_host (s : State) (t : Nat) (x : Port → Port) : (s.modPort t x).host = s.host := rfl
@[simp] theorem modPort_acc (s : State) (t : Nat) (x : Port → Port) : (s.modPort t x).acc = s.acc := rfl
@[simp] theorem modPort_stat (s : State) (t : Nat) (x : Port → Port) : (s.modPort t x).stat = s.stat := rfl
@[simp] theorem modPort_bad (s : State) (t : Nat) (x : Port → Port) : (s.modPort t x).bad = s.bad := rfl
@[simp] theorem modPort_accBad (s : State) (t : Nat) (x : Port → Port) : (s.modPort t x).accBad = s.accBad := rfl
@[simp] theorem modPort_lpBad (s : State) (t : Nat) (x : Port → Port) : (s.modPort t x).lpBad = s.lpBad := rfl
@[simp] theorem modPort_err (s : State) (t : Nat) (x : Port → Port) : (s.modPort t x).err = s.err := rfl
@[simp] theorem modPort_tiles (s : State) (t : Nat) (x : Port → Port) : (s.modPort t x).tiles = s.tiles := rfl
@[simp] theorem modPort_kettles (s : State) (t : Nat) (x : Port → Port) : (s.modPort t x).kettles = s.kettles := rfl
@[simp] theorem modPort_parts (s : State) (t : Nat) (x : Port → Port) : (s.modPort t x).parts = s.parts := rfl
@[simp] theorem modPort_bays (s : State) (t : Nat) (x : Port → Port) : (s.modPort t x).bays = s.bays := rfl
@[simp] theorem modPort_rings (s : State) (t : Nat) (x : Port → Port) : (s.modPort t x).rings = s.rings := rfl
@[simp] theorem modPort_reasm (s : State) (t : Nat) (x : Port → Port) : (s.modPort t x).reasm = s.reasm := rfl
@[simp] theorem modPort_cmds (s : State) (t : Nat) (x : Port → Port) : (s.modPort t x).cmds = s.cmds := rfl
@[simp] theorem modPort_nextCmd (s : State) (t : Nat) (x : Port → Port) : (s.modPort t x).nextCmd = s.nextCmd := rfl
@[simp] theorem modPort_moves (s : State) (t : Nat) (x : Port → Port) : (s.modPort t x).moves = s.moves := rfl
@[simp] theorem modPort_nextMove (s : State) (t : Nat) (x : Port → Port) : (s.modPort t x).nextMove = s.nextMove := rfl
@[simp] theorem modPort_images (s : State) (t : Nat) (x : Port → Port) : (s.modPort t x).images = s.images := rfl
@[simp] theorem modPort_nextHandle (s : State) (t : Nat) (x : Port → Port) : (s.modPort t x).nextHandle = s.nextHandle := rfl
@[simp] theorem modPort_loader (s : State) (t : Nat) (x : Port → Port) : (s.modPort t x).loader = s.loader := rfl
@[simp] theorem modPort_sparing (s : State) (t : Nat) (x : Port → Port) : (s.modPort t x).sparing = s.sparing := rfl
@[simp] theorem modPort_due (s : State) (t : Nat) (x : Port → Port) : (s.modPort t x).due = s.due := rfl
@[simp] theorem modPort_exits (s : State) (t : Nat) (x : Port → Port) : (s.modPort t x).exits = s.exits := rfl
@[simp] theorem modPort_fc (s : State) (t : Nat) (x : Port → Port) : (s.modPort t x).fc = s.fc := rfl
@[simp] theorem modPort_sec (s : State) (t : Nat) (x : Port → Port) : (s.modPort t x).sec = s.sec := rfl
@[simp] theorem modPort_pwr (s : State) (t : Nat) (x : Port → Port) : (s.modPort t x).pwr = s.pwr := rfl
@[simp] theorem modPort_numVfs (s : State) (t : Nat) (x : Port → Port) : (s.modPort t x).numVfs = s.numVfs := rfl
@[simp] theorem modPort_vfUp (s : State) (t : Nat) (x : Port → Port) : (s.modPort t x).vfUp = s.vfUp := rfl
@[simp] theorem modPort_msixOn (s : State) (t : Nat) (x : Port → Port) : (s.modPort t x).msixOn = s.msixOn := rfl
@[simp] theorem modPort_msixPend (s : State) (t : Nat) (x : Port → Port) : (s.modPort t x).msixPend = s.msixPend := rfl
@[simp] theorem modPort_msixAddr (s : State) (t : Nat) (x : Port → Port) : (s.modPort t x).msixAddr = s.msixAddr := rfl
@[simp] theorem modPort_msixData (s : State) (t : Nat) (x : Port → Port) : (s.modPort t x).msixData = s.msixData := rfl
@[simp] theorem modPort_irqs (s : State) (t : Nat) (x : Port → Port) : (s.modPort t x).irqs = s.irqs := rfl
@[simp] theorem modPort_tx (s : State) (t : Nat) (x : Port → Port) : (s.modPort t x).tx = s.tx := rfl
@[simp] theorem modPort_wire (s : State) (t : Nat) (x : Port → Port) : (s.modPort t x).wire = s.wire := rfl
@[simp] theorem modPort_inbox (s : State) (t : Nat) (x : Port → Port) : (s.modPort t x).inbox = s.inbox := rfl
@[simp] theorem modPort_regWrites (s : State) (t : Nat) (x : Port → Port) : (s.modPort t x).regWrites = s.regWrites := rfl
@[simp] theorem modPort_mgmt (s : State) (t : Nat) (x : Port → Port) : (s.modPort t x).mgmt = s.mgmt := rfl
@[simp] theorem modPort_time (s : State) (t : Nat) (x : Port → Port) : (s.modPort t x).time = s.time := rfl
@[simp] theorem modPort_clock0 (s : State) (t : Nat) (x : Port → Port) : (s.modPort t x).clock0 = s.clock0 := rfl
@[simp] theorem modPort_free (s : State) (t : Nat) (x : Port → Port) : (s.modPort t x).free = s.free := rfl
@[simp] theorem fset_tile (s : State) (f : Fld) (i v u : Nat) : (s.fset f i v).tile u = s.tile u := rfl
@[simp] theorem setTile_fget (s : State) (t : Nat) (x : Tile) (f : Fld) (i : Nat) : (s.setTile t x).fget f i = s.fget f i := rfl
@[simp] theorem setTile_kettle (s : State) (t : Nat) (x : Tile) (u : Nat) : (s.setTile t x).kettle u = s.kettle u := rfl
@[simp] theorem setTile_part (s : State) (t : Nat) (x : Tile) (u : Nat) : (s.setTile t x).part u = s.part u := rfl
@[simp] theorem setTile_bay (s : State) (t : Nat) (x : Tile) (u : Nat) : (s.setTile t x).bay u = s.bay u := rfl
@[simp] theorem setTile_ring (s : State) (t : Nat) (x : Tile) (u : Nat) : (s.setTile t x).ring u = s.ring u := rfl
@[simp] theorem setTile_port (s : State) (t : Nat) (x : Tile) (u : Nat) : (s.setTile t x).port u = s.port u := rfl
@[simp] theorem modTile_fget (s : State) (t : Nat) (x : Tile → Tile) (f : Fld) (i : Nat) : (s.modTile t x).fget f i = s.fget f i := rfl
@[simp] theorem modTile_kettle (s : State) (t : Nat) (x : Tile → Tile) (u : Nat) : (s.modTile t x).kettle u = s.kettle u := rfl
@[simp] theorem modTile_part (s : State) (t : Nat) (x : Tile → Tile) (u : Nat) : (s.modTile t x).part u = s.part u := rfl
@[simp] theorem modTile_bay (s : State) (t : Nat) (x : Tile → Tile) (u : Nat) : (s.modTile t x).bay u = s.bay u := rfl
@[simp] theorem modTile_ring (s : State) (t : Nat) (x : Tile → Tile) (u : Nat) : (s.modTile t x).ring u = s.ring u := rfl
@[simp] theorem modTile_port (s : State) (t : Nat) (x : Tile → Tile) (u : Nat) : (s.modTile t x).port u = s.port u := rfl
@[simp] theorem fset_kettle (s : State) (f : Fld) (i v u : Nat) : (s.fset f i v).kettle u = s.kettle u := rfl
@[simp] theorem setKettle_fget (s : State) (t : Nat) (x : Kettle) (f : Fld) (i : Nat) : (s.setKettle t x).fget f i = s.fget f i := rfl
@[simp] theorem setKettle_tile (s : State) (t : Nat) (x : Kettle) (u : Nat) : (s.setKettle t x).tile u = s.tile u := rfl
@[simp] theorem setKettle_part (s : State) (t : Nat) (x : Kettle) (u : Nat) : (s.setKettle t x).part u = s.part u := rfl
@[simp] theorem setKettle_bay (s : State) (t : Nat) (x : Kettle) (u : Nat) : (s.setKettle t x).bay u = s.bay u := rfl
@[simp] theorem setKettle_ring (s : State) (t : Nat) (x : Kettle) (u : Nat) : (s.setKettle t x).ring u = s.ring u := rfl
@[simp] theorem setKettle_port (s : State) (t : Nat) (x : Kettle) (u : Nat) : (s.setKettle t x).port u = s.port u := rfl
@[simp] theorem modKettle_fget (s : State) (t : Nat) (x : Kettle → Kettle) (f : Fld) (i : Nat) : (s.modKettle t x).fget f i = s.fget f i := rfl
@[simp] theorem modKettle_tile (s : State) (t : Nat) (x : Kettle → Kettle) (u : Nat) : (s.modKettle t x).tile u = s.tile u := rfl
@[simp] theorem modKettle_part (s : State) (t : Nat) (x : Kettle → Kettle) (u : Nat) : (s.modKettle t x).part u = s.part u := rfl
@[simp] theorem modKettle_bay (s : State) (t : Nat) (x : Kettle → Kettle) (u : Nat) : (s.modKettle t x).bay u = s.bay u := rfl
@[simp] theorem modKettle_ring (s : State) (t : Nat) (x : Kettle → Kettle) (u : Nat) : (s.modKettle t x).ring u = s.ring u := rfl
@[simp] theorem modKettle_port (s : State) (t : Nat) (x : Kettle → Kettle) (u : Nat) : (s.modKettle t x).port u = s.port u := rfl
@[simp] theorem fset_part (s : State) (f : Fld) (i v u : Nat) : (s.fset f i v).part u = s.part u := rfl
@[simp] theorem setPart_fget (s : State) (t : Nat) (x : Part) (f : Fld) (i : Nat) : (s.setPart t x).fget f i = s.fget f i := rfl
@[simp] theorem setPart_tile (s : State) (t : Nat) (x : Part) (u : Nat) : (s.setPart t x).tile u = s.tile u := rfl
@[simp] theorem setPart_kettle (s : State) (t : Nat) (x : Part) (u : Nat) : (s.setPart t x).kettle u = s.kettle u := rfl
@[simp] theorem setPart_bay (s : State) (t : Nat) (x : Part) (u : Nat) : (s.setPart t x).bay u = s.bay u := rfl
@[simp] theorem setPart_ring (s : State) (t : Nat) (x : Part) (u : Nat) : (s.setPart t x).ring u = s.ring u := rfl
@[simp] theorem setPart_port (s : State) (t : Nat) (x : Part) (u : Nat) : (s.setPart t x).port u = s.port u := rfl
@[simp] theorem modPart_fget (s : State) (t : Nat) (x : Part → Part) (f : Fld) (i : Nat) : (s.modPart t x).fget f i = s.fget f i := rfl
@[simp] theorem modPart_tile (s : State) (t : Nat) (x : Part → Part) (u : Nat) : (s.modPart t x).tile u = s.tile u := rfl
@[simp] theorem modPart_kettle (s : State) (t : Nat) (x : Part → Part) (u : Nat) : (s.modPart t x).kettle u = s.kettle u := rfl
@[simp] theorem modPart_bay (s : State) (t : Nat) (x : Part → Part) (u : Nat) : (s.modPart t x).bay u = s.bay u := rfl
@[simp] theorem modPart_ring (s : State) (t : Nat) (x : Part → Part) (u : Nat) : (s.modPart t x).ring u = s.ring u := rfl
@[simp] theorem modPart_port (s : State) (t : Nat) (x : Part → Part) (u : Nat) : (s.modPart t x).port u = s.port u := rfl
@[simp] theorem fset_bay (s : State) (f : Fld) (i v u : Nat) : (s.fset f i v).bay u = s.bay u := rfl
@[simp] theorem setBay_fget (s : State) (t : Nat) (x : Bay) (f : Fld) (i : Nat) : (s.setBay t x).fget f i = s.fget f i := rfl
@[simp] theorem setBay_tile (s : State) (t : Nat) (x : Bay) (u : Nat) : (s.setBay t x).tile u = s.tile u := rfl
@[simp] theorem setBay_kettle (s : State) (t : Nat) (x : Bay) (u : Nat) : (s.setBay t x).kettle u = s.kettle u := rfl
@[simp] theorem setBay_part (s : State) (t : Nat) (x : Bay) (u : Nat) : (s.setBay t x).part u = s.part u := rfl
@[simp] theorem setBay_ring (s : State) (t : Nat) (x : Bay) (u : Nat) : (s.setBay t x).ring u = s.ring u := rfl
@[simp] theorem setBay_port (s : State) (t : Nat) (x : Bay) (u : Nat) : (s.setBay t x).port u = s.port u := rfl
@[simp] theorem modBay_fget (s : State) (t : Nat) (x : Bay → Bay) (f : Fld) (i : Nat) : (s.modBay t x).fget f i = s.fget f i := rfl
@[simp] theorem modBay_tile (s : State) (t : Nat) (x : Bay → Bay) (u : Nat) : (s.modBay t x).tile u = s.tile u := rfl
@[simp] theorem modBay_kettle (s : State) (t : Nat) (x : Bay → Bay) (u : Nat) : (s.modBay t x).kettle u = s.kettle u := rfl
@[simp] theorem modBay_part (s : State) (t : Nat) (x : Bay → Bay) (u : Nat) : (s.modBay t x).part u = s.part u := rfl
@[simp] theorem modBay_ring (s : State) (t : Nat) (x : Bay → Bay) (u : Nat) : (s.modBay t x).ring u = s.ring u := rfl
@[simp] theorem modBay_port (s : State) (t : Nat) (x : Bay → Bay) (u : Nat) : (s.modBay t x).port u = s.port u := rfl
@[simp] theorem fset_ring (s : State) (f : Fld) (i v u : Nat) : (s.fset f i v).ring u = s.ring u := rfl
@[simp] theorem setRing_fget (s : State) (t : Nat) (x : Ring) (f : Fld) (i : Nat) : (s.setRing t x).fget f i = s.fget f i := rfl
@[simp] theorem setRing_tile (s : State) (t : Nat) (x : Ring) (u : Nat) : (s.setRing t x).tile u = s.tile u := rfl
@[simp] theorem setRing_kettle (s : State) (t : Nat) (x : Ring) (u : Nat) : (s.setRing t x).kettle u = s.kettle u := rfl
@[simp] theorem setRing_part (s : State) (t : Nat) (x : Ring) (u : Nat) : (s.setRing t x).part u = s.part u := rfl
@[simp] theorem setRing_bay (s : State) (t : Nat) (x : Ring) (u : Nat) : (s.setRing t x).bay u = s.bay u := rfl
@[simp] theorem setRing_port (s : State) (t : Nat) (x : Ring) (u : Nat) : (s.setRing t x).port u = s.port u := rfl
@[simp] theorem modRing_fget (s : State) (t : Nat) (x : Ring → Ring) (f : Fld) (i : Nat) : (s.modRing t x).fget f i = s.fget f i := rfl
@[simp] theorem modRing_tile (s : State) (t : Nat) (x : Ring → Ring) (u : Nat) : (s.modRing t x).tile u = s.tile u := rfl
@[simp] theorem modRing_kettle (s : State) (t : Nat) (x : Ring → Ring) (u : Nat) : (s.modRing t x).kettle u = s.kettle u := rfl
@[simp] theorem modRing_part (s : State) (t : Nat) (x : Ring → Ring) (u : Nat) : (s.modRing t x).part u = s.part u := rfl
@[simp] theorem modRing_bay (s : State) (t : Nat) (x : Ring → Ring) (u : Nat) : (s.modRing t x).bay u = s.bay u := rfl
@[simp] theorem modRing_port (s : State) (t : Nat) (x : Ring → Ring) (u : Nat) : (s.modRing t x).port u = s.port u := rfl
@[simp] theorem fset_port (s : State) (f : Fld) (i v u : Nat) : (s.fset f i v).port u = s.port u := rfl
@[simp] theorem setPort_fget (s : State) (t : Nat) (x : Port) (f : Fld) (i : Nat) : (s.setPort t x).fget f i = s.fget f i := rfl
@[simp] theorem setPort_tile (s : State) (t : Nat) (x : Port) (u : Nat) : (s.setPort t x).tile u = s.tile u := rfl
@[simp] theorem setPort_kettle (s : State) (t : Nat) (x : Port) (u : Nat) : (s.setPort t x).kettle u = s.kettle u := rfl
@[simp] theorem setPort_part (s : State) (t : Nat) (x : Port) (u : Nat) : (s.setPort t x).part u = s.part u := rfl
@[simp] theorem setPort_bay (s : State) (t : Nat) (x : Port) (u : Nat) : (s.setPort t x).bay u = s.bay u := rfl
@[simp] theorem setPort_ring (s : State) (t : Nat) (x : Port) (u : Nat) : (s.setPort t x).ring u = s.ring u := rfl
@[simp] theorem modPort_fget (s : State) (t : Nat) (x : Port → Port) (f : Fld) (i : Nat) : (s.modPort t x).fget f i = s.fget f i := rfl
@[simp] theorem modPort_tile (s : State) (t : Nat) (x : Port → Port) (u : Nat) : (s.modPort t x).tile u = s.tile u := rfl
@[simp] theorem modPort_kettle (s : State) (t : Nat) (x : Port → Port) (u : Nat) : (s.modPort t x).kettle u = s.kettle u := rfl
@[simp] theorem modPort_part (s : State) (t : Nat) (x : Port → Port) (u : Nat) : (s.modPort t x).part u = s.part u := rfl
@[simp] theorem modPort_bay (s : State) (t : Nat) (x : Port → Port) (u : Nat) : (s.modPort t x).bay u = s.bay u := rfl
@[simp] theorem modPort_ring (s : State) (t : Nat) (x : Port → Port) (u : Nat) : (s.modPort t x).ring u = s.ring u := rfl

end Sys2Proof.Machine
end

