-- ==== Sys2Proof/Tests/Slice0.lean ====
section
/-!
SUPPORT. The author's own tests: an ill-formed term for each check of well-formedness, a state and operands that meet the hypotheses of each
statement, and small checks of results that the spec's own words and numbers give.
-/

set_option Elab.async false
set_option maxRecDepth 20000

namespace Sys2Proof.Tests

open Sys2Proof Sys2Proof.Machine Sys2Proof.Claims

/-! ### Small states -/

/-- An instruction word of a class, an operation and a format, with fields (lowest bit, value). -/
def wordOf (cls op fmt : Nat) (fields : List (Nat × Nat)) : Nat :=
  fields.foldl (fun w f => w + f.2 * 2 ^ f.1) (cls + 16 * op + 256 * fmt)

/-- Communicator 5 of devices 1 and 2, this device its rank r. -/
def pair (r : Nat) : Comm :=
  { id := 5, count := 2, myRank := r, ranks := [1, 2], spares := [], buddy := 1, wait := 1000, stale := 10, shape := 0, fanout := 2, segment := 4096 }

/-- A partition of bays 0 and 1 on device 1, in communicator 5, with tensor 3 of 64 elements a row; tile 0 is SPLIT, with 4 MiB in pools 0 and 5. -/
def cfg : Cfg :=
  { Cfg.empty with bays := 3, deviceId := 1, hasDev := true, comms := [pair 0],
                   tensors := [{ id := 3, store := 1, arrive := 1, scaling := 0, rounding := 0, thin := 0, rowLen := 64 }],
                   modes := [(0, 1)], pools := [(0, 64), (5, 64)] }

/-- Partition 0 with that configuration, its record changed by f. -/
def base (f : Part → Part := id) : State := { State.reset with parts := [(0, some (f { Part.reset with defined := true, cfg := cfg }))] }

/-- Tile 0 of it runs a program of the one word w; its record is changed by f. -/
def onTile (w : Nat) (f : Tile → Tile := id) : State :=
  (({ base with tiles := [(0, some (f { Tile.reset with live := true, prog := [(0, BitVec.ofNat 128 w)] }))] } : State).fset .tpState 0
    TpState.running).fset .vecVl 0 4

/-- The word w of tile 0 in its queue. -/
def queued (w ref : Nat) (writes : Bool) : Flight :=
  { id := 0, pc := 0, cls := wCls w, op := wOp w, sig := none, writes := writes, started := false, done := false, word := BitVec.ofNat 128 w,
    ref := ref, wrote := [] }


/-- The number of a structure in memory with fields (first byte, value). -/
def recordOf (fields : List (Nat × Nat)) : Nat := fields.foldl (fun w f => w + f.2 * 2 ^ (8 * f.1)) 0

/-- s with 64 bytes of number d at word `at_` of tile 0's scratchpad. -/
def at_ (s : State) (word d : Nat) : State := s.spWrite 0 (64 * word) (leBytes 64 d)

/-- A machine that runs MOV.DESC of a move of 16 FP32 from HBM to the scratchpad, before and after its word is queued. -/
def movS : State := at_ (onTile (wordOf 3 0 0 [(32, 8)])) 8
  (recordOf [(0, 1), (16, scratchBase 0 + 4096), (24, 1), (28, 16), (32, 64), (36, 64)])
def movE : State := movS.enqueue 0 (wordOf 3 0 0 [(32, 8)]) true false false 0

/-- A machine that runs an ATT word w, slot 1 of bay 0 fed with positions 0 to 7, its page table's first entry naming a frame. -/
def attS (w : Nat) : State :=
  let c : Cfg := { cfg with regions := [{ idx := 0, kind := 0, use := 6, base := 2 ^ 20, size := 2 ^ 30 }] }
  let s := onTile w (fun x => { x with sregs := [(2, 1), (3, 0)] })
  let s := ({ s with parts := [(0, some { Part.reset with defined := true, cfg := c })],
                     bays := [(0, some { Bay.reset with entries := [{ slot := 1, kind := 0, depth := 0, pos0 := 0, count := 8, tokenIdx := 0,
                                                                      drawIdx := 0, mainSlot := 0, draftSlot := 0 }] })] } : State).fset .kvLayers 0 4
  s.devWrite (s.entryAddr 0 0 1 0) (leBytes 4 (2 ^ 28))

/-- A move of 64 bytes from HBM to tile 0, of purpose `why`. -/
def aMove (why : Nat) : Move := { id := 4, owner := 0, why := why, ref := 0, desc := 0, src := 0, dst := scratchBase 0, len := 64 }

/-- A machine that runs XCH word w of tile 0 with descriptor d in word 8, in partition 0 with the exchanges xs; the machine once the word is
queued; and the queued word. -/
def xchS (w d : Nat) (xs : List Exch := []) : State :=
  at_ { onTile w with parts := [(0, some { Part.reset with defined := true, cfg := cfg, exchanges := xs })] } 8 d
def xchF (w : Nat) (writes : Bool) : Flight := queued w State.reset.nextMove writes

/-- An exchange descriptor: one route for one token, one expert on tile 0, rows of one word. -/
def exDesc : Nat :=
  recordOf [(2, 1), (5, 1), (8, 1), (10, 1), (12, 1), (16, 1), (20, 16), (24, 65536), (28, 65537), (32, 65538), (36, 65540), (40, 65538), (44, 65540),
            (48, 65542), (52, 65543)]

/-- The exchange that COUNTS has left for it: token 0 goes to expert 0 of rank 0, and nothing comes from rank 1. -/
def exchange (stepNo : Nat) : Exch :=
  { comm := 5, opNo := 0, stepNo := stepNo, desc := BitVec.ofNat 512 exDesc, routes := [0], recv := [1, 0], home := none }

/-- The state of an effect that succeeds. -/
def effState (e : Eff) : State :=
  match e with
  | .ok s => s
  | _ => State.reset

/-- An effect that succeeds is its state. -/
def goes (e : Eff) : Bool :=
  match e with
  | .ok _ => true
  | _ => false
theorem goes_ok (e : Eff) (h : goes e = true) : e = .ok (effState e) := by
  cases e <;> first | rfl | cases h

/-- A collective of communicator 5 and operation op, with descriptor d. -/
def coll (op : Nat) (d : Nat := 0) : Coll :=
  { Coll.base with id := 1, comm := 5, op := op, desc := BitVec.ofNat 512 d, map := [(0, 1)], expect := [(segKey 1 0, 1)], phase := 1 }

/-- Partition 0 has that collective open. -/
def withColl (c : Coll) : State := base (fun x => { x with colls := [c] })

/-- A message of rank 1 on device 2 to this device. -/
def msg (vc ty op : Nat) (bs : List Byte := []) : Msg :=
  { Msg.empty with src := 2, dst := 1, vc := vc, ty := ty, op := op, comm := 5, rank := 1, data := bs }

/-- Partition 0 as rank 1 of communicator 5, on device 2. -/
def base1 (f : Part → Part := id) : State := base (fun x => f { x with cfg := { cfg with deviceId := 2, comms := [pair 1] } })

/-- A message of rank 0 on device 1 to rank 1. -/
def msg1 (vc ty op : Nat) : Msg := { Msg.empty with src := 1, dst := 2, vc := vc, ty := ty, op := op, comm := 5 }

/-- A fence of a refresh on communicator 5 that waits. -/
def fence : Fence := { kind := FenceKind.refresh, comm := 5, cmd := 7, key := [3], seen := [(0, [3])], verdict := none }

/-- An install of version 3 over communicator 5. -/
def install : Install := { comm := 5, version := 3, staged := false, counts := [], phase := 1, sum := 0, tries := [],
                           segs := [{ owner := 0, entry := 0, len := 8, dlen := 8, stageCrcs := [], crc := some 0, fp := none, fetches := 0 }] }

/-- Sequence 9 in slot 1 of a bay, of communicator k. -/
def seq9 (k : Nat := 0xFF) : Seq :=
  { id := 9, flags := 0, depthReq := 0, topK := 1, promptLen := 4, maxNew := 16, temp := 0, topP := 0, seed := 0, buf := 0, stops := [],
    comm := k, fn := 0, ring := 0, ctr := 0, rseq := 0, slot := 1, len := 4, fed := 4, target := 4, depth := 0, zero := 0, full := 0,
    off := false, made := 0, high := 0, oldLimit := 0, mixed := false, reservedTo := 0, frames := [], order := 0, told := [] }

/-- A command record of opcode `op` of partition 0, with descriptor fields f. -/
def command (id op : Nat) (f : List (Nat × Nat) := []) : Cmd :=
  { id := id, fn := 0, ring := 0, slot := 0, part := 0, desc := BitVec.ofNat 512 (recordOf ((0, op) :: f)), ctr := 0, started := true, stage := 0,
    rseq := 0, replayed := false }


/-- A descriptor with fields (first byte, value). -/
def desc (f : List (Nat × Nat)) : BitVec 512 := BitVec.ofNat 512 (recordOf f)

/-- s with ring 0 of function 0 enabled and descriptor f waiting in its first slot, at host address 0. -/
def hostS (s : State) (f : List (Nat × Nat)) : State :=
  ((((s.fset .secStage 0 3).fset .sqEnable 0 1).fset .sqLog2Size 0 4).modRing 0 (fun r => { r with tail := 1 })).hostWrite 0 (leBytes 64 (recordOf f))

/-- The command that the descriptor becomes, and the machine that has accepted and started it. -/
def tkC (s : State) (part : Nat) (f : List (Nat × Nat)) : Cmd := ((hostS s f).taken 0 0 part (desc f)).1
def tkS (s : State) (part : Nat) (f : List (Nat × Nat)) : State := ((hostS s f).taken 0 0 part (desc f)).2

/-- A partition image of partition 0's own configuration, under handle 1. -/
def staged : Staged :=
  { handle := 1, addr := 8192, len := 0, digest := sha256 [], report := [], isPart := true, baySet := 3, tileReq := 3, masks := [], cfg := cfg }

/-- Partition 0 in a phase, its record changed by f, with that image staged. -/
def phased (ph : Nat) (f : Part → Part := id) : State := { (base f).fset .turnPhase 0 ph with images := [staged] }

/-- An open turn 9 of partition 0, on communicator 5, begun by command 1. -/
def turn9 : Turn :=
  { turnId := 9, comm := 5, keepOld := false, learnEpoch := 1, learnImage := 1, oldEpoch := 0, oldCfg := cfg, oldDigest := [], version := 0,
    rolloutEpoch := 0, rolloutImage := 0, newVersion := 0, abandonOpen := false, begin_ := 0, commit := 0, abandon := 0, kept := false, gone := [],
    stage := 0 }

/-- A region of 4 KiB: of HBM where kind is 0, of LPDDR5X where it is 1. -/
def region (kind use_ base_ : Nat) : Region := { idx := 0, kind := kind, use := use_, base := base_, size := 4096 }

/-- An empty program in kettle slot 0. -/
def kslot0 : KSlot := { slot := 0, prog := [], zeroVisit := 0, growth := 0, initExp := 0 }

/-- A partition image of bays 0 and 1 without records (R53 to R55). -/
def image0 : List Byte :=
  let head := leBytes 64 (recordOf [(0, 0x4F435244), (5, 1), (6, 0x0060), (8, 2), (12, 68), (28, 3)])
  head ++ leBytes 4 (crc32c head)

/-- An authorisation block for a purpose and a target, answering the challenge of 32 bytes 5 0 0 …, with a new key where `key` is not 0 (R468). -/
def block (purpose target key : Nat) : List Byte := leBytes 192 (recordOf [(0, 0x48545541), (4, purpose), (5, target), (16, 5), (48, key)])

/-- A device with that challenge outstanding and the block in host memory. -/
def authS (purpose target key : Nat) : State :=
  { (base.hostWrite 4096 (block purpose target key)) with sec := { State.reset.sec with challenge := some (leBytes 32 5) } }

/-- A firmware image of three empty components, of SVN 0 (R469). -/
def firmware : List Byte :=
  leBytes 16 (recordOf [(0, 0x4D495746), (4, 1), (12, 256)]) ++ sha256 [] ++ sha256 [] ++ sha256 [] ++ leBytes 144 0

/-- A capture that holds its START record alone, of an image of no bytes (R499). -/
def capture0 : List Byte := leBytes 16 (recordOf [(0, 1), (4, 32)]) ++ sha256 [] ++ leBytes 16 0

/-- An authorisation block whose signature verifies is valid where its other fields are right. -/
theorem authOk_of (s : State) (purpose target : Nat) (key bs : List Byte)
    (h : (leField bs 3 0 == 0x48545541 && leField bs 4 4 == purpose && leField bs 5 5 == target &&
      leField bs 15 8 == s.fget .hostSerial 0 && s.sec.challenge == some ((bs.drop 16).take 32)) = true)
    (v : Config.ecdsaVerify key (bs.take 128) ((bs.drop 128).take 64) = true) : s.authOk purpose target key bs = true := by
  simp only [State.authOk, h, v, Bool.and_self]

/-- A firmware image whose signature verifies passes where its other checks do. -/
theorem fwCheck_of (svn : Nat) (bs : List Byte)
    (h : ¬(leField bs 3 0 ≠ 0x4D495746 ∨ leField bs 7 4 ≠ 1 ∨ leField bs 15 12 ≠ 256 + fwLen bs 0 + fwLen bs 1 + fwLen bs 2 ∨
      2 ^ 25 < leField bs 15 12 ∨ bs.length < leField bs 15 12))
    (v : Config.ecdsaVerify (Config.fused Fused.firmwareKey) (bs.take 128) ((bs.drop 128).take 64) = true) (h2 : ¬(leField bs 11 8 < svn))
    (h3 : (List.range 3).any (fun i => sha256 (fwComponent bs i) != (bs.drop (16 + 32 * i)).take 32) = false) : fwCheck svn bs = 0 := by
  simp only [fwCheck, if_neg h, v, if_neg h2, h3, Bool.true_eq_false, Bool.false_eq_true, if_false]

/-- Partition 0 in a module that is powered and runs. -/
def live (f : Part → Part := id) : State := { (base f).fset .secStage 0 3 with pwr := { State.reset.pwr with powered := true } }

/-- A kettle program of one instruction, of operation op on registers 0 to 2, over n elements of format fmt; vis binds VIS at 0. -/
def kprog1 (op n sweep fmt vis : Nat) : List Byte :=
  leBytes 744 (recordOf [(0, sweep), (1, 1), (8, n), (16, n), (64, 4096), (72, fmt), (73, 1), (64 + 48 * 12 + 9, vis), (736, op + 2 ^ 10 * 1 + 2 ^ 16 * 2)])

/-- Kettle slot 0 with that program. -/
def slotOp (op n sweep fmt zeroVisit : Nat) : KSlot := { slot := 0, prog := kprog1 op n sweep fmt zeroVisit, zeroVisit := zeroVisit, growth := 0, initExp := 0 }

/-- The kettle of stack 0 runs that slot; the kettle's record is changed by f. -/
def kettleS (k : KSlot) (st : Nat) (f : Kettle → Kettle := id) : State :=
  let s := base (fun x => { x with cfg := { cfg with kslots := [k] } })
  { s.fset .ketState 0 st with kettles := [(0, some (f { Kettle.reset with why := 1 }))] }

/-- The same, once the kettle has its undo entry of block 0. -/
def undone (k : KSlot) (st : Nat) : State := ((kettleS k st).openBlock 0 k 0).getD State.reset

/-- Flash work of the partition, of a kind and a stage. -/
def flash (kind stage : Nat) : Flash := { Flash.base with kind := kind, stage := stage, cmd := 7, comm := 5, step := 1, data := leBytes 8 0 }

/-- Partition 0 with that flash work, its command 7 in flight. -/
def flashS (f : Flash) : State := { (base (fun x => { x with flash := some f })) with cmds := [command 7 0x74] }

/-- A held buddy stream. -/
def buddy (whole : Bool) : Buddy :=
  { src := 2, comm := 5, rank := 1, step := 1, slot := 0, data := [], discard := false, whole := whole, epoch := 0, version := 0 }

/-- A flash namespace whose first slot holds a generation of step 1 that rank 1 of communicator 5 wrote (R230). -/
def slotS : State :=
  let s := (base.fset .flashNsSize 0 64).fset .flashCkptSlot 0 1
  s.devWrite (flashBase + s.trailerAt 0 (s.slotBase 0 0)) (trailerBytes 1 2 5 1 0 0 [])

/-- Port 0 of partition 0, in STATE st; its record is changed by f. -/
def portS (st : Nat) (f : Port → Port := id) : State :=
  let s := base (fun x => { x with cfg := { cfg with ports := [(0, 1)] } })
  { s.fset .linkState 0 st with ports := [(0, some (f Port.reset))] }

/-- A flit of nothing, of a TYPE, an LSEQ and FLAGS, with its CRC. -/
def flit (ty lseq flags : Nat) : BitVec 2048 := stampFlit (formFlit 1 2 5 ty flags 0 0 []) 1 lseq 0 0

/-- A grace timer, and a log record that it belongs to. -/
def timer (level : Nat) : Grace := { seq := 3, level := level, scope := 0, source := Source.leak, kind := Kind.chip, inst := 0 }

/-- The state that a final block's undo entry leaves, where its reads succeed. -/
def leftOf (x : State ⊕ Nat) : State :=
  match x with
  | .inl s => s
  | .inr _ => State.reset

/-- A flit without NAK leaves STATE of the port as it is, whatever FEC corrected. -/
theorem linkState_fields (s : State) (q n : Nat) (f : BitVec 2048) (h : bitOf (flitFlags f) 2 = false) :
    ((s.finc .linkFecCorrected q n).linkFields q f).fget .linkState q = s.fget .linkState q := by
  unfold State.linkFields
  simp only [h, Bool.false_eq_true, if_false]
  exact fget_fset_ne s _ (.inl (by decide))

/-- The state that a command leads to, and that it does lead to one. -/
def after (x : Host.Outcome State Fault Refusal) : State :=
  match x with
  | .next s => s
  | _ => State.reset
def answers (x : Host.Outcome State Fault Refusal) : Bool :=
  match x with
  | .next _ => true
  | _ => false
theorem answers_eq (x : Host.Outcome State Fault Refusal) (h : answers x = true) : x = .next (after x) := by
  cases x <;> first | rfl | cases h

/-- Ring 0 of VF 1 with descriptor f waiting, VF 1 up. -/
def vfS (f : List (Nat × Nat)) : State :=
  { (((((base.fset .secStage 0 3).fset .sqEnable 8 1).fset .sqLog2Size 8 4).modRing 8 (fun r => { r with tail := 1 })).hostWrite 0
    (leBytes 64 (recordOf f))) with vfUp := 2 }

/-- Log records: an open one, and one that is acknowledged. -/
def logRec (seq : Nat) (acked : Bool) : LogRec :=
  { seq := seq, source := Source.leak, severity := 1, orig := 1, acked := acked, escalated := false, kind := Kind.chip, part := 0xFF, inst := 0,
    repeats := 0, info := 0, time := 0 }

/-- A machine whose log holds the records l. -/
def logS (l : List (Nat × LogRec)) : State := { State.reset with fc := { State.reset.fc with log := l } }

/-- Hypotheses of ControlWords are met: ctlNop, ctlLi, ctlAlu, ctlBr, ctlBrIndirect, ctlLoop, ctlMod, ctlVxfer, ctlRdcr, ctlWrcr, ctlEnd. -/
theorem witness_ControlWords :
    -- ctlNop
    (∃ (s : State) (t : Nat) (w : Nat), s.issues t 0 0 w (wFmt w == 0) []) ∧
    -- ctlLi
    (∃ (s : State) (t : Nat) (w : Nat), s.issues t 0 1 w (wFmt w == 0) [(24, 20), (127, 64)]) ∧
    -- ctlAlu
    (∃ (s : State) (t : Nat) (w : Nat), s.issues t 0 2 w (wFmt w == 0) (if bitOf w 39 then [(29, 20), (39, 35), (95, 64)] else [(39, 20)]) ∧ bitsOf w
      38 35 ≤ 12) ∧
    -- ctlBr
    (∃ (s : State) (t : Nat) (w : Nat), s.issues t 0 3 w (wFmt w == 0) (brUses w) ∧ bitsOf w 38 35 ≤ 6 ∧ bitOf w 39 = false ∧ (s.tile t).branchOk
      (s.fget .tpPc t) (bitsOf w 77 64) = true) ∧
    -- ctlBrIndirect
    (∃ (s : State) (t : Nat) (w : Nat), s.issues t 0 3 w (wFmt w == 0) (brUses w) ∧ bitsOf w 38 35 = 0 ∧ bitOf w 39 = true ∧ (s.tile t).branchOk
      (s.fget .tpPc t) ((s.tile t).sreg (bitsOf w 29 25) % 16384) = true) ∧
    -- ctlLoop
    (∃ (s : State) (t : Nat) (w : Nat), s.issues t 0 4 w (wFmt w == 0) (loopUses w) ∧ 1 ≤ bitsOf w 44 32 ∧ bitsOf w 44 32 ≤ 4096 ∧ s.fget .tpPc t + 1
      + bitsOf w 44 32 ≤ 16384 ∧ (s.tile t).loops.length < 4 ∧ ((s.tile t).loops.all (fun l => decide (s.fget .tpPc t + 1 + bitsOf w 44 32 ≤ l.stop)))
      = true) ∧
    -- ctlMod
    (∃ (s : State) (t : Nat) (w : Nat), s.issues t 0 5 w (wFmt w == 0) (modUses w) ∧ triplesOk (modTriples w) = true ∧ ((s.nextWord t).tile t).live =
      true) ∧
    -- ctlVxfer
    (∃ (s : State) (t : Nat) (w : Nat), s.issues t 0 6 w (wFmt w == 0) (if bitOf w 30 then [(44, 25)] else [(24, 20), (44, 30)])) ∧
    -- ctlRdcr
    (∃ (s : State) (t : Nat) (w : Nat), s.issues t 0 7 w (wFmt w == 0) [(24, 20), (39, 32)] ∧ bitsOf w 39 32 ≤ 9) ∧
    -- ctlWrcr
    (∃ (s : State) (t : Nat) (w : Nat), s.issues t 0 8 w (wFmt w == 0) [(29, 25), (39, 32)] ∧ bitsOf w 39 32 = 1) ∧
    -- ctlEnd
    (∃ (s : State) (t : Nat) (w : Nat), s.issues t 0 9 w (wFmt w == 0) (if bitOf w 20 then [(20, 20), (47, 32)] else [(20, 20)])) :=
  ⟨
    ⟨onTile (wordOf 0 0 0 []), 0, (wordOf 0 0 0 []), by decide⟩,
    ⟨onTile (wordOf 0 1 0 [(20, 3), (64, 7)]), 0, (wordOf 0 1 0 [(20, 3), (64, 7)]), by decide⟩,
    ⟨onTile (wordOf 0 2 0 [(20, 3), (25, 1), (35, 0), (39, 1), (64, 5)]), 0, (wordOf 0 2 0 [(20, 3), (25, 1), (35, 0), (39, 1), (64, 5)]), by decide,
      by decide⟩,
    ⟨onTile (wordOf 0 3 0 [(20, 3), (25, 1), (30, 2), (35, 1), (64, 100)]), 0, (wordOf 0 3 0 [(20, 3), (25, 1), (30, 2), (35, 1), (64, 100)]), by
      decide, by decide, by decide, by decide⟩,
    ⟨onTile (wordOf 0 3 0 [(20, 3), (25, 1), (39, 1)]) (fun x => { x with sregs := [(1, 7)] }), 0, (wordOf 0 3 0 [(20, 3), (25, 1), (39, 1)]), by
      decide, by decide, by decide, by decide⟩,
    ⟨onTile (wordOf 0 4 0 [(20, 3), (30, 1), (32, 4), (64, 2)]), 0, (wordOf 0 4 0 [(20, 3), (30, 1), (32, 4), (64, 2)]), by decide, by decide, by
      decide, by decide, by decide, by decide⟩,
    ⟨onTile (wordOf 0 5 0 [(20, 1), (25, 64), (32, 7)]), 0, (wordOf 0 5 0 [(20, 1), (25, 64), (32, 7)]), by decide, by decide, by decide⟩,
    ⟨onTile (wordOf 0 6 0 [(20, 3), (31, 2), (35, 9)]), 0, (wordOf 0 6 0 [(20, 3), (31, 2), (35, 9)]), by decide⟩,
    ⟨onTile (wordOf 0 7 0 [(20, 3), (32, 9)]), 0, (wordOf 0 7 0 [(20, 3), (32, 9)]), by decide, by decide⟩,
    ⟨onTile (wordOf 0 8 0 [(25, 3), (32, 1)]), 0, (wordOf 0 8 0 [(25, 3), (32, 1)]), by decide, by decide⟩,
    ⟨onTile (wordOf 0 9 0 [(20, 1), (32, 9)]), 0, (wordOf 0 9 0 [(20, 1), (32, 9)]), by decide⟩⟩

/-- Hypotheses of SyncWords are met: synWait, synSignal, synFence, wordComplete, syncTimeout. -/
theorem witness_SyncWords :
    -- synWait
    (∃ (s : State) (t : Nat) (w : Nat), s.issues t 5 0 w (wFmt w == 0) ((26, 20) :: synUses w)) ∧
    -- synSignal
    (∃ (s : State) (t : Nat) (w : Nat), s.issues t 5 1 w (wFmt w == 0) (signalUses w) ∧ ((bitsOf w 31 28 = 0 ∨ bitsOf w 31 28 = 1 ∧ s.mapped (bitsOf w
      38 32) = true ∧ s.holds ((s.partOfTile t).getD 12) (bitsOf w 38 32 / 8) = true ∨ bitsOf w 31 28 = 2 ∧ bitsOf w 25 20 ≤ 15 ∧ s.holds
      ((s.partOfTile t).getD 12) (bitsOf w 38 32) = true))) ∧
    -- synFence
    (∃ (s : State) (t : Nat) (w : Nat), s.issues t 5 2 w (wFmt w == 0) [(39, 33)] ∧ ((s.tile t).flight.all (fun f => !bitOf w (32 + f.cls))) = true) ∧
    -- wordComplete
    (∃ (s : State) (t : Nat) (id : Nat) (f : _), (s.tile t).flight.find? (fun g => g.id == id) = some f ∧ f.done = true ∧ (s.tile t).fenceHeld f =
      false) ∧
    -- syncTimeout
    (∃ (s : State) (t : Nat), s.dispatching t = true ∧ s.fget .tpState t = TpState.waiting) :=
  ⟨
    ⟨onTile (wordOf 5 0 0 [(20, 3), (26, 1), (64, 1)]), 0, (wordOf 5 0 0 [(20, 3), (26, 1), (64, 1)]), by decide⟩,
    ⟨onTile (wordOf 5 1 0 [(20, 3), (64, 1)]), 0, (wordOf 5 1 0 [(20, 3), (64, 1)]), by decide, by decide⟩,
    ⟨onTile (wordOf 5 2 0 [(33, 127)]), 0, (wordOf 5 2 0 [(33, 127)]), by decide, by decide⟩,
    ⟨(onTile (wordOf 5 2 0 []) (fun x => { x with flight := [{ queued (wordOf 2 1 0 []) 0 false with done := true }] })), 0, 0,
      { queued (wordOf 2 1 0 []) 0 false with done := true }, by decide, by decide, by decide⟩,
    ⟨((onTile (wordOf 5 0 0 [])).fset .tpState 0 TpState.waiting), 0, by decide, by decide⟩⟩

/-- Hypotheses of VectorWords are met: vecSetvl, vecAdd, vecMul, vecMin, vecMax, vecCmp, vecFma, vecSel, vecEst, vecRsum, vecRmax, vecLd, vecSt. -/
theorem witness_VectorWords :
    -- vecSetvl
    (∃ (s : State) (t : Nat) (w : Nat), s.issues t 2 0 w (wFmt w == 0) ((49, 48) :: (if bitsOf w 49 48 = 0 then [(127, 96)] else if bitsOf w 49 48 = 1
      then [(54, 50)] else [])) ∧ bitsOf w 49 48 ≤ 2) ∧
    -- vecAdd
    (∃ (s : State) (t : Nat) (w : Nat), s.issues t 2 1 w (fmtArithInt (wFmt w)) (vecUses2 w) ∧ negOk w = true) ∧
    -- vecMul
    (∃ (s : State) (t : Nat) (w : Nat), s.issues t 2 2 w (fmtArith (wFmt w)) (vecUses2 w) ∧ negOk w = true) ∧
    -- vecMin
    (∃ (s : State) (t : Nat) (w : Nat), s.issues t 2 4 w (fmtArithInt (wFmt w)) (vecUses2 w) ∧ negOk w = true) ∧
    -- vecMax
    (∃ (s : State) (t : Nat) (w : Nat), s.issues t 2 5 w (fmtArithInt (wFmt w)) (vecUses2 w) ∧ negOk w = true) ∧
    -- vecCmp
    (∃ (s : State) (t : Nat) (w : Nat), s.issues t 2 6 w (fmtArithInt (wFmt w)) ((40, 36) :: vecUses2 w) ∧ negOk w = true) ∧
    -- vecFma
    (∃ (s : State) (t : Nat) (w : Nat), s.issues t 2 3 w (fmtArith (wFmt w)) (vecUses3 w) ∧ negOk w = true) ∧
    -- vecSel
    (∃ (s : State) (t : Nat) (w : Nat), s.issues t 2 7 w (fmtAny (wFmt w)) [(31, 20), (37, 36), (44, 44)]) ∧
    -- vecEst
    (∃ (s : State) (t : Nat) (w : Nat), s.issues t 2 8 w (wFmt w == 0) [(27, 20), (40, 38)] ∧ bitsOf w 40 38 ≤ 3) ∧
    -- vecRsum
    (∃ (s : State) (t : Nat) (w : Nat), s.issues t 2 9 w (fmtArithInt (wFmt w)) [(27, 20)]) ∧
    -- vecRmax
    (∃ (s : State) (t : Nat) (w : Nat), s.issues t 2 10 w (fmtArithInt (wFmt w)) [(27, 20)]) ∧
    -- vecLd
    (∃ (s : State) (t : Nat) (w : Nat), s.issues t 2 11 w (decide (wFmt w ≤ 7)) ((23, 20) :: (83, 64) :: (if fmtScaled (wFmt w) then [(103, 84)] else
      [])) ∧ s.spFaults t (loadReads s t w) = none) ∧
    -- vecSt
    (∃ (s : State) (t : Nat) (w : Nat), s.issues t 2 12 w (fmtArithInt (wFmt w)) [(27, 24), (83, 64)] ∧ s.spFaults t (storeWrites s t w) = none) :=
  ⟨
    ⟨onTile (wordOf 2 0 0 [(48, 0), (96, 5)]), 0, (wordOf 2 0 0 [(48, 0), (96, 5)]), by decide, by decide⟩,
    ⟨onTile (wordOf 2 1 0 [(20, 1), (24, 2), (28, 3)]), 0, (wordOf 2 1 0 [(20, 1), (24, 2), (28, 3)]), by decide, by decide⟩,
    ⟨onTile (wordOf 2 2 0 [(20, 1), (24, 2), (28, 3)]), 0, (wordOf 2 2 0 [(20, 1), (24, 2), (28, 3)]), by decide, by decide⟩,
    ⟨onTile (wordOf 2 4 0 [(20, 1), (24, 2), (28, 3)]), 0, (wordOf 2 4 0 [(20, 1), (24, 2), (28, 3)]), by decide, by decide⟩,
    ⟨onTile (wordOf 2 5 0 [(20, 1), (24, 2), (28, 3)]), 0, (wordOf 2 5 0 [(20, 1), (24, 2), (28, 3)]), by decide, by decide⟩,
    ⟨onTile (wordOf 2 6 0 [(20, 1), (24, 2), (28, 3)]), 0, (wordOf 2 6 0 [(20, 1), (24, 2), (28, 3)]), by decide, by decide⟩,
    ⟨onTile (wordOf 2 3 0 [(20, 1), (24, 2), (28, 3), (32, 4)]), 0, (wordOf 2 3 0 [(20, 1), (24, 2), (28, 3), (32, 4)]), by decide, by decide⟩,
    ⟨onTile (wordOf 2 7 0 [(20, 1), (24, 2), (28, 3), (36, 1)]), 0, (wordOf 2 7 0 [(20, 1), (24, 2), (28, 3), (36, 1)]), by decide⟩,
    ⟨onTile (wordOf 2 8 0 [(20, 1), (24, 2), (38, 3)]), 0, (wordOf 2 8 0 [(20, 1), (24, 2), (38, 3)]), by decide, by decide⟩,
    ⟨onTile (wordOf 2 9 0 [(20, 1), (24, 2)]), 0, (wordOf 2 9 0 [(20, 1), (24, 2)]), by decide⟩,
    ⟨onTile (wordOf 2 10 0 [(20, 1), (24, 2)]), 0, (wordOf 2 10 0 [(20, 1), (24, 2)]), by decide⟩,
    ⟨onTile (wordOf 2 11 5 [(20, 1), (64, 12287), (84, 5)]), 0, (wordOf 2 11 5 [(20, 1), (64, 12287), (84, 5)]), by decide, by decide⟩,
    ⟨onTile (wordOf 2 12 0 [(24, 1), (64, 12287)]), 0, (wordOf 2 12 0 [(24, 1), (64, 12287)]), by decide, by decide⟩⟩

/-- Hypotheses of BankWords are met: bnkAdd, bnkMax, bnkSadd, bnkWiden, bnkConvert, bnkRmaxcap. -/
theorem witness_BankWords :
    -- bnkAdd
    (∃ (s : State) (t : Nat) (w : Nat), s.issues t 4 0 w (fmtArithInt (wFmt w)) (bnkUses w) ∧ (bankPair 0 (wFmt w) (bDstFmt w) && countOk w && bTreg w
      == 0 && rangesOk w true) = true ∧ s.spFaults t (bankReads w) = none) ∧
    -- bnkMax
    (∃ (s : State) (t : Nat) (w : Nat), s.issues t 4 1 w (fmtArithInt (wFmt w)) (bnkUses w) ∧ (bankPair 1 (wFmt w) (bDstFmt w) && countOk w && bTreg w
      == 0 && rangesOk w true) = true ∧ s.spFaults t (bankReads w) = none) ∧
    -- bnkSadd
    (∃ (s : State) (t : Nat) (w : Nat), s.issues t 4 2 w (fmtArith (wFmt w)) (bnkUses w) ∧ (bankPair 2 (wFmt w) (bDstFmt w) && countOk w && tregOk w
      && rangesOk w true) = true ∧ s.spFaults t (bankReads w) = none) ∧
    -- bnkWiden
    (∃ (s : State) (t : Nat) (w : Nat), s.issues t 4 3 w (decide (3 ≤ wFmt w) && decide (wFmt w ≤ 6)) (bnkUses w) ∧ (widenLegal (wFmt w) (bDstFmt w)
      && countOk w && rangesOk w false && (if fmtScaled (wFmt w) then tregOk w && bitsOf ((s.tile t).sreg (bTreg w)) 63 40 == 0 else bTreg w == 0)) =
      true ∧ s.spFaults t (widenAccesses s t w) = none) ∧
    -- bnkConvert
    (∃ (s : State) (t : Nat) (w : Nat), s.issues t 4 4 w (fmtConvSrc (wFmt w)) (bnkUses w) ∧ (decide (bDstFmt w ≤ 8) && bDstFmt w != 7 && countOk w &&
      tregOk w && (bankCtx s t w).zeroOk && rangesOk w false && (bankTensor s t w).rowLen != 0) = true ∧ s.spFaults t (convertAccesses s t w) = none) ∧
    -- bnkRmaxcap
    (∃ (s : State) (t : Nat) (w : Nat), s.issues t 4 5 w (fmtConvSrc (wFmt w)) (bnkUses w) ∧ (decide (bDstFmt w ≤ 8) && countOk w && tregOk w &&
      (bankCtx s t w).zeroOk && bDst w == 0 && (bankTensor s t w).rowLen != 0) = true ∧ s.spFaults t ((64 * bSrc w, fmtBytes (wFmt w) (bCount w),
      false) :: bankRecord s t w) = none) :=
  ⟨
    ⟨onTile (wordOf 4 0 0 [(32, 8), (64, 4), (96, 16)]), 0, (wordOf 4 0 0 [(32, 8), (64, 4), (96, 16)]), by decide, by decide, by decide⟩,
    ⟨onTile (wordOf 4 1 7 [(26, 7), (32, 8), (64, 8), (96, 16)]), 0, (wordOf 4 1 7 [(26, 7), (32, 8), (64, 8), (96, 16)]), by decide, by decide, by
      decide⟩,
    ⟨onTile (wordOf 4 2 1 [(21, 3), (32, 8), (64, 4), (96, 16)]), 0, (wordOf 4 2 1 [(21, 3), (32, 8), (64, 4), (96, 16)]), by decide, by decide, by
      decide⟩,
    ⟨onTile (wordOf 4 3 6 [(21, 3), (26, 5), (32, 8), (64, 4), (96, 64)]), 0, (wordOf 4 3 6 [(21, 3), (26, 5), (32, 8), (64, 4), (96, 64)]), by
      decide, by decide, by decide⟩,
    ⟨onTile (wordOf 4 4 0 [(21, 3), (26, 5), (32, 40), (64, 4), (96, 64)]) (fun x => { x with sregs := [(3, 3 + 2 ^ 16 * 20), (4, 0)] }), 0, (wordOf 4
      4 0 [(21, 3), (26, 5), (32, 40), (64, 4), (96, 64)]), by decide, by decide, by decide⟩,
    ⟨onTile (wordOf 4 5 0 [(21, 3), (26, 5), (64, 4), (96, 64)]) (fun x => { x with sregs := [(3, 3 + 2 ^ 16 * 20), (4, 0)] }), 0, (wordOf 4 5 0 [(21,
      3), (26, 5), (64, 4), (96, 64)]), by decide, by decide, by decide⟩⟩

/-- Hypotheses of MatrixWords are met: mxmLoadw, mxmMul, mxmDrain, mxmGroupEmpty, mxmFence, mxmGroup. -/
theorem witness_MatrixWords :
    -- mxmLoadw
    (∃ (s : State) (t : Nat) (w : Nat), s.issues t 1 0 w (fmtOperand (wFmt w)) ((51, 20) :: (if fmtScaled (wFmt w) then [(83, 64)] else [])) ∧
      ((s.mode t).isSplit || bitsOf w 21 20 == 0) = true ∧ 1 ≤ bitsOf w 31 22 ∧ bitsOf w 31 22 ≤ (s.mode t).depth (wFmt w) ∧ ((fmtScaled (wFmt w) =
      true → bitsOf w 31 22 % 64 = 0)) ∧ s.spFaults t (loadwReads s t w) = none) ∧
    -- mxmMul
    (∃ (s : State) (t : Nat) (w : Nat), s.issues t 1 1 w (fmtOperand (wFmt w)) (mulUses w) ∧ mulFits s t w = true ∧ s.spFaults t (mulAccesses s t w) =
      none ∧ s.parityBad t (bitsOf w 21 20) ((swapped s t w).frontIdx (bitsOf w 21 20)) (wFmt w) (bitsOf w 120 111) (bitsOf w 127 121 + 1) = false ∧
      Tab.get false (swapped s t w).residue (bitsOf w 21 20) = false ∧ ((mulAccs s t w).any (fun a => s.accBadAt t a (mulAccLen w) (!bitOf w 23))) =
      false) ∧
    -- mxmDrain
    (∃ (s : State) (t : Nat) (w : Nat), s.issues t 1 2 w (fmtAny (wFmt w)) (drainUses w) ∧ drainFits s t w = true ∧ s.spFaults t (drainWrites s t w) =
      none ∧ ((drainAccs s t w).any (fun a => s.accBadAt t a (drainAccLen w) false)) = false) ∧
    -- mxmGroupEmpty
    (∃ (s : State) (t : Nat) (w : Nat), s.issues t 1 3 w (decide (1 ≤ wFmt w) && decide (wFmt w ≤ 6)) (groupUses w) ∧ groupFits s t w = true ∧
      s.spFaults t (tableReads w) = none ∧ groupTableOk s t w = true ∧ groupRows s t w = []) ∧
    -- mxmFence
    (∃ (s : State) (t : Nat) (w : Nat), s.issues t 1 4 w (wFmt w == 0) []) ∧
    -- mxmGroup
    (∃ (s : State) (t : Nat) (w : Nat), s.issues t 1 3 w (decide (1 ≤ wFmt w) && decide (wFmt w ≤ 6)) (groupUses w) ∧ groupFits s t w = true ∧
      s.spFaults t (tableReads w) = none ∧ groupTableOk s t w = true ∧ groupRows s t w ≠ [] ∧ s.spFaults t (groupAccesses s t w) = none ∧ ((List.range
      (min 4 (groupChunks (bitOf w 30) (groupArgs s t w).w.rows (groupEntries s t w)))).find? (fun q => Tab.get false (s.tile t).residue q)) = none) :=
  ⟨
    ⟨onTile (wordOf 1 0 1 [(20, 1), (22, 64), (32, 8)]), 0, (wordOf 1 0 1 [(20, 1), (22, 64), (32, 8)]), by decide, by decide, by decide, by decide,
      by decide, by decide⟩,
    ⟨onTile (wordOf 1 1 1 [(32, 8), (52, 0), (84, 1), (100, 1), (111, 64), (121, 63)]) (fun x =>
      { x with bufFmt := [(0, 2)], bufDepth := [(0, 64)] }), 0, (wordOf 1 1 1 [(32, 8), (52, 0), (84, 1), (100, 1), (111, 64), (121, 63)]), by decide,
      by decide, by decide, by decide, by decide, by decide⟩,
    ⟨onTile (wordOf 1 2 1 [(32, 8), (64, 2), (80, 1), (91, 63), (98, 3)]) (fun x => { x with sregs := [(3, 3 + 2 ^ 16 * 20), (4, 0)] }), 0, (wordOf 1
      2 1 [(32, 8), (64, 2), (80, 1), (91, 63), (98, 3)]), by decide, by decide, by decide, by decide⟩,
    ⟨onTile (wordOf 1 3 1 [(32, 8), (64, 1), (68, 3), (73, 5), (78, 1), (88, 1), (104, 2)]) (fun x =>
      { x with sregs := [(3, 3 + 2 ^ 16 * 20), (4, 0), (5, 16 + 2 ^ 40 * 128)] }), 0, (wordOf 1 3 1 [(32, 8), (64, 1), (68, 3), (73, 5), (78, 1), (88,
      1), (104, 2)]), by decide, by decide, by decide, by decide, by decide⟩,
    ⟨onTile (wordOf 1 4 0 []), 0, (wordOf 1 4 0 []), by decide⟩,
    ⟨(at_ (onTile (wordOf 1 3 1 [(32, 8), (64, 1), (68, 3), (73, 5), (78, 1), (88, 1), (104, 2)]) (fun x =>
      { x with sregs := [(3, 3 + 2 ^ 16 * 20), (4, 0), (5, 16 + 2 ^ 40 * 128)] })) 8 (recordOf [(4, 1), (8, 64), (12, 128)])), 0, (wordOf 1 3 1 [(32,
      8), (64, 1), (68, 3), (73, 5), (78, 1), (88, 1), (104, 2)]), by decide, by decide, by decide, by decide, by decide, by decide, by decide⟩⟩

/-- Hypotheses of MoveWords are met: movDesc, movSteep, movCopy, moveLanded, attWalk, attAppend, attInfo, steepEntryLanded. -/
theorem witness_MoveWords :
    -- movDesc
    (∃ (s : State) (t : Nat) (w : Nat) (e : State) (f : _) (d : _), s.issues t 3 0 w (wFmt w == 0) [(51, 32)] ∧ e = s.enqueue t w true false false 0 ∧
      (e.tile t).flight.find? (fun g => g.cls == 3 && !g.started) = some f ∧ f.op = 0 ∧ (e.movesOf t).length < 8 ∧ e.descHeld t f = false ∧ e.spFault
      t (64 * bitsOf f.word.toNat 51 32) 64 false = none ∧ d = BitVec.ofNat 512 (e.spNat t (64 * bitsOf f.word.toNat 51 32) 64) ∧ (moveD d).legal
      (e.part ((e.partOfTile t).getD 0)).cfg false = true ∧ e.moveAddrs ((e.partOfTile t).getD 0) (moveD d) = none) ∧
    -- movSteep
    (∃ (s : State) (t : Nat) (w : Nat) (e : State) (f : _), s.issues t 3 1 w (wFmt w == 0) [(47, 32)] ∧ e = s.enqueue t w false false false 0 ∧
      (e.tile t).flight.find? (fun g => g.cls == 3 && !g.started) = some f ∧ f.op = 1 ∧ e.fget .steepCursor t ≤ bitsOf f.word.toNat 47 32) ∧
    -- movCopy
    (∃ (s : State) (t : Nat) (w : Nat) (e : State) (f : _), s.issues t 3 2 w (wFmt w == 0) ([(51, 32), (83, 64), (91, 84), (127, 96)] ++ (if cRsig w
      then [(95, 92)] else [])) ∧ 1 ≤ cCount w ∧ cCount w ≤ spWords ∧ e = s.enqueue t w true false false 0 ∧ (e.tile t).flight.find? (fun g => g.cls
      == 3 && !g.started) = some f ∧ f.op = 2 ∧ (e.movesOf t).length < 8 ∧ e.addrsFault ((e.partOfTile t).getD 0) false [(wordAddr t (bitsOf
      f.word.toNat 51 32), 64 * cCount f.word.toNat)] = none ∧ e.addrsFault ((e.partOfTile t).getD 0) true [(wordAddr (cDtile f.word.toNat) (bitsOf
      f.word.toNat 83 64), 64 * cCount f.word.toNat)] = none) ∧
    -- moveLanded
    (∃ (s : State) (id : Nat) (m : Move), s.moves.find? (fun m => m.id == id) = some m ∧ m.why ≠ 1 ∧ s.moveHeld m = false) ∧
    -- attWalk
    (∃ (s : State) (w : Nat) (e : State) (f : _), s.issues 0 7 0 w (wFmt w == 1) (attUses w) ∧ e = s.enqueue 0 w true false false (attRef ((s.tile
      0).sreg (bitsOf w 56 52)) ((s.tile 0).sreg (bitsOf w 61 57))) ∧ (e.tile 0).flight.find? (fun g => g.cls == 7 && !g.started) = some f ∧ f.op = 0
      ∧ (e.movesOf 0).length < 8 ∧ e.attReason ((e.partOfTile 0).getD 0) (0 / 8) (attSlot f.ref) (aLayer f.word.toNat) (attPos f.ref) (aCount
      f.word.toNat) (0 == 1) = none ∧ e.spFault 0 (64 * aPlace f.word.toNat) (64 * rowWordsKv * aCount f.word.toNat) (0 == 0) = none ∧ e.spansFault
      ((e.partOfTile 0).getD 0) false ((fretsOf (attPos f.ref) (aCount f.word.toNat)).map (fun x => (e.entryAddr ((e.partOfTile 0).getD 0) (0 / 8)
      (attSlot f.ref) x, 4))) = none) ∧
    -- attAppend
    (∃ (s : State) (w : Nat) (e : State) (f : _), s.issues 0 7 1 w (wFmt w == 1) (attUses w) ∧ e = s.enqueue 0 w true false false (attRef ((s.tile
      0).sreg (bitsOf w 56 52)) ((s.tile 0).sreg (bitsOf w 61 57))) ∧ (e.tile 0).flight.find? (fun g => g.cls == 7 && !g.started) = some f ∧ f.op = 1
      ∧ (e.movesOf 0).length < 8 ∧ e.attReason ((e.partOfTile 0).getD 0) (0 / 8) (attSlot f.ref) (aLayer f.word.toNat) (attPos f.ref) (aCount
      f.word.toNat) (1 == 1) = none ∧ e.spFault 0 (64 * aPlace f.word.toNat) (64 * rowWordsKv * aCount f.word.toNat) (1 == 0) = none ∧ e.spansFault
      ((e.partOfTile 0).getD 0) false ((fretsOf (attPos f.ref) (aCount f.word.toNat)).map (fun x => (e.entryAddr ((e.partOfTile 0).getD 0) (0 / 8)
      (attSlot f.ref) x, 4))) = none) ∧
    -- attInfo
    (∃ (s : State) (t : Nat) (w : Nat) (e : State) (f : _), s.issues t 7 2 w (wFmt w == 0) [(56, 52)] ∧ bitsOf w 56 52 ≠ 31 ∧ e = s.enqueue t w false
      false false (attRef ((s.tile t).sreg (bitsOf w 56 52)) ((s.tile t).sreg (bitsOf w 61 57))) ∧ (e.tile t).flight.find? (fun g => g.cls == 7 &&
      !g.started) = some f ∧ f.op = 2) ∧
    -- steepEntryLanded
    (∃ (s : State) (s1 : State) (t : Nat) (entry : Nat) (m : Move), (s.movesOf t).find? (fun m => m.why == 1 && m.ref == entry) = some m ∧ s.moveHeld
      m = false ∧ (s.dropMove m.id).landTile m = .ok s1) :=
  ⟨
    ⟨movS, 0, (wordOf 3 0 0 [(32, 8)]), movE, queued (wordOf 3 0 0 [(32, 8)]) 0 true, (BitVec.ofNat 512 (movE.spNat 0 (64 * 8) 64)), by decide, rfl,
      by decide, by decide, by decide, by decide, by decide, rfl, rfl, by decide⟩,
    ⟨onTile (wordOf 3 1 0 [(32, 8)]), 0, (wordOf 3 1 0 [(32, 8)]), ((onTile (wordOf 3 1 0 [(32, 8)])).enqueue 0 (wordOf 3 1 0 [(32, 8)]) false false
      false 0), queued (wordOf 3 1 0 [(32, 8)]) 0 false, by decide, rfl, by decide, by decide, by decide⟩,
    ⟨onTile (wordOf 3 2 0 [(32, 8), (64, 9), (96, 2)]), 0, (wordOf 3 2 0 [(32, 8), (64, 9), (96, 2)]), ((onTile (wordOf 3 2 0 [(32, 8), (64, 9), (96,
      2)])).enqueue 0 (wordOf 3 2 0 [(32, 8), (64, 9), (96, 2)]) true false false 0), queued (wordOf 3 2 0 [(32, 8), (64, 9), (96, 2)]) 0 true, by
      decide, by decide, by decide, rfl, by decide, by decide, by decide, by decide, by decide⟩,
    ⟨({ State.reset with moves := [aMove 0] }), 4, aMove 0, by decide, by decide, by decide⟩,
    ⟨attS (wordOf 7 0 1 [(52, 2), (57, 3), (64, 0), (32, 100)]), (wordOf 7 0 1 [(52, 2), (57, 3), (64, 0), (32, 100)]), ((attS (wordOf 7 0 1 [(52, 2),
      (57, 3), (64, 0), (32, 100)])).enqueue 0 (wordOf 7 0 1 [(52, 2), (57, 3), (64, 0), (32, 100)]) true false false (attRef 1 0)), queued (wordOf 7
      0 1 [(52, 2), (57, 3), (64, 0), (32, 100)]) (attRef 1 0) true, by decide, rfl, by decide, by decide, by decide, by decide, by decide, by decide⟩,
    ⟨attS (wordOf 7 1 1 [(52, 2), (57, 3), (64, 0), (32, 100)]), (wordOf 7 1 1 [(52, 2), (57, 3), (64, 0), (32, 100)]), ((attS (wordOf 7 1 1 [(52, 2),
      (57, 3), (64, 0), (32, 100)])).enqueue 0 (wordOf 7 1 1 [(52, 2), (57, 3), (64, 0), (32, 100)]) true false false (attRef 1 0)), queued (wordOf 7
      1 1 [(52, 2), (57, 3), (64, 0), (32, 100)]) (attRef 1 0) true, by decide, rfl, by decide, by decide, by decide, by decide, by decide, by decide⟩,
    ⟨attS (wordOf 7 2 0 [(52, 2)]), 0, (wordOf 7 2 0 [(52, 2)]), ((attS (wordOf 7 2 0 [(52, 2)])).enqueue 0 (wordOf 7 2 0 [(52, 2)]) false false false
      (attRef 1 0)), queued (wordOf 7 2 0 [(52, 2)]) (attRef 1 0) false, by decide, by decide, rfl, by decide, by decide⟩,
    ⟨{ base with moves := [{ aMove 1 with desc := desc [(0, 1), (16, scratchBase 0 + 4096), (24, 1), (28, 16), (32, 64), (36, 64)], dst := scratchBase 0 + 4096 }] },
      effState
      ((({ base with moves := [{ aMove 1 with desc := desc [(0, 1), (16, scratchBase 0 + 4096), (24, 1), (28, 16), (32, 64), (36, 64)], dst := scratchBase 0 + 4096 }] }
      : State).dropMove 4).landTile
      { aMove 1 with desc := desc [(0, 1), (16, scratchBase 0 + 4096), (24, 1), (28, 16), (32, 64), (36, 64)], dst := scratchBase 0 + 4096 }), 0, 0,
      { aMove 1 with desc := desc [(0, 1), (16, scratchBase 0 + 4096), (24, 1), (28, 16), (32, 64), (36, 64)], dst := scratchBase 0 + 4096 }, by
      decide, by decide, (goes_ok _ (by decide))⟩⟩

/-- Hypotheses of ExchangeWords are met: xchCounts, xchDispatch, xchCombine, xchBdispatch, xchBcombine, xchCollReduceScatter, xchCollAllGather,
xchCollAllToAll, xchCollBroadcast, xchCollScalarAllreduce, xchCollBarrier. -/
theorem witness_ExchangeWords :
    -- xchCounts
    (∃ (s : State) (t : Nat) (w : Nat) (e : State) (p : Nat) (f : _) (pre : _) (post : _) (k : _) (desc : BitVec 512), s.issues t 6 0 w (wFmt w == 0)
      (xchUses w) ∧ e = xchQueued s t w true ∧ xchHeads s e p t f pre post k desc ∧ f.op = 0 ∧ e.exLegal p (exD desc) = true ∧ e.spFaults t [(64 *
      (exD desc).routes, 4 * (exD desc).tokens * (exD desc).topk, false), (64 * (exD desc).counts, 8 * k.count * (exD desc).experts, true)] = none ∧
      ((exRoutes e t (exD desc)).any (fun r => r != 0xFFFFFFFF && decide (k.count * (exD desc).experts ≤ r))) = false ∧ xchBegun (countsStarted e p t
      f k desc) t f) ∧
    -- xchDispatch
    (∃ (s : State) (w : Nat) (e : State) (p : Nat) (f : _) (pre : _) (post : _) (k : _) (desc : BitVec 512) (x : _) (r : _), s.issues 0 6 1 w true
      (xchUses w) ∧ e = xchQueued s 0 w true ∧ xchHeads s e p 0 f pre post k desc ∧ f.op = 1 ∧ e.exchOf p 0 k.id (e.xchStep 0) desc = some x ∧
      e.exLegal p (exD desc) = true ∧ wFmt f.word.toNat ≤ 2 ∧ e.dataFaults p ((List.range k.count).flatMap (fun r => x.reads (exD desc) k.count 0 (16
      + 1) r)) = none ∧ (rowsSent e x p 0 f k (16 + 1) desc).2.landRows p (rowsSent e x p 0 f k (16 + 1) desc).1 (x.lands (exD desc) k.count 0 (16 +
      1) k.myRank) (rowsOf (rowsOpen e p 0 f k (16 + 1) desc) x p 0 (16 + 1) k.count k.myRank (exD desc)) = .ok r ∧ xchBegun (((e.modFlight 0 f.id
      (fun f => { f with started := true })).earlyFor p (rowsColl (e.modFlight 0 f.id (fun f => { f with started := true })) 0 f k (16 + 1)
      desc)).foldl (fun s m => s.onRows p m) (r.settleRows p x (exD desc) k.count (rowsSent e x p 0 f k (16 + 1) desc).1)) 0 f) ∧
    -- xchCombine
    (∃ (s : State) (w : Nat) (e : State) (p : Nat) (f : _) (pre : _) (post : _) (k : _) (desc : BitVec 512) (x : _) (r : _), s.issues 0 6 2 w true
      (xchUses w) ∧ e = xchQueued s 0 w true ∧ xchHeads s e p 0 f pre post k desc ∧ f.op = 2 ∧ e.exchOf p 0 k.id (e.xchStep 0) desc = some x ∧
      e.exLegal p (exD desc) = true ∧ wFmt f.word.toNat ≤ 2 ∧ e.dataFaults p ((List.range k.count).flatMap (fun r => x.reads (exD desc) k.count 0 (16
      + 2) r)) = none ∧ (rowsSent e x p 0 f k (16 + 2) desc).2.landRows p (rowsSent e x p 0 f k (16 + 2) desc).1 (x.lands (exD desc) k.count 0 (16 +
      2) k.myRank) (rowsOf (rowsOpen e p 0 f k (16 + 2) desc) x p 0 (16 + 2) k.count k.myRank (exD desc)) = .ok r ∧ xchBegun (((e.modFlight 0 f.id
      (fun f => { f with started := true })).earlyFor p (rowsColl (e.modFlight 0 f.id (fun f => { f with started := true })) 0 f k (16 + 2)
      desc)).foldl (fun s m => s.onRows p m) (r.settleRows p x (exD desc) k.count (rowsSent e x p 0 f k (16 + 2) desc).1)) 0 f) ∧
    -- xchBdispatch
    (∃ (s : State) (w : Nat) (e : State) (p : Nat) (f : _) (pre : _) (post : _) (k : _) (desc : BitVec 512) (x : _) (r : _), s.issues 0 6 3 w true
      (xchUses w) ∧ e = xchQueued s 0 w true ∧ xchHeads s e p 0 f pre post k desc ∧ f.op = 3 ∧ e.exchOf p 0 k.id (e.xchStep 0) desc = some x ∧
      e.exLegal p (exD desc) = true ∧ wFmt f.word.toNat ≤ 2 ∧ e.dataFaults p ((List.range k.count).flatMap (fun r => x.reads (exD desc) k.count 0 (16
      + 3) r)) = none ∧ (rowsSent e x p 0 f k (16 + 3) desc).2.landRows p (rowsSent e x p 0 f k (16 + 3) desc).1 (x.lands (exD desc) k.count 0 (16 +
      3) k.myRank) (rowsOf (rowsOpen e p 0 f k (16 + 3) desc) x p 0 (16 + 3) k.count k.myRank (exD desc)) = .ok r ∧ xchBegun (((e.modFlight 0 f.id
      (fun f => { f with started := true })).earlyFor p (rowsColl (e.modFlight 0 f.id (fun f => { f with started := true })) 0 f k (16 + 3)
      desc)).foldl (fun s m => s.onRows p m) (r.settleRows p x (exD desc) k.count (rowsSent e x p 0 f k (16 + 3) desc).1)) 0 f) ∧
    -- xchBcombine
    (∃ (s : State) (w : Nat) (e : State) (p : Nat) (f : _) (pre : _) (post : _) (k : _) (desc : BitVec 512) (x : _) (r : _), s.issues 0 6 4 w true
      (xchUses w) ∧ e = xchQueued s 0 w true ∧ xchHeads s e p 0 f pre post k desc ∧ f.op = 4 ∧ e.exchOf p 0 k.id (e.xchStep 0) desc = some x ∧
      e.exLegal p (exD desc) = true ∧ wFmt f.word.toNat ≤ 2 ∧ e.dataFaults p ((List.range k.count).flatMap (fun r => x.reads (exD desc) k.count 0 (16
      + 4) r)) = none ∧ (rowsSent e x p 0 f k (16 + 4) desc).2.landRows p (rowsSent e x p 0 f k (16 + 4) desc).1 (x.lands (exD desc) k.count 0 (16 +
      4) k.myRank) (rowsOf (rowsOpen e p 0 f k (16 + 4) desc) x p 0 (16 + 4) k.count k.myRank (exD desc)) = .ok r ∧ xchBegun (((e.modFlight 0 f.id
      (fun f => { f with started := true })).earlyFor p (rowsColl (e.modFlight 0 f.id (fun f => { f with started := true })) 0 f k (16 + 4)
      desc)).foldl (fun s m => s.onRows p m) (r.settleRows p x (exD desc) k.count (rowsSent e x p 0 f k (16 + 4) desc).1)) 0 f) ∧
    -- xchCollReduceScatter
    (∃ (s : State) (t : Nat) (w : Nat) (e : State) (p : Nat) (f : _) (pre : _) (post : _) (k : _) (desc : BitVec 512), collIssues s t 0 w ∧ e =
      xchQueued s t w true ∧ xchHeads s e p t f pre post k desc ∧ f.op = 8 ∧ xCollOp f.word.toNat = 0 ∧ (collD desc).fieldsOk 0 false false = true ∧
      e.mapped (8 * (t / 8) + (collD desc).accTile) = true ∧ e.spFault t (64 * (collD desc).map) (8 * (collD desc).mapEntries) false = none ∧ mapOk
      k.count (collD desc).count (shardMap e t (collD desc)) = true ∧ thinOk ((e.part p).cfg.tensor (collD desc).tensor) (wFmt f.word.toNat) (collD
      desc).count (shardMap e t (collD desc)) = true ∧ e.redMisfit p (collD desc).tensor (collD desc).src (wFmt f.word.toNat) (((e.part p).cfg.tensor
      (collD desc).tensor).thin != 0) = false ∧ e.redUsed p t k.id (collD desc).opNo (e.xchStep t) = false ∧ (e.dataFaults p (e.redReads p (collD
      desc).tensor (collD desc).src (collD desc).count ((collD desc).count / ((collRecord e t f k 0 desc).redInfo (e.part p).cfg k).per) ((collRecord
      e t f k 0 desc).redInfo (e.part p).cfg k).size ((collRecord e t f k 0 desc).redInfo (e.part p).cfg k).thin)) = none ∧ xchBegun (reduceStarted e
      p t f k desc) t f) ∧
    -- xchCollAllGather
    (∃ (s : State) (w : Nat) (e : State) (p : Nat) (f : _) (pre : _) (post : _) (k : _) (desc : BitVec 512) (r : _), collIssues s 0 1 w ∧ e =
      xchQueued s 0 w true ∧ xchHeads s e p 0 f pre post k desc ∧ f.op = 8 ∧ xCollOp f.word.toNat = 1 ∧ (collD desc).fieldsOk 1 (fmtScaled (wFmt
      f.word.toNat)) (fmtScaled (arriveFmt 1 (wFmt f.word.toNat) ((e.part p).cfg.tensor (collD desc).tensor)) || (1 == 1 && fmtScaled (wFmt
      f.word.toNat))) = true ∧ ((1 = 3 → (collD desc).root < k.count)) ∧ e.spFault 0 (64 * (collD desc).map) (8 * (collD desc).mapEntries) false =
      none ∧ ((1 = 1 → mapOk k.count (collD desc).count (shardMap e 0 (collD desc)) = true)) ∧ e.dataFaults p ((gatherOut ((collRecord e 0 f k 1
      desc).gatherInfo (e.part p).cfg k) (collRecord e 0 f k 1 desc) k 1 (collD desc)).flatMap (fun x => ((collRecord e 0 f k 1 desc).gatherInfo
      (e.part p).cfg k).srcRanges x.2.1 x.2.2.1)) = none ∧ gatherPlaced e p 0 f k 1 desc = .ok r ∧ xchBegun (gatherStarted e r p 0 f k 1 desc) 0 f) ∧
    -- xchCollAllToAll
    (∃ (s : State) (w : Nat) (e : State) (p : Nat) (f : _) (pre : _) (post : _) (k : _) (desc : BitVec 512) (r : _), collIssues s 0 2 w ∧ e =
      xchQueued s 0 w true ∧ xchHeads s e p 0 f pre post k desc ∧ f.op = 8 ∧ xCollOp f.word.toNat = 2 ∧ (collD desc).fieldsOk 2 (fmtScaled (wFmt
      f.word.toNat)) (fmtScaled (arriveFmt 2 (wFmt f.word.toNat) ((e.part p).cfg.tensor (collD desc).tensor)) || (2 == 1 && fmtScaled (wFmt
      f.word.toNat))) = true ∧ ((2 = 3 → (collD desc).root < k.count)) ∧ e.spFault 0 (64 * (collD desc).map) (8 * (collD desc).mapEntries) false =
      none ∧ ((2 = 1 → mapOk k.count (collD desc).count (shardMap e 0 (collD desc)) = true)) ∧ e.dataFaults p ((gatherOut ((collRecord e 0 f k 2
      desc).gatherInfo (e.part p).cfg k) (collRecord e 0 f k 2 desc) k 2 (collD desc)).flatMap (fun x => ((collRecord e 0 f k 2 desc).gatherInfo
      (e.part p).cfg k).srcRanges x.2.1 x.2.2.1)) = none ∧ gatherPlaced e p 0 f k 2 desc = .ok r ∧ xchBegun (gatherStarted e r p 0 f k 2 desc) 0 f) ∧
    -- xchCollBroadcast
    (∃ (s : State) (w : Nat) (e : State) (p : Nat) (f : _) (pre : _) (post : _) (k : _) (desc : BitVec 512) (r : _), collIssues s 0 3 w ∧ e =
      xchQueued s 0 w true ∧ xchHeads s e p 0 f pre post k desc ∧ f.op = 8 ∧ xCollOp f.word.toNat = 3 ∧ (collD desc).fieldsOk 3 (fmtScaled (wFmt
      f.word.toNat)) (fmtScaled (arriveFmt 3 (wFmt f.word.toNat) ((e.part p).cfg.tensor (collD desc).tensor)) || (3 == 1 && fmtScaled (wFmt
      f.word.toNat))) = true ∧ ((3 = 3 → (collD desc).root < k.count)) ∧ e.spFault 0 (64 * (collD desc).map) (8 * (collD desc).mapEntries) false =
      none ∧ ((3 = 1 → mapOk k.count (collD desc).count (shardMap e 0 (collD desc)) = true)) ∧ e.dataFaults p ((gatherOut ((collRecord e 0 f k 3
      desc).gatherInfo (e.part p).cfg k) (collRecord e 0 f k 3 desc) k 3 (collD desc)).flatMap (fun x => ((collRecord e 0 f k 3 desc).gatherInfo
      (e.part p).cfg k).srcRanges x.2.1 x.2.2.1)) = none ∧ gatherPlaced e p 0 f k 3 desc = .ok r ∧ xchBegun (gatherStarted e r p 0 f k 3 desc) 0 f) ∧
    -- xchCollScalarAllreduce
    (∃ (s : State) (t : Nat) (w : Nat) (e : State) (p : Nat) (f : _) (pre : _) (post : _) (k : _) (desc : BitVec 512), collIssues s t 4 w ∧ e =
      xchQueued s t w true ∧ xchHeads s e p t f pre post k desc ∧ f.op = 8 ∧ xCollOp f.word.toNat = 4 ∧ (collD desc).fieldsOk 4 false false = true ∧
      (collD desc).norm = false ∧ e.dataFault p (collD desc).src (if wFmt f.word.toNat = 8 then 8 else 4) = none ∧ xchBegun (scalarStarted e p t f k 4
      desc) t f) ∧
    -- xchCollBarrier
    (∃ (s : State) (t : Nat) (w : Nat) (e : State) (p : Nat) (f : _) (pre : _) (post : _) (k : _) (desc : BitVec 512), collIssues s t 5 w ∧ e =
      xchQueued s t w false ∧ xchHeads s e p t f pre post k desc ∧ f.op = 8 ∧ xCollOp f.word.toNat = 5 ∧ (collD desc).fieldsOk 5 false false = true ∧
      xchBegun (scalarStarted e p t f k 5 desc) t f) :=
  ⟨
    ⟨xchS (wordOf 6 0 0 [(20, 5), (32, 8)]) exDesc, 0, (wordOf 6 0 0 [(20, 5), (32, 8)]), (xchQueued (xchS (wordOf 6 0 0 [(20, 5), (32, 8)]) exDesc) 0
      (wordOf 6 0 0 [(20, 5), (32, 8)]) true), 0, xchF (wordOf 6 0 0 [(20, 5), (32, 8)]) true, [], [1], pair 0, (BitVec.ofNat 512 ((xchQueued (xchS
      (wordOf 6 0 0 [(20, 5), (32, 8)]) exDesc) 0 (wordOf 6 0 0 [(20, 5), (32, 8)]) true).spNat 0 (64 * 8) 64)), by decide, rfl, ⟨by decide, by
      decide, by decide, by decide, by decide, by decide, by decide, by decide, rfl, by decide⟩, by decide, by decide, by decide, by decide, by
      decide⟩,
    ⟨xchS (wordOf 6 1 0 [(20, 5), (32, 8)]) exDesc [exchange 0], (wordOf 6 1 0 [(20, 5), (32, 8)]), (xchQueued (xchS (wordOf 6 1 0 [(20, 5), (32, 8)])
      exDesc [exchange 0]) 0 (wordOf 6 1 0 [(20, 5), (32, 8)]) true), 0, xchF (wordOf 6 1 0 [(20, 5), (32, 8)]) true, [], [1], pair 0, (BitVec.ofNat
      512 ((xchQueued (xchS (wordOf 6 1 0 [(20, 5), (32, 8)]) exDesc [exchange 0]) 0 (wordOf 6 1 0 [(20, 5), (32, 8)]) true).spNat 0 (64 * 8) 64)),
      exchange 0, effState ((rowsSent (xchQueued (xchS (wordOf 6 1 0 [(20, 5), (32, 8)]) exDesc [exchange 0]) 0 (wordOf 6 1 0 [(20, 5), (32, 8)])
      true) (exchange 0) 0 0 (xchF (wordOf 6 1 0 [(20, 5), (32, 8)]) true) (pair 0) (16 + 1) (BitVec.ofNat 512 ((xchQueued (xchS (wordOf 6 1 0 [(20,
      5), (32, 8)]) exDesc [exchange 0]) 0 (wordOf 6 1 0 [(20, 5), (32, 8)]) true).spNat 0 (64 * 8) 64))).2.landRows 0 (rowsSent (xchQueued (xchS
      (wordOf 6 1 0 [(20, 5), (32, 8)]) exDesc [exchange 0]) 0 (wordOf 6 1 0 [(20, 5), (32, 8)]) true) (exchange 0) 0 0 (xchF (wordOf 6 1 0 [(20, 5),
      (32, 8)]) true) (pair 0) (16 + 1) (BitVec.ofNat 512 ((xchQueued (xchS (wordOf 6 1 0 [(20, 5), (32, 8)]) exDesc [exchange 0]) 0 (wordOf 6 1 0
      [(20, 5), (32, 8)]) true).spNat 0 (64 * 8) 64))).1 ((exchange 0).lands (exD (BitVec.ofNat 512 ((xchQueued (xchS (wordOf 6 1 0 [(20, 5), (32,
      8)]) exDesc [exchange 0]) 0 (wordOf 6 1 0 [(20, 5), (32, 8)]) true).spNat 0 (64 * 8) 64))) 2 0 (16 + 1) 0) (rowsOf (rowsOpen (xchQueued (xchS
      (wordOf 6 1 0 [(20, 5), (32, 8)]) exDesc [exchange 0]) 0 (wordOf 6 1 0 [(20, 5), (32, 8)]) true) 0 0 (xchF (wordOf 6 1 0 [(20, 5), (32, 8)])
      true) (pair 0) (16 + 1) (BitVec.ofNat 512 ((xchQueued (xchS (wordOf 6 1 0 [(20, 5), (32, 8)]) exDesc [exchange 0]) 0 (wordOf 6 1 0 [(20, 5),
      (32, 8)]) true).spNat 0 (64 * 8) 64))) (exchange 0) 0 0 (16 + 1) 2 0 (exD (BitVec.ofNat 512 ((xchQueued (xchS (wordOf 6 1 0 [(20, 5), (32, 8)])
      exDesc [exchange 0]) 0 (wordOf 6 1 0 [(20, 5), (32, 8)]) true).spNat 0 (64 * 8) 64))))), by decide, rfl, ⟨by decide, by decide, by decide, by
      decide, by decide, by decide, by decide, by decide, rfl, by decide⟩, by decide, by decide, by decide, by decide, by decide, rfl, by decide⟩,
    ⟨xchS (wordOf 6 2 0 [(20, 5), (32, 8)]) exDesc [exchange 0], (wordOf 6 2 0 [(20, 5), (32, 8)]), (xchQueued (xchS (wordOf 6 2 0 [(20, 5), (32, 8)])
      exDesc [exchange 0]) 0 (wordOf 6 2 0 [(20, 5), (32, 8)]) true), 0, xchF (wordOf 6 2 0 [(20, 5), (32, 8)]) true, [], [1], pair 0, (BitVec.ofNat
      512 ((xchQueued (xchS (wordOf 6 2 0 [(20, 5), (32, 8)]) exDesc [exchange 0]) 0 (wordOf 6 2 0 [(20, 5), (32, 8)]) true).spNat 0 (64 * 8) 64)),
      exchange 0, effState ((rowsSent (xchQueued (xchS (wordOf 6 2 0 [(20, 5), (32, 8)]) exDesc [exchange 0]) 0 (wordOf 6 2 0 [(20, 5), (32, 8)])
      true) (exchange 0) 0 0 (xchF (wordOf 6 2 0 [(20, 5), (32, 8)]) true) (pair 0) (16 + 2) (BitVec.ofNat 512 ((xchQueued (xchS (wordOf 6 2 0 [(20,
      5), (32, 8)]) exDesc [exchange 0]) 0 (wordOf 6 2 0 [(20, 5), (32, 8)]) true).spNat 0 (64 * 8) 64))).2.landRows 0 (rowsSent (xchQueued (xchS
      (wordOf 6 2 0 [(20, 5), (32, 8)]) exDesc [exchange 0]) 0 (wordOf 6 2 0 [(20, 5), (32, 8)]) true) (exchange 0) 0 0 (xchF (wordOf 6 2 0 [(20, 5),
      (32, 8)]) true) (pair 0) (16 + 2) (BitVec.ofNat 512 ((xchQueued (xchS (wordOf 6 2 0 [(20, 5), (32, 8)]) exDesc [exchange 0]) 0 (wordOf 6 2 0
      [(20, 5), (32, 8)]) true).spNat 0 (64 * 8) 64))).1 ((exchange 0).lands (exD (BitVec.ofNat 512 ((xchQueued (xchS (wordOf 6 2 0 [(20, 5), (32,
      8)]) exDesc [exchange 0]) 0 (wordOf 6 2 0 [(20, 5), (32, 8)]) true).spNat 0 (64 * 8) 64))) 2 0 (16 + 2) 0) (rowsOf (rowsOpen (xchQueued (xchS
      (wordOf 6 2 0 [(20, 5), (32, 8)]) exDesc [exchange 0]) 0 (wordOf 6 2 0 [(20, 5), (32, 8)]) true) 0 0 (xchF (wordOf 6 2 0 [(20, 5), (32, 8)])
      true) (pair 0) (16 + 2) (BitVec.ofNat 512 ((xchQueued (xchS (wordOf 6 2 0 [(20, 5), (32, 8)]) exDesc [exchange 0]) 0 (wordOf 6 2 0 [(20, 5),
      (32, 8)]) true).spNat 0 (64 * 8) 64))) (exchange 0) 0 0 (16 + 2) 2 0 (exD (BitVec.ofNat 512 ((xchQueued (xchS (wordOf 6 2 0 [(20, 5), (32, 8)])
      exDesc [exchange 0]) 0 (wordOf 6 2 0 [(20, 5), (32, 8)]) true).spNat 0 (64 * 8) 64))))), by decide, rfl, ⟨by decide, by decide, by decide, by
      decide, by decide, by decide, by decide, by decide, rfl, by decide⟩, by decide, by decide, by decide, by decide, by decide, rfl, by decide⟩,
    ⟨xchS (wordOf 6 3 0 [(20, 5), (32, 8)]) exDesc [exchange 0], (wordOf 6 3 0 [(20, 5), (32, 8)]), (xchQueued (xchS (wordOf 6 3 0 [(20, 5), (32, 8)])
      exDesc [exchange 0]) 0 (wordOf 6 3 0 [(20, 5), (32, 8)]) true), 0, xchF (wordOf 6 3 0 [(20, 5), (32, 8)]) true, [], [1], pair 0, (BitVec.ofNat
      512 ((xchQueued (xchS (wordOf 6 3 0 [(20, 5), (32, 8)]) exDesc [exchange 0]) 0 (wordOf 6 3 0 [(20, 5), (32, 8)]) true).spNat 0 (64 * 8) 64)),
      exchange 0, effState ((rowsSent (xchQueued (xchS (wordOf 6 3 0 [(20, 5), (32, 8)]) exDesc [exchange 0]) 0 (wordOf 6 3 0 [(20, 5), (32, 8)])
      true) (exchange 0) 0 0 (xchF (wordOf 6 3 0 [(20, 5), (32, 8)]) true) (pair 0) (16 + 3) (BitVec.ofNat 512 ((xchQueued (xchS (wordOf 6 3 0 [(20,
      5), (32, 8)]) exDesc [exchange 0]) 0 (wordOf 6 3 0 [(20, 5), (32, 8)]) true).spNat 0 (64 * 8) 64))).2.landRows 0 (rowsSent (xchQueued (xchS
      (wordOf 6 3 0 [(20, 5), (32, 8)]) exDesc [exchange 0]) 0 (wordOf 6 3 0 [(20, 5), (32, 8)]) true) (exchange 0) 0 0 (xchF (wordOf 6 3 0 [(20, 5),
      (32, 8)]) true) (pair 0) (16 + 3) (BitVec.ofNat 512 ((xchQueued (xchS (wordOf 6 3 0 [(20, 5), (32, 8)]) exDesc [exchange 0]) 0 (wordOf 6 3 0
      [(20, 5), (32, 8)]) true).spNat 0 (64 * 8) 64))).1 ((exchange 0).lands (exD (BitVec.ofNat 512 ((xchQueued (xchS (wordOf 6 3 0 [(20, 5), (32,
      8)]) exDesc [exchange 0]) 0 (wordOf 6 3 0 [(20, 5), (32, 8)]) true).spNat 0 (64 * 8) 64))) 2 0 (16 + 3) 0) (rowsOf (rowsOpen (xchQueued (xchS
      (wordOf 6 3 0 [(20, 5), (32, 8)]) exDesc [exchange 0]) 0 (wordOf 6 3 0 [(20, 5), (32, 8)]) true) 0 0 (xchF (wordOf 6 3 0 [(20, 5), (32, 8)])
      true) (pair 0) (16 + 3) (BitVec.ofNat 512 ((xchQueued (xchS (wordOf 6 3 0 [(20, 5), (32, 8)]) exDesc [exchange 0]) 0 (wordOf 6 3 0 [(20, 5),
      (32, 8)]) true).spNat 0 (64 * 8) 64))) (exchange 0) 0 0 (16 + 3) 2 0 (exD (BitVec.ofNat 512 ((xchQueued (xchS (wordOf 6 3 0 [(20, 5), (32, 8)])
      exDesc [exchange 0]) 0 (wordOf 6 3 0 [(20, 5), (32, 8)]) true).spNat 0 (64 * 8) 64))))), by decide, rfl, ⟨by decide, by decide, by decide, by
      decide, by decide, by decide, by decide, by decide, rfl, by decide⟩, by decide, by decide, by decide, by decide, by decide, rfl, by decide⟩,
    ⟨xchS (wordOf 6 4 0 [(20, 5), (32, 8)]) exDesc [exchange 0], (wordOf 6 4 0 [(20, 5), (32, 8)]), (xchQueued (xchS (wordOf 6 4 0 [(20, 5), (32, 8)])
      exDesc [exchange 0]) 0 (wordOf 6 4 0 [(20, 5), (32, 8)]) true), 0, xchF (wordOf 6 4 0 [(20, 5), (32, 8)]) true, [], [1], pair 0, (BitVec.ofNat
      512 ((xchQueued (xchS (wordOf 6 4 0 [(20, 5), (32, 8)]) exDesc [exchange 0]) 0 (wordOf 6 4 0 [(20, 5), (32, 8)]) true).spNat 0 (64 * 8) 64)),
      exchange 0, effState ((rowsSent (xchQueued (xchS (wordOf 6 4 0 [(20, 5), (32, 8)]) exDesc [exchange 0]) 0 (wordOf 6 4 0 [(20, 5), (32, 8)])
      true) (exchange 0) 0 0 (xchF (wordOf 6 4 0 [(20, 5), (32, 8)]) true) (pair 0) (16 + 4) (BitVec.ofNat 512 ((xchQueued (xchS (wordOf 6 4 0 [(20,
      5), (32, 8)]) exDesc [exchange 0]) 0 (wordOf 6 4 0 [(20, 5), (32, 8)]) true).spNat 0 (64 * 8) 64))).2.landRows 0 (rowsSent (xchQueued (xchS
      (wordOf 6 4 0 [(20, 5), (32, 8)]) exDesc [exchange 0]) 0 (wordOf 6 4 0 [(20, 5), (32, 8)]) true) (exchange 0) 0 0 (xchF (wordOf 6 4 0 [(20, 5),
      (32, 8)]) true) (pair 0) (16 + 4) (BitVec.ofNat 512 ((xchQueued (xchS (wordOf 6 4 0 [(20, 5), (32, 8)]) exDesc [exchange 0]) 0 (wordOf 6 4 0
      [(20, 5), (32, 8)]) true).spNat 0 (64 * 8) 64))).1 ((exchange 0).lands (exD (BitVec.ofNat 512 ((xchQueued (xchS (wordOf 6 4 0 [(20, 5), (32,
      8)]) exDesc [exchange 0]) 0 (wordOf 6 4 0 [(20, 5), (32, 8)]) true).spNat 0 (64 * 8) 64))) 2 0 (16 + 4) 0) (rowsOf (rowsOpen (xchQueued (xchS
      (wordOf 6 4 0 [(20, 5), (32, 8)]) exDesc [exchange 0]) 0 (wordOf 6 4 0 [(20, 5), (32, 8)]) true) 0 0 (xchF (wordOf 6 4 0 [(20, 5), (32, 8)])
      true) (pair 0) (16 + 4) (BitVec.ofNat 512 ((xchQueued (xchS (wordOf 6 4 0 [(20, 5), (32, 8)]) exDesc [exchange 0]) 0 (wordOf 6 4 0 [(20, 5),
      (32, 8)]) true).spNat 0 (64 * 8) 64))) (exchange 0) 0 0 (16 + 4) 2 0 (exD (BitVec.ofNat 512 ((xchQueued (xchS (wordOf 6 4 0 [(20, 5), (32, 8)])
      exDesc [exchange 0]) 0 (wordOf 6 4 0 [(20, 5), (32, 8)]) true).spNat 0 (64 * 8) 64))))), by decide, rfl, ⟨by decide, by decide, by decide, by
      decide, by decide, by decide, by decide, by decide, rfl, by decide⟩, by decide, by decide, by decide, by decide, by decide, rfl, by decide⟩,
    ⟨xchS (wordOf 6 8 1 [(20, 5), (32, 8), (26, 0)]) (recordOf [(1, 2), (4, 3), (7, 1), (24, 64), (28, 20), (32, 1)]), 0, (wordOf 6 8 1 [(20, 5), (32,
      8), (26, 0)]), (xchQueued (xchS (wordOf 6 8 1 [(20, 5), (32, 8), (26, 0)]) (recordOf [(1, 2), (4, 3), (7, 1), (24, 64), (28, 20), (32, 1)])) 0
      (wordOf 6 8 1 [(20, 5), (32, 8), (26, 0)]) true), 0, xchF (wordOf 6 8 1 [(20, 5), (32, 8), (26, 0)]) true, [], [1], pair 0, (BitVec.ofNat 512
      ((xchQueued (xchS (wordOf 6 8 1 [(20, 5), (32, 8), (26, 0)]) (recordOf [(1, 2), (4, 3), (7, 1), (24, 64), (28, 20), (32, 1)])) 0 (wordOf 6 8 1
      [(20, 5), (32, 8), (26, 0)]) true).spNat 0 (64 * 8) 64)), by decide, rfl, ⟨by decide, by decide, by decide, by decide, by decide, by decide, by
      decide, by decide, rfl, by decide⟩, by decide, by decide, by decide, by decide, by decide, by decide, by decide, by decide, by decide, by
      decide, by decide⟩,
    ⟨xchS (wordOf 6 8 1 [(20, 5), (32, 8), (26, 1)]) (recordOf [(4, 3), (16, scratchBase 0 + 2 ^ 22), (24, 64), (28, 20), (32, 1)]), (wordOf 6 8 1
      [(20, 5), (32, 8), (26, 1)]), (xchQueued (xchS (wordOf 6 8 1 [(20, 5), (32, 8), (26, 1)]) (recordOf [(4, 3), (16, scratchBase 0 + 2 ^ 22), (24,
      64), (28, 20), (32, 1)])) 0 (wordOf 6 8 1 [(20, 5), (32, 8), (26, 1)]) true), 0, xchF (wordOf 6 8 1 [(20, 5), (32, 8), (26, 1)]) true, [], [1],
      pair 0, (BitVec.ofNat 512 ((xchQueued (xchS (wordOf 6 8 1 [(20, 5), (32, 8), (26, 1)]) (recordOf [(4, 3), (16, scratchBase 0 + 2 ^ 22), (24,
      64), (28, 20), (32, 1)])) 0 (wordOf 6 8 1 [(20, 5), (32, 8), (26, 1)]) true).spNat 0 (64 * 8) 64)), effState (gatherPlaced (xchQueued (xchS
      (wordOf 6 8 1 [(20, 5), (32, 8), (26, 1)]) (recordOf [(4, 3), (16, scratchBase 0 + 2 ^ 22), (24, 64), (28, 20), (32, 1)])) 0 (wordOf 6 8 1 [(20,
      5), (32, 8), (26, 1)]) true) 0 0 (xchF (wordOf 6 8 1 [(20, 5), (32, 8), (26, 1)]) true) (pair 0) 1 (BitVec.ofNat 512 ((xchQueued (xchS (wordOf 6
      8 1 [(20, 5), (32, 8), (26, 1)]) (recordOf [(4, 3), (16, scratchBase 0 + 2 ^ 22), (24, 64), (28, 20), (32, 1)])) 0 (wordOf 6 8 1 [(20, 5), (32,
      8), (26, 1)]) true).spNat 0 (64 * 8) 64))), by decide, rfl, ⟨by decide, by decide, by decide, by decide, by decide, by decide, by decide, by
      decide, rfl, by decide⟩, by decide, by decide, by decide, by decide, by decide, by decide, by decide, (goes_ok _ (by decide)), by decide⟩,
    ⟨xchS (wordOf 6 8 1 [(20, 5), (32, 8), (26, 2)]) (recordOf [(4, 3), (16, scratchBase 0 + 2 ^ 22), (24, 16)]), (wordOf 6 8 1 [(20, 5), (32, 8),
      (26, 2)]), (xchQueued (xchS (wordOf 6 8 1 [(20, 5), (32, 8), (26, 2)]) (recordOf [(4, 3), (16, scratchBase 0 + 2 ^ 22), (24, 16)])) 0 (wordOf 6
      8 1 [(20, 5), (32, 8), (26, 2)]) true), 0, xchF (wordOf 6 8 1 [(20, 5), (32, 8), (26, 2)]) true, [], [1], pair 0, (BitVec.ofNat 512 ((xchQueued
      (xchS (wordOf 6 8 1 [(20, 5), (32, 8), (26, 2)]) (recordOf [(4, 3), (16, scratchBase 0 + 2 ^ 22), (24, 16)])) 0 (wordOf 6 8 1 [(20, 5), (32, 8),
      (26, 2)]) true).spNat 0 (64 * 8) 64)), effState (gatherPlaced (xchQueued (xchS (wordOf 6 8 1 [(20, 5), (32, 8), (26, 2)]) (recordOf [(4, 3),
      (16, scratchBase 0 + 2 ^ 22), (24, 16)])) 0 (wordOf 6 8 1 [(20, 5), (32, 8), (26, 2)]) true) 0 0 (xchF (wordOf 6 8 1 [(20, 5), (32, 8), (26,
      2)]) true) (pair 0) 2 (BitVec.ofNat 512 ((xchQueued (xchS (wordOf 6 8 1 [(20, 5), (32, 8), (26, 2)]) (recordOf [(4, 3), (16, scratchBase 0 + 2 ^
      22), (24, 16)])) 0 (wordOf 6 8 1 [(20, 5), (32, 8), (26, 2)]) true).spNat 0 (64 * 8) 64))), by decide, rfl, ⟨by decide, by decide, by decide, by
      decide, by decide, by decide, by decide, by decide, rfl, by decide⟩, by decide, by decide, by decide, by decide, by decide, by decide, by
      decide, (goes_ok _ (by decide)), by decide⟩,
    ⟨xchS (wordOf 6 8 1 [(20, 5), (32, 8), (26, 3)]) (recordOf [(4, 3), (16, scratchBase 0 + 2 ^ 22), (24, 16)]), (wordOf 6 8 1 [(20, 5), (32, 8),
      (26, 3)]), (xchQueued (xchS (wordOf 6 8 1 [(20, 5), (32, 8), (26, 3)]) (recordOf [(4, 3), (16, scratchBase 0 + 2 ^ 22), (24, 16)])) 0 (wordOf 6
      8 1 [(20, 5), (32, 8), (26, 3)]) true), 0, xchF (wordOf 6 8 1 [(20, 5), (32, 8), (26, 3)]) true, [], [1], pair 0, (BitVec.ofNat 512 ((xchQueued
      (xchS (wordOf 6 8 1 [(20, 5), (32, 8), (26, 3)]) (recordOf [(4, 3), (16, scratchBase 0 + 2 ^ 22), (24, 16)])) 0 (wordOf 6 8 1 [(20, 5), (32, 8),
      (26, 3)]) true).spNat 0 (64 * 8) 64)), effState (gatherPlaced (xchQueued (xchS (wordOf 6 8 1 [(20, 5), (32, 8), (26, 3)]) (recordOf [(4, 3),
      (16, scratchBase 0 + 2 ^ 22), (24, 16)])) 0 (wordOf 6 8 1 [(20, 5), (32, 8), (26, 3)]) true) 0 0 (xchF (wordOf 6 8 1 [(20, 5), (32, 8), (26,
      3)]) true) (pair 0) 3 (BitVec.ofNat 512 ((xchQueued (xchS (wordOf 6 8 1 [(20, 5), (32, 8), (26, 3)]) (recordOf [(4, 3), (16, scratchBase 0 + 2 ^
      22), (24, 16)])) 0 (wordOf 6 8 1 [(20, 5), (32, 8), (26, 3)]) true).spNat 0 (64 * 8) 64))), by decide, rfl, ⟨by decide, by decide, by decide, by
      decide, by decide, by decide, by decide, by decide, rfl, by decide⟩, by decide, by decide, by decide, by decide, by decide, by decide, by
      decide, (goes_ok _ (by decide)), by decide⟩,
    ⟨xchS (wordOf 6 8 0 [(20, 5), (32, 8), (26, 4)]) (recordOf [(16, 4096)]), 0, (wordOf 6 8 0 [(20, 5), (32, 8), (26, 4)]), (xchQueued (xchS (wordOf
      6 8 0 [(20, 5), (32, 8), (26, 4)]) (recordOf [(16, 4096)])) 0 (wordOf 6 8 0 [(20, 5), (32, 8), (26, 4)]) true), 0, xchF (wordOf 6 8 0 [(20, 5),
      (32, 8), (26, 4)]) true, [], [1], pair 0, (BitVec.ofNat 512 ((xchQueued (xchS (wordOf 6 8 0 [(20, 5), (32, 8), (26, 4)]) (recordOf [(16,
      4096)])) 0 (wordOf 6 8 0 [(20, 5), (32, 8), (26, 4)]) true).spNat 0 (64 * 8) 64)), by decide, rfl, ⟨by decide, by decide, by decide, by decide,
      by decide, by decide, by decide, by decide, rfl, by decide⟩, by decide, by decide, by decide, by decide, by decide, by decide⟩,
    ⟨xchS (wordOf 6 8 0 [(20, 5), (32, 8), (26, 5)]) 0, 0, (wordOf 6 8 0 [(20, 5), (32, 8), (26, 5)]), (xchQueued (xchS (wordOf 6 8 0 [(20, 5), (32,
      8), (26, 5)]) 0) 0 (wordOf 6 8 0 [(20, 5), (32, 8), (26, 5)]) false), 0, xchF (wordOf 6 8 0 [(20, 5), (32, 8), (26, 5)]) false, [], [1], pair 0,
      (BitVec.ofNat 512 ((xchQueued (xchS (wordOf 6 8 0 [(20, 5), (32, 8), (26, 5)]) 0) 0 (wordOf 6 8 0 [(20, 5), (32, 8), (26, 5)]) false).spNat 0
      (64 * 8) 64)), by decide, rfl, ⟨by decide, by decide, by decide, by decide, by decide, by decide, by decide, by decide, rfl, by decide⟩, by
      decide, by decide, by decide, by decide⟩⟩

/-- Hypotheses of ReductionMessages are met: grant, segAck, reductionSegment. -/
theorem witness_ReductionMessages_1 :
    -- grant
    (∃ (s : State) (s1 : State) (p : Nat) (m : Msg) (c : Coll) (k : Comm), m.op = 0 ∧ joins s s1 p m Vc.scalar Ty.grant c k ∧ c.orphan = false) ∧
    -- segAck
    (∃ (s : State) (s1 : State) (p : Nat) (m : Msg) (c : Coll) (k : Comm), m.op = 0 ∧ m.nak = false ∧ joins s s1 p m Vc.scalar Ty.segAck c k ∧
      c.orphan = false) ∧
    -- reductionSegment
    (∃ (s : State) (s1 : State) (p : Nat) (m : Msg) (c : Coll) (k : Comm) (bs : List Byte), m.op = 0 ∧ joins s s1 p m Vc.reduction Ty.data c k ∧
      c.orphan = false ∧ c.expect.contains (msgKey m k.myRank, m.rank) = true ∧ c.granted.contains (msgKey m k.myRank, m.rank) = true ∧ checkedData m
      = some bs) :=
  ⟨
    ⟨withColl (coll 0), ((withColl (coll 0)).captureMsg 0 (msg Vc.scalar Ty.grant 0)), 0, msg Vc.scalar Ty.grant 0, coll 0, pair 0, by decide, ⟨by
      decide, rfl, by decide, by decide⟩, by decide⟩,
    ⟨withColl (coll 0), ((withColl (coll 0)).captureMsg 0 (msg Vc.scalar Ty.segAck 0)), 0, msg Vc.scalar Ty.segAck 0, coll 0, pair 0, by decide, by
      decide, ⟨by decide, rfl, by decide, by decide⟩, by decide⟩,
    ⟨withColl ({ coll 0 with expect := [(0, 1)], granted := [(0, 1)] }), ((withColl
      ({ coll 0 with expect := [(0, 1)], granted := [(0, 1)] })).captureMsg 0 (msg Vc.reduction Ty.data 0 (withCrc [0, 0, 0, 0]))), 0, msg
      Vc.reduction Ty.data 0 (withCrc [0, 0, 0, 0]), { coll 0 with expect := [(0, 1)], granted := [(0, 1)] }, pair 0, [0, 0, 0, 0], by decide, ⟨by
      decide, rfl, by decide, by decide⟩, by decide, by decide, by decide, by decide⟩⟩

/-- Hypotheses of ReductionMessages are met: allGatherMessage. -/
theorem witness_ReductionMessages_2 :
  ∃ (s : State) (s1 : State) (p : Nat) (m : Msg) (c : Coll) (k : Comm) (bs : List Byte) (r : State), m.op = 1 ∧ joins s s1 p m Vc.gather Ty.data c k ∧
    gatherLands s1 r p m c k bs :=
  ⟨withColl (coll 1 (recordOf [(4, 3), (16, scratchBase 0 + 2 ^ 22), (24, 16), (34, 0)])), ((withColl (coll 1 (recordOf [(4, 3), (16, scratchBase 0 +
    2 ^ 22), (24, 16), (34, 0)]))).captureMsg 0 (msg Vc.gather Ty.data 1 (withCrc (leBytes 64 0)))), 0, msg Vc.gather Ty.data 1 (withCrc (leBytes 64
    0)), coll 1 (recordOf [(4, 3), (16, scratchBase 0 + 2 ^ 22), (24, 16), (34, 0)]), pair 0, leBytes 64 0, effState ((gatherForwarded ((withColl
    (coll 1 (recordOf [(4, 3), (16, scratchBase 0 + 2 ^ 22), (24, 16), (34, 0)]))).captureMsg 0 (msg Vc.gather Ty.data 1 (withCrc (leBytes 64 0)))) 0
    (msg Vc.gather Ty.data 1 (withCrc (leBytes 64 0))) (coll 1 (recordOf [(4, 3), (16, scratchBase 0 + 2 ^ 22), (24, 16), (34, 0)])) (pair 0) (leBytes
    64 0)).placeGather 0 ((coll 1 (recordOf [(4, 3), (16, scratchBase 0 + 2 ^ 22), (24, 16), (34, 0)])).gatherInfo (((withColl (coll 1 (recordOf [(4,
    3), (16, scratchBase 0 + 2 ^ 22), (24, 16), (34, 0)]))).captureMsg 0 (msg Vc.gather Ty.data 1 (withCrc (leBytes 64 0)))).part 0).cfg (pair 0))
    (coll 1 (recordOf [(4, 3), (16, scratchBase 0 + 2 ^ 22), (24, 16), (34, 0)])) (msgKey (msg Vc.gather Ty.data 1 (withCrc (leBytes 64 0))) 1)
    (leBytes 64 0)), by decide, ⟨by decide, rfl, by decide, by decide⟩, ⟨by decide, by decide, rfl⟩⟩

/-- Hypotheses of ReductionMessages are met: allToAllMessage. -/
theorem witness_ReductionMessages_3 :
  ∃ (s : State) (s1 : State) (p : Nat) (m : Msg) (c : Coll) (k : Comm) (bs : List Byte) (r : State), m.op = 2 ∧ joins s s1 p m Vc.exchange Ty.data c k
    ∧ gatherLands s1 r p m c k bs :=
  ⟨withColl (coll 2 (recordOf [(4, 3), (16, scratchBase 0 + 2 ^ 22), (24, 16), (34, 0)])), ((withColl (coll 2 (recordOf [(4, 3), (16, scratchBase 0 +
    2 ^ 22), (24, 16), (34, 0)]))).captureMsg 0 (msg Vc.exchange Ty.data 2 (withCrc (leBytes 64 0)))), 0, msg Vc.exchange Ty.data 2 (withCrc (leBytes
    64 0)), coll 2 (recordOf [(4, 3), (16, scratchBase 0 + 2 ^ 22), (24, 16), (34, 0)]), pair 0, leBytes 64 0, effState ((gatherForwarded ((withColl
    (coll 2 (recordOf [(4, 3), (16, scratchBase 0 + 2 ^ 22), (24, 16), (34, 0)]))).captureMsg 0 (msg Vc.exchange Ty.data 2 (withCrc (leBytes 64 0))))
    0 (msg Vc.exchange Ty.data 2 (withCrc (leBytes 64 0))) (coll 2 (recordOf [(4, 3), (16, scratchBase 0 + 2 ^ 22), (24, 16), (34, 0)])) (pair 0)
    (leBytes 64 0)).placeGather 0 ((coll 2 (recordOf [(4, 3), (16, scratchBase 0 + 2 ^ 22), (24, 16), (34, 0)])).gatherInfo (((withColl (coll 2
    (recordOf [(4, 3), (16, scratchBase 0 + 2 ^ 22), (24, 16), (34, 0)]))).captureMsg 0 (msg Vc.exchange Ty.data 2 (withCrc (leBytes 64 0)))).part
    0).cfg (pair 0)) (coll 2 (recordOf [(4, 3), (16, scratchBase 0 + 2 ^ 22), (24, 16), (34, 0)])) (msgKey (msg Vc.exchange Ty.data 2 (withCrc
    (leBytes 64 0))) 1) (leBytes 64 0)), by decide, ⟨by decide, rfl, by decide, by decide⟩, ⟨by decide, by decide, rfl⟩⟩

/-- Hypotheses of ReductionMessages are met: broadcastMessage. -/
theorem witness_ReductionMessages_4 :
  ∃ (s : State) (s1 : State) (p : Nat) (m : Msg) (c : Coll) (k : Comm) (bs : List Byte) (r : State), m.op = 3 ∧ isCopy m = false ∧ joins s s1 p m
    Vc.broadcast Ty.data c k ∧ gatherLands s1 r p m c k bs :=
  ⟨withColl (coll 3 (recordOf [(4, 3), (16, scratchBase 0 + 2 ^ 22), (24, 16), (34, 1)])), ((withColl (coll 3 (recordOf [(4, 3), (16, scratchBase 0 +
    2 ^ 22), (24, 16), (34, 1)]))).captureMsg 0 (msg Vc.broadcast Ty.data 3 (withCrc (leBytes 64 0)))), 0, msg Vc.broadcast Ty.data 3 (withCrc
    (leBytes 64 0)), coll 3 (recordOf [(4, 3), (16, scratchBase 0 + 2 ^ 22), (24, 16), (34, 1)]), pair 0, leBytes 64 0, effState ((gatherForwarded
    ((withColl (coll 3 (recordOf [(4, 3), (16, scratchBase 0 + 2 ^ 22), (24, 16), (34, 1)]))).captureMsg 0 (msg Vc.broadcast Ty.data 3 (withCrc
    (leBytes 64 0)))) 0 (msg Vc.broadcast Ty.data 3 (withCrc (leBytes 64 0))) (coll 3 (recordOf [(4, 3), (16, scratchBase 0 + 2 ^ 22), (24, 16), (34,
    1)])) (pair 0) (leBytes 64 0)).placeGather 0 ((coll 3 (recordOf [(4, 3), (16, scratchBase 0 + 2 ^ 22), (24, 16), (34, 1)])).gatherInfo (((withColl
    (coll 3 (recordOf [(4, 3), (16, scratchBase 0 + 2 ^ 22), (24, 16), (34, 1)]))).captureMsg 0 (msg Vc.broadcast Ty.data 3 (withCrc (leBytes 64
    0)))).part 0).cfg (pair 0)) (coll 3 (recordOf [(4, 3), (16, scratchBase 0 + 2 ^ 22), (24, 16), (34, 1)])) (msgKey (msg Vc.broadcast Ty.data 3
    (withCrc (leBytes 64 0))) 1) (leBytes 64 0)), by decide, by decide, ⟨by decide, rfl, by decide, by decide⟩, ⟨by decide, by decide, rfl⟩⟩

/-- Hypotheses of ReductionMessages are met: resendRequest, scalarValueMessage, barrierMessage. -/
theorem witness_ReductionMessages_5 :
    -- resendRequest
    (∃ (s : State) (s1 : State) (p : Nat) (m : Msg) (x : _) (rest : _), s1 = s.captureMsg p m ∧ ((m.vc = Vc.broadcast ∧ hear s p m Vc.broadcast
      Ty.data ∧ m.op = 7 ∨ m.vc = Vc.scalar ∧ m.nak = true ∧ hear s p m Vc.scalar Ty.segAck)) ∧ s1.sentBefore m = x :: rest ∧ rest.length < 4) ∧
    -- scalarValueMessage
    (∃ (s : State) (s1 : State) (p : Nat) (m : Msg) (c : Coll) (k : Comm), ((m.op = 4 ∨ m.op = 16 ∨ m.op = MsgOp.audit)) ∧ joins s s1 p m Vc.scalar
      Ty.data c k ∧ (¬ (c.phase = 0 ∧ (m.seg = 1 ∨ k.myRank = 0)))) ∧
    -- barrierMessage
    (∃ (s : State) (s1 : State) (p : Nat) (m : Msg) (c : Coll) (k : Comm), m.op = 5 ∧ joins s s1 p m Vc.scalar Ty.data c k ∧ (¬ (c.phase = 0 ∧ (m.seg
      = 1 ∨ k.myRank = 0)))) :=
  ⟨
    ⟨{ base with tx := [{ Msg.empty with dst := 2, ty := Ty.data, comm := 5, op := 3, vc := Vc.broadcast }] },
      ((({ base with tx := [{ Msg.empty with dst := 2, ty := Ty.data, comm := 5, op := 3, vc := Vc.broadcast }] } : State)).captureMsg 0 (msg
      Vc.broadcast Ty.data 7)), 0, msg Vc.broadcast Ty.data 7, { Msg.empty with dst := 2, ty := Ty.data, comm := 5, op := 3, vc := Vc.broadcast }, [],
      rfl, .inl ⟨by decide, by decide, by decide⟩, by decide, by decide⟩,
    ⟨withColl (coll 4), ((withColl (coll 4)).captureMsg 0 (msg Vc.scalar Ty.data 4)), 0, msg Vc.scalar Ty.data 4, coll 4, pair 0, by decide, ⟨by
      decide, rfl, by decide, by decide⟩, by decide⟩,
    ⟨withColl (coll 5), ((withColl (coll 5)).captureMsg 0 (msg Vc.scalar Ty.data 5)), 0, msg Vc.scalar Ty.data 5, coll 5, pair 0, by decide, ⟨by
      decide, rfl, by decide, by decide⟩, by decide⟩⟩

/-- Hypotheses of FleetMessages are met: exchangeCountMessage, exchangeRowsMessage, fenceArrival inner, fenceArrival root, fenceRelease, notice,
batchRecordMessage, batchAnswerMessage, broadcastCopy, replicaFetchRequest, closeValueMessage, sequenceGroupMessage. -/
theorem witness_FleetMessages :
    -- exchangeCountMessage
    (∃ (s : State) (s1 : State) (p : Nat) (m : Msg) (c : Coll) (k : Comm) (bs : List Byte), m.op = 16 ∧ joins s s1 p m Vc.exchange Ty.data c k ∧
      c.expect.contains (segKey m.rank 0, m.rank) = true ∧ checkedData m = some bs) ∧
    -- exchangeRowsMessage
    (∃ (s : State) (s1 : State) (p : Nat) (m : Msg) (c : Coll) (k : Comm) (bs : List Byte) (x : Exch) (r : State), 17 ≤ m.op ∧ m.op ≤ 20 ∧ joins s s1
      p m Vc.exchange Ty.data c k ∧ s1.exchOf p c.tile c.comm c.stepNo c.desc = some x ∧ c.expect.contains (segKey m.rank 0, m.rank) = true ∧
      checkedData m = some bs ∧ s1.landRows p c (x.lands (exD c.desc) k.count c.tile c.op m.rank) bs = .ok r) ∧
    -- fenceArrival inner
    (∃ (s : State) (s1 : State) (p : Nat) (m : Msg) (k : _), m.op = MsgOp.arrival ∧ hear s p m Vc.control Ty.fence ∧ s1 = s.captureMsg p m ∧
      s1.fenceComm p (m.args.getD 1 0) m.comm = some k ∧ k.myRank ≠ 0) ∧
    -- fenceArrival root
    (∃ (s : State) (s1 : State) (p : Nat) (m : Msg) (k : _) (f : Fence), m.op = MsgOp.arrival ∧ hear s p m Vc.control Ty.fence ∧ s1 = s.captureMsg p m
      ∧ s1.fenceComm p (m.args.getD 1 0) m.comm = some k ∧ k.myRank = 0 ∧ (s1.part p).fence = some f ∧ f.awaits m = true ∧ f.verdict = none) ∧
    -- fenceRelease
    (∃ (s : State) (s1 : State) (p : Nat) (m : Msg) (f : Fence) (k : Comm), m.op = MsgOp.release ∧ hear s p m Vc.control Ty.fence ∧ s1 = s.captureMsg
      p m ∧ (s1.part p).fence = some f ∧ f.comm = m.comm ∧ f.kind = m.args.getD 1 9 ∧ f.verdict = none ∧ s1.fenceComm p f.kind f.comm = some k ∧
      k.myRank ≠ 0) ∧
    -- notice
    (∃ (s : State) (s1 : State) (p : Nat) (m : Msg) (k : _), hear s p m Vc.control Ty.notice ∧ s1 = s.captureMsg p m ∧ (s1.part p).cfg.comm m.comm =
      some k) ∧
    -- batchRecordMessage
    (∃ (s : State) (s1 : State) (p : Nat) (m : Msg), m.op = MsgOp.batch ∧ hear s p m Vc.broadcast Ty.data ∧ s1 = s.captureMsg p m) ∧
    -- batchAnswerMessage
    (∃ (s : State) (s1 : State) (p : Nat) (m : Msg) (id : Nat), m.op = MsgOp.batchAnswer ∧ hear s p m Vc.broadcast Ty.data ∧ s1 = s.captureMsg p m ∧
      (s1.part p).putWait.find? (fun id => (s1.cmd id).any (fun c => c.arg 21 20 == m.src)) = some id) ∧
    -- broadcastCopy
    (∃ (s : State) (s1 : State) (p : Nat) (m : Msg) (x : _) (k : _), isCopy m = true ∧ hear s p m Vc.broadcast Ty.data ∧ s1 = s.captureMsg p m ∧
      (s1.part p).install = some x ∧ x.comm = m.comm ∧ x.version = m.step ∧ s1.installComm p x = some k ∧ m.rank = k.parent (m.args.getD 0 0)
      k.myRank) ∧
    -- replicaFetchRequest
    (∃ (s : State) (s1 : State) (p : Nat) (m : Msg) (dlen : Nat) (bs : _), m.op = MsgOp.fetch ∧ hear s p m Vc.broadcast Ty.data ∧ s1 = s.captureMsg p
      m ∧ s1.ownCopy p (m.args.getD 1 0) = some (dlen, bs)) ∧
    -- closeValueMessage
    (∃ (s : State) (s1 : State) (p : Nat) (m : Msg), m.op = MsgOp.closeValue ∧ hear s p m Vc.control Ty.fence ∧ s1 = s.captureMsg p m) ∧
    -- sequenceGroupMessage
    (∃ (s : State) (s1 : State) (p : Nat) (m : Msg) (b : Nat), m.op = MsgOp.group ∧ hear s p m Vc.scalar Ty.data ∧ s1 = s.captureMsg p m ∧ s1.groupBay
      p m = some b) :=
  ⟨
    ⟨withColl (coll 16 exDesc), ((withColl (coll 16 exDesc)).captureMsg 0 (msg Vc.exchange Ty.data 16 (withCrc [0, 0, 0, 0]))), 0, msg Vc.exchange
      Ty.data 16 (withCrc [0, 0, 0, 0]), coll 16 exDesc, pair 0, [0, 0, 0, 0], by decide, ⟨by decide, rfl, by decide, by decide⟩, by decide, by
      decide⟩,
    ⟨base (fun x => { x with colls := [coll 17 exDesc], exchanges := [exchange 0] }), ((base (fun x =>
      { x with colls := [coll 17 exDesc], exchanges := [exchange 0] })).captureMsg 0 (msg Vc.exchange Ty.data 17 (withCrc []))), 0, msg Vc.exchange
      Ty.data 17 (withCrc []), coll 17 exDesc, pair 0, [], exchange 0, effState (((base (fun x =>
      { x with colls := [coll 17 exDesc], exchanges := [exchange 0] })).captureMsg 0 (msg Vc.exchange Ty.data 17 (withCrc []))).landRows 0 (coll 17
      exDesc) ((exchange 0).lands (exD (coll 17 exDesc).desc) 2 0 17 1) []), by decide, by decide, ⟨by decide, rfl, by decide, by decide⟩, by decide,
      by decide, by decide, rfl⟩,
    ⟨base1, ((base1).captureMsg 0 ({ msg1 Vc.control Ty.fence MsgOp.arrival with args := [0, FenceKind.refresh], src := 1 })), 0,
      { msg1 Vc.control Ty.fence MsgOp.arrival with args := [0, FenceKind.refresh], src := 1 }, pair 1, by decide, by decide, rfl, by decide, by
      decide⟩,
    ⟨base (fun x => { x with fence := some fence }), ((base (fun x => { x with fence := some fence })).captureMsg 0
      ({ msg Vc.control Ty.fence MsgOp.arrival with args := [1, FenceKind.refresh] })), 0,
      { msg Vc.control Ty.fence MsgOp.arrival with args := [1, FenceKind.refresh] }, pair 0, fence, by decide, by decide, rfl, by decide, by decide,
      by decide, by decide, by decide⟩,
    ⟨base1 (fun x => { x with fence := some fence }), ((base1 (fun x => { x with fence := some fence })).captureMsg 0
      ({ msg1 Vc.control Ty.fence MsgOp.release with args := [0, FenceKind.refresh] })), 0,
      { msg1 Vc.control Ty.fence MsgOp.release with args := [0, FenceKind.refresh] }, fence, pair 1, by decide, by decide, rfl, by decide, by decide,
      by decide, by decide, by decide, by decide⟩,
    ⟨base, ((base).captureMsg 0 ({ msg Vc.control Ty.notice 0 with args := [0] })), 0, { msg Vc.control Ty.notice 0 with args := [0] }, pair 0, by
      decide, rfl, by decide⟩,
    ⟨base, ((base).captureMsg 0 (msg Vc.broadcast Ty.data MsgOp.batch)), 0, msg Vc.broadcast Ty.data MsgOp.batch, by decide, by decide, rfl⟩,
    ⟨{ base (fun x => { x with putWait := [7] }) with cmds := [command 7 0x67 [(20, 2)]] },
      (({ base (fun x => { x with putWait := [7] }) with cmds := [command 7 0x67 [(20, 2)]] }).captureMsg 0 (msg Vc.broadcast Ty.data
      MsgOp.batchAnswer)), 0, msg Vc.broadcast Ty.data MsgOp.batchAnswer, 7, by decide, by decide, rfl, by decide⟩,
    ⟨base1 (fun x => { x with install := some install }), ((base1 (fun x => { x with install := some install })).captureMsg 0
      ({ msg1 Vc.broadcast Ty.data 3 with opNo := copyOp, step := 3, args := [0] })), 0,
      { msg1 Vc.broadcast Ty.data 3 with opNo := copyOp, step := 3, args := [0] }, install, pair 1, by decide, by decide, rfl, by decide, by decide,
      by decide, by decide, by decide⟩,
    ⟨base (fun x => { x with install := some install }), ((base (fun x => { x with install := some install })).captureMsg 0
      ({ msg Vc.broadcast Ty.data MsgOp.fetch with args := [0, 0] })), 0, { msg Vc.broadcast Ty.data MsgOp.fetch with args := [0, 0] }, 8, ((base (fun
      x => { x with install := some install })).readPieces (segSpots ((base (fun x => { x with install := some install })).copyInto 0 false) 5
      (install.seg 0 0))), by decide, by decide, rfl, rfl⟩,
    ⟨base, ((base).captureMsg 0 (msg Vc.control Ty.fence MsgOp.closeValue)), 0, msg Vc.control Ty.fence MsgOp.closeValue, by decide, by decide, rfl⟩,
    ⟨{ base1 with bays := [(0, some { Bay.reset with live := [seq9 5] })] },
      (({ base1 with bays := [(0, some { Bay.reset with live := [seq9 5] })] }).captureMsg 0
      ({ msg1 Vc.scalar Ty.data MsgOp.group with args := [9] })), 0, { msg1 Vc.scalar Ty.data MsgOp.group with args := [9] }, 0, by decide, by decide,
      rfl, by decide⟩⟩

/-- Hypotheses of FleetTimeouts are met: ownerWaitTimeout, senderGrantTimeout, orphanTimeout, barrierUpTimeout, fenceUpTimeout, releaseWaitTimeout,
gatherReceiveTimeout, exchangeReceiveTimeout, closeAgreementTimeout, batchAnswerTimeout. -/
theorem witness_FleetTimeouts :
    -- ownerWaitTimeout
    (∃ (s : State) (p : Nat) (comm : Nat) (opNo : Nat) (seg : Nat) (k : _) (c : _) (rank : Nat), s.timed p comm opNo liveRed = some (k, c) ∧
      s.lateRank p k c seg = some rank) ∧
    -- senderGrantTimeout
    (∃ (s : State) (p : Nat) (comm : Nat) (opNo : Nat) (owner : Nat) (k : _) (c : Coll), s.timed p comm opNo liveRed = some (k, c) ∧ (c.toSend.any
      (fun x => x.2.1 == owner && !c.grants.contains (x.1, owner) && !c.sent.contains (x.1, owner))) = true) ∧
    -- orphanTimeout
    (∃ (s : State) (p : Nat) (comm : Nat) (opNo : Nat) (k : _) (c : Coll), s.timed p comm opNo (fun c => c.orphan) = some (k, c)) ∧
    -- barrierUpTimeout
    (∃ (s : State) (p : Nat) (comm : Nat) (opNo : Nat) (k : _) (c : Coll) (r : _), s.timed p comm opNo isScalar = some (k, c) ∧ k.myRank = 0 ∧
      lowestSilent k (c.vals.map Prod.fst) = some r) ∧
    -- fenceUpTimeout
    (∃ (s : State) (p : Nat) (comm : Nat) (opNo : Nat) (k : _) (f : Fence) (r : _), s.timed p comm opNo isScalar = none ∧ s.openFenceOn p comm = some
      (k, f) ∧ k.myRank = 0 ∧ lowestSilent k (f.seen.map Prod.fst) = some r) ∧
    -- releaseWaitTimeout
    (∃ (s : State) (p : Nat) (comm : Nat) (opNo : Nat) (k : _) (c : Coll), s.timed p comm opNo isScalar = some (k, c) ∧ k.myRank ≠ 0) ∧
    -- gatherReceiveTimeout
    (∃ (s : State) (p : Nat) (comm : Nat) (opNo : Nat) (k : _) (c : Coll) (o : Nat), s.timed p comm opNo (fun c => (c.op == 1 || c.op == 3) &&
      c.expect != []) = some (k, c) ∧ k.soonest (c.expect.map (fun e => keyOwner e.1)) = some o) ∧
    -- exchangeReceiveTimeout
    (∃ (s : State) (p : Nat) (comm : Nat) (opNo : Nat) (k : _) (c : _) (r : _), s.timed p comm opNo (fun c => (c.op == 2 || (decide (16 ≤ c.op) &&
      decide (c.op < 24))) && c.expect != []) = some (k, c) ∧ (c.expect.map Prod.snd).min? = some r) ∧
    -- closeAgreementTimeout
    (∃ (s : State) (b : Nat) (p : Nat) (k : _) (r : _), s.partOfBay b = some p ∧ (s.bay b).closing = true ∧ s.fget .seqLockstep b ≠ 0 ∧ (s.part
      p).cfg.comm (s.fget .seqLockComm b) = some k ∧ lowestSilent k ((s.bay b).closeVals.map Prod.fst) = some r) ∧
    -- batchAnswerTimeout
    (∃ (s : State) (p : Nat) (id : Nat) (rest : _), (s.part p).putWait = id :: rest) :=
  ⟨
    ⟨withColl (coll 0), 0, 5, 0, 0, pair 0, coll 0, 1, by decide, by decide⟩,
    ⟨withColl { coll 0 with toSend := [(0, 1, [])] }, 0, 5, 0, 1, pair 0, { coll 0 with toSend := [(0, 1, [])] }, by decide, by decide⟩,
    ⟨withColl { coll 0 with orphan := true }, 0, 5, 0, pair 0, { coll 0 with orphan := true }, by decide⟩,
    ⟨withColl { coll 5 with vals := [(0, [])] }, 0, 5, 0, pair 0, { coll 5 with vals := [(0, [])] }, 1, by decide, by decide, by decide⟩,
    ⟨base (fun x => { x with fence := some fence }), 0, 5, 0, pair 0, fence, 1, by decide, by decide, by decide, by decide⟩,
    ⟨base1 (fun x => { x with colls := [coll 5] }), 0, 5, 0, pair 1, coll 5, by decide, by decide⟩,
    ⟨withColl (coll 1), 0, 5, 0, pair 0, coll 1, 1, by decide, by decide⟩,
    ⟨withColl (coll 2), 0, 5, 0, pair 0, coll 2, 1, by decide, by decide⟩,
    ⟨((({ base with bays := [(0, some { Bay.reset with closing := true, closeVals := [(0, 1)] })] } : State).fset .seqLockstep 0 1).fset .seqLockComm
      0 5), 0, 0, pair 0, 1, by decide, by decide, by decide, by decide, by decide⟩,
    ⟨base (fun x => { x with putWait := [7] }), 0, 7, [], by decide⟩⟩

/-- Hypotheses of LoadCommands are met: nop, reservedOpcode, progLoad, fill, weightLoad. -/
theorem witness_LoadCommands :
    -- nop
    (∃ (s : State) (s1 : State) (fn : Nat) (ring : Nat) (d : BitVec 512) (c : Cmd), starts s fn ring d ⟨0x00, true, 0xFF, dZero d 63 16, true⟩ c s1) ∧
    -- reservedOpcode
    (∃ (s : State) (fn : Nat) (ring : Nat) (d : BitVec 512), s.fetchable fn ring = true ∧ s.slotDesc fn ring = some d ∧ opDefined (dField d 0 0) =
      false ∧ (s.popSlot fn ring).safe = false) ∧
    -- progLoad
    (∃ (s : State) (s1 : State) (s2 : State) (fn : Nat) (ring : Nat) (d : BitVec 512) (c : Cmd) (bs : List Byte), starts s fn ring d ⟨0x10, pfOrVf fn
      (dField d 16 16), dField d 16 16, s.partDefined (dField d 16 16) && dField d 17 17 % 2 == 0 && decide (dField d 17 17 < 32) && decide (dField d
      19 19 < 2) && dZero d 23 20 && dZero d 63 40 && decide (1 ≤ dField d 35 34) && decide (dField d 33 32 + dField d 35 34 ≤ 16384) && (dField d 18
      18 == 0xFF || (dField d 17 17 == 0 && s.mapped (dField d 18 18) && s.holds (dField d 16 16) (dField d 18 18 / 8))), false⟩ c s1 ∧ (s.popSlot fn
      ring).pfBarred fn (dField d 16 16) = false ∧ s1.stepRuns c.part = false ∧ s1.hostTake c (c.arg 31 24) (16 * c.arg 35 34) = (bs, true, s2)) ∧
    -- fill
    (∃ (s : State) (s1 : State) (fn : Nat) (ring : Nat) (d : BitVec 512) (c : Cmd), starts s fn ring d ⟨0x13, fn == 0, dField d 16 16, s.partDefined
      (dField d 16 16) && dZero d 23 17 && dZero d 63 48, true⟩ c s1 ∧ c.arg 31 24 % 64 = 0 ∧ c.arg 39 32 % 64 = 0 ∧ s1.accessFault c.part (c.arg 31
      24) (c.arg 39 32) true = none ∧ inDram (c.arg 31 24) (c.arg 39 32) = true ∧ (s1.touchesTable c.part (c.arg 31 24) (c.arg 39 32) &&
      !s1.tablesIdle c.part) = false) ∧
    -- weightLoad
    (∃ (s : State) (s1 : State) (fn : Nat) (ring : Nat) (d : BitVec 512) (c : Cmd), starts s fn ring d ⟨0x12, pfOrVf fn (dField d 16 16), dField d 16
      16, s.partDefined (dField d 16 16) && decide (dField d 17 17 < 4) && dZero d 19 18 && dZero d 63 48 && (bitOf (dField d 17 17) 1 || dField d 23
      20 == 0), false⟩ c s1 ∧ (s.popSlot fn ring).weightRefusal fn d = 0 ∧ s1.accessFault c.part (c.arg 39 32) (c.arg 47 40) true = none) :=
  ⟨
    ⟨hostS base [], tkS base 0xFF [], 0, 0, desc [], tkC base 0xFF [], ⟨by decide, rfl⟩⟩,
    ⟨hostS base [(0, 1)], 0, 0, desc [(0, 1)], by decide, by decide, by decide, by decide⟩,
    ⟨hostS base [(0, 16), (24, 4096), (34, 1)], tkS base 0 [(0, 16), (24, 4096), (34, 1)], ((tkS base 0 [(0, 16), (24, 4096), (34, 1)]).hostTake (tkC
      base 0 [(0, 16), (24, 4096), (34, 1)]) 4096 16).2.2, 0, 0, desc [(0, 16), (24, 4096), (34, 1)], tkC base 0 [(0, 16), (24, 4096), (34, 1)], ((tkS
      base 0 [(0, 16), (24, 4096), (34, 1)]).hostTake (tkC base 0 [(0, 16), (24, 4096), (34, 1)]) 4096 16).1, ⟨by decide, rfl⟩, by decide, by decide,
      rfl⟩,
    ⟨hostS base [(0, 19), (24, hbmBase 0), (32, 64), (40, 7)], tkS base 0 [(0, 19), (24, hbmBase 0), (32, 64), (40, 7)], 0, 0, desc [(0, 19), (24,
      hbmBase 0), (32, 64), (40, 7)], tkC base 0 [(0, 19), (24, hbmBase 0), (32, 64), (40, 7)], ⟨by decide, rfl⟩, by decide, by decide, by decide, by
      decide, by decide⟩,
    ⟨hostS ({ base (fun x => { x with cfg := { cfg with regions := [region 0 0 (hbmBase 0)] } }) with pending := [] }) [(0, 18), (32, hbmBase 0), (40,
      64)], tkS ({ base (fun x => { x with cfg := { cfg with regions := [region 0 0 (hbmBase 0)] } }) with pending := [] }) 0 [(0, 18), (32, hbmBase
      0), (40, 64)], 0, 0, desc [(0, 18), (32, hbmBase 0), (40, 64)], tkC
      ({ base (fun x => { x with cfg := { cfg with regions := [region 0 0 (hbmBase 0)] } }) with pending := [] }) 0 [(0, 18), (32, hbmBase 0), (40,
      64)], ⟨by decide, rfl⟩, by decide, by decide⟩⟩

/-- Hypotheses of TierCommands are met: move, stateMove, ckptWrite, ckptLoad, flashWrite, flashTrim, nsClear, flashProgramDone data, flashProgramDone
table, flashProgramDone write, flashProgramDone writeDone, flashProgramDone trim. -/
theorem witness_TierCommands :
    -- move
    (∃ (s : State) (s1 : State) (s2 : State) (fn : Nat) (ring : Nat) (d : BitVec 512) (c : Cmd) (bs : List Byte), starts s fn ring d (s.tierSpec fn
      0x70 d (dZero d 23 17 && dZero d 63 32)) c s1 ∧ s1.movePlace c = true ∧ (s1.modCmd c.id (fun c => { c with stage := 0 })).hostTake c (c.arg 31
      24) 64 = (bs, true, s2) ∧ (moveD (BitVec.ofNat 512 (leNat bs))).legal (s2.part c.part).cfg true = true ∧ (((moveD (BitVec.ofNat 512 (leNat
      bs))).st == 4 || (moveD (BitVec.ofNat 512 (leNat bs))).dt == 4) && s2.pfBarred c.fn c.part) = false ∧ s2.moveAddrs c.part (moveD (BitVec.ofNat
      512 (leNat bs))) = none) ∧
    -- stateMove
    (∃ (s : State) (s1 : State) (fn : Nat) (ring : Nat) (d : BitVec 512) (c : Cmd), starts s fn ring d (s.tierSpec fn 0x71 d (decide (dField d 17 17 <
      2) && dZero d 63 18)) c s1 ∧ (s.popSlot fn ring).stateMoveRefusal (dField d 16 16) = 0 ∧ s1.stateMoveRefusal c.part = 0) ∧
    -- ckptWrite
    (∃ (s : State) (s1 : State) (fn : Nat) (ring : Nat) (d : BitVec 512) (c : Cmd), starts s fn ring d (s.tierSpec fn 0x72 d (((s.part (dField d 16
      16)).cfg.comm (dField d 17 17)).isSome && dZero d 23 18 && dZero d 63 32)) c s1 ∧ (s.popSlot fn ring).ckptRefusal d = 0 ∧ (s1.part c.part).flash
      = none) ∧
    -- ckptLoad
    (∃ (s : State) (s1 : State) (fn : Nat) (ring : Nat) (d : BitVec 512) (c : Cmd) (k : Comm), starts s fn ring d (s.tierSpec fn 0x73 d (((s.part
      (dField d 16 16)).cfg.comm (dField d 17 17)).isSome && decide (dField d 18 18 < 2) && dZero d 19 19 && dZero d 63 32 && (dField d 18 18 == 0 ||
      ((s.part (dField d 16 16)).cfg.comm (dField d 17 17)).any (fun k => decide (dField d 23 20 < k.count))))) c s1 ∧ (s.popSlot fn ring).turning
      (dField d 16 16) = false ∧ ((s.popSlot fn ring).part (dField d 16 16)).flash.any (fun f => decide (f.kind ≤ 1)) = false ∧ (s1.part c.part).flash
      = none ∧ (s1.part c.part).cfg.comm (c.arg 17 17) = some k) ∧
    -- flashWrite
    (∃ (s : State) (s1 : State) (s2 : State) (fn : Nat) (ring : Nat) (d : BitVec 512) (c : Cmd) (bs : List Byte), starts s fn ring d (s.tierSpec fn
      0x74 d (decide (dField d 17 17 < 2) && dZero d 23 18 && dZero d 63 48 && s.beyondSlots (dField d 16 16) (dField d 39 32) (dField d 47 40))) c s1
      ∧ (dField d 17 17 == 1 && (s.popSlot fn ring).pfBarred fn (dField d 16 16)) = false ∧ (s.popSlot fn ring).fget .flashReadOnly 0 ≠ 1 ∧ (s.popSlot
      fn ring).fget .pwrSag 0 ≠ 1 ∧ dField d 39 32 + dField d 47 40 ≤ ((s.popSlot fn ring).nsRange (dField d 16 16)).2 ∧ (s1.part c.part).flash = none
      ∧ reads s1 s2 c (bitOf (c.arg 17 17) 0) (c.arg 31 24) (c.arg 47 40) bs ∧ (s2.part c.part).flash = none) ∧
    -- flashTrim
    (∃ (s : State) (s1 : State) (fn : Nat) (ring : Nat) (d : BitVec 512) (c : Cmd), starts s fn ring d (s.tierSpec fn 0x75 d (dZero d 23 17 && dZero d
      63 40 && s.beyondSlots (dField d 16 16) (dField d 31 24) (dField d 39 32))) c s1 ∧ dField d 31 24 + dField d 39 32 ≤ ((s.popSlot fn
      ring).nsRange (dField d 16 16)).2 ∧ (s1.part c.part).flash = none) ∧
    -- nsClear
    (∃ (s : State) (s1 : State) (fn : Nat) (ring : Nat) (d : BitVec 512) (c : Cmd), starts s fn ring d ⟨0x86, fn == 0, dField d 16 16, s.partDefined
      (dField d 16 16) && dZero d 63 17, false⟩ c s1 ∧ (s1.part c.part).flash = none) ∧
    -- flashProgramDone data
    (∃ (s : State) (s1 : State) (p : Nat) (f : Flash), p < 12 ∧ (s.part p).flash = some f ∧ ((f.kind = 0 ∧ f.stage = 2 ∧ s1 = ((s.devWrite (flashBase
      + f.slot) f.data).modFlash p (fun g => { g with stage := 3 })).fset .flashProgress p (f.data.length / 2 ^ 30) ∨ f.kind = 0 ∧ f.stage = 3 ∧ s1 =
      (s.devWrite (flashBase + f.slot + f.data.length) (tableOf f.data)).modFlash p (fun g => { g with stage := 4 }) ∨ f.kind = 2 ∧ f.stage = 0 ∧ s1 =
      ((s.devWrite (flashBase + f.slot) f.data).modFlash p (fun g => { g with stage := 1 })).fset .flashProgress p (f.data.length / 2 ^ 30) ∨ f.kind =
      2 ∧ f.stage ≠ 0 ∧ s1 = s.endFlash p Status.ok 0 ∨ (f.kind = 3 ∨ f.kind = 4) ∧ s1 = (s.devZero (flashBase + f.slot) (f.missing.headD 0)).endFlash
      p Status.ok 0))) ∧
    -- flashProgramDone table
    (∃ (s : State) (s1 : State) (p : Nat) (f : Flash), p < 12 ∧ (s.part p).flash = some f ∧ ((f.kind = 0 ∧ f.stage = 2 ∧ s1 = ((s.devWrite (flashBase
      + f.slot) f.data).modFlash p (fun g => { g with stage := 3 })).fset .flashProgress p (f.data.length / 2 ^ 30) ∨ f.kind = 0 ∧ f.stage = 3 ∧ s1 =
      (s.devWrite (flashBase + f.slot + f.data.length) (tableOf f.data)).modFlash p (fun g => { g with stage := 4 }) ∨ f.kind = 2 ∧ f.stage = 0 ∧ s1 =
      ((s.devWrite (flashBase + f.slot) f.data).modFlash p (fun g => { g with stage := 1 })).fset .flashProgress p (f.data.length / 2 ^ 30) ∨ f.kind =
      2 ∧ f.stage ≠ 0 ∧ s1 = s.endFlash p Status.ok 0 ∨ (f.kind = 3 ∨ f.kind = 4) ∧ s1 = (s.devZero (flashBase + f.slot) (f.missing.headD 0)).endFlash
      p Status.ok 0))) ∧
    -- flashProgramDone write
    (∃ (s : State) (s1 : State) (p : Nat) (f : Flash), p < 12 ∧ (s.part p).flash = some f ∧ ((f.kind = 0 ∧ f.stage = 2 ∧ s1 = ((s.devWrite (flashBase
      + f.slot) f.data).modFlash p (fun g => { g with stage := 3 })).fset .flashProgress p (f.data.length / 2 ^ 30) ∨ f.kind = 0 ∧ f.stage = 3 ∧ s1 =
      (s.devWrite (flashBase + f.slot + f.data.length) (tableOf f.data)).modFlash p (fun g => { g with stage := 4 }) ∨ f.kind = 2 ∧ f.stage = 0 ∧ s1 =
      ((s.devWrite (flashBase + f.slot) f.data).modFlash p (fun g => { g with stage := 1 })).fset .flashProgress p (f.data.length / 2 ^ 30) ∨ f.kind =
      2 ∧ f.stage ≠ 0 ∧ s1 = s.endFlash p Status.ok 0 ∨ (f.kind = 3 ∨ f.kind = 4) ∧ s1 = (s.devZero (flashBase + f.slot) (f.missing.headD 0)).endFlash
      p Status.ok 0))) ∧
    -- flashProgramDone writeDone
    (∃ (s : State) (s1 : State) (p : Nat) (f : Flash), p < 12 ∧ (s.part p).flash = some f ∧ ((f.kind = 0 ∧ f.stage = 2 ∧ s1 = ((s.devWrite (flashBase
      + f.slot) f.data).modFlash p (fun g => { g with stage := 3 })).fset .flashProgress p (f.data.length / 2 ^ 30) ∨ f.kind = 0 ∧ f.stage = 3 ∧ s1 =
      (s.devWrite (flashBase + f.slot + f.data.length) (tableOf f.data)).modFlash p (fun g => { g with stage := 4 }) ∨ f.kind = 2 ∧ f.stage = 0 ∧ s1 =
      ((s.devWrite (flashBase + f.slot) f.data).modFlash p (fun g => { g with stage := 1 })).fset .flashProgress p (f.data.length / 2 ^ 30) ∨ f.kind =
      2 ∧ f.stage ≠ 0 ∧ s1 = s.endFlash p Status.ok 0 ∨ (f.kind = 3 ∨ f.kind = 4) ∧ s1 = (s.devZero (flashBase + f.slot) (f.missing.headD 0)).endFlash
      p Status.ok 0))) ∧
    -- flashProgramDone trim
    (∃ (s : State) (s1 : State) (p : Nat) (f : Flash), p < 12 ∧ (s.part p).flash = some f ∧ ((f.kind = 0 ∧ f.stage = 2 ∧ s1 = ((s.devWrite (flashBase
      + f.slot) f.data).modFlash p (fun g => { g with stage := 3 })).fset .flashProgress p (f.data.length / 2 ^ 30) ∨ f.kind = 0 ∧ f.stage = 3 ∧ s1 =
      (s.devWrite (flashBase + f.slot + f.data.length) (tableOf f.data)).modFlash p (fun g => { g with stage := 4 }) ∨ f.kind = 2 ∧ f.stage = 0 ∧ s1 =
      ((s.devWrite (flashBase + f.slot) f.data).modFlash p (fun g => { g with stage := 1 })).fset .flashProgress p (f.data.length / 2 ^ 30) ∨ f.kind =
      2 ∧ f.stage ≠ 0 ∧ s1 = s.endFlash p Status.ok 0 ∨ (f.kind = 3 ∨ f.kind = 4) ∧ s1 = (s.devZero (flashBase + f.slot) (f.missing.headD 0)).endFlash
      p Status.ok 0))) :=
  ⟨
    ⟨hostS (base.hostWrite 4096 (leBytes 64 (recordOf [(0, 1), (16, scratchBase 0 + 4096), (24, 1), (28, 16), (32, 64), (36, 64)]))) [(0, 112), (24,
      4096)], tkS (base.hostWrite 4096 (leBytes 64 (recordOf [(0, 1), (16, scratchBase 0 + 4096), (24, 1), (28, 16), (32, 64), (36, 64)]))) 0 [(0,
      112), (24, 4096)], ((tkS (base.hostWrite 4096 (leBytes 64 (recordOf [(0, 1), (16, scratchBase 0 + 4096), (24, 1), (28, 16), (32, 64), (36,
      64)]))) 0 [(0, 112), (24, 4096)]).hostTake (tkC (base.hostWrite 4096 (leBytes 64 (recordOf [(0, 1), (16, scratchBase 0 + 4096), (24, 1), (28,
      16), (32, 64), (36, 64)]))) 0 [(0, 112), (24, 4096)]) 4096 64).2.2, 0, 0, desc [(0, 112), (24, 4096)], tkC (base.hostWrite 4096 (leBytes 64
      (recordOf [(0, 1), (16, scratchBase 0 + 4096), (24, 1), (28, 16), (32, 64), (36, 64)]))) 0 [(0, 112), (24, 4096)], ((tkS (base.hostWrite 4096
      (leBytes 64 (recordOf [(0, 1), (16, scratchBase 0 + 4096), (24, 1), (28, 16), (32, 64), (36, 64)]))) 0 [(0, 112), (24, 4096)]).hostTake (tkC
      (base.hostWrite 4096 (leBytes 64 (recordOf [(0, 1), (16, scratchBase 0 + 4096), (24, 1), (28, 16), (32, 64), (36, 64)]))) 0 [(0, 112), (24,
      4096)]) 4096 64).1, ⟨by decide, rfl⟩, by decide, rfl, by decide, by decide, by decide⟩,
    ⟨hostS base [(0, 113)], tkS base 0 [(0, 113)], 0, 0, desc [(0, 113)], tkC base 0 [(0, 113)], ⟨by decide, rfl⟩, by decide, by decide⟩,
    ⟨hostS (((phased Phase.learn).fset .flashNsSize 0 64).fset .flashCkptSlot 0 1) [(0, 114), (17, 5), (24, 1)], tkS (((phased Phase.learn).fset
      .flashNsSize 0 64).fset .flashCkptSlot 0 1) 0 [(0, 114), (17, 5), (24, 1)], 0, 0, desc [(0, 114), (17, 5), (24, 1)], tkC (((phased
      Phase.learn).fset .flashNsSize 0 64).fset .flashCkptSlot 0 1) 0 [(0, 114), (17, 5), (24, 1)], ⟨by decide, rfl⟩, by decide, by decide⟩,
    ⟨hostS (phased Phase.learn) [(0, 115), (17, 5)], tkS (phased Phase.learn) 0 [(0, 115), (17, 5)], 0, 0, desc [(0, 115), (17, 5)], tkC (phased
      Phase.learn) 0 [(0, 115), (17, 5)], pair 0, ⟨by decide, rfl⟩, by decide, by decide, by decide, by decide⟩,
    ⟨hostS ((base.fset .flashNsSize 0 64).fset .flashCkptSlot 0 1) [(0, 116), (17, 1), (24, 4096), (32, 4294967296), (40, pageBytes)], tkS ((base.fset
      .flashNsSize 0 64).fset .flashCkptSlot 0 1) 0 [(0, 116), (17, 1), (24, 4096), (32, 4294967296), (40, pageBytes)], ((tkS ((base.fset .flashNsSize
      0 64).fset .flashCkptSlot 0 1) 0 [(0, 116), (17, 1), (24, 4096), (32, 4294967296), (40, pageBytes)]).hostTake (tkC ((base.fset .flashNsSize 0
      64).fset .flashCkptSlot 0 1) 0 [(0, 116), (17, 1), (24, 4096), (32, 4294967296), (40, pageBytes)]) 4096 pageBytes).2.2, 0, 0, desc [(0, 116),
      (17, 1), (24, 4096), (32, 4294967296), (40, pageBytes)], tkC ((base.fset .flashNsSize 0 64).fset .flashCkptSlot 0 1) 0 [(0, 116), (17, 1), (24,
      4096), (32, 4294967296), (40, pageBytes)], ((tkS ((base.fset .flashNsSize 0 64).fset .flashCkptSlot 0 1) 0 [(0, 116), (17, 1), (24, 4096), (32,
      4294967296), (40, pageBytes)]).hostTake (tkC ((base.fset .flashNsSize 0 64).fset .flashCkptSlot 0 1) 0 [(0, 116), (17, 1), (24, 4096), (32,
      4294967296), (40, pageBytes)]) 4096 pageBytes).1, ⟨by decide, rfl⟩, by decide, by decide, by decide, by decide, by decide, (.inl ⟨rfl, rfl⟩), by
      decide⟩,
    ⟨hostS base [(0, 117)], tkS base 0 [(0, 117)], 0, 0, desc [(0, 117)], tkC base 0 [(0, 117)], ⟨by decide, rfl⟩, by decide, by decide⟩,
    ⟨hostS base [(0, 134)], tkS base 0 [(0, 134)], 0, 0, desc [(0, 134)], tkC base 0 [(0, 134)], ⟨by decide, rfl⟩, by decide⟩,
    ⟨flashS (flash 0 2), ((((flashS (flash 0 2)).devWrite (flashBase + (flash 0 2).slot) (flash 0 2).data).modFlash 0 (fun g =>
      { g with stage := 3 })).fset .flashProgress 0 ((flash 0 2).data.length / 2 ^ 30)), 0, flash 0 2, by decide, by decide, (.inl ⟨by decide, by
      decide, rfl⟩)⟩,
    ⟨flashS (flash 0 3), (((flashS (flash 0 3)).devWrite (flashBase + (flash 0 3).slot + (flash 0 3).data.length) (tableOf (flash 0 3).data)).modFlash
      0 (fun g => { g with stage := 4 })), 0, flash 0 3, by decide, by decide, (.inr (.inl ⟨by decide, by decide, rfl⟩))⟩,
    ⟨flashS (flash 2 0), ((((flashS (flash 2 0)).devWrite (flashBase + (flash 2 0).slot) (flash 2 0).data).modFlash 0 (fun g =>
      { g with stage := 1 })).fset .flashProgress 0 ((flash 2 0).data.length / 2 ^ 30)), 0, flash 2 0, by decide, by decide, (.inr (.inr (.inl ⟨by
      decide, by decide, rfl⟩)))⟩,
    ⟨flashS (flash 2 1), ((flashS (flash 2 1)).endFlash 0 Status.ok 0), 0, flash 2 1, by decide, by decide, (.inr (.inr (.inr (.inl ⟨by decide, by
      decide, rfl⟩))))⟩,
    ⟨flashS (flash 3 0), (((flashS (flash 3 0)).devZero (flashBase + (flash 3 0).slot) ((flash 3 0).missing.headD 0)).endFlash 0 Status.ok 0), 0,
      flash 3 0, by decide, by decide, (.inr (.inr (.inr (.inr ⟨.inl rfl, rfl⟩))))⟩⟩

/-- Hypotheses of ImageCommands are met: imageApply, imageRelease, imageStage, sparge. -/
theorem witness_ImageCommands_1 :
    -- imageApply
    (∃ (s : State) (s1 : State) (s2 : State) (fn : Nat) (ring : Nat) (d : BitVec 512) (c : Cmd), starts s fn ring d (applySpec s fn d) c s1 ∧
      (s.applyLater d).1 = 0 ∧ ((s.popSlot fn ring).applyLater d).1 = 0 ∧ s1.queueJob
      { (jobOf 0 c.id (c.arg 20 20) (c.arg 39 32) (c.arg 23 22)) with sparge := bitOf (c.arg 21 21) 0, enterLearn := bitOf (c.arg 21 21) 1 } = (s2,
      none)) ∧
    -- imageRelease
    (∃ (s : State) (s1 : State) (fn : Nat) (ring : Nat) (d : BitVec 512) (c : Cmd), starts s fn ring d ⟨0x42, fn == 0, 0xFF, dZero d 31 16 && dZero d
      63 40 && (s.image (dField d 39 32)).isSome, true⟩ c s1 ∧ (s.popSlot fn ring).handleHeld (dField d 39 32) = false) ∧
    -- imageStage
    (∃ (s : State) (s1 : State) (fn : Nat) (ring : Nat) (d : BitVec 512) (c : Cmd), starts s fn ring d ⟨0x40, fn == 0, 0xFF, decide (dField d 28 28 <
      2) && dZero d 31 29 && decide (16 ≤ dField d 43 40) && dZero d 63 44, true⟩ c s1 ∧ s1.images.length < 16 ∧ (s1.checkImage (s1.hostRead (c.arg 23
      16) (c.arg 27 24)) (c.arg 27 24) (bitOf (c.arg 28 28) 0)).ok = true) ∧
    -- sparge
    (∃ (s : State) (s1 : State) (fn : Nat) (ring : Nat) (d : BitVec 512) (c : Cmd), starts s fn ring d ⟨0x81, fn == 0, dField d 16 16, s.partDefined
      (dField d 16 16) && dZero d 63 17, true⟩ c s1) :=
  ⟨
    ⟨hostS (phased 1) [(0, 65), (22, 1), (32, 1)], tkS (phased 1) 0 [(0, 65), (22, 1), (32, 1)], ((tkS (phased 1) 0 [(0, 65), (22, 1), (32,
      1)]).queueJob { (jobOf 0 (tkC (phased 1) 0 [(0, 65), (22, 1), (32, 1)]).id 0 1 1) with sparge := false, enterLearn := false }).1, 0, 0, desc
      [(0, 65), (22, 1), (32, 1)], tkC (phased 1) 0 [(0, 65), (22, 1), (32, 1)], ⟨by decide, rfl⟩, by decide, by decide, rfl⟩,
    ⟨hostS (phased 1) [(0, 66), (32, 1)], tkS (phased 1) 0xFF [(0, 66), (32, 1)], 0, 0, desc [(0, 66), (32, 1)], tkC (phased 1) 0xFF [(0, 66), (32,
      1)], ⟨by decide, rfl⟩, by decide⟩,
    ⟨hostS (base.hostWrite 4096 image0) [(0, 64), (16, 4096), (24, 68), (32, 8192), (40, 64)], tkS (base.hostWrite 4096 image0) 0xFF [(0, 64), (16,
      4096), (24, 68), (32, 8192), (40, 64)], 0, 0, desc [(0, 64), (16, 4096), (24, 68), (32, 8192), (40, 64)], tkC (base.hostWrite 4096 image0) 0xFF
      [(0, 64), (16, 4096), (24, 68), (32, 8192), (40, 64)], ⟨by decide, rfl⟩, by decide, by decide⟩,
    ⟨hostS base [(0, 129)], tkS base 0 [(0, 129)], 0, 0, desc [(0, 129)], tkC base 0 [(0, 129)], ⟨by decide, rfl⟩⟩⟩

/-- Hypotheses of ImageCommands are met: loaderApplyStart, drainWindowEnd. -/
theorem witness_ImageCommands_2 :
    -- loaderApplyStart
    (∃ (s : State) (s1 : State) (j : Job) (r : Option Nat), s.loader.find? (fun j => !j.running && s.jobMayRun j) = some j ∧ s.startJob j = (s1, r)) ∧
    -- drainWindowEnd
    (∃ (s : State) (p : Nat) (d : Drain) (rest : List Drain), (s.part p).drain = d :: rest) :=
  ⟨
    ⟨{ phased 1 with loader := [jobOf 0 7 0 1 1], cmds := [command 7 0x41] },
      (({ phased 1 with loader := [jobOf 0 7 0 1 1], cmds := [command 7 0x41] } : State).startJob (jobOf 0 7 0 1 1)).1, jobOf 0 7 0 1 1, none, by
      decide, rfl⟩,
    ⟨base (fun x => { x with drain := [{ why := 2, cmd := 0 }] }), 0, { why := 2, cmd := 0 }, [], by decide⟩⟩

/-- Hypotheses of TurnCommands are met: commRejoin, turnBegin, turnCommit, turnAbandon, policySwap, policyPublish. -/
theorem witness_TurnCommands :
    -- commRejoin
    (∃ (s : State) (s1 : State) (s2 : State) (fn : Nat) (ring : Nat) (d : BitVec 512) (c : Cmd), starts s fn ring d ⟨0x66, fn == 0, dField d 16 16,
      s.partDefined (dField d 16 16) && dZero d 23 20 && dZero d 63 40 && (s.image (dField d 39 32)).any (fun g => (g.cfg.comm (dField d 17
      17)).isSome), false⟩ c s1 ∧ (s.popSlot fn ring).rejoinRefusal d = 0 ∧ s1.rejoinRefusal c.desc = 0 ∧ (((s1.image (c.arg 39 32)).map (fun g =>
      (s1.applyRefusal g c.part (c.arg 19 18) false).1)).getD 0) = 0 ∧ s1.queueJob (jobOf 3 c.id c.part (c.arg 39 32) (c.arg 19 18)) = (s2, none)) ∧
    -- turnBegin
    (∃ (s : State) (s1 : State) (fn : Nat) (ring : Nat) (d : BitVec 512) (c : Cmd), starts s fn ring d (s.turnSpec fn 0x60 d (decide (dField d 21 21 <
      2) && dZero d 27 26 && dZero d 63 40 && (s.image (dField d 39 32)).isSome)) c s1 ∧ (s.popSlot fn ring).beginRefusal d = 0 ∧ s1.beginRefusal
      c.desc = 0) ∧
    -- turnCommit
    (∃ (s : State) (s1 : State) (fn : Nat) (ring : Nat) (d : BitVec 512) (c : Cmd), starts s fn ring d (s.turnSpec fn 0x61 d (decide (dField d 21 21 <
      2) && dZero d 27 24 && dZero d 63 40 && (s.image (dField d 39 32)).isSome)) c s1 ∧ (s.popSlot fn ring).commitRefusal d = 0 ∧ s1.commitRefusal
      c.desc = 0) ∧
    -- turnAbandon
    (∃ (s : State) (s1 : State) (fn : Nat) (ring : Nat) (d : BitVec 512) (c : Cmd), starts s fn ring d (s.turnSpec fn 0x62 d (dZero d 63 21)) c s1 ∧
      (s.popSlot fn ring).abandonRefusal d = 0 ∧ s1.abandonRefusal c.desc = 0) ∧
    -- policySwap
    (∃ (s : State) (s1 : State) (fn : Nat) (ring : Nat) (d : BitVec 512) (c : Cmd), starts s fn ring d ⟨0x68, pfOrVf fn (dField d 16 16), dField d 16
      16, s.partDefined (dField d 16 16) && decide (dField d 17 17 < 2) && dZero d 19 19 && dZero d 63 24 && ((s.part (dField d 16 16)).cfg.comm
      (dField d 18 18)).isSome, false⟩ c s1 ∧ (s.popSlot fn ring).swapRefusal d = 0 ∧ s1.swapRefusal c.desc = 0) ∧
    -- policyPublish
    (∃ (s : State) (s1 : State) (fn : Nat) (ring : Nat) (d : BitVec 512) (c : Cmd), starts s fn ring d ⟨0x69, fn == 0, dField d 16 16, s.partDefined
      (dField d 16 16) && dZero d 17 17 && dZero d 19 19 && dZero d 63 24 && ((s.part (dField d 16 16)).cfg.comm (dField d 18 18)).isSome, false⟩ c s1
      ∧ (s.popSlot fn ring).publishRefusal d = 0 ∧ s1.publishRefusal c.desc = 0) :=
  ⟨
    ⟨hostS (phased 1) [(0, 102), (17, 5), (18, 1), (32, 1)], tkS (phased 1) 0 [(0, 102), (17, 5), (18, 1), (32, 1)], ((tkS (phased 1) 0 [(0, 102),
      (17, 5), (18, 1), (32, 1)]).queueJob (jobOf 3 (tkC (phased 1) 0 [(0, 102), (17, 5), (18, 1), (32, 1)]).id 0 1 1)).1, 0, 0, desc [(0, 102), (17,
      5), (18, 1), (32, 1)], tkC (phased 1) 0 [(0, 102), (17, 5), (18, 1), (32, 1)], ⟨by decide, rfl⟩, by decide, by decide, by decide, rfl⟩,
    ⟨hostS (phased Phase.rollout) [(0, 96), (16, 9), (22, 1), (24, 5), (32, 1)], tkS (phased Phase.rollout) 0 [(0, 96), (16, 9), (22, 1), (24, 5),
      (32, 1)], 0, 0, desc [(0, 96), (16, 9), (22, 1), (24, 5), (32, 1)], tkC (phased Phase.rollout) 0 [(0, 96), (16, 9), (22, 1), (24, 5), (32, 1)],
      ⟨by decide, rfl⟩, by decide, by decide⟩,
    ⟨hostS (phased Phase.learn (fun x => { x with turn := some turn9 })) [(0, 97), (16, 9), (22, 2), (28, 1), (32, 1)], tkS (phased Phase.learn (fun x
      => { x with turn := some turn9 })) 0 [(0, 97), (16, 9), (22, 2), (28, 1), (32, 1)], 0, 0, desc [(0, 97), (16, 9), (22, 2), (28, 1), (32, 1)],
      tkC (phased Phase.learn (fun x => { x with turn := some turn9 })) 0 [(0, 97), (16, 9), (22, 2), (28, 1), (32, 1)], ⟨by decide, rfl⟩, by decide,
      by decide⟩,
    ⟨hostS (phased Phase.learn (fun x => { x with turn := some turn9 })) [(0, 98), (16, 9)], tkS (phased Phase.learn (fun x =>
      { x with turn := some turn9 })) 0 [(0, 98), (16, 9)], 0, 0, desc [(0, 98), (16, 9)], tkC (phased Phase.learn (fun x =>
      { x with turn := some turn9 })) 0 [(0, 98), (16, 9)], ⟨by decide, rfl⟩, by decide, by decide⟩,
    ⟨hostS (phased Phase.rollout) [(0, 104), (18, 5), (20, 1)], tkS (phased Phase.rollout) 0 [(0, 104), (18, 5), (20, 1)], 0, 0, desc [(0, 104), (18,
      5), (20, 1)], tkC (phased Phase.rollout) 0 [(0, 104), (18, 5), (20, 1)], ⟨by decide, rfl⟩, by decide, by decide⟩,
    ⟨hostS (phased Phase.learn) [(0, 105), (18, 5), (20, 1)], tkS (phased Phase.learn) 0 [(0, 105), (18, 5), (20, 1)], 0, 0, desc [(0, 105), (18, 5),
      (20, 1)], tkC (phased Phase.learn) 0 [(0, 105), (18, 5), (20, 1)], ⟨by decide, rfl⟩, by decide, by decide⟩⟩

/-- Hypotheses of SequencerCommands are met: seqSubmit, seqCancel, kvEdit, rolloutStepBoundary, rolloutStepLaunch. -/
theorem witness_SequencerCommands :
    -- seqSubmit
    (∃ (s : State) (s1 : State) (fn : Nat) (ring : Nat) (d : BitVec 512) (c : Cmd), starts s fn ring d ⟨0x50, pfOrVf fn (dField d 16 16), dField d 16
      16, s.partDefined (dField d 16 16) && s.holds (dField d 16 16) (dField d 17 17) && decide (1 ≤ dField d 19 18) && decide (dField d 19 18 ≤ 1024)
      && dZero d 23 20 && dZero d 63 32, false⟩ c s1 ∧ (s.popSlot fn ring).fget .turnPhase (dField d 16 16) = Phase.rollout) ∧
    -- seqCancel
    (∃ (s : State) (s1 : State) (fn : Nat) (ring : Nat) (d : BitVec 512) (c : Cmd) (b : Nat) (q : Seq), starts s fn ring d ⟨0x51, pfOrVf fn (dField d
      16 16), dField d 16 16, s.partDefined (dField d 16 16) && dZero d 19 17 && dZero d 63 24, false⟩ c s1 ∧ s1.bayOfSeq (c.arg 16 16) (c.arg 23 20)
      = some b ∧ ((s1.bay b).live ++ (s1.bay b).queue).find? (fun q => q.id == c.arg 23 20) = some q) ∧
    -- kvEdit
    (∃ (s : State) (s1 : State) (fn : Nat) (ring : Nat) (d : BitVec 512) (c : Cmd) (b : Nat) (q : Seq), starts s fn ring d ⟨0x52, pfOrVf fn (dField d
      16 16), dField d 16 16, s.partDefined (dField d 16 16) && decide (dField d 17 17 ≤ 1) && dZero d 19 18 && dZero d 63 28 && decide (1 ≤ dField d
      27 24) && decide (dField d 27 24 ≤ s.maxContext (dField d 16 16) (dField d 23 20)), false⟩ c s1 ∧ s1.liveSeq (c.arg 16 16) (c.arg 23 20) = some
      (b, q) ∧ (((s1.bay b).stepping = true → (s1.bay b).edits.length < 256))) ∧
    -- rolloutStepBoundary
    (∃ (s : State) (b : Nat) (p : Nat), s.partOfBay b = some p ∧ s.rolloutTiles b = [] ∧ s.rolloutWords b = false ∧ s.replayWaits p b = false ∧ s.safe
      = false ∧ s.fget .fcPartContained p ≠ 1) ∧
    -- rolloutStepLaunch
    (∃ (s : State) (b : Nat) (p : Nat), s.partOfBay b = some p ∧ s.fget .turnPhase p = Phase.rollout ∧ s.replayWaits p b = false ∧ (s.bay b).stepping
      = false ∧ (s.bay b).groupWait = [] ∧ s.fget .seqBarrier b ≠ 1 ∧ s.workHeld p = false ∧ s.lockstepHolds p b = false ∧ s.seqHeld p b = false ∧
      s.outRingOk b = true ∧ (¬ ((launchChoice s p b).2.es = [] ∧ s.fget .seqLockstep b = 0)) ∧ (launchChoice s p b).1.recordRoom p b (launchChoice s
      p b).2 = true) :=
  ⟨
    ⟨hostS (phased Phase.rollout) [(0, 80), (18, 1), (24, 4096)], tkS (phased Phase.rollout) 0 [(0, 80), (18, 1), (24, 4096)], 0, 0, desc [(0, 80),
      (18, 1), (24, 4096)], tkC (phased Phase.rollout) 0 [(0, 80), (18, 1), (24, 4096)], ⟨by decide, rfl⟩, by decide⟩,
    ⟨hostS ({ phased Phase.rollout with bays := [(0, some { Bay.reset with live := [seq9] })] }) [(0, 81), (20, 9)], tkS
      ({ phased Phase.rollout with bays := [(0, some { Bay.reset with live := [seq9] })] }) 0 [(0, 81), (20, 9)], 0, 0, desc [(0, 81), (20, 9)], tkC
      ({ phased Phase.rollout with bays := [(0, some { Bay.reset with live := [seq9] })] }) 0 [(0, 81), (20, 9)], 0, seq9, ⟨by decide, rfl⟩, by
      decide, by decide⟩,
    ⟨hostS ({ phased Phase.rollout with bays := [(0, some { Bay.reset with live := [seq9] })] }) [(0, 82), (20, 9), (24, 1)], tkS
      ({ phased Phase.rollout with bays := [(0, some { Bay.reset with live := [seq9] })] }) 0 [(0, 82), (20, 9), (24, 1)], 0, 0, desc [(0, 82), (20,
      9), (24, 1)], tkC ({ phased Phase.rollout with bays := [(0, some { Bay.reset with live := [seq9] })] }) 0 [(0, 82), (20, 9), (24, 1)], 0, seq9,
      ⟨by decide, rfl⟩, by decide, by decide⟩,
    ⟨base, 0, 0, by decide, by decide, by decide, by decide, by decide, by decide⟩,
    ⟨(((((({ base (fun x => { x with cfg := { cfg with regions := [{ idx := 0, kind := 0, use := 6, base := 2 ^ 33, size := 2 ^ 32 }, { idx := 1, kind := 0, use := 10, base := 0, size := 2 ^ 30 }] } }) with pending := [] }
      : State).fset .turnPhase 0 Phase.rollout).fset .kvLayers 0 4).fset .seqBarrier 0 0).fset .seqAreaSize 0 256).fset .seqOutSize 0 (2 ^ 23)).fset
      .seqLockstep 0 1, 0, 0, by decide, by decide, by decide, by decide, by decide, by decide, by decide, by decide, by decide, by decide, by decide,
      by decide⟩⟩

/-- Hypotheses of LearnCommands are met: learnStep, batchPut, stepEnd. -/
theorem witness_LearnCommands :
    -- learnStep
    (∃ (s : State) (s1 : State) (fn : Nat) (ring : Nat) (d : BitVec 512) (c : Cmd), starts s fn ring d ⟨0x11, pfOrVf fn (dField d 16 16), dField d 16
      16, s.partDefined (dField d 16 16) && dZero d 23 17 && dZero d 63 48, false⟩ c s1 ∧ (s.popSlot fn ring).learnRefusal (dField d 16 16) (s.popSlot
      fn ring).nextCmd = 0 ∧ s1.learnWaits c = false ∧ s1.learnRefusal c.part c.id = 0) ∧
    -- batchPut
    (∃ (s : State) (s1 : State) (s2 : State) (fn : Nat) (ring : Nat) (d : BitVec 512) (c : Cmd) (bs : List Byte), starts s fn ring d ⟨0x67, pfOrVf fn
      (dField d 16 16), dField d 16 16, s.partDefined (dField d 16 16) && decide (dField d 18 18 < 4) && dZero d 19 19 && dZero d 23 22 && dZero d 63
      36 && decide (64 ≤ dField d 35 32) && decide (dField d 35 32 ≤ 2 ^ 22), false⟩ c s1 ∧ (bitOf (dField d 18 18) 1 && (s.popSlot fn ring).pfBarred
      fn (dField d 16 16)) = false ∧ reads s1 s2 c (bitOf (c.arg 18 18) 1) (c.arg 31 24) (c.arg 35 32) bs) ∧
    -- stepEnd
    (∃ (s : State) (s1 : State) (p : Nat) (st : LearnStep), s1 = s.dropNorm p ∧ (s.part p).step.isSome = true ∧ s1.learnOver p = true ∧ (s1.part
      p).step = some st) :=
  ⟨
    ⟨hostS (phased Phase.learn) [(0, 17)], tkS (phased Phase.learn) 0 [(0, 17)], 0, 0, desc [(0, 17)], tkC (phased Phase.learn) 0 [(0, 17)], ⟨by
      decide, rfl⟩, by decide, by decide, by decide⟩,
    ⟨hostS base [(0, 103), (18, 2), (24, 4096), (32, 64)], tkS base 0 [(0, 103), (18, 2), (24, 4096), (32, 64)], ((tkS base 0 [(0, 103), (18, 2), (24,
      4096), (32, 64)]).hostTake (tkC base 0 [(0, 103), (18, 2), (24, 4096), (32, 64)]) 4096 64).2.2, 0, 0, desc [(0, 103), (18, 2), (24, 4096), (32,
      64)], tkC base 0 [(0, 103), (18, 2), (24, 4096), (32, 64)], ((tkS base 0 [(0, 103), (18, 2), (24, 4096), (32, 64)]).hostTake (tkC base 0 [(0,
      103), (18, 2), (24, 4096), (32, 64)]) 4096 64).1, ⟨by decide, rfl⟩, by decide, (.inl ⟨rfl, rfl⟩)⟩,
    ⟨base (fun x => { x with step := some { cmd := 7, stepNo := 1, seed := 0, status := 0, detail := 0, reds := [], exps := [] } }), ((base (fun x =>
      { x with step := some { cmd := 7, stepNo := 1, seed := 0, status := 0, detail := 0, reds := [], exps := [] } })).dropNorm 0), 0,
      { cmd := 7, stepNo := 1, seed := 0, status := 0, detail := 0, reds := [], exps := [] }, rfl, by decide, by decide, by decide⟩⟩

/-- Hypotheses of KettleRuns are met: kettleResume, kettleAbandon, kettleBadLane, kettleRunStart, kettleBlockCommit block, kettleBlockCommit write,
kettleBlockCommit close, kettleWaitTimeout. -/
theorem witness_KettleRuns :
    -- kettleResume
    (∃ (s : State) (s1 : State) (fn : Nat) (ring : Nat) (d : BitVec 512) (c : Cmd), starts s fn ring d (s.journalSpec fn 0x78 d) c s1 ∧ (s.popSlot fn
      ring).resumeRefusal d = 0 ∧ s1.resumeRefusal c.desc = 0) ∧
    -- kettleAbandon
    (∃ (s : State) (s1 : State) (fn : Nat) (ring : Nat) (d : BitVec 512) (c : Cmd), starts s fn ring d (s.journalSpec fn 0x79 d) c s1 ∧ (s.popSlot fn
      ring).dropRefusal d = 0 ∧ s1.dropRefusal c.desc = 0) ∧
    -- kettleBadLane
    (∃ (s : State) (s1 : State) (st : Nat) (l : Nat) (k : KSlot) (w : Nat), kettleTakes s s1 st 3 k w ∧ (s.kettle st).badLane = some l) ∧
    -- kettleRunStart
    (∃ (s : State) (st : Nat) (n : Nat) (rest : List Nat) (k : KSlot), st < 12 ∧ (s.kettle st).why ≠ 0 ∧ s.fget .ketState st < 3 ∧ (s.kettle st).todo
      = n :: rest ∧ s.kslot st n = some k ∧ ((kprog k.prog).sweep && s.updateOpen st) = false ∧ (((s.fset .ketSlot st k.slot).fget .ketState st ≠ 2 →
      (kprog k.prog).startCount ≤ (s.fset .ketSlot st k.slot).fget .ketKE (16 * st + (kprog k.prog).startEv)))) ∧
    -- kettleBlockCommit block
    (∃ (s : State) (st : Nat) (k : KSlot), st < 12 ∧ s.kslot st (s.fget .ketJslot st) = some k ∧ s.fget .ketState st = 3 ∧ min (kprog k.prog).groups
      ((s.fget .ketCommitted st + 1) * kgroups k.prog) ≤ (s.kettle st).group) ∧
    -- kettleBlockCommit write
    (∃ (s : State) (st : Nat) (k : KSlot) (s1 : State), st < 12 ∧ s.kslot st (s.fget .ketJslot st) = some k ∧ s.fget .ketState st = 4 ∧ ((s.kettle
      st).undo.any (fun u => u.block == s.fget .ketCommitted st)) = false ∧ s.openFinal st k (s.fget .ketCommitted st - kblocks k.prog) = .inl s1) ∧
    -- kettleBlockCommit close
    (∃ (s : State) (st : Nat) (k : KSlot), st < 12 ∧ s.kslot st (s.fget .ketJslot st) = some k ∧ s.fget .ketState st = 4 ∧ ((s.kettle st).undo.any
      (fun u => u.block == s.fget .ketCommitted st)) = true) ∧
    -- kettleWaitTimeout
    (∃ (s : State) (st : Nat), st < 12 ∧ ((s.fget .ketState st = 1 ∨ s.fget .ketState st = 2))) :=
  ⟨
    ⟨hostS (((base (fun x => { x with cfg := { cfg with kslots := [kslot0] } })).fset .ketJstate 0 2).fset .ketJdigest 0 (kdigest [])) [(0, 120), (18,
      1)], tkS (((base (fun x => { x with cfg := { cfg with kslots := [kslot0] } })).fset .ketJstate 0 2).fset .ketJdigest 0 (kdigest [])) 0 [(0,
      120), (18, 1)], 0, 0, desc [(0, 120), (18, 1)], tkC (((base (fun x => { x with cfg := { cfg with kslots := [kslot0] } })).fset .ketJstate 0
      2).fset .ketJdigest 0 (kdigest [])) 0 [(0, 120), (18, 1)], ⟨by decide, rfl⟩, by decide, by decide⟩,
    ⟨hostS (base.fset .ketJstate 0 2) [(0, 121), (18, 1)], tkS (base.fset .ketJstate 0 2) 0 [(0, 121), (18, 1)], 0, 0, desc [(0, 121), (18, 1)], tkC
      (base.fset .ketJstate 0 2) 0 [(0, 121), (18, 1)], ⟨by decide, rfl⟩, by decide, by decide⟩,
    ⟨kettleS (slotOp 3 2 0 0 0) 3 (fun x => { x with badLane := some 1 }), ((kettleS (slotOp 3 2 0 0 0) 3 (fun x =>
      { x with badLane := some 1 })).openBlock 0 (slotOp 3 2 0 0 0) 0).getD State.reset, 0, 1, slotOp 3 2 0 0 0, kinstr (kprog1 3 2 0 0 0) 0, ⟨by
      decide, by decide, by decide, rfl⟩, by decide⟩,
    ⟨(kettleS (slotOp 0 2 0 0 0) 1 (fun x => { x with todo := [0] })), 0, 0, [], slotOp 0 2 0 0 0, by decide, by decide, by decide, by decide, by
      decide, by decide, (fun _ => by decide)⟩,
    ⟨kettleS (slotOp 0 2 0 0 0) 3 (fun x => { x with group := 1 }), 0, slotOp 0 2 0 0 0, by decide, by decide, by decide, by decide⟩,
    ⟨(kettleS (slotOp 0 2 0 0 0) 4).fset .ketCommitted 0 1, 0, slotOp 0 2 0 0 0, leftOf (((kettleS (slotOp 0 2 0 0 0) 4).fset .ketCommitted 0
      1).openFinal 0 (slotOp 0 2 0 0 0) 0), by decide, by decide, by decide, by decide, rfl⟩,
    ⟨(undone (slotOp 0 2 0 0 0) 4).fset .ketCommitted 0 0, 0, slotOp 0 2 0 0 0, by decide, by decide, by decide, by decide⟩,
    ⟨kettleS (slotOp 0 2 0 0 0) 1, 0, by decide, by decide⟩⟩

/-- Hypotheses of SecurityCommands are met: attestReport, authChallenge, tamper, recoveryChunk, recoveryGo. -/
theorem witness_SecurityCommands :
    -- attestReport
    (∃ (s : State) (s1 : State) (fn : Nat) (ring : Nat) (d : BitVec 512) (c : Cmd), starts s fn ring d ⟨0x80, pfOrVf fn (dField d 16 16), dField d 16
      16, (dField d 16 16 == 0xFF || s.partDefined (dField d 16 16)) && dZero d 23 17, false⟩ c s1 ∧ (s.popSlot fn ring).sec.identity = true ∧ Tab.get
      false s1.err.vault 12 = false) ∧
    -- authChallenge
    (∃ (s : State) (s1 : State) (fn : Nat) (ring : Nat) (d : BitVec 512) (c : Cmd), starts s fn ring d ⟨0x84, fn == 0, 0xFF, dZero d 23 16 && dZero d
      63 32, false⟩ c s1) ∧
    -- tamper
    (∃ (s : State) (cause : Nat), cause < 5 ∧ s.pwr.powered = true) ∧
    -- recoveryChunk
    (∃ (s : State) (k : Nat) (data : List Byte), s.fget .secStage 0 = 2 ∧ k < 64) ∧
    -- recoveryGo
    (∃ (s : State), s.fget .secStage 0 = 2 ∧ s.fget .pwrSag 0 ≠ 1) :=
  ⟨
    ⟨hostS ({ base with sec := { State.reset.sec with identity := true } }) [(0, 128), (16, 255), (24, 4096)], tkS
      ({ base with sec := { State.reset.sec with identity := true } }) 0xFF [(0, 128), (16, 255), (24, 4096)], 0, 0, desc [(0, 128), (16, 255), (24,
      4096)], tkC ({ base with sec := { State.reset.sec with identity := true } }) 0xFF [(0, 128), (16, 255), (24, 4096)], ⟨by decide, rfl⟩, by
      decide, by decide⟩,
    ⟨hostS base [(0, 132), (24, 4096)], tkS base 0xFF [(0, 132), (24, 4096)], 0, 0, desc [(0, 132), (24, 4096)], tkC base 0xFF [(0, 132), (24, 4096)],
      ⟨by decide, rfl⟩⟩,
    ⟨live, 4, by decide, by decide⟩,
    ⟨base.fset .secStage 0 2, 63, [], by decide, by decide⟩,
    ⟨base.fset .secStage 0 2, by decide, by decide⟩⟩

/-- Where the signature verifies, the hypotheses of lcAdvance are met. -/
theorem witness_lcAdvance (sig : Config.ecdsaVerify (Config.fused Fused.skovariKey) ((block 1 2 7).take 128) (((block 1 2 7).drop 128).take 64) = true) :
  ∃ (s : State) (s1 : State) (fn : Nat) (ring : Nat) (d : BitVec 512) (c : Cmd) (customer : Bool) (hasKey : Bool), starts s fn ring d ⟨0x83, fn == 0,
    0xFF, dZero d 23 17 && dZero d 63 32, false⟩ c s1 ∧ (s.popSlot fn ring).fget .pwrSag 0 ≠ 1 ∧ lcRow (s1.fget .secLcState 0) (c.arg 16 16) = some
    (customer, hasKey) ∧ s1.authOk 1 (c.arg 16 16) (s1.signer customer) (s1.hostRead (c.arg 31 24) 192) = true ∧ (authKey (s1.hostRead (c.arg 31 24)
    192)).any (fun b => b != 0) = hasKey ∧ (hasKey && s1.useChallenge.sec.bank0.isSome && s1.useChallenge.sec.bank1.isSome) = false :=
  ⟨hostS (authS 1 2 7) [(0, 131), (16, 2), (24, 4096)], tkS (authS 1 2 7) 0xFF [(0, 131), (16, 2), (24, 4096)], 0, 0, desc [(0, 131), (16, 2), (24,
    4096)], tkC (authS 1 2 7) 0xFF [(0, 131), (16, 2), (24, 4096)], false, true, ⟨by decide, rfl⟩, by decide, by decide,
    (by rw [show State.hostRead _ _ _ = block 1 2 7 from by decide]; exact authOk_of _ _ _ _ _ (by decide) sig), by decide, by decide⟩

/-- Where the signature verifies, the hypotheses of debugUnlock are met. -/
theorem witness_debugUnlock (sig : Config.ecdsaVerify (Config.fused Fused.skovariKey) ((block 2 1 0).take 128) (((block 2 1 0).drop 128).take 64) = true) :
  ∃ (s : State) (s1 : State) (fn : Nat) (ring : Nat) (d : BitVec 512) (c : Cmd) (customer : Bool), starts s fn ring d ⟨0x85, fn == 0, 0xFF, dZero d 23
    17 && dZero d 63 32, false⟩ c s1 ∧ s1.debugRow (c.arg 16 16) = some customer ∧ s1.authOk 2 (c.arg 16 16) (s1.signer customer) (s1.hostRead (c.arg
    31 24) 192) = true :=
  ⟨hostS (authS 2 1 0) [(0, 133), (16, 1), (24, 4096)], tkS (authS 2 1 0) 0xFF [(0, 133), (16, 1), (24, 4096)], 0, 0, desc [(0, 133), (16, 1), (24,
    4096)], tkC (authS 2 1 0) 0xFF [(0, 133), (16, 1), (24, 4096)], false, ⟨by decide, rfl⟩, by decide,
    (by rw [show State.hostRead _ _ _ = block 2 1 0 from by decide]; exact authOk_of _ _ _ _ _ (by decide) sig)⟩

/-- Where the signature verifies, the hypotheses of fwUpdate are met. -/
theorem witness_fwUpdate (sig : Config.ecdsaVerify (Config.fused Fused.firmwareKey) (firmware.take 128) ((firmware.drop 128).take 64) = true) :
  ∃ (s : State) (s1 : State) (fn : Nat) (ring : Nat) (d : BitVec 512) (c : Cmd), starts s fn ring d ⟨0x82, fn == 0, 0xFF, dZero d 23 16 && dZero d 63
    36, false⟩ c s1 ∧ (s.popSlot fn ring).fget .pwrSag 0 ≠ 1 ∧ (s.popSlot fn ring).cmds.any (fun c => decide (c.part < 12)) = false ∧ fwCheck (s1.fget
    .secFwSvn 0) (s1.hostRead (c.arg 31 24) (c.arg 35 32)) = 0 :=
  ⟨hostS (base.hostWrite 4096 firmware) [(0, 130), (24, 4096), (32, 256)], tkS (base.hostWrite 4096 firmware) 0xFF [(0, 130), (24, 4096), (32, 256)],
    0, 0, desc [(0, 130), (24, 4096), (32, 256)], tkC (base.hostWrite 4096 firmware) 0xFF [(0, 130), (24, 4096), (32, 256)], ⟨by decide, rfl⟩, by
    decide, by decide, (by rw [show State.hostRead _ _ _ = firmware from by decide]; exact fwCheck_of _ _ (by decide) sig (by decide) (by decide))⟩

/-- Hypotheses of CollectorCommands are met: faultRelease partition, faultRelease device, faultInject, faultInject collector, fcAck, fcAckAll,
graceExpiry, quietExpiry, faultPulseEnd. -/
theorem witness_CollectorCommands :
    -- faultRelease partition
    (∃ (s : State) (s1 : State) (fn : Nat) (ring : Nat) (d : BitVec 512) (c : Cmd), starts s fn ring d ⟨0x91, fn == 0, dField d 16 16, (decide (dField
      d 16 16 < 12) || dField d 16 16 == 0xFF) && dZero d 63 17, false⟩ c s1 ∧ c.arg 16 16 < 12 ∧ (s1.isHeld (c.arg 16 16) || s1.fget .fcPartContained
      (c.arg 16 16) == 1) = true) ∧
    -- faultRelease device
    (∃ (s : State) (s1 : State) (fn : Nat) (ring : Nat) (d : BitVec 512) (c : Cmd), starts s fn ring d ⟨0x91, fn == 0, dField d 16 16, (decide (dField
      d 16 16 < 12) || dField d 16 16 == 0xFF) && dZero d 63 17, false⟩ c s1 ∧ c.arg 16 16 = 0xFF ∧ s1.isHeld 12 = true) ∧
    -- faultInject
    (∃ (s : State) (s1 : State) (fn : Nat) (ring : Nat) (d : BitVec 512) (c : Cmd), starts s fn ring d ⟨0x92, fn == 0, 0xFF, sourceNamed (dField d 17
      16) && dField d 17 16 != Source.tamper && s.instanceOk (dField d 18 18) (dField d 19 19) && dZero d 63 20, false⟩ c s1) ∧
    -- faultInject collector
    (∃ (s : State) (s1 : State) (fn : Nat) (ring : Nat) (d : BitVec 512) (c : Cmd), starts s fn ring d ⟨0x92, fn == 0, 0xFF, sourceNamed (dField d 17
      16) && dField d 17 16 != Source.tamper && s.instanceOk (dField d 18 18) (dField d 19 19) && dZero d 63 20, false⟩ c s1) ∧
    -- fcAck
    (∃ (s : State) (seq : Nat) (i : Nat), s.slotOf seq = some i) ∧
    -- fcAckAll
    (∃ (s : State) (v : Nat), bitOf v 0 = true) ∧
    -- graceExpiry
    (∃ (s : State) (seq : Nat) (g : Grace), s.fc.timers.find? (fun g => g.seq == seq) = some g) ∧
    -- quietExpiry
    (∃ (s : State) (scope : Nat), s.fc.quiet.contains scope = true ∧ s.isHeld scope = false ∧ s.stillRaised scope = false ∧ ((scope = 12 →
      s.fc.byTamper = false ∧ s.fc.byParity = false))) ∧
    -- faultPulseEnd
    (∃ (s : State), s.fc.pulse = true) :=
  ⟨
    ⟨hostS (base.fset .fcPartContained 0 1) [(0, 145)], tkS (base.fset .fcPartContained 0 1) 0 [(0, 145)], 0, 0, desc [(0, 145)], tkC (base.fset
      .fcPartContained 0 1) 0 [(0, 145)], ⟨by decide, rfl⟩, by decide, by decide⟩,
    ⟨hostS (base.fset .fcHeld 0 1) [(0, 145), (16, 255)], tkS (base.fset .fcHeld 0 1) 0xFF [(0, 145), (16, 255)], 0, 0, desc [(0, 145), (16, 255)],
      tkC (base.fset .fcHeld 0 1) 0xFF [(0, 145), (16, 255)], ⟨by decide, rfl⟩, by decide, by decide⟩,
    ⟨hostS base [(0, 146), (16, Source.leak), (18, 0)], tkS base 0xFF [(0, 146), (16, Source.leak), (18, 0)], 0, 0, desc [(0, 146), (16, Source.leak),
      (18, 0)], tkC base 0xFF [(0, 146), (16, Source.leak), (18, 0)], ⟨by decide, rfl⟩⟩,
    ⟨hostS base [(0, 146), (16, Source.collectorParity)], tkS base 0xFF [(0, 146), (16, Source.collectorParity)], 0, 0, desc [(0, 146), (16,
      Source.collectorParity)], tkC base 0xFF [(0, 146), (16, Source.collectorParity)], ⟨by decide, rfl⟩⟩,
    ⟨{ base with fc := { State.reset.fc with log := [(2, { seq := 1, source := Source.leak, severity := 1, orig := 1, acked := false, escalated := false, kind := Kind.chip, part := 0xFF, inst := 0, repeats := 0, info := 0, time := 0 })] } },
      1, 2, by decide⟩,
    ⟨base, 1, by decide⟩,
    ⟨{ base with fc := { State.reset.fc with timers := [timer 2] } }, 3, timer 2, by decide⟩,
    ⟨{ base with fc := { State.reset.fc with quiet := [12] } }, 12, by decide, by decide, by decide, by decide⟩,
    ⟨{ base with fc := { State.reset.fc with pulse := true } }, by decide⟩⟩

/-- Hypotheses of ReplayCommands are met: replayRun, replayArm, replayDisarm. -/
theorem witness_ReplayCommands :
    -- replayRun
    (∃ (s : State) (s1 : State) (fn : Nat) (ring : Nat) (d : BitVec 512) (c : Cmd) (g : Staged) (bs : List Byte) (start : List Byte) (rest : List (Nat
      × Nat × Nat × List Byte)) (fl : Nat) (n : Nat), starts s fn ring d ⟨0x90, fn == 0, dField d 16 16, s.partDefined (dField d 16 16) && decide
      (dField d 17 17 < 2) && dZero d 23 18 && dZero d 63 48 && (s.image (dField d 47 40)).isSome, false⟩ c s1 ∧ (s.popSlot fn ring).confidential
      (dField d 16 16) = false ∧ s1.image (c.arg 47 40) = some g ∧ (((s1.applyRefusal g c.part 0 true).1 = 0 ∨ (s1.applyRefusal g c.part 0 true).1 =
      Status.badEpoch)) ∧ ((bitOf (c.arg 17 17) 0 = true ∧ bs = s1.hostRead (c.arg 31 24) (c.arg 39 32) ∨ bitOf (c.arg 17 17) 0 = false ∧ s1.dataFault
      c.part (c.arg 31 24) (c.arg 39 32) = none ∧ bs = s1.partRead c.part (c.arg 31 24) (c.arg 39 32))) ∧ replayRecords (bs.length / 64) bs = (1, fl,
      n, start) :: rest ∧ start.take 32 = g.digest) ∧
    -- replayArm
    (∃ (s : State) (p : Nat), s.regsOpen false = true ∧ p < 12) ∧
    -- replayDisarm
    (∃ (s : State) (p : Nat), s.regsOpen false = true ∧ p < 12) :=
  ⟨
    ⟨hostS ({ (base.hostWrite 4096 capture0) with images := [staged] }) [(0, 144), (17, 1), (24, 4096), (32, 64), (40, 1)], tkS
      ({ (base.hostWrite 4096 capture0) with images := [staged] }) 0 [(0, 144), (17, 1), (24, 4096), (32, 64), (40, 1)], 0, 0, desc [(0, 144), (17,
      1), (24, 4096), (32, 64), (40, 1)], tkC ({ (base.hostWrite 4096 capture0) with images := [staged] }) 0 [(0, 144), (17, 1), (24, 4096), (32, 64),
      (40, 1)], staged, capture0, sha256 [], [], 0, 0, ⟨by decide, rfl⟩, by decide, by decide, (.inr (by decide)), (.inl ⟨by decide, by decide⟩), by
      decide, by decide⟩,
    ⟨live, 11, by decide, by decide⟩,
    ⟨live, 11, by decide, by decide⟩⟩

/-- Hypotheses of KettleInstructions are met: kettleNop, kettleLd, kettleArith, kettleSt skips, kettleSt writes. -/
theorem witness_KettleInstructions :
    -- kettleNop
    (∃ (s : State) (s1 : State) (st : Nat) (k : KSlot) (w : Nat), kettleTakes s s1 st 0 k w) ∧
    -- kettleLd
    (∃ (s : State) (s1 : State) (st : Nat) (k : KSlot) (w : Nat), kettleTakes s s1 st 1 k w ∧ s1.badRange (kspan s st k w).1 (kspan s st k w).2 =
      false) ∧
    -- kettleArith
    (∀ op ∈ [3, 4, 5, 6, 7, 8, 9, 10, 11, 12, 13], kettleTakes (kettleS (slotOp op 2 0 0 0) 3) (undone (slotOp op 2 0 0 0) 3) 0 op (slotOp op 2 0 0 0)
      (kinstr (kprog1 op 2 0 0 0) 0) ∧ ((kettleS (slotOp op 2 0 0 0) 3).kettle 0).badLane = none) ∧
    -- kettleSt skips
    (∃ (s : State) (s1 : State) (st : Nat) (k : KSlot) (w : Nat), kettleTakes s s1 st 2 k w ∧ (s1.decays st k ((kprog k.prog).expert (kgroup s st
      k).1) && (kiS w == 1 || kiS w == 2 || decide (8 ≤ kiS w))) = true) ∧
    -- kettleSt writes
    (∃ (s : State) (s1 : State) (st : Nat) (k : KSlot) (w : Nat), kettleTakes s s1 st 2 k w ∧ (s1.decays st k ((kprog k.prog).expert (kgroup s st
      k).1) && (kiS w == 1 || kiS w == 2 || decide (8 ≤ kiS w))) = false ∧ s1.badEdge (kstData s st k w) (packElems (kbind k.prog (kiS w)).fmt 0
      ((kstConv s s1 st k w).map Conv.code)).length = false ∧ (fmtScaled (kbind k.prog (kiS w)).fmt && s1.badEdge (kstPlane s st k w) (kstScales s s1
      st k w).length) = false) :=
  ⟨
    ⟨kettleS (slotOp 0 2 0 0 0) 3, undone (slotOp 0 2 0 0 0) 3, 0, slotOp 0 2 0 0 0, kinstr (kprog1 0 2 0 0 0) 0, ⟨by decide, by decide, by decide,
      rfl⟩⟩,
    ⟨kettleS (slotOp 1 2 0 0 0) 3, undone (slotOp 1 2 0 0 0) 3, 0, slotOp 1 2 0 0 0, kinstr (kprog1 1 2 0 0 0) 0, ⟨by decide, by decide, by decide,
      rfl⟩, by decide⟩,
    by decide +kernel,
    ⟨kettleS (slotOp 2147483650 2 0 0 1) 3, undone (slotOp 2147483650 2 0 0 1) 3, 0, slotOp 2147483650 2 0 0 1, kinstr (slotOp 2147483650 2 0 0
      1).prog 0, ⟨by decide, by decide, by decide, rfl⟩, by decide⟩,
    ⟨kettleS (slotOp 2 2 0 0 0) 3, undone (slotOp 2 2 0 0 0) 3, 0, slotOp 2 2 0 0 0, kinstr (slotOp 2 2 0 0 0).prog 0, ⟨by decide, by decide, by
      decide, rfl⟩, by decide, by decide, by decide⟩⟩

/-- Hypotheses of BuddyMessages are met: buddyStream, buddyTrailerConfirm, buddyConfirmTimeout, buddyStreamTimeout, remoteLoadRequest,
remoteLoadTimeout, mgmtMessage, replayRecordMessage. -/
theorem witness_BuddyMessages :
    -- buddyStream
    (∃ (s : State) (s1 : State) (p : Nat) (m : Msg) (b : Buddy), hear s p m Vc.broadcast Ty.stream ∧ m.op = MsgOp.buddy ∧ s1 = s.captureMsg p m ∧
      m.seg ≠ 0 ∧ (s1.part p).buddy = some b ∧ b.src = m.src ∧ b.comm = m.comm ∧ b.rank = m.rank ∧ b.step = m.args.getD 0 0 ∧ b.data.length = segBytes
      * m.seg ∧ b.discard = false) ∧
    -- buddyTrailerConfirm
    (∃ (s : State) (s1 : State) (p : Nat) (m : Msg) (f : Flash), hear s p m Vc.broadcast Ty.stream ∧ m.op = MsgOp.buddyConfirm ∧ s1 = s.captureMsg p m
      ∧ (s1.part p).flash = some f ∧ f.kind = 0 ∧ f.comm = m.comm ∧ m.args.headD 0 = f.step) ∧
    -- buddyConfirmTimeout
    (∃ (s : State) (p : Nat) (f : Flash), (s.part p).flash = some f ∧ f.kind = 0 ∧ f.stage = 5) ∧
    -- buddyStreamTimeout
    (∃ (s : State) (p : Nat) (b : Buddy), (s.part p).buddy = some b ∧ b.whole = false) ∧
    -- remoteLoadRequest
    (∃ (s : State) (s1 : State) (p : Nat) (m : Msg) (slot : Nat), hear s p m Vc.broadcast Ty.stream ∧ m.op = MsgOp.loadRequest ∧ s1 = s.captureMsg p m
      ∧ s1.slotOfStep p (m.args.getD 2 0) (m.args.getD 1 0) = some slot ∧ leField (s1.trailer p slot) 19 18 = m.comm ∧ leField (s1.trailer p slot) 23
      20 = m.args.getD 0 0) ∧
    -- remoteLoadTimeout
    (∃ (s : State) (p : Nat) (f : Flash), (s.part p).flash = some f ∧ f.kind = 1) ∧
    -- mgmtMessage
    (∃ (s : State) (p : Nat) (m : Msg), hear s p m Vc.management Ty.mgmt) ∧
    -- replayRecordMessage
    (∃ (s : State) (s1 : State) (p : Nat) (m : Msg) (r : Region) (units : Nat) (need : Nat) (head : Nat) (pad : Nat) (used : Nat), hear s p m
      Vc.replay Ty.data ∧ s.fget .rplTarget p = 3 ∧ s1 = s.captureMsg p m ∧ ((s1.part p).cfg.regionsOf 1 8).head? = some r ∧ units = r.size / 64 ∧
      units ≠ 0 ∧ need = ceilDiv m.data.length 64 ∧ head = s1.fget .rplHead p ∧ pad = (if head + need ≤ units then 0 else units - head) ∧ used = (head
      + units - s1.fget .rplTail p) % units) :=
  ⟨
    ⟨base (fun x => { x with buddy := some ({ buddy false with data := List.replicate segBytes 0 }) }), ((base (fun x =>
      { x with buddy := some ({ buddy false with data := List.replicate segBytes 0 }) })).captureMsg 0
      { msg Vc.broadcast Ty.stream MsgOp.buddy with seg := 1, args := [1, 0] }), 0,
      { msg Vc.broadcast Ty.stream MsgOp.buddy with seg := 1, args := [1, 0] }, { buddy false with data := List.replicate segBytes 0 }, by decide, by
      decide, rfl, by decide, rfl, by decide, by decide, by decide, by decide, List.length_replicate, by decide⟩,
    ⟨flashS (flash 0 5), ((flashS (flash 0 5)).captureMsg 0 { msg Vc.broadcast Ty.stream MsgOp.buddyConfirm with args := [1] }), 0,
      { msg Vc.broadcast Ty.stream MsgOp.buddyConfirm with args := [1] }, flash 0 5, by decide, by decide, rfl, by decide, by decide, by decide, by
      decide⟩,
    ⟨flashS (flash 0 5), 0, flash 0 5, by decide, by decide, by decide⟩,
    ⟨base (fun x => { x with buddy := some (buddy false) }), 0, buddy false, by decide, by decide⟩,
    ⟨slotS, (slotS.captureMsg 0 { msg Vc.broadcast Ty.stream MsgOp.loadRequest with args := [1, 1, 0] }), 0,
      { msg Vc.broadcast Ty.stream MsgOp.loadRequest with args := [1, 1, 0] }, 0, by decide, by decide, rfl, by decide, by decide, by decide⟩,
    ⟨flashS (flash 1 2), 0, flash 1 2, by decide, by decide⟩,
    ⟨base, 0, msg Vc.management Ty.mgmt 0, by decide⟩,
    ⟨(base (fun x => { x with cfg := { cfg with regions := [region 1 8 (lpBase 0)] } })).fset .rplTarget 0 3, (((base (fun x =>
      { x with cfg := { cfg with regions := [region 1 8 (lpBase 0)] } })).fset .rplTarget 0 3).captureMsg 0 (msg Vc.replay Ty.data 0 (leBytes 64 0))),
      0, msg Vc.replay Ty.data 0 (leBytes 64 0), region 1 8 (lpBase 0), 64, 1, 0, 0, 0, by decide, by decide, rfl, by decide, rfl, by decide, rfl,
      rfl, rfl, rfl⟩⟩

/-- Hypotheses of RepairEvents are met: patrolScrub, bankRowRepair, accLineRepair, hbmRowRepair, lpddrRowRepair, spareTakeover, tileUnmapped,
bayRetired. -/
theorem witness_RepairEvents :
    -- patrolScrub
    (∃ (s : State) (t : Nat) (bank : Nat), s.mapped t = true ∧ bank < 64) ∧
    -- bankRowRepair
    (∃ (s : State) (t : Nat) (bank : Nat) (row : Nat), s.mapped t = true ∧ bank < 64 ∧ row < 768 ∧ s.bayBoundary (t / 8) = true ∧ 4 ≤ Tab.get 0
      (s.tile t).rowErrs (768 * bank + row)) ∧
    -- accLineRepair
    (∃ (s : State) (t : Nat) (line : Nat), s.mapped t = true ∧ s.bayBoundary (t / 8) = true ∧ 4 ≤ Tab.get 0 (s.tile t).lineErrs line) ∧
    -- hbmRowRepair
    (∃ (s : State) (st : Nat) (row : Nat), st < 12 ∧ s.fget .bayRetired st ≠ 1 ∧ s.bayBoundary st = true ∧ 4 ≤ Tab.get 0 s.err.hbmRows (2 ^ 32 * st +
      row)) ∧
    -- lpddrRowRepair
    (∃ (s : State) (b : Nat) (row : Nat), b < 12 ∧ s.fget .bayRetired b ≠ 1 ∧ s.bayBoundary b = true) ∧
    -- spareTakeover
    (∃ (s : State) (t : Nat), s.mapped t = true ∧ (s.tile t).retire = true ∧ s.fget .baySpareUsed (t / 8) = 0 ∧ s.fget .bayDegraded (t / 8) = 0 ∧
      s.bayBoundary (t / 8) = true) ∧
    -- tileUnmapped
    (∃ (s : State) (t : Nat), s.mapped t = true ∧ (s.tile t).retire = true ∧ s.fget .baySpareUsed (t / 8) = 1 ∧ s.fget .bayDegraded (t / 8) = 0 ∧
      s.bayBoundary (t / 8) = true) ∧
    -- bayRetired
    (∃ (s : State) (b : Nat), b < 12 ∧ s.fget .bayRetired b = 0 ∧ s.bayBoundary b = true) :=
  ⟨
    ⟨base, 0, 63, by decide, by decide⟩,
    ⟨{ base with tiles := [(0, some { Tile.reset with rowErrs := [(768 * 63 + 767, 4)] })] }, 0, 63, 767, by decide, by decide, by decide, by decide,
      by decide⟩,
    ⟨{ base with tiles := [(0, some { Tile.reset with lineErrs := [(5, 4)] })] }, 0, 5, by decide, by decide, by decide⟩,
    ⟨{ base with err := { Errors.none with hbmRows := [(3, 4)] } }, 0, 3, by decide, by decide, by decide, by decide⟩,
    ⟨base, 11, 3, by decide, by decide, by decide⟩,
    ⟨{ base with tiles := [(0, some { Tile.reset with retire := true })] }, 0, by decide, by decide, by decide, by decide, by decide⟩,
    ⟨({ base with tiles := [(0, some { Tile.reset with retire := true })] } : State).fset .baySpareUsed 0 1, 0, by decide, by decide, by decide, by
      decide, by decide⟩,
    ⟨base, 11, by decide, by decide, by decide⟩⟩

/-- Hypotheses of LinkEvents are met: flitReceive badCrc, flitReceive accepted, flitReceive outOfOrder, laneFailed, restripeComplete,
partnerTraining, linkUp, linkTrainFail, linkTrainRetry, creditStall, linkDown, retrain. -/
theorem witness_LinkEvents :
    -- flitReceive badCrc
    (∃ (s : State) (s0 : State) (s1 : State) (s2 : State) (q : Nat) (n : Nat) (f : BitVec 2048), q < 24 ∧ s.fget .linkState q = 2 ∧ s.standby = false
      ∧ s.free1 = (n, s0) ∧ s1 = s0.finc .linkFecCorrected q n ∧ ((flitCrcOk f = false ∧ s2 = s1.crcFails q ∨ flitCrcOk f = true ∧ (s1.linkFields q
      f).fget .linkState q ≠ 2 ∧ s2 = s1.linkFields q f ∨ flitCrcOk f = true ∧ (s1.linkFields q f).fget .linkState q = 2 ∧ flitTy f ≠ 0 ∧ flitSeq f ≠
      ((s1.linkFields q f).port q).rxSeq ∧ s2 = s1.linkFields q f ∨ flitCrcOk f = true ∧ (s1.linkFields q f).fget .linkState q = 2 ∧ (flitTy f = 0 ∨
      flitSeq f = ((s1.linkFields q f).port q).rxSeq) ∧ s2 = State.pump 512 (if flitLegal f = false then (s1.linkFields q f).badFlit q f else if
      flitTy f = 0 then s1.linkFields q f else (s1.linkFields q f).acceptFlit q f) q))) ∧
    -- flitReceive accepted
    (∃ (s : State) (s0 : State) (s1 : State) (s2 : State) (q : Nat) (n : Nat) (f : BitVec 2048), q < 24 ∧ s.fget .linkState q = 2 ∧ s.standby = false
      ∧ s.free1 = (n, s0) ∧ s1 = s0.finc .linkFecCorrected q n ∧ ((flitCrcOk f = false ∧ s2 = s1.crcFails q ∨ flitCrcOk f = true ∧ (s1.linkFields q
      f).fget .linkState q ≠ 2 ∧ s2 = s1.linkFields q f ∨ flitCrcOk f = true ∧ (s1.linkFields q f).fget .linkState q = 2 ∧ flitTy f ≠ 0 ∧ flitSeq f ≠
      ((s1.linkFields q f).port q).rxSeq ∧ s2 = s1.linkFields q f ∨ flitCrcOk f = true ∧ (s1.linkFields q f).fget .linkState q = 2 ∧ (flitTy f = 0 ∨
      flitSeq f = ((s1.linkFields q f).port q).rxSeq) ∧ s2 = State.pump 512 (if flitLegal f = false then (s1.linkFields q f).badFlit q f else if
      flitTy f = 0 then s1.linkFields q f else (s1.linkFields q f).acceptFlit q f) q))) ∧
    -- flitReceive outOfOrder
    (∃ (s : State) (s0 : State) (s1 : State) (s2 : State) (q : Nat) (n : Nat) (f : BitVec 2048), q < 24 ∧ s.fget .linkState q = 2 ∧ s.standby = false
      ∧ s.free1 = (n, s0) ∧ s1 = s0.finc .linkFecCorrected q n ∧ ((flitCrcOk f = false ∧ s2 = s1.crcFails q ∨ flitCrcOk f = true ∧ (s1.linkFields q
      f).fget .linkState q ≠ 2 ∧ s2 = s1.linkFields q f ∨ flitCrcOk f = true ∧ (s1.linkFields q f).fget .linkState q = 2 ∧ flitTy f ≠ 0 ∧ flitSeq f ≠
      ((s1.linkFields q f).port q).rxSeq ∧ s2 = s1.linkFields q f ∨ flitCrcOk f = true ∧ (s1.linkFields q f).fget .linkState q = 2 ∧ (flitTy f = 0 ∨
      flitSeq f = ((s1.linkFields q f).port q).rxSeq) ∧ s2 = State.pump 512 (if flitLegal f = false then (s1.linkFields q f).badFlit q f else if
      flitTy f = 0 then s1.linkFields q f else (s1.linkFields q f).acceptFlit q f) q))) ∧
    -- laneFailed
    (∃ (s : State) (q : Nat) (lane : Nat), q < 24 ∧ lane < 5 ∧ s.fget .linkState q = 2 ∧ bitOf (s.fget .linkLanesFailed q) lane = false) ∧
    -- restripeComplete
    (∃ (s : State) (q : Nat), s.fget .linkState q = 2 ∧ (s.port q).restriping = true) ∧
    -- partnerTraining
    (∃ (s : State) (q : Nat), s.portOn q = true ∧ ((s.fget .linkState q = 1 ∨ s.fget .linkState q = 2))) ∧
    -- linkUp
    (∃ (s : State) (q : Nat) (pid : Nat) (pport : Nat) (credits : List Nat), s.portOn q = true ∧ s.fget .linkState q = 1 ∧ (s.port q).pausing = false) ∧
    -- linkTrainFail
    (∃ (s : State) (q : Nat), s.portOn q = true ∧ s.fget .linkState q = 1 ∧ (s.port q).pausing = false) ∧
    -- linkTrainRetry
    (∃ (s : State) (q : Nat), s.portOn q = true ∧ s.fget .linkState q = 1 ∧ (s.port q).pausing = true) ∧
    -- creditStall
    (∃ (s : State) (s1 : State) (q : Nat) (vc : Nat) (n : Nat), ((s.fget .linkState q = 1 ∨ s.fget .linkState q = 2)) ∧ (s.port q).queue.any (fun e =>
      flitVc e.1 == vc) = true ∧ Tab.get 0 (s.port q).credit vc = 0 ∧ s.free1 = (n, s1)) ∧
    -- linkDown
    (∃ (s : State) (q : Nat), s.portOn q = true ∧ ((s.fget .linkState q = 1 ∨ s.fget .linkState q = 2))) ∧
    -- retrain
    (∃ (s : State) (q : Nat), s.portOn q = true ∧ s.fget .linkState q ≠ 0) :=
  ⟨
    ⟨portS 2, (((portS 2)).free1).2, ((((portS 2)).free1).2.finc .linkFecCorrected 0 (((portS 2)).free1).1), (((((portS 2)).free1).2.finc
      .linkFecCorrected 0 (((portS 2)).free1).1).crcFails 0), 0, (((portS 2)).free1).1, (1 : BitVec 2048), by decide, by decide, by decide, rfl, rfl,
      (.inl ⟨by decide +kernel, rfl⟩)⟩,
    ⟨portS 2, (((portS 2)).free1).2, ((((portS 2)).free1).2.finc .linkFecCorrected 0 (((portS 2)).free1).1), (State.pump 512 (if flitLegal (flit 0 0
      0) = false then (((((portS 2)).free1).2.finc .linkFecCorrected 0 (((portS 2)).free1).1).linkFields 0 (flit 0 0 0)).badFlit 0 (flit 0 0 0) else
      if flitTy (flit 0 0 0) = 0 then ((((portS 2)).free1).2.finc .linkFecCorrected 0 (((portS 2)).free1).1).linkFields 0 (flit 0 0 0) else (((((portS
      2)).free1).2.finc .linkFecCorrected 0 (((portS 2)).free1).1).linkFields 0 (flit 0 0 0)).acceptFlit 0 (flit 0 0 0)) 0), 0, (((portS 2)).free1).1,
      (flit 0 0 0), by decide, by decide, by decide, rfl, rfl, (.inr (.inr (.inr ⟨by decide +kernel, linkState_fields _ _ _ _ (by decide +kernel),
      .inl (by decide +kernel), rfl⟩)))⟩,
    ⟨portS 2, (((portS 2)).free1).2, ((((portS 2)).free1).2.finc .linkFecCorrected 0 (((portS 2)).free1).1), (((((portS 2)).free1).2.finc
      .linkFecCorrected 0 (((portS 2)).free1).1).linkFields 0 (flit 1 3 0)), 0, (((portS 2)).free1).1, (flit 1 3 0), by decide, by decide, by decide,
      rfl, rfl, (.inr (.inr (.inl ⟨by decide +kernel, linkState_fields _ _ _ _ (by decide +kernel), by decide +kernel, by decide +kernel, rfl⟩)))⟩,
    ⟨portS 2, 0, 4, by decide, by decide, by decide, by decide⟩,
    ⟨portS 2 (fun x => { x with restriping := true }), 0, by decide, by decide⟩,
    ⟨portS 1, 0, by decide, by decide⟩,
    ⟨portS 1, 0, 2, 3, [8, 8, 8, 8, 8, 8, 8, 8], by decide, by decide, by decide⟩,
    ⟨portS 1, 0, by decide, by decide, by decide⟩,
    ⟨portS 1 (fun x => { x with pausing := true }), 0, by decide, by decide, by decide⟩,
    ⟨portS 2 (fun x => { x with queue := [(flit 0 0 0, 0)] }), ((portS 2 (fun x => { x with queue := [(flit 0 0 0, 0)] })).free1).2, 0, 5, ((portS 2
      (fun x => { x with queue := [(flit 0 0 0, 0)] })).free1).1, by decide, (by decide +kernel), by decide, rfl⟩,
    ⟨portS 2, 0, by decide, by decide⟩,
    ⟨portS 3, 0, by decide, by decide⟩⟩

/-- Hypotheses of RegisterWrites are met: ringEnable sq, ringEnable cq, doorbellWrite, cqHeadWrite, coalesceTimeout, quiesceWrite on, quiesceWrite
off, numFlagsClear, kvCtrlWrite, seqAreaWrite, flashNsWrite, registerWrite msix, registerWrite bell, registerWrite block. -/
theorem witness_RegisterWrites :
    -- ringEnable sq
    (∃ (s : State) (fn : Nat) (ring : Nat), s.ringOpen fn ring = true ∧ s.wake.fget .sqEnable (ringIdx fn ring) ≠ 1) ∧
    -- ringEnable cq
    (∃ (s : State) (fn : Nat) (ring : Nat), s.ringOpen fn ring = true ∧ s.wake.fget .cqEnable (ringIdx fn ring) ≠ 1) ∧
    -- doorbellWrite
    (∃ (s : State) (fn : Nat) (ring : Nat) (v : Nat), s.ringOpen fn ring = true) ∧
    -- cqHeadWrite
    (∃ (s : State) (fn : Nat) (ring : Nat) (v : Nat), s.ringOpen fn ring = true) ∧
    -- coalesceTimeout
    (∃ (s : State) (fn : Nat) (ring : Nat), fn ≤ 12 ∧ ring < ringCount fn ∧ (s.ring (ringIdx fn ring)).pending ≠ 0 ∧ s.fget .cqCoalUs (ringIdx fn
      ring) ≠ 0) ∧
    -- quiesceWrite on
    (∃ (s : State) (p : Nat) (v : Nat), p < 12 ∧ s.blkOpen 0 Blk.part = true ∧ v % 2 = 1 ∧ s.wake.fget .partQuiesce p ≠ 1) ∧
    -- quiesceWrite off
    (∃ (s : State) (p : Nat) (v : Nat), p < 12 ∧ s.blkOpen 0 Blk.part = true ∧ v % 2 = 0) ∧
    -- numFlagsClear
    (∃ (s : State) (t : Nat) (v : Nat), s.blkOpen 0 Blk.num = true ∧ s.blkLive Blk.num t = true) ∧
    -- kvCtrlWrite
    (∃ (s : State) (fn : Nat) (b : Nat) (v : Nat) (p : Nat), s.bayOpen fn b Blk.kv = true ∧ 1 ≤ bitsOf v 8 0 ∧ bitsOf v 8 0 ≤ 256 ∧ bitsOf v 11 9 ≤ 4
      ∧ s.wake.partOfBay b = some p ∧ s.wake.stepRuns p = false ∧ (s.wake.baysOf p).any (fun b => !(s.wake.bay b).seqs.isEmpty) = false) ∧
    -- seqAreaWrite
    (∃ (s : State) (fn : Nat) (b : Nat) (area : Nat) (size : Nat) (p : Nat), s.bayOpen fn b Blk.seq = true ∧ s.wake.partOfBay b = some p ∧
      (s.wake.part p).cfg.areaOk b area size = true) ∧
    -- flashNsWrite
    (∃ (s : State) (p : Nat) (base : Nat) (size : Nat) (slot : Nat), p < 12 ∧ s.blkOpen 0 Blk.flash = true) ∧
    -- registerWrite msix
    (∃ (s : State) (fn : Nat) (a : Nat) (v : Nat), fn ≤ 12 ∧ a % 4 = 0 ∧ msixBase fn ≤ a ∧ a < msixBase fn + 16 * vectorCount fn ∧ s.ringsOpen fn =
      true) ∧
    -- registerWrite bell
    (∃ (s : State) (fn : Nat) (a : Nat) (v : Nat), fn ≤ 12 ∧ a % 4 = 0 ∧ (¬ (msixBase fn ≤ a ∧ a < msixBase fn + 16 * vectorCount fn)) ∧ bellBase fn ≤
      a ∧ a < bellBase fn + 8 * ringCount fn ∧ a % 8 = 0 ∧ s.ringsOpen fn = true) ∧
    -- registerWrite block
    (∃ (s : State) (fn : Nat) (a : Nat) (v : Nat) (k : Blk) (i : Nat) (o : Nat), fn ≤ 12 ∧ a % 4 = 0 ∧ (¬ (msixBase fn ≤ a ∧ a < msixBase fn + 16 *
      vectorCount fn)) ∧ (¬ (bellBase fn ≤ a ∧ a < bellBase fn + 8 * ringCount fn)) ∧ s.blkAt fn a = some (k, i, o) ∧ (if k = Blk.ring then
      s.ringsOpen fn else s.blkOpen fn k) = true ∧ s.blkLive k i = true) :=
  ⟨
    ⟨live, 0, 0, by decide, by decide⟩,
    ⟨live, 0, 0, by decide, by decide⟩,
    ⟨live, 0, 7, 1, by decide⟩,
    ⟨live, 0, 7, 1, by decide⟩,
    ⟨({ live with rings := [(0, some { Ring.reset with pending := 1 })] } : State).fset .cqCoalUs 0 1, 0, 0, by decide, by decide, by decide, by
      decide⟩,
    ⟨live, 11, 1, by decide, by decide, by decide, by decide⟩,
    ⟨live, 11, 0, by decide, by decide, by decide⟩,
    ⟨live, 95, 1, by decide, by decide⟩,
    ⟨live, 0, 1, 256, 0, by decide, by decide, by decide, by decide, by decide, by decide, by decide⟩,
    ⟨{ live (fun x => { x with cfg := { cfg with regions := [{ idx := 1, kind := 0, use := 10, base := 0, size := 2 ^ 30 }] } }) with pending := [] },
      0, 0, 0, 256, 0, by decide, by decide, by decide⟩,
    ⟨live, 11, 0, 8, 1, by decide, by decide⟩,
    ⟨live, 0, msixBase 0, 1, by decide, by decide, by decide, by decide, by decide⟩,
    ⟨live, 0, bellBase 0, 1, by decide, by decide, by decide, by decide, by decide, by decide, by decide⟩,
    ⟨live, 0, 0, 1, Blk.host, 0, 0, by decide, by decide, by decide, by decide, by decide, by decide, by decide⟩⟩

/-- Hypotheses of ModuleEvents are met: vfEnable, vfDisable, warmReset, perstNRelease, modulePowerOn, powerDown low, powerDown high, idleEntry. -/
theorem witness_ModuleEvents :
    -- vfEnable
    (∃ (s : State) (n : Nat), s.fget .secStage 0 ≠ 2) ∧
    -- vfDisable
    (∃ (s : State) (vf : Nat), 1 ≤ vf ∧ vf ≤ 12 ∧ s.fnUp vf = true ∧ (s.part (vf - 1)).drain.any (fun d => d.why == 1) = false) ∧
    -- warmReset
    (∃ (s : State) (external : Bool), s.pwr.powered = true ∧ s.pwr.perst = false) ∧
    -- perstNRelease
    (∃ (s : State), s.pwr.powered = true ∧ s.pwr.perst = true) ∧
    -- modulePowerOn
    (∃ (s : State) (straps : Nat), s.pwr.powered = false) ∧
    -- powerDown low
    (∃ (s : State) (v : Nat), s.pwr.powered = true ∧ ((v < 3800 ∨ 6050 < v))) ∧
    -- powerDown high
    (∃ (s : State) (v : Nat), s.pwr.powered = true ∧ ((v < 3800 ∨ 6050 < v))) ∧
    -- idleEntry
    (∃ (s : State), s.fget .secStage 0 = 3 ∧ s.safe = false ∧ s.quiescent = true) :=
  ⟨
    ⟨live, 12, by decide⟩,
    ⟨{ live with vfUp := vfMask 12 }, 12, by decide, by decide, by decide, by decide⟩,
    ⟨{ live with pwr := { State.reset.pwr with powered := true, perst := false } }, true, by decide, by decide⟩,
    ⟨{ live with pwr := { State.reset.pwr with powered := true, perst := true } }, by decide, by decide⟩,
    ⟨{ live with pwr := { State.reset.pwr with powered := false } }, 3, by decide⟩,
    ⟨live, 3799, by decide, by decide⟩,
    ⟨live, 6051, by decide, by decide⟩,
    ⟨live, by decide, by decide, by decide⟩⟩

/-- Hypotheses of PowerEvents are met: powerCapAdjust, powerPeakLimit watts, powerPeakLimit amps, thermalThrottle junction, thermalThrottle stack,
limit105, thermalTrip junction, thermalTrip stack, hbmRefreshDouble, temperatureRecovered, supplySag, sagEnd, supplyUnder, supplyUnderEnd. -/
theorem witness_PowerEvents_1 :
    -- powerCapAdjust
    (∃ (s : State) (mean : Nat), s.pwr.powered = true) ∧
    -- powerPeakLimit watts
    (∃ (s : State) (watts : Nat) (centiamps : Nat), s.pwr.powered = true ∧ ((4000 < watts ∨ 10000 < centiamps))) ∧
    -- powerPeakLimit amps
    (∃ (s : State) (watts : Nat) (centiamps : Nat), s.pwr.powered = true ∧ ((4000 < watts ∨ 10000 < centiamps))) ∧
    -- thermalThrottle junction
    (∃ (s : State) (c : Nat), s.pwr.powered = true ∧ 95 ≤ c ∧ s.pwr.hot95 = false) ∧
    -- thermalThrottle stack
    (∃ (s : State) (c : Nat) (st : Nat), s.pwr.powered = true ∧ 95 ≤ c ∧ st < 12 ∧ bitOf s.pwr.stackHot st = false) ∧
    -- limit105
    (∃ (s : State) (c : Nat), s.pwr.powered = true ∧ 105 ≤ c ∧ s.pwr.hot105 = false) ∧
    -- thermalTrip junction
    (∃ (s : State) (c : Nat), s.pwr.powered = true ∧ 115 ≤ c) ∧
    -- thermalTrip stack
    (∃ (s : State) (c : Nat) (st : Nat), s.pwr.powered = true ∧ st < 12 ∧ 105 ≤ c) ∧
    -- hbmRefreshDouble
    (∃ (s : State) (st : Nat) (c : Nat), s.pwr.powered = true ∧ 85 ≤ c ∧ st < 12 ∧ bitOf s.pwr.refresh2 st = false) ∧
    -- temperatureRecovered
    (∃ (s : State) (c : Nat), s.pwr.powered = true) ∧
    -- supplySag
    (∃ (s : State) (v : Nat), s.pwr.powered = true ∧ s.fget .pwrSag 0 ≠ 1) ∧
    -- sagEnd
    (∃ (s : State) (v : Nat), s.fget .pwrSag 0 = 1 ∧ 4400 < v) ∧
    -- supplyUnder
    (∃ (s : State) (v : Nat), s.pwr.powered = true ∧ v < 4000) ∧
    -- supplyUnderEnd
    (∃ (s : State) (v : Nat), s.pwr.powered = true ∧ 4000 ≤ v) :=
  ⟨
    ⟨live, 3900, by decide⟩,
    ⟨live, 4001, 0, by decide, by decide⟩,
    ⟨live, 0, 10001, by decide, by decide⟩,
    ⟨live, 95, by decide, by decide, by decide⟩,
    ⟨live, 95, 11, by decide, by decide, by decide, by decide⟩,
    ⟨live, 105, by decide, by decide, by decide⟩,
    ⟨live, 115, by decide, by decide⟩,
    ⟨live, 105, 11, by decide, by decide, by decide⟩,
    ⟨live, 11, 85, by decide, by decide, by decide, by decide⟩,
    ⟨live, 93, by decide⟩,
    ⟨live, 4300, by decide, by decide⟩,
    ⟨live.fset .pwrSag 0 1, 4401, by decide, by decide⟩,
    ⟨live, 3999, by decide, by decide⟩,
    ⟨live, 4000, by decide, by decide⟩⟩

/-- Hypotheses of PowerEvents are met: leak, leakCleared, pllUnlock, pllLockRegained. -/
theorem witness_PowerEvents_2 :
    -- leak
    (∃ (s : State), s.pwr.powered = true) ∧
    -- leakCleared
    (∃ (s : State), s.pwr.powered = true) ∧
    -- pllUnlock
    (∃ (s : State) (n : Nat) (f : Fld), pllField n = some f ∧ s.fget f 0 = 1) ∧
    -- pllLockRegained
    (∃ (s : State) (n : Nat) (f : Fld), pllField n = some f ∧ s.fc.lasting.contains (Source.pllUnlock, n) = true) :=
  ⟨
    ⟨live, by decide⟩,
    ⟨live, by decide⟩,
    ⟨live.fset .clkLockTx 0 1, 2, Fld.clkLockTx, by decide, by decide⟩,
    ⟨{ live with fc := { State.reset.fc with lasting := [(Source.pllUnlock, 2)] } }, 2, Fld.clkLockTx, by decide, by decide⟩⟩

/-- Hypotheses of SpdmRequests are met: getVersion, getCapabilities, negotiateAlgorithms, getDigests, getCertificate, challenge, getMeasurements,
keyExchange, finish, keyUpdate, endSession. -/
theorem witness_SpdmRequests :
    -- getVersion
    (∃ (s : State) (fn : Nat) (req : List Byte), spdmTaken s fn 0) ∧
    -- getCapabilities
    (∃ (s : State) (fn : Nat) (req : List Byte), spdmTaken s fn 1) ∧
    -- negotiateAlgorithms
    (∃ (s : State) (fn : Nat) (req : List Byte), spdmTaken s fn 2) ∧
    -- getDigests
    (∃ (s : State) (fn : Nat) (req : List Byte), spdmTaken s fn 3) ∧
    -- getCertificate
    (∃ (s : State) (fn : Nat) (req : List Byte), spdmTaken s fn 3) ∧
    -- challenge
    (∃ (s : State) (fn : Nat) (req : List Byte), spdmTaken s fn 3 ∧ s.sec.identity = true) ∧
    -- getMeasurements
    (∃ (s : State) (fn : Nat) (req : List Byte), spdmTaken s fn 3 ∧ ((s.sec.identity = true ∨ bitOf (leField req 2 2) 0 = false))) ∧
    -- keyExchange
    (∃ (s : State) (fn : Nat) (req : List Byte), spdmTaken s fn 3 ∧ fn ≠ 0 ∧ s.sec.identity = true ∧ (s.part (fn - 1)).session.stage = 0 ∧ s.cmds.any
      (fun c => c.part == fn - 1 || c.fn == fn) = false) ∧
    -- finish
    (∃ (s : State) (fn : Nat) (req : List Byte), spdmTaken s fn 3 ∧ fn ≠ 0 ∧ (s.part (fn - 1)).session.stage = 1) ∧
    -- keyUpdate
    (∃ (s : State) (fn : Nat) (req : List Byte), spdmTaken s fn 3 ∧ fn ≠ 0 ∧ (s.part (fn - 1)).session.stage = 2) ∧
    -- endSession
    (∃ (s : State) (fn : Nat) (req : List Byte), spdmTaken s fn 3 ∧ fn ≠ 0 ∧ (s.part (fn - 1)).session.stage ≠ 0) :=
  ⟨
    ⟨{ live (fun x => { x with session := { Session.none with stage := 0 } }) with vfUp := vfMask 12, sec := { State.reset.sec with spdm := [(0, 3)], identity := true } },
      0, [], by decide⟩,
    ⟨{ live (fun x => { x with session := { Session.none with stage := 0 } }) with vfUp := vfMask 12, sec := { State.reset.sec with spdm := [(0, 3)], identity := true } },
      0, [], by decide⟩,
    ⟨{ live (fun x => { x with session := { Session.none with stage := 0 } }) with vfUp := vfMask 12, sec := { State.reset.sec with spdm := [(0, 3)], identity := true } },
      0, [], by decide⟩,
    ⟨{ live (fun x => { x with session := { Session.none with stage := 0 } }) with vfUp := vfMask 12, sec := { State.reset.sec with spdm := [(0, 3)], identity := true } },
      0, [], by decide⟩,
    ⟨{ live (fun x => { x with session := { Session.none with stage := 0 } }) with vfUp := vfMask 12, sec := { State.reset.sec with spdm := [(0, 3)], identity := true } },
      0, [], by decide⟩,
    ⟨{ live (fun x => { x with session := { Session.none with stage := 0 } }) with vfUp := vfMask 12, sec := { State.reset.sec with spdm := [(0, 3)], identity := true } },
      0, [], by decide, by decide⟩,
    ⟨{ live (fun x => { x with session := { Session.none with stage := 0 } }) with vfUp := vfMask 12, sec := { State.reset.sec with spdm := [(0, 3)], identity := true } },
      0, [], by decide, by decide⟩,
    ⟨{ live (fun x => { x with session := { Session.none with stage := 0 } }) with vfUp := vfMask 12, sec := { State.reset.sec with spdm := [(1, 3)], identity := true } },
      1, [], by decide, by decide, by decide, by decide, by decide⟩,
    ⟨{ live (fun x => { x with session := { Session.none with stage := 1 } }) with vfUp := vfMask 12, sec := { State.reset.sec with spdm := [(1, 3)], identity := true } },
      1, [], by decide, by decide, by decide⟩,
    ⟨{ live (fun x => { x with session := { Session.none with stage := 2 } }) with vfUp := vfMask 12, sec := { State.reset.sec with spdm := [(1, 3)], identity := true } },
      1, [], by decide, by decide, by decide⟩,
    ⟨{ live (fun x => { x with session := { Session.none with stage := 2 } }) with vfUp := vfMask 12, sec := { State.reset.sec with spdm := [(1, 3)], identity := true } },
      1, [], by decide, by decide, by decide⟩⟩

/-- Hypotheses of ManagementRequests are met: sensorUpdate, mctpControlMessage, pldmBaseRequest, pldmPlatformRequest, pldmFruRequest. -/
theorem witness_ManagementRequests :
    -- sensorUpdate
    (∃ (s : State) (n : Nat) (v : Nat), s.pwr.powered = true ∧ 1 ≤ n ∧ n ≤ 23) ∧
    -- mctpControlMessage
    (∃ (s : State) (req : List Byte), s.pwr.powered = true) ∧
    -- pldmBaseRequest
    (∃ (s : State) (req : List Byte), s.pwr.powered = true) ∧
    -- pldmPlatformRequest
    (∃ (s : State) (req : List Byte), s.pwr.powered = true) ∧
    -- pldmFruRequest
    (∃ (s : State) (req : List Byte), s.pwr.powered = true) :=
  ⟨
    ⟨live, 23, 7, by decide, by decide, by decide⟩,
    ⟨live, [], by decide⟩,
    ⟨live, [], by decide⟩,
    ⟨live, [], by decide⟩,
    ⟨live, [], by decide⟩⟩

/-- Hypotheses of IdleTicks are met: IdleTicks. -/
theorem witness_IdleTicks :
  ∃ s : State, s.pending = [] :=
  ⟨base, rfl⟩

/-- Hypotheses of QueueStands are met: QueueStands. -/
theorem witness_QueueStands :
  ∃ (c : Instr) (s t : State), exec c s = .next t :=
  ⟨.ctlNop 0, onTile (wordOf 0 0 0 []), _, rfl⟩

/-- Hypotheses of StepKeepsForm are met: StepKeepsForm. -/
theorem witness_StepKeepsForm :
  ∃ s t : State, s.Canon ∧ s.FieldsFit ∧ step s = .next t :=
  ⟨State.reset, after (step State.reset), ⟨(by unfold State.memWf; decide), by decide, by decide, by decide, by decide, by decide, by decide, by
    decide, by decide, by decide, by decide⟩, fun _ _ _ h => (by cases h), answers_eq _ (by decide)⟩

/-- Hypotheses of RegisterFields are met: RegisterFields. -/
theorem witness_RegisterFields :
  ∃ (f g : Fld) (i j : Nat), g ≠ f ∨ j ≠ i :=
  ⟨.pwrCap, .pwrDuty, 0, 0, .inl (by decide)⟩

/-- Hypotheses of ScalarRegisters are met: ScalarRegisters. -/
theorem witness_ScalarRegisters :
  ∃ r q : Nat, r ≠ 0 ∧ q ≠ r :=
  ⟨31, 30, by decide, by decide⟩

/-- Hypotheses of DeviceMemory are met: DeviceMemory. -/
theorem witness_DeviceMemory :
  ∃ (s : State) (a x : Nat) (bs : List Byte), s.badEdge a bs.length = false ∧ a ≤ x ∧ x < a + bs.length :=
  ⟨base, 64, 65, [1, 2], by decide, by decide, by decide⟩

/-- Hypotheses of LittleEndian are met: LittleEndian. -/
theorem witness_LittleEndian :
  ∃ n i : Nat, i < n :=
  ⟨8, 7, by decide⟩

/-- Hypotheses of IntegerFormats are met: IntegerFormats. -/
theorem witness_IntegerFormats :
  ∃ x y z : Nat, x < 256 ∧ y < 16 ∧ z < 2 ^ 32 ∧ 2 ^ 31 ≤ z :=
  ⟨255, 15, 2 ^ 32 - 1, by decide, by decide, by decide, by decide⟩

/-- Hypotheses of EventCounters are met: EventCounters counts, EventCounters stops. -/
theorem witness_EventCounters :
    -- EventCounters counts
    (∃ (s : State) (t ev n : Nat), ev < 64 ∧ s.fget .ev (64 * t + ev) + n < 2 ^ 32) ∧
    -- EventCounters stops
    (∃ (s : State) (t ev n : Nat), ev < 64 ∧ 2 ^ 32 ≤ s.fget .ev (64 * t + ev) + n) :=
  ⟨
    ⟨base, 95, 63, 2 ^ 32 - 1, by decide, by decide⟩,
    ⟨base.fset .ev (64 * 95 + 63) (2 ^ 32 - 1), 95, 63, 1, by decide, by decide⟩⟩

/-- Hypotheses of RefusedCommand are met: RefusedCommand early, RefusedCommand later. -/
theorem witness_RefusedCommand :
    -- RefusedCommand early
    (∃ (s : State) (fn ring op : Nat) (spec : State → BitVec 512 → Spec) (later : State → BitVec 512 → Nat) (d : BitVec 512), s.fetchable fn ring =
      true ∧ s.slotDesc fn ring = some d ∧ dField d 0 0 = op ∧ s.stalled (spec s d) = false ∧ (s.popSlot fn ring).refusal fn d (spec s d) ≠ 0) ∧
    -- RefusedCommand later
    (∃ (s : State) (fn ring op : Nat) (spec : State → BitVec 512 → Spec) (later : State → BitVec 512 → Nat) (d : BitVec 512), s.fetchable fn ring =
      true ∧ s.slotDesc fn ring = some d ∧ dField d 0 0 = op ∧ s.stalled (spec s d) = false ∧ (s.popSlot fn ring).refusal fn d (spec s d) = 0 ∧ later
      (s.popSlot fn ring) d ≠ 0) :=
  ⟨
    ⟨hostS base [(16, 1)], 0, 0, 0, fun _ d => ⟨0x00, true, 0xFF, dZero d 63 16, true⟩, fun _ _ => Status.busy, desc [(16, 1)], by decide, by decide,
      by decide, by decide, by decide⟩,
    ⟨hostS base [], 0, 0, 0, fun _ d => ⟨0x00, true, 0xFF, dZero d 63 16, true⟩, fun _ _ => Status.busy, desc [], by decide, by decide, by decide, by
      decide, by decide, by decide⟩⟩

/-- Hypotheses of TurnOnlyFromPf are met: TurnOnlyFromPf 60, TurnOnlyFromPf 61, TurnOnlyFromPf 62. -/
theorem witness_TurnOnlyFromPf :
    -- TurnOnlyFromPf 60
    (∃ (s : State) (fn ring : Nat) (d : BitVec 512), fn ≠ 0 ∧ s.fetchable fn ring = true ∧ s.slotDesc fn ring = some d ∧ (dField d 20 20 < 12 → s.fget
      .rplState (dField d 20 20) ≠ 2) ∧ (s.popSlot fn ring).safe = false ∧ dField d 1 1 < 4 ∧ dZero d 7 2 = true ∧ dField d 0 0 = 0x60) ∧
    -- TurnOnlyFromPf 61
    (∃ (s : State) (fn ring : Nat) (d : BitVec 512), fn ≠ 0 ∧ s.fetchable fn ring = true ∧ s.slotDesc fn ring = some d ∧ (dField d 20 20 < 12 → s.fget
      .rplState (dField d 20 20) ≠ 2) ∧ (s.popSlot fn ring).safe = false ∧ dField d 1 1 < 4 ∧ dZero d 7 2 = true ∧ dField d 0 0 = 0x61) ∧
    -- TurnOnlyFromPf 62
    (∃ (s : State) (fn ring : Nat) (d : BitVec 512), fn ≠ 0 ∧ s.fetchable fn ring = true ∧ s.slotDesc fn ring = some d ∧ (dField d 20 20 < 12 → s.fget
      .rplState (dField d 20 20) ≠ 2) ∧ (s.popSlot fn ring).safe = false ∧ dField d 1 1 < 4 ∧ dZero d 7 2 = true ∧ dField d 0 0 = 0x62) :=
  ⟨
    ⟨vfS [(0, 0x60)], 1, 0, desc [(0, 0x60)], by decide, by decide, by decide, by decide, by decide, by decide, by decide, by decide⟩,
    ⟨vfS [(0, 0x61)], 1, 0, desc [(0, 0x61)], by decide, by decide, by decide, by decide, by decide, by decide, by decide, by decide⟩,
    ⟨vfS [(0, 0x62)], 1, 0, desc [(0, 0x62)], by decide, by decide, by decide, by decide, by decide, by decide, by decide, by decide⟩⟩

/-- Hypotheses of AbandonTooLate are met: AbandonTooLate. -/
theorem witness_AbandonTooLate :
  ∃ (s : State) (fn ring : Nat) (d : BitVec 512) (t : Turn), s.fetchable fn ring = true ∧ s.slotDesc fn ring = some d ∧ dField d 0 0 = 0x62 ∧
    s.stalled (s.turnSpec fn 0x62 d (dZero d 63 21)) = false ∧ (s.popSlot fn ring).refusal fn d (s.turnSpec fn 0x62 d (dZero d 63 21)) = 0 ∧
    ((s.popSlot fn ring).part (dField d 20 20)).turn = some t ∧ (s.popSlot fn ring).fget .turnPhase (dField d 20 20) ≠ Phase.halted ∧ t.abandon = 0 ∧
    dField d 19 16 = t.turnId ∧ 6 ≤ (s.popSlot fn ring).fget .turnStep (dField d 20 20) :=
  ⟨hostS ((phased Phase.turnOut (fun x => { x with turn := some turn9 })).fset .turnStep 0 6) [(0, 0x62), (16, 9)], 0, 0, desc [(0, 0x62), (16, 9)],
    turn9, by decide, by decide, by decide, by decide, by decide, by decide, by decide, by decide, by decide, by decide⟩

/-- Hypotheses of IllegalWord are met: IllegalWord class, IllegalWord op, IllegalWord format, IllegalWord reserved, IllegalWord mod. -/
theorem witness_IllegalWord :
    -- IllegalWord class
    (∃ (s : State) (t cls op w : Nat) (fmtOk : Nat → Bool) (uses : Nat → List (Nat × Nat)), s.dispatching t = true ∧ Tab.get false (s.tile t).progBad
      (s.fget .tpPc t) = false ∧ w = applyMods ((s.tile t).word (s.fget .tpPc t)) (s.tile t).mods ∧ (wFence w = false ∨ (s.tile t).flight = []) ∧ 8 ≤
      wCls w) ∧
    -- IllegalWord op
    (∃ (s : State) (t cls op w : Nat) (fmtOk : Nat → Bool) (uses : Nat → List (Nat × Nat)), s.dispatching t = true ∧ Tab.get false (s.tile t).progBad
      (s.fget .tpPc t) = false ∧ w = applyMods ((s.tile t).word (s.fget .tpPc t)) (s.tile t).mods ∧ (wFence w = false ∨ (s.tile t).flight = []) ∧ wCls
      w < 8 ∧ opNamed (wCls w) (wOp w) = false) ∧
    -- IllegalWord format
    (∃ (s : State) (t cls op w : Nat) (fmtOk : Nat → Bool) (uses : Nat → List (Nat × Nat)), s.dispatching t = true ∧ Tab.get false (s.tile t).progBad
      (s.fget .tpPc t) = false ∧ w = applyMods ((s.tile t).word (s.fget .tpPc t)) (s.tile t).mods ∧ (wFence w = false ∨ (s.tile t).flight = []) ∧ wCls
      w < 8 ∧ wCls w = cls ∧ wOp w = op ∧ opNamed cls op = true ∧ fmtOk (wFmt w) = false) ∧
    -- IllegalWord reserved
    (∃ (s : State) (t cls op w : Nat) (fmtOk : Nat → Bool) (uses : Nat → List (Nat × Nat)), s.dispatching t = true ∧ Tab.get false (s.tile t).progBad
      (s.fget .tpPc t) = false ∧ w = applyMods ((s.tile t).word (s.fget .tpPc t)) (s.tile t).mods ∧ (wFence w = false ∨ (s.tile t).flight = []) ∧ wCls
      w < 8 ∧ wCls w = cls ∧ wOp w = op ∧ opNamed cls op = true ∧ fmtOk (wFmt w) = true ∧ onlyUses w (headerUses w ++ uses w) = false) ∧
    -- IllegalWord mod
    (∃ (s : State) (t cls op w : Nat) (fmtOk : Nat → Bool) (uses : Nat → List (Nat × Nat)), s.dispatching t = true ∧ Tab.get false (s.tile t).progBad
      (s.fget .tpPc t) = false ∧ w = applyMods ((s.tile t).word (s.fget .tpPc t)) (s.tile t).mods ∧ (wFence w = false ∨ (s.tile t).flight = []) ∧ wCls
      w < 8 ∧ wCls w = cls ∧ wOp w = op ∧ opNamed cls op = true ∧ fmtOk (wFmt w) = true ∧ onlyUses w (headerUses w ++ uses w) = true ∧ (s.tile
      t).modding = true ∧ cls = 0) :=
  ⟨
    ⟨onTile (wordOf 8 0 0 []), 0, 0, 1, wordOf 8 0 0 [], fun f => f == 0, fun _ => [(24, 20), (127, 64)], by decide, by decide, by decide, .inl
      (by decide), by decide⟩,
    ⟨onTile (wordOf 7 15 0 []), 0, 0, 1, wordOf 7 15 0 [], fun f => f == 0, fun _ => [(24, 20), (127, 64)], by decide, by decide, by decide, .inl
      (by decide), by decide, by decide⟩,
    ⟨onTile (wordOf 0 1 3 []), 0, 0, 1, wordOf 0 1 3 [], fun f => f == 0, fun _ => [(24, 20), (127, 64)], by decide, by decide, by decide, .inl
      (by decide), by decide, by decide, by decide, by decide, by decide⟩,
    ⟨onTile (wordOf 0 1 0 [(127, 1)]), 0, 0, 1, wordOf 0 1 0 [(127, 1)], fun f => f == 0, fun _ => [(24, 20), (126, 64)], by decide, by decide, by
      decide, .inl (by decide), by decide, by decide, by decide, by decide, by decide, by decide⟩,
    ⟨onTile (wordOf 0 1 0 []) (fun x => { x with modding := true }), 0, 0, 1, wordOf 0 1 0 [], fun f => f == 0, fun _ => [(24, 20), (127, 64)], by
      decide, by decide, by decide, .inl (by decide), by decide, by decide, by decide, by decide, by decide, by decide, by decide, by decide⟩⟩

/-- Hypotheses of ControlFrame are met: ControlFrame nop, ControlFrame li, ControlFrame alu, ControlFrame toVector, ControlFrame fromVector. -/
theorem witness_ControlFrame :
    -- ControlFrame nop
    (∃ (s s' : State) (t w : Nat), Claims.goesOn s t ∧ s.issues t 0 0 w (wFmt w == 0) [] ∧ exec (.ctlNop t) s = .next s') ∧
    -- ControlFrame li
    (∃ (s s' : State) (t w : Nat), Claims.goesOn s t ∧ s.issues t 0 1 w (wFmt w == 0) [(24, 20), (127, 64)] ∧ exec (.ctlLi t) s = .next s') ∧
    -- ControlFrame alu
    (∃ (s s' : State) (t w : Nat), Claims.goesOn s t ∧ s.issues t 0 2 w (wFmt w == 0) (if bitOf w 39 then [(29, 20), (39, 35), (95, 64)] else [(39,
      20)]) ∧ bitsOf w 38 35 ≤ 12 ∧ exec (.ctlAlu t) s = .next s') ∧
    -- ControlFrame toVector
    (∃ (s s' : State) (t w : Nat), Claims.goesOn s t ∧ s.issues t 0 6 w (wFmt w == 0) [(44, 25)] ∧ bitOf w 30 = true ∧ exec (.ctlVxfer t) s = .next
      s') ∧
    -- ControlFrame fromVector
    (∃ (s s' : State) (t w : Nat), Claims.goesOn s t ∧ s.issues t 0 6 w (wFmt w == 0) [(24, 20), (44, 30)] ∧ bitOf w 30 = false ∧ exec (.ctlVxfer t) s
      = .next s') :=
  ⟨
    ⟨onTile (wordOf 0 0 0 []), after (exec (.ctlNop 0) (onTile (wordOf 0 0 0 []))), 0, wordOf 0 0 0 [], ⟨_, _, rfl, by decide⟩, (by decide),
      answers_eq _ (by decide)⟩,
    ⟨onTile (wordOf 0 1 0 [(20, 3), (64, 7)]), after (exec (.ctlLi 0) (onTile (wordOf 0 1 0 [(20, 3), (64, 7)]))), 0, wordOf 0 1 0 [(20, 3), (64, 7)],
      ⟨_, _, rfl, by decide⟩, (by decide), answers_eq _ (by decide)⟩,
    ⟨onTile (wordOf 0 2 0 [(20, 3), (25, 1), (35, 0), (39, 1), (64, 5)]), after (exec (.ctlAlu 0) (onTile (wordOf 0 2 0 [(20, 3), (25, 1), (35, 0),
      (39, 1), (64, 5)]))), 0, wordOf 0 2 0 [(20, 3), (25, 1), (35, 0), (39, 1), (64, 5)], ⟨_, _, rfl, by decide⟩, (by decide), (by decide),
      answers_eq _ (by decide)⟩,
    ⟨onTile (wordOf 0 6 0 [(25, 3), (30, 1), (31, 2), (35, 9)]), after (exec (.ctlVxfer 0) (onTile (wordOf 0 6 0 [(25, 3), (30, 1), (31, 2), (35,
      9)]))), 0, wordOf 0 6 0 [(25, 3), (30, 1), (31, 2), (35, 9)], ⟨_, _, rfl, by decide⟩, (by decide), (by decide), answers_eq _ (by decide)⟩,
    ⟨onTile (wordOf 0 6 0 [(20, 3), (31, 2), (35, 9)]), after (exec (.ctlVxfer 0) (onTile (wordOf 0 6 0 [(20, 3), (31, 2), (35, 9)]))), 0, wordOf 0 6
      0 [(20, 3), (31, 2), (35, 9)], ⟨_, _, rfl, by decide⟩, (by decide), (by decide), answers_eq _ (by decide)⟩⟩

/-- Hypotheses of VectorFrame are met: VectorFrame vecAdd, VectorFrame vecMul, VectorFrame vecFma, VectorFrame vecMin, VectorFrame vecMax. -/
theorem witness_VectorFrame :
    -- VectorFrame vecAdd
    (∃ (s s' : State) (t w : Nat), Claims.goesOn s t ∧ s.issues t 2 1 w (fmtArithInt (wFmt w)) (vecUses2 w) ∧ negOk w = true ∧ s.fget .vecVl t ≤ 1024
      ∧ exec (.vecAdd t) s = .next s') ∧
    -- VectorFrame vecMul
    (∃ (s s' : State) (t w : Nat), Claims.goesOn s t ∧ s.issues t 2 2 w (fmtArith (wFmt w)) (vecUses2 w) ∧ negOk w = true ∧ s.fget .vecVl t ≤ 1024 ∧
      exec (.vecMul t) s = .next s') ∧
    -- VectorFrame vecFma
    (∃ (s s' : State) (t w : Nat), Claims.goesOn s t ∧ s.issues t 2 3 w (fmtArith (wFmt w)) (vecUses3 w) ∧ negOk w = true ∧ s.fget .vecVl t ≤ 1024 ∧
      exec (.vecFma t) s = .next s') ∧
    -- VectorFrame vecMin
    (∃ (s s' : State) (t w : Nat), Claims.goesOn s t ∧ s.issues t 2 4 w (fmtArithInt (wFmt w)) (vecUses2 w) ∧ negOk w = true ∧ s.fget .vecVl t ≤ 1024
      ∧ exec (.vecMin t) s = .next s') ∧
    -- VectorFrame vecMax
    (∃ (s s' : State) (t w : Nat), Claims.goesOn s t ∧ s.issues t 2 5 w (fmtArithInt (wFmt w)) (vecUses2 w) ∧ negOk w = true ∧ s.fget .vecVl t ≤ 1024
      ∧ exec (.vecMax t) s = .next s') :=
  ⟨
    ⟨onTile (wordOf 2 1 0 [(20, 1), (24, 2), (28, 3)]), after (exec (.vecAdd 0) (onTile (wordOf 2 1 0 [(20, 1), (24, 2), (28, 3)]))), 0, wordOf 2 1 0
      [(20, 1), (24, 2), (28, 3)], ⟨_, _, rfl, by decide⟩, (by decide), (by decide), (by decide), answers_eq _ (by decide)⟩,
    ⟨onTile (wordOf 2 2 0 [(20, 1), (24, 2), (28, 3)]), after (exec (.vecMul 0) (onTile (wordOf 2 2 0 [(20, 1), (24, 2), (28, 3)]))), 0, wordOf 2 2 0
      [(20, 1), (24, 2), (28, 3)], ⟨_, _, rfl, by decide⟩, (by decide), (by decide), (by decide), answers_eq _ (by decide)⟩,
    ⟨onTile (wordOf 2 3 0 [(20, 1), (24, 2), (28, 3), (32, 4)]), after (exec (.vecFma 0) (onTile (wordOf 2 3 0 [(20, 1), (24, 2), (28, 3), (32,
      4)]))), 0, wordOf 2 3 0 [(20, 1), (24, 2), (28, 3), (32, 4)], ⟨_, _, rfl, by decide⟩, (by decide), (by decide), (by decide), answers_eq _
      (by decide)⟩,
    ⟨onTile (wordOf 2 4 0 [(20, 1), (24, 2), (28, 3)]), after (exec (.vecMin 0) (onTile (wordOf 2 4 0 [(20, 1), (24, 2), (28, 3)]))), 0, wordOf 2 4 0
      [(20, 1), (24, 2), (28, 3)], ⟨_, _, rfl, by decide⟩, (by decide), (by decide), (by decide), answers_eq _ (by decide)⟩,
    ⟨onTile (wordOf 2 5 0 [(20, 1), (24, 2), (28, 3)]), after (exec (.vecMax 0) (onTile (wordOf 2 5 0 [(20, 1), (24, 2), (28, 3)]))), 0, wordOf 2 5 0
      [(20, 1), (24, 2), (28, 3)], ⟨_, _, rfl, by decide⟩, (by decide), (by decide), (by decide), answers_eq _ (by decide)⟩⟩

/-- Hypotheses of VectorStoreFrame are met: VectorStoreFrame. -/
theorem witness_VectorStoreFrame :
  ∃ (s s' : State) (t w : Nat), Claims.goesOn s t ∧ s.issues t 2 12 w (fmtArithInt (wFmt w)) [(27, 24), (83, 64)] ∧ s.spFaults t (Claims.storeWrites s
    t w) = none ∧ (s.tile t).meets Req.vector [(64 * bitsOf w 83 64, fmtBytes (wFmt w) (s.fget .vecVl t))] = [] ∧ exec (.vecSt t) s = .next s' :=
  ⟨onTile (wordOf 2 12 0 [(24, 1), (64, 8)]), after (exec (.vecSt 0) (onTile (wordOf 2 12 0 [(24, 1), (64, 8)]))), 0, wordOf 2 12 0 [(24, 1), (64,
    8)], ⟨_, _, rfl, by decide⟩, (by decide), (by decide), (by decide), answers_eq _ (by decide)⟩

/-- Hypotheses of BankFrame are met: BankFrame bnkAdd, BankFrame bnkMax, BankFrame bnkSadd. -/
theorem witness_BankFrame :
    -- BankFrame bnkAdd
    (∃ (s s' : State) (t w : Nat), Claims.goesOn s t ∧ s.issues t 4 0 w (fmtArithInt (wFmt w)) (bnkUses w) ∧ (bankPair 0 (wFmt w) (bDstFmt w) &&
      countOk w && (fun w => bTreg w == 0) w && rangesOk w true) = true ∧ s.spFaults t (bankReads w) = none ∧ (s.tile t).meets Req.control [(64 * bDst
      w, fmtBytes (bDstFmt w) (bCount w))] = [] ∧ exec (.bnkAdd t) s = .next s') ∧
    -- BankFrame bnkMax
    (∃ (s s' : State) (t w : Nat), Claims.goesOn s t ∧ s.issues t 4 1 w (fmtArithInt (wFmt w)) (bnkUses w) ∧ (bankPair 1 (wFmt w) (bDstFmt w) &&
      countOk w && (fun w => bTreg w == 0) w && rangesOk w true) = true ∧ s.spFaults t (bankReads w) = none ∧ (s.tile t).meets Req.control [(64 * bDst
      w, fmtBytes (bDstFmt w) (bCount w))] = [] ∧ exec (.bnkMax t) s = .next s') ∧
    -- BankFrame bnkSadd
    (∃ (s s' : State) (t w : Nat), Claims.goesOn s t ∧ s.issues t 4 2 w (fmtArith (wFmt w)) (bnkUses w) ∧ (bankPair 2 (wFmt w) (bDstFmt w) && countOk
      w && tregOk w && rangesOk w true) = true ∧ s.spFaults t (bankReads w) = none ∧ (s.tile t).meets Req.control [(64 * bDst w, fmtBytes (bDstFmt w)
      (bCount w))] = [] ∧ exec (.bnkSadd t) s = .next s') :=
  ⟨
    ⟨onTile (wordOf 4 0 0 [(32, 8), (64, 4), (96, 16)]), after (exec (.bnkAdd 0) (onTile (wordOf 4 0 0 [(32, 8), (64, 4), (96, 16)]))), 0, wordOf 4 0
      0 [(32, 8), (64, 4), (96, 16)], ⟨_, _, rfl, by decide⟩, (by decide), (by decide), (by decide), (by decide), answers_eq _ (by decide)⟩,
    ⟨onTile (wordOf 4 1 7 [(26, 7), (32, 8), (64, 8), (96, 16)]), after (exec (.bnkMax 0) (onTile (wordOf 4 1 7 [(26, 7), (32, 8), (64, 8), (96,
      16)]))), 0, wordOf 4 1 7 [(26, 7), (32, 8), (64, 8), (96, 16)], ⟨_, _, rfl, by decide⟩, (by decide), (by decide), (by decide), (by decide),
      answers_eq _ (by decide)⟩,
    ⟨onTile (wordOf 4 2 1 [(21, 3), (32, 8), (64, 4), (96, 16)]), after (exec (.bnkSadd 0) (onTile (wordOf 4 2 1 [(21, 3), (32, 8), (64, 4), (96,
      16)]))), 0, wordOf 4 2 1 [(21, 3), (32, 8), (64, 4), (96, 16)], ⟨_, _, rfl, by decide⟩, (by decide), (by decide), (by decide), (by decide),
      answers_eq _ (by decide)⟩⟩

/-- Hypotheses of FillContent are met: FillContent. -/
theorem witness_FillContent :
  ∃ (s : State) (a n i x : Nat), n % 8 = 0 ∧ s.badEdge a n = false ∧ i < n ∧ ∀ q ∈ [(a, n)], q.2 % 8 = 0 ∧ (x < q.1 ∨ q.1 + q.2 ≤ x) :=
  ⟨base, 64, 8, 7, 72, by decide, by decide, by decide, by decide⟩

/-- Hypotheses of RecordPosted are met: RecordPosted. -/
theorem witness_RecordPosted :
  ∃ (s : State) (fn ring : Nat) (body : List Byte), s.fnUp fn = true ∧ (fn = 0 ∨ (s.part (fn - 1)).drain.any (fun d => d.why == 1) = false) ∧ (s.ring
    (ringIdx fn ring)).held = [] ∧ s.cqRoom (ringIdx fn ring) = true ∧ s.sealed fn = false ∧ s.fget .cqLog2Size (ringIdx fn ring) ≤ 16 ∧ body.length =
    28 :=
  ⟨((base.fset .cqEnable 7 1).fset .cqLog2Size 7 4), 0, 7, leBytes 28 1, by decide, by decide, by decide, by decide, by decide, by decide, by decide⟩

/-- Hypotheses of LogPlacement are met: LogPlacement next, LogPlacement oldest, LogPlacement lost. -/
theorem witness_LogPlacement :
    -- LogPlacement next
    (∃ s : State, (s.fc.slot ((s.fget .fcSlot 0 + 1) % 256)).isOpen = false) ∧
    -- LogPlacement oldest
    (∃ (s : State) (i : Nat), (s.fc.slot ((s.fget .fcSlot 0 + 1) % 256)).isOpen = true ∧ s.fc.oldest = some i) ∧
    -- LogPlacement lost
    (∃ s : State, (s.fc.slot ((s.fget .fcSlot 0 + 1) % 256)).isOpen = true ∧ s.fc.oldest = none) :=
  ⟨
    ⟨base, by decide⟩,
    ⟨(logS [(0, logRec 1 true), (1, logRec 2 false)]).fset .fcSlot 0 0, 0, by decide, by decide⟩,
    ⟨(logS [(0, logRec 1 false), (1, logRec 2 false)]).fset .fcSlot 0 0, by decide, by decide⟩⟩

/-- Hypotheses of Acknowledgement are met: Acknowledgement none, Acknowledgement some. -/
theorem witness_Acknowledgement :
    -- Acknowledgement none
    (∃ (s : State) (seq : Nat), s.slotOf seq = none) ∧
    -- Acknowledgement some
    (∃ (s : State) (seq i v : Nat), s.slotOf seq = some i ∧ v % 2 = 1) :=
  ⟨
    ⟨logS [(255, logRec 3 false)], 2, by decide⟩,
    ⟨logS [(255, logRec 3 false)], 3, 255, 1, by decide, by decide⟩⟩

/-- Hypotheses of PllUnlockRaises are met: PllUnlockRaises. -/
theorem witness_PllUnlockRaises :
  ∃ (s : State) (n : Nat), n < 4 ∧ s.fget .clkLockMgmt 0 = 1 ∧ s.fc.lasting.contains (Source.pllUnlock, n) = false :=
  ⟨live.fset .clkLockMgmt 0 1, 3, by decide, by decide, by decide⟩

/-- Hypotheses of LeakRaises are met: LeakRaises. -/
theorem witness_LeakRaises :
  ∃ s : State, s.pwr.powered = true ∧ s.fc.lasting.contains (Source.leak, 0) = false :=
  ⟨live, by decide, by decide⟩

/-! ### Ill-formed commands: one for each check of well-formedness -/

/-- Functions are 0 to 12, rings 0 to 7 on the PF and 0 to 3 on a VF (R427, R430). -/
theorem test_wf_rings : (Instr.nop 13 0).wf = false ∧ (Instr.nop 0 8).wf = false ∧ (Instr.nop 1 4).wf = false ∧ (Instr.nop 12 3).wf = true ∧
    (Instr.doorbellWrite 0 0 (2 ^ 64)).wf = false := by decide
/-- Partitions, bays and stacks are 0 to 11, tiles 0 to 95, banks 0 to 63, rows 0 to 767, accumulator lines 0 to 4095. -/
theorem test_wf_units : (Instr.stepEnd 12).wf = false ∧ (Instr.bayRetired 12).wf = false ∧ (Instr.kettleNop 12).wf = false ∧
    (Instr.ctlNop 96).wf = false ∧ (Instr.bankRowRepair 0 64 0).wf = false ∧ (Instr.bankRowRepair 0 0 768).wf = false ∧
    (Instr.accLineRepair 0 4096).wf = false ∧ (Instr.bankRowRepair 95 63 767).wf = true := by decide
/-- Ports are 0 to 23, lanes 0 to 4, virtual channels 0 to 7, a partner's DEVICE_ID has 12 bits and its port 5, and credits come for 8 channels. -/
theorem test_wf_links : (Instr.retrain 24).wf = false ∧ (Instr.laneFailed 0 5).wf = false ∧ (Instr.creditStall 0 8).wf = false ∧
    (Instr.linkUp 0 4096 0 [0, 0, 0, 0, 0, 0, 0, 0]).wf = false ∧ (Instr.linkUp 0 0 32 [0, 0, 0, 0, 0, 0, 0, 0]).wf = false ∧
    (Instr.linkUp 0 0 0 []).wf = false ∧ (Instr.linkUp 23 4095 31 [0, 0, 0, 0, 0, 0, 0, 0]).wf = true := by decide
/-- Communicators are 0 to 63, and a message's fields fit their header. -/
theorem test_wf_messages : (Instr.orphanTimeout 0 64 0).wf = false ∧ (Instr.grant 0 { Msg.empty with src := 4096 }).wf = false ∧
    (Instr.grant 0 { Msg.empty with dst := 4096 }).wf = false ∧ (Instr.grant 0 { Msg.empty with vc := 8 }).wf = false ∧
    (Instr.grant 0 { Msg.empty with ty := 16 }).wf = false ∧ (Instr.grant 0 { Msg.empty with epoch := 65536 }).wf = false ∧
    (Instr.grant 0 { Msg.empty with comm := 256 }).wf = false ∧ (Instr.grant 0 { Msg.empty with rank := 4096 }).wf = false ∧
    (Instr.grant 12 Msg.empty).wf = false ∧ (Instr.grant 11 Msg.empty).wf = true := by decide
/-- Register writes are aligned, lie in BAR0, and carry a value of the access; a record number has 32 bits and is not 0. -/
theorem test_wf_registers : (Instr.registerWrite 0 2 0).wf = false ∧ (Instr.registerWrite 0 (2 ^ 25) 0).wf = false ∧
    (Instr.registerWrite 0 0 (2 ^ 64)).wf = false ∧ (Instr.registerWrite 13 0 0).wf = false ∧ (Instr.fcAck 0).wf = false ∧
    (Instr.fcAck (2 ^ 32)).wf = false ∧ (Instr.kvCtrlWrite 0 12 0).wf = false ∧ (Instr.recoveryChunk 65536 []).wf = false ∧
    (Instr.recoveryChunk 0 []).wf = false ∧ (Instr.flashNsWrite 0 65536 0 0).wf = false ∧ (Instr.flashNsWrite 0 0 65536 0).wf = false ∧
    (Instr.flashNsWrite 0 0 0 65536).wf = false := by decide

/-- VFs are 1 to 12, stacks of a temperature 0 to 11, scopes 0 to 12, PLLs 0 to 3, mailboxes 0 to 12. -/
theorem test_wf_events : (Instr.vfEnable 13).wf = false ∧ (Instr.vfDisable 0).wf = false ∧ (Instr.vfDisable 13).wf = false ∧
    (Instr.thermalTrip (some 12) 0).wf = false ∧ (Instr.quietExpiry 13).wf = false ∧ (Instr.pllUnlock 4).wf = false ∧
    (Instr.getVersion 13 []).wf = false ∧ (Instr.sensorUpdate 0 (2 ^ 64)).wf = false ∧ (Instr.vfDisable 12).wf = true := by decide

/-! ### The decoder -/

/-- No row of the table gives bits, so no word spells a command. -/
theorem test_no_word : ∀ nbits w, decodeTableWord nbits w = none := fun _ _ => rfl

/-! ### Results that the spec works out -/

/-- *A pair accumulation against plain FP32* (04_numerics.md): 2^24, 1, 1 and -2^24 leave the pair (0, 2). -/
theorem test_pair_accumulation :
    let next (x : Nat × Nat) (p : Nat) : Nat × Nat := ((pairAdd x.1 x.2 p).1, (pairAdd x.1 x.2 p).2.1)
    next (0, 0) 0x4B800000 = (0x4B800000, 0) ∧ next (0x4B800000, 0) 0x3F800000 = (0x4B800000, 0x3F800000) ∧
      next (0x4B800000, 0x3F800000) 0x3F800000 = (0x4B800000, 0x40000000) ∧ next (0x4B800000, 0x40000000) 0xCB800000 = (0, 0x40000000) := by decide
/-- *A scale update after saturation* (04_numerics.md): a recorded maximum of 0.5 gives the scale 0x3B82, of 3.0 the scale 0x3CC2. -/
theorem test_scales : scaleFor 5 0x3F000000 = 0x3B82 ∧ scaleFor 5 0x40400000 = 0x3CC2 := by decide
/-- The same example: with the scale 0x3B82, 3.0 saturates at 127 and -1.25 at -127; 0.3 is stored as 76; with 0x3CC2, -1.25 is stored as -53. -/
theorem test_scaled_codes : (convElem 5 (f32 0x40400000) 0x3B82 none).code = 127 ∧ (convElem 5 (f32 0x40400000) 0x3B82 none).sat = true ∧
    (convElem 5 (f32 0xBFA00000) 0x3B82 none).code = 256 - 127 ∧ (convElem 5 (f32 0x3E99999A) 0x3B82 none).code = 76 ∧
    (convElem 5 (f32 0x3E99999A) 0x3B82 none).sat = false ∧ (convElem 5 (f32 0xBFA00000) 0x3CC2 none).code = 256 - 53 := by decide
/-- *One lauter tile at k = 1/256* (11_reduction.md): 5.001953125 lies halfway between two FP16 values and rounds to the even one, 0x4500. -/
theorem test_fp16_tie : (convElem 2 (f32 0x40A01000) 0 none).code = 0x4500 := by decide
/-- *Frets and bytes for a mixed batch* (15_attention_and_cache.md): with 100 layers a frame takes 29,491,200 bytes. -/
theorem test_frame_bytes : (base.fset .kvLayers 0 100).frameBytes 0 = 29491200 := by decide
/-- INT32 addition saturates at both ends and is exact between them (R86). -/
theorem test_int32_saturates : i32add 0x7FFFFFFF 1 = ⟨0x7FFFFFFF, flOF⟩ ∧ i32add 0x80000000 0xFFFFFFFF = ⟨0x80000000, flOF⟩ ∧
    i32add 5 0xFFFFFFFE = ⟨3, 0⟩ := by decide
/-- The published check values of the CRCs that R52, R230 and R312 name, over the bytes 1 to 9 of ASCII, and of SHA-256 over abc. -/
theorem test_checks :
    let digits := (List.range 9).map (fun i => BitVec.ofNat 8 (0x31 + i))
    crc32 digits = 0xCBF43926 ∧ crc32c digits = 0xE3069283 ∧ crc64 digits = 0x6C40DF5F0B497347 ∧
      (sha256 [0x61, 0x62, 0x63]).take 4 = [0xBA, 0x78, 0x16, 0xBF] := by decide


end Sys2Proof.Tests
end

section
/-!
SUPPORT. How a host command's row ends on a descriptor that it refuses (R528), for any row.
-/

namespace Sys2Proof.Machine

/-- A ring of which a slot can be fetched has its keys (R206, R207). -/
theorem keyFails_of_fetchable {s : State} {fn ring : Nat} (h : s.fetchable fn ring = true) : s.keyFails fn = false := by
  unfold State.fetchable at h
  simp only [Bool.and_eq_true, Bool.not_eq_true'] at h
  exact h.2

section
variable {s : State} {fn ring op : Nat} {spec : State → BitVec 512 → Spec} {later : State → BitVec 512 → Nat}
  {start : State → Cmd → State} {d : BitVec 512}

/-- A fetched descriptor of the row is taken from its ring, and the common checks, then the row's later checks, give its outcome. -/
theorem hostCmd_fetched (hf : s.fetchable fn ring = true) (hd : s.slotDesc fn ring = some d) (ho : dField d 0 0 = op)
    (hs : s.stalled (spec s d) = false) :
    s.hostCmd fn ring op spec later start =
      (let k := spec s d
       let s1 := s.popSlot fn ring
       let slot := s.fget .sqHead (ringIdx fn ring)
       if s1.refusal fn d k ≠ 0 then s1.reply fn ring slot d k.partNo (s1.refusal fn d k) 0 0
       else if later s1 d ≠ 0 then s1.reply fn ring slot d k.partNo (later s1 d) 0 0
       else
        let cs := s1.accept fn ring slot d k.partNo
        if cs.2.mayStart cs.1 then start (cs.2.modCmd cs.1.id (fun c => { c with started := true })) { cs.1 with started := true }
        else cs.2).settle := by
  unfold State.hostCmd State.hostRow Spec.partNo
  simp only [keyFails_of_fetchable hf, hf, hd, ho, hs, Bool.false_and, Bool.not_true, Bool.false_eq_true, if_false, ne_eq,
    not_true_eq_false, or_self]

/-- A descriptor that fails a common check completes with the status of that check, and nothing else happens (steps 2 to 8 of R528). -/
theorem hostCmd_refused (hf : s.fetchable fn ring = true) (hd : s.slotDesc fn ring = some d) (ho : dField d 0 0 = op)
    (hs : s.stalled (spec s d) = false) (hr : (s.popSlot fn ring).refusal fn d (spec s d) ≠ 0) :
    s.hostCmd fn ring op spec later start =
      ((s.popSlot fn ring).reply fn ring (s.fget .sqHead (ringIdx fn ring)) d (spec s d).partNo
        ((s.popSlot fn ring).refusal fn d (spec s d)) 0 0).settle := by
  rw [hostCmd_fetched hf hd ho hs]
  exact congrArg State.settle (if_pos hr)

/-- A descriptor that passes the common checks and fails a later one completes with that check's status (step 9 of R528). -/
theorem hostCmd_refused_later (hf : s.fetchable fn ring = true) (hd : s.slotDesc fn ring = some d) (ho : dField d 0 0 = op)
    (hs : s.stalled (spec s d) = false) (hr : (s.popSlot fn ring).refusal fn d (spec s d) = 0) (hl : later (s.popSlot fn ring) d ≠ 0) :
    s.hostCmd fn ring op spec later start =
      ((s.popSlot fn ring).reply fn ring (s.fget .sqHead (ringIdx fn ring)) d (spec s d).partNo
        (later (s.popSlot fn ring) d) 0 0).settle := by
  rw [hostCmd_fetched hf hd ho hs]
  exact congrArg State.settle ((if_neg (not_not_intro hr)).trans (if_pos hl))

end

end Sys2Proof.Machine
end

section
/-!
SUPPORT. What completing a descriptor leaves alone: the open turn and the step register of every partition.
-/

namespace Sys2Proof.Machine

/-- Every partition has in s the open turn and the STEP that it has in o. -/
structure SameTurns (o s : State) : Prop where
  turn : ∀ p, (s.part p).turn = (o.part p).turn
  step : ∀ p, s.fget .turnStep p = o.fget .turnStep p

namespace SameTurns

theorem refl (s : State) : SameTurns s s := ⟨fun _ => rfl, fun _ => rfl⟩

variable {o s t : State}

/-- Only the partitions and the register fields count. -/
theorem congr (h : SameTurns o s) (hp : t.parts = s.parts) (hr : t.regs = s.regs) : SameTurns o t where
  turn p := by rw [← h.turn p]; unfold State.part; rw [hp]
  step p := by rw [← h.step p]; unfold State.fget; rw [hr]

theorem ite {c : Prop} [Decidable c] (hs : SameTurns o s) (ht : SameTurns o t) : SameTurns o (if c then s else t) := by
  split
  · exact hs
  · exact ht

theorem fset (h : SameTurns o s) {f : Fld} (i v : Nat) (hf : f ≠ .turnStep := by decide) : SameTurns o (s.fset f i v) where
  turn := h.turn
  step p := (fget_fset_ne s v (.inl hf.symm)).trans (h.step p)

theorem finc (h : SameTurns o s) {f : Fld} (i n : Nat) (hf : f ≠ .turnStep := by decide) : SameTurns o (s.finc f i n) := h.fset i _ hf

theorem modPart (h : SameTurns o s) (p : Nat) {f : Part → Part} (hf : ∀ x, (f x).turn = x.turn := by intro _; rfl) :
    SameTurns o (s.modPart p f) where
  turn q := by
    rw [part_modPart, ← h.turn q]
    split
    · next hq => rw [hf, hq]
    · rfl
  step := h.step

theorem modRing (h : SameTurns o s) (r : Nat) (f : Ring → Ring) : SameTurns o (s.modRing r f) := h.congr rfl rfl

theorem setPort (h : SameTurns o s) (q : Nat) (x : Port) : SameTurns o (s.setPort q x) := h.congr rfl rfl

theorem hostWrite (h : SameTurns o s) (a : Nat) (bs : List Byte) : SameTurns o (s.hostWrite a bs) := h.congr rfl rfl

theorem devWrite (h : SameTurns o s) (a : Nat) (bs : List Byte) : SameTurns o (s.devWrite a bs) := by
  unfold State.devWrite
  exact h.ite (h.congr rfl rfl)

theorem interrupt (h : SameTurns o s) (fn v : Nat) : SameTurns o (s.interrupt fn v) := by
  unfold State.interrupt
  exact SameTurns.ite (h.congr rfl rfl) (h.congr rfl rfl)

/-! ### Messages -/

theorem pump : ∀ (n q : Nat) {s : State}, SameTurns o s → SameTurns o (State.pump n s q)
  | 0, _, _, h => h
  | n + 1, q, s, h => by
    unfold State.pump
    refine h.ite ?_
    split
    · exact h
    · next x g again _ =>
      have taken := h.setPort q x
      have sent := taken.ite (c := flitTy g = 0) (taken.finc (f := .linkTxFlits) q 1)
      have repeated := (sent.finc (f := .linkReplays) q 1).ite (c := again = true) sent
      exact pump n q (repeated.congr rfl rfl)

theorem localDrop (h : SameTurns o s) (b n dst : Nat) : SameTurns o (s.localDrop b n dst) :=
  (h.finc (f := .linkbLocalDrops) b n).congr rfl rfl

theorem sendFrom (h : SameTurns o s) (p b : Nat) (m : Msg) : SameTurns o (s.sendFrom p b m) := by
  unfold State.sendFrom
  refine h.ite (SameTurns.ite (h.congr rfl rfl) ?_)
  split
  · exact pump _ _ (h.congr rfl rfl)
  · exact h.localDrop ..

theorem send (h : SameTurns o s) (p : Nat) (m : Msg) : SameTurns o (s.send p m) := h.sendFrom ..

/-! ### Capture and comparison of a replay -/

theorem replayPut (h : SameTurns o s) {p type flags : Nat} {payload : List Byte} {s' : State}
    (e : s.replayPut p type flags payload = some s') : SameTurns o s' := by
  have put (inHost : Bool) (a : Nat) (bs : List Byte) {s : State} (h : SameTurns o s) :
      SameTurns o (if inHost then s.hostWrite a bs else s.devWrite a bs) := (h.hostWrite a bs).ite (h.devWrite a bs)
  unfold State.replayPut at e
  split at e
  · cases e
  · next inHost base size _ =>
    obtain ⟨-, e⟩ := Option.ite_none_left_eq_some.1 e
    obtain rfl := Option.some.inj e
    refine SameTurns.fset (SameTurns.finc (SameTurns.modPart ?_ p) p 1) p _
    exact put inHost _ _ (SameTurns.ite h (put inHost _ _ h))

theorem capture (h : SameTurns o s) (p type flags : Nat) (payload : List Byte) : SameTurns o (s.capture p type flags payload) := by
  unfold State.capture
  refine h.ite (SameTurns.ite ?_ ?_)
  · exact SameTurns.send (SameTurns.finc (h.modPart p) p 1) p _
  · extract_lets gap s1
    split
    · next s' e =>
      obtain ⟨s2, e2, e⟩ := Option.bind_eq_some_iff.1 e
      have h2 : SameTurns o s2 := by
        unfold s1 at e2
        split at e2
        · exact Option.some.inj e2 ▸ h
        · obtain ⟨s0, e0, rfl⟩ := Option.map_eq_some_iff.1 e2
          exact (h.replayPut e0).modPart p
      exact (h2.replayPut e).ite (h.modPart p)
    · refine SameTurns.ite (h.modPart p) ?_
      exact SameTurns.congr (SameTurns.finc (f := .rplLost) (h.modPart p) p 1) rfl rfl

theorem replayFails (h : SameTurns o s) (p status rseq : Nat) : SameTurns o (s.replayFails p status rseq) :=
  h.modPart p

theorem replayOutput (h : SameTurns o s) (p : Nat) (digest : List Byte) : SameTurns o (s.replayOutput p digest) := by
  unfold State.replayOutput
  split
  · exact h
  · split
    · exact h.replayFails ..
    · exact SameTurns.ite (h.modPart p) (SameTurns.replayFails (h.modPart p) ..)

theorem captureOutput (h : SameTurns o s) (part : Nat) (body : List Byte) : SameTurns o (s.captureOutput part body) := by
  unfold State.captureOutput
  exact SameTurns.ite ((h.replayOutput ..).ite (h.capture ..)) h

/-! ### Completion records -/

theorem countPending (h : SameTurns o s) (fn ring : Nat) : SameTurns o (s.countPending fn ring) := by
  unfold State.countPending
  exact SameTurns.ite ((h.modRing ..).interrupt ..) (h.modRing ..)

theorem writeRecord (h : SameTurns o s) (fn ring : Nat) (noIrq : Bool) (body : List Byte) :
    SameTurns o (s.writeRecord fn ring noIrq body) := by
  unfold State.writeRecord
  extract_lets r x tail seq plain p ctr a written tail' moved
  have hw : SameTurns o written := SameTurns.ite (SameTurns.modPart (h.hostWrite ..) p) (h.hostWrite ..)
  have hm : SameTurns o moved := (hw.fset r tail').modRing ..
  exact (hm.countPending ..).ite hm

theorem post (h : SameTurns o s) (fn ring : Nat) (noIrq : Bool) (body : List Byte) : SameTurns o (s.post fn ring noIrq body) := by
  unfold State.post
  exact h.ite ((h.writeRecord ..).ite (h.modRing ..))

/-- Completing a descriptor opens, closes and moves on no turn. -/
theorem reply (h : SameTurns o s) (fn ring slot : Nat) (d : BitVec 512) (part status result detail : Nat) :
    SameTurns o (s.reply fn ring slot d part status result detail) := by
  unfold State.reply
  extract_lets body noted posted
  have hp : SameTurns o posted := (SameTurns.ite (h.fset part status) h).post ..
  exact hp.ite (hp.captureOutput ..)

end SameTurns

end Sys2Proof.Machine
end

section
/-!
PROOFS. The turn commands that complete with a refusal (R22, R30).
-/

namespace Sys2Proof.Proofs

open Sys2Proof Sys2Proof.Machine

theorem exec_turnBegin (fn ring : Nat) (s : State) : exec (.turnBegin fn ring) s = execTurnBegin fn ring s := rfl
theorem exec_turnCommit (fn ring : Nat) (s : State) : exec (.turnCommit fn ring) s = execTurnCommit fn ring s := rfl
theorem exec_turnAbandon (fn ring : Nat) (s : State) : exec (.turnAbandon fn ring) s = execTurnAbandon fn ring s := rfl

/-- No turn command of a partition whose capture does not run waits at the head of its ring (R527). -/
theorem stalled_turnSpec_eq_false {s : State} {fn op : Nat} {d : BitVec 512} {ok : Bool}
    (h : dField d 20 20 < 12 → s.fget .rplState (dField d 20 20) ≠ 2) : s.stalled (s.turnSpec fn op d ok) = false := by
  unfold State.stalled State.turnSpec
  by_cases hp : dField d 20 20 < 12
  · simp [h hp]
  · simp [hp]

/-- The check that refuses a turn command of a VF is that of its function (step 5 of R528, R22). -/
theorem refusal_turnSpec_of_vf {s s1 : State} {fn op : Nat} {d : BitVec 512} {ok : Bool} (hfn : fn ≠ 0) (hop : opDefined op = true)
    (hsafe : s1.safe = false) (hflags : dField d 1 1 < 4) (hz : dZero d 7 2 = true) :
    s1.refusal fn d (s.turnSpec fn op d ok) = Status.badState := by
  have h4 : dField d 1 1 / 4 = 0 := Nat.div_eq_of_lt hflags
  have hpf : (fn == 0) = false := beq_false_of_ne hfn
  unfold State.refusal State.turnSpec
  simp [hsafe, hop, h4, hz, hpf]

/-- The row of a turn command completes a VF's descriptor BAD_STATE. -/
theorem turnRow_of_vf {s : State} {fn ring op : Nat} {d : BitVec 512} {ok : State → BitVec 512 → Bool}
    {later : State → BitVec 512 → Nat} {start : State → Cmd → State} (hfn : fn ≠ 0) (hf : s.fetchable fn ring = true)
    (hd : s.slotDesc fn ring = some d) (hcap : dField d 20 20 < 12 → s.fget .rplState (dField d 20 20) ≠ 2)
    (hsafe : (s.popSlot fn ring).safe = false) (hflags : dField d 1 1 < 4) (hz : dZero d 7 2 = true)
    (hop : opDefined op = true) (ho : dField d 0 0 = op) :
    s.hostCmd fn ring op (fun s d => s.turnSpec fn op d (ok s d)) later start =
      ((s.popSlot fn ring).reply fn ring (s.fget .sqHead (ringIdx fn ring)) d (if dField d 20 20 < 12 then dField d 20 20 else 0xFF)
        Status.badState 0 0).settle := by
  have hr := refusal_turnSpec_of_vf (s := s) (ok := ok s d) hfn hop hsafe hflags hz
  rw [hostCmd_refused hf hd ho (stalled_turnSpec_eq_false hcap) (by rw [hr]; decide), hr]
  rfl

/-- Settles O16: all three turn commands have the row's specification turnSpec, which a VF fails. -/
theorem turnOnlyFromPf : Obligations.TurnOnlyFromPf := by
  unfold Obligations.TurnOnlyFromPf
  intro s fn ring d hfn hf hd hcap hsafe hflags hz
  refine ⟨fun ho => ?_, fun ho => ?_, fun ho => ?_⟩
  · rw [exec_turnBegin, execTurnBegin, turnRow_of_vf hfn hf hd hcap hsafe hflags hz (by decide) ho]
  · rw [exec_turnCommit, execTurnCommit, turnRow_of_vf hfn hf hd hcap hsafe hflags hz (by decide) ho]
  · rw [exec_turnAbandon, execTurnAbandon, turnRow_of_vf hfn hf hd hcap hsafe hflags hz (by decide) ho]

/-- An abandon of the open turn that names it, and that no earlier abandon or halt has overtaken, is too late from step 6 on (R30). -/
theorem abandonRefusal_tooLate {s : State} {d : BitVec 512} {t : Turn} (ht : (s.part (dField d 20 20)).turn = some t)
    (hphase : s.fget .turnPhase (dField d 20 20) ≠ Phase.halted) (hopen : t.abandon = 0) (hid : dField d 19 16 = t.turnId)
    (hstep : 6 ≤ s.fget .turnStep (dField d 20 20)) : s.abandonRefusal d = Status.tooLate := by
  unfold State.abandonRefusal
  simp [ht, hphase, hopen, hid, hstep]

/-- Settles O17: the row's later check gives TOO_LATE, and completing the descriptor changes no turn. -/
theorem abandonTooLate : Obligations.AbandonTooLate := by
  unfold Obligations.AbandonTooLate
  intro s fn ring d t k p s1 s2 hf hd ho hs hr ht hphase hopen hid hstep
  have hl : s1.abandonRefusal d = Status.tooLate := abandonRefusal_tooLate ht hphase hopen hid hstep
  have same : SameTurns s1 s2 := (SameTurns.refl s1).reply ..
  refine ⟨?_, (same.turn p).trans ht, same.step p⟩
  rw [exec_turnAbandon, execTurnAbandon, hostCmd_refused_later hf hd ho hs hr (by rw [hl]; decide), hl]

end Sys2Proof.Proofs
end

section
/-!
SUPPORT. How a condition that lasts begins (R490), the fields at reset (R8), and the event of a PLL that loses lock (R49).
-/

namespace Sys2Proof.Machine

/-- A condition that does not yet last is noted as lasting, and its source is raised (R490). -/
theorem startLasting_of_not_lasting {s : State} {source key : Nat} (kind inst info : Nat)
    (h : s.fc.lasting.contains (source, key) = false) :
    s.startLasting source key kind inst info =
      ({ s with fc := { s.fc with lasting := (source, key) :: s.fc.lasting } } : State).raise source kind inst info :=
  if_neg (Bool.eq_false_iff.1 h)

/-- Every register field stands at its reset value (R8). -/
theorem reset_fget (f : Fld) (i : Nat) : State.reset.fget f i = f.reset i := rfl

/-- The severity of a source at reset is its default severity (R480). -/
theorem reset_severity (source : Nat) : State.reset.severity source = defaultSeverity source := reset_fget .fcSeverity source

/-- Each of the four PLLs of *Clock registers* has a lock bit. -/
theorem pllField_of_lt {n : Nat} (h : n < 4) :
    ∃ f ∈ [Fld.clkLockEngine, .clkLockFabric, .clkLockTx, .clkLockMgmt], pllField n = some f :=
  match n, h with
  | 0, _ => ⟨.clkLockEngine, by decide, rfl⟩
  | 1, _ => ⟨.clkLockFabric, by decide, rfl⟩
  | 2, _ => ⟨.clkLockTx, by decide, rfl⟩
  | 3, _ => ⟨.clkLockMgmt, by decide, rfl⟩

/-- A locked PLL that loses lock clears its lock bit and begins the condition PLL_UNLOCK (R49). -/
theorem execPllUnlock_of_locked {s : State} {n : Nat} {f : Fld} (hf : pllField n = some f) (hlock : s.fget f 0 = 1) :
    execPllUnlock n s = .next ((s.fset f 0 0).startLasting Source.pllUnlock n Kind.chip 0 n) := by
  unfold execPllUnlock
  simp only [hf, hlock, if_true]

end Sys2Proof.Machine
end

section
/-!
PROOFS. The raise of PLL_UNLOCK (R49).
-/

namespace Sys2Proof.Proofs

open Sys2Proof Sys2Proof.Machine

theorem exec_pllUnlock (n : Nat) (s : State) : exec (.pllUnlock n) s = execPllUnlock n s := rfl

/-- Settles O27: the event clears the PLL's lock bit and begins a lasting condition, whose beginning raises the source. -/
theorem pllUnlockRaises : Obligations.PllUnlockRaises := by
  unfold Obligations.PllUnlockRaises
  refine ⟨(reset_severity _).trans (by decide), fun s n hn => ?_⟩
  obtain ⟨f, hmem, hf⟩ := pllField_of_lt hn
  refine ⟨f, hmem, hf, fun hlock hnew => ⟨?_, ?_⟩⟩
  · rw [fget_fset_self, Nat.zero_mod]
  · have hnew' : (s.fset f 0 0).fc.lasting.contains (Source.pllUnlock, n) = false := hnew
    rw [exec_pllUnlock, execPllUnlock_of_locked hf hlock, startLasting_of_not_lasting _ _ _ hnew', fset_fc]

end Sys2Proof.Proofs
end

section
/-!
SUPPORT. Two's complement numbers, and the integer formats as the data plane stores them (R80).
-/

namespace Sys2Proof.Machine

/-- The two's complement reading of a number that w bits hold. -/
theorem toSigned_of_lt {w v : Nat} (h : v < 2 ^ w) :
    toSigned w v = if v < 2 ^ (w - 1) then (v : Int) else (v : Int) - 2 ^ w := by
  unfold toSigned
  rw [Nat.mod_eq_of_lt h]

@[simp] theorem decodeElem_int8 (code scale : Nat) : decodeElem 3 code scale = (Val.ofInt (toSigned 8 code), 0) := rfl
@[simp] theorem decodeElem_int4 (code scale : Nat) : decodeElem 4 code scale = (Val.ofInt (toSigned 4 code), 0) := rfl
@[simp] theorem decodeElem_int32 (code scale : Nat) : decodeElem 7 code scale = (Val.ofInt (toSigned 32 code), 0) := rfl

/-- An INT4 element lies in one half of a byte. -/
theorem elem_int4 (s : State) (a i : Nat) :
    s.elem 4 a i =
      if i % 2 = 0 then (Mem.byte s.dev (a + i / 2)).toNat % 16 else (Mem.byte s.dev (a + i / 2)).toNat / 16 := rfl

/-- An INT4 element of even index lies in bits 3:0 of its byte (R80). -/
theorem elem_int4_even (s : State) (a i : Nat) : s.elem 4 a (2 * i) = (Mem.byte s.dev (a + i)).toNat % 16 := by
  rw [elem_int4, if_pos (Nat.mul_mod_right 2 i), Nat.mul_div_cancel_left i Nat.two_pos]

/-- An INT4 element of odd index lies in bits 7:4 of its byte (R80). -/
theorem elem_int4_odd (s : State) (a i : Nat) : s.elem 4 a (2 * i + 1) = (Mem.byte s.dev (a + i)).toNat / 16 := by
  have hodd : (2 * i + 1) % 2 ≠ 0 := by omega
  have hbyte : (2 * i + 1) / 2 = i := by omega
  rw [elem_int4, if_neg hodd, hbyte]

/-- Packing puts two INT4 elements into a byte, the first into its low half (R80). -/
theorem packElems_int4_cons_cons (x y rest : Nat) (more : List Nat) :
    packElems 4 rest (x :: y :: more) = BitVec.ofNat 8 (x % 16 + y % 16 * 16) :: packElems 4 rest more := by
  rw [packElems]
  exact if_pos rfl

end Sys2Proof.Machine
end

section
/-!
PROOFS. The integer formats (R80).
-/

namespace Sys2Proof.Proofs

open Sys2Proof Sys2Proof.Machine

/-- Settles O12: an integer element decodes to the two's complement reading of its bits, and both the place of an INT4
element and the packing of a pair give the even element the low half of the byte. -/
theorem integerFormats : Obligations.IntegerFormats := by
  unfold Obligations.IntegerFormats
  refine ⟨fun x hx => ?int8, fun x hx => ?int4, fun x hx => ?int32, fun s a i => ⟨elem_int4_even s a i, elem_int4_odd s a i⟩,
    fun x y rest more hx hy => ?pack⟩
  case int8 =>
    rw [decodeElem_int8, toSigned_of_lt (w := 8) hx]
    rfl
  case int4 =>
    rw [decodeElem_int4, toSigned_of_lt (w := 4) hx]
    rfl
  case int32 => rw [decodeElem_int32, toSigned_of_lt hx]
  case pack => rw [packElems_int4_cons_cons, Nat.mod_eq_of_lt hx, Nat.mod_eq_of_lt hy, Nat.mul_comm y 16]

end Sys2Proof.Proofs
end

section
/-!
SUPPORT. Records of the log by number, and what an acknowledgement does (R487).
-/

namespace Sys2Proof.Machine

/-- Bit 0 of a number is its parity. -/
theorem bitOf_zero_eq_true_iff {v : Nat} : bitOf v 0 = true ↔ v % 2 = 1 := by
  unfold bitOf
  rw [Nat.pow_zero, Nat.div_one, beq_iff_eq]

/-- The slot that holds a record number holds the record of that number. -/
theorem seq_slot_of_slotOf {s : State} {seq i : Nat} (h : s.slotOf seq = some i) : (s.fc.slot i).seq = seq := by
  unfold State.slotOf at h
  obtain ⟨-, hfind⟩ := Option.ite_none_left_eq_some.1 h
  have hseq := List.find?_some hfind
  exact beq_iff_eq.1 hseq

/-- Acknowledging a slot marks the record in it and stops the timers of that record's number. -/
theorem ackSlot_eq (s : State) (i : Nat) :
    s.ackSlot i = { s with fc := { s.fc with
      log := Tab.set LogRec.empty s.fc.log i { s.fc.slot i with acked := true }
      timers := s.fc.timers.filter (fun g => g.seq != (s.fc.slot i).seq) } } := rfl

/-- FC_ACK of a number that the log does not hold is ignored. -/
theorem execFcAck_of_slotOf_none {s : State} {seq : Nat} (h : s.slotOf seq = none) : execFcAck seq s = .next s := by
  unfold execFcAck
  rw [h]

/-- FC_ACK of a number that the log holds acknowledges the record in its slot. -/
theorem execFcAck_of_slotOf_some {s : State} {seq i : Nat} (h : s.slotOf seq = some i) :
    execFcAck seq s = .next (s.ackSlot i) := by
  unfold execFcAck
  rw [h]

/-- FC_ACK_ALL with bit 0 written as 1 acknowledges the whole log. -/
theorem execFcAckAll_of_odd {s : State} {v : Nat} (h : v % 2 = 1) : execFcAckAll v s = .next s.ackAll := by
  unfold execFcAckAll
  rw [if_pos (bitOf_zero_eq_true_iff.2 h)]

end Sys2Proof.Machine
end

section
/-!
PROOFS. Acknowledging records of the log (R487).
-/

namespace Sys2Proof.Proofs

open Sys2Proof Sys2Proof.Machine

theorem exec_fcAck (seq : Nat) (s : State) : exec (.fcAck seq) s = execFcAck seq s := rfl
theorem exec_fcAckAll (value : Nat) (s : State) : exec (.fcAckAll value) s = execFcAckAll value s := rfl

/-- Settles O26: the timers that stop are those of the number written, because the slot found by that number holds its record. -/
theorem acknowledgement : Obligations.Acknowledgement := by
  unfold Obligations.Acknowledgement
  refine fun s seq => ⟨fun hnone => ?unknown, fun i hsome => ?known, fun v hodd => ?all⟩
  case unknown => rw [exec_fcAck, execFcAck_of_slotOf_none hnone]
  case known => rw [exec_fcAck, execFcAck_of_slotOf_some hsome, ackSlot_eq, seq_slot_of_slotOf hsome]
  case all => rw [exec_fcAckAll, execFcAckAll_of_odd hodd, State.ackAll]

end Sys2Proof.Proofs
end

section
/-!
SUPPORT. The leak bit of PWR_STATUS, the sensor that shows it (R450), and the event of a leak (R519).
-/

namespace Sys2Proof.Machine

/-- Register fields do not lie in the fault collector. -/
theorem fget_with_fc (s : State) (c : Collector) (f : Fld) (i : Nat) : ({ s with fc := c } : State).fget f i = s.fget f i := rfl

/-- Sensor 24 reads LEAK of PWR_STATUS, which is 1 for wet. -/
theorem sensor_leak (s : State) : s.sensor 24 = s.fget .pwrLeak 0 := if_pos rfl

/-- LEAK of a powered module is set and the condition LEAK begins (R490, R519). -/
theorem execLeak_of_powered {s : State} (h : s.pwr.powered = true) :
    execLeak s = .next ((s.fset .pwrLeak 0 1).startLasting Source.leak 0 Kind.chip 0 0) := by
  unfold execLeak
  rw [if_neg (ne_false_of_eq_true h)]

end Sys2Proof.Machine
end

section
/-!
PROOFS. The raise of LEAK (R519).
-/

namespace Sys2Proof.Proofs

open Sys2Proof Sys2Proof.Machine

theorem exec_leak (s : State) : exec .leak s = execLeak s := rfl

/-- Settles O28: sensor 24 reads the bit that the event sets, and the condition begins to last, whose beginning raises the source. -/
theorem leakRaises : Obligations.LeakRaises := by
  unfold Obligations.LeakRaises
  intro s hpowered hnew
  have hbit : (s.fset .pwrLeak 0 1).fget .pwrLeak 0 = 1 := fget_fset_self s .pwrLeak 0 1
  have hnew' : (s.fset .pwrLeak 0 1).fc.lasting.contains (Source.leak, 0) = false := hnew
  refine ⟨_, rfl, ?bit, ?sensor, ?lasting, ?raise⟩
  case bit => rw [fget_with_fc, hbit]
  case sensor => rw [sensor_leak, fget_with_fc, hbit]
  case lasting => exact List.contains_iff_mem.2 List.mem_cons_self
  case raise => rw [exec_leak, execLeak_of_powered hpowered, startLasting_of_not_lasting _ _ _ hnew', fset_fc]

end Sys2Proof.Proofs
end

section
/-!
SUPPORT. What no step does (Laws/Keeps.lean), for every command.
-/

namespace Sys2Proof.Machine

/-- A command of any row touches no queue and keeps a good state good. -/
theorem exec_keeps {o : State} (c : Instr) (s : State) (h : Keeps o s) : KeepsOut o (exec c s) := by
  cases c with
  | nop fn ring => exact execNop_keeps fn ring s h
  | reservedOpcode fn ring => exact execReservedOpcode_keeps fn ring s h
  | progLoad fn ring => exact execProgLoad_keeps fn ring s h
  | learnStep fn ring => exact execLearnStep_keeps fn ring s h
  | weightLoad fn ring => exact execWeightLoad_keeps fn ring s h
  | fill fn ring => exact execFill_keeps fn ring s h
  | imageStage fn ring => exact execImageStage_keeps fn ring s h
  | imageApply fn ring => exact execImageApply_keeps fn ring s h
  | imageRelease fn ring => exact execImageRelease_keeps fn ring s h
  | loaderApplyStart => exact execLoaderApplyStart_keeps s h
  | drainWindowEnd p => exact execDrainWindowEnd_keeps p s h
  | seqSubmit fn ring => exact execSeqSubmit_keeps fn ring s h
  | seqCancel fn ring => exact execSeqCancel_keeps fn ring s h
  | kvEdit fn ring => exact execKvEdit_keeps fn ring s h
  | turnBegin fn ring => exact execTurnBegin_keeps fn ring s h
  | turnCommit fn ring => exact execTurnCommit_keeps fn ring s h
  | turnAbandon fn ring => exact execTurnAbandon_keeps fn ring s h
  | commRejoin fn ring => exact execCommRejoin_keeps fn ring s h
  | batchPut fn ring => exact execBatchPut_keeps fn ring s h
  | policySwap fn ring => exact execPolicySwap_keeps fn ring s h
  | policyPublish fn ring => exact execPolicyPublish_keeps fn ring s h
  | move fn ring => exact execMove_keeps fn ring s h
  | stateMove fn ring => exact execStateMove_keeps fn ring s h
  | ckptWrite fn ring => exact execCkptWrite_keeps fn ring s h
  | ckptLoad fn ring => exact execCkptLoad_keeps fn ring s h
  | flashWrite fn ring => exact execFlashWrite_keeps fn ring s h
  | flashTrim fn ring => exact execFlashTrim_keeps fn ring s h
  | kettleResume fn ring => exact execKettleResume_keeps fn ring s h
  | kettleAbandon fn ring => exact execKettleAbandon_keeps fn ring s h
  | attestReport fn ring => exact execAttestReport_keeps fn ring s h
  | sparge fn ring => exact execSparge_keeps fn ring s h
  | fwUpdate fn ring => exact execFwUpdate_keeps fn ring s h
  | lcAdvance fn ring => exact execLcAdvance_keeps fn ring s h
  | authChallenge fn ring => exact execAuthChallenge_keeps fn ring s h
  | debugUnlock fn ring => exact execDebugUnlock_keeps fn ring s h
  | nsClear fn ring => exact execNsClear_keeps fn ring s h
  | replayRun fn ring => exact execReplayRun_keeps fn ring s h
  | faultRelease fn ring => exact execFaultRelease_keeps fn ring s h
  | faultInject fn ring => exact execFaultInject_keeps fn ring s h
  | ctlNop t => exact execCtlNop_keeps t s h
  | ctlLi t => exact execCtlLi_keeps t s h
  | ctlAlu t => exact execCtlAlu_keeps t s h
  | ctlBr t => exact execCtlBr_keeps t s h
  | ctlLoop t => exact execCtlLoop_keeps t s h
  | ctlMod t => exact execCtlMod_keeps t s h
  | ctlVxfer t => exact execCtlVxfer_keeps t s h
  | ctlRdcr t => exact execCtlRdcr_keeps t s h
  | ctlWrcr t => exact execCtlWrcr_keeps t s h
  | ctlEnd t => exact execCtlEnd_keeps t s h
  | mxmLoadw t => exact execMxmLoadw_keeps t s h
  | mxmMul t => exact execMxmMul_keeps t s h
  | mxmDrain t => exact execMxmDrain_keeps t s h
  | mxmGroup t => exact execMxmGroup_keeps t s h
  | mxmFence t => exact execMxmFence_keeps t s h
  | vecSetvl t => exact execVecSetvl_keeps t s h
  | vecAdd t => exact execVecAdd_keeps t s h
  | vecMul t => exact execVecMul_keeps t s h
  | vecFma t => exact execVecFma_keeps t s h
  | vecMin t => exact execVecMin_keeps t s h
  | vecMax t => exact execVecMax_keeps t s h
  | vecCmp t => exact execVecCmp_keeps t s h
  | vecSel t => exact execVecSel_keeps t s h
  | vecEst t => exact execVecEst_keeps t s h
  | vecRsum t => exact execVecRsum_keeps t s h
  | vecRmax t => exact execVecRmax_keeps t s h
  | vecLd t => exact execVecLd_keeps t s h
  | vecSt t => exact execVecSt_keeps t s h
  | movDesc t => exact execMovDesc_keeps t s h
  | movSteep t => exact execMovSteep_keeps t s h
  | movCopy t => exact execMovCopy_keeps t s h
  | bnkAdd t => exact execBnkAdd_keeps t s h
  | bnkMax t => exact execBnkMax_keeps t s h
  | bnkSadd t => exact execBnkSadd_keeps t s h
  | bnkWiden t => exact execBnkWiden_keeps t s h
  | bnkConvert t => exact execBnkConvert_keeps t s h
  | bnkRmaxcap t => exact execBnkRmaxcap_keeps t s h
  | xchCounts t => exact execXchCounts_keeps t s h
  | xchDispatch t => exact execXchDispatch_keeps t s h
  | xchCombine t => exact execXchCombine_keeps t s h
  | xchBdispatch t => exact execXchBdispatch_keeps t s h
  | xchBcombine t => exact execXchBcombine_keeps t s h
  | xchCollReduceScatter t => exact execXchCollReduceScatter_keeps t s h
  | xchCollAllGather t => exact execXchCollAllGather_keeps t s h
  | xchCollAllToAll t => exact execXchCollAllToAll_keeps t s h
  | xchCollBroadcast t => exact execXchCollBroadcast_keeps t s h
  | xchCollScalarAllreduce t => exact execXchCollScalarAllreduce_keeps t s h
  | xchCollBarrier t => exact execXchCollBarrier_keeps t s h
  | attWalk t => exact execAttWalk_keeps t s h
  | attAppend t => exact execAttAppend_keeps t s h
  | attInfo t => exact execAttInfo_keeps t s h
  | synWait t => exact execSynWait_keeps t s h
  | synSignal t => exact execSynSignal_keeps t s h
  | synFence t => exact execSynFence_keeps t s h
  | wordComplete t id => exact execWordComplete_keeps t id s h
  | syncTimeout t => exact execSyncTimeout_keeps t s h
  | stepEnd p => exact execStepEnd_keeps p s h
  | kettleNop st => exact execKettleNop_keeps st s h
  | kettleLd st => exact execKettleLd_keeps st s h
  | kettleSt st => exact execKettleSt_keeps st s h
  | kettleAdd st => exact execKettleAdd_keeps st s h
  | kettleMul st => exact execKettleMul_keeps st s h
  | kettleFma st => exact execKettleFma_keeps st s h
  | kettleMin st => exact execKettleMin_keeps st s h
  | kettleMax st => exact execKettleMax_keeps st s h
  | kettleCmp st => exact execKettleCmp_keeps st s h
  | kettleSel st => exact execKettleSel_keeps st s h
  | kettleSelv st => exact execKettleSelv_keeps st s h
  | kettleEst st => exact execKettleEst_keeps st s h
  | kettleDiv st => exact execKettleDiv_keeps st s h
  | kettleSqrt st => exact execKettleSqrt_keeps st s h
  | kettleRunStart st => exact execKettleRunStart_keeps st s h
  | kettleBlockCommit st => exact execKettleBlockCommit_keeps st s h
  | kettleWaitTimeout st => exact execKettleWaitTimeout_keeps st s h
  | moveLanded id => exact execMoveLanded_keeps id s h
  | steepEntryLanded t entry => exact execSteepEntryLanded_keeps t entry s h
  | patrolScrub t bank => exact execPatrolScrub_keeps t bank s h
  | bankRowRepair t bank row => exact execBankRowRepair_keeps t bank row s h
  | hbmRowRepair st row => exact execHbmRowRepair_keeps st row s h
  | lpddrRowRepair b row => exact execLpddrRowRepair_keeps b row s h
  | accLineRepair t line => exact execAccLineRepair_keeps t line s h
  | spareTakeover t => exact execSpareTakeover_keeps t s h
  | tileUnmapped t => exact execTileUnmapped_keeps t s h
  | bayRetired b => exact execBayRetired_keeps b s h
  | buddyStream p m => exact execBuddyStream_keeps p m s h
  | buddyStreamTimeout p => exact execBuddyStreamTimeout_keeps p s h
  | buddyConfirmTimeout p => exact execBuddyConfirmTimeout_keeps p s h
  | grant p m => exact execGrant_keeps p m s h
  | segAck p m => exact execSegAck_keeps p m s h
  | reductionSegment p m => exact execReductionSegment_keeps p m s h
  | ownerWaitTimeout p comm opNo seg => exact execOwnerWaitTimeout_keeps p comm opNo seg s h
  | senderGrantTimeout p comm opNo owner => exact execSenderGrantTimeout_keeps p comm opNo owner s h
  | orphanTimeout p comm opNo => exact execOrphanTimeout_keeps p comm opNo s h
  | notice p m => exact execNotice_keeps p m s h
  | resendRequest p m => exact execResendRequest_keeps p m s h
  | allGatherMessage p m => exact execAllGatherMessage_keeps p m s h
  | allToAllMessage p m => exact execAllToAllMessage_keeps p m s h
  | broadcastMessage p m => exact execBroadcastMessage_keeps p m s h
  | scalarValueMessage p m => exact execScalarValueMessage_keeps p m s h
  | barrierMessage p m => exact execBarrierMessage_keeps p m s h
  | barrierUpTimeout p comm opNo => exact execBarrierUpTimeout_keeps p comm opNo s h
  | releaseWaitTimeout p comm opNo => exact execReleaseWaitTimeout_keeps p comm opNo s h
  | gatherReceiveTimeout p comm opNo => exact execGatherReceiveTimeout_keeps p comm opNo s h
  | exchangeCountMessage p m => exact execExchangeCountMessage_keeps p m s h
  | exchangeRowsMessage p m => exact execExchangeRowsMessage_keeps p m s h
  | exchangeReceiveTimeout p comm opNo => exact execExchangeReceiveTimeout_keeps p comm opNo s h
  | fenceArrival p m => exact execFenceArrival_keeps p m s h
  | fenceRelease p m => exact execFenceRelease_keeps p m s h
  | batchRecordMessage p m => exact execBatchRecordMessage_keeps p m s h
  | batchAnswerMessage p m => exact execBatchAnswerMessage_keeps p m s h
  | batchAnswerTimeout p => exact execBatchAnswerTimeout_keeps p s h
  | closeValueMessage p m => exact execCloseValueMessage_keeps p m s h
  | sequenceGroupMessage p m => exact execSequenceGroupMessage_keeps p m s h
  | replayRecordMessage p m => exact execReplayRecordMessage_keeps p m s h
  | mgmtMessage p m => exact execMgmtMessage_keeps p m s h
  | flitReceive port flit => exact execFlitReceive_keeps port flit s h
  | laneFailed port lane => exact execLaneFailed_keeps port lane s h
  | restripeComplete port => exact execRestripeComplete_keeps port s h
  | partnerTraining port => exact execPartnerTraining_keeps port s h
  | linkUp port partnerId partnerPort credits => exact execLinkUp_keeps port partnerId partnerPort credits s h
  | linkTrainFail port => exact execLinkTrainFail_keeps port s h
  | linkTrainRetry port => exact execLinkTrainRetry_keeps port s h
  | creditStall port vc => exact execCreditStall_keeps port vc s h
  | linkDown port => exact execLinkDown_keeps port s h
  | retrain port => exact execRetrain_keeps port s h
  | rolloutStepBoundary b => exact execRolloutStepBoundary_keeps b s h
  | rolloutStepLaunch b => exact execRolloutStepLaunch_keeps b s h
  | doorbellWrite fn ring value => exact execDoorbellWrite_keeps fn ring value s h
  | ringEnable fn ring cq => exact execRingEnable_keeps fn ring cq s h
  | cqHeadWrite fn ring value => exact execCqHeadWrite_keeps fn ring value s h
  | coalesceTimeout fn ring => exact execCoalesceTimeout_keeps fn ring s h
  | quiesceWrite p value => exact execQuiesceWrite_keeps p value s h
  | holdWrite value => exact execHoldWrite_keeps value s h
  | fcAck seq => exact execFcAck_keeps seq s h
  | fcAckAll value => exact execFcAckAll_keeps value s h
  | numFlagsClear t value => exact execNumFlagsClear_keeps t value s h
  | kvCtrlWrite fn b value => exact execKvCtrlWrite_keeps fn b value s h
  | seqAreaWrite fn b area size => exact execSeqAreaWrite_keeps fn b area size s h
  | flashNsWrite p base size slot => exact execFlashNsWrite_keeps p base size slot s h
  | recoveryChunk k data => exact execRecoveryChunk_keeps k data s h
  | recoveryGo => exact execRecoveryGo_keeps s h
  | replayArm p => exact execReplayArm_keeps p s h
  | replayDisarm p => exact execReplayDisarm_keeps p s h
  | registerWrite fn addr value => exact execRegisterWrite_keeps fn addr value s h
  | vfEnable numVfs => exact execVfEnable_keeps numVfs s h
  | vfDisable vf => exact execVfDisable_keeps vf s h
  | warmReset external => exact execWarmReset_keeps external s h
  | modulePowerOn straps => exact execModulePowerOn_keeps straps s h
  | powerDown centivolts => exact execPowerDown_keeps centivolts s h
  | supplySag centivolts => exact execSupplySag_keeps centivolts s h
  | sagEnd centivolts => exact execSagEnd_keeps centivolts s h
  | supplyUnder centivolts => exact execSupplyUnder_keeps centivolts s h
  | powerCapAdjust meanWatts slow => exact execPowerCapAdjust_keeps meanWatts slow s h
  | powerPeakLimit watts centiamps => exact execPowerPeakLimit_keeps watts centiamps s h
  | thermalThrottle stack celsius => exact execThermalThrottle_keeps stack celsius s h
  | limit105 celsius => exact execLimit105_keeps celsius s h
  | thermalTrip stack celsius => exact execThermalTrip_keeps stack celsius s h
  | hbmRefreshDouble stack celsius => exact execHbmRefreshDouble_keeps stack celsius s h
  | temperatureRecovered stack celsius => exact execTemperatureRecovered_keeps stack celsius s h
  | leak => exact execLeak_keeps s h
  | tamper cause => exact execTamper_keeps cause s h
  | pllUnlock pll => exact execPllUnlock_keeps pll s h
  | collectorParity => exact execCollectorParity_keeps s h
  | idleEntry => exact execIdleEntry_keeps s h
  | idleWake => exact execIdleWake_keeps s h
  | graceExpiry seq => exact execGraceExpiry_keeps seq s h
  | quietExpiry scope => exact execQuietExpiry_keeps scope s h
  | faultPulseEnd => exact execFaultPulseEnd_keeps s h
  | getVersion fn req => exact execGetVersion_keeps fn req s h
  | getCapabilities fn req => exact execGetCapabilities_keeps fn req s h
  | negotiateAlgorithms fn req => exact execNegotiateAlgorithms_keeps fn req s h
  | getDigests fn req => exact execGetDigests_keeps fn req s h
  | getCertificate fn req => exact execGetCertificate_keeps fn req s h
  | challenge fn req => exact execChallenge_keeps fn req s h
  | getMeasurements fn req => exact execGetMeasurements_keeps fn req s h
  | keyExchange fn req => exact execKeyExchange_keeps fn req s h
  | finish fn req => exact execFinish_keeps fn req s h
  | keyUpdate fn req => exact execKeyUpdate_keeps fn req s h
  | endSession fn req => exact execEndSession_keeps fn req s h
  | mctpControlMessage req => exact execMctpControlMessage_keeps req s h
  | pldmBaseRequest req => exact execPldmBaseRequest_keeps req s h
  | pldmPlatformRequest req => exact execPldmPlatformRequest_keeps req s h
  | pldmFruRequest req => exact execPldmFruRequest_keeps req s h
  | sensorUpdate sensor value => exact execSensorUpdate_keeps sensor value s h
  | leakCleared => exact execLeakCleared_keeps s h
  | supplyUnderEnd centivolts => exact execSupplyUnderEnd_keeps centivolts s h
  | pllLockRegained pll => exact execPllLockRegained_keeps pll s h
  | buddyTrailerConfirm p m => exact execBuddyTrailerConfirm_keeps p m s h
  | remoteLoadRequest p m => exact execRemoteLoadRequest_keeps p m s h
  | remoteLoadTimeout p => exact execRemoteLoadTimeout_keeps p s h
  | replicaFetchRequest p m => exact execReplicaFetchRequest_keeps p m s h
  | closeAgreementTimeout b => exact execCloseAgreementTimeout_keeps b s h
  | perstNRelease => exact execPerstNRelease_keeps s h
  | flashProgramDone p => exact execFlashProgramDone_keeps p s h

/-- The queue is no part of what makes a state good. -/
theorem good_pending {s : State} (q : List Instr) (h : s.Good) : State.Good { s with pending := q } :=
  good_tabs (s := s) (Eq.refl _) h

theorem step_cons {s : State} {c : Instr} {rest : List Instr} (h : s.pending = c :: rest) : step s = exec c { s with pending := rest } := by
  unfold step
  rw [h]

theorem step_nil {s : State} (h : s.pending = []) : step s = .next s.tick := by
  unfold step
  rw [h]
  rfl

/-- A step keeps a good state good, whether it runs the command in front or ticks. -/
theorem step_keeps_good {s t : State} (h : s.Good) (e : step s = .next t) : t.Good := by
  cases hq : s.pending with
  | nil =>
    rw [step_nil hq] at e
    obtain rfl := Host.Outcome.next.inj e
    exact (tick_keeps s Keeps.rfl).2 h
  | cons c rest =>
    rw [step_cons hq] at e
    exact (exec_keeps c _ Keeps.rfl t e).2 (good_pending rest h)

/-- After reset every table is empty. -/
theorem reset_good : State.reset.Good := by
  refine ⟨⟨⟨rfl, rfl, rfl, rfl⟩, rfl, rfl, rfl, rfl, rfl, rfl, rfl, rfl, rfl, rfl⟩, fun f i v h => ?_⟩
  cases h

end Sys2Proof.Machine
end

section
/-!
PROOFS. Steps: what runs, that it answers, and what every step keeps (R7, R8).
-/

namespace Sys2Proof.Proofs

open Sys2Proof Sys2Proof.Machine

/-- Settles O6: no command and no tick leaves a table out of its form or a field beyond its width (`Keeps`, said of every operation). -/
theorem stepKeepsForm : Obligations.StepKeepsForm := by
  unfold Obligations.StepKeepsForm
  exact fun s t hc hf e => step_keeps_good ⟨hc, hf⟩ e

/-- Settles O4: the same invariant says of every command that the queue stands. -/
theorem queueStands : Obligations.QueueStands := by
  unfold Obligations.QueueStands
  exact fun c s t e => (exec_keeps c s Keeps.rfl t e).1

/-- Settles O1: the queue of that state begins with c. -/
theorem stepRunsFront : Obligations.StepRunsFront := by
  unfold Obligations.StepRunsFront
  exact fun s c => step_cons rfl

/-- Settles O2: a step looks at the queue alone. -/
theorem idleTicks : Obligations.IdleTicks := by
  unfold Obligations.IdleTicks
  exact fun s h => step_nil h

/-- Settles O3: the meaning of every row is a next state, whatever it holds. -/
theorem execAnswers : Obligations.ExecAnswers := by
  unfold Obligations.ExecAnswers
  intro c s
  cases c <;> exact ⟨_, rfl⟩

/-- Settles O5: every table of the reset state is empty. -/
theorem resetForm : Obligations.ResetForm := by
  unfold Obligations.ResetForm
  exact reset_good

/-- Settles O7: at reset no field is stored, so each reads as its reset value. -/
theorem resetRegisters : Obligations.ResetRegisters := by
  unfold Obligations.ResetRegisters
  simp only [reset_fget]
  exact ⟨fun _ => ⟨rfl, rfl, rfl⟩, fun _ => rfl, fun _ => rfl, rfl, rfl, rfl, rfl, rfl, rfl, rfl, rfl, rfl, rfl⟩

end Sys2Proof.Proofs
end

section
/-!
SUPPORT. Byte strings in memory: what a range reads after it is written, and little-endian numbers (R7).
-/

namespace Sys2Proof.Machine

@[simp] theorem leBytes_length : ∀ n v : Nat, (leBytes n v).length = n
  | 0, _ => rfl
  | n + 1, v => congrArg (· + 1) (leBytes_length n (v / 256))

/-- Byte i of a little-endian number is its bits 8 i + 7 to 8 i. -/
theorem leBytes_getD (d : Byte) : ∀ {n i : Nat} (v : Nat), i < n → (leBytes n v).getD i d = BitVec.ofNat 8 (v / 2 ^ (8 * i))
  | n + 1, 0, v, _ => by simp [leBytes]
  | n + 1, i + 1, v, h => by
    have ih := leBytes_getD d (v / 256) (Nat.lt_of_succ_lt_succ h)
    rw [Nat.div_div_eq_div_mul] at ih
    rw [leBytes, List.getD_cons_succ, ih, Nat.mul_succ, Nat.pow_add, Nat.mul_comm (2 ^ (8 * i))]

/-- The bytes of a number spell it, cut to their width. -/
theorem leNat_leBytes : ∀ n v : Nat, leNat (leBytes n v) = v % 2 ^ (8 * n)
  | 0, v => by rw [leBytes, leNat, Nat.mul_zero, Nat.pow_zero, Nat.mod_one]
  | n + 1, v => by
    rw [leBytes, leNat, leNat_leBytes n, BitVec.toNat_ofNat, Nat.mul_succ, Nat.add_comm (8 * n), Nat.pow_add]
    exact (Nat.mod_mul).symm

theorem mem_read_length (m : Mem) : ∀ (n a : Nat), (Mem.read m a n).length = n
  | 0, _ => rfl
  | n + 1, a => congrArg (· + 1) (mem_read_length m n (a + 1))

theorem mem_read_getD (m : Mem) (d : Byte) : ∀ {n i : Nat} (a : Nat), i < n → (Mem.read m a n).getD i d = Mem.byte m (a + i)
  | n + 1, 0, _, _ => rfl
  | n + 1, i + 1, a, h => by
    rw [Mem.read, List.getD_cons_succ, mem_read_getD m d (a + 1) (Nat.lt_of_succ_lt_succ h), Nat.add_right_comm, Nat.add_assoc]

/-- A byte of what was just written. -/
theorem mem_byte_write_mem (m : Mem) (a : Nat) {bs : List Byte} {i : Nat} (h : i < bs.length) :
    Mem.byte (Mem.write m a bs) (a + i) = bs.getD i 0 := by
  rw [mem_byte_write, if_pos ⟨Nat.le_add_right a i, Nat.add_lt_add_left h a⟩, Nat.add_sub_cancel_left]

/-- A byte outside what was just written. -/
theorem mem_byte_write_outside (m : Mem) {a x : Nat} {bs : List Byte} (h : x < a ∨ a + bs.length ≤ x) :
    Mem.byte (Mem.write m a bs) x = Mem.byte m x := by
  rw [mem_byte_write, if_neg]
  rintro ⟨hlo, hhi⟩
  omega

/-- A range reads as the bytes just written to it. -/
theorem mem_read_write (m : Mem) (a : Nat) (bs : List Byte) : Mem.read (Mem.write m a bs) a bs.length = bs := by
  apply List.ext_getElem (mem_read_length _ _ _)
  intro i hi hi'
  have h := mem_read_getD (Mem.write m a bs) 0 a hi'
  rw [mem_byte_write_mem m a hi'] at h
  rwa [List.getD_eq_getElem _ _ hi, List.getD_eq_getElem _ _ hi'] at h

/-- Device memory after a write that covers no failing codeword in part. -/
theorem devWrite_dev_of_whole {s : State} {a : Nat} {bs : List Byte} (h : s.badEdge a bs.length = false) :
    (s.devWrite a bs).dev = Mem.write s.dev a bs := by
  unfold State.devWrite
  rw [if_neg (ne_true_of_eq_false h)]

/-- A byte outside a write stands, whether the write takes place or a failing codeword stops it. -/
theorem devWrite_byte_outside (s : State) {a x : Nat} {bs : List Byte} (h : x < a ∨ a + bs.length ≤ x) :
    Mem.byte (s.devWrite a bs).dev x = Mem.byte s.dev x := by
  unfold State.devWrite
  split
  · rfl
  · exact mem_byte_write_outside _ h

theorem devZero_byte (s : State) (a n x : Nat) : Mem.byte (s.devZero a n).dev x = if a ≤ x ∧ x < a + n then 0 else Mem.byte s.dev x :=
  tab_get_clear 0 s.dev a (a + n) x

/-! ### Scalar registers of a tile -/

theorem setSreg_zero (x : Tile) (v : Nat) : x.setSreg 0 v = x := if_pos rfl
theorem sreg_zero (x : Tile) : x.sreg 0 = 0 := if_pos rfl

/-- A register other than S0 reads as the 64 bits just written to it (R165). -/
theorem sreg_setSreg_self (x : Tile) {r : Nat} (v : Nat) (h : r ≠ 0) : (x.setSreg r v).sreg r = v % 2 ^ 64 := by
  unfold Tile.setSreg Tile.sreg
  rw [if_neg h, if_neg h, tab_get_set, if_pos rfl, BitVec.toNat_ofNat]

theorem sreg_setSreg_ne (x : Tile) {r q : Nat} (v : Nat) (h : q ≠ r) : (x.setSreg r v).sreg q = x.sreg q := by
  unfold Tile.setSreg
  split
  · rfl
  · unfold Tile.sreg
    rw [tab_get_set, if_neg h]

theorem setSreg_vregs (x : Tile) (r v : Nat) : (x.setSreg r v).vregs = x.vregs := by unfold Tile.setSreg; split <;> rfl
theorem setSreg_masks (x : Tile) (r v : Nat) : (x.setSreg r v).masks = x.masks := by unfold Tile.setSreg; split <;> rfl

end Sys2Proof.Machine
end

section
/-!
PROOFS. Registers and memories read as last written (R7, R8, R142, R165).
-/

namespace Sys2Proof.Proofs

open Sys2Proof Sys2Proof.Machine

/-- Settles O8: a store is one entry of the register table, at a key of its own. -/
theorem registerFields : Obligations.RegisterFields := by
  unfold Obligations.RegisterFields
  exact fun s f g i j v => ⟨fget_fset_self s f i v, fget_fset_ne s v, rfl⟩

/-- Settles O9. -/
theorem scalarRegisters : Obligations.ScalarRegisters := by
  unfold Obligations.ScalarRegisters
  exact fun x r q v => ⟨sreg_zero _, sreg_setSreg_self x v, sreg_setSreg_ne x v, setSreg_zero x v, setSreg_vregs x r v, setSreg_masks x r v⟩

/-- Settles O10: the write takes place, and a byte reads as `mem_byte_write` says. -/
theorem deviceMemory : Obligations.DeviceMemory := by
  unfold Obligations.DeviceMemory
  intro s a x bs h
  rw [devWrite_dev_of_whole h, mem_byte_write]

/-- Settles O11: the range reads as the bytes written, which spell the number. -/
theorem littleEndian : Obligations.LittleEndian := by
  unfold Obligations.LittleEndian
  refine fun m a n v => ⟨?_, fun i hi => ?_⟩
  · have h := mem_read_write m a (leBytes n v)
    rw [leBytes_length] at h
    rw [Mem.readNat, Mem.writeNat, h, leNat_leBytes]
  · rw [Mem.writeNat, mem_byte_write_mem m a (by rwa [leBytes_length]), leBytes_getD 0 v hi, BitVec.toNat_ofNat]

end Sys2Proof.Proofs
end

section
/-!
SUPPORT. Two's complement numbers and their clamp (R86).
-/

namespace Sys2Proof.Machine

theorem ofSigned_lt (w : Nat) (r : Int) : ofSigned w r < 2 ^ w := by
  unfold ofSigned
  have hpos : (0 : Int) < 2 ^ w := Int.pow_pos (by decide)
  have h0 := Int.emod_nonneg r (Int.ne_of_gt hpos)
  have h1 := Int.emod_lt_of_pos r hpos
  zify
  rwa [Int.toNat_of_nonneg h0]

/-- The bits of an integer that w bits hold read back as it. -/
theorem toSigned_ofSigned {w : Nat} (hw : 0 < w) {r : Int} (hlo : -2 ^ (w - 1) ≤ r) (hhi : r < 2 ^ (w - 1)) :
    toSigned w (ofSigned w r) = r := by
  obtain ⟨n, rfl⟩ : ∃ n, w = n + 1 := ⟨w - 1, by omega⟩
  obtain ⟨half, hhalf⟩ : ∃ half, 2 ^ n = half := ⟨_, rfl⟩
  have hint : (2 : Int) ^ n = half := by rw [← hhalf]; push_cast; rfl
  have hpow : (2 : Int) ^ (n + 1) = 2 * half := by rw [← hint]; ring
  rw [Nat.add_sub_cancel, hint] at hlo hhi
  have hmod : r % (2 * half) = if r < 0 then r + 2 * half else r := by
    split
    · rw [← Int.add_emod_right, Int.emod_eq_of_lt] <;> omega
    · exact Int.emod_eq_of_lt (by omega) (by omega)
  have hbits : ((ofSigned (n + 1) r : Nat) : Int) = if r < 0 then r + 2 * half else r := by
    unfold ofSigned
    rw [hpow, Int.toNat_of_nonneg (Int.emod_nonneg r (by omega)), hmod]
  rw [toSigned_of_lt (ofSigned_lt (n + 1) r), Nat.add_sub_cancel, hhalf, hpow]
  split at hbits <;> split <;> omega

/-- The clamp to w bits, and that it tells where it clamps. -/
theorem satInt_eq (w : Nat) (v : Int) : satInt w v =
    (max (-(2 ^ (w - 1))) (min (2 ^ (w - 1) - 1) v), decide (v < -(2 ^ (w - 1)) ∨ 2 ^ (w - 1) - 1 < v)) := by
  have hpos : (0 : Int) < 2 ^ (w - 1) := Int.pow_pos (by decide)
  unfold satInt
  split
  · next h => rw [min_eq_right (by omega), max_eq_left (by omega), decide_eq_true (.inl h)]
  · next h =>
    split
    · next h' => rw [min_eq_left (by omega), max_eq_right (by omega), decide_eq_true (.inr h')]
    · next h' => rw [min_eq_right (by omega), max_eq_right (by omega), decide_eq_false (by tauto)]

end Sys2Proof.Machine
end

section
/-!
PROOFS. Saturating sums and event counters (R86, R176).
-/

namespace Sys2Proof.Proofs

open Sys2Proof Sys2Proof.Machine

/-- Settles O13: the sum is clamped to 32 bits, and the bits of the clamped value read back as it. -/
theorem integerSums : Obligations.IntegerSums := by
  unfold Obligations.IntegerSums
  intro a b v
  have hsum : i32add a b = ⟨ofSigned 32 (max (-(2 ^ 31)) (min (2 ^ 31 - 1) v)), if v < -(2 ^ 31) ∨ 2 ^ 31 - 1 < v then flOF else 0⟩ := by
    unfold i32add
    rw [satInt_eq]
    simp only [decide_eq_true_eq]
    rfl
  rw [hsum]
  exact ⟨ofSigned_lt 32 _, toSigned_ofSigned (w := 32) (by decide) (by omega) (by omega), rfl⟩

/-- Settles O14: below 2^32 the sum is stored, which touches the register table alone; from there the largest value is. -/
theorem eventCounters : Obligations.EventCounters := by
  unfold Obligations.EventCounters
  intro s t ev n _
  refine ⟨fun hfits => ?_, fun hpast => ?_⟩
  · have he : s.signalTile t ev n = s.fset .ev (64 * t + ev) (s.fget .ev (64 * t + ev) + n) := if_pos hfits
    rw [he]
    refine ⟨?_, rfl, fun f i h => fget_fset_ne s _ h⟩
    rw [fget_fset_self]
    exact Nat.mod_eq_of_lt hfits
  · refine ⟨fget_fset_self .., ?_⟩
    exact if_neg (Nat.not_lt.2 hpast)

end Sys2Proof.Proofs
end

section
/-!
SUPPORT. What FILL writes (R441).
-/

namespace Sys2Proof.Machine

/-- The bytes of a pattern repeated over n bytes. -/
theorem flatMap_leBytes_length (pat : Nat) : ∀ k, ((List.range k).flatMap (fun _ => leBytes 8 pat)).length = 8 * k
  | 0 => rfl
  | k + 1 => by
    rw [List.range_succ, List.flatMap_append, List.length_append, flatMap_leBytes_length pat k]
    simp
    omega

theorem flatMap_leBytes_getD (pat : Nat) (d : Byte) : ∀ {k i : Nat}, i < 8 * k →
    ((List.range k).flatMap (fun _ => leBytes 8 pat)).getD i d = BitVec.ofNat 8 (pat / 2 ^ (8 * (i % 8)))
  | k + 1, i, h => by
    have hlen := flatMap_leBytes_length pat k
    rw [List.range_succ, List.flatMap_append, List.flatMap_singleton]
    by_cases hi : i < 8 * k
    · rw [List.getD_append _ _ _ _ (by omega), flatMap_leBytes_getD pat d hi]
    · rw [List.getD_append_right _ _ _ _ (by omega), hlen, leBytes_getD d pat (by omega), show i - 8 * k = i % 8 by omega]

/-- One piece of a FILL: zero bytes of valid check bits, or the pattern written. -/
def State.fillPiece (s : State) (pat a n : Nat) : State :=
  if pat = 0 then s.devZero a n else s.devWrite a ((List.range (n / 8)).flatMap (fun _ => leBytes 8 pat))

theorem fillPieces_nil (s : State) (pat : Nat) : s.fillPieces pat [] = s := rfl
theorem fillPieces_cons (s : State) (pat a n : Nat) (rest : List (Nat × Nat)) :
    s.fillPieces pat ((a, n) :: rest) = (s.fillPiece pat a n).fillPieces pat rest := rfl

/-- Byte i of a filled piece is byte i mod 8 of the pattern. -/
theorem fillPiece_byte {s : State} {pat a n i : Nat} (hn : n % 8 = 0) (hb : s.badEdge a n = false) (hi : i < n) :
    Mem.byte (s.fillPiece pat a n).dev (a + i) = BitVec.ofNat 8 (pat / 2 ^ (8 * (i % 8))) := by
  unfold State.fillPiece
  split
  · next h0 => rw [devZero_byte, if_pos (by omega), h0, Nat.zero_div]; rfl
  · have hlen : ((List.range (n / 8)).flatMap (fun _ => leBytes 8 pat)).length = n := by rw [flatMap_leBytes_length]; omega
    rw [devWrite_dev_of_whole (by rwa [hlen]), mem_byte_write_mem _ _ (by omega), flatMap_leBytes_getD pat 0 (by omega)]

/-- A byte outside a filled piece stands. -/
theorem fillPiece_byte_outside (s : State) (pat : Nat) {a n x : Nat} (hn : n % 8 = 0) (hx : x < a ∨ a + n ≤ x) :
    Mem.byte (s.fillPiece pat a n).dev x = Mem.byte s.dev x := by
  unfold State.fillPiece
  split
  · rw [devZero_byte, if_neg (by omega)]
  · exact devWrite_byte_outside s (by rw [flatMap_leBytes_length]; omega)

theorem fillPieces_byte_outside (pat x : Nat) : ∀ (ps : List (Nat × Nat)) (s : State),
    (∀ q ∈ ps, q.2 % 8 = 0 ∧ (x < q.1 ∨ q.1 + q.2 ≤ x)) → Mem.byte (s.fillPieces pat ps).dev x = Mem.byte s.dev x
  | [], _, _ => rfl
  | (a, n) :: ps, s, h => by
    obtain ⟨⟨hn, hx⟩, hrest⟩ := List.forall_mem_cons.1 h
    rw [fillPieces_cons, fillPieces_byte_outside pat x ps _ hrest, fillPiece_byte_outside s pat hn hx]

end Sys2Proof.Machine
end

section
/-!
PROOFS. What FILL writes (R441).
-/

namespace Sys2Proof.Proofs

open Sys2Proof Sys2Proof.Machine

/-- Settles O23: piece by piece. -/
theorem fillContent : Obligations.FillContent := by
  unfold Obligations.FillContent
  refine ⟨fun s pat a n i hn hb hi => ?_, fun s pat x ps h => fillPieces_byte_outside pat x ps s h⟩
  rw [fillPieces_cons, fillPieces_nil, fillPiece_byte hn hb hi]

end Sys2Proof.Proofs
end

section
/-!
SUPPORT. Posting a completion record (R435, R437).
-/

namespace Sys2Proof.Machine

/-! ### Raising a vector touches the MSI-X tables alone -/

theorem interrupt_host (s : State) (fn v : Nat) : (s.interrupt fn v).host = s.host := by unfold State.interrupt; split <;> rfl
theorem interrupt_dev (s : State) (fn v : Nat) : (s.interrupt fn v).dev = s.dev := by unfold State.interrupt; split <;> rfl
theorem interrupt_ring (s : State) (fn v r : Nat) : (s.interrupt fn v).ring r = s.ring r := by unfold State.interrupt; split <;> rfl
theorem interrupt_fget (s : State) (fn v : Nat) (f : Fld) (i : Nat) : (s.interrupt fn v).fget f i = s.fget f i := by
  unfold State.interrupt; split <;> rfl

/-! ### Counting a record as pending touches its ring's count and the MSI-X tables alone -/

theorem countPending_host (s : State) (fn ring : Nat) : (s.countPending fn ring).host = s.host := by
  unfold State.countPending
  dsimp only
  split
  · exact interrupt_host ..
  · rfl

theorem countPending_dev (s : State) (fn ring : Nat) : (s.countPending fn ring).dev = s.dev := by
  unfold State.countPending
  dsimp only
  split
  · exact interrupt_dev ..
  · rfl

theorem countPending_fget (s : State) (fn ring : Nat) (f : Fld) (i : Nat) : (s.countPending fn ring).fget f i = s.fget f i := by
  unfold State.countPending
  dsimp only
  split
  · exact interrupt_fget ..
  · rfl

theorem ring_modRing_phase (s : State) (r q : Nat) {f : Ring → Ring} (hf : ∀ x, (f x).phase = x.phase) :
    ((s.modRing r f).ring q).phase = (s.ring q).phase := by
  rw [ring_modRing]
  split
  · next h => rw [hf, h]
  · rfl

theorem countPending_phase (s : State) (fn ring q : Nat) : ((s.countPending fn ring).ring q).phase = (s.ring q).phase := by
  unfold State.countPending
  dsimp only
  split
  · rw [interrupt_ring, ring_modRing_phase]; exact fun _ => rfl
  · exact ring_modRing_phase s _ q (fun _ => rfl)

/-! ### The record -/

/-- The 32 bytes of the record that a ring writes next: `body` with the ring's phase, and its next sequence number (R435). -/
def State.cqRecord (s : State) (r : Nat) (body : List Byte) : List Byte :=
  body.take 3 ++ leBytes 1 (bitNat (s.ring r).phase) ++ body.drop 4 ++ leBytes 4 (((s.ring r).seq + 1) % 2 ^ 32)

theorem cqRecord_length (s : State) (r : Nat) {body : List Byte} (h : body.length = 28) : (s.cqRecord r body).length = 32 := by
  simp [State.cqRecord, h]

/-- The record stands at CQ_TAIL, and the ring has moved on. -/
def State.recordWritten (s : State) (r : Nat) (body : List Byte) : State :=
  let tail := (s.fget .cqTail r + 1) % s.cqSize r
  ((s.hostWrite (s.fget .cqBase r + 32 * s.fget .cqTail r) (s.cqRecord r body)).fset .cqTail r tail).modRing r
    (fun y => { y with seq := ((s.ring r).seq + 1) % 2 ^ 32, phase := if tail = 0 then !y.phase else y.phase })

theorem writeRecord_of_unsealed {s : State} {fn : Nat} (ring : Nat) (noIrq : Bool) (body : List Byte) (h : s.sealed fn = false) :
    s.writeRecord fn ring noIrq body =
      if !noIrq && (s.recordWritten (ringIdx fn ring) body).fget .cqIrqEn (ringIdx fn ring) == 1 then
        (s.recordWritten (ringIdx fn ring) body).countPending fn ring
      else s.recordWritten (ringIdx fn ring) body := by
  unfold State.writeRecord
  simp only [h, Bool.false_eq_true, if_false]
  rfl

theorem recordWritten_host (s : State) (r : Nat) (body : List Byte) :
    (s.recordWritten r body).host = Mem.write s.host (s.fget .cqBase r + 32 * s.fget .cqTail r) (s.cqRecord r body) := rfl

theorem recordWritten_tail {s : State} {r : Nat} (body : List Byte) (h : s.fget .cqLog2Size r ≤ 16) :
    (s.recordWritten r body).fget .cqTail r = (s.fget .cqTail r + 1) % s.cqSize r := by
  have hsize : s.cqSize r ≤ 2 ^ 16 := Nat.pow_le_pow_right (by decide) h
  have hlt : (s.fget .cqTail r + 1) % s.cqSize r < s.cqSize r := Nat.mod_lt _ (Nat.two_pow_pos _)
  unfold State.recordWritten
  rw [modRing_fget, fget_fset_self]
  exact Nat.mod_eq_of_lt (Nat.lt_of_lt_of_le hlt (Nat.le_trans hsize (by decide)))

theorem recordWritten_phase (s : State) (r : Nat) (body : List Byte) : ((s.recordWritten r body).ring r).phase =
    if (s.fget .cqTail r + 1) % s.cqSize r = 0 then !(s.ring r).phase else (s.ring r).phase := by
  unfold State.recordWritten
  rw [ring_modRing, if_pos rfl]
  rfl

/-- Writing a record of an unsealed function, with or without its interrupt. -/
theorem writeRecord_frame {s : State} {fn : Nat} (ring : Nat) (noIrq : Bool) (body : List Byte) (h : s.sealed fn = false) :
    let t := s.recordWritten (ringIdx fn ring) body
    let s' := s.writeRecord fn ring noIrq body
    s'.host = t.host ∧ s'.dev = t.dev ∧ (∀ f i, s'.fget f i = t.fget f i) ∧ ∀ q, (s'.ring q).phase = (t.ring q).phase := by
  rw [writeRecord_of_unsealed ring noIrq body h]
  dsimp only
  split
  · exact ⟨countPending_host .., countPending_dev .., countPending_fget _ _ _, countPending_phase _ _ _⟩
  · exact ⟨rfl, rfl, fun _ _ => rfl, fun _ => rfl⟩

/-- A record goes to an enabled ring with room and nothing held, of a function that gets records (R435, R449). -/
theorem post_of_room {s : State} {fn ring : Nat} (noIrq : Bool) (body : List Byte) (hup : s.fnUp fn = true)
    (hdis : fn = 0 ∨ (s.part (fn - 1)).drain.any (fun d => d.why == 1) = false) (hheld : (s.ring (ringIdx fn ring)).held = [])
    (hroom : s.cqRoom (ringIdx fn ring) = true) (hplain : s.sealed fn = false) :
    s.post fn ring noIrq body = s.writeRecord fn ring noIrq body := by
  have hstops : (!s.fnUp fn || (fn != 0 && (s.part (fn - 1)).drain.any (fun d => d.why == 1))) = false := by
    rcases hdis with rfl | hdis
    · rw [hup]; rfl
    · rw [hup, hdis, Bool.and_false]; rfl
  have hspent : s.cqSpent fn ring = false := by unfold State.cqSpent; rw [hplain]; rfl
  unfold State.post
  dsimp only
  rw [hstops, hheld, hroom, hspent]
  rfl

end Sys2Proof.Machine
end

section
/-!
PROOFS. Posting a completion record (R435).
-/

namespace Sys2Proof.Proofs

open Sys2Proof Sys2Proof.Machine

/-- Settles O24: the record is written, and what an interrupt adds touches none of what the statement speaks of. -/
theorem recordPosted : Obligations.RecordPosted := by
  unfold Obligations.RecordPosted
  intro s fn ring noIrq body r a s' hup hdis hheld hroom hplain hsize hlen
  have he : s' = s.writeRecord fn ring noIrq body := post_of_room noIrq body hup hdis hheld hroom hplain
  obtain ⟨hhost, hdev, hreg, hphase⟩ := writeRecord_frame ring noIrq body hplain
  have hrec : (s.cqRecord r body).length = 32 := cqRecord_length s r hlen
  rw [he]
  refine ⟨?record, fun x hx => ?outside, hdev, ?tail, ?phase⟩
  case record =>
    have hread := mem_read_write s.host a (s.cqRecord r body)
    rw [hrec] at hread
    rw [State.hostRead, hhost, recordWritten_host]
    exact hread
  case outside => rw [hhost, recordWritten_host]; exact mem_byte_write_outside _ (by rw [hrec]; exact hx)
  case tail => rw [hreg]; exact recordWritten_tail body hsize
  case phase => rw [hphase]; exact recordWritten_phase s r body

end Sys2Proof.Proofs
end

section
/-!
SUPPORT. What capturing a record for a replay leaves alone in the collector: its log, and the registers that show where it stands.
-/

namespace Sys2Proof.Machine

/-- The collector has in s what it has in o, and FC_LOG_HEAD, FC_LOG_SLOT and FC_LOST show the same. -/
structure SameLog (o s : State) : Prop where
  fc : s.fc = o.fc
  shown : ∀ f ∈ [Fld.fcLogHead, .fcSlot, .fcLost], s.fget f 0 = o.fget f 0

namespace SameLog

variable {o s t : State}

theorem refl (s : State) : SameLog s s := ⟨rfl, fun _ _ => rfl⟩

/-- Only the collector and the register fields count. -/
theorem congr (h : SameLog o s) (hc : t.fc = s.fc) (hr : t.regs = s.regs) : SameLog o t where
  fc := hc.trans h.fc
  shown f hf := by rw [← h.shown f hf]; unfold State.fget; rw [hr]

theorem modPart (h : SameLog o s) (p : Nat) (f : Part → Part) : SameLog o (s.modPart p f) := h.congr rfl rfl

theorem ite {c : Prop} [Decidable c] (hs : SameLog o s) (ht : SameLog o t) : SameLog o (if c then s else t) := by
  split
  · exact hs
  · exact ht

theorem fset (h : SameLog o s) {f : Fld} (i v : Nat) (hf : f ∉ [Fld.fcLogHead, .fcSlot, .fcLost] := by decide) : SameLog o (s.fset f i v) where
  fc := h.fc
  shown g hg := (fget_fset_ne s v (.inl (fun e : g = f => hf (e ▸ hg)))).trans (h.shown g hg)

theorem devWrite (h : SameLog o s) (a : Nat) (bs : List Byte) : SameLog o (s.devWrite a bs) := by
  unfold State.devWrite
  exact h.ite (h.congr rfl rfl)

theorem pump : ∀ (n q : Nat) {s : State}, SameLog o s → SameLog o (State.pump n s q)
  | 0, _, _, h => h
  | n + 1, q, s, h => by
    unfold State.pump
    refine h.ite ?_
    split
    · exact h
    · next x g again _ =>
      have taken : SameLog o (s.setPort q x) := h.congr rfl rfl
      have sent : SameLog o (if flitTy g = 0 then s.setPort q x else (s.setPort q x).finc .linkTxFlits q 1) := taken.ite (taken.fset ..)
      exact pump n q (SameLog.congr (SameLog.ite (sent.fset (f := .linkReplays) ..) sent) rfl rfl)

theorem send (h : SameLog o s) (p : Nat) (m : Msg) : SameLog o (s.send p m) := by
  unfold State.send State.sendFrom
  refine h.ite (SameLog.ite (h.congr rfl rfl) ?_)
  split
  · exact pump _ _ (h.congr rfl rfl)
  · exact SameLog.congr (h.fset (f := .linkbLocalDrops) _ _) rfl rfl

theorem replayPut (h : SameLog o s) {p type flags : Nat} {payload : List Byte} {s' : State}
    (e : s.replayPut p type flags payload = some s') : SameLog o s' := by
  have put (inHost : Bool) (a : Nat) (bs : List Byte) {s : State} (h : SameLog o s) :
      SameLog o (if inHost then s.hostWrite a bs else s.devWrite a bs) := SameLog.ite (h.congr rfl rfl) (h.devWrite a bs)
  unfold State.replayPut at e
  split at e
  · cases e
  · next inHost base size _ =>
    obtain ⟨-, e⟩ := Option.ite_none_left_eq_some.1 e
    obtain rfl := Option.some.inj e
    have written := put inHost (base + 64 * s.fget .rplHead p) (replayBytes 0 0 ((s.part p).rseq + 1) []) h
    refine SameLog.fset (SameLog.fset (f := .rplRecords) (SameLog.modPart ?_ p _) p _) p _
    refine put inHost _ _ ?_
    exact h.ite written

theorem capture (h : SameLog o s) (p type flags : Nat) (payload : List Byte) : SameLog o (s.capture p type flags payload) := by
  unfold State.capture
  refine h.ite (SameLog.ite ?_ ?_)
  · have numbered : SameLog o (s.modPart p (fun x => { x with rseq := (s.part p).rseq + 1 })) := h.congr rfl rfl
    exact (numbered.fset (f := .rplRecords) ..).send ..
  · extract_lets gap s1
    split
    · next s' e =>
      obtain ⟨s2, e2, e⟩ := Option.bind_eq_some_iff.1 e
      have h2 : SameLog o s2 := by
        unfold s1 at e2
        split at e2
        · exact Option.some.inj e2 ▸ h
        · obtain ⟨s0, e0, rfl⟩ := Option.map_eq_some_iff.1 e2
          exact (h.replayPut e0).congr rfl rfl
      exact (h2.replayPut e).ite (h.congr rfl rfl)
    · refine SameLog.ite (h.congr rfl rfl) ?_
      exact SameLog.congr (SameLog.fset (f := .rplLost) (h.congr rfl rfl) p _) rfl rfl

end SameLog

/-! ### Where the collector places a record (R488) -/

/-- Record r stands in slot i, and the registers show it. -/
def State.placed (s : State) (i : Nat) (r : LogRec) : State :=
  (((({ s with fc := { s.fc with nextSeq := s.fc.nextSeq + 1 } } : State).setSlot i r).fset .fcLogHead 0 r.seq).fset .fcSlot 0 i)

/-- The slot for a record does not depend on the number of the next. -/
theorem logNew_of_slot {s : State} {i : Nat} (r : LogRec) (h : s.logSlot = some i) : SameLog (s.placed i r) (s.logNew r) := by
  have h' : State.logSlot { s with fc := { s.fc with nextSeq := s.fc.nextSeq + 1 } } = some i := h
  unfold State.logNew
  simp only [h']
  exact ((SameLog.refl _).capture ..).ite (SameLog.refl _)

theorem logNew_of_full {s : State} (r : LogRec) (h : s.logSlot = none) :
    s.logNew r = State.finc { s with fc := { s.fc with nextSeq := s.fc.nextSeq + 1 } } .fcLost 0 1 := by
  have h' : State.logSlot { s with fc := { s.fc with nextSeq := s.fc.nextSeq + 1 } } = none := h
  unfold State.logNew
  simp only [h']

theorem logSlot_of_next {s : State} (h : (s.fc.slot ((s.fget .fcSlot 0 + 1) % 256)).isOpen = false) :
    s.logSlot = some ((s.fget .fcSlot 0 + 1) % 256) := by
  unfold State.logSlot
  dsimp only
  rw [h]
  rfl

theorem logSlot_of_open {s : State} (h : (s.fc.slot ((s.fget .fcSlot 0 + 1) % 256)).isOpen = true) : s.logSlot = s.fc.oldest := by
  unfold State.logSlot
  dsimp only
  rw [h]
  rfl

theorem placed_slot (s : State) (i j : Nat) (r : LogRec) : (s.placed i r).fc.slot j = if j = i then r else s.fc.slot j :=
  tab_get_set LogRec.empty s.fc.log i r j

/-- A record that has a slot stands in it alone, and the registers show it. -/
theorem logNew_slot {s : State} {i : Nat} (r : LogRec) (h : s.logSlot = some i) :
    (s.logNew r).fc.slot i = r ∧ (∀ j, j ≠ i → (s.logNew r).fc.slot j = s.fc.slot j) ∧
      (s.logNew r).fget .fcLogHead 0 = r.seq % 2 ^ 32 ∧ (s.logNew r).fget .fcSlot 0 = i % 256 ∧
      (s.logNew r).fget .fcLost 0 = s.fget .fcLost 0 := by
  obtain ⟨hfc, hshown⟩ := logNew_of_slot r h
  rw [hfc]
  refine ⟨?_, fun j hj => ?_, ?_, ?_, ?_⟩
  · rw [placed_slot, if_pos rfl]
  · rw [placed_slot, if_neg hj]
  · rw [hshown _ (by decide), State.placed, fget_fset_ne _ _ (.inl (by decide)), fget_fset_self]; rfl
  · rw [hshown _ (by decide), State.placed, fget_fset_self]; rfl
  · rw [hshown _ (by decide), State.placed, fget_fset_ne _ _ (.inl (by decide)), fget_fset_ne _ _ (.inl (by decide))]; rfl

end Sys2Proof.Machine
end

section
/-!
PROOFS. Where the collector places a record (R488).
-/

namespace Sys2Proof.Proofs

open Sys2Proof Sys2Proof.Machine

/-- Settles O25: the slot is the next, or the oldest that may be written over; a capture of the record leaves the log alone. -/
theorem logPlacement : Obligations.LogPlacement := by
  unfold Obligations.LogPlacement
  intro s r next put
  refine ⟨fun hfree => logNew_slot r (logSlot_of_next hfree), fun i hopen hold => logNew_slot r ((logSlot_of_open hopen).trans hold),
    fun hopen hnone => ?lost, ?number⟩
  case lost =>
    rw [logNew_of_full r ((logSlot_of_open hopen).trans hnone), State.finc]
    refine ⟨rfl, fget_fset_self .., ?_, ?_⟩ <;> rw [fget_fset_ne _ _ (.inl (by decide))] <;> rfl
  case number =>
    cases hslot : s.logSlot with
    | none => rw [logNew_of_full r hslot]; rfl
    | some i => rw [(logNew_of_slot r hslot).fc]; rfl

end Sys2Proof.Proofs
end

section
/-!
PROOFS. The CTL and SYN words, the checks of a word, and refused descriptors (R159 to R184, R528).
-/

namespace Sys2Proof.Proofs

open Sys2Proof Sys2Proof.Machine

/-- Settles O15. -/
theorem refusedCommand : Obligations.RefusedCommand :=
  fun _ _ _ _ _ _ _ _ hf hd ho hs => ⟨hostCmd_refused hf hd ho hs, hostCmd_refused_later hf hd ho hs⟩

/-- The checks of a word that can be fetched, in their order (R183). -/
theorem tileRow_checks {s : State} {t cls op w : Nat} {fmtOk : Nat → Bool} {uses : Nat → List (Nat × Nat)} {run : State → Nat → State}
    (hdisp : s.dispatching t = true) (hbad : Tab.get false (s.tile t).progBad (s.fget .tpPc t) = false)
    (hw : w = applyMods ((s.tile t).word (s.fget .tpPc t)) (s.tile t).mods) (hfence : wFence w = false ∨ (s.tile t).flight = []) :
    s.tileRow t cls op fmtOk uses run =
      if decide (wCls w < 8) && opNamed (wCls w) (wOp w) && (wCls w != cls || wOp w != op) then s
      else if 8 ≤ wCls w then s.illegal t Reason.badClass
      else if !opNamed (wCls w) (wOp w) then s.illegal t Reason.badOp
      else if !fmtOk (wFmt w) then s.illegal t Reason.badFormat
      else if !onlyUses w (headerUses w ++ uses w) then s.illegal t Reason.reservedSet
      else if (s.tile t).modding && wCls w == 0 then s.illegal t Reason.modTarget
      else if cls != 0 && cls != 5 && decide (16 ≤ (s.tile t).waiting cls) then s
      else run s w := by
  have hheld : (wFence w && !(s.tile t).flight.isEmpty) = false := by
    rcases hfence with h | h <;> rw [h]
    · rfl
    · exact Bool.and_false _
  unfold State.tileRow
  dsimp only
  rw [hdisp, hbad, ← hw, hheld]
  rfl

/-- Settles O18: the first check that fails names the reason. -/
theorem illegalWord : Obligations.IllegalWord := by
  unfold Obligations.IllegalWord
  intro s t cls op w fmtOk uses run hdisp hbad hw hfence
  rw [tileRow_checks hdisp hbad hw hfence]
  refine ⟨fun hcls => ?badClass, fun hcls hop => ?badOp,
    fun hcls hc ho hnamed => ⟨fun hf => ?badFormat, fun hf hu => ?reservedSet, fun hf hu hmod h0 => ?modTarget⟩⟩
  case badClass => simp [hcls, Nat.not_lt.2 hcls]
  case badOp => simp [hcls, hop, Nat.not_le.2 hcls]
  all_goals
    subst hc ho
    have hcls' : ¬ 8 ≤ wCls w := Nat.not_le.2 hcls
  case badFormat => simp [hnamed, hcls', hf]
  case reservedSet => simp [hnamed, hcls', hf, hu]
  case modTarget =>
    rw [h0] at hnamed
    simp [hnamed, hf, hu, hmod, h0]

/-! ### Control words -/

theorem ctlNop_completes : Claims.ctlNop := fun _ _ _ h => congrArg Host.Outcome.next (tileRow_runs h rfl)

theorem ctlLi_completes : Claims.ctlLi := fun _ _ _ h => congrArg Host.Outcome.next (tileRow_runs h rfl)

theorem ctlAlu_completes : Claims.ctlAlu := by
  intro s t w h hop
  refine congrArg Host.Outcome.next ((tileRow_runs h rfl).trans ?_)
  simp only [if_neg (Nat.not_lt.2 hop), State.modTile]

theorem ctlBr_completes : Claims.ctlBr := by
  intro s t w h hc hdirect hok
  refine congrArg Host.Outcome.next ((tileRow_runs h rfl).trans ?_)
  simp [hdirect, hok, Nat.not_lt.2 hc]

theorem ctlBrIndirect_completes : Claims.ctlBrIndirect := by
  intro s t w h hc hindirect hok
  refine congrArg Host.Outcome.next ((tileRow_runs h rfl).trans ?_)
  simp [hindirect, hok, hc, brCond]

theorem ctlLoop_completes : Claims.ctlLoop := by
  intro s t w h hbody hbody' hstop hdepth hinside
  refine congrArg Host.Outcome.next ((tileRow_runs h rfl).trans ?_)
  have hloops : (decide (4 ≤ (s.tile t).loops.length) ||
      (s.tile t).loops.any (fun l => decide (l.stop < s.fget .tpPc t + 1 + bitsOf w 44 32))) = false := by
    simp only [List.all_eq_true, decide_eq_true_eq] at hinside
    simp only [Bool.or_eq_false_iff, decide_eq_false_iff_not, List.any_eq_false, decide_eq_true_eq]
    exact ⟨Nat.not_le.2 hdepth, fun l hl => Nat.not_lt.2 (hinside l hl)⟩
  dsimp only
  rw [if_neg (by omega), if_neg (by omega), hloops]
  rfl

theorem ctlMod_completes : Claims.ctlMod := by
  intro s t w h htriples hlive
  refine congrArg Host.Outcome.next ((tileRow_runs h rfl).trans ?_)
  simp only [htriples, hlive, Bool.not_true, Bool.false_eq_true, if_false, if_true]

theorem ctlVxfer_completes : Claims.ctlVxfer := fun _ _ _ h => congrArg Host.Outcome.next (tileRow_runs h rfl)

theorem ctlRdcr_completes : Claims.ctlRdcr := by
  intro s t w h hcr
  refine congrArg Host.Outcome.next ((tileRow_runs h rfl).trans ?_)
  dsimp only
  rw [if_neg (Nat.not_lt.2 hcr)]

theorem ctlWrcr_completes : Claims.ctlWrcr := by
  intro s t w h hcr
  refine congrArg Host.Outcome.next ((tileRow_runs h rfl).trans ?_)
  rw [if_neg (by omega)]

theorem ctlEnd_completes : Claims.ctlEnd := fun _ _ _ h => congrArg Host.Outcome.next (tileRow_runs h rfl)

/-- Settles O29: each word passes the checks of its row, and its own conditions choose the branch. -/
theorem controlWords : Obligations.ControlWords :=
  ⟨ctlNop_completes, ctlLi_completes, ctlAlu_completes, ctlBr_completes, ctlBrIndirect_completes, ctlLoop_completes, ctlMod_completes,
    ctlVxfer_completes, ctlRdcr_completes, ctlWrcr_completes, ctlEnd_completes⟩

/-! ### SYN words, words in flight and the wait limit -/

theorem synWait_completes : Claims.synWait := fun _ _ _ h => congrArg Host.Outcome.next (tileRow_runs h rfl)

theorem synSignal_completes : Claims.synSignal := by
  intro s t w h htarget
  refine congrArg Host.Outcome.next ((tileRow_runs h rfl).trans ?_)
  dsimp only
  rcases htarget with h0 | ⟨h1, hmapped, hholds⟩ | ⟨h2, hev, hholds⟩
  · simp [h0]
  · simp [h1, hmapped, hholds]
  · simp [h2, Nat.not_lt.2 hev, hholds]

theorem synFence_completes : Claims.synFence := by
  intro s t w h hfree
  refine congrArg Host.Outcome.next ((tileRow_runs h rfl).trans ?_)
  have hnone : (s.tile t).flight.any (fun f => bitOf w (32 + f.cls)) = false := by
    simpa using hfree
  rw [hnone]
  rfl

theorem wordComplete_completes : Claims.wordComplete := by
  intro s t id f hfind hdone hheld
  refine congrArg Host.Outcome.next ?_
  rw [hfind]
  simp [hdone, hheld]

theorem syncTimeout_completes : Claims.syncTimeout := by
  intro s t hdisp hwait
  refine congrArg Host.Outcome.next ?_
  rw [hdisp, hwait]
  rfl

/-- Settles O30. -/
theorem syncWords : Obligations.SyncWords :=
  ⟨synWait_completes, synSignal_completes, synFence_completes, wordComplete_completes, syncTimeout_completes⟩

end Sys2Proof.Proofs
end

section
/-!
SUPPORT. What going on to the next word leaves alone (R160, R172, R173).
-/

namespace Sys2Proof.Machine

open Sys2Proof

/-! ### The ends of iterations -/

theorem setSreg_loops (x : Tile) (r v : Nat) : (x.setSreg r v).loops = x.loops := by unfold Tile.setSreg; split <;> rfl
theorem setSreg_remain (x : Tile) (r v : Nat) : (x.setSreg r v).remain = x.remain := by unfold Tile.setSreg; split <;> rfl
theorem setSreg_eq (x : Tile) (r v : Nat) : x.setSreg r v = { x with sregs := (x.setSreg r v).sregs } := by unfold Tile.setSreg; split <;> rfl

/-- Ends of iterations change the loop stack and the index registers of open loops alone. -/
theorem closeLoops_frame : ∀ (n : Nat) {x y : Tile} {next pc : Nat}, closeLoops n x next = some (y, pc) →
    y = { x with loops := y.loops, sregs := y.sregs } ∧ ∀ r, (∀ l ∈ x.loops, l.idxReg ≠ r) → y.sreg r = x.sreg r
  | 0, x, y, next, pc, h => by cases h; exact ⟨rfl, fun _ _ => rfl⟩
  | n + 1, x, y, next, pc, h => by
    unfold closeLoops at h
    split at h
    · cases h; exact ⟨rfl, fun _ _ => rfl⟩
    · next l rest hl =>
      split at h
      · cases h; exact ⟨rfl, fun _ _ => rfl⟩
      split at h
      · cases h
      generalize (if l.strip = true then decide (0 < x.remain) else decide (l.iter + 1 < l.count)) = again at h
      cases again with
      | true =>
        cases h
        refine ⟨?_, fun r hr => ?_⟩
        · rw [setSreg_eq]
        · rw [sreg_setSreg_ne _ _ (Ne.symm (hr l (hl ▸ List.mem_cons_self)))]; rfl
      | false =>
        obtain ⟨hy, hs⟩ := closeLoops_frame n h
        exact ⟨hy, fun r hr => hs r (fun m hm => hr m (hl ▸ List.mem_cons_of_mem _ hm))⟩

/-- Whether and where a tile goes on follows from its loop stack and REMAIN. -/
theorem closeLoops_congr : ∀ (n : Nat) {x y x' : Tile} {next pc : Nat}, closeLoops n x next = some (y, pc) → x'.loops = x.loops → x'.remain = x.remain →
    ∃ y', closeLoops n x' next = some (y', pc)
  | 0, _, _, _, _, _, h, _, _ => by cases h; exact ⟨_, rfl⟩
  | n + 1, x, y, x', next, pc, h, hl, hr => by
    unfold closeLoops at h ⊢
    rw [hl, hr]
    cases hloops : x.loops with
    | nil => rw [hloops] at h; cases h; exact ⟨_, rfl⟩
    | cons l rest =>
      rw [hloops] at h
      dsimp only at h ⊢
      split at h
      · next hc => cases h; rw [if_pos hc]; exact ⟨_, rfl⟩
      next hc =>
      rw [if_neg hc]
      split at h
      · cases h
      next hs =>
      rw [if_neg hs]
      generalize (if l.strip = true then decide (0 < x.remain) else decide (l.iter + 1 < l.count)) = again at h ⊢
      cases again with
      | true => cases h; exact ⟨_, rfl⟩
      | false => exact closeLoops_congr n h rfl rfl

/-! ### Within a tile and some of its register fields -/

/-- From o to s nothing has changed but tile t, its register fields fs, and device memory with its failing codewords. -/
structure Within (t : Nat) (fs : List Fld) (o s : State) : Prop where
  rest : { s with regs := o.regs, tiles := o.tiles, dev := o.dev, bad := o.bad, lpBad := o.lpBad, err := o.err } = o
  tiles : ∀ u, u ≠ t → s.tile u = o.tile u
  shown : ∀ f i, f ∉ fs ∨ i ≠ t → s.fget f i = o.fget f i

/-- Device memory and its failing codewords are the same. -/
structure SameDev (o s : State) : Prop where
  dev : s.dev = o.dev
  bad : s.bad = o.bad
  lpBad : s.lpBad = o.lpBad
  err : s.err = o.err

theorem SameDev.trans {o s u : State} (h : SameDev o s) (h' : SameDev s u) : SameDev o u :=
  ⟨h'.dev.trans h.dev, h'.bad.trans h.bad, h'.lpBad.trans h.lpBad, h'.err.trans h.err⟩

namespace Within

variable {t : Nat} {fs : List Fld} {o s : State}

theorem refl (t : Nat) (fs : List Fld) (s : State) : Within t fs s s := ⟨rfl, fun _ _ => rfl, fun _ _ _ => rfl⟩

theorem setTile (h : Within t fs o s) (x : Tile) : Within t fs o (s.setTile t x) where
  rest := h.rest
  tiles u hu := by rw [tile_setTile, if_neg hu]; exact h.tiles u hu
  shown := h.shown

theorem fset (h : Within t fs o s) {f : Fld} (hf : f ∈ fs) (v : Nat) : Within t fs o (s.fset f t v) where
  rest := h.rest
  tiles := h.tiles
  shown g i hg := by
    rw [fget_fset_ne s v, h.shown g i hg]
    by_cases hgf : g = f
    · exact .inr (hg.resolve_left (not_not_intro (hgf ▸ hf)))
    · exact .inl hgf

theorem devWrite (h : Within t fs o s) (a : Nat) (bs : List Byte) : Within t fs o (s.devWrite a bs) := by
  unfold State.devWrite
  split
  · exact h
  · exact ⟨h.rest, h.tiles, h.shown⟩

theorem flagVector (h : Within t fs o s) (hf : .numVector ∈ fs) (fl : Nat) : Within t fs o (s.flagVector t fl) := by
  unfold State.flagVector
  split
  · exact h
  · exact h.fset hf _

theorem vecDone (h : Within t fs o s) (hf : .numVector ∈ fs) (hi : .vecIssued ∈ fs) (fl : Nat) : Within t fs o (s.vecDone t fl) :=
  (h.flagVector hf fl).fset hi _

/-- Where device memory is the same too, nothing has changed but the tile and its fields. -/
theorem onlyTile (h : Within t fs o s) (hd : SameDev o s) : Claims.onlyTile t fs o s := by
  refine ⟨?_, h.tiles, h.shown⟩
  have hrest := h.rest
  rw [← hd.dev, ← hd.bad, ← hd.lpBad, ← hd.err] at hrest
  exact hrest

theorem onlyTileMem (h : Within t fs o s) : Claims.onlyTileMem t fs o s := ⟨h.rest, h.tiles, h.shown⟩

end Within

/-! ### Going on -/

/-- u has the loops, the REMAIN and the PC of s, so it goes on as s would. -/
structure SameLoops (t : Nat) (s u : State) : Prop where
  loops : (u.tile t).loops = (s.tile t).loops
  remain : (u.tile t).remain = (s.tile t).remain
  pc : u.fget .tpPc t = s.fget .tpPc t

/-- v is u gone on to another word, where the loops that were open in s may have ended or gone round. -/
structure WentOn (t : Nat) (s u v : State) : Prop where
  within : ∀ {o fs}, Within t fs o u → Claims.progFields ⊆ fs → .vecBusy ∈ fs → .mxmBusy ∈ fs → Within t fs o v
  dev : SameDev u v
  vregs : (v.tile t).vregs = (u.tile t).vregs
  masks : (v.tile t).masks = (u.tile t).masks
  remain : (v.tile t).remain = (u.tile t).remain
  sreg : ∀ r, Claims.noIndex s t r → (v.tile t).sreg r = (u.tile t).sreg r

/-- The state that has gone on to the word at pc with tile y. -/
def State.goneOn (s : State) (t : Nat) (y : Tile) (pc : Nat) : State :=
  (((s.setTile t y).fset .tpPc t pc).fset .tpState t TpState.running).finc .tpDispatched t 1

theorem tile_goneOn (s : State) (t : Nat) (y : Tile) (pc : Nat) : (s.goneOn t y pc).tile t = y :=
  (tile_setTile s t t y).trans (if_pos rfl)

theorem goneOn_dev (s : State) (t : Nat) (y : Tile) (pc : Nat) : SameDev s (s.goneOn t y pc) := ⟨rfl, rfl, rfl, rfl⟩

theorem Within.goneOn {t : Nat} {fs : List Fld} {o s : State} (h : Within t fs o s) (hf : Claims.progFields ⊆ fs) (y : Tile) (pc : Nat) :
    Within t fs o (s.goneOn t y pc) :=
  (((h.setTile y).fset (hf (by decide)) pc).fset (hf (by decide)) _).fset (hf (by decide)) _

/-- Where s goes on, so does u, and only its loop stack and the index registers of its loops change. -/
theorem nextWord_of_goesOn {t : Nat} {s u : State} (hgo : Claims.goesOn s t) (h : SameLoops t s u) : ∃ y pc, u.nextWord t = u.goneOn t y pc ∧
    y = { u.tile t with mods := [], modding := false, loops := y.loops, sregs := y.sregs } ∧
    ∀ r, Claims.noIndex s t r → y.sreg r = (u.tile t).sreg r := by
  obtain ⟨x, pc, hx, hpc⟩ := hgo
  obtain ⟨y, hy⟩ := closeLoops_congr 5 (x' := { u.tile t with mods := [], modding := false }) hx h.loops h.remain
  obtain ⟨heq, hsreg⟩ := closeLoops_frame 5 hy
  refine ⟨y, pc, ?_, heq, fun r hr => hsreg r (fun l hl => hr l (h.loops ▸ hl))⟩
  unfold State.nextWord State.advance
  rw [h.pc, hy]
  exact if_neg (Nat.not_le.2 hpc)

theorem nextWord_wentOn {t : Nat} {s u : State} (hgo : Claims.goesOn s t) (h : SameLoops t s u) : WentOn t s u (u.nextWord t) ∧
    ((u.nextWord t).tile t).prog = (u.tile t).prog ∧ ((u.nextWord t).tile t).flight = (u.tile t).flight ∧
    ∀ {fs o}, Within t fs o u → Claims.progFields ⊆ fs → Within t fs o (u.nextWord t) := by
  obtain ⟨y, pc, he, hy, hsreg⟩ := nextWord_of_goesOn hgo h
  rw [he]
  refine ⟨⟨fun hw hf _ _ => hw.goneOn hf y pc, goneOn_dev u t y pc, ?_, ?_, ?_, fun r hr => ?_⟩, ?_, ?_, fun hw hf => hw.goneOn hf y pc⟩
  all_goals rw [tile_goneOn]
  case refine_4 => exact hsreg r hr
  all_goals rw [hy]

theorem showBusy_tile (s : State) (t u : Nat) : (s.showBusy t).tile u = s.tile u := rfl

theorem showBusy_fget (s : State) (t i : Nat) {f : Fld} (hv : f ≠ .vecBusy) (hm : f ≠ .mxmBusy) : (s.showBusy t).fget f i = s.fget f i := by
  unfold State.showBusy
  dsimp only
  rw [fget_fset_ne _ _ (.inl hm), fget_fset_ne _ _ (.inl hv)]

theorem Within.showBusy {t : Nat} {fs : List Fld} {o s : State} (h : Within t fs o s) (hv : .vecBusy ∈ fs) (hm : .mxmBusy ∈ fs) :
    Within t fs o (s.showBusy t) := (h.fset hv _).fset hm _

/-- A word that goes into its queue goes on. -/
theorem enqueue_wentOn {t : Nat} {s u : State} (hgo : Claims.goesOn s t) (h : SameLoops t s u) (w : Nat) (writes started done : Bool) (ref : Nat) :
    WentOn t s u (u.enqueue t w writes started done ref) := by
  unfold State.enqueue
  extract_lets x f
  generalize hy : ({ x with flight := x.flight ++ [f], nextId := x.nextId + 1, wrote := [] } : Tile) = y
  have htile : ((u.setTile t y).showBusy t).tile t = y := (tile_setTile u t t y).trans (if_pos rfl)
  have hloops : SameLoops t s ((u.setTile t y).showBusy t) := by
    constructor
    · rw [htile, ← hy]; exact h.loops
    · rw [htile, ← hy]; exact h.remain
    · rw [showBusy_fget _ _ _ (by decide) (by decide)]; exact h.pc
  obtain ⟨hwent, -⟩ := nextWord_wentOn hgo hloops
  constructor
  case within => exact fun hw hf hv hm => hwent.within ((hw.setTile y).showBusy hv hm) hf hv hm
  case dev => exact ⟨hwent.dev.dev, hwent.dev.bad, hwent.dev.lpBad, hwent.dev.err⟩
  case vregs => rw [hwent.vregs, htile, ← hy]
  case masks => rw [hwent.masks, htile, ← hy]
  case remain => rw [hwent.remain, htile, ← hy]
  case sreg => intro r hr; rw [hwent.sreg r hr, htile, ← hy]; rfl

end Sys2Proof.Machine
end

section
/-!
SUPPORT. What a vector word writes into its register.
-/

namespace Sys2Proof.Machine

theorem bitsOf_lt (v hi lo : Nat) : bitsOf v hi lo < 2 ^ (hi + 1 - lo) := Nat.mod_lt _ (Nat.two_pow_pos _)

theorem velem_congr {x y : Tile} (h : x.vregs = y.vregs) (v i : Nat) : x.velem v i = y.velem v i := by unfold Tile.velem; rw [h]

theorem velem_setVelem (x : Tile) {v u i j : Nat} (a : Nat) (hi : i < 1024) (hj : j < 1024) :
    (x.setVelem v i a).velem u j = if u = v ∧ j = i then a % 2 ^ 32 else x.velem u j := by
  have hkey : 1024 * u + j = 1024 * v + i ↔ u = v ∧ j = i := by omega
  unfold Tile.setVelem Tile.velem
  rw [tab_get_set]
  simp only [hkey]
  split
  · exact BitVec.toNat_ofNat ..
  · rfl

/-- Writing the first elements of a register changes the vector registers alone. -/
theorem setElems_eq : ∀ (as : List Nat) (x : Tile) (v i : Nat), x.setElems v i as = { x with vregs := (x.setElems v i as).vregs }
  | [], _, _, _ => rfl
  | a :: as, x, v, i => by
    unfold Tile.setElems
    exact setElems_eq as (x.setVelem v i a) v (i + 1)

theorem velem_setElems_outside : ∀ (as : List Nat) (x : Tile) {v u i j : Nat}, i + as.length ≤ 1024 → j < 1024 → u ≠ v ∨ i + as.length ≤ j →
    (x.setElems v i as).velem u j = x.velem u j
  | [], _, _, _, _, _, _, _, _ => rfl
  | a :: as, x, v, u, i, j, hlen, hj, hout => by
    rw [List.length_cons] at hlen hout
    unfold Tile.setElems
    rw [velem_setElems_outside as _ (by omega) hj (by omega), velem_setVelem x a (by omega) hj, if_neg (by omega)]

/-! ### Raising the flags of the vector engine -/

theorem vecDone_tile (s : State) (t u fl : Nat) : (s.vecDone t fl).tile u = s.tile u := by
  unfold State.vecDone State.flagVector
  split <;> rfl

theorem vecDone_dev (s : State) (t fl : Nat) : SameDev s (s.vecDone t fl) := by
  unfold State.vecDone State.flagVector
  split <;> exact ⟨rfl, rfl, rfl, rfl⟩

theorem vecDone_fget (s : State) (t fl i : Nat) {f : Fld} (hn : f ≠ .numVector) (hi : f ≠ .vecIssued) :
    (s.vecDone t fl).fget f i = s.fget f i := by
  unfold State.vecDone State.flagVector
  refine (fget_fset_ne _ _ (.inl hi)).trans ?_
  split
  · rfl
  · exact fget_fset_ne _ _ (.inl hn)

end Sys2Proof.Machine
end

section
/-!
PROOFS. What control words leave alone.
-/

namespace Sys2Proof.Proofs

open Sys2Proof Sys2Proof.Machine

/-- A control word that leaves all of its tile but the scalar register d and the vector registers, and goes on. -/
theorem nextWord_frame {s u : State} {t : Nat} {d : Option Nat} (hgo : Claims.goesOn s t) (hw : Within t Claims.progFields s u) (hd : SameDev s u)
    (hpc : u.fget .tpPc t = s.fget .tpPc t) (hx : u.tile t = { s.tile t with sregs := (u.tile t).sregs, vregs := (u.tile t).vregs })
    (hsreg : ∀ r, some r ≠ d → (u.tile t).sreg r = (s.tile t).sreg r) :
    Claims.ctlFrame s (u.nextWord t) t d ∧ ((u.nextWord t).tile t).vregs = (u.tile t).vregs := by
  obtain ⟨h, hprog, hflight, hwithin⟩ := nextWord_wentOn hgo ⟨by rw [hx], by rw [hx], hpc⟩
  refine ⟨⟨(hwithin hw (fun _ h => h)).onlyTile (hd.trans h.dev), fun r hr hi => (h.sreg r hi).trans (hsreg r hr), ?_, ?_, ?_, ?_⟩, h.vregs⟩
  · rw [h.masks, hx]
  · rw [h.remain, hx]
  · rw [hprog, hx]
  · rw [hflight, hx]

/-- The same of a word that changes its tile by f. -/
theorem modTile_nextWord_frame {s : State} {t : Nat} {f : Tile → Tile} {d : Option Nat} (hgo : Claims.goesOn s t)
    (hf : f (s.tile t) = { s.tile t with sregs := (f (s.tile t)).sregs, vregs := (f (s.tile t)).vregs })
    (hd : ∀ r, some r ≠ d → (f (s.tile t)).sreg r = (s.tile t).sreg r) :
    Claims.ctlFrame s ((s.modTile t f).nextWord t) t d ∧ (((s.modTile t f).nextWord t).tile t).vregs = (f (s.tile t)).vregs := by
  have htile : (s.modTile t f).tile t = f (s.tile t) := (tile_modTile s t t f).trans (if_pos rfl)
  have h := nextWord_frame (d := d) hgo ((Within.refl t Claims.progFields s).setTile (f (s.tile t))) ⟨rfl, rfl, rfl, rfl⟩ rfl
  rw [← State.modTile, htile] at h
  exact h hf hd

/-- A control word that writes the scalar register d and goes on. -/
theorem setSreg_nextWord_frame {s : State} {t : Nat} (d : Nat) (v : Tile → Nat) (hgo : Claims.goesOn s t) :
    Claims.ctlFrame s ((s.modTile t (fun x => x.setSreg d (v x))).nextWord t) t (some d) ∧
      (((s.modTile t (fun x => x.setSreg d (v x))).nextWord t).tile t).vregs = (s.tile t).vregs := by
  obtain ⟨hframe, hvregs⟩ := modTile_nextWord_frame (f := fun x => x.setSreg d (v x)) (d := some d) hgo
    (by rw [setSreg_eq]) (fun r hr => sreg_setSreg_ne _ _ (fun e => hr (e ▸ rfl)))
  exact ⟨hframe, hvregs.trans (setSreg_vregs ..)⟩

/-- Settles O19: each of the words changes its tile as the frame lemma asks. -/
theorem controlFrame : Obligations.ControlFrame := by
  unfold Obligations.ControlFrame
  intro s s' t w hgo
  refine ⟨fun h he => ?nop, fun h he => ?li, fun h hop he => ?alu, fun h hv he => ?toVector, fun h hv he => ?toScalar⟩
  case nop =>
    rw [ctlNop_completes s t w h] at he
    cases he
    exact nextWord_frame hgo (Within.refl ..) ⟨rfl, rfl, rfl, rfl⟩ rfl rfl (fun _ _ => rfl)
  case li =>
    rw [ctlLi_completes s t w h] at he
    cases he
    exact setSreg_nextWord_frame _ _ hgo
  case alu =>
    rw [ctlAlu_completes s t w h hop] at he
    cases he
    exact setSreg_nextWord_frame _ _ hgo
  case toVector =>
    rw [ctlVxfer_completes s t w (by rw [hv]; exact h)] at he
    cases he
    simp only [hv, if_true]
    obtain ⟨hframe, hvregs⟩ := modTile_nextWord_frame (d := none)
      (f := fun x => x.setVelem (bitsOf w 34 31) (bitsOf w 44 35) (x.sreg (bitsOf w 29 25))) hgo rfl (fun _ _ => rfl)
    refine ⟨hframe, fun v i hi hout => ?_⟩
    rw [velem_congr hvregs, velem_setVelem _ _ (bitsOf_lt w 44 35) hi, if_neg (by omega)]
  case toScalar =>
    rw [ctlVxfer_completes s t w (by rw [hv]; exact h)] at he
    cases he
    simp only [hv, Bool.false_eq_true, if_false]
    exact setSreg_nextWord_frame _ _ hgo

end Sys2Proof.Proofs
end

section
/-!
PROOFS. The VEC and BNK words (R141 to R154, R193 to R197).
-/

namespace Sys2Proof.Proofs

open Sys2Proof Sys2Proof.Machine

/-! ### Vector words -/

theorem vecArith_ok {s : State} {t w : Nat} (h : negOk w = true) : s.vecArith t w =
    .ok ((s.setTile t ((s.tile t).setElems (wVd w) 0 ((Claims.vecResults s t w).map Rnd.bits))).vecDone t
      (Claims.flagsOf (Claims.vecResults s t w))) := by
  unfold State.vecArith
  rw [h]
  rfl

theorem vecReduce_eq (s : State) (t w op : Nat) : ∃ s', s.vecReduce t w op = .ok s' ∧ s'.enqueue t w false true true 0 = Claims.vecFolded s t w op := by
  unfold State.vecReduce Claims.vecFolded
  dsimp only
  split
  · exact ⟨_, rfl, rfl⟩
  · exact ⟨_, rfl, rfl⟩

theorem vecSetvl_completes : Claims.vecSetvl := by
  intro s t w h hsrc
  refine congrArg Host.Outcome.next (engineRow_ok h rfl ?_)
  have h3 : bitsOf w 49 48 ≠ 3 := by omega
  dsimp only
  rw [if_neg h3]

theorem vecAdd_completes : Claims.vecAdd := fun _ _ _ h hneg => congrArg Host.Outcome.next (engineRow_ok h rfl (vecArith_ok hneg))
theorem vecMul_completes : Claims.vecMul := fun _ _ _ h hneg => congrArg Host.Outcome.next (engineRow_ok h rfl (vecArith_ok hneg))
theorem vecFma_completes : Claims.vecFma := fun _ _ _ h hneg => congrArg Host.Outcome.next (engineRow_ok h rfl (vecArith_ok hneg))
theorem vecMin_completes : Claims.vecMin := fun _ _ _ h hneg => congrArg Host.Outcome.next (engineRow_ok h rfl (vecArith_ok hneg))
theorem vecMax_completes : Claims.vecMax := fun _ _ _ h hneg => congrArg Host.Outcome.next (engineRow_ok h rfl (vecArith_ok hneg))

theorem vecCmp_completes : Claims.vecCmp := by
  intro s t w h hneg
  refine congrArg Host.Outcome.next (engineRow_ok h rfl ?_)
  dsimp only
  rw [hneg]
  rfl

theorem vecSel_completes : Claims.vecSel := fun _ _ _ h => congrArg Host.Outcome.next (engineRow_ok h rfl rfl)

theorem vecEst_completes : Claims.vecEst := by
  intro s t w h hfn
  refine congrArg Host.Outcome.next (engineRow_ok h rfl ?_)
  dsimp only
  rw [if_neg (Nat.not_lt.2 hfn)]
  rfl

theorem vecRsum_completes : Claims.vecRsum := by
  intro s t w h
  obtain ⟨s', hok, hs⟩ := vecReduce_eq s t w 1
  exact congrArg Host.Outcome.next ((engineRow_ok h rfl hok).trans hs)

theorem vecRmax_completes : Claims.vecRmax := by
  intro s t w h
  obtain ⟨s', hok, hs⟩ := vecReduce_eq s t w 5
  exact congrArg Host.Outcome.next ((engineRow_ok h rfl hok).trans hs)

theorem vecLd_completes : Claims.vecLd := fun _ _ _ h hreads =>
  congrArg Host.Outcome.next (engineRow_ok h rfl (guard_ok rfl hreads rfl))

theorem vecSt_completes : Claims.vecSt := fun _ _ _ h hwrites =>
  congrArg Host.Outcome.next (engineRow_ok h rfl (guard_ok rfl hwrites rfl))

/-- Settles O31: each word passes the checks of its row, its work succeeds, and its accesses land. -/
theorem vectorWords : Obligations.VectorWords :=
  ⟨vecSetvl_completes, vecAdd_completes, vecMul_completes, vecFma_completes, vecMin_completes, vecMax_completes, vecCmp_completes,
    vecSel_completes, vecEst_completes, vecRsum_completes, vecRmax_completes, vecLd_completes, vecSt_completes⟩

/-! ### Bank-side words -/

theorem bankArith_ok {s : State} {t w op : Nat}
    (hfits : (bankPair op (wFmt w) (bDstFmt w) && countOk w && (if op = 2 then tregOk w else bTreg w == 0) && rangesOk w true) = true)
    (hreads : s.spFaults t (Claims.bankReads w) = none) :
    ∃ s', s.bankArith t w op = .ok s' ∧ s'.enqueue t w true true true 0 = Claims.bankState s t w op := by
  unfold State.bankArith
  refine ⟨_, guard_ok ?_ hreads rfl, rfl⟩
  simpa [and_assoc] using hfits

theorem bnkAdd_completes : Claims.bnkAdd := by
  intro s t w h hfits hreads
  obtain ⟨s', hok, hs⟩ := bankArith_ok (op := 0) hfits hreads
  exact congrArg Host.Outcome.next ((engineRow_ok h rfl hok).trans hs)

theorem bnkMax_completes : Claims.bnkMax := by
  intro s t w h hfits hreads
  obtain ⟨s', hok, hs⟩ := bankArith_ok (op := 1) hfits hreads
  exact congrArg Host.Outcome.next ((engineRow_ok h rfl hok).trans hs)

theorem bnkSadd_completes : Claims.bnkSadd := by
  intro s t w h hfits hreads
  obtain ⟨s', hok, hs⟩ := bankArith_ok (op := 2) hfits hreads
  exact congrArg Host.Outcome.next ((engineRow_ok h rfl hok).trans hs)

theorem bnkWiden_completes : Claims.bnkWiden := by
  intro s t w h hfits haccess
  refine congrArg Host.Outcome.next (engineRow_ok h rfl (guard_ok ?_ haccess rfl))
  simp only [Bool.and_eq_true] at hfits
  obtain ⟨⟨⟨hpair, hcount⟩, hranges⟩, hreg⟩ := hfits
  simpa [hpair, hcount, hranges] using hreg

theorem bnkConvert_completes : Claims.bnkConvert := by
  intro s t w h hfits haccess
  refine congrArg Host.Outcome.next (engineRow_ok h rfl (guard_ok ?_ haccess rfl))
  simpa [and_assoc, Claims.bankCtx, Claims.bankTensor] using hfits

theorem bnkRmaxcap_completes : Claims.bnkRmaxcap := by
  intro s t w h hfits haccess
  refine congrArg Host.Outcome.next (engineRow_ok h rfl (guard_ok ?_ haccess rfl))
  simpa [and_assoc, Claims.bankCtx, Claims.bankTensor] using hfits

/-- Settles O32: each word passes its checks, and its accesses can be made. -/
theorem bankWords : Obligations.BankWords :=
  ⟨bnkAdd_completes, bnkMax_completes, bnkSadd_completes, bnkWiden_completes, bnkConvert_completes, bnkRmaxcap_completes⟩

/-! ### What vector words leave alone -/

/-- A vector word that writes elements of VD below VL and goes on. -/
theorem vecState_frame {s : State} {t w : Nat} {rs : List Nat} (fl : Nat) (hgo : Claims.goesOn s t) (hlen : rs.length = s.fget .vecVl t)
    (hvl : s.fget .vecVl t ≤ 1024) :
    Claims.onlyTile t Claims.vecFields s (Claims.vecState s t w rs fl) ∧
    (∀ v j, j < 1024 → v ≠ wVd w ∨ s.fget .vecVl t ≤ j → ((Claims.vecState s t w rs fl).tile t).velem v j = (s.tile t).velem v j) ∧
    (∀ r, Claims.noIndex s t r → ((Claims.vecState s t w rs fl).tile t).sreg r = (s.tile t).sreg r) ∧
    ((Claims.vecState s t w rs fl).tile t).masks = (s.tile t).masks ∧ ((Claims.vecState s t w rs fl).tile t).remain = (s.tile t).remain := by
  unfold Claims.vecState
  generalize hy : (s.tile t).setElems (wVd w) 0 rs = y
  have hy' : y = { s.tile t with vregs := y.vregs } := by rw [← hy]; exact setElems_eq ..
  have htile : ((s.setTile t y).vecDone t fl).tile t = y := (vecDone_tile ..).trans ((tile_setTile s t t y).trans (if_pos rfl))
  have hpc : ((s.setTile t y).vecDone t fl).fget .tpPc t = s.fget .tpPc t := vecDone_fget _ t fl t (by decide) (by decide)
  have h := enqueue_wentOn hgo ⟨by rw [htile, hy'], by rw [htile, hy'], hpc⟩ w false true true 0
  have hw : Within t Claims.vecFields s ((s.setTile t y).vecDone t fl) :=
    ((Within.refl t _ s).setTile y).vecDone (by decide) (by decide) fl
  have hset : SameDev s (s.setTile t y) := ⟨rfl, rfl, rfl, rfl⟩
  have hdev := (hset.trans (vecDone_dev _ t fl)).trans h.dev
  refine ⟨(h.within hw (by decide) (by decide) (by decide)).onlyTile hdev, fun v j hj hout => ?_, fun r hr => ?_, ?_, ?_⟩
  · rw [velem_congr h.vregs, htile, ← hy]
    exact velem_setElems_outside rs _ (by omega) hj (by omega)
  · rw [h.sreg r hr, htile, hy']; rfl
  · rw [h.masks, htile, hy']
  · rw [h.remain, htile, hy']

theorem vecFrame_of_completes {i : Nat → Instr} {op : Nat} {fmtOk : Nat → Bool} {uses : Nat → List (Nat × Nat)}
    (h : ∀ s t w, s.issues t 2 op w (fmtOk (wFmt w)) (uses w) → negOk w = true →
      exec (i t) s = .next (Claims.vecState s t w ((Claims.vecResults s t w).map Rnd.bits) (Claims.flagsOf (Claims.vecResults s t w)))) :
    Claims.vecFrame i op fmtOk uses := by
  intro s t w s' hi hneg hgo hvl he
  rw [h s t w hi hneg] at he
  cases he
  exact vecState_frame _ hgo (by simp [Claims.vecResults]) hvl

/-- Settles O20. -/
theorem vectorFrame : Obligations.VectorFrame :=
  ⟨vecFrame_of_completes vecAdd_completes, vecFrame_of_completes vecMul_completes, vecFrame_of_completes vecFma_completes,
    vecFrame_of_completes vecMin_completes, vecFrame_of_completes vecMax_completes⟩

end Sys2Proof.Proofs
end

section
/-!
SUPPORT. What a store to a tile's memory leaves alone.
-/

namespace Sys2Proof.Machine

/-- An element of a format is half a byte or whole bytes. -/
theorem fmtBits_eq (f : Nat) : fmtBits f = 4 ∨ fmtBits f = 8 * (fmtBits f / 8) := by
  unfold fmtBits
  split <;> decide

/-- Packed elements take the bytes of their format (R80). -/
theorem packElems_length (f rest : Nat) : ∀ cs : List Nat, (packElems f rest cs).length = fmtBytes f cs.length
  | [] => by simp [packElems, fmtBytes]
  | [x] => by
    unfold packElems fmtBytes
    rcases fmtBits_eq f with h | h
    · simp [h]
    · rw [if_neg (by omega), leBytes_length, List.length_singleton]
      omega
  | x :: y :: more => by
    unfold packElems
    rcases fmtBits_eq f with h | h
    · rw [if_pos h, List.length_cons, packElems_length f rest more]
      simp only [fmtBytes, h, List.length_cons]
      omega
    · rw [if_neg (by omega), List.length_append, leBytes_length, packElems_length f rest (y :: more)]
      simp only [fmtBytes, List.length_cons]
      generalize fmtBits f = b at h
      generalize b / 8 = k at h
      subst h
      simp only [Nat.add_mul]
      omega

/-- A word that writes one range, which meets no write in flight, leaves beside its own effect only what it has written (R190, R200). -/
theorem wordLands_of_write {was : State} {t req o n : Nat} (new : State) (h : (was.tile t).meets req [(o, n)] = []) :
    new.wordLands was t req [(o, n, true)] = new.modTile t (fun x => { x with wrote := x.wrote ++ [(req, o, n)] }) := by
  have hmeet : new.meeting was t req [(o, n)] = new := by
    unfold State.meeting
    rw [h]
    rfl
  unfold State.wordLands
  simp [hmeet, State.mend]

theorem devWrite_tile (s : State) (a : Nat) (bs : List Byte) (u : Nat) : (s.devWrite a bs).tile u = s.tile u := by
  unfold State.devWrite
  split <;> rfl

theorem devWrite_fget (s : State) (a : Nat) (bs : List Byte) (f : Fld) (i : Nat) : (s.devWrite a bs).fget f i = s.fget f i := by
  unfold State.devWrite
  split <;> rfl

end Sys2Proof.Machine
end

section
/-!
PROOFS. What VEC.ST leaves alone (R151, R190).
-/

namespace Sys2Proof.Proofs

open Sys2Proof Sys2Proof.Machine

/-- Settles O21: the store writes the bytes of VL elements, and its word goes into flight. -/
theorem vectorStoreFrame : Obligations.VectorStoreFrame := by
  unfold Obligations.VectorStoreFrame
  intro s s' t w hi hwrites hmeets hgo he
  rw [vecSt_completes s t w hi hwrites] at he
  cases he
  dsimp only
  generalize hcs : (List.range (s.fget .vecVl t)).map (fun i => convElem (wFmt w) (f32 ((s.tile t).velem (wVa w) i)) 0 none) = cs
  have hlen : (packElems (wFmt w) 0 (cs.map (fun c => c.code))).length = fmtBytes (wFmt w) (s.fget .vecVl t) := by
    rw [packElems_length, ← hcs]; simp
  generalize packElems (wFmt w) 0 (cs.map (fun c => c.code)) = bs at hlen
  generalize cs.foldl (fun f c => f ||| c.fl) 0 = fl
  generalize hu : (s.spWrite t (64 * bitsOf w 83 64) bs).vecDone t fl = u
  rw [Claims.storeWrites, wordLands_of_write _ hmeets]
  generalize hv : u.modTile t (fun x => { x with wrote := x.wrote ++ [(Req.vector, 64 * bitsOf w 83 64, fmtBytes (wFmt w) (s.fget .vecVl t))] }) = v
  have hutile : u.tile t = s.tile t := by rw [← hu, vecDone_tile, State.spWrite, devWrite_tile]
  have hvtile : v.tile t = { s.tile t with wrote := (v.tile t).wrote } := by
    rw [← hv, tile_modTile, if_pos rfl, hutile]
  have hpc : v.fget .tpPc t = s.fget .tpPc t := by
    rw [← hv, modTile_fget, ← hu, vecDone_fget _ _ _ _ (by decide) (by decide), State.spWrite, devWrite_fget]
  have hw : Within t Claims.vecFields s v := by
    rw [← hv, ← hu]
    exact (((Within.refl t _ s).devWrite _ bs).vecDone (by decide) (by decide) fl).setTile _
  have h := enqueue_wentOn hgo ⟨by rw [hvtile], by rw [hvtile], hpc⟩ w true true true 0
  refine ⟨(h.within hw (by decide) (by decide) (by decide)).onlyTileMem, fun a ha => ?_, ?_, ?_, fun r hr => ?_⟩
  · have hvdev : v.dev = (s.devWrite (scratchBase t + 64 * bitsOf w 83 64) bs).dev := by
      rw [← hv, ← hu]
      exact (vecDone_dev _ t fl).dev
    rw [h.dev.dev, hvdev]
    exact devWrite_byte_outside s (by rw [hlen]; exact ha)
  · rw [h.vregs, hvtile]
  · rw [h.masks, hvtile]
  · rw [h.sreg r hr, hvtile]; rfl

end Sys2Proof.Proofs
end

section
/-!
PROOFS. A bank-side word reaches into the tile before its own where a codeword with a correctable error stands out of line.
-/

namespace Sys2Proof.Proofs

open Sys2Proof Sys2Proof.Machine

/-- BNK.ADD of one INT32 element from word 0 to word 8. -/
def addWord : Nat := 4 + 256 * 7 + 7 * 2 ^ 26 + 8 * 2 ^ 32 + 2 ^ 96

/-- Tile 1 of partition 0 runs that word, and a correctable error is marked 8 bytes before the tile's scratchpad, which is no multiple of the
codeword's 16 bytes: the codeword begins in tile 0 and ends in tile 1. -/
def strayWeak : State :=
  State.fset { State.reset with
      parts := [(0, some { Part.reset with defined := true, cfg := { Cfg.empty with bays := 1 } })]
      tiles := [(1, some { Tile.reset with live := true, prog := [(0, BitVec.ofNat 128 addWord)] })]
      err := { State.reset.err with weak := [(scratchBase 1 - 8, true)] } } .tpState 1 TpState.running

/-- Refutes O22: the read of tile 1's first word corrects the stray codeword, and tile 0 counts the correction in SP_CORRECTED. -/
theorem not_bankFrame : ¬ Obligations.BankFrame := by
  unfold Obligations.BankFrame
  rintro ⟨hadd, -, -⟩
  have hissues : strayWeak.issues 1 4 0 addWord (fmtArithInt (wFmt addWord)) (bnkUses addWord) := by decide
  have hfits : (bankPair 0 (wFmt addWord) (bDstFmt addWord) && countOk addWord && bTreg addWord == 0 && rangesOk addWord true) = true := by decide
  have hreads : strayWeak.spFaults 1 (Claims.bankReads addWord) = none := by decide
  have hgo : Claims.goesOn strayWeak 1 := ⟨_, _, rfl, by decide⟩
  obtain ⟨⟨-, -, hshown⟩, -⟩ := hadd strayWeak 1 addWord _ hissues hfits hreads (by decide) hgo (bnkAdd_completes _ _ _ hissues hfits hreads)
  have hcount : (Claims.bankState strayWeak 1 addWord 0).fget .spCorrected 0 = strayWeak.fget .spCorrected 0 := hshown _ _ (.inr (by decide))
  exact absurd hcount (by decide)

end Sys2Proof.Proofs
end

section
/-!
PROOFS. The MXM words (R112 to R137).
-/

namespace Sys2Proof.Proofs

open Sys2Proof Sys2Proof.Machine

theorem mxmLoadw_completes : Claims.mxmLoadw := by
  intro s t w h hmode hlo hhi hblock hreads
  refine congrArg Host.Outcome.next (engineRow_ok h rfl (guard_ok ?_ hreads rfl))
  have hdepth : (!fmtScaled (wFmt w) || bitsOf w 31 22 % 64 == 0) = true := by
    cases hs : fmtScaled (wFmt w) with
    | false => rfl
    | true => simp [hblock hs]
  simp only [List.all_cons, hmode, hdepth, hlo, hhi]
  rfl

theorem mxmMul_completes : Claims.mxmMul := by
  intro s t w h hfits haccess hparity hresidue hacc
  refine congrArg Host.Outcome.next (engineRow_ok h rfl ?_)
  dsimp only
  refine guard_ok ?checks haccess ?work
  case checks =>
    simpa only [Claims.mulFits, Claims.swapped, List.all_cons, List.all_nil, Bool.and_true, Bool.and_assoc] using hfits
  case work =>
    exact (if_neg (ne_true_of_eq_false hparity)).trans ((if_neg (ne_true_of_eq_false hresidue)).trans
      (if_neg (ne_true_of_eq_false hacc)))

theorem mxmDrain_completes : Claims.mxmDrain := by
  intro s t w h hfits haccess hacc
  refine congrArg Host.Outcome.next (engineRow_ok h rfl ?_)
  simp only [Claims.drainFits, Claims.drainTensor, Claims.drainCtxOf, Bool.and_eq_true] at hfits
  obtain ⟨⟨⟨⟨⟨⟨⟨⟨⟨hfmt, hacc'⟩, hssq⟩, hctx⟩, hlen⟩, hsize⟩, hthin⟩, hq⟩, hm40⟩, htile⟩ := hfits
  have hthin' : (((s.cfgOf t).tensor ((s.tile t).drainCtx (bitsOf w 102 98)).tensor).thin != 0) = false := by rw [bne, hthin]; rfl
  dsimp only
  rw [hthin']
  refine guard_ok ?checks haccess ?work
  case checks => simp only [List.all_cons, hfmt, hacc', hssq, hctx, hlen, hsize, hq, hm40, htile]; rfl
  case work => exact (if_neg (ne_true_of_eq_false hacc))

theorem mxmGroupEmpty_completes : Claims.mxmGroupEmpty := by
  intro s t w h hfits hreads htable hrows
  have htable' : (!Claims.groupTableOk s t w) = false := by rw [htable]; rfl
  have hempty : (Claims.groupRows s t w).isEmpty = true := by rw [hrows]; rfl
  refine congrArg Host.Outcome.next (engineRow_ok h rfl ?_)
  dsimp only
  refine guard_ok ?checks hreads ?work
  case checks =>
    simp only [Claims.groupFits, Claims.groupArgs, Claims.groupCtx, Claims.groupTensor, List.all_cons, List.all_nil, Bool.and_true,
      Bool.and_assoc] at hfits ⊢
    exact hfits
  case work => exact (if_neg (ne_true_of_eq_false htable')).trans (if_pos hempty)

theorem mxmGroup_completes : Claims.mxmGroup := by
  intro s t w h hfits hreads htable hrows haccess hresidue
  have htable' : (!Claims.groupTableOk s t w) = false := by rw [htable]; rfl
  have hfull : (Claims.groupRows s t w).isEmpty = false := by simpa using hrows
  refine congrArg Host.Outcome.next (engineRow_ok h rfl ?_)
  dsimp only
  refine guard_ok ?checks hreads ?work
  case checks =>
    simp only [Claims.groupFits, Claims.groupArgs, Claims.groupCtx, Claims.groupTensor, List.all_cons, List.all_nil, Bool.and_true,
      Bool.and_assoc] at hfits ⊢
    exact hfits
  case work =>
    have hres : ((List.range (min 4 (groupChunks (bitOf w 30) (Claims.groupArgs s t w).w.rows (Claims.groupEntries s t w)))).find?
      (fun q => Tab.get false (s.tile t).residue q)).isSome = false := by rw [hresidue]; rfl
    exact (if_neg (ne_true_of_eq_false htable')).trans ((if_neg (ne_true_of_eq_false hfull)).trans
      (guard_ok rfl haccess (if_neg (ne_true_of_eq_false hres))))

theorem mxmFence_completes : Claims.mxmFence := fun _ _ _ h => congrArg Host.Outcome.next (engineRow_ok h rfl rfl)

/-- Settles O33: each word passes its checks, and its accesses can be made. -/
theorem matrixWords : Obligations.MatrixWords :=
  ⟨mxmLoadw_completes, mxmMul_completes, mxmDrain_completes, mxmGroupEmpty_completes, mxmGroup_completes, mxmFence_completes⟩

end Sys2Proof.Proofs
end

section
/-!
SUPPORT. One word of a tile's MOV or ATT queue starts (R161, R221, R416).
-/

namespace Sys2Proof.Machine

/-- The oldest waiting MOV word starts where it is not held and has room. -/
theorem startMovs_succ {s : State} {t n : Nat} {f : Flight} (hf : (s.tile t).flight.find? (fun g => g.cls == 3 && !g.started) = some f)
    (hheld : s.descHeld t f = false) (hroom : f.op = 1 ∨ (s.movesOf t).length < 8) :
    State.startMovs (n + 1) s t = State.startMovs n (s.startMov t f) t := by
  have hgo : (s.descHeld t f || f.op != 1 && decide (8 ≤ (s.movesOf t).length)) = false := by
    rcases hroom with h | h
    · rw [hheld, h]; rfl
    · rw [hheld, decide_eq_false (Nat.not_le.2 h), Bool.and_false]; rfl
  rw [State.startMovs, hf]
  dsimp only
  rw [hgo]
  rfl

/-- The oldest waiting ATT word starts where it has room. -/
theorem startAtts_succ {s : State} {t n : Nat} {f : Flight} (hf : (s.tile t).flight.find? (fun g => g.cls == 7 && !g.started) = some f)
    (hroom : f.op = 2 ∨ (s.movesOf t).length < 8) : State.startAtts (n + 1) s t = State.startAtts n (s.startAtt t f) t := by
  have hgo : (f.op != 2 && decide (8 ≤ (s.movesOf t).length)) = false := by
    rcases hroom with h | h
    · rw [h]; rfl
    · rw [decide_eq_false (Nat.not_le.2 h), Bool.and_false]
  rw [State.startAtts, hf]
  dsimp only
  rw [hgo]
  rfl

end Sys2Proof.Machine
end

section
/-!
PROOFS. The MOV and ATT words, and moves that land (R166 to R170, R221 to R226, R414 to R417).
-/

namespace Sys2Proof.Proofs

open Sys2Proof Sys2Proof.Machine

theorem movDesc_completes : Claims.movDesc := by
  intro s t w e f d hi he hf hop hroom hheld hread hd hlegal haddrs
  refine congrArg Host.Outcome.next ((tileRow_runs hi rfl).trans ?_)
  have hstart : e.startMov t f = ((e.mend (e.weakIn (scratchBase t + 64 * bitsOf f.word.toNat 51 32) 64)).modFlight t f.id
      (fun g => { g with started := true, ref := e.nextMove })).addMove t 0 f.id d (moveD d).src (moveD d).dst 0 := by
    unfold State.startMov
    dsimp only
    rw [if_neg (by omega), if_pos hop, hread]
    dsimp only
    rw [← hd, hlegal, haddrs]
    rfl
  rw [State.movWord, ← he, State.moveEngine, startMovs_succ hf hheld (.inr hroom), hstart]

theorem movSteep_completes : Claims.movSteep := by
  intro s t w e f hi he hf hop hcursor
  refine congrArg Host.Outcome.next ((tileRow_runs hi rfl).trans ?_)
  have hheld : e.descHeld t f = false := by unfold State.descHeld; rw [hop]; rfl
  have hstart : e.startMov t f = State.issueSteep 8 ((e.fset .steepCursor t (bitsOf f.word.toNat 47 32)).modFlight t f.id
      (fun g => { g with started := true, done := true })) t := by
    unfold State.startMov
    dsimp only
    rw [if_pos hop, if_neg (Nat.not_lt.2 hcursor)]
  rw [State.movWord, ← he, State.moveEngine, startMovs_succ hf hheld (.inl hop), hstart]

theorem movCopy_completes : Claims.movCopy := by
  intro s t w e f hi hcount hcount' he hf hop hroom hsrc hdst
  refine congrArg Host.Outcome.next ((tileRow_runs hi rfl).trans ((if_neg (by omega)).trans ?_))
  have hheld : e.descHeld t f = false := by unfold State.descHeld; rw [hop]; rfl
  have hstart : e.startMov t f = (e.modFlight t f.id (fun g => { g with started := true, ref := e.nextMove })).addMove t 4 f.id 0
      (wordAddr t (bitsOf f.word.toNat 51 32)) (wordAddr (cDtile f.word.toNat) (bitsOf f.word.toNat 83 64)) (64 * cCount f.word.toNat) := by
    unfold State.startMov
    dsimp only
    rw [if_neg (by omega), if_neg (by omega), hsrc, hdst]
  rw [State.movWord, ← he, State.moveEngine, startMovs_succ hf hheld (.inr hroom), hstart]

theorem moveLanded_completes : Claims.moveLanded := by
  intro s id m hm hwhy hheld
  refine ⟨congrArg Host.Outcome.next ?_, ?_, fun h => ?_, fun h => ?_, ?_, fun h => ?_, fun h => ?_, fun h => ?_, ?_⟩
  case refine_1 =>
    rw [hm]
    exact if_neg (not_or_intro hwhy (ne_true_of_eq_false hheld))
  all_goals unfold State.landMove
  case refine_2 => rintro (h | h) <;> rw [h] <;> rfl
  case refine_5 => rintro (h | h) <;> rw [h] <;> rfl
  case refine_9 => rintro (h | h) <;> rw [h] <;> rfl
  all_goals rw [h] <;> rfl

theorem steepEntryLanded_completes : Claims.steepEntryLanded := by
  intro s s1 t entry m hm hheld hok
  refine congrArg Host.Outcome.next ?_
  rw [hm]
  refine (if_neg (ne_true_of_eq_false hheld)).trans (congrArg State.settle ?_)
  unfold State.landSteep
  dsimp only
  rw [hok]

theorem attRuns_of_row {c : Instr} {op t : Nat} (hop : op < 2)
    (hc : ∀ s, exec c s = .next (s.tileRow t 7 op (fun f => f == 1) attUses (fun s w => s.attWord t w true))) : Claims.attRuns c op t := by
  intro s w e f hi he hf hfop hroom hreason hplace hentries
  have hnamed : opNamed 7 op = true := by
    rcases op with _ | _ | op
    · rfl
    · rfl
    · omega
  rw [hc]
  refine congrArg Host.Outcome.next ((tileRow_runs hi hnamed).trans ?_)
  have hstart : e.startAtt t f = ((e.walkEntries t (attSlot f.ref) (fretsOf (attPos f.ref) (aCount f.word.toNat))).modFlight t f.id
      (fun g => { g with started := true })).addMove t (5 + op) f.id 0 (wordAddr t (aPlace f.word.toNat)) 0
        (64 * rowWordsKv * aCount f.word.toNat) := by
    unfold State.startAtt
    dsimp only
    rw [hfop, if_neg (by omega), hreason]
    dsimp only
    rw [hplace, hentries]
  rw [State.attWord, ← he, startAtts_succ hf (.inr hroom), hstart]

theorem attWalk_completes : Claims.attWalk := fun t => attRuns_of_row (by decide) (fun _ => rfl)
theorem attAppend_completes : Claims.attAppend := fun t => attRuns_of_row (by decide) (fun _ => rfl)

theorem attInfo_completes : Claims.attInfo := by
  intro s t w e f hi hreg he hf hop
  refine congrArg Host.Outcome.next ((tileRow_runs hi rfl).trans ((if_neg hreg).trans ?_))
  rw [State.attWord, ← he, startAtts_succ hf (.inl hop)]
  exact congrArg (fun x => State.startAtts 15 x t) (if_pos hop)

/-- Settles O34: the word enters its queue, and the engine starts it at once. -/
theorem moveWords : Obligations.MoveWords :=
  ⟨movDesc_completes, movSteep_completes, movCopy_completes, moveLanded_completes, steepEntryLanded_completes, attWalk_completes,
    attAppend_completes, attInfo_completes⟩

end Sys2Proof.Proofs
end

section
/-!
SUPPORT. One word of a bay's exchange queue starts (R161, R170, R325, R340).
-/

namespace Sys2Proof.Machine

/-- A bay with nothing to start stands. -/
theorem runXch_of_none {s : State} {n b : Nat} (h : s.nextXch b = none) : State.runXch n s b = s := by
  cases n with
  | zero => rfl
  | succ n =>
    rw [State.runXch, h]
    split <;> rfl

theorem runXch_foldl_of_none {s : State} : ∀ {bs : List Nat}, bs.all (fun b => (s.nextXch b).isNone) = true →
    bs.foldl (fun s b => State.runXch 64 s b) s = s
  | [], _ => rfl
  | b :: bs, h => by
    rw [List.all_cons, Bool.and_eq_true] at h
    rw [List.foldl_cons, runXch_of_none (Option.isNone_iff_eq_none.1 h.1)]
    exact runXch_foldl_of_none h.2

/-- What starting a word reads first: its descriptor and its communicator. -/
theorem startXch_eq {s : State} {p t : Nat} {f : Flight} {k : Comm} {desc : BitVec 512} (hp : (s.partOfTile t).getD 0 = p)
    (hread : s.spFault t (64 * xDesc f.word.toNat) 64 false = none) (hdesc : desc = BitVec.ofNat 512 (s.spNat t (64 * xDesc f.word.toNat) 64))
    (hk : (s.part p).cfg.comm (xComm f.word.toNat) = some k) :
    s.startXch t f =
      if f.op = 0 then s.startCounts p t f k desc
      else if f.op ≤ 4 then s.startRows p t f k (16 + f.op) desc
      else if xCollOp f.word.toNat = 0 then s.startRed p t f k desc
      else if xCollOp f.word.toNat ≤ 3 then s.startGather p t f k (xCollOp f.word.toNat) desc
      else if !(collD desc).fieldsOk (xCollOp f.word.toNat) false false then s.wordEff t f (.bad Reason.descriptor) id
      else if xCollOp f.word.toNat = 4 ∧ (collD desc).norm then s.startNorm p t f k desc State.scalarFinish
      else s.startScalar p t f k (xCollOp f.word.toNat) desc State.scalarFinish := by
  unfold State.startXch
  dsimp only
  rw [hread, ← hdesc, hp]
  dsimp only
  rw [hk]

/-- The word that heads its bay's queue starts, r, and the engines go on with what else waits. -/
theorem xchWord_of_heads {s e r : State} {p t w : Nat} {f : Flight} {pre post : List Nat} {k : Comm} {desc : BitVec 512} {writes : Bool}
    (he : e = Claims.xchQueued s t w writes) (h : Claims.xchHeads s e p t f pre post k desc) (hstart : e.startXch t f = r)
    (hbegun : Claims.xchBegun r t f) : s.xchWord t w writes = Claims.xchAfter r t post := by
  obtain ⟨hsp, hep, hbays, hpre, hroom, hnext, hheld, -, -, -⟩ := h
  have hrun : State.runXch 64 e (t / 8) = State.runXch 63 r (t / 8) := by
    rw [State.runXch, if_neg (Nat.not_le.2 hroom), hnext]
    dsimp only
    rw [hep, hheld, hstart, hbegun]
    rfl
  have hword : s.xchWord t w writes = e.xchEngine p := by rw [he, ← hsp]; rfl
  rw [hword, State.xchEngine, hbays, List.foldl_append, runXch_foldl_of_none hpre, List.foldl_cons, hrun]
  rfl

end Sys2Proof.Machine
end

section
/-!
PROOFS. The XCH words (R275 to R297, R325, R326, R338 to R349).
-/

namespace Sys2Proof.Proofs

open Sys2Proof Sys2Proof.Machine

theorem xchCounts_completes : Claims.xchCounts := by
  intro s t w e p f pre post k desc hi he hh hop hlegal haccess hroutes hbegun
  refine congrArg Host.Outcome.next ((tileRow_runs hi rfl).trans (xchWord_of_heads he hh ?_ hbegun))
  obtain ⟨-, hep, -, -, -, -, -, hread, hdesc, hk⟩ := hh
  rw [startXch_eq hep hread hdesc hk, if_pos hop]
  unfold State.startCounts
  dsimp only
  rw [hlegal, haccess]
  exact if_neg (ne_true_of_eq_false hroutes)

theorem xchPayload_of_row {c : Instr} {op t : Nat} (hop : 1 ≤ op ∧ op ≤ 4)
    (hc : ∀ s, exec c s = .next (s.tileRow t 6 op (fun _ => true) xchUses (fun s w => s.xchWord t w true))) : Claims.xchPayload c op t := by
  intro s w e p f pre post k desc x r hi he hh hfop hx hlegal hfmt hreads hland hbegun
  have hnamed : opNamed 6 op = true := by
    obtain ⟨h1, h4⟩ := hop
    interval_cases op <;> rfl
  rw [hc]
  refine congrArg Host.Outcome.next ((tileRow_runs hi hnamed).trans (xchWord_of_heads he hh ?_ hbegun))
  obtain ⟨-, hep, -, -, -, -, -, hread, hdesc, hk⟩ := hh
  rw [startXch_eq hep hread hdesc hk, hfop, if_neg (by omega), if_pos hop.2]
  have hok : (!e.exLegal p (exD desc) || decide (2 < wFmt f.word.toNat)) = false := by
    rw [hlegal, decide_eq_false (Nat.not_lt.2 hfmt)]; rfl
  unfold State.startRows
  dsimp only
  rw [hx]
  dsimp only
  rw [hok, hreads]
  unfold Claims.rowsSent Claims.rowsOf Claims.rowsOpen Claims.rowsColl at hland
  dsimp only [Bool.false_eq_true, if_false] at hland ⊢
  rw [if_neg Bool.false_ne_true, hland]
  rfl

theorem xchDispatch_completes : Claims.xchDispatch := fun _ => xchPayload_of_row (by decide) (fun _ => rfl)
theorem xchCombine_completes : Claims.xchCombine := fun _ => xchPayload_of_row (by decide) (fun _ => rfl)
theorem xchBdispatch_completes : Claims.xchBdispatch := fun _ => xchPayload_of_row (by decide) (fun _ => rfl)
theorem xchBcombine_completes : Claims.xchBcombine := fun _ => xchPayload_of_row (by decide) (fun _ => rfl)

/-- A collective's word in a format that it takes enters the queue of its bay. -/
theorem collRow_of_issues {s : State} {t op w : Nat} (h : Claims.collIssues s t op w) (hop : op ≤ 5) : s.collRow t op = s.xchWord t w (op != 5) := by
  obtain ⟨hi, hw, hfmt⟩ := h
  refine (tileRow_runs hi rfl).trans ?_
  rw [if_neg (by omega), if_neg (by omega), hfmt]
  rfl

theorem xchCollReduceScatter_completes : Claims.xchCollReduceScatter := by
  intro s t w e p f pre post k desc hi he hh hop hcoll hfields htile hmapRead hmap hthin hmisfit hused hreads hbegun
  refine congrArg Host.Outcome.next ((collRow_of_issues hi (by decide)).trans (xchWord_of_heads he hh ?_ hbegun))
  obtain ⟨-, hep, -, -, -, -, -, hread, hdesc, hk⟩ := hh
  rw [startXch_eq hep hread hdesc hk, hop, if_neg (by decide), if_neg (by decide), if_pos hcoll]
  unfold State.startRed
  dsimp only
  have hshard : (!mapOk k.count (collD desc).count (Claims.shardMap e t (collD desc)) ||
      !thinOk ((e.part p).cfg.tensor (collD desc).tensor) (wFmt f.word.toNat) (collD desc).count (Claims.shardMap e t (collD desc))) = false := by
    rw [hmap, hthin]; rfl
  rw [hfields, htile, hmapRead]
  refine (if_neg Bool.false_ne_true).trans ((if_neg (ne_true_of_eq_false hshard)).trans ((if_neg (ne_true_of_eq_false hmisfit)).trans
    ((if_neg (ne_true_of_eq_false hused)).trans ?_)))
  unfold Claims.collRecord Claims.shardMap at hreads
  rw [hreads]
  rfl

theorem xchGathers_of_row {c : Instr} {op t : Nat} (hop : 1 ≤ op ∧ op ≤ 3) (hc : ∀ s, exec c s = .next (s.collRow t op)) :
    Claims.xchGathers c op t := by
  intro s w e p f pre post k desc r hi he hh hfop hcoll hfields hroot hmapRead hmap hreads hplaced hbegun
  have he' : e = Claims.xchQueued s t w (op != 5) := by
    rw [he, bne_iff_ne.2 (by omega)]
  rw [hc]
  refine congrArg Host.Outcome.next ((collRow_of_issues hi (by omega)).trans (xchWord_of_heads he' hh ?_ hbegun))
  obtain ⟨-, hep, -, -, -, -, -, hread, hdesc, hk⟩ := hh
  rw [startXch_eq hep hread hdesc hk, hfop, if_neg (by decide), if_neg (by decide), hcoll, if_neg (by omega), if_pos hop.2]
  have hfit : (!(collD desc).fieldsOk op (fmtScaled (wFmt f.word.toNat))
      (fmtScaled (arriveFmt op (wFmt f.word.toNat) ((e.part p).cfg.tensor (collD desc).tensor)) || (op == 1 && fmtScaled (wFmt f.word.toNat))) ||
      (op == 3 && decide (k.count ≤ (collD desc).root))) = false := by
    rw [hfields]
    simpa using hroot
  have hshard : (op == 1 && !mapOk k.count (collD desc).count (Claims.shardMap e t (collD desc))) = false := by
    simpa using hmap
  unfold State.startGather
  dsimp only
  rw [hfit, hmapRead]
  refine (if_neg Bool.false_ne_true).trans ((if_neg (ne_true_of_eq_false hshard)).trans ?_)
  unfold Claims.gatherOut Claims.collRecord Claims.shardMap at hreads
  dsimp only at hreads
  rw [hreads]
  unfold Claims.gatherPlaced Claims.gatherPayloads Claims.gatherOpen Claims.gatherOut Claims.gatherExpect Claims.collRecord Claims.shardMap at hplaced
  dsimp only at hplaced ⊢
  rw [hplaced]
  rfl

theorem xchCollAllGather_completes : Claims.xchCollAllGather := fun _ => xchGathers_of_row (by decide) (fun _ => rfl)
theorem xchCollAllToAll_completes : Claims.xchCollAllToAll := fun _ => xchGathers_of_row (by decide) (fun _ => rfl)
theorem xchCollBroadcast_completes : Claims.xchCollBroadcast := fun _ => xchGathers_of_row (by decide) (fun _ => rfl)

theorem startScalar_started {e : State} {p t : Nat} {f : Flight} {k : Comm} {op : Nat} {desc : BitVec 512}
  (h : op = 5 ∨ e.dataFault p (collD desc).src (if wFmt f.word.toNat = 8 then 8 else 4) = none) :
  e.startScalar p t f k op desc State.scalarFinish = Claims.scalarStarted e p t f k op desc := by
  unfold State.startScalar
  by_cases h5 : op = 5
  · subst h5; rfl
  have hsrc := h.resolve_left h5
  unfold Claims.scalarStarted Claims.scalarValue
  by_cases h8 : wFmt f.word.toNat = 8
  · simp only [if_pos h8, if_neg h5] at hsrc ⊢
    rw [hsrc]
  · simp only [if_neg h8, if_neg h5] at hsrc ⊢
    rw [hsrc]

theorem xchCollScalarAllreduce_completes : Claims.xchCollScalarAllreduce := by
  intro s t w e p f pre post k desc hi he hh hop hcoll hfields hnorm hsrc hbegun
  refine congrArg Host.Outcome.next ((collRow_of_issues hi (by decide)).trans (xchWord_of_heads he hh ?_ hbegun))
  obtain ⟨-, hep, -, -, -, -, -, hread, hdesc, hk⟩ := hh
  rw [startXch_eq hep hread hdesc hk, hop, if_neg (by decide), if_neg (by decide), hcoll, if_neg (by decide), if_neg (by decide), hfields, hnorm]
  exact startScalar_started (.inr hsrc)

theorem xchCollBarrier_completes : Claims.xchCollBarrier := by
  intro s t w e p f pre post k desc hi he hh hop hcoll hfields hbegun
  refine congrArg Host.Outcome.next ((collRow_of_issues hi (by decide)).trans (xchWord_of_heads he hh ?_ hbegun))
  obtain ⟨-, hep, -, -, -, -, -, hread, hdesc, hk⟩ := hh
  rw [startXch_eq hep hread hdesc hk, hop, if_neg (by decide), if_neg (by decide), hcoll, if_neg (by decide), if_neg (by decide), hfields]
  exact startScalar_started (.inl rfl)

/-- Settles O35: the word heads its bay's queue, so the engine starts it at once. -/
theorem exchangeWords : Obligations.ExchangeWords :=
  ⟨xchCounts_completes, xchDispatch_completes, xchCombine_completes, xchBdispatch_completes, xchBcombine_completes,
    xchCollReduceScatter_completes, xchCollAllGather_completes, xchCollAllToAll_completes, xchCollBroadcast_completes,
    xchCollScalarAllreduce_completes, xchCollBarrier_completes⟩

end Sys2Proof.Proofs
end

section
/-!
SUPPORT. A message that a partition hears takes its effect (R302, R314, R498).
-/

namespace Sys2Proof.Machine

/-- A message that is heard and not stale is captured, and its row does what it does with it. -/
theorem onMsg_of_hear {s s1 : State} {p vc ty : Nat} {m : Msg} {ok : Bool} {k : State → State} (h : Claims.hear s p m vc ty)
    (hs : s1 = s.captureMsg p m) (hok : ok = true) : s.onMsg p m vc ty ok k = (k s1).settle := by
  obtain ⟨hhears, hstale⟩ := h
  unfold State.onMsg
  rw [hhears, hstale, hok, hs]
  rfl

/-- A message of a collective in progress goes to it. -/
theorem toColl_of_collOf {s : State} {p : Nat} {m : Msg} {c : Coll} {k : State → Coll → State} (h : s.collOf p m = some c) :
    s.toColl p m k = k s c := by
  unfold State.toColl
  rw [h]

/-- A message of a gather in progress is not relayed ahead of it. -/
theorem relayGather_of_collOf {s : State} {p : Nat} {m : Msg} {c : Coll} (h : s.collOf p m = some c) : s.relayGather p m = s := by
  unfold State.relayGather
  split
  · rfl
  · exact if_pos (.inr (.inl (h ▸ rfl)))

/-- A message of a scalar operation in progress is not passed up ahead of it. -/
theorem passUp_of_collOf {s : State} {p : Nat} {m : Msg} {c : Coll} (h : s.collOf p m = some c) : s.passUp p m = none := by
  unfold State.passUp
  split
  · rfl
  · exact if_pos (.inr (.inr (.inl (h ▸ rfl))))

/-- A gather message that is awaited and lands is taken. -/
theorem onGather_of_lands {s1 r : State} {p : Nat} {m : Msg} {c : Coll} {k : Comm} {bs : List Byte} (hc : s1.collOf p m = some c)
    (hk : (s1.part p).cfg.comm c.comm = some k) (h : Claims.gatherLands s1 r p m c k bs) : s1.onGather p m = Claims.gatherTaken r p m c := by
  obtain ⟨hexpect, hdata, hplace⟩ := h
  rw [State.onGather, relayGather_of_collOf hc, toColl_of_collOf hc]
  unfold State.takeGather
  rw [hk]
  dsimp only
  rw [show c.expect.contains (segKey (m.args.headD m.rank) m.seg, m.rank) = true from hexpect, hdata]
  unfold Claims.gatherForwarded Claims.msgKey at hplace
  dsimp only
  rw [hplace]
  rfl

/-- A value of a scalar operation that has begun is taken. -/
theorem onScalar_of_collOf {s1 : State} {p : Nat} {m : Msg} {c : Coll} {k : Comm} (done : State → Nat → Coll → List Nat → State)
    (hc : s1.collOf p m = some c) (hk : (s1.part p).cfg.comm c.comm = some k) (hbegun : ¬ (c.phase = 0 ∧ (m.seg = 1 ∨ k.myRank = 0))) :
    s1.onScalar p done m = Claims.scalarTaken s1 p m c k done := by
  rw [State.onScalar, passUp_of_collOf hc]
  dsimp only
  rw [toColl_of_collOf hc]
  unfold State.takeScalar
  rw [hk]
  exact if_neg hbegun

end Sys2Proof.Machine
end

section
/-!
PROOFS. Messages of collectives (R275 to R297, R326, R350).
-/

namespace Sys2Proof.Proofs

open Sys2Proof Sys2Proof.Machine

theorem grant_completes : Claims.grant := by
  intro s s1 p m c k hop ⟨hh, hs, hc, hk⟩ horphan
  refine congrArg Host.Outcome.next ((if_pos hop).trans ((onMsg_of_hear hh hs rfl).trans (congrArg (fun x => (State.xchEngine x p).settle) ?_)))
  rw [State.onGrant, toColl_of_collOf hc]
  unfold State.takeGrant
  rw [hk]
  exact if_neg (ne_true_of_eq_false horphan)

theorem segAck_completes : Claims.segAck := by
  intro s s1 p m c k hop hnak ⟨hh, hs, hc, hk⟩ horphan
  refine congrArg Host.Outcome.next ((if_pos ⟨hop, hnak⟩).trans ((onMsg_of_hear hh hs rfl).trans
    (congrArg (fun x => (State.xchEngine x p).settle) ?_)))
  rw [State.onAck, toColl_of_collOf hc]
  exact if_neg (ne_true_of_eq_false horphan)

theorem reductionSegment_completes : Claims.reductionSegment := by
  intro s s1 p m c k bs hop ⟨hh, hs, hc, hk⟩ horphan hexpect hgranted hdata
  refine congrArg Host.Outcome.next ((if_pos hop).trans ((onMsg_of_hear hh hs rfl).trans (congrArg (fun x => (State.xchEngine x p).settle) ?_)))
  rw [State.onSegment, toColl_of_collOf hc]
  unfold State.takeSegment
  rw [hk]
  dsimp only
  unfold Claims.msgKey at hexpect hgranted
  rw [horphan, hexpect, hgranted, hdata]
  rfl

theorem allGatherMessage_completes : Claims.allGatherMessage := by
  intro s s1 p m c k bs r hop ⟨hh, hs, hc, hk⟩ hlands
  refine congrArg (fun x => Host.Outcome.next (State.xchEngine x p)) ((if_pos hop).trans ((onMsg_of_hear hh hs rfl).trans ?_))
  rw [onGather_of_lands hc hk hlands]

theorem allToAllMessage_completes : Claims.allToAllMessage := by
  intro s s1 p m c k bs r hop ⟨hh, hs, hc, hk⟩ hlands
  refine congrArg (fun x => Host.Outcome.next (State.xchEngine x p)) ((if_pos hop).trans ((onMsg_of_hear hh hs rfl).trans ?_))
  rw [onGather_of_lands hc hk hlands]

theorem broadcastMessage_completes : Claims.broadcastMessage := by
  intro s s1 p m c k bs r hop hcopy ⟨hh, hs, hc, hk⟩ hlands
  refine congrArg Host.Outcome.next ((if_neg (ne_true_of_eq_false hcopy)).trans ((if_pos hop).trans ((onMsg_of_hear hh hs rfl).trans ?_)))
  rw [onGather_of_lands hc hk hlands]

theorem resendRequest_completes : Claims.resendRequest := by
  intro s s1 p m x rest hs hkind hsent hroom
  have hresend : s1.resend p m = s1.send p x := by
    unfold State.resend
    rw [hsent]
    exact if_neg (Nat.not_le.2 hroom)
  refine congrArg Host.Outcome.next ?_
  unfold State.resendMsg
  rcases hkind with ⟨hvc, hh, hop⟩ | ⟨hvc, hnak, hh⟩
  · rw [if_pos hvc, onMsg_of_hear hh hs (by rw [hop]; rfl), hresend]
  · rw [if_neg (by rw [hvc]; decide), if_pos hnak, State.collective, onMsg_of_hear hh hs rfl, hresend]

theorem scalarValueMessage_completes : Claims.scalarValueMessage := by
  intro s s1 p m c k hop ⟨hh, hs, hc, hk⟩ hbegun
  refine congrArg Host.Outcome.next ((if_pos hop).trans ((onMsg_of_hear hh hs rfl).trans ?_))
  rw [onScalar_of_collOf _ hc hk hbegun]

theorem barrierMessage_completes : Claims.barrierMessage := by
  intro s s1 p m c k hop ⟨hh, hs, hc, hk⟩ hbegun
  refine congrArg Host.Outcome.next ((if_pos hop).trans ((onMsg_of_hear hh hs rfl).trans ?_))
  rw [onScalar_of_collOf _ hc hk hbegun]

/-- Settles O36: the message is heard and captured, and the collective in progress takes it. -/
theorem reductionMessages : Obligations.ReductionMessages :=
  ⟨grant_completes, segAck_completes, reductionSegment_completes, allGatherMessage_completes, allToAllMessage_completes,
    broadcastMessage_completes, resendRequest_completes, scalarValueMessage_completes, barrierMessage_completes⟩

end Sys2Proof.Proofs
end

section
/-!
PROOFS. Messages of exchanges, fences, batches, refreshes and lockstep (R299 to R303, R328, R338 to R361, R391 to R397).
-/

namespace Sys2Proof.Proofs

open Sys2Proof Sys2Proof.Machine

theorem exchangeCountMessage_completes : Claims.exchangeCountMessage := by
  intro s s1 p m c k bs hop ⟨hh, hs, hc, hk⟩ hexpect hdata
  refine congrArg Host.Outcome.next ((if_pos hop).trans ((onMsg_of_hear hh hs rfl).trans (congrArg (fun x => (State.xchEngine x p).settle) ?_)))
  rw [State.onCounts, toColl_of_collOf hc]
  unfold State.takeCounts
  rw [hk]
  dsimp only
  simp only [hexpect, hdata, Bool.not_true, Bool.false_eq_true, if_false]

theorem exchangeRowsMessage_completes : Claims.exchangeRowsMessage := by
  intro s s1 p m c k bs x r hop hop' ⟨hh, hs, hc, hk⟩ hx hexpect hdata hland
  refine congrArg Host.Outcome.next ((if_pos ⟨hop, hop'⟩).trans ((onMsg_of_hear hh hs rfl).trans
    (congrArg (fun x => (State.xchEngine x p).settle) ?_)))
  rw [State.onRows, toColl_of_collOf hc]
  unfold State.takeRows
  rw [hk, hx]
  dsimp only
  rw [hexpect, hdata]
  dsimp only
  rw [hland]
  rfl

theorem fenceArrival_completes : Claims.fenceArrival := by
  intro s s1 p m k hop hh hs hk
  refine ⟨fun hinner => ?inner, fun f hroot hf hawaits hverdict => ?root⟩
  all_goals
    refine congrArg Host.Outcome.next ((onMsg_of_hear hh hs (by rw [hop]; rfl)).trans (congrArg (fun x => (State.proceed x p).settle) ?_))
    unfold State.onArrival
    dsimp only
    rw [hk]
  case inner => exact if_pos hinner
  case root =>
    rw [hf]
    exact (if_neg (not_not_intro hroot)).trans (if_pos ⟨hawaits, hverdict⟩)

theorem fenceRelease_completes : Claims.fenceRelease := by
  intro s s1 p m f k hop hh hs hf hcomm hkind hverdict hk hinner
  refine congrArg Host.Outcome.next ((onMsg_of_hear hh hs (by rw [hop]; rfl)).trans (congrArg (fun x => (State.proceed x p).settle) ?_))
  unfold State.onRelease
  rw [hf]
  dsimp only
  rw [hk, if_neg (by simp [hcomm, hkind, hverdict])]
  exact if_neg hinner

theorem notice_completes : Claims.notice := by
  intro s s1 p m k hh hs hk
  refine congrArg Host.Outcome.next ((onMsg_of_hear hh hs rfl).trans (congrArg State.settle ?_))
  unfold State.onNotice
  rw [hk]

theorem batchRecordMessage_completes : Claims.batchRecordMessage := by
  intro s s1 p m hop hh hs
  exact congrArg Host.Outcome.next (onMsg_of_hear hh hs (by rw [hop]; rfl))

theorem batchAnswerMessage_completes : Claims.batchAnswerMessage := by
  intro s s1 p m id hop hh hs hfind
  refine congrArg Host.Outcome.next ((onMsg_of_hear hh hs (by rw [hop]; rfl)).trans ?_)
  rw [hfind]

theorem broadcastCopy_completes : Claims.broadcastCopy := by
  intro s s1 p m x k hcopy hh hs hx hcomm hversion hk hrank
  refine congrArg Host.Outcome.next ((if_pos hcopy).trans ((onMsg_of_hear hh hs rfl).trans (congrArg (fun x => (State.proceed x p).settle) ?_)))
  unfold State.onCopy
  rw [hx]
  dsimp only
  rw [hk, if_neg (by simp [hcomm, hversion])]
  exact if_pos hrank

theorem replicaFetchRequest_completes : Claims.replicaFetchRequest := by
  intro s s1 p m dlen bs hop hh hs hown
  refine congrArg Host.Outcome.next ((onMsg_of_hear hh hs (by rw [hop]; rfl)).trans (congrArg State.settle ?_))
  unfold State.onFetch
  dsimp only
  rw [hown]

theorem closeValueMessage_completes : Claims.closeValueMessage := by
  intro s s1 p m hop hh hs
  exact congrArg Host.Outcome.next (onMsg_of_hear hh hs (by rw [hop]; rfl))

theorem sequenceGroupMessage_completes : Claims.sequenceGroupMessage := by
  intro s s1 p m b hop hh hs hb
  refine congrArg Host.Outcome.next ((onMsg_of_hear hh hs (by rw [hop]; rfl)).trans (congrArg State.settle ?_))
  rw [hb]

/-- Settles O37: the message is heard and captured, and takes effect on what waits for it. -/
theorem fleetMessages : Obligations.FleetMessages :=
  ⟨exchangeCountMessage_completes, exchangeRowsMessage_completes, fenceArrival_completes, fenceRelease_completes, notice_completes,
    batchRecordMessage_completes, batchAnswerMessage_completes, broadcastCopy_completes, replicaFetchRequest_completes,
    closeValueMessage_completes, sequenceGroupMessage_completes⟩

end Sys2Proof.Proofs
end

section
/-!
PROOFS. Waits for other devices end (R281, R297, R298, R299, R327, R328, R349, R356, R392).
-/

namespace Sys2Proof.Proofs

open Sys2Proof Sys2Proof.Machine

theorem ownerWaitTimeout_completes : Claims.ownerWaitTimeout := by
  intro s p comm opNo seg k c rank hc hlate
  refine congrArg Host.Outcome.next ?_
  rw [hc]
  dsimp only
  rw [hlate]

theorem senderGrantTimeout_completes : Claims.senderGrantTimeout := by
  intro s p comm opNo owner k c hc hwaits
  refine congrArg Host.Outcome.next ?_
  rw [hc]
  exact if_pos hwaits

theorem orphanTimeout_completes : Claims.orphanTimeout := by
  intro s p comm opNo k c hc
  refine congrArg Host.Outcome.next ?_
  rw [hc]

theorem barrierUpTimeout_completes : Claims.barrierUpTimeout := by
  intro s p comm opNo k c r hc hroot hsilent
  refine congrArg Host.Outcome.next ?_
  rw [hc]
  refine (if_neg (not_not_intro hroot)).trans ?_
  rw [hsilent]

theorem fenceUpTimeout_completes : Claims.fenceUpTimeout := by
  intro s p comm opNo k f r hc hf hroot hsilent
  refine congrArg Host.Outcome.next ?_
  rw [hc, hf]
  refine (if_neg (not_not_intro hroot)).trans ?_
  rw [hsilent]

theorem releaseWaitTimeout_completes : Claims.releaseWaitTimeout := by
  intro s p comm opNo k c hc hinner
  refine congrArg Host.Outcome.next ?_
  rw [hc]
  exact if_neg hinner

theorem gatherReceiveTimeout_completes : Claims.gatherReceiveTimeout := by
  intro s p comm opNo k c o hc ho
  refine congrArg Host.Outcome.next ?_
  rw [hc]
  dsimp only
  rw [ho]

theorem exchangeReceiveTimeout_completes : Claims.exchangeReceiveTimeout := by
  intro s p comm opNo k c r hc hr
  refine congrArg Host.Outcome.next ?_
  rw [hc]
  dsimp only
  rw [hr]

theorem closeAgreementTimeout_completes : Claims.closeAgreementTimeout := by
  intro s b p k r hp hclosing hlock hk hsilent
  refine congrArg Host.Outcome.next ?_
  rw [hp]
  dsimp only
  rw [hclosing, hk]
  dsimp only
  rw [hsilent]
  exact if_neg (by simpa using hlock)

theorem batchAnswerTimeout_completes : Claims.batchAnswerTimeout := by
  intro s p id rest hwait
  refine congrArg Host.Outcome.next ?_
  rw [hwait]

/-- Settles O38: the wait stands, so its row names the rank that is late. -/
theorem fleetTimeouts : Obligations.FleetTimeouts :=
  ⟨ownerWaitTimeout_completes, senderGrantTimeout_completes, orphanTimeout_completes, barrierUpTimeout_completes, fenceUpTimeout_completes,
    releaseWaitTimeout_completes, gatherReceiveTimeout_completes, exchangeReceiveTimeout_completes, closeAgreementTimeout_completes,
    batchAnswerTimeout_completes⟩

end Sys2Proof.Proofs
end

section
/-!
PROOFS. Descriptors that pass every check start their command: NOP, the load commands, the image commands and the loader (O39, O40).
-/

namespace Sys2Proof.Proofs

open Sys2Proof Sys2Proof.Machine

section
variable {s s1 t : State} {fn ring op : Nat} {d : BitVec 512} {c : Cmd} {spec : State → BitVec 512 → Spec}
  {later : State → BitVec 512 → Nat} {start : State → Cmd → State}

/-- A command that starts has the effect of its row. -/
theorem hostCmd_eq_of_starts {k : Spec} (h : Claims.starts s fn ring d k c s1) (hk : spec s d = k) (ho : k.op = op)
    (hl : later (s.popSlot fn ring) d = 0) (ht : start s1 c = t) : s.hostCmd fn ring op spec later start = t.settle := by
  obtain ⟨ha, hc⟩ := h
  rw [hostCmd_starts ha hk ho hl, hc, ht]

/-- The row's only answer to a command that starts, as an outcome. -/
theorem next_hostCmd_of_starts {k : Spec} (h : Claims.starts s fn ring d k c s1) (hk : spec s d = k) (ho : k.op = op)
    (hl : later (s.popSlot fn ring) d = 0) (ht : start s1 c = t) :
    (Host.Outcome.next (s.hostCmd fn ring op spec later start) : Host.Outcome State Fault Refusal) = .next t.settle :=
  congrArg Host.Outcome.next (hostCmd_eq_of_starts h hk ho hl ht)

/-- The same of a row after whose command the steps that waited for it go on. -/
theorem next_hostCmd_proceedAll_of_starts {k : Spec} (h : Claims.starts s fn ring d k c s1) (hk : spec s d = k) (ho : k.op = op)
    (hl : later (s.popSlot fn ring) d = 0) (ht : start s1 c = t) :
    (Host.Outcome.next ((s.hostCmd fn ring op spec later start).proceedAll) : Host.Outcome State Fault Refusal) =
      .next t.settle.proceedAll :=
  congrArg (fun x => Host.Outcome.next (State.proceedAll x)) (hostCmd_eq_of_starts h hk ho hl ht)

end

theorem nop_completes : Claims.nop := by
  intro s s1 fn ring d c h
  exact next_hostCmd_of_starts h rfl rfl rfl rfl

theorem reservedOpcode_completes : Claims.reservedOpcode := by
  intro s fn ring d hf hd ho hs
  have hop : ((s.slotDesc fn ring).map (fun d => dField d 0 0)).getD 0xFF = dField d 0 0 := by rw [hd]; rfl
  have hr : (s.popSlot fn ring).refusal fn d ⟨dField d 0 0, true, 0xFF, true, true⟩ = Status.badOpcode := by
    unfold State.refusal
    rw [hs, ho]
    rfl
  refine congrArg Host.Outcome.next ?_
  rw [hop]
  rw [if_neg (by simp [ho]), hostCmd_refused hf hd rfl rfl (by rw [hr]; decide), hr]
  rfl

theorem progLoad_completes : Claims.progLoad := by
  intro s s1 s2 fn ring d c bs h hl hr ht
  refine next_hostCmd_of_starts h rfl rfl (if_neg (ne_true_of_eq_false hl)) ?_
  unfold State.runProgLoad
  simp only [hr, ht, Bool.not_true, Bool.false_eq_true, if_false]

theorem fill_completes : Claims.fill := by
  intro s s1 fn ring d c h ha hn hf hd ht
  refine next_hostCmd_of_starts h rfl rfl rfl ?_
  unfold State.runFill
  simp only [ha, hn, hf, hd, ht, ne_eq, not_true_eq_false, or_self, Bool.not_true, Bool.false_eq_true, if_false]

theorem weightLoad_completes : Claims.weightLoad := by
  intro s s1 fn ring d c h hl hf
  refine next_hostCmd_proceedAll_of_starts h rfl rfl hl ?_
  unfold State.runWeight
  rw [hf]

/-- Settles O39: each row's later checks pass, so its command runs to its end. -/
theorem loadCommands : Obligations.LoadCommands :=
  ⟨nop_completes, reservedOpcode_completes, progLoad_completes, fill_completes, weightLoad_completes⟩

theorem imageStage_completes : Claims.imageStage := by
  intro s s1 fn ring d c h hn hk
  refine next_hostCmd_of_starts h rfl rfl rfl ?_
  unfold State.runStage
  dsimp only
  rw [if_neg (by omega), if_pos hk]
  simp only [hk, if_true]

/-- Where no later check refuses the fetched IMAGE_APPLY, no refusal is noted. -/
theorem applyNoted_of_accepts {s : State} {fn ring : Nat} {d : BitVec 512} {k : Spec} (h : s.accepts fn ring d k)
    (hl : (s.applyLater d).1 = 0) : s.applyNoted fn ring = s := by
  obtain ⟨hf, hd, -⟩ := h
  unfold State.applyNoted
  simp only [hf, hd, hl, if_true]
  exact if_neg (fun hx => absurd hx.2.2.2 (by decide))

theorem imageApply_completes : Claims.imageApply := by
  intro s s1 s2 fn ring d c h hl hl' hq
  refine Eq.trans (congrArg (fun x => Host.Outcome.next (State.proceedAll (State.hostCmd x fn ring 0x41 (fun s d => applySpec s fn d)
    (fun s d => (s.applyLater d).1) (fun s c => s.runApply c)))) (applyNoted_of_accepts h.1 hl)) ?_
  refine next_hostCmd_proceedAll_of_starts h rfl rfl hl' ?_
  unfold State.runApply
  dsimp only
  rw [hq]

theorem imageRelease_completes : Claims.imageRelease := by
  intro s s1 fn ring d c h hl
  exact next_hostCmd_of_starts h rfl rfl (if_neg (ne_true_of_eq_false hl)) rfl

theorem loaderApplyStart_completes : Claims.loaderApplyStart := by
  intro s s1 j r hj hs
  refine congrArg Host.Outcome.next ?_
  rw [hj]
  dsimp only
  rw [hs]
  cases r <;> rfl

theorem drainWindowEnd_completes : Claims.drainWindowEnd := by
  intro s p d rest hd
  refine congrArg Host.Outcome.next ?_
  rw [hd]
  rfl

theorem sparge_completes : Claims.sparge := by
  intro s s1 fn ring d c h
  exact next_hostCmd_proceedAll_of_starts h rfl rfl rfl rfl

/-- Settles O40: an image command that nothing refuses changes the table of images, or joins the loader's jobs. -/
theorem imageCommands : Obligations.ImageCommands :=
  ⟨imageStage_completes, imageApply_completes, imageRelease_completes, loaderApplyStart_completes, drainWindowEnd_completes, sparge_completes⟩

end Sys2Proof.Proofs
end

section
/-!
PROOFS. Commands that start: the sequencer's, the turn's and the learn step's (O41, O42, O43).
-/

namespace Sys2Proof.Proofs

open Sys2Proof Sys2Proof.Machine

theorem seqSubmit_completes : Claims.seqSubmit := by
  intro s s1 fn ring d c h hphase
  exact next_hostCmd_of_starts h rfl rfl (if_pos hphase) rfl

theorem seqCancel_completes : Claims.seqCancel := by
  intro s s1 fn ring d c b q h hb hq
  refine next_hostCmd_of_starts h rfl rfl rfl ?_
  unfold State.runCancel
  dsimp only
  rw [hb]
  dsimp only
  rw [hq]

theorem kvEdit_completes : Claims.kvEdit := by
  intro s s1 fn ring d c b q h hq hroom
  refine next_hostCmd_of_starts h rfl rfl rfl ?_
  unfold State.runEdit
  dsimp only
  rw [hq]
  dsimp only
  cases hstep : (s1.bay b).stepping with
  | false => rfl
  | true => exact if_neg (Nat.not_le.mpr (hroom hstep))

theorem rolloutStepBoundary_completes : Claims.rolloutStepBoundary := by
  intro s b p hp htiles hwords hreplay hsafe hcontained
  have hgo : (!(s.rolloutTiles b).isEmpty || s.rolloutWords b || s.replayWaits p b || s.safe || s.fget .fcPartContained p == 1) = false := by
    simp [htiles, hwords, hreplay, hsafe, hcontained]
  refine congrArg Host.Outcome.next ?_
  rw [hp]
  exact if_neg (ne_true_of_eq_false hgo)

/-- A bay that may launch, with work to do and room for its records, launches the work chosen (R371 to R374). -/
theorem seqLaunch_launches {s : State} {b p : Nat} (hstep : (s.bay b).stepping = false) (hwait : (s.bay b).groupWait = [])
    (hbarrier : s.fget .seqBarrier b ≠ 1) (hwork : s.workHeld p = false) (hlock : s.lockstepHolds p b = false) (hheld : s.seqHeld p b = false)
    (hring : s.outRingOk b = true) (hsome : ¬ ((Claims.launchChoice s p b).2.es = [] ∧ s.fget .seqLockstep b = 0))
    (hroom : (Claims.launchChoice s p b).1.recordRoom p b (Claims.launchChoice s p b).2 = true) :
    s.seqLaunch p b = (Claims.launchChoice s p b).1.launchStep p b (Claims.launchChoice s p b).2 := by
  have hopen : ((s.bay b).stepping || (s.bay b).groupWait != [] || s.fget .seqBarrier b == 1 || s.workHeld p || s.lockstepHolds p b) = false := by
    simp [hstep, hwait, hbarrier, hwork, hlock]
  have hfree : (s.seqHeld p b || !s.outRingOk b) = false := by simp [hheld, hring]
  unfold State.seqLaunch
  refine (if_neg (ne_true_of_eq_false hopen)).trans ((if_neg (ne_true_of_eq_false hfree)).trans ?_)
  exact (if_neg hsome).trans (if_neg (ne_true_of_eq_false (congrArg Bool.not hroom)))

theorem rolloutStepLaunch_completes : Claims.rolloutStepLaunch := by
  intro s b p hp hphase hreplay hstep hwait hbarrier hwork hlock hheld hring hsome hroom
  refine congrArg Host.Outcome.next ?_
  rw [hp]
  refine (if_pos ⟨hphase, hreplay⟩).trans ?_
  rw [seqLaunch_launches hstep hwait hbarrier hwork hlock hheld hring hsome hroom]

/-- Settles O41: the sequencer's state stands as the claim says, so the row takes that branch. -/
theorem sequencerCommands : Obligations.SequencerCommands :=
  ⟨seqSubmit_completes, seqCancel_completes, kvEdit_completes, rolloutStepBoundary_completes, rolloutStepLaunch_completes⟩

/-- A turn command that nothing refuses runs. -/
theorem orRefuse_zero {s t : State} {c : Cmd} {status : Nat} (h : status = 0) : s.orRefuse c status t = t :=
  if_neg (not_not_intro h)

theorem turnBegin_completes : Claims.turnBegin := by
  intro s s1 fn ring d c h hl hr
  exact next_hostCmd_proceedAll_of_starts h rfl rfl hl (orRefuse_zero hr)

theorem turnCommit_completes : Claims.turnCommit := by
  intro s s1 fn ring d c h hl hr
  exact next_hostCmd_proceedAll_of_starts h rfl rfl hl (orRefuse_zero hr)

theorem turnAbandon_completes : Claims.turnAbandon := by
  intro s s1 fn ring d c h hl hr
  exact next_hostCmd_proceedAll_of_starts h rfl rfl hl (orRefuse_zero hr)

theorem commRejoin_completes : Claims.commRejoin := by
  intro s s1 s2 fn ring d c h hl hr hfound hq
  refine next_hostCmd_proceedAll_of_starts h rfl rfl hl ?_
  unfold State.runRejoin
  dsimp only
  rw [if_neg (not_not_intro hr), if_neg (not_not_intro hfound), hq]

theorem policySwap_completes : Claims.policySwap := by
  intro s s1 fn ring d c h hl hr
  exact next_hostCmd_proceedAll_of_starts h rfl rfl hl (if_neg (not_not_intro hr))

theorem policyPublish_completes : Claims.policyPublish := by
  intro s s1 fn ring d c h hl hr
  exact next_hostCmd_proceedAll_of_starts h rfl rfl hl (if_neg (not_not_intro hr))

/-- Settles O42: what would refuse the command when it starts is 0, so it runs. -/
theorem turnCommands : Obligations.TurnCommands :=
  ⟨turnBegin_completes, turnCommit_completes, turnAbandon_completes, commRejoin_completes, policySwap_completes, policyPublish_completes⟩

theorem learnStep_completes : Claims.learnStep := by
  intro s s1 fn ring d c h hl hw hr
  refine next_hostCmd_of_starts h rfl rfl hl ?_
  unfold State.runLearnStep
  dsimp only
  rw [if_neg (ne_true_of_eq_false hw), if_neg (not_not_intro hr)]

/-- A learn step that is over ends with the status of its failure, of a tile's nonzero code, or OK, and the code as DETAIL (R158). -/
theorem endLearn_finish {s : State} {p : Nat} {st : LearnStep} (h : (s.part p).step = some st) :
    s.endLearn p = (s.modPart p (fun x => { x with step := none, exchanges := x.exchanges.filter (fun e => e.home.isSome) })).finish
      st.cmd (if st.status ≠ 0 then st.status else if st.detail ≠ 0 then Status.programFailed else Status.ok) 0 st.detail := by
  unfold State.endLearn
  rw [h]
  dsimp only
  by_cases hs : st.status = 0
  · by_cases hd : st.detail = 0
    · simp only [hs, hd, ne_eq, not_true_eq_false, if_false]
    · simp only [hs, hd, ne_eq, not_true_eq_false, not_false_eq_true, if_false, if_true]
  · simp only [hs, ne_eq, not_false_eq_true, if_true]

theorem stepEnd_completes : Claims.stepEnd := by
  intro s s1 p st hs1 hstep hover hst
  subst hs1
  refine congrArg Host.Outcome.next ?_
  refine (if_pos (by rw [hstep, hover]; rfl)).trans ?_
  rw [endLearn_finish hst]

/-- What BATCH_PUT does with the record that it has read. -/
theorem runBatchPut_of_reads {s1 s2 : State} {c : Cmd} {bs : List Byte}
    (h : Claims.reads s1 s2 c (bitOf (c.arg 18 18) 1) (c.arg 31 24) (c.arg 35 32) bs) :
    s1.runBatchPut c = (if bitOf (c.arg 18 18) 0 then
      (s2.modPart c.part (fun x => { x with putWait := x.putWait ++ [c.id] })).send c.part
        { Msg.empty with dst := c.arg 21 20, vc := Vc.broadcast, ty := Ty.data, comm := c.arg 17 17, op := MsgOp.batch,
                         step := recordVersion bs, data := bs }
    else
      let x := s2.poolAdd c.part (c.arg 17 17) bs
      x.1.complete c (if x.2 then Status.ok else Status.poolFull) 0 0) := by
  unfold State.runBatchPut
  dsimp only
  rcases h with ⟨hhost, htake⟩ | ⟨hdev, hfault, rfl, rfl⟩
  · rw [if_pos hhost, htake]
    rfl
  · rw [if_neg (ne_true_of_eq_false hdev), hfault]

theorem batchPut_completes : Claims.batchPut := by
  intro s s1 s2 fn ring d c bs h hl hread
  exact next_hostCmd_of_starts h rfl rfl (if_neg (ne_true_of_eq_false hl)) (runBatchPut_of_reads hread)

/-- Settles O43: nothing holds or refuses the step, so it launches, ends, or puts its record. -/
theorem learnCommands : Obligations.LearnCommands := ⟨learnStep_completes, stepEnd_completes, batchPut_completes⟩

end Sys2Proof.Proofs
end

section
/-!
PROOFS. Commands of the memory tiers that start, and the end of flash work (O44).
-/

namespace Sys2Proof.Proofs

open Sys2Proof Sys2Proof.Machine

theorem move_completes : Claims.move := by
  intro s s1 s2 fn ring d c bs h hplace ht hlegal hbar haddr
  refine next_hostCmd_of_starts h rfl rfl rfl ?_
  unfold State.runMove
  simp only [hplace, ht, hlegal, hbar, haddr, Bool.not_true, Bool.false_eq_true, if_false]

theorem stateMove_completes : Claims.stateMove := by
  intro s s1 fn ring d c h hl hr
  exact next_hostCmd_of_starts h rfl rfl hl (if_neg (not_not_intro hr))

theorem ckptWrite_completes : Claims.ckptWrite := by
  intro s s1 fn ring d c h hl hf
  exact next_hostCmd_of_starts h rfl rfl hl (if_neg (by rw [hf]; exact Bool.false_ne_true))

theorem ckptLoad_completes : Claims.ckptLoad := by
  intro s s1 fn ring d c k h hturn hbusy hf hk
  have hl : ((s.popSlot fn ring).turning (dField d 16 16) ||
      ((s.popSlot fn ring).part (dField d 16 16)).flash.any (fun f => decide (f.kind ≤ 1))) = false := by rw [hturn, hbusy]; rfl
  refine next_hostCmd_of_starts h rfl rfl (if_neg (ne_true_of_eq_false hl)) ?_
  unfold State.runCkptLoad
  refine (if_neg (by rw [hf]; exact Bool.false_ne_true)).trans ?_
  dsimp only
  rw [hk] <;> rfl

/-- A flash command is the partition's where it has none. -/
theorem startFlash_of_none {s : State} {c : Cmd} (f : Flash) (h : (s.part c.part).flash = none) :
    s.startFlash c f = s.modPart c.part (fun x => { x with flash := some { f with cmd := c.id } }) :=
  if_neg (by rw [h]; exact Bool.false_ne_true)

/-- What FLASH_WRITE does with the bytes that it has read. -/
theorem runFlashWrite_of_reads {s1 s2 : State} {c : Cmd} {bs : List Byte} (hf : (s1.part c.part).flash = none)
    (h : Claims.reads s1 s2 c (bitOf (c.arg 17 17) 0) (c.arg 31 24) (c.arg 47 40) bs) :
    s1.runFlashWrite c = s2.startFlash c { Flash.base with slot := (s2.nsRange c.part).1 + c.arg 39 32, data := bs } := by
  unfold State.runFlashWrite
  refine (if_neg (by rw [hf]; exact Bool.false_ne_true)).trans ?_
  dsimp only
  rcases h with ⟨hhost, htake⟩ | ⟨hdev, hfault, rfl, rfl⟩
  · rw [if_pos hhost, htake]
    rfl
  · rw [if_neg (ne_true_of_eq_false hdev), hfault]

theorem flashWrite_completes : Claims.flashWrite := by
  intro s s1 s2 fn ring d c bs h hbar hro hsag hroom hf hread hf2
  refine next_hostCmd_of_starts h rfl rfl ?_ ((runFlashWrite_of_reads hf hread).trans (startFlash_of_none _ hf2))
  exact (if_neg (ne_true_of_eq_false hbar)).trans ((if_neg hro).trans ((if_neg hsag).trans (if_neg (Nat.not_lt.mpr hroom))))

theorem flashTrim_completes : Claims.flashTrim := by
  intro s s1 fn ring d c h hroom hf
  exact next_hostCmd_of_starts h rfl rfl (if_neg (Nat.not_lt.mpr hroom)) (startFlash_of_none _ hf)

theorem nsClear_completes : Claims.nsClear := by
  intro s s1 fn ring d c h hf
  exact next_hostCmd_of_starts h rfl rfl rfl (startFlash_of_none _ hf)

/-- FLASH_PROGRAM_DONE of a partition with flash work of its own: its own step, then its buddy's, and the wear (R233, R236). -/
theorem exec_flashProgramDone {s s1 : State} {p : Nat} {f : Flash} (hp : p < 12) (hf : (s.part p).flash = some f)
    (h : s.ownProgrammed p = s1) : exec (.flashProgramDone p) s = .next ((s1.buddyProgrammed p).wear.settle) := by
  subst h
  refine congrArg Host.Outcome.next (if_neg ?_)
  rintro (hp' | ⟨hnone, -⟩)
  · omega
  · rw [hf] at hnone
    cases hnone

theorem flashProgramDone_completes : Claims.flashProgramDone := by
  intro s s1 p f hp hf hstage
  refine exec_flashProgramDone hp hf ?_
  unfold State.ownProgrammed
  rw [hf]
  rcases hstage with ⟨hk, hs, rfl⟩ | ⟨hk, hs, rfl⟩ | ⟨hk, hs, rfl⟩ | ⟨hk, hs, rfl⟩ | ⟨hk | hk, rfl⟩
  · simp only [hk, hs]
  · simp only [hk, hs]
  · simp only [hk, hs]
  · simp only [hk]
  · simp only [hk]
  · simp only [hk]

/-- Settles O44: nothing refuses or delays the command, so its work on its tier starts or ends. -/
theorem tierCommands : Obligations.TierCommands :=
  ⟨move_completes, stateMove_completes, ckptWrite_completes, ckptLoad_completes, flashWrite_completes, flashTrim_completes, nsClear_completes,
    flashProgramDone_completes⟩

end Sys2Proof.Proofs
end

section
/-!
PROOFS. Instructions of the kettles, and the start, the blocks and the end of their runs (O46, O47).
-/

namespace Sys2Proof.Proofs

open Sys2Proof Sys2Proof.Machine

/-- What instruction w, of operation op, does in machine s1, which stands before it on the group that s works on (R243). -/
def kettleWork (s s1 : State) (st op : Nat) (k : KSlot) (w : Nat) : State :=
  if 3 ≤ op ∧ (s.kettle st).badLane.isSome then s1.kresidue st ((s.kettle st).badLane.getD 0)
  else if op = 0 then s1
  else if op = 1 then s1.kload st k w (Claims.kgroup s st k).1 (Claims.kgroup s st k).2
  else if op = 2 then s1.kstore st k w (Claims.kgroup s st k).1 (Claims.kgroup s st k).2
  else Claims.kettleLanes s s1 st k w (fun a b c => karith op (kiS w) a b c (!s1.decays st k ((kprog k.prog).expert (Claims.kgroup s st k).1)))

section
variable {s s1 s2 : State} {st op : Nat} {k : KSlot} {w : Nat}

/-- An instruction that the kettle takes does its work, and the kettle goes on. -/
theorem kettleRuns_of_takes (h : Claims.kettleTakes s s1 st op k w) (hw : kettleWork s s1 st op k w = s2) :
    s.kettleRuns st op = Claims.kettleGoes s s2 st k := by
  obtain ⟨hst, hnext, hop, hopen⟩ := h
  subst hw
  refine congrArg (fun x => State.afterKettle x st) ((if_pos hst).trans ?_)
  unfold State.kettleOp
  rw [hnext]
  refine (if_neg (not_not_intro hop)).trans ?_
  dsimp only
  rw [hopen]
  rfl

theorem kettleWork_arith (hop : 3 ≤ op) (hlane : (s.kettle st).badLane = none) :
    kettleWork s s1 st op k w = Claims.kettleLanes s s1 st k w (fun a b c =>
      karith op (kiS w) a b c (!s1.decays st k ((kprog k.prog).expert (Claims.kgroup s st k).1))) := by
  unfold kettleWork
  rw [if_neg (by simp [hlane]), if_neg (by omega), if_neg (by omega), if_neg (by omega)]

theorem kettleWork_badLane {l : Nat} (hop : 3 ≤ op) (hlane : (s.kettle st).badLane = some l) :
    kettleWork s s1 st op k w = s1.kresidue st l := by
  unfold kettleWork
  rw [if_pos ⟨hop, by rw [hlane]; rfl⟩, hlane]
  rfl

end

/-- Every arithmetic instruction runs, lane by lane, the function of its operation. -/
theorem kettleArith_completes {i : Nat → Instr} {op : Nat} {f : Nat → Nat → Nat → Nat → Bool → Rnd} (hop : 3 ≤ op)
    (hi : ∀ st s, exec (i st) s = .next (s.kettleRuns st op)) (hf : karith op = f) : Claims.kettleArith i op f := by
  intro s s1 st k w h hlane
  subst hf
  exact (hi st s).trans (congrArg Host.Outcome.next (kettleRuns_of_takes h (kettleWork_arith hop hlane)))

theorem kettleNop_completes : Claims.kettleNop := by
  intro s s1 st k w h
  exact congrArg Host.Outcome.next (kettleRuns_of_takes h rfl)

theorem kettleLd_completes : Claims.kettleLd := by
  intro s s1 st k w h hbad
  refine congrArg Host.Outcome.next (kettleRuns_of_takes h ?_)
  exact if_neg (ne_true_of_eq_false hbad)

/-- The store of a group of a decayed expert, for the streams that decay, writes nothing (R257). -/
theorem kstore_of_skips {s1 : State} {st w e c : Nat} {k : KSlot}
    (h : (s1.decays st k ((kprog k.prog).expert e) && (kiS w == 1 || kiS w == 2 || decide (8 ≤ kiS w))) = true) :
    s1.kstore st k w e c = s1 := if_pos h

theorem kettleSt_completes : Claims.kettleSt := by
  intro s s1 st k w h
  refine ⟨fun hskip => ?_, fun hskip hdata hplane => ?_⟩
  · exact congrArg Host.Outcome.next (kettleRuns_of_takes h (kstore_of_skips hskip))
  · refine congrArg Host.Outcome.next (kettleRuns_of_takes h ?_)
    refine (if_neg (ne_true_of_eq_false hskip)).trans (if_neg (ne_true_of_eq_false ?_))
    exact Bool.or_eq_false_iff.mpr ⟨hdata, hplane⟩

/-- Settles O46: `kettleRuns_of_takes` reduces each instruction to its work on the lanes of the group. -/
theorem kettleInstructions : Obligations.KettleInstructions :=
  ⟨kettleNop_completes, kettleLd_completes, kettleSt_completes,
    kettleArith_completes (by decide) (fun _ _ => rfl) rfl, kettleArith_completes (by decide) (fun _ _ => rfl) rfl,
    kettleArith_completes (by decide) (fun _ _ => rfl) rfl, kettleArith_completes (by decide) (fun _ _ => rfl) rfl,
    kettleArith_completes (by decide) (fun _ _ => rfl) rfl, kettleArith_completes (by decide) (fun _ _ => rfl) rfl,
    kettleArith_completes (by decide) (fun _ _ => rfl) rfl, kettleArith_completes (by decide) (fun _ _ => rfl) rfl,
    kettleArith_completes (by decide) (fun _ _ => rfl) rfl, kettleArith_completes (by decide) (fun _ _ => rfl) rfl,
    kettleArith_completes (by decide) (fun _ _ => rfl) rfl⟩

/-- Where its event stands, or has been taken, a run goes on to stage 2 with the event consumed (R247). -/
theorem startRun_of_event {s : State} {st : Nat} {k : KSlot} (hopen : ((kprog k.prog).sweep && s.updateOpen st) = false)
    (hevent : (s.fset .ketSlot st k.slot).fget .ketState st ≠ 2 →
      (kprog k.prog).startCount ≤ (s.fset .ketSlot st k.slot).fget .ketKE (16 * st + (kprog k.prog).startEv)) :
    s.startRun st k = (
      let s1 := s.fset .ketSlot st k.slot
      let e := 16 * st + (kprog k.prog).startEv
      Claims.kettleNorm (if s1.fget .ketState st = 2 then s1 else s1.fset .ketKE e (s1.fget .ketKE e - (kprog k.prog).startCount)) st k) := by
  unfold State.startRun
  refine (if_neg (ne_true_of_eq_false hopen)).trans ?_
  dsimp only
  by_cases hwait : (s.fset .ketSlot st k.slot).fget .ketState st = 2
  · rw [if_pos hwait, if_pos hwait]
    rfl
  · rw [if_neg hwait, if_neg hwait, if_neg (Nat.not_lt.mpr (hevent hwait))]
    rfl

theorem kettleRunStart_completes : Claims.kettleRunStart := by
  intro s st n rest k hst hwhy hstate htodo hk hopen hevent
  refine congrArg (fun x => Host.Outcome.next (State.afterKettle x st)) ?_
  refine Eq.trans ?_ (startRun_of_event hopen hevent)
  unfold State.kettleStart
  refine (if_neg (by omega)).trans ?_
  rw [htodo]
  dsimp only
  rw [hk]

theorem kettleBlockCommit_completes : Claims.kettleBlockCommit := by
  intro s st k hst hk
  have hexec {t : State} (h : s.kcommit st = t) : exec (.kettleBlockCommit st) s = .next (t.afterKettle st) := by
    subst h
    exact congrArg Host.Outcome.next (if_pos hst)
  have hfinal (hstate : s.fget .ketState st = 4) : s.kcommit st = s.finalBlock st k (s.fget .ketCommitted st) := by
    unfold State.kcommit
    dsimp only
    rw [hk]
    exact (if_neg (by omega)).trans (if_pos hstate)
  refine ⟨fun hstate hgroup => hexec ?_, fun hstate hundo s1 hopen => hexec ?_, fun hstate hundo => hexec ?_⟩
  · unfold State.kcommit
    dsimp only
    rw [hk]
    exact (if_pos hstate).trans (if_neg (Nat.not_lt.mpr hgroup))
  · refine (hfinal hstate).trans ?_
    unfold State.finalBlock
    refine (if_neg (ne_true_of_eq_false hundo)).trans ?_
    rw [hopen]
  · exact (hfinal hstate).trans (if_pos hundo)

theorem kettleBadLane_completes : Claims.kettleBadLane := by
  intro s s1 st l k w h hlane
  exact congrArg Host.Outcome.next (kettleRuns_of_takes h (kettleWork_badLane (by decide) hlane))

theorem kettleWaitTimeout_completes : Claims.kettleWaitTimeout := by
  intro s st hst hstate
  exact congrArg Host.Outcome.next (if_pos ⟨hst, hstate⟩)

theorem kettleResume_completes : Claims.kettleResume := by
  intro s s1 fn ring d c h hl hr
  exact next_hostCmd_of_starts h rfl rfl hl (if_neg (not_not_intro hr))

theorem kettleAbandon_completes : Claims.kettleAbandon := by
  intro s s1 fn ring d c h hl hr
  exact next_hostCmd_of_starts h rfl rfl hl (if_neg (not_not_intro hr))

/-- Settles O47: the state of the kettle's run chooses the branch that each claim names. -/
theorem kettleRuns : Obligations.KettleRuns :=
  ⟨kettleRunStart_completes, kettleBlockCommit_completes, kettleBadLane_completes, kettleWaitTimeout_completes, kettleResume_completes,
    kettleAbandon_completes⟩

end Sys2Proof.Proofs
end

section
/-!
PROOFS. Security commands, tamper and recovery, SPDM, the management bus, capture and replay (O48 to O51).
-/

namespace Sys2Proof.Proofs

open Sys2Proof Sys2Proof.Machine

/-- A row that asks for power finds it. -/
theorem not_unpowered {s : State} (h : s.pwr.powered = true) : ¬ s.pwr.powered = false := by
  rw [h]
  exact Bool.noConfusion

theorem attestReport_completes : Claims.attestReport := by
  intro s s1 fn ring d c h hid hvault
  exact next_hostCmd_of_starts h rfl rfl (if_pos hid) (if_neg (ne_true_of_eq_false hvault))

theorem fwUpdate_completes : Claims.fwUpdate := by
  intro s s1 fn ring d c h hsag hidle hcheck
  refine next_hostCmd_of_starts h rfl rfl ((if_neg hsag).trans (if_neg (ne_true_of_eq_false hidle))) ?_
  unfold State.runFwUpdate
  dsimp only
  rw [hcheck]
  rfl

theorem lcAdvance_completes : Claims.lcAdvance := by
  intro s s1 fn ring d c customer hasKey h hsag hrow hauth hkey hbank
  refine next_hostCmd_of_starts h rfl rfl (if_neg hsag) ?_
  unfold State.runLcAdvance
  dsimp only
  rw [hrow]
  dsimp only
  refine (if_neg (by rw [hauth]; exact Bool.false_ne_true)).trans (if_neg (ne_true_of_eq_false ?_))
  rw [hkey, hbank, bne_self_eq_false]
  rfl

theorem authChallenge_completes : Claims.authChallenge := by
  intro s s1 fn ring d c h
  exact next_hostCmd_of_starts h rfl rfl rfl rfl

theorem debugUnlock_completes : Claims.debugUnlock := by
  intro s s1 fn ring d c customer h hrow hauth
  refine next_hostCmd_of_starts h rfl rfl rfl ?_
  unfold State.runUnlock
  dsimp only
  rw [hrow]
  exact if_neg (by rw [hauth]; exact Bool.false_ne_true)

theorem tamper_completes : Claims.tamper := by
  intro s cause hcause hpower
  exact congrArg Host.Outcome.next (if_neg (not_or.mpr ⟨Nat.not_le.mpr hcause, not_unpowered hpower⟩))

theorem recoveryChunk_completes : Claims.recoveryChunk := by
  intro s k data hstage hk
  exact congrArg Host.Outcome.next (if_neg (not_or.mpr ⟨not_not_intro hstage, Nat.not_le.mpr hk⟩))

theorem recoveryGo_completes : Claims.recoveryGo := by
  intro s hstage hsag
  exact congrArg Host.Outcome.next (if_neg (not_or.mpr ⟨not_not_intro hstage, hsag⟩))

/-- Settles O48: every check of the command passes, so its keys, its state or its image take effect. -/
theorem securityCommands : Obligations.SecurityCommands :=
  ⟨attestReport_completes, fwUpdate_completes, lcAdvance_completes, authChallenge_completes, debugUnlock_completes, tamper_completes,
    recoveryChunk_completes, recoveryGo_completes⟩

/-- A request of SPDM that is in order and whose own condition holds is answered, and has its effect (R443, R476). -/
theorem spdm_of_taken {s : State} {fn need code : Nat} {req view : List Byte} {ok : Bool} (k : State → State)
    (h : Claims.spdmTaken s fn need) (hok : ok = true) : s.spdm fn need code req view ok k = k (s.wake.doe fn code req view) := by
  obtain ⟨hbox, hneed⟩ := h
  unfold State.spdm
  simp only [hbox, hok, Nat.not_lt.mpr hneed, decide_false, Bool.not_true, Bool.or_self, Bool.false_eq_true, if_false]

theorem getVersion_completes : Claims.getVersion := by
  intro s fn req h
  exact congrArg Host.Outcome.next (spdm_of_taken _ h rfl)

theorem getCapabilities_completes : Claims.getCapabilities := by
  intro s fn req h
  exact congrArg Host.Outcome.next (spdm_of_taken _ h rfl)

theorem negotiateAlgorithms_completes : Claims.negotiateAlgorithms := by
  intro s fn req h
  exact congrArg Host.Outcome.next (spdm_of_taken _ h rfl)

theorem getDigests_completes : Claims.getDigests := by
  intro s fn req h
  exact congrArg Host.Outcome.next (spdm_of_taken _ h rfl)

theorem getCertificate_completes : Claims.getCertificate := by
  intro s fn req h
  exact congrArg Host.Outcome.next (spdm_of_taken _ h rfl)

theorem challenge_completes : Claims.challenge := by
  intro s fn req h hid
  exact congrArg Host.Outcome.next (spdm_of_taken _ h hid)

theorem getMeasurements_completes : Claims.getMeasurements := by
  intro s fn req h hid
  refine congrArg Host.Outcome.next (spdm_of_taken _ h ?_)
  rcases hid with hid | hsig
  · rw [hid, Bool.true_or]
  · rw [hsig, Bool.not_false, Bool.or_true]

theorem keyExchange_completes : Claims.keyExchange := by
  intro s fn req h hfn hid hstage hidle
  refine congrArg Host.Outcome.next (spdm_of_taken _ h ?_)
  rw [bne_iff_ne.mpr hfn, hid, hstage, hidle]
  rfl

theorem finish_completes : Claims.finish := by
  intro s fn req h hfn hstage
  refine congrArg Host.Outcome.next (spdm_of_taken _ h ?_)
  rw [bne_iff_ne.mpr hfn, hstage]
  rfl

theorem keyUpdate_completes : Claims.keyUpdate := by
  intro s fn req h hfn hstage
  refine congrArg Host.Outcome.next (spdm_of_taken _ h ?_)
  rw [bne_iff_ne.mpr hfn, hstage]
  rfl

theorem endSession_completes : Claims.endSession := by
  intro s fn req h hfn hstage
  refine congrArg (fun x => Host.Outcome.next (State.proceedAll x)) (spdm_of_taken _ h ?_)
  rw [bne_iff_ne.mpr hfn, bne_iff_ne.mpr hstage]
  rfl

/-- Settles O49: `spdm_of_taken` for each request, whose condition the claim gives. -/
theorem spdmRequests : Obligations.SpdmRequests :=
  ⟨getVersion_completes, getCapabilities_completes, negotiateAlgorithms_completes, getDigests_completes, getCertificate_completes,
    challenge_completes, getMeasurements_completes, keyExchange_completes, finish_completes, keyUpdate_completes, endSession_completes⟩

theorem sensorUpdate_completes : Claims.sensorUpdate := by
  intro s n v hpower hlow hhigh
  exact congrArg Host.Outcome.next (if_neg (not_or.mpr ⟨not_unpowered hpower, by omega⟩))

theorem mctpControlMessage_completes : Claims.mctpControlMessage := by
  intro s req hpower
  exact congrArg Host.Outcome.next (if_neg (not_unpowered hpower))

theorem pldmBaseRequest_completes : Claims.pldmBaseRequest := by
  intro s req hpower
  exact congrArg Host.Outcome.next (if_neg (not_unpowered hpower))

theorem pldmPlatformRequest_completes : Claims.pldmPlatformRequest := by
  intro s req hpower
  exact congrArg Host.Outcome.next (if_neg (not_unpowered hpower))

theorem pldmFruRequest_completes : Claims.pldmFruRequest := by
  intro s req hpower
  exact congrArg Host.Outcome.next (if_neg (not_unpowered hpower))

/-- Settles O50: a powered module answers its BMC. -/
theorem managementRequests : Obligations.ManagementRequests :=
  ⟨sensorUpdate_completes, mctpControlMessage_completes, pldmBaseRequest_completes, pldmPlatformRequest_completes, pldmFruRequest_completes⟩

theorem replayRun_completes : Claims.replayRun := by
  intro s s1 fn ring d c g bs start rest fl n h hconf hg happly hread hrecords hdigest
  refine next_hostCmd_proceedAll_of_starts h rfl rfl (if_neg (ne_true_of_eq_false hconf)) ?_
  unfold State.runReplay
  dsimp only
  rw [hg]
  dsimp only
  refine (if_neg (fun hbad => happly.elim hbad.1 hbad.2)).trans ?_
  rcases hread with ⟨hhost, rfl⟩ | ⟨hdev, hfault, rfl⟩
  · rw [if_pos hhost, hrecords]
    exact if_neg (not_not_intro hdigest)
  · rw [if_neg (ne_true_of_eq_false hdev), hfault]
    dsimp only
    rw [hrecords]
    exact if_neg (not_not_intro hdigest)

theorem replayArm_completes : Claims.replayArm := by
  intro s p hopen hp
  exact congrArg Host.Outcome.next (if_pos (by rw [hopen, decide_eq_true hp]; rfl))

theorem replayDisarm_completes : Claims.replayDisarm := by
  intro s p hopen hp
  exact congrArg Host.Outcome.next (if_pos (by rw [hopen, decide_eq_true hp]; rfl))

/-- Settles O51: the capture is of the image named, and read whole, so the run is queued; ARM follows its register. -/
theorem replayCommands : Obligations.ReplayCommands := ⟨replayRun_completes, replayArm_completes, replayDisarm_completes⟩

end Sys2Proof.Proofs
end

section
/-!
PROOFS. The fault collector, repairs and spares, and the ports (O52, O53, O54).
-/

namespace Sys2Proof.Proofs

open Sys2Proof Sys2Proof.Machine

theorem faultRelease_completes : Claims.faultRelease := by
  intro s s1 fn ring d c h
  refine ⟨fun hp hheld => ?_, fun hall hheld => ?_⟩
  · exact next_hostCmd_of_starts h rfl rfl rfl ((if_pos hp).trans (if_pos hheld))
  · refine next_hostCmd_of_starts h rfl rfl rfl ?_
    unfold State.runRelease
    dsimp only
    rw [hall, if_neg (by decide), if_pos hheld]

theorem faultInject_completes : Claims.faultInject := by
  intro s s1 fn ring d c h
  exact next_hostCmd_of_starts h rfl rfl rfl rfl

theorem fcAck_completes : Claims.fcAck := by
  intro s seq i h
  exact execFcAck_of_slotOf_some h

theorem fcAckAll_completes : Claims.fcAckAll := by
  intro s v h
  exact congrArg Host.Outcome.next (if_pos h)

theorem graceExpiry_completes : Claims.graceExpiry := by
  intro s seq g h
  refine congrArg Host.Outcome.next ?_
  rw [h]
  rfl

theorem quietExpiry_completes : Claims.quietExpiry := by
  intro s scope hquiet hheld hraised hchip
  have hmarks : (scope == 12 && (s.fc.byTamper || s.fc.byParity)) = false := by
    by_cases hs : scope = 12
    · obtain ⟨htamper, hparity⟩ := hchip hs
      rw [htamper, hparity]
      exact Bool.and_false _
    · rw [beq_eq_false_iff_ne.mpr hs]
      rfl
  refine congrArg Host.Outcome.next (if_neg (ne_true_of_eq_false ?_))
  rw [hquiet, hheld, hraised, hmarks]
  rfl

theorem faultPulseEnd_completes : Claims.faultPulseEnd := by
  intro s h
  exact congrArg Host.Outcome.next (if_pos h)

theorem collectorParity_completes : Claims.collectorParity := fun _ => rfl

theorem holdWrite_completes : Claims.holdWrite := fun _ _ => rfl

/-- Settles O52: the scope, timer or record that the claim names is there. -/
theorem collectorCommands : Obligations.CollectorCommands :=
  ⟨faultRelease_completes, faultInject_completes, fcAck_completes, fcAckAll_completes, graceExpiry_completes, quietExpiry_completes,
    faultPulseEnd_completes, collectorParity_completes, holdWrite_completes⟩

/-- An alternative whose condition is written the other way round. -/
theorem ite_le_eq_ite_lt {α : Type} (m n : Nat) (a b : α) : (if m ≤ n then a else b) = if n < m then b else a := by
  rcases Nat.lt_or_ge n m with h | h
  · rw [if_neg (Nat.not_le.mpr h), if_pos h]
  · rw [if_pos h, if_neg (Nat.not_lt.mpr h)]

theorem patrolScrub_completes : Claims.patrolScrub := by
  intro s t bank ht hbank
  exact congrArg Host.Outcome.next (if_pos ⟨ht, hbank⟩)

theorem bankRowRepair_completes : Claims.bankRowRepair := by
  intro s t bank row ht hbank hrow hboundary herrs
  exact congrArg Host.Outcome.next ((if_pos ⟨ht, hbank, hrow, hboundary, herrs⟩).trans (ite_le_eq_ite_lt ..))

theorem accLineRepair_completes : Claims.accLineRepair := by
  intro s t line ht hboundary herrs
  exact congrArg Host.Outcome.next ((if_pos ⟨ht, hboundary, herrs⟩).trans (ite_le_eq_ite_lt ..))

theorem hbmRowRepair_completes : Claims.hbmRowRepair := by
  intro s st row hst hretired hboundary herrs
  refine congrArg Host.Outcome.next (if_neg ?_)
  rintro (h | h | h | h)
  · omega
  · exact hretired h
  · exact ne_true_of_eq_false h hboundary
  · omega

theorem lpddrRowRepair_completes : Claims.lpddrRowRepair := by
  intro s b row hb hretired hboundary
  refine congrArg Host.Outcome.next (if_neg ?_)
  rintro (h | h | h)
  · omega
  · exact hretired h
  · exact ne_true_of_eq_false h hboundary

theorem spareTakeover_completes : Claims.spareTakeover := by
  intro s t ht hretire hspare hdegraded hboundary
  exact congrArg Host.Outcome.next (if_pos (by rw [ht, hretire, hspare, hdegraded, hboundary]; rfl))

theorem tileUnmapped_completes : Claims.tileUnmapped := by
  intro s t ht hretire hspare hdegraded hboundary
  exact congrArg Host.Outcome.next (if_pos (by rw [ht, hretire, hspare, hdegraded, hboundary]; rfl))

theorem bayRetired_completes : Claims.bayRetired := by
  intro s b hb hretired hboundary
  exact congrArg Host.Outcome.next (if_pos ⟨hb, hretired, hboundary⟩)

/-- Settles O53: at a step boundary the part to be repaired, replaced or retired is so. -/
theorem repairEvents : Obligations.RepairEvents :=
  ⟨patrolScrub_completes, bankRowRepair_completes, accLineRepair_completes, hbmRowRepair_completes, lpddrRowRepair_completes,
    spareTakeover_completes, tileUnmapped_completes, bayRetired_completes⟩

/-- What a port that is UP does with a flit, after the free count of what FEC corrected (R314 to R317). -/
theorem takeFlit_of_up {s s0 : State} {q n : Nat} {f : BitVec 2048} (hq : q < 24) (hup : s.fget .linkState q = 2) (hstandby : s.standby = false)
    (hfree : s.free1 = (n, s0)) : s.takeFlit q f = (
      let s1 := s0.finc .linkFecCorrected q n
      if !flitCrcOk f then s1.crcFails q
      else
        let s2 := s1.linkFields q f
        if s2.fget .linkState q ≠ 2 then s2
        else if flitTy f ≠ 0 ∧ flitSeq f ≠ (s2.port q).rxSeq then s2
        else State.pump 512 (if !flitLegal f then s2.badFlit q f else if flitTy f = 0 then s2 else s2.acceptFlit q f) q) := by
  unfold State.takeFlit
  refine (if_neg ?_).trans ?_
  · rintro (h | h | h)
    · omega
    · exact h hup
    · exact ne_true_of_eq_false hstandby h
  · rw [hfree]

theorem flitReceive_completes : Claims.flitReceive := by
  intro s s0 s1 s2 q n f hq hup hstandby hfree hs1 hs2
  subst hs1
  have htake : s.takeFlit q f = s2 := by
    rw [takeFlit_of_up hq hup hstandby hfree]
    dsimp only
    have hpass (h : flitCrcOk f = true) : ¬ (!flitCrcOk f) = true := ne_true_of_eq_false (congrArg Bool.not h)
    rcases hs2 with ⟨hcrc, rfl⟩ | ⟨hcrc, hdown, rfl⟩ | ⟨hcrc, hlink, hty, hseq, rfl⟩ | ⟨hcrc, hlink, hnext, rfl⟩
    · exact if_pos (congrArg Bool.not hcrc)
    · exact (if_neg (hpass hcrc)).trans (if_pos hdown)
    · exact (if_neg (hpass hcrc)).trans ((if_neg (not_not_intro hlink)).trans (if_pos ⟨hty, hseq⟩))
    · refine (if_neg (hpass hcrc)).trans ((if_neg (not_not_intro hlink)).trans ((if_neg (fun h => hnext.elim h.1 h.2)).trans ?_))
      cases flitLegal f <;> rfl
  refine congrArg Host.Outcome.next ?_
  rw [htake]

theorem laneFailed_completes : Claims.laneFailed := by
  intro s q lane hq hlane hup hbit
  refine congrArg Host.Outcome.next ((if_neg (Nat.not_le.mpr hq)).trans (congrArg State.settle ?_))
  unfold State.laneFails
  refine (if_neg ?_).trans ?_
  · rintro (h | h | h)
    · omega
    · exact h hup
    · exact ne_true_of_eq_false hbit h
  · simp only [if_true, Bool.and_eq_true, Bool.not_eq_true', beq_eq_false_iff_ne, ne_eq]

theorem restripeComplete_completes : Claims.restripeComplete := by
  intro s q hup hrestriping
  refine congrArg Host.Outcome.next (if_neg (not_or.mpr ⟨not_not_intro hup, ?_⟩))
  rw [hrestriping]
  exact Bool.noConfusion

/-- The state of a port that trains or is UP, as its row reads it. -/
theorem training_or_up {s : State} {q : Nat} (h : s.fget .linkState q = 1 ∨ s.fget .linkState q = 2) :
    (s.fget .linkState q == 1 || s.fget .linkState q == 2) = true := by
  rcases h with h | h <;> rw [h] <;> rfl

theorem partnerTraining_completes : Claims.partnerTraining := by
  intro s q hon hstate
  exact congrArg Host.Outcome.next (if_pos (by rw [hon, training_or_up hstate]; rfl))

theorem linkUp_completes : Claims.linkUp := by
  intro s q pid pport credits hon hstate hpause
  exact congrArg Host.Outcome.next (if_neg (ne_true_of_eq_false (by rw [hon, hstate, hpause]; rfl)))

theorem linkTrainFail_completes : Claims.linkTrainFail := by
  intro s q hon hstate hpause
  exact congrArg Host.Outcome.next (if_pos (by rw [hon, hstate, hpause]; rfl))

theorem linkTrainRetry_completes : Claims.linkTrainRetry := by
  intro s q hon hstate hpause
  exact congrArg Host.Outcome.next (if_pos (by rw [hon, hstate, hpause]; rfl))

theorem creditStall_completes : Claims.creditStall := by
  intro s s1 q vc n hstate hqueue hcredit hfree
  refine congrArg Host.Outcome.next ((if_pos ?_).trans ?_)
  · rw [training_or_up hstate, hqueue, hcredit]
    rfl
  · rw [hfree]

theorem linkDown_completes : Claims.linkDown := by
  intro s q hon hstate
  exact congrArg Host.Outcome.next (if_pos (by rw [hon, training_or_up hstate]; rfl))

theorem retrain_completes : Claims.retrain := by
  intro s q hon hstate
  exact congrArg Host.Outcome.next (if_pos (by rw [hon, bne_iff_ne.mpr hstate]; rfl))

/-- Settles O54: the port is in the state that its event asks for. -/
theorem linkEvents : Obligations.LinkEvents :=
  ⟨flitReceive_completes, laneFailed_completes, restripeComplete_completes, partnerTraining_completes, linkUp_completes, linkTrainFail_completes,
    linkTrainRetry_completes, creditStall_completes, linkDown_completes, retrain_completes⟩

end Sys2Proof.Proofs
end

section
/-!
PROOFS. Register writes, VFs and resets, power and temperature (O55, O56, O57).
-/

namespace Sys2Proof.Proofs

open Sys2Proof Sys2Proof.Machine

theorem ringEnable_completes : Claims.ringEnable := by
  intro s fn ring hopen
  refine ⟨fun hoff => ?_, fun hoff => ?_⟩
  · exact congrArg Host.Outcome.next ((if_pos hopen).trans (if_neg hoff))
  · exact congrArg Host.Outcome.next ((if_pos hopen).trans (if_neg hoff))

theorem doorbellWrite_completes : Claims.doorbellWrite := by
  intro s fn ring v hopen
  exact congrArg Host.Outcome.next ((if_pos hopen).trans (ite_le_eq_ite_lt ..))

theorem cqHeadWrite_completes : Claims.cqHeadWrite := by
  intro s fn ring v hopen
  exact congrArg Host.Outcome.next (if_pos hopen)

theorem coalesceTimeout_completes : Claims.coalesceTimeout := by
  intro s fn ring hfn hring hpending hlimit
  refine congrArg Host.Outcome.next (if_pos ?_)
  rw [decide_eq_true hfn, decide_eq_true hring, bne_iff_ne.mpr hpending, bne_iff_ne.mpr hlimit]
  rfl

theorem registerWrite_completes : Claims.registerWrite := by
  intro s fn a v hfn halign
  have hexec {t : State} (h : s.writeReg fn a (v % 2 ^ 32) = t) : exec (.registerWrite fn a v) s = .next t.settle.proceedAll := by
    subst h
    exact congrArg Host.Outcome.next (if_pos ⟨hfn, halign⟩)
  refine ⟨fun hlow hhigh hopen => hexec ?_, fun hmsix hlow hhigh hslot hopen => hexec ?_, fun k i o hmsix hbell hblk hopen hlive => hexec ?_⟩
  · exact (if_pos ⟨hlow, hhigh⟩).trans (if_pos hopen)
  · exact (if_neg hmsix).trans ((if_pos ⟨hlow, hhigh⟩).trans (if_pos ⟨hslot, hopen⟩))
  · refine (if_neg hmsix).trans ((if_neg hbell).trans ?_)
    rw [hblk]
    exact if_pos (by rw [hopen, hlive]; rfl)

theorem quiesceWrite_completes : Claims.quiesceWrite := by
  intro s p v hp hopen
  have hexec {t : State} (h : s.wake.writeQuiesce p v = t) : exec (.quiesceWrite p v) s = .next t.settle.proceedAll := by
    subst h
    exact congrArg (fun x => Host.Outcome.next x) (if_pos (by rw [hopen, decide_eq_true hp]; rfl))
  refine ⟨fun hset hoff => hexec ?_, fun hclear => hexec ?_⟩
  · exact (if_pos hset).trans (if_neg hoff)
  · exact if_neg (by omega)

theorem numFlagsClear_completes : Claims.numFlagsClear := by
  intro s t v hopen hlive
  exact congrArg Host.Outcome.next (if_pos (by rw [hopen, hlive]; rfl))

theorem kvCtrlWrite_completes : Claims.kvCtrlWrite := by
  intro s fn b v p hopen hlayers hlayers' hrope hp hstep hseqs
  refine congrArg Host.Outcome.next ((if_pos hopen).trans ?_)
  unfold State.writeKvCtrl
  refine (if_neg (by omega)).trans ?_
  rw [hp]
  exact if_neg (ne_true_of_eq_false (by rw [hstep, hseqs]; rfl))

theorem seqAreaWrite_completes : Claims.seqAreaWrite := by
  intro s fn b area size p hopen hp harea
  refine congrArg Host.Outcome.next ((if_pos hopen).trans ?_)
  unfold State.writeArea
  rw [hp]
  exact if_pos harea

/-- The namespace registers take a write exactly where it is legal (R239). -/
theorem writeNs_eq_ite (s : State) (p base size slot : Nat) :
    s.writeNs p base size slot =
      if (s.part p).flash = none ∧ base < 65536 ∧ size < 65536 ∧ slot < 65536 ∧ 4 * slot ≤ size ∧ base + size ≤ 2 ^ 15 ∧
        (List.range 12).any (fun q => q != p && nsMeet base size (s.fget .flashNsBase q) (s.fget .flashNsSize q)) = false
      then (((s.fset .flashNsBase p base).fset .flashNsSize p size).fset .flashCkptSlot p slot).showSlots p
      else s := by
  unfold State.writeNs
  dsimp only
  rw [← ite_not]
  refine if_congr ?_ rfl rfl
  simp only [Bool.not_eq_true, Bool.or_eq_false_iff, decide_eq_false_iff_not, Nat.not_le, Nat.not_lt, and_assoc,
    Option.isSome_eq_false_iff, Option.isNone_iff_eq_none]

theorem flashNsWrite_completes : Claims.flashNsWrite := by
  intro s p base size slot hp hopen
  refine congrArg Host.Outcome.next ((if_pos ?_).trans (writeNs_eq_ite ..))
  rw [hopen, decide_eq_true hp]
  rfl

/-- Settles O55: the block of the register answers, so its write takes effect. -/
theorem registerWrites : Obligations.RegisterWrites :=
  ⟨ringEnable_completes, doorbellWrite_completes, cqHeadWrite_completes, coalesceTimeout_completes, registerWrite_completes, quiesceWrite_completes,
    numFlagsClear_completes, kvCtrlWrite_completes, seqAreaWrite_completes, flashNsWrite_completes⟩

theorem vfEnable_completes : Claims.vfEnable := by
  intro s n hstage
  exact congrArg Host.Outcome.next (if_neg hstage)

theorem vfDisable_completes : Claims.vfDisable := by
  intro s vf hlow hhigh hup hdrain
  refine congrArg Host.Outcome.next ((if_pos ⟨hlow, hhigh, hup⟩).trans (congrArg (fun x => State.proceedAll (State.settle x)) ?_))
  exact if_neg (ne_true_of_eq_false hdrain)

theorem warmReset_completes : Claims.warmReset := by
  intro s external hpower hperst
  exact congrArg Host.Outcome.next (if_pos (by rw [hpower, hperst]; rfl))

theorem perstNRelease_completes : Claims.perstNRelease := by
  intro s hpower hperst
  exact congrArg Host.Outcome.next (if_pos (by rw [hpower, hperst]; rfl))

theorem modulePowerOn_completes : Claims.modulePowerOn := by
  intro s straps hpower
  exact congrArg Host.Outcome.next (if_neg (ne_true_of_eq_false hpower))

theorem powerDown_completes : Claims.powerDown := by
  intro s v hpower hv
  refine congrArg Host.Outcome.next (if_pos ?_)
  rw [hpower, Bool.true_and, ← Bool.decide_or]
  exact decide_eq_true hv

theorem idleEntry_completes : Claims.idleEntry := by
  intro s hstage hsafe hquiescent
  exact congrArg Host.Outcome.next (if_pos ⟨hstage, hsafe, hquiescent⟩)

theorem idleWake_completes : Claims.idleWake := fun _ => rfl

/-- Settles O56: the module is in the state that its event asks for. -/
theorem moduleEvents : Obligations.ModuleEvents :=
  ⟨vfEnable_completes, vfDisable_completes, warmReset_completes, perstNRelease_completes, modulePowerOn_completes, powerDown_completes,
    idleEntry_completes, idleWake_completes⟩

theorem powerCapAdjust_completes : Claims.powerCapAdjust := by
  intro s mean hpower
  exact ⟨congrArg Host.Outcome.next (if_neg (not_unpowered hpower)), congrArg Host.Outcome.next (if_neg (not_unpowered hpower))⟩

theorem powerPeakLimit_completes : Claims.powerPeakLimit := by
  intro s watts centiamps hpower hpeak
  refine congrArg Host.Outcome.next (if_pos ?_)
  rw [hpower, Bool.true_and, ← Bool.decide_or]
  exact decide_eq_true hpeak

/-- A powered module acts on a temperature that reaches the row's threshold. -/
theorem not_unpowered_or_below {s : State} {c limit : Nat} (hpower : s.pwr.powered = true) (hc : limit ≤ c) :
    ¬ (s.pwr.powered = false ∨ c < limit) := not_or.mpr ⟨not_unpowered hpower, Nat.not_lt.mpr hc⟩

theorem thermalThrottle_completes : Claims.thermalThrottle := by
  intro s c hpower hc
  refine ⟨fun hcool => ?_, fun st hst hcool => ?_⟩
  · exact congrArg Host.Outcome.next ((if_neg (not_unpowered_or_below hpower hc)).trans (if_neg (ne_true_of_eq_false hcool)))
  · refine congrArg Host.Outcome.next ((if_neg (not_unpowered_or_below hpower hc)).trans (if_neg ?_))
    exact not_or.mpr ⟨Nat.not_le.mpr hst, ne_true_of_eq_false hcool⟩

theorem limit105_completes : Claims.limit105 := by
  intro s c hpower hc hcool
  exact congrArg Host.Outcome.next ((if_neg (not_unpowered_or_below hpower hc)).trans (if_neg (ne_true_of_eq_false hcool)))

theorem thermalTrip_completes : Claims.thermalTrip := by
  intro s c hpower
  refine ⟨fun hc => ?_, fun st hst hc => ?_⟩
  · exact congrArg Host.Outcome.next ((if_neg (not_unpowered hpower)).trans (if_neg (Nat.not_lt.mpr hc)))
  · exact congrArg Host.Outcome.next ((if_neg (not_unpowered hpower)).trans (if_neg (by omega)))

theorem hbmRefreshDouble_completes : Claims.hbmRefreshDouble := by
  intro s st c hpower hc hst hsingle
  refine congrArg Host.Outcome.next (if_neg ?_)
  rintro (h | h | h | h)
  · exact not_unpowered hpower h
  · omega
  · omega
  · exact ne_true_of_eq_false hsingle h

theorem temperatureRecovered_completes : Claims.temperatureRecovered := by
  intro s c hpower
  exact ⟨congrArg Host.Outcome.next (if_neg (not_unpowered hpower)),
    fun st => congrArg Host.Outcome.next (if_neg (not_unpowered hpower))⟩

theorem supplySag_completes : Claims.supplySag := by
  intro s v hpower hsag
  exact congrArg Host.Outcome.next (if_neg (not_or.mpr ⟨not_unpowered hpower, hsag⟩))

theorem sagEnd_completes : Claims.sagEnd := by
  intro s v hsag hv
  exact congrArg Host.Outcome.next (if_pos ⟨hsag, hv⟩)

theorem supplyUnder_completes : Claims.supplyUnder := by
  intro s v hpower hv
  exact congrArg Host.Outcome.next (if_neg (not_or.mpr ⟨not_unpowered hpower, Nat.not_le.mpr hv⟩))

theorem supplyUnderEnd_completes : Claims.supplyUnderEnd := by
  intro s v hpower hv
  exact congrArg Host.Outcome.next (if_pos (by rw [hpower, decide_eq_true hv]; rfl))

theorem leak_completes : Claims.leak := fun _ hpower => execLeak_of_powered hpower

theorem leakCleared_completes : Claims.leakCleared := by
  intro s hpower
  exact congrArg Host.Outcome.next (if_neg (not_unpowered hpower))

theorem pllUnlock_completes : Claims.pllUnlock := by
  intro s n f hf hlocked
  refine congrArg Host.Outcome.next ?_
  rw [hf]
  exact if_pos hlocked

theorem pllLockRegained_completes : Claims.pllLockRegained := by
  intro s n f hf hlasts
  refine congrArg Host.Outcome.next ?_
  rw [hf]
  exact if_pos hlasts

/-- Settles O57: the module is powered and its reading passes the threshold, so the row acts. -/
theorem powerEvents : Obligations.PowerEvents :=
  ⟨powerCapAdjust_completes, powerPeakLimit_completes, thermalThrottle_completes, limit105_completes, thermalTrip_completes,
    hbmRefreshDouble_completes, temperatureRecovered_completes, supplySag_completes, sagEnd_completes, supplyUnder_completes,
    supplyUnderEnd_completes, leak_completes, leakCleared_completes, pllUnlock_completes, pllLockRegained_completes⟩

end Sys2Proof.Proofs
end
